-- ==== Sys2Proof/Word.lean ====
section
/-!
DEFINITION. Word types of the part: register words, bytes, times, and the plainest arithmetic on them.
-/

namespace Sys2Proof

/-- A 32-bit register word (02 R36). -/
abbrev Word := BitVec 32

/-- A byte of a store or of host memory. -/
abbrev Byte := BitVec 8

/-- Fabric time with its fraction: epoch [111:96], count of fu [95:32], fraction in 2^-32 fu [31:0]
(00 R9, 03 "Fabric time inside one part"). Adding wraps the count into the epoch and the epoch to zero. -/
abbrev FTime := BitVec 112

/-- A fabric time as an order or a set names it: epoch [79:64], count [63:0] (00 R9). -/
abbrev FT80 := BitVec 80

/-- A core-cycle increment in fu with 32 fraction bits (04 R87). -/
abbrev Inc := BitVec 64

end Sys2Proof
end

