-- ==== Sys2Proof/Syntax.lean ====
section
/-!
DEFINITION. The commands of the part: one constructor of `Instr` for each row of spec/opcode_table.json.
The table gives the rows no fields; the operands here are what the rule of the row needs from outside the part
(who writes, which byte enables, which unit, which data a link, a pin or host memory delivers).
-/

namespace Sys2Proof

/-- The two requesters of register accesses (02 "Requesters and contexts"). -/
inductive Requester where
  | host
  | housekeeping
  deriving DecidableEq, Repr

/-- The four PLLs (04 Model). -/
inductive Pll where
  | spll
  | mpll
  | fpll
  | hpll
  deriving DecidableEq, Repr

/-- Which reference a monitor judged: the one that the PLL takes, or the REF10M pin, which the election of 13 R338 asks
for whichever reference the FPLL takes (04 R103). -/
inductive RefPin where
  | own
  | ref10m
  deriving DecidableEq, Repr

/-- Which write a single-register access is: requester, byte enables and data (02 R36). -/
structure Wr where
  rq : Requester
  be : BitVec 4
  value : Word
  deriving DecidableEq, Repr

/-- What an upset flips (00 R16, 02 R54): a bit of a register, or in a requester's context of a window an arm, the mailbox's
selector, capture or state, a status bit or a record. -/
inductive Upset where
  | register (offset : BitVec 25) (bit : Fin 32)
  | selector (rq : Requester) (window : BitVec 8) (bit : Fin 24)
  | selErr (rq : Requester) (window : BitVec 8)
  | earlyRead (rq : Requester) (window : BitVec 8)
  | arm (rq : Requester) (window : BitVec 8)
  | capture (rq : Requester) (window : BitVec 8) (bit : Fin 128)
  | valid (rq : Requester) (window : BitVec 8)
  | status (rq : Requester) (window : BitVec 8) (bit : Fin 5)
  | rejection (rq : Requester) (window : BitVec 8) (bit : Fin 32)
  deriving DecidableEq, Repr

/-- What a band search found (04 R89): coarse band, settled fine word, integrator, die temperature. -/
structure SearchResult where
  coarse : BitVec 8
  fine : BitVec 16
  integ : BitVec 24
  temp : BitVec 8
  deriving DecidableEq, Repr

/-- How a host read failed (05 R140, R141 AUX of HOST_FAULT). -/
inductive HostCause where
  | unsupported
  | abort
  | poisoned
  | timeout
  | ecrc
  deriving DecidableEq, Repr

/-- What host memory answered to a descriptor fetch: the consecutive slots from the ring's consumer position, or
a failed read (05 R133, R140). -/
inductive FetchData where
  | slots (words : List (BitVec 512))
  | failed (cause : HostCause)
  deriving DecidableEq, Repr

/-- An order issued by housekeeping (03 R70 rank 5): the fields of R124 without a descriptor. -/
structure HkOrder where
  asap : Bool
  effect : FT80
  lane : BitVec 3
  seqMask : BitVec 24
  action : BitVec 128
  deriving DecidableEq, Repr

/-- One access waiting at a Firn bank (06 R150): its port (0-31 readers, 32 control engine, 33 table, 34-37 prefetch,
38 Rime, 39 host DMA), the row, what it does, and the bank cycles it has waited. -/
structure FirnReq where
  port : Fin 40
  row : BitVec 13
  write : Option (BitVec 512)
  waited : Nat
  deriving DecidableEq, Repr

/-- A read of a Rime march that mismatched (06 R162): its element (0 to 5, and 6 to 11 with the checkerboard) and the word of
the region. -/
structure MarchMiss where
  element : Fin 12
  word : Fin 64
  deriving DecidableEq, Repr

/-- Who sends a Moraine request (07 "The path of a request"). -/
inductive MorSource where
  | host
  | stream (s : Fin 32)
  | helper
  deriving DecidableEq, Repr

/-- One request at a Moraine channel: a 64-byte burst at a channel-local address (07 R177). -/
structure MorReq where
  source : MorSource
  ca : BitVec 38
  write : Option (BitVec 512)
  deriving DecidableEq, Repr

/-- The calibration steps of R192 (kinds as in 14 R382). -/
inductive CalKind where
  | zqcal
  | dqsOsc
  | phy
  deriving DecidableEq, Repr

/-- A run of due samples that lack data because something was late (08 R232: PRELOAD, STAGE_DRY or TABLE_LATE):
the cause code, the offset of the first missing sample in the PLAY, and how many samples miss. -/
structure Late where
  cause : BitVec 8
  first : Nat
  count : Nat
  deriving DecidableEq, Repr

/-- The pattern registers of a line that PATTERN_REGISTER_WRITE names (09 R249, R250). -/
inductive PatReg where
  | addr
  | len
  | store
  deriving DecidableEq, Repr

/-- How DIMM detection read one channel's SPD (07 R172). -/
inductive DimmRead where
  | absent
  | unsupported
  | fitted (width4 : Bool) (gb32 : Bool) (ranks2 : Bool) (speed : BitVec 8)
  deriving DecidableEq, Repr

/-- An election key with its distance (13 R338). -/
structure ElectKey where
  cls : BitVec 2
  prio : BitVec 8
  dieId : BitVec 64
  deriving DecidableEq, Repr

/-- The header of a packet as it arrives: the link it arrives on, SRC, DEST, TTL and what is left of ROUTE (13 R334). -/
structure Hdr where
  link : Fin 8
  src : BitVec 12
  dest : BitVec 16
  ttl : BitVec 5
  route : BitVec 48
  deriving DecidableEq, Repr

/-- Credits of a link-control flit (13 R332). -/
structure Credits where
  vc0 : BitVec 8
  vc1 : BitVec 8
  vc2 : BitVec 8
  deriving DecidableEq, Repr

/-- A TIME packet as received: its SRC, its BODY fields and the receiver's stamp (13 R334, R335, R349). -/
structure TimePkt where
  src : BitVec 12
  txPrev : BitVec 64
  rxLast : BitVec 64
  idx : BitVec 4
  echoIdx : BitVec 4
  locked : Bool
  rxStamp : BitVec 64
  deriving DecidableEq, Repr

/-- One link of a REPORT payload (13 R335). -/
structure ReportLink where
  link : BitVec 3
  peerLink : BitVec 3
  peerDie : BitVec 64
  delay : Word
  deriving DecidableEq, Repr

/-- A REPORT payload (13 R335, R339). -/
structure ReportPkt where
  dieId : BitVec 64
  claimCurrent : Bool
  claimPreferred : Bool
  claimAddr : BitVec 12
  hop : BitVec 5
  links : List ReportLink
  deriving DecidableEq, Repr

/-- One part of a CONFIG set (13 R335): part 0 carries the node's place, parts 1 to 9 carry 480 table entries each. -/
inductive ConfigPart where
  | place (addr : BitVec 12) (parent : Option (BitVec 3)) (tree : BitVec 8) (hop : BitVec 5)
  | table (part : Fin 9) (entries : List (BitVec 4))
  deriving DecidableEq, Repr

/-- A LAUNCH packet as received (13 R335). -/
structure LaunchPkt where
  src : BitVec 12
  dest : BitVec 16
  effect : FT80
  prio : BitVec 4
  lane : BitVec 3
  seqMask : BitVec 24
  action : BitVec 128
  orderSeq : BitVec 32
  tag : Word
  ttl : BitVec 5
  deriving DecidableEq, Repr

/-- A MAIL fragment as received (13 R335, R361). -/
structure MailPkt where
  src : BitVec 12
  dest : BitVec 16
  msgId : BitVec 16
  frag : BitVec 3
  len : BitVec 11
  mtype : BitVec 8
  tag : Word
  ttl : BitVec 5
  payload : List Byte
  deriving DecidableEq, Repr

/-- A NAK as received (13 R335, R362). -/
structure NakPkt where
  src : BitVec 12
  dest : BitVec 16
  cause : BitVec 4
  origType : BitVec 4
  origDest : BitVec 16
  tag : Word
  seq : Word
  seqMask : BitVec 24
  ttl : BitVec 5
  deriving DecidableEq, Repr

/-- Why a flit counts as lost (13 R330, R332, R335). -/
inductive LostKind where
  | packet
  | linkControl
  | laneDisagree
  | unlistedType
  deriving DecidableEq, Repr

/-- How one firmware load from flash ended (15 R389). -/
inductive FlashResult where
  | image0
  | image1
  | bothFailed
  deriving DecidableEq, Repr

/-- The training result of a Moraine channel (07 R197). -/
inductive TrainResult where
  | passed
  | failed (step : Fin 8)
  deriving DecidableEq, Repr

/-- The registers that one write request covers: the first one's write, and the byte enables and words of the registers
that follow it in ascending order (02 R36). -/
structure Wrs where
  first : Wr
  rest : List (BitVec 4 × Word)
  deriving DecidableEq, Repr

/-- The registers that one read request covers: the first one's byte enables, and those of the registers that follow it in
ascending order (02 R36). -/
structure Rds where
  first : BitVec 4
  rest : List (BitVec 4)
  deriving DecidableEq, Repr

/-- A command of the part: one constructor per row of spec/opcode_table.json, in the table's order. -/
inductive Instr where
  -- register access (02)
  | registerWrite (offset : BitVec 25) (w : Wrs)
  | outsideWrite (offset : BitVec 25) (w : Wr)
  | setAliasWrite (offset : BitVec 25) (w : Wr)
  | clearAliasWrite (offset : BitVec 25) (w : Wr)
  | toggleAliasWrite (offset : BitVec 25) (w : Wr)
  | unlockKeyWrite (window : BitVec 8) (rq : Requester) (be : BitVec 4)
  | unlockDisarmWrite (window : BitVec 8) (w : Wr)
  | wvSelect (window : BitVec 8) (rq : Requester) (space : BitVec 8) (index : BitVec 16)
  | wvCapture (window : BitVec 8) (rq : Requester)
  | wvDataRead (window : BitVec 8) (rq : Requester) (d : Fin 3) (be : BitVec 4)
  | wvD3Read (window : BitVec 8) (rq : Requester) (be : BitVec 4)
  | shadowCompare
  | registerUpset (u : Upset)
  | globalEnWrite (w : Wr)
  -- tick and time (03)
  | tickRunSet (rq : Requester) (be : BitVec 4)
  | firstTickStart
  | tickRunClear (rq : Requester) (be : BitVec 4)
  | tickStopFlush
  | tickBoundary
  | stagedConfigurationCommit
  | controlLawEvaluation
  | sequencerCommitOfOrders
  | loopSupervision
  | telemetrySnapshot
  | ftLoad (rq : Requester) (be : BitVec 4)
  | orderQueueArrival (hk : Option HkOrder)
  | stageSetArrival
  -- orders at their effect sample (08)
  | orderStart (seq : Fin 24)
  | orderStopNow (seq : Fin 24)
  | orderStopSegmentEnd (seq : Fin 24)
  | orderJumpNow (seq : Fin 24)
  | orderJumpSegmentEnd (seq : Fin 24)
  | orderSetFlag (seq : Fin 24)
  | orderClearFlag (seq : Fin 24)
  | orderNco (seq : Fin 24)
  | orderForceRelease (seq : Fin 24)
  | orderForceSafe (seq : Fin 24)
  | orderForceHold (seq : Fin 24)
  -- events and triggers (08, 09)
  | eventInputEdge (input : Fin 16) (levels : BitVec 16)
  | jumpNow (seq : Fin 24) (trig : Fin 8) (sample : Fin 16)
  | jumpSegEnd (seq : Fin 24) (trig : Fin 8) (sample : Fin 16)
  | setFlag (seq : Fin 24) (trig : Fin 8) (sample : Fin 16)
  | start (seq : Fin 24) (trig : Fin 8) (sample : Fin 16)
  | stopNow (seq : Fin 24) (trig : Fin 8) (sample : Fin 16)
  | forceSafe (seq : Fin 24) (trig : Fin 8) (sample : Fin 16)
  | forceRelease (seq : Fin 24) (trig : Fin 8) (sample : Fin 16)
  -- clocks (04)
  | pllEnable (pll : Pll) (w : Wr)
  | pllDisable (pll : Pll) (w : Wr)
  | bandSearchDone (pll : Pll) (idle : Bool) (found : Option SearchResult)
  | pllLock (pll : Pll) (phaseErr : Word)
  | acquireTimeout (pll : Pll)
  | lockLoss (pll : Pll) (phaseErr : Word)
  | bypassRetry (pll : Pll)
  | referenceLoss (pll : Pll) (pin : RefPin)
  | referenceReturn (pll : Pll) (pin : RefPin)
  | holdoverExit (pll : Pll) (phaseDiff : BitVec 32)
  | holdMaxExpiry (pll : Pll)
  | refselChange (pll : Pll) (w : Wr) (present : Bool)
  | spllSearch (w : Wr)
  | bandTableLoad (w : Wr)
  | fcwApply (pll : Pll) (rq : Requester) (be : BitVec 4)
  | hopRequest (w : Wr)
  | hopDecision (qualified : Bool)
  | hopSwitchover
  | phaseStepWrite (w : Wr)
  | clockOutputApply (w : Wr)
  | clockOutputLive
  -- host interface (05)
  | doorbell (ring : Fin 256) (be : BitVec 4) (value : Word)
  | doorbellOutside (ring : Fin 256) (offset : BitVec 12) (value : Word)
  | ringEnable (ring : Fin 256) (w : Wr)
  | ringDisable (ring : Fin 256) (w : Wr)
  | descriptorFetch (mem : FetchData)
  | nop (ring : Fin 256)
  | write (ring : Fin 256) (payload : List Byte)
  | read (ring : Fin 256)
  | order (ring : Fin 256)
  | stage (ring : Fin 256) (image : List (BitVec 64))
  | fence (ring : Fin 256)
  | send (ring : Fin 256) (payload : List Byte)
  | fenceCompletion (ring : Fin 256)
  | dmaCompletion (ring : Fin 256) (slot : BitVec 15) (rest : List Byte)
  | hostFault (ring : Fin 256) (slot : BitVec 15) (cause : HostCause)
  | overflowRecord (ring : Fin 256)
  | msixAgeTimeout (ring : Fin 256)
  | msixVectorUnmask (vector : Fin 512) (rq : Requester) (be : BitVec 4)
  | bar4Read (addr : BitVec 27) (length : Nat)
  | bar4Write (addr : BitVec 27) (data : List Byte)
  | bar4Timeout (read : Bool)
  | d3hotEntry
  | d0Return
  | dlDown
  | dlUp (gen : BitVec 3) (width : BitVec 5)
  -- Firn (06)
  | firnAccessServed (bank : Fin 256) (reqs : List FirnReq) (flips : BitVec 576)
  | eccWriteBack
  | rimeRegionStart
  | rimeCopyDone
  | rimeTestDone (mismatched : List MarchMiss)
  | rimeRestoreDone
  | rimeTimeout
  | bankCopyStart
  | bankCopySkip (rows : List (BitVec 13))
  | bankCopyDone
  | firnCmdRepair (rq : Requester) (be : BitVec 4) (bank : BitVec 15)
  | firnCmdRetire (rq : Requester) (be : BitVec 4) (region : BitVec 15)
  -- Moraine (07)
  | morMapWrite (w : Wr)
  | morChannelEnable (ch : Fin 4) (w : Wr)
  | morTrainingDone (ch : Fin 4) (result : TrainResult)
  | morRequest (ch : Fin 4) (req : MorReq)
  | morReadReturn (ch : Fin 4) (flips : BitVec 640)
  | refreshDue (ch : Fin 4) (sub : Bool) (rank : Bool)
  | rfm (ch : Fin 4) (bank : BitVec 7)
  | selfRefreshEntry (ch : Fin 4)
  | sre (ch : Fin 4)
  | srx (ch : Fin 4)
  | calibrationDue (ch : Fin 4) (kind : CalKind)
  | calibrationSkip (ch : Fin 4) (kind : CalKind)
  | alertN (ch : Fin 4)
  | replayEnd (ch : Fin 4)
  | thNone (ch : Fin 4) (w : Wr)
  | thWriteRead (ch : Fin 4) (w : Wr)
  | thReadCmp (ch : Fin 4) (w : Wr)
  | thWrite (ch : Fin 4) (w : Wr)
  | thMrw (ch : Fin 4) (w : Wr)
  | thMrr (ch : Fin 4) (w : Wr)
  | thMpc (ch : Fin 4) (w : Wr)
  | thCaSample (ch : Fin 4) (w : Wr)
  | thWlSample (ch : Fin 4) (w : Wr)
  | thDone (ch : Fin 4) (flips : List (Nat × BitVec 512)) (checkFlips : List (Nat × BitVec 128)) (feedback : Word)
      (mrr : BitVec 8)
  | streamOpen (str : Fin 32) (srcMa : BitVec 38) (length : Nat) (base : BitVec 15) (regions : BitVec 15)
  | streamReadIssue (str : Fin 32)
  | streamClose (str : Fin 32)
  | morMapSwitch
  -- playout (08)
  | seqCtrlWrite (seq : Fin 24) (w : Wr)
  | playEntry (seq : Fin 24) (late : Option Late)
  | loopEntry (seq : Fin 24)
  | endloopEntry (seq : Fin 24)
  | jumpEntry (seq : Fin 24)
  | waitEntry (seq : Fin 24)
  | ncoEntry (seq : Fin 24)
  | endEntry (seq : Fin 24)
  | playEnd (seq : Fin 24)
  | burstOwnEnd (seq : Fin 24)
  | tableFetch (seq : Fin 24)
  | slotWrite (seq : Fin 24) (slot : Fin 8) (w : Wr)
  | slotPreloadDone (seq : Fin 24) (slot : Fin 8)
  | underrunEpisodeEnd (seq : Fin 24)
  | markerSet (seq : Fin 24) (line : Fin 64) (sample : Fin 16)
  | markerClear (seq : Fin 24) (line : Fin 64) (sample : Fin 16)
  | markerToggle (seq : Fin 24) (line : Fin 64) (sample : Fin 16)
  | markerPulse (seq : Fin 24) (line : Fin 64) (sample : Fin 16) (width : BitVec 16)
  | pulseEnd (line : Fin 64)
  | jesdSyncHigh
  | ilasEnd
  | jesdReinitRequest
  -- pattern lines and angle trackers (09)
  | patternRegisterWrite (line : Fin 64) (reg : PatReg) (w : Wr)
  | patternPreloadDone (line : Fin 64)
  | patternStart (line : Fin 64) (sample : Fin 16)
  | patternWrap (line : Fin 64)
  | toothEdge (tracker : Fin 2) (since : BitVec 32)
  | toothMiss (tracker : Fin 2)
  | intervalOverflow (tracker : Fin 2)
  | angleEventFire (event : Fin 32) (sample : Fin 16)
  | freeRunEnd (tracker : Fin 2)
  -- trigger logic (10)
  | tlaShadowStore (w : Wr)
  | tlaCheck (rq : Requester) (be : BitVec 4)
  | checkDone
  | tlaSwap (rq : Requester) (be : BitVec 4)
  | tlaEnWrite (w : Wr)
  | seracWordScrub (flips : BitVec 72)
  | seracPassEnd
  | seracSkip
  | seracVote (copy : Fin 3) (bit : Fin 64)
  | seracCheck
  -- control engine (11)
  | coefficientWrite (slot : Fin 32) (w : Wr)
  | coefficientSweep (slot : Fin 32) (set : Fin 8) (entry : Fin 224) (flips : BitVec 44)
  | qlinkAligned (link : Fin 2)
  | qlinkMultiblock (link : Fin 2) (crcOk : Bool) (samples : List (List (BitVec 18)))
  | qlinkLockLost (link : Fin 2)
  -- fabric (13)
  | linkSignalDetect (link : Fin 8)
  | linkTrained (link : Fin 8)
  | trainTimeout (link : Fin 8)
  | hello (link : Fin 8) (dieId : BitVec 64) (peerLink : BitVec 3) (calDone : Bool) (cr : Credits)
  | helloSend (link : Fin 8)
  | helloTimeout (link : Fin 8)
  | linkAck (link : Fin 8) (ackLseq : BitVec 8) (cr : Credits)
  | replayReq (link : Fin 8) (ackLseq : BitVec 8) (replayLseq : BitVec 8) (cr : Credits)
  | idle (link : Fin 8) (cr : Credits)
  | blockLockLost (link : Fin 8)
  | timeSend (link : Fin 8) (txStamp : BitVec 64)
  | time (link : Fin 8) (pkt : TimePkt)
  | elect (link : Fin 8) (key : ElectKey) (dist : BitVec 5)
  | electionDecision
  | discover (link : Fin 8) (gen : BitVec 16) (hop : BitVec 5) (path : List (BitVec 3))
  | reportSend
  | report (h : Hdr) (pkt : ReportPkt)
  | collectionEnd
  | config (h : Hdr) (gen : BitVec 16) (part : ConfigPart)
  | configResend
  | ack (h : Hdr) (gen : BitVec 16) (node : BitVec 64)
  | commit (link : Fin 8) (gen : BitVec 16) (commitFt : FT80)
  | commitLive
  | beaconSend
  | beacon (link : Fin 8) (gen : BitVec 16) (rootAddr : BitVec 12) (rootDie : BitVec 64)
  | beaconLoss
  | joinTimeout
  | topo (h : Hdr) (gen : BitVec 16) (link : BitVec 3) (state : BitVec 3)
  | launch (link : Fin 8) (pkt : LaunchPkt)
  | launchSendDone (ring : Fin 256) (slot : BitVec 15)
  | mail (link : Fin 8) (pkt : MailPkt)
  | mailLost (src : BitVec 12) (msgId : BitVec 16)
  | nak (link : Fin 8) (pkt : NakPkt)
  | ppsEdge (offset : BitVec 16)
  | ppsLost
  | timeHoldEnd
  | nzlCmdElect (rq : Requester) (be : BitVec 4)
  | nzlCmdReenum (rq : Requester) (be : BitVec 4)
  -- faults (14)
  | faultDetection
  | budgetWindowClose (cls : BitVec 8) (kind : BitVec 4) (index : Nat)
  | drainWindowEnd (kind : BitVec 4) (index : BitVec 16)
  | fltRetire (w : Wr)
  | padMismatch (line : Fin 64)
  | serializerLockLoss (link : Fin 9)
  -- the rows that stand last in the table
  | clearOnRead (offset : BitVec 25) (rq : Requester) (be : Rds)
  | lostFlit (link : Fin 8) (kind : LostKind)
  | deadTimeEnd (pair : Fin 32) (high : Bool) (pending : Bool)
  | minPulseEnd (pair : Fin 32) (high : Bool)
  | angleEventRearm (event : Fin 32)
  | serializerRelock (link : Fin 9)
  | stampPathCalibration (link : Fin 8)
  -- reset and bring-up (15, 16)
  | supplyExcursion (supply : Fin 11)
  | fullReset (w : Wr)
  | coreReset (w : Wr)
  | resetRelease (straps : BitVec 16)
  | fwLoad (result : FlashResult)
  | hostBootGo (w : Wr) (crcOk : Bool)
  | baseReady (version : Word) (dimms : List DimmRead)
  | bringup (rq : Requester) (be : BitVec 4) (seq : BitVec 8)
  | sysref (rq : Requester) (be : BitVec 4) (seq : BitVec 8)
  | fixedTable (rq : Requester) (be : BitVec 4) (seq : BitVec 8)
  | badOpcode (rq : Requester) (be : BitVec 4) (opcode : BitVec 8) (seq : BitVec 8)
  | thermalReading (temps : List (BitVec 12))
  | supplyMeasurement (millivolts : List (BitVec 16))
  -- commands of these chapters that have no operand
  | por
  | pcieReset
  | firnInit
  | bringupStageTimeout
  | sysrefEvent
  | thermalTrip
  | tripRelease
  -- boundary scan (16)
  | extest
  | samplePreload
  | idcode
  | clamp
  | highz
  | bypass
  | tapReset
  deriving DecidableEq, Repr

end Sys2Proof
end

