-- ==== Sys2Proof/Config.lean ====
section
/-!
DEFINITION. What an implementation fixes and the spec leaves open: opaque constants, so that no proof can lean on a
value of theirs. A step that takes a fresh value applies one of them to the state's counter `free` (log 1).
-/

namespace Sys2Proof

/-- A value the spec leaves open, numbered by the state's counter `free` (log 1). -/
opaque Config.freeBits : Nat → BitVec 512

/-- TOP_STEPPING [15:0]: mask and metal stepping of the silicon (02 TOP_STEPPING; log 2). -/
opaque Config.stepping : BitVec 16

/-- The die identifier, fixed at manufacture (02 TOP wide values; log 2). -/
opaque Config.dieId : BitVec 64

/-- Bit n of the PRBS7 (false) or PRBS15 (true) sequence from a seed: the spec names the sequences and gives no polynomial
(07 R198; log 3). -/
opaque Config.prbs : Bool → BitVec 16 → Nat → Bool

/-- Whether the mode registers of a channel's DIMM require refresh management: data of the DIMM (07 R186; log 25). -/
opaque Config.rfmRequired : Nat → Bool

/-- Whether the SPD hub of a channel's DIMM reports above 85 °C in a controller cycle of a number: the sensor's (07 R185;
log 53). -/
opaque Config.dimmHot : Nat → Nat → Bool

/-- The write DQS delay of a nibble (subchannel, rank, nibble as one number) that a reading of the DQS interval oscillator of a
number gives: the DIMM's (07 R192; log 54). -/
opaque Config.dqsDelay : Nat → Nat → Nat → BitVec 12

/-- What a Moraine burst that nothing has written reads as, keyed by channel, trainings of the channel so far, and
address: DRAM after power-up or training has no stated contents (log 5). -/
opaque Config.morInit : Nat → Nat → Nat → BitVec 512

/-- The phase error in fu that the TDC of PLL `p` measures in its reference period of a number: the analog loop's
(04 R101, R102; log 35). -/
opaque Config.tdcErr : Nat → Nat → BitVec 32

/-- For how many of the DIV samples of its period clock output k is high: the spec gives the rate, the delay and no duty cycle
(04 R109; log 37). -/
opaque Config.coHigh : Nat → Nat → Nat

/-- The timing parameter of an index that the SPD of a channel's DIMM gives: data of the DIMM (07 MOR_Dn_TIM_VAL; log 25). -/
opaque Config.spdTiming : Nat → Nat → BitVec 16

end Sys2Proof
end

