-- ==== Sys2Proof/Machine/Operands.lean ====
section
/-!
DEFINITION. Operands: bit fields of words (00 R13), byte lanes and field masks of a write (02 R36), the requester's number,
the offset of a register in a quarter of its window (02, Model).
-/

namespace Sys2Proof.Machine

/-- Bits [lo + w - 1 : lo] of a word. -/
def bits {n : Nat} (v : BitVec n) (lo w : Nat) : Nat := v.toNat / 2 ^ lo % 2 ^ w

/-- Bit `i` of a word. -/
def bitOf {n : Nat} (v : BitVec n) (i : Nat) : Bool := v.getLsbD i

/-- A word with bits [lo + w - 1 : lo] replaced. -/
def putBits {n : Nat} (v : BitVec n) (lo w x : Nat) : BitVec n :=
  (v &&& ~~~ BitVec.ofNat n ((2 ^ w - 1) * 2 ^ lo)) ||| BitVec.ofNat n (x % 2 ^ w * 2 ^ lo)

/-- A word with one bit. -/
def bit1 (i : Nat) : Word := BitVec.ofNat 32 (2 ^ i)

/-- Ceiling of a quotient. -/
def cdiv (a b : Nat) : Nat := (a + b - 1) / b

/-- The number of a Boolean. -/
def b01 (b : Bool) : Nat := if b then 1 else 0

/-- The number of a requester. -/
def Requester.code (r : Requester) : Nat := match r with | .host => 0 | .housekeeping => 1

/-- The bits on the enabled byte lanes. -/
def laneMask (be : BitVec 4) : Word :=
  BitVec.ofNat 32 ((List.range 4).foldl (fun m i => m + b01 (be.getLsbD i) * (255 * 256 ^ i)) 0)

/-- A write with some fields fixed: the bits of `m` take those of `v`. -/
def fixed (w : Wr) (m v : Word) : Wr := { w with value := (w.value &&& ~~~ m) ||| (v &&& m) }

/-- An offset as quarter q of its window shows it (02, Model; R39). -/
def aliasOff (off q : Nat) : Nat := off / 0x10000 * 0x10000 + q * 0x4000 + off % 0x4000

end Sys2Proof.Machine
end

