-- ==== Sys2Proof/Machine/RegMap.lean ====
section
/-!
DEFINITION. The register map of BAR0: which registers each window holds, their guarding and aliases, and the
writable and clearing fields of each register with reset value and listed encodings (R34, R14, and the Registers
sections of chapters 02 to 16). Read-only fields are not stored: they are views of the machine's state.
-/

namespace Sys2Proof.Machine

/-- The access code of a field (R14); read-only fields are left out of the map. -/
inductive Acc where
  | rw
  | rc
  | wo
  | wp
  deriving DecidableEq, Repr

/-- Which values of a field its table lists (R3). -/
inductive Enc where
  | any
  | range (lo hi : Nat)
  | listed (l : List Nat)
  deriving DecidableEq, Repr

/-- One field of a register: lowest bit, width, access, reset value, listed values. -/
structure Field where
  lo : Nat
  width : Nat
  acc : Acc
  reset : Nat
  enc : Enc
  deriving DecidableEq, Repr

/-- One register, or an array of `count` registers `stride` bytes apart. -/
structure RegRow where
  off : Nat
  stride : Nat
  count : Nat
  guarded : Bool
  aliases : Bool
  fields : List Field
  deriving DecidableEq, Repr

/-- A read/write field that accepts every value. -/
def fRW (lo width reset : Nat) : Field := ⟨lo, width, .rw, reset, .any⟩
/-- A read/write field with a range of listed values. -/
def fRange (lo width reset a b : Nat) : Field := ⟨lo, width, .rw, reset, .range a b⟩
/-- A read/write field with a list of values. -/
def fList (lo width reset : Nat) (l : List Nat) : Field := ⟨lo, width, .rw, reset, .listed l⟩
/-- A field that a read clears. -/
def fRC (lo width : Nat) : Field := ⟨lo, width, .rc, 0, .any⟩
/-- A write-only field. -/
def fWO (lo width : Nat) : Field := ⟨lo, width, .wo, 0, .any⟩
/-- A pulse field. -/
def fWP (lo width : Nat) : Field := ⟨lo, width, .wp, 0, .any⟩

/-- An unguarded register without aliases. -/
def reg (off : Nat) (fields : List Field) : RegRow := ⟨off, 4, 1, false, false, fields⟩
/-- An unguarded register with aliases. -/
def regA (off : Nat) (fields : List Field) : RegRow := ⟨off, 4, 1, false, true, fields⟩
/-- A guarded register without aliases. -/
def regG (off : Nat) (fields : List Field) : RegRow := ⟨off, 4, 1, true, false, fields⟩
/-- A guarded register with aliases. -/
def regGA (off : Nat) (fields : List Field) : RegRow := ⟨off, 4, 1, true, true, fields⟩
/-- The same register repeated. -/
def RegRow.times (r : RegRow) (stride count : Nat) : RegRow := { r with stride := stride, count := count }
/-- A counter register that holds at its top (RC). -/
def regCnt (off : Nat) : RegRow := reg off [fRC 0 32]
/-- A register whose fields are read-only. -/
def regRO (off : Nat) : RegRow := reg off []

/-- TOP registers (02 Registers). -/
def rowsTop : List RegRow :=
  [regRO 0x0000, regRO 0x0004, regRO 0x0008, regRO 0x000C, regRO 0x0010,
   regA 0x0014 [fRW 0 32 0],
   regGA 0x0020 [fRW 1 1 0, fRW 0 1 0],
   reg 0x0030 [fRC 0 1], regRO 0x0034, regCnt 0x0040, regRO 0x0044]

/-- HIF registers (05 Registers); the MSI-X table and PBA stand at 0x1800 and 0x3800. -/
def rowsHif : List RegRow :=
  [regGA 0x0000 [fRW 1 1 0, fRW 0 1 0],
   reg 0x0004 [fRC 1 1],
   reg 0x0010 [fRW 0 16 2000],
   reg 0x0014 [fRange 0 20 48000 1 1000000], reg 0x0018 [fRange 0 20 40000 1 1000000],
   reg 0x001C [fRange 0 20 10000 1 1000000],
   reg 0x0020 [fRange 0 10 64 1 1023], reg 0x0024 [fRange 0 10 256 1 1023],
   regRO 0x0028, regRO 0x002C, regRO 0x0030,
   regA 0x0040 [fRW 31 1 0, fRW 0 9 0],
   reg 0x0044 [fRC 2 1, fRC 1 1, fRC 0 1],
   reg 0x0050 [fRW 8 8 0, fRW 16 8 0, fRW 24 8 0],
   reg 0x0054 [fRW 0 8 0, fRW 8 8 0, fRW 16 8 0, fRW 24 8 0],
   reg 0x0058 [fRW 0 8 0], regRO 0x005C,
   regA 0x0060 [fRW 1 8 0],
   regCnt 0x0070, reg 0x0074 [fRC 16 9], regCnt 0x0078,
   (reg 0x0400 [fRW 12 20 0]).times 16 256,
   (reg 0x0404 [fRW 0 32 0]).times 16 256,
   (reg 0x0408 [fRW 24 8 0, fRange 16 8 1 1 255, fRange 10 6 16 1 63, fRW 8 2 0, fRange 4 4 4 4 15,
     fRange 1 3 0 0 5, fRW 0 1 0]).times 16 256,
   (regRO 0x040C).times 16 256,
   (reg 0x1400 [fRW 31 1 0, fRW 16 9 0, fRange 8 8 1 1 255, fRW 0 8 0]).times 4 256,
   (reg 0x1800 [fRW 2 30 0]).times 16 512,
   (reg 0x1804 [fRW 0 32 0]).times 16 512,
   (reg 0x1808 [fRW 0 32 0]).times 16 512,
   (reg 0x180C [fRW 0 1 1]).times 16 512,
   (regRO 0x3800).times 4 16,
   (reg 0x3840 [fRC 16 16, fRC 5 1, fRC 4 1, fRC 3 1, fRC 2 1, fRC 1 1]).times 4 256]

/-- TIME registers (03 Registers). -/
def rowsTime : List RegRow :=
  [regGA 0x0000 [fRW 0 1 0],
   regG 0x0004 [fRange 0 19 400 100 400000],
   regG 0x0008 [fRange 0 13 64 8 4096],
   regG 0x000C [fRange 0 11 16 4 1024],
   regG 0x0010 [fRW 0 32 0], regG 0x0014 [fRW 0 32 0], regG 0x0018 [fRW 0 16 0],
   regG 0x0020 [fRW 0 32 0], regG 0x0024 [fRW 0 32 0], regG 0x0028 [fRW 0 16 0],
   regG 0x002C [fWP 0 1],
   reg 0x0030 [fRC 4 1],
   reg 0x0034 [fRC 3 1, fRC 2 1, fRC 1 1, fRC 0 1],
   regRO 0x0038, regRO 0x003C, regRO 0x0040, regRO 0x0044, regRO 0x0048,
   regCnt 0x0050, regCnt 0x0054, regCnt 0x0058, regRO 0x005C]

/-- The nine registers of one PLL at base b, with its listed REFSEL values, POSTDIV and LINK fields, FCW and ENABLE
reset values (04 Registers). -/
def rowsPll (b : Nat) (ctrl : List Field) (n num den : Nat) : List RegRow :=
  [regGA b ctrl,
   regG (b + 0x04) [fRange 0 11 n 40 1280],
   regG (b + 0x08) [fRW 0 28 num],
   regG (b + 0x0C) [fRange 0 28 den 1 268435455],
   regG (b + 0x10) [fWP 0 1],
   regG (b + 0x14) [fRange 24 8 64 2 255, fRange 16 8 64 1 255, fRange 8 8 10 4 14, fRange 0 8 16 1 255],
   regRO (b + 0x18),
   reg (b + 0x1C) [fRC 0 11],
   regRO (b + 0x20)]

/-- CLK registers (04 Registers). CLK_BT_LOAD0 to CLK_BT_LOAD3 take any word: their N, NUM, DEN and POSTDIV are not judged
as they are written, since R91 copies them "as given" and R85 judges a point where it is used (DESIGN CHOICE, log 48). -/
def rowsClk : List RegRow :=
  rowsPll 0x00 [fRW 20 4 0, fList 14 2 0 [0, 1], fList 12 2 0 [0, 1], fRW 0 1 0] 81 23 25 ++
  rowsPll 0x40 [fRW 20 4 0, fList 14 2 0 [0], fList 12 2 0 [0, 1], fRW 0 1 0] 40 24 25 ++
  rowsPll 0x80 [fRW 20 4 0, fRange 16 4 0 0 7, fList 14 2 0 [0, 1, 2], fRW 0 1 0] 80 0 1 ++
  rowsPll 0xC0 [fRW 20 4 0, fList 14 2 0 [0], fRW 0 1 1] 61 11 25 ++
  [regG 0x0100 [fWP 31 1, fRW 0 6 0],
   regG 0x0104 [fWP 31 1, fRW 0 6 0],
   regG 0x0108 [fRange 0 13 256 16 4096],
   regG 0x010C [fWO 0 16],
   regG 0x0110 [fRange 0 7 1 1 64],
   regRO 0x0114,
   regG 0x0120 [fRW 1 28 0, fRW 29 3 0],
   regG 0x0124 [fRW 0 32 0],
   regG 0x0128 [fRW 0 32 0],
   regG 0x012C [fRW 31 1 0, fRW 0 26 0],
   regG 0x0130 [fWP 31 1, fRW 0 6 0],
   (regG 0x0200 [fRW 26 2 0, fRange 13 13 1 1 4096, fRW 0 13 0]).times 4 12,
   (regG 0x0240 [fRW 24 8 0, fRange 12 12 16 16 4095]).times 4 12,
   regG 0x0280 [fWP 0 12],
   regA 0x0300 [fRW 2 1 0, fRW 0 2 0]]

/-- FIRN registers (06 Registers). -/
def rowsFirn : List RegRow :=
  [regGA 0x0000 [fRW 0 1 0],
   regG 0x0004 [fList 16 2 0 [0, 1], fRange 0 16 4096 64 65535],
   regG 0x0008 [fRange 0 20 12288 1024 1048575],
   regG 0x000C [fRange 8 8 16 1 255, fRange 0 8 1 1 255],
   reg 0x0010 [fRange 0 16 256 16 65535],
   regG 0x0014 [fWO 30 2, fWO 0 15],
   regRO 0x0020, regRO 0x0024, regRO 0x0028,
   reg 0x0030 [fRC 0 8],
   (regCnt 0x0040).times 4 8,
   regRO 0x0060]

/-- MOR registers (07 Registers): the block's own, and the same set for each channel at 0x1000 + 0x400 n. -/
def rowsMor : List RegRow :=
  [regG 0x0000 [fRange 0 4 4 0 8],
   regRO 0x0004,
   reg 0x0008 [fRC 0 2],
   (regGA 0x1000 [fRW 4 1 0, fRW 3 1 1, fRW 2 1 0, fRW 1 1 0, fRW 0 1 0]).times 0x400 4,
   (regG 0x1004 [fRange 8 6 32 1 48, fRange 0 6 8 0 47]).times 0x400 4,
   (regG 0x1008 [fRange 0 16 2048 64 65535]).times 0x400 4,
   (regG 0x100C [fRange 0 7 32 1 64]).times 0x400 4,
   (regG 0x1010 [fRW 0 16 100]).times 0x400 4,
   (regG 0x1014 [fRange 0 8 24 4 64]).times 0x400 4,
   (regG 0x1018 [fRange 8 8 32 1 255, fRange 0 8 50 1 255]).times 0x400 4,
   (regRO 0x1020).times 0x400 4,
   (reg 0x1024 [fRC 0 6]).times 0x400 4,
   (regRO 0x1028).times 0x400 4] ++
  (List.range 12).map (fun i => (regCnt (0x1040 + 4 * i)).times 0x400 4) ++
  [(reg 0x1080 [fRW 0 5 0]).times 0x400 4,
   (regG 0x1084 [fWO 0 16]).times 0x400 4,
   (reg 0x1088 [fRW 29 1 0, fRW 28 1 0, fRange 24 4 0 0 7, fRW 0 8 0]).times 0x400 4,
   (regG 0x108C [fWO 0 12]).times 0x400 4,
   (regG 0x1100 [fWP 31 1, fRange 24 4 0 0 8, fRW 21 1 0, fRW 20 1 0]).times 0x400 4,
   (regG 0x1104 [fRW 0 32 0]).times 0x400 4,
   (regG 0x1108 [fRange 0 16 1 1 65535]).times 0x400 4,
   (regG 0x110C [fRW 30 2 0, fRange 0 16 1 1 65535]).times 0x400 4,
   (reg 0x1110 [fRC 30 1, fRC 29 1]).times 0x400 4,
   (regRO 0x1114).times 0x400 4,
   (regRO 0x1118).times 0x400 4] ++
  (List.range 16).map (fun i => (regG (0x1140 + 4 * i) [fRW 0 32 0]).times 0x400 4)

/-- MKR registers (09 Registers). -/
def rowsMkr : List RegRow :=
  [(regA 0x0100 [fRW 31 1 0, fRW 30 1 0, fRW 28 2 0]).times 4 16,
   regRO 0x0140,
   (regG 0x0200 [fRW 31 1 0, fRW 30 1 0, fRW 16 10 0, fRange 0 6 2 1 32]).times 4 32,
   (reg 0x0280 [fRC 16 16, fRC 0 16]).times 4 32,
   regCnt 0x0300, regCnt 0x0304,
   reg 0x0310 [fRC 0 3],
   (regGA 0x1000 [fRW 30 2 0, fRW 24 6 0, fRW 23 1 0, fRW 17 6 0, fRW 16 1 0, fRange 11 5 0 0 23,
     fRW 10 1 0, fRW 9 1 0, fRW 8 1 0]).times 0x20 64,
   (reg 0x1004 [fRW 0 32 0]).times 0x20 64,
   (reg 0x1008 [fRange 0 32 8192 8192 0xFFFFFFFF]).times 0x20 64,
   (reg 0x100C [fRW 31 1 0, fRange 16 15 1 1 16384, fRW 0 15 0]).times 0x20 64,
   (reg 0x1010 [fRW 16 16 0, fRW 15 1 0, fRange 0 15 2 2 32767]).times 0x20 64]

/-- ANG registers (09 Registers). -/
def rowsAng : List RegRow :=
  [(regG 0x0000 [fRW 31 1 0, fRW 30 1 0, fRange 16 3 2 1 4, fRange 0 13 60 8 4096]).times 0x100 2,
   (regRO 0x0004).times 0x100 2,
   (reg 0x0008 [fRC 0 8]).times 0x100 2,
   (regCnt 0x0010).times 0x100 2, (regCnt 0x0014).times 0x100 2, (regCnt 0x0018).times 0x100 2,
   (reg 0x0400 [fRW 31 1 0, fRW 30 1 0, fRW 29 1 0, fRW 28 1 0, fRW 0 28 0]).times 4 32]

/-- TLA registers (10 Registers). -/
def rowsTla : List RegRow :=
  [regGA 0x0000 [fRW 1 1 1, fRW 0 1 0],
   regG 0x0004 [fWP 0 1], reg 0x0008 [fWP 0 1],
   regA 0x000C [fRW 0 8 0],
   regG 0x0010 [fRW 0 16 0],
   regG 0x0018 [fRW 0 32 0], regG 0x001C [fRW 0 32 0],
   reg 0x0020 [fRW 0 12 0], reg 0x0024 [fRW 0 32 0], reg 0x0028 [fWO 0 32],
   regRO 0x0030, regRO 0x0034,
   reg 0x0038 [fRC 0 10], reg 0x003C [fRC 0 1],
   regRO 0x0040, regRO 0x0044, regRO 0x0048,
   (regCnt 0x0050).times 4 5,
   regG 0x0070 [fRange 0 16 256 16 65535]]

/-- CLE registers (11 and 12 Registers): the block's own, and the same set for each slot at 0x1000 + 0x80 n. -/
def rowsCle : List RegRow :=
  [(regG 0x0010 [fRW 31 1 0, fList 20 2 2 [0, 1, 2], fRange 0 16 16 16 65535]).times 4 2,
   (reg 0x0018 [fRC 16 16, fRC 8 3]).times 4 2,
   regRO 0x0020, regRO 0x0024, regCnt 0x0030, regCnt 0x0034, regRO 0x0038,
   reg 0x0040 [fRW 0 16 0],
   (regG 0x0100 [fRW 0 32 0]).times 4 8,
   (regGA 0x1000 [fRW 31 1 0, fRW 30 1 0, fRW 29 1 0, fRW 24 3 0, fRW 16 8 0, fRW 8 8 0, fRW 4 3 0,
     fRW 2 2 0, fRW 0 2 0]).times 0x80 32,
   (regG 0x1004 [fRW 0 32 0]).times 0x80 32,
   (regG 0x1008 [fRW 0 4 0, fRW 7 1 0, fRW 8 4 0, fRW 15 1 0, fRW 16 4 0, fRW 23 1 0, fRW 24 4 0,
     fRW 31 1 0]).times 0x80 32,
   (regG 0x100C [fRW 31 1 0, fRW 30 1 0, fRange 16 12 1 1 4095, fRW 8 6 0, fRW 0 8 0]).times 0x80 32,
   (regG 0x1010 [fRW 0 21 0]).times 0x80 32,
   (regRO 0x1014).times 0x80 32,
   (reg 0x1018 [fRC 0 9]).times 0x80 32,
   (reg 0x1020 [fRW 24 5 0, fRW 8 3 0, fRW 0 8 0]).times 0x80 32,
   (reg 0x1024 [fWO 0 32]).times 0x80 32,
   (regGA 0x1028 [fRW 31 1 0, fRW 30 1 0, fRW 29 1 0, fRW 28 1 1, fRW 24 4 0, fRW 16 8 0,
     fRange 8 8 1 1 255, fRW 0 8 0]).times 0x80 32,
   (regG 0x102C [fRW 16 16 0x7FFF, fRW 0 16 0]).times 0x80 32,
   (regG 0x1030 [fRW 0 16 0]).times 0x80 32,
   (regG 0x1034 [fRange 30 2 0 0 2, fRW 28 2 0, fRW 24 3 0, fRW 0 16 0]).times 0x80 32,
   (reg 0x1038 [fRW 0 32 0]).times 0x80 32] ++
  (List.range 7).map (fun i => (regG (0x1040 + 4 * i) [fRW 0 32 0]).times 0x80 32) ++
  [(regRO 0x1060).times 0x80 32,
   (reg 0x1064 [fRC 0 5]).times 0x80 32]

/-- NZL registers (13 Registers). -/
def rowsNzl : List RegRow :=
  [regGA 0x0000 [fRW 0 4 0],
   regG 0x0004 [fRW 31 1 0, fRW 16 12 0, fRW 0 8 0],
   regG 0x0008 [fRange 24 8 16 1 255, fRange 16 8 64 1 255, fRange 8 8 64 1 255, fRange 4 4 6 2 10,
     fRange 0 4 2 0 8],
   regG 0x000C [fRW 0 16 1000],
   regG 0x0010 [fRW 0 32 0],
   reg 0x0014 [fRW 8 1 0, fRW 0 8 0],
   regG 0x0018 [⟨0, 2, .wo, 0, .listed [1, 2]⟩],
   regRO 0x0020, regRO 0x0024,
   reg 0x0028 [fRC 1 11],
   (regCnt 0x0030).times 4 4,
   (regA 0x0040 [fRW 0 32 0]).times 4 8,
   (reg 0x0080 [fRW 0 32 0]).times 4 64,
   (regGA 0x1000 [fRW 31 1 0, fRW 0 16 0]).times 0x40 8,
   (regRO 0x1004).times 0x40 8,
   (reg 0x1008 [fRC 0 6]).times 0x40 8,
   (regCnt 0x1010).times 0x40 8, (regCnt 0x1014).times 0x40 8, (regCnt 0x1018).times 0x40 8]

/-- The budget of a fault class (R366): LIMIT and WINDOW in ms. -/
def budgetOf : Nat → Option (Nat × Nat)
  | 0x01 => some (16, 1000)
  | 0x03 => some (4, 1000)
  | 0x04 => some (8, 100)
  | 0x06 => some (4, 1000)
  | 0x0A => some (10000, 1000)
  | 0x0B => some (2, 10000)
  | 0x0C => some (4, 1000)
  | 0x0D => some (8, 1000)
  | 0x0E => some (8, 1000)
  | 0x0F => some (64, 1000)
  | 0x12 => some (2, 10)
  | 0x15 => some (4, 1000)
  | 0x18 => some (64, 1000)
  | 0x19 => some (8, 10000)
  | 0x1C => some (16, 1000)
  | _ => none

/-- FLT registers (14 Registers); a budget register exists for each class with a budget. -/
def rowsFlt : List RegRow :=
  [regG 0x0000 [fWO 28 4, fWO 0 16],
   regRO 0x0004,
   reg 0x0008 [fRC 0 4],
   regCnt 0x000C, regRO 0x0010, regRO 0x0020, regRO 0x0024, regRO 0x0028, regRO 0x002C] ++
  (List.range 0x1E).filterMap (fun c =>
    (budgetOf c).map (fun b => regG (0x0100 + 4 * c) [fRW 16 16 b.1, fRange 0 16 b.2 1 65535]))

/-- HK registers (15 and 16 Registers). -/
def rowsHk : List RegRow :=
  [regRO 0x0000,
   reg 0x0004 [fRC 0 1],
   regG 0x0008 [fWP 0 2],
   reg 0x0010 [fRW 0 21 0],
   reg 0x0014 [fWP 31 1, fRange 0 11 0 1 1024],
   regG 0x0020 [fWO 24 8, fWO 16 8],
   (reg 0x0024 [fRW 0 32 0]).times 4 4,
   reg 0x0034 [fRC 30 1, fRC 29 1],
   (regRO 0x0038).times 4 4,
   reg 0x0100 [fRC 31 1],
   regG 0x0104 [fRW 16 1 1, fRange 8 8 5 1 20, fRange 0 8 100 60 110],
   reg 0x0108 [fRC 16 11]]

/-- SEQ registers of sequencer n (08 Registers): F0-F7 are n = 0-7, P0-P15 are n = 8-23. -/
def rowsSeq (n : Nat) : List RegRow :=
  let w := if n < 8 then 16 else 20
  [regGA 0x0000 ([fRange 24 8 8 1 255, fRW 8 1 0] ++ (if n < 8 then [] else [fRW 7 1 0]) ++
     [fList 5 2 0 [0, 1, 2], fRW 4 1 0, fList 2 2 1 [0, 1, 2], fRW 0 1 0]),
   regG 0x0004 [fRW 0 w 0],
   reg 0x0008 [fRW 0 w 0],
   reg 0x000C [fRW 0 32 0], reg 0x0010 [fRW 0 32 0],
   regG 0x0014 [fRW 0 21 0],
   (reg 0x0020 [fRW 16 1 0, fRW 0 16 0]).times 4 8,
   regRO 0x0040,
   (regA 0x0060 [fRW 31 1 0, fList 29 2 0 [0, 1, 2], fRW 23 6 0, fList 21 2 1 [1, 2, 3],
     fList 18 3 0 [0, 1, 2, 3, 4, 5, 6], fRW 0 3 0]).times 4 8,
   regA 0x0080 [fRW 0 8 0],
   regRO 0x0084,
   reg 0x0088 [fRC 0 6],
   (regCnt 0x0090).times 4 3] ++
  (if n < 8 then [regG 0x0100 [fRW 31 1 0, fList 20 2 2 [0, 1, 2]]]
   else if n = 8 then [regG 0x0100 [fRW 31 1 0, fList 20 2 2 [0, 1, 2], fRW 24 1 0, fList 16 2 2 [0, 1, 2],
     fRange 0 16 16 16 65535]]
   else []) ++
  (if n < 9 then [reg 0x0104 [fRC 16 16, fRC 8 3]] else [])

/-- Whether a window code names a window of R34. -/
def isWindow (w : Nat) : Bool := w ≤ 0x0C || (0x10 ≤ w && w ≤ 0x27)

/-- The registers of a window, the common tail left out (R34). -/
def rowsOf (w : Nat) : List RegRow :=
  match w with
  | 0x00 => rowsTop
  | 0x01 => rowsHif
  | 0x02 => rowsTime
  | 0x03 => rowsClk
  | 0x04 => rowsFirn
  | 0x05 => rowsMor
  | 0x06 => rowsMkr
  | 0x07 => rowsAng
  | 0x08 => rowsTla
  | 0x09 => rowsCle
  | 0x0A => rowsNzl
  | 0x0B => rowsFlt
  | 0x0C => rowsHk
  | _ => if 0x10 ≤ w ∧ w ≤ 0x27 then rowsSeq (w - 0x10) else []

/-- Whether a row holds the register at base-window offset `o`. -/
def RegRow.at (r : RegRow) (o : Nat) : Bool :=
  r.off ≤ o && (o - r.off) % r.stride == 0 && (o - r.off) / r.stride < r.count

/-- The register at a base-window offset; `none` for a reserved offset and for the common tail. -/
def rowAt (w o : Nat) : Option RegRow := (rowsOf w).find? (fun r => r.at o)

/-- The register at a BAR0 address in its window's base quarter. -/
def rowOf (addr : Nat) : Option RegRow :=
  if addr % 0x10000 < 0x3FC0 then rowAt (addr / 0x10000) (addr % 0x10000) else none

/-- A field's mask. -/
def Field.mask (f : Field) : Word := BitVec.ofNat 32 ((2 ^ f.width - 1) * 2 ^ f.lo)

/-- A field's value in a word. -/
def Field.val (f : Field) (v : Word) : Nat := v.toNat / 2 ^ f.lo % 2 ^ f.width

/-- The mask of all fields of one access code. -/
def RegRow.mask (r : RegRow) (a : Acc) : Word :=
  r.fields.foldl (fun m f => if f.acc = a then m ||| f.mask else m) 0

/-- The reset value of the stored bits of a register. -/
def RegRow.resetVal (r : RegRow) : Word :=
  r.fields.foldl (fun m f => m ||| BitVec.ofNat 32 (f.reset * 2 ^ f.lo)) 0

/-- Whether a value of a field is listed (R3). -/
def Enc.ok (e : Enc) (v : Nat) : Bool :=
  match e with
  | .any => true
  | .range a b => a ≤ v && v ≤ b
  | .listed l => l.contains v

/-- Whether every field of a value holds a listed encoding (R3), the cross-field rules apart. -/
def RegRow.encOk (r : RegRow) (v : Word) : Bool := r.fields.all (fun f => f.enc.ok (f.val v))

/-- What the stored bits at a BAR0 base address read as where nothing is listed: their reset value. -/
def regDefault (addr : Nat) : Word :=
  match rowOf addr with
  | some r => r.resetVal
  | none => 0

end Sys2Proof.Machine
end

