-- ==== Sys2Proof/Machine/Tab.lean ====
section
/-!
DEFINITION. Sparse tables: the one plain-data form in which the model keeps registers, per-unit records and the
contents of stores. A table lists only the keys whose entry differs from what an unlisted key reads as.
-/

namespace Sys2Proof.Machine

/-- A sparse table from keys to entries: keys strictly rising, no entry equal to what an unlisted key reads as. -/
abbrev Tab (α : Type) := List (Nat × α)

/-- The entry at key `k`; `d k` where the table lists none. -/
def Tab.get {α : Type} (d : Nat → α) : Tab α → Nat → α
  | [], k => d k
  | (k', v) :: m, k => if k = k' then v else Tab.get d m k

/-- The table without key `k`. -/
def Tab.erase {α : Type} : Tab α → Nat → Tab α
  | [], _ => []
  | (k', v) :: m, k => if k = k' then Tab.erase m k else (k', v) :: Tab.erase m k

/-- The table with `v` listed at key `k`. -/
def Tab.insert {α : Type} : Tab α → Nat → α → Tab α
  | [], k, v => [(k, v)]
  | (k', v') :: m, k, v =>
    if k = k' then (k, v) :: m else if k < k' then (k, v) :: (k', v') :: m else (k', v') :: Tab.insert m k v

/-- The table whose entry at `k` is `v`: writing what an unlisted key reads as removes the key. -/
def Tab.set {α : Type} [DecidableEq α] (d : Nat → α) (m : Tab α) (k : Nat) (v : α) : Tab α :=
  if v = d k then m.erase k else m.insert k v

/-- Every key is at least `lo`, keys rise strictly, and no entry is what an unlisted key reads as. -/
def Tab.wfFrom {α : Type} [DecidableEq α] (d : Nat → α) : Nat → Tab α → Bool
  | _, [] => true
  | lo, (k, v) :: m => decide (lo ≤ k) && decide (v ≠ d k) && Tab.wfFrom d (k + 1) m

/-- The canonical form of a sparse table. -/
def Tab.wf {α : Type} [DecidableEq α] (d : Nat → α) (m : Tab α) : Bool := Tab.wfFrom d 0 m

end Sys2Proof.Machine
end

