-- ==== Sys2Proof/Machine/StateCtl.lean ====
section
/-!
DEFINITION. State of the trigger logic array, the control engine and the fault engine (chapters 10, 11, 12, 14).
-/

namespace Sys2Proof.Machine

/-- One bank of TLA configuration (R275): data words, words with error bits, checked status, signature. -/
structure TBank where
  words : Tab (BitVec 64)
  errs : Tab (BitVec 72)
  checked : Bool
  sig : Word
  deriving DecidableEq, Repr

/-- A bank at reset: zero words (R387). -/
def TBank.reset : TBank := ⟨[], [], false, 0⟩

/-- A net's level at the end of the latest evaluation and the index of its change in it (R269). -/
structure Net where
  level : Bool
  /-- 16 where the net did not change. -/
  idx : Nat
  deriving DecidableEq, Repr

/-- The external sources of one core cycle as the array takes them (R265, R267): levels before it and at its end, and
the change index of each source that changes (code less 0x400, index). -/
structure ExtIn where
  old : BitVec 96
  levels : BitVec 96
  idx : List (Nat × Nat)
  deriving DecidableEq, Repr

/-- The trigger logic array beyond its stored registers (chapter 10). -/
structure Tla where
  bank0 : TBank
  bank1 : TBank
  /-- Bank 1 is active. -/
  active : Bool
  en : Bool
  checkBusy : Bool
  swapPending : Bool
  sigRef : Word
  sigLast : Word
  sigValid : Bool
  resErr : BitVec 4
  resCell : BitVec 10
  resDepth : BitVec 8
  /-- Passes since reset; TLA_SERAC_POS shows at most 0xFFFF. -/
  passes : Nat
  pos : Nat
  /-- CD_SERAC cycles of the present word that have passed, those it has waited for the memory port, and the shadow writes that
  still take the port, one cycle each (R281, R283). -/
  phase : Nat
  waited : Nat
  stores : Nat
  /-- CD_SERAC cycles since reset, and the one in which the check that runs began (R277). -/
  clock : Nat
  checkAt : Nat
  lastPasses : Option Nat
  /-- Keyed 64 c + b: the CD_SERAC cycle in which copy c was last outvoted on bit b, and how many in a row; keyed
  192 + c: the cycle for which copy c last counted (R286). -/
  votes : Tab (Nat × Nat)
  cells : Tab Net
  /-- Flip-flop outputs, and D at the end of the latest evaluation (R270). -/
  q : Tab Net
  d : Tab Net
  /-- External levels at the end of the latest core cycle, bit (code - 0x400). -/
  ext : BitVec 96
  /-- Inputs whose caught pulse returns in the next evaluation (R267). -/
  caught : BitVec 16
  /-- Soft nets as the array sees them in this core cycle. -/
  soft : BitVec 8
  /-- Core cycles whose sources wait for their window, oldest first (R74 stage k + 2). -/
  extQ : List ExtIn
  /-- The first evaluation of a new state is due: after an enable (every flip-flop takes INIT) or after a swap. -/
  initEn : Bool
  initSwap : Bool
  /-- Outputs as resampled (R271). -/
  outs : BitVec 64
  deriving DecidableEq, Repr

/-- The TLA at reset. -/
def Tla.reset : Tla :=
  { bank0 := .reset, bank1 := .reset, active := false, en := false, checkBusy := false, swapPending := false,
    sigRef := 0, sigLast := 0, sigValid := false, resErr := 0, resCell := 0, resDepth := 0, passes := 0, pos := 0, phase := 0, waited := 0, stores := 0, clock := 0, checkAt := 0,
    lastPasses := none, votes := [], cells := [], q := [], d := [], ext := 0, caught := 0, soft := 0, extQ := [],
    initEn := false, initSwap := false, outs := 0 }

/-- The states of a loop slot (R311). -/
inductive LoopSt where
  | off
  | open
  | ramp
  | closed
  | fault
  deriving DecidableEq, Repr

/-- A LOOP event of the current tick waiting for c4 (R325): DW0 without the slot, DW1, DW2. -/
structure LoopEv where
  slot : Nat
  kind : Nat
  dw0 : Word
  dw1 : Word
  dw2 : Word
  deriving DecidableEq, Repr

/-- One loop slot beyond its stored registers (chapters 11 and 12). Vectors are lists of exact integers. -/
structure LSlot where
  st : LoopSt
  x : List Int
  y : List Int
  r : List Int
  u : List Int
  ua : List Int
  /-- Reference used by the latest evaluation (s in RAMP). -/
  rUsed : List Int
  s : List Int
  evals : BitVec 64
  nr : Nat
  repFirst : Bool
  backTap : List Int
  feTimer : Nat
  staleRun : Nat
  /-- Gain set of the latest evaluation, of the one before it, and of the next. -/
  setCur : Nat
  setWas : Nat
  setNext : Nat
  /-- No evaluation since ENABLE. -/
  first : Bool
  cause : Nat
  losing : BitVec 4
  stale : BitVec 4
  unrouted : BitVec 4
  /-- Evaluated in this tick; stopped by COEF_UE in this tick. -/
  evaluated : Bool
  stopped : Bool
  /-- Snapshot of states, y, r, u and ua (R326). -/
  snap : List (List Int)
  deriving DecidableEq, Repr

/-- A slot at reset. -/
def LSlot.reset : LSlot :=
  { st := .off, x := [], y := [], r := [], u := [], ua := [], rUsed := [], s := [], evals := 0, nr := 0,
    repFirst := true, backTap := [], feTimer := 0, staleRun := 0, setCur := 0, setWas := 0, setNext := 0, first := true,
    cause := 0, losing := 0, stale := 0, unrouted := 0, evaluated := false, stopped := false, snap := [] }

/-- One converter position (R315): handover state, winner, last applied value in slot units, value carried. -/
structure CPos where
  h : Int
  h0 : Int
  count : Nat
  slew : Nat
  winner : Option (Nat × Nat)
  ua : Int
  carried : BitVec 20
  /-- A HOLD safe action is in force here (R321). -/
  held : Bool
  /-- The slots whose evaluation gave what it carries, and whether it carries that, or the safe code (01 R32, R311). -/
  slots : List Nat
  live : Bool
  deriving DecidableEq, Repr

/-- A position at reset. -/
def CPos.reset : CPos := ⟨0, 0, 0, 0, none, 0, 0, false, [], false⟩

/-- A feedback link (R310): OFF, ALIGN or DATA. -/
inductive RxSt where
  | off
  | align
  | data
  deriving DecidableEq, Repr

/-- A multiblock that passed its check and waits in a receive buffer for its LEMC boundary (R310): the feedback link, the core
cycle of its release, and its samples by converter. -/
structure QBlock where
  link : Nat
  due : Nat
  samples : List (List (BitVec 18))
  deriving DecidableEq, Repr

/-- The control engine beyond its stored registers. -/
structure Cle where
  slots : Tab LSlot
  pos : Tab CPos
  /-- Coefficient entries, keyed 2048 n + 256 set + entry: SHIFT above VALUE (R300). -/
  coef : Tab (BitVec 37)
  coefErr : Tab (BitVec 44)
  /-- Direct writes held between c1 and c2 (R302). -/
  held : List (Nat × BitVec 37)
  sweeps : Word
  /-- Key of the entry that the sweep reads next (R303). -/
  sweepAt : Nat
  link0 : RxSt
  link1 : RxSt
  /-- Core cycle from which each feedback link's LEMC counts; `none` before its first SYSREF since ENABLE. -/
  lemc0 : Option Nat
  lemc1 : Option Nat
  /-- Multiblocks in the receive buffers (R310). -/
  blocks : List QBlock
  /-- Latest complete Q samples, and which arrived since the previous cycle 0. -/
  q : Tab (BitVec 18)
  qNew : BitVec 16
  /-- Latched at cycle 0 (R29): Q, stale flags, set-points, ROUTE. -/
  qLat : Tab (BitVec 18)
  qStale : BitVec 16
  pLat : Tab (BitVec 20)
  pRoute : BitVec 16
  svLat : Tab Word
  /-- CLOSE of each slot as sampled at c1 (R311). -/
  closeLat : BitVec 32
  events : List LoopEv
  deriving DecidableEq, Repr

/-- The control engine at reset. -/
def Cle.reset : Cle :=
  { slots := [], pos := [], coef := [], coefErr := [], held := [], sweeps := 0, sweepAt := 0, link0 := .off, link1 := .off,
    lemc0 := none, lemc1 := none, blocks := [],
    q := [], qNew := 0, qLat := [], qStale := 0, pLat := [], pRoute := 0, svLat := [], closeLat := 0, events := [] }

/-- A detection on its way to the fault engine (R365). -/
structure Det where
  cls : Nat
  kind : Nat
  index : Nat
  detail : Word
  /-- This occurrence is permanent by nature (R366). -/
  permanent : Bool
  ft : BitVec 64
  /-- The fault engine's clock at its arrival, in parts of a CD_FLT cycle (R365). -/
  at_ : Nat
  deriving DecidableEq, Repr

/-- An open budget window (R368): its count, the LIMIT with which it opened, and the ticks of the millisecond timer that it
still lasts; a count of 0 means that none is open. -/
structure BWin where
  count : Nat
  limit : Nat
  left : Nat
  deriving DecidableEq, Repr

/-- A unit in its drain window (R371): kind, index, FT of D, and the fault engine's clock at D. -/
structure Drain where
  kind : Nat
  index : Nat
  ft : BitVec 64
  at_ : Nat
  deriving DecidableEq, Repr

/-- The fault engine beyond its stored registers (chapter 14). -/
structure Flt where
  inbox : List Det
  /-- Retired units, keyed kind * 65536 + index. -/
  retired : Tab Bool
  windows : Tab BWin
  /-- COUNTED record posted in this millisecond, per (class, unit) (R380). -/
  limited : Tab Bool
  occ : Tab (BitVec 64)
  log : List (BitVec 128)
  logCount : Word
  draining : List Drain
  /-- Skips per agent (R382). -/
  skips : Tab Word
  /-- The fault engine's clock in parts of a CD_FLT cycle, and the time that its millisecond timer has counted, in 2^-32 fu. -/
  clock : Nat
  timer : Nat
  deriving DecidableEq, Repr

/-- The fault engine at reset. -/
def Flt.reset : Flt :=
  { inbox := [], retired := [], windows := [], limited := [], occ := [], log := [], logCount := 0, draining := [], skips := [],
    clock := 0, timer := 0 }

end Sys2Proof.Machine
end

