-- ==== Sys2Proof/Machine/StateFab.lean ====
section
/-!
DEFINITION. State of the Nazhaust fabric (chapter 13) and of reset, bring-up, pins and the TAP (chapters 15 and 16).
-/

namespace Sys2Proof.Machine

/-- A packet waiting at an output or in the retry buffer (R334): header fields, BODY, payload bytes, and the local
descriptor whose send it completes (ring, slot, last fragment). -/
structure Pkt where
  ty : BitVec 4
  vc : Nat
  ttl : BitVec 5
  srcrt : Bool
  src : BitVec 12
  dest : BitVec 16
  route : BitVec 48
  body : BitVec 140
  payload : List Byte
  lseq : BitVec 8
  send : Option (Nat × Nat)
  /-- The input that still holds its flits (R329): the link it arrived on and its number there. -/
  input : Option (Nat × Nat)
  deriving DecidableEq, Repr

/-- The states of a link (R331). -/
inductive LkSt where
  | down
  | train
  | hello
  | up
  | retired
  deriving DecidableEq, Repr

/-- A stamp of a TIME packet: its IDX and the stamp in 1/16 fu. -/
structure Stamp where
  idx : BitVec 4
  at16 : BitVec 64
  deriving DecidableEq, Repr

/-- The latest TIME packet received from a peer (R350). -/
structure PeerTime where
  idx : BitVec 4
  rxLast : BitVec 64
  echoIdx : BitVec 4
  rxStamp : BitVec 64
  deriving DecidableEq, Repr

/-- One link beyond its stored registers. -/
structure Link where
  st : LkSt
  tree : Bool
  self : Bool
  peerLink : BitVec 3
  peerAddr : BitVec 12
  peerDie : BitVec 64
  calibrated : Bool
  sentCal : Bool
  gotHello : Bool
  gotCal : Bool
  /-- The peer still sends HELLO (R333). -/
  peerHello : Bool
  lseqTx : BitVec 8
  lseqRx : BitVec 8
  cred0 : Nat
  cred1 : Nat
  cred2 : Nat
  freed0 : Nat
  freed1 : Nat
  freed2 : Nat
  queue : List Pkt
  retry : List Pkt
  badReplays : Nat
  txIdx : BitVec 4
  txStamps : List Stamp
  peer : Option PeerTime
  /-- Latest mean delay and offset in 1/32 fu (R350). -/
  d : Int
  theta : Int
  measIdx : BitVec 4
  unlockedRun : Nat
  /-- Packets received since reset, the model's own numbering. -/
  rxCount : Nat
  /-- Instants, as time since reset: entry into TRAIN or HELLO, and the latest HELLO and TIME sent (R331, R333, R349). -/
  since : Nat
  helloAt : Nat
  timeAt : Option Nat
  deriving DecidableEq, Repr

/-- A link at reset. -/
def Link.reset : Link :=
  { st := .down, tree := false, self := false, peerLink := 0, peerAddr := 0, peerDie := 0, calibrated := false,
    sentCal := false, gotHello := false, gotCal := false, peerHello := false, lseqTx := 0, lseqRx := 0,
    cred0 := 0, cred1 := 0, cred2 := 0, freed0 := 0, freed1 := 0, freed2 := 0, queue := [], retry := [],
    badReplays := 0, txIdx := 0, txStamps := [], peer := none, d := 0, theta := 0, measIdx := 0, unlockedRun := 0, rxCount := 0, since := 0, helloAt := 0,
    timeAt := none }

/-- The states of a node (R343). -/
inductive NodeSt where
  | off
  | elect
  | join
  | member
  | enum
  | root
  deriving DecidableEq, Repr

/-- A configuration of a node: address, tables, tree (R342). -/
structure NodeCfg where
  addr : BitVec 12
  parent : Option (BitVec 3)
  tree : BitVec 8
  hop : BitVec 5
  table : Tab (BitVec 4)
  deriving DecidableEq, Repr

/-- What the root keeps of one reporting node (R339 to R342). -/
structure NodeRec where
  rep : ReportPkt
  cfg : Option NodeCfg
  acked : Bool
  resends : Nat
  deriving DecidableEq, Repr

/-- A message being reassembled (R361). -/
structure Reasm where
  src : BitVec 12
  dest : BitVec 16
  msgId : BitVec 16
  mtype : BitVec 8
  len : Nat
  tag : Word
  next : Nat
  data : List Byte
  /-- When its latest fragment arrived. -/
  heard : Nat
  deriving DecidableEq, Repr

/-- The fabric block beyond its stored registers. -/
structure Nzl where
  links : Tab Link
  st : NodeSt
  timeFar : Bool
  gen : BitVec 16
  rootAddr : BitVec 12
  cfg : NodeCfg
  /-- A configuration has been live since reset. -/
  everLive : Bool
  /-- The best election key known, and its distance (R338). -/
  best : Option (ElectKey × Nat)
  /-- Enumeration in progress: GEN, own hop, PATH, arrival link (R339). -/
  enGen : BitVec 16
  enHop : Option Nat
  enPath : List (BitVec 3)
  /-- CONFIG parts held for enGen: the place, and table parts. -/
  partPlace : Option NodeCfg
  parts : Tab Bool
  partTable : Tab (BitVec 4)
  commitAt : Option FT80
  /-- Root: reports collected, whether an ACKed set awaits COMMIT, recomputed once. -/
  nodes : List NodeRec
  recomputed : Bool
  /-- Servo (R351, R352): filtered θ in 1/32 fu, lock run, unlock run, parent measurements, whether the next is first. -/
  thf : Int
  lockRun : Nat
  unlockRun : Nat
  meas : Word
  firstMeas : Bool
  /-- A hold of R356 is running, and its new parent may continue. -/
  holding : Bool
  ppsSeen : Bool
  ppsWait : Bool
  orderSeq : BitVec 32
  msgId : BitVec 16
  reasm : List Reasm
  /-- Messages whose later fragments are discarded (MAIL_BUSY). -/
  dropMail : List (BitVec 12 × BitVec 16)
  /-- Instants, as time since reset, from which the waits of R338 to R344, R354 and R356 run: the best key's last change, the
  hop's last improvement, the last REPORT, the CONFIG parts sent, entry into JOIN, the last BEACON sent or heard, the start of a
  hold, the last PPS edge. -/
  bestAt : Option Nat
  hopAt : Option Nat
  reportAt : Nat
  sentAt : Nat
  joinAt : Nat
  beaconAt : Nat
  holdAt : Nat
  ppsAt : Option Nat
  deriving DecidableEq, Repr

/-- The fabric block at reset. -/
def Nzl.reset : Nzl :=
  { links := [], st := .off, timeFar := false, gen := 0, rootAddr := 0,
    cfg := ⟨0, none, 0, 0, []⟩, everLive := false, best := none, enGen := 0, enHop := none, enPath := [],
    partPlace := none, parts := [], partTable := [], commitAt := none, nodes := [], recomputed := false,
    thf := 0, lockRun := 0, unlockRun := 0, meas := 0, firstMeas := true, holding := false, ppsSeen := false,
    ppsWait := false, orderSeq := 0, msgId := 0, reasm := [], dropMail := [],
    bestAt := none, hopAt := none, reportAt := 0, sentAt := 0, joinAt := 0, beaconAt := 0, holdAt := 0, ppsAt := some 0 }

/-- The reset kinds (R383). -/
inductive RstKind where
  | por
  | full
  | core
  deriving DecidableEq, Repr

/-- A BRINGUP in progress (R393): stages requested and not yet run, the stage code running, its arguments. -/
structure Bring where
  stages : BitVec 4
  arg0 : Word
  arg1 : Word
  deriving DecidableEq, Repr

/-- A SYSREF waiting for its boundary (R398). -/
structure Sysref where
  at80 : Option FT80
  sy : BitVec 12
  links : BitVec 11
  /-- It was issued by BRINGUP (R397) rather than by the mailbox command. -/
  byBringup : Bool
  /-- Once it has been issued: the core cycle of B_s, the links that realigned, the FT count of B_s. -/
  issued : Option (Nat × Nat × BitVec 64)
  deriving DecidableEq, Repr

/-- Housekeeping and reset beyond their stored registers (chapter 15). -/
structure Hk where
  stage : BitVec 4
  failStage : BitVec 4
  failCode : BitVec 8
  degraded : Bool
  hostBoot : Bool
  /-- The firmware is loaded and runs (R389, R390). -/
  fw : Bool
  noFabric : Bool
  done : BitVec 4
  busy : Bool
  /-- A command that the firmware has not taken yet: its opcode. -/
  cmd : Option (BitVec 8)
  seq : BitVec 8
  result : BitVec 8
  res : Tab Word
  fixed : List (BitVec 64)
  bring : Option Bring
  sysref : Option Sysref
  /-- A reset between trigger and release. -/
  inReset : Option RstKind
  /-- A TLA swap has happened since the reset (R390). -/
  swapped : Bool
  /-- Time since power-up, in 2^-32 fu, at which the reset in force was last triggered; at which the hardware stage, the stage of
  BRINGUP or its present PLL began; and, in the FABRIC stage, at which the first link was UP (R383, R387, R394 to R399). -/
  resetAt : Nat
  since : Nat
  upAt : Option Nat
  deriving DecidableEq, Repr

/-- Housekeeping at reset, before its first hardware stage. -/
def Hk.reset : Hk :=
  { stage := 0, failStage := 0, failCode := 0, degraded := false, hostBoot := false, fw := false, noFabric := false, done := 0,
    busy := false, cmd := none, seq := 0, result := 0, res := [], fixed := [], bring := none, sysref := none, inReset := none,
    swapped := false, resetAt := 0, since := 0, upAt := none }

/-- The TAP instructions (R416). -/
inductive Tap where
  | extest
  | samplePreload
  | idcode
  | clamp
  | highz
  | bypass
  deriving DecidableEq, Repr

/-- One sensor or supply: latest, minimum and maximum since reset. -/
structure Meas where
  seen : Bool
  now : Int
  min : Int
  max : Int
  deriving DecidableEq, Repr

/-- A sensor or supply that has not been read. -/
def Meas.reset : Meas := ⟨false, 0, 0, 0⟩

/-- Pins, supplies and sensors (chapter 16). -/
structure Pins where
  porN : Bool
  tap : Tap
  /-- Word the selected TAP register shifts out first (R416). -/
  tdo : Word
  temps : Tab Meas
  maxT : BitVec 12
  hot : BitVec 3
  thermN : Bool
  tripped : Bool
  /-- A supply is outside its operating range (R421). -/
  supplyOut : Bool
  supplies : Tab Meas
  supplyNow : BitVec 11
  deriving DecidableEq, Repr

end Sys2Proof.Machine
end

