-- ==== Sys2Proof/Machine/StateHost.lean ====
section
/-!
DEFINITION. State of the register contexts, the time block, the host rings and the clocks (chapters 02 to 05).
-/

namespace Sys2Proof.Machine

/-- One requester's context in one window (02 "Requesters and contexts", R43, R45, R48 to R51). -/
structure Ctx where
  arm : Bool
  space : BitVec 8
  index : BitVec 16
  pendingCapture : Bool
  valid : Bool
  selErr : Bool
  earlyRead : Bool
  capture : BitVec 128
  /-- BLK_STATUS [4:0]: WIDTH_REJECT, ALIAS_IGNORED, ENCODING_REJECT, GUARD_VIOLATION, UNLOCK_WASTED. -/
  status : BitVec 5
  rejInfo : Word
  deriving DecidableEq, Repr

/-- A context as any reset leaves it. -/
def Ctx.reset : Ctx := ⟨false, 0, 0, false, false, false, false, 0, 0, 0⟩

/-- What TOP holds beyond its stored registers (02 TOP block). -/
structure Top where
  fwVersion : Word
  morPresent : BitVec 4
  linkPresent : BitVec 8
  firnMib : BitVec 12
  strap : BitVec 16
  outsideAddr : BitVec 25
  shadowLast : Word
  /-- CONV_OUT_EN and LINE_OUT_EN as they gate the outputs in this core cycle (R55). -/
  convLive : Bool
  lineLive : Bool
  /-- Core cycles since the most recent reset of any kind (TOP wide values). -/
  cycles : BitVec 64
  deriving DecidableEq, Repr

/-- The committed sources of orders (R70). -/
inductive OrdSrc where
  | fabric
  | host
  | housekeeping
  deriving DecidableEq, Repr

/-- The immediate sources (R70). -/
inductive ImmSrc where
  | fault
  | event
  deriving DecidableEq, Repr

/-- One target of an order (03 "Orders and lanes"). -/
structure Ord where
  src : OrdSrc
  /-- Host ring and descriptor slot (host), or the CPL ring of remote targets (fabric, R358). -/
  ring : Nat
  slot : Nat
  tag : Word
  intr : Bool
  quiet : Bool
  /-- Originating node and order sequence number (fabric). -/
  node : BitVec 12
  oseq : BitVec 32
  prio : Nat
  chan : Nat
  lane : Nat
  action : BitVec 128
  /-- The effective time; `none` for ASAP. -/
  t : Option FT80
  /-- Core cycle of arrival at the queue. -/
  arrival : Nat
  /-- Formed from a LAUNCH of another node, so that it completes on NZL_ORDER_CPL (R358). -/
  remote : Bool
  /-- The tick it counts against, projected at admission (R69). -/
  tick : Option Nat
  deriving DecidableEq, Repr

/-- Several targets on their way to the time block's queue (R136: HIF_CMD_LAT core cycles after arrival). -/
structure Inbound where
  ord : Ord
  mask : BitVec 24
  due : Nat
  deriving DecidableEq, Repr

/-- A winner of the order phase, before and after its effect sample (R72, R231). -/
structure Acting where
  ord : Ord
  /-- Sample index within the tick at which it acted. -/
  actedAt : Option Nat
  /-- FT with fraction of the edge at which it acted (R72). -/
  heldFrom : Nat
  /-- Its outcome so far: the status code it has earned and the DELAY field. -/
  status : BitVec 8
  delay : BitVec 64
  winSrc : BitVec 3
  winNode : BitVec 12
  deriving DecidableEq, Repr

/-- An immediate action on one target, from its precedence on (R70 to R74): the edge of its effect, the number of its
trigger, and whether it has lost and been counted. -/
structure Imm where
  src : ImmSrc
  chan : Nat
  lane : Nat
  edge : Nat
  trig : Nat
  lost : Bool
  deriving DecidableEq, Repr

/-- A staged set in the staging store (R76, R77). -/
structure SSet where
  rq : Requester
  ring : Nat
  slot : Nat
  tag : Word
  intr : Bool
  quiet : Bool
  asap : Bool
  commitFt : FT80
  entries : List (BitVec 64)
  /-- FT at which its due tick began, once that has begun, and the number of that tick (R79, R81). -/
  dueFt : Option (BitVec 64)
  dueTick : Nat
  deriving DecidableEq, Repr

/-- A set on its way to the staging store, with the core cycle at which it arrives there. -/
structure InSet where
  set : SSet
  count : Nat
  due : Nat
  deriving DecidableEq, Repr

/-- One entry of a set that has passed its check: base address, value to be made live, the action bits it requests. -/
structure PEntry where
  index : Nat
  addr : Nat
  value : Word
  deriving DecidableEq, Repr

/-- A set whose commit is under way (R79 to R83). -/
structure Commit where
  set : SSet
  startFt : BitVec 64
  ticks : Nat
  /-- Status and AUX of a set that failed its check (R78); it completes at COMMIT_CYCLES. -/
  fail : Option (Nat × Nat)
  /-- All its entries in the order of application (the pairs among them join scopes, R80). -/
  entries : List PEntry
  /-- Entries not yet applied, and entries applied to pending copies that are not yet live. -/
  todo : List PEntry
  applied : List PEntry
  refused : Nat
  /-- FT count at the first retirement that discarded entries (R83). -/
  discardFt : Option (BitVec 64)
  deriving DecidableEq, Repr

/-- The time block (chapter 03). -/
structure Time where
  ft : FTime
  inc : Inc
  ftValid : Bool
  locked : Bool
  root : Bool
  running : Bool
  /-- TICK_RUN has changed from 1 to 0 in the current tick, which is therefore the last one (R57). -/
  stopping : Bool
  /-- A TIME_FT_LOAD pulse takes effect at the next core-cycle boundary (R63). -/
  load : Bool
  /-- What FT is corrected by at the next core-cycle boundary, in 2^-32 fu (13 R353, R354). -/
  adjust : Option Int
  /-- Core cycles since power-up: the model's own numbering of core cycles and edges. -/
  core : Nat
  /-- Time since reset in 2^-32 fu. -/
  elapsed : Nat
  /-- Core cycle within the tick and the boundaries of this tick (R58, R98). -/
  cycle : Nat
  period : Nat
  c1 : Nat
  c2 : Nat
  c3 : Nat
  c4 : Nat
  c5 : Nat
  /-- Which of the five phases of this tick are done. -/
  phasesDone : Nat
  /-- ORDER_CYCLES as this tick took it (R61, R69). -/
  orderLen : Nat
  tickFt : FTime
  ticks : BitVec 64
  costLaw : Nat
  costSup : Nat
  short : Nat
  inbound : List Inbound
  queue : List Ord
  resolved : List Acting
  acting : List Acting
  closing : List Acting
  imm : List Imm
  inSets : List InSet
  sets : List SSet
  /-- Sets whose commit is under way in this tick, in order. -/
  commits : List Commit
  /-- Ticks ended with this core cycle, and their orders and sets wait for the flush of R84. -/
  flush : Option Nat
  /-- FT at which each tick since reset began, newest first, and at which its order phase began (R67, R77). -/
  begun : List (FTime × Option FTime)
  /-- The core cycles from which an INC has held, newest first, each with its FT and INC (R87). -/
  anchors : List (Nat × FTime × Inc)
  deriving DecidableEq, Repr

/-- The outcome fields of a completion entry before it has a slot (R126). -/
structure Cpl where
  tag : Word
  aux : Word
  winSrc : BitVec 3
  winNode : BitVec 12
  tgtSeq : BitVec 5
  tgtLane : BitVec 3
  tgtValid : Bool
  split : Bool
  ticks : BitVec 7
  delay : BitVec 64
  ft : BitVec 32
  status : BitVec 8
  srcRing : Nat
  slot : Nat
  intr : Bool
  quiet : Bool
  deriving DecidableEq, Repr

/-- Where a fetched descriptor stands. -/
inductive DescSt where
  | fetched
  | admitted
  | done
  deriving DecidableEq, Repr

/-- A descriptor the part has fetched and not yet finished with (R122 to R128, R133). -/
structure Desc where
  slot : Nat
  word : BitVec 512
  st : DescSt
  /-- CPL slots still reserved for it (R129). -/
  reserved : Nat
  /-- Bytes moved so far. -/
  moved : Nat
  /-- Bytes of its payload that host reads or store reads have been issued for (R114, R133). -/
  asked : Nat
  /-- Words of a Moraine READ that have come back out of their turn, by byte position; an uncorrectable one brings none. -/
  got : List (Nat × Option (BitVec 512))
  /-- Bytes admitted and not yet written (R135). -/
  left : Nat
  /-- Completions still owed. -/
  owed : Nat
  /-- The outcome that waits for ring order (R128). -/
  outcome : Option Cpl
  /-- Core cycle at which it arrived. -/
  arrived : Nat
  /-- Its CPL ring, its ring's PRIO, and whether its ring completes in ring order (R128). -/
  cpl : Nat
  prio : Nat
  ordered : Bool
  /-- Its number in the order in which the part has fetched descriptors (R133). -/
  num : Nat
  deriving DecidableEq, Repr

/-- One ring beyond its registers (chapter 05). -/
structure Ring where
  prod : Nat
  cons : Nat
  lastDb : Word
  seq : BitVec 24
  dropped : Word
  reserved : Nat
  stopped : Bool
  sinceSig : Nat
  oldest : Option (BitVec 64)
  /-- An entry written since its last signal came from an INTR descriptor (R143). -/
  intr : Bool
  served : Nat
  completed : BitVec 64
  bytes : BitVec 64
  /-- CPL slots its next descriptor waits for; 0 while it does not wait (R129). -/
  stalled : Nat
  descs : List Desc
  deriving DecidableEq, Repr

/-- A ring at reset; both positions 0 (R119). The last accepted doorbell value is DESIGN CHOICE 0 (log 4). -/
def Ring.reset : Ring := ⟨0, 0, 0, 0, 0, 0, false, 0, none, false, 0, 0, 0, 0, []⟩

/-- The host interface beyond its registers (chapter 05). -/
structure Hif where
  rings : Tab Ring
  up : Bool
  gen : BitVec 3
  width : BitVec 5
  d3hot : Bool
  decoding : Bool
  /-- Bytes ingested: FT count, bytes, Moraine. -/
  ingest : List (BitVec 64 × Nat × Bool)
  pba : Tab Bool
  statusCounts : Tab (BitVec 64)
  /-- The ring last served at each PRIO, for the round of R133. -/
  lastRing : Tab Nat
  /-- Descriptors fetched since reset. -/
  fetched : Nat
  /-- PCIe Device Control: [4] Relaxed Ordering enable, [7:5] Max Payload Size, [14:12] Max Read Request Size (R112, R114). -/
  devCtl : BitVec 16
  /-- PCIe Status: [12] Received Target Abort, [13] Received Master Abort (R140). -/
  pciStatus : BitVec 16
  /-- AER Uncorrectable Error Status: [12] poisoned, [14] completion timeout, [19] ECRC (R140). -/
  aer : Word
  deriving DecidableEq, Repr

/-- The states of a PLL (R108). -/
inductive PSt where
  | off
  | search
  | acquire
  | locked
  | holdover
  | bypass
  deriving DecidableEq, Repr

/-- One PLL beyond its registers (R85, R101 to R108). -/
structure PllS where
  st : PSt
  refOk : Bool
  origin : PSt
  timeouts : Nat
  /-- The phase error of the latest reference period of LOCKED or ACQUIRE, in fu, and the number of reference periods so
  far (R101, R102). -/
  phaseErr : Word
  periods : Nat
  deriving DecidableEq, Repr

/-- A PLL at reset. -/
def PllS.reset : PllS := ⟨.off, false, .off, 0, 0, 0⟩

/-- A frequency point: N, NUM, DEN and the post-divider code (R85). -/
structure Point where
  n : Nat
  num : Nat
  den : Nat
  post : Nat
  deriving DecidableEq, Repr

/-- The idle oscillator (R108). -/
inductive Idle where
  | free
  | search (index : Nat) (p : Point)
  | hop
  deriving DecidableEq, Repr

/-- A hop between S and W (R94, R95). -/
structure Hop where
  old : Nat
  target : Nat
  w : FTime
  qualified : Bool
  deriving DecidableEq, Repr

/-- A small-step ramp (R92): FCW in 2^-48 at its start, steps done and in all, the written point. -/
structure Ramp where
  start : Nat
  done : Nat
  steps : Nat
  target : Point
  deriving DecidableEq, Repr

/-- The clock block beyond its registers (chapter 04). -/
structure Clk where
  spll : PllS
  mpll : PllS
  fpll : PllS
  hpll : PllS
  table : Tab (BitVec 128)
  entry : Nat
  osc : Bool
  idle : Idle
  hop : Option Hop
  /-- A hop was accepted in the core cycle with this number (R99). -/
  hopCycle : Option Nat
  point : Point
  /-- The SPLL has locked since reset (R98, R391). -/
  everLocked : Bool
  /-- Live FCW in 2^-48 (R92). -/
  fcw : Nat
  ramp : Option Ramp
  /-- Pending phase step in 1/16 fu (R100). -/
  pend : Int
  /-- Reference phase since the last SPLL reference edge, in 2^-32/5 fu. -/
  refAcc : Nat
  coLive : Tab Word
  syLive : Tab Word
  /-- Fast sample at which the divider of each output, CO0-11 and SY0-11, was last reset to phase zero (R110, 15 R398). -/
  coAt : Tab Nat
  applyMask : BitVec 12
  /-- The point the SPLL's own search is for (R88, R106). -/
  goal : Point
  /-- The XO is lost (R103), so that what runs from it stands still. -/
  xoLost : Bool
  /-- A 10 MHz signal within range stands on REF10M. -/
  ref10m : Bool
  /-- The SPLL has entered LOCKED, and CD_CORE moves to it at the next core-cycle boundary (R88). -/
  spllDue : Bool
  /-- Domains on CD_XO, and domains stopped, per PLL (R105). -/
  spllXo : Bool
  spllStopped : Bool
  hpllXo : Bool
  mpllXo : Bool
  fpllXo : Bool
  fpllStopped : Bool
  deriving DecidableEq, Repr

end Sys2Proof.Machine
end

