-- ==== Sys2Proof/Machine/StatePlay.lean ====
section
/-!
DEFINITION. State of the playout sequencers, the transmit links, the lines and pairs, the event inputs and the
angle trackers (chapters 08 and 09).
-/

namespace Sys2Proof.Machine

/-- The states of a channel (R235). -/
inductive SeqSt where
  | off
  | idle
  | run
  | wait
  | retired
  deriving DecidableEq, Repr

/-- One level of a loop stack (R215). -/
structure Lvl where
  count : Word
  body : BitVec 16
  inf : Bool
  deriving DecidableEq, Repr

/-- Where a jump or a start goes: an entry of the table or a slot (R224). -/
inductive Target where
  | entry (i : BitVec 16)
  | slot (k : Nat)
  deriving DecidableEq, Repr

/-- A word that a reader has read ahead, with the cause of R232 for which it is missing, or 0 (R222). -/
abbrev Held := BitVec 512 × Nat

/-- The prefetch stream of a PLAY or pattern in Moraine (R225): none, still to open, open, or ended with all of it staged. -/
inductive Feed where
  | none
  | wait
  | live
  | whole
  deriving DecidableEq, Repr

/-- An entry in the lookahead (R219, R221): its index, its 32 bytes, its marker list, the table error it is, the core cycle in
which it was taken in, and of a PLAY its stream and the words read ahead. -/
structure LEntry where
  index : Nat
  word : BitVec 256
  markers : List (BitVec 64)
  err : Option (BitVec 8)
  taken : Nat
  feed : Feed
  data : List Held
  deriving DecidableEq, Repr

/-- A cold target that an order names, preloaded from its order phase, with what has been read of its entries (R224). -/
structure Pre where
  target : Target
  entries : List LEntry
  deriving DecidableEq, Repr

/-- The PLAY occurrence that is playing (R214). -/
structure Play where
  index : Nat
  word : BitVec 256
  /-- Samples of this pass that are out, and the edge (fast sample number since reset) of the next one. -/
  seen : Nat
  next : Nat
  /-- Samples of this pass that something late left without data: cause, first, count (R232). -/
  late : Option (BitVec 8 × Nat × Nat)
  repeats : Nat
  /-- Under REPEAT, the core cycle in which it stalled to restart (R233). -/
  stalled : Option Nat
  markers : List (BitVec 64)
  /-- Words read ahead, the first of which is word `heldAt` of its data (R222). -/
  held : List Held
  heldAt : Nat
  feed : Feed
  deriving DecidableEq, Repr

/-- One jump slot beyond its register (R223). -/
structure Slot where
  loading : Bool
  ready : Bool
  rejected : Bool
  entries : List LEntry
  deriving DecidableEq, Repr

/-- A slot at reset. -/
def Slot.reset : Slot := ⟨false, false, false, []⟩

/-- A force in place (R212). -/
inductive Force where
  | none
  | safe
  | hold (v : BitVec 20)
  deriving DecidableEq, Repr

/-- A WAIT in progress (R217). -/
structure Waiting where
  flag : Nat
  consume : Bool
  safe : Bool
  deriving DecidableEq, Repr

/-- An underrun episode (R234): PLAY entry, cause, policy applied, how many samples miss so far, FT of the first. -/
structure Episode where
  entry : Nat
  cause : BitVec 8
  policy : BitVec 2
  count : Nat
  first : BitVec 64
  deriving DecidableEq, Repr

/-- A marker action waiting for its sample (R218): the list entry, the edge it falls on, and the edge of its own sample, from
which the limit of four actions a core cycle may have moved it. -/
structure MAct where
  entry : BitVec 64
  edge : Nat
  own : Nat
  deriving DecidableEq, Repr

/-- One sequencer beyond its stored registers (chapter 08). -/
structure Seq where
  st : SeqSt
  entry : Nat
  /-- Edge of the boundary at which the next entry acts. -/
  bnd : Nat
  look : List LEntry
  fetchNext : Nat
  fetchStack : List Lvl
  fetchEnded : Bool
  /-- Entries of the path since its last PLAY: taken in, and acted (R220). -/
  noPlay : Nat
  ran : Nat
  /-- Core cycle in which the lookahead took in its latest entry (R219); the path came to a cold target and has not played since;
  cold targets of orders (R224). -/
  fetchAt : Option Nat
  cold : Bool
  pre : List Pre
  stack : List Lvl
  latch : Option (Target × Bool)
  stopAtEnd : Bool
  ownEnd : Option FT80
  play : Option Play
  waiting : Option Waiting
  force : Force
  slots : Tab Slot
  /-- NCO anchor: an edge, the phase at it, and the FTW that holds from it on (R210); anchors before it that samples may still
  need, latest first. -/
  ncoAt : Nat
  phase : BitVec 64
  ftw : BitVec 64
  ncoOld : List (Nat × BitVec 64 × BitVec 64)
  errHold : Bool
  /-- Output value of the last sample, before a force, sign-extended from the channel's width. -/
  last : BitVec 20
  /-- Samples of finished occurrences since enable, and samples affected by underrun. -/
  played : BitVec 64
  affected : BitVec 64
  episode : Option Episode
  markers : List MAct
  mkrCycle : Nat
  mkrCount : Nat
  /-- SEQ_CTRL as it is live (R236). -/
  ctrl : Word
  /-- Core cycle at which a retirement ends the burst (R373: D + 12). -/
  retireAt : Option Nat
  deriving DecidableEq, Repr

/-- A sequencer at reset; SEQ_CTRL's reset value is live. -/
def Seq.reset : Seq :=
  { st := .off, entry := 0, bnd := 0, look := [], fetchNext := 0, fetchStack := [], fetchEnded := true, noPlay := 0,
    ran := 0, fetchAt := none, cold := false, pre := [],
    stack := [], latch := none, stopAtEnd := false, ownEnd := none, play := none, waiting := none,
    force := .none, slots := [], ncoAt := 0, phase := 0, ftw := 0, ncoOld := [], errHold := false, last := 0,
    played := 0, affected := 0, episode := none, markers := [], mkrCycle := 0, mkrCount := 0,
    ctrl := 0x08000004, retireAt := none }

/-- The states of a transmit link (R240). -/
inductive LnkSt where
  | off
  | align
  | cgs
  | ilas
  | data
  deriving DecidableEq, Repr

/-- A transmit link: its state, whether a serializer is out of lock (R240, R367), and the core cycle from which its LEMC
counts (15 R398). -/
structure TxLink where
  st : LnkSt
  unlocked : Bool
  lemc : Nat
  /-- Core cycle in which its ILAS began (R240). -/
  ilasAt : Nat
  /-- When a serializer last lost lock, in the time that has passed since power-up (R367). -/
  lostAt : Nat
  deriving DecidableEq, Repr

/-- A pattern taken at a start or SYNC restart (R249). -/
structure Pat where
  addr : BitVec 32
  len : BitVec 32
  store : BitVec 32
  time : BitVec 32
  deriving DecidableEq, Repr

/-- A transmit link at reset. -/
def TxLink.reset : TxLink := ⟨.off, false, 0, 0, 0⟩

/-- One line beyond its stored registers (R246 to R252). -/
structure Line where
  cfg : Word
  marker : Bool
  /-- Fast sample at which a pulse ends. -/
  pulseEnd : Option Nat
  /-- Changes of the marker state in the current core cycle, oldest first: edge and state before it. -/
  was : List (Nat × Bool)
  use : Pat
  /-- Edge at which a start or SYNC restart of its pattern stands (R249). -/
  due : Option Nat
  playing : Bool
  /-- Fast sample at which bit 0 of the current pass started, and wraps since the start. -/
  start : Nat
  wraps : Word
  /-- The on-chip copy of the pending pattern is complete, and its words; the words of the pattern in use (R249). -/
  ready : Bool
  chip : List Held
  useChip : List Held
  /-- The stream of a preload from Moraine, and of the pattern in use. -/
  preFeed : Feed
  feed : Feed
  /-- Words read ahead beyond the on-chip copy, the first of which is word `wordAt` (R250). -/
  words : List Held
  wordAt : Nat
  /-- A start came before the preload completed; the pattern in use reached beyond Moraine at its start (R250). -/
  starved : Bool
  beyond : Bool
  /-- The last bit delivered before a missing one. -/
  held : Bool
  episode : Option Episode
  /-- Values at the samples of the current core cycle that lie before `start`. -/
  tail : BitVec 16
  /-- Edge before which every bit has been taken account of (R251). -/
  seen : Nat
  /-- Core cycle of the pad monitor's last occurrence (R367). -/
  padAt : Option Nat
  deriving DecidableEq, Repr

/-- A line at reset. -/
def Line.reset : Line :=
  { cfg := 0, marker := false, pulseEnd := none, was := [], use := ⟨0, 0, 0, 0⟩, due := none, playing := false, start := 0
    wraps := 0, ready := false, chip := [], useChip := [], preFeed := .none, feed := .none, words := [], wordAt := 8
    starved := false, beyond := false, held := false, episode := none, tail := 0, seen := 0, padAt := none }

/-- One side of a pair's shaper (R254, R255): on, since when on, since when off, pending flag, whether the run in
progress has been counted as stretched. Times are fast samples. -/
structure Side where
  on : Bool
  onAt : Int
  off : Int
  pend : Bool
  /-- The on-run began from the pending flag alone. -/
  stretched : Bool
  /-- In DROP, the sample from which the run of d can turn the side on once it is seen to be MIN_PULSE long (R254). -/
  cand : Option Int
  /-- The latest changes of its level, newest first: sample and level from it on. -/
  past : List (Int × Bool)
  deriving DecidableEq, Repr

/-- One pair's shaper (R253). -/
structure Pair where
  /-- d at the latest sample. -/
  d : Bool
  /-- The shaper starts anew at the next core-cycle boundary (R253). -/
  restart : Bool
  h : Side
  l : Side
  deriving DecidableEq, Repr

/-- A pair at reset: d = 0, so side L is on; every timer satisfied. -/
def Pair.reset : Pair :=
  ⟨false, false, ⟨false, -100000, -100000, false, false, none, []⟩, ⟨true, -100000, -100000, false, false, none, []⟩⟩

/-- An edge on its way from its source to the triggers (R74): kind and index of the source, direction, the core cycle k + 12
and the sample of its effect, and whether its actions have been decoded (k + 6). -/
structure TEdge where
  kind : Nat
  index : Nat
  rise : Bool
  due : Nat
  sample : Nat
  decoded : Bool
  deriving DecidableEq, Repr

/-- A trigger action on its way from its decoding (R74): the kind of its source, the core cycle and sample of its effect,
sequencer, trigger, its action, and whether its precedence has been judged (k + 7). -/
structure Sched where
  kind : Nat
  due : Nat
  sample : Nat
  seq : Nat
  trig : Nat
  action : Nat
  arg : Nat
  claimed : Bool
  deriving DecidableEq, Repr

/-- A change of an external source of the TLA in the current core cycle: its code less 0x400, sample, new level (R265). -/
structure ExtCh where
  code : Nat
  idx : Nat
  level : Bool
  deriving DecidableEq, Repr

/-- A change of TLA outputs on its way to the consumers (R74): the core cycle of its effect, output, sample, level, and
whether it is an edge. -/
structure OutEv where
  due : Nat
  output : Nat
  idx : Nat
  level : Bool
  deriving DecidableEq, Repr

/-- The marker and event block beyond its stored registers. -/
structure Mkr where
  /-- Pin levels E0-E15 at the latest fast sample (R241). -/
  pins : BitVec 16
  /-- MKR_EIN_CFG as live (R242). -/
  einCfg : Tab Word
  lines : Tab Line
  pairs : Tab Pair
  /-- Edges on their way (R74), the actions decoded from them, and EVENT records that wait for the core cycle k + 12. -/
  edges : List TEdge
  sched : List Sched
  recs : List (Nat × List Word)
  /-- Changes of external sources in the current core cycle, in order. -/
  ext : List ExtCh
  /-- TLA outputs as their consumers see them at the start of the current core cycle, the changes in it, and those on
  their way. -/
  outs : BitVec 64
  outNow : List OutEv
  outQ : List OutEv
  deriving DecidableEq, Repr

/-- The states of a tracker (R258). -/
inductive TrkSt where
  | off
  | seek
  | sync
  deriving DecidableEq, Repr

/-- One angle tracker beyond its stored registers (R257 to R264). Times are edges (fast sample numbers since reset). -/
structure Trk where
  st : TrkSt
  position : Nat
  lastLoss : BitVec 3
  rev : Word
  p : Nat
  /-- The last real or virtual tooth, the last real one, and positions spanned since the real one. -/
  tref : Nat
  treal : Nat
  spanned : Nat
  /-- The previous position was a miss. -/
  missed : Bool
  /-- The last tooth before the gap. -/
  tprev : Nat
  /-- Angle at `tref`, and whether θ runs (SYNC or free run). -/
  thetaRef : Nat
  runs : Bool
  /-- SEEK: whether an edge has been accepted, and the accepted intervals, newest first. -/
  seen : Bool
  hist : List Nat
  deriving DecidableEq, Repr

/-- A tracker at reset. -/
def Trk.reset : Trk := ⟨.off, 0, 0, 0, 0, 0, 0, 0, false, 0, 0, false, false, []⟩

/-- The trackers and the angle events' armed flags (R262). -/
structure Ang where
  trk : Tab Trk
  armed : Tab Bool
  /-- Edge at which an event was last armed. -/
  since : Tab Nat
  deriving DecidableEq, Repr

end Sys2Proof.Machine
end

