-- ==== Sys2Proof/Machine/StateStore.lean ====
section
/-!
DEFINITION. State of the two stores: Firn with its repair and test engines, and Moraine with its four channels and
32 prefetch streams (chapters 06 and 07).
-/

namespace Sys2Proof.Machine

/-- The states of a main bank (R164). -/
inductive BankSt where
  | normal
  | wait
  | copy
  | remapped
  | degraded
  | dead
  deriving DecidableEq, Repr

/-- One main bank: state, spare that serves it (0 for none, k + 1 for spare k), failing words, codewords corrected since
reset. -/
structure Bank where
  st : BankSt
  spare : Nat
  failing : Nat
  corrected : Word
  deriving DecidableEq, Repr

/-- The states of a spare (R164). -/
inductive SpareSt where
  | free
  | copy
  | active
  | failed
  deriving DecidableEq, Repr

/-- One spare bank: state, bank it serves, failing words, codewords corrected since reset. -/
structure Spare where
  st : SpareSt
  bank : Nat
  failing : Nat
  corrected : Word
  deriving DecidableEq, Repr

/-- What Rime is doing (R160, R161). -/
inductive RimeSt where
  | idle
  | copy
  | test
  | restore
  deriving DecidableEq, Repr

/-- The error history of one word (R159): time of its last error, open FC_FIRN_CE window with the ticks of the millisecond
timer that it still lasts, an uncorrectable error seen, a whole-word write since that error. -/
structure Hist where
  word : Nat
  last : BitVec 64
  count : Nat
  limit : Nat
  left : Nat
  ue : Bool
  rewritten : Bool
  deriving DecidableEq, Repr

/-- The copy engine at work on one bank (R165). -/
structure Copy where
  bank : Nat
  spare : Nat
  /-- Rows still to copy in this pass, and rows that it has skipped for a later one. -/
  todo : List Nat
  skipped : List Nat
  /-- Rows that the spare holds poisoned. -/
  bad : List Nat
  /-- Core cycle at which the pass began. -/
  at_ : Nat
  deriving DecidableEq, Repr

/-- Rime at work on a region (R160 to R163). -/
structure Rime where
  st : RimeSt
  region : Nat
  stalled : Bool
  /-- Core cycles at which the latest region and the present phase began. -/
  regionAt : Option Nat
  phaseAt : Nat
  /-- The save buffer: one entry for each word of the region, the words saved and those restored (R161). -/
  save : Tab (BitVec 512)
  savePoison : Tab Bool
  saved : BitVec 64
  restored : BitVec 64
  /-- Operations of the march done, and words that have mismatched in it (R162). -/
  march : Nat
  bad : List Nat
  /-- Words whose failing the banks have still to see: word and physical bank (R164, tick ledger). -/
  late : List (Nat × Nat)
  deriving DecidableEq, Repr

/-- Rime at rest. -/
def Rime.reset : Rime := ⟨.idle, 0, false, none, 0, [], [], 0, 0, 0, [], []⟩

/-- Firn beyond its stored registers (chapter 06). -/
structure Firn where
  /-- Contents, one cell a byte; an unlisted byte is 0, as R387 leaves Firn. -/
  mem : List (Nat × Byte)
  /-- Words stored poisoned (R158), by word address A[26:6]. -/
  poison : Tab Bool
  banks : Tab Bank
  spares : Tab Spare
  /-- How many regions are retired (R170); which ones, the fault engine holds. -/
  retiredCount : Nat
  wbQueue : List Nat
  hist : List Hist
  /-- Words already failing, so that each counts once. -/
  failing : Tab Bool
  rime : Rime
  passes : Nat
  next : Nat
  copy : Option Copy
  copyWait : List Nat
  lastErr : Word
  /-- Accesses served and bank cycles waited, per rank 1 to 6 (SPACE 0x09). -/
  served : Tab (BitVec 64)
  waited : Tab (BitVec 64)
  /-- Bank cycles since reset as CD_FIRN counts them, and what the running one has behind it, in 2^-32 fu (R148). -/
  now : Nat
  part : Nat
  /-- Port, word and retirement of served reads that brought an error or the tombstone, which their ports have not taken yet
  (R157, R169). -/
  flags : List (Nat × Nat × Bool)
  /-- Per bank: the cycle after the one that it served last, and last port served at ranks 1 and 4 (R151); per bank and port: end of holdoff. -/
  cycle : Tab Nat
  last1 : Tab Nat
  last4 : Tab Nat
  hold : Tab Nat
  deriving DecidableEq, Repr

/-- A bank at reset. -/
def Bank.reset : Bank := ⟨.normal, 0, 0, 0⟩
/-- A spare at reset. -/
def Spare.reset : Spare := ⟨.free, 0, 0, 0⟩

/-- Firn at reset. -/
def Firn.reset : Firn :=
  { mem := [], poison := [], banks := [], spares := [], retiredCount := 0, wbQueue := [], hist := [],
    failing := [], rime := .reset, now := 0, part := 0, flags := [],
    passes := 0, next := 0, copy := none, copyWait := [], lastErr := 0, served := [], waited := [], cycle := [],
    last1 := [], last4 := [], hold := [] }

/-- The states of a Moraine channel (R204). -/
inductive ChSt where
  | off
  | train
  | active
  | srEntry
  | selfRefresh
  | replay
  | retired
  | recover
  deriving DecidableEq, Repr

/-- A DIMM as detection read it (R172, R174). -/
structure Dimm where
  fitted : Bool
  unsupported : Bool
  width4 : Bool
  gb32 : Bool
  ranks2 : Bool
  speed : BitVec 8
  trimmed : Bool
  deriving DecidableEq, Repr

/-- A DRAM command of R173, or the RCD control word that clears a parity error (R195). A bank is 4 x bank group + bank. -/
inductive DOp where
  | act (bank row : Nat)
  | rd (bank row col : Nat)
  | wr (bank row col : Nat)
  | prePb (bank : Nat)
  | preSb (ba : Nat)
  | preAb
  | refAb
  | refSb (ba : Nat)
  | rfmAb
  | sre
  | srx
  | mrw (mr v : Nat)
  | mrr (mr : Nat)
  | mpc (op : Nat)
  | rcw
  deriving DecidableEq, Repr

/-- A command on the command stream of a subchannel, for a rank. -/
structure DCmd where
  sub : Nat
  rank : Nat
  op : DOp
  deriving DecidableEq, Repr

/-- A command in the retry buffer (R194): the controller cycle of its issue, and the data of a write. -/
structure Issued where
  cmd : DCmd
  at_ : Nat
  data : Option (BitVec 512)
  deriving DecidableEq, Repr

/-- A read in flight (R179): its request, the controller cycle of its arrival, its number among the channel's arrivals, and
once its RD is issued the burst that the DRAM held then and the time in tCK at which it returns. -/
structure MorRd where
  req : MorReq
  at_ : Nat
  num : Nat
  data : Option (BitVec 512)
  due : Nat
  deriving DecidableEq, Repr

/-- A write-queue entry: address, data, arrival, number, and the controller cycle of its WR (R179, R183, R194). -/
structure MorWr where
  ca : Nat
  v : BitVec 512
  at_ : Nat
  num : Nat
  sent : Option Nat
  deriving DecidableEq, Repr

/-- A training helper operation as taken at its GO (R199). -/
structure ThOp where
  op : Nat
  sub : Bool
  rank : Bool
  addr : Word
  count : Nat
  pat : Word
  data : List Word
  deriving DecidableEq, Repr

/-- One Moraine channel beyond its stored registers (chapter 07). -/
structure Chan where
  st : ChSt
  trainStep : Nat
  /-- Controller cycles since reset, and what the running one has behind it, in 2^-64 cycles. -/
  cc : Nat
  part : Nat
  /-- Per 2 x subchannel + rank: refreshes owed, the controller cycle of the latest one's falling due, and the next REFsb bank
  index; REF_MODE as the running tREFI took it (R185). -/
  owed : Tab Nat
  refAt : Tab Nat
  refIdx : Tab Nat
  sameBank : Bool
  draining : Bool
  /-- The state REPLAY returns to, the controller cycle t0, and what is still to be issued again (R195, R196). -/
  back : ChSt
  t0 : Nat
  again : List Issued
  dimm : Dimm
  timing : Tab (BitVec 16)
  delay : Tab (BitVec 12)
  /-- Arrivals since reset, the FT of the latest, and the controller cycle of the SRX of a self-refresh exit (R188, R190). -/
  arrivals : Nat
  lastReq : BitVec 64
  srxAt : Option Nat
  /-- Reads in flight and the write queue, oldest first (R179), and requests at the ingress. -/
  reads : List MorRd
  writes : List MorWr
  waiting : List MorReq
  /-- The last 32 commands (R194), and the commands whose timing still binds, each with its time in tCK (R184). -/
  retry : List Issued
  hist : List (DCmd × Nat)
  /-- Open rows, keyed by 64 x subchannel + 32 x rank + bank; 0 closed, r + 1 row r. -/
  rows : Tab Nat
  /-- When each kind of calibration fell due last, the steps that have fallen due and not started, each with its FT, and the time in tCK until which one runs (R190, R192). -/
  calAt : List (CalKind × BitVec 64)
  calWait : List (CalKind × BitVec 64)
  calEnd : Nat
  /-- Commands of the calibration steps under way, still to be issued (R192). -/
  cal : List DCmd
  th : Option ThOp
  thErrors : BitVec 16
  thMrr : BitVec 8
  thDq : Word
  thCb : BitVec 8
  raa : Tab Nat
  modeRegs : Tab (BitVec 8)
  burstsRead : BitVec 64
  burstsWritten : BitVec 64
  /-- Trainings since reset (each overwrites the contents) and parity alerts since reset. -/
  epoch : Nat
  alerts : Word
  deriving DecidableEq, Repr

/-- A channel at reset: OFF, no DIMM read; timing and delay zero (DESIGN CHOICE, log 81). -/
def Chan.reset : Chan :=
  { st := .off, trainStep := 0, cc := 0, part := 0, owed := [], refAt := [], refIdx := [], sameBank := false,
    draining := false, back := .off, t0 := 0, again := [],
    dimm := ⟨false, false, false, false, false, 0, false⟩, timing := [], delay := [], arrivals := 0, lastReq := 0,
    srxAt := none, reads := [], writes := [], waiting := [], retry := [], hist := [], rows := [], calAt := [], calWait := [], calEnd := 0, cal := [],
    th := none, thErrors := 0, thMrr := 0, thDq := 0, thCb := 0, raa := [],
    modeRegs := [], burstsRead := 0, burstsWritten := 0, epoch := 0, alerts := 0 }

/-- The states of a stream context (MOR wide values). -/
inductive StrSt where
  | idle
  | open
  | done
  | aborted
  deriving DecidableEq, Repr

/-- One prefetch stream (R200 to R203). Positions count bytes from SRC_MA. -/
structure Stream where
  st : StrSt
  src : Nat
  length : Nat
  base : Nat
  regions : Nat
  /-- Bytes issued, and outstanding positions. -/
  issued : Nat
  out : List Nat
  /-- Positions written beyond the contiguous fill. -/
  ahead : List Nat
  fill : Nat
  consumed : Nat
  deriving DecidableEq, Repr

/-- A stream context at reset. -/
def Stream.reset : Stream := ⟨.idle, 0, 0, 0, 0, 0, [], [], 0, 0⟩

/-- Moraine beyond its stored registers (chapter 07). -/
structure Mor where
  chans : Tab Chan
  streams : Tab Stream
  /-- Contents: written bursts, keyed by channel and CA (2^32 n + CA[37:6]); what an unlisted burst reads as is open (log 5). -/
  mem : Tab (Option (BitVec 512))
  /-- Check-lane bits that the training helper wrote; a burst without them holds its check symbols (R175, R198). -/
  cb : Tab (Option (BitVec 128))
  /-- The map: active channels and channel capacity in bytes (R174, R176). -/
  active : List Nat
  capacity : Nat
  gen : BitVec 16
  /-- A retirement's fence is closed until the new map (R205). -/
  fenced : Bool
  /-- The MPLL's BYPASS has taken the channels and they are not back (R206); the last active channel has retired (R205). -/
  recovering : Bool
  gone : Bool
  deriving DecidableEq, Repr

/-- Moraine at reset. -/
def Mor.reset : Mor :=
  { chans := [], streams := [], mem := [], cb := [], active := [], capacity := 0, gen := 0, fenced := false, recovering := false,
    gone := false }

end Sys2Proof.Machine
end

