-- ==== Sys2Proof/Machine/State.lean ====
section
/-!
DEFINITION. The machine's state, its value after reset, and the reasons a step can stop.
-/

namespace Sys2Proof.Machine

/-- What the part hands to the world outside (the model's output port, in the order of its writes). -/
inductive Out where
  /-- A completion entry, a record or a mail entry, or a part of one, written to slot `slot` of ring `ring`. -/
  | entry (ring slot : Nat) (addr : BitVec 64) (bytes : List Byte)
  /-- An MSI-X message. -/
  | msix (vector : Nat) (addr : BitVec 64) (data : Word)
  /-- Payload bytes written to host memory, and HIF_CTRL.RO_DATA (R114). -/
  | host (addr : BitVec 64) (bytes : List Byte) (relaxed : Bool)
  /-- The flits of a packet, or a link-control flit, leaving a link. -/
  | flits (link : Nat) (l : List (BitVec 256))
  /-- A read request for host memory (R114). -/
  | hostRead (addr : BitVec 64) (length : Nat)
  /-- An error message of PCIe, with the AER status that it reports (R140). -/
  | error (aer : Word)
  /-- A Completer Abort on BAR4. -/
  | abort
  /-- A DRAM command of a channel, with the data of a write (R173). -/
  | dram (ch : Nat) (c : DCmd) (data : Option (BitVec 512))
  /-- SYSREF pulses starting on the outputs of a mask. -/
  | sysref (sy : BitVec 12)
  deriving DecidableEq, Repr

/-- What a read returned (the model's own field: a register or BAR read's data is no state of the part). -/
structure ReadBack where
  /-- The words of the latest read request, one per register, in ascending order (02 R36). -/
  host : List Word
  housekeeping : List Word
  bar4 : List Byte
  poisoned : Bool
  deriving DecidableEq, Repr

/-- The state of the part and the queue of the commands that wait for it. -/
structure State where
  regs : Tab Word
  shadow : Tab Word
  ctxs : Tab Ctx
  /-- RC bits set in the current core cycle, by register (a context's by its tail register, see `ctxKey`): a read in this
  cycle does not clear them (00 R15). -/
  fresh : Tab Word
  /-- Writes of housekeeping and of commits in the current core cycle, by register and rank: the bits that they fix and
  the bits that they invert, which an earlier-ranking write of the same cycle cannot change (02 R38, R47). -/
  landed : Tab (Word × Word)
  top : Top
  time : Time
  clk : Clk
  hif : Hif
  firn : Firn
  mor : Mor
  seqs : Tab Seq
  tx : Tab TxLink
  mkr : Mkr
  ang : Ang
  tla : Tla
  cle : Cle
  nzl : Nzl
  flt : Flt
  hk : Hk
  pins : Pins
  /-- Free-value counter: advanced whenever a step takes a value that the spec leaves open (log 1). -/
  free : Nat
  out : List Out
  readData : ReadBack
  pending : List Instr
  deriving DecidableEq, Repr

/-- A step that stops with a fault: the model has none. -/
inductive Fault where
  /-- Raised by no command: every command of the table ends in a next state. Safe. -/
  | none
  deriving DecidableEq, Repr

/-- The reasons for which a step refuses. -/
inductive Refusal where
  /-- Raised by an arm of exec whose command has no meaning yet. Safe: nothing can be proved of its effect. -/
  | notModelled (mnemonic : String)
  deriving DecidableEq, Repr

/-- TOP at reset. -/
def Top.reset : Top :=
  { fwVersion := 0, morPresent := 0, linkPresent := 0, firnMib := 0, strap := 0, outsideAddr := 0, shadowLast := 0,
    convLive := false, lineLive := false, cycles := 0 }

/-- 6,553.6 fu, the core cycle on the XO, to the nearest 2^-32 fu (R87). -/
def incXo : Inc := 28147497671066

/-- The time block at reset: FT counts from zero, INC is that of the XO (03 Model, R87). -/
def Time.reset : Time :=
  { ft := 0, inc := incXo, ftValid := false, locked := false, root := false, running := false, stopping := false,
    load := false, adjust := none, core := 0, elapsed := 0,
    cycle := 0, period := 400, c1 := 64, c2 := 64, c3 := 80, c4 := 80, c5 := 112, phasesDone := 0, orderLen := 16, tickFt := 0,
    ticks := 0, costLaw := 0, costSup := 0, short := 0, inbound := [], queue := [],
    resolved := [], acting := [], closing := [], imm := [], inSets := [], sets := [],
    commits := [], flush := none, begun := [], anchors := [] }

/-- The clock block at reset (04): PLLs OFF, every consumer on the XO or stopped; the held SPLL point is named. -/
def Clk.reset : Clk :=
  { spll := .reset, mpll := .reset, fpll := .reset, hpll := .reset, table := [], entry := 0, osc := false,
    idle := .free, hop := none, hopCycle := none, point := ⟨81, 23, 25, 0⟩, everLocked := false,
    fcw := 0, ramp := none, pend := 0, refAcc := 0, coLive := [], syLive := [], coAt := [],
    applyMask := 0, goal := ⟨81, 23, 25, 0⟩, xoLost := false, ref10m := false, spllDue := false,
    spllXo := true, spllStopped := true, hpllXo := true, mpllXo := true, 
    fpllXo := true, fpllStopped := true }

/-- The host interface at reset: every ring disabled, link down, BARs not yet decoded (R384, R387). Device Control has PCIe's
own reset value (PRESUMED, log 51). -/
def Hif.reset : Hif :=
  { rings := [], up := false, gen := 0, width := 0, d3hot := false, decoding := false, ingest := [],
    pba := [], statusCounts := [], lastRing := [], fetched := 0, devCtl := 0x2110, pciStatus := 0, aer := 0 }

/-- Lines and event inputs at reset. -/
def Mkr.reset : Mkr := ⟨0, [], [], [], [], [], [], [], 0, [], []⟩

/-- Trackers at reset. -/
def Ang.reset : Ang := ⟨[], [], []⟩

/-- Pins and sensors at reset: POR_N low, TAP on IDCODE (PRESUMED, log 7), THERM_N released; nothing measured yet (DESIGN
CHOICE, log 81). -/
def Pins.reset : Pins :=
  { porN := false, tap := .idcode, tdo := 0x116805AB, temps := [], maxT := 0, hot := 0,
    thermN := true, tripped := false, supplyOut := false, supplies := [], supplyNow := 0 }

/-- The part right after a power-on reset has triggered: every field at its reset value, the reset still held
(R383 to R385); RESET_RELEASE ends it. -/
def State.reset : State :=
  { regs := [], shadow := [], ctxs := [], fresh := [], landed := [], top := .reset, time := .reset, clk := .reset, hif := .reset,
    firn := .reset, mor := .reset, seqs := [], tx := [], mkr := .reset, ang := .reset, tla := .reset,
    cle := .reset, nzl := .reset, flt := .reset, hk := { Hk.reset with inReset := some .por }, pins := .reset,
    free := 0, out := [], readData := ⟨[], [], [], false⟩, pending := [] }

end Sys2Proof.Machine
end

