-- ==== Sys2Proof/Machine/Ops.lean ====
section
/-!
DEFINITION. The named operations over the state: registers, units, fabric time, detections and the output port. Every
other definition reads and writes the state through these.
-/

namespace Sys2Proof.Machine

/-- Window bases in BAR0 (R34). -/
def wTop : Nat := 0x000000
/-- HIF window. -/
def wHif : Nat := 0x010000
/-- TIME window. -/
def wTime : Nat := 0x020000
/-- CLK window. -/
def wClk : Nat := 0x030000
/-- FIRN window. -/
def wFirn : Nat := 0x040000
/-- MOR window. -/
def wMor : Nat := 0x050000
/-- MKR window. -/
def wMkr : Nat := 0x060000
/-- ANG window. -/
def wAng : Nat := 0x070000
/-- TLA window. -/
def wTla : Nat := 0x080000
/-- CLE window. -/
def wCle : Nat := 0x090000
/-- NZL window. -/
def wNzl : Nat := 0x0A0000
/-- FLT window. -/
def wFlt : Nat := 0x0B0000
/-- HK window. -/
def wHk : Nat := 0x0C0000
/-- The window of sequencer n (R34). -/
def wSeq (n : Nat) : Nat := 0x100000 + n * 0x10000

/-! Registers. -/

/-- The stored bits of the register at a BAR0 base address. -/
def State.reg (s : State) (a : Nat) : Word := Tab.get regDefault s.regs a

/-- The shadow of the register at a BAR0 base address (R53). -/
def State.shadowAt (s : State) (a : Nat) : Word := Tab.get regDefault s.shadow a

/-- A field of a register's stored bits. -/
def State.fld (s : State) (a lo w : Nat) : Nat := bits (s.reg a) lo w

/-- A bit of a register's stored bits. -/
def State.flag (s : State) (a i : Nat) : Bool := bitOf (s.reg a) i

/-- Write the stored bits of a register, the shadow left as it is. -/
def State.putReg (s : State) (a : Nat) (v : Word) : State := { s with regs := Tab.set regDefault s.regs a v }

/-- Whether a BAR0 base address is that of a guarded register (R42). -/
def guardedAt (a : Nat) : Bool := match rowOf a with | some r => r.guarded | none => false

/-- A change of a register by an accepted write or by the part's own rule: the shadow of a guarded register follows in the
same core cycle (R53). -/
def State.setReg (s : State) (a : Nat) (v : Word) : State :=
  let t := s.putReg a v
  if guardedAt a then { t with shadow := Tab.set regDefault t.shadow a v } else t

/-- Change one field of a register by the part's own rule. -/
def State.setFld (s : State) (a lo w x : Nat) : State := s.setReg a (putBits (s.reg a) lo w x)

/-! Units, each in its table. -/

/-- FT with fraction, as a number. -/
def State.ftN (s : State) : Nat := s.time.ft.toNat
/-- INC as a number. -/
def State.incN (s : State) : Nat := s.time.inc.toNat
/-- A time that an order names, on the scale of FT with fraction. -/
def ftScale (t : FT80) : Nat := t.toNat * 2 ^ 32

/-- The context of a requester in a window. -/
def State.ctx (s : State) (win : Nat) (rq : Requester) : Ctx :=
  Tab.get (fun _ => Ctx.reset) s.ctxs (2 * win + Requester.code rq)

/-- Write a context. -/
def State.setCtx (s : State) (win : Nat) (rq : Requester) (c : Ctx) : State :=
  { s with ctxs := Tab.set (fun _ => Ctx.reset) s.ctxs (2 * win + Requester.code rq) c }

/-- Sequencer n. -/
def State.seq (s : State) (n : Nat) : Seq := Tab.get (fun _ => Seq.reset) s.seqs n
/-- Write sequencer n. -/
def State.setSeq (s : State) (n : Nat) (q : Seq) : State :=
  { s with seqs := Tab.set (fun _ => Seq.reset) s.seqs n q }
/-- Change sequencer n. -/
def State.modSeq (s : State) (n : Nat) (f : Seq → Seq) : State := s.setSeq n (f (s.seq n))

/-- Ring n. -/
def State.ring (s : State) (n : Nat) : Ring := Tab.get (fun _ => Ring.reset) s.hif.rings n
/-- Write ring n. -/
def State.setRing (s : State) (n : Nat) (r : Ring) : State :=
  { s with hif := { s.hif with rings := Tab.set (fun _ => Ring.reset) s.hif.rings n r } }
/-- Change ring n. -/
def State.modRing (s : State) (n : Nat) (f : Ring → Ring) : State := s.setRing n (f (s.ring n))

/-- Transmit link n (0-7 fast, 8 precision). -/
def State.txl (s : State) (n : Nat) : TxLink := Tab.get (fun _ => TxLink.reset) s.tx n
/-- Write transmit link n. -/
def State.setTxl (s : State) (n : Nat) (l : TxLink) : State :=
  { s with tx := Tab.set (fun _ => TxLink.reset) s.tx n l }

/-- Line n. -/
def State.line (s : State) (n : Nat) : Line := Tab.get (fun _ => Line.reset) s.mkr.lines n
/-- Write line n. -/
def State.setLine (s : State) (n : Nat) (l : Line) : State :=
  { s with mkr := { s.mkr with lines := Tab.set (fun _ => Line.reset) s.mkr.lines n l } }
/-- Change line n. -/
def State.modLine (s : State) (n : Nat) (f : Line → Line) : State := s.setLine n (f (s.line n))

/-- Pair n. -/
def State.pair (s : State) (n : Nat) : Pair := Tab.get (fun _ => Pair.reset) s.mkr.pairs n
/-- Write pair n. -/
def State.setPair (s : State) (n : Nat) (p : Pair) : State :=
  { s with mkr := { s.mkr with pairs := Tab.set (fun _ => Pair.reset) s.mkr.pairs n p } }

/-- Tracker n. -/
def State.trk (s : State) (n : Nat) : Trk := Tab.get (fun _ => Trk.reset) s.ang.trk n
/-- Write tracker n. -/
def State.setTrk (s : State) (n : Nat) (t : Trk) : State :=
  { s with ang := { s.ang with trk := Tab.set (fun _ => Trk.reset) s.ang.trk n t } }

/-- Bank n. -/
def State.bank (s : State) (n : Nat) : Bank := Tab.get (fun _ => Bank.reset) s.firn.banks n
/-- Write bank n. -/
def State.setBank (s : State) (n : Nat) (b : Bank) : State :=
  { s with firn := { s.firn with banks := Tab.set (fun _ => Bank.reset) s.firn.banks n b } }
/-- Spare n. -/
def State.spare (s : State) (n : Nat) : Spare := Tab.get (fun _ => Spare.reset) s.firn.spares n
/-- Write spare n. -/
def State.setSpare (s : State) (n : Nat) (b : Spare) : State :=
  { s with firn := { s.firn with spares := Tab.set (fun _ => Spare.reset) s.firn.spares n b } }

/-- Moraine channel n. -/
def State.chan (s : State) (n : Nat) : Chan := Tab.get (fun _ => Chan.reset) s.mor.chans n
/-- Write channel n. -/
def State.setChan (s : State) (n : Nat) (c : Chan) : State :=
  { s with mor := { s.mor with chans := Tab.set (fun _ => Chan.reset) s.mor.chans n c } }
/-- Change channel n. -/
def State.modChan (s : State) (n : Nat) (f : Chan → Chan) : State := s.setChan n (f (s.chan n))
/-- Stream n. -/
def State.stream (s : State) (n : Nat) : Stream := Tab.get (fun _ => Stream.reset) s.mor.streams n
/-- Write stream n. -/
def State.setStream (s : State) (n : Nat) (c : Stream) : State :=
  { s with mor := { s.mor with streams := Tab.set (fun _ => Stream.reset) s.mor.streams n c } }

/-- Loop slot n. -/
def State.slot (s : State) (n : Nat) : LSlot := Tab.get (fun _ => LSlot.reset) s.cle.slots n
/-- Write loop slot n. -/
def State.setSlot (s : State) (n : Nat) (l : LSlot) : State :=
  { s with cle := { s.cle with slots := Tab.set (fun _ => LSlot.reset) s.cle.slots n l } }
/-- Change loop slot n. -/
def State.modSlot (s : State) (n : Nat) (f : LSlot → LSlot) : State := s.setSlot n (f (s.slot n))
/-- Converter position j. -/
def State.cpos (s : State) (j : Nat) : CPos := Tab.get (fun _ => CPos.reset) s.cle.pos j
/-- Write converter position j. -/
def State.setCpos (s : State) (j : Nat) (p : CPos) : State :=
  { s with cle := { s.cle with pos := Tab.set (fun _ => CPos.reset) s.cle.pos j p } }

/-- Fabric link n. -/
def State.link (s : State) (n : Nat) : Link := Tab.get (fun _ => Link.reset) s.nzl.links n
/-- Write fabric link n. -/
def State.setLink (s : State) (n : Nat) (l : Link) : State :=
  { s with nzl := { s.nzl with links := Tab.set (fun _ => Link.reset) s.nzl.links n l } }
/-- Change fabric link n. -/
def State.modLink (s : State) (n : Nat) (f : Link → Link) : State := s.setLink n (f (s.link n))

/-- A PLL. -/
def State.pll (s : State) (p : Pll) : PllS :=
  match p with | .spll => s.clk.spll | .mpll => s.clk.mpll | .fpll => s.clk.fpll | .hpll => s.clk.hpll
/-- Write a PLL. -/
def State.setPll (s : State) (p : Pll) (x : PllS) : State :=
  { s with clk := match p with
      | .spll => { s.clk with spll := x } | .mpll => { s.clk with mpll := x }
      | .fpll => { s.clk with fpll := x } | .hpll => { s.clk with hpll := x } }

/-! Fabric time. -/

/-- Epoch and count of fu (R9). -/
def State.ft80 (s : State) : FT80 := (s.time.ft >>> 32).setWidth 80
/-- The count of fu alone. -/
def State.ft64 (s : State) : BitVec 64 := (s.time.ft >>> 32).setWidth 64
/-- The FT of sample `i` of the current core cycle: 16 fast samples share the increment. -/
def State.ftOfSample (s : State) (i : Nat) : FT80 :=
  ((s.time.ft + BitVec.ofNat 112 (i * s.time.inc.toNat / 16)) >>> 32).setWidth 80
/-- Fast sample number since power-up of sample `i` of the current core cycle. -/
def State.fastNow (s : State) (i : Nat) : Nat := s.time.core * 16 + i
/-- Core cycles since power-up. -/
def State.now (s : State) : Nat := s.time.core

/-! Detections, free values and the output port. -/

/-- Hand a detection to the fault engine (R365): class, unit kind, unit index, detail word. -/
def State.detect (s : State) (cls kind index : Nat) (detail : Word) (permanent : Bool := false) : State :=
  { s with flt := { s.flt with
      inbox := s.flt.inbox ++ [⟨cls, kind, index, detail, permanent, s.ft64, s.flt.clock⟩] } }

/-- Whether a unit is retired (R374). -/
def State.isRetired (s : State) (kind index : Nat) : Bool :=
  Tab.get (fun _ => false) s.flt.retired (kind * 65536 + index)

/-- Put something on the output port. -/
def State.emit (s : State) (o : Out) : State := { s with out := s.out ++ [o] }

/-- The free value that the counter names, of a width; the counter advances (log 1). -/
def State.freeVal (s : State) (w : Nat) : BitVec w × State :=
  ((Config.freeBits s.free).setWidth w, { s with free := s.free + 1 })

/-- Apply a change to the state for each element of a list, in order. -/
def State.each {α : Type} (s : State) (l : List α) (f : State → α → State) : State := l.foldl f s

end Sys2Proof.Machine
end

