-- ==== Sys2Proof/Machine/Flags.lean ====
section
/-!
DEFINITION. Status flags and counters: event bits that the part sets and a read clears (00 R14, R15), and counters that hold
at their top.
-/

namespace Sys2Proof.Machine

/-- RC bits of a register set in the current core cycle (R15). -/
def State.freshAt (s : State) (a : Nat) : Word := Tab.get (fun _ => 0) s.fresh a

/-- RC bits of a register are set in the current core cycle. -/
def State.freshen (s : State) (a : Nat) (m : Word) : State :=
  { s with fresh := Tab.set (fun _ => 0) s.fresh a (s.freshAt a ||| m) }

/-- Set event bits of a register (R14: RC bits are set by the part); a read in this core cycle leaves them set (R15). -/
def State.raise (s : State) (a : Nat) (m : Word) : State := (s.putReg a (s.reg a ||| m)).freshen a m

/-- Set event bit `i` where a condition holds. -/
def State.raiseIf (s : State) (b : Bool) (a i : Nat) : State := if b then s.raise a (bit1 i) else s

/-- Count in a 32-bit counter register that holds at its top. A read returns and clears the whole count as it stands, so no
count is lost between a read and its clear (R15; log 31). -/
def State.bump (s : State) (a : Nat) : State :=
  s.putReg a (if s.reg a = 0xFFFFFFFF then 0xFFFFFFFF else s.reg a + 1)

/-- Count where a condition holds. -/
def State.bumpIf (s : State) (b : Bool) (a : Nat) : State := if b then s.bump a else s

/-- Count `n` in a 32-bit counter register that holds at its top. -/
def State.bumpBy (s : State) (a n : Nat) : State :=
  s.putReg a (BitVec.ofNat 32 (min 0xFFFFFFFF ((s.reg a).toNat + n)))

/-- Count in a word that holds at its top. -/
def satInc (v : Word) : Word := if v = 0xFFFFFFFF then v else v + 1

end Sys2Proof.Machine
end

