-- ==== Sys2Proof/Machine/Rings.lean ====
section
/-!
DEFINITION. Posting to the part-produced rings: completion entries, event records, mail entries and the MSI-X messages
they signal (05 R119, R126 to R132, R143, R146).
-/

namespace Sys2Proof.Machine

/-- HIF_RING_CFG of ring n. -/
def aRingCfg (n : Nat) : Nat := wHif + 0x0408 + 16 * n
/-- HIF_RING_BASE_LO of ring n; _HI is 4 above. -/
def aRingBase (n : Nat) : Nat := wHif + 0x0400 + 16 * n
/-- HIF_RING_IRQ of ring n. -/
def aRingIrq (n : Nat) : Nat := wHif + 0x1400 + 4 * n
/-- HIF_RING_STAT of ring n. -/
def aRingStat (n : Nat) : Nat := wHif + 0x3840 + 4 * n
/-- HIF_LOST. -/
def aHifLost : Nat := wHif + 0x0078
/-- HIF_MISC_STAT. -/
def aMiscStat : Nat := wHif + 0x0044
/-- FLT_TOMB_HITS. -/
def aTombHits : Nat := wFlt + 0x000C

/-- Unit kinds of R372. -/
def uFast : Nat := 1
/-- Precision channel. -/
def uPrec : Nat := 2
/-- Precision link. -/
def uPlink : Nat := 3
/-- Feedback link. -/
def uQlink : Nat := 4
/-- Line. -/
def uLine : Nat := 5
/-- DRAM channel. -/
def uDram : Nat := 6
/-- Firn region. -/
def uRegion : Nat := 7
/-- Firn bank. -/
def uBank : Nat := 8
/-- Fabric link. -/
def uLink : Nat := 9
/-- Ring. -/
def uRing : Nat := 10
/-- TLA. -/
def uTla : Nat := 11
/-- PLL. -/
def uPll : Nat := 12
/-- Loop slot. -/
def uSlot : Nat := 13

/-- Ring classes (R117). -/
def cIngest : Nat := 0
/-- CMD. -/
def cCmd : Nat := 1
/-- CPL. -/
def cCpl : Nat := 2
/-- EVT. -/
def cEvt : Nat := 3
/-- MAIL_TX. -/
def cMailTx : Nat := 4
/-- MAIL_RX. -/
def cMailRx : Nat := 5

/-- Class of ring n. -/
def State.ringClass (s : State) (n : Nat) : Nat := s.fld (aRingCfg n) 1 3
/-- Whether ring n is enabled. -/
def State.ringOn (s : State) (n : Nat) : Bool := s.flag (aRingCfg n) 0
/-- Entries of ring n (R118). -/
def State.ringSize (s : State) (n : Nat) : Nat := 2 ^ s.fld (aRingCfg n) 4 4
/-- Whether ring n is host-produced (R117). -/
def State.ringHost (s : State) (n : Nat) : Bool :=
  s.ringClass n = cIngest || s.ringClass n = cCmd || s.ringClass n = cMailTx

/-- Whether ring n takes entries of a part-produced class: enabled, of the class, not retired (R119, R130). -/
def State.ringTakes (s : State) (n cls : Nat) : Bool :=
  s.ringOn n && s.ringClass n == cls && !s.isRetired uRing n

/-- Entries from position `a` forward to position `b`, modulo 2 S. -/
def ringDist (size a b : Nat) : Nat := (b + 2 * size - a) % (2 * size)

/-- Free slots of a part-produced ring. -/
def State.ringFree (s : State) (n : Nat) : Nat :=
  s.ringSize n - ringDist (s.ringSize n) (s.ring n).cons (s.ring n).prod

/-- The PHASE bit of a position (05 Positions). -/
def phaseAt (size pos : Nat) : Bool := pos % (2 * size) < size

/-- The bytes of a word, little-endian. -/
def leBytes {n : Nat} (v : BitVec n) (k : Nat) : List Byte :=
  (List.range k).map (fun i => BitVec.ofNat 8 (v.toNat / 256 ^ i))

/-- The number that bytes spell, little-endian. -/
def leNat : List Byte → Nat
  | [] => 0
  | b :: l => b.toNat + 256 * leNat l

/-- Send an MSI-X message, or set the pending bit of a masked vector (R143). -/
def State.msix (s : State) (v : Nat) : State :=
  let a := wHif + 0x1800 + 16 * v
  if s.flag (a + 12) 0 then { s with hif := { s.hif with pba := Tab.set (fun _ => false) s.hif.pba v true } }
  else s.emit (.msix v (s.reg (a + 4) ++ s.reg a) (s.reg (a + 8)))

/-- Signal the misc vector where HIF_MISC_IRQ enables it (R144). -/
def State.miscIrq (s : State) : State :=
  if s.flag (wHif + 0x40) 31 then s.msix (s.fld (wHif + 0x40) 0 9) else s

/-- Signal ring n's vector: the count of entries restarts (R143). -/
def State.signalRing (s : State) (n : Nat) : State :=
  (s.modRing n (fun r => { r with sinceSig := 0, oldest := none, intr := false })).msix (s.fld (aRingIrq n) 16 9)

/-- Signal ring n where it is enabled and the count, or an entry of an INTR descriptor, since its last signal asks for it
(R143). -/
def State.signalIf (s : State) (n : Nat) : State :=
  if s.flag (aRingIrq n) 31 && ((s.ring n).intr || decide (s.fld (aRingIrq n) 8 8 ≤ (s.ring n).sinceSig)) then s.signalRing n
  else s

/-- The host address of a slot of ring n. -/
def State.slotAddr (s : State) (n slot bytes : Nat) : BitVec 64 :=
  (s.reg (aRingBase n + 4) ++ (s.reg (aRingBase n) &&& 0xFFFFF000)) + BitVec.ofNat 64 (slot * bytes)

/-- Write an entry of `k` bytes to ring n's producer slot, its PHASE bit (the top bit) set to the slot's phase, in one
write or (two-step, R127) with the last four bytes apart. -/
def State.writeSlot (s : State) (n k : Nat) (word : Nat) (twoStep : Bool) : State :=
  let pos := (s.ring n).prod
  let size := s.ringSize n
  let w := BitVec.ofNat 512 (word + (if phaseAt size pos then 2 ^ (8 * k - 1) else 0))
  let bytes := leBytes w k
  let a := s.slotAddr n (pos % size) k
  let t :=
    if twoStep then (s.emit (.entry n (pos % size) a (bytes.take (k - 4)))).emit
      (.entry n (pos % size) (a + BitVec.ofNat 64 (k - 4)) (bytes.drop (k - 4)))
    else s.emit (.entry n (pos % size) a bytes)
  t.modRing n (fun r => { r with
    prod := (pos + 1) % (2 * size), sinceSig := r.sinceSig + 1, oldest := some (r.oldest.getD s.ft64) })

/-- Count a dropped entry in DROPS, holding at 0xFFFF (R130). -/
def State.dropEntry (s : State) (n : Nat) : State :=
  let v := s.reg (aRingStat n)
  s.putReg (aRingStat n) (putBits v 16 16 (min 0xFFFF (bits v 16 16 + 1)))

/-- The 32 bytes of a completion entry, its PHASE bit 0 (R126). -/
def Cpl.word (c : Cpl) : Nat :=
  c.tag.toNat + 2 ^ 32 * c.aux.toNat +
  2 ^ 64 * (c.winSrc.toNat * 2 ^ 29 + c.winNode.toNat * 2 ^ 17 + c.tgtSeq.toNat * 2 ^ 12 + c.tgtLane.toNat * 2 ^ 9 +
    b01 c.tgtValid * 2 ^ 8 + b01 c.split * 2 ^ 7 + c.ticks.toNat) +
  2 ^ 128 * c.delay.toNat + 2 ^ 192 * c.ft.toNat +
  2 ^ 224 * (c.status.toNat * 2 ^ 23 + c.srcRing % 256 * 2 ^ 15 + c.slot % 2 ^ 15)

/-- Post a completion to CPL ring n, giving back its reserved slot. A QUIET DONE posts nothing (R129); while the link is
down it is lost (R146); a retired CPL ring is a tombstone (R376); a ring that takes none drops it (R119). -/
def State.postCpl (s : State) (n : Nat) (c : Cpl) : State :=
  let s := s.modRing n (fun r => { r with reserved := r.reserved - 1 })
  if c.quiet && c.status == 0 then s
  else if !s.hif.up then s.bump aHifLost
  else if s.isRetired uRing n then s.bump aTombHits
  else if !s.ringTakes n cCpl || s.ringFree n == 0 then s.dropEntry n
  else
    let t := s.writeSlot n 32 c.word (s.flag wHif 0)
    let k := c.status.toNat
    let t := { t with hif := { t.hif with
      statusCounts := Tab.set (fun _ => 0) t.hif.statusCounts k (Tab.get (fun _ => 0) t.hif.statusCounts k + 1) } }
    (t.modRing n (fun r => { r with intr := r.intr || c.intr })).signalIf n

/-- Write ring n's OVERFLOW record: it carries the ring's next SEQ and takes none (R130; log 12). -/
def State.writeOverflow (s : State) (n : Nat) : State :=
  let r := s.ring n
  let w := r.dropped.toNat + 2 ^ 160 * s.ft64.toNat + 2 ^ 224 * (0x09 * 2 ^ 24 + r.seq.toNat)
  ((s.modRing n (fun r => { r with dropped := 0 })).writeSlot n 32 w false).signalIf n

/-- A dropped record: counted in DROPS and for the next OVERFLOW. -/
def State.dropRecord (s : State) (n : Nat) : State :=
  (s.dropEntry n).modRing n (fun r => { r with dropped := satInc r.dropped })

/-- Post an EVT record of a kind with body DW0 to DW4 and the FT count in DW5 to DW6 (R130). -/
def State.postEvtAt (s : State) (kind : Nat) (dw : List Word) (ft : BitVec 64) : State :=
  if !s.flag (wHif + 0x60) kind then s
  else
    let n := s.fld (wHif + 0x50 + 4 * (kind / 4)) (8 * (kind % 4)) 8
    let q := (s.ring n).seq
    let s := s.modRing n (fun r => { r with seq := r.seq + 1 })
    let body := leNat ((dw.take 5).flatMap (fun d => leBytes d 4))
    let w := body + 2 ^ 160 * ft.toNat + 2 ^ 224 * (kind * 2 ^ 24 + q.toNat)
    if !s.hif.up then s.bump aHifLost
    else if !s.ringTakes n cEvt || s.ringFree n == 0 then s.dropRecord n
    else if (s.ring n).dropped == 0 then (s.writeSlot n 32 w false).signalIf n
    else if s.ringFree n < 2 then s.dropRecord n
    else ((s.writeOverflow n).writeSlot n 32 w false).signalIf n

/-- Post an EVT record that forms now. -/
def State.postEvt (s : State) (kind : Nat) (dw : List Word) : State := s.postEvtAt kind dw s.ft64

/-- Set a cause bit of HIF_RING_STAT and post the RING record on its first occurrence since the bit was last cleared
(R131). -/
def State.ringCause (s : State) (n statBit cause : Nat) : State :=
  if s.flag (aRingStat n) statBit then s
  else (s.raise (aRingStat n) (bit1 statBit)).postEvt 0x08 [BitVec.ofNat 32 (cause * 256 + n)]

/-- MAIL_RX entries of a message: up to 60 payload bytes each, MORE on all but the last (R132). -/
def State.postMail (s : State) (n : Nat) (src : BitVec 12) : Nat → List Byte → State
  | 0, _ => s
  | k + 1, p =>
    let part := p.take 60
    let rest := p.drop 60
    let w := leNat part + 2 ^ 480 * (b01 (!rest.isEmpty) * 2 ^ 30 + src.toNat * 2 ^ 12 + part.length)
    let t := (s.writeSlot n 64 w false).signalIf n
    if rest.isEmpty then t else State.postMail t n src k rest

end Sys2Proof.Machine
end

