-- ==== Sys2Proof/Machine/Orders.lean ====
section
/-!
DEFINITION. Descriptors' outcomes, and the completions of orders and sets; which of two contending orders wins (03 R70, R71,
R73, R81; 05 R126 to R129).
-/

namespace Sys2Proof.Machine

/-! Status codes (R141). -/
/-- DONE. -/
def sDone : Nat := 0x00
/-- DONE_LATE. -/
def sDoneLate : Nat := 0x01
/-- REFUSED_LATE. -/
def sLate : Nat := 0x02
/-- REFUSED_BUSY. -/
def sBusy : Nat := 0x03
/-- REFUSED_RETIRED. -/
def sRetired : Nat := 0x04
/-- SUPERSEDED. -/
def sSuperseded : Nat := 0x05
/-- ABORTED_RETIRE. -/
def sAborted : Nat := 0x06
/-- EMPTY_BURST. -/
def sEmpty : Nat := 0x07
/-- STOP_NO_BURST. -/
def sNoBurst : Nat := 0x08
/-- REJECTED_CONFIG. -/
def sConfig : Nat := 0x09
/-- REJECTED_BUDGET. -/
def sBudget : Nat := 0x0A
/-- REFUSED_UNLOCKED. -/
def sUnlocked : Nat := 0x0B
/-- HOST_FAULT. -/
def sHostFault : Nat := 0x0C
/-- DATA_ERROR. -/
def sDataError : Nat := 0x0D
/-- NO_ROUTE. -/
def sNoRoute : Nat := 0x0E

/-- Lanes (R65). -/
def lStart : Nat := 0
/-- STOP. -/
def lStop : Nat := 1
/-- JUMP. -/
def lJump : Nat := 2
/-- NCO. -/
def lNco : Nat := 3
/-- FORCE. -/
def lForce : Nat := 4

/-- The unit kind and index of sequencer n (R372). -/
def seqUnit (n : Nat) : Nat × Nat := if n < 8 then (uFast, n) else (uPrec, n - 8)
/-- Whether sequencer n is retired. -/
def State.seqRetired (s : State) (n : Nat) : Bool := s.isRetired (seqUnit n).1 (seqUnit n).2

/-! Descriptors. -/

/-- DW i of a descriptor. -/
def Desc.dw (d : Desc) (i : Nat) : Word := (d.word >>> (32 * i)).setWidth 32
/-- A field of a descriptor, by its lowest bit and width. -/
def Desc.fld (d : Desc) (lo w : Nat) : Nat := bits d.word lo w
/-- KIND of a descriptor (R123). -/
def Desc.kind (d : Desc) : Nat := d.fld 56 4
/-- DEADLINE. -/
def Desc.deadline (d : Desc) : Nat := d.fld 64 64
/-- INTR. -/
def Desc.intr (d : Desc) : Bool := bitOf d.word 51
/-- FABRIC. -/
def Desc.fabric (d : Desc) : Bool := bitOf d.word 50
/-- ASAP. -/
def Desc.asap (d : Desc) : Bool := bitOf d.word 49
/-- QUIET. -/
def Desc.quiet (d : Desc) : Bool := bitOf d.word 48

/-- The descriptor of a ring that holds a slot, the oldest first. -/
def State.desc? (s : State) (ring slot : Nat) : Option Desc := (s.ring ring).descs.find? (fun d => d.slot == slot)

/-- Change the first element that a test names. -/
def modFirst {α : Type} (p : α → Bool) (f : α → α) : List α → List α
  | [] => []
  | x :: l => if p x then f x :: l else x :: modFirst p f l

/-- Change a descriptor. -/
def State.modDesc (s : State) (ring slot : Nat) (f : Desc → Desc) : State :=
  s.modRing ring (fun r => { r with descs := modFirst (fun d => d.slot == slot) f r.descs })

/-- The completion of a descriptor with a status, DELAY and AUX, formed now (R126). -/
def State.cplOf (s : State) (ring : Nat) (d : Desc) (status delay aux : Nat) : Cpl :=
  { tag := d.dw 0, aux := BitVec.ofNat 32 aux, winSrc := 0, winNode := 0, tgtSeq := 0, tgtLane := 0,
    tgtValid := false, split := false, ticks := 0, delay := BitVec.ofNat 64 delay, ft := s.ft64.setWidth 32,
    status := BitVec.ofNat 8 status, srcRing := ring, slot := d.slot, intr := d.intr, quiet := d.quiet }

/-- A descriptor leaves its ring: what it still reserves in its CPL ring is returned, and the ring's wide values count
it (R129, HIF wide values). -/
def State.dropDesc (s : State) (ring slot : Nat) : State :=
  match s.desc? ring slot with
  | none => s
  | some d =>
    let t := s.modRing d.cpl (fun r => { r with reserved := r.reserved - d.reserved })
    t.modRing ring (fun r => { r with
      descs := r.descs.eraseP (fun e => e.slot == slot), completed := r.completed + 1,
      bytes := r.bytes + BitVec.ofNat 64 d.moved })

/-- Post the outcomes that ring order allows: those at the front of an ordered ring (R128). -/
def State.flushRing (s : State) (ring : Nat) : Nat → State
  | 0 => s
  | k + 1 =>
    match (s.ring ring).descs with
    | d :: _ =>
      match d.outcome with
      | some c =>
        let t := (s.modDesc ring d.slot (fun d => { d with reserved := d.reserved - 1 })).postCpl d.cpl c
        State.flushRing (t.dropDesc ring d.slot) ring k
      | none => s
    | [] => s

/-- One completion of a descriptor: posted at once, or held for ring order; the last one owed ends it (R128). -/
def State.complete (s : State) (ring : Nat) (d : Desc) (c : Cpl) : State :=
  if d.ordered then
    let t := s.modDesc ring d.slot (fun d => { d with st := .done, owed := 0, left := 0, outcome := some c })
    t.flushRing ring (s.ring ring).descs.length
  else
    let t := s.modDesc ring d.slot (fun d => { d with reserved := d.reserved - 1, owed := d.owed - 1 })
    let t := t.postCpl d.cpl c
    if d.owed ≤ 1 then t.dropDesc ring d.slot else t

/-- End a descriptor with one completion. -/
def State.endDesc (s : State) (ring : Nat) (d : Desc) (status delay aux : Nat) : State :=
  s.complete ring { d with owed := 1 } (s.cplOf ring d status delay aux)

/-! Orders. -/

/-- This node's address (R73: 0 on a part outside any fabric). -/
def State.node (s : State) : BitVec 12 := s.nzl.cfg.addr

/-- SRC code of a committed source (R70). -/
def OrdSrc.code : OrdSrc → Nat
  | .fabric => 3
  | .host => 4
  | .housekeeping => 5
/-- SRC code of an immediate source (R70). -/
def ImmSrc.code : ImmSrc → Nat
  | .fault => 1
  | .event => 2

/-- AUX of a target's status (R141). -/
def State.ordAux (s : State) (status aux : Nat) : Nat :=
  if status = sDone ∨ status = sDoneLate ∨ status = sSuperseded ∨ status = sEmpty ∨ status = sNoBurst ∨
    status = sUnlocked then s.node.toNat
  else if status = sBusy then 3
  else aux

/-- A completion whose descriptor the loss of the link has abandoned is discarded and counted while the link is down
(R146). -/
def State.lostCpl (s : State) (quiet : Bool) (status : Nat) : State :=
  if s.hif.up || (quiet && status == sDone) then s else s.bump aHifLost

/-- Complete one target of an order (R126, R128, R358): late and busy targets are counted. -/
def State.finishOrd (s : State) (o : Ord) (status delay aux : Nat) (winSrc : Nat := 0) (winNode : BitVec 12 := 0) :
    State :=
  let s := if status = sLate then s.bump (wTime + 0x54) else if status = sBusy then s.bump (wTime + 0x58) else s
  let c : Cpl :=
    { tag := o.tag, aux := BitVec.ofNat 32 (s.ordAux status aux), winSrc := BitVec.ofNat 3 winSrc, winNode := winNode,
      tgtSeq := BitVec.ofNat 5 o.chan, tgtLane := BitVec.ofNat 3 o.lane, tgtValid := true, split := false, ticks := 0,
      delay := BitVec.ofNat 64 delay, ft := s.ft64.setWidth 32, status := BitVec.ofNat 8 status, srcRing := o.ring,
      slot := o.slot, intr := o.intr, quiet := o.quiet }
  if o.src = .housekeeping then s
  else if o.remote then s.postCpl o.ring c
  else match s.desc? o.ring o.slot with
    | some d => s.complete o.ring d c
    | none => s.lostCpl o.quiet status

/-- The sequencers that SEQ_MASK of an ORDER descriptor names. -/
def Desc.chans (d : Desc) : List Nat := (List.range 24).filter (fun n => bitOf d.word (224 + n))

/-- One target of an ORDER descriptor of a ring (R124). -/
def State.descOrd (s : State) (ring : Nat) (d : Desc) (chan : Nat) : Ord :=
  { src := .host, ring := ring, slot := d.slot, tag := d.dw 0, intr := d.intr, quiet := d.quiet, node := s.node,
    oseq := 0, prio := d.fld 220 4, chan := chan, lane := d.fld 217 3, action := (d.word >>> 288).setWidth 128,
    t := if d.asap then none else some ((d.word >>> 128).setWidth 80), arrival := s.now, remote := false, tick := none }

/-- A descriptor of a retired ring ends unadmitted: an ORDER once per target and once for its send (R128, R145). -/
def State.refuseRetired (s : State) (ring : Nat) (d : Desc) : State :=
  if d.kind = 3 then
    let s := if d.fabric then s.complete ring d (s.cplOf ring d sRetired 0 0) else s
    s.each d.chans (fun s n => s.finishOrd (s.descOrd ring d n) sRetired 0 0)
  else s.endDesc ring d sRetired 0 0

/-- An order or a set whose descriptor is abandoned keeps a name that no later descriptor takes. -/
def orphanSlot (slot : Nat) : Nat := 2 ^ 40 + slot

/-- A local order without its descriptor. -/
def Ord.orphan (o : Ord) : Ord := if o.remote then o else { o with slot := orphanSlot o.slot }
/-- A set without its descriptor. -/
def SSet.orphan (x : SSet) : SSet := { x with slot := orphanSlot x.slot }

/-- What host descriptors have handed to the time block goes on without them (R146, 15 R384). -/
def Time.orphan (t : Time) : Time :=
  { t with
    inbound := t.inbound.map (fun i => { i with ord := i.ord.orphan })
    queue := t.queue.map Ord.orphan
    resolved := t.resolved.map (fun a => { a with ord := a.ord.orphan })
    acting := t.acting.map (fun a => { a with ord := a.ord.orphan })
    closing := t.closing.map (fun a => { a with ord := a.ord.orphan })
    inSets := t.inSets.map (fun i => { i with set := i.set.orphan })
    sets := t.sets.map SSet.orphan
    commits := t.commits.map (fun c => { c with set := c.set.orphan }) }

/-- Live TICK_PERIOD. -/
def State.tickPeriod (s : State) : Nat := s.fld (wTime + 0x04) 0 19
/-- Live COMMIT_CYCLES. -/
def State.commitCycles (s : State) : Nat := s.fld (wTime + 0x08) 0 13
/-- Live ORDER_CYCLES. -/
def State.orderCycles (s : State) : Nat := s.fld (wTime + 0x0C) 0 11
/-- Index of the current tick. -/
def State.tickIdx (s : State) : Nat := s.time.ticks.toNat - 1

/-- Which of two orders wins a target (R70, R71): whether `a` beats `b`, where `a` was admitted later. R71 ranks arrivals of one
core cycle by ring number alone; of two orders of the same ring, or of housekeeping, that arrive in the same core cycle the
one admitted later wins (DESIGN CHOICE, log 38). -/
def ordBeats (a b : Ord) : Bool :=
  if a.src ≠ b.src then decide (OrdSrc.code a.src < OrdSrc.code b.src)
  else if a.src = .fabric then
    if a.prio ≠ b.prio then decide (b.prio < a.prio)
    else if a.node ≠ b.node then decide (a.node.toNat < b.node.toNat)
    else
      let d := (a.oseq - b.oseq).toNat
      decide (1 ≤ d ∧ d < 2 ^ 31)
  else if a.arrival ≠ b.arrival then decide (b.arrival < a.arrival)
  else decide (b.ring ≤ a.ring)

/-- The winner among contenders in order of admission. -/
def ordWinner : Ord → List Ord → Ord
  | w, [] => w
  | w, o :: l => ordWinner (if ordBeats o w then o else w) l

/-- A winner before its effect sample. -/
def Acting.ofOrd (o : Ord) : Acting := ⟨o, none, 0, BitVec.ofNat 8 sDone, 0, 0, 0⟩

/-- Whether two orders name the same target. -/
def Ord.sameTarget (a b : Ord) : Bool := a.chan == b.chan && a.lane == b.lane

/-- The one completion of a staged set (R81, R126); a set of housekeeping has none. -/
def State.setCpl (s : State) (x : SSet) (status delay aux : Nat) (split : Bool) (ticks : Nat) : State :=
  if x.rq = .housekeeping then s
  else match s.desc? x.ring x.slot with
    | some d => s.complete x.ring { d with owed := 1 } { s.cplOf x.ring d status delay aux with
        split := split, ticks := BitVec.ofNat 7 (min ticks 127) }
    | none => s.lostCpl x.quiet status

/-! Host reads (R114, R133). -/

/-- Admitted descriptors that a test names, over all rings. -/
def State.admitted (s : State) (p : Desc → Bool) : List (Nat × Desc) :=
  (List.range 256).flatMap (fun r => ((s.ring r).descs.filter p).map (fun d => (r, d)))

/-- Whether one of two descriptors takes precedence over the other: by PRIO, then in the order in which the rounds of R133
fetched them. -/
def Desc.before (a b : Desc) : Bool := if a.prio = b.prio then decide (a.num < b.num) else decide (a.prio < b.prio)

/-- The descriptor of a list that takes precedence. -/
def firstDesc : List (Nat × Desc) → Option (Nat × Desc)
  | [] => none
  | x :: l => match firstDesc l with
    | some y => if y.2.before x.2 then some y else some x
    | none => some x

/-- Max Read Request Size in bytes (R112, R114). -/
def State.mrrs (s : State) : Nat := 128 * 2 ^ min 5 (bits s.hif.devCtl 12 3)

/-- Read requests for the first `x` bytes of a buffer at address `a`, of at most `m` bytes each and none across a 4 KiB
boundary (R114). -/
def readCount (m a x : Nat) : Nat :=
  let first := 4096 - a % 4096
  if x ≤ first then cdiv x m else cdiv first m + (x - first) / 4096 * (4096 / m) + cdiv ((x - first) % 4096) m

/-- Length of the read request that begins at byte `x` of a buffer of `n` bytes at address `a` (R114). -/
def readLen (m a n x : Nat) : Nat := min (min m (4096 - (a + x) % 4096)) (n - x)

/-- Read tags that an admitted WRITE holds: requests issued and not yet answered whole. -/
def Desc.tags (d : Desc) (m : Nat) : Nat :=
  if d.asked ≤ d.moved then 0
  else readCount m (d.fld 128 64) d.asked - (readCount m (d.fld 128 64) (d.moved + 1) - 1)

/-- Read tags in use for payloads. -/
def State.readTags (s : State) : Nat :=
  (s.admitted (fun d => d.st == .admitted && d.kind == 1)).foldl (fun n x => n + x.2.tags s.mrrs) 0

/-- HIF_TAGS.PEAK holds the most tags in use at once. -/
def State.tagPeak (s : State) (n : Nat) : State :=
  if s.fld (wHif + 0x74) 16 9 < n then s.setFld (wHif + 0x74) 16 9 n else s

/-- Payload reads are issued, in the precedence of R133, while one of their 240 tags is free (R114). -/
def State.issueReads (s : State) : Nat → State
  | 0 => s
  | k + 1 =>
    if 240 ≤ s.readTags then s
    else match firstDesc (s.admitted (fun d => d.st == .admitted && d.kind == 1 && decide (d.asked < d.fld 256 32))) with
      | none => s
      | some (n, d) =>
        let a := d.fld 128 64
        let z := readLen s.mrrs a (d.fld 256 32) d.asked
        let s := (s.emit (.hostRead (BitVec.ofNat 64 (a + d.asked)) z)).modDesc n d.slot (fun d => { d with asked := d.asked + z })
        State.issueReads (s.tagPeak s.readTags) k

/-- The read requests for `n` bytes at a host address that are answered within the same command: descriptors, set images and
messages (R114). `bound` is what the tags of their kind allow at once. -/
def State.readNow (s : State) (a n bound : Nat) : Nat → Nat → State
  | 0, _ => s.tagPeak (min (s.readTags + readCount s.mrrs a n) (s.readTags + bound))
  | k + 1, x =>
    if n ≤ x then State.readNow s a n bound 0 x
    else
      let z := readLen s.mrrs a n x
      State.readNow (s.emit (.hostRead (BitVec.ofNat 64 (a + x)) z)) a n bound k (x + z)

end Sys2Proof.Machine
end

