-- ==== Sys2Proof/Machine/Faults.lean ====
section
/-!
DEFINITION. The fault engine's records: fault log, FAULT and SKIP records, budget windows, outcomes (14 R365 to R370,
R379 to R382).
-/

namespace Sys2Proof.Machine

/-- FLT_EVENTS. -/
def aFltEvents : Nat := wFlt + 0x0008

/-- The unit and class of a budget window or a record limit, as one key (R368, R380). -/
def unitKey (cls kind index : Nat) : Nat := (cls * 16 + kind) * 65536 + index % 65536

/-- Count one occurrence of a class since reset. -/
def State.countOcc (s : State) (cls : Nat) : State :=
  { s with flt := { s.flt with occ := Tab.set (fun _ => 0) s.flt.occ cls (Tab.get (fun _ => 0) s.flt.occ cls + 1) } }

/-- Form a FAULT record (R379): post it to the EVT ring, enter it in the log of the 64 newest, count it (R381). -/
def State.faultRecord (s : State) (cls kind outcome index : Nat) (detail : Word) (count limit : Nat) (ft : BitVec 64) :
    State :=
  let n := satInc s.flt.logCount
  let dw0 := BitVec.ofNat 32 (cls * 2 ^ 24 + kind % 16 * 2 ^ 20 + outcome % 16 * 2 ^ 16 + index % 65536)
  let dw2 := BitVec.ofNat 32 (min 0xFFFF count * 65536 + limit % 65536)
  let dw3 := BitVec.ofNat 32 (min 0xFFFFFFFF (Tab.get (fun _ => (0 : BitVec 64)) s.flt.occ cls).toNat)
  let e : BitVec 128 := (ft.setWidth 32) ++ (dw2 ++ (detail ++ dw0))
  let s := { s with flt := { s.flt with log := (e :: s.flt.log).take 64, logCount := n } }
  s.postEvtAt 0x01 [dw0, detail, dw2, dw3, n] ft

/-- Form a SKIP record (R382): the agent's count advances, the record is posted and not logged. -/
def State.skipRecord (s : State) (agent kind unit : Nat) (dw1 : Word) : State :=
  let c := satInc (Tab.get (fun _ => 0) s.flt.skips agent)
  let s := { s with flt := { s.flt with skips := Tab.set (fun _ => 0) s.flt.skips agent c } }
  s.postEvt 0x07 [BitVec.ofNat 32 (agent * 2 ^ 24 + kind * 2 ^ 16 + unit), dw1, c, 0, 0]

/-- Mark a unit retired, set the event bit, open the drain window that runs from D, at an FT and a clock of the fault engine
(R371). -/
def State.markRetired (s : State) (kind index : Nat) (ft : BitVec 64) (clock : Nat) : State :=
  let s := s.raise aFltEvents (bit1 0)
  { s with flt := { s.flt with
      retired := Tab.set (fun _ => false) s.flt.retired (kind * 65536 + index) true,
      draining := s.flt.draining ++ [⟨kind, index, ft, clock⟩] } }

/-- The LIMIT and WINDOW of a class, from its FLT_BUDGET register; `none` for a class without a budget (R366). -/
def State.budget (s : State) (cls : Nat) : Option (Nat × Nat) :=
  (budgetOf cls).map (fun _ => (s.fld (wFlt + 0x100 + 4 * cls) 16 16, s.fld (wFlt + 0x100 + 4 * cls) 0 16))

/-- No window. -/
def BWin.none : BWin := ⟨0, 0, 0⟩

/-- Count an occurrence in a budget window (R368, R370), which opens with the register's LIMIT and WINDOW: the window
afterwards (none where exhaustion closed it), the count and LIMIT for the record, and whether the budget is exhausted. -/
def BWin.hit (w : BWin) (limit window : Nat) : BWin × Nat × Nat × Bool :=
  let w := if w.count = 0 then ⟨0, limit, window⟩ else w
  let c := w.count + 1
  if w.limit < c ∧ w.limit ≠ 0xFFFF then (BWin.none, c, w.limit, true) else ({ w with count := c }, c, w.limit, false)

/-- A tick of the millisecond timer: a window closes at the WINDOW-th one after its opening (R368). -/
def BWin.tick (w : BWin) : BWin := if w.left ≤ 1 then BWin.none else { w with left := w.left - 1 }

/-- Whether a class leaves the unit kind retirable (R366, R372). -/
def retirable (cls kind : Nat) : Bool :=
  kind != 0 && kind != uBank && kind != uPll && kind != uSlot && cls != 0x01

/-- Whether every occurrence of a class is permanent by nature (R366). -/
def permanentClass (cls : Nat) : Bool :=
  cls == 0x08 || cls == 0x10 || cls == 0x14 || cls == 0x1D

end Sys2Proof.Machine
end

