-- ==== Sys2Proof/Machine/Firn.lean ====
section
/-!
DEFINITION. Firn's store: words, poisoned words, ECC outcomes, error history, bank arbitration, Rime and the repair copy
(chapter 06). The contents are those an address names: a bank under copy and its spare hold the same words but for those that
the spare holds poisoned, so one copy of the data stands for both (log 20).
-/

namespace Sys2Proof.Machine

/-- FIRN_EVENTS. -/
def aFirnEvents : Nat := wFirn + 0x30

/-- A 64-byte word as the bits of the region hold it. -/
def State.regionWord (s : State) (w : Nat) : BitVec 512 :=
  BitVec.ofNat 512 (leNat ((List.range 64).map (fun i => Tab.get (fun _ => (0 : Byte)) s.firn.mem (64 * w + i))))

/-- Store bytes from an address on. -/
def storeBytes (m : Tab Byte) (a : Nat) : List Byte → Tab Byte
  | [] => m
  | b :: l => storeBytes (Tab.set (fun _ => (0 : Byte)) m a b) (a + 1) l

/-- Bank of a word (R147). -/
def firnBank (w : Nat) : Nat := w % 256
/-- Region of a word (R147). -/
def firnRegion (w : Nat) : Nat := w / 64 % 32768

/-- Whether a word lies in a retired region. -/
def State.firnGone (s : State) (w : Nat) : Bool := s.isRetired uRegion (firnRegion w)

/-- Whether Rime works on the region of a word (R161). -/
def State.inRime (s : State) (w : Nat) : Bool := s.firn.rime.st != .idle && firnRegion w == s.firn.rime.region

/-- Whether Rime's save buffer answers for a word (R161): in TEST and RESTORE. -/
def State.redirected (s : State) (w : Nat) : Bool := s.inRime w && s.firn.rime.st != .copy

/-- The 64-byte word that a read at word address w = A[26:6] gives: from the region, or from the save buffer (R161). -/
def State.firnWord (s : State) (w : Nat) : BitVec 512 :=
  if s.redirected w then Tab.get (fun _ => (0 : BitVec 512)) s.firn.rime.save (w % 64) else s.regionWord w

/-- Whether a word reads as poisoned (R158). -/
def State.firnPoison (s : State) (w : Nat) : Bool :=
  if s.redirected w then Tab.get (fun _ => false) s.firn.rime.savePoison (w % 64)
  else Tab.get (fun _ => false) s.firn.poison w

/-- Put a word and its poison into the region. -/
def State.regionPut (s : State) (w : Nat) (v : BitVec 512) (poison : Bool) : State :=
  { s with firn := { s.firn with
    mem := storeBytes s.firn.mem (64 * w) (leBytes v 64)
    poison := Tab.set (fun _ => false) s.firn.poison w poison } }

/-- Put a word and its poison into the save buffer. -/
def State.savePut (s : State) (i : Nat) (v : BitVec 512) (poison : Bool) : State :=
  { s with firn := { s.firn with rime := { s.firn.rime with
    save := Tab.set (fun _ => (0 : BitVec 512)) s.firn.rime.save i v
    savePoison := Tab.set (fun _ => false) s.firn.rime.savePoison i poison } } }

/-- A word that the spare of a running copy holds poisoned, or no longer (R165). -/
def Copy.mark (c : Copy) (w : Nat) (poison : Bool) : Copy :=
  if firnBank w = c.bank then
    let l := c.bad.filter (fun r => r != w / 256)
    { c with bad := if poison then l ++ [w / 256] else l }
  else c

/-- Place a written word where the phase of Rime sends it (R161): the region, the save buffer, or both. A bank under copy takes
it in its spare too (R165). -/
def State.firnPlace (s : State) (w : Nat) (v : BitVec 512) (poison : Bool) : State :=
  let i := w % 64
  let s := { s with firn := { s.firn with copy := s.firn.copy.map (fun (c : Copy) => c.mark w poison) } }
  if !s.inRime w then s.regionPut w v poison
  else match s.firn.rime.st with
    | .copy =>
      let s := s.regionPut w v poison
      if bitOf s.firn.rime.saved i then s.savePut i v poison else s
    | .restore =>
      let s := s.savePut i v poison
      if bitOf s.firn.rime.restored i then s.regionPut w v poison else s
    | _ => s.savePut i v poison

/-- Change the error history of a word that the table of R159 tracks. -/
def histMod (f : Hist → Hist) (w : Nat) (l : List Hist) : List Hist := modFirst (fun h => h.word == w) f l

/-- Write a whole word: a retired region drops it and counts (R169); a write clears the poison (R158), drops a pending
write-back (R156) and is noted in the word's history (R159). -/
def State.firnWrite (s : State) (w : Nat) (v : BitVec 512) : State :=
  if s.firnGone w then s.bump (wFirn + 0x50)
  else
    let s := s.firnPlace w v false
    { s with firn := { s.firn with
      wbQueue := s.firn.wbQueue.filter (fun x => x != w)
      flags := s.firn.flags.filter (fun x => x.2.1 != w)
      hist := histMod (fun h => { h with rewritten := h.ue }) w s.firn.hist } }

/-- Write several words from a word address on. -/
def State.firnWrites (s : State) (w : Nat) : List (BitVec 512) → State
  | [] => s
  | v :: l => State.firnWrites (s.firnWrite w v) (w + 1) l

/-- Enter an error of a word in the table of 256 histories: a new word in a full table displaces the entry whose last
error is oldest (R159). -/
def State.histNote (s : State) (w : Nat) (ue : Bool) : State :=
  let l := s.firn.hist
  let l' :=
    if l.any (fun h => h.word == w) then
      histMod (fun h => { h with last := s.ft64, ue := h.ue || ue, rewritten := h.rewritten && !ue }) w l
    else
      let l := if l.length < 256 then l else
        match l with
        | [] => []
        | h :: t =>
          let old := t.foldl (fun (o : Hist) x => if x.last.toNat < o.last.toNat then x else o) h
          l.erase old
      l ++ [⟨w, s.ft64, 0, 0, 0, ue, false⟩]
  { s with firn := { s.firn with hist := l' } }

/-- Whether an uncorrectable error on a word is one after a whole-word write (R159). -/
def State.ueAgain (s : State) (w : Nat) : Bool :=
  s.firn.hist.any (fun h => h.word == w && h.ue && h.rewritten)

/-- The physical bank that serves a word, as unit index: a main bank, or 256 + k for spare k (R159, R372). -/
def State.bankUnit (s : State) (w : Nat) : Nat :=
  let x := s.bank (firnBank w)
  if x.spare = 0 then firnBank w else 255 + x.spare

/-- An uncorrectable word was read (R157): counted, latest error, FC_FIRN_UE on its bank. -/
def State.firnUe (s : State) (w : Nat) : State :=
  let again := s.ueAgain w
  let s := (s.bump (wFirn + 0x44)).histNote w true
  let s := { s with firn := { s.firn with lastErr := BitVec.ofNat 32 (2 ^ 31 + w % 2 ^ 21) } }
  s.detect 0x07 uBank (s.bankUnit w) (BitVec.ofNat 32 w) again

/-- What a whole-word read answers (R157, R169). -/
inductive FirnData where
  | word (v : BitVec 512)
  | ue
  | retired
  deriving DecidableEq, Repr

/-- The data delivered: zero where the word is uncorrectable or retired. -/
def FirnData.value : FirnData → BitVec 512
  | .word v => v
  | _ => 0

/-- Read a whole word as a port does: tombstone, poison, or the word. -/
def State.firnRead (s : State) (w : Nat) : FirnData × State :=
  if s.firnGone w then (.retired, s.bump (wFirn + 0x50))
  else if s.firnPoison w then (.ue, s.firnUe w)
  else (.word (s.firnWord w), s)

/-- The physical store that serves a bank: `none` the main bank, `some k` spare k. -/
def State.servedBy (s : State) (b : Nat) : Option Nat :=
  let x := s.bank b
  if x.spare = 0 then none else some (x.spare - 1)

/-- Count corrected codewords against the physical bank. -/
def State.countCorrected (s : State) (b n : Nat) : State :=
  match s.servedBy b with
  | none =>
    let x := s.bank b
    s.setBank b { x with corrected := x.corrected + BitVec.ofNat 32 n }
  | some k =>
    let x := s.spare k
    s.setSpare k { x with corrected := x.corrected + BitVec.ofNat 32 n }

/-- Number of set bits. -/
def popcount {n : Nat} (v : BitVec n) : Nat := ((List.range n).filter (fun i => v.getLsbD i)).length

/-- The flips of one codeword of a word: 72 bits, 64 data then 8 check (R155). -/
def codewordFlips (flips : BitVec 576) (c : Nat) : BitVec 72 := (flips >>> (72 * c)).setWidth 72

/-- Index of the lowest set bit. -/
def lowBit {n : Nat} (v : BitVec n) : Nat := ((List.range n).find? (fun i => v.getLsbD i)).getD 0

/-- The corrected codewords of a word, with their bits; `none` where one is uncorrectable (R155). -/
def eccCheck (flips : BitVec 576) : Option (List (Nat × Nat)) :=
  let l := (List.range 8).map (fun c => (c, codewordFlips flips c))
  if l.any (fun x => decide (2 ≤ popcount x.2)) then none
  else some ((l.filter (fun x => popcount x.2 == 1)).map (fun x => (x.1, lowBit x.2)))

/-- One corrected codeword (R155, R156): counted, latest error, FC_FIRN_CE on the bank. -/
def State.firnCe (s : State) (w : Nat) (x : Nat × Nat) : State :=
  let s := ((s.bump (wFirn + 0x40)).countCorrected (firnBank w) 1).histNote w false
  let s := { s with firn := { s.firn with lastErr := BitVec.ofNat 32 (x.2 * 2 ^ 24 + x.1 * 2 ^ 21 + w % 2 ^ 21) } }
  s.detect 0x06 uBank (s.bankUnit w) (BitVec.ofNat 32 w)

/-- Queue a corrected word for write-back; a full queue drops it and counts (R156). -/
def State.queueWriteBack (s : State) (w : Nat) : State :=
  if s.firn.wbQueue.length < 16 then { s with firn := { s.firn with wbQueue := s.firn.wbQueue ++ [w] } }
  else s.bump (wFirn + 0x48)

/-- Rank of a port (R150). -/
def portRank (p : Nat) : Nat :=
  if p < 32 then 1 else if p = 32 then 2 else if p = 33 then 3 else if p < 38 then 4 else if p = 38 then 5 else 6

/-- Distance of a port after the last one served, in round-robin order. -/
def rrDist (last p n : Nat) : Nat := (p + n - last - 1) % n

/-! Rime's own accesses (R150, R156, R161, R162, R165). -/

/-- One operation of a march on a word: a read or a write of the background or its complement. -/
structure MarchOp where
  read : Bool
  one : Bool
  deriving DecidableEq, Repr

/-- An element of March C−: ascending or descending, and its operations on each word (R162). -/
def marchElement (e : Nat) : Bool × List MarchOp :=
  match e % 6 with
  | 0 => (true, [⟨false, false⟩])
  | 1 => (true, [⟨true, false⟩, ⟨false, true⟩])
  | 2 => (true, [⟨true, true⟩, ⟨false, false⟩])
  | 3 => (false, [⟨true, false⟩, ⟨false, true⟩])
  | 4 => (false, [⟨true, true⟩, ⟨false, false⟩])
  | _ => (false, [⟨true, false⟩])

/-- The operations of an element, in order, each with its word of the region. -/
def elementOps (e : Nat) : List (Nat × MarchOp) :=
  let words := if (marchElement e).1 then List.range 64 else (List.range 64).reverse
  words.flatMap (fun i => (marchElement e).2.map (fun o => (i, o)))

/-- Elements of the chosen march: six, or twelve with the checkerboard (R162). -/
def State.marchElements (s : State) : Nat := if s.fld (wFirn + 0x4) 16 2 = 1 then 12 else 6

/-- The operations of the chosen march: 640, or 1,280 with the checkerboard (R162). -/
def State.marchOps (s : State) : List (Nat × MarchOp) := (List.range s.marchElements).flatMap elementOps

/-- What Rime's port can do in a bank cycle. -/
inductive RimeWork where
  | writeBack
  | copy
  | save
  | march (op : MarchOp)
  | restore
  deriving DecidableEq, Repr

/-- What Rime's port does with a word, if it wants that word now: write-backs come first, in order, then a bank copy, then the
region work (R150, R156). A retired region is passed over (R169). -/
def State.rimeWork (s : State) (w : Nat) : Option RimeWork :=
  match s.firn.wbQueue with
  | x :: _ => if x = w then some .writeBack else none
  | [] =>
    if s.firnGone w then none
    else match s.firn.copy with
      | some c => if c.bank = firnBank w && c.todo.contains (w / 256) then some .copy else none
      | none =>
        if !s.inRime w then none
        else match s.firn.rime.st with
          | .copy => if bitOf s.firn.rime.saved (w % 64) then none else some .save
          | .test => match s.marchOps[s.firn.rime.march]? with
            | some (i, o) => if i = w % 64 then some (.march o) else none
            | none => none
          | .restore => if bitOf s.firn.rime.restored (w % 64) then none else some .restore
          | .idle => none

/-- The word that an access of a bank names. -/
def reqWord (r : FirnReq) (b : Nat) : Nat := r.row.toNat * 256 + b

/-- The bank cycle in which a bank serves its next access: the running one, or the one after the access it served last. -/
def State.bankNow (s : State) (b : Nat) : Nat := max s.firn.now (Tab.get (fun _ => 0) s.firn.cycle b)

/-- Whether a bank can serve an access: the port is out of holdoff (R152), and Rime's port wants the word now. -/
def State.firnReady (s : State) (b : Nat) (r : FirnReq) : Bool :=
  if portRank r.port.val = 5 then (s.rimeWork (reqWord r b)).isSome
  else decide (4 ≤ portRank r.port.val) || decide (Tab.get (fun _ => 0) s.firn.hold (b * 64 + r.port.val) ≤ s.bankNow b)

/-- The access a bank serves (R151, R152): the highest rank not in holdoff; round robin within ranks 1 and 4. -/
def State.firnPick (s : State) (b : Nat) (reqs : List FirnReq) : Option FirnReq :=
  let key (r : FirnReq) : Nat :=
    let p := r.port.val
    let k := portRank p
    k * 64 + (if k = 1 then rrDist (Tab.get (fun _ => 31) s.firn.last1 b) p 32
      else if k = 4 then rrDist (Tab.get (fun _ => 3) s.firn.last4 b) (p - 34) 4 else 0)
  match reqs.filter (s.firnReady b) with
  | [] => none
  | r :: l => some (l.foldl (fun m x => if key x < key m then x else m) r)

/-- Bank period in 2^-32 fu: 2,560/3 fu, or 6,553.6 fu while CD_FIRN runs from the XO (R148). -/
def State.bankPeriod (s : State) : Nat := if s.clk.hpllXo then incXo.toNat else 2560 * 2 ^ 32 / 3

/-- Whether an access that this cycle leaves waiting passes the limit of R154 in it. -/
def State.starves (s : State) (r : FirnReq) : Bool :=
  let lim := s.fld (wFirn + 0x10) 0 16 * s.incN
  decide (4 ≤ portRank r.port.val) && decide (r.waited * s.bankPeriod ≤ lim) &&
    decide (lim < (r.waited + 1) * s.bankPeriod)

/-- A whole-word read through ECC with the flips that its bits show (R155, R157); the save buffer's words show none. -/
def State.eccRead (s : State) (w : Nat) (flips : BitVec 576) : Bool × State :=
  match (if s.firnPoison w then none else if s.redirected w then some [] else eccCheck flips) with
  | none => (false, s.firnUe w)
  | some [] => (true, s)
  | some l => (true, (s.each l (fun s x => s.firnCe w x)).queueWriteBack w)

/-- A word of the region goes into the save buffer; an uncorrectable one is saved as poisoned (R157, R161). -/
def State.rimeSave (s : State) (w : Nat) (flips : BitVec 576) : State :=
  let v := s.regionWord w
  let (good, s) := s.eccRead w flips
  let s := s.savePut (w % 64) v (!good)
  { s with firn := { s.firn with rime := { s.firn.rime with
    saved := s.firn.rime.saved ||| BitVec.ofNat 64 (2 ^ (w % 64)) } } }

/-- A word of the save buffer goes back into the region, with fresh check bits (R161). -/
def State.rimeRestore (s : State) (w : Nat) : State :=
  let s := s.regionPut w (s.firnWord w) (s.firnPoison w)
  { s with firn := { s.firn with rime := { s.firn.rime with
    restored := s.firn.rime.restored ||| BitVec.ofNat 64 (2 ^ (w % 64)) } } }

/-- A word of a march mismatches (R162). -/
def State.marchMiss (s : State) (i : Nat) : State :=
  if s.firn.rime.bad.contains i then s
  else { s with firn := { s.firn with rime := { s.firn.rime with bad := s.firn.rime.bad ++ [i] } } }

/-- One operation of the march, with ECC bypassed: a read that shows a flipped bit mismatches (R162). -/
def State.marchStep (s : State) (i : Nat) (o : MarchOp) (flips : BitVec 576) : State :=
  let s := { s with firn := { s.firn with rime := { s.firn.rime with march := s.firn.rime.march + 1 } } }
  if o.read && flips != 0 then s.marchMiss i else s

/-- The copy engine copies a row to the spare; an uncorrectable word is written there as poisoned (R165). -/
def State.copyRow (s : State) (w : Nat) (flips : BitVec 576) : State :=
  let (good, s) := s.eccRead w flips
  { s with firn := { s.firn with copy := s.firn.copy.map (fun (c : Copy) =>
    { c.mark w (!good) with todo := c.todo.filter (fun r => r != w / 256) }) } }

/-- What Rime's port does in its bank cycle. -/
def State.rimeAccess (s : State) (w : Nat) (flips : BitVec 576) : State :=
  match s.rimeWork w with
  | some .writeBack => { s with firn := { s.firn with wbQueue := s.firn.wbQueue.tail } }
  | some .copy => s.copyRow w flips
  | some .save => s.rimeSave w flips
  | some (.march o) => s.marchStep (w % 64) o flips
  | some .restore => s.rimeRestore w
  | none => s

/-- What the chosen access does: a write stores its word; a read is checked (R155 to R157), and its port takes an error or the
tombstone with it. -/
def State.firnServe (s : State) (r : FirnReq) (b : Nat) (flips : BitVec 576) : State :=
  let w := reqWord r b
  let flag (s : State) (gone : Bool) : State :=
    { s with firn := { s.firn with flags := s.firn.flags ++ [(r.port.val, w, gone)] } }
  if portRank r.port.val = 5 then s.rimeAccess w flips
  else match r.write with
  | some v => s.firnWrite w v
  | none =>
    if s.firnGone w then flag (s.bump (wFirn + 0x50)) true
    else
      let (good, s) := s.eccRead w flips
      if good then s else flag s false

/-- A bank serves an access in its cycle of a number (R151, R152): its rank counts it with the bank cycles that it waited, and
a port of rank 1, 2 or 3 is then in holdoff for the next 63 cycles of the bank. -/
def State.firnGrant (s : State) (b now : Nat) (r : FirnReq) (flips : BitVec 576) : State :=
  let p := r.port.val
  let k := portRank p
  let cnt (t : Tab (BitVec 64)) (n : Nat) := Tab.set (fun _ => 0) t (k - 1) (Tab.get (fun _ => 0) t (k - 1) + BitVec.ofNat 64 n)
  let s := { s with firn := { s.firn with
    cycle := Tab.set (fun _ => 0) s.firn.cycle b (now + 1),
    served := cnt s.firn.served 1,
    waited := cnt s.firn.waited r.waited,
    last1 := if k = 1 then Tab.set (fun _ => 31) s.firn.last1 b p else s.firn.last1,
    last4 := if k = 4 then Tab.set (fun _ => 3) s.firn.last4 b (p - 34) else s.firn.last4,
    hold := if k ≤ 3 then Tab.set (fun _ => 0) s.firn.hold (b * 64 + p) (now + 64) else s.firn.hold } }
  s.firnServe r b flips

/-- One bank cycle of a bank with the accesses that want it (R151 to R157). -/
def State.firnCycle (s : State) (b : Nat) (reqs : List FirnReq) (flips : BitVec 576) : State :=
  let now := s.bankNow b
  let pick := s.firnPick b reqs
  let waiting := reqs.filter (fun r => some r != pick)
  let s := s.each (waiting.filter (fun r => s.starves r)) (fun s r => s.bump (wFirn + 0x54 + 4 * (portRank r.port.val - 4)))
  match pick with
  | none => { s with firn := { s.firn with cycle := Tab.set (fun _ => 0) s.firn.cycle b (now + 1) } }
  | some r => s.firnGrant b now r flips

/-- An access of a port that no other one contends with: it waits out its holdoff, and its bank serves it (R151, R152). -/
def State.portAccess (s : State) (port w : Nat) (write : Option (BitVec 512)) : State :=
  let b := firnBank w
  let now := s.bankNow b
  let at_ := if portRank port ≤ 3 then max now (Tab.get (fun _ => 0) s.firn.hold (b * 64 + port)) else now
  s.firnGrant b at_ ⟨Fin.ofNat 40 port, BitVec.ofNat 13 (w / 256), write, at_ - now⟩ 0

/-- A port writes a word (R149). -/
def State.portWrite (s : State) (port w : Nat) (v : BitVec 512) : State := s.portAccess port w (some v)

/-- What a served read of a port has brought beside data: an error or the tombstone, which the port takes. -/
def State.takeFlag (s : State) (port w : Nat) : Option (FirnData × State) :=
  (s.firn.flags.find? (fun x => x.1 == port && x.2.1 == w)).map (fun x =>
    (if x.2.2 then .retired else .ue, { s with firn := { s.firn with flags := s.firn.flags.erase x } }))

/-- A port reads a word (R157): what an access of the port to it has brought already, or a read now. -/
def State.portRead (s : State) (port w : Nat) : FirnData × State :=
  match s.takeFlag port w with
  | some x => x
  | none =>
    let s := s.portAccess port w none
    match s.takeFlag port w with
    | some x => x
    | none => (.word (s.firnWord w), s)

/-- A port gives up the words that it has read ahead: what their reads brought beside data is of no use to it. -/
def State.dropFlags (s : State) (port : Nat) : State :=
  { s with firn := { s.firn with flags := s.firn.flags.filter (fun x => x.1 != port) } }

/-- CD_FIRN counts its bank cycles over a time in 2^-32 fu (R148). -/
def State.bankCycles (s : State) (dt : Nat) : State :=
  let x := s.firn.part + dt
  { s with firn := { s.firn with now := s.firn.now + x / s.bankPeriod, part := x % s.bankPeriod } }

/-! Rime (R160 to R163). -/

/-- Change Rime. -/
def State.modRime (s : State) (f : Rime → Rime) : State := { s with firn := { s.firn with rime := f s.firn.rime } }

/-- The next region not retired, from `n` on, and whether the search wrapped. -/
def State.rimeNext (s : State) : Nat → Nat → Bool → Option (Nat × Bool)
  | 0, _, _ => none
  | k + 1, n, wrapped =>
    if s.isRetired uRegion n then State.rimeNext s k ((n + 1) % 32768) (wrapped || n == 32767) else some (n, wrapped)

/-- A copy wants Rime's port: it runs, or a bank in WAIT has a spare to go to (R165). -/
def State.copyWants (s : State) : Bool :=
  s.firn.copy.isSome || (!s.firn.copyWait.isEmpty && (List.range 8).any (fun k => (s.spare k).st == .free))

/-- Rime begins its next region (R160), unless a bank copy pauses it (R165). -/
def State.rimeStart (s : State) : State :=
  if !s.flag wFirn 0 || s.firn.rime.st != .idle || s.copyWants then s
  else match s.rimeNext 32768 s.firn.next false with
    | none => s
    | some (n, wrapped) =>
      let wraps := b01 wrapped + b01 (n == 32767)
      { s with firn := { s.firn with
        rime := { Rime.reset with st := .copy, region := n, regionAt := some s.now, phaseAt := s.now }
        next := (n + 1) % 32768, passes := min 0xFFFF (s.firn.passes + wraps) } }

/-- The core cycle at which Rime may begin its next region (R160). -/
def State.rimeDue (s : State) : Nat :=
  match s.firn.rime.regionAt with
  | some c => c + s.fld (wFirn + 0x8) 0 20
  | none => s.now

/-- A Rime skip or stall (R163). -/
def State.rimeSkip (s : State) (kind : Nat) : State :=
  ((s.bump (wFirn + 0x4C)).raise aFirnEvents (bit1 1)).skipRecord 0x01 kind 0 (BitVec.ofNat 32 s.firn.rime.region)

/-- Core cycles that a phase of Rime may take (R163). -/
def State.rimeLimit (s : State) : Nat := s.fld (wFirn + 0x4) 0 16

/-- Core cycles that a number of bank cycles take at least. -/
def State.coreOfBank (s : State) (n : Nat) : Nat := cdiv (n * s.bankPeriod) (max 1 s.incN)

/-- A phase of Rime begins. -/
def State.rimePhase (s : State) (st : RimeSt) : State := s.modRime (fun r => { r with st := st, phaseAt := s.now })

/-- The words that Rime has still to save or to restore are served. -/
def State.rimeRest (s : State) : State :=
  s.each (List.range 64) (fun s i =>
    let w := 64 * s.firn.rime.region + i
    match s.firn.rime.st with
    | .copy => if bitOf s.firn.rime.saved i then s else s.rimeSave w 0
    | .restore => if bitOf s.firn.rime.restored i then s else s.rimeRestore w
    | _ => s)

/-- Whether a mismatch is one of a read of the chosen march (R162). -/
def State.marchReads (s : State) (m : MarchMiss) : Bool :=
  decide (m.element.val < s.marchElements) && (marchElement m.element.val).2.any (fun o => o.read)

/-- The march ends, or is abandoned at TIMEOUT: each word that mismatched is FC_FIRN_MARCH on its bank, and RESTORE begins
(R162, R163). -/
def State.marchEnd (s : State) (l : List MarchMiss) : State :=
  let s := s.each (l.filter s.marchReads) (fun s m => s.marchMiss m.word.val)
  let r := s.firn.rime.region
  let s := s.raiseIf (!s.firn.rime.bad.isEmpty) aFirnEvents 0
  let s := s.each s.firn.rime.bad (fun s i =>
    (s.histNote (64 * r + i) false).detect 0x08 uBank (s.bankUnit (64 * r + i)) (BitVec.ofNat 32 (64 * r + i)) true)
  s.rimePhase .restore

/-- A phase of Rime reaches TIMEOUT (R163); `l` are the mismatches that an abandoned march had found. -/
def State.rimeTimeout (s : State) (l : List MarchMiss) : State :=
  match s.firn.rime.st with
  | .idle => s
  | .copy => (s.modRime (fun r => { Rime.reset with region := r.region, regionAt := r.regionAt })).rimeSkip 1
  | .test => (s.marchEnd l).rimeSkip 2
  | .restore =>
    if s.firn.rime.stalled then s
    else (s.modRime (fun r => { r with stalled := true })).rimeSkip 3

/-! Spare-bank repair (R164 to R166). -/

/-- The lowest-numbered FREE spare. -/
def State.freeSpare (s : State) : Option Nat := (List.range 8).find? (fun k => (s.spare k).st == .free)
/-- FREE spares. -/
def State.freeSpares (s : State) : Nat := ((List.range 8).filter (fun k => (s.spare k).st == .free)).length
/-- Whether a spare is FREE (R164, R171). A bank in WAIT that finds none left when the engine becomes free stays in WAIT, which
the table of R164 leaves for COPY alone (DEDUCED, log 21). -/
def State.spareFree (s : State) : Bool := s.freeSpare.isSome

/-- A bank enters WAIT for the copy engine. -/
def State.bankWait (s : State) (b : Nat) : State :=
  let s := s.setBank b { s.bank b with st := .wait }
  { s with firn := { s.firn with copyWait := s.firn.copyWait ++ [b] } }

/-- The copy engine takes the oldest bank in WAIT (R164), once Rime is between regions (R165). -/
def State.copyStart (s : State) : State :=
  if s.firn.copy.isSome || s.firn.rime.st != .idle then s
  else match s.firn.copyWait, s.freeSpare with
    | b :: l, some k =>
      let s := s.setBank b { s.bank b with st := .copy }
      let s := s.setSpare k { s.spare k with st := .copy, bank := b }
      { s with firn := { s.firn with copy := some ⟨b, k, List.range 8192, [], [], s.now⟩, copyWait := l } }
    | _, _ => s

/-- The rows that a pass has still to copy are served; those of retired regions are passed over (R165, R169). -/
def State.copyRest (s : State) : State :=
  match s.firn.copy with
  | none => s
  | some c =>
    let s := s.each (c.todo.filter (fun r => !s.firnGone (r * 256 + c.bank))) (fun s r => s.copyRow (r * 256 + c.bank) 0)
    { s with firn := { s.firn with copy := s.firn.copy.map (fun c => { c with todo := [] }) } }

/-- Words of a pass are skipped at TIMEOUT: the pass ends, a later one retries them, and a SKIP record names the bank (R165). -/
def State.copySkip (s : State) (rows : List (BitVec 13)) : State :=
  match s.firn.copy with
  | none => s
  | some c =>
    match (rows.map (fun r => r.toNat)).filter (fun r => c.todo.contains r) with
    | [] => s
    | r :: l =>
      let put (s : State) (c : Option Copy) : State := { s with firn := { s.firn with copy := c } }
      let s := (put s (some { c with todo := c.todo.filter (fun x => !(r :: l).contains x) })).copyRest
      let s := put s (s.firn.copy.map (fun (c : Copy) => { c with todo := r :: l, at_ := s.now }))
      (s.bump (wFirn + 0x4C)).skipRecord 0x02 0 c.bank (BitVec.ofNat 32 (r * 256 + c.bank))

/-- The last word is copied: the bank map sends the bank to its spare, with the words that it holds poisoned (R165). -/
def State.copySwitch (s : State) : State :=
  match s.firn.copy with
  | none => s
  | some c =>
    let s := s.setBank c.bank { s.bank c.bank with st := .remapped, spare := c.spare + 1 }
    let s := s.setSpare c.spare { s.spare c.spare with st := .active, bank := c.bank }
    let s := s.each c.bad (fun s r =>
      { s with firn := { s.firn with poison := Tab.set (fun _ => false) s.firn.poison (r * 256 + c.bank) true } })
    { s with firn := { s.firn with copy := none } }.raise aFirnEvents (bit1 2)

/-- What is left of the copy is served, and the bank is switched (R165). -/
def State.copyDone (s : State) : State := s.copyRest.copySwitch

/-- The destination of the running copy has failed (R164): the bank waits for another spare and starts over, or degrades. -/
def State.copyAbort (s : State) : State := { s with firn := { s.firn with copy := none } }

end Sys2Proof.Machine
end

