-- ==== Sys2Proof/Machine/Moraine.lean ====
section
/-!
DEFINITION. Moraine: address map, ECC, channel queues, refresh, self-refresh, replay, training helper, prefetch streams
and the map switch (chapter 07). The commands that the DRAM sees, and when, are in `Dram`.
-/

namespace Sys2Proof.Machine

/-- Register base of channel n. -/
def aCh (n : Nat) : Nat := wMor + 0x1000 + 0x400 * n
/-- Counter i of channel n (0 CE, 1 UE, 2 PAR_ALERTS, 3 SR_ENTRIES, 4 SR_ABORTS, 5 SR_COLLISIONS, 6 REF_FORCED,
7 CAL_SKIPS, 8 FORWARDS, 9 WQ_FULL, 10 AGE_OVERRIDES, 11 TOMB_DISCARDS). -/
def aChCnt (n i : Nat) : Nat := aCh n + 0x40 + 4 * i
/-- MOR_Dn_EVENTS. -/
def aChEv (n : Nat) : Nat := aCh n + 0x24

/-- The data rates of R172, in 100 MT/s. -/
def dimmRates : List Nat := [48, 56, 64]

/-- The DIMM organisations of R172: capacity in GiB; `none` for one it does not list, or a data rate that it does not list. -/
def Dimm.capGiB (d : Dimm) : Option Nat :=
  if d.unsupported || !d.fitted || !dimmRates.contains d.speed.toNat then none
  else match d.width4, d.gb32, d.ranks2 with
    | false, false, false => some 16
    | false, false, true => some 32
    | true, false, false => some 32
    | true, false, true => some 64
    | false, true, false => some 32
    | false, true, true => some 64
    | true, true, false => some 64
    | true, true, true => none

/-- Capacity of a DIMM in bytes. -/
def Dimm.cap (d : Dimm) : Nat := (d.capGiB.getD 0) * 2 ^ 30

/-- log2 of the interleave grain (R176). -/
def State.morG (s : State) : Nat := s.fld wMor 0 4 + 8
/-- Moraine's capacity W x C (R176). -/
def State.morCap (s : State) : Nat := s.mor.active.length * s.mor.capacity

/-- The address map of R176: channel and channel-local address; `none` where no channel is active. -/
def State.morMap (s : State) (ma : Nat) : Option (Nat × Nat) :=
  let g := s.morG
  let c := ma / 2 ^ g
  let w := s.mor.active.length
  if w = 0 then none
  else (s.mor.active[c % w]?).map (fun ch => (ch, (c / w) * 2 ^ g + ma % 2 ^ g))

/-- The Moraine address a channel-local address stands for under the live map. -/
def State.morUnmap (s : State) (ch ca : Nat) : Nat :=
  let g := s.morG
  let way := s.mor.active.findIdx (fun x => x == ch)
  ((ca / 2 ^ g) * s.mor.active.length + way) * 2 ^ g + ca % 2 ^ g

/-- Where a channel-local address lies in the DIMM (R177): a bank is 4 x bank group + bank, a column address has its low four
bits zero. -/
structure DAddr where
  sub : Nat
  rank : Nat
  bank : Nat
  row : Nat
  col : Nat
  deriving DecidableEq, Repr

/-- The decoding of a channel-local address (R177). -/
def Dimm.decode (d : Dimm) (ca : Nat) : DAddr :=
  let cb := if d.width4 then 7 else 6
  let rk := b01 d.ranks2
  let rw := if d.gb32 then 17 else 16
  { sub := ca / 64 % 2
    rank := if d.ranks2 then ca / 2 ^ (12 + cb) % 2 else 0
    bank := ca / 128 % 8 * 4 + ca / 2 ^ (10 + cb) % 4
    row := ca / 2 ^ (12 + cb + rk) % 2 ^ rw
    col := ca / 1024 % 2 ^ cb * 16 }

/-- Ranks of a DIMM. -/
def Dimm.ranks (d : Dimm) : List Nat := if d.ranks2 then [0, 1] else [0]

/-- The burst stored at a channel-local address; one that nothing has written since the last training is open (log 5). -/
def State.morBurst (s : State) (ch ca : Nat) : BitVec 512 :=
  (Tab.get (fun _ => none) s.mor.mem (ch * 2 ^ 32 + ca / 64)).getD (Config.morInit ch (s.chan ch).epoch (ca / 64))

/-- Store a burst. -/
def State.morStore (s : State) (ch ca : Nat) (v : BitVec 512) : State :=
  { s with mor := { s.mor with
    mem := Tab.set (fun _ => none) s.mor.mem (ch * 2 ^ 32 + ca / 64) (some v)
    cb := Tab.set (fun _ => none) s.mor.cb (ch * 2 ^ 32 + ca / 64) none } }

/-! ECC of R175: four Reed-Solomon codewords over GF(2^8), polynomial 0x11D. -/

/-- Product in GF(2^8). -/
def gfMul (a b : Nat) : Nat :=
  (List.range 8).foldl (fun acc i =>
    let acc := acc * 2
    let acc := if 256 ≤ acc then acc ^^^ 0x11D else acc
    if b / 2 ^ (7 - i) % 2 = 1 then acc ^^^ a else acc) 0

/-- Power of the generator's root. -/
def gfPow : Nat → Nat
  | 0 => 1
  | n + 1 => gfMul (gfPow n) 2

/-- Inverse in GF(2^8): the 254th power. -/
def gfInv (a : Nat) : Nat := (List.range 254).foldl (fun x _ => gfMul x a) 1

/-- Symbol j of codeword k of a burst's bits, beat b lane l at 40 b + l (R175). -/
def rsSymbol (v : BitVec 640) (k j : Nat) : Nat :=
  let b := 4 * k + 2 * (j % 2)
  let lane := 4 * (j / 2)
  bits v (40 * b + lane) 4 + 16 * bits v (40 * (b + 1) + lane) 4

/-- Syndromes S0 to S3 of codeword k. -/
def rsSyndromes (v : BitVec 640) (k : Nat) : List Nat :=
  (List.range 4).map (fun i => (List.range 20).foldl (fun a j => a ^^^ gfMul (rsSymbol v k j) (gfPow (i * (19 - j)))) 0)

/-- The error of lane group d (its two symbols) that has these syndromes, if one has. -/
def rsSolve (syn : List Nat) (d : Nat) : Option (Nat × Nat) :=
  let s0 := syn.getD 0 0
  let s1 := syn.getD 1 0
  let x1 := gfPow (19 - 2 * d)
  let x2 := gfPow (18 - 2 * d)
  let e1 := gfMul (s1 ^^^ gfMul s0 x2) (gfInv (x1 ^^^ x2))
  let e2 := s0 ^^^ e1
  let ok (i : Nat) : Bool := syn.getD i 0 == (gfMul e1 (gfPow (i * (19 - 2 * d))) ^^^ gfMul e2 (gfPow (i * (18 - 2 * d))))
  if ok 2 && ok 3 then some (e1, e2) else none

/-- A symbol's bits in a burst. -/
def rsPlace (k j e : Nat) : BitVec 640 :=
  let b := 4 * k + 2 * (j % 2)
  let lane := 4 * (j / 2)
  BitVec.ofNat 640 (e % 16 * 2 ^ (40 * b + lane) + e / 16 * 2 ^ (40 * (b + 1) + lane))

/-- The correction of codeword k for an error pattern: `none` where the decoder finds it uncorrectable (R175). -/
def rsCorrect (flips : BitVec 640) (k : Nat) : Option (BitVec 640) :=
  let syn := rsSyndromes flips k
  if syn.all (fun x => x == 0) then some 0
  else
    match (List.range 10).findSome? (fun d => (rsSolve syn d).map (fun e => (d, e))) with
    | some (d, e) => some (rsPlace k (2 * d) e.1 ||| rsPlace k (2 * d + 1) e.2)
    | none => none

/-- What the decoder does with a burst whose bits flipped: the flips left on the data lanes, and whether it corrected
any; `none` where the burst is uncorrectable (R175). -/
def rsDecode (flips : BitVec 640) : Option (BitVec 512 × Bool) :=
  match (List.range 4).mapM (fun k => rsCorrect flips k) with
  | none => none
  | some l =>
    let corr := l.foldl (fun a b => a ||| b) 0
    let left := flips ^^^ corr
    let data := (List.range 16).foldl (fun a b => a + bits left (40 * b) 32 * 2 ^ (32 * b)) 0
    some (BitVec.ofNat 512 data, corr != 0)

/-- The generator's coefficients of x^0 to x^3: the product of (x - root^i) for i from 0 to 3 (R175). -/
def rsGen : List Nat :=
  (List.range 4).foldl (fun g i =>
    ((0 :: g).zip (g.map (fun c => gfMul c (gfPow i)) ++ [0])).map (fun x => x.1 ^^^ x.2)) [1]

/-- One step of the division that gives the check symbols: the remainder, from x^0 on, and the next data symbol. -/
def rsStep (r : List Nat) (d : Nat) : List Nat :=
  let f := d ^^^ r.getD 3 0
  (List.range 4).map (fun i => (if i = 0 then 0 else r.getD (i - 1) 0) ^^^ gfMul f (rsGen.getD i 0))

/-- The data bytes of a burst on its DQ lanes, beat by beat (R175). -/
def dqBits (v : BitVec 512) : BitVec 640 :=
  BitVec.ofNat 640 ((List.range 16).foldl (fun a b => a + bits v (32 * b) 32 * 2 ^ (40 * b)) 0)

/-- The check bits of a burst on the CB lanes, CB bit c of beat b at 8 b + c. -/
def cbBits (v : BitVec 640) : BitVec 128 :=
  BitVec.ofNat 128 ((List.range 16).foldl (fun a b => a + bits v (40 * b + 32) 8 * 2 ^ (8 * b)) 0)

/-- A burst with check-lane bits of its own. -/
def withCb (v : BitVec 512) (c : BitVec 128) : BitVec 640 :=
  dqBits v ||| BitVec.ofNat 640 ((List.range 16).foldl (fun a b => a + bits c (8 * b) 8 * 2 ^ (40 * b + 32)) 0)

/-- A burst as it stands on the 40 lanes, with the check symbols of its four codewords (R175). -/
def rsEncode (v : BitVec 512) : BitVec 640 :=
  let x := dqBits v
  (List.range 4).foldl (fun a k =>
    let r := (List.range 16).foldl (fun r j => rsStep r (rsSymbol x k j)) [0, 0, 0, 0]
    (List.range 4).foldl (fun a i => a ||| rsPlace k (16 + i) (r.getD (3 - i) 0)) a) x

/-- A channel is ACTIVE: at once RETIRED where it has retired meanwhile, or in RECOVER while the MPLL is in BYPASS or where it
has still to train after one (R204). Its refreshes and its idle time count from now. -/
def State.chanActive (s : State) (ch : Nat) : State :=
  if s.isRetired uDram ch then s.modChan ch (fun x => { x with st := .retired })
  else if s.clk.mpll.st = .bypass || (s.mor.recovering && (s.chan ch).st != .train) then
    let s := s.modChan ch (fun x => { x with st := .recover })
    { s with mor := { s.mor with recovering := true } }
  else s.modChan ch (fun x => { x with
    st := .active, lastReq := s.ft64, srxAt := none
    refAt := if x.st = .srEntry ∨ x.st = .replay then x.refAt
      else (List.range 4).foldl (fun t k => Tab.set (fun _ => 0) t k x.cc) x.refAt })

/-! Queues (R179 to R183). -/

/-- Whether a channel has a bus of its own to issue on; a retired one drains behind the fence of R205. -/
def State.chanRuns (s : State) (ch : Nat) : Bool :=
  (!s.isRetired uDram ch || s.mor.fenced) &&
  match (s.chan ch).st with
  | .active | .srEntry | .selfRefresh | .replay | .retired => true
  | _ => false

/-- The youngest queued write of an address. -/
def queuedWrite (l : List MorWr) (ca : Nat) : Option (BitVec 512) :=
  (l.reverse.find? (fun e => e.ca == ca)).map (fun e => e.v)

/-- Whether a request comes from the host. -/
def MorSource.isHost : MorSource → Bool
  | .host => true
  | _ => false

/-- Deliver a burst to a stream's staging position through the prefetch port of the channel that served it: `none` writes the
word poisoned (R193, R201). -/
def State.streamPut (s : State) (n ch pos : Nat) (v : Option (BitVec 512)) : State :=
  let x := s.stream n
  let w := x.base * 64 + pos % (x.regions * 4096) / 64
  let s := s.portWrite (34 + ch) w (v.getD 0)
  let s := if v.isNone && !s.firnGone w then s.firnPlace w 0 true else s
  let ahead := pos :: x.ahead
  let fill := (List.range ahead.length).foldl (fun f _ => if ahead.contains f then f + 64 else f) x.fill
  s.setStream n { x with
    out := x.out.filter (fun p => p != pos), ahead := ahead.filter (fun p => decide (fill ≤ p)), fill := fill,
    st := if x.length ≤ fill then .done else x.st }

/-- The position of a stream's outstanding read at a channel-local address. -/
def State.streamPos (s : State) (n ch ca : Nat) : Option Nat :=
  let x := s.stream n
  x.out.find? (fun p => s.morMap (x.src + p) == some (ch, ca))

/-- A stream read's data returns (R201, R203): a stream that is not open discards it. -/
def State.streamData (s : State) (n ch ca : Nat) (v : Option (BitVec 512)) : State :=
  match s.streamPos n ch ca with
  | none => s
  | some p => if (s.stream n).st = .open then s.streamPut n ch p v
    else s.setStream n { s.stream n with out := (s.stream n).out.filter (fun q => q != p) }

/-- One word of a READ goes to host memory, in two writes where it crosses a 4 KiB boundary; with Relaxed Ordering where
Device Control enables it and RO_DATA is 1 (R114, R125). -/
def State.hostWord (s : State) (ring : Nat) (d : Desc) (v : BitVec 512) : State :=
  let a := d.fld 128 64 + d.moved
  let k := min 64 (4096 - a % 4096)
  let put (s : State) (a : Nat) (l : List Byte) : State :=
    if l.isEmpty then s else s.emit (.host (BitVec.ofNat 64 a) l (s.flag wHif 1 && bitOf s.hif.devCtl 4))
  let s := put (put s a ((leBytes v 64).take k)) (a + k) ((leBytes v 64).drop k)
  s.modDesc ring d.slot (fun d => { d with moved := d.moved + 64, left := d.left - 64 })

/-- Whether a READ waits for the word of byte position `p` from Moraine: asked for and not yet returned. -/
def Desc.awaits (d : Desc) (p : Nat) : Bool :=
  decide (d.moved ≤ p) && decide (p < d.asked) && !d.got.any (fun e => e.1 == p)

/-- The position at which an admitted READ waits for a burst of a channel. -/
def State.awaited (s : State) (d : Desc) (ch ca : Nat) : Option Nat :=
  ((List.range ((d.asked - d.moved) / 64)).map (fun i => d.moved + 64 * i)).find? (fun p =>
    d.awaits p && s.morMap (d.fld 192 38 + p) == some (ch, ca))

/-- The words of a READ that have returned in order go to host memory; at an uncorrectable one the descriptor stops with
DATA_ERROR (R193). -/
def State.hostFlush (s : State) (ring slot : Nat) : Nat → State
  | 0 => s
  | k + 1 =>
    match s.desc? ring slot with
    | none => s
    | some d =>
      match d.got.find? (fun e => e.1 == d.moved) with
      | none => s
      | some (p, v) =>
        let s := s.modDesc ring slot (fun d => { d with got := d.got.filter (fun e => e.1 != p) })
        match v with
        | some v => State.hostFlush (s.hostWord ring d v) ring slot k
        | none => s.endDesc ring d sDataError 0 ((d.fld 192 38 + p) / 64)

/-- A burst, or an uncorrectable one, comes back for a host read: to the READ first in precedence that waits for it. -/
def State.hostReadData (s : State) (ch ca : Nat) (v : Option (BitVec 512)) : State :=
  match firstDesc (s.admitted (fun d => d.st == .admitted && d.kind == 2 && bitOf d.word 255 && (s.awaited d ch ca).isSome)) with
  | none => s
  | some (r, d) =>
    match s.awaited d ch ca with
    | none => s
    | some p =>
      let s := s.modDesc r d.slot (fun d => { d with got := d.got ++ [(p, v)] })
      s.hostFlush r d.slot (d.got.length + 1)

/-- Whether an earlier request at the ingress names the same burst, so that a later one stays behind it (R183). -/
def Chan.behind (x : Chan) (ca : Nat) : Bool := x.waiting.any (fun r => r.ca.toNat / 64 * 64 == ca)

/-- A request takes a read slot or a write-queue entry, or completes from a queued write; `none` where it finds no place
(R179, R183). -/
def State.morPlace (s : State) (ch : Nat) (r : MorReq) : Option State :=
  let x := s.chan ch
  let ca := r.ca.toNat / 64 * 64
  match r.write with
  | some v =>
    if x.writes.any (fun e => e.ca == ca && e.sent.isNone) then
      some (s.setChan ch { x with writes := x.writes.map (fun e => if e.ca == ca && e.sent.isNone then { e with v := v } else e) })
    else if x.writes.length < 48 then
      some (s.setChan ch { x with writes := x.writes ++ [⟨ca, v, x.cc, x.arrivals, none⟩], arrivals := x.arrivals + 1 })
    else none
  | none =>
    match queuedWrite x.writes ca with
    | some v =>
      let s := s.bump (aChCnt ch 8)
      some (match r.source with
        | .stream n => s.streamData n.val ch ca (some v)
        | .host => s.hostReadData ch ca (some v)
        | .helper => s)
    | none =>
      let hosts := (x.reads.filter (fun e => MorSource.isHost e.req.source)).length
      let free := if MorSource.isHost r.source then decide (hosts < s.fld (aCh ch + 0xC) 0 7)
        else true
      if x.reads.length < 64 && free then
        some (s.setChan ch { x with reads := x.reads ++ [⟨r, x.cc, x.arrivals, none, 0⟩], arrivals := x.arrivals + 1 })
      else none

/-- Admit a request to a channel's queues, or let it wait at its ingress: a write that does counts once (R179). -/
def State.morAdmit (s : State) (ch : Nat) (r : MorReq) : State :=
  let wait (s : State) : State := s.modChan ch (fun x => { x with waiting := x.waiting ++ [r] })
  if (s.chan ch).behind (r.ca.toNat / 64 * 64) then wait s
  else match s.morPlace ch r with
    | some t => t
    | none => (wait s).bumpIf r.write.isSome (aChCnt ch 9)

/-- A request reaches a channel (R179, R188, R189): it aborts a self-refresh entry, waits for the exit of self-refresh, and
reaches no channel while the fence of R205 is closed. -/
def State.morArrive (s : State) (ch : Nat) (r : MorReq) : State :=
  if s.mor.fenced then s
  else
    let s := s.modChan ch (fun x => { x with lastReq := s.ft64 })
    match (s.chan ch).st with
    | .active | .replay => s.morAdmit ch r
    | .srEntry => ((s.chanActive ch).bump (aChCnt ch 4)).morAdmit ch r
    | .selfRefresh => (s.morAdmit ch r).bumpIf (s.chan ch).srxAt.isNone (aChCnt ch 5)
    | _ => s

/-- Requests waiting at a channel's ingress try again, in their order. -/
def State.morRetry (s : State) (ch : Nat) : State :=
  let l := (s.chan ch).waiting
  if l.isEmpty then s
  else
    (s.modChan ch (fun x => { x with waiting := [] })).each l (fun s r =>
      let wait (s : State) : State := s.modChan ch (fun x => { x with waiting := x.waiting ++ [r] })
      if (s.chan ch).behind (r.ca.toNat / 64 * 64) then wait s
      else match s.morPlace ch r with
        | some t => t
        | none => wait s)

/-- Whether a stream is urgent: its fill ahead of the reader is below a quarter of its staging size (R202). -/
def Stream.urgent (x : Stream) : Bool := x.st == .open && decide (4 * (x.fill - x.consumed) < x.regions * 4096)

/-- The read whose data returns next: the earliest of those whose RD has been issued. -/
def Chan.nextReturn (x : Chan) : Option MorRd :=
  (x.reads.filter (fun e => e.data.isSome)).foldl (fun m e => match m with
    | some y => if e.due < y.due then some e else m
    | none => some e) none

/-- A read's data returns to a channel (R193, R205): decoded, delivered to its requester; a retired channel's data is
discarded by its tombstone. -/
def State.morReturn (s : State) (ch : Nat) (flips : BitVec 640) : State :=
  match (s.chan ch).nextReturn with
  | none => s
  | some e =>
    let s := s.modChan ch (fun c => { c with reads := c.reads.erase e })
    if !s.chanRuns ch then s.bump (aChCnt ch 11)
    else
      let ca := e.req.ca.toNat / 64 * 64
      let ma := s.morUnmap ch ca
      let give (s : State) (v : Option (BitVec 512)) : State := match e.req.source with
        | .stream n => s.streamData n.val ch ca v
        | .host => s.hostReadData ch ca v
        | .helper => s
      let s := match rsDecode flips with
        | none =>
          give (((s.bump (aChCnt ch 1)).raise (aChEv ch) (bit1 1)).detect 0x0B uDram ch (BitVec.ofNat 32 (ma / 64))) none
        | some (left, corrected) =>
          let s := if corrected then
              ((s.bump (aChCnt ch 0)).raise (aChEv ch) (bit1 0)).detect 0x0A uDram ch (BitVec.ofNat 32 (ma / 64))
            else s
          give s (some (e.data.getD 0 ^^^ left))
      s.morRetry ch

/-- A timing parameter of a channel (R184). -/
def Chan.tim (x : Chan) (i : Nat) : Nat := (Tab.get (fun _ => (0 : BitVec 16)) x.timing i).toNat

/-- Whether any request is pending at a channel: waiting, queued and not yet issued, or in flight. -/
def Chan.pending (x : Chan) : Bool := !x.reads.isEmpty || x.writes.any (fun e => e.sent.isNone) || !x.waiting.isEmpty

/-- Whether any prefetch stream is open. -/
def State.streamOpenAny (s : State) : Bool := (List.range 32).any (fun n => (s.stream n).st == .open)

/-! Training (R197 to R199). -/

/-- Operation codes of the training helper that write bursts. -/
def thWrites (op : Nat) : Bool := op == 1 || op == 3

/-- The sequence bit of lane l in beat n: its seed is SEED rotated left by l mod 16 (R198; the sequence itself is open, log 3). -/
def thPrbs (o : ThOp) (l n : Nat) : Bool :=
  Config.prbs (bits o.pat 30 2 == 2) ((o.pat.setWidth 16 : BitVec 16).rotateLeft (l % 16)) n

/-- Burst k of a training pattern on the 40 lanes (R198): FIXED with its check symbols, PRBS on every lane, or WALK. -/
def thBurst (o : ThOp) (k : Nat) : BitVec 640 :=
  let mode := bits o.pat 30 2
  if mode = 0 then rsEncode (BitVec.ofNat 512 ((List.range 16).foldl (fun a i => a + (o.data.getD i 0).toNat * 2 ^ (32 * i)) 0))
  else BitVec.ofNat 640 ((List.range 16).foldl (fun a b => (List.range 40).foldl (fun a l =>
    a + b01 (if mode = 3 then (16 * k + b) % 40 == l else thPrbs o l (16 * k + b)) * 2 ^ (40 * b + l)) a) 0)

/-- The data of a burst on the lanes. -/
def dqData (v : BitVec 640) : BitVec 512 :=
  BitVec.ofNat 512 ((List.range 16).foldl (fun a b => a + bits v (40 * b) 32 * 2 ^ (32 * b)) 0)

/-- The burst at a channel-local address on the 40 lanes. -/
def State.laneBurst (s : State) (ch ca : Nat) : BitVec 640 :=
  let v := s.morBurst ch ca
  match Tab.get (fun _ => none) s.mor.cb (ch * 2 ^ 32 + ca / 64) with
  | some c => withCb v c
  | none => rsEncode v

/-- The helper stores a burst with its check lanes. -/
def State.thStore (s : State) (ch ca : Nat) (v : BitVec 640) : State :=
  let s := s.morStore ch ca (dqData v)
  { s with mor := { s.mor with cb := Tab.set (fun _ => none) s.mor.cb (ch * 2 ^ 32 + ca / 64) (some (cbBits v)) } }

/-- Burst k's channel-local address: TH_ADDR and k steps of 128 B, within the channel's 38 bits (R198). -/
def ThOp.ca (o : ThOp) (k : Nat) : Nat := (o.addr.toNat * 64 + 128 * k) % 2 ^ 38

/-- A DRAM command of the training helper, whose own timing the spec does not give (log 22). -/
def State.thCmd (s : State) (ch : Nat) (c : DCmd) (data : Option (BitVec 512)) : State := s.emit (.dram ch c data)

/-- The commands of a helper's column access: its row is opened and closed around it. -/
def State.thColumn (s : State) (ch ca : Nat) (data : Option (BitVec 512)) : State :=
  let d := (s.chan ch).dimm.decode ca
  let col := match data with | some _ => DOp.wr d.bank d.row d.col | none => DOp.rd d.bank d.row d.col
  let s := (s.thCmd ch ⟨d.sub, d.rank, .act d.bank d.row⟩ none).thCmd ch ⟨d.sub, d.rank, col⟩ data
  s.thCmd ch ⟨d.sub, d.rank, .prePb d.bank⟩ none

/-- A training operation begins at its GO with the helper registers as they stand (R198, R199); a mode-register access or an
MPC goes out at once. -/
def State.thStart (s : State) (ch : Nat) : State :=
  let a := aCh ch
  let v := s.reg (a + 0x100)
  let o : ThOp :=
    { op := bits v 24 4, sub := bitOf v 21, rank := bitOf v 20, addr := s.reg (a + 0x104),
      count := s.fld (a + 0x108) 0 16, pat := s.reg (a + 0x10C),
      data := (List.range 16).map (fun i => s.reg (a + 0x140 + 4 * i)) }
  let s := s.modChan ch (fun x => { x with th := some o, thErrors := 0, thDq := 0, thCb := 0 })
  let cmd (op : DOp) : State := s.thCmd ch ⟨b01 o.sub, b01 o.rank, op⟩ none
  match o.op with
  | 4 => (cmd (.mrw (bits o.addr 8 8) (bits o.addr 0 8))).modChan ch (fun x => { x with
      modeRegs := Tab.set (fun _ => 0) x.modeRegs ((b01 o.sub * 2 + b01 o.rank) * 256 + bits o.addr 8 8) (o.addr.setWidth 8) })
  | 5 => cmd (.mrr (bits o.addr 8 8))
  | 6 => cmd (.mpc (bits o.addr 0 8))
  | _ => s

/-- One burst that the helper reads and compares (R198, R193): the lanes that differ from the pattern fail; a burst that the
decoder finds uncorrectable counts as failing. -/
def State.thCompare (s : State) (ch : Nat) (o : ThOp) (k : Nat) (flips : BitVec 640) : State :=
  let diff := s.laneBurst ch (o.ca k) ^^^ flips ^^^ thBurst o k
  let lanes := (List.range 16).foldl (fun (a : BitVec 40) b => a ||| (diff >>> (40 * b)).setWidth 40) 0
  let s := s.thColumn ch (o.ca k) none
  if diff = 0 then s
  else s.modChan ch (fun x => { x with
    thDq := x.thDq ||| lanes.setWidth 32, thCb := x.thCb ||| (lanes >>> 32).setWidth 8
    thErrors := if x.thErrors = 0xFFFF then 0xFFFF else x.thErrors + 1 })

/-- What stands for burst k in a list, 0 where nothing does. -/
def burstBits (w : Nat) (l : List (Nat × BitVec w)) (k : Nat) : BitVec w :=
  ((l.find? (fun f => f.1 == k)).map (fun f => f.2)).getD 0

/-- A training operation ends (R198): bursts are written, read back and compared with the bits that flipped in each; in CA
training the DQ feedback is compared with the XOR of the driven bits, in write leveling it is the CK levels. -/
def State.thEnd (s : State) (ch : Nat) (flips : List (Nat × BitVec 512)) (checkFlips : List (Nat × BitVec 128)) (feedback : Word)
    (mrr : BitVec 8) : State :=
  match (s.chan ch).th with
  | none => s
  | some o =>
    let s := if thWrites o.op then s.each (List.range o.count) (fun s k =>
        (s.thStore ch (o.ca k) (thBurst o k)).thColumn ch (o.ca k) (some (dqData (thBurst o k)))) else s
    let s := if o.op = 1 ∨ o.op = 2 then s.each (List.range o.count) (fun s k =>
        s.thCompare ch o k (withCb (burstBits 512 flips k) (burstBits 128 checkFlips k))) else s
    let ca := popcount (BitVec.ofNat 14 ((o.data.getD 0 0).toNat)) % 2 == 1
    let bad := feedback ^^^ (if ca then 0xFFFFFFFF else 0)
    let s := s.modChan ch (fun x => { x with
      th := none
      thDq := if o.op = 7 then bad else if o.op = 8 then feedback else x.thDq
      thErrors := if o.op = 7 && bad != 0 then 1 else x.thErrors
      thMrr := if o.op = 5 then mrr else x.thMrr })
    s.raise (aCh ch + 0x110) (bit1 30)

/-- The fixed table's entries for a channel, oldest first (15 R396). -/
def State.fixedFor (s : State) (ch : Nat) : List (BitVec 64) := s.hk.fixed.filter (fun e => bits e 60 2 == ch)

/-- Step 1 of training (R197): in FIXED mode the fixed table gives delays and timing parameters; the timing parameters
that it does not give come from SPD. -/
def State.trainLoad (s : State) (ch : Nat) : State :=
  let l := if s.flag (aCh ch) 4 then s.fixedFor ch else []
  let spd := (List.range 26).foldl (fun t i => Tab.set (fun _ => (0 : BitVec 16)) t i (Config.spdTiming ch i)) []
  let tim := (l.filter (fun e => bits e 62 2 == 1)).foldl
    (fun t e => Tab.set (fun _ => (0 : BitVec 16)) t (bits e 34 5) (e.setWidth 16)) spd
  s.modChan ch (fun x => { x with
    st := .train
    trainStep := 1
    timing := tim
    delay := (l.filter (fun e => bits e 62 2 == 2)).foldl
      (fun t e => Tab.set (fun _ => (0 : BitVec 12)) t (bits e 30 30) (e.setWidth 12)) x.delay })

/-- A channel begins to train, with step 1 (R197, R204); one that has retired meanwhile does not. -/
def State.trainBegin (s : State) (ch : Nat) : State :=
  if s.isRetired uDram ch then s.modChan ch (fun x => { x with st := .retired }) else s.trainLoad ch

/-- A channel with a supported DIMM and ENABLE set leaves OFF for TRAIN (R204). -/
def State.trainStart (s : State) (ch : Nat) : State :=
  let x := s.chan ch
  if x.st = .off && x.dimm.capGiB.isSome && s.flag (aCh ch) 0 then s.trainBegin ch else s

/-- The running step of training as a core cycle passes: how long a step takes is open, so whether it ends in this core cycle is
a free value (log 55); FIXED runs steps 1 and 7 alone (R197). A channel in RECOVER trains once the MPLL is locked (R206). -/
def State.trainTick (s : State) (ch : Nat) : State :=
  let x := s.chan ch
  if x.st = .recover && s.clk.mpll.st == .locked then s.trainBegin ch
  else if x.st != .train || decide (7 ≤ x.trainStep) then s
  else
    let (v, s) := s.freeVal 1
    if bitOf v 0 then s.modChan ch (fun x => { x with trainStep := if s.flag (aCh ch) 4 then 7 else x.trainStep + 1 }) else s

/-- The map over the active channels in ascending number: capacity C is the smallest, larger DIMMs are trimmed, GEN
increments (R174, R176, R205). -/
def State.newMap (s : State) : State :=
  let inMap := (List.range 4).filter (fun n => !s.isRetired uDram n &&
    match (s.chan n).st with | .active | .srEntry | .selfRefresh | .replay => true | _ => false)
  let caps := inMap.map (fun n => (s.chan n).dimm.cap)
  let c := match caps with | [] => 0 | x :: l => l.foldl min x
  let s := s.each inMap (fun s n => s.modChan n (fun x =>
    { x with dimm := { x.dimm with trimmed := decide (c < x.dimm.cap) } }))
  let gone := inMap.isEmpty && (List.range 4).any (fun n => s.isRetired uDram n)
  { s with mor := { s.mor with
    active := inMap, capacity := c, gen := s.mor.gen + 1, fenced := false, recovering := false, gone := gone } }.raise
    (wMor + 8) (bit1 1)

/-- The channels that the MPLL's BYPASS took are all back or have failed: those that passed form the new map (R206). -/
def State.recoverCheck (s : State) : State :=
  if s.mor.recovering && !s.mor.fenced && !(List.range 4).any (fun n => !s.isRetired uDram n &&
      match (s.chan n).st with | .recover | .train | .srEntry | .selfRefresh | .replay => true | _ => false) then s.newMap
  else s

/-- Training of a channel ends (R184, R197, R204): it joins the map, or fails for good. A map that a retirement's fence or
the MPLL's BYPASS holds back forms when these end (R205, R206). -/
def State.trainDone (s : State) (ch : Nat) (r : TrainResult) : State :=
  let x := s.chan ch
  if x.st != .train then s
  else
    let fail (step : Nat) : State :=
      ((s.setChan ch { x with trainStep := step }).raise (aChEv ch) (bit1 4)).detect 0x09 uDram ch
        (BitVec.ofNat 32 step) true
    match r with
    | .failed step => fail (max 1 step.val)
    | .passed =>
      if (List.range 26).any (fun i => x.tim i == 0) then fail 7
      else
        let s := { s with mor := { s.mor with
          mem := s.mor.mem.filter (fun e => e.1 / 2 ^ 32 != ch), cb := s.mor.cb.filter (fun e => e.1 / 2 ^ 32 != ch) } }
        let s := (s.setChan ch { x with trainStep := 0, epoch := x.epoch + 1, th := none }).chanActive ch
        if s.mor.fenced then s else if s.mor.recovering then s.recoverCheck else s.newMap

/-! Streams (R200 to R203). -/

/-- A stream reader opens context n (R200): ranges that are broken open nothing; an open aborts a self-refresh entry in
progress. -/
def State.streamStart (s : State) (n src len base regions : Nat) : State :=
  if src % 64 != 0 || len % 64 != 0 || len < 64 || decide (s.morCap < src + len) || regions < 1 || 16384 < regions ||
    decide (32768 < base + regions) then s
  else
    let s := s.each (List.range 4) (fun s ch =>
      if (s.chan ch).st = .srEntry then
        (s.chanActive ch).bump (aChCnt ch 4) else s)
    s.setStream n { Stream.reset with st := .open, src := src, length := len, base := base, regions := regions }

/-- A stream issues its next read (R201). -/
def State.streamIssue (s : State) (n : Nat) : State :=
  let x := s.stream n
  if x.st != .open || decide (32 ≤ x.out.length) || decide (x.length ≤ x.issued) ||
    decide (x.regions * 4096 ≤ x.issued - x.consumed) then s
  else match s.morMap (x.src + x.issued) with
    | none => s
    | some (ch, ca) =>
      let s := s.setStream n { x with issued := x.issued + 64, out := x.out ++ [x.issued] }
      if n < 32 then s.morArrive ch ⟨.stream (Fin.ofNat 32 n), BitVec.ofNat 38 ca, none⟩ else s

/-- A reader closes its stream: outstanding reads are discarded on return (R203). -/
def State.streamStop (s : State) (n : Nat) : State :=
  let x := s.stream n
  if x.st = .idle then s else s.setStream n { x with st := .idle }

/-- A stream ends ABORTED (R203). -/
def State.streamAbort (s : State) (n : Nat) : State :=
  let x := s.stream n
  if x.st = .open then s.setStream n { x with st := .aborted } else s

/-- Whether a descriptor moves Moraine data: WRITE or READ with STORE = 1, admitted. -/
def Desc.onMor (d : Desc) : Bool := d.st == .admitted && (d.kind == 1 || d.kind == 2) && bitOf d.word 255

/-- Whether a Moraine descriptor or stream is active (R178). -/
def State.morBusy (s : State) : Bool := s.streamOpenAny || !(s.admitted Desc.onMor).isEmpty

/-- Fu since an instant. -/
def State.since (s : State) (t : BitVec 64) : Nat := (s.ft64 - t).toNat

/-- Moraine descriptors complete ABORTED_RETIRE with the bytes moved, and streams end ABORTED (R205, R206). -/
def State.morAbort (s : State) (since : Nat) : State :=
  let s := s.each (s.admitted Desc.onMor) (fun s x => s.endDesc x.1 x.2 sAborted since x.2.moved)
  s.each (List.range 32) (fun s n => s.streamAbort n)

/-- Whether a channel's retirement drains. -/
def State.morDrains (s : State) : Bool := s.flt.draining.any (fun d => d.kind == uDram)

/-- The drain of a channel's retirement has ended, so many fu after its D (R205): what is still active is aborted and the new
map is live. While another channel's retirement drains the fence stands on. -/
def State.mapSwitch (s : State) (since : Nat) : State :=
  if !s.mor.fenced then s
  else
  let s := s.morAbort since
  if s.morDrains then
    let s := if s.mor.recovering then s else s.newMap
    { s with mor := { s.mor with fenced := true } }
  else if s.mor.recovering then ({ s with mor := { s.mor with fenced := false } }).recoverCheck
  else s.newMap

end Sys2Proof.Machine
end

