-- ==== Sys2Proof/Machine/Dram.lean ====
section
/-!
DEFINITION. The DRAM command stream of a Moraine channel: the commands of R173 with their timing, the scheduler of each
subchannel, refresh, RFM, self-refresh, calibration and replay, one controller cycle at a time (07 R173, R179 to R196).
-/

namespace Sys2Proof.Machine

/-! Timing (R184). Times are in tCK; a controller cycle is four. -/

/-- Periods of tCK that the data of a BL16 burst takes. -/
def burstTck : Nat := 8

/-- Whether a precharge closes a bank of its rank. -/
def DOp.closes (o : DOp) (bank : Nat) : Bool :=
  match o with
  | .prePb b => b == bank
  | .preSb ba => bank % 4 == ba
  | .preAb => true
  | _ => false

/-- Whether an operation is a precharge. -/
def DOp.isPre : DOp → Bool
  | .prePb _ | .preSb _ | .preAb => true
  | _ => false

/-- Whether an operation needs its rank precharged. -/
def DOp.isIdle : DOp → Bool
  | .refAb | .refSb _ | .rfmAb | .sre => true
  | _ => false

/-- Opcodes of MPC: ZQCAL Latch, ZQCAL Start, start of the DQS interval oscillator (PRESUMED from DDR5, log 54). -/
def mpcLatch : Nat := 4
/-- ZQCAL Start. -/
def mpcZq : Nat := 5
/-- Start of the DQS interval oscillator. -/
def mpcOsc : Nat := 7

/-- tCK from an ACT of a bank to a later operation on its rank. -/
def Chan.afterAct (x : Chan) (b : Nat) (n : DOp) : Nat :=
  match n with
  | .act c _ => if b = c then x.tim 0x04 + x.tim 0x03 else if b / 4 = c / 4 then x.tim 0x06 else x.tim 0x05
  | .rd c _ _ | .wr c _ _ => if b = c then x.tim 0x02 else 0
  | _ => if n.closes b then x.tim 0x04 else 0

/-- tCK from an RD of a bank to a later operation; another rank shares the data lanes alone. -/
def Chan.afterRd (x : Chan) (b : Nat) (same : Bool) (n : DOp) : Nat :=
  match n with
  | .rd c _ _ => if same && b / 4 == c / 4 then x.tim 0x09 else x.tim 0x08
  | .wr _ _ _ => x.tim 0x00 + burstTck - x.tim 0x01
  | _ => if same && n.closes b then x.tim 0x0E else 0

/-- tCK from a WR of a bank to a later operation. -/
def Chan.afterWr (x : Chan) (b : Nat) (same : Bool) (n : DOp) : Nat :=
  let done := x.tim 0x01 + burstTck
  match n with
  | .wr c _ _ => if same && b / 4 == c / 4 then x.tim 0x0A else x.tim 0x08
  | .rd c _ _ =>
    if same then done + (if b / 4 = c / 4 then x.tim 0x0C else x.tim 0x0B) else done - x.tim 0x00
  | _ => if same && n.closes b then done + x.tim 0x0D else 0

/-- tCK from a precharge to a later operation on its rank. -/
def Chan.afterPre (x : Chan) (p n : DOp) : Nat :=
  match n with
  | .act b _ => if p.closes b then x.tim 0x03 else 0
  | _ => if n.isIdle then x.tim 0x03 else 0

/-- tCK from a REFsb of a bank index to a later operation on its rank. -/
def Chan.afterRefSb (x : Chan) (ba : Nat) (n : DOp) : Nat :=
  match n with
  | .act b _ => if b % 4 = ba then x.tim 0x10 else 0
  | _ => if n.isIdle then x.tim 0x10 else 0

/-- The least number of tCK between a command and a later one of its subchannel, by the timing table (R184, R190). -/
def Chan.gap (x : Chan) (p n : DCmd) : Nat :=
  if p.sub != n.sub then 0
  else
    let same := p.rank == n.rank
    match p.op with
    | .act b _ => if same then x.afterAct b n.op else 0
    | .rd b _ _ => x.afterRd b same n.op
    | .wr b _ _ => x.afterWr b same n.op
    | .prePb _ | .preSb _ | .preAb => if same then x.afterPre p.op n.op else 0
    | .refAb => if same then x.tim 0x0F else 0
    | .refSb ba => if same then x.afterRefSb ba n.op else 0
    | .rfmAb => if same then x.tim 0x19 else 0
    | .sre => x.tim 0x14
    | .srx => match n.op with | .rd _ _ _ => x.tim 0x13 | _ => x.tim 0x12
    | .mpc o => if !same then 0 else if o = mpcLatch then x.tim 0x16 else if o = mpcZq && n.op == .mpc mpcLatch then x.tim 0x15 else 0
    | .mrw _ _ | .mrr _ | .rcw => 0

/-- The present time of a channel in tCK. -/
def Chan.tck (x : Chan) : Nat := 4 * x.cc

/-- Whether a fifth ACT of a rank falls within tFAW. -/
def Chan.fawFull (x : Chan) (c : DCmd) : Bool :=
  match c.op with
  | .act _ _ => decide (4 ≤ (x.hist.filter (fun e => e.1.sub == c.sub && e.1.rank == c.rank &&
      (match e.1.op with | .act _ _ => true | _ => false) && decide (x.tck < e.2 + x.tim 0x07))).length)
  | _ => false

/-- Whether 32 commands have been issued in the last WINDOW controller cycles (R194). -/
def Chan.windowFull (x : Chan) (window : Nat) : Bool :=
  decide (32 ≤ (x.retry.filter (fun e => decide (x.cc < e.at_ + window))).length)

/-- Whether every timing parameter lets a command issue now (R184). -/
def Chan.ready (x : Chan) (c : DCmd) : Bool :=
  x.hist.all (fun e => decide (e.2 + x.gap e.1 c ≤ x.tck)) && !x.fawFull c

/-- The longest time for which a command can bind a later one. -/
def Chan.span (x : Chan) : Nat := 2 * (List.range 26).foldl (fun m i => max m (x.tim i)) 0 + 64

/-- Key of a bank in the table of open rows. -/
def bankKey (sub rank bank : Nat) : Nat := 64 * sub + 32 * rank + bank

/-- The open rows after a command. -/
def Chan.rowsAfter (x : Chan) (c : DCmd) : Tab Nat :=
  match c.op with
  | .act b r => Tab.set (fun _ => 0) x.rows (bankKey c.sub c.rank b) (r + 1)
  | o => if o.isPre then (List.range 32).foldl (fun t b =>
      if o.closes b then Tab.set (fun _ => 0) t (bankKey c.sub c.rank b) 0 else t) x.rows else x.rows

/-- The activation counts after a command: an ACT counts against its bank, REFab and RFMab lower those of the rank by RAAIMT
(R186). -/
def Chan.raaAfter (x : Chan) (c : DCmd) : Tab Nat :=
  let get (t : Tab Nat) (k : Nat) := Tab.get (fun _ => 0) t k
  match c.op with
  | .act b _ => Tab.set (fun _ => 0) x.raa (bankKey c.sub c.rank b) (get x.raa (bankKey c.sub c.rank b) + 1)
  | .refAb | .rfmAb => (List.range 32).foldl (fun t b =>
      Tab.set (fun _ => 0) t (bankKey c.sub c.rank b) (get t (bankKey c.sub c.rank b) - x.tim 0x17)) x.raa
  | _ => x.raa

/-- A command goes out and binds the later ones; `again` tells a replay, whose commands do not enter the retry buffer and count
once (R194, R195). -/
def State.dram (s : State) (ch : Nat) (c : DCmd) (data : Option (BitVec 512)) (again : Bool := false) : State :=
  (s.modChan ch (fun x => { x with
    hist := x.hist.filter (fun e => decide (x.tck < e.2 + x.span)) ++ [(c, x.tck)]
    retry := if again then x.retry else (x.retry ++ [(⟨c, x.cc, data⟩ : Issued)]).drop (x.retry.length + 1 - 32)
    rows := x.rowsAfter c
    raa := if again then x.raa else x.raaAfter c })).emit (.dram ch c data)

/-! Requests (R180 to R183). -/

/-- A request that waits for its column command: its number, address, arrival, and whether it writes. -/
structure Want where
  num : Nat
  ca : Nat
  at_ : Nat
  wr : Bool
  urgent : Bool
  deriving DecidableEq, Repr

/-- Insert by number. -/
def insertWant (w : Want) : List Want → List Want
  | [] => [w]
  | x :: l => if w.num < x.num then w :: x :: l else x :: insertWant w l

/-- The requests of a subchannel that wait for their column command, oldest first; a write stays behind an older read of the
same address (R183). -/
def State.wants (s : State) (ch sub : Nat) : List Want :=
  let x := s.chan ch
  let here (ca : Nat) : Bool := (x.dimm.decode ca).sub == sub
  let rds := (x.reads.filter (fun e => e.data.isNone)).map (fun e =>
    (⟨e.num, e.req.ca.toNat / 64 * 64, e.at_, false,
      match e.req.source with | .stream n => (s.stream n.val).urgent | _ => false⟩ : Want))
  let wrs := (x.writes.filter (fun e => e.sent.isNone && !rds.any (fun r => r.ca == e.ca && decide (r.num < e.num)))).map
    (fun e => (⟨e.num, e.ca, e.at_, true, false⟩ : Want))
  ((rds ++ wrs).filter (fun w => here w.ca)).foldl (fun l w => insertWant w l) []

/-- The next command of a request: its column command where its row is open, an ACT where its bank is closed, else a
precharge of the bank. -/
def Chan.nextCmd (x : Chan) (w : Want) : DCmd :=
  let d := x.dimm.decode w.ca
  let open_ := Tab.get (fun _ => 0) x.rows (bankKey d.sub d.rank d.bank)
  ⟨d.sub, d.rank,
    if open_ = d.row + 1 then (if w.wr then .wr d.bank d.row d.col else .rd d.bank d.row d.col)
    else if open_ = 0 then .act d.bank d.row else .prePb d.bank⟩

/-- Whether a request hits an open row. -/
def Chan.hits (x : Chan) (w : Want) : Bool :=
  match (x.nextCmd w).op with | .rd _ _ _ | .wr _ _ _ => true | _ => false

/-- The ranking of R181: row hits, oldest first, then the oldest remaining request. -/
def Chan.rowFirst (x : Chan) (l : List Want) : List Want := l.filter x.hits ++ (l.filter (fun w => !x.hits w)).take 1

/-- The candidate requests of a subchannel, those of the first class of R180 that has any, in their order, and whether the
class is the first. In READFIRST writes stand aside but for a drain, or where no read of the subchannel is pending (R182). -/
def State.candidates (s : State) (ch sub : Nat) : List Want × Bool :=
  let x := s.chan ch
  let l := s.wants ch sub
  let aged := l.filter (fun w => decide (s.fld (aCh ch + 8) 0 16 < x.cc - w.at_))
  let urgent := l.filter (fun w => w.urgent)
  if !aged.isEmpty then (aged, true)
  else if !urgent.isEmpty then (urgent.filter x.hits ++ urgent.filter (fun w => !x.hits w), false)
  else if !s.flag (aCh ch) 1 then (x.rowFirst l, false)
  else
    let rds := l.filter (fun w => !w.wr)
    let wrs := l.filter (fun w => w.wr)
    if x.draining then (x.rowFirst wrs ++ x.rowFirst rds, false)
    else if rds.isEmpty then (x.rowFirst wrs, false) else (x.rowFirst rds, false)

/-- A request's next command is issued: an RD takes the burst that the DRAM holds, which returns CL and the burst later; a WR
stores its data and keeps its entry (R194). -/
def State.issueWant (s : State) (ch : Nat) (w : Want) (aged : Bool) : State :=
  let x := s.chan ch
  let c := x.nextCmd w
  let s := s.bumpIf aged (aChCnt ch 10)
  match c.op with
  | .rd _ _ _ =>
    let v := s.morBurst ch w.ca
    (s.dram ch c none).modChan ch (fun x => { x with
      burstsRead := x.burstsRead + 1
      reads := x.reads.map (fun e => if e.num = w.num then { e with data := some v, due := x.tck + x.tim 0x00 + burstTck } else e) })
  | .wr _ _ _ =>
    let v := ((x.writes.find? (fun e => e.num == w.num)).map (fun e => e.v)).getD 0
    ((s.dram ch c (some v)).morStore ch w.ca v).modChan ch (fun x => { x with
      burstsWritten := x.burstsWritten + 1
      writes := x.writes.map (fun e => if e.num = w.num then { e with sent := some x.cc } else e) })
  | _ => s.dram ch c none

/-! Refresh and RFM (R185, R186). -/

/-- Whether a request that has not been issued is pending for a subchannel and rank. -/
def Chan.pendingFor (x : Chan) (sub rank : Nat) : Bool :=
  let hit (ca : Nat) : Bool := (x.dimm.decode ca).sub == sub && (x.dimm.decode ca).rank == rank
  x.reads.any (fun e => e.data.isNone && hit e.req.ca.toNat) || x.writes.any (fun e => e.sent.isNone && hit e.ca) ||
    x.waiting.any (fun r => hit r.ca.toNat)

/-- Refreshes owed to a subchannel and rank. -/
def Chan.owedTo (x : Chan) (sub rank : Nat) : Nat := Tab.get (fun _ => 0) x.owed (2 * sub + rank)

/-- Whether the banks of a rank that a test names are all closed. -/
def Chan.closed (x : Chan) (sub rank : Nat) (p : Nat → Bool) : Bool :=
  (List.range 32).all (fun b => !p b || Tab.get (fun _ => 0) x.rows (bankKey sub rank b) == 0)

/-- The next command of an owed refresh: a precharge of the affected banks, or the refresh. -/
def Chan.refreshCmd (x : Chan) (sub rank : Nat) : DCmd :=
  let i := Tab.get (fun _ => 0) x.refIdx (2 * sub + rank)
  ⟨sub, rank,
    if x.sameBank then (if x.closed sub rank (fun b => b % 4 == i) then .refSb i else .preSb i)
    else if x.closed sub rank (fun _ => true) then .refAb else .preAb⟩

/-- The next command of an RFM. -/
def Chan.rfmCmd (x : Chan) (sub rank : Nat) : DCmd :=
  ⟨sub, rank, if x.closed sub rank (fun _ => true) then .rfmAb else .preAb⟩

/-- The highest activation count of a rank's banks. -/
def Chan.raaTop (x : Chan) (sub rank : Nat) : Nat :=
  (List.range 32).foldl (fun m b => max m (Tab.get (fun _ => 0) x.raa (bankKey sub rank b))) 0

/-- Whether a rank's activation counts have reached a limit, where its DIMM requires refresh management (R186). -/
def Chan.rfmAt (x : Chan) (ch sub rank limit : Nat) : Bool :=
  Config.rfmRequired ch && decide (0 < limit) && decide (limit ≤ x.raaTop sub rank)

/-- The forced maintenance of a subchannel, ahead of every class: a rank that owes four refreshes, or RFMab at RAAMMT. -/
def Chan.forced (x : Chan) (ch sub : Nat) : Option DCmd :=
  x.dimm.ranks.findSome? (fun r =>
    if 4 ≤ x.owedTo sub r then some (x.refreshCmd sub r)
    else if x.rfmAt ch sub r (x.tim 0x18) then some (x.rfmCmd sub r) else none)

/-- Maintenance that is due for a rank for which no request is pending. -/
def Chan.unforced (x : Chan) (ch sub : Nat) : List DCmd :=
  x.dimm.ranks.filterMap (fun r =>
    if x.pendingFor sub r then none
    else if 0 < x.owedTo sub r then some (x.refreshCmd sub r)
    else if x.rfmAt ch sub r (x.tim 0x17) then some (x.rfmCmd sub r) else none)

/-- A maintenance command is issued: a refresh pays one that is owed, and a forced one counts (R185). -/
def State.issueMaint (s : State) (ch : Nat) (c : DCmd) (forced : Bool) : State :=
  let k := 2 * c.sub + c.rank
  let paid (s : State) : State := (s.modChan ch (fun x => { x with
    owed := Tab.set (fun _ => 0) x.owed k (Tab.get (fun _ => 0) x.owed k - 1)
    refIdx := match c.op with | .refSb i => Tab.set (fun _ => 0) x.refIdx k ((i + 1) % 4) | _ => x.refIdx })).bumpIf forced (aChCnt ch 6)
  let s := s.dram ch c none
  match c.op with
  | .refAb | .refSb _ => paid s
  | _ => s

/-- Controller cycles from one refresh's falling due to the next (R185): tREFI, a quarter of it in SAMEBANK, half of that while
the DIMM is hot. -/
def Chan.refEvery (x : Chan) (ch : Nat) : Nat :=
  max 1 (x.tim 0x11 / 4 / (if x.sameBank then 4 else 1) / (if Config.dimmHot ch x.cc then 2 else 1))

/-- The refreshes that fall due in a controller cycle. REF_MODE is taken at the start of a tREFI. -/
def State.refreshTick (s : State) (ch : Nat) : State :=
  match (s.chan ch).st with
  | .active | .srEntry | .replay =>
    s.each [0, 1, 2, 3] (fun s k =>
      let x := s.chan ch
      if !x.dimm.ranks.contains (k % 2) || decide (x.cc < Tab.get (fun _ => 0) x.refAt k + x.refEvery ch) then s
      else s.modChan ch (fun x => { x with
        owed := Tab.set (fun _ => 0) x.owed k (Tab.get (fun _ => 0) x.owed k + 1)
        refAt := Tab.set (fun _ => 0) x.refAt k x.cc
        sameBank := if !x.sameBank || Tab.get (fun _ => 0) x.refIdx k == 0 then s.flag (aCh ch) 2 else x.sameBank }))
  | _ => s

/-! Self-refresh (R188 to R190). -/

/-- Self-refresh entry begins (R188): SR_IDLE has passed without a request, none is pending and no stream is open. -/
def State.srEnter (s : State) (ch : Nat) : State :=
  let x := s.chan ch
  let idle := s.fld (aCh ch + 0x10) 0 16
  if x.st != .active || !s.flag (aCh ch) 3 || idle == 0 || x.pending || s.streamOpenAny || s.mor.recovering ||
    decide ((s.ft64 - x.lastReq).toNat < idle * 1024000) then s
  else s.modChan ch (fun x => { x with st := .srEntry })

/-- The commands of an entry before SRE: PREab of every rank with an open row, then owed refreshes (R189). -/
def Chan.entryCmds (x : Chan) (sub : Nat) : List DCmd :=
  x.dimm.ranks.filterMap (fun r =>
    if !x.closed sub r (fun _ => true) then some ⟨sub, r, .preAb⟩
    else if 0 < x.owedTo sub r then some (x.refreshCmd sub r) else none)

/-- Whether a command can go out on both subchannels in one controller cycle. -/
def Chan.bothReady (x : Chan) (o : DOp) : Bool := x.ready ⟨0, 0, o⟩ && x.ready ⟨1, 0, o⟩

/-- A command goes out on both subchannels in one controller cycle. -/
def State.dramBoth (s : State) (ch : Nat) (o : DOp) : State := (s.dram ch ⟨0, 0, o⟩ none).dram ch ⟨1, 0, o⟩ none

/-- SRE, the point of no return (R189): nothing is open or owed, and nothing is pending, which would abort the entry. The
MPLL's BYPASS ends an entry too (DESIGN CHOICE, log 56). -/
def State.sreIssue (s : State) (ch : Nat) : State :=
  let x := s.chan ch
  if x.st != .srEntry then s
  else if x.pending then (s.chanActive ch).bump (aChCnt ch 4)
  else if s.mor.recovering then s.chanActive ch
  else if !(x.entryCmds 0).isEmpty || !(x.entryCmds 1).isEmpty || !x.bothReady .sre then s
  else ((s.modChan ch (fun x => { x with st := .selfRefresh, srxAt := none })).dramBoth ch .sre).bump (aChCnt ch 3)

/-- The exit from self-refresh (R190): SRX at the first controller cycle at which a request is pending, tCSSR has passed and no
calibration step runs, or the MPLL has gone to BYPASS (DESIGN CHOICE, log 56); the channel is ACTIVE once RD may follow. -/
def State.srxIssue (s : State) (ch : Nat) : State :=
  let x := s.chan ch
  if x.st != .selfRefresh then s
  else match x.srxAt with
    | some c => if c * 4 + x.tim 0x13 ≤ x.tck then s.chanActive ch else s
    | none =>
      if !(x.pending || s.mor.recovering) || decide (x.tck < x.calEnd) || !x.bothReady .srx then s
      else (s.modChan ch (fun x => { x with srxAt := some x.cc, owed := [] })).dramBoth ch .srx

/-! Background calibration (R192). -/

/-- Kind of a calibration step in a SKIP record (R382). -/
def CalKind.code : CalKind → Nat
  | .zqcal => 1
  | .dqsOsc => 2
  | .phy => 3

/-- Commands of a calibration step on one subchannel and rank. -/
def calCmds (k : CalKind) (sub rank : Nat) : List DCmd :=
  match k with
  | .zqcal => [⟨sub, rank, .mpc mpcZq⟩, ⟨sub, rank, .mpc mpcLatch⟩]
  | .dqsOsc => [⟨sub, rank, .mpc mpcOsc⟩, ⟨sub, rank, .mrr 46⟩, ⟨sub, rank, .mrr 47⟩]
  | .phy => []

/-- A calibration step starts where no request is pending: a PHY step in self-refresh after tCSSR, or while the command bus is
idle, the others while the channel is ACTIVE (R190, R192). -/
def State.calStart (s : State) (ch : Nat) : State :=
  let x := s.chan ch
  if x.pending || decide (x.tck < x.calEnd) then s
  else
    let may (k : CalKind) : Bool := match k with
      | .phy => x.st == .active || (x.st == .selfRefresh && x.srxAt.isNone && x.bothReady .srx)
      | _ => x.st == .active && x.cal.isEmpty
    match x.calWait.find? (fun e => may e.1) with
    | none => s
    | some e => s.modChan ch (fun x => { x with
        calWait := x.calWait.erase e
        calEnd := if e.1 = .phy then x.tck + 160 else x.calEnd
        cal := x.cal ++ [0, 1].flatMap (fun sub => x.dimm.ranks.flatMap (fun r => calCmds e.1 sub r)) })

/-- The reading of a DQS interval oscillator adjusts the write DQS delays of its rank (R192); to what values is the DIMM's
(log 54). -/
def State.dqsAdjust (s : State) (ch sub rank : Nat) : State :=
  let n := s.free
  let s := s.modChan ch (fun x => { x with delay := (List.range 10).foldl (fun t l =>
    Tab.set (fun _ => (0 : BitVec 12)) t (sub * 2 ^ 29 + rank * 2 ^ 28 + l) (Config.dqsDelay ch n ((sub * 2 + rank) * 10 + l))) x.delay })
  { s with free := n + 1 }

/-- The next command of the running calibrations of a subchannel, which yields to every request. -/
def State.issueCal (s : State) (ch : Nat) (c : DCmd) : State :=
  let s := (s.dram ch c none).modChan ch (fun x => { x with cal := x.cal.erase c })
  if c.op = .mrr 47 then s.dqsAdjust ch c.sub c.rank else s

/-! Replay (R195, R196). -/

/-- The buffered commands that a replay with t0 issues again. -/
def Chan.replayed (x : Chan) (t0 : Nat) : List Issued := x.retry.filter (fun e => decide (t0 ≤ e.at_))

/-- Bank and row that a column command names. -/
def DCmd.column (c : DCmd) : Option (Nat × Nat) :=
  match c.op with | .rd b r _ | .wr b r _ => some (b, r) | _ => none

/-- The ACTs that open again the banks of column commands whose ACT came before t0, each with its stored row (R195). -/
def replayActs : List Issued → List DCmd → List DCmd → List DCmd
  | [], _, got => got
  | e :: l, acts, got =>
    match e.cmd.column with
    | none => replayActs l (match e.cmd.op with | .act _ _ => acts ++ [e.cmd] | _ => acts) got
    | some (b, r) =>
      let a : DCmd := ⟨e.cmd.sub, e.cmd.rank, .act b r⟩
      let mine (c : DCmd) : Bool := c.sub == a.sub && c.rank == a.rank && (match c.op with | .act x _ => x == b | _ => false)
      replayActs l acts (if acts.any mine || got.any mine then got else got ++ [a])

/-- The whole sequence of a replay (R195). -/
def Chan.replaySeq (x : Chan) (t0 : Nat) : List Issued :=
  let l := x.replayed t0
  let plain (c : DCmd) : Issued := ⟨c, 0, none⟩
  plain ⟨0, 0, .rcw⟩ :: [0, 1].flatMap (fun sub => x.dimm.ranks.map (fun r => plain ⟨sub, r, .preAb⟩)) ++
    (replayActs l [] []).map plain ++ l

/-- ALERT_n is sampled low (R195, R196): the channel enters REPLAY; an alert during a replay begins it again with the same
t0. A replay that issues SRE again ends in self-refresh. -/
def State.alert (s : State) (ch : Nat) : State :=
  let x := s.chan ch
  if x.st != .active && x.st != .srEntry && x.st != .selfRefresh && x.st != .replay then s
  else
    let s := (s.bump (aChCnt ch 2)).raise (aChEv ch) (bit1 2)
    let t0 := if x.st = .replay then x.t0 else x.cc - s.fld (aCh ch + 0x14) 0 8
    let back := if x.st = .replay then x.back else x.st
    let sre := (x.replayed t0).any (fun e => e.cmd.op == .sre)
    let s := s.setChan ch { x with
      st := .replay, back := if sre then .selfRefresh else back, t0 := t0, again := x.replaySeq t0, alerts := satInc x.alerts }
    s.detect 0x0C uDram ch (satInc x.alerts)

/-- A command of a replay is issued again: a read still in flight takes its data anew, a write stores its data. -/
def State.issueAgain (s : State) (ch : Nat) (e : Issued) : State :=
  let s := (s.dram ch e.cmd e.data true).modChan ch (fun x => { x with again := x.again.erase e })
  let at_ (ca : Nat) : Bool :=
    let d := (s.chan ch).dimm.decode ca
    match e.cmd.op with
    | .rd b r c | .wr b r c => d == ⟨e.cmd.sub, e.cmd.rank, b, r, c⟩
    | _ => false
  match e.cmd.op with
  | .rd _ _ _ => s.modChan ch (fun x => { x with reads := x.reads.map (fun m =>
      if m.data.isSome && at_ m.req.ca.toNat then
        { m with data := some (s.morBurst ch (m.req.ca.toNat / 64 * 64)), due := x.tck + x.tim 0x00 + burstTck } else m) })
  | .wr _ _ _ =>
    match (s.chan ch).writes.find? (fun w => w.sent.isSome && at_ w.ca), e.data with
    | some w, some v => s.morStore ch w.ca v
    | _, _ => s
  | _ => s

/-- The replay has issued everything: the channel returns to the state it left (R196, R204). -/
def State.replayDone (s : State) (ch : Nat) : State :=
  let x := s.chan ch
  if x.st != .replay || !x.again.isEmpty then s
  else if x.back = .active then s.chanActive ch
  else s.setChan ch { x with st := x.back }

/-! One controller cycle. -/

/-- The command slot of a subchannel in a controller cycle (R180): the replay, forced maintenance, the entry into self-refresh,
maintenance of ranks that nothing waits for, the requests of the first class that has any, and calibration last. -/
def State.subCycle (s : State) (ch sub : Nat) : State :=
  let x := s.chan ch
  if x.st = .replay then
    match x.again with
    | e :: _ => if e.cmd.sub = sub && x.ready e.cmd then s.issueAgain ch e else s
    | [] => s
  else if x.windowFull (s.fld (aCh ch + 0x14) 0 8) then s
  else if x.st = .srEntry then
    match (x.entryCmds sub).find? x.ready with
    | some c => s.issueMaint ch c false
    | none => s
  else if x.st = .selfRefresh && x.srxAt.isNone then s
  else match x.forced ch sub with
    | some c => if x.ready c then s.issueMaint ch c true else s
    | none =>
      match (x.unforced ch sub).find? x.ready with
      | some c => s.issueMaint ch c false
      | none =>
        let (l, aged) := s.candidates ch sub
        match l.find? (fun w => x.ready (x.nextCmd w)) with
        | some w => s.issueWant ch w aged
        | none =>
          if !l.isEmpty then s
          else match x.cal.find? (fun c => c.sub == sub) with
            | some c => if x.ready c then s.issueCal ch c else s
            | none => s

/-- A READFIRST drain opens at HIGH entries of the write queue and closes at LOW or fewer (R182). -/
def State.drainTurn (s : State) (ch : Nat) : State :=
  s.modChan ch (fun x => { x with draining := s.flag (aCh ch) 1 &&
    (if s.fld (aCh ch + 4) 8 6 ≤ x.writes.length then true
      else if x.writes.length ≤ s.fld (aCh ch + 4) 0 6 then false else x.draining) })

/-- A controller cycle of a channel whose bus runs. -/
def State.chanCycle (s : State) (ch : Nat) : State :=
  let window := s.fld (aCh ch + 0x14) 0 8
  let s := s.modChan ch (fun x => { x with
    cc := x.cc + 1
    writes := x.writes.filter (fun e => match e.sent with | some c => decide (x.cc + 1 < c + window) | none => true) })
  if !s.chanRuns ch then s
  else
    let s := ((s.refreshTick ch).replayDone ch).srEnter ch
    let s := (s.drainTurn ch).calStart ch
    let s := (s.subCycle ch 0).subCycle ch 1
    ((s.sreIssue ch).srxIssue ch).morRetry ch

/-- A number of controller cycles of a channel pass. -/
def State.chanCycles (s : State) (ch : Nat) : Nat → State
  | 0 => s
  | k + 1 => State.chanCycles (s.chanCycle ch) ch k

/-- Controller cycles of a channel pass as its clock, at a rate of `num / den` Hz, runs through one core cycle. -/
def State.chanPass (s : State) (ch num den : Nat) : State :=
  match (s.chan ch).st with
  | .off | .train | .recover => s
  | _ =>
    let x := (s.chan ch).part + s.incN * num * 2 ^ 64 / (den * 1024000000000 * 2 ^ 32)
    (s.modChan ch (fun c => { c with part := x % 2 ^ 64 })).chanCycles ch (x / 2 ^ 64)

/-! Host reads of Moraine (R133, R179). -/

/-- Whether a host read finds a slot at a channel, or waits there for the exit of self-refresh. -/
def State.hostSlot (s : State) (ch : Nat) : Bool :=
  let x := s.chan ch
  let hosts := (x.reads.filter (fun e => MorSource.isHost e.req.source)).length +
    (x.waiting.filter (fun r => MorSource.isHost r.source && r.write.isNone)).length
  decide (hosts < s.fld (aCh ch + 0xC) 0 7) && decide (x.reads.length < 64)

/-- The words of admitted Moraine READs go to their channels, in the precedence of R133, as read slots come free. -/
def State.morHostIssue (s : State) : Nat → State
  | 0 => s
  | k + 1 =>
    if s.mor.fenced then s
    else match firstDesc (s.admitted (fun d => d.st == .admitted && d.kind == 2 && bitOf d.word 255 && decide (d.asked < d.fld 256 32))) with
      | none => s
      | some (n, d) =>
        match s.morMap (d.fld 192 38 + d.asked) with
        | none => s
        | some (ch, ca) =>
          if !s.hostSlot ch then s
          else
            let s := s.modDesc n d.slot (fun d => { d with asked := d.asked + 64 })
            State.morHostIssue (s.morArrive ch ⟨.host, BitVec.ofNat 38 ca, none⟩) k

end Sys2Proof.Machine
end

