-- ==== Sys2Proof/Machine/Rates.lean ====
section
/-!
DEFINITION. Frequency points and what follows from them: oscillator ranges, INC, sample rate, output frequencies, the
control engine's cost and its conversion, the tick budget (04 R85, R87, R98, R109; 11 R307; 12 R327; 03 R58, R59).
-/

namespace Sys2Proof.Machine

/-- Register base of a PLL. -/
def aPll : Pll → Nat
  | .spll => wClk
  | .mpll => wClk + 0x40
  | .fpll => wClk + 0x80
  | .hpll => wClk + 0xC0

/-- The held words of a PLL, and its POSTDIV code (R85). -/
def State.heldPoint (s : State) (p : Pll) : Point :=
  ⟨s.fld (aPll p + 4) 0 11, s.fld (aPll p + 8) 0 28, s.fld (aPll p + 12) 0 28, s.fld (aPll p) 12 2⟩

/-- Post-divider of a code: 2 or 4. -/
def Point.div (x : Point) : Nat := if x.post = 0 then 2 else 4
/-- FCW x DEN. -/
def Point.fcwNum (x : Point) : Nat := x.n * x.den + x.num

/-- Whether a point meets R85 on a PLL with a REFSEL code: NUM below DEN, the oscillator in its range, and for the MPLL
the DRAM clock at most 3.2 GHz. Ranges are in hundredths of the reference. -/
def pointOk (p : Pll) (refsel : Nat) (x : Point) : Bool :=
  x.den != 0 && decide (x.num < x.den) &&
  match p with
  | .spll => decide (4096 * x.den ≤ 100 * x.fcwNum ∧ 100 * x.fcwNum ≤ 8192 * x.den)
  | .mpll => decide (4096 * x.den ≤ 100 * x.fcwNum ∧ 100 * x.fcwNum ≤ 2048 * x.div * x.den)
  | .fpll => if refsel = 1 then decide (x.fcwNum = 1250 * x.den) else decide (x.fcwNum = 80 * x.den)
  | .hpll => decide (100 * x.fcwNum = 6144 * x.den)

/-- INC of a point: p x DEN x 524,288 / (5 (N x DEN + NUM)) fu to the nearest 2^-32, ties up (R87). -/
def Point.inc (x : Point) : Inc :=
  let d := 5 * x.fcwNum
  BitVec.ofNat 64 ((2 * (x.div * x.den * 524288 * 2 ^ 32) + d) / (2 * d))

/-- INC during a ramp: FCW in 2^-48 (R87, R92). -/
def incOfFcw (post fcw : Nat) : Inc :=
  let d := 5 * fcw
  BitVec.ofNat 64 ((2 * (post * 524288 * 2 ^ 80) + d) / (2 * d))

/-- FCW of a point in 2^-48, rounded to nearest (R92). -/
def Point.fcw48 (x : Point) : Nat := (2 * x.fcwNum * 2 ^ 48 + x.den) / (2 * x.den)

/-- The point of a band-table entry (CLK_BT_LOAD layout). -/
def entryPoint (e : BitVec 128) : Point := ⟨bits e 57 7, bits e 29 28, bits e 1 28, bits e 64 2⟩
/-- Entry i of the band table. -/
def State.bandEntry (s : State) (i : Nat) : BitVec 128 := Tab.get (fun _ => 0) s.clk.table i
/-- VALID of a band-table entry. -/
def entryValid (e : BitVec 128) : Bool := bitOf e 127

/-- The point whose rate the part's checks and published costs take (R98): the live band point, which small steps leave as it
is, or while CD_CORE runs from the XO the one that the SPLL will next lock, which before the first lock is the held one. -/
def State.ratePoint (s : State) : Point :=
  if s.clk.spllXo && !s.clk.everLocked then s.heldPoint .spll else entryPoint (s.bandEntry s.clk.entry)

/-- Sample rate of a point as a fraction of 1 Hz: numerator and denominator (156.25 MHz x FCW / p). -/
def Point.rate (x : Point) : Nat × Nat := (156250000 * x.fcwNum, x.den * x.div)

/-! Cost of the control engine (R307, R327). -/

/-- Register base of loop slot n. -/
def aSlot (n : Nat) : Nat := wCle + 0x1000 + 0x80 * n

/-- Cost of one evaluation of a slot in CLE cycles (R307), from CLE_Sn_CFG and REP_EN. -/
def evalCost (cfg : Word) (rep : Bool) : Nat :=
  let ns := bits cfg 4 3 + 1
  let ni := bits cfg 2 2 + 1
  let no := bits cfg 0 2 + 1
  let w := if bitOf cfg 30 then 2 else 4
  6 + cdiv (ni * ns) w + cdiv (ns * (ns + no + ni)) w + cdiv (no * (ns + ni)) w + 2 + (if rep then 4 else 0)

/-- One enabled slot for the cost: DIV + 1, PHASE, cost. -/
structure CostSlot where
  per : Nat
  phase : Nat
  cost : Nat
  deriving DecidableEq, Repr

/-- Whether two slots can be due in the same tick (R307). -/
def CostSlot.meets (a b : CostSlot) : Bool :=
  let g := Nat.gcd a.per b.per
  a.phase % g == b.phase % g

/-- Largest total cost of a set of slots that can all be due in one tick (R307); fuel is the number of slots. -/
def maxCost : Nat → List CostSlot → Nat
  | 0, _ => 0
  | _, [] => 0
  | k + 1, a :: l =>
    let with_ := l.filter (fun b => a.meets b)
    if with_.length = l.length then a.cost + maxCost k l
    else max (a.cost + maxCost k with_) (maxCost k l)

/-- The enabled slots. -/
def State.costSlots (s : State) : List CostSlot :=
  (List.range 32).filterMap (fun n =>
    let c := s.reg (aSlot n)
    if bitOf c 31 then some ⟨bits c 8 8 + 1, bits c 16 8, evalCost c (s.flag (aSlot n + 0x0C) 31)⟩ else none)

/-- CLE_COST (R307). -/
def State.cleCost (s : State) : Nat := 4 + maxCost 32 s.costSlots
/-- CLE_SUP_COST (R327). -/
def State.supCost (s : State) : Nat := if s.costSlots.isEmpty then 0 else 23

/-- CLE cycles in core cycles at a point's rate plus 1,000 ppm, rounded up (R98). -/
def Point.convert (x : Point) (cle : Nat) : Nat :=
  cdiv (cle * x.fcwNum * 15625 * 1001) (1280000000 * x.div * max 1 x.den)

/-- TIME_COST_LAW at a point; 0 while no slot is enabled (R58 with 03's own figures; log 24). -/
def State.lawAt (s : State) (x : Point) : Nat := if s.costSlots.isEmpty then 0 else x.convert s.cleCost
/-- TIME_COST_SUP at a point. -/
def State.supAt (s : State) (x : Point) : Nat := x.convert s.supCost

/-- The sum of R59 with the costs of a point. -/
def State.budgetAt (s : State) (x : Point) : Nat :=
  s.commitCycles + s.lawAt x + s.orderCycles + s.supAt x + 32 + 16

/-- The published costs follow the configuration and the point (R98). -/
def State.republish (s : State) : State :=
  { s with time := { s.time with costLaw := s.lawAt s.ratePoint, costSup := s.supAt s.ratePoint } }

/-! Output frequencies (R109). -/

/-- Highest frequency of a CO format in Hz: LVDS, CML, LVCMOS; off has none. -/
def coLimit (fmt : Nat) : Option Nat :=
  if fmt = 1 then some 1600000000 else if fmt = 2 then some 6400000000 else if fmt = 3 then some 200000000 else none

/-- Whether a CO and SY configuration keeps its format's limit at a point (R109). The SY output takes LVDS for CML. -/
def outputsOk (co sy : Word) (x : Point) : Bool :=
  let (a, b) := x.rate
  let fmt := bits co 26 2
  match coLimit fmt with
  | none => true
  | some lim =>
    let sylim := if fmt = 2 then 1600000000 else lim
    decide (a ≤ lim * b * max 1 (bits co 13 13)) &&
      (bits sy 24 8 == 0 || decide (a ≤ sylim * b * 16 * max 1 (bits sy 12 12)))

/-- Reset value of a CO configuration: off, DIV 1. -/
def coReset : Word := 0x00002000
/-- Reset value of a SY configuration: SYDIV 16. -/
def syReset : Word := 0x00010000

/-- Live CO configuration k (R110). -/
def State.coLiveAt (s : State) (k : Nat) : Word := Tab.get (fun _ => coReset) s.clk.coLive k
/-- Live SY configuration k. -/
def State.syLiveAt (s : State) (k : Nat) : Word := Tab.get (fun _ => syReset) s.clk.syLive k

/-- The live point and every stored one (R109). -/
def State.knownPoints (s : State) : List Point :=
  s.ratePoint :: ((List.range 64).filterMap (fun i =>
    if entryValid (s.bandEntry i) then some (entryPoint (s.bandEntry i)) else none))

end Sys2Proof.Machine
end

