-- ==== Sys2Proof/Machine/Inc.lean ====
section
/-!
DEFINITION. The SPLL's frequency as time passes: phase steps, small-step ramps, INC, reference periods, and where core-cycle
boundaries and sample edges to come stand in fabric time (04 R87, R92, R100, R102; 03 R64, R66).
-/

namespace Sys2Proof.Machine

/-- Change a PLL. -/
def State.modPll (s : State) (p : Pll) (f : PllS → PllS) : State := s.setPll p (f (s.pll p))
/-- Change the clock block. -/
def State.modClk (s : State) (f : Clk → Clk) : State := { s with clk := f s.clk }
/-- Index of a PLL as a unit (R372). -/
def pllIndex : Pll → Nat
  | .spll => 0
  | .mpll => 1
  | .fpll => 2
  | .hpll => 3
/-- REFSEL of a PLL. -/
def State.refsel (s : State) (p : Pll) : Nat := s.fld (aPll p) 14 2

/-! The phase-step accumulator (R100), held in 1/16 fu. -/

/-- The bound of the accumulator in 1/16 fu. -/
def pendMax : Int := 8388607 * 16
/-- Limit to the accumulator's range. -/
def pendClamp (v : Int) : Int := max (-pendMax) (min pendMax v)
/-- The remainder in whole fu, as CLK_SPLL_PSTEP_PEND shows it: toward zero. -/
def State.pendFu (s : State) : Int := s.clk.pend.tdiv 16
/-- Add a step in fu, limited to the accumulator's range. -/
def State.pendAdd (s : State) (n : Int) : State := s.modClk (fun c => { c with pend := pendClamp (c.pend + 16 * n) })
/-- Whether a written step keeps the accumulator in range. -/
def State.pendFits (s : State) (n : Int) : Bool := decide ((s.clk.pend + 16 * n).natAbs ≤ pendMax.natAbs)

/-- One SPLL reference edge drains the accumulator by PSLEW (R100): LOCKED, and no hop in progress. -/
def State.pendDrain (s : State) : State :=
  if s.clk.spll.st != .locked || s.clk.hop.isSome then s
  else
    let r : Int := s.fld (wClk + 0x110) 0 7
    let p := s.clk.pend
    s.modClk (fun c => { c with pend := if 0 < p then max 0 (p - r) else min 0 (p + r) })

/-! Ramps and INC (R87, R92). -/

/-- One increment of a ramp: the whole way in equal parts, rounded to 2^-48 (R92). -/
def Ramp.increment (r : Ramp) : Int :=
  (2 * ((r.target.fcw48 : Int) - r.start) + (max 1 r.steps : Nat)) / (2 * (max 1 r.steps : Nat) : Nat)

/-- One SPLL reference edge moves a ramp by one increment; the last lands on the written value (R92). -/
def State.rampEdge (s : State) : State :=
  match s.clk.ramp with
  | none => s
  | some r =>
    let k := r.done + 1
    if r.steps ≤ k then s.modClk (fun c => { c with fcw := r.target.fcw48, point := r.target, ramp := none })
    else s.modClk (fun c => { c with
      fcw := ((r.start : Int) + r.increment * k).toNat, ramp := some { r with done := k } })

/-- The INC that the clock block holds for the time block (R87). -/
def State.incGoal (s : State) : Inc :=
  if s.clk.spllXo then incXo
  else if s.clk.fcw = s.clk.point.fcw48 then s.clk.point.inc
  else incOfFcw s.clk.point.div s.clk.fcw

/-- Reference edges that fall in one core cycle: one per 6,553.6 fu (R87), the phase kept in 2^-32/5 fu. -/
def State.refEdges (s : State) : Nat × State :=
  let a := s.clk.refAcc + 5 * s.incN
  (a / 2 ^ 47, s.modClk (fun c => { c with refAcc := a % 2 ^ 47 }))

/-- Edges of the 10 MHz reference, one per 102,400 fu, that fall in one core cycle. -/
def State.slowEdges (s : State) : Nat :=
  (s.ftN + s.incN) / (102400 * 2 ^ 32) - s.ftN / (102400 * 2 ^ 32)

/-- `n` reference periods of a PLL end: while it is in LOCKED or ACQUIRE with its reference there, each has its phase error,
a free value of the analog loop (R101, R102; log 35). -/
def PllS.measure (x : PllS) (p n : Nat) : PllS :=
  if n ≠ 0 && x.refOk && (x.st == .locked || x.st == .acquire) then
    { x with periods := x.periods + n, phaseErr := Config.tdcErr p (x.periods + n) }
  else x

/-- The reference periods of every PLL that end in one core cycle. -/
def State.measureAll (s : State) (n : Nat) : State :=
  let slow := s.slowEdges
  [Pll.spll, Pll.mpll, Pll.fpll, Pll.hpll].foldl (fun s p =>
    s.modPll p (fun x => x.measure (pllIndex p) (if p = .fpll && s.refsel .fpll == 1 then slow else n))) s

/-- The clock block's share of a core cycle: reference edges drain the accumulator and move the ramp; INC follows at the
next core-cycle boundary. -/
def State.clkCycle (s : State) : State :=
  let (n, s) := s.refEdges
  (s.measureAll n).each (List.range n) (fun s _ => s.pendDrain.rampEdge)

/-- Load INC into the time block (R87); the core cycle from which a new INC holds is kept. -/
def State.loadInc (s : State) : State :=
  let g := s.incGoal
  { s with time := { s.time with
      inc := g
      anchors := if g = s.time.inc then s.time.anchors else (s.time.core, s.time.ft, g) :: s.time.anchors } }

/-! Boundaries and edges to come (R64, R66). -/

/-- Whether INC stays as it is: no ramp and no hop is under way. -/
def State.steady (s : State) : Bool := s.clk.ramp.isNone && s.clk.hop.isNone

/-- A hop whose W has come, as the part projects it: it switches over (DESIGN CHOICE, log 36: the decision of R95 is not
known before it is taken). -/
def State.hopAhead (s : State) : State :=
  match s.clk.hop with
  | some h =>
    if h.w.toNat ≤ s.ftN then
      let x := entryPoint (s.bandEntry h.target)
      s.modClk (fun c => { c with hop := none, point := x, fcw := x.fcw48, ramp := none })
    else s
  | none => s

/-- The clocks and FT at the next core-cycle boundary, everything else left as it is. -/
def State.clkPass (s : State) : State :=
  let s := s.clkCycle
  let s := { s with time := { s.time with ft := s.time.ft + s.time.inc.setWidth 112 } }
  s.hopAhead.loadInc

/-- The clocks and FT at the `k`-th core-cycle boundary from the present one. -/
def State.clksAhead (s : State) : Nat → State
  | 0 => s
  | k + 1 =>
    if s.steady then
      let g := s.incGoal
      { s with time := { s.time with
          ft := s.time.ft + s.time.inc.setWidth 112 + BitVec.ofNat 112 (k * g.toNat), inc := g } }
    else State.clksAhead s.clkPass k

/-- FT with fraction at the `k`-th core-cycle boundary from the present one. -/
def State.ftAhead (s : State) (k : Nat) : Nat := (s.clksAhead k).ftN

/-- How many core cycles a ramp or a hop in progress can still last. -/
def State.unsteady (s : State) : Nat :=
  (match s.clk.ramp with | some r => 4 * (r.steps - r.done) + 4 | none => 0) + (if s.clk.hop.isSome then 800 else 0)

/-- The number of whole core cycles from the present boundary to a time, and the clocks at the boundary before it: the core
cycle that holds the time begins there. A time that has passed counts as the present cycle's. -/
def State.cycleOf (s : State) (t : Nat) : Nat → Nat × State
  | 0 =>
    let k := (t - s.ftN) / max 1 s.incN
    (k, s.clksAhead k)
  | f + 1 =>
    if t < s.ftN + s.incN then (0, s)
    else if s.steady then
      let k := 1 + (t - (s.ftN + s.incN)) / max 1 s.incGoal.toNat
      (k, s.clksAhead k)
    else
      let (k, u) := State.cycleOf s.clkPass t f
      (k + 1, u)

/-- The number of whole core cycles from the present boundary to a time with fraction. -/
def State.cyclesTo (s : State) (t : Nat) : Nat := (s.cycleOf t (s.unsteady + 1)).1

/-- The clocks as they stood in a core cycle that has passed: its number, FT and INC from the anchor before it. -/
def anchorOf (c : Nat) : List (Nat × FTime × Inc) → Option (Nat × FTime × Inc)
  | [] => none
  | a :: l => if a.1 ≤ c then some a else anchorOf c l

/-- FT with fraction of an edge: a coming one from the clocks ahead, a past one from the INC that held then. -/
def State.edgeN (s : State) (e : Nat) : Int :=
  if s.now * 16 ≤ e then
    let u := s.clksAhead (e / 16 - s.now)
    (u.ftN : Int) + (e % 16) * u.incN / 16
  else
    let (c, ft, inc) := (anchorOf (e / 16) s.time.anchors).getD (s.now, s.time.ft, s.time.inc)
    (ft.toNat : Int) + ((e : Int) - c * 16) * inc.toNat / 16

/-- FT count of an edge. -/
def State.ftOfEdge (s : State) (e : Nat) : BitVec 64 := BitVec.ofInt 64 (s.edgeN e / 2 ^ 32)

/-- FT of an edge with its epoch. -/
def State.ft80OfEdge (s : State) (e : Nat) : FT80 := BitVec.ofInt 80 (s.edgeN e / 2 ^ 32)

/-- The edge of the first fast sample whose FT is at or after a time (R66), at whichever rate that edge belongs to; a time
that has passed is placed by the INC that held then. -/
def State.edgeOfFt (s : State) (t : FT80) : Nat :=
  let tn := ftScale t
  if s.ftN ≤ tn then
    let (k, u) := s.cycleOf tn (s.unsteady + 1)
    (s.now + k) * 16 + cdiv ((tn - u.ftN) * 16) (max 1 u.incN)
  else
    match s.time.anchors.find? (fun a => decide (a.2.1.toNat ≤ tn)) with
    | some (c, ft, inc) => min (s.now * 16) (c * 16 + cdiv ((tn - ft.toNat) * 16) (max 1 inc.toNat))
    | none => s.now * 16 - (s.ftN - tn) * 16 / max 1 s.incN

/-- The FT of the first core-cycle boundary at or after a time, with fraction. -/
def State.boundaryAt (s : State) (t : Nat) : Nat :=
  if t ≤ s.ftN then s.ftN
  else
    let (_, u) := s.cycleOf t (s.unsteady + 1)
    if u.ftN = t then t else u.ftN + u.incN

end Sys2Proof.Machine
end

