-- ==== Sys2Proof/Machine/Place.lean ====
section
/-!
DEFINITION. Where orders stand among the ticks: the tick grid ahead, admission, resolution, the precedence of immediate actions,
and the flush after the last tick (03 R64, R67 to R74, R84; 05 R134, R136).
-/

namespace Sys2Proof.Machine

/-! The tick grid (R57, R64). -/

/-- The edge at which the current tick began. -/
def State.tickEdge (s : State) : Nat := (s.now - s.time.cycle) * 16
/-- The edge at which the current tick ends. -/
def State.tickEndEdge (s : State) : Nat := (s.now - s.time.cycle + s.time.period) * 16
/-- Sample index within the current tick of an edge. -/
def State.tickSample (s : State) (e : Nat) : Nat := e - s.tickEdge

/-- TIME_START_FT. -/
def State.startFt (s : State) : FT80 :=
  ((s.reg (wTime + 0x18)).setWidth 16 : BitVec 16) ++ (s.reg (wTime + 0x14) ++ s.reg (wTime + 0x10))

/-- Core cycles from the present boundary to the one at which the next tick begins; while no tick runs, to the one at which a
first tick would begin (DESIGN CHOICE, log 39: TICK_RUN need not be 1 yet). -/
def State.nextTickIn (s : State) : Nat :=
  if s.time.running then s.time.period - s.time.cycle
  else
    let t := ftScale s.startFt
    if t ≤ s.ftN then 1
    else
      let (k, u) := s.cycleOf t (s.unsteady + 1)
      if u.ftN = t then k else k + 1

/-- Core cycles from the present boundary to the beginning of the tick `r` ticks after the next one begins. -/
def State.tickIn (s : State) (r : Nat) : Nat := s.nextTickIn + r * s.tickPeriod

/-- FT with fraction at which the next tick begins. -/
def State.nextTickN (s : State) : Nat := s.ftAhead s.nextTickIn

/-- How many ticks after the current one a time falls, from the grid and TICK_PERIOD live now (R64, R69); 0 for the current
tick or an earlier one, or for a time before the first tick while none runs. -/
def State.ticksAhead (s : State) (t : Nat) : Nat :=
  let k := s.cyclesTo t
  if t < s.ftN || decide (k < s.nextTickIn) then 0 else 1 + (k - s.nextTickIn) / max 1 s.tickPeriod

/-- Core cycles from the present boundary to the order phase of the tick `r` ticks after the current one (R58); negative where
it has begun. -/
def State.phaseIn (s : State) (r : Nat) : Int :=
  if r = 0 then (s.time.c2 : Int) - s.time.cycle
  else s.tickIn (r - 1) + s.commitCycles + s.time.costLaw

/-- FT with fraction at which the order phase began that resolved a past or current tick's orders; `none` where no phase
did. -/
def phaseBefore (t : Nat) : List (FTime × Option FTime) → Option Nat
  | (a, _) :: (b, p) :: l => if a.toNat ≤ t then p.map (·.toNat) else phaseBefore t ((b, p) :: l)
  | _ => none

/-- FT with fraction at which the order phase of the tick `r` ticks after the current one begins or began. -/
def State.phaseN (s : State) (r : Nat) : Nat :=
  let k := s.phaseIn r
  if 0 ≤ k then s.ftAhead k.toNat
  else match s.time.begun with
    | (_, some p) :: _ => p.toNat
    | _ => s.ftN - k.natAbs * s.incN

/-! Admission (R67 to R69, R134). -/

/-- The ticks after the current one before that an ASAP order acts that arrives `k` core cycles from now: it takes effect
in the tick after the next order phase (R66). -/
def State.asapAhead (s : State) (k : Nat) : Nat :=
  if s.time.running && decide ((k : Int) < s.phaseIn 0) then 1
  else if (k : Int) < s.phaseIn 1 then 2
  else 3 + (k - (s.phaseIn 1).toNat) / max 1 s.tickPeriod

/-- The number of the tick `r` ticks after the current one, or of the r-th tick from now on while none runs (R69). -/
def State.tickNo (s : State) (r : Nat) : Nat := if s.time.running then s.tickIdx + r else s.time.ticks.toNat + r - 1

/-- The time test of a target that reaches the queue `k` core cycles from now (R67): whether it is late, with its delay in
fu, and the tick it counts against (R69). -/
def State.ordLate (s : State) (t : Option FT80) (k : Nat) : Option Nat × Option Nat :=
  match t with
  | none => (none, some (s.tickNo (s.asapAhead k)))
  | some t =>
    let tn := ftScale t
    let a := s.ftAhead k
    let r := s.ticksAhead tn
    if s.time.running then
      if r = 0 then (some (match phaseBefore tn s.time.begun with | some p => (a - p) / 2 ^ 32 | none => 0), none)
      else if s.phaseIn (r - 1) ≤ k then (some ((a - s.phaseN (r - 1)) / 2 ^ 32), none)
      else (none, some (s.tickNo r))
    else if tn < a then (some 0, none)
    else (none, if r = 0 then none else some (s.tickNo r))

/-- Targets on their way to the queue. -/
def State.inboundTargets (s : State) : List Ord :=
  s.time.inbound.flatMap (fun i => (List.range 24).filterMap (fun n =>
    if bitOf i.mask n then some { i.ord with chan := n } else none))

/-- Whether the queue of R69 refuses one more target that counts against a tick, with `k` targets before it. -/
def State.queueBusy (s : State) (k : Nat) (tick : Option Nat) : Bool :=
  let held := s.time.queue ++ s.inboundTargets
  decide (512 ≤ held.length + k) ||
    match tick with
    | some i => decide (4 * s.orderCycles ≤ (held.filter (fun o => o.tick == some i)).length + k)
    | none => false

/-- The tests of R134 from test 2 on for one target that reaches the queue `a` core cycles from now: the status and delay that
refuse it, or the tick it counts against. `k` targets of its own order stand before it. -/
def State.ordTests (s : State) (o : Ord) (a k : Nat) : Except (Nat × Nat) (Option Nat) :=
  if s.seqRetired o.chan then .error (sRetired, 0)
  else if (o.t.isSome && !s.time.ftValid) || (o.src = .fabric && !s.time.locked) then .error (sUnlocked, 0)
  else
    let (late, tick) := s.ordLate o.t a
    if s.queueBusy k tick then .error (sBusy, 0)
    else match late with
      | some d => .error (sLate, d)
      | none => .ok tick

/-! The order phase (R67 to R73, R231). -/

/-- Resolve one target's contenders: losers complete SUPERSEDED naming the winner; all of them complete REJECTED_CONFIG with AUX
7 where their channel is OFF (R231). -/
def State.resolveTarget (s : State) (o : Ord) (l : List Ord) : State :=
  let w := ordWinner o l
  if (s.seq w.chan).st = .off then s.each (o :: l) (fun s x => s.finishOrd x sConfig 0 7)
  else
    let s := s.each (o :: l) (fun s x =>
      if x = w then s else s.finishOrd x sSuperseded 0 0 (OrdSrc.code w.src) (if w.src = .fabric then w.node else s.node))
    { s with time := { s.time with resolved := s.time.resolved ++ [Acting.ofOrd w] } }

/-- Group contenders by target, in order of first appearance. -/
def State.resolveAll (s : State) : Nat → List Ord → State
  | 0, _ => s
  | _, [] => s
  | k + 1, o :: l =>
    State.resolveAll (s.resolveTarget o (l.filter (fun x => x.sameTarget o))) k (l.filter (fun x => !x.sameTarget o))

/-- Where a queued order stands in the order phase that ends now: 0 it stays, 1 it is due in the next tick, 2 its time falls
before the next tick, so no phase is left for it (R67). -/
def State.ordClass (s : State) (next after : Nat) (o : Ord) : Nat :=
  match o.t with
  | none => if o.arrival + s.time.cycle < s.now + s.time.c2 then 1 else 0
  | some t => if ftScale t < next then 2 else if ftScale t < after then 1 else 0

/-- The order phase at its end c3 (R67 to R73): orders of the previous tick complete; targets effective in the next tick
are resolved, at most 4 x the ORDER_CYCLES of this tick; a queued order whose tick has no phase left is late. -/
def State.orderPhase (s : State) : State :=
  let done := s.time.closing
  let s := { s with time := { s.time with closing := [] } }
  let s := s.each done (fun s a => s.finishOrd a.ord a.status.toNat a.delay.toNat 0 a.winSrc.toNat a.winNode)
  let cls := s.ordClass s.nextTickN (s.ftAhead (s.tickIn 1))
  let due := s.time.queue.filter (fun o => cls o == 1)
  let missed := s.time.queue.filter (fun o => cls o == 2)
  let keep := s.time.queue.filter (fun o => cls o == 0)
  let limit := 4 * s.time.orderLen
  let s := { s with time := { s.time with queue := keep } }
  let s := s.each missed (fun s o => s.finishOrd o sLate 0 0)
  let s := s.each (due.drop limit) (fun s o => s.finishOrd o sBusy 0 0)
  s.resolveAll due.length (due.take limit)

/-! Immediate actions (R70 to R74). -/

/-- Whether two edges from the current tick on fall in the same tick, the current one or the next. -/
def State.sameTick (s : State) (e f : Nat) : Bool :=
  s.time.running && decide (e < s.tickEndEdge) == decide (f < s.tickEndEdge)

/-- Whether an immediate action holds the target of another one against it, at an edge (R70, R71; 08 R226): a higher-ranking
class in the same tick; in one class a later edge of the tick, or on one edge a lower trigger number. -/
def State.immBeats (s : State) (m : Imm) (src : ImmSrc) (e trig : Nat) : Bool :=
  if m.src ≠ src then decide (m.src.code < src.code) && s.sameTick m.edge e
  else if m.edge ≠ e then decide (e < m.edge) && s.sameTick m.edge e
  else decide (m.trig < trig)

/-- Whether an immediate action that is known keeps one from acting at its edge: a higher class in its tick, or on the same edge
a lower trigger number. An action that a later one of its own class follows in the tick still acts. -/
def State.immMutes (s : State) (m : Imm) (src : ImmSrc) (e trig : Nat) : Bool :=
  s.immBeats m src e trig && (m.src != src || m.edge == e)

/-- The immediate actions known on a target. -/
def State.imms (s : State) (chan lane : Nat) : List Imm := s.time.imm.filter (fun m => m.chan == chan && m.lane == lane)

/-- An immediate action claims its target for the edge of its effect (R70, R73): each one that loses is counted once. -/
def State.claim (s : State) (src : ImmSrc) (chan lane e trig : Nat) : State :=
  let l := s.imms chan lane
  let lost := l.any (fun m => s.immBeats m src e trig)
  let loses (m : Imm) : Bool := m.chan == chan && m.lane == lane && !s.immBeats m src e trig &&
    (m.edge == e && m.src == src || s.sameTick m.edge e)
  let s := s.bumpBy (wTime + 0x50) ((l.filter (fun m => loses m && !m.lost)).length + b01 lost)
  { s with time := { s.time with
      imm := s.time.imm.map (fun m => if loses m then { m with lost := true } else m) ++ [⟨src, chan, lane, e, trig, lost⟩] } }

/-- An immediate action takes effect on a target at an edge of the current tick (R72): the committed orders on it are
superseded. One that has acted held its target up to the first action that overrode it; the latest action names the winner. -/
def State.override (s : State) (src : ImmSrc) (chan lane e : Nat) : State :=
  let past (a : Acting) : Acting :=
    if a.ord.chan == chan && a.ord.lane == lane then
      { a with
        status := BitVec.ofNat 8 sSuperseded, winSrc := BitVec.ofNat 3 src.code, winNode := s.node
        delay := if a.status = BitVec.ofNat 8 sSuperseded || a.actedAt.isNone then a.delay
          else BitVec.ofInt 64 ((s.edgeN e - a.heldFrom) / 2 ^ 32) }
    else a
  { s with time := { s.time with acting := s.time.acting.map past } }

/-! The flush (R84). -/

/-- The flush of R84 after the last tick: queued orders are late with delay zero, orders of the last tick complete with
the code they earned, pending sets are late, and a split set is late with SPLIT_COMMIT. -/
def State.flushTicks (s : State) : State :=
  let q := s.time.queue
  let closing := s.time.closing ++ s.time.acting
  let sets := s.time.sets
  let late := s.time.resolved
  let split := s.time.commits
  let s := { s with time := { s.time with
    queue := [], closing := [], acting := [], resolved := [], sets := [], commits := [], flush := none } }
  let s := s.each closing (fun s a => s.finishOrd a.ord a.status.toNat a.delay.toNat 0 a.winSrc.toNat a.winNode)
  let s := s.each late (fun s a => s.finishOrd a.ord sLate 0 0)
  let s := s.each q (fun s o => s.finishOrd o sLate 0 0)
  let s := s.each sets (fun s x => s.setCpl x sLate 0 0 false 0)
  s.each split (fun s c => s.setCpl c.set sLate 0 0 true c.ticks)

end Sys2Proof.Machine
end

