-- ==== Sys2Proof/Machine/Lines.lean ====
section
/-!
DEFINITION. Event inputs, trigger edges, lines with their marker states and patterns, and the shapers of the
complementary pairs (09 R241 to R256; 08 R226).
-/

namespace Sys2Proof.Machine

/-- MKR_EIN_CFGi. -/
def aEin (i : Nat) : Nat := wMkr + 0x100 + 4 * i
/-- MKR_PAIRk. -/
def aPair (k : Nat) : Nat := wMkr + 0x200 + 4 * k
/-- MKR_PAIR_CNTk. -/
def aPairCnt (k : Nat) : Nat := wMkr + 0x280 + 4 * k
/-- MKR_IGNORED. -/
def aMkrIgnored : Nat := wMkr + 0x300
/-- MKR_TOMB_HITS. -/
def aMkrTomb : Nat := wMkr + 0x304
/-- MKR_EVENTS. -/
def aMkrEvents : Nat := wMkr + 0x310
/-- MKR_Ln_CFG; the pattern registers follow it. -/
def aLine (l : Nat) : Nat := wMkr + 0x1000 + 0x20 * l
/-- SEQ_TRIGt of sequencer n. -/
def aTrig (n t : Nat) : Nat := wSeq n + 0x60 + 4 * t

/-! Edges and triggers. -/

/-- A change of an external source of the TLA at an edge (R265); an edge before the current core cycle counts at its
first sample. -/
def State.extChange (s : State) (code : Nat) (level : Bool) (e : Nat) : State :=
  { s with mkr := { s.mkr with
      ext := s.mkr.ext ++ [⟨code, if e < s.now * 16 then 0 else e % 16, level⟩] } }

/-- Whether SEQ_TRIG takes an edge of a source (R226): EN, KIND, INDEX and EDGE. -/
def trigTakes (v : Word) (kind index : Nat) (rise : Bool) : Bool :=
  bitOf v 31 && bits v 29 2 == kind && bits v 23 6 == index &&
    (if rise then bitOf v 21 else bitOf v 22)

/-- An edge enters the path to the triggers; its effect falls at sample `idx` of core cycle `due` (R226, R74). -/
def State.trigEdges (s : State) (kind index : Nat) (rise : Bool) (due idx : Nat) : State :=
  { s with mkr := { s.mkr with edges := s.mkr.edges ++ [⟨kind, index, rise, due, idx, false⟩] } }

/-- The action that an edge has for trigger t of sequencer n, from SEQ_TRIG as it stands (R226). -/
def State.edgeAction (s : State) (x : TEdge) (n t : Nat) : Option Sched :=
  let v := s.reg (aTrig n t)
  if trigTakes v x.kind x.index x.rise then some ⟨x.kind, x.due, x.sample, n, t, bits v 18 3, bits v 0 3, false⟩ else none

/-- The actions of an edge, by sequencer and trigger. -/
def State.edgeActions (s : State) (x : TEdge) : List Sched :=
  (List.range 24).flatMap (fun n => (List.range 8).filterMap (fun t => s.edgeAction x n t))

/-- The edges whose core cycle k + 6 has come are decoded (R74). -/
def State.decodeEdges (s : State) : State :=
  let due (x : TEdge) : Bool := !x.decoded && decide (x.due ≤ s.now + 6)
  let l := (s.mkr.edges.filter due).flatMap s.edgeActions
  { s with mkr := { s.mkr with
      sched := s.mkr.sched ++ l
      edges := (s.mkr.edges.filter (fun x => decide (s.now ≤ x.due))).map
        (fun x => if due x then { x with decoded := true } else x) } }

/-- SEQ_TRIGt of sequencer n becomes live with its scope: it governs the actions that take effect from now on, those on their
way included (R80). -/
def State.trigRedo (s : State) (n t : Nat) : State :=
  let l := (s.mkr.edges.filter (fun x => x.decoded && decide (s.now ≤ x.due))).filterMap (fun x => s.edgeAction x n t)
  { s with
    mkr := { s.mkr with sched := s.mkr.sched.filter (fun x => !(x.seq == n && x.trig == t)) ++ l }
    time := { s.time with imm := s.time.imm.filter (fun m =>
      !(m.src == .event && m.chan == n && m.trig == t && decide (s.now * 16 ≤ m.edge))) } }

/-- An EVENT record waits for the core cycle in which its edge's effect crosses the boundary (R74). -/
def State.recordAt (s : State) (due : Nat) (l : List Word) : State :=
  { s with mkr := { s.mkr with recs := s.mkr.recs ++ [(due, l)] } }

/-- EVENT records whose core cycle has come are posted (R74, R244). -/
def State.recordsPost (s : State) : State :=
  let l := s.mkr.recs.filter (fun x => decide (x.1 ≤ s.now))
  let s := { s with mkr := { s.mkr with recs := s.mkr.recs.filter (fun x => !decide (x.1 ≤ s.now)) } }
  s.each l (fun s x => s.postEvt 0x04 x.2)

/-- Live MKR_EIN_CFGi (R242). -/
def State.einCfg (s : State) (i : Nat) : Word := Tab.get (fun _ => 0) s.mkr.einCfg i

/-- A pin level of an event input as its consumers see it (R242). -/
def einSeen (cfg : Word) (pin : Bool) : Bool := bitOf cfg 31 && (pin != bitOf cfg 30)

/-- The level of Ei at the latest sample. -/
def State.einLevel (s : State) (i : Nat) : Bool := einSeen (s.einCfg i) (bitOf s.mkr.pins i)

/-- The edges among the sixteen levels of a core cycle, after a level: sample and new level. -/
def levelEdges (l : BitVec 16) (prev : Bool) : Nat → List (Nat × Bool)
  | 0 => []
  | k + 1 =>
    let i := 15 - k
    let now := bitOf l i
    (if now != prev then [(i, now)] else []) ++ levelEdges l now k

/-- EVENT record of an event input (R243, R244): its first recorded edge and how many more follow. -/
def State.einRecord (s : State) (i : Nat) (edges : List (Nat × Bool)) : State :=
  let rec_ := bits (s.einCfg i) 28 2
  let l := edges.filter (fun e => if e.2 then rec_ % 2 == 1 else decide (2 ≤ rec_))
  match l with
  | [] => s
  | (k, up) :: more =>
    let ft := s.ftOfEdge (s.fastNow k)
    s.recordAt (s.now + 12) [BitVec.ofNat 32 (b01 (!up) * 2 ^ 17 + 0x100 + i), ft.setWidth 32, (ft >>> 32).setWidth 32,
      BitVec.ofNat 32 more.length, 0]

/-- The sixteen samples of an event input's pin in the current core cycle (R241): triggers and the TLA see every edge. -/
def State.inputLevels (s : State) (i : Nat) (pin : BitVec 16) : State :=
  let cfg := s.einCfg i
  let seen : BitVec 16 := BitVec.ofNat 16 ((List.range 16).foldl (fun a j => a + b01 (einSeen cfg (bitOf pin j)) * 2 ^ j) 0)
  let edges := levelEdges seen (s.einLevel i) 16
  let s := s.each edges (fun s e =>
    (s.trigEdges 0 i e.2 (s.now + 12) e.1).extChange i e.2 (s.fastNow e.1))
  let s := { s with mkr := { s.mkr with pins := putBits s.mkr.pins i 1 (b01 (bitOf pin 15)) } }
  s.einRecord i edges

/-- Level of TLA output `o` at an edge of the current core cycle, as consumers see it. -/
def State.tlaOut (s : State) (o e : Nat) : Bool :=
  match (s.mkr.outNow.filter (fun v => v.output == o && decide (v.idx ≤ e % 16))).getLast? with
  | some v => v.level
  | none => bitOf s.mkr.outs o

/-! Patterns (R249 to R251). -/

/-- The pending pattern of a line. -/
def State.patPending (s : State) (l : Nat) : Pat :=
  ⟨s.reg (aLine l + 4), s.reg (aLine l + 8), s.reg (aLine l + 12), s.reg (aLine l + 16)⟩

/-- Whether a pattern lies in Moraine. -/
def Pat.mor (p : Pat) : Bool := bitOf p.store 31
/-- Bytes of a pattern. -/
def Pat.bytes (p : Pat) : Nat := cdiv p.len.toNat 8
/-- Samples per bit. -/
def Pat.bitdiv (p : Pat) : Nat := max 1 (bits p.time 0 15)
/-- Byte address of a pattern. -/
def Pat.byteAddr (p : Pat) : Nat := p.addr.toNat * 64
/-- Whether a Firn pattern ends within Firn (R250). -/
def Pat.inFirn (p : Pat) : Bool := p.mor || decide (p.byteAddr + p.bytes ≤ 2 ^ 27)

/-- The stream context of a line's group (R250). -/
def lineStream (l : Nat) : Nat := 24 + l / 8

/-- Index of the bit that plays at an edge, wraps included. -/
def Line.bitAt (x : Line) (e : Nat) : Nat := (e - x.start) / x.use.bitdiv

/-- Words of a pattern. -/
def Pat.words (p : Pat) : Nat := cdiv p.bytes 64

/-- The Firn word that holds word `i` of a pattern: of a Moraine pattern, its staging regions take what its stream reads from
word `from_` on (R249, R250). -/
def Pat.wordOf (p : Pat) (from_ i : Nat) : Nat :=
  if p.mor then bits p.store 0 15 * 64 + (i - from_) % (max 1 (bits p.store 16 15) * 64) else p.addr.toNat + i

/-! Readers (06 R157, R169; 07 R201, R203). -/

/-- A word of Firn as a reader holds it. -/
def State.heldWord (s : State) (port w : Nat) : Held × State :=
  match s.portRead port w with
  | (.word v, s) => ((v, 0), s)
  | (.ue, s) => ((0, 2), s)
  | (.retired, s) => ((0, 3), s)

/-- Word i of a stream's data as its reader takes it from word `w` of the staging region: `none` where it is not staged yet; past
the fill of a stream that was aborted it never comes. -/
def State.stagedWord (s : State) (port str : Nat) (whole : Bool) (w i : Nat) : Option Held × State :=
  let x := s.stream str
  let upTo (s : State) (k : Nat) : State := s.setStream str { s.stream str with consumed := max (s.stream str).consumed (64 * k) }
  if whole then let (h, s) := s.heldWord port w; (some h, s)
  else if 64 * i < x.fill then let (h, s) := s.heldWord port w; (some h, upTo s (i + 1))
  else if x.st = .aborted then (some (0, 4), s)
  else (none, upTo s i)

/-- The reader port of a line's group. -/
def linePort (l : Nat) : Nat := 24 + l / 8

/-- Why byte `b` of the pattern in use is missing: the cause code of R232 (R250, R251); `none` where it is there. -/
def State.patMiss (s : State) (l b : Nat) : Option Nat :=
  let x := s.line l
  let i := b / 64
  let of (h : Option Held) (gone : Nat) : Option Nat := match h with
    | some (_, 0) => none
    | some (_, c) => some c
    | none => some gone
  if x.beyond then some 6
  else if x.starved then some 5
  else if i < 8 then of x.useChip[i]? 5
  else of (if i < x.wordAt then none else x.words[i - x.wordAt]?)
    (if !x.use.mor then 5 else if x.feed = .live && (s.stream (lineStream l)).st == .aborted then 4 else 1)

/-- Byte `b` of the pattern in use. -/
def State.patByte (s : State) (l b : Nat) : Byte :=
  let x := s.line l
  let i := b / 64
  let h := if i < 8 then x.useChip[i]? else x.words[i - x.wordAt]?
  ((h.map (fun h => h.1)).getD 0 >>> (8 * (b % 64))).setWidth 8

/-- Bit `i` of the pattern in use, wraps included. -/
def State.patBit (s : State) (l i : Nat) : Bool :=
  let j := i % max 1 (s.line l).use.len.toNat
  bitOf (s.patByte l (j / 8)) (j % 8)

/-- Why bit `i` is missing. -/
def State.patMissBit (s : State) (l i : Nat) : Option Nat :=
  s.patMiss l (i % max 1 (s.line l).use.len.toNat / 8)

/-- The last bit delivered among the `k` bits before bit `i`, else the one held from before (HOLD, R251). -/
def State.patHold (s : State) (l i : Nat) : Nat → Bool
  | 0 => (s.line l).held
  | k + 1 =>
    if i = 0 then (s.line l).held
    else if (s.patMissBit l (i - 1)).isNone then s.patBit l (i - 1)
    else State.patHold s l (i - 1) k

/-- The pattern value at an edge: the bit, what the UNDERRUN policy puts for a missing bit, or the idle value while no
pattern plays. -/
def State.patValue (s : State) (l e : Nat) : Bool :=
  let x := s.line l
  if e < x.start then bitOf x.tail (e % 16)
  else if !x.playing then false
  else
    let i := x.bitAt e
    match s.patMissBit l i with
    | none => s.patBit l i
    | some _ => if bitOf x.cfg 10 then false else s.patHold l i 8

/-- Post an UNDERRUN record (R234, R251). -/
def State.underrunRecord (s : State) (entry policy seq cause count : Nat) (first : BitVec 64) (detail : Nat) : State :=
  s.postEvt 0x05 [BitVec.ofNat 32 (entry * 2 ^ 16 + policy * 2 ^ 13 + seq * 2 ^ 8 + cause),
    BitVec.ofNat 32 (min 0xFFFFFFFF count), first.setWidth 32, (first >>> 32).setWidth 32, BitVec.ofNat 32 detail]

/-- The episode of a line ends (R251). -/
def State.lineEpisodeEnd (s : State) (l : Nat) : State :=
  match (s.line l).episode with
  | none => s
  | some ep =>
    let s := (s.modLine l (fun x => { x with episode := none })).raise aMkrEvents (bit1 0)
    s.underrunRecord l ep.policy.toNat (lineStream l) ep.cause.toNat ep.count ep.first
      (if ep.cause = 6 then 4 else 0)

/-- One bit of a playing pattern that begins at an edge: a missing one opens or extends the line's episode, a delivered
one ends it (R234, R251). -/
def State.lineBit (s : State) (l e : Nat) : State :=
  let x := s.line l
  let i := x.bitAt e
  match s.patMissBit l i with
  | none => (s.lineEpisodeEnd l).modLine l (fun x => { x with held := s.patBit l i })
  | some c =>
    match x.episode with
    | some ep => s.setLine l { x with episode := some { ep with count := ep.count + 1 } }
    | none => s.setLine l { x with
        episode := some ⟨l, BitVec.ofNat 8 c, BitVec.ofNat 2 (b01 (bitOf x.cfg 10)), 1, s.ftOfEdge e⟩ }

/-- The bits of a pattern that begin before an edge are taken account of. -/
def State.lineBits (s : State) (l e : Nat) : State :=
  let x := s.line l
  if !x.playing then s.setLine l { x with seen := e }
  else
    let edges := (List.range 16).map (fun i => s.fastNow i)
    let s := s.each (edges.filter (fun j => decide (x.seen ≤ j ∧ j < e ∧ x.start ≤ j) && (j - x.start) % x.use.bitdiv == 0))
      (fun s j => s.lineBit l j)
    s.modLine l (fun x => { x with seen := e })

/-- What a line's pattern gives up to an edge of the current core cycle is kept before it changes there. -/
def State.lineTail (s : State) (l e : Nat) : State :=
  let s := s.lineBits l e
  let v := (List.range 16).foldl (fun a i => a + b01 (s.patValue l (s.fastNow i)) * 2 ^ i) 0
  s.modLine l (fun x => { x with tail := BitVec.ofNat 16 v, start := e })

/-- Whether a line's stream context is free: idle, or DONE with every word of it read. -/
def State.lineStreamFree (s : State) (l : Nat) : Bool :=
  let x := s.stream (lineStream l)
  x.st == .idle || (x.st == .done && decide (x.length ≤ x.consumed))

/-- The stream of a Moraine pattern that waits for its context opens (R250): the pattern in use from byte 512, its length rounded
up to whole words, once the stream before it has ended DONE; else the first 512 bytes of the pending one, for its on-chip copy,
once the context is free (01 R22; DESIGN CHOICE, log 59). -/
def State.lineFeed (s : State) (l : Nat) : State :=
  let x := s.line l
  let n := lineStream l
  let st := (s.stream n).st
  if x.playing && x.feed == .wait then
    if (st = .idle || st = .done) && x.preFeed != .live then
      let p := x.use
      (s.setLine l { x with feed := .live }).streamStart n (p.byteAddr + 512) ((p.words - 8) * 64) (bits p.store 0 15)
        (bits p.store 16 15)
    else s
  else if x.preFeed = .wait && s.lineStreamFree l then
    let p := s.patPending l
    (s.setLine l { x with preFeed := .live, feed := if x.feed = .live then .whole else x.feed }).streamStart n p.byteAddr 512
      (bits p.store 0 15) (bits p.store 16 15)
  else s

/-- The reader of a playing pattern reads up to 512 bytes beyond the on-chip copy, or beyond the word that plays (R250). -/
def State.lineReads (s : State) (l : Nat) : Nat → State
  | 0 => s
  | k + 1 =>
    let x := s.line l
    let i := x.wordAt + x.words.length
    if 8 ≤ x.words.length || x.use.words ≤ i then s
    else
      let w := x.use.wordOf 8 i
      let (h, s) := if x.use.mor then
          (if x.feed = .wait then (none, s) else s.stagedWord (linePort l) (lineStream l) (x.feed == .whole) w (i - 8))
        else (let (h, s) := s.heldWord (linePort l) w; (some h, s))
      match h with
      | some h => State.lineReads (s.modLine l (fun x => { x with words := x.words ++ [h] })) l k
      | none => s

/-- Words behind the one that plays are dropped; behind a wrap the reader begins again beyond the on-chip copy. -/
def Line.trim (x : Line) (i : Nat) : Line :=
  if i < 8 then (if x.wordAt = 8 then x else { x with words := [], wordAt := 8 })
  else { x with words := x.words.drop (i - x.wordAt), wordAt := max x.wordAt i }

/-- A pattern line starts or restarts at its edge with the pending copies (R249); a Moraine pattern that reaches beyond W x C
then plays as missing bits (R250). The last bit and an episode go on over a SYNC restart (R234, R251). -/
def State.patternStart (s : State) (l : Nat) : State :=
  let x := s.line l
  match x.due with
  | none => s
  | some e =>
    if s.isRetired uLine l then (s.setLine l { x with due := none }).bump aMkrTomb
    else
      let s := s.lineTail l e
      let p := s.patPending l
      let beyond := p.mor && decide (s.morCap < p.byteAddr + p.bytes)
      let s := s.modLine l (fun y => { y with
        due := none, use := p, useChip := x.chip, starved := !x.ready, beyond := beyond, playing := true
        wraps := 0, held := x.playing && y.held, words := [], wordAt := 8, feed := if p.mor && !beyond then .wait else .none })
      if x.feed = .none then s else s.streamStop (lineStream l)

/-- A pattern's last bit has played: bit 0 follows with the copies in use (R249, R250); a Moraine stream reopens. -/
def State.patternWrap (s : State) (l : Nat) : State :=
  let x := s.line l
  if !x.playing then s
  else (s.lineTail l (x.start + x.use.len.toNat * x.use.bitdiv)).modLine l (fun x => { x with
    wraps := x.wraps + 1, words := [], wordAt := 8, feed := if x.feed = .none then .none else .wait })

/-- The edge at which the pattern of a line wraps: after its last bit (R249). -/
def State.wrapEdge (s : State) (l : Nat) : Nat := (s.line l).start + (s.line l).use.len.toNat * (s.line l).use.bitdiv

/-- One core cycle of a pattern line: its stream opens, its reader reads, its bits play, a start or a wrap in it comes. -/
def State.lineCycle (s : State) (l : Nat) : State :=
  let x := s.line l
  let i := x.bitAt (s.fastNow 0) % max 1 x.use.len.toNat / 512
  let s := if x.playing then ((s.modLine l (fun x => x.trim i)).lineFeed l).lineReads l 8
    else if x.preFeed = .wait then s.lineFeed l else s
  let s := if x.playing && decide (s.wrapEdge l ≤ s.fastNow 15) && (x.due.all (fun e => decide (s.wrapEdge l ≤ e))) then
    s.patternWrap l else s
  let s := match x.due with
    | some e => if e ≤ s.fastNow 15 then s.patternStart l else s
    | none => s
  if (s.line l).playing then s.lineBits l (s.fastNow 16) else s

/-- Read words for an on-chip copy. -/
def State.chipWords (s : State) (l : Nat) (p : Pat) : List Nat → List Held × State
  | [] => ([], s)
  | i :: r =>
    let (h, s) := s.heldWord (linePort l) (p.wordOf 0 i)
    let (t, s) := State.chipWords s l p r
    (h :: t, s)

/-- The first 512 bytes of the pending pattern reach the on-chip copy (R249), those of a Moraine pattern once its stream has
staged them (01 R22). -/
def State.patternLoaded (s : State) (l : Nat) : State :=
  let p := s.patPending l
  let str := s.stream (lineStream l)
  if p.mor && !((s.line l).preFeed == .live && (str.st == .done || str.st == .aborted)) then s
  else
    let (words, s) := if p.mor && str.st == .aborted then (List.replicate 8 (0, 4), s) else s.chipWords l p (List.range 8)
    let s := if p.mor then s.streamStop (lineStream l) else s
    s.modLine l (fun x => { x with
      chip := words, ready := true, starved := false, useChip := if x.starved then words else x.useChip, preFeed := .none })

/-- A write to a pattern register starts a preload (R249). -/
def State.patternPreload (s : State) (l : Nat) : State :=
  let s := if (s.line l).preFeed = .live then s.streamStop (lineStream l) else s
  s.modLine l (fun x => { x with ready := false, preFeed := if (s.patPending l).mor then .wait else .none })

/-- The pattern lines of an owner sequencer. -/
def State.ownedLines (s : State) (n : Nat) : List Nat :=
  (List.range 64).filter (fun l => bits (s.line l).cfg 30 2 == 2 && bits (s.line l).cfg 11 5 == n)

/-- A burst of sequencer n begins at an edge: its pattern lines have a start there (R249). -/
def State.linesStart (s : State) (n e : Nat) : State :=
  s.each (s.ownedLines n) (fun s l => s.modLine l (fun x => { x with due := some e }))

/-- An occurrence of a PLAY entry of sequencer n begins at an edge: SYNC lines restart there (R249). -/
def State.linesSync (s : State) (n entry e : Nat) : State :=
  s.each (s.ownedLines n) (fun s l =>
    let x := s.line l
    let t := if x.playing then x.use.time else s.reg (aLine l + 16)
    if bitOf t 15 && bits t 16 16 == entry then s.setLine l { x with due := some e } else s)

/-- A pattern stops at an edge: its episode ends and its Moraine stream closes. -/
def State.lineStop (s : State) (l e : Nat) : State :=
  let x := s.line l
  let s := if x.playing then (s.lineTail l e).lineEpisodeEnd l else s
  let s := s.modLine l (fun x => { x with playing := false, due := none, starved := false, feed := .none, words := [], wordAt := 8 })
  if x.playing && x.feed != .none && x.preFeed != .live then s.streamStop (lineStream l) else s

/-- A burst of sequencer n ends: its pattern lines take the idle value (R249). -/
def State.linesStop (s : State) (n e : Nat) : State := s.each (s.ownedLines n) (fun s l => s.lineStop l e)

/-! Lines and pairs. -/

/-- The marker state of a line at an edge of the current core cycle (R247). -/
def Line.markAt (x : Line) (e : Nat) : Bool :=
  match x.was.find? (fun c => decide (e < c.1)) with
  | some c => c.2
  | none => x.marker && !(x.pulseEnd.any (fun p => decide (p ≤ e)))

/-- The logical value of a line at an edge of the current core cycle: MODE, then the override (R246). -/
def State.lineV (s : State) (l e : Nat) : Bool :=
  let x := s.line l
  let m := bits x.cfg 30 2
  if bitOf x.cfg 23 && s.tlaOut (bits x.cfg 17 6) e then bitOf x.cfg 16
  else if m = 1 then x.markAt e
  else if m = 2 then s.patValue l e
  else if m = 3 then s.tlaOut (bits x.cfg 24 6) e
  else false

/-- Whether pair k is enabled (R253). -/
def State.pairOn (s : State) (k : Nat) : Bool := s.flag (aPair k) 31
/-- DEAD of pair k. -/
def State.pairDead (s : State) (k : Nat) : Int := s.fld (aPair k) 16 10
/-- MIN_PULSE of pair k. -/
def State.pairMin (s : State) (k : Nat) : Int := s.fld (aPair k) 0 6
/-- Whether pair k is in STRETCH. -/
def State.pairStretch (s : State) (k : Nat) : Bool := s.flag (aPair k) 30

/-- Count a dropped or a stretched run of pair k (R256): each holds at 0xFFFF. -/
def State.pairCount (s : State) (k : Nat) (stretched : Bool) : State :=
  let v := s.reg (aPairCnt k)
  let lo := if stretched then 16 else 0
  (s.putReg (aPairCnt k) (putBits v lo 16 (min 0xFFFF (bits v lo 16 + 1)))).raise aMkrEvents (bit1 1)

/-- A side that turns off at a sample. -/
def Side.turnOff (x : Side) (n : Int) : Side :=
  { x with on := false, off := n, stretched := false, cand := none, past := ((n, false) :: x.past).take 80 }
/-- A side that turns on at a sample, from its pending flag alone or not. -/
def Side.turnOn (x : Side) (n : Int) (alone : Bool) : Side :=
  { x with on := true, onAt := n, pend := false, stretched := alone, cand := none, past := ((n, true) :: x.past).take 80 }

/-- The drive of a pair's shaper starts anew (R253): h = d, l = not d, every timer satisfied. -/
def pairStart (d : Bool) (n : Int) : Pair :=
  let long := n - 100000
  ⟨d, false, ⟨d, long, long, false, false, none, [(n, d)]⟩, ⟨!d, long, long, false, false, none, [(n, !d)]⟩⟩

/-- Whether a side that has been off so long leaves the other free to turn on at a sample (R254, R255). -/
def Side.offFor (other : Side) (n dead : Int) : Bool := !other.on && decide (other.off ≤ n - dead)

/-- One sample of a side in DROP (R254): `want` says that d is the side's own, `fresh` that d has just changed. The answer says
whether a run was dropped. A side turns on at the first sample that can begin its run, which is known once the run is seen to be
MIN_PULSE long, at most 32 samples later (DESIGN CHOICE, log 61). -/
def Side.drop (x other : Side) (want fresh : Bool) (n dead min : Int) : Side × Bool :=
  if !want then (if x.on then x.turnOff n else { x with cand := none }, fresh && !x.on)
  else if x.on then (x, false)
  else
    let c := match x.cand with
      | some m => some m
      | none => if other.offFor n dead then some n else none
    match c with
    | some m => (if m + min ≤ n + 1 then x.turnOn m false else { x with cand := c }, false)
    | none => (x, false)

/-- The pending flag of a side in STRETCH as d changes (R255): it sets where d changes to the side while it is off (DEDUCED, log
62), and clears where d leaves it while the other side is on, which drops the run. -/
def Side.pending (x other : Side) (want fresh : Bool) : Side × Bool :=
  if !fresh then (x, false)
  else if want then ({ x with pend := x.pend || !x.on }, false)
  else if x.pend && other.on then ({ x with pend := false }, true)
  else (x, false)

/-- One sample of a side in STRETCH (R255). The answers say whether a run was dropped and whether one was stretched: it ends after
d has left it, or begins from the pending flag alone. -/
def Side.stretch (x other : Side) (want fresh : Bool) (n dead min : Int) : Side × Bool × Bool :=
  let (x, dropped) := x.pending other want fresh
  let ends := x.on && !want && decide (x.onAt + min ≤ n)
  let late := ends && !fresh && !x.stretched
  let x := if ends then x.turnOff n else x
  if !x.on && (want || x.pend) && other.offFor n dead then (x.turnOn n (!want), dropped, late || !want)
  else (x, dropped, late)

/-- One sample of a side under pair k's policy. -/
def State.sideStep (s : State) (k : Nat) (x other : Side) (want fresh : Bool) (n : Int) : Side × Bool × Bool :=
  if s.pairStretch k then x.stretch other want fresh n (s.pairDead k) (s.pairMin k)
  else
    let (x, dropped) := x.drop other want fresh n (s.pairDead k) (s.pairMin k)
    (x, dropped, false)

/-- One sample of pair k's shaper (R254, R255): the side that d does not want first, then the other. -/
def State.pairSample (s : State) (k : Nat) (d : Bool) (n : Int) : State :=
  let p := s.pair k
  let fresh := p.d != d
  let (a, drop1, stretch1) := s.sideStep k (if d then p.l else p.h) (if d then p.h else p.l) false fresh n
  let (b, drop2, stretch2) := s.sideStep k (if d then p.h else p.l) a true fresh n
  let s := s.setPair k { p with d := d, h := if d then b else a, l := if d then a else b }
  let s := if drop1 || drop2 then s.pairCount k false else s
  if stretch1 || stretch2 then s.pairCount k true else s

/-- A side's level at a sample. -/
def Side.level (x : Side) (n : Int) : Bool :=
  match x.past.find? (fun c => decide (c.1 ≤ n)) with
  | some c => c.2
  | none => x.on

/-- A pair whose register was written starts anew at the present core-cycle boundary (R253). -/
def State.pairRestart (s : State) (k : Nat) : State :=
  if (s.pair k).restart then s.setPair k (pairStart (s.lineV (2 * k) (s.fastNow 0)) (s.fastNow 0)) else s

/-- One core cycle of an enabled pair: the drive of its sixteen samples reaches the shaper. -/
def State.pairCycle (s : State) (k : Nat) : State :=
  if s.pairOn k && !(s.pair k).restart then
    s.each (List.range 16) (fun s i => s.pairSample k (s.lineV (2 * k) (s.fastNow i)) (s.fastNow i))
  else s

/-- Whether a side waits for the other one's dead time, or for its own run to be seen to be long enough: by d, or by its
pending flag (R254, R255). -/
def State.pairWaits (s : State) (k : Nat) (high pending : Bool) : Bool :=
  let p := s.pair k
  let x := if high then p.h else p.l
  let other := if high then p.l else p.h
  s.pairOn k && !x.on && !other.on && (if pending then x.pend else p.d == high)

/-- Whether a side in STRETCH stays on although d has left it (R255). -/
def State.pairLingers (s : State) (k : Nat) (high : Bool) : Bool :=
  let p := s.pair k
  s.pairOn k && s.pairStretch k && (if high then p.h else p.l).on && p.d != high

/-- The pin level of a line at an edge of the current core cycle (R246, R252, R253, R55). -/
def State.lineOut (s : State) (l e : Nat) : Bool :=
  let x := s.line l
  let paired := s.pairOn (l / 2)
  let off := bits x.cfg 30 2 == 0 && !(paired && l % 2 == 1)
  if s.hk.inReset.isSome then false
  else if off || !s.top.lineLive || s.isRetired uLine l then bitOf x.cfg 8
  else
    let v := if paired then
        (if l % 2 = 0 then (s.pair (l / 2)).h.level e else (s.pair (l / 2)).l.level e)
      else s.lineV l e
    v != bitOf x.cfg 9

/-- A marker action on a line at an edge (R247): ACT and WIDTH of R218. -/
def State.lineMark (s : State) (l act width e : Nat) : State :=
  let x := s.line l
  if s.isRetired uLine l then s.bump aMkrTomb
  else if bits x.cfg 30 2 ≠ 1 then s.bump aMkrIgnored
  else
    let due := x.pulseEnd.filter (fun p => decide (p ≤ e))
    let m := x.marker && due.isNone
    let x := { x with was := x.was ++ (due.toList.map (fun p => (p, x.marker))) ++ [(e, m)] }
    let y := if act = 0 then { x with marker := true, pulseEnd := none }
      else if act = 1 then { x with marker := false, pulseEnd := none }
      else if act = 2 then { x with marker := !m, pulseEnd := none }
      else { x with marker := true, pulseEnd := some (e + width) }
    s.setLine l y

/-- A pending pulse end clears the marker state (R247). -/
def State.pulseDone (s : State) (l : Nat) : State :=
  match (s.line l).pulseEnd with
  | none => s
  | some e => s.modLine l (fun x => { x with marker := false, pulseEnd := none, was := x.was ++ [(e, x.marker)] })

/-- A line at the end of a core cycle: a pulse end in it has come. -/
def State.lineSettle (s : State) (l : Nat) : State :=
  let s := match (s.line l).pulseEnd with
    | some e => if e ≤ s.fastNow 15 then s.pulseDone l else s
    | none => s
  if (s.line l).was.isEmpty then s else s.modLine l (fun x => { x with was := [] })

/-- The configuration of a line becomes live (R246): the marker state is 0 whenever MODE changes to MARKER, and a line
that leaves PATTERN or its owner stops its pattern. -/
def State.lineLive (s : State) (l : Nat) : State :=
  let x := s.line l
  let v := s.reg (aLine l)
  if v = x.cfg then s
  else
    let s := if bits v 30 2 ≠ 2 || bits v 11 5 ≠ bits x.cfg 11 5 then s.lineStop l (s.fastNow 0) else s
    let toMarker := bits v 30 2 == 1 && bits x.cfg 30 2 != 1
    s.modLine l (fun x => { x with
      cfg := v, marker := x.marker && !toMarker, pulseEnd := if toMarker then none else x.pulseEnd })

/-- MKR_EIN_CFGi becomes live (R242): a level change that the write causes is no edge. -/
def State.einLive (s : State) (i : Nat) : State :=
  let v := s.reg (aEin i)
  if v = s.einCfg i then s
  else
    let s := { s with mkr := { s.mkr with einCfg := Tab.set (fun _ => 0) s.mkr.einCfg i v } }
    { s with tla := { s.tla with ext := putBits s.tla.ext i 1 (b01 (s.einLevel i)) } }

end Sys2Proof.Machine
end

