-- ==== Sys2Proof/Machine/Angle.lean ====
section
/-!
DEFINITION. The angle trackers: teeth, gap, angle estimate, angle events, loss of sync and free run (09 R257 to R264).
-/

namespace Sys2Proof.Machine

/-- ANG_At_CFG; STATE, EVENTS and the counters follow it. -/
def aTrk (t : Nat) : Nat := wAng + 0x100 * t
/-- ANG_At_EVENTS. -/
def aTrkEv (t : Nat) : Nat := aTrk t + 8
/-- ANG_EVk_CFG. -/
def aAngEv (k : Nat) : Nat := wAng + 0x400 + 4 * k

/-- POSITIONS of tracker t. -/
def State.trkPos (s : State) (t : Nat) : Nat := s.fld (aTrk t) 0 13
/-- MISSING of tracker t. -/
def State.trkMiss (s : State) (t : Nat) : Nat := s.fld (aTrk t) 16 3
/-- Angles of one revolution. -/
def State.trkRev (s : State) (t : Nat) : Nat := s.trkPos t * 65536

/-- Positions from the last tooth to the next real one: the gap counts whole (R257). -/
def State.trkSpan (s : State) (t : Nat) : Nat :=
  if (s.trk t).position + s.trkMiss t + 1 = s.trkPos t then s.trkMiss t + 1 else 1

/-- P_exp: the expected interval to the next tooth. -/
def State.trkExp (s : State) (t : Nat) : Nat := s.trkSpan t * (s.trk t).p

/-- Angle passed since t_ref at an edge (R261): limited to half a position past the next real position in SYNC, to one
revolution in free run. -/
def State.trkDelta (s : State) (t e : Nat) : Nat :=
  let x := s.trk t
  if !x.runs then 0
  else
    let d := 65536 * (e - x.tref) / max 1 x.p
    if x.st = .sync then min d (s.trkSpan t * 65536 + 32768) else min d (s.trkRev t)

/-- The angle estimate θ at an edge (R261). -/
def State.theta (s : State) (t e : Nat) : Nat := ((s.trk t).thetaRef + s.trkDelta t e) % max 1 (s.trkRev t)

/-- Angle from the reference forward to an angle. -/
def State.angleAhead (s : State) (t a : Nat) : Nat :=
  (a + s.trkRev t - (s.trk t).thetaRef) % max 1 (s.trkRev t)

/-- The first edge at which θ reaches an angle a given distance ahead of the reference (R262). -/
def State.angleEdge (s : State) (t d : Nat) : Nat := (s.trk t).tref + cdiv (d * (s.trk t).p) 65536

/-- Whether θ gets that far before another tooth is judged. -/
def State.angleInReach (s : State) (t d : Nat) : Bool :=
  let x := s.trk t
  x.runs && (if x.st = .sync then decide (d ≤ s.trkSpan t * 65536 + 32768) else decide (d < s.trkRev t))

/-- Tracker of angle event k. -/
def State.evTrk (s : State) (k : Nat) : Nat := s.fld (aAngEv k) 30 1
/-- ANGLE of event k. -/
def State.evAngle (s : State) (k : Nat) : Nat := s.fld (aAngEv k) 0 28
/-- Whether event k is enabled. -/
def State.evOn (s : State) (k : Nat) : Bool := s.flag (aAngEv k) 31
/-- Whether event k is armed (R262). -/
def State.evArmed (s : State) (k : Nat) : Bool := Tab.get (fun _ => true) s.ang.armed k
/-- Arm event k from an edge on. -/
def State.arm (s : State) (k e : Nat) : State :=
  { s with ang := { s.ang with
      armed := Tab.set (fun _ => true) s.ang.armed k true, since := Tab.set (fun _ => 0) s.ang.since k e } }
/-- Disarm event k. -/
def State.disarm (s : State) (k : Nat) : State :=
  { s with ang := { s.ang with armed := Tab.set (fun _ => true) s.ang.armed k false } }

/-- The words of an EVENT record of an angle kind (R244): flags, source, number, FT, θ, revolutions. -/
def State.angWords (s : State) (flags src num t e theta : Nat) : List Word :=
  let ft := s.ftOfEdge e
  [BitVec.ofNat 32 (flags * 2 ^ 24 + t * 2 ^ 16 + src * 256 + num), ft.setWidth 32,
    (ft >>> 32).setWidth 32, BitVec.ofNat 32 theta, (s.trk t).rev]

/-- Post an EVENT record of an angle kind. -/
def State.angRecord (s : State) (flags src num t e theta : Nat) : State :=
  s.postEvt 0x04 (s.angWords flags src num t e theta)

/-- Event k fires at an edge (R262): triggers and the TLA see it, it disarms, ONCE clears EN, RECORD posts at the end of the
path (R74). -/
def State.angFire (s : State) (k e : Nat) (extrapolated catchup : Bool) : State :=
  let t := s.evTrk k
  let s := (s.trigEdges 2 k true (e / 16 + 12) (e % 16)).extChange (16 + k) true e
  let s := (s.raiseIf extrapolated (aTrkEv t) 5).raiseIf catchup (aTrkEv t) 6
  let s := if s.flag (aAngEv k) 28 then
      s.recordAt (e / 16 + 12) (s.angWords (b01 extrapolated + 2 * b01 catchup) 2 k t e (s.evAngle k)) else s
  let s := s.disarm k
  if s.flag (aAngEv k) 29 then s.putReg (aAngEv k) (s.reg (aAngEv k) &&& 0x7FFFFFFF) else s

/-- Event k is passed in free run: it does not fire, counts and posts a WITHHELD record (R263). -/
def State.angWithhold (s : State) (k e : Nat) : State :=
  let t := s.evTrk k
  (((s.raise (aTrkEv t) (bit1 4)).bump (aTrk t + 0x18)).angRecord 4 2 k t e (s.evAngle k)).disarm k

/-- The edge at which event k reaches its angle, where it is in reach and armed by then. -/
def State.angReachEdge (s : State) (k : Nat) : Option Nat :=
  let t := s.evTrk k
  let d := s.angleAhead t (s.evAngle k)
  let e := s.angleEdge t d
  if s.evOn k && s.evArmed k && s.angleInReach t d && decide (Tab.get (fun _ => 0) s.ang.since k ≤ e) then some e else none

/-- Event k reaches its angle (R262, R263). -/
def State.angReach (s : State) (k : Nat) : State :=
  let t := s.evTrk k
  match s.angReachEdge k with
  | none => s
  | some e =>
    if (s.trk t).st = .sync then
      s.angFire k e (decide (s.trkSpan t * 65536 ≤ s.angleAhead t (s.evAngle k))) false
    else s.angWithhold k e

/-- The edge at which a fired event is armed again: θ passes ANGLE + POSITIONS x 32,768 (R262). -/
def State.angRearmEdge (s : State) (k : Nat) : Option Nat :=
  let t := s.evTrk k
  let d := s.angleAhead t ((s.evAngle k + s.trkPos t * 32768) % max 1 (s.trkRev t))
  if !s.evArmed k && (s.trk t).st == .sync && s.angleInReach t d then some (s.angleEdge t d) else none

/-- Events of tracker t. -/
def State.trkEvents (s : State) (t : Nat) : List Nat := (List.range 32).filter (fun k => s.evTrk k == t)

/-- The events whose edge lies before an edge act at their own edges, and the fired ones whose re-arming angle lies
before it are armed again. -/
def State.angCatchUp (s : State) (t e : Nat) : State :=
  s.each (s.trkEvents t) (fun s k =>
    let s := match s.angRearmEdge k with
      | some a => if a < e then s.arm k a else s
      | none => s
    match s.angReachEdge k with
    | some a => if a < e then s.angReach k else s
    | none => s)

/-- A tooth sets θ to its own angle at an edge (R261, R262): the events that θ reaches at that edge fire, those in the
jump forward as CATCHUP. -/
def State.angJump (s : State) (t e angle : Nat) : State :=
  let before := if e ≤ (s.trk t).tref then 0 else s.trkDelta t (e - 1)
  let now := s.trkDelta t e
  let d := s.angleAhead t angle
  let d := if d = 0 then s.trkRev t else d
  s.each (s.trkEvents t) (fun s k =>
    let a := s.angleAhead t (s.evAngle k)
    let a := if a = 0 then s.trkRev t else a
    if s.evOn k && s.evArmed k && decide (before < a ∧ a ≤ d) then s.angFire k e false (decide (now < a)) else s)

/-- Sync is lost at an edge with a cause (R258, R263, R264): θ runs on at the last P. -/
def State.trkLoss (s : State) (t cause e : Nat) (x : Trk) : State :=
  let s := s.setTrk t { x with st := .seek, lastLoss := BitVec.ofNat 3 cause, hist := [] }
  let s := s.raise (aTrkEv t) (bit1 3)
  let s := s.each (s.trkEvents t) (fun s k => if s.evOn k then s.arm k e else s)
  s.angRecord 8 3 cause t e (s.theta t e)

/-- SEEK: an edge `i` samples after the last accepted one (R259). -/
def State.trkSeek (s : State) (t i e : Nat) : State :=
  let x := s.trk t
  let m := s.trkMiss t
  if !x.seen then s.setTrk t { x with seen := true, treal := e, hist := [] }
  else
    let noise := match x.hist with
      | last :: _ => decide (i * (2 * (m + 1)) < last)
      | [] => false
    if noise then s
    else
      let hist := (i :: x.hist).take 3
      match hist with
      | [c, b, a] =>
        if (2 * m + 1) * a ≤ 2 * b && 2 * b ≤ (2 * m + 3) * a && b ≤ 2 * (m + 1) * c && 2 * (m + 1) * c ≤ 3 * b then
          let s := s.setTrk t { x with
            st := .sync, position := 1, p := c, tref := e, treal := e, spanned := 0, missed := false, tprev := e,
            thetaRef := 65536, runs := true, hist := [] }
          let s := s.each (s.trkEvents t) (fun s k => if s.evOn k then s.arm k e else s)
          (s.raise (aTrkEv t) (bit1 2)).angRecord 16 3 0 t e 65536
        else s.setTrk t { x with treal := e, hist := hist }
      | _ => s.setTrk t { x with treal := e, hist := hist }

/-- The position after the next real tooth is reached: a position past the last wraps to 0. -/
def State.trkNext (s : State) (t : Nat) : Nat :=
  let n := (s.trk t).position + s.trkSpan t
  if s.trkPos t ≤ n then 0 else n

/-- The tooth or virtual tooth of the next position stands at an edge; position 0 counts a revolution (R260). -/
def State.trkAt (s : State) (t e : Nat) (x : Trk) : Trk :=
  let n := s.trkNext t
  { x with position := n, tref := e, thetaRef := n * 65536, rev := if n = 0 then x.rev + 1 else x.rev,
           tprev := if n + s.trkMiss t + 1 = s.trkPos t then e else x.tprev }

/-- SYNC: an edge is judged against t_ref (R260). -/
def State.trkTooth (s : State) (t e : Nat) : State :=
  let x := s.trk t
  let i := e - x.tref
  let pe := s.trkExp t
  if 2 * i < pe then (s.bump (aTrk t + 0x10)).raise (aTrkEv t) (bit1 0)
  else if 3 * pe < 2 * i then s
  else
    let gap := decide (1 < s.trkSpan t)
    let real := e - x.treal
    let span := x.spanned + s.trkSpan t
    if gap && 2 * (e - x.tprev) < (2 * s.trkMiss t + 1) * x.p then s.trkLoss t 2 e { x with treal := e, seen := true }
    else if real < 3200 * span then s.trkLoss t 3 e { x with treal := e, seen := true }
    else
      let s := s.angJump t e (s.trkNext t * 65536)
      let y := s.trkAt t e x
      s.setTrk t { y with treal := e, p := real / span, spanned := 0, missed := false }

/-- A tooth edge, `i` samples after the tracker's last accepted edge (R259, R260): events before it act first. -/
def State.toothEdge (s : State) (t i e : Nat) : State :=
  match (s.trk t).st with
  | .off => s
  | .seek => (s.angCatchUp t e).trkSeek t i e
  | .sync => (s.angCatchUp t e).trkTooth t e

/-- The edge at which a missing tooth counts as a miss: the first with 2 (t - t_ref) > 3 P_exp (R260). -/
def State.missEdge (s : State) (t : Nat) : Nat := (s.trk t).tref + 3 * s.trkExp t / 2 + 1

/-- A miss (R260): a virtual tooth is placed, or a second miss loses sync. -/
def State.toothMiss (s : State) (t : Nat) : State :=
  let x := s.trk t
  if x.st ≠ .sync then s
  else
    let e := s.missEdge t
    let s := ((s.angCatchUp t (e + 1)).bump (aTrk t + 0x14)).raise (aTrkEv t) (bit1 1)
    let y := { s.trkAt t (x.tref + s.trkExp t) x with spanned := x.spanned + s.trkSpan t, missed := true }
    if x.missed then s.trkLoss t 1 e y else s.setTrk t y

/-- The edge at which the interval counter overflows (R258). -/
def State.overflowEdge (s : State) (t : Nat) : Nat := (s.trk t).treal + 4294967295

/-- An interval reaches 2^32 - 1 samples (R258). -/
def State.intervalOverflow (s : State) (t : Nat) : State :=
  let x := s.trk t
  match x.st with
  | .off => s
  | .seek => s.setTrk t { x with seen := false, hist := [] }
  | .sync => (s.angCatchUp t (s.overflowEdge t)).trkLoss t 4 (s.overflowEdge t) { x with seen := false }

/-- The edge at which the free run ends: POSITIONS positions after the last reference (R263). -/
def State.freeRunEdge (s : State) (t : Nat) : Nat := (s.trk t).tref + s.trkPos t * (s.trk t).p

/-- The free run ends: θ stops (R263). -/
def State.freeRunDone (s : State) (t : Nat) : State :=
  let x := s.trk t
  if x.st = .sync || !x.runs then s
  else (s.angCatchUp t (s.freeRunEdge t)).setTrk t { s.trk t with runs := false }

/-- Tracker t through the current core cycle: a miss, an overflow or the end of a free run whose edge lies in it has come, and so
has every event that θ reaches in it (R258, R260, R262, R263). -/
def State.angTurn (s : State) (t : Nat) : State :=
  let x := s.trk t
  let e := s.fastNow 16
  if x.st = .off then s
  else
    let s := if x.st = .sync && decide (s.missEdge t < e) then s.toothMiss t
      else if x.st != .sync && x.runs && decide (s.freeRunEdge t < e) then s.freeRunDone t
      else s
    let s := if (x.seen || x.st = .sync) && decide (s.overflowEdge t < e) then s.intervalOverflow t else s
    s.angCatchUp t e

/-- ANG_At_CFG is written (R258): ENABLE starts SEEK or stops the tracker. -/
def State.trkWritten (s : State) (t : Nat) : State :=
  let x := s.trk t
  if s.flag (aTrk t) 31 then
    if x.st = .off then s.setTrk t { x with st := .seek, seen := false, hist := [], runs := false } else s
  else s.setTrk t { x with st := .off, runs := false, seen := false, hist := [] }

end Sys2Proof.Machine
end

