-- ==== Sys2Proof/Machine/Tone.lean ====
section
/-!
DEFINITION. Sample values: channel spacing, the NCO and its cosine, the modes, sample data and missing samples (08 R207 to
R212, R232, R233).
-/

namespace Sys2Proof.Machine

/-- SEQ_PLINK_CFG. -/
def aPlink : Nat := wSeq 8 + 0x100
/-- Edges between two samples of channel n: one, or 16 PDIV for a precision channel (R208). -/
def State.spacing (s : State) (n : Nat) : Nat := if n < 8 then 1 else 16 * max 1 (s.fld aPlink 0 16)
/-- The first sample of channel n at or after an edge (R208). -/
def State.sampleUp (s : State) (n e : Nat) : Nat := cdiv e (s.spacing n) * s.spacing n

/-- Width of a channel's samples. -/
def chanWidth (n : Nat) : Nat := if n < 8 then 16 else 20
/-- A channel-wide field as a value, sign-extended to 20 bits. -/
def chanValue (n v : Nat) : BitVec 20 := (BitVec.ofNat (chanWidth n) v).signExtend 20
/-- SEQ_SAFE.CODE. -/
def State.safeCode (s : State) (n : Nat) : BitVec 20 := chanValue n (s.reg (wSeq n + 4)).toNat

/-- 2 pi in 2^-128. -/
def twoPi128 : Nat := 2138057168129933495719360746323741566601

/-- Terms of the cosine series in 2^-128: the k-th term from the one before, and the sum. -/
def cosTerms (x2 : Int) : Nat → Int → Int → Int
  | 0, _, sum => sum
  | k + 1, t, sum =>
    let i : Int := 24 - k
    let t' := -(t * x2 / 2 ^ 128) / ((2 * i - 1) * (2 * i))
    cosTerms x2 k t' (sum + t')

/-- cos of r / 2^20 of a turn, in 2^-128, for r up to a quarter turn. -/
def cosQuarter (r : Nat) : Int :=
  let x : Int := r * twoPi128 / 2 ^ 20
  cosTerms (x * x / 2 ^ 128) 24 (2 ^ 128) (2 ^ 128)

/-- 131,071 times a quarter-turn cosine, rounded to nearest. -/
def cosRound (r : Nat) : Int := (2 * 131071 * cosQuarter r + 2 ^ 128) / 2 ^ 129

/-- C of R209 for p of 2^20 parts of a turn: no value lies at a tie, but for 0. -/
def cosTable (p : Nat) : Int :=
  let r := p % 2 ^ 18
  match p / 2 ^ 18 % 4 with
  | 0 => cosRound r
  | 1 => -cosRound (2 ^ 18 - r)
  | 2 => -cosRound r
  | _ => cosRound (2 ^ 18 - r)

/-- sat of R209. -/
def satChan (n : Nat) (v : Int) : BitVec 20 :=
  let m : Int := 2 ^ (chanWidth n - 1)
  BitVec.ofInt 20 (if v < -m then -m else if m - 1 < v then m - 1 else v)

/-- The phase P that the sample at an edge uses (R210), by the anchor that holds there. -/
def Seq.phaseAt (q : Seq) (sp e : Nat) : BitVec 64 :=
  let x := if e < q.ncoAt then (q.ncoOld.find? (fun x => decide (x.1 ≤ e))).getD (q.ncoAt, q.phase, q.ftw)
    else (q.ncoAt, q.phase, q.ftw)
  x.2.1 + BitVec.ofNat 64 ((e - x.1) / sp) * x.2.2

/-- A new anchor; the one before it stays for the samples before it. -/
def Seq.anchor (q : Seq) (e : Nat) (p ftw : BitVec 64) : Seq :=
  { q with ncoAt := e, phase := p, ftw := ftw, ncoOld := (q.ncoAt, q.phase, q.ftw) :: q.ncoOld }

/-- The anchors that no sample from an edge on needs are forgotten. -/
def Seq.forget (q : Seq) (e : Nat) : Seq := { q with ncoOld := if q.ncoAt ≤ e then [] else q.ncoOld }

/-- Phase after a phase operation: ADD adds POW x 2^8, LOAD sets it (R210). -/
def phaseOp (op : Nat) (pow : Nat) (p : BitVec 64) : BitVec 64 :=
  if op = 1 then p + BitVec.ofNat 64 (pow * 256) else if op = 2 then BitVec.ofNat 64 (pow * 256) else p

/-- An NCO change at the sample at an edge: P_m after its operation, then P_{m+1} with the FTW that holds from it
(R210). -/
def Seq.ncoSet (q : Seq) (sp e : Nat) (ftw : Option (BitVec 64)) (op pow : Nat) : Seq :=
  q.anchor e (phaseOp op pow (q.phaseAt sp e)) (ftw.getD q.ftw)

/-- Live SEQ_CTRL.MODE. -/
def Seq.mode (q : Seq) : Nat := bits q.ctrl 5 2
/-- Live underrun policy. -/
def Seq.policy (q : Seq) : Nat := bits q.ctrl 2 2
/-- Live REPEAT_MAX. -/
def Seq.repeatMax (q : Seq) : Nat := bits q.ctrl 24 8
/-- Whether the live mode reads sample data (R209). -/
def Seq.reads (q : Seq) : Bool := q.mode != 2

/-- OP of a table entry (R213). -/
def entOp (w : BitVec 256) : Nat := bits w 0 8
/-- LENGTH of a PLAY (R214). -/
def playLen (w : BitVec 256) : Nat := bits w 24 40
/-- STORE of a PLAY. -/
def playMor (w : BitVec 256) : Bool := bitOf w 8
/-- ADDR of a PLAY. -/
def playAddr (w : BitVec 256) : Nat := bits w 64 38
/-- STAGE_BASE of a PLAY. -/
def playBase (w : BitVec 256) : Nat := bits w 149 15
/-- STAGE_REGIONS of a PLAY. -/
def playRegions (w : BitVec 256) : Nat := bits w 164 15
/-- Bytes of one sample (R207). -/
def sampleBytes (n : Nat) : Nat := if n < 8 then 2 else 4
/-- Samples of one 64-byte word. -/
def wordSamples (n : Nat) : Nat := 64 / sampleBytes n

/-- Words of a PLAY's data. -/
def playWords (n : Nat) (w : BitVec 256) : Nat := cdiv (playLen w) (wordSamples n)

/-- The Firn word that holds word `i` of a PLAY's data: in place, or in its staging regions. -/
def playWord (w : BitVec 256) (i : Nat) : Nat :=
  if playMor w then playBase w * 64 + i % (max 1 (playRegions w) * 64) else playAddr w / 64 + i

/-- Sample k of a PLAY as a word that holds it reads (R207). -/
def wordSample (n : Nat) (w : BitVec 512) (k : Nat) : Int :=
  (BitVec.ofNat (chanWidth n) (w.toNat / 2 ^ (8 * sampleBytes n * (k % wordSamples n)))).toInt

/-- y of R209 from a sample and C. -/
def modeValue (n mode : Nat) (x amp c : Int) : BitVec 20 :=
  if mode = 1 then satChan n ((x * c + 2 ^ 16) / 2 ^ 17)
  else if mode = 2 then satChan n ((amp * c + 2 ^ 16) / 2 ^ 17)
  else satChan n x

/-- y of the next sample of a PLAY, from its sample x. -/
def State.sampleValue (s : State) (n : Nat) (q : Seq) (e : Nat) (x : Int) : BitVec 20 :=
  let c := if q.mode = 0 then 0 else cosTable ((q.phaseAt (s.spacing n) e).toNat / 2 ^ 44)
  modeValue n q.mode x (chanValue n (s.reg (wSeq n + 8)).toNat).toInt c

/-! Missing samples (R232, R233). -/

/-- Sample k of a PLAY that is due now: x, or the cause of R232 for which it is missing. A Moraine word that is not held is
not staged yet, or never will be; a Firn word that is not held has come too late behind a cold target. -/
def State.sampleDue (s : State) (n : Nat) (q : Seq) (p : Play) (k : Nat) : Except Nat Int :=
  let late := match p.late with
    | some (c, f, m) => if f ≤ k ∧ k < f + m then some c.toNat else none
    | none => none
  match late with
  | some c => .error c
  | none =>
    if !q.reads then .ok 0
    else
      let i := k / wordSamples n
      match if i < p.heldAt then none else p.held[i - p.heldAt]? with
      | some (w, 0) => .ok (wordSample n w k)
      | some (_, c) => .error c
      | none => .error (if !playMor p.word then 5 else if p.feed = .live && (s.stream n).st == .aborted then 4 else 1)

/-- Whether an occurrence that stalled in an earlier core cycle can restart: its first sample is available (R233). -/
def State.canRestart (s : State) (q : Seq) (p : Play) (c : Nat) : Bool :=
  decide (c < s.now) && (!q.reads || (p.heldAt == 0 && !p.held.isEmpty))

/-- The next sample of an occurrence: the occurrence after it, the output value, given the last one, and the cause for which it
is missing (R209, R233). Under REPEAT the occurrence stalls at a missing sample, holds the output, and restarts from its first
sample once that is available. -/
def State.playStep (s : State) (n : Nat) (q : Seq) (p : Play) (v : BitVec 20) : Play × BitVec 20 × Option Nat :=
  let on (p : Play) : Play × BitVec 20 × Option Nat :=
    let go := { p with next := p.next + s.spacing n }
    match s.sampleDue n q p p.seen with
    | .ok x => ({ go with seen := p.seen + 1 }, s.sampleValue n q p.next x, none)
    | .error c =>
      if q.policy < 2 then ({ go with seen := p.seen + 1 }, if q.policy = 1 then s.safeCode n else v, some c)
      else ({ go with
        seen := 0, stalled := some s.now, late := none, held := [], heldAt := 0
        feed := if p.feed = .none then .none else .wait }, v, some c)
  match p.stalled with
  | none => on p
  | some c =>
    if s.canRestart q p c then on { p with stalled := none, repeats := p.repeats + 1 }
    else ({ p with next := p.next + s.spacing n }, v, some 0)

/-- Whether an occurrence has samples left. -/
def Play.more (p : Play) : Bool := p.stalled.isSome || decide (p.seen < playLen p.word)

/-- The output value after the samples of an occurrence up to an edge, which is included. -/
def State.outAt (s : State) (n : Nat) (q : Seq) (e : Nat) : Nat → Play → BitVec 20 → BitVec 20
  | 0, _, v => v
  | k + 1, p, v =>
    if p.more && decide (p.next ≤ e) then
      let (p, v, _) := s.playStep n q p v
      State.outAt s n q e k p v
    else v

/-- The output of channel n at an edge of the current core cycle before a force (R212, R217, R221, R235). -/
def State.valueAt (s : State) (n e : Nat) : BitVec 20 :=
  let q := s.seq n
  match q.st with
  | .off | .retired => s.safeCode n
  | .idle => if bitOf q.ctrl 4 && !q.errHold then q.last else s.safeCode n
  | .wait => match q.waiting with
    | some w => if w.safe then s.safeCode n else q.last
    | none => q.last
  | .run => match q.play with
    | some p => s.outAt n q e ((e - p.next) / s.spacing n + 1) p q.last
    | none => q.last

/-- The output of channel n at an edge (R212): a force replaces it; an OFF or retired channel carries the safe code. -/
def State.chanOut (s : State) (n e : Nat) : BitVec 20 :=
  let q := s.seq n
  if q.st = .off || q.st = .retired then s.safeCode n
  else match q.force with
    | .none => s.valueAt n e
    | .safe => s.safeCode n
    | .hold v => v

/-- What a fast channel's converter position carries (R212 step 4): its channel's output, or the safe code while CONV_OUT_EN is
0 (02 R55) or the sample clock is stopped (04 R105). -/
def State.fastOut (s : State) (n e : Nat) : BitVec 20 :=
  if !s.top.convLive || s.clk.spllStopped then s.safeCode n else s.chanOut n e

end Sys2Proof.Machine
end

