-- ==== Sys2Proof/Machine/Play.lean ====
section
/-!
DEFINITION. Sequences: table entries and their checks, the lookahead, jump slots, bursts, the entries' effects, underrun
episodes, markers (08 R213 to R234).
-/

namespace Sys2Proof.Machine

/-- SEQ_FLAGS of sequencer n. -/
def aFlags (n : Nat) : Nat := wSeq n + 0x80
/-- SEQ_EVENTS of sequencer n. -/
def aSeqEv (n : Nat) : Nat := wSeq n + 0x88
/-- SEQ_SLOTk of sequencer n. -/
def aSeqSlot (n k : Nat) : Nat := wSeq n + 0x20 + 4 * k

/-! Entries (R213 to R221). -/

/-- Table-error details (R221). -/
def teOp : Nat := 1
/-- Loop depth. -/
def teDepth : Nat := 2
/-- ENDLOOP at depth 0. -/
def teEndloop : Nat := 3
/-- Field out of range. -/
def teField : Nat := 4
/-- Marker list. -/
def teMarkers : Nat := 5
/-- No PLAY in 256 entries. -/
def teNoPlay : Nat := 6
/-- Entry read uncorrectable. -/
def teUe : Nat := 7
/-- Entry beyond Firn or in a retired region. -/
def teBeyond : Nat := 8

/-- Whether a PLAY breaks the limits of R214. -/
def State.playBad (s : State) (n : Nat) (w : BitVec 256) : Bool :=
  let bytes := playLen w * sampleBytes n
  decide (playLen w < (if n < 8 then 64 else 1)) ||
    ((s.seq n).reads &&
      (playAddr w % 64 != 0 ||
        if playMor w then
          decide (s.morCap < playAddr w + bytes) || playRegions w == 0 || decide (16384 < playRegions w) ||
            decide (32768 < playBase w + playRegions w)
        else decide (2 ^ 27 < playAddr w + bytes)))

/-- Whether a marker list is faulty (R218): out of order, an OFFSET at or beyond LENGTH, a WIDTH of 0. -/
def markersBad (len : Nat) : Nat → List (BitVec 64) → Bool
  | _, [] => false
  | prev, m :: l =>
    decide (bits m 0 40 < prev) || decide (len ≤ bits m 0 40) || (bits m 46 2 == 3 && bits m 48 16 == 0) ||
      markersBad len (bits m 0 40) l

/-- The table error of an entry by itself, its marker list read (R213 to R218). -/
def State.entryErr (s : State) (n : Nat) (w : BitVec 256) (marks : List (BitVec 64)) : Option Nat :=
  match entOp w with
  | 1 => if s.playBad n w then some teField
    else if bits w 16 8 != 0 && (decide (2 ^ 27 < bits w 128 21 * 64 + 8 * bits w 16 8) ||
      markersBad (playLen w) 0 marks) then some teMarkers else none
  | 2 => none
  | 3 => none
  | 4 => if bits w 8 2 = 3 || (bits w 8 2 != 0 && !bitOf w 11) then some teField else none
  | 5 => none
  | 6 => if bits w 8 2 = 3 then some teField else none
  | 7 => none
  | _ => some teOp

/-- The Firn port of the table reader (06 R150). -/
def portTable : Nat := 33

/-- Read words of Firn as the table port: the detail of R221 where one fails. -/
def State.tableWords (s : State) (w : Nat) : Nat → Except Nat (List (BitVec 512)) × State
  | 0 => (.ok [], s)
  | k + 1 =>
    if 2 ^ 21 ≤ w then (.error teBeyond, s)
    else match s.portRead portTable w with
      | (.retired, s) => (.error teBeyond, s)
      | (.ue, s) => (.error teUe, s)
      | (.word v, s) => match State.tableWords s (w + 1) k with
        | (.ok l, s) => (.ok (v :: l), s)
        | (.error d, s) => (.error d, s)

/-- Bytes [a, a + k) of consecutive words as a number. -/
def wordsBytes (l : List (BitVec 512)) (a k : Nat) : Nat :=
  leNat (((l.flatMap (fun w => leBytes w 64)).drop a).take k)

/-- An entry as it is taken in, in the present core cycle; a PLAY of Moraine data has its stream still to open (R225). -/
def State.newEntry (s : State) (n i : Nat) (w : BitVec 256) (marks : List (BitVec 64)) (err : Option Nat) : LEntry :=
  let mor := entOp w == 1 && playMor w && (s.seq n).reads && err.isNone
  ⟨i, w, marks, err.map (BitVec.ofNat 8), s.now, if mor then .wait else .none, []⟩

/-- Read entry `i` of sequencer n's table with its marker list (R213, R219). -/
def State.readEntry (s : State) (n i : Nat) : Except Nat LEntry × State :=
  let a := s.fld (wSeq n + 0x14) 0 21 * 64 + 32 * i
  match s.tableWords (a / 64) 1 with
  | (.error d, s) => (.error d, s)
  | (.ok l, s) =>
    let w : BitVec 256 := BitVec.ofNat 256 (wordsBytes l (a % 64) 32)
    let k := if entOp w = 1 then bits w 16 8 else 0
    let list := bits w 128 21
    if 65536 ≤ i then (.ok (s.newEntry n i w [] (some teField)), s)
    else if k = 0 || 2 ^ 27 < list * 64 + 8 * k then
      (.ok (s.newEntry n i w [] (s.entryErr n w [])), s)
    else match s.tableWords list (cdiv (8 * k) 64) with
      | (.error d, s) => (.error d, s)
      | (.ok m, s) =>
        let marks := (List.range k).map (fun j => BitVec.ofNat 64 (wordsBytes m (8 * j) 8))
        (.ok (s.newEntry n i w marks (s.entryErr n w marks)), s)

/-! The path of the program (R215, R216, R219). -/

/-- What a LOOP pushes. -/
def loopLvl (w : BitVec 256) (i : Nat) : Lvl := ⟨BitVec.ofNat 32 (bits w 32 32), BitVec.ofNat 16 (i + 1), bits w 32 32 == 0⟩

/-- ENDLOOP on a loop stack (R215): where play continues and the stack after it. -/
def endloopStep (i : Nat) : List Lvl → Nat × List Lvl
  | [] => (i + 1, [])
  | l :: t =>
    if l.inf then (l.body.toNat, l :: t)
    else if 1 < l.count.toNat then (l.body.toNat, { l with count := l.count - 1 } :: t)
    else (i + 1, t)

/-- Where the path goes after an entry, with its stack; `none` where it ends or is decided at run time; and the depth
error of the entry (R215, R220, R221). -/
def pathStep (e : LEntry) (st : List Lvl) : Option Nat × List Lvl × Option Nat :=
  match entOp e.word with
  | 2 => if 4 ≤ st.length then (none, st, some teDepth) else (some (e.index + 1), loopLvl e.word e.index :: st, none)
  | 3 => if st.isEmpty then (none, st, some teEndloop) else
    let (i, st') := endloopStep e.index st
    (some i, st', none)
  | 4 =>
    if bits e.word 8 2 != 0 then (some (e.index + 1), st, none)
    else if bitOf e.word 11 then (none, st, none)
    else (some (bits e.word 32 16), if bitOf e.word 12 then st else [], none)
  | 7 => (none, st, none)
  | _ => (some (e.index + 1), st, none)

/-- Take an entry into the lookahead along the path. -/
def Seq.take (q : Seq) (e : LEntry) : Seq :=
  let run := if entOp e.word = 1 then 0 else q.noPlay + 1
  let (next, st, err) := pathStep e q.fetchStack
  let err := match e.err with
    | some d => some d
    | none => (match err with | some d => some d | none => if 256 ≤ run then some teNoPlay else none).map (BitVec.ofNat 8)
  { q with
    look := q.look ++ [{ e with err := err, feed := if err.isSome then .none else e.feed }], noPlay := run, fetchStack := st,
    fetchNext := next.getD 0, fetchEnded := next.isNone || err.isSome }

/-! Streams of Moraine PLAYs and read-ahead (R222, R225). -/

/-- A PLAY whose stream has ended DONE is staged whole. -/
def Feed.done (f : Feed) : Feed := match f with | .live => .whole | x => x

/-- An entry waits for its stream. -/
def LEntry.waits (x : LEntry) : Bool := x.feed == .wait
/-- An entry's stream is the open one. -/
def LEntry.feeds (x : LEntry) : Bool := x.feed == .live
/-- The stream before the next one has ended. -/
def LEntry.fed (x : LEntry) : LEntry := { x with feed := x.feed.done }
/-- The stream of the first entry that waits opens. -/
def feedFirst (l : List LEntry) : List LEntry := modFirst LEntry.waits (fun x => { x with feed := .live }) l

/-- The PLAY whose stream opens next: the playing one, then those of the lookahead, then those of cold targets. -/
def Seq.nextFeed (q : Seq) : Option (BitVec 256) :=
  match q.play.filter (fun p => p.feed == .wait) with
  | some p => some p.word
  | none => ((q.look ++ q.pre.flatMap (fun x => x.entries)).find? LEntry.waits).map (fun x => x.word)

/-- That PLAY's stream is open; one that was before it is done. -/
def Seq.feedOpen (q : Seq) : Seq :=
  let play := q.play.map (fun p => { p with feed := p.feed.done })
  let look := q.look.map LEntry.fed
  let pre := q.pre.map (fun y => { y with entries := y.entries.map LEntry.fed })
  match play.filter (fun p => p.feed == .wait) with
  | some p => { q with play := some { p with feed := .live }, look := look, pre := pre }
  | none =>
    if look.any LEntry.waits then { q with play := play, look := feedFirst look, pre := pre }
    else { q with
      play := play, look := look
      pre := modFirst (fun y => y.entries.any LEntry.waits) (fun y => { y with entries := feedFirst y.entries }) pre }

/-- Whether some PLAY of the path or of a cold target owns the open stream. -/
def Seq.feeds (q : Seq) : Bool :=
  (q.play.map (fun p => p.feed == .live)).getD false || q.look.any LEntry.feeds || q.pre.any (fun y => y.entries.any LEntry.feeds)

/-- The stream of the next Moraine PLAY opens where the one before has ended DONE (R225). -/
def State.seqStream (s : State) (n : Nat) : State :=
  let q := s.seq n
  match q.nextFeed with
  | none => s
  | some w =>
    let st := (s.stream n).st
    if st = .idle || st = .done then
      (s.setSeq n q.feedOpen).streamStart n (playAddr w) (cdiv (playLen w * sampleBytes n) 64 * 64) (playBase w) (playRegions w)
    else s

/-- Words that a reader reads ahead: 8 KiB or 256 B (R222). -/
def preWords (n : Nat) : Nat := if n < 8 then 128 else 4

/-- Word i of a PLAY as sequencer n's reader takes it. -/
def State.readWordAhead (s : State) (n : Nat) (w : BitVec 256) (feed : Feed) (i : Nat) : Option Held × State :=
  match feed with
  | .none => let (h, s) := s.heldWord n (playWord w i); (some h, s)
  | .wait => (none, s)
  | .live => s.stagedWord n n false (playWord w i) i
  | .whole => s.stagedWord n n true (playWord w i) i

/-- Whether a reader still wants words of an entry. -/
def LEntry.wants (n : Nat) (x : LEntry) : Bool :=
  entOp x.word == 1 && x.err.isNone && decide (x.data.length < playWords n x.word)

/-- Sequencer n's reader reads ahead, word by word along its path: of the playing occurrence, then of the PLAYs that the
lookahead holds (R222). How fast it reads, the spec does not say: what it can read, it reads in one core cycle (log 57). -/
def State.readAhead (s : State) (n : Nat) : Nat → State
  | 0 => s
  | k + 1 =>
    let q := s.seq n
    let have_ := (q.play.map (fun p => p.held.length)).getD 0 + q.look.foldl (fun a x => a + x.data.length) 0
    if preWords n < have_ then s
    else
      match q.play.filter (fun p => decide (p.heldAt + p.held.length < playWords n p.word)) with
      | some p =>
        match s.readWordAhead n p.word p.feed (p.heldAt + p.held.length) with
        | (some h, s) => State.readAhead (s.modSeq n (fun q => { q with play := some { p with held := p.held ++ [h] } })) n k
        | (none, s) => s
      | none =>
        match q.look.find? (LEntry.wants n) with
        | none => s
        | some x =>
          match s.readWordAhead n x.word x.feed x.data.length with
          | (some h, s) => State.readAhead (s.modSeq n (fun q => { q with
              look := modFirst (LEntry.wants n) (fun x => { x with data := x.data ++ [h] }) q.look })) n k
          | (none, s) => s

/-- The preload of cold targets reads the first words of their first PLAYs (R224). -/
def State.readPre (s : State) (n : Nat) : Nat → State
  | 0 => s
  | k + 1 =>
    let want (x : LEntry) : Bool := x.wants n && decide (x.data.length < preWords n)
    match (s.seq n).pre.findSome? (fun y => y.entries.find? want) with
    | none => s
    | some x =>
      match s.readWordAhead n x.word x.feed x.data.length with
      | (some h, s) => State.readPre (s.modSeq n (fun q => { q with
          pre := modFirst (fun y => y.entries.any want)
            (fun y => { y with entries := modFirst want (fun x => { x with data := x.data ++ [h] }) y.entries }) q.pre })) n k
      | (none, s) => s

/-- Words that play has passed are dropped. -/
def Play.trim (n : Nat) (p : Play) : Play :=
  let k := p.seen / wordSamples n
  { p with held := p.held.drop (k - p.heldAt), heldAt := max p.heldAt k }

/-- One core cycle of sequencer n's reader. -/
def State.readTick (s : State) (n : Nat) : State :=
  let s := (s.modSeq n (fun q => { q with play := q.play.map (Play.trim n) })).seqStream n
  if (s.seq n).reads then (s.readAhead n (preWords n + 1)).readPre n (2 * preWords n) else s

/-! Markers (R218). -/

/-- The actions of an occurrence that starts at an edge, ahead of those that wait already. -/
def State.schedMarkers (s : State) (n : Nat) (marks : List (BitVec 64)) (e : Nat) : State :=
  let sp := s.spacing n
  s.modSeq n (fun q => { q with markers := q.markers ++ marks.map (fun m =>
    ⟨m, e + bits m 0 40 * sp, e + bits m 0 40 * sp⟩) })

/-- Actions whose samples lie beyond an edge are not issued (R218). -/
def State.dropMarkers (s : State) (n e : Nat) : State :=
  s.modSeq n (fun q => { q with markers := q.markers.filter (fun m => decide (m.own < e)) })

/-- Apply the actions of sequencers below n that stand on a line at an edge (R247). -/
def State.lowerMarks (s : State) (n l e : Nat) : State :=
  s.each (List.range n) (fun s k =>
    let hit (m : MAct) : Bool := bits m.entry 40 6 == l && m.edge == e
    let l' := (s.seq k).markers.filter hit
    (s.modSeq k (fun q => { q with markers := q.markers.filter (fun m => !hit m) })).each l' (fun s m =>
      s.lineMark l (bits m.entry 46 2) (bits m.entry 48 16) e))

/-- The oldest waiting action of sequencer n of a kind on a line at a sample index of its core cycle. -/
def State.markerDue (s : State) (n act l i : Nat) (width : Option Nat) : Option MAct :=
  (s.seq n).markers.find? (fun m => bits m.entry 46 2 == act && bits m.entry 40 6 == l && m.edge % 16 == i &&
    (match width with | some w => bits m.entry 48 16 == w | none => true))

/-- Issue a waiting action (R218, R247): past four in one core cycle it moves to the next one and counts. -/
def State.issueMarker (s : State) (n : Nat) (m : MAct) : State :=
  let q := s.seq n
  let cyc := m.edge / 16
  let used := if q.mkrCycle = cyc then q.mkrCount else 0
  if 4 ≤ used then
    ((s.setSeq n { q with markers := modFirst (fun x => x == m) (fun x => { x with edge := x.edge + 16 }) q.markers }).bump
      (wSeq n + 0x94)).raise (aSeqEv n) (bit1 4)
  else
    let l := bits m.entry 40 6
    let s := s.setSeq n { q with markers := q.markers.erase m, mkrCycle := cyc, mkrCount := used + 1 }
    (s.lowerMarks n l m.edge).lineMark l (bits m.entry 46 2) (bits m.entry 48 16) m.edge

/-! Samples and underrun episodes (R232 to R234). -/

/-- Whether a burst runs (R235). -/
def Seq.bursting (q : Seq) : Bool := q.st == .run || q.st == .wait

/-- The episode in progress ends: its record is posted (R234). -/
def State.postEpisode (s : State) (n : Nat) : State :=
  match (s.seq n).episode with
  | none => s
  | some ep =>
    let s := (s.bump (wSeq n + 0x90)).raise (aSeqEv n) (bit1 1)
    let s := s.modSeq n (fun q => { q with episode := none, affected := q.affected + BitVec.ofNat 64 ep.count })
    s.underrunRecord ep.entry ep.policy.toNat n ep.cause.toNat ep.count ep.first 0

/-- The playing occurrence is given up; its actions beyond an edge are not issued. -/
def State.dropPlay (s : State) (n e : Nat) : State :=
  (s.modSeq n (fun q => { q with
    play := none, waiting := none
    played := match q.play with
      | some p => q.played + BitVec.ofNat 64 p.seen
      | none => q.played })).dropMarkers n e

/-- The lookahead and the stream of the path in progress are given up; entries that have acted since the last PLAY still count
(R220). -/
def State.clearPath (s : State) (n : Nat) : State :=
  let s := s.modSeq n (fun q => { q with look := [], fetchEnded := true, noPlay := q.ran })
  if (s.seq n).feeds then s else s.streamStop n

/-- The running burst is over from an edge on (R235): its play and its path go, its latch and stop clear, its episode ends and
its pattern lines stop; with `safe` the output carries the safe code until the next START (R221, R233). -/
def State.burstOver (s : State) (n e : Nat) (safe : Bool) : State :=
  if !(s.seq n).bursting then s
  else
    let s := ((s.postEpisode n).dropPlay n e).clearPath n
    let s := s.modSeq n (fun q => { q with
      st := .idle, stack := [], latch := none, stopAtEnd := false, ownEnd := none, errHold := safe })
    ((s.raise (aSeqEv n) (bit1 0)).extChange (0x30 + n) false e).linesStop n e

/-- One sample of the playing occurrence comes out. A missing one opens or extends the episode, a delivered one ends it; a stall
under REPEAT drops the markers still to come and reopens a Moraine stream, its restart issues the markers again, and after
REPEAT_MAX repeats the burst ends (R233, R234). -/
def State.sampleStep (s : State) (n : Nat) : State :=
  let q := s.seq n
  match q.play with
  | none => s
  | some p =>
    let (p', v, c) := s.playStep n q p q.last
    let on (s : State) : State := s.modSeq n (fun q => { q with play := some p', last := v })
    let again (s : State) : State := if p'.repeats = p.repeats then s else s.schedMarkers n p.markers p.next
    match c with
    | none => again (on (s.postEpisode n))
    | some c =>
      let stalls := p'.stalled.isSome && (p.stalled.isNone || p'.repeats != p.repeats)
      let spent := stalls && decide (q.repeatMax ≤ p'.repeats)
      let ep : Episode := match q.episode with
        | some ep => { ep with count := ep.count + 1, policy := if spent then 3 else ep.policy }
        | none => ⟨p.index, BitVec.ofNat 8 c, BitVec.ofNat 2 (if spent then 3 else q.policy), 1, s.ftOfEdge p.next⟩
      let s := again ((on s).modSeq n (fun q => { q with episode := some ep }))
      if spent then s.burstOver n p.next true
      else if stalls then
        let s := s.dropMarkers n p.next
        if p.feed = .none then s
        else
          (s.modSeq n (fun q => { q with
            look := q.look.map (fun x => { x with feed := if x.feed = .live then .wait else x.feed }) })).streamStop n
      else s

/-- The samples of the playing occurrence before an edge come out. -/
def State.samplesUp (s : State) (n e : Nat) : Nat → State
  | 0 => s
  | k + 1 =>
    match (s.seq n).play with
    | none => s
    | some p => if p.more && decide (p.next < e) then State.samplesUp (s.sampleStep n) n e k else s

/-- The samples of channel n before an edge come out. -/
def State.samplesTo (s : State) (n e : Nat) : State :=
  match (s.seq n).play with
  | none => s
  | some p => s.samplesUp n e (cdiv (e - p.next) (s.spacing n))

/-- Channel n's samples before an edge are out, and its output value there is kept (R212). -/
def State.keepLast (s : State) (n e : Nat) : State :=
  let s := s.samplesTo n e
  let v := s.valueAt n (e - s.spacing n)
  s.modSeq n (fun q => { q with last := v })

/-! Bursts, jumps, starts and stops (R224 to R231, R235). -/

/-- The playing occurrence is abandoned at an edge. -/
def State.abandonPlay (s : State) (n e : Nat) : State := (s.keepLast n e).dropPlay n e

/-- The running burst ends at an edge (R235), after the samples before it. -/
def State.endBurst (s : State) (n e : Nat) (safe : Bool := false) : State :=
  if !(s.seq n).bursting then s else (s.keepLast n e).burstOver n e safe

/-- A table error ends the burst at an edge (R221). -/
def State.tableError (s : State) (n index detail e : Nat) : State :=
  let s := ((s.endBurst n e true).raise (aSeqEv n) (bit1 2)).raise (aSeqEv n) (bit1 1)
  (s.bump (wSeq n + 0x90)).underrunRecord index 3 n 6 0 (s.ftOfEdge e) detail

/-- Entry of a slot's register. -/
def State.slotEntry (s : State) (n k : Nat) : Nat := s.fld (aSeqSlot n k) 0 16
/-- Slot k beyond its register. -/
def Seq.slotOf (q : Seq) (k : Nat) : Slot := Tab.get (fun _ => Slot.reset) q.slots k
/-- Write a slot. -/
def Seq.setSlot (q : Seq) (k : Nat) (x : Slot) : Seq := { q with slots := Tab.set (fun _ => Slot.reset) q.slots k x }

/-- The entries that a target brings: a READY slot's, or those that the preload of an order's cold target has read (R224). -/
def Seq.broughtBy (q : Seq) (t : Target) : Option (List LEntry) :=
  match t with
  | .slot k => if (q.slotOf k).ready then some (q.slotOf k).entries else (q.pre.find? (fun x => x.target == t)).map (fun x => x.entries)
  | .entry _ => (q.pre.find? (fun x => x.target == t)).map (fun x => x.entries)

/-- Whether a target is cold (R224). -/
def Seq.isCold (q : Seq) (t : Target) : Bool :=
  match t with
  | .slot k => !(q.slotOf k).ready
  | .entry _ => true

/-- The entry of the table at which a target stands. -/
def State.targetEntry (s : State) (n : Nat) (t : Target) : Nat :=
  match t with
  | .slot k => s.slotEntry n k
  | .entry i => i.toNat

/-- Play goes to a target at an edge with the loop stack as it stands (R224). -/
def State.goTo (s : State) (n : Nat) (t : Target) (e : Nat) : State :=
  let s := s.clearPath n
  let q := s.seq n
  let l := (q.broughtBy t).getD []
  let q := { q with
    st := .run, bnd := s.sampleUp n e, fetchStack := q.stack, fetchEnded := false, fetchNext := s.targetEntry n t
    cold := q.isCold t, pre := q.pre.filter (fun x => x.target != t) }
  s.setSeq n (l.foldl Seq.take q)

/-- A jump acts at an edge (R216, R224, R227): the playing occurrence is abandoned and the latch clears. A burst that an
underrun has ended before the edge is not taken up. -/
def State.jumpTo (s : State) (n : Nat) (t : Target) (keep : Bool) (e : Nat) : State :=
  let s := s.keepLast n e
  if !(s.seq n).bursting then s
  else
    ((s.dropPlay n e).modSeq n (fun q => { q with latch := none, stack := if keep then q.stack else [] })).goTo n t e

/-- A burst begins at an edge (R229): a running one ends there. -/
def State.startBurst (s : State) (n : Nat) (t : Target) (e : Nat) : State :=
  let s := (((s.endBurst n e).keepLast n e).bump (wSeq n + 0x98)).modSeq n (fun q => { q with
    stack := [], latch := none, stopAtEnd := false, ownEnd := none, errHold := false, ran := 0 })
  ((s.goTo n t e).extChange (0x30 + n) true e).linesStart n (s.sampleUp n e)

/-- STACK of a slot's register: whether a jump to it keeps the loop stack. -/
def State.slotKeeps (s : State) (n k : Nat) : Bool := s.flag (aSeqSlot n k) 16

/-- A stop acts at an edge (R230); the answer is its status. -/
def State.stopAct (s : State) (n : Nat) (segEnd : Bool) (e : Nat) : Nat × State :=
  match (s.seq n).st with
  | .run => if segEnd then (sDone, s.modSeq n (fun q => { q with stopAtEnd := true })) else (sDone, s.endBurst n e)
  | .wait => (sDone, s.endBurst n e)
  | _ => (sNoBurst, s)

/-- A jump order or action acts at an edge (R226, R227, R230, R231); the answer is its status. -/
def State.jumpAct (s : State) (n : Nat) (t : Target) (keep segEnd : Bool) (e : Nat) : Nat × State :=
  match (s.seq n).st with
  | .run => if segEnd then (sDone, s.modSeq n (fun q => { q with latch := some (t, keep) })) else (sDone, s.jumpTo n t keep e)
  | .wait => (sDone, s.jumpTo n t keep e)
  | .idle => (sNoBurst, s)
  | _ => (sDone, s)

/-- A WAIT for a flag ends at an edge: play resumes there with the next entry, at the WAIT's own boundary at the earliest
(R217). -/
def State.wakeSeq (s : State) (n e : Nat) : State :=
  let q := s.seq n
  match q.st, q.waiting with
  | .wait, some w =>
    let s := s.keepLast n e
    let s := s.modSeq n (fun q => { q with st := .run, waiting := none, bnd := s.sampleUp n (max e q.bnd) })
    if w.consume then s.putReg (aFlags n) (putBits (s.reg (aFlags n)) w.flag 1 0) else s
  | _, _ => s

/-- A flag is set at an edge (R217, R226). -/
def State.setFlagAt (s : State) (n f e : Nat) : State :=
  let s := s.putReg (aFlags n) (putBits (s.reg (aFlags n)) f 1 1)
  match (s.seq n).waiting with
  | some w => if w.flag = f then s.wakeSeq n e else s
  | none => s

/-- A flag is cleared. -/
def State.clearFlag (s : State) (n f : Nat) : State := s.putReg (aFlags n) (putBits (s.reg (aFlags n)) f 1 0)

/-- The channel's flags were written (SEQ_FLAGS): a WAIT whose flag is set now goes on. -/
def State.flagsWritten (s : State) (n e : Nat) : State :=
  match (s.seq n).waiting with
  | some w => if s.flag (aFlags n) w.flag then s.wakeSeq n e else s
  | none => s

/-- A force acts at an edge (R212, R228). -/
def State.forceAct (s : State) (n kind e : Nat) : State :=
  let v := s.chanOut n e
  s.modSeq n (fun q => { q with force := if kind = 0 then .none else if kind = 1 then .safe else .hold v })

/-! Entries at their boundary. -/

/-- The entry at the boundary, where play stands between two occurrences. -/
def State.atBoundary (s : State) (n : Nat) : Option LEntry :=
  let q := s.seq n
  if q.st = .run && q.play.isNone then q.look.head? else none

/-- The entry leaves the lookahead and names the channel's position. -/
def Seq.pass (q : Seq) (x : LEntry) : Seq := { q with look := q.look.tail, entry := x.index, ran := q.ran + 1 }

/-- The samples of a PLAY that were due before its entry was taken in (R219, R224): cause, first, count. -/
def State.playLate (s : State) (n : Nat) (x : LEntry) (e : Nat) : Option (BitVec 8 × Nat × Nat) :=
  if x.taken * 16 ≤ e then none
  else some (if (s.seq n).cold then 5 else 7, 0, min (playLen x.word) (cdiv (x.taken * 16 - e) (s.spacing n)))

/-- A PLAY starts at the boundary (R214): its markers, its lines' restarts. Samples that come too late are known by the entry,
or the command says which they are. -/
def State.playStart (s : State) (n : Nat) (x : LEntry) (late : Option (BitVec 8 × Nat × Nat)) : State :=
  let q := s.seq n
  let e := s.sampleUp n q.bnd
  let p : Play :=
    { index := x.index, word := x.word, seen := 0, next := e, late := late.orElse (fun _ => s.playLate n x e), repeats := 0,
      stalled := none, markers := x.markers, held := x.data, heldAt := 0, feed := x.feed }
  let s := s.setSeq n { q.pass x with play := some p, ran := 0, cold := false }
  (s.schedMarkers n x.markers e).linesSync n x.index e

/-- The loop stack after a LOOP or an ENDLOOP; the other entries leave it. -/
def loopAct (x : LEntry) (st : List Lvl) : List Lvl :=
  match entOp x.word with
  | 2 => loopLvl x.word x.index :: st
  | 3 => (endloopStep x.index st).2
  | _ => st

/-- A LOOP or ENDLOOP acts (R215): the lookahead has followed it. -/
def State.loopStep (s : State) (n : Nat) (x : LEntry) : State :=
  s.modSeq n (fun q => { q.pass x with stack := loopAct x q.stack })

/-- Whether a JUMP entry's condition holds (R216). -/
def jumpTaken (w : BitVec 256) (flag : Bool) : Bool :=
  match bits w 8 2 with
  | 0 => true
  | 1 => flag
  | _ => !flag

/-- A JUMP entry acts at its boundary (R216). -/
def State.jumpStep (s : State) (n : Nat) (x : LEntry) : State :=
  let f := bits x.word 16 3
  let flag := s.flag (aFlags n) f
  let s := if bits x.word 8 2 != 0 && bitOf x.word 10 then s.clearFlag n f else s
  let keep := bitOf x.word 12
  if !jumpTaken x.word flag then s.modSeq n (fun q => q.pass x)
  else if bitOf x.word 11 then
    (s.modSeq n (fun q => q.pass x)).jumpTo n (.slot (bits x.word 20 3)) keep (s.seq n).bnd
  else s.modSeq n (fun q => { q.pass x with stack := if keep then q.stack else [] })

/-- A WAIT acts at its boundary (R217). -/
def State.waitStep (s : State) (n : Nat) (x : LEntry) : State :=
  let f := bits x.word 16 3
  let consume := bitOf x.word 10
  if s.flag (aFlags n) f then
    let s := if consume then s.clearFlag n f else s
    s.modSeq n (fun q => q.pass x)
  else s.modSeq n (fun q => { q.pass x with st := .wait, waiting := some ⟨f, consume, bitOf x.word 8⟩ })

/-- An NCO entry acts at its boundary (R217). -/
def State.ncoStep (s : State) (n : Nat) (x : LEntry) : State :=
  let sp := s.spacing n
  s.modSeq n (fun q =>
    (q.pass x).ncoSet sp (s.sampleUp n q.bnd)
      (if bitOf x.word 10 then none else some (BitVec.ofNat 64 (bits x.word 64 64))) (bits x.word 8 2) (bits x.word 136 56))

/-- The entry at the boundary acts where it is of a kind; one that is a table error ends the burst there (R221). -/
def State.entryStep (s : State) (n op : Nat) (act : State → LEntry → State) : State :=
  match s.atBoundary n with
  | none => s
  | some x =>
    if entOp x.word ≠ op then s
    else match x.err with
      | some d => s.tableError n x.index d.toNat (s.seq n).bnd
      | none => act s x

/-- The edge at which the playing occurrence ends, where no underrun stalls it. -/
def State.playEndEdge (s : State) (n : Nat) : Option Nat :=
  (s.seq n).play.bind (fun p =>
    if p.stalled.isSome then none else some (p.next + (playLen p.word - p.seen) * s.spacing n))

/-- A PLAY occurrence ends, its samples out (R227, R230): a segment-end stop or the latched jump acts in place of what would
follow. An occurrence that an underrun will repeat does not end. -/
def State.playDone (s : State) (n : Nat) : State :=
  match s.playEndEdge n with
  | none => s
  | some e =>
    let s := s.samplesTo n e
    let q := s.seq n
    match q.play with
    | none => s
    | some p =>
      if q.st ≠ .run || p.more then s
      else
        let s := s.modSeq n (fun q => { q with
          play := none, bnd := p.next, played := q.played + BitVec.ofNat 64 (playLen p.word) })
        if q.stopAtEnd then s.endBurst n p.next
        else match q.latch with
          | some (t, keep) => s.jumpTo n t keep p.next
          | none => s

/-! Fetch and slots. -/

/-- The entries of a slot or a cold target up to its first PLAY, where those before it are all LOOP or NCO (R223). -/
def slotPath : List LEntry → Option (List LEntry)
  | [] => none
  | e :: l =>
    if e.err.isSome then none
    else if entOp e.word = 1 then some [e]
    else if entOp e.word = 2 || entOp e.word = 6 then (slotPath l).map (fun t => e :: t)
    else none

/-- Whether the preload of a cold target reads on: up to four entries, to the first PLAY, past LOOP and NCO entries alone. -/
def Pre.reads (x : Pre) : Bool :=
  decide (x.entries.length < 4) && x.entries.all (fun e => e.err.isNone && (entOp e.word == 2 || entOp e.word == 6))

/-- The preload of a cold target takes in its next entry (R224); where that cannot be read, the target stays cold. -/
def State.fetchPre (s : State) (n : Nat) (x : Pre) : State :=
  let (r, s) := s.readEntry n (s.targetEntry n x.target + x.entries.length)
  s.modSeq n (fun q => { q with
    fetchAt := some s.now
    pre := match r with
      | .error _ => q.pre.filter (fun y => y != x)
      | .ok e => modFirst (fun y => y == x) (fun y => { y with entries := y.entries ++ [e] }) q.pre })

/-- The lookahead takes in one entry (R219), that of a cold target an order has named first (R224); a fetch that fails ends the
burst (R221). -/
def State.fetchEntry (s : State) (n : Nat) : State :=
  let q := s.seq n
  match q.pre.find? Pre.reads with
  | some x => s.fetchPre n x
  | none =>
    if !q.bursting || q.fetchEnded || 32 ≤ q.look.length then s
    else
      let (r, s) := s.readEntry n q.fetchNext
      match r with
      | .error d => s.tableError n q.fetchNext d (s.sampleUp n (s.fastNow 0))
      | .ok e => s.modSeq n (fun q => { q.take e with fetchAt := some s.now })

/-- Orders name targets of sequencer n: the preloads of the cold ones among them start or go on, others end (R224). -/
def State.preloadTargets (s : State) (n : Nat) (l : List Target) : State :=
  let q := s.seq n
  let kept := q.pre.filter (fun x => l.contains x.target)
  let new := (l.filter (fun t => q.isCold t && !kept.any (fun x => x.target == t))).eraseDups.map (fun t => (⟨t, []⟩ : Pre))
  let had := q.feeds
  let s := s.setSeq n { q with pre := kept ++ new }
  if had && !(s.seq n).feeds then s.streamStop n else s

/-- SEQ_SLOTk is written: its preload starts (R223). -/
def State.slotLoad (s : State) (n k : Nat) : State :=
  s.modSeq n (fun q => q.setSlot k ⟨true, false, false, []⟩)

/-- Read the four entries of a slot's target. -/
def State.slotEntries (s : State) (n i : Nat) : Nat → List LEntry × State
  | 0 => ([], s)
  | k + 1 =>
    match s.readEntry n i with
    | (.error _, s) => ([], s)
    | (.ok e, s) =>
      let (l, s) := State.slotEntries s n (i + 1) k
      (e :: l, s)

/-- Read a PLAY's first words for a slot. -/
def State.slotData (s : State) (n w : Nat) : Nat → List Held × State
  | 0 => ([], s)
  | k + 1 =>
    let (x, s) := s.heldWord n w
    let (l, s) := State.slotData s n (w + 1) k
    (x :: l, s)

/-- A slot's preload ends (R223): READY, or REJECTED. Its entries are there from then on. -/
def State.slotDone (s : State) (n k : Nat) : State :=
  if !((s.seq n).slotOf k).loading then s
  else
    let (l, s) := s.slotEntries n (s.slotEntry n k) 4
    let q := s.seq n
    let reject := (s.modSeq n (fun q => q.setSlot k ⟨false, false, true, []⟩)).raise (aSeqEv n) (bit1 3)
    match slotPath l with
    | none => reject
    | some path =>
      match path.getLast? with
      | none => reject
      | some p =>
        if playMor p.word then reject
        else if !q.reads then s.modSeq n (fun q => q.setSlot k ⟨false, true, false, path⟩)
        else if playLen p.word * sampleBytes n < preWords n * 64 then reject
        else
          let (d, s) := s.slotData n (playAddr p.word / 64) (preWords n)
          s.modSeq n (fun q => q.setSlot k ⟨false, true, false, path.dropLast ++ [{ p with data := d }]⟩)

/-! Channel states and one core cycle (R225, R235, R236, R240). -/

/-- SEQ_CTRL becomes live at a core-cycle boundary (R235, R236). -/
def State.seqLive (s : State) (n : Nat) : State :=
  let v := s.reg (wSeq n)
  let q := s.seq n
  if v = q.ctrl || q.st = .retired then s
  else
    let e := s.fastNow 0
    if bitOf v 0 && q.st = .off then
      s.setSeq n { q with
        ctrl := v, st := .idle, ncoAt := s.sampleUp n e, phase := 0,
        ftw := s.reg (wSeq n + 0x10) ++ s.reg (wSeq n + 0x0C), ncoOld := [], played := 0, affected := 0, last := s.safeCode n,
        errHold := false }
    else if !bitOf v 0 then
      (s.endBurst n (s.sampleUp n e)).modSeq n (fun q => { q with ctrl := v, st := .off })
    else s.setSeq n { q with ctrl := v }

/-- One core cycle of a sequencer: its reader reads ahead; a faulty entry at a boundary that has come ends the burst (R221); the
samples of the cycle come out. -/
def State.seqCycle (s : State) (n : Nat) : State :=
  let q := s.seq n
  if !q.bursting && q.pre.isEmpty then s
  else
    let s := s.readTick n
    let s := match s.atBoundary n with
      | some x => match x.err with
        | some d => if (s.seq n).bnd < s.fastNow 16 then s.tableError n x.index d.toNat (s.seq n).bnd else s
        | none => s
      | none => s
    (s.samplesTo n (s.fastNow 16)).modSeq n (fun q => q.forget (s.fastNow 16))

/-- The samples of an occurrence stand on a new grid from an edge on: the next one, and the actions of those to come. -/
def Seq.regrid (q : Seq) (sp e x : Nat) : Seq :=
  let k := (q.play.map (fun p => p.seen)).getD 0
  let move (m : MAct) : MAct :=
    if e ≤ m.own && q.play.isSome && decide (k ≤ bits m.entry 0 40) then
      let t := x + (bits m.entry 0 40 - k) * sp
      { m with edge := t + (m.edge - m.own), own := t }
    else m
  { q with
    play := q.play.map (fun p => { p with next := x })
    bnd := if q.play.isNone && e ≤ q.bnd then x else q.bnd
    markers := q.markers.map move }

/-- PDIV changes from a spacing of the samples, from an edge on (R208, R210): the precision samples before it are out, the next
one of every channel crosses at the first point of the new grid, with the phase that follows the last one's (DESIGN CHOICE,
log 60: from which edge the new rate holds). -/
def State.reanchor (s : State) (sp e : Nat) : State :=
  s.each (List.range 16) (fun s j =>
    let n := 8 + j
    let d := cdiv (s.fastNow 0) sp * sp
    let s := if d < e then s.modSeq n (fun q => q.anchor d (q.phaseAt sp d) q.ftw) else s
    let s := s.samplesTo n e
    let x := s.sampleUp n e
    s.modSeq n (fun q => { q.regrid (s.spacing n) e x with
      ncoAt := x, phase := q.phase + BitVec.ofNat 64 (cdiv (e - q.ncoAt) sp) * q.ftw, ncoOld := [] }))

/-! Links (R238 to R240). -/

/-- SEQ_LINK_CFG or SEQ_PLINK_CFG of transmit link k (0 to 7 fast, 8 precision). -/
def aLinkCfg (k : Nat) : Nat := wSeq k + 0x100
/-- SEQ_LINK_STAT of transmit link k. -/
def aLinkStat (k : Nat) : Nat := wSeq k + 0x104

/-- The lane rate of a link configuration at a point, in Hz as numerator and denominator, and whether it is in range
(R239). -/
def laneRateOk (k : Nat) (v : Word) (x : Point) : Bool :=
  let (a, b) := x.rate
  let lanes := 2 ^ bits v 20 2
  if k < 8 then
    let num := a * 16 * 66
    let den := b * 64 * lanes
    decide (600000000 * den ≤ num ∧ num ≤ 32500000000 * den)
  else
    let m := 4 * 2 ^ bits v 16 2
    let enc := bitOf v 24
    let (r, q) := if enc then (10, 8) else (66, 64)
    let num := a * m * 24 * r
    let den := b * 16 * max 1 (bits v 0 16) * q * lanes
    decide (600000000 * den ≤ num ∧ num ≤ (if enc then 12500000000 else 32500000000) * den)

/-- A link's ENABLE as written (R240). -/
def State.txWritten (s : State) (k : Nat) : State :=
  let l := s.txl k
  if s.flag (aLinkCfg k) 31 then (if l.st = .off then s.setTxl k { l with st := .align } else s)
  else s.setTxl k { l with st := .off }

/-- Channel n's link and whether channel n has a position on it. -/
def State.chanLink (s : State) (n : Nat) : Nat × Bool :=
  if n < 8 then (n, true) else (8, decide (n - 8 < 4 * 2 ^ s.fld aPlink 16 2))

/-- Samples of a playing channel whose link is not in DATA, or has a serializer out of lock, are dropped (R240, R367). -/
def State.linkDrop (s : State) (n : Nat) : State :=
  let (k, pos) := s.chanLink n
  if pos && (s.seq n).bursting && ((s.txl k).st != .data || (s.txl k).unlocked) then s.raise (aSeqEv n) (bit1 5) else s

end Sys2Proof.Machine
end

