-- ==== Sys2Proof/Machine/Tla.lean ====
section
/-!
DEFINITION. The trigger logic array: sources, cells, flip-flops, the configuration check, the swap, Serac (chapter 10).
-/

namespace Sys2Proof.Machine

/-- TLA_EVENTS. -/
def aTlaEv : Nat := wTla + 0x38

/-! Configuration (R275). -/

/-- Word i of a bank. -/
def TBank.word (b : TBank) (i : Nat) : BitVec 64 := Tab.get (fun _ => 0) b.words i
/-- Store a word of a bank, its errors gone. -/
def TBank.store (b : TBank) (i : Nat) (v : BitVec 64) : TBank :=
  { b with words := Tab.set (fun _ => 0) b.words i v, errs := Tab.set (fun _ => 0) b.errs i 0 }
/-- Bits of a bank's word that are wrong. -/
def TBank.err (b : TBank) (i : Nat) : BitVec 72 := Tab.get (fun _ => 0) b.errs i

/-- The active bank. -/
def Tla.act (t : Tla) : TBank := if t.active then t.bank1 else t.bank0
/-- The shadow bank. -/
def Tla.sh (t : Tla) : TBank := if t.active then t.bank0 else t.bank1
/-- Write the active bank. -/
def Tla.setAct (t : Tla) (b : TBank) : Tla := if t.active then { t with bank1 := b } else { t with bank0 := b }
/-- Write the shadow bank. -/
def Tla.setSh (t : Tla) (b : TBank) : Tla := if t.active then { t with bank0 := b } else { t with bank1 := b }
/-- Change the TLA. -/
def State.modTla (s : State) (f : Tla → Tla) : State := { s with tla := f s.tla }

/-- The fields of a cell (R275). -/
structure Cell where
  ins : List Nat
  lut : Nat
  clk : Nat
  keep : Bool
  ff : Nat
  init : Bool
  out : Bool
  func : Nat
  gs0 : Nat
  gs1 : Nat
  deriving DecidableEq, Repr

/-- Cell c of a bank: its words A and B and its group's select word. -/
def TBank.cell (b : TBank) (c : Nat) : Cell :=
  let a := b.word (2 * c)
  let w := b.word (2 * c + 1)
  let g := b.word (0x800 + c / 16)
  { ins := [bits a 20 11, bits a 31 11, bits a 42 11, bits a 53 11], lut := bits a 0 16, clk := bits w 53 11,
    keep := bitOf w 6, ff := bits w 4 2, init := bitOf w 3, out := bitOf w 2, func := bits w 0 2,
    gs0 := bits g 0 11, gs1 := bits g 16 11 }

/-- The source of output n of a bank. -/
def TBank.outSrc (b : TBank) (n : Nat) : Nat := bits (b.word (0x840 + n)) 0 11

/-- The sources that a cell's LUT or MUX4 value reads. -/
def Cell.srcs (c : Cell) : List Nat := if c.func = 1 then c.ins ++ [c.gs0, c.gs1] else c.ins

/-- Cells that a bank configures: every other cell is all zero. -/
def TBank.cells (b : TBank) : List Nat := ((b.words.map (fun e => e.1 / 2)).filter (fun c => decide (c < 1024))).eraseDups

/-! Evaluation (R268 to R270). -/

/-- A net in one evaluation: level before, level at the end, change index (16 where it does not change). -/
structure Wave where
  old : Bool
  new : Bool
  idx : Nat
  deriving DecidableEq, Repr

/-- The level of a net at position j (R269). -/
def Wave.at (w : Wave) (j : Nat) : Bool := if j < w.idx then w.old else w.new

/-- A constant net. -/
def Wave.const (b : Bool) : Wave := ⟨b, b, 16⟩

/-- An external source in an evaluation (R265). -/
def ExtIn.wave (x : ExtIn) (code : Nat) : Wave :=
  let k := code - 0x400
  if k = 0x59 then .const true
  else ⟨bitOf x.old k, bitOf x.levels k, ((x.idx.find? (fun e => e.1 == k)).map (·.2)).getD 16⟩

/-- Levels of cell nets and flip-flops while an evaluation is worked out. -/
abbrev Waves := Tab Wave

/-- A net's wave by cell number. -/
def waveOf (w : Waves) (c : Nat) : Wave := Tab.get (fun _ => .const false) w c

/-- A source's wave. -/
def srcWave (x : ExtIn) (w : Waves) (code : Nat) : Wave := if code < 0x400 then waveOf w code else x.wave code

/-- A cell's LUT or MUX4 value at position j (R268). -/
def Cell.valueAt (c : Cell) (x : ExtIn) (w : Waves) (j : Nat) : Bool :=
  let l (s : Nat) : Bool := (srcWave x w s).at j
  let i (k : Nat) : Bool := l (c.ins.getD k 0)
  if c.func = 1 then i (2 * b01 (l c.gs1) + b01 (l c.gs0))
  else decide (c.lut / 2 ^ (b01 (i 3) * 8 + b01 (i 2) * 4 + b01 (i 1) * 2 + b01 (i 0)) % 2 = 1)

/-- The first position from which a list of positions' levels stays at its last one. -/
def settle (f : Nat → Bool) (last : Bool) : Nat → Nat
  | 0 => 0
  | k + 1 => if f k == last then settle f last k else k + 1

/-- A cell's LUT or MUX4 net in an evaluation, after its old level (R269). -/
def Cell.wave (c : Cell) (x : ExtIn) (w : Waves) (old : Bool) : Wave :=
  let f (j : Nat) : Bool := c.valueAt x w j
  let new := f 15
  ⟨old, new, if new == old then 16 else settle f new 16⟩

/-- One pass over the cells: D waves and output waves. -/
def cellPass (b : TBank) (x : ExtIn) (oldD : Nat → Bool) (q : Waves) (cells : List Nat) (w : Waves × Waves) : Waves × Waves :=
  cells.foldl (fun (w : Waves × Waves) c =>
    let k := b.cell c
    let d := k.wave x w.2 (oldD c)
    (Tab.set (fun _ => .const false) w.1 c d,
     Tab.set (fun _ => .const false) w.2 c (if k.out && k.ff != 0 then waveOf q c else d))) w

/-- Passes until nothing changes. -/
def cellSettle (b : TBank) (x : ExtIn) (oldD : Nat → Bool) (q : Waves) (cells : List Nat) : Nat → Waves × Waves → Waves × Waves
  | 0, w => w
  | k + 1, w =>
    let w' := cellPass b x oldD q cells w
    if w' == w then w else cellSettle b x oldD q cells k w'

/-- NET flip-flops whose clock rises at the lowest index at or above `lo`, not yet clocked (R270). -/
def netRises (b : TBank) (x : ExtIn) (w : Waves) (done : List Nat) (cells : List Nat) : Option (Nat × List Nat) :=
  let l := cells.filterMap (fun c =>
    let k := b.cell c
    let v := srcWave x w k.clk
    if k.ff = 2 && !done.contains c && !v.old && v.new && decide (v.idx < 16) then some (v.idx, c) else none)
  match l with
  | [] => none
  | e :: t =>
    let lo := t.foldl (fun m y => min m y.1) e.1
    some (lo, (l.filter (fun y => y.1 == lo)).map (·.2))

/-- NET flip-flops are clocked in order of index; each takes D as it stood before its clock (R270, R272). -/
def netClock (b : TBank) (x : ExtIn) (oldD : Nat → Bool) (cells : List Nat) :
    Nat → List Nat → Waves → Waves × Waves → Waves × (Waves × Waves)
  | 0, _, q, w => (q, w)
  | k + 1, done, q, w =>
    match netRises b x w.2 done cells with
    | none => (q, w)
    | some (c, l) =>
      let q' := l.foldl (fun q i =>
        let d := waveOf w.1 i
        let v := if c = 0 then d.old else d.at (c - 1)
        let o := waveOf q i
        let before := o.at (c - 1)
        Tab.set (fun _ => .const false) q i
          (if v == before then o else ⟨o.old, v, if v == o.old then 16 else c⟩)) q
      let w' := cellSettle b x oldD q' cells 1025 w
      netClock b x oldD cells k (done ++ l) q' w'

/-- The flip-flops at the start of an evaluation (R270, R273): CORE takes D of the evaluation before; the first evaluation
of a new state takes INIT, or keeps with KEEP after a swap. -/
def Tla.startQ (t : Tla) (b : TBank) (cells : List Nat) : Waves :=
  cells.foldl (fun q c =>
    let k := b.cell c
    if k.ff = 0 then q
    else
      let o := Tab.get (fun _ => ⟨false, 16⟩) t.q c
      let d := Tab.get (fun _ => ⟨false, 16⟩) t.d c
      let (v, i) :=
        if t.initEn || (t.initSwap && !k.keep) then (k.init, 0)
        else if k.ff = 1 then (d.level, if d.idx = 16 then 0 else d.idx)
        else (o.level, 16)
      Tab.set (fun _ => .const false) q c ⟨o.level, v, if v == o.level then 16 else i⟩) []

/-- One evaluation of the array over a core cycle's sources: the array afterwards, and the wave of each output. -/
def Tla.eval (t : Tla) (x : ExtIn) : Tla × (Nat → Wave) :=
  let b := t.act
  let cells := b.cells
  let oldD (c : Nat) : Bool := (Tab.get (fun _ => ⟨false, 16⟩) t.d c).level
  let q0 := t.startQ b cells
  let start (n : Tab Net) : Waves :=
    cells.foldl (fun w c => Tab.set (fun _ => .const false) w c (.const (Tab.get (fun _ => ⟨false, 16⟩) n c).level)) []
  let gone := (t.cells.filter (fun e => e.2.level && !cells.contains e.1)).map (fun e => (e.1, (⟨true, false, 0⟩ : Wave)))
  let w0 := gone.foldl (fun w e => Tab.set (fun _ => .const false) w e.1 e.2) (start t.cells)
  let w1 := cellSettle b x oldD q0 cells 1025 (start t.d, w0)
  let (q, w) := netClock b x oldD cells 1025 [] q0 w1
  let nets (w : Waves) : Tab Net :=
    cells.foldl (fun n c => Tab.set (fun _ => ⟨false, 16⟩) n c ⟨(waveOf w c).new, (waveOf w c).idx⟩) []
  ({ t with cells := nets w.2, q := nets q, d := nets w.1, initEn := false, initSwap := false },
   fun n =>
     let v := srcWave x w.2 (b.outSrc n)
     let old := bitOf t.outs n
     ⟨old, v.new, if v.new == old then 16 else if v.idx < 16 then v.idx else 0⟩)

/-- The sources of the core cycle that ends, from what changed in it (R265, R267). -/
def State.extIn (s : State) : ExtIn × BitVec 16 :=
  let t := s.tla
  let tick := s.time.running && s.time.cycle == 0
  let one (k : Nat) : Bool × Nat × Bool :=   -- level at the end, change index, caught
    let old := bitOf t.ext k
    let ch := s.mkr.ext.filter (fun c => c.code == k)
    let after (b : Bool) (i : Nat) : Bool × Nat × Bool := (b, if b == old then 16 else i, false)
    if k < 16 then
      let true_ := old != bitOf t.caught k
      match ch.getLast? with
      | some c =>
        if c.level == true_ && s.flag (wTla + 0x10) k then
          match ch.head? with
          | some f => (f.level, if f.level == old then 16 else f.idx, true)
          | none => after true_ 0
        else after c.level c.idx
      | none => after true_ 0
    else if k < 0x30 then
      match ch.getLast? with
      | some c => (true, c.idx, false)
      | none => after false 0
    else if k < 0x48 then
      match ch.getLast? with
      | some c => after c.level c.idx
      | none => (old, 16, false)
    else if k = 0x48 then after tick 0
    else if 0x50 ≤ k && k < 0x58 then after (bitOf t.soft (k - 0x50)) 0
    else (k == 0x59, 16, false)
  let all := (List.range 0x5A).map (fun k => (k, one k))
  (⟨t.ext, BitVec.ofNat 96 (all.foldl (fun a e => a + b01 e.2.1 * 2 ^ e.1) 0),
    (all.filter (fun e => decide (e.2.2.1 < 16))).map (fun e => (e.1, e.2.2.1))⟩,
   BitVec.ofNat 16 (all.foldl (fun a e => a + b01 e.2.2.2 * 2 ^ e.1) 0))

/-- TLA_DEFAULT_HI and _LO. -/
def State.tlaDefaults (s : State) : BitVec 64 := s.reg (wTla + 0x1C) ++ s.reg (wTla + 0x18)

/-- Whether the TLA is retired. -/
def State.tlaRetired (s : State) : Bool := s.isRetired uTla 0

/-- Every output as resampled from a core cycle on takes its default, with no edge: consumers see it six core cycles on (R280,
R287). -/
def State.tlaDefault (s : State) (from_ : Nat) : State :=
  let due := from_ + 6
  let v := s.tlaDefaults
  let s := s.modTla (fun t => { t with outs := v })
  { s with mkr := { s.mkr with
      edges := s.mkr.edges.filter (fun x => !(x.kind == 1 && decide (due ≤ x.due))),
      sched := s.mkr.sched.filter (fun x => !(x.kind == 1 && decide (due ≤ x.due))),
      outQ := s.mkr.outQ.filter (fun x => decide (x.due < due)) ++
        (List.range 64).map (fun n => ⟨due, n, 0, bitOf v n⟩) } }

/-- The window of the oldest waiting core cycle ends in this one's evaluation: outputs change 10 cycles on, with edges
for the triggers unless the change comes from the enable (R74, R280). -/
def State.tlaWindow (s : State) (x : ExtIn) : State :=
  let first := s.tla.initEn
  let (t, out) := s.tla.eval x
  let due := s.now + 10
  let ch := (List.range 64).filterMap (fun n =>
    let v := out n
    if v.idx < 16 then some (n, v) else none)
  let outs : BitVec 64 := ch.foldl (fun o e => putBits o e.1 1 (b01 e.2.new)) t.outs
  let s := { s with tla := { t with outs := outs } }
  s.each ch (fun s e =>
    let s := { s with mkr := { s.mkr with outQ := s.mkr.outQ ++ [⟨due, e.1, e.2.idx, e.2.new⟩] } }
    if first then s else s.trigEdges 1 e.1 e.2.new due e.2.idx)

/-- Outputs whose core cycle has come reach their consumers (R271). -/
def State.tlaShow (s : State) : State :=
  let now := s.mkr.outQ.filter (fun v => v.due == s.now)
  let outs : BitVec 64 := s.mkr.outNow.foldl (fun o v => putBits o v.output 1 (b01 v.level)) s.mkr.outs
  { s with mkr := { s.mkr with
      outs := outs, outNow := now, outQ := s.mkr.outQ.filter (fun v => decide (s.now < v.due)) } }

/-- The array at the start of a core cycle (R266, R279, R280): the cycle that ended waits for its window, the oldest of the
waiting enters it, with what is live from this boundary on. -/
def State.tlaCycle (s : State) (x : ExtIn) : State :=
  let q := s.tla.extQ ++ [x]
  match q with
  | [] => s
  | y :: l =>
    if q.length < 2 then s.modTla (fun t => { t with extQ := q })
    else
      let s := s.modTla (fun t => { t with extQ := l })
      if s.tla.en && !s.tlaRetired then s.tlaWindow y else s

/-- TLA_CTRL.EN becomes live (R273, R280); while it is 0 the outputs follow their defaults. -/
def State.tlaLive (s : State) : State :=
  let en := s.flag wTla 0
  if s.tlaRetired then s
  else if en && !s.tla.en then
    s.modTla (fun t => { t with en := true, initEn := true, outs := s.tlaDefaults })
  else if !en && (s.tla.en || s.tla.outs != s.tlaDefaults) then (s.modTla (fun t => { t with en := false })).tlaDefault s.now
  else s

/-! The check (R274, R277). -/

/-- Whether a source code is listed (R265). -/
def srcListed (c : Nat) : Bool := decide (c < 0x449) || (decide (0x450 ≤ c) && decide (c < 0x45A))

/-- The lowest of a list. -/
def lowest : List Nat → Option Nat
  | [] => none
  | x :: l => some (l.foldl min x)

/-- Cells, group first cells and outputs (as 0) with an unlisted source. -/
def TBank.badSources (b : TBank) : List Nat :=
  (b.cells.filter (fun c =>
    let k := b.cell c
    !(k.ins.all srcListed) || (k.ff == 2 && !srcListed k.clk))) ++
  ((List.range 64).filter (fun g =>
    !srcListed (bits (b.word (0x800 + g)) 0 11) || !srcListed (bits (b.word (0x800 + g)) 16 11))).map (· * 16) ++
  ((List.range 64).filter (fun n => !srcListed (b.outSrc n))).map (fun _ => 0)

/-- Words with a set reserved bit or an unlisted encoding. -/
def TBank.badEncodings (b : TBank) : List Nat :=
  (b.cells.filter (fun c =>
    let k := b.cell c
    bits (b.word (2 * c)) 16 4 != 0 || bits (b.word (2 * c + 1)) 7 46 != 0 || decide (2 ≤ k.func) || k.ff == 3 ||
      (k.out && k.ff == 0))) ++
  ((List.range 64).filter (fun g =>
    bits (b.word (0x800 + g)) 27 37 != 0 || bits (b.word (0x800 + g)) 11 5 != 0)).map (· * 16) ++
  ((List.range 64).filter (fun n => bits (b.word (0x840 + n)) 11 53 != 0)).map (fun _ => 0)

/-- Nodes of dependence: cell c's LUT or MUX4 value is c, its NET flip-flop 1024 + c. -/
def TBank.node (b : TBank) (src : Nat) : Option Nat :=
  if 0x400 ≤ src then none
  else
    let k := b.cell src
    if !k.out then some src else if k.ff = 2 then some (1024 + src) else none

/-- What a node depends on within one evaluation, a NET flip-flop's D input left out. -/
def TBank.deps (b : TBank) (n : Nat) : List Nat :=
  if n < 1024 then ((b.cell n).srcs.filterMap b.node).eraseDups
  else ((([(b.cell (n - 1024)).clk]).filterMap b.node)).eraseDups

/-- Nodes reached from a list by dependence. -/
def TBank.reach (b : TBank) : Nat → List Nat → List Nat → List Nat
  | 0, seen, _ => seen
  | _, seen, [] => seen
  | k + 1, seen, n :: l => if seen.contains n then TBank.reach b k seen l else TBank.reach b k (n :: seen) (b.deps n ++ l)

/-- The cells that stand in a cycle of dependence; an all-zero cell reads cell 0. -/
def TBank.loops (b : TBank) : List Nat :=
  let nodes := (0 :: b.cells).eraseDups.flatMap (fun c => [c, 1024 + c])
  (nodes.filter (fun n => (b.reach 16384 [] (b.deps n)).contains n)).map (· % 1024)

/-- Depth of a node (R274), the paths through the NET flip-flops in `cut` left out; it holds at 255. -/
def TBank.depth (b : TBank) : Nat → List Nat → Nat → Nat
  | 0, _, _ => 255
  | k + 1, cut, n =>
    let deps (l : List Nat) : List Nat := (l.filterMap b.node).eraseDups.filter (fun m => !cut.contains m)
    if n < 1024 then 1 + ((deps (b.cell n).srcs).map (fun m => TBank.depth b k cut m)).foldl max 0
    else
      let c := n - 1024
      1 + max (((deps [(b.cell c).clk]).map (fun m => TBank.depth b k cut m)).foldl max 0)
        (TBank.depth b k (n :: cut) c)

/-- The nets that reach a TLA output, a CORE flip-flop's D or a NET flip-flop (R274). -/
def TBank.limited (b : TBank) : List Nat :=
  let roots := ((List.range 64).filterMap (fun n => b.node (b.outSrc n))) ++
    b.cells.flatMap (fun c => if (b.cell c).ff = 1 then [c] else if (b.cell c).ff = 2 then [c, 1024 + c] else [])
  b.reach 16384 [] roots

/-- CRC-32 (IEEE 802.3) of a list of bytes. -/
def crc32 (l : List Byte) : Word :=
  let r := l.foldl (fun (c : Word) b =>
    (List.range 8).foldl (fun (c : Word) _ => if c.getLsbD 0 then (c >>> 1) ^^^ 0xEDB88320 else c >>> 1)
      (c ^^^ b.setWidth 32)) 0xFFFFFFFF
  ~~~ r

/-- The signature of a bank (R284). -/
def TBank.signature (b : TBank) : Word := crc32 ((List.range 2176).flatMap (fun i => leBytes (b.word i) 8))

/-- The cell named by a word of a bank in a check result. -/
def wordCell (i : Nat) : Nat := if i < 0x800 then i / 2 else if i < 0x840 then (i - 0x800) * 16 else 0

/-- The check of a bank (R277): error code, lowest cell, depth. -/
def TBank.check (b : TBank) : Nat × Nat × Nat :=
  match lowest b.badSources with
  | some c => (1, c, 0)
  | none => match lowest b.badEncodings with
    | some c => (2, c, 0)
    | none => match lowest b.loops with
      | some c => (3, c, 0)
      | none =>
        let d := b.limited.map (fun n => (n % 1024, b.depth 256 [] n))
        match lowest ((d.filter (fun e => decide (10 < e.2))).map (·.1)) with
        | some c => (4, c, (d.map (·.2)).foldl max 0)
        | none => match lowest ((b.errs.filter (fun e => decide (2 ≤ popcount e.2))).map (fun e => wordCell e.1)) with
          | some c => (5, c, 0)
          | none => (0, 0, (d.map (·.2)).foldl max 0)

/-- The check of the shadow bank ends (R277). -/
def State.tlaChecked (s : State) : State :=
  if !s.tla.checkBusy then s
  else
    let b := s.tla.sh
    let (e, c, d) := b.check
    let sig := b.signature
    let s := s.modTla (fun t =>
      let t := { t with
        checkBusy := false, resErr := BitVec.ofNat 4 e, resCell := BitVec.ofNat 10 c, resDepth := BitVec.ofNat 8 (min 255 d) }
      if e = 0 then { t.setSh { b with checked := true, sig := sig } with sigRef := sig }
      else t.setSh { b with checked := false })
    s.raise (wTla + 0x3C) (bit1 0)

/-- A check that runs is aborted (R277, R287). -/
def State.tlaAbort (s : State) : State :=
  if s.tla.checkBusy then (s.modTla (fun t => { t with checkBusy := false })).raise aTlaEv (bit1 2) else s

/-- TLA_SH_HI stores a shadow word (R276). -/
def State.tlaStore (s : State) (hi : Word) : State :=
  let a := s.fld (wTla + 0x20) 0 12
  let v : BitVec 64 := hi ++ s.reg (wTla + 0x24)
  let s := s.tlaAbort.modTla (fun t => { t.setSh { t.sh.store a v with checked := false } with stores := t.stores + 1 })
  s.putReg (wTla + 0x20) (BitVec.ofNat 32 ((a + 1) % 4096))

/-- The swap at its boundary (R273, R279). A flip-flop with KEEP goes on as if there were no swap: in CORE mode it takes D from the
last evaluation of the old bank; a swap that has been taken is carried out whatever is written to the shadow before its boundary
(DEDUCED, log 64). -/
def State.tlaSwap (s : State) : State :=
  let s := s.modTla (fun t => { t with
    active := !t.active, sigRef := t.sh.sig, sigValid := false, swapPending := false, initSwap := true, pos := 0, phase := 0, waited := 0 })
  { s with hk := { s.hk with swapped := true } }.raise aTlaEv (bit1 0)

/-- Whether R278 refuses a swap now. -/
def State.swapRefused (s : State) : Bool :=
  !s.tla.sh.checked || s.tla.checkBusy || s.tla.swapPending || s.tlaRetired

/-! Serac (R281 to R286). -/

/-- Whether Serac runs. -/
def State.seracRuns (s : State) : Bool := s.flag wTla 1 && !s.tlaRetired

/-- Serac reads one word with the bits that are wrong in it (R282). -/
def State.seracWord (s : State) (p : Nat) (wrong : BitVec 72) : State :=
  let t := s.tla
  let shadow := decide (2176 ≤ p)
  let i := p % 2176
  let b := if shadow then t.sh else t.act
  let put (b : TBank) (s : State) : State := s.modTla (fun t => if shadow then t.setSh b else t.setAct b)
  let n := popcount wrong
  if n = 0 then s
  else if n = 1 then
    (((put { b with errs := Tab.set (fun _ => 0) b.errs i 0 } s).bump (wTla + 0x50)).raise aTlaEv (bit1 3)).detect
      0x0F uTla 0 (BitVec.ofNat 32 i)
  else
    let s := (put { b with errs := Tab.set (fun _ => 0) b.errs i wrong, checked := b.checked && !shadow } s).bump (wTla + 0x54)
    if shadow then (s.raise aTlaEv (bit1 6)).detect 0x11 0 0 (BitVec.ofNat 32 i)
    else s.detect 0x10 uTla 0 (BitVec.ofNat 32 i) true

/-- Serac goes on to its next word; at the end of the active half it writes its signature, at the end of the pass PASSES
increments (R281, R284). -/
def State.seracNext (s : State) : State :=
  let s := s.modTla (fun t => { t with pos := t.pos + 1, phase := 0, waited := 0 })
  if s.tla.pos = 2176 then s.modTla (fun t => { t with sigLast := t.act.signature, sigValid := true })
  else if 4352 ≤ s.tla.pos then s.modTla (fun t => { t with pos := 0, passes := t.passes + 1 })
  else s

/-- The bank of Serac's word. -/
def Tla.seracBank (t : Tla) : TBank := if 2176 ≤ t.pos then t.sh else t.act

/-- Serac has finished its word (R282). -/
def State.seracScrub (s : State) : State :=
  (s.seracWord s.tla.pos (s.tla.seracBank.err (s.tla.pos % 2176))).seracNext

/-- A starved word is skipped (R283). -/
def State.seracSkip (s : State) : State :=
  (((s.bump (wTla + 0x5C)).raise aTlaEv (bit1 7)).skipRecord 3 0 0 (BitVec.ofNat 32 (s.tla.pos % 2176))).seracNext

/-- Whether Serac's word needs the memory port in this CD_SERAC cycle: to read it, and to write a corrected one back. -/
def Tla.seracWants (t : Tla) : Bool :=
  t.phase == 0 || (t.phase == 2 && popcount (t.seracBank.err (t.pos % 2176)) == 1)

/-- One CD_SERAC cycle (R277, R281, R283): 4 to a word; a shadow write takes the port first, and a word that has waited STARVE
cycles is skipped; a check pauses the shadow half, and ends in its 20,000th cycle at the latest. -/
def State.seracTick (s : State) : State :=
  let busy := decide (0 < s.tla.stores)
  let s := s.modTla (fun t => { t with clock := t.clock + 1, stores := t.stores - 1 })
  let s := if s.tla.checkBusy && decide (s.tla.checkAt + 20000 ≤ s.tla.clock) then s.tlaChecked else s
  if !s.seracRuns || (2176 ≤ s.tla.pos && s.tla.checkBusy) then s
  else if busy && s.tla.seracWants then
    let s := s.modTla (fun t => { t with waited := t.waited + 1 })
    if s.fld (wTla + 0x70) 0 16 ≤ s.tla.waited then s.seracSkip else s
  else if s.tla.phase < 3 then s.modTla (fun t => { t with phase := t.phase + 1 })
  else s.seracScrub

/-- A number of CD_SERAC cycles. -/
def State.seracTicks (s : State) : Nat → State
  | 0 => s
  | k + 1 => State.seracTicks s.seracTick k

/-- The CD_SERAC cycles that end in a core cycle: 10,240 fu each, or 6,553.6 fu while CD_SERAC runs from the XO (04 R105). -/
def State.seracCycles (s : State) : State :=
  let p := if s.clk.hpllXo then incXo.toNat else 10240 * 2 ^ 32
  s.seracTicks ((s.time.elapsed + s.incN) / p - s.time.elapsed / p)

/-- Bits of Serac's present word flip. -/
def State.seracFlip (s : State) (flips : BitVec 72) : State :=
  let i := s.tla.pos % 2176
  let b := s.tla.seracBank
  let b := { b with errs := Tab.set (fun _ => 0) b.errs i (b.err i ^^^ flips) }
  s.modTla (fun t => if 2176 ≤ t.pos then t.setSh b else t.setAct b)

/-- Whether a copy has been outvoted on a bit in the present CD_SERAC cycle. -/
def Tla.voted (t : Tla) (copy bit : Nat) : Bool :=
  let v := Tab.get (fun _ => (0, 0)) t.votes (64 * copy + bit)
  v.2 != 0 && v.1 == t.clock

/-- A copy of Serac's state is outvoted on a bit in this CD_SERAC cycle (R286). -/
def State.seracVote (s : State) (copy bit : Nat) : State :=
  if s.tlaRetired then s
  else
    let c := s.tla.clock
    let get (k : Nat) : Nat × Nat := Tab.get (fun _ => (0, 0)) s.tla.votes k
    let k := 64 * copy + bit
    let (last, run) := get k
    let run' := if run = 0 then 1 else if last = c then run else if last + 1 = c then run + 1 else 1
    let counted := (get (192 + copy)) == (c, 1)
    let put (v : Tab (Nat × Nat)) (k : Nat) (x : Nat × Nat) : Tab (Nat × Nat) := Tab.set (fun _ => (0, 0)) v k x
    let s := s.modTla (fun t => { t with votes := put (put t.votes k (c, run')) (192 + copy) (c, 1) })
    let s := if counted then s else ((s.bump (wTla + 0x58)).raise aTlaEv (bit1 4)).detect 0x13 0 0 0
    if run' = 4 && run ≠ 4 then s.detect 0x14 uTla 0 0 true else s

/-- Housekeeping's check of Serac (R285), which starts after the first swap since the reset (15 R390). -/
def State.seracCheck (s : State) : State :=
  let t := s.tla
  if s.tlaRetired || !s.hk.fw || !s.hk.swapped then s
  else
    let bad := (t.sigValid && t.sigLast != t.sigRef) || (t.lastPasses.map (fun p => p == t.passes)).getD false
    let s := s.modTla (fun t => { t with lastPasses := some t.passes })
    if bad then (s.raise aTlaEv (bit1 5)).detect 0x12 uTla 0 0 else s

end Sys2Proof.Machine
end

