-- ==== Sys2Proof/Machine/Cle.lean ====
section
/-!
DEFINITION. The control engine: latched inputs, coefficient memory, the law and its arithmetic, the repetitive
controller, output selection, supervision, snapshots (chapters 11 and 12).
-/

namespace Sys2Proof.Machine

/-- CLE_Sn_EVENTS. -/
def aSlotEv (n : Nat) : Nat := aSlot n + 0x18
/-- CLE_Sn_SUP_EVENTS. -/
def aSupEv (n : Nat) : Nat := aSlot n + 0x64

/-! Configuration. -/

/-- CLE_Sn_CFG. -/
def State.slotCfg (s : State) (n : Nat) : Word := s.reg (aSlot n)
/-- Whether a slot is in X32. -/
def x32 (cfg : Word) : Bool := bitOf cfg 30
/-- States of a slot. -/
def cfgNs (cfg : Word) : Nat := bits cfg 4 3 + 1
/-- Inputs of a slot. -/
def cfgNi (cfg : Word) : Nat := bits cfg 2 2 + 1
/-- Outputs of a slot. -/
def cfgNo (cfg : Word) : Nat := bits cfg 0 2 + 1
/-- Whether slot n is enabled. -/
def State.slotOn (s : State) (n : Nat) : Bool := s.flag (aSlot n) 31
/-- Whether slot n is due in a tick (R289). -/
def State.slotDue (s : State) (n tick : Nat) : Bool :=
  s.slotOn n && tick % (bits (s.slotCfg n) 8 8 + 1) == bits (s.slotCfg n) 16 8
/-- Position of output k of a slot where it is assigned (R294). -/
def outPos (out : Word) (k : Nat) : Option Nat := if bitOf out (8 * k + 7) then some (bits out (8 * k) 4) else none
/-- Position of output k of slot n. -/
def State.posOf (s : State) (n k : Nat) : Option Nat :=
  if k < cfgNo (s.slotCfg n) then outPos (s.reg (aSlot n + 8)) k else none

/-! Arithmetic (R291, R292, R295, R298, R299, R312). -/

/-- Limit to a two's-complement width. -/
def satBits (w : Nat) (v : Int) : Int :=
  let m : Int := 2 ^ (w - 1)
  if v < -m then -m else if m - 1 < v then m - 1 else v

/-- Arithmetic right shift. -/
def sar (v : Int) (n : Nat) : Int := v / 2 ^ n

/-- sat16 in F16, sat32 in X32. -/
def satMode (x : Bool) (v : Int) : Int := if x then satBits 32 v else satBits 16 v
/-- A Q sample in a slot's mode (R291). -/
def liftQ (x : Bool) (q : Int) : Int := if x then q * 2 ^ 14 else satBits 16 (sar (q + 2) 2)
/-- A set-point in a slot's mode (R292). -/
def liftP (x : Bool) (p : Int) : Int := if x then p * 2 ^ 12 else satBits 16 (sar (p + 8) 4)
/-- lift (R298, R299). -/
def lift (x : Bool) (v : Int) : Int := if x then v else v * 2 ^ 15
/-- finish (R298, R299). -/
def finish (x : Bool) (acc : Int) : Int := if x then satBits 32 acc else satBits 16 (sar (acc + 2 ^ 14) 15)
/-- The accumulator's saturation. -/
def satAcc (x : Bool) (v : Int) : Int := if x then satBits 72 v else satBits 40 v
/-- t(c, v) of a coefficient entry (R298, R299). -/
def term (x : Bool) (c : BitVec 37) (v : Int) : Int :=
  if x then
    let s := bits c 32 5
    let h : Int := if s = 0 then 0 else 2 ^ (s - 1)
    sar ((c.setWidth 32).toInt * v + h) s
  else (c.setWidth 16).toInt * v
/-- The converter value of an applied output (R295). -/
def convValue (x : Bool) (ua : Int) : BitVec 20 :=
  if x then BitVec.ofInt 20 (satBits 20 (sar (ua + 2 ^ 11) 12)) else BitVec.ofInt 20 (ua * 16)
/-- The open value of a position in slot units (R312). -/
def State.openValue (s : State) (x : Bool) (j : Nat) : Int := liftP x (s.safeCode (8 + j)).toInt

/-! Coefficient memory (R300 to R303). -/

/-- Key of an entry. -/
def coefKey (n set entry : Nat) : Nat := 2048 * n + 256 * set + entry
/-- An entry. -/
def State.coefAt (s : State) (k : Nat) : BitVec 37 := Tab.get (fun _ => 0) s.cle.coef k
/-- Bits of a stored entry that are wrong. -/
def State.coefErrAt (s : State) (k : Nat) : BitVec 44 := Tab.get (fun _ => 0) s.cle.coefErr k
/-- Store an entry, its errors gone. -/
def State.coefStore (s : State) (k : Nat) (v : BitVec 37) : State :=
  { s with cle := { s.cle with
      coef := Tab.set (fun _ => 0) s.cle.coef k v, coefErr := Tab.set (fun _ => 0) s.cle.coefErr k 0 } }

/-- Entries that an evaluation reads (R300). -/
def readEntries (ns ni no : Nat) (rep : Bool) : List Nat :=
  let grid (base w a b : Nat) : List Nat := (List.range a).flatMap (fun i => (List.range b).map (fun j => base + w * i + j))
  grid 0 8 ns ns ++ grid 0x40 4 ns no ++ grid 0x60 4 ns ni ++ grid 0x80 8 ni ns ++ grid 0xA0 8 no ns ++
    grid 0xC0 4 no ni ++ (if rep then grid 0xD0 4 no 4 else [])

/-- The engine reads an entry with the bits that are wrong in it (R303): a single one is corrected and written back;
whether the entry is uncorrectable is in the answer. -/
def State.coefCheck (s : State) (n k : Nat) (wrong : BitVec 44) : Bool × State :=
  let c := popcount wrong
  if c = 0 then (false, s)
  else if c = 1 then
    let s := { s with cle := { s.cle with coefErr := Tab.set (fun _ => 0) s.cle.coefErr k 0 } }
    (false, ((s.bump (wCle + 0x30)).raise (aSlotEv n) (bit1 3)).detect 0x15 uSlot n 0)
  else
    let s := { s with cle := { s.cle with coefErr := Tab.set (fun _ => 0) s.cle.coefErr k wrong } }
    (true, ((s.bump (wCle + 0x34)).raise (aSlotEv n) (bit1 4)).detect 0x16 uSlot n 0)

/-- Check every entry of a list: whether one is uncorrectable. -/
def State.coefChecks (s : State) (n set : Nat) : List Nat → Bool × State
  | [] => (false, s)
  | e :: l =>
    let (a, s) := s.coefCheck n (coefKey n set e) (s.coefErrAt (coefKey n set e))
    let (b, s) := State.coefChecks s n set l
    (a || b, s)

/-- Bits of a stored entry flip. -/
def State.coefFlip (s : State) (k : Nat) (flips : BitVec 44) : State :=
  { s with cle := { s.cle with coefErr := Tab.set (fun _ => 0) s.cle.coefErr k (s.coefErrAt k ^^^ flips) } }

/-- The sweep reads the entries with keys from `lo` up to but not including `hi` (R303): only those with wrong bits have an
effect. -/
def State.coefSweepRange (s : State) (lo hi : Nat) : State :=
  s.each (s.cle.coefErr.filter (fun e => decide (lo ≤ e.1 ∧ e.1 < hi))) (fun s e =>
    let n := e.1 / 2048
    let (ue, s) := s.coefCheck n e.1 e.2
    if ue then s.modSlot n (fun x => { x with stopped := true }) else s)

/-- The sweep reads every entry in turn up to one with a key (R303); the last entry of slot 31 ends a sweep. -/
def State.coefSweep (s : State) (k : Nat) : State :=
  if s.clk.hpllXo then s
  else
    let s := if s.cle.sweepAt ≤ k then s.coefSweepRange s.cle.sweepAt (k + 1)
      else
        let s := s.coefSweepRange s.cle.sweepAt 65536
        ({ s with cle := { s.cle with sweeps := satInc s.cle.sweeps } }).coefSweepRange 0 (k + 1)
    if k = coefKey 31 7 223 then { s with cle := { s.cle with sweeps := satInc s.cle.sweeps, sweepAt := 0 } }
    else { s with cle := { s.cle with sweepAt := k + 1 } }

/-- Whether a write of coefficients to a set is refused (R322). -/
def State.coefRefused (s : State) (n set : Nat) : Bool :=
  let x := s.slot n
  (x.st == .ramp || x.st == .closed) &&
    (!bitOf (s.slotCfg n) 29 || set == x.setCur || set == x.setNext)

/-- Whether the law phase of the tick is under way (R302). -/
def State.inLaw (s : State) : Bool :=
  s.time.running && decide (s.time.c1 ≤ s.time.cycle) && decide (s.time.cycle < s.time.c2)

/-- CLE_Sn_CM_DATA is written (R301, R302). -/
def State.coefWrite (s : State) (n : Nat) (v : Word) : State :=
  let a := s.reg (aSlot n + 0x20)
  let k := coefKey n (bits a 8 3) (bits a 0 8)
  let e : BitVec 37 := BitVec.ofNat 5 (bits a 24 5) ++ v
  let s := if s.inLaw then { s with cle := { s.cle with held := s.cle.held ++ [(k, e)] } } else s.coefStore k e
  s.putReg (aSlot n + 0x20) (putBits a 0 8 (bits a 0 8 + 1))

/-! Inputs (R29, R291 to R293). -/

/-- The set-point of Pj: its last sample at or before this core cycle (R237). -/
def State.setPoint (s : State) (j : Nat) : BitVec 20 := s.chanOut (8 + j) (s.fastNow 0)

/-- The inputs of a tick are latched at its cycle 0, once what acts on its first sample has acted (R29, R237). -/
def State.cleLatch (s : State) : State :=
  let c := s.cle
  let fresh (i : Nat) : Bool := bitOf c.qNew i
  { s with cle := { c with
      qLat := (List.range 16).foldl (fun t i =>
        if fresh i then Tab.set (fun _ => 0) t i (Tab.get (fun _ => 0) c.q i) else t) c.qLat,
      qStale := ~~~ c.qNew,
      qNew := 0,
      pLat := (List.range 16).foldl (fun t j => Tab.set (fun _ => 0) t j (s.setPoint j)) c.pLat,
      pRoute := BitVec.ofNat 16 ((List.range 16).foldl (fun a j => a + b01 (bitOf (s.seq (8 + j)).ctrl 7) * 2 ^ j) 0),
      svLat := (List.range 32).foldl (fun t n => Tab.set (fun _ => 0) t n (s.reg (aSlot n + 0x38))) c.svLat } }

/-- CLOSE of every slot is sampled at c1 (R311). -/
def State.cleSample (s : State) : State :=
  { s with cle := { s.cle with
      closeLat := BitVec.ofNat 32 ((List.range 32).foldl (fun a n => a + b01 (s.flag (aSlot n + 0x28) 31) * 2 ^ n) 0) } }

/-! The law (R297). -/

/-- Element i of a vector. -/
def vecAt (v : List Int) (i : Nat) : Int := v.getD i 0

/-- acc + t(c_j, v_j) over j, or acc - t. -/
def accTerms (x : Bool) (sign : Int) (c : Nat → BitVec 37) (v : List Int) (k : Nat) (acc : Int) : Int :=
  (List.range k).foldl (fun a j => satAcc x (a + sign * term x (c j) (vecAt v j))) acc

/-- The three matrix steps of R297: innovation, observer update, control law. The answer is xn and u. -/
def lawStep (x : Bool) (ns ni no : Nat) (cf : Nat → BitVec 37) (xh y r ua rho : List Int) : List Int × List Int :=
  let e := (List.range ni).map (fun m => finish x (accTerms x (-1) (fun j => cf (0x80 + 8 * m + j)) xh ns (lift x (vecAt y m))))
  let xn := (List.range ns).map (fun i =>
    finish x (accTerms x 1 (fun m => cf (0x60 + 4 * i + m)) e ni
      (accTerms x 1 (fun k => cf (0x40 + 4 * i + k)) ua no
        (accTerms x 1 (fun j => cf (8 * i + j)) xh ns 0))))
  let u := (List.range no).map (fun k =>
    finish x (accTerms x 1 (fun m => cf (0xC0 + 4 * k + m)) r ni
      (accTerms x (-1) (fun j => cf (0xA0 + 8 * k + j)) xn ns (lift x (vecAt rho k)))))
  (xn, u)

/-! Repetitive memory (R304 to R306, R314). -/

/-- PERIOD of slot n. -/
def State.repPeriod (s : State) (n : Nat) : Nat := s.fld (aSlot n + 0xC) 16 12 + 1
/-- The Firn port of the control engine (06 R150). -/
def portCle : Nat := 32
/-- The Firn word of index j. -/
def State.repWord (s : State) (n j : Nat) : Nat := s.fld (aSlot n + 0x10) 0 21 + j / 4
/-- Entries of index j as the engine reads them: zero from an uncorrectable or retired word, which sets its event. -/
def State.repRead (s : State) (n j : Nat) : List Int × State :=
  let (d, s) := s.portRead portCle (s.repWord n j)
  let s := match d with
    | .word _ => s
    | .ue => s.raise (aSlotEv n) (bit1 6)
    | .retired => s.raise (aSlotEv n) (bit1 7)
  ((List.range 4).map (fun k => (((d.value >>> (128 * (j % 4) + 32 * k)).setWidth 32 : BitVec 32)).toInt), s)

/-- A coefficient entry's Q1.15 value. -/
def q15 (c : BitVec 37) : Int := (c.setWidth 16).toInt

/-- The value that learning gives an entry (R305). -/
def repLearn (g q0 q1 q2 eps om o op : Int) : Int :=
  satBits 32 (sar (q0 * om + q1 * o + q2 * op + 2 ^ 14) 15 + sar (g * eps + 2 ^ 14) 15)

/-! Evaluation of one slot (R296, R297, R311, R313, R324). -/

/-- Reference of input m of slot n (R292), and whether its channel is unrouted. -/
def State.refOf (s : State) (n m : Nat) : Int × Bool :=
  let j := bits (s.reg (aSlot n + 4)) (16 + 4 * m) 4
  if bitOf s.cle.pRoute j then (liftP (x32 (s.slotCfg n)) (Tab.get (fun _ => (0 : BitVec 20)) s.cle.pLat j).toInt, false)
  else (0, true)

/-- Input m of slot n (R291), and whether it is stale (R293). -/
def State.inputOf (s : State) (n m : Nat) : Int × Bool :=
  let i := bits (s.reg (aSlot n + 4)) (4 * m) 4
  (liftQ (x32 (s.slotCfg n)) (Tab.get (fun _ => (0 : BitVec 18)) s.cle.qLat i).toInt, bitOf s.cle.qStale i)

/-- A LOOP event of this tick (R325). -/
def State.loopEvent (s : State) (n kind cause pos m : Nat) (safe : Bool) (old new : Nat) (dw1 dw2 : Word) : State :=
  let dw0 := BitVec.ofNat 32 (kind * 2 ^ 28 + cause * 2 ^ 24 + n * 2 ^ 16 + pos * 2 ^ 12 + m * 2 ^ 10 + b01 safe * 2 ^ 8 +
    old * 2 ^ 4 + new)
  { s with cle := { s.cle with events := s.cle.events ++ [⟨n, kind, dw0, dw1, dw2⟩] } }

/-- A 32-bit record word of an exact value. -/
def wordOf (v : Int) : Word := BitVec.ofInt 32 v

/-- The region of a scheduling value without hysteresis (R324). -/
def regionOf (t : Nat → Int) (v : Int) (nreg : Nat) : Nat :=
  ((List.range nreg).filter (fun i => i == 0 || decide (t i ≤ v))).getLastD 0

/-- The region after hysteresis (R324). -/
def regionStep (t : Nat → Int) (h v : Int) (nreg cur : Nat) : Nat :=
  if cur + 1 < nreg ∧ t (cur + 1) + h ≤ v then
    ((List.range nreg).filter (fun i => decide (cur < i) && decide (t i + h ≤ v))).getLastD cur
  else if 0 < cur ∧ v < t cur - h then
    ((List.range cur).find? (fun i => decide (v < t (i + 1) - h))).getD cur
  else cur

/-- T_i of slot n. -/
def State.thr (s : State) (n i : Nat) : Int := (s.reg (aSlot n + 0x40 + 4 * (i - 1))).toInt
/-- NREG of slot n. -/
def State.nreg (s : State) (n : Nat) : Nat := s.fld (aSlot n + 0x34) 24 3 + 1

/-- The scheduling value of slot n (R323). -/
def State.schedValue (s : State) (n : Nat) (y r : List Int) : Int :=
  let c := s.reg (aSlot n + 0x34)
  match bits c 30 2 with
  | 0 => vecAt y (bits c 28 2)
  | 1 => vecAt r (bits c 28 2)
  | _ => (Tab.get (fun _ => (0 : Word)) s.cle.svLat n).toInt

/-- RAMP_STEP of slot n in slot units. -/
def State.rampStep (s : State) (n : Nat) : Int :=
  let v : Int := s.fld (aSlot n + 0x2C) 0 16
  if x32 (s.slotCfg n) then v * 2 ^ 16 else v

/-- A ramp value moves toward its reference by at most a step (R313). -/
def rampMove (s r step : Int) : Int := if s < r then min r (s + step) else max r (s - step)

/-- The state of a slot at a due c1 (R311, R313): close, open, or step of the ramp. -/
def State.slotEdge (s : State) (n : Nat) (y r : List Int) : State :=
  let x := s.slot n
  let close := bitOf s.cle.closeLat n
  let ua0 := wordOf (vecAt x.ua 0)
  match x.st with
  | .open =>
    if close then
      if s.rampStep n = 0 then
        (s.setSlot n { x with st := .closed, feTimer := 0, staleRun := 0 }).loopEvent n 2 0 0 0 false 0 0 0 ua0
      else s.setSlot n { x with st := .ramp, s := y, feTimer := 0, staleRun := 0 }
    else s
  | .ramp =>
    if close then s.setSlot n { x with s := (List.range r.length).map (fun m => rampMove (vecAt x.s m) (vecAt r m) (s.rampStep n)) }
    else (s.setSlot n { x with st := .open }).loopEvent n 3 0 0 0 false 0 0 0 ua0
  | .closed => if close then s else (s.setSlot n { x with st := .open }).loopEvent n 3 0 0 0 false 0 0 0 ua0
  | .fault => if close then s else (s.setSlot n { x with st := .open }).loopEvent n 3 0 0 0 false 0 0 0 ua0
  | .off => s

/-- The gain set of an evaluation (R324): SET while LOCKED, the selected one while SCHEDULED. -/
def State.setOf (s : State) (n : Nat) (y r : List Int) : Nat :=
  let cfg := s.slotCfg n
  if !bitOf cfg 29 then bits cfg 24 3
  else if (s.slot n).first then regionOf (s.thr n) (s.schedValue n y r) (s.nreg n)
  else (s.slot n).setNext

/-- Compute a due slot (R296 step 2): inputs, state, set, the law. An uncorrectable coefficient stops it. -/
def State.slotCompute (s : State) (n : Nat) : State :=
  let cfg := s.slotCfg n
  let x := x32 cfg
  let ns := cfgNs cfg
  let ni := cfgNi cfg
  let no := cfgNo cfg
  let ins := (List.range ni).map (fun m => s.inputOf n m)
  let refs := (List.range ni).map (fun m => s.refOf n m)
  let y := ins.map (·.1)
  let r := refs.map (·.1)
  let mask (l : List Bool) : BitVec 4 := BitVec.ofNat 4 ((List.range 4).foldl (fun a m => a + b01 (l.getD m false) * 2 ^ m) 0)
  let stale := mask (ins.map (·.2))
  let unrouted := mask (refs.map (·.2))
  let s := (s.raiseIf (stale != 0) (aSlotEv n) 2).raiseIf (unrouted != 0) (aSlotEv n) 8
  let s := s.slotEdge n y r
  let set := s.setOf n y r
  let rep := s.flag (aSlot n + 0xC) 31
  let (ue, s) := s.coefChecks n set (readEntries ns ni no rep)
  let l := s.slot n
  let rUse := if l.st = .ramp then l.s else r
  let l := { l with
    stale := stale, unrouted := unrouted, y := y, r := r, rUsed := rUse, evaluated := true, stopped := l.stopped || ue,
    setWas := if l.first then set else l.setCur, setCur := set, setNext := if l.first then set else l.setNext }
  if ue then s.setSlot n { l with first := false }
  else
    let cf (e : Nat) : BitVec 37 := s.coefAt (coefKey n set e)
    let (rho, s) :=
      if rep then
        let j := (l.nr + s.fld (aSlot n + 0xC) 8 6) % s.repPeriod n
        let (v, s) := s.repRead n j
        (v.map (fun p => if x then p else satBits 16 (sar (p + 2 ^ 15) 16)), s)
      else ([0, 0, 0, 0], s)
    let (xn, u) := lawStep x ns ni no cf l.x y rUse l.ua rho
    s.setSlot n { l with x := xn, u := u, ua := u, evals := l.evals + 1, first := false }

/-! Output selection (R315 to R317). -/

/-- One assigned output: slot and output number. -/
abbrev OutRef := Nat × Nat

/-- The assigned outputs at position j of the slots of a list, in ascending order. -/
def State.assigned (s : State) (slots : List Nat) (j : Nat) : List OutRef :=
  slots.flatMap (fun n => ((List.range 4).filter (fun k => s.posOf n k == some j)).map (fun k => (n, k)))

/-- Whether an output is a candidate: its slot is in RAMP or CLOSED and its evaluation did not stop in this tick. -/
def State.candidate (s : State) (o : OutRef) : Bool :=
  let x := s.slot o.1
  (x.st == .ramp || x.st == .closed) && !x.stopped

/-- u of an output. -/
def State.uOf (s : State) (o : OutRef) : Int := vecAt (s.slot o.1).u o.2

/-- The lowest candidate; between equals the lower slot (R315 step 3). -/
def State.lowestOf (s : State) : OutRef → List OutRef → OutRef
  | w, [] => w
  | w, o :: l => State.lowestOf s (if s.uOf o < s.uOf w then o else w) l

/-- Set an applied value of an output. -/
def State.setUa (s : State) (o : OutRef) (v : Int) : State :=
  s.modSlot o.1 (fun x => { x with ua := (List.range (max x.ua.length (o.2 + 1))).map (fun i => if i = o.2 then v else vecAt x.ua i) })

/-- Truncation toward zero of h0 x count / slew. -/
def slewValue (h0 : Int) (count slew : Nat) : Int := (h0 * count).tdiv (max 1 slew : Nat)

/-- Whether a handover occurs at a position for a winner (R315 step 4). -/
def State.handover (s : State) (p : CPos) (w : OutRef) : Bool :=
  p.winner != some w || (s.slot w.1).setWas != (s.slot w.1).setCur

/-- The handover state of a position with a winner (R315 step 5). -/
def State.handoverPos (s : State) (p : CPos) (w : OutRef) : CPos :=
  let x := x32 (s.slotCfg w.1)
  if s.handover p w then
    let d := p.ua - s.uOf w
    let thr : Int := s.fld (aSlot w.1 + 0x30) 0 16
    let thr := if x then thr * 2 ^ 16 else thr
    let slew := s.fld (aSlot w.1 + 0x28) 0 8
    if slew ≠ 0 ∧ thr < (d.natAbs : Int) then { p with h := d, h0 := d, count := slew, slew := slew }
    else { p with h := 0, count := 0 }
  else if 0 < p.count then
    { p with count := p.count - 1, h := slewValue p.h0 (p.count - 1) p.slew }
  else p

/-- Selection at one position (R315). -/
def State.selectPos (s : State) (slots : List Nat) (j : Nat) : State :=
  let all := s.assigned slots j
  let p := { s.cpos j with slots := ((s.cpos j).slots ++ all.map (fun o => o.1)).eraseDups, live := true }
  match all.filter s.candidate with
  | [] =>
    let stopped := all.any (fun o => (s.slot o.1).stopped && ((s.slot o.1).st == .ramp || (s.slot o.1).st == .closed))
    let keep := stopped || (p.held && all.any (fun o => (s.slot o.1).st == .fault))
    let x := x32 (s.slotCfg ((all.headD (0, 0)).1))
    let ua := if keep then p.ua else s.openValue x j
    let p := { p with
      winner := if stopped then p.winner else none, h := 0, count := 0, ua := ua,
      carried := if keep then p.carried else s.safeCode (8 + j), held := p.held && keep }
    (s.setCpos j p).each all (fun s o => if (s.slot o.1).stopped then s else s.setUa o ua)
  | c :: l =>
    let w := s.lowestOf c l
    let x := x32 (s.slotCfg w.1)
    let change := p.winner != some w
    let p' := s.handoverPos p w
    let slewStart := s.handover p w && decide (0 < p'.count)
    let ua := satMode x (s.uOf w + p'.h)
    let old := match p.winner with | some o => o.1 | none => 0x1F
    let s := s.setCpos j { p' with winner := some w, ua := ua, carried := convValue x ua, held := false }
    let s := s.each all (fun s o => s.setUa o ua)
    let s := s.each all (fun s o =>
      s.modSlot o.1 (fun y => { y with losing := putBits y.losing o.2 1 (b01 (o != w)) }))
    let s := if change then
        (s.raise (aSupEv w.1) (bit1 2)).loopEvent w.1 5 0 j 0 false 0 0 (BitVec.ofNat 32 (old * 256 + w.1)) (wordOf ua) else s
    if slewStart then (s.raise (aSupEv w.1) (bit1 1)).loopEvent w.1 6 0 j 0 false 0 0 (wordOf p'.h0) (wordOf ua) else s

/-! The law phase and supervision. -/

/-- Repetitive memory after an evaluation (R305, R306, R314): learning, back tap, index. -/
def State.repUpdate (s : State) (n : Nat) : State :=
  let l := s.slot n
  if !s.flag (aSlot n + 0xC) 31 || l.stopped then s
  else
    let cfg := s.slotCfg n
    let x := x32 cfg
    let per := s.repPeriod n
    let no := cfgNo cfg
    let (o, s) := s.repRead n l.nr
    let (op, s) := s.repRead n ((l.nr + 1) % per)
    let (om, s) := if l.repFirst then s.repRead n (per - 1) else (l.backTap, s)
    let cf (e : Nat) : Int := q15 (s.coefAt (coefKey n l.setCur e))
    let learns (k : Nat) : Bool :=
      s.flag (aSlot n + 0xC) 30 && l.st == .closed && !bitOf l.losing k && decide (k < no)
    let new (k : Nat) : Int :=
      let m := bits (s.reg (aSlot n + 0xC)) (2 * k) 2
      let d := vecAt l.r m - vecAt l.y m
      let eps := if x then satBits 32 d else satBits 16 d * 2 ^ 16
      repLearn (cf (0xD0 + 4 * k)) (cf (0xD1 + 4 * k)) (cf (0xD2 + 4 * k)) (cf (0xD3 + 4 * k)) eps
        (vecAt om k) (vecAt o k) (vecAt op k)
    let w := s.repWord n l.nr
    let s := if (List.range 4).any learns then
        let (d, s) := s.portRead portCle w
        let v := (List.range 4).foldl (fun (v : BitVec 512) k =>
          if learns k then putBits v (128 * (l.nr % 4) + 32 * k) 32 (wordOf (new k)).toNat else v) d.value
        s.portWrite portCle w v
      else s
    s.modSlot n (fun l => { l with backTap := o, repFirst := false, nr := (l.nr + 1) % per })

/-- A slot whose ramp has arrived enters CLOSED after the evaluation (R313). -/
def State.rampDone (s : State) (n : Nat) : State :=
  let l := s.slot n
  if l.st = .ramp && !l.stopped && l.s == l.r then
    ((s.setSlot n { l with st := .closed }).raise (aSupEv n) (bit1 0)).loopEvent n 2 0 0 0 false 0 0 0 (wordOf (vecAt l.ua 0))
  else s

/-- Held coefficient writes enter memory (R302). -/
def State.cleRelease (s : State) : State :=
  let l := s.cle.held
  ({ s with cle := { s.cle with held := [] } }).each l (fun s e => s.coefStore e.1 e.2)

/-- Positions of a list of slots, each once, in order of slot and output. -/
def State.positions (s : State) (slots : List Nat) : List Nat :=
  (slots.flatMap (fun n => (List.range 4).filterMap (fun k => s.posOf n k))).eraseDups

/-- What every position carries from c2 on (01 R32, R33, R311): the slots that are no more enabled with an output there have no
part in it; where none is left, it carries the safe code until a slot evaluates to it. -/
def State.positionsTurn (s : State) : State :=
  s.each (List.range 16) (fun s j =>
    let p := s.cpos j
    let l := p.slots.filter (fun n => s.slotOn n && (List.range 4).any (fun k => s.posOf n k == some j))
    if l.isEmpty then s.setCpos j .reset else s.setCpos j { p with slots := l, live := true })

/-- The law phase to its end c2 (R296, R308). -/
def State.lawPhase (s : State) : State :=
  let due := (List.range 32).filter (fun n => s.slotDue n s.tickIdx && (s.slot n).st != .off)
  let s := s.each (List.range 32) (fun s n => s.modSlot n (fun x => { x with evaluated := false }))
  let s := s.positionsTurn
  if s.clk.hpllXo then s.cleRelease
  else
    let s := s.each due State.slotCompute
    let s := s.each (s.positions due) (fun s j => s.selectPos due j)
    let s := s.each due State.repUpdate
    (s.each due State.rampDone).cleRelease

/-- The fault of a slot (R320, R321): state, records, and the safe action at the positions it holds alone. -/
def State.loopFault (s : State) (n cause m : Nat) (dw1 : Word) (record : Bool) : State :=
  let safe := s.flag (aSlot n + 0x28) 28
  let s := (s.modSlot n (fun x => { x with st := .fault, cause := cause })).raise (aSupEv n) (bit1 4)
  let s := if record then s.detect 0x17 uSlot n (BitVec.ofNat 32 cause) else s
  let x := x32 (s.slotCfg n)
  let alone := ((List.range 4).filterMap (fun k => (s.posOf n k).map (fun j => (k, j)))).filter (fun kj =>
    !((List.range 32).any (fun i => i != n && s.slotOn i && ((s.slot i).st == .ramp || (s.slot i).st == .closed) &&
      (List.range 4).any (fun k => s.posOf i k == some kj.2))))
  let s := s.each alone (fun s kj =>
    let p := s.cpos kj.2
    if safe then
      let v := s.openValue x kj.2
      (s.setCpos kj.2 { p with ua := v, carried := s.safeCode (8 + kj.2), h := 0, count := 0, winner := none, held := false }).setUa
        (n, kj.1) v
    else (s.setCpos kj.2 { p with h := 0, count := 0, winner := none, held := true }).setUa (n, kj.1) p.ua)
  s.loopEvent n 1 cause 0 m safe 0 0 dw1 (wordOf (vecAt (s.slot n).ua 0))

/-- CLK_BYPASS: every slot in RAMP or CLOSED faults at once (R320). -/
def State.loopBypass (s : State) : State :=
  s.each (List.range 32) (fun s n =>
    if (s.slot n).st = .ramp || (s.slot n).st = .closed then s.loopFault n 4 0 0 false else s)

/-- Whether every assigned output of a slot is losing (R317). -/
def State.allLosing (s : State) (n : Nat) : Bool :=
  let l := (List.range 4).filter (fun k => (s.posOf n k).isSome)
  !l.isEmpty && l.all (fun k => bitOf (s.slot n).losing k)

/-- Supervision of one slot (R319, R320, R324). -/
def State.superviseSlot (s : State) (n : Nat) : State :=
  let l := s.slot n
  let a := aSlot n
  let x := x32 (s.slotCfg n)
  let live := l.st == .ramp || l.st == .closed
  if l.stopped then
    let s := s.setSlot n { l with stopped := false }
    if live then s.loopFault n 3 0 0 false else s
  else if !l.evaluated then s
  else
    let ni := cfgNi (s.slotCfg n)
    -- gain scheduling
    let s :=
      if bitOf (s.slotCfg n) 29 then
        let h : Int := s.fld (a + 0x34) 0 16
        let h := if x then h * 2 ^ 16 else h
        let new := regionStep (s.thr n) h (s.schedValue n l.y l.r) (s.nreg n) l.setCur
        let s := s.modSlot n (fun l => { l with setNext := new })
        if new ≠ l.setCur then
          (s.raise (aSupEv n) (bit1 3)).loopEvent n 4 0 0 0 false l.setCur new 0 (wordOf (vecAt l.ua 0)) else s
      else s.modSlot n (fun l => { l with setNext := l.setCur })
    if !live then s
    else
      let staleOn := s.flag (a + 0x28) 29
      let stales := (List.range ni).filter (fun m => bitOf l.stale m)
      let run := if staleOn then (if stales.isEmpty then 0 else l.staleRun + 1) else l.staleRun
      let s := s.modSlot n (fun l => { l with staleRun := run })
      let staleFault := staleOn && decide (s.fld (a + 0x28) 8 8 ≤ run)
      let feOn := s.flag (a + 0x28) 30 && !s.allLosing n
      let lim : Int := s.fld (a + 0x2C) 16 16
      let lim := if x then lim * 2 ^ 16 else lim
      let fe (m : Nat) : Int := satMode x (vecAt l.rUsed m - vecAt l.y m)
      let late := (List.range ni).filter (fun m => decide (lim < ((fe m).natAbs : Int)))
      let timer := if feOn then (if late.isEmpty then 0 else l.feTimer + 1) else l.feTimer
      let s := s.modSlot n (fun l => { l with feTimer := timer })
      if staleFault then s.loopFault n 2 (stales.headD 0) (BitVec.ofNat 32 run) true
      else if feOn && decide (s.fld (a + 0x28) 16 8 < timer) then
        s.loopFault n 1 (late.headD 0) (wordOf (fe (late.headD 0))) true
      else s

/-- LOOP records of the tick, at c4 (R325): of a slot event the third word is ua of output 0 as it then stands. -/
def State.loopRecords (s : State) : State :=
  let l := s.cle.events
  let tick := BitVec.ofNat 32 s.tickIdx
  ({ s with cle := { s.cle with events := [] } }).each l (fun s e =>
    let rec_ := s.fld (aSlot e.slot + 0x28) 24 4
    let on := match e.kind with
      | 1 => true
      | 2 | 3 => decide (rec_ % 2 = 1)
      | 4 => decide (rec_ / 2 % 2 = 1)
      | 5 => decide (rec_ / 4 % 2 = 1)
      | _ => decide (rec_ / 8 % 2 = 1)
    let dw2 := if e.kind ≤ 4 then wordOf (vecAt (s.slot e.slot).ua 0) else e.dw2
    if on then s.postEvt 0x06 [e.dw0, e.dw1, dw2, tick, 0] else s)

/-- The supervision phase to its end c4. -/
def State.supPhase (s : State) : State := (s.each (List.range 32) State.superviseSlot).loopRecords

/-- A mask of slots. -/
def State.slotMask (s : State) (f : LSlot → Bool) : Word :=
  BitVec.ofNat 32 ((List.range 32).foldl (fun a n => a + b01 (f (s.slot n)) * 2 ^ n) 0)

/-- The snapshot of a tick, c4 to c5 (R326). -/
def State.snapPhase (s : State) : State :=
  let s := s.each (List.range 32) (fun s n => s.modSlot n (fun l => { l with snap := [l.x, l.y, l.r, l.u, l.ua] }))
  let div := s.fld (wCle + 0x40) 0 16
  if div ≠ 0 && s.tickIdx % div = 0 then
    let slewing := BitVec.ofNat 32 ((List.range 32).foldl (fun a n =>
      a + b01 ((s.slot n).st == .ramp || (List.range 4).any (fun k => match s.posOf n k with
        | some j => decide (0 < (s.cpos j).count)
        | none => false)) * 2 ^ n) 0)
    s.postEvt 0x02 [s.slotMask (·.evaluated), s.slotMask (·.st == .closed), s.slotMask (·.st == .fault), slewing,
      BitVec.ofNat 32 s.tickIdx]
  else s

/-- CLE_Sn_CFG is written (R290, R311): ENABLE opens the slot or takes it OFF; its positions change at the next c2. -/
def State.slotWritten (s : State) (n : Nat) : State :=
  let x := s.slot n
  if s.slotOn n then
    if x.st = .off then
      s.setSlot n { LSlot.reset with st := .open, nr := x.nr, repFirst := x.repFirst, backTap := x.backTap }
    else s
  else if x.st = .off then s
  else
    let s := s.setSlot n { x with st := .off, evaluated := false, stopped := false }
    s.each (List.range 16) (fun s j => s.setCpos j { s.cpos j with slots := (s.cpos j).slots.filter (fun i => i != n) })

/-- REP_EN changes to 1: the index restarts (R305). -/
def State.repStart (s : State) (n : Nat) : State := s.modSlot n (fun l => { l with nr := 0, repFirst := true })

/-- What converter position j carries (R32, R55, R294): its channel's samples, the slot output assigned to it, or the safe
code, which it carries too while the sample clock is stopped (04 R105). -/
def State.position (s : State) (j e : Nat) : BitVec 20 :=
  if !s.top.convLive || s.clk.spllStopped || s.isRetired uPrec j then s.safeCode (8 + j)
  else if bitOf (s.seq (8 + j)).ctrl 7 then (if (s.cpos j).live then (s.cpos j).carried else s.safeCode (8 + j))
  else s.chanOut (8 + j) e

/-! Feedback links (R309, R310). -/

/-- CLE_QLINKx_CFG. -/
def aQcfg (x : Nat) : Nat := wCle + 0x10 + 4 * x
/-- CLE_QLINKx_STAT. -/
def aQstat (x : Nat) : Nat := wCle + 0x18 + 4 * x
/-! Link rates, from a link's configuration. -/

/-- LANES of a link configuration. -/
def cfgLanes (v : Word) : Nat := 2 ^ bits v 20 2
/-- Converters of the precision link. -/
def cfgConverters (v : Word) : Nat := 4 * 2 ^ bits v 16 2

/-- LEMC or LMFC period of the link with bit k of the link masks, in core cycles (R398). -/
def State.lemcPeriod (s : State) (k : Nat) : Nat :=
  if k < 8 then 8 * cfgLanes (s.reg (aLinkCfg k))
  else if k = 8 then
    let v := s.reg (aLinkCfg 8)
    let l := cfgLanes v
    let m := cfgConverters v
    if bitOf v 24 then (if 3 * m = 48 * l then 16 else 32) * bits v 0 16 else 256 * l / m * bits v 0 16
  else
    let v := s.reg (aQcfg (k - 9))
    32 * cfgLanes v * bits v 0 16

/-- State of feedback link x. -/
def State.rx (s : State) (x : Nat) : RxSt := if x = 0 then s.cle.link0 else s.cle.link1
/-- Write the state of feedback link x. -/
def State.setRx (s : State) (x : Nat) (v : RxSt) : State :=
  { s with cle := if x = 0 then { s.cle with link0 := v } else { s.cle with link1 := v } }

/-- The core cycle from which feedback link x's LEMC counts. -/
def State.lemcOf (s : State) (x : Nat) : Option Nat := if x = 0 then s.cle.lemc0 else s.cle.lemc1
/-- Write it. -/
def State.setLemc (s : State) (x : Nat) (v : Option Nat) : State :=
  { s with cle := if x = 0 then { s.cle with lemc0 := v } else { s.cle with lemc1 := v } }

/-- Whether a feedback link configuration's lane rate is in range at a point (R309). -/
def qRateOk (v : Word) (x : Point) : Bool :=
  let (a, b) := x.rate
  let num := a * 8 * 24 * 66
  let den := b * 16 * max 1 (bits v 0 16) * 64 * 2 ^ bits v 20 2
  decide (600000000 * den ≤ num ∧ num ≤ 32500000000 * den)

/-- What a feedback link's receive buffer holds is lost. -/
def State.rxDrop (s : State) (x : Nat) : State :=
  { s with cle := { s.cle with blocks := s.cle.blocks.filter (fun b => b.link != x) } }

/-- A feedback link's ENABLE as written (R310). -/
def State.rxWritten (s : State) (x : Nat) : State :=
  if s.flag (aQcfg x) 31 then (if s.rx x = .off then s.setRx x .align else s)
  else ((s.setRx x .off).setLemc x none).rxDrop x

/-- A feedback link has sync-header lock, and is aligned to a SYSREF (R310). -/
def State.rxAligned (s : State) (x : Nat) : State :=
  if s.rx x = .align && (s.lemcOf x).isSome then s.setRx x .data else s

/-- The receive buffers release the multiblocks whose LEMC boundary has come (R310): the latest complete sample of each
converter. -/
def State.rxRelease (s : State) : State :=
  let l := s.cle.blocks.filter (fun b => decide (b.due ≤ s.now))
  let s := { s with cle := { s.cle with blocks := s.cle.blocks.filter (fun b => !decide (b.due ≤ s.now)) } }
  s.each (l.filter (fun b => s.rx b.link == .data)) (fun s b => s.each (List.range 8) (fun s j => match (b.samples.getD j []).getLast? with
    | some q => { s with cle := { s.cle with
        q := Tab.set (fun _ => 0) s.cle.q (8 * b.link + j) q, qNew := putBits s.cle.qNew (8 * b.link + j) 1 1 } }
    | none => s))

/-- The first LEMC boundary of feedback link x at or after the present core cycle (R310). -/
def State.rxBoundary (s : State) (x : Nat) : Nat :=
  let a := (s.lemcOf x).getD 0
  a + cdiv (s.now - a) (max 1 (s.lemcPeriod (9 + x))) * max 1 (s.lemcPeriod (9 + x))

/-- A multiblock arrives (R310): one that fails CRC-12 counts, any other waits in the receive buffer for its release. -/
def State.rxBlock (s : State) (x : Nat) (crcOk : Bool) (samples : List (List (BitVec 18))) : State :=
  if s.rx x ≠ .data then s
  else if !crcOk then
    let v := s.reg (aQstat x)
    s.putReg (aQstat x) (putBits v 16 16 (min 0xFFFF (bits v 16 16 + 1)))
  else
    ({ s with cle := { s.cle with blocks := s.cle.blocks ++ [QBlock.mk x (s.rxBoundary x) samples] } }).rxRelease

/-- Sync-header lock of a feedback link is lost (R310). -/
def State.rxLost (s : State) (x : Nat) : State :=
  if s.rx x ≠ .data then s
  else (((s.setRx x .align).rxDrop x).raise (aQstat x) (bit1 8)).detect 0x0E uQlink x 0

end Sys2Proof.Machine
end

