-- ==== Sys2Proof/Machine/Domains.lean ====
section
/-!
DEFINITION. The 60 clock domains with their sources and rates, and the clock and SYSREF outputs (04 R105, R107, R109, R111; 15
R398; 16 R409).
-/

namespace Sys2Proof.Machine

/-- The core cycle in which the ILAS of the precision link ends: after 4 multiframes (R240). -/
def State.ilasEnd (s : State) : Option Nat :=
  let l := s.txl 8
  if l.st = .ilas then some (l.ilasAt + 4 * s.lemcPeriod 8) else none

/-- The ILAS ends where its core cycle has come. -/
def State.ilasTurn (s : State) : State :=
  match s.ilasEnd with
  | some c => if c ≤ s.now then s.setTxl 8 { s.txl 8 with st := .data } else s
  | none => s

/-- A serializer that lost lock re-locks within 10 µs (14 R367). -/
def State.relockTurn (s : State) : State :=
  s.each (List.range 9) (fun s k =>
    let l := s.txl k
    if l.unlocked && decide (l.lostAt + 10240000 * 2 ^ 32 ≤ s.time.elapsed) then s.setTxl k { l with unlocked := false } else s)

/-! Transport layer of the transmit links (08 R238). -/

/-- What a lane of the precision link carries in its ILAS: DID the window code of the link's window, BID 0, LID the lane. -/
structure IlasId where
  did : BitVec 8
  bid : BitVec 4
  lid : BitVec 5
  deriving DecidableEq, Repr

/-- The identification of lane `lane` of the precision link, whose window is that of P0 (R238). -/
def State.ilasLane (s : State) (lane : Nat) : Option IlasId :=
  if (s.txl 8).st = .ilas && decide (lane < cfgLanes (s.reg (aLinkCfg 8))) then
    some ⟨BitVec.ofNat 8 (wSeq 8 / 0x10000), 0, BitVec.ofNat 5 lane⟩
  else none

/-- Converters of transmit link k: M of the precision link, one of a fast link. -/
def State.linkM (s : State) (k : Nat) : Nat := if k = 8 then cfgConverters (s.reg (aLinkCfg 8)) else 1

/-- The slot of converter j in the frame of transmit link k that carries the sample at an edge, most significant bit first (R238):
16 bits of a fast channel; of a precision channel 24 with 4 tail bits of zero; nothing where the link is not in DATA (R240). -/
def State.linkSlot (s : State) (k j e : Nat) : List Bool :=
  if (s.txl k).st != .data || (s.txl k).unlocked || decide (s.linkM k ≤ j) then []
  else if k = 8 then
    let v := s.position j e
    (List.range 20).map (fun i => bitOf v (19 - i)) ++ List.replicate 4 false
  else
    let v := s.fastOut k e
    (List.range 16).map (fun i => bitOf v (15 - i))

/-! Domains (R111). -/

/-- Where a clock domain takes its clock from (R111): a PLL, a link's recovered clock, a pin, or the PCIe PHY's PLL. -/
inductive ClkSource where
  | pll (p : Pll)
  | recovered (link : Nat)
  | feedback (link : Nat)
  | xo
  | ref10m
  | pcieRef
  | pciePhy
  | tck
  deriving DecidableEq, Repr

/-- A domain: its source now, its rate in Hz as numerator and denominator (none where the spec gives only a bound or a rate
per configuration), and whether its clock runs. -/
structure Domain where
  source : ClkSource
  rate : Option (Nat × Nat)
  runs : Bool
  deriving DecidableEq, Repr

/-- The rate of the XO (R111). -/
def xoRate : Nat × Nat := (156250000, 1)

/-- The core clock's rate: 1.024 x 10^12 fu a second over INC (R87). -/
def State.coreRate (s : State) : Nat × Nat := (1024000000000 * 2 ^ 32, max 1 s.incN)

/-- A rate times a fraction. -/
def rateBy (r : Nat × Nat) (a b : Nat) : Nat × Nat := (r.1 * a, r.2 * max 1 b)

/-- A domain that moves to the XO with its PLL in BYPASS or OFF (R105). -/
def State.movedDomain (s : State) (p : Pll) (onXo : Bool) (rate : Nat × Nat) : Domain :=
  if onXo then ⟨.xo, some xoRate, !s.clk.xoLost⟩ else ⟨.pll p, some rate, true⟩

/-- A domain of the SPLL that stops in BYPASS or OFF (R105). -/
def State.spllDomain (s : State) (rate : Option (Nat × Nat)) : Domain := ⟨.pll .spll, rate, !s.clk.spllStopped⟩

/-- The lane rate over the symbol width of a link (R111). -/
def State.symbolRate (s : State) (k : Nat) : Nat × Nat :=
  let v := s.reg (aLinkCfg k)
  let sample := rateBy s.coreRate 16 1
  if k < 8 then rateBy sample 16 (64 * cfgLanes v)
  else
    let p := rateBy s.coreRate (cfgConverters v * 24) (max 1 (bits v 0 16) * cfgLanes v)
    if bitOf v 24 then rateBy p 10 (8 * 40) else rateBy p 1 64

/-- The HPLL's output, 9.6 GHz; the FPLL's, 12.5 GHz (R111). -/
def hpllRate : Nat × Nat := (9600000000, 1)
/-- The FPLL's output. -/
def fpllRate : Nat × Nat := (12500000000, 1)

/-- The MPLL's output after its post-divider (R85). -/
def State.mpllRate (s : State) : Nat × Nat := (s.heldPoint .mpll).rate

/-- Domain n of the part, 1 to 60 (R111). -/
def State.domain (s : State) (n : Nat) : Option Domain :=
  let sample := rateBy s.coreRate 16 1
  let mctl := fun (_ : Unit) => s.movedDomain .mpll s.clk.mpllXo (rateBy s.mpllRate 1 8)
  let h := fun d => s.movedDomain .hpll s.clk.hpllXo (rateBy hpllRate 1 d)
  let f := fun d => s.movedDomain .fpll s.clk.fpllXo (rateBy fpllRate 1 d)
  if n = 0 ∨ 60 < n then none
  else if n = 1 then some (s.spllDomain (some sample))
  else if n = 2 then some (s.movedDomain .spll s.clk.spllXo s.coreRate)
  else if n = 3 then some (s.spllDomain (some (rateBy s.coreRate 8 1)))
  else if n = 4 then some (s.spllDomain (some (rateBy s.coreRate 1 (s.fld (aLinkCfg 8) 0 16))))
  else if n = 5 then some (s.spllDomain none)
  else if n ≤ 14 then some (s.spllDomain (some (s.symbolRate (n - 6))))
  else if n ≤ 16 then some ⟨.feedback (n - 15), none, s.rx (n - 15) == .data && !s.clk.spllStopped⟩
  else if n ≤ 28 then some (s.spllDomain (some (rateBy sample 1 (bits (s.coLiveAt (n - 17)) 13 13))))
  else if n = 29 then some (h 8)
  else if n = 30 then some (h 12)
  else if n ≤ 32 then some (h 16)
  else if n ≤ 34 then some (h 32)
  else if n = 35 then some (h 96)
  else if n ≤ 39 then some ⟨.pll .mpll, some (rateBy s.mpllRate 1 2), !s.clk.mpllXo⟩
  else if n ≤ 43 then some (mctl ())
  else if n = 44 then some (f 80)
  else if n = 45 then some (f 32)
  else if n ≤ 53 then some ⟨.recovered (n - 46), some (rateBy fpllRate 1 32), !s.clk.fpllStopped⟩
  else if n = 54 then some (f 32)
  else if n = 55 then some ⟨.pcieRef, some (100000000, 1), true⟩
  else if n = 56 then some ⟨.pciePhy, some (1000000000, 1), true⟩
  else if n = 57 then some ⟨.xo, some xoRate, !s.clk.xoLost⟩
  else if n = 58 then some ⟨.ref10m, some (10000000, 1), s.clk.ref10m⟩
  else if n = 59 then some ⟨.tck, none, true⟩
  else some ⟨.xo, some (rateBy xoRate 1 16), !s.clk.xoLost⟩

/-- Whether domain n's clock runs. -/
def State.domainRuns (s : State) (n : Nat) : Bool := match s.domain n with | some d => d.runs | none => false

/-! Outputs (R109). Levels are over half sample periods: half-period h begins h/2 sample periods after edge 0. -/

/-- For how many half sample periods of its period CO output k is high: at least one, and not all of it (log 37). -/
def State.coHighHalves (s : State) (k : Nat) : Nat :=
  let d := max 1 (bits (s.coLiveAt k) 13 13)
  min (2 * d - 1) (max 1 (Config.coHigh k d))

/-- Level of output COk in a half sample period: none is high-impedance, FORMAT 0b00 (R109) or a reset (15 R385). A stopped
output is low. -/
def State.coLevel (s : State) (k h : Nat) : Option Bool :=
  let v := s.coLiveAt k
  let start := 2 * (Tab.get (fun _ => 0) s.clk.coAt k + bits v 0 13)
  if bits v 26 2 = 0 || s.hk.inReset.isSome then none
  else if s.clk.spllStopped || decide (h < start) then some false
  else some (decide ((h - start) % (2 * max 1 (bits v 13 13)) < s.coHighHalves k))

/-- Level of output SYk in the core cycle that holds an edge (R109): from B_s of the SYSREF that selected it, PULSES pulses or
without end, one core cycle high in SYDIV (DESIGN CHOICE, log 47: CLK_CO_APPLY ends what runs, and the next SYSREF starts it). -/
def State.syLevel (s : State) (k e : Nat) : Option Bool :=
  let v := s.syLiveAt k
  let start := Tab.get (fun _ => 0) s.clk.coAt (12 + k)
  let p := 16 * max 1 (bits v 12 12)
  if bits (s.coLiveAt k) 26 2 = 0 || s.hk.inReset.isSome then none
  else if s.clk.spllStopped || start = 0 || decide (e < start) then some false
  else
    let i := (e - start) / p
    some ((bits v 24 8 == 255 || decide (i < bits v 24 8)) && decide ((e - start) % p < 16))

/-- The format of an output: that of COk, LVDS in place of CML for SYk (R109). -/
def State.outFormat (s : State) (sy : Bool) (k : Nat) : Nat :=
  let f := bits (s.coLiveAt k) 26 2
  if sy && f == 2 then 1 else f

/-- The balls of an output at a level: the N ball of LVCMOS is high-impedance (R409). -/
def outBalls (fmt : Nat) (v : Option Bool) : Option Bool × Option Bool :=
  (v, if fmt = 3 then none else v.map (!·))

/-- The stopped SPLL domains restart: every output begins anew with a full high phase (R107, R109). -/
def State.outputsRestart (s : State) : State :=
  { s with clk := { s.clk with coAt := (List.range 24).foldl (fun t k =>
      if k < 12 || Tab.get (fun _ => 0) t k != 0 then Tab.set (fun _ => 0) t k (s.fastNow 0) else t) s.clk.coAt } }

end Sys2Proof.Machine
end

