-- ==== Sys2Proof/Machine/Clk.lean ====
section
/-!
DEFINITION. PLL events, the LOCKMON pin, the loss and return of references and what the SPLL's leaving LOCKED ends (04 R90 to
R104).
-/

namespace Sys2Proof.Machine

/-- CLK_x_EVENTS of a PLL. -/
def aPllEv (p : Pll) : Nat := aPll p + 0x1C
/-- The PLL of a unit index. -/
def pllOf : Nat → Pll
  | 0 => .spll
  | 1 => .mpll
  | 2 => .fpll
  | _ => .hpll
/-- Set an event bit of a PLL. -/
def State.pllEvent (s : State) (p : Pll) (i : Nat) : State := s.raise (aPllEv p) (bit1 i)
/-- ENABLE of a PLL. -/
def State.pllOn (s : State) (p : Pll) : Bool := s.flag (aPll p) 0
/-- LOCK_WIN of a PLL in fu. -/
def State.lockWin (s : State) (p : Pll) : Nat := s.fld (aPll p + 0x14) 24 8
/-- UNLOCK_WIN of a PLL in fu. -/
def State.unlockWin (s : State) (p : Pll) : Nat := 4 * s.fld (aPll p + 0x14) 16 8

/-- The level of the LOCKMON pin (R102): one per reference period of the selected PLL, by that period's phase error. -/
def State.lockmon (s : State) : Bool :=
  let p := pllOf (s.fld (wClk + 0x300) 0 2)
  let x := s.pll p
  s.flag (wClk + 0x300) 2 && (x.st == .locked || x.st == .acquire) && decide (x.phaseErr.toInt.natAbs ≤ s.lockWin p)

/-! The idle oscillator, hops and searches that end when the SPLL leaves LOCKED (R90, R95). -/

/-- A CLOCK_HOP record (05 R130): entry active before, whether it failed, target, FT of W. -/
def State.hopRecord (s : State) (h : Hop) (failed : Bool) : State :=
  s.postEvt 0x03 [BitVec.ofNat 32 (h.old * 256 + b01 failed * 64 + h.target), (h.w >>> 32).setWidth 32,
    (h.w >>> 64).setWidth 32, ((h.w >>> 96).setWidth 16 : BitVec 16).setWidth 32, 0]

/-- A hop in progress fails (R95). -/
def State.hopFail (s : State) : State :=
  match s.clk.hop with
  | none => s
  | some h => ((s.modClk (fun c => { c with hop := none, idle := .free })).pllEvent .spll 5).hopRecord h true

/-- An idle-oscillator search is abandoned (R90). -/
def State.searchAbort (s : State) : State :=
  match s.clk.idle with
  | .search _ _ => (s.modClk (fun c => { c with idle := .free })).pllEvent .spll 8
  | _ => s

/-- The SPLL leaves LOCKED: a hop fails, a search is abandoned, a ramp stops at the FCW it has reached. -/
def State.spllLeft (s : State) : State := (s.hopFail.searchAbort).modClk (fun c => { c with ramp := none })

/-- A PLL enters a state; one that the SPLL leaves LOCKED for ends what runs on it. -/
def State.pllTo (s : State) (p : Pll) (st : PSt) : State :=
  let was := (s.pll p).st
  let s := s.modPll p (fun x => { x with st := st })
  if p = .spll && was == .locked && st != .locked then s.spllLeft else s

/-- A PLL enters SEARCH (R88, R106, R108); the SPLL's goal is the held point from OFF and the active entry's otherwise. -/
def State.pllSearch (s : State) (p : Pll) (origin : PSt) : State :=
  let s := s.modPll p (fun x => { x with st := .search, origin := origin, timeouts := 0 })
  if p = .spll then
    let g := if origin = .off then s.heldPoint .spll else entryPoint (s.bandEntry s.clk.entry)
    s.modClk (fun c => { c with goal := g })
  else s

/-- OFF is left when ENABLE and REF_OK are 1 (R108). -/
def State.pllWake (s : State) (p : Pll) : State :=
  if (s.pll p).st = .off && s.pllOn p && (s.pll p).refOk then s.pllSearch p .off else s

/-- Entry to HOLDOVER. -/
def State.pllHold (s : State) (p : Pll) : State := (s.pllTo p .holdover).pllEvent p 2

/-- A PLL's reference is lost (R103, R108; 04 Corners for BYPASS); an SPLL that returns to OFF enters it, so its accumulator
clears (R100). -/
def State.refLost (s : State) (p : Pll) : State :=
  if !(s.pll p).refOk then s
  else
    let s := (s.modPll p (fun x => { x with refOk := false })).pllEvent p 1
    let s := if p = .hpll then s.modClk (fun c => { c with xoLost := true }) else s
    match (s.pll p).st with
    | .locked => (s.pllHold p).detect 0x02 uPll (pllIndex p) 0
    | .search | .acquire =>
      let back := (s.pll p).origin
      let s := s.modPll p (fun x => { x with st := x.origin, timeouts := 0 })
      if p = .spll && back == .off then s.modClk (fun c => { c with pend := 0 }) else s
    | .bypass => s.detect 0x02 uPll (pllIndex p) 0
    | _ => s

/-- A PLL's reference is back (R103): a PLL that waits in OFF with ENABLE set enters SEARCH. -/
def State.refBack (s : State) (p : Pll) : State :=
  let s := s.modPll p (fun x => { x with refOk := true })
  let s := if p = .hpll then s.modClk (fun c => { c with xoLost := false }) else s
  s.pllWake p

/-- A change of REFSEL, or of the FPLL's LINK, to a reference that is present or not (R104). -/
def State.refChanged (s : State) (p : Pll) (present : Bool) : State :=
  if !present then s.refLost p
  else if (s.pll p).st = .locked then s.pllHold p
  else if (s.pll p).refOk then s else s.refBack p

/-- The FPLL follows a reference that housekeeping selects (13 R355): held FCW words, then REFSEL and LINK. -/
def State.fpllFollow (s : State) (sel link : Nat) (present : Bool) : State :=
  let a := aPll .fpll
  let old := s.reg a
  let new := putBits (putBits old 14 2 sel) 16 4 (if sel = 2 then link else bits old 16 4)
  if old = new then s
  else
    let s := ((s.setReg (a + 4) (if sel = 1 then 1250 else 80)).setReg (a + 8) 0).setReg (a + 12) 1
    (s.setReg a new).refChanged .fpll present

end Sys2Proof.Machine
end

