-- ==== Sys2Proof/Machine/Nzl.lean ====
section
/-!
DEFINITION. The fabric's link layer and packets: flits and their CRCs, credits, acknowledgement and replay, link states,
forwarding, negative acknowledgements, mail (13 R328 to R337, R346, R347, R357 to R364).
-/

namespace Sys2Proof.Machine

/-- NZL_Ln_CFG of link n. -/
def aLink (n : Nat) : Nat := wNzl + 0x1000 + 0x40 * n
/-- NZL_EVENTS. -/
def aNzlEv : Nat := wNzl + 0x28
/-- NZL_Ln_EVENTS. -/
def aLinkEv (n : Nat) : Nat := aLink n + 8
/-- NZL_TTL_DROPS. -/
def aTtlDrops : Nat := wNzl + 0x3C

/-- Change the fabric block. -/
def State.modNzl (s : State) (f : Nzl → Nzl) : State := { s with nzl := f s.nzl }
/-- EN of NZL_CTRL. -/
def State.fabricOn (s : State) : Bool := s.flag wNzl 0
/-- Whether link n is UP. -/
def State.linkUp (s : State) (n : Nat) : Bool := (s.link n).st == .up
/-- Whether link n takes new packets: it is UP, and no retirement has fenced it (R363). -/
def State.linkOpen (s : State) (n : Nat) : Bool := s.linkUp n && !s.isRetired uLink n
/-- Links that take new packets and do not lead to this part itself (R331). -/
def State.upLinks (s : State) : List Nat := (List.range 8).filter (fun n => s.linkOpen n && !(s.link n).self)
/-- A time span in microseconds, in 2^-32 fu. -/
def spanUs (k : Nat) : Nat := k * 1024000 * 2 ^ 32

/-! Flits (R332, R334). -/

/-- CRC-16 of bits [255:16] of a flit: polynomial 0x1021, initial 0xFFFF, bit 255 first. -/
def flitCrc (v : BitVec 256) : BitVec 16 :=
  (List.range 240).foldl (fun (c : BitVec 16) i =>
    let top := c.getLsbD 15 != v.getLsbD (255 - i)
    let c := c <<< 1
    if top then c ^^^ 0x1021 else c) 0xFFFF

/-- A flit with its CRC in bits [15:0]. -/
def withCrc (n : Nat) : BitVec 256 :=
  let v : BitVec 256 := BitVec.ofNat 256 (n / 2 ^ 16 * 2 ^ 16)
  v ||| (flitCrc v).setWidth 256

/-- Payload flits of a packet: the payload and its PCRC. -/
def payloadFlits (len : Nat) : Nat := if len = 0 then 0 else cdiv (len + 4) 32

/-- Flits of a packet. -/
def Pkt.size (p : Pkt) : Nat := 1 + payloadFlits p.payload.length

/-- The header flit of a packet (R334). -/
def Pkt.header (p : Pkt) : BitVec 256 :=
  withCrc (p.ty.toNat * 2 ^ 252 + p.vc * 2 ^ 250 + p.ttl.toNat * 2 ^ 245 + b01 p.srcrt * 2 ^ 244 +
    payloadFlits p.payload.length * 2 ^ 240 + p.src.toNat * 2 ^ 228 + p.dest.toNat * 2 ^ 212 + p.lseq.toNat * 2 ^ 204 +
    p.route.toNat * 2 ^ 156 + p.body.toNat * 2 ^ 16)

/-- The flits of a packet: header, then payload with PCRC in the last four bytes. -/
def Pkt.flits (p : Pkt) : List (BitVec 256) :=
  let k := payloadFlits p.payload.length
  let h := p.header
  if k = 0 then [h]
  else
    let body := p.payload ++ List.replicate (32 * k - 4 - p.payload.length) 0
    let all := body ++ leBytes (crc32 (leBytes h 32 ++ body)) 4
    h :: (List.range k).map (fun i => BitVec.ofNat 256 (leNat ((all.drop (32 * i)).take 32)))

/-- A field of BODY by its lowest header bit. -/
def bodyAt (pos v : Nat) : Nat := v * 2 ^ (pos - 16)

/-- A packet of a type with BODY and payload, at its origin. -/
def mkPkt (ty vc : Nat) (src : BitVec 12) (dest : Nat) (body : Nat) (payload : List Byte) : Pkt :=
  { ty := BitVec.ofNat 4 ty, vc := vc, ttl := 31, srcrt := false, src := src, dest := BitVec.ofNat 16 dest, route := 0,
    body := BitVec.ofNat 140 body, payload := payload, lseq := 0, send := none, input := none }

/-- A packet on a source route (R334, R346): its TTL is the number of links of the route. -/
def Pkt.routed (p : Pkt) (route : List Nat) : Pkt :=
  { p with
    srcrt := true, ttl := BitVec.ofNat 5 route.length,
    route := BitVec.ofNat 48 ((route.reverse).foldl (fun a l => a * 8 + l % 8) 0) }

/-! Sending (R329, R330, R332). -/

/-- A link-control flit leaves link n; it carries the credits freed since the one before, once the link is UP. -/
def State.ctlFlit (s : State) (n ctype ack replay die link cal : Nat) : State :=
  let x := s.link n
  let up := x.st == .up
  let c (v : Nat) : Nat := if up then min 64 v else 0
  let f := withCrc (ctype * 2 ^ 252 + ack * 2 ^ 244 + replay * 2 ^ 236 + c x.freed0 * 2 ^ 228 + c x.freed1 * 2 ^ 220 +
    c x.freed2 * 2 ^ 212 + die * 2 ^ 148 + link * 2 ^ 145 + cal * 2 ^ 144)
  (s.setLink n { x with
    freed0 := x.freed0 - c x.freed0, freed1 := x.freed1 - c x.freed1, freed2 := x.freed2 - c x.freed2 }).emit (.flits n [f])

/-- Credit of a link on a VC. -/
def Link.cred (x : Link) (vc : Nat) : Nat := if vc = 0 then x.cred0 else if vc = 1 then x.cred1 else x.cred2
/-- Take credit on a VC. -/
def Link.take (x : Link) (vc k : Nat) : Link :=
  if vc = 0 then { x with cred0 := x.cred0 - k } else if vc = 1 then { x with cred1 := x.cred1 - k }
  else { x with cred2 := x.cred2 - k }
/-- Flits of an input freed on a VC. -/
def Link.free (x : Link) (vc k : Nat) : Link :=
  if vc = 0 then { x with freed0 := x.freed0 + k } else if vc = 1 then { x with freed1 := x.freed1 + k }
  else { x with freed2 := x.freed2 + k }
/-- Flits in the retry buffer. -/
def Link.held (x : Link) : Nat := (x.retry.map Pkt.size).foldl (· + ·) 0

/-- The packet that an output sends next (R329): the first of the lowest-numbered VC whose first packet has credit and
room in the retry buffer of 128 flits (R330). -/
def Link.next (x : Link) : Option Pkt :=
  [0, 1, 2].findSome? (fun v =>
    match x.queue.find? (fun p => p.vc == v) with
    | some p => if p.size ≤ x.cred v ∧ x.held + p.size ≤ 128 then some p else none
    | none => none)

/-- A packet has left this node, or was discarded: the flits that its input held are freed once no output still holds a copy
(R329). -/
def State.freeInput (s : State) (p : Pkt) : State :=
  match p.input with
  | some (n, k) =>
    if (List.range 8).any (fun m => (s.link m).queue.any (fun q => q.input == some (n, k))) then s
    else s.modLink n (fun x => x.free p.vc p.size)
  | none => s

/-- Send what the credits of link n allow; fuel bounds the packets. -/
def State.linkPump (s : State) (n : Nat) : Nat → State
  | 0 => s
  | k + 1 =>
    let x := s.link n
    if x.st ≠ .up then s
    else match x.next with
      | none => s
      | some p =>
        let q := { p with lseq := x.lseqTx, input := none }
        let y := { x.take p.vc p.size with queue := x.queue.erase p, retry := x.retry ++ [q], lseqTx := x.lseqTx + 1 }
        let s := ((s.setLink n y).emit (.flits n q.flits)).freeInput p
        let s := match p.send with
          | some (r, d) => s.modDesc r d (fun d => { d with moved := d.moved + (if p.ty = 0xA then p.payload.length else 0) })
          | none => s
        State.linkPump s n k

/-- Put a packet into the output of link n and send what can leave. -/
def State.linkPut (s : State) (n : Nat) (p : Pkt) : State :=
  let s := s.modLink n (fun x => { x with queue := x.queue ++ [p] })
  s.linkPump n (s.link n).queue.length

/-- Whether packets of a send still wait at an output. -/
def State.sendWaits (s : State) (ring slot : Nat) : Bool :=
  (List.range 8).any (fun n => (s.link n).queue.any (fun p => p.send == some (ring, slot)))

/-- Packets go on without the descriptors whose sends they complete (05 R146, 15 R384). -/
def State.sendsGone (s : State) : State :=
  s.each (List.range 8) (fun s n =>
    s.modLink n (fun x => { x with queue := x.queue.map (fun p => { p with send := none }) }))

/-! Notices and NAKs (R362). -/

/-- MAIL_RX ring of a message type (NZL_MAIL_MAP). -/
def State.mailRing (s : State) (mtype : Nat) : Nat := s.fld (wNzl + 0x80 + 4 * (mtype / 4)) (8 * (mtype % 4)) 8

/-- A refusal that a NAK reports: cause, type and DEST of the packet, TAG, ORDER_SEQ or MSG_ID, refused targets. -/
structure NakBody where
  cause : Nat
  ty : Nat
  dest : Nat
  tag : Nat
  seq : Nat
  mask : Nat
  deriving DecidableEq, Repr

/-- A NAK reaches its origin: a one-entry notice to the ring of MTYPE 0xFF, or counted (R362). -/
def State.notice (s : State) (from_ : BitVec 12) (b : NakBody) : State :=
  let r := s.mailRing 0xFF
  let p := leBytes (BitVec.ofNat 8 b.cause) 1 ++ leBytes (BitVec.ofNat 8 b.ty) 1 ++ leBytes (BitVec.ofNat 16 b.dest) 2 ++
    leBytes (BitVec.ofNat 32 b.tag) 4 ++ leBytes (BitVec.ofNat 32 b.seq) 4 ++ leBytes (BitVec.ofNat 24 b.mask) 3 ++ [0]
  if s.ringTakes r cMailRx && s.ringFree r != 0 then s.postMail r from_ 1 p else s.bump (wNzl + 0x34)

/-- Whether a packet type is never answered with a NAK (R346). -/
def unanswered (ty : Nat) : Bool := ty == 1 || ty == 2 || ty == 3 || ty == 6 || ty == 7 || ty == 0xB || ty == 0xC

/-- Cause codes of R362. -/
def nkNoRoute : Nat := 1
/-- RETIRED. -/
def nkRetired : Nat := 2

/-- The routing entry for a node: the link, where the entry is VALID (R341). -/
def State.routeTo (s : State) (dest : Nat) : Option Nat :=
  let e := Tab.get (fun _ => (0 : BitVec 4)) s.nzl.cfg.table (dest % 4096)
  if bitOf e 3 then some (bits e 0 3) else none

/-- How a unicast packet can leave this node (R346 rule 4). -/
inductive Way where
  | link (n : Nat)
  | noRoute
  | retired (n : Nat)
  deriving DecidableEq, Repr

/-- The way to a node. -/
def State.wayTo (s : State) (dest : Nat) : Way :=
  match s.routeTo dest with
  | none => .noRoute
  | some n => if s.isRetired uLink n then .retired n else if s.linkUp n then .link n else .noRoute

/-- The NAK packet for a refusal. -/
def State.nakPkt (s : State) (to_ : BitVec 12) (b : NakBody) : Pkt :=
  mkPkt 0xB 0 s.node to_.toNat
    (bodyAt 152 b.cause + bodyAt 148 b.ty + bodyAt 132 b.dest + bodyAt 100 b.tag + bodyAt 68 b.seq + bodyAt 44 b.mask) []

/-- Answer a packet of an origin with a NAK: a NAK itself that cannot be routed is dropped and counted (R346, R362). -/
def State.sendNak (s : State) (to_ : BitVec 12) (b : NakBody) : State :=
  let s := s.bump (wNzl + 0x30)
  if to_ = s.node then s.notice s.node b
  else match s.wayTo to_.toNat with
    | .link n => s.linkPut n (s.nakPkt to_ b)
    | _ => s.bump aTtlDrops

/-- TAG, sequence and mask that a NAK of a packet reports. -/
def Pkt.nakOf (p : Pkt) (cause : Nat) : NakBody :=
  let f (lo w : Nat) : Nat := bits p.body (lo - 16) w
  if p.ty = 0x9 then
    ⟨cause, 9, p.dest.toNat, leNat ((p.payload.drop 20).take 4), leNat ((p.payload.drop 16).take 4), f 45 24⟩
  else if p.ty = 0xA then ⟨cause, 10, p.dest.toNat, f 86 32, f 140 16, 0⟩
  else ⟨cause, p.ty.toNat, p.dest.toNat, 0, 0, 0⟩

/-- A packet that goes no further is answered, or dropped and counted (R346). -/
def State.refusePkt (s : State) (p : Pkt) (cause : Nat) : State :=
  if unanswered p.ty.toNat then s.bump aTtlDrops else s.sendNak p.src (p.nakOf cause)

/-- A packet to a link: a retired one answers with its tombstone (R363). -/
def State.putOrRefuse (s : State) (n : Nat) (p : Pkt) : State :=
  if s.isRetired uLink n then (s.bump (aLink n + 0x18)).refusePkt p nkRetired
  else if s.linkUp n then s.linkPut n p
  else s.refusePkt p nkNoRoute

/-- A packet whose TTL is 0 is dropped, counted and, where its type is answered, answered (R346 rule 2). -/
def State.expire (s : State) (p : Pkt) : State :=
  let s := s.bump aTtlDrops
  if unanswered p.ty.toNat then s else s.sendNak p.src (p.nakOf nkNoRoute)

/-- Forward a unicast packet that is not for this node (R346). -/
def State.forward (s : State) (p : Pkt) : State :=
  if p.ttl = 0 then s.expire p
  else
    let p := { p with ttl := p.ttl - 1 }
    match s.routeTo (bits p.dest 0 12) with
    | none => s.refusePkt p nkNoRoute
    | some n => s.putOrRefuse n p

/-- A source-routed packet at this node (R346 rule 3): `none` where it is for this node, else the state after it was
forwarded or dropped. -/
def State.srcRoute (s : State) (p : Pkt) : Option State :=
  if p.ttl = 0 then some (s.expire p)
  else if p.ttl = 1 then none
  else some (s.putOrRefuse (p.route.toNat % 8) { p with ttl := p.ttl - 1, route := p.route >>> 3 })

/-- Tree links of this node. -/
def State.treeLinks (s : State) : List Nat := (List.range 8).filter (fun n => bitOf s.nzl.cfg.tree n)

/-- Send a packet on a list of links (R347): a retired one meets its tombstone, and a refusal is answered once for each cause
(R362, R363). -/
def State.sendOn (s : State) (p : Pkt) (links : List Nat) : State :=
  let gone := links.filter (fun n => s.isRetired uLink n)
  let down := links.filter (fun n => !s.isRetired uLink n && !s.linkUp n)
  let s := s.each (links.filter (fun n => s.linkOpen n)) (fun s n => s.linkPut n p)
  let s := s.each gone (fun s n => s.bump (aLink n + 0x18))
  let s := if gone.isEmpty then s else s.refusePkt p nkRetired
  if down.isEmpty then s else s.refusePkt p nkNoRoute

/-- Send a packet on every tree link but one (R347). -/
def State.treeSend (s : State) (p : Pkt) (but : Option Nat) : State :=
  s.sendOn p (s.treeLinks.filter (fun n => some n != but))

/-- KIND of a DEST. -/
def destKind (d : Nat) : Nat := d / 2 ^ 14 % 4
/-- Whether this node is in the set that a group or all-nodes DEST names (R337). -/
def State.inGroup (s : State) (d : Nat) : Bool :=
  destKind d == 2 || (destKind d == 1 && s.flag (wNzl + 0x40 + 4 * (d % 256 / 32)) (d % 32))
/-- Whether a DEST names this node. -/
def State.isFor (s : State) (d : Nat) : Bool := if destKind d = 0 then d % 4096 == s.node.toNat else s.inGroup d

/-- A packet that arrived goes on to other nodes where its DEST asks for it (R346, R347). -/
def State.passOn (s : State) (link : Nat) (p : Pkt) : State :=
  if destKind p.dest.toNat = 0 then (if s.isFor p.dest.toNat then s else s.forward p)
  else s.treeSend p (some link)

/-! Receiving (R330, R332). -/

/-- A packet was received good and in order on link n: it is acknowledged. -/
def State.rxHold (s : State) (n : Nat) : State :=
  let s := s.modLink n (fun x => { x with lseqRx := x.lseqRx + 1, rxCount := x.rxCount + 1, peerHello := false })
  s.ctlFlit n 1 ((s.link n).lseqRx - 1).toNat 0 0 0 0

/-- A packet that this node takes for itself: its flits are freed on its VC at once. -/
def State.rxPacket (s : State) (n vc flits : Nat) : State := (s.modLink n (fun x => x.free vc flits)).rxHold n

/-- A packet that may go on to other nodes: its input holds its flits until it has left (R329). -/
def State.rxRoute (s : State) (n : Nat) (p : Pkt) (f : State → Pkt → State) : State :=
  let s := s.rxHold n
  let p := { p with input := some (n, (s.link n).rxCount) }
  (f s p).freeInput p

/-- Credits arrive. -/
def Link.credit (x : Link) (c : Credits) : Link :=
  { x with cred0 := x.cred0 + c.vc0.toNat, cred1 := x.cred1 + c.vc1.toNat, cred2 := x.cred2 + c.vc2.toNat }

/-- Packets acknowledged up to an LSEQ leave the retry buffer. -/
def ackUpTo (a : BitVec 8) (l : List Pkt) : List Pkt :=
  if l.any (fun p => p.lseq == a) then (l.dropWhile (fun p => p.lseq != a)).tail else l

/-- A LINK_ACK. -/
def State.linkAck (s : State) (n : Nat) (ack : BitVec 8) (c : Credits) : State :=
  if !s.linkUp n then s
  else
    let s := s.modLink n (fun x => { (x.credit c) with
      retry := ackUpTo ack x.retry, peerHello := false, badReplays := if x.retry.any (fun p => p.lseq == ack) then 0 else x.badReplays })
    s.linkPump n (s.link n).queue.length

/-- An IDLE. -/
def State.linkIdle (s : State) (n : Nat) (c : Credits) : State :=
  if !s.linkUp n then s
  else
    let s := s.modLink n (fun x => x.credit c)
    s.linkPump n (s.link n).queue.length

/-- A lost flit (R330, R332): counted; an UP link asks for replay from the first packet not received. -/
def State.flitLost (s : State) (n : Nat) : State :=
  if (s.link n).st = .down || (s.link n).st = .train || (s.link n).st = .retired then s
  else
    let s := s.bump (aLink n + 0x14)
    if s.linkUp n then s.ctlFlit n 2 ((s.link n).lseqRx - 1).toNat (s.link n).lseqRx.toNat 0 0 0 else s

/-! Link states (R331, R333). -/

/-- A node tells the root that a link entered or left UP, or retired (R344). -/
def State.topoSend (s : State) (n code : Nat) : State :=
  if s.nzl.st = .member then
    let p := mkPkt 8 0 s.node s.nzl.rootAddr.toNat (bodyAt 140 s.nzl.gen.toNat + bodyAt 137 n + bodyAt 134 code) []
    match s.wayTo s.nzl.rootAddr.toNat with
    | .link k => s.linkPut k p
    | _ => s.refusePkt p nkNoRoute
  else s

/-- TIME_LOCKED clears (R352). -/
def State.timeUnlock (s : State) : State :=
  if s.time.locked then
    (({ s with time := { s.time with locked := false } }.modNzl (fun z => { z with lockRun := 0, unlockRun := 0 })).raise
      aNzlEv (bit1 5)).detect 0x1B 0 0 0
  else s

/-- The parent link left UP: the hold of R356 runs, or ends at once. -/
def State.parentLost (s : State) : State :=
  if s.fld (wNzl + 0xC) 0 16 = 0 then s.timeUnlock
  else s.modNzl (fun z => { z with holding := true, holdAt := s.time.elapsed })

/-- What the inputs of link n held is lost with the link. -/
def State.inputGone (s : State) (n : Nat) : State :=
  s.each (List.range 8) (fun s m => s.modLink m (fun x => { x with
    queue := x.queue.map (fun p => if p.input.map (fun i => i.1) == some n then { p with input := none } else p) }))

/-- Link n leaves UP for a state: what it still owes its peer waits for the next UP. -/
def State.linkDropTo (s : State) (n : Nat) (st : LkSt) : State :=
  let x := s.link n
  let s := s.setLink n { x with
    st := st, queue := x.retry ++ x.queue, retry := [], peer := none, txStamps := [], gotHello := false, gotCal := false,
    sentCal := false, calibrated := false, badReplays := 0, unlockedRun := 0, since := s.time.elapsed, timeAt := none }
  let s := s.inputGone n
  if x.st = .up then
    let s := s.raise (aLinkEv n) (bit1 1)
    let s := if s.nzl.cfg.parent.map BitVec.toNat = some n && s.nzl.st != .root && s.nzl.st != .enum && s.flag wNzl 2 then s.parentLost else s
    s.topoSend n (match st with | .down => 0 | .train => 1 | .hello => 2 | .up => 3 | .retired => 4)
  else s

/-- Every link drops where the FPLL enters BYPASS (R105). -/
def State.linksDrop (s : State) : State :=
  s.each (List.range 8) (fun s n => match (s.link n).st with
    | .up => s.linkDropTo n .train
    | .train | .hello => s.linkDropTo n .down
    | _ => s)

/-- A REPLAY_REQ (R330): what it acknowledges leaves the buffer, the rest from its LSEQ on is sent again; the eighth in a
row that brings no progress takes the link to TRAIN (R331). -/
def State.replayReq (s : State) (n : Nat) (ack from_ : BitVec 8) (c : Credits) : State :=
  if !s.linkUp n then s
  else
    let x := s.link n
    let bad := if x.retry.any (fun p => p.lseq == ack) then 1 else x.badReplays + 1
    let s := s.setLink n { (x.credit c) with retry := ackUpTo ack x.retry, badReplays := bad }
    let l := (s.link n).retry.dropWhile (fun p => p.lseq != from_)
    let s := (s.emit (.flits n (l.flatMap Pkt.flits))).bump (aLink n + 0x10)
    let s := (s.raise (aLinkEv n) (bit1 2)).detect 0x18 uLink n 0
    if 8 ≤ bad then s.linkDropTo n .train else s.linkPump n (s.link n).queue.length

/-- A HELLO leaves link n. -/
def State.helloOut (s : State) (n : Nat) : State :=
  let s := s.ctlFlit n 3 0 0 Config.dieId.toNat n (b01 ((s.link n).calibrated || s.linkUp n))
  s.modLink n (fun x => { x with sentCal := x.sentCal || x.calibrated })

/-! Mail (R361). -/

/-- A whole message is delivered, or refused with a NAK. -/
def State.mailDeliver (s : State) (src : BitVec 12) (dest : Nat) (msgId mtype tag : Nat) (msg : List Byte) : State :=
  let r := s.mailRing mtype
  let nak (c : Nat) : State := s.sendNak src ⟨c, 10, dest, tag, msgId, 0⟩
  if s.isRetired uRing r then nak 2
  else if !s.ringTakes r cMailRx then nak 4
  else if s.ringFree r < cdiv msg.length 60 then nak 3
  else s.postMail r src (cdiv msg.length 60) msg

/-- A fragment for this node is reassembled (R361). -/
def State.mailFrag (s : State) (p : MailPkt) : State :=
  let same (r : Reasm) : Bool := r.src == p.src && r.msgId == p.msgId
  let key := (p.src, p.msgId)
  let last := decide (p.len.toNat ≤ 240 * p.frag.toNat + p.payload.length)
  let deliver (s : State) (data : List Byte) : State :=
    s.mailDeliver p.src p.dest.toNat p.msgId.toNat p.mtype.toNat p.tag.toNat data
  if s.nzl.dropMail.contains key then
    if last then s.modNzl (fun z => { z with dropMail := z.dropMail.erase key }) else s
  else if p.frag = 0 then
    if 16 ≤ s.nzl.reasm.length then
      let s := if last then s else s.modNzl (fun z => { z with dropMail := z.dropMail ++ [key] })
      s.sendNak p.src ⟨5, 10, p.dest.toNat, p.tag.toNat, p.msgId.toNat, 0⟩
    else if last then deliver s p.payload
    else s.modNzl (fun z => { z with
      reasm := z.reasm ++ [⟨p.src, p.dest, p.msgId, p.mtype, p.len.toNat, p.tag, 1, p.payload, s.time.elapsed⟩] })
  else match s.nzl.reasm.find? same with
    | none => s
    | some r =>
      if r.next ≠ p.frag.toNat then s
      else if last then deliver (s.modNzl (fun z => { z with reasm := z.reasm.erase r })) (r.data ++ p.payload)
      else s.modNzl (fun z => { z with
        reasm := modFirst same (fun r => { r with next := r.next + 1, data := r.data ++ p.payload, heard := s.time.elapsed }) z.reasm })

/-- The packet of a mail fragment. -/
def mailPkt (p : MailPkt) : Pkt :=
  { mkPkt 0xA 2 p.src p.dest.toNat
      (bodyAt 140 p.msgId.toNat + bodyAt 137 p.frag.toNat + bodyAt 126 p.len.toNat + bodyAt 118 p.mtype.toNat +
        bodyAt 86 p.tag.toNat) p.payload with ttl := p.ttl }

/-- A MAIL fragment arrives. -/
def State.mailRx (s : State) (n : Nat) (p : MailPkt) : State :=
  if !s.linkUp n then s
  else
    let s := s.rxRoute n (mailPkt p) (fun s q => s.passOn n q)
    if s.isFor p.dest.toNat then s.mailFrag p else s

/-- The next fragment of a message did not arrive (R361). -/
def State.mailLost (s : State) (src : BitVec 12) (msgId : BitVec 16) : State :=
  match s.nzl.reasm.find? (fun r => r.src == src && r.msgId == msgId) with
  | none => s
  | some r =>
    (s.modNzl (fun z => { z with reasm := z.reasm.erase r })).sendNak src
      ⟨6, 10, r.dest.toNat, r.tag.toNat, msgId.toNat, 0⟩

/-- How a send of this node ends (R138, R357): its status and AUX where it ends at once; `none` where it has packets to
send. -/
def State.sendTest (s : State) (dest : Nat) : Option (Nat × Nat) :=
  if s.nzl.st ≠ .member && s.nzl.st ≠ .root then some (sNoRoute, 0xFFFFFFFF)
  else if destKind dest = 0 && dest % 4096 ≠ s.node.toNat then
    match s.wayTo (dest % 4096) with
    | .link _ => none
    | .noRoute => some (sNoRoute, dest % 4096)
    | .retired _ => some (sRetired, 0)
  else none

/-- Links that a packet of this node leaves on. -/
def State.outLinks (s : State) (dest : Nat) : List Nat :=
  if destKind dest = 0 then
    if dest % 4096 = s.node.toNat then [] else (s.routeTo (dest % 4096)).toList
  else s.treeLinks

/-- Originate a packet: it enters the output of each of its links. -/
def State.originate (s : State) (p : Pkt) : State := s.sendOn p (s.outLinks p.dest.toNat)

/-- The fragments of a message (R361). -/
def fragments (msg : List Byte) : List (List Byte) :=
  (List.range (max 1 (cdiv msg.length 240))).map (fun i => (msg.drop (240 * i)).take 240)

/-- Send a message of this node: its fragments leave, and where DEST includes this node it is delivered here too. -/
def State.mailSend (s : State) (dest mtype tag : Nat) (msg : List Byte) (send : Nat × Nat) : State :=
  let id := s.nzl.msgId
  let s := s.modNzl (fun z => { z with msgId := z.msgId + 1 })
  let l := (fragments msg).zipIdx
  let s := s.each l (fun s f =>
    s.originate { mkPkt 0xA 2 s.node dest
      (bodyAt 140 id.toNat + bodyAt 137 f.2 + bodyAt 126 msg.length + bodyAt 118 mtype + bodyAt 86 tag) f.1 with
      send := some send })
  if s.isFor dest then s.mailDeliver s.node dest id.toNat mtype tag msg else s

/-! Launch-at (R357 to R359). -/

/-- The packet of a launch. -/
def launchPkt (p : LaunchPkt) : Pkt :=
  { mkPkt 9 1 p.src p.dest.toNat
      (bodyAt 76 p.effect.toNat + bodyAt 72 p.prio.toNat + bodyAt 69 p.lane.toNat + bodyAt 45 p.seqMask.toNat)
      (leBytes p.action 16 ++ leBytes p.orderSeq 4 ++ leBytes p.tag 4) with ttl := p.ttl }

/-- One target of a LAUNCH at this node: queued, or refused with a completion (R358); the answer says whether it was
refused as retired. -/
def State.launchTarget (s : State) (p : LaunchPkt) (ring k chan : Nat) : Bool × State :=
  let o : Ord :=
    { src := .fabric, ring := ring, slot := p.src.toNat, tag := p.tag, intr := false, quiet := false, node := p.src,
      oseq := p.orderSeq, prio := p.prio.toNat, chan := chan, lane := p.lane.toNat, action := p.action, t := some p.effect,
      arrival := s.now, remote := true, tick := none }
  let s := s.modRing ring (fun r => { r with reserved := r.reserved + 1 })
  match s.ordTests o 0 k with
  | .ok t => (false, { s with time := { s.time with queue := s.time.queue ++ [{ o with tick := t }] } })
  | .error (st, d) => (st == sRetired, s.finishOrd o st d 0)

/-- The targets of a LAUNCH at this node (R358): with no usable completion ring, or without a free slot in it, a target is
counted and reported; a retired one completes and is reported. -/
def State.launchHere (s : State) (p : LaunchPkt) : State :=
  let ring := s.fld (wNzl + 0x14) 0 8
  let chans := (List.range 24).filter (fun n => bitOf p.seqMask n)
  let mask (l : List Nat) : Nat := l.foldl (fun a n => a + 2 ^ n) 0
  let nak (s : State) (cause : Nat) (l : List Nat) : State :=
    if l.isEmpty then s else s.sendNak p.src ⟨cause, 9, p.dest.toNat, p.tag.toNat, p.orderSeq.toNat, mask l⟩
  if !s.flag (wNzl + 0x14) 8 || !s.ringTakes ring cCpl then nak (s.bumpBy (wNzl + 0x38) chans.length) 8 chans
  else
    let (s, gone, busy) := chans.foldl (fun (a : State × List Nat × List Nat) n =>
      let (s, gone, busy) := a
      if s.ringFree ring ≤ (s.ring ring).reserved then (s.bump (wNzl + 0x38), gone, busy ++ [n])
      else
        let (r, s) := s.launchTarget p ring 0 n
        (s, if r then gone ++ [n] else gone, busy)) (s, [], [])
    nak (nak s 7 busy) nkRetired gone

/-- A LAUNCH arrives. -/
def State.launchRx (s : State) (n : Nat) (p : LaunchPkt) : State :=
  if !s.linkUp n then s
  else
    let s := s.rxRoute n (launchPkt p) (fun s q => s.passOn n q)
    if s.isFor p.dest.toNat then s.launchHere p else s

/-- Send the packet of a launch-at of this node (R357, R359). -/
def State.launchSend (s : State) (p : LaunchPkt) (send : Nat × Nat) : State :=
  let p := { p with src := s.node, orderSeq := s.nzl.orderSeq, ttl := 31 }
  (s.modNzl (fun z => { z with orderSeq := z.orderSeq + 1 })).originate { launchPkt p with send := some send }

/-- A NAK arrives (R362). -/
def State.nakRx (s : State) (n : Nat) (p : NakPkt) : State :=
  if !s.linkUp n then s
  else
    let b : NakBody := ⟨p.cause.toNat, p.origType.toNat, p.origDest.toNat, p.tag.toNat, p.seq.toNat, p.seqMask.toNat⟩
    let k := { mkPkt 0xB 0 p.src p.dest.toNat
        (bodyAt 152 b.cause + bodyAt 148 b.ty + bodyAt 132 b.dest + bodyAt 100 b.tag + bodyAt 68 b.seq + bodyAt 44 b.mask) [] with
        ttl := p.ttl }
    s.rxRoute n k (fun s k => if s.isFor p.dest.toNat then s.notice p.src b else s.forward k)

/-! Retirement of a link (R363). -/

/-- Bytes of a message that the packets of a queue still hold for a send. -/
def sendHeld (l : List Pkt) (send : Nat × Nat) : Nat :=
  (l.filter (fun p => p.send == some send)).foldl (fun n p => n + p.payload.length) 0

/-- The packets of a send that wait at other outputs go on without its descriptor. -/
def State.sendGone (s : State) (send : Nat × Nat) : State :=
  s.each (List.range 8) (fun s n => s.modLink n (fun x => { x with
    queue := x.queue.map (fun p => if p.send = some send then { p with send := none } else p) }))

/-- The drain of a retired link ends: queued packets are discarded and answered, local sends complete with the bytes that left,
a launch-at's targets at this node keep their own completions (R128), the link is idle. -/
def State.linkRetireEnd (s : State) (n since : Nat) : State :=
  let x := s.link n
  let l := x.queue
  let s := s.setLink n { x with st := .retired, queue := [], retry := [] }
  let s := s.each l (fun s p => if p.send.isSome then s else (s.refusePkt p nkRetired).freeInput p)
  s.each ((l.filterMap (fun p => p.send)).eraseDups) (fun s x =>
    let s := s.sendGone x
    match s.desc? x.1 x.2 with
    | some d =>
      let sent := if d.kind = 6 then d.fld 192 11 - sendHeld l x else 0
      (s.modDesc x.1 x.2 (fun d => { d with left := 0, moved := sent })).complete x.1 { d with left := 0, moved := sent }
        (s.cplOf x.1 d sAborted since sent)
    | none => s)

end Sys2Proof.Machine
end

