-- ==== Sys2Proof/Machine/Node.lean ====
section
/-!
DEFINITION. The node: election, discovery, addresses, routing tables, commit, beacons, time transfer and its servo
(13 R338 to R356).
-/

namespace Sys2Proof.Machine

/-! Election (R338). -/

/-- Whether key `a` beats key `b`: CLASS, then PRIO, then the lower die identifier. -/
def keyBeats (a b : ElectKey) : Bool :=
  if a.cls ≠ b.cls then decide (b.cls.toNat < a.cls.toNat)
  else if a.prio ≠ b.prio then decide (b.prio.toNat < a.prio.toNat)
  else decide (a.dieId.toNat < b.dieId.toNat)

/-- This node's election key. -/
def State.ownKey (s : State) : ElectKey :=
  let cls := if !s.flag wNzl 1 then 0
    else if !s.clk.ref10m then 1 else if s.flag wNzl 3 && s.nzl.ppsSeen then 3 else 2
  ⟨BitVec.ofNat 2 cls, BitVec.ofNat 8 (s.fld (wNzl + 4) 0 8), Config.dieId⟩

/-- Send the best key known on every UP link. -/
def State.electSend (s : State) : State :=
  match s.nzl.best with
  | none => s
  | some (k, d) =>
    let p := mkPkt 2 0 s.node 0
      (bodyAt 154 k.cls.toNat + bodyAt 146 k.prio.toNat + bodyAt 82 k.dieId.toNat + bodyAt 77 (d % 32)) []
    s.each ((List.range 8).filter (fun n => s.linkOpen n)) (fun s n => s.linkPut n p)

/-- Enter ELECT (R338, R343, R344). -/
def State.electEnter (s : State) : State :=
  (s.modNzl (fun z => { z with
    st := .elect, best := some (s.ownKey, 0), bestAt := some s.time.elapsed, enHop := none, enPath := [], hopAt := none })).electSend

/-- EN and an UP link take a node out of OFF (R343). -/
def State.nodeWake (s : State) : State :=
  if s.nzl.st = .off && s.fabricOn && (List.range 8).any (fun n => s.linkUp n) then s.electEnter else s

/-- NZL_CTRL is written (R343): EN = 0 leads to OFF. -/
def State.nodeWritten (s : State) : State :=
  if s.fabricOn then s.nodeWake else s.modNzl (fun z => { z with st := .off, commitAt := none })

/-- An ELECT packet: a better key within reach is adopted and sent on. -/
def State.electRx (s : State) (n : Nat) (k : ElectKey) (dist : Nat) : State :=
  if !s.linkUp n then s
  else
    let s := s.rxPacket n 0 1
    match s.nzl.st, s.nzl.best with
    | .elect, some (b, _) =>
      if keyBeats k b && decide (dist < 16) then (s.modNzl (fun z => { z with best := some (k, dist + 1), bestAt := some s.time.elapsed })).electSend else s
    | _, _ => s

/-! Discovery (R339). -/

/-- Send DISCOVER on links. -/
def State.discoverSend (s : State) (hop : Nat) (path : List (BitVec 3)) (links : List Nat) : State :=
  let body := bodyAt 140 s.nzl.enGen.toNat + bodyAt 135 hop +
    ((path.zipIdx).map (fun e => bodyAt (87 + 3 * e.2) e.1.toNat)).foldl (· + ·) 0
  s.each links (fun s n => s.linkPut n (mkPkt 3 0 s.node 0 body []))

/-- FT is corrected at the next core-cycle boundary, by 2^-32 fu (R353, R354). -/
def State.ftAdjust (s : State) (v : Int) : State := { s with time := { s.time with adjust := some v } }

/-- The root's FPLL follows REF10M while that is present, and the XO otherwise (R355). -/
def State.rootRef (s : State) : State := s.fpllFollow (b01 s.clk.ref10m) 0 true

/-- The REF10M pin has come or gone: a root follows it (R355). -/
def State.rootFollows (s : State) : State := if s.nzl.st = .root || s.nzl.st = .enum then s.rootRef else s

/-- A new root has a reference or PPS to run from (R354, R355): FPLL, first PPS, TIME_ROOT and TIME_LOCKED; without PPS an FT that
is not valid becomes 0 at the next core-cycle boundary. -/
def State.rootTime (s : State) : State :=
  let s := s.rootRef
  let s := s.modNzl (fun z => { z with firstMeas := true, holding := false })
  if !s.time.ftValid && s.flag wNzl 3 then s.modNzl (fun z => { z with ppsWait := true })
  else
    let s := if s.time.ftValid then s else s.ftAdjust (-((s.ftN + s.incN : Nat) : Int))
    { s with time := { s.time with root := true, locked := true } }

/-- Enter ENUM (R339, R354): a new GEN, and DISCOVER on every UP link. -/
def State.enumEnter (s : State) : State :=
  let fresh := s.nzl.st != .root && s.nzl.st != .enum
  let s := s.modNzl (fun z => { z with
    st := .enum, enGen := z.enGen + 1, enHop := some 0, enPath := [], partPlace := none, parts := [], partTable := [],
    commitAt := none, nodes := [], recomputed := false, hopAt := none, reportAt := s.time.elapsed })
  let s := if fresh then s.rootTime else s
  s.discoverSend 0 [] s.upLinks

/-- The election ends at this node (R338). -/
def State.electDecide (s : State) : State :=
  match s.nzl.st, s.nzl.best with
  | .elect, some (k, d) =>
    let s := s.modNzl (fun z => { z with bestAt := none })
    if k.cls = 0 then s.raise aNzlEv (bit1 10)
    else if d = 0 then s.enumEnter
    else s.modNzl (fun z => { z with st := .join, joinAt := s.time.elapsed })
  | _, _ => s

/-- A DISCOVER packet (R339): a better hop is recorded and passed on. A root and a node in OFF take none. -/
def State.discoverRx (s : State) (n : Nat) (gen : BitVec 16) (hop : Nat) (path : List (BitVec 3)) : State :=
  if !s.linkUp n || (s.link n).self then s
  else
    let s := s.rxPacket n 0 1
    let h := hop + 1
    let same := gen == s.nzl.enGen
    let better := match s.nzl.enHop with
      | none => true
      | some k => !same || decide (h < k)
    if 16 < h || !better || s.nzl.st == .off || s.nzl.st == .enum || s.nzl.st == .root then s
    else
      let path := path.take hop ++ [BitVec.ofNat 3 n]
      let s := s.modNzl (fun z =>
        let z := if same then z else { z with partPlace := none, parts := [], partTable := [], commitAt := none }
        { z with enGen := gen, enHop := some h, enPath := path, hopAt := some s.time.elapsed })
      if h < 16 then s.discoverSend h path (s.upLinks.filter (fun k => k != n)) else s

/-- The links of this node as its REPORT lists them. -/
def State.reportLinks (s : State) : List ReportLink :=
  s.upLinks.map (fun n =>
    let x := s.link n
    ⟨BitVec.ofNat 3 n, x.peerLink, x.peerDie, BitVec.ofInt 32 (x.d / 32)⟩)

/-- This node's REPORT (R335, R339, R340): it claims its current address, else its preferred one. -/
def State.ownReport (s : State) (hop : Nat) : ReportPkt :=
  let cur := s.nzl.everLive
  let pref := !cur && s.flag (wNzl + 4) 31
  ⟨Config.dieId, cur, pref, if cur then s.node else if pref then BitVec.ofNat 12 (s.fld (wNzl + 4) 16 12) else 0,
    BitVec.ofNat 5 hop, s.reportLinks⟩

/-- The payload of a REPORT (R335). -/
def reportBytes (r : ReportPkt) : List Byte :=
  leBytes r.dieId 8 ++
  leBytes (BitVec.ofNat 16 (b01 r.claimCurrent * 2 ^ 15 + b01 r.claimPreferred * 2 ^ 14 + r.claimAddr.toNat)) 2 ++
  leBytes r.hop 1 ++ [BitVec.ofNat 8 r.links.length] ++
  r.links.flatMap (fun l => leBytes l.link 1 ++ leBytes l.peerLink 1 ++ leBytes l.peerDie 8 ++ leBytes l.delay 4 ++ [0, 0])

/-- The route back to the root: the reversed PATH. -/
def State.homeRoute (s : State) : List Nat := (s.nzl.enPath.map BitVec.toNat).reverse

/-- Send a packet on its source route: the first link is this node's own output. -/
def State.routeSend (s : State) (p : Pkt) (route : List Nat) : State :=
  match route with
  | [] => s
  | n :: rest =>
    let q := p.routed rest
    s.putOrRefuse n { q with ttl := BitVec.ofNat 5 (rest.length + 1) }

/-- A node whose hop has settled reports to the root. -/
def State.reportSend (s : State) : State :=
  let s := s.modNzl (fun z => { z with hopAt := none })
  match s.nzl.enHop with
  | some (h + 1) => s.routeSend (mkPkt 4 0 s.node 0 0 (reportBytes (s.ownReport (h + 1)))) s.homeRoute
  | _ => s

/-- The header of a packet on a source route, to be passed on. -/
def Hdr.pkt (h : Hdr) (ty body : Nat) (payload : List Byte) : Pkt :=
  { mkPkt ty 0 h.src h.dest.toNat body payload with srcrt := true, ttl := h.ttl, route := h.route }

/-- A source-routed packet arrives: passed on, or handled here. -/
def State.routedRx (s : State) (h : Hdr) (p : Pkt) (here : State → State) : State :=
  if !s.linkUp h.link.val then s
  else
    s.rxRoute h.link.val p (fun s p => match s.srcRoute p with
      | some t => t
      | none => here s)

/-- A REPORT reaches the root during collection. -/
def State.reportRx (s : State) (h : Hdr) (r : ReportPkt) : State :=
  s.routedRx h (Hdr.pkt h 4 0 (reportBytes r)) (fun s =>
    if s.nzl.st = .enum then
      s.modNzl (fun z => { z with nodes := z.nodes.filter (fun n => n.rep.dieId != r.dieId) ++ [⟨r, none, false, 0⟩], reportAt := s.time.elapsed })
    else s)

/-! Addresses and tables (R340, R341). -/

/-- A node in its place in an ascending list. -/
def insertBy (key : ReportPkt → Nat) (x : ReportPkt) : List ReportPkt → List ReportPkt
  | [] => [x]
  | y :: l => if key y ≤ key x then y :: insertBy key x l else x :: y :: l

/-- Nodes in ascending order of a key. -/
def sortBy (key : ReportPkt → Nat) (l : List ReportPkt) : List ReportPkt := l.foldl (fun a x => insertBy key x a) []

/-- Pass of claims: each claimed address goes to the lower die identifier among its claimants, where it is free. -/
def claimPass (claims : ReportPkt → Bool) (l : List ReportPkt) (got : List (BitVec 64 × BitVec 12)) :
    List (BitVec 64 × BitVec 12) :=
  (sortBy (fun r => r.dieId.toNat) (l.filter claims)).foldl (fun g r =>
    if g.any (fun e => e.1 == r.dieId || e.2 == r.claimAddr) then g else g ++ [(r.dieId, r.claimAddr)]) got

/-- The lowest free address. -/
def lowestFree (got : List (BitVec 64 × BitVec 12)) : Option (BitVec 12) :=
  ((List.range 4096).find? (fun a => !got.any (fun e => e.2.toNat == a))).map (BitVec.ofNat 12)

/-- Addresses of a set of nodes (R340). -/
def assignAddrs (l : List ReportPkt) : List (BitVec 64 × BitVec 12) :=
  let got := claimPass (·.claimPreferred) l (claimPass (·.claimCurrent) l [])
  (sortBy (fun r => r.hop.toNat * 2 ^ 64 + r.dieId.toNat) l).foldl (fun g r =>
    if g.any (fun e => e.1 == r.dieId) then g
    else match lowestFree g with
      | some a => g ++ [(r.dieId, a)]
      | none => g) got

/-- The neighbours of a node over links that both ends report UP: own link, the neighbour, its link. -/
def neighbours (l : List ReportPkt) (r : ReportPkt) : List (Nat × ReportPkt × Nat) :=
  r.links.filterMap (fun x =>
    match l.find? (fun q => q.dieId == x.peerDie) with
    | some q =>
      if q.links.any (fun y => y.link == x.peerLink && y.peerLink == x.link && y.peerDie == r.dieId) then
        some (x.link.toNat, q, x.peerLink.toNat)
      else none
    | none => none)

/-- Nodes by distance in hops from a set: one more ring of neighbours each round. -/
def hopsFrom (l : List ReportPkt) : Nat → Nat → List (BitVec 64 × Nat) → List (BitVec 64 × Nat)
  | 0, _, seen => seen
  | k + 1, d, seen =>
    let new := (l.filter (fun r => !seen.any (fun e => e.1 == r.dieId) &&
      (neighbours l r).any (fun x => seen.any (fun e => e.1 == x.2.1.dieId && e.2 == d)))).map (fun r => (r.dieId, d + 1))
    if new.isEmpty then seen else hopsFrom l k (d + 1) (seen ++ new)

/-- Distances in hops to a node. -/
def hopsTo (l : List ReportPkt) (die : BitVec 64) : List (BitVec 64 × Nat) := hopsFrom l l.length 0 [(die, 0)]

/-- Distance of a node in a list of distances. -/
def hopOf (d : List (BitVec 64 × Nat)) (die : BitVec 64) : Option Nat := (d.find? (fun e => e.1 == die)).map (·.2)

/-- The address of a node. -/
def addrOf (a : List (BitVec 64 × BitVec 12)) (die : BitVec 64) : BitVec 12 :=
  ((a.find? (fun e => e.1 == die)).map (·.2)).getD 0

/-- The first link of a shortest path from a node, given the distances to the destination (R341): ties to the lower
next-hop address, then to the lower link. -/
def firstLink (l : List ReportPkt) (a : List (BitVec 64 × BitVec 12)) (d : List (BitVec 64 × Nat)) (r : ReportPkt) :
    Option Nat :=
  match hopOf d r.dieId with
  | some (k + 1) =>
    let cand := (neighbours l r).filter (fun x => hopOf d x.2.1.dieId == some k)
    let key (x : Nat × ReportPkt × Nat) : Nat := (addrOf a x.2.1.dieId).toNat * 8 + x.1
    match cand with
    | [] => none
    | x :: t => some (t.foldl (fun b y => if key y < key b then y else b) x).1
  | _ => none

/-- The configuration of a node (R341): address, parent toward the root, tree links, hop, table. -/
def nodeCfgOf (l : List ReportPkt) (a : List (BitVec 64 × BitVec 12)) (root : BitVec 64) (r : ReportPkt) : NodeCfg :=
  let toRoot := hopsTo l root
  let parent := firstLink l a toRoot r
  let tree := (neighbours l r).filter (fun x => parent == some x.1 || firstLink l a toRoot x.2.1 == some x.2.2)
  { addr := addrOf a r.dieId, parent := parent.map (BitVec.ofNat 3),
    tree := tree.foldl (fun (m : BitVec 8) x => putBits m x.1 1 1) 0,
    hop := BitVec.ofNat 5 ((hopOf toRoot r.dieId).getD 0),
    table := l.foldl (fun t q =>
      match firstLink l a (hopsTo l q.dieId) r with
      | some n => Tab.set (fun _ => 0) t (addrOf a q.dieId).toNat (BitVec.ofNat 4 (8 + n))
      | none => t) [] }

/-- The links of a shortest path from the root to a node. -/
def rootRoute (l : List ReportPkt) (a : List (BitVec 64 × BitVec 12)) (die : BitVec 64) : Nat → ReportPkt → List Nat
  | 0, _ => []
  | k + 1, r =>
    if r.dieId = die then []
    else match firstLink l a (hopsTo l die) r with
      | none => []
      | some n => match (neighbours l r).find? (fun x => x.1 == n) with
        | some x => n :: rootRoute l a die k x.2.1
        | none => []

/-! CONFIG, ACK, COMMIT (R342). -/

/-- The payload of one CONFIG part. -/
def configBytes (c : NodeCfg) (part : Nat) : List Byte :=
  if part = 0 then
    leBytes c.addr 2 ++ [match c.parent with | some n => BitVec.ofNat 8 n.toNat | none => 0xFF] ++ leBytes c.tree 1 ++
      leBytes c.hop 1
  else
    let e (i : Nat) : Nat := if i < 4096 then (Tab.get (fun _ => (0 : BitVec 4)) c.table i).toNat else 0
    (List.range 240).map (fun i => BitVec.ofNat 8 (e (480 * (part - 1) + 2 * i) + 16 * e (480 * (part - 1) + 2 * i + 1)))

/-- The reports the root works from: its own and those collected. -/
def State.allReports (s : State) : List ReportPkt := s.ownReport 0 :: s.nzl.nodes.map (·.rep)

/-- The reports of the nodes that have an address. -/
def State.addressed (s : State) : List ReportPkt × List (BitVec 64 × BitVec 12) :=
  let l := s.allReports
  let a := assignAddrs l
  (l.filter (fun r => a.any (fun e => e.1 == r.dieId)), a)

/-- Send a node its ten CONFIG parts by source route. -/
def State.configSend (s : State) (x : NodeRec) : State :=
  match x.cfg with
  | none => s
  | some c =>
    let (l, a) := s.addressed
    let route := rootRoute l a x.rep.dieId 17 (s.ownReport 0)
    s.each (List.range 10) (fun s k =>
      s.routeSend (mkPkt 5 0 s.node c.addr.toNat (bodyAt 140 s.nzl.enGen.toNat + bodyAt 136 k) (configBytes c k)) route)

/-- A new parent, tree and table are live at this node (R342, R355). A root that a configuration makes a member is the root of
time until that configuration goes live; TIME_LOCKED then stays as it is until R352 next judges it (DESIGN CHOICE, log 49: R62
does not say what the end of the root's part does to it). -/
def State.goLive (s : State) : State :=
  match s.nzl.partPlace with
  | none => s
  | some c =>
    let c := { c with table := s.nzl.partTable }
    let old := s.nzl.cfg
    let root := c.parent.isNone
    let newParent := c.parent != old.parent || !s.nzl.everLive
    let s := (s.raise aNzlEv (bit1 2)).raiseIf (c.addr != old.addr) aNzlEv 1
    let s := s.modNzl (fun z => { z with
      cfg := c, gen := z.enGen, everLive := true, commitAt := none, rootAddr := if root then c.addr else z.rootAddr,
      beaconAt := s.time.elapsed, st := if z.st = .join then .member else z.st, firstMeas := z.firstMeas || (newParent && !root) })
    let s := s.each (List.range 8) (fun s n => s.modLink n (fun x => { x with tree := bitOf c.tree n }))
    if root then s
    else
      let s := { s with time := { s.time with root := false } }
      match c.parent with
      | some p => if newParent && s.flag wNzl 2 then s.fpllFollow 2 p.toNat (s.linkUp p.toNat) else s
      | none => s

/-- The root floods COMMIT (R342) and is ROOT. -/
def State.commitSend (s : State) : State :=
  let at_ : FT80 := if s.time.locked && s.nzl.everLive then s.ft80 + 2048000000 else 0
  let p := mkPkt 6 0 s.node 0 (bodyAt 140 s.nzl.enGen.toNat + bodyAt 60 at_.toNat) []
  let s := s.each s.upLinks (fun s n => s.linkPut n p)
  let s := s.modNzl (fun z => { z with st := .root, beaconAt := s.time.elapsed })
  if at_ = 0 then s.goLive else s.modNzl (fun z => { z with commitAt := some at_ })

/-- COMMIT goes out once every remaining node has acknowledged. -/
def State.commitIfReady (s : State) : State :=
  if s.nzl.st = .enum && s.nzl.partPlace.isSome && s.nzl.nodes.all (fun x => x.acked || x.cfg.isNone) then s.commitSend else s

/-- The root computes addresses and tables and sends the CONFIG parts (R340 to R342). -/
def State.configure (s : State) : State :=
  let (l, a) := s.addressed
  let me := nodeCfgOf l a Config.dieId (s.ownReport 0)
  let s := s.modNzl (fun z => { z with
    partPlace := some me, partTable := me.table, sentAt := s.time.elapsed,
    nodes := z.nodes.map (fun x => { x with
      acked := false, resends := 0,
      cfg := if a.any (fun e => e.1 == x.rep.dieId) then some (nodeCfgOf l a Config.dieId x.rep) else none }) })
  (s.each s.nzl.nodes State.configSend).commitIfReady

/-- Collection ends (R339). -/
def State.collectEnd (s : State) : State :=
  if s.nzl.st = .enum && s.nzl.partPlace.isNone then s.configure else s

/-- An ACK of a set reaches the root. -/
def State.ackRx (s : State) (h : Hdr) (gen : BitVec 16) (node : BitVec 64) : State :=
  s.routedRx h (Hdr.pkt h 0xC (bodyAt 140 gen.toNat) []) (fun s =>
    if s.nzl.st = .enum && gen == s.nzl.enGen then
      (s.modNzl (fun z => { z with nodes := modFirst (fun x => x.rep.dieId == node) (fun x => { x with acked := true }) z.nodes })).commitIfReady
    else s)

/-- Parts not acknowledged after 100 us are sent again; a node that has not answered four of them is left out, and the
tables are computed anew once (R342). -/
def State.configResend (s : State) : State :=
  if s.nzl.st ≠ .enum || s.nzl.partPlace.isNone then s
  else
    let wait (x : NodeRec) : Bool := !x.acked && x.cfg.isSome
    let out := s.nzl.nodes.filter (fun x => wait x && decide (4 ≤ x.resends))
    if out.isEmpty then
      let l := s.nzl.nodes.filter wait
      let s := s.modNzl (fun z => { z with sentAt := s.time.elapsed, nodes := z.nodes.map (fun x => if wait x then { x with resends := x.resends + 1 } else x) })
      s.each l State.configSend
    else
      let again := !s.nzl.recomputed
      let s := s.modNzl (fun z => { z with nodes := z.nodes.filter (fun x => !out.contains x), recomputed := true })
      if again then s.configure else s.commitIfReady

/-- A CONFIG part reaches a node (R342): with all ten it acknowledges. -/
def State.configRx (s : State) (h : Hdr) (gen : BitVec 16) (part : ConfigPart) : State :=
  let k := match part with | .place .. => 0 | .table p _ => p.val + 1
  let bytes := match part with
    | .place a p t hop => configBytes ⟨a, p, t, hop, []⟩ 0
    | .table _ e => (List.range 240).map (fun i => BitVec.ofNat 8 ((e.getD (2 * i) 0).toNat + 16 * (e.getD (2 * i + 1) 0).toNat))
  s.routedRx h (Hdr.pkt h 5 (bodyAt 140 gen.toNat + bodyAt 136 k) bytes) (fun s =>
    if gen ≠ s.nzl.enGen || s.nzl.enHop.isNone || s.nzl.enHop == some 0 then s
    else
      let s := s.modNzl (fun z => match part with
        | .place a p t hop => { z with partPlace := some ⟨a, p, t, hop, []⟩ }
        | .table p e => { z with
            parts := Tab.set (fun _ => false) z.parts p.val true,
            partTable := ((e.take 480).zipIdx).foldl (fun t x =>
              if 480 * p.val + x.2 < 4096 then Tab.set (fun _ => 0) t (480 * p.val + x.2) x.1 else t) z.partTable })
      if s.nzl.partPlace.isSome && decide (s.nzl.parts.length = 9) then
        s.routeSend (mkPkt 0xC 0 s.node 0 (bodyAt 140 gen.toNat) []) s.homeRoute
      else s)

/-- A COMMIT arrives (R342): it is flooded on once and the configuration goes live now or at its time; a node that holds
none is EXCLUDED (R339, R340). -/
def State.commitRx (s : State) (n : Nat) (gen : BitVec 16) (at_ : FT80) : State :=
  if !s.linkUp n then s
  else
    let s := s.rxPacket n 0 1
    let live := s.nzl.everLive && s.nzl.gen == gen
    if live || s.nzl.commitAt.isSome || s.nzl.st == .off || s.nzl.st == .enum || s.nzl.st == .root then s
    else if gen == s.nzl.enGen && s.nzl.partPlace.isSome && decide (s.nzl.parts.length = 9) then
      let p := mkPkt 6 0 s.node 0 (bodyAt 140 gen.toNat + bodyAt 60 at_.toNat) []
      let s := s.each (s.upLinks.filter (fun k => k != n)) (fun s k => s.linkPut k p)
      if at_ ≠ 0 && s.time.locked then s.modNzl (fun z => { z with commitAt := some at_ }) else s.goLive
    else s.raise aNzlEv (bit1 11)

/-- COMMIT_FT is reached. -/
def State.commitReached (s : State) : State := if s.nzl.commitAt.isSome then s.goLive else s

/-! Beacons and topology (R343, R344). -/

/-- The BEACON packet. -/
def beaconPkt (s : State) (gen : BitVec 16) (rootAddr : BitVec 12) (die : BitVec 64) : Pkt :=
  mkPkt 7 0 s.node 0x8000 (bodyAt 140 gen.toNat + bodyAt 128 rootAddr.toNat + bodyAt 64 die.toNat) []

/-- The root sends BEACON on its tree links. -/
def State.beaconSend (s : State) : State :=
  if s.nzl.st = .root then
    (s.modNzl (fun z => { z with beaconAt := s.time.elapsed })).treeSend (beaconPkt s s.nzl.gen s.node Config.dieId) none
  else s

/-- A BEACON arrives: a member of its GEN learns the root's address and passes it on. -/
def State.beaconRx (s : State) (n : Nat) (gen : BitVec 16) (rootAddr : BitVec 12) (die : BitVec 64) : State :=
  if !s.linkUp n then s
  else
    let s := s.rxPacket n 0 1
    if s.nzl.st = .member && gen == s.nzl.gen then
      (s.modNzl (fun z => { z with rootAddr := rootAddr, beaconAt := s.time.elapsed })).treeSend (beaconPkt s gen rootAddr die) (some n)
    else s

/-- A member hears no BEACON for 1 ms. -/
def State.beaconLost (s : State) : State :=
  if s.nzl.st = .member then ((s.raise aNzlEv (bit1 3)).detect 0x1A 0 0 0).electEnter else s

/-- A node in JOIN hears no DISCOVER within 2 ms. -/
def State.joinLost (s : State) : State :=
  if s.nzl.st = .join && s.nzl.enHop.isNone then s.electEnter else s

/-- The topology changed: a root enumerates again (R343, R344). -/
def State.topoChanged (s : State) : State :=
  if s.nzl.st = .root || s.nzl.st = .enum then s.enumEnter else s

/-- A TOPO packet arrives. -/
def State.topoRx (s : State) (h : Hdr) (gen : BitVec 16) (link state : Nat) : State :=
  if !s.linkUp h.link.val then s
  else
    let p := { mkPkt 8 0 h.src h.dest.toNat (bodyAt 140 gen.toNat + bodyAt 137 link + bodyAt 134 state) [] with ttl := h.ttl }
    s.rxRoute h.link.val p (fun s p => if s.isFor h.dest.toNat then s.topoChanged else s.forward p)

/-! Links entering UP, HELLO (R331, R333). -/

/-- Link n enters UP. -/
def State.linkEnterUp (s : State) (n : Nat) : State :=
  let s := (s.modLink n (fun x => { x with
    st := .up, self := x.peerDie == Config.dieId, lseqTx := 0, lseqRx := 0, cred0 := 64, cred1 := 64, cred2 := 64,
    freed0 := 0, freed1 := 0, freed2 := 0, peerHello := true, badReplays := 0 })).raise (aLinkEv n) (bit1 0)
  let s := s.linkPump n (s.link n).queue.length
  let s := if s.nzl.st = .elect then s.electSend else s
  ((s.topoSend n 3).topoChanged).nodeWake

/-- A link in HELLO that has sent and received CAL_DONE enters UP. -/
def State.helloCheck (s : State) (n : Nat) : State :=
  let x := s.link n
  if x.st = .hello && x.sentCal && x.gotCal then s.linkEnterUp n else s

/-- A HELLO arrives. -/
def State.helloRx (s : State) (n : Nat) (die : BitVec 64) (peerLink : BitVec 3) (cal : Bool) (c : Credits) : State :=
  let x := s.link n
  match x.st with
  | .hello =>
    (s.setLink n { x with peerDie := die, peerLink := peerLink, gotHello := true, gotCal := x.gotCal || cal }).helloCheck n
  | .up =>
    let s := s.setLink n { (x.credit c) with peerDie := die, peerLink := peerLink }
    let s := if x.peerHello then s.helloOut n else s
    s.linkPump n (s.link n).queue.length
  | _ => s

/-- A link in HELLO sends its HELLO. -/
def State.helloSend (s : State) (n : Nat) : State :=
  if (s.link n).st = .hello then
    ((s.modLink n (fun x => { x with helloAt := s.time.elapsed })).helloOut n).helloCheck n
  else s

/-- NZL_Ln_CFG is written (R331): EN = 0 leads to DOWN. -/
def State.linkWritten (s : State) (n : Nat) : State :=
  if s.flag (aLink n) 31 || (s.link n).st = .retired || (s.link n).st = .down then s
  else
    let up := s.linkUp n
    let s := s.linkDropTo n .down
    if up then s.topoChanged else s

/-- Block lock of an UP link is lost. -/
def State.blockLost (s : State) (n : Nat) : State :=
  if s.linkUp n then (s.linkDropTo n .train).topoChanged else s

/-! Time transfer (R349 to R356). -/

/-- A stamp's format: FT count bits [59:0] and four fraction bits. -/
def stampDiff (a b : BitVec 64) : Int := (a - b).toInt

/-- A TIME packet leaves link n with its tx stamp. -/
def State.timeSend (s : State) (n : Nat) (stamp : BitVec 64) : State :=
  let x := s.link n
  if (x.st ≠ .up && x.st ≠ .hello) || s.isRetired uLink n then s
  else
    let prev := ((x.txStamps.getLast?).map (·.at16)).getD 0
    let (rx, echo) := match x.peer with | some p => (p.rxStamp, p.idx) | none => (0, 0)
    let p := mkPkt 1 0 s.node 0
      (bodyAt 92 prev.toNat + bodyAt 28 rx.toNat + bodyAt 24 x.txIdx.toNat + bodyAt 20 echo.toNat +
        bodyAt 19 (b01 s.time.locked)) []
    let l := x.txStamps ++ [⟨x.txIdx, stamp⟩]
    (s.setLink n { x with
      txIdx := x.txIdx + 1, txStamps := l.drop (l.length - 8), timeAt := some s.time.elapsed }).emit (.flits n p.flits)

/-- Division rounded to nearest, ties away from zero. -/
def roundAway (n : Int) (d : Nat) : Int :=
  let a := (2 * n.natAbs + d) / (2 * d)
  if n < 0 then -(a : Int) else a

/-- GAIN and AVG act on a measurement in 1/32 fu (R351). -/
def State.servo (s : State) (theta : Int) (first : Bool) : State :=
  let avg := s.fld (wNzl + 8) 0 4
  let gain : Int := s.fld (wNzl + 8) 8 8
  let thf := if first then theta else s.nzl.thf + (theta - s.nzl.thf) / 2 ^ avg
  let step := roundAway ((thf - 2 * s.clk.pend) * gain) 8192
  (s.modNzl (fun z => { z with thf := thf })).pendAdd step

/-- UNLOCK_W as 1/32 fu. -/
def State.unlockLim (s : State) : Nat := 4 * s.fld (wNzl + 8) 16 8 * 32

/-- TIME_LOCKED after a parent measurement (R352). -/
def State.lockStep (s : State) (parentLocked : Bool) : State :=
  let a := s.nzl.thf.natAbs
  let lockRun := if a ≤ s.fld (wNzl + 8) 24 8 * 32 then s.nzl.lockRun + 1 else 0
  let unlockRun := if s.unlockLim < a then s.nzl.unlockRun + 1 else 0
  let s := s.modNzl (fun z => { z with lockRun := lockRun, unlockRun := unlockRun })
  if s.refsel .spll ≠ 1 then (s.raise aNzlEv (bit1 9)).timeUnlock
  else if s.time.locked then (if 4 ≤ unlockRun then s.timeUnlock else s)
  else if 2 ^ s.fld (wNzl + 8) 4 4 ≤ lockRun && parentLocked && !s.nzl.timeFar then
    { s with time := { s.time with locked := true } }.raise aNzlEv (bit1 4)
  else s

/-- Whether R353 may load FT. -/
def State.mayLoadFt (s : State) : Bool :=
  !s.time.ftValid || (!s.time.running && s.time.queue.isEmpty && s.time.sets.isEmpty)

/-- At the next core-cycle boundary FT becomes FT less a measured offset rounded to a fu; the filter restarts at the residue
(R353). -/
def State.ftCorrect (s : State) (theta : Int) : State :=
  let r := roundAway theta 32
  let s := s.ftAdjust (-(r * 2 ^ 32))
  s.modNzl (fun z => { z with thf := theta - 32 * r, timeFar := false })

/-- A measurement on the parent link drives the servo, or loads FT (R351 to R353, R356). -/
def State.parentMeasure (s : State) (theta : Int) (parentLocked : Bool) : State :=
  let first := s.nzl.firstMeas
  let s := s.modNzl (fun z => { z with
    meas := z.meas + 1, firstMeas := false,
    holding := z.holding && !(first && decide (theta.natAbs ≤ s.unlockLim)) })
  if (first || s.nzl.timeFar) && s.mayLoadFt then (s.ftCorrect theta).lockStep parentLocked
  else if (first || s.nzl.timeFar) && decide (8388607 * 32 < theta.natAbs) then
    let s := if s.nzl.timeFar then s
      else ((s.modNzl (fun z => { z with timeFar := true })).raise aNzlEv (bit1 6)).detect 0x1B 0 0 0
    { s with time := { s.time with locked := false } }
  else
    let first := first || s.nzl.timeFar
    ((s.modNzl (fun z => { z with timeFar := false })).servo theta first).lockStep parentLocked

/-- Whether link n is the parent of a node whose servo runs. -/
def State.servoLink (s : State) (n : Nat) : Bool :=
  s.nzl.cfg.parent.map BitVec.toNat == some n && s.flag wNzl 2 && s.nzl.st != .root && s.nzl.st != .enum && s.nzl.st != .off

/-- A TIME packet arrives (R350): with its predecessor and this node's packet that the predecessor echoes it completes a
measurement. -/
def State.timeRx (s : State) (n : Nat) (p : TimePkt) : State :=
  let x := s.link n
  if x.st ≠ .up && x.st ≠ .hello then s
  else
    let run := if p.locked then 0 else x.unlockedRun + 1
    let s := s.setLink n { x with
      peer := some ⟨p.idx, p.rxLast, p.echoIdx, p.rxStamp⟩, unlockedRun := run,
      peerAddr := p.src }
    let servo := s.servoLink n
    let s := if servo && decide (4 ≤ run) then s.timeUnlock else s
    match x.peer with
    | none => s
    | some j =>
      match x.txStamps.find? (fun t => t.idx == j.echoIdx) with
      | none => s
      | some t1 =>
        if p.idx ≠ j.idx + 1 || x.st ≠ .up then s
        else
          let d := stampDiff j.rxStamp t1.at16 - stampDiff p.txPrev j.rxLast
          let asym : Int := ((s.reg (aLink n)).setWidth 16 : BitVec 16).toInt
          let theta := stampDiff t1.at16 j.rxLast + stampDiff j.rxStamp p.txPrev + 2 * asym
          let s := s.modLink n (fun x => { x with d := d, theta := theta, measIdx := j.idx })
          if servo then s.parentMeasure theta p.locked else s

/-- A PPS edge on the root, some fu after the core-cycle boundary (R354). -/
def State.ppsEdge (s : State) (offset : Nat) : State :=
  let s := s.modNzl (fun z => { z with ppsSeen := true, ppsAt := some s.time.elapsed })
  if !s.flag wNzl 3 || (s.nzl.st != .root && s.nzl.st != .enum) then s
  else if s.nzl.ppsWait then
    let set : FT80 := ((s.reg (wTime + 0x28)).setWidth 16 : BitVec 16) ++ (s.reg (wTime + 0x24) ++ s.reg (wTime + 0x20))
    let s := s.ftAdjust (set.toNat * 2 ^ 32 - offset * 2 ^ 32 - s.ftN : Int)
    let s := { s with time := { s.time with root := true, locked := true } }
    s.modNzl (fun z => { z with ppsWait := false })
  else
    let sec : Int := 1024000000000
    let ofs : Int := (s.reg (wNzl + 0x10)).toInt
    let e := ((s.ft64.toNat : Int) + offset - ofs + sec / 2) % sec - sec / 2
    if 8388607 < e.natAbs then s.raise aNzlEv (bit1 7)
    else
      let first := s.nzl.firstMeas
      (s.modNzl (fun z => { z with firstMeas := false, meas := z.meas + 1 })).servo (32 * e) first

/-- No PPS edge for 1.1 s. -/
def State.ppsLost (s : State) : State :=
  let s := s.modNzl (fun z => { z with ppsSeen := false, ppsAt := none })
  if s.flag wNzl 3 && (s.nzl.st == .root || s.nzl.st == .enum) then s.raise aNzlEv (bit1 8) else s

/-- The hold after parent loss ends (R356). -/
def State.holdEnd (s : State) : State :=
  if s.nzl.holding then (s.modNzl (fun z => { z with holding := false })).timeUnlock else s

/-! What time brings (R331, R333, R338, R339, R342 to R344, R354, R356, R361). -/

/-- Signal on all four lanes of an enabled link in DOWN (R331), while the receive clocks run (04 R105). -/
def State.linkSignal (s : State) (n : Nat) : State :=
  if (s.link n).st = .down && s.flag (aLink n) 31 && !s.clk.fpllStopped && !s.isRetired uLink n then
    s.modLink n (fun x => { x with st := .train, since := s.time.elapsed })
  else s

/-- Block lock and deskew of a link in TRAIN (R331): its first HELLO and TIME are due. -/
def State.linkTrained (s : State) (n : Nat) : State :=
  if (s.link n).st = .train then
    s.modLink n (fun x => { x with st := .hello, since := s.time.elapsed, helloAt := s.time.elapsed, timeAt := none })
  else s

/-- A link has not trained within 10 ms (R331). -/
def State.trainLate (s : State) (n : Nat) : State :=
  if (s.link n).st = .train then ((s.linkDropTo n .down).raise (aLinkEv n) (bit1 3)).detect 0x19 uLink n 0 else s

/-- No HELLO came within 1 ms of entering HELLO (R331, R333). -/
def State.helloLate (s : State) (n : Nat) : State :=
  if (s.link n).st = .hello && !(s.link n).gotHello then s.linkDropTo n .down else s

/-- CD_NZTX cycles, 2,621.44 fu each, in 2^-32 fu. -/
def nztxSpan (k : Nat) : Nat := k * 2 ^ 50 / 100

/-- Whether a time span has passed since an instant. -/
def State.after (s : State) (at_ span : Nat) : Bool := decide (at_ + span ≤ s.time.elapsed)

/-- What time brings to link n: the ends of TRAIN and HELLO, and HELLO flits. -/
def State.linkTurn (s : State) (n : Nat) : State :=
  let x := s.link n
  match x.st with
  | .train => if s.after x.since (spanUs 10000) then s.trainLate n else s
  | .hello =>
    if !x.gotHello && s.after x.since (spanUs 1000) then s.helloLate n
    else if s.after x.helloAt (nztxSpan 256) then s.helloSend n else s
  | _ => s

/-- Whether the root waits for an acknowledgement of its CONFIG parts. -/
def State.awaitsAck (s : State) : Bool :=
  s.nzl.st == .enum && s.nzl.partPlace.isSome && s.nzl.nodes.any (fun x => !x.acked && x.cfg.isSome)

/-- What time brings to the node's state. -/
def State.nodeTurn (s : State) : State :=
  let z := s.nzl
  match z.st with
  | .elect => if z.bestAt.any (fun a => s.after a (spanUs 200)) then s.electDecide else s
  | .join => if z.enHop.isNone && s.after z.joinAt (spanUs 2000) then s.joinLost else s
  | .member => if s.after z.beaconAt (spanUs 1000) then s.beaconLost else s
  | .root => if s.after z.beaconAt (spanUs 100) then s.beaconSend else s
  | .enum =>
    if z.partPlace.isNone && s.after z.reportAt (spanUs 500) then s.collectEnd
    else if s.awaitsAck && s.after z.sentAt (spanUs 100) then s.configResend else s
  | .off => s

/-- What time brings to the fabric block at a core-cycle boundary: links, the node, its REPORT, a COMMIT_FT, the hold, PPS, mail. A
root that no node reports to ends collection 500 us after it entered ENUM (DESIGN CHOICE, log 70). -/
def State.fabricTurn (s : State) : State :=
  let s := (s.each ((List.range 8).filter (fun n => (s.link n).st == .train || (s.link n).st == .hello)) State.linkTurn).nodeTurn
  let s := if s.nzl.hopAt.any (fun a => s.after a (spanUs 100)) then s.reportSend else s
  let s := match s.nzl.commitAt with
    | some a => if ftScale a ≤ s.ftN then s.commitReached else s
    | none => s
  let s := if s.nzl.holding && s.after s.nzl.holdAt (spanUs (s.fld (wNzl + 0xC) 0 16)) then s.holdEnd else s
  let s := if s.nzl.ppsAt.any (fun a => s.after a (spanUs 1100000)) then s.ppsLost else s
  s.each (s.nzl.reasm.filter (fun r => s.after r.heard (spanUs 100))) (fun s r => s.mailLost r.src r.msgId)

end Sys2Proof.Machine
end

