-- ==== Sys2Proof/Machine/Pll.lean ====
section
/-!
DEFINITION. The states of the PLLs and what their consumers do: searches, lock, bypass, OFF, hops (04 R88 to R108).
-/

namespace Sys2Proof.Machine

/-! Entering BYPASS and OFF (R105, R108). -/

/-- TICK_RUN has changed from 1 to 0: a running tick is the last one (R57). -/
def State.tickRunFell (s : State) : State := { s with time := { s.time with stopping := s.time.running } }

/-- TICK_RUN is cleared by the part. -/
def State.clearTickRun (s : State) : State := if s.flag wTime 0 then (s.setFld wTime 0 1 0).tickRunFell else s

/-- The SPLL's consumers (R105): CD_CORE on the XO, whose INC is loaded at the core-cycle boundary of the switch (R87), the
rest stopped; every burst ends, TICK_RUN clears. -/
def State.spllConsumers (s : State) : State :=
  let s := s.modClk (fun c => { c with spllXo := true, spllStopped := true, spllDue := false })
  let s := s.each (List.range 24) (fun s n => s.endBurst n (s.fastNow 0))
  s.clearTickRun.republish

/-- The MPLL's consumers (R105, 07 R204, R206): every active channel goes to RECOVER, one whose entry into self-refresh or
replay has still to end as soon as it is active again; contents and descriptors are lost. -/
def State.mpllConsumers (s : State) : State :=
  let s := s.modClk (fun c => { c with mpllXo := true })
  let s := s.each (List.range 4) (fun s n => s.modChan n (fun x => { x with
    st := if x.st = .active then .recover else x.st
    reads := [], writes := [], waiting := [], cal := [], calWait := [], th := none, epoch := x.epoch + 1 }))
  let live := !s.mor.active.isEmpty
  ({ s with mor := { s.mor with mem := [], cb := [], recovering := s.mor.recovering || live } }).morAbort 0

/-- The FPLL's consumers (R105): every link drops, and an SPLL on FREF loses its reference. -/
def State.fpllConsumers (s : State) : State :=
  let s := (s.modClk (fun c => { c with fpllXo := true, fpllStopped := true })).linksDrop
  if s.refsel .spll = 1 then s.refLost .spll else s

/-- The HPLL's consumers (R105): they run from the XO, and every closed loop takes its loop-fault action. -/
def State.hpllConsumers (s : State) : State := (s.modClk (fun c => { c with hpllXo := true })).loopBypass

/-- A PLL's consumers leave it (R105). -/
def State.pllConsumers (s : State) (p : Pll) : State :=
  match p with
  | .spll => if s.clk.spllXo then s.modClk (fun c => { c with spllDue := false }) else s.spllConsumers
  | .mpll => if s.clk.mpllXo then s else s.mpllConsumers
  | .fpll => if s.clk.fpllXo then s else s.fpllConsumers
  | .hpll => if s.clk.hpllXo then s else s.hpllConsumers

/-- A PLL enters BYPASS (R105). -/
def State.pllBypass (s : State) (p : Pll) : State :=
  (((s.pllTo p .bypass).pllEvent p 3).detect 0x03 uPll (pllIndex p) 0).pllConsumers p

/-- A PLL enters OFF (R106, R108); the SPLL's accumulator clears (R100). -/
def State.pllOff (s : State) (p : Pll) : State :=
  let s := (s.pllTo p .off).modPll p (fun x => { x with timeouts := 0, origin := .off })
  let s := s.pllConsumers p
  if p = .spll then s.modClk (fun c => { c with pend := 0 }) else s

/-- A PLL gives up (R106, R108): OFF, and the part clears ENABLE. -/
def State.pllGiveUp (s : State) (p : Pll) : State := (s.setFld (aPll p) 0 1 0).pllOff p

/-- A PLL stops for want of a band or of lock (R89, R108). -/
def State.searchFail (s : State) (p : Pll) : State := (s.pllGiveUp p).pllEvent p 7

/-! Searches (R89, R90). -/

/-- A band-table entry from a search of a point. -/
def foundEntry (x : Point) (r : SearchResult) : BitVec 128 :=
  BitVec.ofNat 128 (2 ^ 127 + r.temp.toNat * 2 ^ 114 + r.coarse.toNat * 2 ^ 106 + r.fine.toNat * 2 ^ 90 +
    r.integ.toNat * 2 ^ 66 + x.post % 4 * 2 ^ 64 + x.n % 128 * 2 ^ 57 + x.num % 2 ^ 28 * 2 ^ 29 + x.den % 2 ^ 28 * 2)

/-- Store a band-table entry. -/
def State.setEntry (s : State) (i : Nat) (e : BitVec 128) : State :=
  s.modClk (fun c => { c with table := Tab.set (fun _ => 0) c.table i e })

/-- The idle oscillator's search ends (R89, R90). -/
def State.idleSearchDone (s : State) (found : Option SearchResult) : State :=
  match s.clk.idle with
  | .search i x =>
    let s := s.modClk (fun c => { c with idle := .free })
    match found with
    | some r => (s.setEntry i (foundEntry x r)).pllEvent .spll 6
    | none => s.pllEvent .spll 7
  | _ => s

/-- A PLL's own search ends (R88, R89, R108): the SPLL stores its entry, entry 0 on oscillator A from OFF. An SPLL whose
consumers have stayed on it drives them from the band it has found. -/
def State.searchDone (s : State) (p : Pll) (found : Option SearchResult) : State :=
  let x := s.pll p
  if x.st ≠ .search then s
  else match found with
    | none => s.searchFail p
    | some r =>
      let s := if p = .spll then
          let s := if x.origin = .off then s.modClk (fun c => { c with entry := 0, osc := false }) else s
          let s := s.setEntry s.clk.entry (foundEntry s.clk.goal r)
          let g := s.clk.goal
          if s.clk.spllXo then s else s.modClk (fun c => { c with point := g, fcw := g.fcw48, ramp := none })
        else s
      (s.modPll p (fun x => { x with st := .acquire })).pllEvent p 6

/-! Lock (R88, R101, R106). -/

/-- CD_CORE moves from CD_XO to the SPLL, at the point that it has locked, and the SPLL's stopped domains restart (R88, R106,
R107). -/
def State.spllTake (s : State) : State :=
  let g := s.clk.goal
  (s.modClk (fun c => { c with
    point := g, fcw := g.fcw48, spllXo := false, spllStopped := false, spllDue := false })).outputsRestart.republish

/-- A PLL's consumers come back to it when it locks (R88, R106, 07 R206): the SPLL's at the first core-cycle boundary after
that, or at once where CD_CORE stands still because the XO is lost, so that no boundary of the old clock comes. -/
def State.pllReturn (s : State) (p : Pll) : State :=
  match p with
  | .spll =>
    let s := s.modClk (fun c => { c with everLocked := true })
    if !s.clk.spllXo then s
    else if s.clk.xoLost then s.spllTake.loadInc
    else s.modClk (fun c => { c with spllDue := true })
  | .hpll => s.modClk (fun c => { c with hpllXo := false })
  | .fpll => s.modClk (fun c => { c with fpllXo := false, fpllStopped := false })
  | .mpll =>
    let s := s.modClk (fun c => { c with mpllXo := false })
    (s.each (List.range 4) (fun s n => if (s.chan n).st = .recover then s.trainBegin n else s)).recoverCheck

/-- A PLL in ACQUIRE meets the lock window (R101). -/
def State.pllLocked (s : State) (p : Pll) (err : Word) : State :=
  if (s.pll p).st ≠ .acquire || decide (s.lockWin p < err.toInt.natAbs) then s
  else (s.modPll p (fun x => { x with st := .locked, timeouts := 0, phaseErr := err })).pllReturn p

/-- 200 us without lock (R108): SEARCH, or after the second time in a row OFF. The search is for the same point as the one
before it; an SPLL that came from HOLDOVER searches its active entry (R106). -/
def State.acquireLate (s : State) (p : Pll) : State :=
  let x := s.pll p
  if x.st ≠ .acquire then s
  else if 1 ≤ x.timeouts then s.searchFail p
  else
    let s := s.setPll p { x with st := .search, timeouts := x.timeouts + 1 }
    if p = .spll && x.origin != .off then s.modClk (fun c => { c with goal := entryPoint (s.bandEntry s.clk.entry) }) else s

/-- A LOCKED PLL leaves the unlock window (R101, R105). -/
def State.lockLost (s : State) (p : Pll) (err : Word) : State :=
  let x := s.pll p
  if x.st ≠ .locked || !x.refOk || decide (err.toInt.natAbs ≤ s.unlockWin p) then s
  else ((s.setPll p { x with phaseErr := err }).pllEvent p 0).pllBypass p

/-- A retry from BYPASS (R106). -/
def State.bypassRetry (s : State) (p : Pll) : State :=
  if (s.pll p).st = .bypass && (s.pll p).refOk then s.pllSearch p .bypass else s

/-- The reference has held for 1,024 cycles in HOLDOVER (R104): ACQUIRE, the SPLL's phase difference in the accumulator. -/
def State.holdExit (s : State) (p : Pll) (diff : Int) : State :=
  if (s.pll p).st ≠ .holdover || !(s.pll p).refOk then s
  else
    let s := s.modPll p (fun x => { x with st := .acquire, origin := .holdover, timeouts := 0 })
    if p = .spll then s.pendAdd diff else s

/-- HOLD_MAX elapses (R104). -/
def State.holdExpired (s : State) (p : Pll) : State :=
  if (s.pll p).st = .holdover && s.fld (aPll p) 20 4 != 0 then s.pllBypass p else s

/-! Hops (R93 to R98, R211, R239, R309). -/

/-- Whether a point stored in an entry may be hopped to, the tick budget apart (R93). -/
def State.hopOk (s : State) (i : Nat) : Bool :=
  let e := s.bandEntry i
  let x := entryPoint e
  s.clk.spll.st == .locked && s.clk.hop.isNone && entryValid e && pointOk .spll 0 x && decide (x.post ≤ 1) &&
    (List.range 12).all (fun k => outputsOk (s.coLiveAt k) (s.syLiveAt k) x)

/-- A hop starts (R94): the ramp stops, a search is abandoned, W is fixed. -/
def State.hopStart (s : State) (i : Nat) : State :=
  let s := (s.searchAbort).modClk (fun c => { c with ramp := none })
  let w := s.boundaryAt (s.ftN + 1843200 * 2 ^ 32)
  s.modClk (fun c => { c with
    idle := .hop, hop := some ⟨c.entry, i, BitVec.ofNat 112 w, false⟩, hopCycle := some s.now })

/-- The decision of R95. -/
def State.hopDecide (s : State) (qualified : Bool) : State :=
  match s.clk.hop with
  | none => s
  | some h =>
    if h.qualified then s
    else if qualified then s.modClk (fun c => { c with hop := some { h with qualified := true } })
    else s.hopFail

/-- KEEP_FREQ rescales an NCO from one INC to another at the present boundary (R211). -/
def State.ncoRescale (s : State) (n old new : Nat) : State :=
  let q := s.seq n
  if bitOf q.ctrl 8 || q.st = .off then s
  else
    let ftw := (2 * q.ftw.toNat * new + old) / (2 * max 1 old)
    s.setSeq n (q.ncoSet (s.spacing n) (s.sampleUp n (s.fastNow 0)) (some (BitVec.ofNat 64 ftw)) 0 0)

/-- Links whose lane rate leaves its range at a point go to OFF (R239, R309). -/
def State.linksAtPoint (s : State) (x : Point) : State :=
  let s := s.each (List.range 9) (fun s k =>
    if s.flag (aLinkCfg k) 31 && !laneRateOk k (s.reg (aLinkCfg k)) x then
      ((s.setFld (aLinkCfg k) 31 1 0).setTxl k { s.txl k with st := .off }).raise (aLinkStat k) (bit1 9)
    else s)
  s.each (List.range 2) (fun s k =>
    if s.flag (aQcfg k) 31 && !qRateOk (s.reg (aQcfg k)) x then
      ((s.setFld (aQcfg k) 31 1 0).setRx k .off).raise (aQstat k) (bit1 9)
    else s)

/-- Boundaries of the running tick not yet reached move later by the amount by which the new costs exceed the old (R98). -/
def State.moveBounds (s : State) (law sup : Nat) : State :=
  if !s.time.running then s
  else
    let t := s.time
    let mv (c by_ : Nat) : Nat := if t.cycle < c then c + by_ else c
    let a := law - t.costLaw
    let b := a + (sup - t.costSup)
    { s with time := { t with c2 := mv t.c2 a, c3 := mv t.c3 a, c4 := mv t.c4 b, c5 := mv t.c5 b } }

/-- The decision at W less 40,960 fu that no command has given by the end of the core cycle after that instant is a free value:
the analog loop's (R95; log 36). -/
def State.hopDecideDue (s : State) : State :=
  match s.clk.hop with
  | some h =>
    if !h.qualified && decide (h.w.toNat + s.incN ≤ s.ftN + 40960 * 2 ^ 32) then
      let (x, s) := s.freeVal 1
      s.hopDecide (bitOf x 0)
    else s
  | none => s

/-- Switchover at W (R96 to R98): the new INC applies from W. -/
def State.hopSwitch (s : State) : State :=
  match s.clk.hop with
  | none => s
  | some h =>
    if !h.qualified then s
    else
      let x := entryPoint (s.bandEntry h.target)
      let old := s.incN
      let s := s.modClk (fun c => { c with
        entry := h.target, osc := !c.osc, idle := .free, hop := none, point := x, fcw := x.fcw48, ramp := none })
      let s := s.loadInc
      let s := s.each (List.range 24) (fun s n => s.ncoRescale n old s.incN)
      let s := (s.linksAtPoint x).moveBounds (s.lawAt x) (s.supAt x)
      (s.republish.pllEvent .spll 4).hopRecord h false

/-- A hop whose W has come switches over; one that is still undecided there is decided. -/
def State.hopTurn (s : State) : State :=
  let s := s.hopDecideDue
  match s.clk.hop with
  | some h => if h.qualified && decide (h.w.toNat ≤ s.ftN) then s.hopSwitch else s
  | none => s

/-! Outputs (R110). -/

/-- The pending configurations of the applied outputs are live, their dividers at phase zero; an SY output waits for the next
SYSREF (log 47). -/
def State.outputsLive (s : State) : State :=
  let m := s.clk.applyMask
  let l := (List.range 12).filter (fun k => bitOf m k)
  (s.each l (fun s k => s.modClk (fun c => { c with
    coLive := Tab.set (fun _ => coReset) c.coLive k (s.reg (wClk + 0x200 + 4 * k)),
    syLive := Tab.set (fun _ => syReset) c.syLive k (s.reg (wClk + 0x240 + 4 * k)),
    coAt := Tab.set (fun _ => 0) (Tab.set (fun _ => 0) c.coAt k (s.fastNow 0)) (12 + k) 0 }))).modClk (fun c => { c with applyMask := 0 })

end Sys2Proof.Machine
end

