-- ==== Sys2Proof/Machine/Retire.lean ====
section
/-!
DEFINITION. Retirement: the scopes of registers, the retirement decision and its effects per unit kind, the end of the
drain window, failing Firn words, and the fault engine's taking of a detection (03 "Staged configuration sets", R83;
06 R159, R164 to R169; 14 R365 to R378).
-/

namespace Sys2Proof.Machine

/-! Scopes: a scope is named by its unit key; a whole block by 0x100 * 65536 + its window code. -/

/-- The key of a unit. -/
def unitAt (kind index : Nat) : Nat := kind * 65536 + index

/-- Unit kind number that the model gives event inputs as scopes (they are never retired). -/
def uEin : Nat := 14
/-- Unit kind number that the model gives angle trackers as scopes (they are never retired). -/
def uTrk : Nat := 15

/-- The scopes to which the register at a BAR0 base address belongs (03 "Staged configuration sets"). -/
def scopesOf (a : Nat) : List Nat :=
  let w := a / 0x10000
  let o := a % 0x10000
  if 0x10 ≤ w then
    let n := w - 0x10
    if n < 8 then [unitAt uFast n]
    else if n = 8 ∧ (o = 0x100 ∨ o = 0x104) then [unitAt uPlink 0]
    else [unitAt uPrec (n - 8)]
  else if w = 0x01 ∧ 0x400 ≤ o ∧ o < 0x1400 then [unitAt uRing ((o - 0x400) / 16)]
  else if w = 0x01 ∧ 0x1400 ≤ o ∧ o < 0x1800 then [unitAt uRing ((o - 0x1400) / 4)]
  else if w = 0x01 ∧ 0x3840 ≤ o ∧ o < 0x3C40 then [unitAt uRing ((o - 0x3840) / 4)]
  else if w = 0x05 ∧ 0x1000 ≤ o ∧ o < 0x2000 then [unitAt uDram ((o - 0x1000) / 0x400)]
  else if w = 0x06 ∧ 0x100 ≤ o ∧ o < 0x140 then [unitAt uEin ((o - 0x100) / 4)]
  else if w = 0x06 ∧ 0x200 ≤ o ∧ o < 0x300 then
    let k := (o % 0x80) / 4
    [unitAt uLine (2 * k), unitAt uLine (2 * k + 1)]
  else if w = 0x06 ∧ 0x1000 ≤ o ∧ o < 0x1800 then [unitAt uLine ((o - 0x1000) / 0x20)]
  else if w = 0x07 ∧ o < 0x200 then [unitAt uTrk (o / 0x100)]
  else if w = 0x08 then [unitAt uTla 0]
  else if w = 0x09 ∧ (o = 0x10 ∨ o = 0x14) then [unitAt uQlink ((o - 0x10) / 4)]
  else if w = 0x09 ∧ (o = 0x18 ∨ o = 0x1C) then [unitAt uQlink ((o - 0x18) / 4)]
  else if w = 0x09 ∧ 0x1000 ≤ o ∧ o < 0x2000 then [unitAt uSlot ((o - 0x1000) / 0x80)]
  else if w = 0x0A ∧ 0x1000 ≤ o ∧ o < 0x1200 then [unitAt uLink ((o - 0x1000) / 0x40)]
  else [unitAt 0x100 w]

/-- Whether a scope is a retired unit. -/
def State.scopeGone (s : State) (k : Nat) : Bool := s.isRetired (k / 65536) (k % 65536)

/-- Whether a pair register is among the entries of a set, so that both lines' scopes are joined (R80). -/
def pairJoin (entries : List PEntry) (k : Nat) : Bool :=
  entries.any (fun e => let o := e.addr % 0x10000
    e.addr / 0x10000 == 0x06 && decide (0x200 ≤ o) && decide (o < 0x300) && (o % 0x80) / 4 == k)

/-- The scopes of an entry within its set: joined lines count as one scope (R80). -/
def entryScopes (entries : List PEntry) (e : PEntry) : List Nat :=
  (scopesOf e.addr).flatMap (fun k =>
    if k / 65536 = uLine ∧ pairJoin entries (k % 65536 / 2) then
      [unitAt uLine (k % 65536 / 2 * 2), unitAt uLine (k % 65536 / 2 * 2 + 1)]
    else [k])

/-- The part of a set under way that a retired scope discards: its entries that are not yet live (R83), which then take no
further capacity of the engine. -/
def Commit.discard (c : Commit) (k : Nat) (ft : BitVec 64) : Commit :=
  let hit (e : PEntry) : Bool := (entryScopes c.entries e).contains k
  if (c.todo ++ c.applied).any hit then
    { c with
      todo := c.todo.filter (fun e => !hit e), applied := c.applied.filter (fun e => !hit e)
      discardFt := some (c.discardFt.getD ft) }
  else c

/-- A retired scope's entries of every set under way are discarded (R83). -/
def State.discardScope (s : State) (k : Nat) (ft : BitVec 64) : State :=
  { s with time := { s.time with commits := s.time.commits.map (fun c => c.discard k ft) } }

/-! Retirement of one unit (R371, R372). -/

/-- The unit of sequencer n, as its number among the 24. -/
def seqOfUnit (kind index : Nat) : Nat := if kind = uFast then index else 8 + index

/-- Descriptors fetched and not yet admitted complete REFUSED_RETIRED (R145). -/
def State.refuseFetched (s : State) (n : Nat) : State :=
  s.each ((s.ring n).descs.filter (fun d => d.st == .fetched)) (fun s d => s.refuseRetired n d)

/-- What a retirement does to its unit at D, beyond the fence and the tombstone: `d` is the core cycle of D. -/
def State.retireEffect (s : State) (kind index d : Nat) : State :=
  if kind = uFast ∨ kind = uPrec then
    let n := seqOfUnit kind index
    (s.modSeq n (fun q => { q with retireAt := some (d + 12) })).streamStop n
  else if kind = uPlink then s.setTxl 8 { s.txl 8 with st := .off }
  else if kind = uQlink then s.setRx index .off
  else if kind = uLine then s.lineStop index (s.fastNow 0)
  else if kind = uDram then
    let s := (s.modChan index (fun x => { x with
      st := match x.st with | .train | .active | .replay => .retired | t => t })).raise (aChEv index) (bit1 3)
    { s with mor := { s.mor with fenced := true } }
  else if kind = uRegion then
    let s := { s with firn := { s.firn with retiredCount := s.firn.retiredCount + 1 } }
    let s := s.raise aFirnEvents (bit1 5)
    s.each (List.range 32) (fun s n =>
      let x := s.stream n
      if x.base ≤ index ∧ index < x.base + x.regions then s.streamAbort n else s)
  else if kind = uLink then s.raise (aLinkEv index) (bit1 4)
  else if kind = uRing then s.refuseFetched index
  else if kind = uTla then ((s.tlaAbort).modTla (fun t => { t with swapPending := false })).tlaDefault d
  else s

/-- Parts of a CD_FLT cycle: 32 for the HPLL's divider, times the parts of a second in which fabric time counts. -/
def fltUnit : Nat := 32 * 1024000000000 * 2 ^ 32

/-- Parts of a CD_FLT cycle that pass in the present core cycle: 300 MHz, or the XO's 156.25 MHz (04 R111). -/
def State.fltStep (s : State) : Nat :=
  if s.clk.hpllXo then (if s.clk.xoLost then 0 else 32 * 156250000 * s.incN) else 9600000000 * s.incN

/-- One retirement decision with its record: class, outcome, detail, count and LIMIT (R371, R379). `later` tells that D is
the next core-cycle boundary, as for a write of FLT_RETIRE, and not the present one (R365). -/
def State.retireOne (s : State) (kind index cls outcome : Nat) (detail : Word) (count limit : Nat) (later : Bool) : State :=
  let d := s.now + b01 later
  let ft := s.ftOfEdge (16 * d)
  let clock := s.flt.clock + (if later then s.fltStep else 0)
  let s := (s.markRetired kind index ft clock).discardScope (unitAt kind index) ft
  (s.retireEffect kind index d).faultRecord cls kind outcome index detail count limit ft

/-- The units that retire in the same decision: the partner of an enabled pair (R252), and the enabled host-produced rings
that name a CPL ring (R376). -/
def State.companions (s : State) (kind index : Nat) : List Nat :=
  if kind = uLine then
    let k := index / 2
    if s.pairOn k && !s.isRetired uLine (4 * k + 1 - index) then [4 * k + 1 - index] else []
  else if kind = uRing && s.ringClass index == cCpl then
    (List.range 256).filter (fun m => s.ringOn m && s.ringHost m && s.fld (aRingCfg m) 24 8 == index &&
      !s.isRetired uRing m)
  else []

/-- A retirement decision and those that come with it. -/
def State.retire (s : State) (kind index cls outcome : Nat) (detail : Word) (count limit : Nat) (later : Bool := false) :
    State :=
  let more := s.companions kind index
  let s := s.retireOne kind index cls outcome detail count limit later
  s.each more (fun s m => s.retireOne kind m cls outcome detail 0 0 later)

/-- D + 12 of a sequencer's retirement: the safe code stands at the boundary, an immediate fault action in the FORCE lane,
and the burst ends (R373). -/
def State.seqRetire (s : State) (n : Nat) : State :=
  if (s.seq n).retireAt = some s.now then
    let e := s.fastNow 0
    let s := ((s.claim .fault n lForce e 0).override .fault n lForce e).keepLast n e
    let s := (s.dropMarkers n e).endBurst n e
    s.modSeq n (fun q => { q with st := .retired, force := .safe })
  else s

/-- Queued targets of retired channels complete ABORTED_RETIRE at the first c3 after D (R373): DELAY runs from D. -/
def State.abortRetired (s : State) : State :=
  let gone (o : Ord) : Bool := s.seqRetired o.chan
  let q := s.time.queue.filter gone
  let dead (a : Acting) : Bool := gone a.ord && a.actedAt.isNone
  let a := (s.time.resolved ++ s.time.acting ++ s.time.closing).filter dead
  let s := { s with time := { s.time with
    queue := s.time.queue.filter (fun o => !gone o),
    resolved := s.time.resolved.filter (fun a => !dead a),
    acting := s.time.acting.filter (fun a => !dead a),
    closing := s.time.closing.filter (fun a => !dead a) } }
  let since (s : State) (n : Nat) : Nat := match (s.seq n).retireAt with
    | some c => s.since (s.ftOfEdge (16 * (c - 12)))
    | none => 0
  s.each (q ++ a.map (fun a => a.ord)) (fun s o => s.finishOrd o sAborted (since s o.chan) 0)

/-! The end of a drain window (R371). -/

/-- The packets of a ring's sends that have not left are discarded; answers the sends, each with the payload bytes that it
still held (R145). -/
def State.takeSends (s : State) (n : Nat) : List ((Nat × Nat) × Nat) × State :=
  let mine (p : Pkt) : Bool := match p.send with | some x => x.1 == n | none => false
  let l := (List.range 8).flatMap (fun k => (s.link k).queue.filter mine)
  let sends := (l.filterMap (fun p => p.send)).eraseDups
  (sends.map (fun x => (x, sendHeld l x)),
    s.each (List.range 8) (fun s k => s.modLink k (fun x => { x with queue := x.queue.filter (fun p => !mine p) })))

/-- Admitted descriptors of a retired ring that remain complete ABORTED_RETIRE, once per target, set and send, and what they
queued never acts (R145, R128). -/
def State.ringDrainEnd (s : State) (n since : Nat) : State :=
  let mine (o : Ord) : Bool := o.src != .housekeeping && !o.remote && o.ring == n
  let dead (a : Acting) : Bool := mine a.ord
  let held := (s.time.resolved ++ s.time.acting ++ s.time.closing).filter dead
  let q := s.time.queue.filter mine
  let i := (s.time.inbound.filter (fun x => mine x.ord)).flatMap (fun x =>
    ((List.range 24).filter (fun k => bitOf x.mask k)).map (fun k => { x.ord with chan := k }))
  let own (x : SSet) : Bool := x.rq == .host && x.ring == n
  let sets := (s.time.commits.map (fun c => c.set) ++ s.time.sets ++ s.time.inSets.map (fun x => x.set)).filter own
  let s := { s with time := { s.time with
    queue := s.time.queue.filter (fun o => !mine o), inbound := s.time.inbound.filter (fun x => !mine x.ord),
    resolved := s.time.resolved.filter (fun a => !dead a), acting := s.time.acting.filter (fun a => !dead a),
    closing := s.time.closing.filter (fun a => !dead a), commits := s.time.commits.filter (fun c => !own c.set),
    sets := s.time.sets.filter (fun x => !own x), inSets := s.time.inSets.filter (fun x => !own x.set) } }
  let s := s.each (q ++ i ++ held.map (fun a => a.ord)) (fun s o => s.finishOrd o sAborted since 0)
  let s := s.each sets (fun s x => s.setCpl x sAborted since 0 false 0)
  let (sends, s) := s.takeSends n
  let s := s.each sends (fun s x =>
    match s.desc? n x.1.2 with
    | some d =>
      let sent := if d.kind = 6 then d.fld 192 11 - x.2 else 0
      (s.modDesc n d.slot (fun d => { d with left := 0, moved := sent })).complete n { d with left := 0, moved := sent }
        (s.cplOf n d sAborted since sent)
    | none => s)
  let rest := (s.ring n).descs.filter (fun d => d.st == .admitted && d.kind != 3 && d.kind != 4)
  s.each rest (fun s d => s.endDesc n d sAborted since d.moved)

/-- Whether a Firn descriptor names a word of a region. -/
def Desc.onRegion (d : Desc) (r : Nat) : Bool :=
  d.st == .admitted && (d.kind == 1 || d.kind == 2) && !bitOf d.word 255 &&
    decide (d.fld 192 38 / 4096 ≤ r) && decide (r ≤ (d.fld 192 38 + d.fld 256 32 - 1) / 4096)

/-- The drain window of a unit ends: work still inside it is aborted (R371, R169, R205, R363, R373, R145). -/
def State.drainEnd (s : State) (kind index : Nat) : State :=
  match s.flt.draining.find? (fun d => d.kind == kind && d.index == index) with
  | none => s
  | some d =>
    let since := s.since d.ft
    let s := { s with flt := { s.flt with draining := s.flt.draining.filter (fun d => !(d.kind == kind && d.index == index)) } }
    if kind = uDram then s.mapSwitch since
    else if kind = uFast ∨ kind = uPrec then (if s.time.running then s else s.abortRetired)
    else if kind = uRegion then
      s.each (s.admitted (fun d => d.onRegion index)) (fun s x => s.endDesc x.1 x.2 sAborted since x.2.moved)
    else if kind = uLink then
      let s := s.modLink index (fun x => { x with retry := [] })
      ((s.linkDropTo index .retired).linkRetireEnd index since).topoChanged
    else if kind = uRing then s.ringDrainEnd index since
    else s

/-! Failing Firn words (R159, R164 to R168). -/

/-- The key of a word in a physical bank: a main bank, or 256 + k for spare k. -/
def failKey (w phys : Nat) : Nat := w + 2 ^ 21 * (phys - 255)

/-- Words of a bank that fail in the physical bank that serves it. -/
def State.failingWords (s : State) (b : Nat) : List Nat :=
  let x := (s.bank b).spare
  (s.firn.failing.filter (fun e => e.1 / 2 ^ 21 == x && e.1 % 256 == b)).map (fun e => e.1 % 2 ^ 21)

/-- Regions retire, each with a record of the class that decided it; one already retired stays as it is (R167 to R169). -/
def State.retireRegions (s : State) (cls outcome : Nat) (detail : Word) (l : List Nat) : State :=
  s.each l (fun s r => if s.isRetired uRegion r then s else s.retire uRegion r cls outcome detail 0 0)

/-- A bank enters DEGRADED: the regions of its failing words retire (R164, R167). -/
def State.degrade (s : State) (b cls outcome : Nat) (detail : Word) : State :=
  let s := s.setBank b { s.bank b with st := .degraded }
  s.retireRegions cls outcome detail ((s.failingWords b).map firnRegion)

/-- A bank in need of a spare takes one or degrades (R164). -/
def State.bankRepair (s : State) (b cls outcome : Nat) (detail : Word) : State :=
  if s.spareFree then (s.bankWait b).copyStart else s.degrade b cls outcome detail

/-- A DEGRADED bank with as many failing words as DEAD_AT enters DEAD, and its bank group retires (R164, R168). -/
def State.bankDead (s : State) (b cls outcome : Nat) (detail : Word) : State :=
  let deadAt := s.fld (wFirn + 0xC) 8 8
  if (s.bank b).st == .degraded && decide (deadAt ≤ (s.failingWords b).length) then
    let s := (s.setBank b { s.bank b with st := .dead }).raise aFirnEvents (bit1 4)
    s.retireRegions cls outcome detail ((List.range 8192).map (fun i => 4 * i + b / 64))
  else s

/-- The spare that a bank is being copied to fails (R164): the bank waits for another one and starts over, or degrades. -/
def State.copySpareFails (s : State) (k b cls outcome : Nat) (detail : Word) : State :=
  let s := s.setSpare k { s.spare k with st := .failed }
  ((s.copyAbort.raise aFirnEvents (bit1 3)).bankRepair b cls outcome detail).bankDead b cls outcome detail

/-- A word becomes failing: it counts once against its physical bank, a main bank or 256 + k for spare k, and the bank's state
follows (R159, R164). -/
def State.failWord (s : State) (w phys cls outcome : Nat) (detail : Word) : State :=
  let b := firnBank w
  let k := failKey w phys
  if Tab.get (fun _ => false) s.firn.failing k then s
  else
    let s := { s with firn := { s.firn with failing := Tab.set (fun _ => false) s.firn.failing k true } }
    let x := s.bank b
    let s := if phys < 256 then s.setBank b { x with failing := x.failing + 1 }
      else s.setSpare (phys - 256) { s.spare (phys - 256) with failing := (s.spare (phys - 256)).failing + 1 }
    let spareAt := s.fld (wFirn + 0xC) 0 8
    if 256 ≤ phys && (s.firn.copy.any (fun c => c.bank == b && c.spare + 256 == phys)) then
      (if spareAt ≤ (s.spare (phys - 256)).failing then s.copySpareFails (phys - 256) b cls outcome detail else s)
    else if phys != (if x.spare = 0 then b else 255 + x.spare) then s
    else match x.st with
    | .normal =>
      if spareAt ≤ (s.bank b).failing then (s.bankRepair b cls outcome detail).bankDead b cls outcome detail
      else s.retireRegions cls outcome detail [firnRegion w]
    | .remapped =>
      if spareAt ≤ (s.spare (x.spare - 1)).failing then
        let s := s.setSpare (x.spare - 1) { s.spare (x.spare - 1) with st := .failed }
        ((s.raise aFirnEvents (bit1 3)).bankRepair b cls outcome detail).bankDead b cls outcome detail
      else s
    | .degraded => (s.retireRegions cls outcome detail [firnRegion w]).bankDead b cls outcome detail
    | .wait | .copy | .dead => s

/-! The fault engine takes a detection (R365 to R370, R377, R380). -/

/-- Whether detection `a` comes before `b`: earlier, or in the same CD_FLT cycle of lower class, kind and index (R365). -/
def Det.before (a b : Det) : Bool :=
  if a.at_ / fltUnit = b.at_ / fltUnit then
    decide ((a.cls * 16 + a.kind) * 65536 + a.index < (b.cls * 16 + b.kind) * 65536 + b.index)
  else decide (a.at_ < b.at_)

/-- The detection taken next. -/
def nextDet : Det → List Det → Det
  | d, [] => d
  | d, x :: l => nextDet (if x.before d then x else d) l

/-- A COUNTED occurrence: one record per class and unit in a millisecond (R380). -/
def State.counted (s : State) (d : Det) (count limit : Nat) : State :=
  let k := unitKey d.cls d.kind d.index
  if Tab.get (fun _ => false) s.flt.limited k then s.raise aFltEvents (bit1 3)
  else
    let s := { s with flt := { s.flt with limited := Tab.set (fun _ => false) s.flt.limited k true } }
    s.faultRecord d.cls d.kind 0 d.index d.detail count limit d.ft

/-- The outcome of an occurrence that retires its unit or has no unit to retire: 1 on an exhausted budget, 2 by nature. -/
def State.fateOf (s : State) (d : Det) (outcome count limit : Nat) : State :=
  if retirable d.cls d.kind then s.retire d.kind d.index d.cls outcome d.detail count limit
  else if d.cls = 0x03 then
    (s.faultRecord d.cls d.kind outcome d.index d.detail count limit d.ft).pllGiveUp (pllOf d.index)
  else if outcome = 1 then
    (s.faultRecord d.cls d.kind 3 d.index d.detail count limit d.ft).raise aFltEvents (bit1 1)
  else s.faultRecord d.cls d.kind outcome d.index d.detail count limit d.ft

/-- A Firn occurrence: budgets are kept per word, and a word that retires becomes failing (R159, R369). -/
def State.takeFirn (s : State) (d : Det) : State :=
  let w := d.detail.toNat % 2 ^ 21
  if d.cls = 0x06 then
    let (limit, window) := (s.budget d.cls).getD (0, 0)
    let h := (s.firn.hist.find? (fun h => h.word == w)).getD ⟨w, s.ft64, 0, 0, 0, false, false⟩
    let (win, c, l, out) := (BWin.mk h.count h.limit h.left).hit limit window
    let l' := histMod (fun h => { h with count := win.count, limit := win.limit, left := win.left }) w s.firn.hist
    let s := { s with firn := { s.firn with hist := l' } }
    if out then (s.faultRecord d.cls d.kind 1 d.index d.detail c l d.ft).failWord w d.index d.cls 1 d.detail
    else s.counted d c l
  else if d.permanent || permanentClass d.cls then
    let s := s.faultRecord d.cls d.kind 2 d.index d.detail 0 0 d.ft
    if d.cls = 0x08 && s.inRime w then s.modRime (fun r => { r with late := r.late ++ [(w, d.index)] })
    else s.failWord w d.index d.cls 2 d.detail
  else s.counted d 0 0

/-- One detection, classified and acted on. -/
def State.takeDet (s : State) (d : Det) : State :=
  let s := s.countOcc d.cls
  if d.kind != 0 && s.isRetired d.kind d.index then s.faultRecord d.cls d.kind 4 d.index d.detail 0 0 d.ft
  else if d.cls = 0x06 ∨ d.cls = 0x07 ∨ d.cls = 0x08 then s.takeFirn d
  else if d.permanent || permanentClass d.cls then s.fateOf d 2 0 0
  else match s.budget d.cls with
    | none => s.counted d 0 0
    | some (limit, window) =>
      let k := unitKey d.cls d.kind d.index
      let (w, c, l, out) := (Tab.get (fun _ => BWin.none) s.flt.windows k).hit limit window
      let s := { s with flt := { s.flt with windows := Tab.set (fun _ => BWin.none) s.flt.windows k w } }
      if out then s.fateOf d 1 c l else s.counted d c l

/-- The fault engine takes its next detection. -/
def State.faultTake (s : State) : State :=
  match s.flt.inbox with
  | [] => s
  | x :: l =>
    let d := nextDet x l
    { s with flt := { s.flt with inbox := s.flt.inbox.erase d } }.takeDet d

/-- Detections that have waited 64 CD_FLT cycles are taken (R365); fuel bounds them. -/
def State.faultsDue (s : State) : Nat → State
  | 0 => s
  | k + 1 => match s.flt.inbox with
    | [] => s
    | x :: l => if (nextDet x l).at_ + 64 * fltUnit ≤ s.flt.clock then State.faultsDue s.faultTake k else s

/-- Drain windows of 600 CD_FLT cycles that have passed end, in the order of their decisions (R371). -/
def State.drainsDue (s : State) : State :=
  s.each (s.flt.draining.filter (fun d => decide (d.at_ + 600 * fltUnit ≤ s.flt.clock))) (fun s d => s.drainEnd d.kind d.index)

/-- A tick of the fault engine's millisecond timer: budget windows run on, and classes and units may post a COUNTED record
again (R368, R380). -/
def State.msTick (s : State) : State :=
  { s with
    flt := { s.flt with
      limited := []
      windows := (s.flt.windows.map (fun e => (e.1, e.2.tick))).filter (fun e => e.2 != BWin.none) }
    firn := { s.firn with hist := s.firn.hist.map (fun h =>
      let w := (BWin.mk h.count h.limit h.left).tick
      { h with count := w.count, limit := w.limit, left := w.left }) } }

/-- A millisecond in 2^-32 fu. -/
def msTime : Nat := 1024000000 * 2 ^ 32

/-- The fault engine through one core cycle: CD_FLT's cycles, and its millisecond timer, which stands still while CD_MONITOR
does. The timer's first tick comes a millisecond after power-up (DESIGN CHOICE, log 72). -/
def State.fltCycle (s : State) : State :=
  let a := s.flt.timer
  let b := if s.clk.xoLost then a else a + s.incN
  let s := { s with flt := { s.flt with clock := s.flt.clock + s.fltStep, timer := b } }
  if a / msTime = b / msTime then s else s.msTick

/-- What the fault engine does at a core-cycle boundary: detections taken since the last one are decided, and drains end. -/
def State.fltTurn (s : State) : State := (s.faultsDue s.flt.inbox.length).drainsDue

/-- A reset's hold in fu: 2 µs of CORE, 20 µs of FULL; a POR waits for POR_N (R383). -/
def RstKind.hold : RstKind → Option Nat
  | .core => some (2048000 * 2 ^ 32)
  | .full => some (20480000 * 2 ^ 32)
  | .por => none

/-- Whether a budget window is open: that of a word where the class is FC_FIRN_CE (R368). -/
def State.windowOpen (s : State) (cls kind index : Nat) : Bool :=
  if cls = 0x06 then s.firn.hist.any (fun h => h.word == index && h.count != 0)
  else (Tab.get (fun _ => BWin.none) s.flt.windows (unitKey cls kind index)).count != 0

/-- Whether a unit is in its drain window. -/
def State.drains (s : State) (kind index : Nat) : Bool :=
  s.flt.draining.any (fun d => d.kind == kind && d.index == index)

/-- How many units of a kind the part has (R372); 0 for a kind that never retires. -/
def unitCount (kind : Nat) : Nat :=
  match kind with
  | 0x1 => 8 | 0x2 => 16 | 0x3 => 1 | 0x4 => 2 | 0x5 => 64 | 0x6 => 4 | 0x7 => 32768 | 0x9 => 8 | 0xA => 256
  | 0xB => 1 | _ => 0

/-- Whether FLT_RETIRE may name a unit (R374). -/
def State.mayRetire (s : State) (kind index : Nat) : Bool :=
  decide (index < unitCount kind) && !s.isRetired kind index

/-- A commanded retirement: class FC_COMMANDED, the detail names the requester (R374, R379). -/
def State.commanded (s : State) (kind index : Nat) (rq : Requester) : State :=
  (s.countOcc 0x1D).retire kind index 0x1D 2 (BitVec.ofNat 32 (Requester.code rq)) 0 0 true

end Sys2Proof.Machine
end

