-- ==== Sys2Proof/Machine/Views.lean ====
section
/-!
DEFINITION. What registers and wide values read as: the read-only fields of every register, as views of the machine's state,
and the mailbox's wide values (the Registers sections of chapters 02 to 16). Stored fields are added by the reader.
-/

namespace Sys2Proof.Machine

/-- A word from the fields of a list of (lowest bit, value). -/
def word32 (l : List (Nat × Nat)) : Word := BitVec.ofNat 32 (l.foldl (fun v f => v + f.2 * 2 ^ f.1) 0)

/-- A wide value from the fields of a list of (lowest bit, value). -/
def wide (l : List (Nat × Nat)) : BitVec 128 := BitVec.ofNat 128 (l.foldl (fun v f => v + f.2 * 2 ^ f.1) 0)

/-- A bit map over a range. -/
def bitmap (n : Nat) (f : Nat → Bool) : Nat := (List.range n).foldl (fun v i => v + b01 (f i) * 2 ^ i) 0

/-- Two's complement of a width. -/
def twos (w : Nat) (v : Int) : Nat := (BitVec.ofInt w v).toNat

/-! TOP, HIF, TIME. -/

/-- TOP_CAPS.FIRN_MIB: the usable size once bring-up has set it (R170). -/
def State.firnMib (s : State) : Nat :=
  if s.top.firnMib = 0 then 0 else (s.top.firnMib.toNat * 1024 - 4 * s.firn.retiredCount) / 1024

/-- Read-only fields of TOP. -/
def State.viewTop (s : State) (o : Nat) : Word :=
  match o with
  | 0x00 => 0x0F168000
  | 0x04 => Config.stepping.setWidth 32
  | 0x08 => s.top.fwVersion
  | 0x0C => word32 [(28, s.top.morPresent.toNat), (20, s.top.linkPresent.toNat), (8, s.firnMib)]
  | 0x10 => s.top.strap.setWidth 32
  | 0x34 => s.top.outsideAddr.setWidth 32
  | 0x44 => s.top.shadowLast
  | _ => 0

/-- HIF_MEAS: MB/s over the last 1,024 µs, from what was ingested into a store. -/
def State.ingestRate (s : State) (mor : Bool) : Nat :=
  let l := s.hif.ingest.filter (fun x => x.2.2 == mor && decide (s.since x.1 ≤ 1048576000))
  (l.foldl (fun n x => n + x.2.1) 0) / 1024

/-- Read-only fields of ring n's HIF_RING_IDX. -/
def State.ringIdx (s : State) (n : Nat) : Word :=
  let z := s.ringSize n
  let r := s.ring n
  word32 [(31, b01 (phaseAt z r.prod)), (16, r.prod % z), (15, b01 (phaseAt z r.cons)), (0, r.cons % z)]

/-- CPL ring of ring n. -/
def State.cplRing (s : State) (n : Nat) : Nat := s.fld (aRingCfg n) 24 8

/-- Slots of a CPL ring that nothing has reserved. -/
def State.cplRoom (s : State) (n : Nat) : Nat := s.ringFree n - (s.ring n).reserved

/-- Whether the CPL ring of ring n has the room that its next descriptor waits for, or the one slot that every descriptor
needs (R129). -/
def State.cplHas (s : State) (n : Nat) : Bool := decide (max 1 (s.ring n).stalled ≤ s.cplRoom (s.cplRing n))

/-- Whether fetching from ring n waits for room in its CPL ring (R129). -/
def State.stalledCpl (s : State) (n : Nat) : Bool :=
  s.ringOn n && s.ringHost n && (s.ring n).prod != (s.ring n).cons && !s.cplHas n

/-- Read-only fields of HIF. -/
def State.viewHif (s : State) (o : Nat) : Word :=
  if o = 0x04 then word32 [(5, s.hif.width.toNat), (2, s.hif.gen.toNat), (0, b01 s.hif.up)]
  else if o = 0x28 then word32 [(0, s.ingestRate false)]
  else if o = 0x2C then word32 [(0, s.ingestRate true)]
  else if o = 0x30 then 24
  else if o = 0x74 then word32 [(0, s.readTags)]
  else if 0x400 ≤ o ∧ o < 0x1400 ∧ o % 16 = 12 then s.ringIdx ((o - 0x400) / 16)
  else if 0x3800 ≤ o ∧ o < 0x3840 then
    word32 [(0, bitmap 32 (fun i => Tab.get (fun _ => false) s.hif.pba (8 * (o - 0x3800) + i)))]
  else if 0x3840 ≤ o ∧ o < 0x3C40 then
    let n := (o - 0x3840) / 4
    let r := s.ring n
    word32 [(7, b01 (s.stalledCpl n)), (6, b01 (s.isRetired uRing n)),
      (0, b01 (!r.descs.any (fun d => d.st == .admitted)))]
  else 0

/-- Read-only fields of TIME. TIME_STAGE_FREE counts a slot as free from the start of its set's commit on (log 41). -/
def State.viewTime (s : State) (o : Nat) : Word :=
  match o with
  | 0x30 => word32 [(3, b01 s.time.root), (2, b01 s.time.locked), (1, b01 s.time.ftValid), (0, b01 s.time.running)]
  | 0x38 => word32 [(0, s.commitCycles + s.time.costLaw + s.orderCycles + s.time.costSup + 48)]
  | 0x3C => word32 [(0, s.time.short)]
  | 0x40 => word32 [(0, s.time.costLaw)]
  | 0x44 => word32 [(0, s.time.costSup)]
  | 0x48 => 32
  | 0x5C => word32 [(0, 16 - s.time.sets.length)]
  | _ => 0

/-! CLK, FIRN, MOR. -/

/-- State code of a PLL (R108). -/
def PSt.code : PSt → Nat
  | .off => 0 | .search => 1 | .acquire => 2 | .locked => 3 | .holdover => 4 | .bypass => 5

/-- Code of the idle oscillator. -/
def Idle.code : Idle → Nat
  | .free => 0 | .search _ _ => 1 | .hop => 2

/-- Read-only fields of CLK. -/
def State.viewClk (s : State) (o : Nat) : Word :=
  if o < 0x100 then
    let p := pllOf (o / 0x40)
    let x := s.pll p
    let r := o % 0x40
    if r = 0x18 then
      let own := if p = .spll then [(16, s.clk.entry), (15, b01 s.clk.osc), (13, s.clk.idle.code)] else []
      word32 (own ++ [(3, b01 x.refOk), (0, x.st.code)])
    else if r = 0x20 then x.phaseErr
    else 0
  else if o = 0x114 then word32 [(0, twos 24 s.pendFu)]
  else 0

/-- Code of Rime's state; PAUSED while a copy holds it. -/
def State.rimeCode (s : State) : Nat :=
  match s.firn.rime.st with
  | .idle => if s.copyWants && s.flag wFirn 0 then 4 else 0
  | .copy => 1 | .test => 2 | .restore => 3

/-- Read-only fields of FIRN. -/
def State.viewFirn (s : State) (o : Nat) : Word :=
  match o with
  | 0x20 => word32 [(16, s.firn.retiredCount), (8, b01 s.firn.copy.isSome), (4, s.freeSpares), (0, s.rimeCode)]
  | 0x24 => word32 [(16, min 0xFFFF s.firn.passes), (0, s.firn.next)]
  | 0x28 =>
    match s.firn.copy with
    | some c => word32 [(24, c.bank), (20, c.spare), 
        (0, (c.todo.filter (fun r => !s.firnGone (r * 256 + c.bank))).length)]
    | none => 0
  | 0x60 => s.firn.lastErr
  | _ => 0

/-- State code of a channel (R204). -/
def ChSt.code : ChSt → Nat
  | .off => 0 | .train => 1 | .active => 2 | .srEntry => 3 | .selfRefresh => 4 | .replay => 5 | .retired => 6
  | .recover => 7

/-- Lanes of a delay kind (MOR_Dn_DLY_SEL). -/
def dlyLanes (kind : Nat) : Nat :=
  match kind with
  | 0 | 1 | 4 | 7 => 10
  | 2 | 3 => 40
  | 5 => 14
  | 6 => 1
  | _ => 0

/-- Whether MOR_Dn_DLY_SEL names a lane. -/
def dlyOk (sel : Word) : Bool := decide (bits sel 0 8 < dlyLanes (bits sel 24 4))

/-- Read-only fields of a channel's registers. -/
def State.viewChan (s : State) (n o : Nat) : Word :=
  let x := s.chan n
  match o with
  | 0x20 => word32 [(8, x.trainStep), (4, (List.range 4).foldl (fun m k => max m (Tab.get (fun _ => 0) x.owed k)) 0),
      (3, b01 x.draining), (0, x.st.code)]
  | 0x28 =>
    let d := x.dimm
    word32 [(24, d.speed.toNat), (17, b01 d.trimmed), (16, b01 d.unsupported),
      (8, d.capGiB.getD 0), (3, if d.fitted then (if d.gb32 then 2 else 1) else 0), (2, b01 d.ranks2),
      (0, if d.fitted then (if d.width4 then 1 else 2) else 0)]
  | 0x84 => (Tab.get (fun _ => (0 : BitVec 16)) x.timing (s.fld (aCh n + 0x80) 0 5)).setWidth 32
  | 0x8C =>
    let sel := s.reg (aCh n + 0x88)
    if dlyOk sel then (Tab.get (fun _ => (0 : BitVec 12)) x.delay sel.toNat).setWidth 32 else 0
  | 0x110 => word32 [(31, b01 x.th.isSome), (16, x.thMrr.toNat), (0, x.thErrors.toNat)]
  | 0x114 => x.thDq
  | 0x118 => x.thCb.setWidth 32
  | _ => 0

/-- Read-only fields of MOR. -/
def State.viewMor (s : State) (o : Nat) : Word :=
  if o = 0x04 then
    word32 [(16, s.mor.gen.toNat), (8, bitmap 4 (fun n => s.mor.active.contains n)), (0, s.mor.active.length)]
  else if 0x1000 ≤ o ∧ o < 0x2000 then s.viewChan ((o - 0x1000) / 0x400) ((o - 0x1000) % 0x400)
  else 0

/-! SEQ, MKR, ANG, TLA. -/

/-- State code of a sequencer (R235). -/
def SeqSt.code : SeqSt → Nat
  | .off => 0 | .idle => 1 | .run => 2 | .wait => 3 | .retired => 4

/-- State code of a transmit link (R240). -/
def LnkSt.code : LnkSt → Nat
  | .off => 0 | .align => 1 | .cgs => 2 | .ilas => 3 | .data => 4

/-- Read-only fields of a sequencer's registers. -/
def State.viewSeq (s : State) (n o : Nat) : Word :=
  let q := s.seq n
  match o with
  | 0x40 =>
    let f (p : Slot → Bool) := bitmap 8 (fun k => p (q.slotOf k))
    word32 [(16, f (fun x => x.rejected)), (8, f (fun x => x.loading)), (0, f (fun x => x.ready))]
  | 0x84 => word32 [(16, q.entry), (8, q.stack.length), (6, match q.force with | .none => 0 | .safe => 1 | .hold _ => 2),
      (5, b01 q.latch.isSome), (4, b01 ((s.stream n).st == .open)), (0, q.st.code)]
  | 0x104 => if n < 9 then word32 [(0, (s.txl n).st.code)] else 0
  | _ => 0

/-- Read-only fields of MKR. -/
def State.viewMkr (s : State) (o : Nat) : Word :=
  if o = 0x140 then word32 [(0, bitmap 16 s.einLevel)] else 0

/-- State code of a tracker (R258). -/
def TrkSt.code : TrkSt → Nat
  | .off => 0 | .seek => 1 | .sync => 2

/-- Read-only fields of ANG. -/
def State.viewAng (s : State) (o : Nat) : Word :=
  if o = 0x04 ∨ o = 0x104 then
    let t := s.trk (o / 0x100)
    word32 [(16, t.position), (8, t.lastLoss.toNat), (0, t.st.code)]
  else 0

/-- Read-only fields of TLA. -/
def State.viewTla (s : State) (o : Nat) : Word :=
  let t := s.tla
  match o with
  | 0x30 => word32 [(6, b01 t.sigValid), (5, b01 t.swapPending), (4, b01 t.checkBusy), (3, b01 t.sh.checked),
      (2, b01 t.active), (0, if s.tlaRetired then 2 else if t.en then 1 else 0)]
  | 0x34 => word32 [(28, t.resErr.toNat), (16, t.resCell.toNat), (0, t.resDepth.toNat)]
  | 0x40 => t.sigRef
  | 0x44 => t.sigLast
  | 0x48 => word32 [(16, min 0xFFFF t.passes), (0, t.pos)]
  | _ => 0

/-! CLE, NZL, FLT, HK. -/

/-- State code of a feedback link (R310). -/
def RxSt.code : RxSt → Nat
  | .off => 0 | .align => 1 | .data => 4

/-- State code of a slot (R311). -/
def LoopSt.code : LoopSt → Nat
  | .off => 0 | .open => 1 | .ramp => 2 | .closed => 3 | .fault => 4

/-- Read-only fields of a loop slot's registers. -/
def State.viewSlot (s : State) (n o : Nat) : Word :=
  let l := s.slot n
  match o with
  | 0x14 => word32 [(4, l.unrouted.toNat), (0, l.stale.toNat)]
  | 0x60 => word32 [(29, l.st.code), (26, l.setCur), (23, l.setNext), (19, l.cause), (11, min 255 l.feTimer),
      (4, l.losing.toNat),
      (0, bitmap 4 (fun k => match s.posOf n k with | some j => decide (0 < (s.cpos j).count) | none => false))]
  | _ => 0

/-- Read-only fields of CLE. -/
def State.viewCle (s : State) (o : Nat) : Word :=
  if o = 0x18 ∨ o = 0x1C then word32 [(0, (s.rx ((o - 0x18) / 4)).code)]
  else if o = 0x20 then word32 [(0, s.cleCost)]
  else if o = 0x24 then word32 [(0, s.supCost)]
  else if o = 0x38 then s.cle.sweeps
  else if 0x1000 ≤ o ∧ o < 0x2000 then s.viewSlot ((o - 0x1000) / 0x80) ((o - 0x1000) % 0x80)
  else 0

/-- State code of a node (R343). -/
def NodeSt.code : NodeSt → Nat
  | .off => 0 | .elect => 1 | .join => 2 | .member => 3 | .enum => 4 | .root => 5

/-- State code of a fabric link (R331). -/
def LkSt.code : LkSt → Nat
  | .down => 0 | .train => 1 | .hello => 2 | .up => 3 | .retired => 4

/-- Read-only fields of NZL. -/
def State.viewNzl (s : State) (o : Nat) : Word :=
  let z := s.nzl
  if o = 0x20 then
    word32 [(29, z.st.code), (28, b01 z.timeFar), (16, z.cfg.addr.toNat), (11, z.cfg.hop.toNat),
      (8, (z.cfg.parent.map BitVec.toNat).getD 0), (7, b01 z.cfg.parent.isSome)]
  else if o = 0x24 then word32 [(16, z.gen.toNat), (0, z.rootAddr.toNat)]
  else if 0x1000 ≤ o ∧ o < 0x1200 ∧ o % 0x40 = 4 then
    let x := s.link ((o - 0x1000) / 0x40)
    word32 [(29, x.st.code), (28, b01 x.tree), (27, b01 x.self), (24, x.peerLink.toNat), (12, x.peerAddr.toNat)]
  else 0

/-- Read-only fields of FLT. -/
def State.viewFlt (s : State) (o : Nat) : Word :=
  match o with
  | 0x04 => word32 [(0, min 0xFF s.flt.draining.length)]
  | 0x10 => s.flt.logCount
  | 0x20 => word32 [(0, bitmap 24 s.seqRetired)]
  | 0x24 => word32 [(15, b01 s.tlaRetired), (13, bitmap 2 (s.isRetired uQlink)), (12, b01 (s.isRetired uPlink 0)),
      (8, bitmap 4 (s.isRetired uDram)), (0, bitmap 8 (s.isRetired uLink))]
  | 0x28 => word32 [(0, bitmap 32 (s.isRetired uLine))]
  | 0x2C => word32 [(0, bitmap 32 (fun l => s.isRetired uLine (32 + l)))]
  | _ => 0

/-- Read-only fields of HK. -/
def State.viewHk (s : State) (o : Nat) : Word :=
  let h := s.hk
  match o with
  | 0x00 => word32 [(28, if h.inReset.isSome then 0 else h.stage.toNat), (24, h.failStage.toNat), (16, h.failCode.toNat), (15, b01 h.degraded),
      (14, b01 h.hostBoot), (13, b01 h.noFabric), (12, bits s.top.strap 12 1), (8, h.done.toNat)]
  | 0x34 => word32 [(31, b01 h.busy), (16, h.seq.toNat), (0, h.result.toNat)]
  | 0x38 | 0x3C | 0x40 | 0x44 => Tab.get (fun _ => 0) h.res ((o - 0x38) / 4)
  | 0x100 => word32 [(30, b01 (!s.pins.thermN)), (24, s.pins.hot.toNat), (0, s.pins.maxT.toNat)]
  | 0x108 => s.pins.supplyNow.setWidth 32
  | _ => 0

/-- Read-only fields of the register at a BAR0 base address. -/
def State.view (s : State) (a : Nat) : Word :=
  let w := a / 0x10000
  let o := a % 0x10000
  match w with
  | 0x00 => s.viewTop o
  | 0x01 => s.viewHif o
  | 0x02 => s.viewTime o
  | 0x03 => s.viewClk o
  | 0x04 => s.viewFirn o
  | 0x05 => s.viewMor o
  | 0x06 => s.viewMkr o
  | 0x07 => s.viewAng o
  | 0x08 => s.viewTla o
  | 0x09 => s.viewCle o
  | 0x0A => s.viewNzl o
  | 0x0B => s.viewFlt o
  | 0x0C => s.viewHk o
  | _ => if 0x10 ≤ w ∧ w < 0x28 then s.viewSeq (w - 0x10) o else 0

/-- What a register's stored fields read as: RW and RC fields; WO and WP fields read zero (R14). -/
def State.stored (s : State) (a : Nat) : Word :=
  match rowOf a with
  | some r => s.reg a &&& (r.mask .rw ||| r.mask .rc)
  | none => 0

/-- What a read of a register's base address returns, all bytes enabled. -/
def State.readReg (s : State) (a : Nat) : Word := s.stored a ||| s.view a

/-! Wide values (R49). -/

/-- Sparse counters of the wide values. -/
def cnt64 (t : Tab (BitVec 64)) (k : Nat) : Nat := (Tab.get (fun _ => 0) t k).toNat

/-- Wide values of HIF, TIME, CLK, FIRN and MOR. -/
def State.wideA (s : State) (w sp i : Nat) : Option (BitVec 128) :=
  if w = 0x00 ∧ sp = 0x00 ∧ i = 0 then some (Config.dieId.setWidth 128)
  else if w = 0x00 ∧ sp = 0x00 ∧ i = 1 then some (s.top.cycles.setWidth 128)
  else if w = 0x01 ∧ sp = 0x05 ∧ i < 256 then some (wide [(0, (s.ring i).completed.toNat), (64, (s.ring i).bytes.toNat)])
  else if w = 0x01 ∧ sp = 0x06 ∧ i < 15 then some (wide [(0, cnt64 s.hif.statusCounts i)])
  else if w = 0x02 ∧ sp = 0x01 ∧ i = 0 then some (s.ft80.setWidth 128)
  else if w = 0x02 ∧ sp = 0x01 ∧ i = 1 then some (((s.time.tickFt >>> 32).setWidth 80).setWidth 128)
  else if w = 0x02 ∧ sp = 0x01 ∧ i = 2 then some (s.time.ticks.setWidth 128)
  else if w = 0x03 ∧ sp = 0x02 ∧ i < 64 then some (s.bandEntry i)
  else if w = 0x03 ∧ sp = 0x03 ∧ i < 12 then some (wide [(0, (s.coLiveAt i).toNat), (32, (s.syLiveAt i).toNat)])
  else if w = 0x03 ∧ sp = 0x04 ∧ i = 0 then some (s.time.inc.setWidth 128)
  else if w = 0x03 ∧ sp = 0x04 ∧ i = 1 then some (wide [(0, s.clk.point.den), (28, s.clk.point.num), (56, s.clk.point.n)])
  else if w = 0x04 ∧ sp = 0x07 ∧ i < 256 then some (wide [(0, bitmap 128 (fun j => s.isRetired uRegion (128 * i + j)))])
  else if w = 0x04 ∧ sp = 0x08 ∧ i < 256 then
    let b := s.bank i
    let st := match b.st with
      | .normal => 0 | .wait => 1 | .copy => 2 | .remapped => 3 | .degraded => 4 | .dead => 5
    some (wide [(0, st), (4, b.spare - 1), (8, min 255 b.failing), (32, b.corrected.toNat)])
  else if w = 0x04 ∧ sp = 0x08 ∧ 0x100 ≤ i ∧ i < 0x108 then
    let x := s.spare (i - 0x100)
    let st := match x.st with | .free => 0 | .copy => 2 | .active => 3 | .failed => 6
    some (wide [(0, st), (8, x.bank), (16, min 255 x.failing), (32, x.corrected.toNat)])
  else if w = 0x04 ∧ sp = 0x09 ∧ i < 6 then some (wide [(0, cnt64 s.firn.served i), (64, cnt64 s.firn.waited i)])
  else if w = 0x05 ∧ sp = 0x0A ∧ i = 0 then some (wide [(0, s.morCap)])
  else if w = 0x05 ∧ sp = 0x0B ∧ i < 32 then
    let x := s.stream i
    let st := match x.st with | .idle => 0 | .open => 1 | .done => 2 | .aborted => 3
    some (wide [(0, (x.src + x.issued) % 2 ^ 38), (64, x.fill - x.consumed), (96, x.base), (124, b01 x.urgent), (126, st)])
  else if w = 0x05 ∧ sp = 0x0C ∧ i < 4 then
    some (wide [(0, (s.chan i).burstsRead.toNat), (64, (s.chan i).burstsWritten.toNat)])
  else none

/-- A stored word with its errors as its code corrects them: one wrong bit is corrected, more are not. -/
def correctedWord (v : BitVec 64) (e : BitVec 72) : BitVec 64 := if popcount e < 2 then v else v ^^^ e.setWidth 64

/-- Wide values of SEQ, MKR, ANG and TLA. -/
def State.wideB (s : State) (w sp i : Nat) : Option (BitVec 128) :=
  if 0x10 ≤ w ∧ w < 0x28 then
    let n := w - 0x10
    let q := s.seq n
    if sp = 0x0D ∧ i = 0 then
      some ((q.phaseAt (s.spacing n) (s.sampleUp n (s.fastNow 0))).setWidth 128)
    else if sp = 0x0D ∧ i = 1 then some (q.ftw.setWidth 128)
    else if sp = 0x0E ∧ i < 4 then
      some (match q.stack.reverse[i]? with
        | some l => wide [(0, l.count.toNat), (32, l.body.toNat), (48, b01 l.inf), (49, 1)]
        | none => 0)
    else if sp = 0x0F ∧ i = 0 then some (q.played.setWidth 128)
    else if sp = 0x0F ∧ i = 1 then some (q.affected.setWidth 128)
    else none
  else if w = 0x06 ∧ sp = 0x10 ∧ i < 64 then
    let x := s.line i
    some (if x.playing then wide [(0, x.bitAt (s.fastNow 0)), (32, x.wraps.toNat)] else wide [(32, x.wraps.toNat)])
  else if w = 0x06 ∧ sp = 0x10 ∧ i = 64 then some (wide [(0, bitmap 64 (fun l => (s.line l).ready))])
  else if w = 0x07 ∧ sp = 0x11 ∧ i < 2 then
    let t := s.trk i
    let e := s.fastNow 0
    some (wide [(0, if t.runs then s.theta i e else t.thetaRef), (32, t.rev.toNat), (64, t.p),
      (96, if t.st = .off then 0 else min 0xFFFFFFFF (e - t.tref))])
  else if w = 0x08 ∧ sp = 0x12 ∧ i < 8 then
    let f (c : Nat) : Bool := (Tab.get (fun _ => (⟨false, 16⟩ : Net))
      (if (s.tla.act.cell c).clk = 0 then s.tla.cells else s.tla.q) c).level
    some (wide [(0, bitmap 128 (fun j => f (128 * i + j)))])
  else if w = 0x08 ∧ sp = 0x12 ∧ i = 8 then some (s.tla.outs.setWidth 128)
  else if w = 0x08 ∧ sp = 0x13 ∧ i < 0x880 then some ((correctedWord (s.tla.sh.word i) (s.tla.sh.err i)).setWidth 128)
  else if w = 0x08 ∧ sp = 0x14 ∧ i < 0x880 then some ((correctedWord (s.tla.act.word i) (s.tla.act.err i)).setWidth 128)
  else none

/-- Four values of a vector from an index on, 32 bits each. -/
def pack4 (l : List Int) (k : Nat) : BitVec 128 := wide ((List.range 4).map (fun i => (32 * i, twos 32 (vecAt l (k + i)))))

/-- Wide values of CLE, NZL, FLT and HK. -/
def State.wideC (s : State) (w sp i : Nat) : Option (BitVec 128) :=
  if w = 0x09 ∧ sp = 0x15 ∧ bits (BitVec.ofNat 16 i) 0 8 < 224 then
    let e := s.coefErrAt i
    let v := s.coefAt i
    some ((if popcount e < 2 then v else v ^^^ e.setWidth 37).setWidth 128)
  else if w = 0x09 ∧ sp = 0x16 ∧ i < 64 then some (pack4 ((s.slot (i / 2)).snap.getD 0 []) (i % 2 * 4))
  else if w = 0x09 ∧ sp = 0x17 ∧ i < 128 then some (pack4 ((s.slot (i / 4)).snap.getD (1 + i % 4) []) 0)
  else if w = 0x09 ∧ sp = 0x18 ∧ i < 32 then some (wide [(0, (s.slot i).evals.toNat), (64, (s.slot i).nr)])
  else if w = 0x09 ∧ sp = 0x19 ∧ i < 16 then
    let p := s.cpos i
    some (wide [(0, twos 34 p.h), (64, twos 34 p.h0), (98, p.count), (106, (p.winner.getD (0, 0)).1),
      (111, (p.winner.getD (0, 0)).2)])
  else if w = 0x09 ∧ sp = 0x1A ∧ i < 32 then some (pack4 (s.slot i).s 0)
  else if w = 0x0A ∧ sp = 0x1B ∧ i < 8 then
    let x := s.link i
    some (wide [(0, twos 48 x.d), (64, twos 48 x.theta), (120, x.measIdx.toNat)])
  else if w = 0x0A ∧ sp = 0x1C ∧ i < 4096 then some ((Tab.get (fun _ => (0 : BitVec 4)) s.nzl.cfg.table i).setWidth 128)
  else if w = 0x0A ∧ sp = 0x1D ∧ i = 0 then
    some (wide [(0, twos 48 s.nzl.thf), (64, s.nzl.lockRun % 65536), (96, s.nzl.meas.toNat)])
  else if w = 0x0A ∧ sp = 0x1E ∧ i < 8 then some ((s.link i).peerDie.setWidth 128)
  else if w = 0x0A ∧ sp = 0x1F ∧ i = 0 then some (wide [(0, s.nzl.orderSeq.toNat), (32, s.nzl.msgId.toNat)])
  else if w = 0x0B ∧ sp = 0x20 ∧ i < 64 then some (s.flt.log.getD i 0)
  else if w = 0x0B ∧ sp = 0x21 ∧ 1 ≤ i ∧ i ≤ 0x1D then some (wide [(0, cnt64 s.flt.occ i)])
  else if w = 0x0B ∧ sp = 0x22 ∧ i < 2 then some (wide [(0, bitmap 128 (fun j => s.isRetired uRing (128 * i + j)))])
  else if w = 0x0C ∧ sp = 0x23 ∧ i < 8 then
    let m := Tab.get (fun _ => Meas.reset) s.pins.temps i
    some (wide [(0, twos 12 m.now), (16, twos 12 m.min), (32, twos 12 m.max)])
  else if w = 0x0C ∧ sp = 0x24 ∧ i < 11 then
    let m := Tab.get (fun _ => Meas.reset) s.pins.supplies i
    some (wide [(0, twos 16 m.now), (16, twos 16 m.min), (32, twos 16 m.max)])
  else none

/-- The wide value that a selector names in a window; `none` for SEL_ERR (R50). -/
def State.wideValue (s : State) (w sp i : Nat) : Option (BitVec 128) :=
  match s.wideA w sp i with
  | some v => some v
  | none => match s.wideB w sp i with
    | some v => some v
    | none => s.wideC w sp i

end Sys2Proof.Machine
end

