-- ==== Sys2Proof/Machine/Rules.lean ====
section
/-!
DEFINITION. The encodings that depend on more than one field and the discards that a block's own rule makes, for every
register of BAR0 (R3, R45, R60, R61, R86, R378, R391 and the register rules of chapters 04 to 15).
-/

namespace Sys2Proof.Machine

/-- How a change reaches a block's rule: as a direct write, as an entry of a set in the check of R78 against the projected
state, or as an entry at the moment at which its scope becomes live (R427). -/
inductive WMode where
  | direct
  | check
  | live
  deriving DecidableEq, Repr

/-- Why a write is discarded: an unlisted encoding (R3) or a block's rule (R45), the status bit and the counter that the
rule names, the shortfall where the budget breaks (R60), and whether the target is retired. -/
structure Rej where
  enc : Bool := false
  bit : Option (Nat × Nat) := none
  cnt : Option Nat := none
  short : Option Nat := none
  gone : Bool := false
  deriving DecidableEq, Repr

/-- A discard that sets a status bit. -/
def rejBit (b : Bool) (a i : Nat) : Option Rej := if b then some { bit := some (a, i) } else none
/-- An unlisted encoding. -/
def rejEnc (b : Bool) : Option Rej := if b then some { enc := true } else none
/-- A discard at a retired unit (R378). -/
def rejGone (b : Bool) : Option Rej := if b then some { cnt := some aTombHits, gone := true } else none

/-- The first cause of a list. -/
def firstRej : List (Option Rej) → Option Rej
  | [] => none
  | some r :: _ => some r
  | none :: l => firstRej l

/-- Whether a field changes. -/
def fieldChanges (old new : Word) (lo w : Nat) : Bool := bits old lo w != bits new lo w

/-- Whether a bit goes from 0 to 1. -/
def bitRises (old new : Word) (i : Nat) : Bool := !bitOf old i && bitOf new i

/-- HK_EVENTS. -/
def aHkEv : Nat := wHk + 0x04

/-- The writes that R391 discards before the SPLL's first lock. -/
def State.clockRule (s : State) (b : Bool) : Option Rej := rejBit (b && !s.clk.everLocked) aHkEv 0

/-- The budget with the costs of a point (R59, R60): the shortfall that refuses it. -/
def State.budgetFor (t : State) (x : Point) : Option Rej :=
  let need := t.budgetAt x
  if t.tickPeriod < need then some { bit := some (wTime + 0x34, 0), short := some (need - t.tickPeriod) } else none

/-- The budget after a direct change (R60); a set's is judged once, after all of its entries (R78, `checkSet`). -/
def State.budgetRule (t : State) (m : WMode) : Option Rej := if m = .check then none else t.budgetFor t.ratePoint

/-! HIF (R118, R119). -/

/-- Enabled host-produced rings that name a CPL ring. -/
def State.cplNamed (s : State) (n : Nat) : Bool :=
  (List.range 256).any (fun m => s.ringOn m && s.ringHost m && s.fld (aRingCfg m) 24 8 == n)

/-- Rules of the HIF window. -/
def State.ruleHif (s : State) (a : Nat) (old v : Word) : Option Rej :=
  let o := a % 0x10000
  if 0x400 ≤ o ∧ o < 0x1400 then
    let n := (o - 0x400) / 16
    let st := aRingStat n
    if o % 16 < 8 then rejBit (s.ringOn n) st 5
    else if o % 16 = 8 then
      if bitOf old 0 then
        let only := v == old &&& ~~~ (1 : Word)
        rejBit (!only || (bits old 1 3 == cCpl && s.cplNamed n)) st 5
      else if bitOf v 0 then
        let c := bits v 24 8
        let host := bits v 1 3 == cIngest || bits v 1 3 == cCmd || bits v 1 3 == cMailTx
        firstRej [rejGone (s.isRetired uRing n), rejBit (host && !(s.ringOn c && s.ringClass c == cCpl)) st 5]
      else none
    else none
  else none

/-! TIME (R57, R60, R61). -/

/-- Whether R63 lets a TIME_FT_LOAD pulse act. -/
def State.mayLoad (s : State) : Bool :=
  !s.time.locked && (!s.time.ftValid ||
    (!s.time.running && s.time.queue.isEmpty && s.time.sets.isEmpty && s.time.commits.isEmpty))

/-- Rules of the TIME window. Where two rules discard one direct write, the part tests and reports one of them, in this
order (DESIGN CHOICE, log 34: R45 orders the kinds of cause, not the rules of one block): a write that sets TICK_RUN before
the SPLL's first lock while FT_VALID is 0 meets R391 and R57 and sets CLOCK_REJECT alone; a length that breaks R61 and R60
sets RUN_REJECT alone and leaves TIME_BUDGET_SHORT. A TIME_FT_LOAD pulse that R63 ignores is judged where it acts, so that
it is recorded (R45) and, in a set, counted (R427). -/
def State.ruleTime (s t : State) (a : Nat) (old v : Word) (m : WMode) : Option Rej :=
  let o := a % 0x10000
  if o = 0x00 then
    let up := bitRises old v 0
    firstRej [s.clockRule up, rejBit (up && m == .direct && !s.time.ftValid) (wTime + 0x34) 3]
  else if o = 0x04 ∨ o = 0x08 ∨ o = 0x0C then
    firstRej [rejBit (s.time.running && m == .direct) (wTime + 0x34) 1, t.budgetRule m]
  else if o = 0x2C then rejBit (bitOf v 0 && m != .check && !s.mayLoad) (wTime + 0x30) 4
  else none

/-! CLK (R85 to R101, R109). -/

/-- Whether the held SPLL point is the one whose rate the costs take (R98). -/
def State.heldRules (s : State) : Bool := s.clk.spllXo && !s.clk.everLocked

/-- Rules of a PLL's registers, at an offset within its nine. -/
def State.rulePll (s t : State) (p : Pll) (r : Nat) (old v : Word) (m : WMode) : Option Rej :=
  let ev := aPllEv p
  let held := if p = .spll && s.heldRules then t.budgetRule m else none
  match r with
  | 0x00 =>
    let up := bitRises old v 0
    let sel := fieldChanges old v 14 2 || (p == .fpll && bits v 14 2 == 2 && fieldChanges old v 16 4)
    let on := bitOf old 0 && bitOf v 0
    let bad := !pointOk p (bits v 14 2) (t.heldPoint p)
    firstRej [
      rejBit (p == .spll && bitOf old 0 && fieldChanges old v 12 2) ev 9,
      rejBit (up && bad) ev 9,
      rejBit (on && sel && p == .fpll && bad) ev 9, held]
  | 0x04 | 0x08 | 0x0C => held
  | 0x10 =>
    if !bitOf v 0 then none
    else if p = .spll then
      let x := { s.heldPoint .spll with post := s.clk.point.post }
      let e := entryPoint (s.bandEntry s.clk.entry)
      let near := decide ((x.fcwNum * e.den : Int) * 1000000 - e.fcwNum * x.den * 1000000 ≤ e.fcwNum * x.den * 1000) &&
        decide ((e.fcwNum * x.den : Int) * 1000000 - x.fcwNum * e.den * 1000000 ≤ e.fcwNum * x.den * 1000)
      rejBit (s.clk.spll.st != .locked || s.clk.hop.isSome || !pointOk .spll 0 x || !near) ev 9
    else rejBit (s.pllOn p) ev 9
  | 0x14 => rejBit (decide (4 * bits v 16 8 ≤ bits v 24 8)) ev 9
  | _ => none

/-- Rules of the SPLL controls and outputs. -/
def State.ruleClk (s t : State) (a : Nat) (old v : Word) (m : WMode) : Option Rej :=
  let o := a % 0x10000
  let ev := aPllEv .spll
  let i := bits v 0 6
  if o < 0x100 then s.rulePll t (pllOf (o / 0x40)) (o % 0x40) old v m
  else if o = 0x100 ∧ bitOf v 31 then
    firstRej [rejBit (!s.hopOk i || s.clk.hopCycle == some s.now) ev 9,
      if m = .check then none else s.budgetFor (entryPoint (s.bandEntry i))]
  else if o = 0x104 ∧ bitOf v 31 then
    let x := entryPoint (s.reg (wClk + 0x12C) ++ (s.reg (wClk + 0x128) ++ (s.reg (wClk + 0x124) ++ s.reg (wClk + 0x120))))
    rejBit (s.clk.idle != .free || s.clk.hop.isSome || s.clk.spll.st != .locked || i == s.clk.entry ||
      !pointOk .spll 0 x || decide (1 < x.post)) ev 9
  else if o = 0x130 ∧ bitOf v 31 then
    rejBit (i == s.clk.entry || (match s.clk.hop with | some h => h.target == i | none => false)) ev 9
  else if o = 0x10C then
    if s.time.locked then rejBit (m != .check) ev 10
    else rejBit (!s.pendFits (v.setWidth 16).toInt) ev 9
  else if 0x200 ≤ o ∧ o < 0x230 then
    let k := (o - 0x200) / 4
    let sy := t.reg (wClk + 0x240 + 4 * k)
    firstRej [rejEnc (decide (bits v 13 13 ≤ bits v 0 13)), rejBit (!s.knownPoints.all (fun x => outputsOk v sy x)) ev 9]
  else if 0x240 ≤ o ∧ o < 0x270 then
    let k := (o - 0x240) / 4
    let co := t.reg (wClk + 0x200 + 4 * k)
    rejBit (!s.knownPoints.all (fun x => outputsOk co v x)) ev 9
  else none

/-! FIRN (R171) and MOR (R178, R184, R199, R204). -/

/-- Rules of the FIRN window. -/
def State.ruleFirn (s : State) (a : Nat) (v : Word) : Option Rej :=
  match a % 0x10000 with
  | 0x0C => rejBit (decide (bits v 8 8 < bits v 0 8)) aFirnEvents 7
  | 0x14 =>
    match bits v 30 2 with
    | 1 => rejBit ((s.bank (bits v 0 8)).st != .normal || !s.spareFree) aFirnEvents 6
    | 2 => rejBit (s.isRetired uRegion (bits v 0 15)) aFirnEvents 6
    | _ => rejEnc true
  | _ => none

/-- Rules of a channel's registers. -/
def State.ruleChan (s : State) (n o : Nat) (old v : Word) : Option Rej :=
  let x := s.chan n
  let ev := aChEv n
  match o with
  | 0x00 => firstRej [
      rejGone (bitRises old v 0 && s.isRetired uDram n),
      rejBit (bitRises old v 0 && x.dimm.unsupported) ev 5,
      rejBit (bitOf old 0 && !bitOf v 0 && x.st == .active) ev 5,
      rejBit (fieldChanges old v 4 1 && x.st != .off) ev 5]
  | 0x04 => rejBit (decide (bits v 8 6 ≤ bits v 0 6)) ev 5
  | 0x84 => rejBit (decide (0x19 < s.fld (aCh n + 0x80) 0 5) || (x.st != .off && x.st != .train)) ev 5
  | 0x8C =>
    let sel := s.reg (aCh n + 0x88)
    rejBit (!dlyOk sel || (bits sel 24 4 == 7 && decide (127 < bits v 0 12))) ev 5
  | 0x100 =>
    rejBit (bitOf v 31 && (x.th.isSome || x.st != .train || bits v 24 4 == 0)) (aCh n + 0x110) 29
  | _ => none

/-- Rules of the MOR window. -/
def State.ruleMor (s : State) (a : Nat) (old v : Word) : Option Rej :=
  let o := a % 0x10000
  if o = 0 then rejBit s.morBusy (wMor + 8) 0
  else if 0x1000 ≤ o then s.ruleChan ((o - 0x1000) / 0x400) ((o - 0x1000) % 0x400) old v
  else none

/-! SEQ (R224, R236, R239). -/

/-- The indices that a trigger's KIND lists. -/
def trigKinds (kind : Nat) : Nat := match kind with | 0 => 16 | 1 => 64 | _ => 32

/-- Rules of a link configuration: retirement, clock, changes while enabled, lane rate. -/
def State.ruleLink (s : State) (gone : Bool) (stat : Nat) (old v : Word) (ok : Bool) : Option Rej :=
  let up := bitRises old v 31
  let change := (old ^^^ v) &&& 0x7FFFFFFF != 0
  firstRej [rejGone (up && gone), s.clockRule up, rejBit (bitOf old 31 && change) stat 10,
    rejBit ((up || change) && !ok) stat 9]

/-- Rules of a sequencer's window. -/
def State.ruleSeq (s : State) (n o : Nat) (old v : Word) : Option Rej :=
  if o = 0 then firstRej [rejGone (bitRises old v 0 && s.seqRetired n), s.clockRule (bitRises old v 0)]
  else if 0x60 ≤ o ∧ o < 0x80 then rejEnc (decide (trigKinds (bits v 29 2) ≤ bits v 23 6))
  else if o = 0x100 then
    let gone := if n < 8 then s.isRetired uFast n else s.isRetired uPlink 0
    s.ruleLink gone (aLinkStat n) old v (laneRateOk n v s.ratePoint)
  else none

/-! MKR and ANG (R250, R257, R258). -/

/-- Rules of the MKR window, with the state as it would stand. -/
def State.ruleMkr (t : State) (a : Nat) (old v : Word) : Option Rej :=
  let o := a % 0x10000
  if 0x1000 ≤ o then
    let l := (o - 0x1000) / 0x20
    let r := o % 0x20
    if r = 4 ∨ r = 8 ∨ r = 12 then
      let g := l / 8 * 8
      firstRej [rejEnc (!(t.patPending l).inFirn),
        rejBit (r == 12 && bitRises old v 31 &&
          (List.range 8).any (fun i => g + i != l && t.flag (aLine (g + i) + 12) 31)) aMkrEvents 2]
    else none
  else none

/-- Rules of the ANG window. -/
def State.ruleAng (s : State) (a : Nat) (old v : Word) : Option Rej :=
  let o := a % 0x10000
  if o = 0 ∨ o = 0x100 then
    let t := o / 0x100
    let ev := aTrkEv t
    let pos := bits v 0 13
    firstRej [rejBit (bitOf old 31 && v != old &&& 0x7FFFFFFF) ev 7,
      rejBit (decide (pos < bits v 16 3 + 4)) ev 7,
      rejBit ((List.range 32).any (fun k => s.evTrk k == t && decide (pos * 65536 ≤ s.evAngle k))) ev 7]
  else if 0x400 ≤ o then
    rejEnc (decide (s.trkPos (bits v 30 1) * 65536 ≤ bits v 0 28))
  else none

/-! TLA (R276, R278, R287). -/

/-- Rules of the TLA window. -/
def State.ruleTla (s : State) (a : Nat) (old v : Word) (m : WMode) : Option Rej :=
  let o := a % 0x10000
  let shadow := o = 0x20 ∨ o = 0x24 ∨ o = 0x28 ∨ o = 0x08
  if s.tlaRetired ∧ (shadow ∨ o = 0x04 ∨ o = 0x0C) then
    some { bit := some (aTlaEv, 9), cnt := some (wTla + 0x60), gone := true }
  else if o = 0 then rejGone (bitRises old v 0 && s.tlaRetired)
  else if shadow ∧ m = .check then some { bit := some (aTlaEv, 8) }
  else if o = 0x28 then rejBit (decide (0x87F < s.fld (wTla + 0x20) 0 12)) aTlaEv 8
  else if o = 0x04 then rejBit (bitOf v 0 && s.swapRefused) aTlaEv 1
  else none

/-! CLE (R290, R294, R301, R304, R309, R318, R322, R323). -/

/-- The groups of a slot. -/
def State.groupsOf (s : State) (n : Nat) : List Nat := (List.range 8).filter (fun g => s.flag (wCle + 0x100 + 4 * g) n)

/-- Positions that a slot assigns, with their outputs. -/
def State.slotOuts (s : State) (n : Nat) : List Nat :=
  (List.range 4).filterMap (fun k => outPos (s.reg (aSlot n + 8)) k)

/-- Slots for which the assignments of positions break R294. -/
def State.sharedBad (s : State) : List Nat :=
  let slots := (List.range 32).filter (fun n => !(s.slotOuts n).isEmpty)
  slots.filter (fun n =>
    let l := s.slotOuts n
    l.eraseDups.length != l.length ||
      slots.any (fun m => m != n && l.any (fun j => (s.slotOuts m).contains j) &&
        !(s.groupsOf n).any (fun g => (s.groupsOf m).contains g)))

/-- Enabled members of a group that differ in MODE, DIV or PHASE. -/
def State.groupBad (s : State) (g : Nat) : List Nat :=
  let l := (List.range 32).filter (fun n => s.flag (wCle + 0x100 + 4 * g) n && s.slotOn n)
  let key (n : Nat) : Nat × Nat × Nat := (bits (s.slotCfg n) 30 1, bits (s.slotCfg n) 8 8, bits (s.slotCfg n) 16 8)
  match l with
  | [] => []
  | n :: t => if t.all (fun m => key m == key n) then [] else l

/-- Refuse with CFG_REJECT of the lowest slot involved (R318). -/
def rejSlots (l : List Nat) : Option Rej :=
  match lowest l with
  | some n => some { bit := some (aSlotEv n, 0) }
  | none => none

/-- Whether thresholds T_1 to T_{NREG-1} rise strictly (R323). -/
def State.thrAscends (s : State) (n : Nat) : Bool :=
  (List.range (s.nreg n - 2)).all (fun i => decide (s.thr n (i + 1) < s.thr n (i + 2)))

/-- Whether a slot is in RAMP or CLOSED. -/
def State.slotBusy (s : State) (n : Nat) : Bool := (s.slot n).st == .ramp || (s.slot n).st == .closed

/-- Rules of a slot's registers; `t` is the state as it would stand. -/
def State.ruleSlot (s t : State) (n o : Nat) (old v : Word) (m : WMode) : Option Rej :=
  let ev := aSlotEv n
  match o with
  | 0x00 =>
    let shape := fieldChanges old v 30 1 || fieldChanges old v 8 16 || fieldChanges old v 0 7
    let mode := fieldChanges old v 29 1
    let up := bitRises old v 31
    firstRej [
      rejEnc (decide (bits v 8 8 < bits v 16 8)),
      rejBit (bitOf old 31 && shape) ev 0,
      rejBit (s.slotBusy n && (mode || (!bitOf old 29 && fieldChanges old v 24 3))) ev 0,
      rejBit (bitOf v 31 && bitOf v 29 && !t.thrAscends n) ev 0,
      if up && !(t.groupsOf n).isEmpty then rejSlots ((t.groupsOf n).flatMap t.groupBad ++ t.sharedBad) else none,
      t.budgetRule m]
  | 0x08 => rejBit (t.sharedBad.contains n) ev 0
  | 0x0C =>
    let up := bitRises old v 31
    firstRej [
      rejEnc (decide (bits v 16 12 < bits v 8 6)),
      rejBit (bitOf old 31 && (fieldChanges old v 16 12 || fieldChanges old v 0 14)) ev 0,
      rejBit (up && decide (2 ^ 27 < s.fld (aSlot n + 0x10) 0 21 * 64 + 16 * (bits v 16 12 + 1))) ev 0,
      t.budgetRule m]
  | 0x10 => rejBit (s.flag (aSlot n + 0x0C) 31 && v != old) ev 0
  | 0x24 =>
    let c := s.reg (aSlot n + 0x20)
    rejBit (decide (0xDF < bits c 0 8) || s.coefRefused n (bits c 8 3)) ev 1
  | 0x34 => firstRej [rejEnc (decide (bits (s.slotCfg n) 2 2 < bits v 28 2)),
      rejBit (s.slotOn n && bitOf (s.slotCfg n) 29) ev 0]
  | _ => if 0x40 ≤ o ∧ o < 0x5C then rejBit (s.slotOn n && bitOf (s.slotCfg n) 29) ev 0 else none

/-- Rules of the CLE window. -/
def State.ruleCle (s t : State) (a : Nat) (old v : Word) (m : WMode) : Option Rej :=
  let o := a % 0x10000
  if o = 0x10 ∨ o = 0x14 then
    let x := (o - 0x10) / 4
    s.ruleLink (s.isRetired uQlink x) (aQstat x) old v (qRateOk v s.ratePoint)
  else if 0x100 ≤ o ∧ o < 0x120 then
    let two := (List.range 32).filter (fun n => decide (1 < (t.groupsOf n).length))
    let moved := (List.range 32).filter (fun n => bitOf (old ^^^ v) n && s.slotBusy n)
    rejSlots (two ++ moved ++ (List.range 8).flatMap t.groupBad ++ t.sharedBad)
  else if 0x1000 ≤ o then s.ruleSlot t ((o - 0x1000) / 0x80) ((o - 0x1000) % 0x80) old v m
  else none

/-! NZL, FLT, HK. -/

/-- Rules of the NZL window (R386). -/
def State.ruleNzl (s : State) (a : Nat) (old v : Word) : Option Rej :=
  let o := a % 0x10000
  if 0x1000 ≤ o ∧ o % 0x40 = 0 then
    let n := (o - 0x1000) / 0x40
    firstRej [rejGone (bitRises old v 31 && s.isRetired uLink n),
      rejBit (bitOf v 31 && !bitOf s.top.strap (4 + n)) (aLinkEv n) 5]
  else none

/-- Rules of the FLT and HK windows (R374, R392). -/
def State.ruleFltHk (s : State) (a : Nat) (v : Word) : Option Rej :=
  if a = wFlt then rejBit (!s.mayRetire (bits v 28 4) (bits v 0 16)) aFltEvents 2
  else if a = wHk + 0x20 then rejBit s.hk.busy (wHk + 0x34) 29
  else none

/-- What discards a write that would leave register `a` with `v` (its RW fields as they would stand, its WO and WP fields as
written), after the width, alias and guard tests and the encodings of single fields. -/
def State.blockRule (s : State) (a : Nat) (v : Word) (m : WMode) : Option Rej :=
  let old := s.reg a
  let t := s.putReg a v
  match a / 0x10000 with
  | 0x01 => s.ruleHif a old v
  | 0x02 => s.ruleTime t a old v m
  | 0x03 => s.ruleClk t a old v m
  | 0x04 => s.ruleFirn a v
  | 0x05 => s.ruleMor a old v
  | 0x06 => t.ruleMkr a old v
  | 0x07 => s.ruleAng a old v
  | 0x08 => s.ruleTla a old v m
  | 0x09 => s.ruleCle t a old v m
  | 0x0A => s.ruleNzl a old v
  | 0x0B | 0x0C => s.ruleFltHk a v
  | w => if 0x10 ≤ w ∧ w < 0x28 then s.ruleSeq (w - 0x10) (a % 0x10000) old v else none

end Sys2Proof.Machine
end

