-- ==== Sys2Proof/Machine/Reset.lean ====
section
/-!
DEFINITION. Resets and the hardware stages of bring-up: what each reset kind clears, its release, and the stages HPLL,
FIRN_INIT, FW_LOAD and BASE_READY (15 R383 to R391).
-/

namespace Sys2Proof.Machine

/-- Width order of the reset kinds that are held (R383). -/
def RstKind.rank : RstKind → Nat
  | .core => 0
  | .full => 1
  | .por => 2

/-- The wider of two kinds. -/
def RstKind.wider (a b : RstKind) : RstKind := if a.rank < b.rank then b else a

/-- Whether a CORE reset clears the register at a BAR0 base address (R384). -/
def coreClears (a : Nat) : Bool :=
  let w := a / 0x10000
  let o := a % 0x10000
  if w = 0x00 then o == 0x14 || o == 0x20
  else if w = 0x01 then decide (o < 0x1800) || decide (0x3840 ≤ o)
  else if w = 0x03 then decide (o < 0xC0) || decide (0x100 ≤ o)
  else w != 0x04 && w != 0x0B && w != 0x0C

/-- Contexts after a CORE or PCIE reset: the host's are cleared, housekeeping keeps all but its arms (R384). -/
def ctxsKept (m : Tab Ctx) : Tab Ctx :=
  (m.filter (fun e => e.1 % 2 == 1)).foldl
    (fun t e => Tab.set (fun _ => Ctx.reset) t e.1 { e.2 with arm := false }) []

/-- Moraine with every channel off and its contents lost (R384); what detection read of the DIMMs stays where housekeeping
runs on. -/
def Mor.lost (m : Mor) (keep : Bool) : Mor :=
  { Mor.reset with chans := [0, 1, 2, 3].foldl (fun t n =>
      let x := Tab.get (fun _ => Chan.reset) m.chans n
      let d := if keep then { x.dimm with trimmed := false } else Chan.reset.dimm
      Tab.set (fun _ => Chan.reset) t n { Chan.reset with dimm := d, epoch := x.epoch + 1 }) [] }

/-- The host interface as POR, FULL and CORE leave it; a CORE reset keeps the link, MSI-X table and PBA. -/
def Hif.afterCore (h : Hif) : Hif :=
  { Hif.reset with
    decoding := h.decoding, up := h.up, gen := h.gen, width := h.width, d3hot := h.d3hot
    pba := h.pba, devCtl := h.devCtl, pciStatus := h.pciStatus, aer := h.aer }

/-- A retired unit that a CORE reset keeps stands as its tombstone (R384). -/
def State.tombstone (s : State) (k : Nat) : State :=
  let kind := k / 65536
  let i := k % 65536
  if kind = uFast ∨ kind = uPrec then s.modSeq (seqOfUnit kind i) (fun q => { q with st := .retired, force := .safe })
  else if kind = uDram then s.modChan i (fun x => { x with st := .retired })
  else if kind = uLink then s.modLink i (fun x => { x with st := .retired })
  else s

/-- POR and FULL clear everything; only POR samples the straps and resets the TAP (R384, R416). The levels at pins, the
output port and the model's own counters are no state of the part's logic. -/
def State.fullWipe (s : State) (k : RstKind) : State :=
  let r := State.reset
  { r with
    top := { r.top with strap := s.top.strap }
    time := { r.time with core := s.time.core, elapsed := s.time.elapsed }
    clk := { r.clk with ref10m := s.clk.ref10m, xoLost := s.clk.xoLost }
    mor := s.mor.lost false
    mkr := { r.mkr with pins := s.mkr.pins }
    pins := { r.pins with
      porN := s.pins.porN
      tap := if k = .por then r.pins.tap else s.pins.tap
      tdo := if k = .por then r.pins.tdo else s.pins.tdo
      tripped := s.pins.tripped, supplyOut := s.pins.supplyOut, thermN := !s.pins.tripped }
    hk := { r.hk with inReset := some k, resetAt := s.time.elapsed }
    regs := s.regs.filter (fun e => e.1 == wHk + 0x100)
    free := s.free
    out := s.out
    readData := s.readData
    pending := s.pending }

/-- What a CORE reset clears and keeps (R384). -/
def State.coreWipe (s : State) : State :=
  let r := State.reset
  let s := { s with
    regs := s.regs.filter (fun e => !coreClears e.1)
    shadow := s.shadow.filter (fun e => !coreClears e.1)
    ctxs := ctxsKept s.ctxs
    top := { s.top with convLive := false, lineLive := false, cycles := 0 }
    time := { r.time with core := s.time.core, elapsed := s.time.elapsed }
    clk := { r.clk with hpll := s.clk.hpll, hpllXo := s.clk.hpllXo, ref10m := s.clk.ref10m, xoLost := s.clk.xoLost }
    hif := s.hif.afterCore
    mor := s.mor.lost true
    seqs := []
    tx := []
    mkr := { r.mkr with pins := s.mkr.pins }
    ang := .reset
    tla := .reset
    cle := .reset
    nzl := .reset
    hk := { s.hk with done := 0, noFabric := false, swapped := false, inReset := some .core, resetAt := s.time.elapsed } }
  s.each (s.flt.retired.map (fun e => e.1)) State.tombstone

/-- A POR, FULL or CORE reset is triggered; one that arrives during another is merged into the wider (R383). -/
def State.doReset (s : State) (k : RstKind) : State :=
  let k := match s.hk.inReset with
    | some j => j.wider k
    | none => k
  if k = .core then s.coreWipe else s.fullWipe k

/-- A PCIE reset: the host interface, the arms and the host's contexts (R384). -/
def State.pcieWipe (s : State) : State :=
  let s := s.sendsGone
  { s with
    regs := s.regs.filter (fun e => e.1 / 0x10000 != 0x01)
    shadow := s.shadow.filter (fun e => e.1 / 0x10000 != 0x01)
    ctxs := ctxsKept s.ctxs
    top := { s.top with cycles := 0 }
    time := s.time.orphan
    hif := { Hif.reset with decoding := s.hif.decoding } }

/-! Release and the hardware stages. -/

/-- Stage codes of HK_STATUS. -/
def stHpll : BitVec 4 := 1
/-- FIRN_INIT. -/
def stFirnInit : BitVec 4 := 2
/-- FW_LOAD. -/
def stFwLoad : BitVec 4 := 3
/-- BASE_READY. -/
def stBase : BitVec 4 := 4

/-- Change housekeeping. -/
def State.modHk (s : State) (f : Hk → Hk) : State := { s with hk := f s.hk }

/-- The HPLL's part of bring-up (R387, R388): FIRN_INIT follows its lock or its failure; without the XO the part stays in
RESET. -/
def State.bootStep (s : State) : State :=
  if s.hk.inReset.isSome || decide (2 ≤ s.hk.stage.toNat) then s
  else if s.clk.hpll.st = .locked then s.modHk (fun h => { h with stage := stFirnInit, since := s.time.elapsed })
  else if s.clk.hpll.st != .off then s.modHk (fun h => { h with stage := stHpll })
  else if s.pllOn .hpll then s.modHk (fun h => { h with stage := 0 })
  else s.modHk (fun h => { h with stage := stFirnInit, since := s.time.elapsed, degraded := true, failStage := stHpll, failCode := 0x01 })

/-- MOR_FIXED: firmware sets TRAIN_MODE to FIXED on every channel at BASE_READY (R386, R390). -/
def State.trainFixed (s : State) : State :=
  if bitOf s.top.strap 3 then s.each (List.range 4) (fun s n => s.setFld (aCh n) 4 1 1) else s

/-- The release of the reset in force (R383, R386, R387). After a CORE reset a firmware that runs no BRINGUP is at BASE_READY
again (DEDUCED, log 26). -/
def State.release (s : State) (straps : BitVec 16) : State :=
  match s.hk.inReset with
  | none => s
  | some .core =>
    let s := s.modHk (fun h => { h with inReset := none })
    if s.hk.fw && s.hk.bring.isNone && decide (3 < s.hk.stage.toNat) then
      s.trainFixed.modHk (fun h => { h with stage := stBase })
    else s
  | some .full => ((s.modHk (fun h => { h with inReset := none, stage := 0 })).pllWake .hpll).bootStep
  | some .por =>
    if s.pins.tripped then s
    else
      let s := { s with top := { s.top with strap := straps }, pins := { s.pins with porN := true, supplyOut := false } }
      let s := match s.pins.tap with
        | .extest | .clamp | .highz => { s with pins := { s.pins with tap := .bypass } }
        | _ => s
      ((s.modHk (fun h => { h with inReset := none, stage := 0 })).pllWake .hpll).bootStep

/-- FIRN_INIT ends: Firn, TLA banks and coefficient memory are zero, the BARs decode, and FW_LOAD begins (R387, R389). -/
def State.firnZero (s : State) : State :=
  if s.hk.stage ≠ stFirnInit || s.hk.inReset.isSome then s
  else
    let s := { s with
      firn := { s.firn with mem := [], poison := [] }
      tla := { s.tla with bank0 := .reset, bank1 := .reset }
      cle := { s.cle with coef := [], coefErr := [] }
      hif := { s.hif with decoding := true } }
    s.modHk (fun h => { h with stage := stFwLoad, hostBoot := bitOf s.top.strap 0 })

/-- How long FIRN_INIT takes: 8,192 bank cycles, at 1.2 GHz or on the XO (R387), in 2^-32 fu. -/
def State.firnInitTime (s : State) : Nat :=
  if s.clk.hpllXo then 8192 * incXo.toNat else 8192 * 1024000000000 * 2 ^ 32 / 1200000000

/-- FIRN_INIT ends once its bank cycles have passed (R387). -/
def State.firnInitTurn (s : State) : State :=
  if s.hk.stage = stFirnInit && decide (s.hk.since + s.firnInitTime ≤ s.time.elapsed) then s.firnZero else s

/-- A load from flash ends (R389). -/
def State.flashLoad (s : State) (r : FlashResult) : State :=
  if s.hk.stage ≠ stFwLoad || s.hk.fw || s.hk.hostBoot || s.hk.inReset.isSome then s
  else match r with
    | .image0 | .image1 => s.modHk (fun h => { h with fw := true })
    | .bothFailed => s.modHk (fun h => { h with hostBoot := true, failStage := stFwLoad, failCode := 0x02 })

/-- A HK_BOOT_CTRL.GO pulse (R389). -/
def State.hostLoad (s : State) (crcOk : Bool) : State :=
  if !s.hk.hostBoot then s
  else if crcOk then s.modHk (fun h => { h with fw := true, hostBoot := false })
  else s.modHk (fun h => { h with failStage := stFwLoad, failCode := 0x03 })

/-- What detection says of one channel's DIMM (07 R172): one that the rule does not list is unsupported and recorded. -/
def State.dimmSeen (s : State) (ch : Nat) (r : DimmRead) : State :=
  let bad (d : Dimm) : State := (s.modChan ch (fun x => { x with dimm := { d with unsupported := true } })).detect 0x09 uDram ch 0
  match r with
  | .absent => s.modChan ch (fun x => { x with dimm := Chan.reset.dimm })
  | .unsupported => bad { Chan.reset.dimm with fitted := true }
  | .fitted w g r v =>
    let d : Dimm := ⟨true, false, w, g, r, v, false⟩
    if d.capGiB.isNone then bad d else s.modChan ch (fun x => { x with dimm := d })

/-- BASE_READY (R390): the version, the DIMMs, TOP_CAPS, FIXED training by strap. -/
def State.baseStart (s : State) (version : Word) (dimms : List DimmRead) : State :=
  if s.hk.stage ≠ stFwLoad || !s.hk.fw || s.hk.inReset.isSome then s
  else
    let s := s.each ((List.range 4).zip dimms) (fun s e => s.dimmSeen e.1 e.2)
    let s := { s with top := { s.top with
      fwVersion := version
      morPresent := BitVec.ofNat 4 (bitmap 4 (fun n => (s.chan n).dimm.fitted))
      linkPresent := BitVec.ofNat 8 (bits s.top.strap 4 8)
      firnMib := 128 } }
    (s.trainFixed.each (List.range 4) State.trainStart).modHk (fun h => { h with stage := stBase })

end Sys2Proof.Machine
end

