-- ==== Sys2Proof/Machine/After.lean ====
section
/-!
DEFINITION. What an accepted write does beyond the stored bits: requests, pulses and enables, window by window. Each function
takes the register's old and new stored bits and the value as written.
-/

namespace Sys2Proof.Machine

/-- What the world outside says with a write: whether a newly chosen reference is present (04 R104), and whether the image
in Firn passes its CRC (15 R389). Where a command says nothing of it, the state or a free value does. -/
structure Hint where
  present : Option Bool := none
  crcOk : Option Bool := none
  deriving DecidableEq, Repr

/-! HIF. -/

/-- Effects in the HIF window: a ring that is enabled starts at position 0 (R119); the conditions of a ring's signal are met by
the write (R143); a vector that is unmasked while pending sends its message. -/
def State.afterHif (s : State) (o : Nat) (old new : Word) : State :=
  if 0x400 ≤ o ∧ o < 0x1400 ∧ o % 16 = 8 then
    if bitRises old new 0 then
      s.modRing ((o - 0x400) / 16) (fun r => { r with prod := 0, cons := 0, stopped := false, stalled := 0, served := 0 })
    else s
  else if 0x1400 ≤ o ∧ o < 0x1800 then s.signalIf ((o - 0x1400) / 4)
  else if 0x1800 ≤ o ∧ o < 0x3800 ∧ o % 16 = 12 then
    let v := (o - 0x1800) / 16
    if bitRises new old 0 && Tab.get (fun _ => false) s.hif.pba v then
      { s with hif := { s.hif with pba := Tab.set (fun _ => false) s.hif.pba v false } }.msix v
    else s
  else s

/-! TIME. -/

/-- A TIME_FT_LOAD pulse that acts (R63). -/
def State.ftLoad (s : State) : State := { s with time := { s.time with load := true } }

/-- Effects in the TIME window: TICK_RUN changes from 1 to 0 (R57), a load of FT. -/
def State.afterTime (s : State) (o : Nat) (old new v : Word) : State :=
  if o = 0 then (if bitRises new old 0 then s.tickRunFell else s)
  else if o = 0x2C ∧ bitOf v 0 then s.ftLoad
  else s

/-! CLK. -/

/-- Whether a PLL's chosen reference is present, as the state shows it. -/
def State.refPresent (s : State) (p : Pll) : Bool :=
  match p, s.refsel p with
  | .spll, 1 => s.clk.fpll.st == .locked || s.clk.fpll.st == .holdover
  | .fpll, 1 => s.clk.ref10m
  | .fpll, 2 => s.linkUp (s.fld (aPll .fpll) 16 4)
  | _, _ => !s.clk.xoLost

/-- CLK_x_CTRL is written: a new reference (R104), then ENABLE (R88, R108). -/
def State.afterPllCtrl (s : State) (p : Pll) (old new : Word) (present : Option Bool) : State :=
  let moved := fieldChanges old new 14 2 || (p == .fpll && bits new 14 2 == 2 && fieldChanges old new 16 4)
  let s := if moved then s.refChanged p (present.getD (s.refPresent p)) else s
  if bitRises old new 0 then s.pllWake p
  else if bitRises new old 0 then s.pllOff p
  else s

/-- CLK_x_FCW_APPLY: the SPLL starts a small step (R92); a PLL that is off takes its held words when it is enabled. -/
def State.fcwApply (s : State) (p : Pll) : State :=
  if p = .spll then
    let x := { s.heldPoint .spll with post := s.clk.point.post }
    s.modClk (fun c => { c with ramp := some ⟨c.fcw, 0, bits (s.reg (wClk + 0x108)) 0 13, x⟩ })
  else s

/-- The point and entry in CLK_BT_LOAD0-3. -/
def State.loadEntry (s : State) : BitVec 128 :=
  s.reg (wClk + 0x12C) ++ (s.reg (wClk + 0x128) ++ (s.reg (wClk + 0x124) ++ s.reg (wClk + 0x120)))

/-- Effects in the CLK window. -/
def State.afterClk (s : State) (o : Nat) (old new v : Word) (present : Option Bool) : State :=
  if o < 0x100 then
    let p := pllOf (o / 0x40)
    let r := o % 0x40
    let s := if r = 0 then s.afterPllCtrl p old new present
      else if r = 0x10 ∧ bitOf v 0 then s.fcwApply p else s
    if p = .spll && r < 0x10 && s.heldRules then s.republish else s
  else if o = 0x100 then (if bitOf v 31 then s.hopStart (bits new 0 6) else s)
  else if o = 0x104 then
    if bitOf v 31 then s.modClk (fun c => { c with idle := .search (bits new 0 6) (entryPoint s.loadEntry) }) else s
  else if o = 0x10C then s.pendAdd (v.setWidth 16 : BitVec 16).toInt
  else if o = 0x130 then
    if bitOf v 31 then (s.setEntry (bits new 0 6) s.loadEntry).republish else s
  else if o = 0x280 then s.modClk (fun c => { c with applyMask := c.applyMask ||| v.setWidth 12 })
  else s

/-! FIRN and MOR. -/

/-- FIRN_CMD (06 R166, R171): a repair, or the retirement of a region. -/
def State.firnCmd (s : State) (v : Word) (rq : Requester) : State :=
  if bits v 30 2 = 1 then (s.bankWait (bits v 0 8)).copyStart
  else if bits v 30 2 = 2 then s.commanded uRegion (bits v 0 15) rq
  else s

/-- Effects in the MOR window. -/
def State.afterMor (s : State) (o : Nat) (old new v : Word) : State :=
  if o = 0 then
    if old = new then s else { s with mor := { s.mor with gen := s.mor.gen + 1 } }
  else if 0x1000 ≤ o then
    let n := (o - 0x1000) / 0x400
    match (o - 0x1000) % 0x400 with
    | 0x00 => if bitRises old new 0 then s.trainStart n else s
    | 0x84 => s.modChan n (fun x => { x with
        timing := Tab.set (fun _ => (0 : BitVec 16)) x.timing (s.fld (aCh n + 0x80) 0 5) (v.setWidth 16) })
    | 0x8C => s.modChan n (fun x => { x with
        delay := Tab.set (fun _ => (0 : BitVec 12)) x.delay (s.reg (aCh n + 0x88)).toNat (v.setWidth 12) })
    | 0x100 => if bitOf v 31 then s.thStart n else s
    | _ => s
  else s

/-! SEQ, MKR, ANG. -/

/-- Effects in a sequencer's window. A commit governs from sample 0 of the core cycle that it opens (R80), a direct write from
the next core-cycle boundary. -/
def State.afterSeq (s : State) (n o : Nat) (old new : Word) (staged : Bool) : State :=
  if 0x20 ≤ o ∧ o < 0x40 then s.slotLoad n ((o - 0x20) / 4)
  else if 0x60 ≤ o ∧ o < 0x80 ∧ staged then s.trigRedo n ((o - 0x60) / 4)
  else if o = 0x80 then s.flagsWritten n (s.sampleUp n (s.fastNow (if staged then 0 else 16)))
  else if o = 0x100 then
    let s := if n = 8 && fieldChanges old new 0 16 then
        s.reanchor (16 * max 1 (bits old 0 16)) (s.fastNow (if staged then 0 else 16)) else s
    s.txWritten n
  else s

/-- Effects in the MKR window: a pair restarts (R253), a pattern preloads (R249). -/
def State.afterMkr (s : State) (o : Nat) : State :=
  if 0x200 ≤ o ∧ o < 0x280 then
    let k := (o - 0x200) / 4
    s.setPair k { s.pair k with restart := true }
  else if 0x1000 ≤ o ∧ (o % 0x20 = 4 ∨ o % 0x20 = 8 ∨ o % 0x20 = 12) then s.patternPreload ((o - 0x1000) / 0x20)
  else s

/-- Effects in the ANG window (R258, R262): a commit arms from the core cycle that it opens (R80), a direct write from the next
one. -/
def State.afterAng (s : State) (o : Nat) (staged : Bool) : State :=
  if o = 0 ∨ o = 0x100 then s.trkWritten (o / 0x100)
  else if 0x400 ≤ o then s.arm ((o - 0x400) / 4) (s.fastNow (if staged then 0 else 16))
  else s

/-! TLA, CLE, NZL, FLT, HK. -/

/-- Effects in the TLA window; a swap that a set requests acts where its scope becomes live (R279). -/
def State.afterTla (s : State) (o : Nat) (v : Word) (staged : Bool) : State :=
  if o = 0x04 ∧ bitOf v 0 then (if staged then s.tlaSwap else s.modTla (fun t => { t with swapPending := true }))
  else if o = 0x08 ∧ bitOf v 0 then
    (if s.tla.checkBusy then s else s.modTla (fun t => { t with checkBusy := true, checkAt := t.clock }))
  else if o = 0x28 then s.tlaStore v
  else s

/-- Effects in the CLE window. -/
def State.afterCle (s : State) (o : Nat) (old new v : Word) : State :=
  if o = 0x10 ∨ o = 0x14 then s.rxWritten ((o - 0x10) / 4)
  else if 0x1000 ≤ o then
    let n := (o - 0x1000) / 0x80
    match (o - 0x1000) % 0x80 with
    | 0x00 => (s.slotWritten n).republish
    | 0x0C => (if bitRises old new 31 then s.repStart n else s).republish
    | 0x24 => s.coefWrite n v
    | _ => s
  else s

/-- NZL_CMD (R343): ELECT acts in MEMBER and ROOT, REENUM in ROOT. -/
def State.nzlCmd (s : State) (op : Nat) : State :=
  if op = 1 then (if s.nzl.st = .member ∨ s.nzl.st = .root then s.electEnter else s)
  else if op = 2 then (if s.nzl.st = .root then s.enumEnter else s)
  else s

/-- Effects in the NZL window. -/
def State.afterNzl (s : State) (o : Nat) (v : Word) : State :=
  if o = 0 then s.nodeWritten
  else if o = 0x18 then s.nzlCmd (bits v 0 2)
  else if 0x1000 ≤ o ∧ o % 0x40 = 0 then s.linkWritten ((o - 0x1000) / 0x40)
  else s

/-- Effects in the HK window: a reset, a load from the host, a mailbox command taken up (R383, R389, R392). -/
def State.afterHk (s : State) (o : Nat) (v : Word) (crcOk : Option Bool) : State :=
  match o with
  | 0x08 => if bitOf v 1 then s.doReset .full else if bitOf v 0 then s.doReset .core else s
  | 0x14 =>
    if bitOf v 31 then
      match crcOk with
      | some b => s.hostLoad b
      | none =>
        let (x, s) := s.freeVal 1
        s.hostLoad (bitOf x 0)
    else s
  | 0x104 => if bitOf v 16 || s.pins.tripped then s else { s with pins := { s.pins with thermN := true } }
  | 0x20 => s.modHk (fun h => { h with busy := true, cmd := some (BitVec.ofNat 8 (bits v 24 8)), seq := BitVec.ofNat 8 (bits v 16 8) })
  | _ => s

/-- Whether an address is that of a DLY_VAL register: delays are written in any channel state (07 R199). -/
def dlyVal (a : Nat) : Bool := decide (wMor + 0x1000 ≤ a) && decide (a < wMor + 0x2000) && (a - wMor - 0x1000) % 0x400 == 0x8C

/-- What the write of the register at base address `a` does beyond its stored bits: `old` and `new` are those bits, `v` the
value with its WO and WP fields as written, `staged` tells a commit from a direct write. A write to a retired unit's
register has no effect on the unit (R378), but for a delay (07 R199). -/
def State.afterWrite (s : State) (rq : Requester) (a : Nat) (old new v : Word) (staged : Bool) (h : Hint) : State :=
  let o := a % 0x10000
  if (scopesOf a).any s.scopeGone && !(a / 0x10000 == 0x06 && decide (o < 0x1000)) && !dlyVal a then s
  else match a / 0x10000 with
  | 0x01 => s.afterHif o old new
  | 0x02 => s.afterTime o old new v
  | 0x03 => s.afterClk o old new v h.present
  | 0x04 => if o = 0x14 then s.firnCmd v rq else s
  | 0x05 => s.afterMor o old new v
  | 0x06 => s.afterMkr o
  | 0x07 => s.afterAng o staged
  | 0x08 => s.afterTla o v staged
  | 0x09 => s.afterCle o old new v
  | 0x0A => s.afterNzl o v
  | 0x0B => if o = 0 then s.commanded (bits v 28 4) (bits v 0 16) rq else s
  | 0x0C => s.afterHk o v h.crcOk
  | w => if 0x10 ≤ w ∧ w < 0x28 then s.afterSeq (w - 0x10) o old new staged else s

end Sys2Proof.Machine
end

