-- ==== Sys2Proof/Machine/Bus.lean ====
section
/-!
DEFINITION. Reading and writing the part through BAR0: windows, quarters, partial accesses, arms, rejections, the mailbox,
the shadow comparison and upsets (02 R34 to R54, 04 R107).
-/

namespace Sys2Proof.Machine

/-! Windows. -/

/-- Whether the register window with a code has a stopped clock (R107). -/
def State.windowStopped (s : State) (w : Nat) : Bool :=
  !s.domainRuns (match w with
    | 0x02 | 0x06 | 0x07 | 0x08 => 2
    | 0x05 => 40
    | 0x0A => 45
    | _ => if 0x10 ≤ w then 2 else 33)

/-- Whether an offset lies outside every window, or in one whose clock has stopped (R34, R35, R107). -/
def State.outside (s : State) (off : Nat) : Bool := !isWindow (off / 0x10000) || s.windowStopped (off / 0x10000)

/-- Whether a requester reaches BAR0: a POR or FULL reset holds everything, and the host needs decoded BARs (R116, R387). -/
def State.reaches (s : State) (rq : Requester) : Bool :=
  s.hk.inReset != some .por && s.hk.inReset != some .full &&
    (rq == .housekeeping || (s.hif.decoding && !s.hif.d3hot))

/-- The key under which the RC bits of a requester's tail register at offset `o` of a window are held as set in the current
core cycle (R15, R38). -/
def ctxKey (w : Nat) (rq : Requester) (o : Nat) : Nat := Requester.code rq * 2 ^ 25 + w * 0x10000 + o

/-- Change a context. -/
def State.modCtx (s : State) (w : Nat) (rq : Requester) (f : Ctx → Ctx) : State := s.setCtx w rq (f (s.ctx w rq))

/-- Base address of the register that a BAR0 offset reaches in any quarter. -/
def baseOf (off : Nat) : Nat := off / 0x10000 * 0x10000 + off % 0x4000

/-- The quarter of a BAR0 offset: 0 base, 1 set, 2 clear, 3 toggle. -/
def quarterOf (off : Nat) : Nat := off % 0x10000 / 0x4000

/-! Writes. -/

/-- The write fields of a row: WO and WP. -/
def RegRow.requestMask (r : RegRow) : Word := r.mask .wo ||| r.mask .wp

/-- RW bits after a write through a quarter (R39). -/
def aliasOp (q : Nat) (old v : Word) : Word :=
  match q with
  | 0 => v
  | 1 => old ||| v
  | 2 => old &&& ~~~ v
  | _ => old ^^^ v

/-- Stored bits after a write, and the value with WO and WP fields as written (R39). -/
def RegRow.written (r : RegRow) (q : Nat) (old v : Word) : Word × Word :=
  let m := r.mask .rw
  let new := (old &&& ~~~ m) ||| (aliasOp q old v &&& m)
  (new, if q = 0 then new ||| (v &&& r.requestMask) else new)

/-- Why a direct write to a register is discarded, by the first cause that applies (R45): guard, encoding, block rule. -/
def State.refusal (s : State) (r : RegRow) (a : Nat) (v : Word) (armed : Bool) : Option (Nat × Rej) :=
  if r.guarded && !armed then some (1, {})
  else if !r.encOk v then some (2, {})
  else match s.blockRule a v .direct with
    | none => none
    | some x => some (if x.enc then 2 else 5, x)

/-- Status bit of a cause in BLK_STATUS. -/
def causeBit (cause : Nat) : BitVec 5 :=
  match cause with
  | 1 => 0x02
  | 2 => 0x04
  | 3 => 0x08
  | 4 => 0x10
  | _ => 0

/-- Status bits of a requester's BLK_STATUS are set (R14, R15). -/
def State.setStatus (s : State) (w : Nat) (rq : Requester) (m : BitVec 5) : State :=
  (s.modCtx w rq (fun c => { c with status := c.status ||| m })).freshen (ctxKey w rq 0x3FF4) (m.setWidth 32)

/-- Record a discarded write in its requester's context (R45). -/
def State.reject (s : State) (rq : Requester) (off cause : Nat) : State :=
  (s.setStatus (off / 0x10000) rq (causeBit cause)).modCtx (off / 0x10000) rq (fun c => { c with
    rejInfo := BitVec.ofNat 32 (cause * 2 ^ 28 + Requester.code rq * 2 ^ 26 + off % 0x10000) })

/-- What the rule that discards a write does besides: its status bit, its counter, the shortfall of R60. -/
def State.rejEffects (s : State) (x : Rej) : State :=
  let s := match x.bit with
    | some (a, i) => s.raise a (bit1 i)
    | none => s
  let s := match x.cnt with
    | some a => s.bump a
    | none => s
  match x.short with
  | some n => { s with time := { s.time with short := n } }
  | none => s

/-- The common tail's writes in the base quarter: the mailbox selector and the unlock register (R43, R50). -/
def State.writeTail (s : State) (rq : Requester) (w o : Nat) (v : Word) (wasArmed : Bool) : State :=
  if o = 0x3FC0 then
    s.modCtx w rq (fun c => { c with
      space := BitVec.ofNat 8 (bits v 16 8), index := v.setWidth 16, valid := false, selErr := false, pendingCapture := true })
  else if o = 0x3FF0 then
    if v = 0x00007A3C then s.modCtx w rq (fun c => { c with arm := true })
    else if wasArmed then (s.modCtx w rq (fun c => { c with arm := false })).setStatus w rq 1
    else s
  else s

/-- The rank of a requester's writes within one core cycle: housekeeping's are applied after the host's (R38), a commit's
after both (R47). -/
def landRank (rq : Requester) : Nat := match rq with | .host => 0 | .housekeeping => 1

/-- The writes that have landed on a register in this core cycle at ranks above `k`: bits fixed, bits inverted. -/
def State.landedOver (s : State) (a k : Nat) : Word × Word :=
  ((List.range 3).filter (fun i => decide (k < i))).foldl (fun m i =>
    let x := Tab.get (fun _ => ((0 : Word), (0 : Word))) s.landed (4 * a + i)
    (m.1 ||| x.1, m.2 ^^^ x.2)) (0, 0)

/-- A write of rank `k` through quarter `q` has landed on a register whose RW fields have a mask. -/
def State.land (s : State) (a k q : Nat) (m v : Word) : State :=
  let x := Tab.get (fun _ => ((0 : Word), (0 : Word))) s.landed (4 * a + k)
  let y : Word × Word := match q with
    | 0 => (x.1 ||| m, x.2)
    | 3 => (x.1, x.2 ^^^ (v &&& m))
    | _ => (x.1 ||| (v &&& m), x.2)
  { s with landed := Tab.set (fun _ => ((0 : Word), (0 : Word))) s.landed (4 * a + k) y }

/-- Stored bits after a write of rank `k`: what later-ranking writes of the same core cycle fixed or inverted is applied
after it (R38, R47). -/
def State.landing (s : State) (r : RegRow) (a k q : Nat) (v : Word) : Word :=
  let (f, t) := s.landedOver a k
  let t := t &&& ~~~ f
  (s.reg a &&& f) ||| (((r.written q (s.reg a ^^^ t) v).1 ^^^ t) &&& ~~~ f)

/-- An accepted write (R38, R39, R47, R53). Requests and pulses of writes in one core cycle act in the order of their
arrival (DESIGN CHOICE, log 32). -/
def State.accept (s : State) (rq : Requester) (r : RegRow) (a q : Nat) (v : Word) (h : Hint) : State :=
  let old := s.reg a
  let new := s.landing r a (landRank rq) q v
  let full := if q = 0 then new ||| (v &&& r.requestMask) else new
  (if r.mask .rw = 0 then s else (s.setReg a new).land a (landRank rq) q (r.mask .rw) v).afterWrite rq a old new full false h

/-- A write that has reached its window: the arm, the causes of R45 in their order, the write itself. -/
def State.writeIn (s : State) (rq : Requester) (off : Nat) (be : BitVec 4) (v : Word) (h : Hint) : State :=
  let w := off / 0x10000
  let o := off % 0x4000
  let a := baseOf off
  let q := quarterOf off
  let row := if o < 0x3FC0 then rowOf a else none
  let armed := (s.ctx w rq).arm
  let guarded := match row with | some r => r.guarded | none => false
  let s := if armed then (s.modCtx w rq (fun c => { c with arm := false })).setStatus w rq (if guarded then 0 else 1) else s
  if be ≠ 0xF then s.reject rq off 4
  else if 0x3FC0 ≤ o then
    if q = 0 then s.writeTail rq w o v armed
    else if (0x3FC8 ≤ o ∧ o < 0x3FD0) ∨ (0x3FE0 ≤ o ∧ o < 0x3FF0) then s
    else s.reject rq off 3
  else match row with
    | none => s
    | some r =>
      if q ≠ 0 && !r.aliases then s.reject rq off 3
      else if r.mask .rw ||| r.requestMask = 0 then s
      else match s.refusal r a (r.written q (s.reg a) v).2 armed with
        | some (cause, x) => (s.reject rq off cause).rejEffects x
        | none => s.accept rq r a q v h

/-- A single-register write at a BAR0 offset (R34 to R45): the offset is the register's, its low bits are zero. -/
def State.busWrite (s : State) (rq : Requester) (off : Nat) (be : BitVec 4) (v : Word) (h : Hint := {}) : State :=
  if !s.reaches rq then s
  else if s.outside off then
    { s with top := { s.top with outsideAddr := BitVec.ofNat 25 off } }.raise 0x30 1
  else s.writeIn rq (off / 4 * 4) be v h

/-- A write request: the register at an offset and the ones after it, as successive single-register writes in ascending
address order (R36). -/
def State.busWrites (s : State) (rq : Requester) (off : Nat) (l : List (BitVec 4 × Word)) : State :=
  s.each ((List.range l.length).zip l) (fun s x => s.busWrite rq (off + 4 * x.1) x.2.1 x.2.2)

/-! Reads. -/

/-- A read of a mailbox data word (R48, R51). -/
def State.readData32 (s : State) (rq : Requester) (w d : Nat) (m : Word) : Word × State :=
  let c := s.ctx w rq
  if !c.valid then (0, (s.modCtx w rq (fun c => { c with earlyRead := true })).freshen (ctxKey w rq 0x3FC4) (bit1 2))
  else
    let v : Word := (c.capture >>> (32 * d)).setWidth 32 &&& m
    (v, if d = 3 then s.modCtx w rq (fun c => { c with valid := false }) else s)

/-- A read of the common tail. -/
def State.readTail (s : State) (rq : Requester) (w o : Nat) (m : Word) : Word × State :=
  let c := s.ctx w rq
  match o with
  | 0x3FC0 => ((c.space.setWidth 32 <<< 16 ||| c.index.setWidth 32) &&& m, s)
  | 0x3FC4 =>
    (word32 [(2, b01 c.earlyRead), (1, b01 c.selErr), (0, b01 c.valid)] &&& m,
      if bitOf m 2 && !bitOf (s.freshAt (ctxKey w rq 0x3FC4)) 2 then s.modCtx w rq (fun c => { c with earlyRead := false })
      else s)
  | 0x3FD0 => s.readData32 rq w 0 m
  | 0x3FD4 => s.readData32 rq w 1 m
  | 0x3FD8 => s.readData32 rq w 2 m
  | 0x3FDC => s.readData32 rq w 3 m
  | 0x3FF4 =>
    (word32 [(5, b01 c.arm), (0, c.status.toNat)] &&& m,
      s.modCtx w rq (fun c => { c with
        status := c.status &&& ~~~ (m &&& ~~~ s.freshAt (ctxKey w rq 0x3FF4)).setWidth 5 }))
  | 0x3FF8 => (c.rejInfo &&& m, s)
  | 0x3FFC => (BitVec.ofNat 32 w &&& m, s)
  | _ => (0, s)

/-- A single-register read at a BAR0 offset: the data, and the state with its RC fields cleared in the enabled bytes (R15,
R36, R39). -/
def State.busRead (s : State) (rq : Requester) (off : Nat) (be : BitVec 4) : Word × State :=
  let m := laneMask be
  let o := off % 0x4000 / 4 * 4
  let a := baseOf off / 4 * 4
  if !s.reaches rq || s.outside off || quarterOf off ≠ 0 then (0, s)
  else if 0x3FC0 ≤ o then s.readTail rq (off / 0x10000) o m
  else match rowOf a with
    | none => (0, s)
    | some r =>
      let t := s.putReg a (s.reg a &&& ~~~ (r.mask .rc &&& m &&& ~~~ s.freshAt a))
      (s.readReg a &&& m, t)

/-- A read request: the register at an offset and the ones after it, as successive single-register reads in ascending
address order (R36); the words so far come first. -/
def State.busReads (s : State) (rq : Requester) (off : Nat) : List (BitVec 4) → List Word → List Word × State
  | [], got => (got, s)
  | be :: l, got =>
    let (v, t) := s.busRead rq off be
    State.busReads t rq (off + 4) l (got ++ [v])

/-- A read request whose data the requester receives. -/
def State.readBack (s : State) (rq : Requester) (off : Nat) (be : BitVec 4) (rest : List (BitVec 4) := []) : State :=
  if !s.reaches rq then s
  else
    let (v, t) := s.busReads rq off (be :: rest) []
    match rq with
    | .host => { t with readData := { t.readData with host := v } }
    | .housekeeping => { t with readData := { t.readData with housekeeping := v } }

/-! Captures (R49, R50). -/

/-- The capture of a context's selected wide value. -/
def State.capture (s : State) (w : Nat) (rq : Requester) : State :=
  let c := s.ctx w rq
  if !c.pendingCapture || s.windowStopped w then s
  else match s.wideValue w c.space.toNat c.index.toNat with
    | some v => s.modCtx w rq (fun c => { c with pendingCapture := false, valid := true, selErr := false, capture := v })
    | none => s.modCtx w rq (fun c => { c with pendingCapture := false, valid := true, selErr := true, capture := 0 })

/-- Every capture that is due. -/
def State.captures (s : State) : State :=
  s.each (s.ctxs.filter (fun e => e.2.pendingCapture)) (fun s e =>
    s.capture (e.1 / 2) (if e.1 % 2 = 0 then .host else .housekeeping))

/-! Shadow comparison and upsets (R53, R54). -/

/-- Whether a register acts by the level of its fields, so that a change that is no write acts too (R57, R108). -/
def levelDriven (a : Nat) : Bool :=
  let w := a / 0x10000
  let o := a % 0x10000
  if w = 0x02 then o == 0
  else if w = 0x03 then o < 0x100 && o % 0x40 == 0
  else if w = 0x05 then decide (0x1000 ≤ o) && o % 0x400 == 0
  else if w = 0x07 then o == 0 || o == 0x100
  else if w = 0x09 then o == 0x10 || o == 0x14 || (decide (0x1000 ≤ o) && o % 0x80 == 0)
  else if w = 0x0C then o == 0x104
  else if w = 0x0A then o == 0 || (decide (0x1000 ≤ o) && o % 0x40 == 0)
  else decide (0x10 ≤ w) && (o == 0x80 || o == 0x100)

/-- A change of a register's live bits that is no write: the unit follows the level of its fields. -/
def State.changeLive (s : State) (a : Nat) (v : Word) : State :=
  let old := s.reg a
  let t := s.putReg a v
  if levelDriven a && old != v then t.afterWrite .housekeeping a old v v false {} else t

/-- One register in the shadow comparison. -/
def State.compareOne (s : State) (a : Nat) : State :=
  match rowOf a with
  | none => s
  | some r =>
    let m := r.mask .rw
    let live := s.reg a
    let sh := s.shadowAt a
    if !r.guarded || s.windowStopped (a / 0x10000) || (live ^^^ sh) &&& m = 0 then s
    else
      let last := BitVec.ofNat 32 (a / 0x10000 * 2 ^ 24 + a % 0x10000)
      let s := (s.changeLive a ((live &&& ~~~ m) ||| (sh &&& m))).bump 0x40
      ({ s with top := { s.top with shadowLast := last } }).detect 0x01 0 0 last

/-- The comparison of every shadowed register, in ascending address order. -/
def State.compareShadows (s : State) : State :=
  if !s.hk.fw then s
  else
    let l : Tab Unit := (s.regs.filter (fun e => guardedAt e.1)).map (fun e => (e.1, ()))
    let keys := s.shadow.foldl (fun t e => Tab.insert t e.1 ()) l
    s.each (keys.map (fun e => e.1)) State.compareOne

/-- The live bits of a register that an upset may flip: its stored fields. -/
def RegRow.storedMask (r : RegRow) : Word := r.mask .rw ||| r.mask .rc

/-- A number with bit `i` flipped. -/
def flipNat (n i : Nat) : Nat := n ^^^ 2 ^ i

/-- An upset of a held read-only value of TOP, TIME or CLK: identification, addresses and costs that the part has stored. -/
def State.upsetHeldA (s : State) (w o i : Nat) : State :=
  if w = 0 then
    let t := s.top
    { s with top := match o with
        | 0x08 => { t with fwVersion := t.fwVersion ^^^ bit1 i }
        | 0x0C =>
          if 28 ≤ i then { t with morPresent := t.morPresent ^^^ BitVec.ofNat 4 (2 ^ (i - 28)) }
          else if 20 ≤ i then { t with linkPresent := t.linkPresent ^^^ BitVec.ofNat 8 (2 ^ (i - 20)) }
          else if 8 ≤ i then { t with firnMib := t.firnMib ^^^ BitVec.ofNat 12 (2 ^ (i - 8)) }
          else t
        | 0x34 => { t with outsideAddr := t.outsideAddr ^^^ BitVec.ofNat 25 (2 ^ i) }
        | 0x44 => { t with shadowLast := t.shadowLast ^^^ (bit1 i &&& 0xFF00FFFF) }
        | _ => t }
  else if w = 2 then
    if 19 ≤ i then s
    else
      let t := s.time
      { s with time := match o with
          | 0x3C => { t with short := flipNat t.short i }
          | 0x40 => { t with costLaw := flipNat t.costLaw i }
          | 0x44 => { t with costSup := flipNat t.costSup i }
          | _ => t }
  else if w = 3 ∧ o < 0x100 ∧ o % 0x40 = 0x20 then
    s.modPll (pllOf (o / 0x40)) (fun x => { x with phaseErr := x.phaseErr ^^^ bit1 i })
  else s

/-- An upset of a held read-only value of a store, the TLA, the control engine, the fabric, the fault engine or
housekeeping: results, error addresses, signatures, counts. -/
def State.upsetHeldB (s : State) (w o i : Nat) : State :=
  match w with
  | 0x04 => if o = 0x60 then { s with firn := { s.firn with lastErr := s.firn.lastErr ^^^ bit1 i } } else s
  | 0x05 =>
    if 0x1000 ≤ o then
      s.modChan ((o - 0x1000) / 0x400) (fun x => match (o - 0x1000) % 0x400 with
        | 0x110 =>
          if i < 16 then { x with thErrors := x.thErrors ^^^ BitVec.ofNat 16 (2 ^ i) }
          else if i < 24 then { x with thMrr := x.thMrr ^^^ BitVec.ofNat 8 (2 ^ (i - 16)) }
          else x
        | 0x114 => { x with thDq := x.thDq ^^^ bit1 i }
        | 0x118 => { x with thCb := x.thCb ^^^ BitVec.ofNat 8 (2 ^ i) }
        | _ => x)
    else s
  | 0x08 => s.modTla (fun t => match o with
      | 0x34 =>
        if 28 ≤ i then { t with resErr := t.resErr ^^^ BitVec.ofNat 4 (2 ^ (i - 28)) }
        else if 16 ≤ i then { t with resCell := t.resCell ^^^ BitVec.ofNat 10 (2 ^ (i - 16)) }
        else { t with resDepth := t.resDepth ^^^ BitVec.ofNat 8 (2 ^ i) }
      | 0x40 => { t with sigRef := t.sigRef ^^^ bit1 i }
      | 0x44 => { t with sigLast := t.sigLast ^^^ bit1 i }
      | _ => t)
  | 0x09 => if o = 0x38 then { s with cle := { s.cle with sweeps := s.cle.sweeps ^^^ bit1 i } } else s
  | 0x0A =>
    if o = 0x24 then
      { s with nzl :=
          if 16 ≤ i then { s.nzl with gen := s.nzl.gen ^^^ BitVec.ofNat 16 (2 ^ (i - 16)) }
          else if i < 12 then { s.nzl with rootAddr := s.nzl.rootAddr ^^^ BitVec.ofNat 12 (2 ^ i) }
          else s.nzl }
    else s
  | 0x0B => if o = 0x10 then { s with flt := { s.flt with logCount := s.flt.logCount ^^^ bit1 i } } else s
  | 0x0C =>
    if 0x38 ≤ o ∧ o < 0x48 then
      let k := (o - 0x38) / 4
      s.modHk (fun h => { h with res := Tab.set (fun _ => 0) h.res k (Tab.get (fun _ => 0) h.res k ^^^ bit1 i) })
    else s
  | _ => s

/-- An upset of a held read-only value (R16). State codes, live levels and what is computed when it is read hold no register
bit of their own; the straps are pins' sampled levels (DESIGN CHOICE, log 33). -/
def State.upsetHeld (s : State) (a i : Nat) : State :=
  (s.upsetHeldA (a / 0x10000) (a % 0x10000) i).upsetHeldB (a / 0x10000) (a % 0x10000) i

/-- An upset in a context of a window that exists. -/
def State.upsetCtx (s : State) (w : BitVec 8) (rq : Requester) (f : Ctx → Ctx) : State :=
  if isWindow w.toNat then s.modCtx w.toNat rq f else s

/-- An upset (R16, R54). -/
def State.upset (s : State) (u : Upset) : State :=
  match u with
  | .register off i =>
    let a := baseOf off.toNat / 4 * 4
    if !isWindow (a / 0x10000) then s
    else match rowOf a with
      | none => s
      | some r =>
        if bitOf r.storedMask i.val then s.changeLive a (s.reg a ^^^ bit1 i.val) else s.upsetHeld a i.val
  | .selector rq w i => s.upsetCtx w rq (fun c =>
      if i.val < 16 then { c with index := c.index ^^^ BitVec.ofNat 16 (2 ^ i.val) }
      else { c with space := c.space ^^^ BitVec.ofNat 8 (2 ^ (i.val - 16)) })
  | .selErr rq w => s.upsetCtx w rq (fun c => { c with selErr := !c.selErr })
  | .earlyRead rq w => s.upsetCtx w rq (fun c => { c with earlyRead := !c.earlyRead })
  | .arm rq w => s.upsetCtx w rq (fun c => { c with arm := !c.arm })
  | .capture rq w i => s.upsetCtx w rq (fun c => { c with capture := c.capture ^^^ BitVec.ofNat 128 (2 ^ i.val) })
  | .valid rq w => s.upsetCtx w rq (fun c => { c with valid := !c.valid })
  | .status rq w i => s.upsetCtx w rq (fun c => { c with status := c.status ^^^ BitVec.ofNat 5 (2 ^ i.val) })
  | .rejection rq w i => s.upsetCtx w rq (fun c => { c with rejInfo := c.rejInfo ^^^ bit1 i.val })

end Sys2Proof.Machine
end

