-- ==== Sys2Proof/Machine/Commit.lean ====
section
/-!
DEFINITION. Staged configuration sets: the checks at the staging store, the check at the start of a commit, how entries
become live, and completion (03 R76 to R83, R427).
-/

namespace Sys2Proof.Machine

/-! Entries (R76). -/

/-- WINDOW, OP, GUARDED, base-window offset and VALUE of an entry. -/
def entWindow (e : BitVec 64) : Nat := bits e 56 8
/-- OP. -/
def entOpc (e : BitVec 64) : Nat := bits e 54 2
/-- GUARDED. -/
def entGuarded (e : BitVec 64) : Bool := bitOf e 53
/-- Base address of the register an entry names. -/
def entAddr (e : BitVec 64) : Nat := entWindow e * 0x10000 + 4 * bits e 32 12
/-- VALUE. -/
def entValue (e : BitVec 64) : Word := e.setWidth 32

/-- Whether R77 rejects an entry. -/
def entryBad (e : BitVec 64) : Bool :=
  if !isWindow (entWindow e) || decide (0x3FC0 ≤ 4 * bits e 32 12) then true
  else match rowOf (entAddr e) with
    | none => true
    | some r => (entOpc e != 0 && !r.aliases) || entGuarded e != r.guarded

/-- AUX of the fault of R77 in a set of 8-byte entries whose header says ENTRY_COUNT `n`; `none` where it has none. A
set whose length is not what its ENTRY_COUNT says is faulty in its header (DEDUCED from R124, log 27). -/
def setFault (n : Nat) (entries : List (BitVec 64)) : Option Nat :=
  if n = 0 || 510 < n || entries.length != n then some 0xFFFFFFFF
  else (entries.findIdx? entryBad).map (fun i => 2 ^ 31 + i)

/-- The staged set of an image, for a descriptor of a ring. -/
def imageSet (rq : Requester) (ring : Nat) (d : Desc) (image : List (BitVec 64)) : SSet :=
  let hi := image.getD 1 0
  { rq := rq, ring := ring, slot := d.slot, tag := d.dw 0, intr := d.intr, quiet := d.quiet,
    asap := bitOf hi 32, commitFt := (hi.setWidth 16 : BitVec 16) ++ image.getD 0 0, entries := image.drop 2,
    dueFt := none, dueTick := 0 }

/-! Arrival at the staging store (R68, R77). -/

/-- FT with fraction at which the earliest begun tick at or after a time began. -/
def dueBegun (t : Nat) : List (FTime × Option FTime) → Option Nat
  | [] => none
  | (a, _) :: l => if a.toNat < t then none else some ((dueBegun t l).getD a.toNat)

/-- Set x arrives at the staging store, its fault of R77 already found. -/
def State.setArrive (s : State) (x : SSet) (fault : Option Nat) : State :=
  match fault with
  | some aux => s.setCpl x sConfig 0 aux false 0
  | none =>
    if !x.asap && !s.time.ftValid then s.setCpl x sUnlocked 0 s.node.toNat false 0
    else if 16 ≤ s.time.sets.length then s.setCpl x sBusy 0 4 false 0
    else match (if x.asap then none else dueBegun (ftScale x.commitFt) s.time.begun) with
      | some b => s.setCpl x sLate ((s.ftN - b) / 2 ^ 32) 0 false 0
      | none => { s with time := { s.time with sets := s.time.sets ++ [x] } }

/-! The check at the start of a commit (R78). -/

/-- Entries in the order of application: ascending WINDOW, set order within one window (R79). -/
def applyOrder (l : List (Nat × BitVec 64)) : List (Nat × BitVec 64) :=
  (List.range 0x28).flatMap (fun w => l.filter (fun e => entWindow e.2 == w))

/-- One entry against the projection: the projection with it applied and the entry as it will act, or the status and AUX
that fail the set. -/
def State.projectEntry (s : State) (i : Nat) (e : BitVec 64) : Except (Nat × Nat) (State × PEntry) :=
  let a := entAddr e
  match rowOf a with
  | none => .error (sConfig, 2 ^ 31 + i)
  | some r =>
    let (new, full) := r.written (entOpc e) (s.reg a) (entValue e)
    if !r.encOk full then .error (sConfig, 2 ^ 31 + i)
    else match s.blockRule a full .check with
      | none => .ok (s.putReg a new, ⟨i, a, full⟩)
      | some x => if x.gone then .error (sRetired, 0) else .error (sConfig, 2 ^ 31 + i)

/-- Every entry in order against the projection. -/
def State.project (s : State) : List (Nat × BitVec 64) → List PEntry → Except (Nat × Nat) (State × List PEntry)
  | [], done => .ok (s, done)
  | (i, e) :: l, done =>
    match s.projectEntry i e with
    | .error f => .error f
    | .ok (t, p) => State.project t l (done ++ [p])

/-- The point at whose rate the budget of a set is judged (R60, R98): the target of a hop that it requests, else the point that
the checks take after it. -/
def State.setPointOf (t : State) (entries : List PEntry) : Point :=
  match entries.find? (fun e => e.addr == wClk + 0x100 && bitOf e.value 31) with
  | some e => entryPoint (t.bandEntry (bits e.value 0 6))
  | none => t.ratePoint

/-- The budget against the state after a whole set (R60, R78; 03 Corners): the shortfall, where the set changes the sum or the
period and the sum does not fit. -/
def State.setShort (s t : State) (entries : List PEntry) : Option Nat :=
  let need := t.budgetAt (t.setPointOf entries)
  if (need != s.budgetAt s.ratePoint || t.tickPeriod != s.tickPeriod) && decide (t.tickPeriod < need) then
    some (need - t.tickPeriod)
  else none

/-- The check of a set against the live state with its own entries applied (R78). Where several failures of R78's table apply,
the part reports one: a retired scope first, then the first entry in the order of application that an encoding or an owning
chapter's rule refuses, then the budget (DESIGN CHOICE, log 40: R78 gives no order). -/
def State.checkSet (s : State) (x : SSet) : Except (Nat × Nat) (List PEntry) :=
  let l := applyOrder ((List.range x.entries.length).zip x.entries)
  if l.any (fun e => (scopesOf (entAddr e.2)).any s.scopeGone) then .error (sRetired, 0)
  else match s.project l [] with
    | .error f => .error f
    | .ok (t, entries) => match s.setShort t entries with
      | some n => .error (sBudget, n)
      | none => .ok entries

/-! The commit phase: the engine applies two entries per core cycle (R79). -/

/-- Whether a set is due in a tick that begins at an FT. -/
def SSet.due (x : SSet) (tick : Nat) : Bool := x.asap || x.dueFt.isSome || decide (ftScale x.commitFt ≤ tick)

/-- A due set whose due tick begins now. -/
def SSet.stamp (x : SSet) (tick : Nat) (ft : BitVec 64) (no : Nat) : SSet :=
  if x.dueFt.isNone && x.due tick then { x with dueFt := some ft, dueTick := no } else x

/-- Of two sets in order of admission, the one that the engine takes first (R79). -/
def SSet.first (x y : SSet) : SSet := if y.dueTick < x.dueTick then y else x

/-- The due set that the engine takes next: in order of due tick, then of admission (R79). -/
def State.nextSetDue (s : State) : Option SSet :=
  match s.time.sets.filter (fun x => x.dueFt.isSome) with
  | [] => none
  | x :: l => some (l.foldl SSet.first x)

/-- A set starts its commit: it leaves the staging store, whose slot is free again from now on (DESIGN CHOICE, log 41: R77
counts pending sets and does not say until when), and is checked. One that fails applies nothing. -/
def State.commitStart (s : State) (x : SSet) : State :=
  let put (entries : List PEntry) (fail : Option (Nat × Nat)) : State :=
    { s with time := { s.time with
        sets := s.time.sets.erase x
        commits := s.time.commits ++
          [⟨x, (s.time.tickFt >>> 32).setWidth 64, 1, fail, entries, entries, [], 0, none⟩] } }
  match s.checkSet x with
  | .error f => put [] (some f)
  | .ok entries => put entries none

/-- The entries that the engine applies in one core cycle. -/
def entryRate : Nat := 2

/-- Two entries of a set are applied to pending copies. -/
def Commit.apply (c : Commit) : Commit :=
  { c with todo := c.todo.drop entryRate, applied := c.applied ++ c.todo.take entryRate }

/-- The engine in one core cycle: the set it works on goes on; where none has entries left, the next due set starts. The odd last
entry of a set takes its core cycle alone, and a set that fails its check takes none (DESIGN CHOICE, log 42: R79 gives the
rate and one set at a time). -/
def State.commitFeed (s : State) : Nat → State
  | 0 => s
  | k + 1 =>
    if s.time.commits.any (fun c => !c.todo.isEmpty) then
      { s with time := { s.time with commits := modFirst (fun c => !c.todo.isEmpty) Commit.apply s.time.commits } }
    else match s.nextSetDue with
      | none => s
      | some x => State.commitFeed (s.commitStart x) k

/-- The engine works in the core cycles of the commit phase (R58, R79). -/
def State.commitCycle (s : State) : State :=
  if s.time.running && decide (s.time.cycle < s.time.c1) then s.commitFeed (s.time.sets.length + 1) else s

/-- A tick begins for the commit engine: sets whose due tick it is are marked, and a split set is in one more tick (R79, R80). -/
def State.commitBegin (s : State) : State :=
  let t := s.time
  { s with time := { t with
    sets := t.sets.map (fun x => x.stamp t.tickFt.toNat s.ft64 s.tickIdx)
    commits := t.commits.map (fun c => { c with ticks := c.ticks + 1 }) } }

/-! Scopes become live at COMMIT_CYCLES (R80, R427). -/

/-- Whether an entry requests an action: its register starts one on a write, or a pulse is set. -/
def requests (r : RegRow) (v : Word) : Bool := r.mask .wo != 0 || v &&& r.mask .wp != 0

/-- One entry becomes live, over every direct write of the same core cycle (R47); whether it was refused as a request (R427). -/
def State.entryLive (s : State) (rq : Requester) (p : PEntry) : Bool × State :=
  match rowOf p.addr with
  | none => (false, s)
  | some r =>
    let old := s.reg p.addr
    let m := r.mask .rw
    let new := (old &&& ~~~ m) ||| (p.value &&& m)
    let act (s : State) : State :=
      (if m = 0 then s else (s.setReg p.addr new).land p.addr 2 0 m p.value).afterWrite rq p.addr old new p.value true {}
    if requests r p.value then
      match s.blockRule p.addr p.value .live with
      | some x => (true, (s.reject rq p.addr (if x.enc then 2 else 5)).rejEffects x)
      | none => (false, act s)
    else (false, act s)

/-- A commit's entries that become live now: applied, and no entry of a common scope is left (R80). -/
def Commit.liveNow (c : Commit) : List PEntry :=
  let later := c.todo.flatMap (fun e => entryScopes c.entries e)
  c.applied.filter (fun e => !(entryScopes c.entries e).any (fun k => later.contains k))

/-- A commit's applied entries that stay pending. -/
def Commit.waiting (c : Commit) : List PEntry :=
  let later := c.todo.flatMap (fun e => entryScopes c.entries e)
  c.applied.filter (fun e => (entryScopes c.entries e).any (fun k => later.contains k))

/-- Make a list of entries live; how many requests among them were refused. -/
def State.makeLive (s : State) (rq : Requester) : List PEntry → Nat → Nat × State
  | [], n => (n, s)
  | p :: l, n =>
    let (bad, t) := s.entryLive rq p
    State.makeLive t rq l (n + b01 bad)

/-- A commit of which nothing is left completes (R81, R83). One whose scope was retired in the commit phase of a set that is not
split completes as R83 says of a split set, ABORTED_RETIRE with the SPLIT_COMMIT flag (DESIGN CHOICE, log 43: R83 speaks of
split sets alone, and a set of which entries are discarded is not DONE). -/
def State.commitDone (s : State) (c : Commit) : State :=
  let split := decide (1 < c.ticks)
  match c.discardFt with
  | some f => s.setCpl c.set sAborted (s.ft64 - f).toNat 0 true c.ticks
  | none =>
    let due := c.set.dueFt.getD c.startFt
    if due = c.startFt then s.setCpl c.set sDone 0 c.refused split c.ticks
    else s.setCpl c.set sDoneLate (c.startFt - due).toNat c.refused split c.ticks

/-- One commit at COMMIT_CYCLES: its live scopes, and its completion when nothing of it is left (R80, R81, R83). -/
def State.commitOne (s : State) (c : Commit) : State :=
  match c.fail with
  | some (status, aux) => s.setCpl c.set status 0 aux false 1
  | none =>
    let (refused, s) := s.makeLive c.set.rq c.liveNow 0
    let c : Commit := { c with applied := c.waiting, refused := c.refused + refused }
    let s := s.raiseIf (decide (1 < c.ticks) || !(c.todo ++ c.applied).isEmpty) (wTime + 0x34) 2
    if (c.todo ++ c.applied).isEmpty then s.commitDone c
    else { s with time := { s.time with commits := s.time.commits ++ [c] } }

/-- Every commit of the tick at COMMIT_CYCLES. -/
def State.commitEnd (s : State) : State :=
  let l := s.time.commits
  let s := { s with time := { s.time with commits := [] } }
  s.each l State.commitOne

end Sys2Proof.Machine
end

