-- ==== Sys2Proof/Machine/Mailbox.lean ====
section
/-!
DEFINITION. The housekeeping mailbox: BRINGUP and its stages, SYSREF, FIXED_TABLE (15 R392 to R401).
-/

namespace Sys2Proof.Machine

/-! Results (R392). -/

/-- HK_MB_ARGi. -/
def State.mbArg (s : State) (i : Nat) : Word := s.reg (wHk + 0x24 + 4 * i)

/-- Write HK_MB_RESi. -/
def State.setRes (s : State) (i n : Nat) : State :=
  s.modHk (fun h => { h with res := Tab.set (fun _ => 0) h.res i (BitVec.ofNat 32 n) })

/-- A command ends (R392): BUSY clears, DONE sets, RESULT holds the outcome. -/
def State.mbEnd (s : State) (result : Nat) : State :=
  (s.modHk (fun h => { h with busy := false, cmd := none, result := BitVec.ofNat 8 result })).raise (wHk + 0x34) (bit1 30)

/-- A command ends with a result and RES0. -/
def State.mbFail (s : State) (result res0 : Nat) : State := (s.setRes 0 res0).mbEnd result

/-! SYSREF (R398). -/

/-- Whether the link with bit k is enabled. -/
def State.linkEnabled (s : State) (k : Nat) : Bool :=
  if k < 9 then s.flag (aLinkCfg k) 31 else s.flag (aQcfg (k - 9)) 31

/-- Masked SY outputs whose period an enabled masked link's counter does not divide (R398). -/
def State.sysrefBad (s : State) (sy : BitVec 12) (links : BitVec 11) : Nat :=
  bitmap 12 (fun j =>
    let v := s.syLiveAt j
    bitOf sy j && decide (1 < bits v 24 8) &&
      (List.range 11).any (fun k => bitOf links k && s.linkEnabled k && bits v 12 12 % max 1 (s.lemcPeriod k) != 0))

/-- Why a SYSREF is refused (R398): result and RES0. -/
def State.sysrefRefused (s : State) (at80 : Option FT80) (sy : BitVec 12) (links : BitVec 11) : Option (Nat × Nat) :=
  let late := match at80 with
    | some t => decide (ftScale t < s.ftN + 10240000 * 2 ^ 32)
    | none => false
  if at80.isSome && !s.time.ftValid then some (6, 0)
  else if late then some (5, 0)
  else if s.sysrefBad sy links != 0 then some (7, s.sysrefBad sy links)
  else if (List.range 12).any (fun j => bitOf sy j && bits (s.syLiveAt j) 24 8 == 0) then some (2, 3)
  else none

/-- A SYSREF is taken: it waits for B_s, or is refused. -/
def State.sysrefTake (s : State) (at80 : Option FT80) (sy : BitVec 12) (links : BitVec 11) (byBringup : Bool) :
    Option (Nat × Nat) × State :=
  match s.sysrefRefused at80 sy links with
  | some f => (some f, s)
  | none => (none, s.modHk (fun h => { h with sysref := some ⟨at80, sy, links, byBringup, none⟩ }))

/-- Where a transmit link goes from ALIGN (R240). -/
def State.afterAlign (s : State) (k : Nat) : LnkSt := if k = 8 && s.flag (aLinkCfg 8) 24 then .cgs else .data

/-- Channels of a transmit link whose samples a realignment drops (R240). -/
def State.dropOnLink (s : State) (k : Nat) : State :=
  s.each (List.range 24) (fun s n =>
    if s.chanLink n == (k, true) && (s.seq n).bursting then s.raise (aSeqEv n) (bit1 5) else s)

/-- A transmit link at B_s: whether it realigns (R398). -/
def State.sysrefTx (s : State) (k : Nat) : Bool × State :=
  let l := s.txl k
  let go := { l with st := s.afterAlign k, lemc := s.now }
  match l.st with
  | .align => (false, s.setTxl k go)
  | .data =>
    if (s.now - l.lemc) % max 1 (s.lemcPeriod k) = 0 then (false, s) else (true, (s.setTxl k go).dropOnLink k)
  | _ => (false, s)

/-- A feedback link at B_s (R310, R398). -/
def State.sysrefRx (s : State) (x : Nat) : Bool × State :=
  match s.rx x with
  | .align => (false, s.setLemc x (some s.now))
  | .data =>
    if (s.now - (s.lemcOf x).getD 0) % max 1 (s.lemcPeriod (9 + x)) = 0 then (false, s)
    else (true, ((s.setLemc x (some s.now)).rxLost x))
  | .off => (false, s)

/-- SYSREF at B_s (R398): SY outputs restart and pulse, masked links align; the mask of links that realigned. -/
def State.sysrefIssue (s : State) (x : Sysref) : State :=
  let s := s.each (List.range 12) (fun s j =>
    if bitOf x.sy j then s.modClk (fun c => { c with coAt := Tab.set (fun _ => 0) c.coAt (12 + j) (s.fastNow 0) }) else s)
  let s := if x.sy = 0 then s else s.emit (.sysref x.sy)
  let (m, s) := (List.range 11).foldl (fun (a : Nat × State) k =>
    if !bitOf x.links k then a
    else
      let (b, t) := if k < 9 then a.2.sysrefTx k else a.2.sysrefRx (k - 9)
      (a.1 + b01 b * 2 ^ k, t)) (0, s)
  s.modHk (fun h => { h with
    sysref := some { x with issued := some (s.now, m, s.ft64) }
    since := if x.byBringup then s.time.elapsed else h.since })

/-- A SYSREF in the present core cycle: it is issued at the first boundary at or after its FT, and completes 16 core cycles
later (R398). -/
def State.sysrefCycle (s : State) : State :=
  match s.hk.sysref with
  | none => s
  | some x =>
    match x.issued with
    | none =>
      let due := match x.at80 with
        | some t => decide (ftScale t ≤ s.ftN)
        | none => true
      if due then s.sysrefIssue x else s
    | some (c, m, ft) =>
      if s.now < c + 16 then s
      else
        let s := s.modHk (fun h => { h with sysref := none })
        if x.byBringup then s
        else (((s.setRes 0 m).setRes 1 (ft.setWidth 32 : BitVec 32).toNat).setRes 2 (ft >>> 32).toNat).mbEnd 0

/-! FIXED_TABLE (R396). -/

/-- Whether an entry of a fixed table is faulty. -/
def fixedBad (e : BitVec 64) : Bool :=
  let sel := bits e 30 30
  bits e 16 14 != 0 ||
    match bits e 62 2 with
    | 1 => decide (32 ≤ sel) || decide (0x19 < sel % 32)
    | 2 => !dlyOk (BitVec.ofNat 32 sel) || bits e 38 16 != 0
    | _ => true

/-- The words of a table in Firn. -/
def State.fixedRead (s : State) (w : Nat) : Nat → List Byte × State
  | 0 => ([], s)
  | k + 1 =>
    let (d, s) := s.firnRead w
    let (l, s) := State.fixedRead s (w + 1) k
    (leBytes d.value 64 ++ l, s)

/-- FIXED_TABLE (R396). -/
def State.fixedTable (s : State) (w n : Nat) : State :=
  if n < 1 || 1024 < n then s.mbFail 2 1
  else if 2 ^ 21 * 64 < w * 64 + 8 * n then s.mbFail 2 0
  else
    let (bytes, s) := s.fixedRead w (cdiv (8 * n) 64)
    let l := (List.range n).map (fun i => BitVec.ofNat 64 (leNat ((bytes.drop (8 * i)).take 8)))
    match (List.range n).find? (fun i => fixedBad (l.getD i 0)) with
    | some i => s.mbFail 2 i
    | none => (s.modHk (fun h => { h with fixed := l })).mbEnd 0

/-! BRINGUP (R393 to R400). -/

/-- Stage numbers of BRINGUP: SPLL 0, MORAINE 1, JESD 2, FABRIC 3. -/
def stageCode (i : Nat) : BitVec 4 := BitVec.ofNat 4 (5 + i)

/-- A register write that firmware makes for a stage: whether the register's own rules took it (R42, R45). -/
def State.fwWrite (s : State) (a : Nat) (v : Word) : Bool × State :=
  match rowOf a with
  | none => (false, s)
  | some r => match s.refusal r a v true with
    | some (cause, x) => (false, (s.reject .housekeeping a cause).rejEffects x)
    | none => (true, (s.setReg a v).afterWrite .housekeeping a (s.reg a) v v false {})

/-- Set a bit of a register by firmware, if it is not set. -/
def State.fwSet (s : State) (a i : Nat) : State :=
  if s.flag a i then s else (s.fwWrite a (s.reg a ||| bit1 i)).2

/-- Channels with a supported DIMM that are not retired. -/
def State.trainable (s : State) : List Nat :=
  (List.range 4).filter (fun n => (s.chan n).dimm.capGiB.isSome && !s.isRetired uDram n)

/-- BRINGUP fails its stage i with a code (R400). -/
def State.stageFail (s : State) (i code : Nat) : State :=
  let s := s.modHk (fun h => { h with
    bring := none, sysref := none, failStage := stageCode i, failCode := BitVec.ofNat 8 code, stage := stBase })
  s.mbFail 3 (s.hk.done.toNat + 2 ^ (8 + i) + code * 2 ^ 16)

/-- The FPLL is set up and enabled for the SPLL stage (R394): the held words of R355, then REFSEL and ENABLE. -/
def State.fpllStart (s : State) : State :=
  if s.clk.fpll.st != .off then s
  else
    let a := aPll .fpll
    let sel := if s.flag wNzl 1 && s.clk.ref10m then 1 else 0
    let s := (s.fwWrite (a + 4) (if sel = 1 then 1250 else 80)).2
    let s := (s.fwWrite (a + 8) 0).2
    let s := (s.fwWrite (a + 12) 1).2
    (s.fwWrite a (putBits (putBits (s.reg a) 14 2 sel) 0 1 1)).2

/-- The rate of R395: 0 for 6400, 1 for 5600, 2 for 4800 MT/s; the lowest of the cap and what every DIMM supports. -/
def State.morRate (s : State) (cap : Nat) : Nat :=
  s.trainable.foldl (fun r n =>
    let v := (s.chan n).dimm.speed.toNat
    max r (if 64 ≤ v then 0 else if 56 ≤ v then 1 else 2)) cap

/-- MPLL words of a rate: N, NUM, DEN, POSTDIV code (R395). -/
def mpllWords (rate : Nat) : Point :=
  match rate with
  | 0 => ⟨40, 24, 25, 0⟩
  | 1 => ⟨71, 17, 25, 1⟩
  | _ => ⟨61, 11, 25, 1⟩

/-- The MPLL is set to a point and enabled (R395); one that runs at another point is disabled first. -/
def State.mpllStart (s : State) (x : Point) : State :=
  let a := aPll .mpll
  if s.pllOn .mpll && s.heldPoint .mpll = x then s
  else
    let s := if s.pllOn .mpll then (s.fwWrite a (putBits (s.reg a) 0 1 0)).2 else s
    let s := (s.fwWrite (a + 4) (BitVec.ofNat 32 x.n)).2
    let s := (s.fwWrite (a + 8) (BitVec.ofNat 32 x.num)).2
    let s := (s.fwWrite (a + 12) (BitVec.ofNat 32 x.den)).2
    (s.fwWrite a (putBits (putBits (s.reg a) 12 2 x.post) 0 1 1)).2

/-- The link configuration register with bit k of a link mask. -/
def aMaskLink (k : Nat) : Nat := if k < 9 then aLinkCfg k else aQcfg (k - 9)

/-- Firmware enables the links of a mask (R397): whether every one took it. -/
def State.jesdEnable (s : State) (links : BitVec 11) : Bool × State :=
  (List.range 11).foldl (fun (a : Bool × State) k =>
    if !bitOf links k || a.2.linkEnabled k then a
    else
      let (ok, t) := a.2.fwWrite (aMaskLink k) (a.2.reg (aMaskLink k) ||| bit1 31)
      (a.1 && ok, t)) (true, s)

/-- Links of a mask in DATA. -/
def State.inData (s : State) (links : BitVec 11) : Nat :=
  bitmap 11 (fun k => bitOf links k && (if k < 9 then (s.txl k).st == .data else s.rx (k - 9) == .data))

/-- A stage starts (R394, R395, R397, R399). -/
def State.stageStart (s : State) (b : Bring) (i : Nat) : State :=
  let s := s.modHk (fun h => { h with stage := stageCode i, since := s.time.elapsed, upAt := none })
  match i with
  | 0 => s.fpllStart
  | 1 => if s.trainable.isEmpty then s else s.mpllStart (mpllWords (s.morRate (bits b.arg0 8 2)))
  | 2 =>
    let links : BitVec 11 := b.arg1.setWidth 11
    let (ok, s) := s.jesdEnable links
    if !ok then s.stageFail 2 0x07
    else match s.sysrefTake none (BitVec.ofNat 12 (bits b.arg1 16 12)) links true with
      | (none, s) => s
      | (some (result, res0), s) =>
        (s.modHk (fun h => { h with bring := none, stage := stBase })).mbFail result res0
  | _ =>
    let s := s.modHk (fun h => { h with noFabric := false })
    let s := s.each (List.range 8) (fun s n =>
      if bitOf s.top.strap (4 + n) && !s.isRetired uLink n then s.fwSet (aLink n) 31 else s)
    (s.fwSet wNzl 0).fwSet wNzl 2

/-- Stage i has completed: the next one requested starts, or the command is complete (R400). -/
def State.stageDone (s : State) (b : Bring) (i : Nat) : State :=
  s.modHk (fun h => { h with
    done := h.done ||| BitVec.ofNat 4 (2 ^ i), bring := some { b with stages := b.stages &&& ~~~ BitVec.ofNat 4 (2 ^ i) } })

/-- The stage that runs: the lowest one requested. -/
def Bring.current (b : Bring) : Option Nat := (List.range 4).find? (fun i => bitOf b.stages i)

/-- Whether a stage has ended, and the state with what firmware does on the way (R394 to R399). -/
def State.stageCheck (s : State) (b : Bring) (i : Nat) : Bool × State :=
  match i with
  | 0 =>
    if !s.clk.spllXo then (true, s)
    else if s.flag (aPll .spll) 0 || !(s.clk.fpll.st == .locked || s.clk.fpll.st == .holdover) then (false, s)
    else (false, (s.fwSet (aPll .spll) 0).modHk (fun h => { h with since := s.time.elapsed }))
  | 1 =>
    let l := s.trainable
    if l.isEmpty && !(List.range 4).any (fun n => s.flag (aCh n) 0) then (true, s.setRes 1 0)
    else if s.clk.mpll.st != .locked then (false, s)
    else
      let s := s.each l (fun s n => s.fwSet (aCh n) 0)
      let on := (List.range 4).filter (fun n => s.flag (aCh n) 0)
      let act := bitmap 4 (fun n => on.contains n && (s.chan n).st != .retired)
      let dead := bitmap 4 (fun n => on.contains n && (s.chan n).st == .retired)
      if on.any (fun n => (s.chan n).st == .train || (s.chan n).st == .recover) then (false, s)
      else (true, s.setRes 1 (act + 16 * dead))
  | 2 =>
    let links : BitVec 11 := b.arg1.setWidth 11
    if s.hk.sysref.isSome || s.inData links != links.toNat then (false, s) else (true, s.setRes 2 links.toNat)
  | _ =>
    let s := if s.upLinks.isEmpty then s
      else s.modHk (fun h => { h with upAt := some (h.upAt.getD s.time.elapsed) })
    (s.hk.upAt.isSome && (s.nzl.st == .member || s.nzl.st == .root) && s.time.locked, s)

/-- BRINGUP goes on as far as it can. -/
def State.bringRun (s : State) : Nat → State
  | 0 => s
  | k + 1 =>
    match s.hk.bring with
    | none => s
    | some b =>
      match b.current with
      | none => ((s.modHk (fun h => { h with bring := none, stage := 9 })).setRes 0 s.hk.done.toNat).mbEnd 0
      | some i =>
        if s.hk.stage ≠ stageCode i then State.bringRun (s.stageStart b i) k
        else
          let (ended, s) := s.stageCheck b i
          if ended then State.bringRun (s.stageDone b i) k else s

/-- BRINGUP is checked. -/
def State.bringCheck (s : State) : State := s.bringRun 12

/-- A stage's time runs out (R394, R395, R397, R399). -/
def State.stageTimeout (s : State) : State :=
  match s.hk.bring with
  | none => s
  | some b =>
    let links : BitVec 11 := b.arg1.setWidth 11
    match b.current with
    | some 0 =>
      if s.clk.fpll.st != .locked && s.clk.fpll.st != .holdover then s.stageFail 0 0x05 else s.stageFail 0 0x04
    | some 1 => if s.clk.mpll.st != .locked then s.stageFail 1 0x06 else s
    | some 2 => (s.setRes 2 (s.inData links)).stageFail 2 0x08
    | some 3 =>
      if s.hk.upAt.isNone then ((s.modHk (fun h => { h with noFabric := true })).stageDone b 3).bringCheck
      else s.stageFail 3 0x09
    | _ => s

/-- The stage of BRINGUP that runs. -/
def State.bringAt (s : State) : Option Nat := match s.hk.bring with
  | some b => b.current
  | none => none

/-- When the time of the stage that runs ends, in 2^-32 fu since power-up (R394, R395, R397, R399): 1 ms for each PLL, 10 ms from
B_s, 20 ms to the first link UP and 200 ms from there. Training has no such end: its result comes as TRAINING_RESULT. -/
def State.stageLimit (s : State) : Option Nat :=
  match s.bringAt with
  | some 0 => some (s.hk.since + msTime)
  | some 1 => if s.clk.mpll.st != .locked then some (s.hk.since + msTime) else none
  | some 2 => some (s.hk.since + 10 * msTime)
  | some 3 => match s.hk.upAt with
    | some t => some (t + 200 * msTime)
    | none => some (s.hk.since + 20 * msTime)
  | _ => none

/-- Firmware's BRINGUP at a core-cycle boundary: it goes on, and a stage whose time has passed ends. -/
def State.bringTurn (s : State) : State :=
  let s := s.bringCheck
  match s.stageLimit with
  | some t => if t ≤ s.time.elapsed then s.stageTimeout else s
  | none => s

/-- BRINGUP is taken (R393): refused, or its stages not yet completed run. -/
def State.bringTake (s : State) (arg0 arg1 : Word) : State :=
  let want := bits arg0 0 4
  let asks (i : Nat) : Bool := bitOf arg0 i
  let needs := (asks 2 || asks 3) && !asks 0 && !bitOf s.hk.done 0
  let bare (n : Nat) : Bool := s.flag (aCh n) 4 && (s.chan n).dimm.capGiB.isSome &&
    !(s.fixedFor n).any (fun e => bits e 62 2 == 2)
  if s.hk.stage.toNat < 4 then s.mbEnd 4
  else if asks 0 && s.time.running then s.mbEnd 4
  else if needs then s.mbEnd 4
  else if bits arg0 8 2 = 3 then s.mbFail 2 0
  else if asks 1 && (List.range 4).any bare then s.mbFail 2 0
  else (s.modHk (fun h => { h with
    cmd := none, bring := some ⟨BitVec.ofNat 4 want &&& ~~~ h.done, arg0, arg1⟩, stage := stBase })).bringCheck

/-- AUTO (R401): firmware issues BRINGUP with every stage, every link and no SY output. -/
def State.autoBringup (s : State) : State :=
  if bitOf s.top.strap 12 && !s.hk.busy && s.hk.stage = stBase && s.hk.inReset.isNone then
    (s.modHk (fun h => { h with busy := true, seq := 0 })).bringTake 0x0000000F 0x000007FF
  else s

/-- The firmware takes the command that waits in the mailbox (R392): once it runs, but a BRINGUP before BASE_READY is answered ORDER
at once (DEDUCED, log 73). -/
def State.mbTake (s : State) : State :=
  match s.hk.cmd with
  | none => s
  | some op =>
    if op.toNat ≠ 1 && !s.hk.fw then s
    else
    let s := s.modHk (fun h => { h with cmd := none })
    match op.toNat with
    | 1 => s.bringTake (s.mbArg 0) (s.mbArg 1)
    | 2 =>
      let a2 := s.mbArg 2
      let at80 : Option FT80 := if bitOf a2 16 then some ((a2.setWidth 16 : BitVec 16) ++ (s.mbArg 1 ++ s.mbArg 0)) else none
      match s.sysrefTake at80 (BitVec.ofNat 12 (bits (s.mbArg 3) 16 12)) ((s.mbArg 3).setWidth 11) false with
      | (none, s) => s
      | (some (result, res0), s) => s.mbFail result res0
    | 3 => s.fixedTable (s.mbArg 0).toNat (s.mbArg 1).toNat
    | _ => s.mbEnd 1

end Sys2Proof.Machine
end

