-- ==== Sys2Proof/Machine/Acts.lean ====
section
/-!
DEFINITION. How orders and trigger actions act at their effect samples, and the flags that stand before an entry's boundary
(03 R66, R70 to R74; 08 R226 to R231).
-/

namespace Sys2Proof.Machine

/-! Effect samples. -/

/-- The edge at which an order acts (R66): the first sample of its channel at or after its time, sample 0 of the tick for
an ASAP order. -/
def State.ordEdge (s : State) (o : Ord) : Nat :=
  s.sampleUp o.chan (match o.t with | some t => s.edgeOfFt t | none => s.tickEdge)

/-- The edge at which a trigger action acts. -/
def State.schedEdge (s : State) (x : Sched) : Nat := s.sampleUp x.seq (x.due * 16 + x.sample)

/-- Whether a winner still acts: it has not acted and nothing has superseded it. -/
def Acting.waits (a : Acting) : Bool := a.actedAt.isNone && a.status != BitVec.ofNat 8 sSuperseded

/-- The edge of a winner: the one at which it acted, or will. -/
def State.actEdge (s : State) (a : Acting) : Nat :=
  match a.actedAt with
  | some i => s.tickEdge + i
  | none => s.ordEdge a.ord

/-- Whether an action of a lane acts on sequencer n at an edge, as an order or as an immediate action (R230). -/
def State.laneAt (s : State) (n lane e : Nat) : Bool :=
  s.time.acting.any (fun a => a.ord.chan == n && a.ord.lane == lane && a.status != BitVec.ofNat 8 sSuperseded &&
    s.actEdge a == e) ||
  (s.imms n lane).any (fun m => m.edge == e && !(s.imms n lane).any (fun x => s.immMutes x m.src e m.trig))

/-- Whether a STOP acts on sequencer n at an edge. -/
def State.stopAt (s : State) (n e : Nat) : Bool := s.laneAt n lStop e

/-- Whether a START acts on sequencer n at an edge. -/
def State.startAt (s : State) (n e : Nat) : Bool := s.laneAt n lStart e

/-! Actions (R228 to R231). -/

/-- Where a START or JUMP action goes. -/
def actTarget (a : BitVec 128) : Target := if bitOf a 19 then .slot (bits a 16 3) else .entry (BitVec.ofNat 16 (bits a 0 16))

/-- The end of its own that a START names (R229): the effect time plus END_OFFSET. -/
def ownEndOf (a : BitVec 128) (t : FT80) : Option FT80 :=
  if bitOf a 21 then some (t + ((a >>> 24).setWidth 40 : BitVec 40).signExtend 80) else none

/-- P becomes a phase at an edge (R229). -/
def Seq.loadPhase (q : Seq) (e : Nat) (p : BitVec 64) : Seq := q.anchor e p q.ftw

/-- A START order acts at an edge (R229, R230): nothing is played where its own end is not after it, or where a STOP acts on
the same sample; a channel that has gone OFF since its order phase starts nothing and the order is DONE (R231). The answer is
its status. -/
def State.startAct (s : State) (n : Nat) (a : BitVec 128) (t : FT80) (e : Nat) : Nat × State :=
  let own := ownEndOf a t
  let empty := match own with
    | some f => decide (s.sampleUp n (s.edgeOfFt f) ≤ e)
    | none => false
  if (s.seq n).st == .off || (s.seq n).st == .retired then (sDone, s)
  else if empty || s.stopAt n e then (sEmpty, s)
  else
    let s := (s.startBurst n (actTarget a) e).modSeq n (fun q => { q with ownEnd := own })
    (sDone, if bitOf a 20 then s.modSeq n (fun q => q.loadPhase e (a >>> 64).toNat) else s)

/-- A STOP acts at an edge: one that meets a START on its sample ends what runs and is DONE (R230). -/
def State.stopMeet (s : State) (n : Nat) (segEnd : Bool) (e : Nat) : Nat × State :=
  if s.startAt n e then (sDone, s.endBurst n e) else s.stopAct n segEnd e

/-- Whether sequencer n takes NCO, FORCE and flag actions (R230). -/
def State.seqLives (s : State) (n : Nat) : Bool := (s.seq n).st != .off && (s.seq n).st != .retired

/-- A JUMP order acts at an edge (R228, R230). -/
def State.jumpOrder (s : State) (n : Nat) (a : BitVec 128) (e : Nat) : Nat × State :=
  let f := bits a 16 3
  match bits a 21 2 with
  | 0 => s.jumpAct n (actTarget a) (bitOf a 20) false e
  | 1 => s.jumpAct n (actTarget a) (bitOf a 20) true e
  | 2 => (sDone, if s.seqLives n then s.setFlagAt n f e else s)
  | _ => (sDone, if s.seqLives n then s.clearFlag n f else s)

/-- An NCO order acts at an edge (R210, R228). -/
def State.ncoOrder (s : State) (n : Nat) (a : BitVec 128) (e : Nat) : State :=
  if s.seqLives n then
    let sp := s.spacing n
    s.modSeq n (fun q =>
      q.ncoSet sp e (if bitOf a 122 then none else some (a.setWidth 64)) (bits a 120 2) (bits a 64 56))
  else s

/-- A FORCE order or action acts at an edge (R212, R228). -/
def State.forceOrder (s : State) (n kind e : Nat) : State := if s.seqLives n then s.forceAct n kind e else s

/-- An action of an order acts in its lane at an edge; the answer is its status. -/
def State.laneAct (s : State) (o : Ord) (e : Nat) : Nat × State :=
  match o.lane with
  | 0 => s.startAct o.chan o.action (o.t.getD (s.ft80OfEdge e)) e
  | 1 => s.stopMeet o.chan (bitOf o.action 0) e
  | 2 => s.jumpOrder o.chan o.action e
  | 3 => (sDone, s.ncoOrder o.chan o.action e)
  | _ => (sDone, s.forceOrder o.chan (bits o.action 0 2) e)

/-- The winner of the current tick that waits to act on a target. -/
def State.winner (s : State) (n lane : Nat) : Option Acting :=
  s.time.acting.find? (fun a => a.ord.chan == n && a.ord.lane == lane && a.waits)

/-- A winner acts at its effect edge (R231): its place in the tick and its status are kept for its completion. -/
def State.winnerActs (s : State) (a : Acting) : State :=
  let e := s.ordEdge a.ord
  let i := s.tickSample e
  let (status, t) := s.laneAct a.ord e
  { t with time := { t.time with
      acting := modFirst (fun x => x == a)
        (fun x => { x with
          actedAt := some i, heldFrom := (s.edgeN e).toNat, status := BitVec.ofNat 8 status }) t.time.acting } }

/-- The waiting winner whose edge comes first. -/
def State.nextWinner (s : State) : Option Acting :=
  match s.time.acting.filter Acting.waits with
  | [] => none
  | a :: l => some (l.foldl (fun m x => if s.ordEdge x.ord < s.ordEdge m.ord then x else m) a)

/-- The winners of a tick that have not acted by its end act at their own edges, in order. -/
def State.winnersAct (s : State) : Nat → State
  | 0 => s
  | k + 1 =>
    match s.nextWinner with
    | none => s
    | some a => State.winnersAct (s.winnerActs a) k

/-! Trigger actions (R226, R227). -/

/-- Lane of a trigger action code. -/
def trigLane (action : Nat) : Nat :=
  match action with
  | 3 => lStart
  | 4 => lStop
  | 5 | 6 => lForce
  | _ => lJump

/-- A trigger action acts at an edge, once precedence lets it. -/
def State.trigDo (s : State) (n action arg e : Nat) : State :=
  match action with
  | 0 => (s.jumpAct n (.slot arg) (s.slotKeeps n arg) false e).2
  | 1 => (s.jumpAct n (.slot arg) (s.slotKeeps n arg) true e).2
  | 2 => if s.seqLives n then s.setFlagAt n arg e else s
  | 3 => if s.stopAt n e || !s.seqLives n then s else s.startBurst n (.slot arg) e
  | 4 => (s.stopMeet n false e).2
  | 5 => s.forceOrder n 1 e
  | _ => s.forceOrder n 0 e

/-- Whether two trigger actions are the same one on its way. -/
def Sched.same (x y : Sched) : Bool := { x with claimed := true } == { y with claimed := true }

/-- The precedence of a trigger action is judged (R74 stage k + 7): a retired channel ignores it. -/
def State.trigClaim (s : State) (x : Sched) : State :=
  let s := if s.seqRetired x.seq then s else s.claim .event x.seq (trigLane x.action) (s.schedEdge x) x.trig
  { s with mkr := { s.mkr with sched := s.mkr.sched.map (fun y => if y.same x then { y with claimed := true } else y) } }

/-- The path of the events in one core cycle (R74): edges are decoded at k + 6, actions are judged at k + 7, records are posted
at k + 12. -/
def State.trigCycle (s : State) : State :=
  let s := s.decodeEdges
  let s := s.each (s.mkr.sched.filter (fun x => !x.claimed && decide (x.due ≤ s.now + 5))) State.trigClaim
  s.recordsPost

/-- Remove a trigger action from those on their way. -/
def State.unsched (s : State) (x : Sched) : State :=
  { s with mkr := { s.mkr with sched := s.mkr.sched.filter (fun y => !y.same x) } }

/-- A trigger action takes effect (R70, R72, R226): a retired channel ignores it; one that an action of a higher class in its
tick, or one of a lower trigger number on its sample, has beaten does not act; one that acts supersedes the committed order
on its target. -/
def State.trigActs (s : State) (x : Sched) : State :=
  let e := s.schedEdge x
  let s := if x.claimed then s else s.trigClaim x
  if s.seqRetired x.seq || (s.imms x.seq (trigLane x.action)).any (fun m => s.immMutes m .event e x.trig) then s.unsched x
  else ((s.override .event x.seq (trigLane x.action) e).trigDo x.seq x.action x.arg e).unsched x

/-- The trigger action of a kind on its way for a trigger of sequencer n at a sample index, the earliest first; one whose edge
is not yet decoded counts as SEQ_TRIG stands. -/
def State.trigDue (s : State) (n t action sample : Nat) : Option Sched :=
  (s.mkr.sched ++ (s.mkr.edges.filter (fun x => !x.decoded)).flatMap s.edgeActions).find?
    (fun x => x.seq == n && x.trig == t && x.action == action && x.sample == sample)

/-- The trigger action on its way whose edge comes first. -/
def State.nextTrig (s : State) : Option Sched :=
  match s.mkr.sched with
  | [] => none
  | x :: l => some (l.foldl (fun m y => if s.schedEdge y < s.schedEdge m then y else m) x)

/-- Winners and trigger actions whose edges lie before an edge act, in order; on one edge the trigger action acts first (R72). -/
def State.actsDue (s : State) (e : Nat) : Nat → State
  | 0 => s
  | k + 1 =>
    let a := s.nextWinner.filter (fun a => decide (s.ordEdge a.ord < e))
    let x := s.nextTrig.filter (fun x => decide (s.schedEdge x < e))
    match a, x with
    | none, none => s
    | some a, none => State.actsDue (s.winnerActs a) e k
    | none, some x => State.actsDue (s.trigActs x) e k
    | some a, some x =>
      if s.schedEdge x ≤ s.ordEdge a.ord then State.actsDue (s.trigActs x) e k else State.actsDue (s.winnerActs a) e k

/-! Flags before a boundary. -/

/-- The flag actions before an edge act, and those at the edge that set a flag: what a JUMP entry or a WAIT at that boundary
tests has come (R216, R217). -/
def State.flagsDue (s : State) (n e : Nat) : State :=
  let s := s.each (s.mkr.sched.filter (fun x => x.seq == n && x.action == 2 && decide (s.schedEdge x ≤ e))) State.trigActs
  s.each (s.time.acting.filter (fun a => a.waits && a.ord.chan == n && a.ord.lane == lJump &&
    decide (2 ≤ bits a.ord.action 21 2) && decide (s.ordEdge a.ord < e + b01 (bits a.ord.action 21 2 == 2)))) State.winnerActs

/-! Preloads of cold targets (R224). -/

/-- The target that a resolved order names for its channel: of a START, or of a JUMP that jumps. -/
def ordTarget (o : Ord) : Option Target :=
  if o.lane = lStart || (o.lane = lJump && decide (bits o.action 21 2 < 2)) then some (actTarget o.action) else none

/-- The order phase has resolved its targets: the preloads of the cold ones that its orders name start. -/
def State.preloads (s : State) : State :=
  s.each (List.range 24) (fun s n =>
    s.preloadTargets n ((s.time.resolved.filter (fun a => a.ord.chan == n)).filterMap (fun a => ordTarget a.ord)))

end Sys2Proof.Machine
end

