-- ==== Sys2Proof/Machine/Cycle.lean ====
section
/-!
DEFINITION. The passing of time: one core cycle, the tick with its five phases, and the ways a command brings the part to the
instant it names (03 R57, R58, R63, R84; 04 R87, R98; log 8).
-/

namespace Sys2Proof.Machine

/-! Fabric time. -/

/-- FT as TIME_FT_SET holds it (R63). -/
def State.ftSet (s : State) : FTime :=
  ((s.reg (wTime + 0x28)).setWidth 16 : BitVec 16) ++ (s.reg (wTime + 0x24) ++ (s.reg (wTime + 0x20) ++ (0 : BitVec 32)))

/-- FT is loaded at the next core-cycle boundary. -/
def Time.loadFt (t : Time) (set : FTime) : Time :=
  { t with
    ft := set, ftValid := true, load := false, adjust := none, begun := [], core := t.core + 1, cycle := t.cycle + 1
    elapsed := t.elapsed + t.inc.toNat, anchors := (t.core + 1, set, t.inc) :: t.anchors }

/-- FT at the next core-cycle boundary (R63, R87; 13 R353): it advances by INC, takes TIME_FT_SET, or is corrected. -/
def Time.pass (t : Time) (set : FTime) : Time :=
  if t.load then t.loadFt set
  else match t.adjust with
    | some v => t.loadFt (t.ft + t.inc.setWidth 112 + BitVec.ofInt 112 v)
    | none =>
      { t with ft := t.ft + t.inc.setWidth 112, core := t.core + 1, cycle := t.cycle + 1, elapsed := t.elapsed + t.inc.toNat }

/-! The tick (R57, R58). -/

/-- A tick begins at the present boundary: its lengths are those live now, the winners of the last order phase act in it and
due sets start. -/
def State.tickBegin (s : State) : State :=
  let t := s.time
  let s : State := { s with time := { t with
    running := true
    stopping := false
    cycle := 0
    period := s.tickPeriod
    c1 := s.commitCycles
    c2 := s.commitCycles + t.costLaw
    c3 := s.commitCycles + t.costLaw + s.orderCycles
    c4 := s.commitCycles + t.costLaw + s.orderCycles + t.costSup
    c5 := s.commitCycles + t.costLaw + s.orderCycles + t.costSup + 32
    phasesDone := 0
    orderLen := s.orderCycles
    tickFt := t.ft
    ticks := t.ticks + 1
    closing := t.closing ++ t.acting
    acting := t.resolved
    resolved := []
    imm := t.imm.filter (fun m => decide (s.now * 16 ≤ m.edge))
    begun := (t.ft, none) :: t.begun } }
  s.commitBegin

/-- The last tick has ended and no further one begins: what it leaves waits for the flush of R84. -/
def State.tickStop (s : State) : State :=
  { s with time := { s.time with
    running := false, stopping := false, cycle := 0, flush := some s.time.core
    imm := s.time.imm.filter (fun m => decide (s.now * 16 ≤ m.edge)) } }

/-- Whether a first tick begins at the present boundary (R57). -/
def State.tickDue (s : State) : Bool :=
  !s.time.running && s.flag wTime 0 && s.time.ftValid && decide (s.startFt.toNat ≤ s.ft80.toNat)

/-- The order phase begins at c2: the tick's record keeps its FT (R67). -/
def State.stampPhase (s : State) : State :=
  match s.time.begun with
  | (a, _) :: l => { s with time := { s.time with begun := (a, some s.time.ft) :: l } }
  | [] => s

/-- What is live at a core-cycle boundary follows the registers: outputs, sequencers, lines, event inputs, the TLA (02 R55,
08 R236, 09 R242, R246, 10 R265, R280). -/
def State.liveCopies (s : State) : State :=
  let s := { s with top := { s.top with convLive := s.flag (wTop + 0x20) 0, lineLive := s.flag (wTop + 0x20) 1 } }
  let s := s.each (List.range 24) State.seqLive
  let s := s.each (List.range 64) State.lineLive
  let s := s.each (List.range 16) State.einLive
  (s.modTla (fun t => { t with soft := (s.reg (wTla + 0x0C)).setWidth 8 })).tlaLive

/-- One phase of the tick reaches its end (R28, R58): 0 commit at c1, 1 law at c2, 2 orders at c3, 3 supervision at c4,
4 snapshot at c5. -/
def State.phaseEnd (s : State) (i : Nat) : State :=
  match i with
  | 0 => (s.commitEnd.liveCopies.each (List.range 32) State.pairRestart).cleSample
  | 1 => s.lawPhase.stampPhase
  | 2 => s.abortRetired.orderPhase.preloads
  | 3 => s.supPhase
  | _ => s.snapPhase

/-- The end of phase i in core cycles from the tick's start. -/
def Time.bound (t : Time) (i : Nat) : Nat :=
  match i with
  | 0 => t.c1
  | 1 => t.c2
  | 2 => t.c3
  | 3 => t.c4
  | _ => t.c5

/-- The phases whose end has come, in order. -/
def State.phases (s : State) : Nat → State
  | 0 => s
  | k + 1 =>
    let i := s.time.phasesDone
    if i < 5 && s.time.running && decide (s.time.bound i ≤ s.time.cycle) then
      let s := s.phaseEnd i
      State.phases { s with time := { s.time with phasesDone := i + 1 } } k
    else s

/-- A first tick begins where one is due; what still waits for the flush of R84 is flushed before it. -/
def State.tickFirst (s : State) : State :=
  if s.tickDue then (if s.time.flush.isSome then s.flushTicks else s).tickBegin else s

/-- The tick at a core-cycle boundary: it ends, begins, goes on, or the flush of R84 comes. What the spec leaves open here:
where FT_VALID becomes 1 at a boundary while TICK_RUN holds 1 and TIME_START_FT has passed, the first tick begins at that
boundary (DESIGN CHOICE, log 44); orders and sets that arrive between the end of the last tick and the flush are flushed
with the rest, the flush comes 1,024 core cycles after that end, and where a new first tick begins before it, it comes at
that boundary (DESIGN CHOICE, log 45); where TICK_RUN is cleared and set again within one tick, that tick is the last one
and the new first tick begins at its end, or at TIME_START_FT after it (DEDUCED, log 46). -/
def State.tickTurn (s : State) : State :=
  if s.time.running then
    if s.time.period ≤ s.time.cycle then
      (if s.flag wTime 0 && !s.time.stopping then s.tickBegin else s.tickStop.tickFirst)
    else s
  else
    (match s.time.flush with
      | some c => if c + 1024 ≤ s.now then s.flushTicks else s
      | none => s).tickFirst

/-! Arrivals (R67, R77, R136). -/

/-- Orders that are due reach the time block's queue, each target by itself. -/
def State.ordersArrive (s : State) : State :=
  let due (i : Inbound) : Bool := decide (i.due ≤ s.now)
  let targets := (s.time.inbound.filter due).flatMap (fun i =>
    ((List.range 24).filter (fun n => bitOf i.mask n)).map (fun n => { i.ord with chan := n }))
  { s with time := { s.time with
    queue := s.time.queue ++ targets, inbound := s.time.inbound.filter (fun i => !due i) } }

/-- Sets that are due reach the staging store. -/
def State.setsArrive (s : State) : State :=
  let due (i : InSet) : Bool := decide (i.due ≤ s.now)
  let l := s.time.inSets.filter due
  let s := { s with time := { s.time with inSets := s.time.inSets.filter (fun i => !due i) } }
  s.each l (fun s i => s.setArrive i.set (setFault i.count i.set.entries))

/-! One core cycle. -/

/-- Channel ch's controller through one core cycle, at the rate of its domain CD_MCTLn (07 R180; 04 R111). -/
def State.morCycle (s : State) (ch : Nat) : State :=
  let s := s.trainTick ch
  match s.domain (40 + ch) with
  | some ⟨_, some (num, den), true⟩ => s.chanPass ch num den
  | _ => s

/-- What the current core cycle does by its end: the commit engine works and the path of the events moves on; orders and trigger actions whose edges lie in it have acted; sequences,
patterns, pairs and write queues move on; every winner of a tick that ends with it has acted. -/
def State.cycleWork (s : State) : State :=
  let s := (s.commitCycle.trigCycle).each (List.range 2) State.angTurn
  let s := s.actsDue (16 * (s.now + 1)) (s.time.acting.length + s.mkr.sched.length)
  let s := s.each (List.range 24) (fun s n => (s.seqCycle n).linkDrop n)
  let s := if s.time.running && s.time.cycle == 0 then s.cleLatch else s
  let s := s.each (List.range 64) State.lineCycle
  let s := (s.each (List.range 32) State.pairCycle).each (List.range 64) State.lineSettle
  let s := (s.each (List.range 4) State.morCycle).morHostIssue 256
  if s.time.running && decide (s.time.period ≤ s.time.cycle + 1) then s.winnersAct s.time.acting.length else s

/-- The next core-cycle boundary is reached: FT, INC and the cycle counts move on; CD_CORE comes to an SPLL that has locked
(R88), and a hop whose W this is switches over (R96). -/
def State.cyclePass (s : State) : State :=
  let s := s.clkCycle
  let s := if s.domainRuns 29 then s.bankCycles s.incN else s
  let s := (if s.domainRuns 35 then s.seracCycles else s).fltCycle
  let s : State := { s with
    time := s.time.pass s.ftSet, top := { s.top with cycles := s.top.cycles + 1 }, fresh := [], landed := [] }
  let s := if s.clk.spllDue then s.spllTake else s
  s.hopTurn.loadInc

/-- Applied outputs go live at the next tick boundary, or at the next core-cycle boundary while no tick runs (04 R110). -/
def State.outputsTurn (s : State) : State :=
  if s.clk.applyMask != 0 && (!s.time.running || s.time.cycle == 0) then s.outputsLive else s

/-- What takes effect at a core-cycle boundary. -/
def State.cycleOpen (s : State) : State :=
  let s := s.fltTurn.liveCopies.captures
  let s := if s.tla.swapPending then s.tlaSwap else s
  let s := s.each (List.range 32) State.pairRestart
  let s := s.each (List.range 24) State.seqRetire
  let s := s.relockTurn.ilasTurn.rxRelease
  let s := if s.windowStopped 0x0A then s else s.fabricTurn
  ((s.setsArrive.ordersArrive.tickTurn.outputsTurn.phases 5).sysrefCycle.mbTake).firnInitTurn.bringTurn

/-- Whether CD_CORE has stopped with the XO (04 R105), or a reset is held. -/
def State.coreHeld (s : State) : Bool := !s.domainRuns 2 || s.hk.inReset.isSome

/-- A CORE or FULL reset is released when its hold has passed. -/
def State.resetDue (s : State) (k : RstKind) : State :=
  match k.hold with
  | some t =>
    if s.hk.inReset = some k && decide (s.hk.resetAt + t ≤ s.time.elapsed) then (s.release s.top.strap).autoBringup else s
  | none => s

/-- A core cycle's time passes in a reset: the HPLL's domains run on through a CORE reset, and a CORE or FULL reset is released
when its hold has passed (R383, R384). What the release of a FULL reset finds at the straps is no matter: they are kept. -/
def State.resetCycle (s : State) : State :=
  match s.hk.inReset with
  | some .core =>
    let s := (s.bankCycles s.incN).fltCycle
    (({ s with time := { s.time with elapsed := s.time.elapsed + s.incN } }).fltTurn).resetDue .core
  | some .full => ({ s with time := { s.time with elapsed := s.time.elapsed + s.incN } }).resetDue .full
  | _ => s

/-- One core cycle passes. -/
def State.coreCycle (s : State) : State :=
  if s.coreHeld then s.resetCycle
  else
    let s := s.cycleWork
    let (x, caught) := s.extIn
    let s := s.modTla (fun t => { t with ext := x.levels, caught := caught })
    let s := { s with mkr := { s.mkr with ext := [] } }
    s.cyclePass.tlaShow.cycleOpen.tlaCycle x

/-! The instant of a command. -/

/-- A number of core cycles pass. -/
def State.advance (s : State) : Nat → State
  | 0 => s
  | k + 1 => State.advance s.coreCycle k

/-- Core cycles pass until the one with a number. -/
def State.toCycle (s : State) (c : Nat) : State := s.advance (c - s.now)

/-- Core cycles pass until the one that holds an edge. -/
def State.toEdge (s : State) (e : Nat) : State := s.toCycle (e / 16)

/-- Core cycles pass until FT with fraction reaches a time; fuel bounds them. -/
def State.untilFt (s : State) (t : Nat) : Nat → State
  | 0 => s
  | k + 1 => if t ≤ s.ftN then s else State.untilFt s.coreCycle t k

/-- Core cycles pass until FT reaches a time. -/
def State.toFt (s : State) (t : Nat) : State := s.untilFt t (4 * ((t - s.ftN) / max 1 s.incN + 1))

/-- Core cycles pass until what a command names has come at Moraine channel ch, or cannot come because its bus does not run;
fuel bounds them. -/
def State.morUntil (s : State) (ch : Nat) (p : State → Bool) : Nat → State
  | 0 => s
  | k + 1 => if p s || !s.chanRuns ch then s else State.morUntil s.coreCycle ch p k

/-- Core cycles pass until something holds, or the core clock has stopped; fuel bounds them. -/
def State.passUntil (s : State) (p : State → Bool) : Nat → State
  | 0 => s
  | k + 1 => if p s || s.coreHeld then s else State.passUntil s.coreCycle p k

/-- The hold of the reset in force passes; fuel bounds the core cycles. -/
def State.resetPass (s : State) : Nat → State
  | 0 => s
  | k + 1 => if s.hk.inReset = some .core || s.hk.inReset = some .full then State.resetPass s.coreCycle k else s

/-- More core cycles than any wait of the spec takes. -/
def waitFuel : Nat := 2 ^ 60

/-- Core cycles in a number of fu, and some more. -/
def State.cyclesIn (s : State) (fu : Nat) : Nat := 4 * (fu * 2 ^ 32 / max 1 s.incN + 4)

/-- An effect acts in the core cycle that holds its edge, or now where that has passed; not where the core clock has stopped
before it. -/
def State.atEdge (s : State) (e : Nat) (f : State → State) : State :=
  let t := s.toEdge e
  if t.now < e / 16 then t else f t

end Sys2Proof.Machine
end

