-- ==== Sys2Proof/Machine/ExecReg.lean ====
section
/-!
DEFINITION. Commands of register access: writes in the four quarters, the common tail, shadow comparison, upsets (chapter 02).
A row that names a field fixes that field's bits of the value written; the rest of the access is judged as any other.
-/

namespace Sys2Proof.Machine

/-- A next state. -/
abbrev ok (s : State) : Host.Outcome State Fault Refusal := .next s

/-- A single-register write as a command gives it. -/
def State.write (s : State) (off : Nat) (w : Wr) (h : Hint := {}) : State := s.busWrite w.rq off w.be w.value h

/-- Whether the block with a window code runs: no reset is held (15 R383) and its clock has not stopped (04 R107). -/
def State.runs (s : State) (window : Nat) : Bool := s.hk.inReset.isNone && !s.windowStopped window

/-- What happens in a block happens while it runs. -/
def State.during (s : State) (window : Nat) (f : State → State) : State := if s.runs window then f s else s

/-- REGISTER_WRITE (02 R36, R45): the registers after the first one that the request covers follow in ascending order. -/
def execRegisterWrite (offset : BitVec 25) (w : Wrs) (s : State) : Host.Outcome State Fault Refusal :=
  ok (s.busWrites w.first.rq offset.toNat ((w.first.be, w.first.value) :: w.rest))

/-- OUTSIDE_WRITE (02 R35): an offset inside a window is no such write. -/
def execOutsideWrite (offset : BitVec 25) (w : Wr) (s : State) : Host.Outcome State Fault Refusal :=
  ok (if s.outside offset.toNat then s.write offset.toNat w else s)

/-- SET_ALIAS_WRITE (02 R39). -/
def execSetAliasWrite (offset : BitVec 25) (w : Wr) (s : State) : Host.Outcome State Fault Refusal :=
  ok (s.write (aliasOff offset.toNat 1) w)

/-- CLEAR_ALIAS_WRITE (02 R39). -/
def execClearAliasWrite (offset : BitVec 25) (w : Wr) (s : State) : Host.Outcome State Fault Refusal :=
  ok (s.write (aliasOff offset.toNat 2) w)

/-- TOGGLE_ALIAS_WRITE (02 R39). -/
def execToggleAliasWrite (offset : BitVec 25) (w : Wr) (s : State) : Host.Outcome State Fault Refusal :=
  ok (s.write (aliasOff offset.toNat 3) w)

/-- UNLOCK_KEY_WRITE (02 R43). -/
def execUnlockKeyWrite (window : BitVec 8) (rq : Requester) (be : BitVec 4) (s : State) :
    Host.Outcome State Fault Refusal :=
  ok (s.busWrite rq (window.toNat * 0x10000 + 0x3FF0) be 0x00007A3C)

/-- UNLOCK_DISARM_WRITE (02 R43): a value that is the key is no such write. -/
def execUnlockDisarmWrite (window : BitVec 8) (w : Wr) (s : State) : Host.Outcome State Fault Refusal :=
  ok (if w.value = 0x00007A3C then s else s.write (window.toNat * 0x10000 + 0x3FF0) w)

/-- WV_SELECT (02 R50). -/
def execWvSelect (window : BitVec 8) (rq : Requester) (space : BitVec 8) (index : BitVec 16) (s : State) :
    Host.Outcome State Fault Refusal :=
  ok (s.busWrite rq (window.toNat * 0x10000 + 0x3FC0) 0xF ((space ++ index).setWidth 32))

/-- WV_CAPTURE (02 R49). -/
def execWvCapture (window : BitVec 8) (rq : Requester) (s : State) : Host.Outcome State Fault Refusal :=
  ok (s.capture window.toNat rq)

/-- WV_DATA_READ (02 R51). -/
def execWvDataRead (window : BitVec 8) (rq : Requester) (d : Fin 3) (be : BitVec 4) (s : State) :
    Host.Outcome State Fault Refusal :=
  ok (s.readBack rq (window.toNat * 0x10000 + 0x3FD0 + 4 * d.val) be)

/-- WV_D3_READ (02 R48). -/
def execWvD3Read (window : BitVec 8) (rq : Requester) (be : BitVec 4) (s : State) : Host.Outcome State Fault Refusal :=
  ok (s.readBack rq (window.toNat * 0x10000 + 0x3FDC) be)

/-- SHADOW_COMPARE (02 R53). -/
def execShadowCompare (s : State) : Host.Outcome State Fault Refusal := ok s.compareShadows

/-- REGISTER_UPSET (02 R54). -/
def execRegisterUpset (u : Upset) (s : State) : Host.Outcome State Fault Refusal := ok (s.upset u)

/-- GLOBAL_EN_WRITE (02 R55): the outputs follow at the next core-cycle boundary. -/
def execGlobalEnWrite (w : Wr) (s : State) : Host.Outcome State Fault Refusal := ok (s.write (wTop + 0x20) w)

/-- CLEAR_ON_READ (00 R15, 02 R36): the registers after the first one that the request covers follow in ascending order. -/
def execClearOnRead (offset : BitVec 25) (rq : Requester) (be : Rds) (s : State) : Host.Outcome State Fault Refusal :=
  ok (s.readBack rq offset.toNat be.first be.rest)

end Sys2Proof.Machine
end

