-- ==== Sys2Proof/Machine/ExecCle.lean ====
section
/-!
DEFINITION. Commands of the control engine: coefficients and feedback receive links (chapter 11).
-/

namespace Sys2Proof.Machine

/-- Window code of the control engine. -/
def cCle : Nat := 0x09

/-- COEFFICIENT_WRITE (R301, R302, R322). -/
def execCoefficientWrite (slot : Fin 32) (w : Wr) (s : State) : Host.Outcome State Fault Refusal :=
  ok (s.write (wCle + 0x1000 + 0x80 * slot.val + 0x24) w)

/-- The law phase under way ends (R303). -/
def State.lawOver (s : State) : State := if s.inLaw then s.advance (s.time.c2 - s.time.cycle) else s

/-- COEFFICIENT_SWEEP (R303): bits of an entry flip, and the sweep, outside the law phase, reads on to that entry. -/
def execCoefficientSweep (slot : Fin 32) (set : Fin 8) (entry : Fin 224) (flips : BitVec 44) (s : State) :
    Host.Outcome State Fault Refusal :=
  ok (s.during cCle (fun s =>
    (s.coefFlip (coefKey slot.val set.val entry.val) flips).lawOver.coefSweep (coefKey slot.val set.val entry.val)))

/-- QLINK_ALIGNED (R310). -/
def execQlinkAligned (link : Fin 2) (s : State) : Host.Outcome State Fault Refusal :=
  ok (s.during cCle (fun s => (s.rxAligned link.val).bringCheck))

/-- QLINK_MULTIBLOCK (R310). -/
def execQlinkMultiblock (link : Fin 2) (crcOk : Bool) (samples : List (List (BitVec 18))) (s : State) :
    Host.Outcome State Fault Refusal :=
  ok (s.during cCle (fun s => s.rxBlock link.val crcOk samples))

/-- QLINK_LOCK_LOST (R310). -/
def execQlinkLockLost (link : Fin 2) (s : State) : Host.Outcome State Fault Refusal :=
  ok (s.during cCle (fun s => s.rxLost link.val))

end Sys2Proof.Machine
end

