-- ==== Sys2Proof/Machine/ExecClk.lean ====
section
/-!
DEFINITION. Commands of the clocks: PLLs, searches, hops, phase steps and outputs (chapter 04). What the analog parts find
(a band, a phase error, a reference) comes with the command.
-/

namespace Sys2Proof.Machine

/-- What follows a change of a PLL: bring-up's own steps, and BRINGUP (15 R388, R394). -/
def State.pllChanged (s : State) (p : Pll) : State := (if p = .hpll then s.bootStep else s).bringCheck

/-- A reference monitor's judgement of the REF10M pin or of a PLL's own reference (R103): the FPLL's own reference is REF10M
while its REFSEL says so. -/
def State.refJudged (s : State) (p : Pll) (pin : RefPin) (present : Bool) : State :=
  let own := s.refsel p
  let s := if p = .fpll && (pin == .ref10m || own == 1) then (s.modClk (fun c => { c with ref10m := present })).rootFollows else s
  if pin = .own || (p = .fpll && own == 1) then (if present then s.refBack p else s.refLost p) else s

/-- PLL_ENABLE (R88). -/
def execPllEnable (pll : Pll) (w : Wr) (s : State) : Host.Outcome State Fault Refusal :=
  ok ((s.write (aPll pll) (fixed w 1 1)).pllChanged pll)

/-- PLL_DISABLE (R108). -/
def execPllDisable (pll : Pll) (w : Wr) (s : State) : Host.Outcome State Fault Refusal :=
  ok ((s.write (aPll pll) (fixed w 1 0)).pllChanged pll)

/-- BAND_SEARCH_DONE (R89): the search of the idle oscillator, or a PLL's own. -/
def execBandSearchDone (pll : Pll) (idle : Bool) (found : Option SearchResult) (s : State) :
    Host.Outcome State Fault Refusal :=
  ok (if idle then (if pll = .spll then s.idleSearchDone found else s) else (s.searchDone pll found).pllChanged pll)

/-- PLL_LOCK (R101). -/
def execPllLock (pll : Pll) (phaseErr : Word) (s : State) : Host.Outcome State Fault Refusal :=
  ok ((s.pllLocked pll phaseErr).pllChanged pll)

/-- ACQUIRE_TIMEOUT (R108). -/
def execAcquireTimeout (pll : Pll) (s : State) : Host.Outcome State Fault Refusal :=
  ok ((s.acquireLate pll).pllChanged pll)

/-- LOCK_LOSS (R101). -/
def execLockLoss (pll : Pll) (phaseErr : Word) (s : State) : Host.Outcome State Fault Refusal :=
  ok (s.lockLost pll phaseErr)

/-- BYPASS_RETRY (R106). -/
def execBypassRetry (pll : Pll) (s : State) : Host.Outcome State Fault Refusal := ok (s.bypassRetry pll)

/-- REFERENCE_LOSS (R103). -/
def execReferenceLoss (pll : Pll) (pin : RefPin) (s : State) : Host.Outcome State Fault Refusal :=
  ok ((s.refJudged pll pin false).pllChanged pll)

/-- REFERENCE_RETURN (R103). -/
def execReferenceReturn (pll : Pll) (pin : RefPin) (s : State) : Host.Outcome State Fault Refusal :=
  ok ((s.refJudged pll pin true).pllChanged pll)

/-- HOLDOVER_EXIT (R104). -/
def execHoldoverExit (pll : Pll) (phaseDiff : BitVec 32) (s : State) : Host.Outcome State Fault Refusal :=
  ok (s.holdExit pll phaseDiff.toInt)

/-- HOLD_MAX_EXPIRY (R104). -/
def execHoldMaxExpiry (pll : Pll) (s : State) : Host.Outcome State Fault Refusal := ok (s.holdExpired pll)

/-- REFSEL_CHANGE (R104): `present` says whether the chosen reference is there. -/
def execRefselChange (pll : Pll) (w : Wr) (present : Bool) (s : State) : Host.Outcome State Fault Refusal :=
  ok (s.write (aPll pll) w { present := some present })

/-- SPLL_SEARCH (R90). -/
def execSpllSearch (w : Wr) (s : State) : Host.Outcome State Fault Refusal :=
  ok (s.write (wClk + 0x104) (fixed w 0x80000000 0x80000000))

/-- BAND_TABLE_LOAD (R91). -/
def execBandTableLoad (w : Wr) (s : State) : Host.Outcome State Fault Refusal :=
  ok (s.write (wClk + 0x130) (fixed w 0x80000000 0x80000000))

/-- FCW_APPLY (R92). -/
def execFcwApply (pll : Pll) (rq : Requester) (be : BitVec 4) (s : State) : Host.Outcome State Fault Refusal :=
  ok (s.busWrite rq (aPll pll + 0x10) be 1)

/-- HOP_REQUEST (R93). -/
def execHopRequest (w : Wr) (s : State) : Host.Outcome State Fault Refusal :=
  ok (s.write (wClk + 0x100) (fixed w 0x80000000 0x80000000))

/-- HOP_DECISION (R95): at W less 40,960 fu. -/
def execHopDecision (qualified : Bool) (s : State) : Host.Outcome State Fault Refusal :=
  ok (match s.clk.hop with
    | some h =>
      if h.qualified then s
      else
        let at_ := h.w.toNat - 40960 * 2 ^ 32
        let t := s.toFt at_
        if t.ftN < at_ then t else t.hopDecide qualified
    | none => s)

/-- HOP_SWITCHOVER (R96 to R98): at W. -/
def execHopSwitchover (s : State) : Host.Outcome State Fault Refusal :=
  ok (match s.clk.hop with
    | some h =>
      if h.qualified then
        let t := s.toFt h.w.toNat
        if t.ftN < h.w.toNat then t else t.hopSwitch
      else s
    | none => s)

/-- PHASE_STEP_WRITE (R100). -/
def execPhaseStepWrite (w : Wr) (s : State) : Host.Outcome State Fault Refusal := ok (s.write (wClk + 0x10C) w)

/-- CLOCK_OUTPUT_APPLY (R110). -/
def execClockOutputApply (w : Wr) (s : State) : Host.Outcome State Fault Refusal := ok (s.write (wClk + 0x280) w)

/-- CLOCK_OUTPUT_LIVE (R110): core cycles pass until the boundary at which applied outputs go live. -/
def execClockOutputLive (s : State) : Host.Outcome State Fault Refusal :=
  ok (if s.clk.applyMask = 0 then s
    else if s.time.running then s.advance (s.time.period - s.time.cycle) else s.coreCycle)

end Sys2Proof.Machine
end

