-- ==== Sys2Proof/Machine/ExecFirn.lean ====
section
/-!
DEFINITION. Commands of Firn: bank cycles, write-backs, Rime, the repair copy and FIRN_CMD (chapter 06).
-/

namespace Sys2Proof.Machine

/-- Code of the FIRN window. -/
def cFirn : Nat := 0x04

/-- The redirection ends (R161): Rime is at rest, and the banks of the words that failed its march change their state (R164,
tick ledger). -/
def State.rimeEnds (s : State) : State :=
  let late := s.firn.rime.late
  let s := s.modRime (fun r => { Rime.reset with region := r.region, regionAt := r.regionAt })
  s.each late (fun s x => s.failWord x.1 x.2 0x08 2 (BitVec.ofNat 32 x.1))

/-- A phase of Rime or a bank copy whose last access has been served ends with it (R161, R162, R165). -/
def State.rimeTurn (s : State) : State :=
  let s := match s.firn.rime.st with
    | .copy => if s.firn.rime.saved = BitVec.allOnes 64 then s.rimePhase .test else s
    | .test => if s.marchOps.length ≤ s.firn.rime.march then s.marchEnd [] else s
    | .restore => if s.firn.rime.restored = BitVec.allOnes 64 then s.rimeEnds else s
    | .idle => s
  match s.firn.copy with
  | some c => if c.todo.isEmpty then s.copySwitch else s
  | none => s

/-- The oldest corrected word is written back in a bank cycle of its bank that no higher rank wants (R156). -/
def State.writeBack (s : State) : State :=
  match s.firn.wbQueue with
  | [] => s
  | w :: _ => s.firnCycle (firnBank w) [⟨38, BitVec.ofNat 13 (w / 256), none, 0⟩] 0

/-- FIRN_ACCESS_SERVED (R151 to R157): one bank cycle of a bank with the accesses that want it. -/
def execFirnAccessServed (bank : Fin 256) (reqs : List FirnReq) (flips : BitVec 576) (s : State) :
    Host.Outcome State Fault Refusal :=
  ok (s.during cFirn (fun s => (s.firnCycle bank.val reqs flips).rimeTurn))

/-- ECC_WRITE_BACK (R156). -/
def execEccWriteBack (s : State) : Host.Outcome State Fault Refusal := ok (s.during cFirn State.writeBack)

/-- RIME_REGION_START (R160): core cycles pass until the region is due. -/
def execRimeRegionStart (s : State) : Host.Outcome State Fault Refusal :=
  ok (s.during cFirn (fun s => if s.firn.rime.st = .idle && s.flag wFirn 0 then (s.toCycle s.rimeDue).rimeStart else s))

/-- A phase of Rime of at least `n` bank cycles runs to its end, or to TIMEOUT (R162, R163): core cycles pass until then. -/
def State.rimeRun (s : State) (st : RimeSt) (n : Nat) (l : List MarchMiss) (f : State → State) : State :=
  if s.firn.rime.st != st then s
  else
    let k := s.coreOfBank n
    if st != .restore && decide (s.rimeLimit < k) then
      let t := s.toCycle (s.firn.rime.phaseAt + s.rimeLimit)
      if t.firn.rime.st = st then t.rimeTimeout l else t
    else
      let t := s.toCycle (s.firn.rime.phaseAt + k)
      if t.firn.rime.st = st then f t else t

/-- RIME_COPY_DONE (R161): the words not yet saved are saved, and TEST begins. -/
def execRimeCopyDone (s : State) : Host.Outcome State Fault Refusal :=
  ok (s.during cFirn (fun s => s.rimeRun .copy 64 [] (fun s => s.rimeRest.rimePhase .test)))

/-- RIME_TEST_DONE (R162): `mismatched` are the reads of the march that mismatched. -/
def execRimeTestDone (mismatched : List MarchMiss) (s : State) : Host.Outcome State Fault Refusal :=
  ok (s.during cFirn (fun s => s.rimeRun .test s.marchOps.length mismatched (fun s => s.marchEnd mismatched)))

/-- RIME_RESTORE_DONE (R161): the words not yet restored are restored, and the redirection ends. -/
def execRimeRestoreDone (s : State) : Host.Outcome State Fault Refusal :=
  ok (s.during cFirn (fun s => s.rimeRun .restore 64 [] (fun s => s.rimeRest.rimeEnds)))

/-- RIME_TIMEOUT (R163): core cycles pass until the phase has lasted TIMEOUT. The mismatches that an abandoned march found
before are those that FIRN_ACCESS_SERVED and RIME_TEST_DONE have brought. -/
def execRimeTimeout (s : State) : Host.Outcome State Fault Refusal :=
  ok (s.during cFirn (fun s =>
    if s.firn.rime.st = .idle then s
    else (s.toCycle (s.firn.rime.phaseAt + s.rimeLimit)).rimeTimeout []))

/-- BANK_COPY_START (R164, R165). -/
def execBankCopyStart (s : State) : Host.Outcome State Fault Refusal := ok (s.during cFirn State.copyStart)

/-- BANK_COPY_SKIP (R165): the rows that a pass skipped. Core cycles pass until the pass has lasted TIMEOUT. -/
def execBankCopySkip (rows : List (BitVec 13)) (s : State) : Host.Outcome State Fault Refusal :=
  ok (s.during cFirn (fun s => match s.firn.copy with
    | some c => (s.toCycle (c.at_ + s.rimeLimit)).copySkip rows
    | none => s))

/-- BANK_COPY_DONE (R165). -/
def execBankCopyDone (s : State) : Host.Outcome State Fault Refusal := ok (s.during cFirn State.copyDone)

/-- FIRN_CMD_REPAIR (R166, R171). -/
def execFirnCmdRepair (rq : Requester) (be : BitVec 4) (bank : BitVec 15) (s : State) :
    Host.Outcome State Fault Refusal :=
  ok (s.busWrite rq (wFirn + 0x14) be (0x40000000 ||| bank.setWidth 32))

/-- FIRN_CMD_RETIRE (R169, R171). -/
def execFirnCmdRetire (rq : Requester) (be : BitVec 4) (region : BitVec 15) (s : State) :
    Host.Outcome State Fault Refusal :=
  ok (s.busWrite rq (wFirn + 0x14) be (0x80000000 ||| region.setWidth 32))

end Sys2Proof.Machine
end

