-- ==== Sys2Proof/Machine/ExecFlt.lean ====
section
/-!
DEFINITION. Commands of the fault engine: detections, budget windows, drain windows, commanded retirement (chapter 14).
-/

namespace Sys2Proof.Machine

/-- Window code of the fault engine. -/
def cFlt : Nat := 0x0B

/-- FAULT_DETECTION (R365 to R371): the fault engine takes its next detection; D is the present core-cycle boundary, or the
next one where the detection arrived in the present core cycle. -/
def execFaultDetection (s : State) : Host.Outcome State Fault Refusal :=
  ok (s.during cFlt (fun s => match s.flt.inbox with
    | [] => s
    | x :: l =>
      if (nextDet x l).at_ = s.flt.clock then
        let t := s.coreCycle
        if t.flt.inbox.contains (nextDet x l) then t.faultTake.bringCheck else t
      else s.faultTake.bringCheck))

/-- BUDGET_WINDOW_CLOSE (R368): at its WINDOW-th tick of the millisecond timer. -/
def execBudgetWindowClose (cls : BitVec 8) (kind : BitVec 4) (index : Nat) (s : State) :
    Host.Outcome State Fault Refusal :=
  ok (s.during cFlt (fun s =>
    s.passUntil (fun s => !s.windowOpen cls.toNat kind.toNat index || s.clk.xoLost) waitFuel))

/-- DRAIN_WINDOW_END (R371): 600 CD_FLT cycles after D, or where a rule of the unit has ended the drain earlier. -/
def execDrainWindowEnd (kind : BitVec 4) (index : BitVec 16) (s : State) : Host.Outcome State Fault Refusal :=
  ok (s.during cFlt (fun s =>
    s.passUntil (fun s => !s.drains kind.toNat index.toNat || s.windowStopped cFlt) waitFuel))

/-- FLT_RETIRE (R374). -/
def execFltRetire (w : Wr) (s : State) : Host.Outcome State Fault Refusal := ok (s.write wFlt w)

end Sys2Proof.Machine
end

