-- ==== Sys2Proof/Machine/Descs.lean ====
section
/-!
DEFINITION. Descriptors: doorbells, fetch, the tests of admission, and what each kind does (chapter 05). The rows of the
descriptor kinds act on their ring's oldest descriptor that is fetched and not yet decided.
-/

namespace Sys2Proof.Machine

/-! Doorbells (R120, R121, R131, R145). -/

/-- A doorbell that is not accepted: where it meets a host or part-produced ring in a state that refuses it. -/
def State.doorbellCause (s : State) (n : Nat) (v : Word) : Option (Nat × Nat) :=
  let size := s.ringSize n
  let r := s.ring n
  let i := bits v 0 15
  let pos := i + (if bitOf v 15 then 0 else size)
  if s.isRetired uRing n then some (1, 4)
  else if !s.ringOn n then some (4, 3)
  else if size ≤ i then some (3, 2)
  else if s.ringHost n then
    if ringDist size r.cons r.prod ≤ ringDist size r.cons pos ∧ ringDist size r.cons pos ≤ size then none else some (3, 2)
  else if ringDist size r.cons pos ≤ ringDist size r.cons r.prod then none else some (3, 2)

/-- A whole write of ring n's doorbell register: a new position, or the cause that ignores it. A producer position that
is accepted lets a ring that stopped at a slot fetch again (R122). -/
def State.doorbell (s : State) (n : Nat) (v : Word) : State :=
  match s.doorbellCause n v with
  | some (bit, cause) => s.ringCause n bit cause
  | none =>
    let pos := bits v 0 15 + (if bitOf v 15 then 0 else s.ringSize n)
    if s.ringHost n then s.modRing n (fun r => { r with prod := pos, lastDb := v &&& 0xFFFF, stopped := false })
    else s.modRing n (fun r => { r with cons := pos, lastDb := v &&& 0xFFFF })

/-- What a read at an offset of BAR2 returns (R121): the last accepted value of a ring's doorbell register; every other
offset of its page reads as zero. -/
def State.doorbellRead (s : State) (off : Nat) : Word := if off % 0x1000 = 0 then (s.ring (off / 0x1000)).lastDb else 0

/-! The fetch (R122, R129, R133). -/

/-- Descriptors of a ring that hold its credits: admitted and not completed. -/
def Ring.credits (r : Ring) : Nat := (r.descs.filter (fun d => d.st == .admitted)).length

/-- Whether ring n has a credit for one more admitted descriptor (R133). -/
def State.hasCredit (s : State) (n : Nat) : Bool := decide ((s.ring n).credits < s.fld (aRingCfg n) 10 6)

/-- Whether the part can fetch from ring n (R133). -/
def State.eligible (s : State) (n : Nat) : Bool :=
  let r := s.ring n
  s.ringOn n && s.ringHost n && !s.isRetired uRing n && !r.stopped && r.prod != r.cons &&
    s.hasCredit n && s.cplHas n

/-- Eligible rings of a PRIO. -/
def State.eligibleAt (s : State) (prio : Nat) : List Nat :=
  (List.range 256).filter (fun n => s.fld (aRingCfg n) 8 2 == prio && s.eligible n)

/-- The ring that the next fetch serves, and whether a new round of its PRIO begins with it (R133): in ascending order
from the ring last served, those that have taken fewer than WEIGHT descriptors in the round. -/
def State.fetchPick (s : State) : Option (Nat × Bool) :=
  (List.range 4).findSome? (fun p =>
    let l := s.eligibleAt p
    let last := Tab.get (fun _ => 0) s.hif.lastRing p
    match l.find? (fun n => decide (last ≤ n) && decide ((s.ring n).served < s.fld (aRingCfg n) 16 8)) with
    | some n => some (n, false)
    | none => l.head?.map (fun n => (n, true)))

/-- A new round of a PRIO begins. -/
def State.newRound (s : State) (prio : Nat) : State :=
  s.each ((List.range 256).filter (fun n => s.fld (aRingCfg n) 8 2 == prio && (s.ring n).served != 0)) (fun s n =>
    s.modRing n (fun r => { r with served := 0 }))

/-- Completions that a descriptor can have (R129). -/
def Desc.need (d : Desc) : Nat := if d.kind = 3 then max 1 (d.chans.length + b01 d.fabric) else 1

/-- A name for a descriptor of a slot: its index, and above it a number that tells it from others of that slot which have
not completed yet. -/
def Ring.name (r : Ring) (i : Nat) : Nat :=
  i + 2 ^ 15 * ((List.range (r.descs.length + 1)).find? (fun k =>
    r.descs.all (fun d => d.slot != i + 2 ^ 15 * k))).getD 0

/-- A descriptor word of ring n as it arrives from a slot. -/
def State.newDesc (s : State) (n : Nat) (w : BitVec 512) : Desc :=
  let d : Desc :=
    { slot := (s.ring n).name ((s.ring n).cons % s.ringSize n), word := w, st := .fetched, reserved := 0, moved := 0,
      asked := 0, got := [], num := s.hif.fetched, left := 0, owed := 0, outcome := none, arrived := s.now, cpl := s.cplRing n, prio := s.fld (aRingCfg n) 8 2,
      ordered := s.ringClass n != cCmd }
  { d with reserved := d.need, owed := d.need }

/-- The part stops at a slot whose phase is not that of its position, or which it could not read (R122, R140). -/
def State.stopRing (s : State) (n : Nat) : State :=
  (s.modRing n (fun r => { r with stopped := true })).ringCause n 2 1

/-- The slots that a fetch read, in order, until one is not taken. A KIND that R123 does not list has no row of its own:
it is refused here (R134). -/
def State.takeSlots (s : State) (n : Nat) : List (BitVec 512) → State
  | [] => s
  | w :: l =>
    if bitOf w 63 != phaseAt (s.ringSize n) (s.ring n).cons then s.stopRing n
    else
      let d := s.newDesc n w
      if s.cplRoom d.cpl < d.need then s.modRing n (fun r => { r with stalled := d.need })
      else
        let size := s.ringSize n
        let s := s.modRing d.cpl (fun r => { r with reserved := r.reserved + d.need })
        let s := s.modRing n (fun r => { r with
          descs := r.descs ++ [d], cons := (r.cons + 1) % (2 * size), served := r.served + 1, stalled := 0 })
        let s := { s with hif := { s.hif with fetched := s.hif.fetched + 1 } }
        let s := if 7 ≤ d.kind then s.endDesc n d sConfig 0 1 else s
        State.takeSlots s n l

/-- A failed host read is reported as PCIe requires (R140): a poisoned, timed-out or ECRC-failing completion in AER, with an
error message and the misc vector (R144); Unsupported Request and Completer Abort in the PCIe status (PRESUMED, log 52). -/
def State.reportAer (s : State) (c : HostCause) : State :=
  let aer (i : Nat) : State :=
    let s := { s with hif := { s.hif with aer := s.hif.aer ||| bit1 i } }
    (s.emit (.error s.hif.aer)).miscIrq
  match c with
  | .unsupported => { s with hif := { s.hif with pciStatus := s.hif.pciStatus ||| 0x2000 } }
  | .abort => { s with hif := { s.hif with pciStatus := s.hif.pciStatus ||| 0x1000 } }
  | .poisoned => aer 12
  | .timeout => aer 14
  | .ecrc => aer 19

/-- The read requests of a fetch of `k` slots from position `i` of ring n: in two parts where they pass the ring's end, on the
16 tags that descriptor fetches have (R114). -/
def State.fetchReads (s : State) (n i k : Nat) : State :=
  let size := s.ringSize n
  let first := min k (size - i % size)
  let s := s.readNow (s.slotAddr n (i % size) 64).toNat (64 * first) 16 8 0
  if first < k then s.readNow (s.slotAddr n 0 64).toNat (64 * (k - first)) 16 8 0 else s

/-- A fetch (R133): at most eight consecutive descriptors of one ring, within its WEIGHT and CREDITS. -/
def State.fetch (s : State) (mem : FetchData) : State :=
  if !s.hif.up || s.hif.d3hot then s
  else match s.fetchPick with
    | none => s
    | some (n, round) =>
      let prio := s.fld (aRingCfg n) 8 2
      let s := if round then s.newRound prio else s
      let s := { s with hif := { s.hif with lastRing := Tab.set (fun _ => 0) s.hif.lastRing prio n } }
      let r := s.ring n
      let k := min (min 8 (s.fld (aRingCfg n) 16 8 - r.served))
        (min (s.fld (aRingCfg n) 10 6 - r.credits) (ringDist (s.ringSize n) r.cons r.prod))
      let s := s.fetchReads n r.cons k
      match mem with
      | .slots l => s.takeSlots n (l.take k)
      | .failed c => ((s.stopRing n).detect 0x04 uRing n 0).reportAer c

/-! The tests of admission (R134 to R137). -/

/-- Kinds that a class accepts (R117). -/
def classTakes (cls kind : Nat) : Bool :=
  if cls = cIngest then decide (kind ≤ 2)
  else if cls = cCmd then decide (kind = 0) || decide (3 ≤ kind ∧ kind ≤ 5)
  else if cls = cMailTx then decide (kind = 0) || decide (kind = 6)
  else false

/-- Whether a DEST breaks 13 R337: KIND 3, or a group number beyond 255. -/
def destBad (dest : Nat) : Bool := destKind dest == 3 || (destKind dest == 1 && decide (256 ≤ dest % 4096))

/-- Whether an ACTION holds an encoding that its lane does not list (08 R228). -/
def actionBad (lane : Nat) (a : BitVec 128) : Bool :=
  (lane == lNco && bits a 120 2 == 3) || (lane == lForce && bits a 0 2 == 3)

/-- Faults of a descriptor's body with the DW of each, in ascending order. A STAGE whose LENGTH is 16 or more than 4,096 is a
fault of its DW 6, not a header fault of its set (DESIGN CHOICE, log 50: R77 and R132 both reach it). -/
def Desc.bodyFaults (d : Desc) : List (Bool × Nat) :=
  if d.kind = 1 ∨ d.kind = 2 then
    [(d.fld 128 64 % 4 != 0, 4), (d.fld 192 38 % 64 != 0, 6),
     (d.fld 256 32 % 64 != 0 || d.fld 256 32 == 0 || decide (2 ^ 30 < d.fld 256 32), 8)]
  else if d.kind = 3 then
    [(d.fabric && d.asap, 1), (d.deadline != 0, 2), (d.fld 220 4 != 0 && !d.fabric, 6), (decide (4 < d.fld 217 3), 6),
     (d.fld 224 24 == 0, 7), (d.fabric && destBad (d.fld 256 16), 8),
     (actionBad (d.fld 217 3) ((d.word >>> 288).setWidth 128), if d.fld 217 3 = lNco then 12 else 9)]
  else if d.kind = 4 then
    [(d.deadline != 0, 2), (d.fld 128 64 % 8 != 0, 4),
     (decide (d.fld 192 13 < 24) || decide (4096 < d.fld 192 13) || d.fld 192 13 % 8 != 0, 6)]
  else if d.kind = 6 then
    [(d.fld 192 11 == 0 || decide (1920 < d.fld 192 11), 6), (destBad (d.fld 224 16) || d.fld 240 8 == 0xFF, 7)]
  else []

/-- The DW of the first fault of a descriptor by itself on a ring of a class (R134 test 1). -/
def Desc.fault (d : Desc) (cls : Nat) : Option Nat :=
  let head := d.fld 32 16 != 0 || d.fld 52 4 != 0 || d.fld 60 3 != 0 || !classTakes cls d.kind
  (((head, 1) :: d.bodyFaults).find? (fun x => x.1)).map (fun x => x.2)

/-- Whether a descriptor moves data of a store: WRITE and READ. -/
def Desc.moves (d : Desc) : Bool := d.kind == 1 || d.kind == 2
/-- STORE of a WRITE or READ: Moraine. -/
def Desc.mor (d : Desc) : Bool := bitOf d.word 255
/-- LENGTH of a WRITE, READ or SEND. -/
def Desc.length (d : Desc) : Nat := if d.kind = 6 then d.fld 192 11 else if d.moves then d.fld 256 32 else 0

/-- A test's answer: status, DELAY and AUX that refuse a descriptor. -/
abbrev Refuse := Option (Nat × Nat × Nat)

/-- Whether a WRITE or READ names an address beyond its store (06 R170, 07 R178): a field outside its range. -/
def State.beyond (s : State) (d : Desc) : Bool :=
  if d.mor then !s.mor.recovering && !s.mor.gone && decide (s.morCap < d.fld 192 38 + d.length)
  else decide (2 ^ 27 < d.fld 192 38 + d.length)

/-- Whether what a descriptor names beside its ring is retired (R134 test 2): Moraine, a Firn region, the link of a SEND. -/
def State.targetGone (s : State) (d : Desc) : Bool :=
  if d.moves then
    if d.mor then !s.mor.recovering && s.mor.gone
    else (List.range (d.length / 4096 + 2)).any (fun i =>
      let r := d.fld 192 38 / 4096 + i
      decide (r ≤ (d.fld 192 38 + d.length - 1) / 4096) && s.isRetired uRegion r)
  else d.kind == 6 && (s.sendTest (d.fld 224 16)).any (fun x => x.1 == sRetired)

/-- Bytes of admitted descriptors that a test names and that are not completed. -/
def State.admittedBytes (s : State) (p : Desc → Bool) (f : Desc → Nat) : Nat :=
  (s.admitted (fun d => d.st == .admitted && p d)).foldl (fun a x => a + f x.2) 0

/-- Whether the pool of the destination store lacks room (R134 test 4). -/
def State.poolBusy (s : State) (d : Desc) : Bool :=
  decide (s.fld (wHif + (if d.mor then 0x24 else 0x20)) 0 10 * 2 ^ 20 <
    s.admittedBytes (fun e => e.moves && e.mor == d.mor) Desc.length + d.length)

/-- The amount by which the predicted completion misses the deadline (R135, R137); 0 where it does not. -/
def State.deadlineMiss (s : State) (d : Desc) : Nat :=
  if d.deadline = 0 then 0
  else
    let same (e : Desc) : Bool := decide (e.prio ≤ d.prio) &&
      (if d.kind = 6 then e.kind == 6 else e.moves && e.mor == d.mor)
    let q := s.admittedBytes same (fun e => e.left)
    let rate := s.fld (wHif + (if d.kind = 6 then 0x1C else if d.mor then 0x18 else 0x14)) 0 20
    let ahead := 1024 * s.fld (wHif + 0x10) 0 16 + cdiv ((q + d.length) * 1024000) rate
    ((ahead : Int) - (BitVec.ofNat 64 d.deadline - s.ft64).toInt).toNat

/-- The tests of R134 for a descriptor of ring n that is no ORDER. The tests of a staged set follow where it reaches the
staging store (R136). -/
def State.refuses (s : State) (n : Nat) (d : Desc) : Refuse :=
  match d.fault (s.ringClass n) with
  | some dw => some (sConfig, 0, dw)
  | none =>
    if d.moves && s.beyond d then some (sConfig, 0, 6)
    else if s.isRetired uRing n || s.targetGone d then some (sRetired, 0, 0)
    else if d.moves && (s.poolBusy d || (d.mor && (s.mor.recovering || s.mor.fenced))) then some (sBusy, 0, if d.mor then 2 else 1)
    else if (d.moves || d.kind == 6) && decide (0 < s.deadlineMiss d) then some (sLate, s.deadlineMiss d, 0)
    else none

/-- The oldest descriptor of ring n that waits for its admission, where it is of a kind. -/
def State.oldest (s : State) (n kind : Nat) : Option Desc :=
  ((s.ring n).descs.find? (fun d => d.st == .fetched)).filter (fun d => d.kind == kind)

/-- Admission of the oldest descriptor of a kind that is no ORDER: refused, or admitted and acting; without a credit it waits
(R133). -/
def State.takeIn (s : State) (n kind : Nat) (act : State → Desc → State) : State :=
  match s.oldest n kind with
  | none => s
  | some d =>
    match s.refuses n d with
    | some (st, delay, aux) => s.endDesc n d st delay aux
    | none =>
      if !s.hasCredit n then s
      else
      let d := { d with st := .admitted, left := d.length }
      act (s.modDesc n d.slot (fun _ => d)) d

/-! Data (R125, R138, R139, R157, R169). -/

/-- A descriptor whose data has moved whole completes (R138). -/
def State.finishDesc (s : State) (n : Nat) (d : Desc) : State :=
  let late := if d.deadline = 0 then 0 else (s.ft64 - BitVec.ofNat 64 d.deadline).toInt.toNat
  s.endDesc n d (if late = 0 then sDone else sDoneLate) late d.length

/-- A descriptor meets a word of a retired region (R169). -/
def State.abortAtWord (s : State) (n : Nat) (d : Desc) (w : Nat) : State :=
  let since := match s.flt.draining.find? (fun x => x.kind == uRegion && x.index == firnRegion w) with
    | some x => s.since x.ft
    | none => 0
  s.endDesc n d sAborted since d.moved

/-- The address that a WRITE or READ has reached. -/
def Desc.reached (d : Desc) : Nat := d.fld 192 38 + d.moved

/-- Count ingested bytes for HIF_MEAS, which looks back 1,024 µs. -/
def State.ingested (s : State) (k : Nat) (mor : Bool) : State :=
  let l := s.hif.ingest.filter (fun x => decide (s.since x.1 ≤ 1048576000))
  { s with hif := { s.hif with ingest := l ++ [(s.ft64, k, mor)] } }

/-- One word of a WRITE reaches its store; whether it did. -/
def State.writeWord (s : State) (n : Nat) (d : Desc) (v : BitVec 512) : Bool × State :=
  let on (s : State) : State := s.modDesc n d.slot (fun d => { d with moved := d.moved + 64, left := d.left - 64 })
  if d.mor then
    match s.morMap d.reached with
    | some (ch, ca) =>
      if s.mor.fenced then (false, s)
      else (true, on (s.morArrive ch ⟨.host, BitVec.ofNat 38 ca, some v⟩))
    | none => (false, s)
  else if s.firnGone (d.reached / 64) then (false, (s.firnWrite (d.reached / 64) v).abortAtWord n d (d.reached / 64))
  else (true, on (s.firnWrite (d.reached / 64) v))

/-- Whole words of payload that host memory delivered for a WRITE, in order: a word arrives once its reads have been issued,
and frees its tags for the next ones (R114). -/
def State.writeWords (s : State) (n slot : Nat) : Nat → List Byte → State
  | 0, _ => s
  | k + 1, p =>
    match s.desc? n slot with
    | none => s
    | some d =>
      if d.st = .admitted ∧ 0 < d.left ∧ 64 ≤ p.length ∧ d.moved + 64 ≤ d.asked then
        let (ok, t) := s.writeWord n d (BitVec.ofNat 512 (leNat (p.take 64)))
        let t := t.issueReads 240
        if ok then State.writeWords t n slot k (p.drop 64) else t
      else s

/-- Payload of a WRITE arrives. -/
def State.writeData (s : State) (n : Nat) (d : Desc) (p : List Byte) : State :=
  let s := (s.issueReads 240).writeWords n d.slot (p.length / 64) p
  match s.desc? n d.slot with
  | some e => if d.moved < e.moved then s.ingested (e.moved - d.moved) d.mor else s
  | none => s

/-- One word of a READ of Firn is read and issued to the host; whether it was. -/
def State.readWord (s : State) (n : Nat) (d : Desc) : Bool × State :=
  let w := d.reached / 64
  match s.portRead 39 w with
  | (.word v, s) => (true, s.hostWord n d v)
  | (.ue, s) => (false, s.endDesc n d sDataError 0 w)
  | (.retired, s) => (false, s.abortAtWord n d w)

/-- The words of a READ of Firn that are still to move. -/
def State.readWords (s : State) (n slot : Nat) : Nat → State
  | 0 => s
  | k + 1 =>
    match s.desc? n slot with
    | none => s
    | some d =>
      if d.st = .admitted ∧ 0 < d.left then
        let (ok, t) := s.readWord n d
        if ok then State.readWords t n slot k else t
      else s

/-- The payload writes of Firn READs before one, across rings in the precedence of R133: every admitted READ of Firn that comes
first moves its words first. -/
def State.readTurn (s : State) (n slot : Nat) : Nat → State
  | 0 => s
  | k + 1 =>
    match firstDesc (s.admitted (fun d => d.st == .admitted && d.kind == 2 && !d.mor && decide (0 < d.left))) with
    | none => s
    | some (m, d) =>
      let t := s.readWords m d.slot (d.left / 64)
      if m = n ∧ d.slot = slot then t else State.readTurn t n slot k

/-- A descriptor of a ring that a slot index names: the oldest that the test takes. -/
def State.descAt (s : State) (n : Nat) (slot : BitVec 15) (p : Desc → Bool) : Option Desc :=
  (s.ring n).descs.find? (fun d => d.slot % 2 ^ 15 == slot.toNat && p d)

/-- The last data of an admitted WRITE, READ or SEND: what is left moves, and the descriptor completes when nothing is. -/
def State.dataEnds (s : State) (n : Nat) (d : Desc) (rest : List Byte) : State :=
  let s := if d.kind = 1 then s.writeData n d rest else if d.kind = 2 && !d.mor then s.readTurn n d.slot 512 else s
  match s.desc? n d.slot with
  | some e =>
    if e.st != .admitted then s
    else if e.kind = 6 then
      if s.sendWaits n e.slot then s else (s.modDesc n e.slot (fun e => { e with moved := e.length, left := 0 })).finishDesc n
        { e with moved := e.length, left := 0 }
    else if e.left = 0 then s.finishDesc n e else s
  | none => s

/-! ORDER (R125, R136, R357). -/

/-- Core cycles from a descriptor's arrival to the time block's queue: HIF_CMD_LAT. -/
def cmdLat : Nat := 24

/-- The targets of an ORDER descriptor of ring n at this node, under a source and a sequence number: each is refused or on
its way to the time block's queue. -/
def State.orderTargets (s : State) (n : Nat) (d : Desc) (src : OrdSrc) (oseq : BitVec 32) : State :=
  let due := max (d.arrived + cmdLat) s.now
  let target (k : Nat) : Ord := { s.descOrd n d k with src := src, oseq := oseq, arrival := due }
  let step (x : State × List (Nat × Option Nat)) (k : Nat) : State × List (Nat × Option Nat) :=
    match x.1.ordTests (target k) (due - s.now) x.2.length with
    | .ok t => (x.1, x.2 ++ [(k, t)])
    | .error (st, delay) => (x.1.finishOrd (target k) st delay 0, x.2)
  let (s, taken) := d.chans.foldl step (s, [])
  match taken with
  | [] => s
  | (_, t) :: _ =>
    let mask := taken.foldl (fun m x => m ||| BitVec.ofNat 24 (2 ^ x.1)) (0 : BitVec 24)
    { s with time := { s.time with inbound := s.time.inbound ++ [⟨{ target 0 with tick := t }, mask, due⟩] } }

/-- The completion of a launch-at's own send. What its AUX holds where it completes DONE or REFUSED_UNLOCKED is open: R141
names the node of a target, and a send has none (log 28). -/
def State.sendEnds (s : State) (n : Nat) (d : Desc) (status aux : Nat) : State :=
  let s := s.modDesc n d.slot (fun d => { d with left := 0 })
  if status = sDone ∨ status = sUnlocked then
    let (v, s) := s.freeVal 32
    s.complete n d (s.cplOf n d status 0 v.toNat)
  else s.complete n d (s.cplOf n d status 0 aux)

/-- An ORDER with FABRIC set is sent as a launch-at (R357); one that names this node queues its targets here too, and
otherwise the slots of its targets are returned. -/
def State.orderSend (s : State) (n : Nat) (d : Desc) : State :=
  let dest := d.fld 256 16
  let alone (s : State) : State := s.modDesc n d.slot (fun d => { d with owed := 1 })
  let refuse (st aux : Nat) : State := (alone s).sendEnds n { d with owed := 1 } st aux
  if !s.time.locked then refuse sUnlocked 0
  else match s.sendTest dest with
    | some (st, aux) => refuse st aux
    | none =>
      let oseq := s.nzl.orderSeq
      let here := s.isFor dest
      let pkt : LaunchPkt :=
        { src := s.node, dest := BitVec.ofNat 16 dest, effect := (d.word >>> 128).setWidth 80,
          prio := BitVec.ofNat 4 (d.fld 220 4), lane := BitVec.ofNat 3 (d.fld 217 3),
          seqMask := BitVec.ofNat 24 (d.fld 224 24), action := (d.word >>> 288).setWidth 128, orderSeq := oseq,
          tag := d.dw 0, ttl := 31 }
      let s := if here then s else alone s
      let s := (s.modDesc n d.slot (fun d => { d with left := 1 })).launchSend pkt (n, d.slot)
      let s := if s.sendWaits n d.slot then s
        else match s.desc? n d.slot with
          | some e => s.sendEnds n e sDone 0
          | none => s
      if here then s.orderTargets n d .fabric oseq else s

/-- The oldest descriptor of ring n is an ORDER: its tests, then its targets or its send. -/
def State.orderDesc (s : State) (n : Nat) : State :=
  match s.oldest n 3 with
  | none => s
  | some d =>
    match d.fault (s.ringClass n) with
    | some dw => s.endDesc n d sConfig 0 dw
    | none =>
      if s.isRetired uRing n then s.refuseRetired n d
      else if !s.hasCredit n then s
      else
        let s := s.modDesc n d.slot (fun d => { d with st := .admitted })
        let d := { d with st := .admitted }
        if d.fabric then s.orderSend n d else s.orderTargets n d .host 0

/-- The last packet of a launch-at has left: its send completes (R357), once: `left` is 1 until then. -/
def State.launchSent (s : State) (n : Nat) (d : Desc) : State :=
  if d.kind = 3 && d.fabric && d.left == 1 && !s.sendWaits n d.slot then s.sendEnds n d sDone 0 else s

/-! STAGE, FENCE, SEND and host faults (R125, R140). -/

/-- The reads of a set image or a message, which a command answers at once, on the payload tags that are free (R114). -/
def State.payloadNow (s : State) (d : Desc) : State :=
  let n := if d.kind = 6 then d.length else d.fld 192 13
  s.readNow (d.fld 128 64) n (240 - s.readTags) (n / 128 + 2) 0

/-- The set image of a STAGE descriptor has been read: it goes to the staging store (R136). -/
def State.stageImage (s : State) (n : Nat) (d : Desc) (image : List (BitVec 64)) : State :=
  let image := image.take (d.fld 192 13 / 8)
  { s with time := { s.time with
    inSets := s.time.inSets ++ [⟨imageSet .host n d image, bits (image.getD 1 0) 16 16, s.now⟩] } }

/-- A SEND has read its message (R357, 13 R361). -/
def State.sendMessage (s : State) (n : Nat) (d : Desc) (p : List Byte) : State :=
  let dest := d.fld 224 16
  match s.sendTest dest with
  | some (st, aux) => s.endDesc n d st 0 aux
  | none => s.mailSend dest (d.fld 240 8) (d.dw 0).toNat (p.take d.length) (n, d.slot)

/-- The FENCE at the front of ring n completes (R125). -/
def State.fenceEnds (s : State) (n : Nat) : State :=
  match (s.ring n).descs with
  | d :: _ => if d.kind = 5 && d.st == .admitted then s.endDesc n d sDone 0 0 else s
  | [] => s

/-- AUX of HOST_FAULT (R141). -/
def hostCauseCode : HostCause → Nat
  | .unsupported => 1
  | .abort => 2
  | .poisoned => 3
  | .timeout => 4
  | .ecrc => 5

/-- A payload read of a descriptor fails (R140): an admitted WRITE, or the oldest descriptor that waits where it would be
admitted and reads host memory. -/
def State.hostFails (s : State) (n : Nat) (slot : BitVec 15) (c : HostCause) : State :=
  let fail (d : Desc) : State := (((s.endDesc n d sHostFault 0 (hostCauseCode c)).detect 0x04 uRing n 0).reportAer c).issueReads 240
  match s.descAt n slot (fun d => d.st == .admitted && d.kind == 1) with
  | some d => fail d
  | none =>
    match (s.ring n).descs.find? (fun d => d.st == .fetched) with
    | some d =>
      if d.slot % 2 ^ 15 == slot.toNat && (d.kind == 1 || d.kind == 4 || d.kind == 6) && (s.refuses n d).isNone then fail d
      else s
    | none => s

/-! BAR4 (R115, R158). -/

/-- A BAR4 access that HIF_BAR4_ABORTS counts (R115). -/
def State.bar4Abort (s : State) : State := ((s.bump (wHif + 0x70)).raise aMiscStat (bit1 1)).miscIrq

/-- Bytes of Firn from an address, and whether one of their words was uncorrectable. -/
def State.bar4Bytes (s : State) : Nat → Nat → List Byte × Bool × State
  | _, 0 => ([], false, s)
  | a, k + 1 =>
    let (l, bad, s) := State.bar4Bytes s a k
    let w := (a + k) / 64 % 2 ^ 21
    let (v, bad, s) := match (if k = 0 || (a + k) % 64 = 0 then s.portRead 39 w else
        (if s.firnGone w then .retired else if s.firnPoison w then .ue else .word (s.firnWord w), s)) with
      | (.ue, s) => (0, true, s)
      | (d, s) => (d.value, bad, s)
    (l ++ [(v >>> (8 * ((a + k) % 64))).setWidth 8], bad, s)

/-- A BAR4 read: an uncorrectable word gives zeros, and its completion is poisoned (R115, R157). -/
def State.bar4Read (s : State) (a k : Nat) : State :=
  let (l, bad, s) := s.bar4Bytes a k
  { s with readData := { s.readData with bar4 := l, poisoned := bad } }

/-- The part of a BAR4 write that falls into one word, and whether it was dropped: `a` is the byte address, `l` its bytes
within the word. A retired region drops it; so does an uncorrectable codeword that it does not cover whole. -/
def State.bar4Word (s : State) (a : Nat) (l : List Byte) : Bool × State :=
  let w := a / 64 % 2 ^ 21
  let part := decide (a % 8 ≠ 0) || decide ((a + l.length) % 8 ≠ 0)
  if s.firnGone w then (true, s.bump (wFirn + 0x50))
  else if l.length = 64 then (false, s.firnWrite w (BitVec.ofNat 512 (leNat l)))
  else if s.firnPoison w && part then (true, s.firnUe w)
  else
    let v := leBytes (s.firnWord w) 64
    let s := s.firnPlace w (BitVec.ofNat 512 (leNat (v.take (a % 64) ++ l ++ v.drop (a % 64 + l.length)))) (s.firnPoison w)
    (false, { s with firn := { s.firn with wbQueue := s.firn.wbQueue.filter (fun x => x != w) } })

/-- A BAR4 write, word by word: it counts once where a part of it is dropped (R115). -/
def State.bar4Write (s : State) (a : Nat) (l : List Byte) : State :=
  let k := (a % 64 + l.length + 63) / 64
  let (gone, s) := (List.range k).foldl (fun (x : Bool × State) i =>
    let lo := if i = 0 then 0 else 64 * i - a % 64
    let hi := min l.length (64 * (i + 1) - a % 64)
    if lo < hi then
      let (b, s) := x.2.bar4Word (a + lo) ((l.drop lo).take (hi - lo))
      (x.1 || b, s)
    else x) (false, s)
  if gone then s.bar4Abort else s

/-! The link and power states (R116, R146). -/

/-- Every ring is disabled. -/
def State.ringsOff (s : State) : State := s.each (List.range 256) (fun s n => s.setFld (aRingCfg n) 0 1 0)

/-- The link goes down: rings off, admitted descriptors abandoned, FC_HOST_LINK. -/
def State.linkDown (s : State) : State :=
  if !s.hif.up then s
  else
    let s := s.ringsOff
    let s := s.each (List.range 256) (fun s n =>
      if (s.ring n).descs.isEmpty then s
      else
        let s := s.each (s.ring n).descs (fun s d => s.modRing d.cpl (fun r => { r with reserved := r.reserved - d.reserved }))
        s.modRing n (fun r => { r with descs := [] }))
    let s := { s with time := s.time.orphan }.sendsGone
    let s := ((s.raise aMiscStat (bit1 2)).miscIrq).detect 0x05 0 0 0
    { s with hif := { s.hif with up := false } }

/-- A generation and a width that the link trains to (R112). -/
def linkTrains (gen : BitVec 3) (width : BitVec 5) : Bool :=
  decide (1 ≤ gen.toNat ∧ gen.toNat ≤ 5) && [1, 2, 4, 8, 16].contains width.toNat

/-- The link comes up (R112, R146), at a rate and a width that it trains to: RETRAINED where it has been up before, whose last
rate HIF_LINK keeps. -/
def State.linkComesUp (s : State) (gen : BitVec 3) (width : BitVec 5) : State :=
  if !linkTrains gen width then s else
  let s := s.raiseIf (s.hif.gen != 0) (wHif + 4) 1
  { s with hif := { s.hif with up := true, gen := gen, width := width } }.miscIrq

/-! Interrupts and OVERFLOW (R130, R143). -/

/-- The ring that dropped records takes its OVERFLOW record as soon as it has room for two. -/
def State.overflowDue (s : State) (n : Nat) : State :=
  if s.hif.up && (s.ring n).dropped != 0 && s.ringTakes n cEvt && decide (2 ≤ s.ringFree n) then s.writeOverflow n else s

/-- Whether the oldest unsignalled entry of ring n is older than TIME µs. -/
def State.ageDue (s : State) (n : Nat) : Bool :=
  match (s.ring n).oldest with
  | some t => s.hif.up && s.flag (aRingIrq n) 31 && s.fld (aRingIrq n) 0 8 != 0 &&
      decide (s.fld (aRingIrq n) 0 8 * 1024000 < s.since t)
  | none => false

/-- FT with fraction at which it will be. -/
def State.ageAt (s : State) (n : Nat) : Nat :=
  match (s.ring n).oldest with
  | some t => s.ftN + (s.fld (aRingIrq n) 0 8 * 1024000 + 1 - s.since t) * 2 ^ 32
  | none => s.ftN

/-- The age of a ring's entries asks for its message. -/
def State.ageSignal (s : State) (n : Nat) : State :=
  if s.fld (aRingIrq n) 0 8 = 0 || !s.flag (aRingIrq n) 31 || (s.ring n).oldest.isNone then s
  else
    let t := s.toFt (s.ageAt n)
    if t.ageDue n then t.signalRing n else t

end Sys2Proof.Machine
end

