-- ==== Sys2Proof/Machine/ExecHif.lean ====
section
/-!
DEFINITION. Commands of the host interface: doorbells, rings, descriptors, completions, interrupts, BAR4 and the PCIe link
(chapter 05). What host memory delivers comes with the command.
-/

namespace Sys2Proof.Machine

/-- Code of the HIF window. -/
def cHif : Nat := 0x01

/-- DOORBELL (R120): a partial write is ignored (R121). -/
def execDoorbell (ring : Fin 256) (be : BitVec 4) (value : Word) (s : State) : Host.Outcome State Fault Refusal :=
  ok (if be = 0xF && s.reaches .host then s.during cHif (fun s => s.doorbell ring.val value) else s)

/-- DOORBELL_OUTSIDE (R121): the doorbell register itself is not outside. -/
def execDoorbellOutside (ring : Fin 256) (offset : BitVec 12) (_value : Word) (s : State) :
    Host.Outcome State Fault Refusal :=
  ok (if ring.val < 256 ∧ offset.toNat / 4 ≠ 0 ∧ s.reaches .host = true then
    s.during cHif (fun s => (s.raise aMiscStat (bit1 0)).miscIrq) else s)

/-- RING_ENABLE (R119). -/
def execRingEnable (ring : Fin 256) (w : Wr) (s : State) : Host.Outcome State Fault Refusal :=
  ok (s.write (aRingCfg ring.val) (fixed w 1 1))

/-- RING_DISABLE (R119). -/
def execRingDisable (ring : Fin 256) (w : Wr) (s : State) : Host.Outcome State Fault Refusal :=
  ok (s.write (aRingCfg ring.val) (fixed w 1 0))

/-- DESCRIPTOR_FETCH (R122, R129, R133). -/
def execDescriptorFetch (mem : FetchData) (s : State) : Host.Outcome State Fault Refusal :=
  ok (s.during cHif (fun s => s.fetch mem))

/-- NOP (R125). -/
def execNop (ring : Fin 256) (s : State) : Host.Outcome State Fault Refusal :=
  ok (s.during cHif (fun s => s.takeIn ring.val 0 (fun s d => s.endDesc ring.val d sDone 0 0)))

/-- WRITE (R125): `payload` is what host memory has delivered by now. -/
def execWrite (ring : Fin 256) (payload : List Byte) (s : State) : Host.Outcome State Fault Refusal :=
  ok (s.during cHif (fun s => s.takeIn ring.val 1 (fun s d => s.writeData ring.val d payload)))

/-- READ (R125): the data of a Firn READ is read at its admission, that of a Moraine READ as its bursts return. -/
def execRead (ring : Fin 256) (s : State) : Host.Outcome State Fault Refusal :=
  ok (s.during cHif (fun s => s.takeIn ring.val 2 (fun s d =>
    if d.mor then s else s.readWords ring.val d.slot (d.length / 64))))

/-- ORDER (R125, R136, R357). -/
def execOrder (ring : Fin 256) (s : State) : Host.Outcome State Fault Refusal :=
  ok (s.during cHif (fun s => s.orderDesc ring.val))

/-- STAGE (R125): `image` is its set image, which host memory delivers whole. -/
def execStage (ring : Fin 256) (image : List (BitVec 64)) (s : State) : Host.Outcome State Fault Refusal :=
  ok (s.during cHif (fun s => match s.oldest ring.val 4 with
    | some d =>
      if image.length < d.fld 192 13 / 8 && (s.refuses ring.val d).isNone then s
      else s.takeIn ring.val 4 (fun s d => (s.payloadNow d).stageImage ring.val d image)
    | none => s))

/-- FENCE (R125): it is admitted and waits. -/
def execFence (ring : Fin 256) (s : State) : Host.Outcome State Fault Refusal :=
  ok (s.during cHif (fun s => s.takeIn ring.val 5 (fun s _ => s)))

/-- SEND (R125, 13 R361): `payload` is its message, which host memory delivers whole. -/
def execSend (ring : Fin 256) (payload : List Byte) (s : State) : Host.Outcome State Fault Refusal :=
  ok (s.during cHif (fun s => match s.oldest ring.val 6 with
    | some d =>
      if payload.length < d.length && (s.refuses ring.val d).isNone then s
      else s.takeIn ring.val 6 (fun s d => (s.payloadNow d).sendMessage ring.val d payload)
    | none => s))

/-- FENCE_COMPLETION (R125). -/
def execFenceCompletion (ring : Fin 256) (s : State) : Host.Outcome State Fault Refusal :=
  ok (s.during cHif (fun s => s.fenceEnds ring.val))

/-- DMA_COMPLETION (R138): `rest` is the payload of a WRITE that host memory delivers last. -/
def execDmaCompletion (ring : Fin 256) (slot : BitVec 15) (rest : List Byte) (s : State) :
    Host.Outcome State Fault Refusal :=
  ok (s.during cHif (fun s =>
    match s.descAt ring.val slot (fun d => d.st == .admitted && (d.moves || d.kind == 6)) with
    | some d => s.dataEnds ring.val d rest
    | none => s))

/-- HOST_FAULT (R140). -/
def execHostFault (ring : Fin 256) (slot : BitVec 15) (cause : HostCause) (s : State) :
    Host.Outcome State Fault Refusal :=
  ok (s.during cHif (fun s => s.hostFails ring.val slot cause))

/-- OVERFLOW_RECORD (R130). -/
def execOverflowRecord (ring : Fin 256) (s : State) : Host.Outcome State Fault Refusal :=
  ok (s.during cHif (fun s => s.overflowDue ring.val))

/-- MSIX_AGE_TIMEOUT (R143): core cycles pass until the age is reached. -/
def execMsixAgeTimeout (ring : Fin 256) (s : State) : Host.Outcome State Fault Refusal :=
  ok (s.during cHif (fun s => s.ageSignal ring.val))

/-- MSIX_VECTOR_UNMASK (R143): vector control with its mask bit 0. -/
def execMsixVectorUnmask (vector : Fin 512) (rq : Requester) (be : BitVec 4) (s : State) :
    Host.Outcome State Fault Refusal :=
  ok (s.busWrite rq (wHif + 0x180C + 16 * vector.val) be 0)

/-- BAR4_READ (R115). -/
def execBar4Read (addr : BitVec 27) (length : Nat) (s : State) : Host.Outcome State Fault Refusal :=
  ok (if s.reaches .host then s.during cHif (fun s => s.bar4Read addr.toNat length) else s)

/-- BAR4_WRITE (R158). -/
def execBar4Write (addr : BitVec 27) (data : List Byte) (s : State) : Host.Outcome State Fault Refusal :=
  ok (if s.reaches .host then s.during cHif (fun s => s.bar4Write addr.toNat data) else s)

/-- BAR4_TIMEOUT (R115). -/
def execBar4Timeout (read : Bool) (s : State) : Host.Outcome State Fault Refusal :=
  ok (if s.reaches .host then s.during cHif (fun s =>
    let s := s.bar4Abort
    if read then s.emit .abort else s) else s)

/-- D3HOT_ENTRY (R116). -/
def execD3hotEntry (s : State) : Host.Outcome State Fault Refusal :=
  ok (if s.hk.inReset.isSome then s else { s with hif := { s.hif with d3hot := true } })

/-- D0_RETURN (R116). -/
def execD0Return (s : State) : Host.Outcome State Fault Refusal :=
  ok (if s.hif.d3hot then { s with hif := { s.hif with d3hot := false } }.ringsOff else s)

/-- DL_DOWN (R146). -/
def execDlDown (s : State) : Host.Outcome State Fault Refusal := ok s.linkDown

/-- DL_UP (R146). -/
def execDlUp (gen : BitVec 3) (width : BitVec 5) (s : State) : Host.Outcome State Fault Refusal :=
  ok (if s.hk.inReset.isSome then s else s.linkComesUp gen width)

/-- LAUNCH_SEND_DONE (13 R357). -/
def execLaunchSendDone (ring : Fin 256) (slot : BitVec 15) (s : State) : Host.Outcome State Fault Refusal :=
  ok (s.during cHif (fun s =>
    match s.descAt ring.val slot (fun d => d.st == .admitted && d.kind == 3 && d.fabric) with
    | some d => s.launchSent ring.val d
    | none => s))

end Sys2Proof.Machine
end

