-- ==== Sys2Proof/Machine/ExecHk.lean ====
section
/-!
DEFINITION. Commands of reset, bring-up and the mailbox, of the supplies and the sensors (chapters 15 and 16).
-/

namespace Sys2Proof.Machine

/-- Window code of housekeeping. -/
def cHk : Nat := 0x0C

/-- The mailbox command register with an opcode and a SEQ. -/
def mbWord (opcode seq : BitVec 8) : Word := opcode ++ (seq ++ (0 : BitVec 16))

/-- A mailbox command is written, and firmware takes it (R392). -/
def State.mailbox (s : State) (rq : Requester) (be : BitVec 4) (opcode seq : BitVec 8) : State :=
  (s.busWrite rq (wHk + 0x20) be (mbWord opcode seq)).during cHk State.mbTake

/-- Core cycles pass until the waiting SYSREF is issued (R398). -/
def State.sysrefRow (s : State) : State :=
  match s.hk.sysref with
  | some x =>
    if x.issued.isSome then s
    else match x.at80 with
      | some t => if s.ftN < ftScale t then s.toFt (ftScale t) else s.coreCycle
      | none => s.coreCycle
  | none => s

/-- A reading of a sensor or supply. -/
def Meas.read (m : Meas) (v : Int) : Meas :=
  if m.seen then ⟨true, v, if v < m.min then v else m.min, if m.max < v then v else m.max⟩ else ⟨true, v, v, v⟩

/-- Readings in order of index. -/
def readAll (t : Tab Meas) (l : List Int) : Tab Meas :=
  (List.range l.length).foldl (fun t i => Tab.set (fun _ => Meas.reset) t i
    ((Tab.get (fun _ => Meas.reset) t i).read (l.getD i 0))) t

/-- The hottest of a list of readings and the lowest sensor that reads it. -/
def hottest (l : List Int) : Int × Nat :=
  let m := l.foldl max (l.headD 0)
  (m, l.findIdx (fun v => v == m))

/-- Housekeeping reads the eight sensors (16 R424). -/
def State.sensorsRead (s : State) (l : List Int) : State :=
  let a := wHk + 0x104
  let (m, k) := hottest l
  let hot := decide (8 * (s.fld a 0 8 : Int) ≤ m)
  let cool := decide (m ≤ 8 * ((s.fld a 0 8 : Int) - s.fld a 8 8))
  let thermN := if !s.flag a 16 then true else if hot then false else if cool then true else s.pins.thermN
  { s with pins := { s.pins with
      temps := readAll s.pins.temps l, maxT := BitVec.ofInt 12 m, hot := BitVec.ofNat 3 k, thermN := thermN } }

/-- Nominal voltages of the supplies in mV, by supply index (16 R418). -/
def nominal : List Nat := [750, 800, 900, 1200, 1100, 1100, 1100, 1100, 900, 1800, 1800]

/-- Whether a supply reads outside 2 % of its nominal voltage. -/
def supplyOff (i : Nat) (mv : Nat) : Bool :=
  let n := nominal.getD i 0
  decide (n < 50 * (mv - n) ∨ n < 50 * (n - mv))

/-- Housekeeping measures the supplies (16 R418, HK_SUPPLY_STAT). -/
def State.suppliesRead (s : State) (l : List Nat) : State :=
  let now := bitmap 11 (fun i => decide (i < l.length) && supplyOff i (l.getD i 0))
  let s := s.raise (wHk + 0x108) (BitVec.ofNat 32 (now * 65536))
  { s with pins := { s.pins with
      supplies := readAll s.pins.supplies (l.map (fun (v : Nat) => (v : Int))), supplyNow := BitVec.ofNat 11 now } }

/-- POR (R383): POR_N is low. -/
def execPor (s : State) : Host.Outcome State Fault Refusal :=
  ok ({ s with pins := { s.pins with porN := false } }.doReset .por)

/-- SUPPLY_EXCURSION (16 R421): it triggers a POR whichever the supply. -/
def execSupplyExcursion (supply : Fin 11) (s : State) : Host.Outcome State Fault Refusal :=
  match supply with
  | _ => ok ({ s with pins := { s.pins with supplyOut := true } }.doReset .por)

/-- FULL_RESET (R383): the FULL pulse; CORE beside it changes nothing. -/
def execFullReset (w : Wr) (s : State) : Host.Outcome State Fault Refusal := ok (s.write (wHk + 0x08) (fixed w 2 2))

/-- CORE_RESET (R383): the CORE pulse alone. -/
def execCoreReset (w : Wr) (s : State) : Host.Outcome State Fault Refusal := ok (s.write (wHk + 0x08) (fixed w 3 1))

/-- PCIE_RESET (R383): PERST_N low or a Hot Reset, to its end. -/
def execPcieReset (s : State) : Host.Outcome State Fault Refusal := ok s.pcieWipe

/-- RESET_RELEASE (R383, R386, R401): a CORE or FULL reset is released when its hold has passed, a POR 20 µs after POR_N has risen
with the straps at these levels. -/
def execResetRelease (straps : BitVec 16) (s : State) : Host.Outcome State Fault Refusal :=
  ok (if s.hk.inReset = some .por then (s.release straps).autoBringup else s.resetPass waitFuel)

/-- FIRN_INIT (R387): it ends after its 8,192 bank cycles. -/
def execFirnInit (s : State) : Host.Outcome State Fault Refusal :=
  ok (if s.hk.stage = stFirnInit then s.passUntil (fun s => s.hk.stage != stFirnInit) waitFuel else s)

/-- FW_LOAD (R389). -/
def execFwLoad (result : FlashResult) (s : State) : Host.Outcome State Fault Refusal :=
  ok (s.during cHk (fun s => s.flashLoad result))

/-- HOST_BOOT_GO (R389). -/
def execHostBootGo (w : Wr) (crcOk : Bool) (s : State) : Host.Outcome State Fault Refusal :=
  ok (s.write (wHk + 0x14) (fixed w 0x80000000 0x80000000) { crcOk := some crcOk })

/-- BASE_READY (R390, R401). -/
def execBaseReady (version : Word) (dimms : List DimmRead) (s : State) : Host.Outcome State Fault Refusal :=
  ok (s.during cHk (fun s =>
    let t := s.baseStart version dimms
    if t.hk.stage = s.hk.stage then t else t.autoBringup))

/-- BRINGUP (R393 to R400). -/
def execBringup (rq : Requester) (be : BitVec 4) (seq : BitVec 8) (s : State) : Host.Outcome State Fault Refusal :=
  ok (s.mailbox rq be 1 seq)

/-- BRINGUP_STAGE_TIMEOUT (R394, R395, R397, R399, R400): the time of the stage that runs passes, unless the stage ends before. -/
def execBringupStageTimeout (s : State) : Host.Outcome State Fault Refusal :=
  ok (s.during cHk (fun s => s.passUntil (fun t => t.bringAt != s.bringAt || t.stageLimit.isNone) waitFuel))

/-- SYSREF (R398). -/
def execSysref (rq : Requester) (be : BitVec 4) (seq : BitVec 8) (s : State) : Host.Outcome State Fault Refusal :=
  ok (s.mailbox rq be 2 seq)

/-- SYSREF_EVENT (R398): at B_s. -/
def execSysrefEvent (s : State) : Host.Outcome State Fault Refusal := ok (s.during cHk State.sysrefRow)

/-- FIXED_TABLE (R396). -/
def execFixedTable (rq : Requester) (be : BitVec 4) (seq : BitVec 8) (s : State) : Host.Outcome State Fault Refusal :=
  ok (s.mailbox rq be 3 seq)

/-- BAD_OPCODE (R392): a listed opcode is no such command. -/
def execBadOpcode (rq : Requester) (be : BitVec 4) (opcode seq : BitVec 8) (s : State) :
    Host.Outcome State Fault Refusal :=
  ok (if opcode = 1 || opcode = 2 || opcode = 3 then s else s.mailbox rq be opcode seq)

/-- THERMAL_READING (16 R424): eight readings, each signed in 1/8 degree; the shadow comparisons and these readings run with
the firmware (R390). -/
def execThermalReading (temps : List (BitVec 12)) (s : State) : Host.Outcome State Fault Refusal :=
  ok (s.during cHk (fun s => if s.hk.fw && temps.length = 8 then s.sensorsRead (temps.map BitVec.toInt) else s))

/-- THERMAL_TRIP (16 R425). -/
def execThermalTrip (s : State) : Host.Outcome State Fault Refusal :=
  ok (({ s with pins := { s.pins with tripped := true } }.doReset .por).raise (wHk + 0x100) 0x80000000)

/-- TRIP_RELEASE (16 R425): POR_N counts as risen, THERM_N is released. -/
def execTripRelease (s : State) : Host.Outcome State Fault Refusal :=
  ok (if s.pins.tripped then { s with pins := { s.pins with tripped := false, thermN := true } } else s)

/-- SUPPLY_MEASUREMENT (16 R418): a reading of each of the eleven supplies in mV. -/
def execSupplyMeasurement (millivolts : List (BitVec 16)) (s : State) : Host.Outcome State Fault Refusal :=
  ok (s.during cHk (fun s =>
    if s.hk.fw && millivolts.length = 11 then s.suppliesRead (millivolts.map BitVec.toNat) else s))

end Sys2Proof.Machine
end

