-- ==== Sys2Proof/Machine/ExecMkr.lean ====
section
/-!
DEFINITION. Commands of the lines, their patterns and pairs, of the pad monitor and serializers, and of the angle trackers
(chapter 09; 14 R367). Core cycles pass until the one that holds the edge at which something happens.
-/

namespace Sys2Proof.Machine

/-- Register of a pattern write. -/
def aPat (line : Nat) (reg : PatReg) : Nat :=
  aLine line + (match reg with | .addr => 4 | .len => 8 | .store => 12)

/-- A thing that can happen at one edge happens there, where it is still due when that edge has come. -/
def State.edgeRow (s : State) (f : State → Option Nat) (act : State → State) : State :=
  match f s with
  | some e => s.atEdge e (fun t => if f t = some e then act t else t)
  | none => s

/-- Core cycles pass while a condition of a pair's shaper holds; fuel bounds them. -/
def State.pairUntil (s : State) (p : State → Bool) : Nat → State
  | 0 => s
  | k + 1 => if p s && !s.coreHeld then State.pairUntil s.coreCycle p k else s

/-- The drive of the current core cycle reaches an enabled pair's shaper, and core cycles pass while what a command names is
still to come: at most DEAD and twice 32 samples. -/
def State.pairRow (s : State) (k : Nat) (p : State → Bool) : State :=
  if s.pairOn k then s.coreCycle.pairUntil p 72 else s

/-- An edge of a tracker's input (R259): the first one a tracker in SEEK sees stands in the current core cycle, any other one
stands `since` samples after the last accepted one. -/
def State.toothAt (s : State) (t : Nat) (since : Nat) : Nat :=
  let x := s.trk t
  if x.st = .seek && !x.seen then s.fastNow 0 else x.treal + since

/-- The pad level of a line has differed from its driven level through four core cycles (14 R367). -/
def State.padBad (s : State) (l : Nat) : State :=
  (s.modLine l (fun x => { x with padAt := some s.now })).detect 0x1C uLine l 0

/-- The core cycle from which the pad monitor of a line may see its next occurrence (14 R367): after the last one the levels
agree for a core cycle, and then differ through four. -/
def State.padNext (s : State) (l : Nat) : Nat := match (s.line l).padAt with
  | some c => c + 5
  | none => 4

/-- A serializer of a transmit link loses lock (14 R367). -/
def State.serialLost (s : State) (k : Nat) : State :=
  if (s.txl k).st = .off then s
  else
    let s := s.setTxl k { s.txl k with unlocked := true, lostAt := s.time.elapsed }
    if k < 8 then s.detect 0x0D uFast k 0 else s.detect 0x0D uPlink 0 0

/-- PULSE_END (R247). -/
def execPulseEnd (line : Fin 64) (s : State) : Host.Outcome State Fault Refusal :=
  ok (s.edgeRow (fun s => (s.line line.val).pulseEnd) (fun s => s.pulseDone line.val))

/-- PATTERN_REGISTER_WRITE (R250). -/
def execPatternRegisterWrite (line : Fin 64) (reg : PatReg) (w : Wr) (s : State) : Host.Outcome State Fault Refusal :=
  ok (s.write (aPat line.val reg) w)

/-- PATTERN_PRELOAD_DONE (R249). -/
def execPatternPreloadDone (line : Fin 64) (s : State) : Host.Outcome State Fault Refusal :=
  ok (s.during 0x06 (fun s => if (s.line line.val).ready then s else s.patternLoaded line.val))

/-- PATTERN_START (R249): at the sample of its edge. -/
def execPatternStart (line : Fin 64) (sample : Fin 16) (s : State) : Host.Outcome State Fault Refusal :=
  ok (s.edgeRow (fun s => (s.line line.val).due.filter (fun e => e % 16 == sample.val)) (fun s => s.patternStart line.val))

/-- PATTERN_WRAP (R249, R250). -/
def execPatternWrap (line : Fin 64) (s : State) : Host.Outcome State Fault Refusal :=
  ok (s.edgeRow (fun s => if (s.line line.val).playing then some (s.wrapEdge line.val) else none)
    (fun s => s.patternWrap line.val))

/-- TOOTH_EDGE (R259, R260). -/
def execToothEdge (tracker : Fin 2) (since : BitVec 32) (s : State) : Host.Outcome State Fault Refusal :=
  ok (if (s.trk tracker.val).st = .off then s
    else s.atEdge (s.toothAt tracker.val since.toNat) (fun t =>
      t.toothEdge tracker.val since.toNat (s.toothAt tracker.val since.toNat)))

/-- TOOTH_MISS (R260). -/
def execToothMiss (tracker : Fin 2) (s : State) : Host.Outcome State Fault Refusal :=
  ok (s.edgeRow (fun s => if (s.trk tracker.val).st = .sync then some (s.missEdge tracker.val) else none)
    (fun s => s.toothMiss tracker.val))

/-- INTERVAL_OVERFLOW (R258). -/
def execIntervalOverflow (tracker : Fin 2) (s : State) : Host.Outcome State Fault Refusal :=
  ok (s.edgeRow (fun s => if (s.trk tracker.val).st = .off || !(s.trk tracker.val).seen && (s.trk tracker.val).st == .seek
      then none else some (s.overflowEdge tracker.val))
    (fun s => s.intervalOverflow tracker.val))

/-- ANGLE_EVENT_FIRE (R262, R263): at the sample of its edge. -/
def execAngleEventFire (event : Fin 32) (sample : Fin 16) (s : State) : Host.Outcome State Fault Refusal :=
  ok (s.edgeRow (fun s => (s.angReachEdge event.val).filter (fun e => e % 16 == sample.val)) (fun s => s.angReach event.val))

/-- ANGLE_EVENT_REARM (R262). -/
def execAngleEventRearm (event : Fin 32) (s : State) : Host.Outcome State Fault Refusal :=
  ok (s.edgeRow (fun s => s.angRearmEdge event.val) (fun s => match s.angRearmEdge event.val with
    | some e => s.arm event.val e
    | none => s))

/-- FREE_RUN_END (R263). -/
def execFreeRunEnd (tracker : Fin 2) (s : State) : Host.Outcome State Fault Refusal :=
  ok (s.edgeRow (fun s => if (s.trk tracker.val).st != .sync && (s.trk tracker.val).runs then some (s.freeRunEdge tracker.val)
      else none) (fun s => s.freeRunDone tracker.val))

/-- PAD_MISMATCH (14 R367). -/
def execPadMismatch (line : Fin 64) (s : State) : Host.Outcome State Fault Refusal :=
  ok (s.during 0x06 (fun s =>
    let t := s.toCycle (s.padNext line.val)
    if t.now < s.padNext line.val then t else t.padBad line.val))

/-- SERIALIZER_LOCK_LOSS (14 R367). -/
def execSerializerLockLoss (link : Fin 9) (s : State) : Host.Outcome State Fault Refusal :=
  ok (s.during 0x10 (fun s => s.serialLost link.val))

/-- SERIALIZER_RELOCK (14 R367). -/
def execSerializerRelock (link : Fin 9) (s : State) : Host.Outcome State Fault Refusal :=
  ok (s.during 0x10 (fun s => s.setTxl link.val { s.txl link.val with unlocked := false }))

/-- DEAD_TIME_END (R254, R255). -/
def execDeadTimeEnd (pair : Fin 32) (high pending : Bool) (s : State) : Host.Outcome State Fault Refusal :=
  ok (s.pairRow pair.val (fun s => s.pairWaits pair.val high pending))

/-- MIN_PULSE_END (R255). -/
def execMinPulseEnd (pair : Fin 32) (high : Bool) (s : State) : Host.Outcome State Fault Refusal :=
  ok (s.pairRow pair.val (fun s => s.pairLingers pair.val high))

end Sys2Proof.Machine
end

