-- ==== Sys2Proof/Machine/ExecMor.lean ====
section
/-!
DEFINITION. Commands of Moraine: the map, channels, requests, refresh, self-refresh, calibration, replay, the training
helper and prefetch streams (chapter 07). A row that names an instant passes core cycles until it comes; what the DRAM
returns, the DIMM's alerts and the falling due of calibrations come with the command (log 8, 22).
-/

namespace Sys2Proof.Machine

/-- Code of the MOR window. -/
def cMor : Nat := 0x05

/-- Whether a calibration step that has fallen due has still to start. -/
def State.calWaits (s : State) (ch : Nat) (k : CalKind) : Bool := (s.chan ch).calWait.any (fun e => e.1 == k)

/-- Fu from one step of a kind's falling due to the next: ZQ_INT ms, 1 ms; PHY calibration has no interval (R192). -/
def State.calEvery (s : State) (ch : Nat) (k : CalKind) : Nat :=
  match k with
  | .zqcal => 1024000000 * s.fld (aCh ch + 0x18) 8 8
  | .dqsOsc => 1024000000
  | .phy => 0

/-- A calibration step falls due at a channel that runs, one interval after the one before it (R192). -/
def State.calDue (s : State) (ch : Nat) (k : CalKind) : State :=
  let early (s : State) : Bool := (s.chan ch).calAt.any (fun e => e.1 == k && decide (s.since e.2 < s.calEvery ch k))
  let s := s.morUntil ch (fun s => !early s) (s.cyclesIn (s.calEvery ch k))
  if s.chanRuns ch && !early s && !s.calWaits ch k then
    s.modChan ch (fun x => { x with
      calWait := x.calWait ++ [(k, s.ft64)], calAt := (k, s.ft64) :: x.calAt.filter (fun e => e.1 != k) })
  else s

/-- A calibration step that is due is skipped where it has not started within STARVE us (R192). -/
def State.calSkip (s : State) (ch : Nat) (k : CalKind) : State :=
  let s := if s.calWaits ch k then s else s.calDue ch k
  let fu := 1024000 * s.fld (aCh ch + 0x18) 0 8
  let starved (s : State) : Bool := (s.chan ch).calWait.any (fun e => e.1 == k && decide (fu ≤ s.since e.2))
  let s := s.morUntil ch (fun s => !s.calWaits ch k || starved s) (s.cyclesIn fu)
  if s.chanRuns ch && starved s then
    ((s.modChan ch (fun x => { x with calWait := x.calWait.filter (fun e => e.1 != k) })).bump (aChCnt ch 7)).skipRecord
      0x04 (CalKind.code k) ch 0
  else s

/-- Core cycles that a Moraine row waits at most for a refresh, a command or a replay: longer than each takes. -/
def morFuel : Nat := 65536

/-- The next refresh of a subchannel and rank falls due (R185). -/
def State.refreshDue (s : State) (ch sub rank : Nat) : State :=
  let at_ (s : State) : Nat := Tab.get (fun _ => 0) (s.chan ch).refAt (2 * sub + rank)
  if (s.chan ch).dimm.ranks.contains rank then s.morUntil ch (fun t => at_ t != at_ s) morFuel else s

/-- A bank's activation count has reached RAAIMT: RFMab is issued, unforced or forced (R186). -/
def State.rfmDue (s : State) (ch bank : Nat) : State :=
  s.morUntil ch (fun s =>
    let x := s.chan ch
    !Config.rfmRequired ch || decide (Tab.get (fun _ => 0) x.raa bank < x.tim 0x17)) morFuel

/-- Entry into self-refresh begins once SR_IDLE has passed (R188). -/
def State.srWait (s : State) (ch : Nat) : State :=
  let idle := s.fld (aCh ch + 0x10) 0 16
  s.morUntil ch (fun s =>
    let x := s.chan ch
    x.st != .active || !s.flag (aCh ch) 3 || idle == 0 || x.pending || s.streamOpenAny || s.mor.recovering)
    (s.cyclesIn (1024000 * idle))

/-- The data of the earliest read comes back, once its time has come (R193). -/
def State.morBack (s : State) (ch : Nat) (flips : BitVec 640) : State :=
  let come (s : State) : Bool := match (s.chan ch).nextReturn with
    | some e => decide (e.due ≤ (s.chan ch).tck)
    | none => false
  let s := s.morUntil ch (fun s => (s.chan ch).reads.isEmpty || come s) morFuel
  if come s then (s.morReturn ch flips).morHostIssue 256 else s

/-- A write of TH_CTRL with GO set and an operation code (R198, R199). -/
def State.thGo (s : State) (ch op : Nat) (w : Wr) : State :=
  s.write (aCh ch + 0x100) (fixed w 0x8F000000 (BitVec.ofNat 32 (2 ^ 31 + op * 2 ^ 24)))

/-- MOR_MAP_WRITE (R178). -/
def execMorMapWrite (w : Wr) (s : State) : Host.Outcome State Fault Refusal := ok (s.write wMor w)

/-- MOR_CHANNEL_ENABLE (R204). -/
def execMorChannelEnable (ch : Fin 4) (w : Wr) (s : State) : Host.Outcome State Fault Refusal :=
  ok (s.write (aCh ch.val) (fixed w 1 1))

/-- MOR_TRAINING_DONE (R184, R197). -/
def execMorTrainingDone (ch : Fin 4) (result : TrainResult) (s : State) : Host.Outcome State Fault Refusal :=
  ok (s.during cMor (fun s => (s.trainDone ch.val result).bringCheck))

/-- MOR_REQUEST (R179, R189). -/
def execMorRequest (ch : Fin 4) (req : MorReq) (s : State) : Host.Outcome State Fault Refusal :=
  ok (s.during cMor (fun s => s.morArrive ch.val req))

/-- MOR_READ_RETURN (R175, R193): the bits that flipped in the burst. -/
def execMorReadReturn (ch : Fin 4) (flips : BitVec 640) (s : State) : Host.Outcome State Fault Refusal :=
  ok (s.during cMor (fun s => s.morBack ch.val flips))

/-- REFRESH_DUE (R185). -/
def execRefreshDue (ch : Fin 4) (sub : Bool) (rank : Bool) (s : State) : Host.Outcome State Fault Refusal :=
  ok (s.during cMor (fun s => s.refreshDue ch.val (b01 sub) (b01 rank)))

/-- RFM (R186). -/
def execRfm (ch : Fin 4) (bank : BitVec 7) (s : State) : Host.Outcome State Fault Refusal :=
  ok (s.during cMor (fun s => s.rfmDue ch.val bank.toNat))

/-- SELF_REFRESH_ENTRY (R188). -/
def execSelfRefreshEntry (ch : Fin 4) (s : State) : Host.Outcome State Fault Refusal :=
  ok (s.during cMor (fun s => s.srWait ch.val))

/-- SRE (R189). -/
def execSre (ch : Fin 4) (s : State) : Host.Outcome State Fault Refusal := ok
  (s.during cMor (fun s => s.morUntil ch.val (fun s => (s.chan ch.val).st != .srEntry) morFuel))

/-- SRX (R190). -/
def execSrx (ch : Fin 4) (s : State) : Host.Outcome State Fault Refusal := ok
  (s.during cMor (fun s => s.morUntil ch.val (fun s => (s.chan ch.val).st != .selfRefresh || !(s.chan ch.val).pending) morFuel))

/-- CALIBRATION_DUE (R192). -/
def execCalibrationDue (ch : Fin 4) (kind : CalKind) (s : State) : Host.Outcome State Fault Refusal :=
  ok (s.during cMor (fun s => s.calDue ch.val kind))

/-- CALIBRATION_SKIP (R192). -/
def execCalibrationSkip (ch : Fin 4) (kind : CalKind) (s : State) : Host.Outcome State Fault Refusal :=
  ok (s.during cMor (fun s => s.calSkip ch.val kind))

/-- ALERT_N (R195). -/
def execAlertN (ch : Fin 4) (s : State) : Host.Outcome State Fault Refusal := ok (s.during cMor (fun s => s.alert ch.val))

/-- REPLAY_END (R196). -/
def execReplayEnd (ch : Fin 4) (s : State) : Host.Outcome State Fault Refusal :=
  ok (s.during cMor (fun s => s.morUntil ch.val (fun s => (s.chan ch.val).st != .replay) morFuel))

/-- TH_NONE (R198, R199). -/
def execThNone (ch : Fin 4) (w : Wr) (s : State) : Host.Outcome State Fault Refusal := ok (s.thGo ch.val 0 w)

/-- TH_WRITE_READ (R198). -/
def execThWriteRead (ch : Fin 4) (w : Wr) (s : State) : Host.Outcome State Fault Refusal := ok (s.thGo ch.val 1 w)

/-- TH_READ_CMP (R198). -/
def execThReadCmp (ch : Fin 4) (w : Wr) (s : State) : Host.Outcome State Fault Refusal := ok (s.thGo ch.val 2 w)

/-- TH_WRITE (R198). -/
def execThWrite (ch : Fin 4) (w : Wr) (s : State) : Host.Outcome State Fault Refusal := ok (s.thGo ch.val 3 w)

/-- TH_MRW (R198). -/
def execThMrw (ch : Fin 4) (w : Wr) (s : State) : Host.Outcome State Fault Refusal := ok (s.thGo ch.val 4 w)

/-- TH_MRR (R198). -/
def execThMrr (ch : Fin 4) (w : Wr) (s : State) : Host.Outcome State Fault Refusal := ok (s.thGo ch.val 5 w)

/-- TH_MPC (R198). -/
def execThMpc (ch : Fin 4) (w : Wr) (s : State) : Host.Outcome State Fault Refusal := ok (s.thGo ch.val 6 w)

/-- TH_CA_SAMPLE (R198). -/
def execThCaSample (ch : Fin 4) (w : Wr) (s : State) : Host.Outcome State Fault Refusal := ok (s.thGo ch.val 7 w)

/-- TH_WL_SAMPLE (R198). -/
def execThWlSample (ch : Fin 4) (w : Wr) (s : State) : Host.Outcome State Fault Refusal := ok (s.thGo ch.val 8 w)

/-- TH_DONE (R198): the bits that flipped in the bursts read, on the DQ and on the CB lanes, the levels on the DQ feedback,
and the mode register read. -/
def execThDone (ch : Fin 4) (flips : List (Nat × BitVec 512)) (checkFlips : List (Nat × BitVec 128)) (feedback : Word)
    (mrr : BitVec 8) (s : State) : Host.Outcome State Fault Refusal :=
  ok (s.during cMor (fun s => s.thEnd ch.val flips checkFlips feedback mrr))

/-- STREAM_OPEN (R200): an open context is in use. -/
def execStreamOpen (str : Fin 32) (srcMa : BitVec 38) (length : Nat) (base : BitVec 15) (regions : BitVec 15) (s : State) :
    Host.Outcome State Fault Refusal :=
  ok (s.during cMor (fun s =>
    if (s.stream str.val).st = .open then s
    else s.streamStart str.val srcMa.toNat length base.toNat regions.toNat))

/-- STREAM_READ_ISSUE (R201). -/
def execStreamReadIssue (str : Fin 32) (s : State) : Host.Outcome State Fault Refusal :=
  ok (s.during cMor (fun s => s.streamIssue str.val))

/-- STREAM_CLOSE (R203). -/
def execStreamClose (str : Fin 32) (s : State) : Host.Outcome State Fault Refusal :=
  ok (s.during cMor (fun s => s.streamStop str.val))

/-- MOR_MAP_SWITCH (R205): the drain of a channel's retirement ends once nothing of Moraine is active any more, or with its
window (DEDUCED, log 71). -/
def execMorMapSwitch (s : State) : Host.Outcome State Fault Refusal :=
  ok (s.during cMor (fun s =>
    let s := s.passUntil (fun s => !s.morDrains || !s.morBusy) waitFuel
    s.each (s.flt.draining.filter (fun d => d.kind == uDram)) (fun s d => s.drainEnd d.kind d.index)))

end Sys2Proof.Machine
end

