-- ==== Sys2Proof/Machine/ExecNzl.lean ====
section
/-!
DEFINITION. Commands of the fabric: links, packets received and sent, enumeration, time transfer (chapter 13).
-/

namespace Sys2Proof.Machine

/-- Window code of the fabric. -/
def cNzl : Nat := 0x0A

/-- The stamp paths of a link in HELLO or UP are calibrated (R331, R349). -/
def State.stampsCalibrated (s : State) (n : Nat) : State :=
  if (s.link n).st = .hello || (s.link n).st = .up then s.modLink n (fun x => { x with calibrated := true }) else s

/-- Core cycles pass while the fabric waits for something (R331 to R361); what it waits for comes by itself with its time. -/
def State.fabricWait (s : State) (waits : State → Bool) : State := s.passUntil (fun t => !waits t) waitFuel

/-- A TIME packet is due on link n: 4,096 CD_NZTX cycles after the one before it (R349). -/
def State.timeDue (s : State) (n : Nat) : Bool :=
  ((s.link n).st != .up && (s.link n).st != .hello) || (s.link n).timeAt.all (fun a => s.after a (nztxSpan 4096))

/-- LINK_SIGNAL_DETECT (R331). -/
def execLinkSignalDetect (link : Fin 8) (s : State) : Host.Outcome State Fault Refusal :=
  ok (s.during cNzl (fun s => s.linkSignal link.val))

/-- LINK_TRAINED (R331). -/
def execLinkTrained (link : Fin 8) (s : State) : Host.Outcome State Fault Refusal :=
  ok (s.during cNzl (fun s => s.linkTrained link.val))

/-- TRAIN_TIMEOUT (R331). -/
def execTrainTimeout (link : Fin 8) (s : State) : Host.Outcome State Fault Refusal :=
  ok (s.during cNzl (fun s => s.fabricWait (fun t => (t.link link.val).st == .train)))

/-- HELLO (R332, R333). -/
def execHello (link : Fin 8) (dieId : BitVec 64) (peerLink : BitVec 3) (calDone : Bool) (cr : Credits) (s : State) :
    Host.Outcome State Fault Refusal :=
  ok (s.during cNzl (fun s => (s.helloRx link.val dieId peerLink calDone cr).bringCheck))

/-- HELLO_SEND (R333). -/
def execHelloSend (link : Fin 8) (s : State) : Host.Outcome State Fault Refusal :=
  ok (s.during cNzl (fun s => s.fabricWait (fun t => (t.link link.val).st == .hello && (t.link link.val).helloAt == (s.link link.val).helloAt)))

/-- HELLO_TIMEOUT (R331). -/
def execHelloTimeout (link : Fin 8) (s : State) : Host.Outcome State Fault Refusal :=
  ok (s.during cNzl (fun s => s.fabricWait (fun t => (t.link link.val).st == .hello && !(t.link link.val).gotHello)))

/-- LINK_ACK (R330, R332). -/
def execLinkAck (link : Fin 8) (ackLseq : BitVec 8) (cr : Credits) (s : State) : Host.Outcome State Fault Refusal :=
  ok (s.during cNzl (fun s => s.linkAck link.val ackLseq cr))

/-- REPLAY_REQ (R330, R332). -/
def execReplayReq (link : Fin 8) (ackLseq replayLseq : BitVec 8) (cr : Credits) (s : State) :
    Host.Outcome State Fault Refusal :=
  ok (s.during cNzl (fun s => s.replayReq link.val ackLseq replayLseq cr))

/-- IDLE (R332). -/
def execIdle (link : Fin 8) (cr : Credits) (s : State) : Host.Outcome State Fault Refusal :=
  ok (s.during cNzl (fun s => s.linkIdle link.val cr))

/-- BLOCK_LOCK_LOST (R331). -/
def execBlockLockLost (link : Fin 8) (s : State) : Host.Outcome State Fault Refusal :=
  ok (s.during cNzl (fun s => s.blockLost link.val))

/-- TIME_SEND (R349). -/
def execTimeSend (link : Fin 8) (txStamp : BitVec 64) (s : State) : Host.Outcome State Fault Refusal :=
  ok (s.during cNzl (fun s => (s.fabricWait (fun t => !t.timeDue link.val)).timeSend link.val txStamp))

/-- TIME (R349 to R353). -/
def execTime (link : Fin 8) (pkt : TimePkt) (s : State) : Host.Outcome State Fault Refusal :=
  ok (s.during cNzl (fun s => s.timeRx link.val pkt))

/-- ELECT (R338). -/
def execElect (link : Fin 8) (key : ElectKey) (dist : BitVec 5) (s : State) : Host.Outcome State Fault Refusal :=
  ok (s.during cNzl (fun s => s.electRx link.val key dist.toNat))

/-- ELECTION_DECISION (R338): the best key has stood for 200 us. -/
def execElectionDecision (s : State) : Host.Outcome State Fault Refusal := ok (s.during cNzl (fun s => s.fabricWait (fun t => t.nzl.st == .elect && t.nzl.bestAt.isSome)))

/-- DISCOVER (R339). -/
def execDiscover (link : Fin 8) (gen : BitVec 16) (hop : BitVec 5) (path : List (BitVec 3)) (s : State) :
    Host.Outcome State Fault Refusal :=
  ok (s.during cNzl (fun s => s.discoverRx link.val gen hop.toNat path))

/-- REPORT_SEND (R339): the node's hop has stood for 100 us. -/
def execReportSend (s : State) : Host.Outcome State Fault Refusal := ok (s.during cNzl (fun s => s.fabricWait (fun t => t.nzl.hopAt.isSome)))

/-- REPORT (R339, R340). -/
def execReport (h : Hdr) (pkt : ReportPkt) (s : State) : Host.Outcome State Fault Refusal :=
  ok (s.during cNzl (fun s => s.reportRx h pkt))

/-- COLLECTION_END (R339 to R342). -/
def execCollectionEnd (s : State) : Host.Outcome State Fault Refusal :=
  ok (s.during cNzl (fun s => s.fabricWait (fun t => t.nzl.st == .enum && t.nzl.partPlace.isNone)))

/-- CONFIG (R342). -/
def execConfig (h : Hdr) (gen : BitVec 16) (part : ConfigPart) (s : State) : Host.Outcome State Fault Refusal :=
  ok (s.during cNzl (fun s => s.configRx h gen part))

/-- CONFIG_RESEND (R342). -/
def execConfigResend (s : State) : Host.Outcome State Fault Refusal :=
  ok (s.during cNzl (fun s => s.fabricWait (fun t => t.awaitsAck && t.nzl.sentAt == s.nzl.sentAt)))

/-- ACK (R342). -/
def execAck (h : Hdr) (gen : BitVec 16) (node : BitVec 64) (s : State) : Host.Outcome State Fault Refusal :=
  ok (s.during cNzl (fun s => (s.ackRx h gen node).bringCheck))

/-- COMMIT (R342). -/
def execCommit (link : Fin 8) (gen : BitVec 16) (commitFt : FT80) (s : State) : Host.Outcome State Fault Refusal :=
  ok (s.during cNzl (fun s => (s.commitRx link.val gen commitFt).bringCheck))

/-- COMMIT_LIVE (R342). -/
def execCommitLive (s : State) : Host.Outcome State Fault Refusal := ok (s.during cNzl (fun s => s.fabricWait (fun t => t.nzl.commitAt.isSome)))

/-- BEACON_SEND (R344). -/
def execBeaconSend (s : State) : Host.Outcome State Fault Refusal := ok (s.during cNzl (fun s =>
    s.fabricWait (fun t => t.nzl.st == .root && t.nzl.beaconAt == s.nzl.beaconAt)))

/-- BEACON (R344, R347). -/
def execBeacon (link : Fin 8) (gen : BitVec 16) (rootAddr : BitVec 12) (rootDie : BitVec 64) (s : State) :
    Host.Outcome State Fault Refusal :=
  ok (s.during cNzl (fun s => s.beaconRx link.val gen rootAddr rootDie))

/-- BEACON_LOSS (R344). -/
def execBeaconLoss (s : State) : Host.Outcome State Fault Refusal := ok (s.during cNzl (fun s => s.fabricWait (fun t => t.nzl.st == .member)))

/-- JOIN_TIMEOUT (R343). -/
def execJoinTimeout (s : State) : Host.Outcome State Fault Refusal := ok (s.during cNzl (fun s => s.fabricWait (fun t => t.nzl.st == .join && t.nzl.enHop.isNone)))

/-- TOPO (R344). -/
def execTopo (h : Hdr) (gen : BitVec 16) (link state : BitVec 3) (s : State) : Host.Outcome State Fault Refusal :=
  ok (s.during cNzl (fun s => s.topoRx h gen link.toNat state.toNat))

/-- LAUNCH (R358). -/
def execLaunch (link : Fin 8) (pkt : LaunchPkt) (s : State) : Host.Outcome State Fault Refusal :=
  ok (s.during cNzl (fun s => s.launchRx link.val pkt))

/-- MAIL (R361). -/
def execMail (link : Fin 8) (pkt : MailPkt) (s : State) : Host.Outcome State Fault Refusal :=
  ok (s.during cNzl (fun s => s.mailRx link.val pkt))

/-- MAIL_LOST (R361). -/
def execMailLost (src : BitVec 12) (msgId : BitVec 16) (s : State) : Host.Outcome State Fault Refusal :=
  ok (s.during cNzl (fun s => s.fabricWait (fun t => t.nzl.reasm.any (fun r => r.src == src && r.msgId == msgId))))

/-- NAK (R362). -/
def execNak (link : Fin 8) (pkt : NakPkt) (s : State) : Host.Outcome State Fault Refusal :=
  ok (s.during cNzl (fun s => s.nakRx link.val pkt))

/-- PPS_EDGE (R354). -/
def execPpsEdge (offset : BitVec 16) (s : State) : Host.Outcome State Fault Refusal :=
  ok (s.during cNzl (fun s => s.ppsEdge offset.toNat))

/-- PPS_LOST (R354). -/
def execPpsLost (s : State) : Host.Outcome State Fault Refusal := ok (s.during cNzl (fun s => s.fabricWait (fun t => t.nzl.ppsAt.isSome)))

/-- TIME_HOLD_END (R356). -/
def execTimeHoldEnd (s : State) : Host.Outcome State Fault Refusal := ok (s.during cNzl (fun s => s.fabricWait (fun t => t.nzl.holding)))

/-- NZL_CMD_ELECT (R343). -/
def execNzlCmdElect (rq : Requester) (be : BitVec 4) (s : State) : Host.Outcome State Fault Refusal :=
  ok (s.busWrite rq (wNzl + 0x18) be 1)

/-- NZL_CMD_REENUM (R343). -/
def execNzlCmdReenum (rq : Requester) (be : BitVec 4) (s : State) : Host.Outcome State Fault Refusal :=
  ok (s.busWrite rq (wNzl + 0x18) be 2)

/-- STAMP_PATH_CALIBRATION (R331, R349). -/
def execStampPathCalibration (link : Fin 8) (s : State) : Host.Outcome State Fault Refusal :=
  ok (s.during cNzl (fun s => s.stampsCalibrated link.val))

/-- LOST_FLIT (R330, R332, R335): every kind is counted and treated alike. -/
def execLostFlit (link : Fin 8) (kind : LostKind) (s : State) : Host.Outcome State Fault Refusal :=
  match kind with
  | .packet | .linkControl | .laneDisagree | .unlistedType => ok (s.during cNzl (fun s => s.flitLost link.val))

end Sys2Proof.Machine
end

