-- ==== Sys2Proof/Machine/ExecOrders.lean ====
section
/-!
DEFINITION. Commands of orders at their effect samples, of event inputs and of trigger actions (chapters 08 and 09). Core
cycles pass until the one that holds the edge; where no such order or action waits, nothing happens.
-/

namespace Sys2Proof.Machine

/-- The waiting winner of a lane of sequencer n whose action a test takes acts at its effect sample. -/
def State.orderRow (s : State) (n lane : Nat) (p : BitVec 128 → Bool) : State :=
  match (s.winner n lane).filter (fun a => p a.ord.action) with
  | some a => s.atEdge (s.ordEdge a.ord) (fun t => if t.time.acting.contains a then t.winnerActs a else t)
  | none => s

/-- The trigger action of a kind of trigger t of sequencer n that waits for a sample acts. -/
def State.trigRow (s : State) (n t action sample : Nat) : State :=
  match s.trigDue n t action sample with
  | some x => s.atEdge (s.schedEdge x) (fun u =>
      match u.mkr.sched.find? (fun y => y.same x) with
      | some y => u.trigActs y
      | none => u)
  | none => s

/-- ORDER_START (08 R229). -/
def execOrderStart (seq : Fin 24) (s : State) : Host.Outcome State Fault Refusal :=
  ok (s.orderRow seq.val lStart (fun _ => true))

/-- ORDER_STOP_NOW (08 R230). -/
def execOrderStopNow (seq : Fin 24) (s : State) : Host.Outcome State Fault Refusal :=
  ok (s.orderRow seq.val lStop (fun a => !bitOf a 0))

/-- ORDER_STOP_SEGMENT_END (08 R230). -/
def execOrderStopSegmentEnd (seq : Fin 24) (s : State) : Host.Outcome State Fault Refusal :=
  ok (s.orderRow seq.val lStop (fun a => bitOf a 0))

/-- ORDER_JUMP_NOW (08 R228). -/
def execOrderJumpNow (seq : Fin 24) (s : State) : Host.Outcome State Fault Refusal :=
  ok (s.orderRow seq.val lJump (fun a => bits a 21 2 == 0))

/-- ORDER_JUMP_SEGMENT_END (08 R228). -/
def execOrderJumpSegmentEnd (seq : Fin 24) (s : State) : Host.Outcome State Fault Refusal :=
  ok (s.orderRow seq.val lJump (fun a => bits a 21 2 == 1))

/-- ORDER_SET_FLAG (08 R228). -/
def execOrderSetFlag (seq : Fin 24) (s : State) : Host.Outcome State Fault Refusal :=
  ok (s.orderRow seq.val lJump (fun a => bits a 21 2 == 2))

/-- ORDER_CLEAR_FLAG (08 R228). -/
def execOrderClearFlag (seq : Fin 24) (s : State) : Host.Outcome State Fault Refusal :=
  ok (s.orderRow seq.val lJump (fun a => bits a 21 2 == 3))

/-- ORDER_NCO (08 R210). -/
def execOrderNco (seq : Fin 24) (s : State) : Host.Outcome State Fault Refusal :=
  ok (s.orderRow seq.val lNco (fun _ => true))

/-- ORDER_FORCE_RELEASE (08 R212). -/
def execOrderForceRelease (seq : Fin 24) (s : State) : Host.Outcome State Fault Refusal :=
  ok (s.orderRow seq.val lForce (fun a => bits a 0 2 == 0))

/-- ORDER_FORCE_SAFE (08 R212). -/
def execOrderForceSafe (seq : Fin 24) (s : State) : Host.Outcome State Fault Refusal :=
  ok (s.orderRow seq.val lForce (fun a => bits a 0 2 == 1))

/-- ORDER_FORCE_HOLD (08 R212). -/
def execOrderForceHold (seq : Fin 24) (s : State) : Host.Outcome State Fault Refusal :=
  ok (s.orderRow seq.val lForce (fun a => bits a 0 2 == 2))

/-- EVENT_INPUT_EDGE (09 R241): the pin's levels at the sixteen samples of the current core cycle. -/
def execEventInputEdge (input : Fin 16) (levels : BitVec 16) (s : State) : Host.Outcome State Fault Refusal :=
  ok (if s.coreHeld then s else s.inputLevels input.val levels)

/-- JUMP_NOW (08 R226). -/
def execJumpNow (seq : Fin 24) (trig : Fin 8) (sample : Fin 16) (s : State) : Host.Outcome State Fault Refusal :=
  ok (s.trigRow seq.val trig.val 0 sample.val)

/-- JUMP_SEG_END (08 R227). -/
def execJumpSegEnd (seq : Fin 24) (trig : Fin 8) (sample : Fin 16) (s : State) : Host.Outcome State Fault Refusal :=
  ok (s.trigRow seq.val trig.val 1 sample.val)

/-- SET_FLAG (08 R226). -/
def execSetFlag (seq : Fin 24) (trig : Fin 8) (sample : Fin 16) (s : State) : Host.Outcome State Fault Refusal :=
  ok (s.trigRow seq.val trig.val 2 sample.val)

/-- START (08 R229). -/
def execStart (seq : Fin 24) (trig : Fin 8) (sample : Fin 16) (s : State) : Host.Outcome State Fault Refusal :=
  ok (s.trigRow seq.val trig.val 3 sample.val)

/-- STOP_NOW (08 R230). -/
def execStopNow (seq : Fin 24) (trig : Fin 8) (sample : Fin 16) (s : State) : Host.Outcome State Fault Refusal :=
  ok (s.trigRow seq.val trig.val 4 sample.val)

/-- FORCE_SAFE (08 R212). -/
def execForceSafe (seq : Fin 24) (trig : Fin 8) (sample : Fin 16) (s : State) : Host.Outcome State Fault Refusal :=
  ok (s.trigRow seq.val trig.val 5 sample.val)

/-- FORCE_RELEASE (08 R212). -/
def execForceRelease (seq : Fin 24) (trig : Fin 8) (sample : Fin 16) (s : State) : Host.Outcome State Fault Refusal :=
  ok (s.trigRow seq.val trig.val 6 sample.val)

end Sys2Proof.Machine
end

