-- ==== Sys2Proof/Machine/ExecPlay.lean ====
section
/-!
DEFINITION. Commands of the sequencers, their slots, markers and transmit links (chapter 08). An entry acts at the boundary at
which play stands between two occurrences: core cycles pass until the one that holds it.
-/

namespace Sys2Proof.Machine

/-- The entry at the boundary of sequencer n acts there where it is of a kind (R213, R219). What a JUMP or a WAIT tests are
the flags as they stand at the boundary. -/
def State.entryRow (s : State) (n op : Nat) (act : State → LEntry → State) : State :=
  match s.atBoundary n with
  | some x =>
    if entOp x.word = op then
      let e := (s.seq n).bnd
      s.atEdge e (fun t => (t.flagsDue n e).entryStep n op act)
    else s
  | none => s

/-- The first samples that miss something late (R232), as a PLAY keeps them. -/
def lateOf (l : Option Late) : Option (BitVec 8 × Nat × Nat) := l.map (fun x => (x.cause, x.first, x.count))

/-- The playing occurrence of sequencer n ends at its edge. -/
def State.playEndRow (s : State) (n : Nat) : State :=
  match s.playEndEdge n with
  | some e => s.atEdge e (fun t => if t.playEndEdge n = some e then t.playDone n else t)
  | none => s

/-- The end of its own that the START of sequencer n's burst named (R229). -/
def State.ownEndRow (s : State) (n : Nat) : State :=
  match (s.seq n).ownEnd with
  | some f =>
    if (s.seq n).bursting then
      let t := s.toEdge (s.sampleUp n (s.edgeOfFt f))
      let e := t.sampleUp n (t.edgeOfFt f)
      t.atEdge e (fun u => if (u.seq n).bursting && (u.seq n).ownEnd == some f then u.endBurst n e else u)
    else s
  | none => s

/-- Core cycles pass until the underrun episode of sequencer n has ended; fuel bounds them. -/
def State.episodeRow (s : State) (n : Nat) : Nat → State
  | 0 => s
  | k + 1 => if (s.seq n).episode.isNone || s.coreHeld then s else State.episodeRow s.coreCycle n k

/-- Core cycles that an episode takes at most: those of a whole PLAY, and more. -/
def episodeFuel : Nat := 2 ^ 60

/-- The lookahead of sequencer n takes in its next entry, in the next core cycle where it has had one in this one (R219). -/
def State.fetchRow (s : State) (n : Nat) : State :=
  (if (s.seq n).fetchAt = some s.now then s.coreCycle else s).fetchEntry n

/-- The oldest waiting marker action of sequencer n of a kind on a line at a sample index is issued. -/
def State.markerRow (s : State) (n act line sample : Nat) (width : Option Nat) : State :=
  match s.markerDue n act line sample width with
  | some m => s.atEdge m.edge (fun t => if (t.seq n).markers.contains m then t.issueMarker n m else t)
  | none => s

/-- A re-initialisation request of the precision link (R240). -/
def State.jesdReinit (s : State) : State :=
  let l := s.txl 8
  if l.st = .data && s.flag (aLinkCfg 8) 24 then
    let a := aLinkStat 8
    let s := (s.setTxl 8 { l with st := .cgs }).setFld a 16 16 (min 0xFFFF (s.fld a 16 16 + 1))
    (s.raise a (bit1 8)).detect 0x0D uPlink 0 0
  else s

/-- SYNC of the precision link goes high: its ILAS begins (R240). -/
def State.syncHigh (s : State) : State :=
  if (s.txl 8).st = .cgs then s.setTxl 8 { s.txl 8 with st := .ilas, ilasAt := s.now } else s

/-- Core cycles pass until the one in which the ILAS ends (R240). -/
def State.ilasRow (s : State) : State :=
  match s.ilasEnd with
  | some c => (s.toCycle c).ilasTurn
  | none => s

/-- SEQ_CTRL_WRITE (R236): it is live from the next core-cycle boundary. -/
def execSeqCtrlWrite (seq : Fin 24) (w : Wr) (s : State) : Host.Outcome State Fault Refusal := ok (s.write (wSeq seq.val) w)

/-- PLAY_ENTRY (R214). -/
def execPlayEntry (seq : Fin 24) (late : Option Late) (s : State) : Host.Outcome State Fault Refusal :=
  ok (s.entryRow seq.val 1 (fun s x => s.playStart seq.val x (lateOf late)))

/-- LOOP_ENTRY (R215). -/
def execLoopEntry (seq : Fin 24) (s : State) : Host.Outcome State Fault Refusal :=
  ok (s.entryRow seq.val 2 (fun s x => s.loopStep seq.val x))

/-- ENDLOOP_ENTRY (R215). -/
def execEndloopEntry (seq : Fin 24) (s : State) : Host.Outcome State Fault Refusal :=
  ok (s.entryRow seq.val 3 (fun s x => s.loopStep seq.val x))

/-- JUMP_ENTRY (R216). -/
def execJumpEntry (seq : Fin 24) (s : State) : Host.Outcome State Fault Refusal :=
  ok (s.entryRow seq.val 4 (fun s x => s.jumpStep seq.val x))

/-- WAIT_ENTRY (R217). -/
def execWaitEntry (seq : Fin 24) (s : State) : Host.Outcome State Fault Refusal :=
  ok (s.entryRow seq.val 5 (fun s x => s.waitStep seq.val x))

/-- NCO_ENTRY (R217). -/
def execNcoEntry (seq : Fin 24) (s : State) : Host.Outcome State Fault Refusal :=
  ok (s.entryRow seq.val 6 (fun s x => s.ncoStep seq.val x))

/-- END_ENTRY (R217). -/
def execEndEntry (seq : Fin 24) (s : State) : Host.Outcome State Fault Refusal :=
  ok (s.entryRow seq.val 7 (fun s x => (s.modSeq seq.val (fun q => q.pass x)).endBurst seq.val (s.seq seq.val).bnd))

/-- PLAY_END (R227, R230). -/
def execPlayEnd (seq : Fin 24) (s : State) : Host.Outcome State Fault Refusal := ok (s.playEndRow seq.val)

/-- BURST_OWN_END (R229). -/
def execBurstOwnEnd (seq : Fin 24) (s : State) : Host.Outcome State Fault Refusal := ok (s.ownEndRow seq.val)

/-- TABLE_FETCH (R219). -/
def execTableFetch (seq : Fin 24) (s : State) : Host.Outcome State Fault Refusal :=
  ok (s.during 0x04 (fun s => s.fetchRow seq.val))

/-- SLOT_WRITE (R223). -/
def execSlotWrite (seq : Fin 24) (slot : Fin 8) (w : Wr) (s : State) : Host.Outcome State Fault Refusal :=
  ok (s.write (aSeqSlot seq.val slot.val) w)

/-- SLOT_PRELOAD_DONE (R223). -/
def execSlotPreloadDone (seq : Fin 24) (slot : Fin 8) (s : State) : Host.Outcome State Fault Refusal :=
  ok (s.during 0x04 (fun s => s.slotDone seq.val slot.val))

/-- UNDERRUN_EPISODE_END (R233, R234). -/
def execUnderrunEpisodeEnd (seq : Fin 24) (s : State) : Host.Outcome State Fault Refusal := ok (s.episodeRow seq.val episodeFuel)

/-- MARKER_SET (09 R247). -/
def execMarkerSet (seq : Fin 24) (line : Fin 64) (sample : Fin 16) (s : State) : Host.Outcome State Fault Refusal :=
  ok (s.markerRow seq.val 0 line.val sample.val none)

/-- MARKER_CLEAR (09 R247). -/
def execMarkerClear (seq : Fin 24) (line : Fin 64) (sample : Fin 16) (s : State) : Host.Outcome State Fault Refusal :=
  ok (s.markerRow seq.val 1 line.val sample.val none)

/-- MARKER_TOGGLE (09 R247). -/
def execMarkerToggle (seq : Fin 24) (line : Fin 64) (sample : Fin 16) (s : State) : Host.Outcome State Fault Refusal :=
  ok (s.markerRow seq.val 2 line.val sample.val none)

/-- MARKER_PULSE (09 R247). -/
def execMarkerPulse (seq : Fin 24) (line : Fin 64) (sample : Fin 16) (width : BitVec 16) (s : State) :
    Host.Outcome State Fault Refusal :=
  ok (s.markerRow seq.val 3 line.val sample.val (some width.toNat))

/-- JESD_SYNC_HIGH (R240). -/
def execJesdSyncHigh (s : State) : Host.Outcome State Fault Refusal := ok (s.during 0x10 State.syncHigh)

/-- ILAS_END (R240). -/
def execIlasEnd (s : State) : Host.Outcome State Fault Refusal := ok (s.during 0x10 State.ilasRow)

/-- JESD_REINIT_REQUEST (R240). -/
def execJesdReinitRequest (s : State) : Host.Outcome State Fault Refusal := ok (s.during 0x10 State.jesdReinit)

end Sys2Proof.Machine
end

