-- ==== Sys2Proof/Machine/ExecTap.lean ====
section
/-!
DEFINITION. The TAP's instructions and its reset (chapter 16). What the boundary cells sample at the pins is open (log 7).
-/

namespace Sys2Proof.Machine

/-- The TAP takes an instruction, and the register it selects shifts a word out first (R416). -/
def State.tapTake (s : State) (i : Tap) (tdo : Word) : State := { s with pins := { s.pins with tap := i, tdo := tdo } }

/-- The same with the boundary register selected: what it has sampled is a free value. -/
def State.tapBoundary (s : State) (i : Tap) : State :=
  let (x, t) := s.freeVal 32
  t.tapTake i x

/-- Whether EXTEST, CLAMP and HIGHZ take effect (R417): POR_N is held low with every supply in range. -/
def State.tapDrives (s : State) : Bool := !s.pins.porN && !s.pins.supplyOut

/-- EXTEST (R416, R417). -/
def execExtest (s : State) : Host.Outcome State Fault Refusal :=
  ok (if s.tapDrives then s.tapBoundary .extest else s.tapTake .bypass 0)

/-- SAMPLE/PRELOAD (R416). -/
def execSamplePreload (s : State) : Host.Outcome State Fault Refusal := ok (s.tapBoundary .samplePreload)

/-- IDCODE (R416). -/
def execIdcode (s : State) : Host.Outcome State Fault Refusal := ok (s.tapTake .idcode 0x116805AB)

/-- CLAMP (R416, R417). -/
def execClamp (s : State) : Host.Outcome State Fault Refusal :=
  ok (if s.tapDrives then s.tapTake .clamp 0 else s.tapTake .bypass 0)

/-- HIGHZ (R416, R417). -/
def execHighz (s : State) : Host.Outcome State Fault Refusal :=
  ok (if s.tapDrives then s.tapTake .highz 0 else s.tapTake .bypass 0)

/-- BYPASS (R416), and every unlisted opcode. -/
def execBypass (s : State) : Host.Outcome State Fault Refusal := ok (s.tapTake .bypass 0)

/-- TAP_RESET (R416): TRST_N low. -/
def execTapReset (s : State) : Host.Outcome State Fault Refusal := ok (s.tapTake .idcode 0x116805AB)

end Sys2Proof.Machine
end

