-- ==== Sys2Proof/Machine/ExecTime.lean ====
section
/-!
DEFINITION. Commands of the tick and of fabric time (chapter 03). A row of an instant brings the part to that instant: core
cycles pass until it has come.
-/

namespace Sys2Proof.Machine

/-- Core cycles pass until the end of phase i of the running tick (03 R58); nothing passes where that end has come. -/
def State.toPhaseEnd (s : State) (i : Nat) : State :=
  if s.time.running && decide (s.time.phasesDone ≤ i) then s.advance (s.time.bound i - s.time.cycle) else s

/-- The oldest orders on their way reach the queue in the core cycle of their arrival (R67, R136). -/
def State.nextArrival (s : State) : State :=
  match s.time.inbound with
  | i :: _ => (s.toCycle i.due).ordersArrive
  | [] => s

/-- The oldest set on its way reaches the staging store. -/
def State.nextSet (s : State) : State :=
  match s.time.inSets with
  | i :: _ => (s.toCycle i.due).setsArrive
  | [] => s

/-- Orders of housekeeping reach the queue (R70): each target is admitted or refused by itself; one whose lane or action no
table lists is none. -/
def State.hkOrders (s : State) (h : HkOrder) : State :=
  if 5 ≤ h.lane.toNat || actionBad h.lane.toNat h.action then s
  else
    s.each ((List.range 24).filter (fun n => bitOf h.seqMask n)) (fun s n =>
      let o : Ord :=
        { src := .housekeeping, ring := 0, slot := 0, tag := 0, intr := false, quiet := false, node := s.node, oseq := 0,
          prio := 0, chan := n, lane := h.lane.toNat, action := h.action, t := if h.asap then none else some h.effect,
          arrival := s.now, remote := false, tick := none }
      match s.ordTests o 0 0 with
      | .ok t => { s with time := { s.time with queue := s.time.queue ++ [{ o with tick := t }] } }
      | .error (st, d) => s.finishOrd o st d 0)

/-- TICK_RUN_SET (R57). -/
def execTickRunSet (rq : Requester) (be : BitVec 4) (s : State) : Host.Outcome State Fault Refusal :=
  ok (s.busWrite rq wTime be 1)

/-- FIRST_TICK_START (R57): core cycles pass until the first tick begins. -/
def execFirstTickStart (s : State) : Host.Outcome State Fault Refusal :=
  ok (if !s.time.running && s.flag wTime 0 && s.time.ftValid then s.advance s.nextTickIn else s)

/-- TICK_RUN_CLEAR (R57). -/
def execTickRunClear (rq : Requester) (be : BitVec 4) (s : State) : Host.Outcome State Fault Refusal :=
  ok (s.busWrite rq wTime be 0)

/-- TICK_STOP_FLUSH (R84). -/
def execTickStopFlush (s : State) : Host.Outcome State Fault Refusal :=
  ok (if s.time.flush.isSome then s.flushTicks else s)

/-- TICK_BOUNDARY (R28). -/
def execTickBoundary (s : State) : Host.Outcome State Fault Refusal :=
  ok (if s.time.running then s.advance (s.time.period - s.time.cycle) else s)

/-- STAGED_CONFIGURATION_COMMIT (R79 to R83). -/
def execStagedConfigurationCommit (s : State) : Host.Outcome State Fault Refusal := ok (s.toPhaseEnd 0)

/-- CONTROL_LAW_EVALUATION (11 R296). -/
def execControlLawEvaluation (s : State) : Host.Outcome State Fault Refusal := ok (s.toPhaseEnd 1)

/-- SEQUENCER_COMMIT_OF_ORDERS (R70). -/
def execSequencerCommitOfOrders (s : State) : Host.Outcome State Fault Refusal := ok (s.toPhaseEnd 2)

/-- LOOP_SUPERVISION (12 R319). -/
def execLoopSupervision (s : State) : Host.Outcome State Fault Refusal := ok (s.toPhaseEnd 3)

/-- TELEMETRY_SNAPSHOT (12 R326). -/
def execTelemetrySnapshot (s : State) : Host.Outcome State Fault Refusal := ok (s.toPhaseEnd 4)

/-- FT_LOAD (R63). -/
def execFtLoad (rq : Requester) (be : BitVec 4) (s : State) : Host.Outcome State Fault Refusal :=
  ok (s.busWrite rq (wTime + 0x2C) be 1)

/-- ORDER_QUEUE_ARRIVAL (R67 to R69). -/
def execOrderQueueArrival (hk : Option HkOrder) (s : State) : Host.Outcome State Fault Refusal :=
  ok (match hk with
    | some h => if s.coreHeld then s else s.hkOrders h
    | none => s.nextArrival)

/-- STAGE_SET_ARRIVAL (R77). -/
def execStageSetArrival (s : State) : Host.Outcome State Fault Refusal := ok s.nextSet

end Sys2Proof.Machine
end

