-- ==== Sys2Proof/Machine/ExecTla.lean ====
section
/-!
DEFINITION. Commands of the trigger-logic array: its shadow bank, check, swap, enable, and Serac (chapter 10). Serac and the
check run in CD_SERAC, a domain of the HPLL.
-/

namespace Sys2Proof.Machine

/-- Window code of the domains of the HPLL: CD_SERAC runs with housekeeping's clock. -/
def cSerac : Nat := 0x0C

/-- TLA_SHADOW_STORE (R276). -/
def execTlaShadowStore (w : Wr) (s : State) : Host.Outcome State Fault Refusal := ok (s.write (wTla + 0x28) w)

/-- TLA_CHECK (R277): GO written 1. -/
def execTlaCheck (rq : Requester) (be : BitVec 4) (s : State) : Host.Outcome State Fault Refusal :=
  ok (s.busWrite rq (wTla + 0x08) be 1)

/-- CHECK_DONE (R277): the check that runs ends. -/
def execCheckDone (s : State) : Host.Outcome State Fault Refusal := ok (s.during cSerac State.tlaChecked)

/-- TLA_SWAP (R278, R279): GO written 1; the banks exchange at the next core-cycle boundary. -/
def execTlaSwap (rq : Requester) (be : BitVec 4) (s : State) : Host.Outcome State Fault Refusal :=
  ok (s.busWrite rq (wTla + 0x04) be 1)

/-- TLA_EN_WRITE (R280): the outputs follow at the next core-cycle boundary. -/
def execTlaEnWrite (w : Wr) (s : State) : Host.Outcome State Fault Refusal := ok (s.write wTla w)

/-- Core cycles pass until something holds of the array, or Serac or the core clock has stopped; fuel bounds them. -/
def State.seracUntil (s : State) (p : Tla → Bool) : Nat → State
  | 0 => s
  | k + 1 => if p s.tla || !s.seracRuns || !s.runs cSerac || s.coreHeld then s else State.seracUntil s.coreCycle p k

/-- Core cycles that Serac's rows take at most: a pass with every word starved, and more. -/
def seracFuel : Nat := 2 ^ 40

/-- SERAC_WORD_SCRUB (R281, R282): bits of the present word flip, and Serac finishes the word. -/
def execSeracWordScrub (flips : BitVec 72) (s : State) : Host.Outcome State Fault Refusal :=
  ok (s.during cSerac (fun s => (s.seracFlip flips).seracUntil (fun t => t.pos != s.tla.pos) seracFuel))

/-- SERAC_PASS_END (R281, R284): Serac finishes its half. -/
def execSeracPassEnd (s : State) : Host.Outcome State Fault Refusal :=
  ok (s.during cSerac (fun s => s.seracUntil (fun t => decide (t.pos < 2176) != decide (s.tla.pos < 2176)) seracFuel))

/-- SERAC_SKIP (R283): Serac's word waits while shadow writes hold the memory port, until it is skipped. -/
def execSeracSkip (s : State) : Host.Outcome State Fault Refusal :=
  ok (s.during cSerac (fun s => s.seracUntil (fun t => t.pos != s.tla.pos || t.stores == 0) seracFuel))

/-- SERAC_VOTE (R286): in the next CD_SERAC cycle where the copy has been outvoted on this bit in the present one. -/
def execSeracVote (copy : Fin 3) (bit : Fin 64) (s : State) : Host.Outcome State Fault Refusal :=
  ok (s.during cSerac (fun s =>
    (if s.tla.voted copy.val bit.val then s.seracUntil (fun t => t.clock != s.tla.clock) seracFuel else s).seracVote
      copy.val bit.val))

/-- SERAC_CHECK (R285). -/
def execSeracCheck (s : State) : Host.Outcome State Fault Refusal := ok (s.during cSerac State.seracCheck)

end Sys2Proof.Machine
end

