-- ==== Sys2Proof/Machine/Dispatch.lean ====
section
/-!
DEFINITION. The dispatch: one arm for each command, a direct call of its meaning.
-/

namespace Sys2Proof.Machine

def exec (i : Instr) (s : State) : Host.Outcome State Fault Refusal :=
  match i with
  | .registerWrite offset w => Sys2Proof.Machine.execRegisterWrite offset w s
  | .outsideWrite offset w => Sys2Proof.Machine.execOutsideWrite offset w s
  | .setAliasWrite offset w => Sys2Proof.Machine.execSetAliasWrite offset w s
  | .clearAliasWrite offset w => Sys2Proof.Machine.execClearAliasWrite offset w s
  | .toggleAliasWrite offset w => Sys2Proof.Machine.execToggleAliasWrite offset w s
  | .unlockKeyWrite window rq be => Sys2Proof.Machine.execUnlockKeyWrite window rq be s
  | .unlockDisarmWrite window w => Sys2Proof.Machine.execUnlockDisarmWrite window w s
  | .wvSelect window rq space index => Sys2Proof.Machine.execWvSelect window rq space index s
  | .wvCapture window rq => Sys2Proof.Machine.execWvCapture window rq s
  | .wvDataRead window rq d be => Sys2Proof.Machine.execWvDataRead window rq d be s
  | .wvD3Read window rq be => Sys2Proof.Machine.execWvD3Read window rq be s
  | .shadowCompare => Sys2Proof.Machine.execShadowCompare s
  | .registerUpset u => Sys2Proof.Machine.execRegisterUpset u s
  | .globalEnWrite w => Sys2Proof.Machine.execGlobalEnWrite w s
  | .tickRunSet rq be => Sys2Proof.Machine.execTickRunSet rq be s
  | .firstTickStart => Sys2Proof.Machine.execFirstTickStart s
  | .tickRunClear rq be => Sys2Proof.Machine.execTickRunClear rq be s
  | .tickStopFlush => Sys2Proof.Machine.execTickStopFlush s
  | .tickBoundary => Sys2Proof.Machine.execTickBoundary s
  | .stagedConfigurationCommit => Sys2Proof.Machine.execStagedConfigurationCommit s
  | .controlLawEvaluation => Sys2Proof.Machine.execControlLawEvaluation s
  | .sequencerCommitOfOrders => Sys2Proof.Machine.execSequencerCommitOfOrders s
  | .loopSupervision => Sys2Proof.Machine.execLoopSupervision s
  | .telemetrySnapshot => Sys2Proof.Machine.execTelemetrySnapshot s
  | .ftLoad rq be => Sys2Proof.Machine.execFtLoad rq be s
  | .orderQueueArrival hk => Sys2Proof.Machine.execOrderQueueArrival hk s
  | .stageSetArrival => Sys2Proof.Machine.execStageSetArrival s
  | .orderStart seq => Sys2Proof.Machine.execOrderStart seq s
  | .orderStopNow seq => Sys2Proof.Machine.execOrderStopNow seq s
  | .orderStopSegmentEnd seq => Sys2Proof.Machine.execOrderStopSegmentEnd seq s
  | .orderJumpNow seq => Sys2Proof.Machine.execOrderJumpNow seq s
  | .orderJumpSegmentEnd seq => Sys2Proof.Machine.execOrderJumpSegmentEnd seq s
  | .orderSetFlag seq => Sys2Proof.Machine.execOrderSetFlag seq s
  | .orderClearFlag seq => Sys2Proof.Machine.execOrderClearFlag seq s
  | .orderNco seq => Sys2Proof.Machine.execOrderNco seq s
  | .orderForceRelease seq => Sys2Proof.Machine.execOrderForceRelease seq s
  | .orderForceSafe seq => Sys2Proof.Machine.execOrderForceSafe seq s
  | .orderForceHold seq => Sys2Proof.Machine.execOrderForceHold seq s
  | .eventInputEdge input levels => Sys2Proof.Machine.execEventInputEdge input levels s
  | .jumpNow seq trig sample => Sys2Proof.Machine.execJumpNow seq trig sample s
  | .jumpSegEnd seq trig sample => Sys2Proof.Machine.execJumpSegEnd seq trig sample s
  | .setFlag seq trig sample => Sys2Proof.Machine.execSetFlag seq trig sample s
  | .start seq trig sample => Sys2Proof.Machine.execStart seq trig sample s
  | .stopNow seq trig sample => Sys2Proof.Machine.execStopNow seq trig sample s
  | .forceSafe seq trig sample => Sys2Proof.Machine.execForceSafe seq trig sample s
  | .forceRelease seq trig sample => Sys2Proof.Machine.execForceRelease seq trig sample s
  | .pllEnable pll w => Sys2Proof.Machine.execPllEnable pll w s
  | .pllDisable pll w => Sys2Proof.Machine.execPllDisable pll w s
  | .bandSearchDone pll idle found => Sys2Proof.Machine.execBandSearchDone pll idle found s
  | .pllLock pll phaseErr => Sys2Proof.Machine.execPllLock pll phaseErr s
  | .acquireTimeout pll => Sys2Proof.Machine.execAcquireTimeout pll s
  | .lockLoss pll phaseErr => Sys2Proof.Machine.execLockLoss pll phaseErr s
  | .bypassRetry pll => Sys2Proof.Machine.execBypassRetry pll s
  | .referenceLoss pll pin => Sys2Proof.Machine.execReferenceLoss pll pin s
  | .referenceReturn pll pin => Sys2Proof.Machine.execReferenceReturn pll pin s
  | .holdoverExit pll phaseDiff => Sys2Proof.Machine.execHoldoverExit pll phaseDiff s
  | .holdMaxExpiry pll => Sys2Proof.Machine.execHoldMaxExpiry pll s
  | .refselChange pll w present => Sys2Proof.Machine.execRefselChange pll w present s
  | .spllSearch w => Sys2Proof.Machine.execSpllSearch w s
  | .bandTableLoad w => Sys2Proof.Machine.execBandTableLoad w s
  | .fcwApply pll rq be => Sys2Proof.Machine.execFcwApply pll rq be s
  | .hopRequest w => Sys2Proof.Machine.execHopRequest w s
  | .hopDecision qualified => Sys2Proof.Machine.execHopDecision qualified s
  | .hopSwitchover => Sys2Proof.Machine.execHopSwitchover s
  | .phaseStepWrite w => Sys2Proof.Machine.execPhaseStepWrite w s
  | .clockOutputApply w => Sys2Proof.Machine.execClockOutputApply w s
  | .clockOutputLive => Sys2Proof.Machine.execClockOutputLive s
  | .doorbell ring be value => Sys2Proof.Machine.execDoorbell ring be value s
  | .doorbellOutside ring offset value => Sys2Proof.Machine.execDoorbellOutside ring offset value s
  | .ringEnable ring w => Sys2Proof.Machine.execRingEnable ring w s
  | .ringDisable ring w => Sys2Proof.Machine.execRingDisable ring w s
  | .descriptorFetch mem => Sys2Proof.Machine.execDescriptorFetch mem s
  | .nop ring => Sys2Proof.Machine.execNop ring s
  | .write ring payload => Sys2Proof.Machine.execWrite ring payload s
  | .read ring => Sys2Proof.Machine.execRead ring s
  | .order ring => Sys2Proof.Machine.execOrder ring s
  | .stage ring image => Sys2Proof.Machine.execStage ring image s
  | .fence ring => Sys2Proof.Machine.execFence ring s
  | .send ring payload => Sys2Proof.Machine.execSend ring payload s
  | .fenceCompletion ring => Sys2Proof.Machine.execFenceCompletion ring s
  | .dmaCompletion ring slot rest => Sys2Proof.Machine.execDmaCompletion ring slot rest s
  | .hostFault ring slot cause => Sys2Proof.Machine.execHostFault ring slot cause s
  | .overflowRecord ring => Sys2Proof.Machine.execOverflowRecord ring s
  | .msixAgeTimeout ring => Sys2Proof.Machine.execMsixAgeTimeout ring s
  | .msixVectorUnmask vector rq be => Sys2Proof.Machine.execMsixVectorUnmask vector rq be s
  | .bar4Read addr length => Sys2Proof.Machine.execBar4Read addr length s
  | .bar4Write addr data => Sys2Proof.Machine.execBar4Write addr data s
  | .bar4Timeout read => Sys2Proof.Machine.execBar4Timeout read s
  | .d3hotEntry => Sys2Proof.Machine.execD3hotEntry s
  | .d0Return => Sys2Proof.Machine.execD0Return s
  | .dlDown => Sys2Proof.Machine.execDlDown s
  | .dlUp gen width => Sys2Proof.Machine.execDlUp gen width s
  | .firnAccessServed bank reqs flips => Sys2Proof.Machine.execFirnAccessServed bank reqs flips s
  | .eccWriteBack => Sys2Proof.Machine.execEccWriteBack s
  | .rimeRegionStart => Sys2Proof.Machine.execRimeRegionStart s
  | .rimeCopyDone => Sys2Proof.Machine.execRimeCopyDone s
  | .rimeTestDone mismatched => Sys2Proof.Machine.execRimeTestDone mismatched s
  | .rimeRestoreDone => Sys2Proof.Machine.execRimeRestoreDone s
  | .rimeTimeout => Sys2Proof.Machine.execRimeTimeout s
  | .bankCopyStart => Sys2Proof.Machine.execBankCopyStart s
  | .bankCopySkip rows => Sys2Proof.Machine.execBankCopySkip rows s
  | .bankCopyDone => Sys2Proof.Machine.execBankCopyDone s
  | .firnCmdRepair rq be bank => Sys2Proof.Machine.execFirnCmdRepair rq be bank s
  | .firnCmdRetire rq be region => Sys2Proof.Machine.execFirnCmdRetire rq be region s
  | .morMapWrite w => Sys2Proof.Machine.execMorMapWrite w s
  | .morChannelEnable ch w => Sys2Proof.Machine.execMorChannelEnable ch w s
  | .morTrainingDone ch result => Sys2Proof.Machine.execMorTrainingDone ch result s
  | .morRequest ch req => Sys2Proof.Machine.execMorRequest ch req s
  | .morReadReturn ch flips => Sys2Proof.Machine.execMorReadReturn ch flips s
  | .refreshDue ch sub rank => Sys2Proof.Machine.execRefreshDue ch sub rank s
  | .rfm ch bank => Sys2Proof.Machine.execRfm ch bank s
  | .selfRefreshEntry ch => Sys2Proof.Machine.execSelfRefreshEntry ch s
  | .sre ch => Sys2Proof.Machine.execSre ch s
  | .srx ch => Sys2Proof.Machine.execSrx ch s
  | .calibrationDue ch kind => Sys2Proof.Machine.execCalibrationDue ch kind s
  | .calibrationSkip ch kind => Sys2Proof.Machine.execCalibrationSkip ch kind s
  | .alertN ch => Sys2Proof.Machine.execAlertN ch s
  | .replayEnd ch => Sys2Proof.Machine.execReplayEnd ch s
  | .thNone ch w => Sys2Proof.Machine.execThNone ch w s
  | .thWriteRead ch w => Sys2Proof.Machine.execThWriteRead ch w s
  | .thReadCmp ch w => Sys2Proof.Machine.execThReadCmp ch w s
  | .thWrite ch w => Sys2Proof.Machine.execThWrite ch w s
  | .thMrw ch w => Sys2Proof.Machine.execThMrw ch w s
  | .thMrr ch w => Sys2Proof.Machine.execThMrr ch w s
  | .thMpc ch w => Sys2Proof.Machine.execThMpc ch w s
  | .thCaSample ch w => Sys2Proof.Machine.execThCaSample ch w s
  | .thWlSample ch w => Sys2Proof.Machine.execThWlSample ch w s
  | .thDone ch flips checkFlips feedback mrr => Sys2Proof.Machine.execThDone ch flips checkFlips feedback mrr s
  | .streamOpen str srcMa length base regions => Sys2Proof.Machine.execStreamOpen str srcMa length base regions s
  | .streamReadIssue str => Sys2Proof.Machine.execStreamReadIssue str s
  | .streamClose str => Sys2Proof.Machine.execStreamClose str s
  | .morMapSwitch => Sys2Proof.Machine.execMorMapSwitch s
  | .seqCtrlWrite seq w => Sys2Proof.Machine.execSeqCtrlWrite seq w s
  | .playEntry seq late => Sys2Proof.Machine.execPlayEntry seq late s
  | .loopEntry seq => Sys2Proof.Machine.execLoopEntry seq s
  | .endloopEntry seq => Sys2Proof.Machine.execEndloopEntry seq s
  | .jumpEntry seq => Sys2Proof.Machine.execJumpEntry seq s
  | .waitEntry seq => Sys2Proof.Machine.execWaitEntry seq s
  | .ncoEntry seq => Sys2Proof.Machine.execNcoEntry seq s
  | .endEntry seq => Sys2Proof.Machine.execEndEntry seq s
  | .playEnd seq => Sys2Proof.Machine.execPlayEnd seq s
  | .burstOwnEnd seq => Sys2Proof.Machine.execBurstOwnEnd seq s
  | .tableFetch seq => Sys2Proof.Machine.execTableFetch seq s
  | .slotWrite seq slot w => Sys2Proof.Machine.execSlotWrite seq slot w s
  | .slotPreloadDone seq slot => Sys2Proof.Machine.execSlotPreloadDone seq slot s
  | .underrunEpisodeEnd seq => Sys2Proof.Machine.execUnderrunEpisodeEnd seq s
  | .markerSet seq line sample => Sys2Proof.Machine.execMarkerSet seq line sample s
  | .markerClear seq line sample => Sys2Proof.Machine.execMarkerClear seq line sample s
  | .markerToggle seq line sample => Sys2Proof.Machine.execMarkerToggle seq line sample s
  | .markerPulse seq line sample width => Sys2Proof.Machine.execMarkerPulse seq line sample width s
  | .pulseEnd line => Sys2Proof.Machine.execPulseEnd line s
  | .jesdSyncHigh => Sys2Proof.Machine.execJesdSyncHigh s
  | .ilasEnd => Sys2Proof.Machine.execIlasEnd s
  | .jesdReinitRequest => Sys2Proof.Machine.execJesdReinitRequest s
  | .patternRegisterWrite line reg w => Sys2Proof.Machine.execPatternRegisterWrite line reg w s
  | .patternPreloadDone line => Sys2Proof.Machine.execPatternPreloadDone line s
  | .patternStart line sample => Sys2Proof.Machine.execPatternStart line sample s
  | .patternWrap line => Sys2Proof.Machine.execPatternWrap line s
  | .toothEdge tracker since => Sys2Proof.Machine.execToothEdge tracker since s
  | .toothMiss tracker => Sys2Proof.Machine.execToothMiss tracker s
  | .intervalOverflow tracker => Sys2Proof.Machine.execIntervalOverflow tracker s
  | .angleEventFire event sample => Sys2Proof.Machine.execAngleEventFire event sample s
  | .freeRunEnd tracker => Sys2Proof.Machine.execFreeRunEnd tracker s
  | .tlaShadowStore w => Sys2Proof.Machine.execTlaShadowStore w s
  | .tlaCheck rq be => Sys2Proof.Machine.execTlaCheck rq be s
  | .checkDone => Sys2Proof.Machine.execCheckDone s
  | .tlaSwap rq be => Sys2Proof.Machine.execTlaSwap rq be s
  | .tlaEnWrite w => Sys2Proof.Machine.execTlaEnWrite w s
  | .seracWordScrub flips => Sys2Proof.Machine.execSeracWordScrub flips s
  | .seracPassEnd => Sys2Proof.Machine.execSeracPassEnd s
  | .seracSkip => Sys2Proof.Machine.execSeracSkip s
  | .seracVote copy bit => Sys2Proof.Machine.execSeracVote copy bit s
  | .seracCheck => Sys2Proof.Machine.execSeracCheck s
  | .coefficientWrite slot w => Sys2Proof.Machine.execCoefficientWrite slot w s
  | .coefficientSweep slot set entry flips => Sys2Proof.Machine.execCoefficientSweep slot set entry flips s
  | .qlinkAligned link => Sys2Proof.Machine.execQlinkAligned link s
  | .qlinkMultiblock link crcOk samples => Sys2Proof.Machine.execQlinkMultiblock link crcOk samples s
  | .qlinkLockLost link => Sys2Proof.Machine.execQlinkLockLost link s
  | .linkSignalDetect link => Sys2Proof.Machine.execLinkSignalDetect link s
  | .linkTrained link => Sys2Proof.Machine.execLinkTrained link s
  | .trainTimeout link => Sys2Proof.Machine.execTrainTimeout link s
  | .hello link dieId peerLink calDone cr => Sys2Proof.Machine.execHello link dieId peerLink calDone cr s
  | .helloSend link => Sys2Proof.Machine.execHelloSend link s
  | .helloTimeout link => Sys2Proof.Machine.execHelloTimeout link s
  | .linkAck link ackLseq cr => Sys2Proof.Machine.execLinkAck link ackLseq cr s
  | .replayReq link ackLseq replayLseq cr => Sys2Proof.Machine.execReplayReq link ackLseq replayLseq cr s
  | .idle link cr => Sys2Proof.Machine.execIdle link cr s
  | .blockLockLost link => Sys2Proof.Machine.execBlockLockLost link s
  | .timeSend link txStamp => Sys2Proof.Machine.execTimeSend link txStamp s
  | .time link pkt => Sys2Proof.Machine.execTime link pkt s
  | .elect link key dist => Sys2Proof.Machine.execElect link key dist s
  | .electionDecision => Sys2Proof.Machine.execElectionDecision s
  | .discover link gen hop path => Sys2Proof.Machine.execDiscover link gen hop path s
  | .reportSend => Sys2Proof.Machine.execReportSend s
  | .report h pkt => Sys2Proof.Machine.execReport h pkt s
  | .collectionEnd => Sys2Proof.Machine.execCollectionEnd s
  | .config h gen part => Sys2Proof.Machine.execConfig h gen part s
  | .configResend => Sys2Proof.Machine.execConfigResend s
  | .ack h gen node => Sys2Proof.Machine.execAck h gen node s
  | .commit link gen commitFt => Sys2Proof.Machine.execCommit link gen commitFt s
  | .commitLive => Sys2Proof.Machine.execCommitLive s
  | .beaconSend => Sys2Proof.Machine.execBeaconSend s
  | .beacon link gen rootAddr rootDie => Sys2Proof.Machine.execBeacon link gen rootAddr rootDie s
  | .beaconLoss => Sys2Proof.Machine.execBeaconLoss s
  | .joinTimeout => Sys2Proof.Machine.execJoinTimeout s
  | .topo h gen link state => Sys2Proof.Machine.execTopo h gen link state s
  | .launch link pkt => Sys2Proof.Machine.execLaunch link pkt s
  | .launchSendDone ring slot => Sys2Proof.Machine.execLaunchSendDone ring slot s
  | .mail link pkt => Sys2Proof.Machine.execMail link pkt s
  | .mailLost src msgId => Sys2Proof.Machine.execMailLost src msgId s
  | .nak link pkt => Sys2Proof.Machine.execNak link pkt s
  | .ppsEdge offset => Sys2Proof.Machine.execPpsEdge offset s
  | .ppsLost => Sys2Proof.Machine.execPpsLost s
  | .timeHoldEnd => Sys2Proof.Machine.execTimeHoldEnd s
  | .nzlCmdElect rq be => Sys2Proof.Machine.execNzlCmdElect rq be s
  | .nzlCmdReenum rq be => Sys2Proof.Machine.execNzlCmdReenum rq be s
  | .faultDetection => Sys2Proof.Machine.execFaultDetection s
  | .budgetWindowClose cls kind index => Sys2Proof.Machine.execBudgetWindowClose cls kind index s
  | .drainWindowEnd kind index => Sys2Proof.Machine.execDrainWindowEnd kind index s
  | .fltRetire w => Sys2Proof.Machine.execFltRetire w s
  | .padMismatch line => Sys2Proof.Machine.execPadMismatch line s
  | .serializerLockLoss link => Sys2Proof.Machine.execSerializerLockLoss link s
  | .clearOnRead offset rq be => Sys2Proof.Machine.execClearOnRead offset rq be s
  | .lostFlit link kind => Sys2Proof.Machine.execLostFlit link kind s
  | .deadTimeEnd pair high pending => Sys2Proof.Machine.execDeadTimeEnd pair high pending s
  | .minPulseEnd pair high => Sys2Proof.Machine.execMinPulseEnd pair high s
  | .angleEventRearm event => Sys2Proof.Machine.execAngleEventRearm event s
  | .serializerRelock link => Sys2Proof.Machine.execSerializerRelock link s
  | .stampPathCalibration link => Sys2Proof.Machine.execStampPathCalibration link s
  | .supplyExcursion supply => Sys2Proof.Machine.execSupplyExcursion supply s
  | .fullReset w => Sys2Proof.Machine.execFullReset w s
  | .coreReset w => Sys2Proof.Machine.execCoreReset w s
  | .resetRelease straps => Sys2Proof.Machine.execResetRelease straps s
  | .fwLoad result => Sys2Proof.Machine.execFwLoad result s
  | .hostBootGo w crcOk => Sys2Proof.Machine.execHostBootGo w crcOk s
  | .baseReady version dimms => Sys2Proof.Machine.execBaseReady version dimms s
  | .bringup rq be seq => Sys2Proof.Machine.execBringup rq be seq s
  | .sysref rq be seq => Sys2Proof.Machine.execSysref rq be seq s
  | .fixedTable rq be seq => Sys2Proof.Machine.execFixedTable rq be seq s
  | .badOpcode rq be opcode seq => Sys2Proof.Machine.execBadOpcode rq be opcode seq s
  | .thermalReading temps => Sys2Proof.Machine.execThermalReading temps s
  | .supplyMeasurement millivolts => Sys2Proof.Machine.execSupplyMeasurement millivolts s
  | .por => Sys2Proof.Machine.execPor s
  | .pcieReset => Sys2Proof.Machine.execPcieReset s
  | .firnInit => Sys2Proof.Machine.execFirnInit s
  | .bringupStageTimeout => Sys2Proof.Machine.execBringupStageTimeout s
  | .sysrefEvent => Sys2Proof.Machine.execSysrefEvent s
  | .thermalTrip => Sys2Proof.Machine.execThermalTrip s
  | .tripRelease => Sys2Proof.Machine.execTripRelease s
  | .extest => Sys2Proof.Machine.execExtest s
  | .samplePreload => Sys2Proof.Machine.execSamplePreload s
  | .idcode => Sys2Proof.Machine.execIdcode s
  | .clamp => Sys2Proof.Machine.execClamp s
  | .highz => Sys2Proof.Machine.execHighz s
  | .bypass => Sys2Proof.Machine.execBypass s
  | .tapReset => Sys2Proof.Machine.execTapReset s

end Sys2Proof.Machine
end

