-- ==== Sys2Proof/Safety.lean ====
section
/-!
DEFINITION. What a safe run is: the block goes on, with no fault and no refusal. And the words in which statements say when
a register access is accepted.
-/

namespace Sys2Proof.Safety

open Sys2Proof.Machine

/-- A step of `s` goes on to a next state. -/
def Goes (s : State) : Prop := ∃ t, step s = .next t

/-- `k` steps of the block go on. -/
def Runs (k : Nat) (s : State) : Prop := ∃ t, Sys2Proof.core.run k s = .next t

/-- The state once a write of a requester into a window has consumed its arm, if it was set: UNLOCK_WASTED is set where the
target is not a guarded register (02 R43). -/
def armSpent (s : State) (rq : Requester) (w : Nat) (guarded : Bool) : State :=
  if (s.ctx w rq).arm then (s.modCtx w rq (fun c => { c with arm := false })).setStatus w rq (if guarded then 0 else 1) else s

/-- A full write of `v` in quarter `q` to the register with row `r` at base address `a` reaches its window and no cause of
02 R45 discards it. -/
structure Takes (s : State) (rq : Requester) (a q : Nat) (r : RegRow) (v : Word) : Prop where
  row : rowOf a = some r
  word : a % 4 = 0
  quarter : q < 4
  reaches : s.reaches rq = true
  inside : s.outside a = false
  aliases : q = 0 ∨ r.aliases = true
  writable : r.mask .rw ||| r.requestMask ≠ 0
  armed : r.guarded = true → (s.ctx (a / 0x10000) rq).arm = true
  listed : r.encOk (r.written q (s.reg a) v).2 = true
  rule : (armSpent s rq (a / 0x10000) r.guarded).blockRule a (r.written q (s.reg a) v).2 .direct = none

/-- No write that ranks after one of a requester has landed on the register at base address `a` in this core cycle (02 R38, R47). -/
def Last (s : State) (rq : Requester) (a : Nat) : Prop := s.landedOver a (landRank rq) = (0, 0)

/-- No unit that a register belongs to is retired (14 R378). -/
def Live (s : State) (a : Nat) : Prop := (scopesOf a).any s.scopeGone = false

/-- The state once an accepted full write of `v` in quarter `q` to the register with row `r` at base address `a` is stored, before
its own effect: the arm spent, the stored bits written, the write noted as landed in this core cycle (02 R38, R39, R43). -/
def lands (s : State) (rq : Requester) (a q : Nat) (r : RegRow) (v : Word) : State :=
  let u := armSpent s rq (a / 0x10000) r.guarded
  if r.mask .rw = 0 then u else (u.setReg a (u.landing r a (landRank rq) q v)).land a (landRank rq) q (r.mask .rw) v

/-- The same for a write in the base quarter. -/
def wrote (s : State) (rq : Requester) (a : Nat) (r : RegRow) (v : Word) : State := lands s rq a 0 r v

/-- A write command `w` that its row completes to the value `v`: all four bytes, and it is accepted by a register at base
address `a` of a unit that is not retired, on which no write that ranks after it has landed in this core cycle. -/
structure Written (s : State) (w : Wr) (a : Nat) (r : RegRow) (v : Word) : Prop where
  full : w.be = 0xF
  takes : Takes s w.rq a 0 r v
  live : Live s a
  last : Last s w.rq a

/-- Housekeeping adds no step of its own: no BRINGUP runs and the part is past the lock of its own clock (15 R388, R394). -/
structure Quiet (s : State) : Prop where
  bring : s.hk.bring = none
  stage : 2 ≤ s.hk.stage.toNat

/-- The waiting winner of a lane of sequencer `n`, whose effect sample has come by the present core cycle (03 R66). -/
structure Ready (s : State) (n lane : Nat) (a : Acting) : Prop where
  winner : s.winner n lane = some a
  come : s.ordEdge a.ord / 16 ≤ s.now

/-- The state `t` with the place in the tick and the status of a winner that has acted (08 R231). -/
def acted (s t : State) (a : Acting) (status : Nat) : State :=
  { t with time := { t.time with
      acting := modFirst (fun x => x == a)
        (fun x => { x with
          actedAt := some (s.tickSample (s.ordEdge a.ord)), heldFrom := (s.edgeN (s.ordEdge a.ord)).toNat
          status := BitVec.ofNat 8 status }) t.time.acting } }

/-- What an action on sequencer `n` leaves as it is: every other sequencer, Firn, time, and every block but the ones that keep
streams, lines, events and host rings. -/
structure OnlySeq (n : Nat) (s t : State) : Prop where
  seqs : ∀ m, m ≠ n → t.seq m = s.seq m
  firn : t.firn = s.firn
  time : t.time = s.time
  clk : t.clk = s.clk
  flt : t.flt = s.flt
  ang : t.ang = s.ang
  tla : t.tla = s.tla
  cle : t.cle = s.cle
  nzl : t.nzl = s.nzl
  hk : t.hk = s.hk
  pins : t.pins = s.pins
  tx : t.tx = s.tx
  top : t.top = s.top
  shadow : t.shadow = s.shadow
  ctxs : t.ctxs = s.ctxs
  chans : t.mor.chans = s.mor.chans
  pending : t.pending = s.pending

/-- The state in which the precedence of a trigger action on its way has been judged (03 R70 to R74). -/
def judged (s : State) (x : Sched) : State := if x.claimed then s else s.trigClaim x

/-- A trigger action `x` of a kind of trigger `t` of sequencer `n` is on its way, decoded, and its sample has come (03 R74). -/
structure Due (s : State) (n t action sample : Nat) (x : Sched) : Prop where
  due : s.trigDue n t action sample = some x
  found : s.mkr.sched.find? (fun y => y.same x) = some x
  come : s.schedEdge x / 16 ≤ s.now

/-- What is known on the target of a trigger action of sequencer `n` keeps it from acting: a higher class in its tick, or a lower
trigger number on its sample (03 R70, R71, 08 R226). -/
def muted (s : State) (n : Nat) (x : Sched) : Bool :=
  ((judged s x).imms n (trigLane x.action)).any (fun m => (judged s x).immMutes m .event (s.schedEdge x) x.trig)

/-- A trigger action `x` whose sample has come, on a channel that is not retired, and that nothing keeps from acting; `u` is the state
in which it has superseded the committed orders on its target (03 R72). -/
structure Fires (s : State) (n t action sample : Nat) (x : Sched) (u : State) : Prop where
  waits : Due s n t action sample x
  lives : s.seqRetired n = false
  first : muted s n x = false
  stands : u = (judged s x).override .event n (trigLane action) (s.schedEdge x)

/-- Play of sequencer `n` stands at a boundary that has come, with the entry `x` of a kind next, and no flag of the channel changes
before it (08 R213, R219). -/
structure AtEntry (s : State) (n op : Nat) (x : LEntry) : Prop where
  next : s.atBoundary n = some x
  kind : entOp x.word = op
  come : (s.seq n).bnd / 16 ≤ s.now
  settled : s.flagsDue n (s.seq n).bnd = s

/-- Core cycles pass from `s` until `p` holds, or Moraine channel `ch` has no bus to run on; `f` bounds them. -/
def Waits (s : State) (ch f : Nat) (p : State → Prop) (t : State) : Prop :=
  ∃ k, k ≤ f ∧ t = s.advance k ∧ (k = f ∨ p t ∨ t.chanRuns ch = false) ∧ ∀ j, j < k → ¬ p (s.advance j)

/-- Core cycles pass from `s` until `p` holds, or the core clock has stopped; `f` bounds them. -/
def Passes (s : State) (f : Nat) (p : State → Prop) (t : State) : Prop :=
  ∃ k, k ≤ f ∧ t = s.advance k ∧ (k = f ∨ p t ∨ t.coreHeld = true) ∧ ∀ j, j < k → ¬ p (s.advance j)

/-- No packet that waits at an output, or is kept for a replay, still holds flits of the input of link `n` (13 R329). -/
def NoHeld (s : State) (n : Nat) : Prop :=
  ∀ m, m < 8 → ∀ p ∈ (s.link m).queue ++ (s.link m).retry, ∀ k, p.input ≠ some (n, k)

/-- Time brings nothing to the links and the state of the node, and nothing that waits in the fabric block for its time but what the
arguments say does: the report, the COMMIT, the end of the hold, the loss of PPS, a message's fragment (13 R331 to R361). -/
structure Rests (s : State) (report commit hold pps mail : Prop) : Prop where
  links : ∀ n, n < 8 → (s.link n).st ≠ .train ∧ (s.link n).st ≠ .hello
  node : s.nodeTurn = s
  reports : report ∨ s.nzl.hopAt = none
  commits : commit ∨ s.nzl.commitAt = none
  holds : hold ∨ s.nzl.holding = false
  pulses : pps ∨ s.nzl.ppsAt = none
  mails : mail ∨ s.nzl.reasm = []

/-- No angle event takes tracker `t` to act on it: every one is off and armed (09 R262). -/
def NoEvents (s : State) (t : Nat) : Prop := ∀ k, k < 32 → s.evTrk k = t → s.evOn k = false ∧ s.evArmed k = true

end Sys2Proof.Safety
end

