-- ==== Sys2Proof/Certificates/Slice0/Obligations.lean ====
section
/-!
DEFINITION. The statements about the part, for the provers: one definition each. `exec` is the meaning of a command and `step`
takes the command at the front of the queue.
-/

section

open Sys2Proof Sys2Proof.Machine Sys2Proof.Safety

/-! The block as a whole. -/

/-- For every command and state: a step of the state with the command at the front of its queue is exec of that command on the
state with the queue's rest. -/
def Obligations.StepRunsFrontCommand : Prop :=
  ∀ (c : Instr) (s : State) (rest : List Instr),
    step { s with pending := c :: rest } = exec c { s with pending := rest }

/-- Model's choice (log 8): on an empty queue a step lets one core cycle pass. While a POR is held, or the XO has stopped with
the core clock on it, it changes nothing. -/
def Obligations.StepOnEmptyQueuePassesOneCoreCycle : Prop :=
  ∀ s : State, s.pending = [] →
    step s = .next s.coreCycle ∧
    (s.hk.inReset = some .por ∨ (s.hk.inReset = none ∧ s.clk.spllXo = true ∧ s.clk.xoLost = true) → step s = .next s)

/-- Every command, on every state, ends in a next state: no command faults and none is refused; and it neither drops, adds nor
reorders a command of the queue. So a step takes exactly one command, in the order of arrival. -/
def Obligations.EveryCommandEndsInANextState : Prop :=
  (∀ (c : Instr) (s : State), ∃ t, exec c s = .next t ∧ t.pending = s.pending) ∧
  (∀ s : State, ∃ t, step s = .next t ∧ t.pending = s.pending.tail)

/-- The invariant: the register file, the shadow file and Firn's contents list their keys in strictly rising order and no entry
that equals what an unlisted key reads as, so that equal contents are equal data. Every step from every state that meets it
gives a state that meets it, whichever command stands at the front of the queue. -/
def Obligations.EveryStepKeepsTablesCanonical : Prop :=
  ∀ s t : State,
    Tab.wf regDefault s.regs = true → Tab.wf regDefault s.shadow = true → Tab.wf (fun _ => (0 : Byte)) s.firn.mem = true →
    step s = .next t →
    Tab.wf regDefault t.regs = true ∧ Tab.wf regDefault t.shadow = true ∧ Tab.wf (fun _ => (0 : Byte)) t.firn.mem = true

/-- State.reset: the tables are in canonical form; no command waits; every register of the map reads its reset value and its
shadow the same; no unit is retired; FT is not valid, no tick runs; the POR is held. -/
def Obligations.ResetState : Prop :=
  Tab.wf regDefault State.reset.regs = true ∧ Tab.wf regDefault State.reset.shadow = true ∧
  Tab.wf (fun _ => (0 : Byte)) State.reset.firn.mem = true ∧
  State.reset.pending = [] ∧
  (∀ a r, rowOf a = some r → State.reset.reg a = r.resetVal ∧ State.reset.shadowAt a = r.resetVal) ∧
  (∀ kind index, State.reset.isRetired kind index = false) ∧
  State.reset.time.ftValid = false ∧ State.reset.time.running = false ∧ State.reset.hk.inReset = some .por

/-- TOP_STRAP holds what the strap pins showed at the release of the latest POR: of all commands only RESET_RELEASE, with a POR
held and no trip, changes it, and then it takes the pins' levels; a core cycle never does. -/
def Obligations.StrapChangesOnlyAtPorRelease : Prop :=
  (∀ (c : Instr) (s t : State), exec c s = .next t → t.top.strap ≠ s.top.strap →
    s.hk.inReset = some .por ∧ s.pins.tripped = false ∧ c = .resetRelease t.top.strap) ∧
  (∀ s : State, s.coreCycle.top.strap = s.top.strap)

/-! Register access (chapter 02). -/

/-- For every register, quarter, requester and value of a full write that no cause of R45 discards (Takes): a base write leaves
its value in the RW bits, the set alias old OR v, the clear alias old AND NOT v, the toggle alias old XOR v, where no write that
ranks after it has landed on the register in the same core cycle (what such a write has fixed or inverted stays so); all other
stored bits stay. The arm, if it was set, is consumed (UNLOCK_WASTED only where the target is not guarded). A guarded register's
shadow follows. Then the register's own effect acts (afterWrite); for a register of TOP there is none, so nothing else
changes. -/
def Obligations.AcceptedWriteStoresAndActs : Prop :=
  ∀ (s : State) (off : BitVec 25) (q : Nat) (r : RegRow) (w : Wr), w.be = 0xF → Takes s w.rq off.toNat q r w.value →
    let a := off.toNat
    let u := armSpent s w.rq (a / 0x10000) r.guarded
    let old := s.reg a
    let m := r.mask .rw
    let c : Instr := match q with
      | 0 => .registerWrite off ⟨w, []⟩ | 1 => .setAliasWrite off w | 2 => .clearAliasWrite off w | _ => .toggleAliasWrite off w
    let x : Word := match q with | 0 => w.value | 1 => old ||| w.value | 2 => old &&& ~~~ w.value | _ => old ^^^ w.value
    let new := u.landing r a (landRank w.rq) q w.value
    let v := if q = 0 then new ||| (w.value &&& (r.mask .wo ||| r.mask .wp)) else new
    let t := lands s w.rq a q r w.value
    (Last s w.rq a → new = (old &&& ~~~ m) ||| (x &&& m)) ∧
    exec c s = .next (t.afterWrite w.rq a old new v false {}) ∧
    (a / 0x10000 = 0 → exec c s = .next t) ∧
    (m ≠ 0 → t.reg a = new ∧ (r.guarded = true → t.shadowAt a = new)) ∧
    (∀ b, b ≠ a → t.reg b = s.reg b ∧ t.shadowAt b = s.shadowAt b) ∧
    t = { s with ctxs := t.ctxs, regs := t.regs, shadow := t.shadow, fresh := t.fresh, landed := t.landed } ∧
    (t.ctx (a / 0x10000) w.rq).arm = false

/-- A write that reaches a window and names a register with a writable field is discarded for the first cause that applies, in
the order width, alias, guard, encoding. Then its requester's context alone changes: the arm is spent, that cause's bit of
BLK_STATUS is set (and is noted as set in this core cycle) and BLK_REJ_INFO holds the cause (4 width, 3 alias, 1 guard, 2
encoding), the requester and the window offset. The width test comes first whatever the target. -/
def Obligations.DiscardedWriteRecordsFirstCause : Prop :=
  ∀ (s : State) (off : BitVec 25) (w : Wr) (r : RegRow), s.reaches w.rq = true → s.outside off.toNat = false →
    rowOf (baseOf (off.toNat / 4 * 4)) = some r →
    let o := off.toNat / 4 * 4
    let q := quarterOf o
    let a := baseOf o
    let u := armSpent s w.rq (o / 0x10000) r.guarded
    let v := (r.written q (s.reg a) w.value).2
    let win := o / 0x10000
    let refused (cause : Nat) (bit : BitVec 5) : State :=
      (((u.modCtx win w.rq (fun c => { c with status := c.status ||| bit })).freshen (ctxKey win w.rq 0x3FF4)
        (bit.setWidth 32)).modCtx win w.rq (fun c => { c with
          rejInfo := BitVec.ofNat 32 (cause * 2 ^ 28 + Requester.code w.rq * 2 ^ 26 + o % 0x10000) }))
    (w.be ≠ 0xF → exec (.registerWrite off ⟨w, []⟩) s = .next (refused 4 0x10)) ∧
    (w.be = 0xF → q ≠ 0 → r.aliases = false → exec (.registerWrite off ⟨w, []⟩) s = .next (refused 3 0x08)) ∧
    (w.be = 0xF → (q = 0 ∨ r.aliases = true) → r.mask .rw ||| r.requestMask ≠ 0 →
      (r.guarded = true → (s.ctx (o / 0x10000) w.rq).arm = false →
        exec (.registerWrite off ⟨w, []⟩) s = .next (refused 1 0x02)) ∧
      ((r.guarded = true → (s.ctx (o / 0x10000) w.rq).arm = true) → r.encOk v = false →
        exec (.registerWrite off ⟨w, []⟩) s = .next (refused 2 0x04))) ∧
    (w.be = 0xF → (q = 0 ∨ r.aliases = true) → r.mask .rw ||| r.requestMask = 0 →
      exec (.registerWrite off ⟨w, []⟩) s = .next u)

/-- A write of a requester that reaches the part at an offset outside all windows changes nothing but TOP_OUTSIDE_STATUS, whose
bit OUTSIDE_WRITE it sets, and TOP_OUTSIDE_ADDR, which then holds the offset. A read there returns zero and changes nothing but
the data the requester holds. -/
def Obligations.OutsideAccess : Prop :=
  ∀ (s : State) (off : BitVec 25) (w : Wr), s.reaches w.rq = true → isWindow (off.toNat / 0x10000) = false →
    exec (.outsideWrite off w) s =
      .next (({ s with top := { s.top with outsideAddr := off } }.putReg 0x30 (s.reg 0x30 ||| 1)).freshen 0x30 1) ∧
    exec (.clearOnRead off .host ⟨w.be, []⟩) s =
      (if s.reaches .host then .next { s with readData := { s.readData with host := [0] } } else .next s)

/-- R43 at the unlock register: a full write of the key sets the writer's arm in that window; where the arm was set already,
UNLOCK_WASTED is set too. A full write of any other value clears the arm and, only if it was set, sets UNLOCK_WASTED. Nothing
else changes: no register and no other context; a status bit is noted as set in this core cycle. -/
def Obligations.UnlockKeyArmsAndOtherValuesDisarm : Prop :=
  ∀ (s : State) (win : BitVec 8) (rq : Requester), s.reaches rq = true → s.outside (win.toNat * 0x10000) = false →
    let c := s.ctx win.toNat rq
    (∃ t, exec (.unlockKeyWrite win rq 0xF) s = .next t ∧
      t = { s with ctxs := t.ctxs, fresh := t.fresh } ∧
      t.ctx win.toNat rq = { c with arm := true, status := if c.arm then c.status ||| 1 else c.status } ∧
      (∀ w q, w ≠ win.toNat ∨ q ≠ rq → t.ctx w q = s.ctx w q) ∧ (c.arm = false → t.fresh = s.fresh)) ∧
    (∀ v : Word, v ≠ 0x00007A3C → ∃ t, exec (.unlockDisarmWrite win ⟨rq, 0xF, v⟩) s = .next t ∧
      t = { s with ctxs := t.ctxs, fresh := t.fresh } ∧
      t.ctx win.toNat rq = (if c.arm then { c with arm := false, status := c.status ||| 1 } else c) ∧
      (∀ w q, w ≠ win.toNat ∨ q ≠ rq → t.ctx w q = s.ctx w q) ∧ (c.arm = false → t = s))

/-- A selector write stores SPACE and INDEX, clears VALID and SEL_ERR and abandons what was captured. The capture takes the
selected wide value whole and sets VALID; a selector that names none captures zero with SEL_ERR. A data read while VALID is 1
returns the enabled bytes of its word, and one of D3 clears VALID; while VALID is 0 it returns zero and sets EARLY_READ. Each
changes its requester's context in that window (and the data the requester holds) and nothing else. -/
def Obligations.WideValueMailbox : Prop :=
  (∀ (s : State) (win : BitVec 8) (rq : Requester) (space : BitVec 8) (index : BitVec 16),
    s.reaches rq = true → s.outside (win.toNat * 0x10000) = false →
    exec (.wvSelect win rq space index) s = .next ((armSpent s rq win.toNat false).modCtx win.toNat rq (fun c => { c with
      space := space, index := index, valid := false, selErr := false, pendingCapture := true }))) ∧
  (∀ (s : State) (win : BitVec 8) (rq : Requester), (s.ctx win.toNat rq).pendingCapture = true → s.windowStopped win.toNat = false →
    let c := s.ctx win.toNat rq
    exec (.wvCapture win rq) s = .next (s.setCtx win.toNat rq (match s.wideValue win.toNat c.space.toNat c.index.toNat with
      | some v => { c with pendingCapture := false, valid := true, selErr := false, capture := v }
      | none => { c with pendingCapture := false, valid := true, selErr := true, capture := 0 }))) ∧
  (∀ (s : State) (rq : Requester) (win : BitVec 8) (d : Fin 3) (be : BitVec 4), s.reaches rq = true →
    s.outside (win.toNat * 0x10000) = false →
    let c := s.ctx win.toNat rq
    let data (x : Word) (t : State) : State := { t with readData := match rq with
      | .host => { t.readData with host := [x] }
      | .housekeeping => { t.readData with housekeeping := [x] } }
    let early : State := (s.setCtx win.toNat rq { c with earlyRead := true }).freshen (ctxKey win.toNat rq 0x3FC4) (bit1 2)
    (c.valid = true →
      exec (.wvDataRead win rq d be) s = .next (data ((c.capture >>> (32 * d.val)).setWidth 32 &&& laneMask be) s) ∧
      exec (.wvD3Read win rq be) s = .next (data ((c.capture >>> 96).setWidth 32 &&& laneMask be)
        (s.setCtx win.toNat rq { c with valid := false }))) ∧
    (c.valid = false →
      exec (.wvDataRead win rq d be) s = .next (data 0 early) ∧ exec (.wvD3Read win rq be) s = .next (data 0 early)))

/-- A read of a register of a running window by a requester that reaches it returns the register's bytes on the enabled lanes.
Of the register's stored bits only those of its RC fields in enabled bytes clear, and of these only the ones that were not set in
this same core cycle; all others, and every other register, stay. -/
def Obligations.ReadClearsEnabledRcBits : Prop :=
  ∀ (s : State) (off : BitVec 25) (be : BitVec 4) (r : RegRow), s.reaches .host = true → s.outside off.toNat = false →
    quarterOf off.toNat = 0 → rowOf (off.toNat / 4 * 4) = some r →
    let a := off.toNat / 4 * 4
    ∃ t, exec (.clearOnRead off .host ⟨be, []⟩) s = .next t ∧
      t.readData = { s.readData with host := [s.readReg a &&& laneMask be] } ∧
      t.reg a = s.reg a &&& ~~~ (r.mask .rc &&& laneMask be &&& ~~~ s.freshAt a) ∧
      (∀ b, b ≠ a → t.reg b = s.reg b) ∧
      t = { s with regs := t.regs, readData := t.readData }

/-- An upset of a stored bit flips that bit of that register alone (where the register is no level that a unit follows), and
one of a context flips that bit of it. The comparison, with the firmware running: a guarded register of a running window whose
RW bits differ from the shadow, while every other guarded register agrees with its own, gets the shadow's RW bits back;
TOP_SHADOW_FIXES counts it, TOP_SHADOW_LAST names window and offset, and FC_REG_UPSET goes to the fault engine. Nothing else
changes; where every register agrees nothing at all does. -/
def Obligations.UpsetAndShadowRepair : Prop :=
  (∀ (s : State) (off : BitVec 25) (i : Fin 32) (r : RegRow),
    let a := baseOf off.toNat / 4 * 4
    rowOf a = some r → isWindow (a / 0x10000) = true → bitOf (r.mask .rw ||| r.mask .rc) i.val = true → levelDriven a = false →
    exec (.registerUpset (.register off i)) s = .next (s.putReg a (s.reg a ^^^ bit1 i.val))) ∧
  (∀ (s : State) (rq : Requester) (win : BitVec 8), isWindow win.toNat = true →
    let c := s.ctx win.toNat rq
    exec (.registerUpset (.arm rq win)) s = .next (s.setCtx win.toNat rq { c with arm := !c.arm }) ∧
    exec (.registerUpset (.valid rq win)) s = .next (s.setCtx win.toNat rq { c with valid := !c.valid }) ∧
    (∀ i : Fin 128, exec (.registerUpset (.capture rq win i)) s =
      .next (s.setCtx win.toNat rq { c with capture := c.capture ^^^ BitVec.ofNat 128 (2 ^ i.val) })) ∧
    (∀ i : Fin 5, exec (.registerUpset (.status rq win i)) s =
      .next (s.setCtx win.toNat rq { c with status := c.status ^^^ BitVec.ofNat 5 (2 ^ i.val) })) ∧
    (∀ i : Fin 32, exec (.registerUpset (.rejection rq win i)) s =
      .next (s.setCtx win.toNat rq { c with rejInfo := c.rejInfo ^^^ bit1 i.val }))) ∧
  (∀ (s : State) (a : Nat) (r : RegRow), s.hk.fw = true → rowOf a = some r → r.guarded = true → s.windowStopped (a / 0x10000) = false →
    levelDriven a = false → (s.reg a ^^^ s.shadowAt a) &&& r.mask .rw ≠ 0 →
    (∀ b, b ≠ a → guardedAt b = true → s.reg b = s.shadowAt b) →
    let m := r.mask .rw
    let last := BitVec.ofNat 32 (a / 0x10000 * 2 ^ 24 + a % 0x10000)
    let u := (s.putReg a ((s.reg a &&& ~~~ m) ||| (s.shadowAt a &&& m))).bump 0x40
    exec .shadowCompare s = .next ({ u with top := { u.top with shadowLast := last } }.detect 0x01 0 0 last)) ∧
  (∀ s : State, (∀ b, guardedAt b = true → s.reg b = s.shadowAt b) → exec .shadowCompare s = .next s)

/-- GLOBAL_EN_WRITE completes for every state and every full write that no cause of R45 discards: exec answers the state in which
the two bits are stored (guarded: the arm is spent and the shadow follows). The gates of the converters and of the lines, which
act in the current core cycle, keep their levels; at the next core-cycle boundary they take the stored bits. -/
def Obligations.GlobalEnableIsStored : Prop :=
  ∀ (s : State) (w : Wr) (r : RegRow), w.be = 0xF → Takes s w.rq (wTop + 0x20) 0 r w.value → Last s w.rq (wTop + 0x20) →
    let t := wrote s w.rq (wTop + 0x20) r w.value
    exec (.globalEnWrite w) s = .next t ∧
      t.reg (wTop + 0x20) = (s.reg (wTop + 0x20) &&& ~~~ 3) ||| (w.value &&& 3) ∧
      t.shadowAt (wTop + 0x20) = t.reg (wTop + 0x20) ∧
      (∀ b, b ≠ wTop + 0x20 → t.reg b = s.reg b ∧ t.shadowAt b = s.shadowAt b) ∧
      t = { s with ctxs := t.ctxs, regs := t.regs, shadow := t.shadow, fresh := t.fresh, landed := t.landed } ∧
      t.liveCopies.top.convLive = bitOf w.value 0 ∧ t.liveCopies.top.lineLive = bitOf w.value 1

/-! The tick and fabric time (chapter 03). -/

/-- An accepted write that sets TICK_RUN stores that bit and nothing else; one that clears it while a tick runs makes that tick the
last one. An accepted FT_LOAD pulse, one that R63 lets act, asks for FT to be loaded at the next core-cycle boundary; one that it
does not (locked, or FT valid while a tick runs or anything waits) is discarded as cause 5, sets its event bit and loads nothing.
Then the boundary takes TIME_FT_SET in place of the sum, and FT is valid. -/
def Obligations.TickRunAndFtLoadWrites : Prop :=
  (∀ (s : State) (rq : Requester) (r : RegRow), Takes s rq wTime 0 r 1 → Last s rq wTime →
    let t := wrote s rq wTime r 1
    exec (.tickRunSet rq 0xF) s = .next t ∧ t.reg wTime = (s.reg wTime &&& ~~~ 1) ||| 1 ∧
      (∀ b, b ≠ wTime → t.reg b = s.reg b) ∧ t.time = s.time) ∧
  (∀ (s : State) (rq : Requester) (r : RegRow), Takes s rq wTime 0 r 0 → Last s rq wTime → Live s wTime →
    ∃ t, exec (.tickRunClear rq 0xF) s = .next t ∧ t.reg wTime = s.reg wTime &&& ~~~ 1 ∧
      (∀ b, b ≠ wTime → t.reg b = s.reg b) ∧
      t.time = (if bitOf (s.reg wTime) 0 then { s.time with stopping := s.time.running } else s.time)) ∧
  (∀ (s : State) (rq : Requester) (r : RegRow), Takes s rq (wTime + 0x2C) 0 r 1 → Live s (wTime + 0x2C) →
    let u := armSpent s rq 2 true
    s.mayLoad = true ∧ exec (.ftLoad rq 0xF) s = .next { u with time := { u.time with load := true } }) ∧
  (∀ (s : State) (rq : Requester) (r : RegRow), s.reaches rq = true → s.outside (wTime + 0x2C) = false →
    rowOf (wTime + 0x2C) = some r → (r.guarded = true → (s.ctx 2 rq).arm = true) → s.mayLoad = false →
    ∃ t, exec (.ftLoad rq 0xF) s = .next t ∧ t.time = s.time ∧ t.flag (wTime + 0x30) 4 = true ∧
      (t.ctx 2 rq).rejInfo = BitVec.ofNat 32 (5 * 2 ^ 28 + Requester.code rq * 2 ^ 26 + 0x2C)) ∧
  (∀ (t : Time) (set : FTime), t.adjust = none →
    (t.pass set).ft = (if t.load then set else t.ft + t.inc.setWidth 112) ∧
    (t.load = true → (t.pass set).ftValid = true ∧ (t.pass set).load = false)) ∧
  (∀ (t : Time) (set : FTime) (v : Int), t.load = false → t.adjust = some v →
    (t.pass set).ft = t.ft + t.inc.setWidth 112 + BitVec.ofInt 112 v ∧ (t.pass set).adjust = none)

/-- Whatever else happens in it, a core cycle that passes while a tick runs moves the count of core cycles on by one. Before the
tick's last cycle it moves the cycle within the tick on by one, keeps the tick, its length and the boundaries that have come (one
still to come stays or, at a hop, moves later), and does the phase whose end has come. From the last cycle on it ends the tick: the cycle is 0, and either the next tick has begun there,
without a gap, or no tick runs. (Only where a reset triggers in that very cycle, by a staged set, does none of this hold.) -/
def Obligations.CoreCycleMovesTheTick : Prop :=
  ∀ s : State, s.coreHeld = false → s.time.running = true →
    let t := s.coreCycle
    t.hk.inReset = none →
    t.time.core = s.time.core + 1 ∧
    (s.time.cycle + 1 < s.time.period →
      t.time.running = true ∧ t.time.cycle = s.time.cycle + 1 ∧ t.time.period = s.time.period ∧ t.time.tickFt = s.time.tickFt ∧
      t.time.ticks = s.time.ticks ∧ (∀ i, s.time.bound i ≤ t.time.bound i ∧
        (s.time.bound i ≤ s.time.cycle + 1 → t.time.bound i = s.time.bound i)) ∧
      s.time.phasesDone ≤ t.time.phasesDone ∧
      (s.time.phasesDone < 5 → s.time.bound s.time.phasesDone ≤ s.time.cycle + 1 → s.time.phasesDone < t.time.phasesDone)) ∧
    (s.time.period ≤ s.time.cycle + 1 →
      t.time.cycle = 0 ∧ ((t.time.running = true ∧ t.time.ticks = s.time.ticks + 1) ∨
        (t.time.running = false ∧ t.time.ticks = s.time.ticks)))

/-- TICK_BOUNDARY in the last core cycle of a tick answers the state at the boundary: cycle 0, with the next tick begun or none
running. Each of the five phase rows, in the core cycle before the end of its phase, answers a state in which that phase is done
and the tick is one cycle further. FIRST_TICK_START lets core cycles pass until the boundary that begins the first tick. TICK_STOP_FLUSH ends
what waits: the queues of orders and sets are empty and nothing waits for the flush. Model's choice (log 8): a row passes the core
cycles that lie before its instant. -/
def Obligations.TickRowsReachTheirInstant : Prop :=
  (∀ s : State, s.coreHeld = false → s.time.running = true → s.time.period = s.time.cycle + 1 →
    ∃ t, exec .tickBoundary s = .next t ∧ t = s.coreCycle ∧ (t.hk.inReset = none →
      t.time.core = s.time.core + 1 ∧ t.time.cycle = 0 ∧
        ((t.time.running = true ∧ t.time.ticks = s.time.ticks + 1) ∨ (t.time.running = false ∧ t.time.ticks = s.time.ticks)))) ∧
  (∀ (s : State) (i : Nat), i < 5 → s.coreHeld = false → s.time.running = true → s.time.phasesDone = i →
    s.time.bound i = s.time.cycle + 1 → s.time.cycle + 1 < s.time.period →
    let c : Instr := match i with
      | 0 => .stagedConfigurationCommit | 1 => .controlLawEvaluation | 2 => .sequencerCommitOfOrders
      | 3 => .loopSupervision | _ => .telemetrySnapshot
    ∃ t, exec c s = .next t ∧ t = s.coreCycle ∧ (t.hk.inReset = none →
      i < t.time.phasesDone ∧ t.time.cycle = s.time.cycle + 1 ∧ t.time.running = true ∧ t.time.ticks = s.time.ticks)) ∧
  (∀ s : State, s.time.running = false → s.flag wTime 0 = true → s.time.ftValid = true →
    exec .firstTickStart s = .next (s.advance s.nextTickIn) ∧
    (s.coreHeld = false → s.tickDue = true → s.time.flush = none → s.tickTurn = s.tickBegin)) ∧
  (∀ (s : State) (c : Nat), s.time.flush = some c →
    ∃ t, exec .tickStopFlush s = .next t ∧ t.time.queue = [] ∧ t.time.closing = [] ∧ t.time.acting = [] ∧
      t.time.resolved = [] ∧ t.time.sets = [] ∧ t.time.commits = [] ∧ t.time.flush = none)

/-- An order of housekeeping with a listed lane and action and one target is admitted where the tests of R67 to R69 pass: it then
stands last in the queue with the tick it counts against, and nothing else changes. What the host or the fabric sent reaches the
queue in its core cycle of arrival, one order for each target of its mask in ascending order, behind what waits there. A set that
arrives without a fault of R77, whose time is still to come, stands last in the staging store. -/
def Obligations.OrdersAndSetsArrive : Prop :=
  (∀ (s : State) (h : HkOrder) (n : Fin 24) (tick : Option Nat), s.coreHeld = false → h.lane.toNat < 5 →
    actionBad h.lane.toNat h.action = false → h.seqMask = BitVec.ofNat 24 (2 ^ n.val) →
    let o : Ord := {
      src := .housekeeping, ring := 0, slot := 0, tag := 0, intr := false, quiet := false, node := s.node, oseq := 0, prio := 0, chan := n.val, lane := h.lane.toNat, action := h.action, t := if h.asap then none else some h.effect,
      arrival := s.now, remote := false, tick := none }
    s.ordTests o 0 0 = .ok tick →
    exec (.orderQueueArrival (some h)) s =
      .next { s with time := { s.time with queue := s.time.queue ++ [{ o with tick := tick }] } }) ∧
  (∀ (s : State) (i : Inbound), s.time.inbound = [i] → i.due ≤ s.now →
    exec (.orderQueueArrival none) s = .next { s with time := { s.time with
      inbound := []
      queue := s.time.queue ++ ((List.range 24).filter (fun n => bitOf i.mask n)).map (fun n => { i.ord with chan := n }) } }) ∧
  (∀ (s : State) (i : InSet), s.time.inSets = [i] → i.due ≤ s.now → setFault i.count i.set.entries = none →
    i.set.asap = true ∨ (s.time.ftValid = true ∧ dueBegun (ftScale i.set.commitFt) s.time.begun = none) → s.time.sets.length < 16 →
    exec .stageSetArrival s = .next { s with time := { s.time with inSets := [], sets := s.time.sets ++ [i.set] } })

/-- Between committed orders of two source classes the fabric beats the host and the host beats housekeeping; within the fabric
class the higher PRIO wins, then the lower node address, then the later order of one node by sequence distance; within the other
classes the later arrival wins, and of two that arrive in one core cycle the one from the higher ring. The order phase hands a
single contender whose channel is on to the next tick as its winner, not yet acted. -/
def Obligations.OrderPrecedence : Prop :=
  (∀ a b : Ord, a.src ≠ b.src → ordBeats a b = decide (OrdSrc.code a.src < OrdSrc.code b.src)) ∧
  OrdSrc.code .fabric < OrdSrc.code .host ∧ OrdSrc.code .host < OrdSrc.code .housekeeping ∧
  (∀ a b : Ord, a.src = .fabric → b.src = .fabric →
    (b.prio < a.prio → ordBeats a b = true ∧ ordBeats b a = false) ∧
    (a.prio = b.prio → a.node.toNat < b.node.toNat → ordBeats a b = true ∧ ordBeats b a = false) ∧
    (a.prio = b.prio → a.node = b.node → 1 ≤ (a.oseq - b.oseq).toNat → (a.oseq - b.oseq).toNat < 2 ^ 31 → ordBeats a b = true)) ∧
  (∀ a b : Ord, a.src = b.src → a.src ≠ .fabric →
    (b.arrival < a.arrival → ordBeats a b = true ∧ ordBeats b a = false) ∧
    (a.arrival = b.arrival → b.ring < a.ring → ordBeats a b = true ∧ ordBeats b a = false)) ∧
  (∀ (s : State) (o : Ord), (s.seq o.chan).st ≠ .off →
    s.resolveAll 1 [o] = { s with time := { s.time with resolved := s.time.resolved ++ [Acting.ofOrd o] } })

/-! Orders and triggers at their effect samples (chapters 03, 08 and 09). -/

/-- The winner of a START lane acts at its sample. On an idle channel with no STOP on that sample it begins a burst: the channel
runs from that boundary with an empty loop stack, no latched jump, no stop and the end of its own that the order names; it fetches
from the named entry, unless the target's preload has read it already; where the order asks for it the NCO's phase is loaded at
that sample; the burst is counted; the order is DONE at its place in the tick; nothing else changes but lines, streams, rings and
events. With its own end not after its sample, or a STOP on that sample, the order is an EMPTY_BURST and changes nothing but its own
status; on an OFF or retired channel it is DONE and changes nothing else. -/
def Obligations.StartOrderBeginsABurst : Prop :=
  (∀ (s : State) (n : Fin 24) (a : Acting), Ready s n lStart a → (s.seq n).st = .idle →
    let e := s.ordEdge a.ord
    let own := ownEndOf a.ord.action (a.ord.t.getD (s.ft80OfEdge e))
    s.stopAt n e = false → (∀ f, own = some f → e < s.sampleUp n (s.edgeOfFt f)) →
    ∃ t, exec (.orderStart n) s = .next (acted s t a sDone) ∧ OnlySeq n s t ∧
      ((s.seq n).play = none → t.regs = (s.bump (wSeq n + 0x98)).regs) ∧
      (t.seq n).st = .run ∧ (t.seq n).bnd = s.sampleUp n e ∧ (t.seq n).stack = [] ∧ (t.seq n).latch = none ∧
      (t.seq n).stopAtEnd = false ∧ (t.seq n).ownEnd = own ∧
      (bitOf a.ord.action 19 = false → (s.seq n).pre = [] → (t.seq n).fetchNext = bits a.ord.action 0 16) ∧
      (bitOf a.ord.action 20 = true → (t.seq n).ncoAt = e ∧ (t.seq n).phase.toNat = bits a.ord.action 64 64) ∧
      (bitOf a.ord.action 20 = false → (t.seq n).ncoAt = (s.seq n).ncoAt ∧ (t.seq n).phase = (s.seq n).phase)) ∧
  (∀ (s : State) (n : Fin 24) (a : Acting), Ready s n lStart a →
    let e := s.ordEdge a.ord
    (s.seqLives n = true → (s.stopAt n e = true ∨
      ∃ f, ownEndOf a.ord.action (a.ord.t.getD (s.ft80OfEdge e)) = some f ∧ s.sampleUp n (s.edgeOfFt f) ≤ e) →
      exec (.orderStart n) s = .next (acted s s a sEmpty)) ∧
    (s.seqLives n = false → exec (.orderStart n) s = .next (acted s s a sDone)))

/-- The winner of a STOP lane, at once: a running or waiting burst ends at its sample, with no play, lookahead, loop stack, latched
jump or stop left. At the segment's end: the burst goes on and ends with its segment. The winner of a JUMP lane, at once: play goes
on at that sample's boundary at the target, its loop stack kept or empty as the order says; where an underrun has ended the burst
before that sample, nothing goes on. At the segment's end: the target is latched. Each is DONE. Without a burst each is a STOP_NO_BURST and changes nothing but its own status. -/
def Obligations.StopAndJumpOrdersAct : Prop :=
  (∀ (s : State) (n : Fin 24) (a : Acting), Ready s n lStop a →
    ((s.seq n).st = .run ∨ (s.seq n).st = .wait →
      (bitOf a.ord.action 0 = false → ∃ t, exec (.orderStopNow n) s = .next (acted s t a sDone) ∧ OnlySeq n s t ∧
        (t.seq n).st = .idle ∧ (t.seq n).play = none ∧ (t.seq n).waiting = none ∧ (t.seq n).look = [] ∧ (t.seq n).stack = [] ∧
        (t.seq n).latch = none ∧ (t.seq n).stopAtEnd = false ∧ (t.seq n).ownEnd = none) ∧
      (bitOf a.ord.action 0 = true → (s.seq n).st = .run → s.startAt n (s.ordEdge a.ord) = false →
        exec (.orderStopSegmentEnd n) s =
          .next (acted s (s.modSeq n (fun q => { q with stopAtEnd := true })) a sDone))) ∧
    ((s.seq n).st = .idle → s.startAt n (s.ordEdge a.ord) = false →
      (bitOf a.ord.action 0 = false → exec (.orderStopNow n) s = .next (acted s s a sNoBurst)) ∧
      (bitOf a.ord.action 0 = true → exec (.orderStopSegmentEnd n) s = .next (acted s s a sNoBurst)))) ∧
  (∀ (s : State) (n : Fin 24) (a : Acting), Ready s n lJump a →
    ((s.seq n).st = .run ∨ (s.seq n).st = .wait → bits a.ord.action 21 2 = 0 →
      ((s.keepLast n (s.ordEdge a.ord)).seq n).bursting = false →
      exec (.orderJumpNow n) s = .next (acted s (s.keepLast n (s.ordEdge a.ord)) a sDone)) ∧
    ((s.seq n).st = .run ∨ (s.seq n).st = .wait → bits a.ord.action 21 2 = 0 →
      ((s.keepLast n (s.ordEdge a.ord)).seq n).bursting = true →
      ∃ t, exec (.orderJumpNow n) s = .next (acted s t a sDone) ∧ OnlySeq n s t ∧ (t.seq n).st = .run ∧ (t.seq n).play = none ∧
        (t.seq n).waiting = none ∧ (t.seq n).latch = none ∧ (t.seq n).bnd = t.sampleUp n (s.ordEdge a.ord) ∧
        (t.seq n).stack = (if bitOf a.ord.action 20 then (s.seq n).stack else []) ∧
        (bitOf a.ord.action 19 = false → (s.seq n).pre = [] → (t.seq n).fetchNext = bits a.ord.action 0 16)) ∧
    ((s.seq n).st = .run → bits a.ord.action 21 2 = 1 →
      exec (.orderJumpSegmentEnd n) s = .next (acted s
        (s.modSeq n (fun q => { q with latch := some (actTarget a.ord.action, bitOf a.ord.action 20) })) a sDone)) ∧
    ((s.seq n).st = .idle →
      (bits a.ord.action 21 2 = 0 → exec (.orderJumpNow n) s = .next (acted s s a sNoBurst)) ∧
      (bits a.ord.action 21 2 = 1 → exec (.orderJumpSegmentEnd n) s = .next (acted s s a sNoBurst))))

/-- On a channel that is neither OFF nor retired: a set-flag order sets its flag, and ends a WAIT for it at that sample, which
takes the flag where the WAIT consumes it; a clear-flag order clears it; an NCO order makes its phase change and its FTW hold from
its sample on; a FORCE order releases the output, makes it the safe code, or holds the value of its sample. Each is DONE, and
nothing else changes (a WAIT that ends goes on at its own boundary at the earliest). On an OFF or retired channel they change nothing but their own status. -/
def Obligations.FlagNcoAndForceOrdersAct : Prop :=
  (∀ (s : State) (n : Fin 24) (a : Acting), Ready s n lJump a → s.seqLives n = true →
    let f := bits a.ord.action 16 3
    let set := s.putReg (aFlags n) (putBits (s.reg (aFlags n)) f 1 1)
    (bits a.ord.action 21 2 = 2 → (s.seq n).waiting = none → exec (.orderSetFlag n) s = .next (acted s set a sDone)) ∧
    (bits a.ord.action 21 2 = 2 → ∀ w, (s.seq n).st = .wait → (s.seq n).waiting = some w → w.flag = f →
      ∃ t, exec (.orderSetFlag n) s = .next (acted s t a sDone) ∧ OnlySeq n s t ∧ (t.seq n).st = .run ∧
        (t.seq n).waiting = none ∧ (t.seq n).bnd = s.sampleUp n (max (s.ordEdge a.ord) (s.seq n).bnd) ∧ t.flag (aFlags n) f = !w.consume) ∧
    (bits a.ord.action 21 2 = 3 → exec (.orderClearFlag n) s =
      .next (acted s (s.putReg (aFlags n) (putBits (s.reg (aFlags n)) f 1 0)) a sDone))) ∧
  (∀ (s : State) (n : Fin 24) (a : Acting), Ready s n lNco a → s.seqLives n = true →
    let e := s.ordEdge a.ord
    exec (.orderNco n) s = .next (acted s (s.modSeq n (fun q => { q with
      ncoAt := e
      phase := phaseOp (bits a.ord.action 120 2) (bits a.ord.action 64 56) (q.phaseAt (s.spacing n) e)
      ftw := if bitOf a.ord.action 122 then q.ftw else a.ord.action.setWidth 64
      ncoOld := (q.ncoAt, q.phase, q.ftw) :: q.ncoOld })) a sDone)) ∧
  (∀ (s : State) (n : Fin 24) (a : Acting), Ready s n lForce a → s.seqLives n = true →
    (bits a.ord.action 0 2 = 0 → exec (.orderForceRelease n) s =
      .next (acted s (s.modSeq n (fun q => { q with force := .none })) a sDone)) ∧
    (bits a.ord.action 0 2 = 1 → exec (.orderForceSafe n) s =
      .next (acted s (s.modSeq n (fun q => { q with force := .safe })) a sDone)) ∧
    (bits a.ord.action 0 2 = 2 → exec (.orderForceHold n) s =
      .next (acted s (s.modSeq n (fun q => { q with force := .hold (s.chanOut n (s.ordEdge a.ord)) })) a sDone))) ∧
  (∀ (s : State) (n : Fin 24) (a : Acting), s.seqLives n = false →
    (Ready s n lNco a → exec (.orderNco n) s = .next (acted s s a sDone)) ∧
    (Ready s n lForce a → bits a.ord.action 0 2 = 1 → exec (.orderForceSafe n) s = .next (acted s s a sDone)))

/-- A trigger action that nothing keeps from acting acts at its sample on the state in which it has superseded the committed orders
on its target, and leaves those on their way. It jumps to its slot at once, unless an underrun has ended the burst before, or latches
the jump; sets its flag; begins a burst on an idle channel with no STOP on that sample; ends the running burst; or forces or releases
the output. One whose channel is retired does nothing; one that a higher class in its tick, or a lower trigger number on its sample,
keeps from acting is only judged. -/
def Obligations.TriggerActionsAct : Prop :=
  (∀ (s : State) (n : Fin 24) (t : Fin 8) (i : Fin 16) (x : Sched) (u : State),
    let e := s.schedEdge x
    (Fires s n t 0 i x u → (u.seq n).st = .run ∨ (u.seq n).st = .wait → ((u.keepLast n e).seq n).bursting = true →
      ∃ v, exec (.jumpNow n t i) s = .next (v.unsched x) ∧ OnlySeq n u v ∧ (v.seq n).st = .run ∧ (v.seq n).play = none ∧
        (v.seq n).latch = none ∧ (v.seq n).bnd = v.sampleUp n e ∧
        (v.seq n).stack = (if u.slotKeeps n x.arg then (u.seq n).stack else [])) ∧
    (Fires s n t 1 i x u → (u.seq n).st = .run →
      exec (.jumpSegEnd n t i) s =
        .next ((u.modSeq n (fun q => { q with latch := some (.slot x.arg, u.slotKeeps n x.arg) })).unsched x)) ∧
    (Fires s n t 2 i x u → u.seqLives n = true → (u.seq n).waiting = none →
      exec (.setFlag n t i) s = .next ((u.putReg (aFlags n) (putBits (u.reg (aFlags n)) x.arg 1 1)).unsched x)) ∧
    (Fires s n t 3 i x u → (u.seq n).st = .idle → u.stopAt n e = false →
      ∃ v, exec (.start n t i) s = .next (v.unsched x) ∧ OnlySeq n u v ∧
        ((u.seq n).play = none → v.regs = (u.bump (wSeq n + 0x98)).regs) ∧
        (v.seq n).st = .run ∧ (v.seq n).bnd = u.sampleUp n e ∧ (v.seq n).stack = [] ∧ (v.seq n).latch = none ∧
        (v.seq n).stopAtEnd = false ∧ (v.seq n).ownEnd = none) ∧
    (Fires s n t 4 i x u → (u.seq n).st = .run ∨ (u.seq n).st = .wait →
      ∃ v, exec (.stopNow n t i) s = .next (v.unsched x) ∧ OnlySeq n u v ∧ (v.seq n).st = .idle ∧ (v.seq n).play = none ∧
        (v.seq n).stack = [] ∧ (v.seq n).latch = none ∧ (v.seq n).stopAtEnd = false ∧ (v.seq n).ownEnd = none) ∧
    (Fires s n t 5 i x u → u.seqLives n = true →
      exec (.forceSafe n t i) s = .next ((u.modSeq n (fun q => { q with force := .safe })).unsched x)) ∧
    (Fires s n t 6 i x u → u.seqLives n = true →
      exec (.forceRelease n t i) s = .next ((u.modSeq n (fun q => { q with force := .none })).unsched x))) ∧
  (∀ (s : State) (n : Fin 24) (t : Fin 8) (i : Fin 16) (x : Sched), Due s n t 3 i x →
    (s.seqRetired n = true → exec (.start n t i) s = .next (s.unsched x)) ∧
    (s.seqRetired n = false → muted s n x = true → exec (.start n t i) s = .next ((judged s x).unsched x)))

/-- An immediate action claims its target for the edge of its effect. It loses to one of a higher-ranking class, and to a later one of
its own class, whose effect falls in the same tick, and on its own edge to a lower trigger number of its class; of the others on the
target those of its own edge and class or of its tick lose to it. Each action that loses is counted once. Taking effect, it supersedes
the committed orders on its target and no other, with its class and this node as the winner. The sixteen levels of an event input's pin:
its level is that of the last sample; each edge that the enabled input shows goes to the triggers, for an effect twelve core cycles
later at the edge's own sample; six core cycles before that it becomes the action of each trigger that takes it; an input that is not
enabled shows no edge. -/
def Obligations.ImmediateActionsAndEventInputs : Prop :=
  (∀ (s : State) (src : ImmSrc) (n lane e trig : Nat),
    let beats (m : Imm) : Bool :=
      ((decide (m.src.code < src.code) || m.src == src && decide (e < m.edge)) && s.sameTick m.edge e) ||
        (m.src == src && m.edge == e && decide (m.trig < trig))
    let target (m : Imm) : Bool := m.chan == n && m.lane == lane
    let lost := s.time.imm.any (fun m => target m && beats m)
    let loses (m : Imm) : Bool := target m && !beats m && (m.edge == e && m.src == src || s.sameTick m.edge e)
    let u := s.bumpBy (wTime + 0x50) ((s.time.imm.filter (fun m => loses m && !m.lost)).length + b01 lost)
    s.claim src n lane e trig = { u with time := { u.time with
      imm := s.time.imm.map (fun m => if loses m then { m with lost := true } else m) ++ [⟨src, n, lane, e, trig, lost⟩] } }) ∧
  (∀ (s : State) (src : ImmSrc) (n lane e : Nat), ∃ l,
    s.override src n lane e = { s with time := { s.time with acting := l } } ∧
    l.map (fun a => a.ord) = s.time.acting.map (fun a => a.ord) ∧
    (∀ a ∈ l, a.ord.chan = n → a.ord.lane = lane → a.status = BitVec.ofNat 8 sSuperseded ∧
      a.winSrc = BitVec.ofNat 3 src.code ∧ a.winNode = s.node) ∧
    (∀ a, ¬ (a.ord.chan = n ∧ a.ord.lane = lane) → (a ∈ l ↔ a ∈ s.time.acting))) ∧
  (∀ (s : State) (i : Fin 16) (pin : BitVec 16), s.coreHeld = false →
    (bitOf (s.einCfg i) 31 = false → exec (.eventInputEdge i pin) s =
      .next { s with mkr := { s.mkr with pins := putBits s.mkr.pins i 1 (b01 (bitOf pin 15)) } }) ∧
    (∀ seen : BitVec 16, (∀ j, j < 16 → bitOf seen j = einSeen (s.einCfg i) (bitOf pin j)) →
      ∃ t, exec (.eventInputEdge i pin) s = .next t ∧
        t.mkr.pins = putBits s.mkr.pins i 1 (b01 (bitOf pin 15)) ∧
        t.mkr.edges = s.mkr.edges ++
          (levelEdges seen (s.einLevel i) 16).map (fun e => ⟨0, i, e.2, s.now + 12, e.1, false⟩))) ∧
  (∀ (s : State) (x : TEdge), x ∈ s.mkr.edges → x.decoded = false → x.due = s.now + 6 →
    { x with decoded := true } ∈ s.decodeEdges.mkr.edges ∧
    ∀ (n k : Nat), n < 24 → k < 8 → trigTakes (s.reg (aTrig n k)) x.kind x.index x.rise = true →
      ⟨x.kind, x.due, x.sample, n, k, bits (s.reg (aTrig n k)) 18 3, bits (s.reg (aTrig n k)) 0 3, false⟩ ∈
        s.decodeEdges.mkr.sched)

/-! Clocks (chapter 04). -/

/-- ENABLE set on an OFF PLL whose reference is present: SEARCH from OFF, for the held point. A search that found a band: ACQUIRE,
with the SPLL's band-table entry stored. The lock window met in ACQUIRE: LOCKED, and the consumers come back from the XO, the SPLL's
at the next core-cycle boundary with the point's INC, or at once where the XO is lost. No lock for 200 us: SEARCH again, and after the
second time in a row OFF with ENABLE cleared, as after a search that found no band. ENABLE cleared on a PLL that is not locked: OFF. Housekeeping adds nothing where no BRINGUP runs and its own clock has locked. -/
def Obligations.PllsSearchLockAndGiveUp : Prop :=
  (∀ (s : State) (p : Pll) (w : Wr) (r : RegRow), Quiet s → Written s w (aPll p) r (fixed w 1 1).value →
    let u := wrote s w.rq (aPll p) r (fixed w 1 1).value
    bitOf (s.reg (aPll p)) 0 = false → bits (u.reg (aPll p)) 14 6 = bits (s.reg (aPll p)) 14 6 →
    (s.pll p).st = .off → (s.pll p).refOk = true →
    ∃ t, exec (.pllEnable p w) s = .next t ∧
      t.pll p = { s.pll p with st := .search, origin := .off, timeouts := 0 } ∧ (∀ q, q ≠ p → t.pll q = s.pll q) ∧
      (p = .spll → t.clk.goal = u.heldPoint .spll) ∧
      t = { u with clk := t.clk, time := { u.time with costLaw := t.time.costLaw, costSup := t.time.costSup } }) ∧
  (∀ (s : State) (p : Pll) (w : Wr) (r : RegRow), Quiet s → Written s w (aPll p) r (fixed w 1 0).value →
    let u := wrote s w.rq (aPll p) r (fixed w 1 0).value
    bitOf (s.reg (aPll p)) 0 = true → bits (u.reg (aPll p)) 14 6 = bits (s.reg (aPll p)) 14 6 → (s.pll p).st ≠ .locked →
    (match p with | .spll => s.clk.spllXo | .mpll => s.clk.mpllXo | .fpll => s.clk.fpllXo | .hpll => s.clk.hpllXo) = true →
    ∃ t, exec (.pllDisable p w) s = .next t ∧
      t.pll p = { s.pll p with st := .off, origin := .off, timeouts := 0 } ∧ (∀ q, q ≠ p → t.pll q = s.pll q) ∧
      (p = .spll → t.clk.pend = 0) ∧
      t = { u with clk := t.clk, time := { u.time with costLaw := t.time.costLaw, costSup := t.time.costSup } }) ∧
  (∀ (s : State) (p : Pll) (f : SearchResult), Quiet s → (s.pll p).st = .search →
    (p ≠ .spll → exec (.bandSearchDone p false (some f)) s =
      .next ((s.setPll p { s.pll p with st := .acquire }).raise (aPllEv p) (bit1 6))) ∧
    (p = .spll →
      let c := if s.clk.spll.origin = .off then { s.clk with entry := 0, osc := false } else s.clk
      let g := s.clk.goal
      exec (.bandSearchDone p false (some f)) s = .next (({ s with clk := { c with
        table := Tab.set (fun _ => 0) c.table c.entry (foundEntry g f)
        point := if s.clk.spllXo then c.point else g
        fcw := if s.clk.spllXo then c.fcw else g.fcw48
        ramp := if s.clk.spllXo then c.ramp else none
        spll := { c.spll with st := .acquire } } }).raise (aPllEv .spll) (bit1 6)))) ∧
  (∀ (s : State) (p : Pll) (err : Word), Quiet s → (s.pll p).st = .acquire →
    (s.lockWin p < err.toInt.natAbs → exec (.pllLock p err) s = .next s) ∧
    (err.toInt.natAbs ≤ s.lockWin p → ∃ t, exec (.pllLock p err) s = .next t ∧
      t.pll p = { s.pll p with st := .locked, timeouts := 0, phaseErr := err } ∧ (∀ q, q ≠ p → t.pll q = s.pll q) ∧
      (p ≠ .mpll ∨ s.mor.recovering = false → t = { s with clk := t.clk, time := t.time, mor := t.mor }) ∧
      (p = .spll → s.clk.spllXo = true → s.clk.xoLost = false →
        t.clk = { s.clk with spll := t.clk.spll, everLocked := true, spllDue := true } ∧ t.time = s.time) ∧
      (p = .spll → s.clk.spllXo = true → s.clk.xoLost = true → t.clk.spllXo = false ∧ t.clk.spllStopped = false ∧
        t.clk.point = s.clk.goal ∧ t.clk.fcw = s.clk.goal.fcw48 ∧ t.time.inc = s.clk.goal.inc) ∧
      (p = .mpll → t.clk.mpllXo = false ∧ ∀ n, n < 4 → (t.chan n).st =
        (if (s.chan n).st = .recover then if s.isRetired uDram n then .retired else .train else (s.chan n).st)) ∧
      (p = .fpll → t.clk.fpllXo = false ∧ t.clk.fpllStopped = false) ∧ (p = .hpll → t.clk.hpllXo = false))) ∧
  (∀ s : State, s.clk.spllDue = true → s.clk.ramp = none → s.clk.hop = none →
    let t := s.cyclePass
    t.clk.spllXo = false ∧ t.clk.spllStopped = false ∧ t.clk.spllDue = false ∧ t.clk.point = s.clk.goal ∧
      t.time.inc = s.clk.goal.inc) ∧
  (∀ (s : State) (p : Pll), Quiet s →
    (match p with | .spll => s.clk.spllXo | .mpll => s.clk.mpllXo | .fpll => s.clk.fpllXo | .hpll => s.clk.hpllXo) = true →
    let gone := s.setFld (aPll p) 0 1 0
    let off := gone.setPll p { s.pll p with st := .off, origin := .off, timeouts := 0 }
    let given := (if p = .spll then { off with clk := { off.clk with pend := 0, spllDue := false } } else off).raise (aPllEv p) (bit1 7)
    let again := s.setPll p { s.pll p with st := .search, timeouts := 1 }
    ((s.pll p).st = .acquire → (s.pll p).timeouts = 0 → exec (.acquireTimeout p) s =
      .next (if p = .spll ∧ (s.pll p).origin ≠ .off then
        { again with clk := { again.clk with goal := entryPoint (s.bandEntry s.clk.entry) } } else again)) ∧
    ((s.pll p).st = .acquire → 1 ≤ (s.pll p).timeouts → exec (.acquireTimeout p) s = .next given) ∧
    ((s.pll p).st = .search → exec (.bandSearchDone p false none) s = .next given))

/-- A LOCKED PLL with its reference whose phase error leaves the unlock window goes to BYPASS, as one whose HOLD_MAX ends in
HOLDOVER does. Then the SPLL's consumers run from the XO or stop, TICK_RUN is clear and no burst runs; the MPLL's are on the XO and
the contents of Moraine are lost; the FPLL's are on the XO or stop; the HPLL's are on the XO. An error within the window, or no
HOLD_MAX, changes nothing. From BYPASS a retry searches again where the reference is present. -/
def Obligations.LossOfLockBypasses : Prop :=
  let bypassed (s : State) (p : Pll) (t : State) : Prop :=
    (t.pll p).st = .bypass ∧
    (p = .spll → s.clk.spllXo = false →
      t.clk.spllXo = true ∧ t.clk.spllStopped = true ∧ t.flag wTime 0 = false ∧ ∀ n, n < 24 → (t.seq n).bursting = false) ∧
    (p = .mpll → s.clk.mpllXo = false → t.clk.mpllXo = true ∧ t.mor.mem = []) ∧
    (p = .fpll → s.clk.fpllXo = false → t.clk.fpllXo = true ∧ t.clk.fpllStopped = true) ∧
    (p = .hpll → s.clk.hpllXo = false → t.clk.hpllXo = true)
  (∀ (s : State) (p : Pll) (err : Word), (s.pll p).st = .locked → (s.pll p).refOk = true →
    (err.toInt.natAbs ≤ s.unlockWin p → exec (.lockLoss p err) s = .next s) ∧
    (s.unlockWin p < err.toInt.natAbs → ∃ t, exec (.lockLoss p err) s = .next t ∧ bypassed s p t)) ∧
  (∀ (s : State) (p : Pll), (s.pll p).st = .holdover →
    (s.fld (aPll p) 20 4 = 0 → exec (.holdMaxExpiry p) s = .next s) ∧
    (s.fld (aPll p) 20 4 ≠ 0 → ∃ t, exec (.holdMaxExpiry p) s = .next t ∧ bypassed s p t)) ∧
  (∀ (s : State) (p : Pll), (s.pll p).st = .bypass →
    ((s.pll p).refOk = false → exec (.bypassRetry p) s = .next s) ∧
    ((s.pll p).refOk = true →
      let x := s.setPll p { s.pll p with st := .search, origin := .bypass, timeouts := 0 }
      exec (.bypassRetry p) s = .next (if p = .spll then
        { x with clk := { x.clk with goal := entryPoint (s.bandEntry s.clk.entry) } } else x)))

/-- A lost reference of a PLL: its monitor's bit clears and its event sets; an OFF PLL stays; one that searches or acquires falls
back to where it came from; a LOCKED one other than the SPLL holds over, which is a detection of class 0x02. The FPLL's monitor of
REF10M judges that pin alone where the FPLL takes another reference. A reference that returns sets the bit, and an OFF PLL with ENABLE set searches. The HPLL's reference is the XO.
A root's FPLL follows REF10M, so here the node is none where that pin is judged. HOLDOVER with its reference back
acquires again, the SPLL's phase difference added to the accumulator within its range. A new choice of reference that is present
takes a LOCKED PLL to HOLDOVER; the SPLL's hop and ramp end with it. -/
def Obligations.ReferencesLostAndBack : Prop :=
  let follows (s : State) (p : Pll) : Prop := p = .fpll ∧ s.refsel p = 1 ∧ (s.nzl.st = .root ∨ s.nzl.st = .enum)
  (∀ (s : State) (p : Pll), Quiet s → (s.pll p).refOk = true → ¬ follows s p →
    let c : Clk := { s.clk with
      ref10m := if p = .fpll ∧ s.refsel p = 1 then false else s.clk.ref10m
      xoLost := if p = .hpll then true else s.clk.xoLost }
    let ev := ({ s with clk := c }).raise (aPllEv p) (bit1 1)
    ((s.pll p).st = .off → exec (.referenceLoss p .own) s = .next (ev.setPll p { s.pll p with refOk := false })) ∧
    ((s.pll p).st = .search ∨ (s.pll p).st = .acquire →
      let back := ev.setPll p { s.pll p with refOk := false, st := (s.pll p).origin, timeouts := 0 }
      exec (.referenceLoss p .own) s = .next (if p = .spll ∧ (s.pll p).origin = .off then
        { back with clk := { back.clk with pend := 0 } } else back)) ∧
    ((s.pll p).st = .locked → p ≠ .spll → exec (.referenceLoss p .own) s =
      .next (((ev.setPll p { s.pll p with refOk := false, st := .holdover }).raise (aPllEv p) (bit1 2)).detect 0x02 uPll
        (pllIndex p) 0)) ∧
    ((s.pll p).st = .locked → p = .spll → ∃ t, exec (.referenceLoss p .own) s = .next t ∧
      t.pll p = { s.pll p with refOk := false, st := .holdover } ∧ t.clk.hop = none ∧ t.clk.ramp = none ∧
      t.firn = s.firn ∧ t.seqs = s.seqs ∧ t.time = s.time)) ∧
  (∀ (s : State) (p : Pll), Quiet s → ¬ follows s p →
    let c : Clk := { s.clk with
      ref10m := if p = .fpll ∧ s.refsel p = 1 then true else s.clk.ref10m
      xoLost := if p = .hpll then false else s.clk.xoLost }
    let x := ({ s with clk := c }).setPll p { s.pll p with refOk := true }
    ((s.pll p).st ≠ .off ∨ s.pllOn p = false → exec (.referenceReturn p .own) s = .next x) ∧
    ((s.pll p).st = .off → s.pllOn p = true → ∃ t, exec (.referenceReturn p .own) s = .next t ∧
      t.pll p = { s.pll p with refOk := true, st := .search, origin := .off, timeouts := 0 } ∧
      t = { x with clk := t.clk } ∧ (∀ q, q ≠ p → t.pll q = s.pll q))) ∧
  (∀ (s : State), Quiet s → s.refsel .fpll ≠ 1 → s.nzl.st ≠ .root → s.nzl.st ≠ .enum →
    exec (.referenceLoss .fpll .ref10m) s = .next { s with clk := { s.clk with ref10m := false } } ∧
    exec (.referenceReturn .fpll .ref10m) s = .next { s with clk := { s.clk with ref10m := true } }) ∧
  (∀ (s : State) (p : Pll) (d : BitVec 32), (s.pll p).st = .holdover → (s.pll p).refOk = true →
    let x := s.setPll p { s.pll p with st := .acquire, origin := .holdover, timeouts := 0 }
    exec (.holdoverExit p d) s = .next (if p = .spll then
      { x with clk := { x.clk with pend := max (-pendMax) (min pendMax (s.clk.pend + 16 * d.toInt)) } } else x)) ∧
  (∀ (s : State) (p : Pll) (w : Wr) (r : RegRow), p ≠ .spll → Written s w (aPll p) r w.value → (s.pll p).st = .locked →
    let u := wrote s w.rq (aPll p) r w.value
    bits (u.reg (aPll p)) 14 2 ≠ bits (s.reg (aPll p)) 14 2 → bitOf (u.reg (aPll p)) 0 = bitOf (s.reg (aPll p)) 0 →
    exec (.refselChange p w true) s =
      .next ((u.setPll p { s.pll p with st := .holdover }).raise (aPllEv p) (bit1 2))) ∧
  (∀ (s : State) (w : Wr) (r : RegRow), Written s w (aPll .spll) r w.value → (s.pll .spll).st = .locked →
    let u := wrote s w.rq (aPll .spll) r w.value
    bits (u.reg (aPll .spll)) 14 2 ≠ bits (s.reg (aPll .spll)) 14 2 →
    bitOf (u.reg (aPll .spll)) 0 = bitOf (s.reg (aPll .spll)) 0 →
    ∃ t, exec (.refselChange .spll w true) s = .next t ∧ t.pll .spll = { s.pll .spll with st := .holdover } ∧
      t.clk.hop = none ∧ t.clk.ramp = none ∧ bitOf (t.reg (aPllEv .spll)) 2 = true ∧ t.seqs = s.seqs ∧ t.firn = s.firn)

/-- Accepted writes of the SPLL's controls. The idle oscillator searches for the point in the load registers and the named entry; a
table load stores it in that entry; FCW_APPLY starts the ramp from the live FCW to the held words; a hop request stops the ramp,
abandons a search and fixes the hop's W as the first core-cycle boundary 1,843,200 fu ahead; a phase step adds to the accumulator.
Under TIME_LOCKED a guarded write of a phase step is ignored: it is recorded with cause 5 and sets its event. -/
def Obligations.SpllControlsAct : Prop :=
  (∀ (s : State) (w : Wr) (r : RegRow), let v := (fixed w 0x80000000 0x80000000).value
    Written s w (wClk + 0x104) r v →
    let u := wrote s w.rq (wClk + 0x104) r v
    exec (.spllSearch w) s = .next { u with clk := { u.clk with idle := .search (bits v 0 6) (entryPoint s.loadEntry) } }) ∧
  (∀ (s : State) (w : Wr) (r : RegRow), let v := (fixed w 0x80000000 0x80000000).value
    Written s w (wClk + 0x130) r v →
    let u := wrote s w.rq (wClk + 0x130) r v
    let x : State := { u with clk := { u.clk with table := Tab.set (fun _ => 0) u.clk.table (bits v 0 6) s.loadEntry } }
    exec (.bandTableLoad w) s = .next x.republish ∧ x.republish.bandEntry (bits v 0 6) = s.loadEntry) ∧
  (∀ (s : State) (rq : Requester) (r : RegRow), Written s ⟨rq, 0xF, 1⟩ (aPll .spll + 0x10) r 1 →
    let u := wrote s rq (aPll .spll + 0x10) r 1
    exec (.fcwApply .spll rq 0xF) s = .next { u with clk := { u.clk with
      ramp := some ⟨s.clk.fcw, 0, bits (s.reg (wClk + 0x108)) 0 13, { s.heldPoint .spll with post := s.clk.point.post }⟩ } }) ∧
  (∀ (s : State) (p : Pll) (rq : Requester) (r : RegRow), p ≠ .spll → Written s ⟨rq, 0xF, 1⟩ (aPll p + 0x10) r 1 →
    exec (.fcwApply p rq 0xF) s = .next (wrote s rq (aPll p + 0x10) r 1)) ∧
  (∀ (s : State) (w : Wr) (r : RegRow), let v := (fixed w 0x80000000 0x80000000).value
    Written s w (wClk + 0x100) r v → s.clk.idle = .free →
    let u := wrote s w.rq (wClk + 0x100) r v
    exec (.hopRequest w) s = .next { u with clk := { u.clk with
      ramp := none
      idle := .hop
      hop := some ⟨s.clk.entry, bits v 0 6, BitVec.ofNat 112
        (({ u with clk := { u.clk with ramp := none } }).boundaryAt (s.ftN + 1843200 * 2 ^ 32)), false⟩
      hopCycle := some s.now } }) ∧
  (∀ (s : State) (w : Wr) (r : RegRow), Written s w (wClk + 0x10C) r w.value →
    let u := wrote s w.rq (wClk + 0x10C) r w.value
    s.time.locked = false → exec (.phaseStepWrite w) s = .next { u with clk := { u.clk with
      pend := max (-pendMax) (min pendMax (s.clk.pend + 16 * (w.value.setWidth 16 : BitVec 16).toInt)) } }) ∧
  (∀ (s : State) (rq : Requester) (v : Word), s.reaches rq = true → s.outside wClk = false → (s.ctx 3 rq).arm = true →
    s.time.locked = true → exec (.phaseStepWrite ⟨rq, 0xF, v⟩) s =
      .next (((armSpent s rq 3 true).modCtx 3 rq (fun c => { c with
        rejInfo := BitVec.ofNat 32 (5 * 2 ^ 28 + Requester.code rq * 2 ^ 26 + 0x10C) })).raise (aPllEv .spll) (bit1 10)))

/-- At the decision of a hop in progress, once its time has come: qualified, it stays and waits for W; else it fails: the hop is
gone, the idle oscillator is free, and the event is set. At W a qualified hop switches: the target entry and its point are live,
the oscillators change roles, INC is that of the point. An accepted write to CLK_CO_APPLY adds its outputs to those that wait; at
the next boundary the pending configuration of each of them is live, with its divider at phase zero and its SYSREF output waiting
for the next SYSREF (log 47), and none waits. -/
def Obligations.HopsAndClockOutputs : Prop :=
  (∀ (s : State) (h : Hop), s.clk.hop = some h → h.qualified = false → h.w.toNat - 40960 * 2 ^ 32 ≤ s.ftN →
    exec (.hopDecision true) s = .next { s with clk := { s.clk with hop := some { h with qualified := true } } } ∧
    (∃ t, exec (.hopDecision false) s = .next t ∧ t.clk = { s.clk with hop := none, idle := .free } ∧
      t.time = s.time ∧ t.seqs = s.seqs ∧ t.firn = s.firn)) ∧
  (∀ (s : State) (h : Hop), s.clk.hop = some h → h.qualified = true → h.w.toNat ≤ s.ftN → s.clk.spllXo = false →
    let x := entryPoint (s.bandEntry h.target)
    ∃ t, exec .hopSwitchover s = .next t ∧ t.clk = { s.clk with
      entry := h.target, osc := !s.clk.osc, idle := .free, hop := none, point := x, fcw := x.fcw48, ramp := none } ∧
      t.time.inc = x.inc ∧ t.time.ft = s.time.ft ∧ t.firn = s.firn) ∧
  (∀ (s : State) (w : Wr) (r : RegRow), Written s w (wClk + 0x280) r w.value →
    let u := wrote s w.rq (wClk + 0x280) r w.value
    exec (.clockOutputApply w) s =
      .next { u with clk := { u.clk with applyMask := s.clk.applyMask ||| w.value.setWidth 12 } }) ∧
  (∀ s : State, s.clk.applyMask ≠ 0 →
    (s.time.running = false → exec .clockOutputLive s = .next s.coreCycle) ∧
    (s.time.running = true → exec .clockOutputLive s = .next (s.advance (s.time.period - s.time.cycle)))) ∧
  (∀ s : State, s.clk.applyMask ≠ 0 → (s.time.running = false ∨ s.time.cycle = 0) →
    let t := s.outputsTurn
    t.clk.applyMask = 0 ∧ t = { s with clk := t.clk } ∧
    ∀ k, k < 12 → if bitOf s.clk.applyMask k then
        t.coLiveAt k = s.reg (wClk + 0x200 + 4 * k) ∧ t.syLiveAt k = s.reg (wClk + 0x240 + 4 * k) ∧
          Tab.get (fun _ => 0) t.clk.coAt k = s.fastNow 0 ∧ Tab.get (fun _ => 0) t.clk.coAt (12 + k) = 0
      else t.coLiveAt k = s.coLiveAt k ∧ t.syLiveAt k = s.syLiveAt k)

/-! Host interface (chapter 05). -/

/-- A whole doorbell write to an enabled, live ring with an index below its size: a host-produced ring takes it as its producer
position where the entries from the consumer to it are at least those before and at most the size; a part-produced one takes it as
its consumer position where it does not pass the producer. Nothing else changes. A doorbell to a ring that is not enabled sets the
ring's cause bit, and nothing at all where that is set. A partial doorbell write changes nothing. A write beside the doorbell
register of its page sets the misc status bit. Enabling a ring puts both its positions at 0 and clears its stop; disabling it
changes its register alone. -/
def Obligations.DoorbellsAndRingEnables : Prop :=
  (∀ (s : State) (n : Fin 256) (v : Word), s.reaches .host = true → s.runs cHif = true →
    let size := s.ringSize n
    let r := s.ring n
    let pos := bits v 0 15 + (if bitOf v 15 then 0 else size)
    (s.isRetired uRing n = false → s.ringOn n = true → bits v 0 15 < size → s.ringHost n = true →
      ringDist size r.cons r.prod ≤ ringDist size r.cons pos → ringDist size r.cons pos ≤ size →
      exec (.doorbell n 0xF v) s =
        .next (s.setRing n { r with prod := pos, lastDb := v &&& 0xFFFF, stopped := false })) ∧
    (s.isRetired uRing n = false → s.ringOn n = true → bits v 0 15 < size → s.ringHost n = false →
      ringDist size r.cons pos ≤ ringDist size r.cons r.prod →
      exec (.doorbell n 0xF v) s = .next (s.setRing n { r with cons := pos, lastDb := v &&& 0xFFFF })) ∧
    (s.isRetired uRing n = false → s.ringOn n = false → s.flag (aRingStat n) 4 = true →
      exec (.doorbell n 0xF v) s = .next s) ∧
    (s.isRetired uRing n = false → s.ringOn n = false → s.flag (aRingStat n) 4 = false → s.flag (wHif + 0x60) 8 = false →
      exec (.doorbell n 0xF v) s = .next (s.raise (aRingStat n) (bit1 4))) ∧
    (∀ be : BitVec 4, be ≠ 0xF → exec (.doorbell n be v) s = .next s) ∧
    (∀ off : BitVec 12, off.toNat / 4 ≠ 0 → s.flag (wHif + 0x40) 31 = false →
      exec (.doorbellOutside n off v) s = .next (s.raise aMiscStat (bit1 0)))) ∧
  (∀ (s : State) (n : Fin 256) (w : Wr) (r : RegRow),
    (Written s w (aRingCfg n) r (fixed w 1 1).value → bitOf (s.reg (aRingCfg n)) 0 = false →
      let u := wrote s w.rq (aRingCfg n) r (fixed w 1 1).value
      exec (.ringEnable n w) s = .next (u.setRing n { s.ring n with
        prod := 0, cons := 0, stopped := false, stalled := 0, served := 0 }) ∧ u.ringOn n = true) ∧
    (Written s w (aRingCfg n) r (fixed w 1 0).value →
      let u := wrote s w.rq (aRingCfg n) r (fixed w 1 0).value
      exec (.ringDisable n w) s = .next u ∧ u.ringOn n = false))

/-- The ring that the round of R133 picks, with room in its CPL ring for every completion that the descriptor can have: the
descriptor joins the ring's list, the consumer position and the ring's share of the round advance by one, the CPL ring holds the
slots back, and the ring is the one last served. A slot whose phase bit is not that of the position, or a read that fails, stops the
ring and takes nothing; a failed read is a detection of class 0x04. With the link down or in D3hot nothing is fetched. -/
def Obligations.FetchTakesADescriptor : Prop :=
  (∀ (s : State) (n : Nat) (w : BitVec 512), s.runs cHif = true → s.hif.up = true → s.hif.d3hot = false →
    s.fetchPick = some (n, false) → 1 ≤ ringDist (s.ringSize n) (s.ring n).cons (s.ring n).prod →
    (bitOf w 63 = phaseAt (s.ringSize n) (s.ring n).cons → bits w 56 4 < 7 →
      let d := s.newDesc n w
      d.need ≤ s.cplRoom (s.cplRing n) →
      ∃ t, exec (.descriptorFetch (.slots [w])) s = .next t ∧
        (t.ring n).descs = (s.ring n).descs ++ [d] ∧ d.word = w ∧ d.st = .fetched ∧
        (t.ring n).cons = ((s.ring n).cons + 1) % (2 * s.ringSize n) ∧ (t.ring n).served = (s.ring n).served + 1 ∧
        (t.ring (s.cplRing n)).reserved = (s.ring (s.cplRing n)).reserved + d.need ∧
        (∀ m, m ≠ n → m ≠ s.cplRing n → t.ring m = s.ring m) ∧
        Tab.get (fun _ => 0) t.hif.lastRing (s.fld (aRingCfg n) 8 2) = n ∧
        t = { s with regs := t.regs, shadow := t.shadow, hif := t.hif, out := t.out }) ∧
    (bitOf w 63 ≠ phaseAt (s.ringSize n) (s.ring n).cons →
      ∃ t, exec (.descriptorFetch (.slots [w])) s = .next t ∧ (t.ring n).stopped = true ∧
        (t.ring n).descs = (s.ring n).descs ∧ (t.ring n).cons = (s.ring n).cons ∧ t.firn = s.firn ∧ t.time = s.time) ∧
    (∀ c, ∃ t, exec (.descriptorFetch (.failed c)) s = .next t ∧ (t.ring n).stopped = true ∧
      (t.ring n).descs = (s.ring n).descs ∧ t.firn = s.firn ∧ t.time = s.time ∧
      t.flt.inbox = s.flt.inbox ++ [⟨0x04, uRing, n, 0, false, s.ft64, s.flt.clock⟩])) ∧
  (∀ (s : State) (m : FetchData), s.hif.up = false ∨ s.hif.d3hot = true → exec (.descriptorFetch m) s = .next s)

/-- The oldest descriptor of a ring that waits for its admission. Where a test of R134 refuses it, it ends with that status, DELAY
and AUX, whatever its kind. Where none does and the ring has a credit: a NOP is DONE; a FENCE is admitted and waits, and is DONE once it stands at the front
of its ring; a STAGE with its whole image puts its set on its way to the staging store; an ORDER without FABRIC to one sequencer
puts its target on its way to the queue, HIF_CMD_LAT core cycles after its arrival. An ORDER with a faulty word is
REJECTED_CONFIG with that word's number. A failed read of an admitted WRITE ends it HOST_FAULT, is a detection and is reported, and
the tags it held go to the next reads. -/
def Obligations.AdmissionAndItsOutcomes : Prop :=
  (∀ (s : State) (n : Fin 256) (d : Desc) (st delay aux : Nat), s.runs cHif = true → s.refuses n d = some (st, delay, aux) →
    (s.oldest n 0 = some d → exec (.nop n) s = .next (s.endDesc n d st delay aux)) ∧
    (s.oldest n 1 = some d → ∀ p, exec (.write n p) s = .next (s.endDesc n d st delay aux)) ∧
    (s.oldest n 2 = some d → exec (.read n) s = .next (s.endDesc n d st delay aux)) ∧
    (s.oldest n 4 = some d → ∀ l, exec (.stage n l) s = .next (s.endDesc n d st delay aux)) ∧
    (s.oldest n 5 = some d → exec (.fence n) s = .next (s.endDesc n d st delay aux)) ∧
    (s.oldest n 6 = some d → ∀ p, exec (.send n p) s = .next (s.endDesc n d st delay aux))) ∧
  (∀ (s : State) (n : Fin 256) (d : Desc), s.runs cHif = true → s.refuses n d = none → s.hasCredit n = true →
    let e := { d with st := .admitted, left := d.length }
    let u := s.modDesc n d.slot (fun _ => e)
    (s.oldest n 0 = some d → exec (.nop n) s = .next (u.endDesc n e sDone 0 0)) ∧
    (s.oldest n 5 = some d → exec (.fence n) s = .next u) ∧
    (s.oldest n 4 = some d → ∀ l : List (BitVec 64), l.length = d.fld 192 13 / 8 →
      ∃ t, exec (.stage n l) s = .next t ∧ t.time = { s.time with inSets := s.time.inSets ++
        [⟨imageSet .host n e l, bits (l.getD 1 0) 16 16, s.now⟩] } ∧ t.seqs = s.seqs ∧ t.firn = s.firn)) ∧
  (∀ (s : State) (n : Fin 256) (d : Desc) (dw : Nat), s.runs cHif = true → s.oldest n 3 = some d →
    d.fault (s.ringClass n) = some dw → exec (.order n) s = .next (s.endDesc n d sConfig 0 dw)) ∧
  (∀ (s : State) (n : Fin 256) (d : Desc) (k : Fin 24) (tick : Option Nat), s.runs cHif = true → s.oldest n 3 = some d →
    d.fault (s.ringClass n) = none → s.isRetired uRing n = false → s.hasCredit n = true → d.fabric = false →
    d.chans = [k.val] →
    let due := max (d.arrived + 24) s.now
    let o := { s.descOrd n { d with st := .admitted } k with arrival := due }
    let u := s.modDesc n d.slot (fun d => { d with st := .admitted })
    u.ordTests o (due - s.now) 0 = .ok tick →
    exec (.order n) s = .next { u with time := { u.time with
      inbound := u.time.inbound ++ [⟨{ o with chan := 0, tick := tick }, BitVec.ofNat 24 (2 ^ k.val), due⟩] } }) ∧
  (∀ (s : State) (n : Fin 256) (d : Desc) (l : List Desc), s.runs cHif = true → (s.ring n).descs = d :: l → d.kind = 5 →
    (d.st = .admitted → exec (.fenceCompletion n) s = .next (s.endDesc n d sDone 0 0)) ∧
    (d.st ≠ .admitted → exec (.fenceCompletion n) s = .next s)) ∧
  (∀ (s : State) (n : Fin 256) (slot : BitVec 15) (d : Desc) (c : HostCause), s.runs cHif = true →
    s.descAt n slot (fun d => d.st == .admitted && d.kind == 1) = some d →
    exec (.hostFault n slot c) s = .next ((((s.endDesc n d sHostFault 0 (match c with
      | .unsupported => 1 | .abort => 2 | .poisoned => 3 | .timeout => 4 | .ecrc => 5)).detect 0x04 uRing n 0).reportAer c).issueReads 240))

/-- An admitted WRITE of 64 bytes to a live region of Firn whose read of host memory has been issued stores them at its address and
nothing else; an admitted READ of 64 bytes hands the good word at its address to the host at the address that the descriptor gives,
in one write where that does not cross a 4 KiB boundary. The end of the data of a READ or
WRITE of which nothing is left ends it: DONE, or DONE_LATE by the delay against its deadline, with its length. A SEND with a way to
its destination leaves as MAIL; without one it ends with the status that says why. -/
def Obligations.DataDescriptorsMoveTheirData : Prop :=
  (∀ (s : State) (n : Fin 256) (d : Desc) (p : List Byte), s.runs cHif = true → s.refuses n d = none → s.oldest n 1 = some d →
    s.hasCredit n = true → s.desc? n d.slot = some d → d.mor = false → d.length = 64 → d.moved = 0 → p.length = 64 →
    (∃ e, ((s.modDesc n d.slot (fun _ => { d with st := .admitted, left := 64 })).issueReads 240).desc? n d.slot = some e ∧
      64 ≤ e.asked) →
    s.firnGone (d.fld 192 38 / 64) = false →
    ∃ t, exec (.write n p) s = .next t ∧
      (∀ w, w < 2 ^ 21 → t.firnWord w =
        if w = d.fld 192 38 / 64 then BitVec.ofNat 512 (leNat p) else s.firnWord w) ∧
      (∀ e, t.desc? n d.slot = some e → e.moved = 64 ∧ e.left = 0 ∧ e.st = .admitted) ∧
      t.time = s.time ∧ t.seqs = s.seqs ∧ t.mor = s.mor) ∧
  (∀ (s : State) (n : Fin 256) (d : Desc), s.runs cHif = true → s.refuses n d = none → s.oldest n 2 = some d →
    s.hasCredit n = true → s.desc? n d.slot = some d → d.mor = false → d.length = 64 → d.moved = 0 →
    d.fld 128 64 % 4096 ≤ 4032 → s.takeFlag 39 (d.fld 192 38 / 64) = none →
    s.firnGone (d.fld 192 38 / 64) = false → s.firnPoison (d.fld 192 38 / 64) = false →
    ∃ t, exec (.read n) s = .next t ∧
      t.out = s.out ++ [.host (BitVec.ofNat 64 (d.fld 128 64)) (leBytes (s.firnWord (d.fld 192 38 / 64)) 64)
        (s.flag wHif 1 && bitOf s.hif.devCtl 4)] ∧
      (∀ e, t.desc? n d.slot = some e → e.moved = 64 ∧ e.left = 0 ∧ e.st = .admitted) ∧
      t = { s with hif := t.hif, out := t.out, firn := t.firn } ∧ t.firn.mem = s.firn.mem ∧ t.firn.poison = s.firn.poison) ∧
  (∀ (s : State) (n : Fin 256) (slot : BitVec 15) (d : Desc), s.runs cHif = true →
    s.descAt n slot (fun d => d.st == .admitted && (d.moves || d.kind == 6)) = some d →
    d.kind = 1 ∨ d.kind = 2 → d.left = 0 →
    let u := if d.kind = 1 then s.issueReads 240 else if d.mor then s else s.readTurn n d.slot 512
    u.desc? n d.slot = some d →
    let late := (s.ft64 - BitVec.ofNat 64 d.deadline).toInt.toNat
    exec (.dmaCompletion n slot []) s = .next (
      if d.deadline = 0 ∨ late = 0 then u.endDesc n d sDone 0 d.length else u.endDesc n d sDoneLate late d.length)) ∧
  (∀ (s : State) (n : Fin 256) (d : Desc) (p : List Byte), s.runs cHif = true → s.refuses n d = none → s.oldest n 6 = some d →
    s.hasCredit n = true → p.length = d.length →
    let e := { d with st := .admitted, left := d.length }
    let u := (s.modDesc n d.slot (fun _ => e)).payloadNow e
    (u.sendTest (d.fld 224 16) = none →
      exec (.send n p) s = .next (u.mailSend (d.fld 224 16) (d.fld 240 8) (d.dw 0).toNat p (n, d.slot))) ∧
    (∀ st aux, u.sendTest (d.fld 224 16) = some (st, aux) → exec (.send n p) s = .next (u.endDesc n e st 0 aux)))

/-- Posting a completion gives back its reserved slot. A QUIET DONE posts nothing more; with the link down it is lost and counted;
a retired ring counts it as a tombstone hit; a full or disabled ring drops it; else its 32 bytes go to the ring's producer slot
with the slot's phase as the top bit, the producer position advances by one, and the status is counted. A ring that dropped records
posts its OVERFLOW record once it has room for two. Entries older than the ring's time signal its vector and restart the count. A
vector that is unmasked while it is pending sends its message. -/
def Obligations.CompletionsAndMessages : Prop :=
  (∀ (s : State) (n : Nat) (c : Cpl),
    let u := s.setRing n { s.ring n with reserved := (s.ring n).reserved - 1 }
    (c.quiet = true → c.status = 0 → s.postCpl n c = u) ∧
    (c.quiet = false ∨ c.status ≠ 0 →
      (s.hif.up = false → s.postCpl n c = u.bump aHifLost) ∧
      (s.hif.up = true → s.isRetired uRing n = true → s.postCpl n c = u.bump aTombHits) ∧
      (s.hif.up = true → s.isRetired uRing n = false → s.ringTakes n cCpl = false ∨ s.ringFree n = 0 →
        s.postCpl n c = u.dropEntry n) ∧
      (s.hif.up = true → s.ringTakes n cCpl = true → s.ringFree n ≠ 0 → s.flag wHif 0 = false →
        s.flag (aRingIrq n) 31 = false →
        let pos := (s.ring n).prod
        let size := s.ringSize n
        let t := s.postCpl n c
        t.out = s.out ++ [.entry n (pos % size) (s.slotAddr n (pos % size) 32)
            (leBytes (BitVec.ofNat 512 (c.word + if phaseAt size pos then 2 ^ 255 else 0)) 32)] ∧
          (t.ring n).prod = (pos + 1) % (2 * size) ∧ (t.ring n).reserved = (s.ring n).reserved - 1 ∧
          (∀ m, m ≠ n → t.ring m = s.ring m) ∧
          Tab.get (fun _ => 0) t.hif.statusCounts c.status.toNat =
            Tab.get (fun _ => 0) s.hif.statusCounts c.status.toNat + 1 ∧
          t = { s with hif := t.hif, out := t.out }))) ∧
  (∀ (s : State) (n : Fin 256), s.runs cHif = true →
    ((s.ring n).dropped = 0 ∨ s.ringFree n < 2 → exec (.overflowRecord n) s = .next s) ∧
    (s.hif.up = true → (s.ring n).dropped ≠ 0 → s.ringTakes n cEvt = true → 2 ≤ s.ringFree n →
      ∃ t, exec (.overflowRecord n) s = .next t ∧ (t.ring n).dropped = 0 ∧
        (t.ring n).prod = ((s.ring n).prod + 1) % (2 * s.ringSize n) ∧ (t.ring n).seq = (s.ring n).seq ∧
        t = { s with hif := t.hif, out := t.out })) ∧
  (∀ (s : State) (n : Fin 256), s.runs cHif = true → s.ageDue n = true →
    exec (.msixAgeTimeout n) s =
      .next ((s.setRing n { s.ring n with sinceSig := 0, oldest := none, intr := false }).msix (s.fld (aRingIrq n) 16 9))) ∧
  (∀ (s : State) (v : Fin 512) (rq : Requester) (r : RegRow), let a := wHif + 0x180C + 16 * v.val
    Written s ⟨rq, 0xF, 0⟩ a r 0 → bitOf (s.reg a) 0 = true →
    let u := wrote s rq a r 0
    (Tab.get (fun _ => false) s.hif.pba v = true → exec (.msixVectorUnmask v rq 0xF) s =
      .next ({ u with hif := { u.hif with pba := Tab.set (fun _ => false) u.hif.pba v false } }.emit
        (.msix v (s.reg (a - 8) ++ s.reg (a - 12)) (s.reg (a - 4))))) ∧
    (Tab.get (fun _ => false) s.hif.pba v = false → exec (.msixVectorUnmask v rq 0xF) s = .next u))

/-- A BAR4 read of bytes of good words in live regions returns them and changes no content. A BAR4 write of less than 64 bytes within one good word of
a live region stores its bytes and nothing else; to a retired region it is dropped and counted. A timeout counts an
abort, and for a read answers a Completer Abort. D3hot is entered outside a reset; its end disables every ring. When the link goes
down every ring is disabled and holds no descriptor, the misc status says so and it is a detection of class 0x05; when it comes up
its rate and width are kept, and a rate or a width that the link does not train to is none. -/
def Obligations.Bar4PowerAndLink : Prop :=
  let byte (s : State) (a : Nat) : Byte := (s.firnWord (a / 64 % 2 ^ 21) >>> (8 * (a % 64))).setWidth 8
  (∀ (s : State) (a : BitVec 27) (k : Nat), s.reaches .host = true → s.runs cHif = true →
    (∀ i, i < k → s.firnGone ((a.toNat + i) / 64 % 2 ^ 21) = false ∧ s.firnPoison ((a.toNat + i) / 64 % 2 ^ 21) = false) →
    (∀ x ∈ s.firn.flags, x.1 ≠ 39) →
    ∃ t, exec (.bar4Read a k) s = .next t ∧ t.firn.mem = s.firn.mem ∧ t.firn.poison = s.firn.poison ∧
      t = { s with firn := t.firn, readData := { s.readData with
        bar4 := (List.range k).map (fun i => byte s (a.toNat + i)), poisoned := false } }) ∧
  (∀ (s : State) (a : BitVec 27) (l : List Byte), s.reaches .host = true → s.runs cHif = true →
    l ≠ [] → l.length < 64 → a.toNat % 64 + l.length ≤ 64 →
    (s.firnGone (a.toNat / 64) = false → s.firnPoison (a.toNat / 64) = false → ∃ t, exec (.bar4Write a l) s = .next t ∧
      (∀ b, b < 2 ^ 27 → byte t b = if a.toNat ≤ b ∧ b < a.toNat + l.length then l.getD (b - a.toNat) 0 else byte s b) ∧
      t = { s with firn := t.firn }) ∧
    (s.firnGone (a.toNat / 64) = true → exec (.bar4Write a l) s = .next ((s.bump (wFirn + 0x50)).bar4Abort))) ∧
  (∀ s : State, s.reaches .host = true → s.runs cHif = true → s.flag (wHif + 0x40) 31 = false →
    let t := (s.bump (wHif + 0x70)).raise aMiscStat (bit1 1)
    exec (.bar4Timeout false) s = .next t ∧ exec (.bar4Timeout true) s = .next { t with out := t.out ++ [.abort] }) ∧
  (∀ s : State,
    (s.hk.inReset = none → exec .d3hotEntry s = .next { s with hif := { s.hif with d3hot := true } }) ∧
    (s.hif.d3hot = true → ∃ t, exec .d0Return s = .next t ∧ (∀ n, n < 256 → t.ringOn n = false) ∧
      t = { s with regs := t.regs, shadow := t.shadow, hif := { s.hif with d3hot := false } }) ∧
    (s.hif.d3hot = false → exec .d0Return s = .next s)) ∧
  (∀ s : State,
    (s.hif.up = false → exec .dlDown s = .next s) ∧
    (s.hif.up = true → ∃ t, exec .dlDown s = .next t ∧ t.hif.up = false ∧
      (∀ n, n < 256 → t.ringOn n = false ∧ (t.ring n).descs = []) ∧ t.flag aMiscStat 2 = true ∧
      t.flt.inbox = s.flt.inbox ++ [⟨0x05, 0, 0, 0, false, s.ft64, s.flt.clock⟩] ∧ t.firn = s.firn ∧ t.seqs = s.seqs ∧ t.clk = s.clk) ∧
    (∀ (g : BitVec 3) (w : BitVec 5), s.hk.inReset = none → linkTrains g w = false → exec (.dlUp g w) s = .next s) ∧
    (∀ (g : BitVec 3) (w : BitVec 5), s.hk.inReset = none → s.flag (wHif + 0x40) 31 = false → linkTrains g w = true →
      exec (.dlUp g w) s = .next (
        let t := if s.hif.gen = 0 then s else s.raise (wHif + 4) (bit1 1)
        { t with hif := { t.hif with up := true, gen := g, width := w } })))

/-! Firn (chapter 06). -/

/-- Of the accesses that want a bank's cycle, one that is served is among them, and no access that may be served has a higher rank: a
port of rank 1 to 3 once its holdoff is over, Rime's port where Rime wants that word, any other port.
A cycle with one access of a port other than Rime's serves it: the bank's next access falls in a later cycle, and the rank's counts of
accesses served and cycles waited grow. A write to a live region gives its word the 64 bytes and no other word, and clears the word's
poison. A read of a good word of a live region without flips changes no content and no register. With one flipped bit it is a corrected
read: counted, its word queued for write-back, and a detection of class 0x06 on the bank. With two flips in a codeword it is uncorrectable:
counted, and a detection of class 0x07; a word that Rime's save buffer answers for shows no flip. The oldest word to write back is written
back in a cycle of rank 5 and its contents stay as they read. -/
def Obligations.FirnBankCycle : Prop :=
  let waits (s : State) : Prop :=
    (s.firn.rime.st = .copy → s.firn.rime.saved ≠ BitVec.allOnes 64) ∧
    (s.firn.rime.st = .test → s.firn.rime.march < s.marchOps.length) ∧
    (s.firn.rime.st = .restore → s.firn.rime.restored ≠ BitVec.allOnes 64) ∧ (∀ c, s.firn.copy = some c → c.todo ≠ [])
  let open_ (s : State) (b : Nat) (x : FirnReq) : Prop :=
    if portRank x.port = 5 then (s.rimeWork (x.row.toNat * 256 + b)).isSome = true
    else 4 ≤ portRank x.port ∨ Tab.get (fun _ => 0) s.firn.hold (b * 64 + x.port) ≤ s.bankNow b
  (∀ (s : State) (b : Nat) (reqs : List FirnReq) (r : FirnReq), s.firnPick b reqs = some r → r ∈ reqs ∧ open_ s b r ∧
    ∀ x ∈ reqs, open_ s b x → portRank r.port ≤ portRank x.port) ∧
  (∀ (s : State) (b : Fin 256) (r : FirnReq) (flips : BitVec 576), s.runs cFirn = true → waits s → portRank r.port ≠ 5 → open_ s b r →
    let k := portRank r.port
    let w := r.row.toNat * 256 + b.val
    let cnt (t : Tab (BitVec 64)) : BitVec 64 := Tab.get (fun _ => 0) t (k - 1)
    let ecc := if s.redirected w then some [] else eccCheck flips
    s.firnGone w = false →
    ∃ t, exec (.firnAccessServed b [r] flips) s = .next t ∧
      Tab.get (fun _ => 0) t.firn.cycle b = s.bankNow b + 1 ∧
      cnt t.firn.served = cnt s.firn.served + 1 ∧
      cnt t.firn.waited = cnt s.firn.waited + BitVec.ofNat 64 r.waited ∧
      t.time = s.time ∧ t.seqs = s.seqs ∧ t.hif = s.hif ∧
      (∀ v, r.write = some v → t.firnPoison w = false ∧ t.regs = s.regs ∧ t.flt = s.flt ∧
        ∀ x, x < 2 ^ 21 → t.firnWord x = if x = w then v else s.firnWord x) ∧
      (r.write = none → t.firn.mem = s.firn.mem ∧ t.firn.rime = s.firn.rime ∧
        (s.firnPoison w = false → ecc = some [] → t.regs = s.regs ∧ t.flt = s.flt ∧ t.firn.wbQueue = s.firn.wbQueue) ∧
        (∀ c, s.firnPoison w = false → ecc = some [c] → s.firn.wbQueue.length < 16 →
          t.regs = (s.bump (wFirn + 0x40)).regs ∧ t.firn.wbQueue = s.firn.wbQueue ++ [w] ∧
          t.flt.inbox = s.flt.inbox ++ [⟨0x06, uBank, s.bankUnit w, BitVec.ofNat 32 w, false, s.ft64, s.flt.clock⟩]) ∧
        (s.firnPoison w = true ∨ ecc = none →
          t.regs = (s.bump (wFirn + 0x44)).regs ∧
          ∃ again, t.flt.inbox = s.flt.inbox ++ [⟨0x07, uBank, s.bankUnit w, BitVec.ofNat 32 w, again, s.ft64, s.flt.clock⟩]))) ∧
  (∀ (s : State), s.runs cFirn = true →
    (s.firn.wbQueue = [] → exec .eccWriteBack s = .next s) ∧
    (∀ w l, s.firn.wbQueue = w :: l → w < 2 ^ 21 → ∃ t, exec .eccWriteBack s = .next t ∧
      t = { s with firn := { s.firn with
        wbQueue := l, cycle := t.firn.cycle, served := t.firn.served, waited := t.firn.waited } } ∧
      Tab.get (fun _ => 0) t.firn.cycle (firnBank w) = s.bankNow (firnBank w) + 1 ∧
      Tab.get (fun _ => 0) t.firn.served 4 = Tab.get (fun _ => 0) s.firn.served 4 + 1))

/-- With Rime enabled and idle, no repair copy that wants its port and the pace since its last region over, it begins its next region
where that is live; the one after it is next, and a pass counts where it was the last. Once a phase has had the cycles of its accesses
within its limit it can end: the copy with every word of the region in the save buffer, the march with a detection of class 0x08 for each
word that mismatched, the restore with the words back in the region. A phase that reaches its limit: the copy gives the region up, the
test goes on to the restore, the restore stalls once; each counts and posts a SKIP record. In any other phase each of them changes
nothing. -/
def Obligations.RimeGoesThroughItsPhases : Prop :=
  ∀ s : State, s.runs cFirn = true →
    let r := s.firn.rime
    let ready (n : Nat) : Prop := s.coreOfBank n ≤ s.rimeLimit ∧ r.phaseAt + s.coreOfBank n ≤ s.now
    let phase (x : RimeSt) : State := { s with firn := { s.firn with rime := { r with st := x, phaseAt := s.now } } }
    (s.flag wFirn 0 = true → r.st = .idle → s.copyWants = false → s.isRetired uRegion s.firn.next = false → s.rimeDue ≤ s.now →
      exec .rimeRegionStart s = .next { s with firn := { s.firn with
        rime := { Rime.reset with st := .copy, region := s.firn.next, regionAt := some s.now, phaseAt := s.now }
        next := (s.firn.next + 1) % 32768
        passes := min 0xFFFF (s.firn.passes + if s.firn.next = 32767 then 1 else 0) } }) ∧
    (s.flag wFirn 0 = false ∨ r.st ≠ .idle → exec .rimeRegionStart s = .next s) ∧
    (r.st = .copy → ready 64 →
      (r.saved = BitVec.allOnes 64 → exec .rimeCopyDone s = .next (phase .test)) ∧
      (r.region < 32768 → ∃ t, exec .rimeCopyDone s = .next t ∧ t.firn.rime.st = .test ∧ t.firn.mem = s.firn.mem ∧
        ∀ i, i < 64 → bitOf r.saved i = false → t.firnWord (64 * r.region + i) = s.firnWord (64 * r.region + i) ∧
          t.firnPoison (64 * r.region + i) = s.firnPoison (64 * r.region + i))) ∧
    (r.st ≠ .copy → exec .rimeCopyDone s = .next s) ∧
    (r.st = .test → r.bad = [] → ready s.marchOps.length →
      exec (.rimeTestDone []) s = .next (phase .restore) ∧
      ∀ m : MarchMiss, s.marchReads m = true → let w := 64 * r.region + m.word.val
        ∃ t, exec (.rimeTestDone [m]) s = .next t ∧ t.firn.rime.st = .restore ∧ t.firn.mem = s.firn.mem ∧
          t.regs = (s.raise aFirnEvents (bit1 0)).regs ∧ t.flt.inbox = s.flt.inbox ++
            [⟨0x08, uBank, s.bankUnit w, BitVec.ofNat 32 w, true, s.ft64, s.flt.clock⟩]) ∧
    (r.st = .restore → r.late = [] → r.phaseAt + s.coreOfBank 64 ≤ s.now →
      (r.restored = BitVec.allOnes 64 → exec .rimeRestoreDone s =
        .next { s with firn := { s.firn with rime := { Rime.reset with region := r.region, regionAt := r.regionAt } } }) ∧
      (r.region < 32768 → ∃ t, exec .rimeRestoreDone s = .next t ∧ t.firn.rime.st = .idle ∧
        ∀ i, i < 64 → bitOf r.restored i = false → t.firnWord (64 * r.region + i) = s.firnWord (64 * r.region + i) ∧
          t.firnPoison (64 * r.region + i) = s.firnPoison (64 * r.region + i))) ∧
    (r.st = .idle → exec .rimeTimeout s = .next s) ∧
    (r.phaseAt + s.rimeLimit ≤ s.now → r.bad = [] → r.st = .copy ∨ r.st = .test ∨ (r.st = .restore ∧ r.stalled = false) →
      ∃ t, exec .rimeTimeout s = .next t ∧
        t.firn = { s.firn with rime :=
          if r.st = .copy then { Rime.reset with region := r.region, regionAt := r.regionAt }
          else if r.st = .test then { r with st := .restore, phaseAt := s.now }
          else { r with stalled := true } } ∧
        Tab.get (fun _ => 0) t.flt.skips 1 = satInc (Tab.get (fun _ => 0) s.flt.skips 1) ∧ t.time = s.time ∧ t.seqs = s.seqs)

/-- An accepted FIRN_CMD that repairs a bank makes it wait; with the engine free and a spare free it starts at once: the bank and
the spare are in COPY for each other and all 8,192 words are left. The engine takes the bank that has waited longest once it and Rime
are free. Words skipped by a pass that has reached its limit are what is left. When the last word is copied the bank is REMAPPED to its
spare, the spare is ACTIVE, the event is set and the engine is free. An accepted FIRN_CMD that retires a region retires it, whose drain
window runs from the next core-cycle boundary. -/
def Obligations.BankRepairAndRegionRetirement : Prop :=
  (∀ (s : State) (rq : Requester) (bank : BitVec 15) (r : RegRow), bank.toNat < 256 →
    let v : Word := 0x40000000 ||| bank.setWidth 32
    Written s ⟨rq, 0xF, v⟩ (wFirn + 0x14) r v →
    let u := wrote s rq (wFirn + 0x14) r v
    let b := bank.toNat
    let wait := u.setBank b { s.bank b with st := .wait }
    (s.firn.copy.isSome = true ∨ s.firn.rime.st ≠ .idle → exec (.firnCmdRepair rq 0xF bank) s =
      .next { wait with firn := { wait.firn with copyWait := s.firn.copyWait ++ [b] } }) ∧
    (∀ k, s.firn.copy = none → s.firn.rime.st = .idle → s.firn.copyWait = [] → s.freeSpare = some k →
      let t := (wait.setBank b { s.bank b with st := .copy }).setSpare k { s.spare k with st := .copy, bank := b }
      exec (.firnCmdRepair rq 0xF bank) s =
        .next { t with firn := { t.firn with copyWait := [], copy := some ⟨b, k, List.range 8192, [], [], s.now⟩ } })) ∧
  (∀ (s : State) (b k : Nat) (l : List Nat), s.runs cFirn = true → s.firn.copyWait = b :: l → s.freeSpare = some k →
    (s.firn.copy = none → s.firn.rime.st = .idle →
      let t := (s.setBank b { s.bank b with st := .copy }).setSpare k { s.spare k with st := .copy, bank := b }
      exec .bankCopyStart s =
        .next { t with firn := { t.firn with copyWait := l, copy := some ⟨b, k, List.range 8192, [], [], s.now⟩ } }) ∧
    (s.firn.copy.isSome = true ∨ s.firn.rime.st ≠ .idle → exec .bankCopyStart s = .next s)) ∧
  (∀ (s : State) (c : Copy) (rows : List (BitVec 13)), s.runs cFirn = true → s.firn.copy = some c →
    (c.at_ + s.rimeLimit ≤ s.now → rows ≠ [] → (∀ x, x ∈ c.todo ↔ x ∈ rows.map (fun r => r.toNat)) →
      ∃ t, exec (.bankCopySkip rows) s = .next t ∧
      t.firn = { s.firn with copy := some { c with todo := rows.map (fun r => r.toNat), at_ := s.now } } ∧
      Tab.get (fun _ => 0) t.flt.skips 2 = satInc (Tab.get (fun _ => 0) s.flt.skips 2) ∧ t.time = s.time ∧ t.seqs = s.seqs) ∧
    (c.at_ + s.rimeLimit ≤ s.now → exec (.bankCopySkip []) s = .next s) ∧
    (∃ t, exec .bankCopyDone s = .next t ∧ (t.bank c.bank).st = .remapped ∧ (t.bank c.bank).spare = c.spare + 1 ∧
      (t.spare c.spare).st = .active ∧ (t.spare c.spare).bank = c.bank ∧ t.firn.copy = none ∧ t.firn.mem = s.firn.mem ∧
      t.flag aFirnEvents 2 = true ∧ t.time = s.time ∧ t.seqs = s.seqs)) ∧
  (∀ (s : State) (rq : Requester) (region : BitVec 15) (r : RegRow),
    let v : Word := 0x80000000 ||| region.setWidth 32
    Written s ⟨rq, 0xF, v⟩ (wFirn + 0x14) r v → s.isRetired uRegion region.toNat = false →
    ∃ t, exec (.firnCmdRetire rq 0xF region) s = .next t ∧ t.isRetired uRegion region.toNat = true ∧
      t.firn.retiredCount = s.firn.retiredCount + 1 ∧ t.firn.mem = s.firn.mem ∧
      t.flt.draining = s.flt.draining ++
        [⟨uRegion, region.toNat, s.ftOfEdge (16 * (s.now + 1)), s.flt.clock + s.fltStep⟩])

/-! Moraine (chapter 07). -/

/-- A write of GRAIN that changes it makes a new map (log 22 leaves the contents where they lie). Setting ENABLE on an OFF channel
with a supported DIMM starts its training at step 1. A training that passes with no timing parameter at zero makes the channel
ACTIVE in a new map: GEN counts, MAP_CHANGED is set, the map holds the channels that are active, each of the other channels'
contents stay. One that fails shows its step, sets TRAIN_FAIL and tells the fault engine. A GO pulse of each operation of the
helper takes the helper's registers as they stand, and one of operation 0 is refused with cause 5 and REFUSED; a mode-register access
or an MPC goes out at once, and a write of a mode register is stored. The end of an operation that moves no burst
sets DONE and shows its results: a read of a mode register shows what it read, CA training the levels that differ from the parity of
the driven bits, write leveling the levels as they are; that of any operation ends it and sets DONE. At the end of the drain
with nothing active the new map is over the channels that run and Moraine is open again; without a drain nothing changes. -/
def Obligations.MoraineTrainsAndMaps : Prop :=
  (∀ (s : State) (w : Wr) (r : RegRow), Written s w wMor r w.value →
    let u := wrote s w.rq wMor r w.value
    exec (.morMapWrite w) s =
      .next (if u.reg wMor = s.reg wMor then u else { u with mor := { u.mor with gen := s.mor.gen + 1 } })) ∧
  (∀ (s : State) (ch : Fin 4) (w : Wr) (r : RegRow), let x := fixed w 1 1
    Written s x (aCh ch) r x.value → bitOf (s.reg (aCh ch)) 0 = false → (s.chan ch).st = .off → (s.chan ch).dimm.capGiB.isSome = true →
    s.isRetired uDram ch = false →
    ∃ t, exec (.morChannelEnable ch w) s = .next t ∧ (t.chan ch).st = .train ∧ (t.chan ch).trainStep = 1 ∧
      (∀ k, k ≠ ch.val → t.chan k = s.chan k) ∧ t.mor.mem = s.mor.mem ∧ t.mor.active = s.mor.active ∧ t.mor.gen = s.mor.gen ∧
      t = { wrote s w.rq (aCh ch) r x.value with mor := t.mor }) ∧
  (∀ (s : State) (ch : Fin 4), s.runs cMor = true → s.hk.bring = none → (s.chan ch).st = .train →
    let c := s.chan ch
    let joins (k : Nat) : Bool := !s.isRetired uDram k && (k == ch.val || (match (s.chan k).st with
      | .active | .srEntry | .selfRefresh | .replay => true | _ => false))
    ((∀ i, i < 26 → c.tim i ≠ 0) → s.isRetired uDram ch = false → s.clk.mpll.st ≠ .bypass → s.mor.fenced = false →
        s.mor.recovering = false →
      ∃ t, exec (.morTrainingDone ch .passed) s = .next t ∧ (t.chan ch).st = .active ∧ (t.chan ch).trainStep = 0 ∧
        t.mor.active = (List.range 4).filter joins ∧ t.mor.gen = s.mor.gen + 1 ∧ t.mor.fenced = false ∧
        t.regs = (s.raise (wMor + 8) (bit1 1)).regs ∧
        (∀ k ∈ t.mor.active, t.mor.capacity ≤ (s.chan k).dimm.cap ∧
          (t.chan k).dimm.trimmed = decide (t.mor.capacity < (s.chan k).dimm.cap)) ∧
        (∃ k ∈ t.mor.active, t.mor.capacity = (s.chan k).dimm.cap) ∧
        (∀ e, e ∈ t.mor.mem ↔ e ∈ s.mor.mem ∧ e.1 / 2 ^ 32 ≠ ch.val) ∧ t.time = s.time ∧ t.flt = s.flt) ∧
    (∀ k : Fin 8, ∃ t, exec (.morTrainingDone ch (.failed k)) s = .next t ∧
      t = (((s.setChan ch { c with trainStep := max 1 k.val }).raise (aChEv ch) (bit1 4)).detect 0x09 uDram ch
        (BitVec.ofNat 32 (max 1 k.val)) true))) ∧
  (∀ (s : State) (ch : Fin 4) (w : Wr) (r : RegRow) (op : Nat), op < 9 →
    let c : Instr := match op with
      | 0 => .thNone ch w | 1 => .thWriteRead ch w | 2 => .thReadCmp ch w | 3 => .thWrite ch w | 4 => .thMrw ch w
      | 5 => .thMrr ch w | 6 => .thMpc ch w | 7 => .thCaSample ch w | _ => .thWlSample ch w
    let x := fixed w 0x8F000000 (BitVec.ofNat 32 (2 ^ 31 + op * 2 ^ 24))
    let a := aCh ch + 0x100
    (Written s x a r x.value → let u := wrote s w.rq a r x.value
      let sub := bitOf x.value 21
      let rank := bitOf x.value 20
      let addr := s.reg (a + 4)
      let v := u.modChan ch (fun k => { k with
        thErrors := 0
        thDq := 0
        thCb := 0
        th := some ⟨op, sub, rank, addr, s.fld (a + 8) 0 16, s.reg (a + 0xC),
          (List.range 16).map (fun i => s.reg (a + 0x40 + 4 * i))⟩ })
      let out (o : DOp) : State := v.emit (.dram ch ⟨b01 sub, b01 rank, o⟩ none)
      exec c s = .next (match op with
        | 4 => (out (.mrw (bits addr 8 8) (bits addr 0 8))).modChan ch (fun k => { k with
            modeRegs := Tab.set (fun _ => 0) k.modeRegs ((b01 sub * 2 + b01 rank) * 256 + bits addr 8 8) (addr.setWidth 8) })
        | 5 => out (.mrr (bits addr 8 8))
        | 6 => out (.mpc (bits addr 0 8))
        | _ => v)) ∧
    (op = 0 → w.be = 0xF → s.reaches w.rq = true → s.outside a = false → (s.ctx 5 w.rq).arm = true →
      (∃ q, rowOf a = some q ∧ q.encOk (q.written 0 (s.reg a) x.value).2 = true) →
      exec c s = .next (((s.modCtx 5 w.rq (fun k => { k with arm := false })).reject w.rq a 5).raise (a + 0x10) (bit1 29)))) ∧
  (∀ (s : State) (ch : Fin 4) (o : ThOp) (l : List (Nat × BitVec 512)) (lc : List (Nat × BitVec 128)) (levels : Word) (mrr : BitVec 8),
    s.runs cMor = true → (s.chan ch).th = some o →
    (o.op ≠ 1 → o.op ≠ 2 → o.op ≠ 3 →
      let odd := popcount (BitVec.ofNat 14 (o.data.getD 0 0).toNat) % 2 == 1
      let bad := levels ^^^ (if odd then 0xFFFFFFFF else 0)
      exec (.thDone ch l lc levels mrr) s = .next ((s.modChan ch (fun c => { c with
        th := none
        thDq := if o.op = 7 then bad else if o.op = 8 then levels else c.thDq
        thErrors := if o.op = 7 ∧ bad ≠ 0 then 1 else c.thErrors
        thMrr := if o.op = 5 then mrr else c.thMrr })).raise (aCh ch + 0x110) (bit1 30))) ∧
    (∃ t, exec (.thDone ch l lc levels mrr) s = .next t ∧ (t.chan ch).th = none ∧ t.flag (aCh ch + 0x110) 30 = true ∧
      (o.op = 2 → t.mor.mem = s.mor.mem) ∧ (∀ k, k ≠ ch.val → t.chan k = s.chan k) ∧ t.time = s.time ∧ t.firn = s.firn)) ∧
  (∀ (s : State), s.runs cMor = true →
    (s.morDrains = false → exec .morMapSwitch s = .next s) ∧
    (∀ d, s.flt.draining.filter (fun d => d.kind == uDram) = [d] → s.mor.fenced = true → s.mor.recovering = false →
      s.morBusy = false → ∃ t, exec .morMapSwitch s = .next t ∧ t.mor.fenced = false ∧ t.morDrains = false ∧
      t.mor.gen = s.mor.gen + 1 ∧ t.regs = (s.raise (wMor + 8) (bit1 1)).regs ∧ t.mor.mem = s.mor.mem ∧
      (∀ k, k ∈ t.mor.active ↔ k < 4 ∧ s.isRetired uDram k = false ∧ ((s.chan k).st = .active ∨ (s.chan k).st = .srEntry ∨
        (s.chan k).st = .selfRefresh ∨ (s.chan k).st = .replay))))

/-- At an active channel with Moraine open, of a request behind which no other of its burst waits: a write of an address that has no
entry still to be issued is queued behind the others if fewer than 48 are; one of an address that has replaces its data in place; one that
finds the queue full waits and counts in WQ_FULL. A read of a queued address completes from the youngest entry and counts in FORWARDS. A
stream's read with a free slot takes it. At a channel in self-refresh a request that finds the exit not begun counts as a collision;
in self-refresh entry it makes the channel active and counts as an abort. A row of a read's return with no read in flight changes nothing;
at a channel that does not run the data is discarded and counted. At a channel that runs the read whose time has come leaves its slot: clean
data raises nothing; corrected data counts in CE_COUNT and goes to the fault engine as FC_MOR_CE; uncorrectable data as FC_MOR_UE, counted
in UE_COUNT.
Moraine's contents stay. An idle context whose open keeps the ranges of R200 opens at zero; one that breaks them stays idle. An
open stream with fewer than 32 reads outstanding, more to read and room in its staging area issues its next 64 bytes, and no read
otherwise; its reader closes it. -/
def Obligations.MoraineServesRequestsAndStreams : Prop :=
  (∀ (s : State) (ch : Fin 4) (src : MorSource) (ca : BitVec 38), s.runs cMor = true → s.mor.fenced = false →
    let c := s.chan ch
    let b := ca.toNat / 64 * 64
    let queued : Prop := ∃ e ∈ c.writes, e.ca = b ∧ e.sent = none
    (∀ r ∈ c.waiting, r.ca.toNat / 64 * 64 ≠ b) →
    (c.st = .active ∨ c.st = .replay → ∀ v : BitVec 512,
      (¬ queued → c.writes.length < 48 → exec (.morRequest ch ⟨src, ca, some v⟩) s =
        .next (s.setChan ch { c with
          writes := c.writes ++ [⟨b, v, c.cc, c.arrivals, none⟩], arrivals := c.arrivals + 1, lastReq := s.ft64 })) ∧
      (queued → exec (.morRequest ch ⟨src, ca, some v⟩) s =
        .next (s.setChan ch { c with
          writes := c.writes.map (fun e => if e.ca = b ∧ e.sent = none then { e with v := v } else e), lastReq := s.ft64 })) ∧
      (¬ queued → 48 ≤ c.writes.length → exec (.morRequest ch ⟨src, ca, some v⟩) s =
        .next ((s.setChan ch { c with waiting := c.waiting ++ [⟨src, ca, some v⟩], lastReq := s.ft64 }).bump (aChCnt ch 9)))) ∧
    (c.st = .active ∨ c.st = .replay →
      ((∃ e ∈ c.writes, e.ca = b) → exec (.morRequest ch ⟨.helper, ca, none⟩) s =
        .next ((s.setChan ch { c with lastReq := s.ft64 }).bump (aChCnt ch 8))) ∧
      (∀ n, (¬ ∃ e ∈ c.writes, e.ca = b) → c.reads.length < 64 → exec (.morRequest ch ⟨.stream n, ca, none⟩) s =
        .next (s.setChan ch { c with
          reads := c.reads ++ [⟨⟨.stream n, ca, none⟩, c.cc, c.arrivals, none, 0⟩], arrivals := c.arrivals + 1
          lastReq := s.ft64 }))) ∧
    (c.st = .selfRefresh → ∀ v, ¬ queued → c.writes.length < 48 → exec (.morRequest ch ⟨src, ca, some v⟩) s =
      .next ((s.setChan ch { c with
        writes := c.writes ++ [⟨b, v, c.cc, c.arrivals, none⟩], arrivals := c.arrivals + 1, lastReq := s.ft64 }).bumpIf
          c.srxAt.isNone (aChCnt ch 5))) ∧
    (c.st = .srEntry → s.isRetired uDram ch = false → s.clk.mpll.st ≠ .bypass → s.mor.recovering = false →
      ∀ v, ¬ queued → c.writes.length < 48 → exec (.morRequest ch ⟨src, ca, some v⟩) s =
      .next ((s.setChan ch { c with st := .active, srxAt := none, lastReq := s.ft64
                                    writes := c.writes ++ [⟨b, v, c.cc, c.arrivals, none⟩], arrivals := c.arrivals + 1 }).bump
        (aChCnt ch 4)))) ∧
  (∀ (s : State) (ch : Fin 4) (flips : BitVec 640), s.runs cMor = true →
    let c := s.chan ch
    (c.reads = [] → exec (.morReadReturn ch flips) s = .next s) ∧
    (∀ e, c.nextReturn = some e → e.due ≤ c.tck → s.chanRuns ch = false → exec (.morReadReturn ch flips) s =
      .next (((s.setChan ch { c with reads := c.reads.erase e }).bump (aChCnt ch 11)).morHostIssue 256)) ∧
    (∀ n ca at_ num v due, let e : MorRd := ⟨⟨.stream n, ca, none⟩, at_, num, some v, due⟩
      c.nextReturn = some e → due ≤ c.tck → s.chanRuns ch = true → c.waiting = [] →
      s.admitted (fun d => d.st == .admitted && d.kind == 2 && bitOf d.word 255 && decide (d.asked < d.fld 256 32)) = [] →
      ∃ t, exec (.morReadReturn ch flips) s = .next t ∧ (t.chan ch).reads = c.reads.erase e ∧ t.mor.mem = s.mor.mem ∧
        (∀ left, rsDecode flips = some (left, false) → (∀ a, a / 0x10000 = cMor → t.reg a = s.reg a) ∧ t.flt = s.flt) ∧
        (∀ left, rsDecode flips = some (left, true) →
          (∀ a, a / 0x10000 = cMor → t.reg a = ((s.bump (aChCnt ch 0)).raise (aChEv ch) (bit1 0)).reg a) ∧ t.flt.inbox = s.flt.inbox ++
            [⟨0x0A, uDram, ch.val, BitVec.ofNat 32 (s.morUnmap ch (ca.toNat / 64 * 64) / 64), false, s.ft64, s.flt.clock⟩]) ∧
        (rsDecode flips = none →
          (∀ a, a / 0x10000 = cMor → t.reg a = ((s.bump (aChCnt ch 1)).raise (aChEv ch) (bit1 1)).reg a) ∧ t.flt.inbox = s.flt.inbox ++
            [⟨0x0B, uDram, ch.val, BitVec.ofNat 32 (s.morUnmap ch (ca.toNat / 64 * 64) / 64), false, s.ft64, s.flt.clock⟩]))) ∧
  (∀ (s : State) (n : Fin 32) (src : BitVec 38) (len : Nat) (base regions : BitVec 15), s.runs cMor = true →
    let sound := src.toNat % 64 = 0 ∧ len % 64 = 0 ∧ 64 ≤ len ∧ src.toNat + len ≤ s.morCap ∧ 1 ≤ regions.toNat ∧
      regions.toNat ≤ 16384 ∧ base.toNat + regions.toNat ≤ 32768
    ((s.stream n).st = .open → exec (.streamOpen n src len base regions) s = .next s) ∧
    (¬ sound → exec (.streamOpen n src len base regions) s = .next s) ∧
    ((s.stream n).st ≠ .open → sound → (∀ k, k < 4 → (s.chan k).st ≠ .srEntry) →
      exec (.streamOpen n src len base regions) s = .next (s.setStream n
        { st := .open, src := src.toNat, length := len, base := base.toNat, regions := regions.toNat, issued := 0, out := [],
          ahead := [], fill := 0, consumed := 0 })) ∧
    exec (.streamClose n) s =
      .next (if (s.stream n).st = .idle then s else s.setStream n { s.stream n with st := .idle })) ∧
  (∀ (s : State) (n : Fin 32), s.runs cMor = true →
    let x := s.stream n
    let may := x.st = .open ∧ x.out.length < 32 ∧ x.issued < x.length ∧ x.issued - x.consumed < x.regions * 4096
    (¬ may → exec (.streamReadIssue n) s = .next s) ∧
    (∀ ch ca, may → s.morMap (x.src + x.issued) = some (ch, ca) → ca < 2 ^ 38 → s.mor.fenced = false →
      let c := s.chan ch
      c.st = .active → (∀ e ∈ c.writes, e.ca ≠ ca / 64 * 64) → (∀ r ∈ c.waiting, r.ca.toNat / 64 * 64 ≠ ca / 64 * 64) →
      c.reads.length < 64 →
      exec (.streamReadIssue n) s = .next ((s.setStream n { x with issued := x.issued + 64, out := x.out ++ [x.issued] }).setChan
        ch { c with reads := c.reads ++ [⟨⟨.stream n, BitVec.ofNat 38 ca, none⟩, c.cc, c.arrivals, none, 0⟩]
                    arrivals := c.arrivals + 1, lastReq := s.ft64 })))

/-- The rows of refresh, RFM, self-refresh and replay pass core cycles until what they name has come at a channel that runs. In the
controller's cycles: a refresh falls due to each rank of an active channel every tREFI of its mode; while a rank owes four, or its
activation counts have reached RAAMMT, no request of its subchannel is issued; a refresh that is issued pays one that is owed, and a
forced one counts. Self-refresh entry begins where it is permitted, nothing has come for SR_IDLE and nothing is pending or open; a pending
request aborts it and counts; with nothing open or owed SRE goes to both subchannels and counts; the exit begins where a request is pending.
A calibration step falls due once at a channel that runs; one that has waited STARVE us is skipped, counts and posts a SKIP record of its
channel and step. ALERT_n counts, sets REPLAYED, goes to the fault engine and puts the channel in REPLAY, whose end with nothing left to
issue returns the channel to the state it left. At a channel that is off or trains nothing changes. -/
def Obligations.MoraineRefreshAndReplay : Prop :=
  ∀ (s : State) (ch : Fin 4), s.runs cMor = true →
    let c := s.chan ch
    let busy (sub : Nat) : Prop := c.forced ch sub ≠ none
    (∀ sub rank : Bool, let k := 2 * b01 sub + b01 rank
      ∃ t, exec (.refreshDue ch sub rank) s = .next t ∧
        (c.dimm.ranks.contains (b01 rank) = true → Waits s ch morFuel (fun u =>
          Tab.get (fun _ => 0) (u.chan ch).refAt k ≠ Tab.get (fun _ => 0) c.refAt k) t) ∧
        (c.dimm.ranks.contains (b01 rank) = false → t = s)) ∧
    (∀ k, k < 4 → c.st = .active → c.sameBank = s.flag (aCh ch) 2 →
      let due := c.dimm.ranks.contains (k % 2) = true ∧ Tab.get (fun _ => 0) c.refAt k + c.refEvery ch ≤ c.cc
      let d := (s.refreshTick ch).chan ch
      (due → Tab.get (fun _ => 0) d.owed k = Tab.get (fun _ => 0) c.owed k + 1 ∧ Tab.get (fun _ => 0) d.refAt k = c.cc) ∧
      (¬ due → Tab.get (fun _ => 0) d.owed k = Tab.get (fun _ => 0) c.owed k ∧
        Tab.get (fun _ => 0) d.refAt k = Tab.get (fun _ => 0) c.refAt k)) ∧
    (∀ sub r, sub < 2 → c.dimm.ranks.contains r = true → 4 ≤ c.owedTo sub r ∨
        (Config.rfmRequired ch = true ∧ 0 < c.tim 0x18 ∧ c.tim 0x18 ≤ c.raaTop sub r) → busy sub) ∧
    (∀ sub, c.st = .active → busy sub → ((s.subCycle ch sub).chan ch).reads = c.reads ∧
      ((s.subCycle ch sub).chan ch).writes = c.writes ∧ (s.subCycle ch sub).mor.mem = s.mor.mem) ∧
    (∀ (sub rank : Nat) (forced : Bool), sub < 2 → rank < 2 → let t := s.issueMaint ch ⟨sub, rank, .refAb⟩ forced
      (t.chan ch).owedTo sub rank = c.owedTo sub rank - 1 ∧ t.out = s.out ++ [.dram ch ⟨sub, rank, .refAb⟩ none] ∧
        t.regs = (s.bumpIf forced (aChCnt ch 6)).regs) ∧
    (∀ bank : BitVec 7, ∃ t, exec (.rfm ch bank) s = .next t ∧ Waits s ch morFuel (fun u =>
      Config.rfmRequired ch = false ∨ Tab.get (fun _ => 0) (u.chan ch).raa bank.toNat < (u.chan ch).tim 0x17) t) ∧
    (∃ t, exec (.selfRefreshEntry ch) s = .next t ∧
      Waits s ch (s.cyclesIn (1024000 * s.fld (aCh ch + 0x10) 0 16)) (fun u =>
        (u.chan ch).st ≠ .active ∨ u.flag (aCh ch) 3 = false ∨ s.fld (aCh ch + 0x10) 0 16 = 0 ∨ (u.chan ch).pending = true ∨
          u.streamOpenAny = true ∨ u.mor.recovering = true) t) ∧
    (∀ idle, idle = s.fld (aCh ch + 0x10) 0 16 →
      (c.st = .active → s.flag (aCh ch) 3 = true → idle ≠ 0 → c.pending = false → s.streamOpenAny = false →
        s.mor.recovering = false → idle * 1024000 ≤ (s.ft64 - c.lastReq).toNat →
        s.srEnter ch = s.setChan ch { c with st := .srEntry }) ∧
      (s.flag (aCh ch) 3 = false ∨ idle = 0 ∨ c.pending = true ∨ s.streamOpenAny = true ∨
        (s.ft64 - c.lastReq).toNat < idle * 1024000 → s.srEnter ch = s)) ∧
    (∃ t, exec (.sre ch) s = .next t ∧ Waits s ch morFuel (fun u => (u.chan ch).st ≠ .srEntry) t) ∧
    (c.st = .srEntry → c.pending = true → s.sreIssue ch = (s.chanActive ch).bump (aChCnt ch 4)) ∧
    (c.st = .srEntry → c.pending = false → s.mor.recovering = false → c.entryCmds 0 = [] → c.entryCmds 1 = [] →
      c.bothReady .sre = true → let t := s.sreIssue ch
      (t.chan ch).st = .selfRefresh ∧ t.out = s.out ++ [.dram ch ⟨0, 0, .sre⟩ none, .dram ch ⟨1, 0, .sre⟩ none] ∧
        t.regs = (s.bump (aChCnt ch 3)).regs) ∧
    (∃ t, exec (.srx ch) s = .next t ∧
      Waits s ch morFuel (fun u => (u.chan ch).st ≠ .selfRefresh ∨ (u.chan ch).pending = false) t) ∧
    (c.st = .selfRefresh → c.srxAt = none → s.mor.recovering = false →
      (c.pending = false → s.srxIssue ch = s) ∧
      (c.pending = true → c.calEnd ≤ c.tck → c.bothReady .srx = true → let t := s.srxIssue ch
        (t.chan ch).srxAt = some c.cc ∧ (t.chan ch).owed = [] ∧
          t.out = s.out ++ [.dram ch ⟨0, 0, .srx⟩ none, .dram ch ⟨1, 0, .srx⟩ none] ∧ t.regs = s.regs)) ∧
    (∀ k : CalKind,
      (s.chanRuns ch = true → (∀ e ∈ c.calAt, e.1 ≠ k) → (∀ e ∈ c.calWait, e.1 ≠ k) → exec (.calibrationDue ch k) s =
        .next (s.setChan ch { c with calWait := c.calWait ++ [(k, s.ft64)], calAt := (k, s.ft64) :: c.calAt })) ∧
      (s.chanRuns ch = true → ∀ e ∈ c.calWait, e.1 = k → 1024000 * s.fld (aCh ch + 0x18) 0 8 ≤ s.since e.2 →
        ∃ t, exec (.calibrationSkip ch k) s = .next t ∧
        t.reg (aChCnt ch 7) = satInc (s.reg (aChCnt ch 7)) ∧ t.time = s.time ∧ t.seqs = s.seqs ∧
        (t.chan ch).calWait = c.calWait.filter (fun e => e.1 != k) ∧
        Tab.get (fun _ => 0) t.flt.skips 4 = satInc (Tab.get (fun _ => 0) s.flt.skips 4)) ∧
      (s.chanRuns ch = false → exec (.calibrationDue ch k) s = .next s ∧ exec (.calibrationSkip ch k) s = .next s)) ∧
    (c.st = .active ∨ c.st = .srEntry ∨ c.st = .selfRefresh ∨ c.st = .replay → ∃ t, exec (.alertN ch) s = .next t ∧
      (t.chan ch).st = .replay ∧ (t.chan ch).alerts = satInc c.alerts ∧ (t.chan ch).retry = c.retry ∧
      (c.st ≠ .replay → (t.chan ch).t0 = c.cc - s.fld (aCh ch + 0x14) 0 8 ∧
        (c.retry = [] → (t.chan ch).back = c.st)) ∧
      (c.st = .replay → (t.chan ch).t0 = c.t0) ∧ (t.chan ch).again = c.replaySeq (t.chan ch).t0 ∧
      t.regs = ((s.bump (aChCnt ch 2)).raise (aChEv ch) (bit1 2)).regs ∧
      t.flt.inbox = s.flt.inbox ++ [⟨0x0C, uDram, ch.val, satInc c.alerts, false, s.ft64, s.flt.clock⟩] ∧ t.mor.mem = s.mor.mem) ∧
    (c.st = .off ∨ c.st = .train ∨ c.st = .retired ∨ c.st = .recover → exec (.alertN ch) s = .next s) ∧
    (∃ t, exec (.replayEnd ch) s = .next t ∧ Waits s ch morFuel (fun u => (u.chan ch).st ≠ .replay) t) ∧
    (c.st = .replay → c.again = [] → s.replayDone ch =
      if c.back = .active then s.chanActive ch else s.setChan ch { c with st := c.back }) ∧
    (c.st = .replay → c.again ≠ [] → s.replayDone ch = s)

/-! Sequences, markers and the precision link (chapter 08). -/

/-- Where play stands at a boundary with a sound entry next: PLAY begins its occurrence at that sample, with its markers waiting
for theirs; LOOP pushes its count; ENDLOOP goes back or drops its level; JUMP goes on, to the next entry or to a slot, by its
flag, which it clears where it says so, with the loop stack kept or empty; WAIT goes on where its flag is set, which it
clears where it consumes it, and else waits for it; NCO makes its phase change and its FTW hold from that sample; END ends the burst.
An entry that is a table error ends the burst with the output safe and sets its events. -/
def Obligations.EntriesActAtTheirBoundary : Prop :=
  (∀ (s : State) (n : Fin 24) (x : LEntry), AtEntry s n 1 x → x.err = none →
    let e := s.sampleUp n (s.seq n).bnd
    ∃ t, exec (.playEntry n none) s = .next t ∧ t = { s with seqs := t.seqs, mkr := t.mkr } ∧ OnlySeq n s t ∧ (t.seq n).st = .run ∧
      (t.seq n).entry = x.index ∧ (t.seq n).look = (s.seq n).look.tail ∧ (t.seq n).stack = (s.seq n).stack ∧
      (t.seq n).markers = (s.seq n).markers ++
        x.markers.map (fun m => ⟨m, e + bits m 0 40 * s.spacing n, e + bits m 0 40 * s.spacing n⟩) ∧
      (t.seq n).play.map (fun p => (p.index, p.word, p.next, p.seen, p.repeats)) = some (x.index, x.word, e, 0, 0)) ∧
  (∀ (s : State) (n : Fin 24) (x : LEntry), AtEntry s n 2 x → x.err = none →
    exec (.loopEntry n) s = .next (s.modSeq n (fun q => { q.pass x with
      stack := ⟨BitVec.ofNat 32 (bits x.word 32 32), BitVec.ofNat 16 (x.index + 1), bits x.word 32 32 == 0⟩ :: q.stack }))) ∧
  (∀ (s : State) (n : Fin 24) (x : LEntry) (l : Lvl) (rest : List Lvl), AtEntry s n 3 x → x.err = none →
    (s.seq n).stack = l :: rest → exec (.endloopEntry n) s = .next (s.modSeq n (fun q => { q.pass x with
      stack := if l.inf then l :: rest else if 1 < l.count.toNat then { l with count := l.count - 1 } :: rest else rest }))) ∧
  (∀ (s : State) (n : Fin 24) (x : LEntry), AtEntry s n 4 x → x.err = none →
    let cond := bits x.word 8 2
    let f := bits x.word 16 3
    let flag := s.flag (aFlags n) f
    let taken := cond = 0 ∨ (cond = 1 ∧ flag = true) ∨ (cond ≠ 0 ∧ cond ≠ 1 ∧ flag = false)
    let u := if cond ≠ 0 ∧ bitOf x.word 10 = true then s.putReg (aFlags n) (putBits (s.reg (aFlags n)) f 1 0) else s
    (¬ taken → exec (.jumpEntry n) s = .next (u.modSeq n (fun q => q.pass x))) ∧
    (taken → bitOf x.word 11 = false → exec (.jumpEntry n) s =
      .next (u.modSeq n (fun q => { q.pass x with stack := if bitOf x.word 12 then q.stack else [] }))) ∧
    (taken → bitOf x.word 11 = true → ∃ t, exec (.jumpEntry n) s = .next t ∧ OnlySeq n s t ∧ (t.seq n).st = .run ∧
      (t.seq n).play = none ∧ (t.seq n).latch = none ∧ (t.seq n).bnd = t.sampleUp n (s.seq n).bnd ∧
      (t.seq n).stack = if bitOf x.word 12 then (s.seq n).stack else [])) ∧
  (∀ (s : State) (n : Fin 24) (x : LEntry), AtEntry s n 5 x → x.err = none →
    let f := bits x.word 16 3
    (s.flag (aFlags n) f = true → exec (.waitEntry n) s = .next
      ((if bitOf x.word 10 then s.putReg (aFlags n) (putBits (s.reg (aFlags n)) f 1 0) else s).modSeq n (fun q => q.pass x))) ∧
    (s.flag (aFlags n) f = false → exec (.waitEntry n) s = .next (s.modSeq n (fun q =>
      { q.pass x with st := .wait, waiting := some ⟨f, bitOf x.word 10, bitOf x.word 8⟩ })))) ∧
  (∀ (s : State) (n : Fin 24) (x : LEntry), AtEntry s n 6 x → x.err = none →
    exec (.ncoEntry n) s = .next (s.modSeq n (fun q => { q.pass x with
      ncoAt := s.sampleUp n q.bnd
      phase := phaseOp (bits x.word 8 2) (bits x.word 136 56) (q.phaseAt (s.spacing n) (s.sampleUp n q.bnd))
      ftw := if bitOf x.word 10 then q.ftw else BitVec.ofNat 64 (bits x.word 64 64)
      ncoOld := (q.ncoAt, q.phase, q.ftw) :: q.ncoOld }))) ∧
  (∀ (s : State) (n : Fin 24) (x : LEntry), AtEntry s n 7 x → x.err = none →
    ∃ t, exec (.endEntry n) s = .next t ∧ OnlySeq n s t ∧ (t.seq n).st = .idle ∧ (t.seq n).play = none ∧
      (t.seq n).look = [] ∧ (t.seq n).stack = [] ∧ (t.seq n).errHold = false ∧ bitOf (t.reg (aSeqEv n)) 0 = true) ∧
  (∀ (s : State) (n : Fin 24) (op : Fin 8) (x : LEntry) (d : BitVec 8), op ≠ 0 → AtEntry s n op x → x.err = some d →
    let c : Instr := match op with
      | 1 => .playEntry n none | 2 => .loopEntry n | 3 => .endloopEntry n | 4 => .jumpEntry n | 5 => .waitEntry n
      | 6 => .ncoEntry n | _ => .endEntry n
    ∃ t, exec c s = .next t ∧ OnlySeq n s t ∧ (t.seq n).st = .idle ∧ (t.seq n).errHold = true ∧
      t.reg (aSeqEv n) &&& 7 = 7)

/-- A playing occurrence whose samples have all come out ends at its edge: the next entry acts there; with a segment-end stop the
burst ends there, with a latched jump play goes on at its target. A burst ends at the end of its own. The row of an underrun
episode's end passes core cycles until it has ended: a missing sample opens it, or counts in it; a sample that is there ends it, and it
is counted; a stall beyond the limit of repeats ends the burst with the output safe. The lookahead takes the next entry, one in a core
cycle, while the burst runs, its path goes on and fewer than 32 are held, and nothing otherwise; an entry that cannot be read ends the
burst. A slot's register write begins its preload, which ends READY with the path to its first PLAY, or REJECTED where there is none or
that PLAY lies in Moraine. SEQ_CTRL is stored and becomes live at a later boundary. -/
def Obligations.PlaysEndAndTheTableIsReadAhead : Prop :=
  (∀ (s : State) (n : Fin 24) (e : Nat) (p : Play), s.playEndEdge n = some e → e / 16 ≤ s.now →
    let u := s.samplesTo n e
    let q := u.seq n
    q.st = .run → q.play = some p → p.more = false →
    (q.stopAtEnd = false → q.latch = none → exec (.playEnd n) s = .next (u.modSeq n (fun q => { q with
      play := none
      bnd := p.next
      played := q.played + BitVec.ofNat 64 (playLen p.word) }))) ∧
    (q.stopAtEnd = true → ∃ t, exec (.playEnd n) s = .next t ∧ OnlySeq n u t ∧ (t.seq n).st = .idle ∧
      (t.seq n).play = none ∧ (t.seq n).stopAtEnd = false) ∧
    (∀ tg keep, q.stopAtEnd = false → q.latch = some (tg, keep) → ∃ t, exec (.playEnd n) s = .next t ∧
      OnlySeq n u t ∧ (t.seq n).st = .run ∧ (t.seq n).play = none ∧ (t.seq n).latch = none ∧
      (t.seq n).bnd = t.sampleUp n p.next ∧ (t.seq n).stack = (if keep then q.stack else []) ∧
      (∀ i, tg = .entry i → q.pre = [] → (t.seq n).fetchNext = i.toNat))) ∧
  (∀ (s : State) (n : Fin 24) (f : FT80), (s.seq n).ownEnd = some f →
    s.sampleUp n (s.edgeOfFt f) / 16 ≤ s.now →
    ((s.seq n).st = .run ∨ (s.seq n).st = .wait → ∃ t, exec (.burstOwnEnd n) s = .next t ∧ OnlySeq n s t ∧
      (t.seq n).st = .idle ∧ (t.seq n).play = none ∧ (t.seq n).look = [] ∧ (t.seq n).ownEnd = none)) ∧
  (∀ (s : State) (n : Fin 24), ∃ t, exec (.underrunEpisodeEnd n) s = .next t ∧
    Passes s episodeFuel (fun u => (u.seq n).episode = none) t) ∧
  (∀ (s : State) (n : Nat) (p p' : Play) (v : BitVec 20) (c : Option Nat), (s.seq n).play = some p → (s.seq n).bursting = true →
    s.playStep n (s.seq n) p (s.seq n).last = (p', v, c) →
    let q := s.seq n
    let t := s.sampleStep n
    let stalls := p'.stalled.isSome = true ∧ (p.stalled = none ∨ p'.repeats ≠ p.repeats)
    (c = none → (t.seq n).episode = none ∧ (t.seq n).play = some p' ∧ (t.seq n).last = v ∧
      (∀ ep, q.episode = some ep → t.reg (wSeq n + 0x90) = satInc (s.reg (wSeq n + 0x90)) ∧
        (t.seq n).affected = q.affected + BitVec.ofNat 64 ep.count)) ∧
    (∀ k, c = some k → ¬ stalls → (t.seq n).play = some p' ∧ (t.seq n).last = v ∧ t.regs = s.regs ∧
      (q.episode = none → (t.seq n).episode = some ⟨p.index, BitVec.ofNat 8 k, BitVec.ofNat 2 q.policy, 1, s.ftOfEdge p.next⟩) ∧
      (∀ ep, q.episode = some ep → (t.seq n).episode = some { ep with count := ep.count + 1 })) ∧
    (∀ k, c = some k → stalls → q.repeatMax ≤ p'.repeats →
      (t.seq n).st = .idle ∧ (t.seq n).play = none ∧ (t.seq n).errHold = true)) ∧
  (∀ (s : State) (n : Fin 24), s.runs cFirn = true → (s.seq n).fetchAt ≠ some s.now → (s.seq n).pre = [] →
    let q := s.seq n
    (q.bursting = false ∨ q.fetchEnded = true ∨ 32 ≤ q.look.length → exec (.tableFetch n) s = .next s) ∧
    (∀ x u, q.bursting = true → q.fetchEnded = false → q.look.length < 32 → s.readEntry n q.fetchNext = (.ok x, u) →
      exec (.tableFetch n) s = .next (u.modSeq n (fun q => { q.take x with fetchAt := some u.now }))) ∧
    (∀ d u, q.bursting = true → q.fetchEnded = false → q.look.length < 32 → s.readEntry n q.fetchNext = (.error d, u) →
      ∃ t, exec (.tableFetch n) s = .next t ∧ OnlySeq n u t ∧ (t.seq n).st = .idle ∧ (t.seq n).errHold = true ∧
        t.reg (aSeqEv n) &&& 7 = 7)) ∧
  (∀ (s : State) (n : Fin 24) (k : Fin 8) (w : Wr) (r : RegRow), Written s w (aSeqSlot n k) r w.value →
    exec (.slotWrite n k w) s = .next ((wrote s w.rq (aSeqSlot n k) r w.value).modSeq n (fun q =>
      q.setSlot k ⟨true, false, false, []⟩))) ∧
  (∀ (s : State) (n : Fin 24) (k : Fin 8), s.runs cFirn = true →
    (((s.seq n).slotOf k).loading = false → exec (.slotPreloadDone n k) s = .next s) ∧
    (∀ l u, ((s.seq n).slotOf k).loading = true → s.slotEntries n (s.slotEntry n k) 4 = (l, u) →
      let reject := (u.modSeq n (fun q => q.setSlot k ⟨false, false, true, []⟩)).raise (aSeqEv n) (bit1 3)
      (slotPath l = none → exec (.slotPreloadDone n k) s = .next reject) ∧
      (∀ path p, slotPath l = some (path ++ [p]) → playMor p.word = true → exec (.slotPreloadDone n k) s = .next reject) ∧
      (∀ path p, slotPath l = some (path ++ [p]) → playMor p.word = false → (u.seq n).reads = false →
        exec (.slotPreloadDone n k) s = .next (u.modSeq n (fun q => q.setSlot k ⟨false, true, false, path ++ [p]⟩))) ∧
      (∀ path p d v, slotPath l = some (path ++ [p]) → (u.seq n).reads = true → playMor p.word = false →
        preWords n * 64 ≤ playLen p.word * sampleBytes n → u.slotData n (playAddr p.word / 64) (preWords n) = (d, v) →
        exec (.slotPreloadDone n k) s =
          .next (v.modSeq n (fun q => q.setSlot k ⟨false, true, false, path ++ [{ p with data := d }]⟩))))) ∧
  (∀ (s : State) (n : Fin 24) (w : Wr) (r : RegRow), Written s w (wSeq n) r w.value →
    exec (.seqCtrlWrite n w) s = .next (wrote s w.rq (wSeq n) r w.value))

/-- A waiting marker action of a sequencer acts at its sample: past four in one core cycle it moves to the next one, counts and
sets its event; else it leaves the list and, on a line in MARKER mode, the marker state is set, cleared,
toggled, or set until the end of its pulse; on a line in another mode it is ignored and counts. A pulse's end clears the state. A
write of a pattern register makes the preload begin; its end leaves the first eight words on chip. A pattern starts at its edge
with the pending registers, and wraps after its last bit. The precision link goes from CGS to ILAS at SYNC~, from ILAS to DATA
at its end, four multiframes later, and from DATA to CGS at a request under 8b/10b, which counts, sets its event and goes to the fault
engine. -/
def Obligations.MarkersPatternsAndTheLink : Prop :=
  (∀ (s : State) (n : Fin 24) (l : Fin 64) (i : Fin 16) (width : BitVec 16) (act : Fin 4) (m : MAct),
    let c : Instr := match act with
      | 0 => .markerSet n l i | 1 => .markerClear n l i | 2 => .markerToggle n l i | 3 => .markerPulse n l i width
    s.markerDue n act l i (if act = 3 then some width.toNat else none) = some m → m.edge / 16 ≤ s.now →
    let q := s.seq n
    let used := if q.mkrCycle = m.edge / 16 then q.mkrCount else 0
    let old := if (match (s.line l).pulseEnd with | some p => decide (p ≤ m.edge) | none => false) then false else (s.line l).marker
    (4 ≤ used → exec c s = .next (((s.setSeq n { q with
      markers := modFirst (fun x => x == m) (fun x => { x with edge := x.edge + 16 }) q.markers }).bump (wSeq n + 0x94)).raise
        (aSeqEv n) (bit1 4))) ∧
    (used < 4 → (∀ k, k < n.val → ∀ y ∈ (s.seq k).markers, ¬ (bits y.entry 40 6 = l.val ∧ y.edge = m.edge)) →
      ∃ t, exec c s = .next t ∧ t.seq n = { q with markers := q.markers.erase m, mkrCycle := m.edge / 16, mkrCount := used + 1 } ∧
        (∀ k, k ≠ n.val → t.seq k = s.seq k) ∧ t.time = s.time ∧
        (s.isRetired uLine l = true → t.regs = (s.bump aMkrTomb).regs ∧ t.mkr = s.mkr) ∧
        (s.isRetired uLine l = false → bits (s.line l).cfg 30 2 ≠ 1 → t.regs = (s.bump aMkrIgnored).regs ∧ t.mkr = s.mkr) ∧
        (s.isRetired uLine l = false → bits (s.line l).cfg 30 2 = 1 →
          t.regs = s.regs ∧ (∀ k, k ≠ l.val → t.line k = s.line k) ∧ t.line l = { s.line l with
            marker := match act with | 0 => true | 1 => false | 2 => !old | 3 => true
            pulseEnd := if act = 3 then some (m.edge + width.toNat) else none
            was := (t.line l).was }))) ∧
  (∀ (s : State) (l : Fin 64),
    ((s.line l).pulseEnd = none → exec (.pulseEnd l) s = .next s) ∧
    (∀ e, (s.line l).pulseEnd = some e → e / 16 ≤ s.now →
      exec (.pulseEnd l) s = .next (s.setLine l { s.line l with
        marker := false, pulseEnd := none, was := (s.line l).was ++ [(e, (s.line l).marker)] }))) ∧
  (∀ (s : State) (l : Fin 64) (g : PatReg) (w : Wr) (r : RegRow), Written s w (aPat l g) r w.value → (s.line l).preFeed ≠ .live →
    let u := wrote s w.rq (aPat l g) r w.value
    exec (.patternRegisterWrite l g w) s = .next (u.setLine l { s.line l with
      ready := false, preFeed := if (u.patPending l).mor then .wait else .none })) ∧
  (∀ (s : State) (l : Fin 64), s.runs 0x06 = true →
    ((s.line l).ready = true → exec (.patternPreloadDone l) s = .next s) ∧
    (∀ a, a = (s.patPending l).addr.toNat → (s.line l).ready = false → (s.patPending l).mor = false → a + 8 ≤ 2 ^ 21 →
      (∀ i, i < 8 → s.firnGone (a + i) = false ∧ s.firnPoison (a + i) = false ∧ s.takeFlag (linePort l) (a + i) = none) →
      let chip : List Held := (List.range 8).map (fun i => (s.firnWord (a + i), 0))
      ∃ t, exec (.patternPreloadDone l) s = .next t ∧ t.firn.mem = s.firn.mem ∧ t.firn.poison = s.firn.poison ∧
        t = { s.setLine l { s.line l with
          chip := chip, ready := true, starved := false, useChip := if (s.line l).starved then chip else (s.line l).useChip
          preFeed := .none } with firn := t.firn })) ∧
  (∀ (s : State) (l : Fin 64) (e : Nat) (i : Fin 16), (s.line l).due = some e → e % 16 = i.val → e / 16 ≤ s.now →
    (s.isRetired uLine l = false → (s.line l).playing = false → (s.line l).feed = .none → (s.patPending l).mor = false →
      ∃ tail, exec (.patternStart l i) s = .next (s.setLine l { s.line l with
        due := none
        use := s.patPending l
        useChip := (s.line l).chip
        starved := !(s.line l).ready
        beyond := false
        playing := true
        start := e
        seen := e
        tail := tail
        wraps := 0
        held := false
        words := []
        wordAt := 8 })) ∧
    (s.isRetired uLine l = true →
      exec (.patternStart l i) s = .next ((s.setLine l { s.line l with due := none }).bump aMkrTomb))) ∧
  (∀ (s : State) (l : Fin 64), let x := s.line l
    let e := x.start + x.use.len.toNat * x.use.bitdiv
    (x.playing = false → exec (.patternWrap l) s = .next s) ∧
    (x.playing = true → e / 16 ≤ s.now → ∃ t, exec (.patternWrap l) s = .next t ∧ (t.line l).start = e ∧
      (t.line l).wraps = x.wraps + 1 ∧ (t.line l).playing = true ∧ (t.line l).use = x.use ∧ (t.line l).words = [] ∧
      (t.line l).feed = (if x.feed = .none then .none else .wait) ∧ (∀ k, k ≠ l.val → t.line k = s.line k) ∧
      t.seqs = s.seqs ∧ t.time = s.time ∧ t.firn = s.firn)) ∧
  (∀ s : State, s.runs 0x10 = true → let l := s.txl 8
    exec .jesdSyncHigh s = .next (if l.st = .cgs then s.setTxl 8 { l with st := .ilas, ilasAt := s.now } else s) ∧
    (l.st ≠ .ilas → exec .ilasEnd s = .next s) ∧
    (l.st = .ilas → l.ilasAt + 4 * s.lemcPeriod 8 ≤ s.now → exec .ilasEnd s = .next (s.setTxl 8 { l with st := .data })) ∧
    (l.st ≠ .data ∨ s.flag (aLinkCfg 8) 24 = false → exec .jesdReinitRequest s = .next s) ∧
    (l.st = .data → s.flag (aLinkCfg 8) 24 = true → ∃ t, exec .jesdReinitRequest s = .next t ∧ (t.txl 8).st = .cgs ∧
      (t.reg (aLinkStat 8)).toNat / 65536 = min 0xFFFF ((s.reg (aLinkStat 8)).toNat / 65536 + 1) ∧
      bitOf (t.reg (aLinkStat 8)) 8 = true ∧ (∀ k, k ≠ 8 → t.txl k = s.txl k) ∧
      t.flt.inbox = s.flt.inbox ++ [⟨0x0D, uPlink, 0, 0, false, s.ft64, s.flt.clock⟩]))

/-! Pairs and angle tracking (chapter 09). -/

/-- The rows of a pair's dead time and least pulse pass core cycles while the side still waits, or lingers on; in a pair that is off
they change nothing. At one sample of an enabled pair's drive d: in DROP the side that d leaves turns off at once, and a run that
ends before its side has turned on counts as dropped; the side that d wants turns on at the first sample that has the other side off for
DEAD, once the run from it is MIN_PULSE long. In STRETCH the side that d leaves turns off once it has been on for MIN_PULSE, and the side
that d wants turns on as soon as the other one has been off for DEAD. A side that is on while d wants it stays as it is. -/
def Obligations.PairSidesTurnOnAndOff : Prop :=
  (∀ (s : State) (k : Fin 32) (high pending : Bool),
    (s.flag (aPair k) 31 = false → exec (.deadTimeEnd k high pending) s = .next s ∧ exec (.minPulseEnd k high) s = .next s) ∧
    (s.flag (aPair k) 31 = true →
      (∃ t, exec (.deadTimeEnd k high pending) s = .next t ∧
        Passes s.coreCycle 72 (fun u => u.pairWaits k high pending = false) t) ∧
      (∃ t, exec (.minPulseEnd k high) s = .next t ∧ Passes s.coreCycle 72 (fun u => u.pairLingers k high = false) t))) ∧
  (∀ (s : State) (k : Nat) (d : Bool) (n : Int),
    let side (p : Pair) (b : Bool) : Side := if b then p.h else p.l
    let t := s.pairSample k d n
    let x := side (s.pair k) d
    let y := side (s.pair k) (!d)
    let x' := side (t.pair k) d
    let y' := side (t.pair k) (!d)
    let dead : Int := s.fld (aPair k) 16 10
    let least : Int := s.fld (aPair k) 0 6
    let free := y'.on = false ∧ y'.off ≤ n - dead
    (t.pair k).d = d ∧ (x.on = true → x' = x) ∧ (∀ j, j ≠ k → t.pair j = s.pair j) ∧
    (s.flag (aPair k) 30 = false →
      y'.on = false ∧ y'.off = (if y.on then n else y.off) ∧
      (x.on = false → ∀ m, x.cand = some m → (m + least ≤ n + 1 → x'.on = true ∧ x'.onAt = m) ∧
        (n + 1 < m + least → x'.on = false ∧ x'.cand = some m)) ∧
      (x.on = false → x.cand = none → free → (least ≤ 1 → x'.on = true ∧ x'.onAt = n) ∧
        (1 < least → x'.on = false ∧ x'.cand = some n)) ∧
      (x.on = false → x.cand = none → ¬ free → x'.on = false ∧ x'.cand = none) ∧
      ((s.pair k).d ≠ d → y.on = false → bits (t.reg (aPairCnt k)) 0 16 = min 0xFFFF (bits (s.reg (aPairCnt k)) 0 16 + 1)) ∧
      ((s.pair k).d = d ∨ y.on = true → t.regs = s.regs)) ∧
    (s.flag (aPair k) 30 = true →
      (y.on = true → n < y.onAt + least → y'.on = true ∧ y'.onAt = y.onAt) ∧
      (y.on = true → y.pend = false → y.onAt + least ≤ n → y'.on = false ∧ y'.off = n) ∧
      (x.on = false → free → x'.on = true ∧ x'.onAt = n) ∧ (x.on = false → ¬ free → x'.on = false)))

/-- A tracker without angle events to act. In SEEK its first edge is kept; an edge too early is noise; three intervals whose second is
the gap synchronise it at position 1, P being the last interval, with the SYNC event. In SYNC an edge too early counts as an extra
tooth; one in its window moves to the next position, by the span of the gap where it is there, a full turn counting a
revolution; an edge past the window changes nothing. A missing tooth places a virtual one and counts; a second one in a row
loses sync with cause 1; an interval that overflows loses it with cause 4, or starts SEEK anew. The free run ends after a turn. An
armed event whose angle is reached in SYNC fires: it disarms, and ONCE disables it; in free run it is withheld: it counts, sets its
event and disarms. It is armed again at its re-arming angle. -/
def Obligations.TrackersFollowTheTeeth : Prop :=
  (∀ (s : State) (t : Fin 2) (since : BitVec 32), NoEvents s t →
    let x := s.trk t
    let m := s.fld (aTrk t) 16 3
    let i := since.toNat
    let e := x.treal + i
    let span := if x.position + m + 1 = s.fld (aTrk t) 0 13 then m + 1 else 1
    (x.st = .off → exec (.toothEdge t since) s = .next s) ∧
    (x.st = .seek → x.seen = false → exec (.toothEdge t since) s =
      .next (s.setTrk t { x with seen := true, treal := 16 * s.now, hist := [] })) ∧
    (∀ last rest, x.st = .seek → x.seen = true → e / 16 ≤ s.now → x.hist = last :: rest → i * (2 * (m + 1)) < last →
      exec (.toothEdge t since) s = .next s) ∧
    (x.st = .seek → x.seen = true → e / 16 ≤ s.now → x.hist = [] → exec (.toothEdge t since) s =
      .next (s.setTrk t { x with treal := e, hist := [i] })) ∧
    (∀ b a more, x.st = .seek → x.seen = true → e / 16 ≤ s.now → x.hist = b :: a :: more →
      b ≤ i * (2 * (m + 1)) → (2 * m + 1) * a ≤ 2 * b → 2 * b ≤ (2 * m + 3) * a →
      2 * (m + 1) * i ≤ 3 * b → ∃ u, exec (.toothEdge t since) s = .next u ∧
        u.trk t = { x with
          st := .sync
          position := 1
          p := i
          tref := e
          treal := e
          spanned := 0
          missed := false
          tprev := e
          thetaRef := 65536
          runs := true
          hist := [] } ∧
        bitOf (u.reg (aTrkEv t)) 2 = true) ∧
    (x.st = .sync → e / 16 ≤ s.now → 2 * (e - x.tref) < span * x.p → exec (.toothEdge t since) s =
      .next ((s.bump (aTrk t + 0x10)).raise (aTrkEv t) (bit1 0))) ∧
    (x.st = .sync → e / 16 ≤ s.now → span * x.p ≤ 2 * (e - x.tref) → 3 * (span * x.p) < 2 * (e - x.tref) →
      exec (.toothEdge t since) s = .next s) ∧
    (x.st = .sync → e / 16 ≤ s.now → span * x.p ≤ 2 * (e - x.tref) → 2 * (e - x.tref) ≤ 3 * (span * x.p) →
      (span = 1 ∨ (2 * m + 1) * x.p ≤ 2 * (e - x.tprev)) → 3200 * (x.spanned + span) ≤ e - x.treal →
      let n := if s.fld (aTrk t) 0 13 ≤ x.position + span then 0 else x.position + span
      exec (.toothEdge t since) s = .next (s.setTrk t { x with
        position := n
        tref := e
        thetaRef := n * 65536
        rev := if n = 0 then x.rev + 1 else x.rev
        tprev := if n + m + 1 = s.fld (aTrk t) 0 13 then e else x.tprev
        treal := e
        p := (e - x.treal) / (x.spanned + span)
        spanned := 0
        missed := false })) ∧
    (x.st = .sync → (x.tref + 3 * (span * x.p) / 2 + 1) / 16 ≤ s.now → ∃ u, exec (.toothMiss t) s = .next u ∧
      u.reg (aTrk t + 0x14) = satInc (s.reg (aTrk t + 0x14)) ∧ bitOf (u.reg (aTrkEv t)) 1 = true ∧
      (x.missed = false → (u.trk t).st = .sync ∧ (u.trk t).tref = x.tref + span * x.p ∧ (u.trk t).missed = true ∧
        (u.trk t).treal = x.treal ∧ (u.trk t).p = x.p) ∧
      (x.missed = true → (u.trk t).st = .seek ∧ (u.trk t).lastLoss = 1 ∧ bitOf (u.reg (aTrkEv t)) 3 = true)) ∧
    ((x.treal + 4294967295) / 16 ≤ s.now →
      (x.st = .seek → x.seen = true → exec (.intervalOverflow t) s =
        .next (s.setTrk t { x with seen := false, hist := [] })) ∧
      (x.st = .sync → ∃ u, exec (.intervalOverflow t) s = .next u ∧ (u.trk t).st = .seek ∧ (u.trk t).lastLoss = 4 ∧
        (u.trk t).seen = false ∧ bitOf (u.reg (aTrkEv t)) 3 = true)) ∧
    (x.st ≠ .sync → x.runs = true → (x.tref + s.fld (aTrk t) 0 13 * x.p) / 16 ≤ s.now →
      exec (.freeRunEnd t) s = .next (s.setTrk t { x with runs := false }))) ∧
  (∀ (s : State) (k : Fin 32) (i : Fin 16) (e : Nat), let t := s.evTrk k
    (s.angReachEdge k = some e → e % 16 = i.val → e / 16 ≤ s.now →
      ∃ u, exec (.angleEventFire k i) s = .next u ∧ u.evArmed k = false ∧ (∀ j, j ≠ k.val → u.evArmed j = s.evArmed j) ∧
        u.ang.trk = s.ang.trk ∧
        ((s.trk t).st = .sync → u.reg (aAngEv k) = s.reg (aAngEv k) &&& (if s.flag (aAngEv k) 29 then 0x7FFFFFFF else 0xFFFFFFFF) ∧
          u.reg (aTrk t + 0x18) = s.reg (aTrk t + 0x18)) ∧
        ((s.trk t).st ≠ .sync → u.mkr = s.mkr ∧ u.reg (aTrk t + 0x18) = satInc (s.reg (aTrk t + 0x18)) ∧
          bitOf (u.reg (aTrkEv t)) 4 = true)) ∧
    (s.angReachEdge k = none → exec (.angleEventFire k i) s = .next s) ∧
    (s.angRearmEdge k = some e → e / 16 ≤ s.now → exec (.angleEventRearm k) s = .next { s with ang := { s.ang with
      armed := Tab.set (fun _ => true) s.ang.armed k true
      since := Tab.set (fun _ => 0) s.ang.since k e } }) ∧
    (s.angRearmEdge k = none → exec (.angleEventRearm k) s = .next s))

/-! The trigger-logic array and Serac (chapter 10), the control engine and supervision (chapters 11 and 12). -/

/-- An accepted write of TLA_SH_HI stores the shadow word that the address names, free of errors, moves the address on and makes the
bank unchecked; a check that runs is aborted and says so. GO of TLA_CHECK starts the check, where none runs; its end shows the first error, its cell
and the depth, makes a bank without errors checked and its signature the reference, and sets DONE; without a check nothing
changes. GO of TLA_SWAP makes the swap wait for the next core-cycle boundary, where the banks exchange, the reference is the
signature of the bank that becomes active, and Serac begins anew. TLA_CTRL is stored. -/
def Obligations.ShadowBankIsCheckedAndSwapped : Prop :=
  (∀ (s : State) (w : Wr) (r : RegRow), Written s w (wTla + 0x28) r w.value → s.reg (wTla + 0x28) = 0 →
    let u := wrote s w.rq (wTla + 0x28) r w.value
    let a := s.fld (wTla + 0x20) 0 12
    let word : BitVec 64 := w.value ++ s.reg (wTla + 0x24)
    let put (x : State) : State := (x.modTla (fun t => { t.setSh { t.sh with
        words := Tab.set (fun _ => 0) t.sh.words a word
        errs := Tab.set (fun _ => 0) t.sh.errs a 0
        checked := false } with
      stores := t.stores + 1 })).putReg (wTla + 0x20) (BitVec.ofNat 32 ((a + 1) % 4096))
    (s.tla.checkBusy = false → exec (.tlaShadowStore w) s = .next (put u)) ∧
    (s.tla.checkBusy = true → exec (.tlaShadowStore w) s =
      .next (put ((u.modTla (fun t => { t with checkBusy := false })).raise aTlaEv (bit1 2))))) ∧
  (∀ (s : State) (rq : Requester) (r : RegRow), Written s ⟨rq, 0xF, 1⟩ (wTla + 0x08) r 1 →
    (s.tla.checkBusy = false → exec (.tlaCheck rq 0xF) s =
      .next ((wrote s rq (wTla + 0x08) r 1).modTla (fun t => { t with checkBusy := true, checkAt := t.clock }))) ∧
    (s.tla.checkBusy = true → exec (.tlaCheck rq 0xF) s = .next (wrote s rq (wTla + 0x08) r 1))) ∧
  (∀ s : State, s.runs cSerac = true →
    (s.tla.checkBusy = false → exec .checkDone s = .next s) ∧
    (s.tla.checkBusy = true → ∃ t, exec .checkDone s = .next t ∧ t.regs = (s.raise (wTla + 0x3C) (bit1 0)).regs ∧
      t.tla.checkBusy = false ∧ t.tla.act = s.tla.act ∧ t.tla.sh.words = s.tla.sh.words ∧
      t.tla.resErr = BitVec.ofNat 4 s.tla.sh.check.1 ∧ t.tla.resCell = BitVec.ofNat 10 s.tla.sh.check.2.1 ∧
      t.tla.resDepth = BitVec.ofNat 8 (min 255 s.tla.sh.check.2.2) ∧
      t.tla.sh.checked = decide (s.tla.sh.check.1 = 0) ∧
      (s.tla.sh.check.1 = 0 → t.tla.sh.sig = s.tla.sh.signature ∧ t.tla.sigRef = s.tla.sh.signature) ∧
      t = { s.raise (wTla + 0x3C) (bit1 0) with tla := t.tla })) ∧
  (∀ (s : State) (rq : Requester) (r : RegRow), Written s ⟨rq, 0xF, 1⟩ (wTla + 0x04) r 1 →
    exec (.tlaSwap rq 0xF) s = .next ((wrote s rq (wTla + 0x04) r 1).modTla (fun t => { t with swapPending := true }))) ∧
  (∀ s : State, s.tlaSwap.tla.act = s.tla.sh ∧ s.tlaSwap.tla.sh = s.tla.act ∧ s.tlaSwap.tla.sigRef = s.tla.sh.sig ∧
    s.tlaSwap.tla.swapPending = false ∧ s.tlaSwap.tla.pos = 0 ∧ s.tlaSwap.hk.swapped = true ∧
    s.tlaSwap.regs = (s.raise aTlaEv (bit1 0)).regs) ∧
  (∀ (s : State) (w : Wr) (r : RegRow), Written s w wTla r w.value →
    exec (.tlaEnWrite w) s = .next (wrote s w.rq wTla r w.value))

/-- A CD_SERAC cycle in which Serac runs: it takes the next of the four cycles of its word. In the fourth one the word is finished:
without a wrong bit nothing else changes; with one the word is mended, counted and told; with two or more the word stays wrong and
counts, and is told as permanent in the active bank, while the shadow bank is unchecked by it. The end of the active half takes the
signature of the active bank, the end of the shadow half counts a pass. A cycle that wants the memory port while shadow writes hold
it waits; after STARVE of them the word is skipped: it counts, sets its event and posts a SKIP record. Serac switched off takes no
word. The rows of Serac pass core cycles until what they name has come, or Serac stops. Where a copy is outvoted for the first time
in its cycle it counts and is told; a bit outvoted in a fourth cycle running is told as permanent. The check by the firmware after
the first swap tells a wrong signature and a pass count that stands; else it changes nothing but the pass count it remembers. -/
def Obligations.SeracScrubsTheArray : Prop :=
  (∀ s : State, s.tla.checkBusy = false → s.tla.pos < 4352 →
    let p := s.tla.pos
    let t := s.seracTick
    let wrong := s.tla.seracBank.err (p % 2176)
    let next := (p + 1 = 2176 → t.tla.pos = 2176 ∧ t.tla.sigLast = t.tla.act.signature ∧ t.tla.sigValid = true) ∧
      (p + 1 = 4352 → t.tla.pos = 0 ∧ t.tla.passes = s.tla.passes + 1) ∧
      (p + 1 ≠ 2176 → t.tla.sigLast = s.tla.sigLast ∧ t.tla.sigValid = s.tla.sigValid) ∧
      (p + 1 ≠ 4352 → t.tla.pos = p + 1 ∧ t.tla.passes = s.tla.passes) ∧ t.tla.phase = 0 ∧ t.tla.waited = 0
    let told (d : List Det) : Prop := t.flt.inbox = s.flt.inbox ++ d
    let i := BitVec.ofNat 32 (p % 2176)
    t.tla.clock = s.tla.clock + 1 ∧ t.tla.stores = s.tla.stores - 1 ∧ t.tla.act.words = s.tla.act.words ∧
    t.tla.sh.words = s.tla.sh.words ∧ t.seqs = s.seqs ∧ t.time = s.time ∧
    (s.seracRuns = false → t.tla.pos = p ∧ t.tla.phase = s.tla.phase ∧ t.regs = s.regs) ∧
    (s.seracRuns = true → 0 < s.tla.stores → s.tla.seracWants = true →
      (s.tla.waited + 1 < s.fld (wTla + 0x70) 0 16 → t.tla.pos = p ∧ t.tla.phase = s.tla.phase ∧ t.tla.waited = s.tla.waited + 1 ∧
        t.regs = s.regs) ∧
      (s.fld (wTla + 0x70) 0 16 ≤ s.tla.waited + 1 → next ∧ t.reg (wTla + 0x5C) = satInc (s.reg (wTla + 0x5C)) ∧
        bitOf (t.reg aTlaEv) 7 = true ∧ Tab.get (fun _ => 0) t.flt.skips 3 = satInc (Tab.get (fun _ => 0) s.flt.skips 3))) ∧
    (s.seracRuns = true → (s.tla.stores = 0 ∨ s.tla.seracWants = false) →
      (s.tla.phase < 3 → t.tla.pos = p ∧ t.tla.phase = s.tla.phase + 1 ∧ t.regs = s.regs ∧ t.flt = s.flt) ∧
      (3 ≤ s.tla.phase → next ∧
        (popcount wrong = 0 → t.regs = s.regs ∧ t.flt = s.flt ∧ t.tla.act = s.tla.act ∧ t.tla.sh = s.tla.sh) ∧
        (popcount wrong = 1 → t.regs = ((s.bump (wTla + 0x50)).raise aTlaEv (bit1 3)).regs ∧
          told [⟨0x0F, uTla, 0, i, false, s.ft64, s.flt.clock⟩] ∧
          (p < 2176 → t.tla.act.err p = 0 ∧ t.tla.sh = s.tla.sh) ∧
          (2176 ≤ p → t.tla.sh.err (p - 2176) = 0 ∧ t.tla.act = s.tla.act)) ∧
        (2 ≤ popcount wrong → p < 2176 → t.regs = (s.bump (wTla + 0x54)).regs ∧ t.tla.act.err p = wrong ∧ t.tla.sh = s.tla.sh ∧
          told [⟨0x10, uTla, 0, i, true, s.ft64, s.flt.clock⟩]) ∧
        (2 ≤ popcount wrong → 2176 ≤ p → t.regs = ((s.bump (wTla + 0x54)).raise aTlaEv (bit1 6)).regs ∧
          t.tla.sh.err (p - 2176) = wrong ∧ t.tla.sh.checked = false ∧ t.tla.act = s.tla.act ∧
          told [⟨0x11, 0, 0, i, false, s.ft64, s.flt.clock⟩])))) ∧
  (∀ (s : State) (flips : BitVec 72), s.runs cSerac = true →
    let off (u : State) : Prop := u.seracRuns = false ∨ u.runs cSerac = false
    let p := s.tla.pos
    (∃ t, exec (.seracWordScrub flips) s = .next t ∧
      Passes (s.seracFlip flips) seracFuel (fun u => u.tla.pos ≠ p ∨ off u) t) ∧
    (∃ t, exec .seracPassEnd s = .next t ∧ Passes s seracFuel (fun u => ¬ (u.tla.pos < 2176 ↔ p < 2176) ∨ off u) t) ∧
    (∃ t, exec .seracSkip s = .next t ∧ Passes s seracFuel (fun u => u.tla.pos ≠ p ∨ u.tla.stores = 0 ∨ off u) t) ∧
    (s.seracFlip flips).tla.seracBank.err (p % 2176) = s.tla.seracBank.err (p % 2176) ^^^ flips) ∧
  (∀ (s : State) (copy : Fin 3) (bit : Fin 64), s.runs cSerac = true →
    let get (k : Nat) : Nat × Nat := Tab.get (fun _ => (0, 0)) s.tla.votes k
    let c := s.tla.clock
    let mine := get (64 * copy.val + bit.val)
    (s.tlaRetired = false → mine.2 = 0 ∨ mine.1 ≠ c →
      ∃ t, exec (.seracVote copy bit) s = .next t ∧ t.tla = { s.tla with votes := t.tla.votes } ∧
        (get (192 + copy.val) ≠ (c, 1) → t.regs = ((s.bump (wTla + 0x58)).raise aTlaEv (bit1 4)).regs) ∧
        (get (192 + copy.val) = (c, 1) → t.regs = s.regs) ∧
        (∀ n, mine = (c - 1, n) → 0 < n → 0 < c →
          Tab.get (fun _ => (0, 0)) t.tla.votes (64 * copy.val + bit.val) = (c, n + 1) ∧
          t.flt.inbox = s.flt.inbox ++
            (if get (192 + copy.val) = (c, 1) then [] else [⟨0x13, 0, 0, 0, false, s.ft64, s.flt.clock⟩]) ++
            (if n = 3 then [⟨0x14, uTla, 0, 0, true, s.ft64, s.flt.clock⟩] else []))) ∧
    (mine.2 ≠ 0 → mine.1 = c → ∃ u, Passes s seracFuel (fun u => u.tla.clock ≠ c ∨ u.seracRuns = false ∨ u.runs cSerac = false) u ∧
      exec (.seracVote copy bit) s = .next (u.seracVote copy bit))) ∧
  (∀ s : State, s.runs cSerac = true →
    (s.tlaRetired = true ∨ s.hk.fw = false ∨ s.hk.swapped = false → exec .seracCheck s = .next s) ∧
    (s.tlaRetired = false → s.hk.fw = true → s.hk.swapped = true →
      let t := s.modTla (fun t => { t with lastPasses := some t.passes })
      let bad := (s.tla.sigValid = true ∧ s.tla.sigLast ≠ s.tla.sigRef) ∨ s.tla.lastPasses = some s.tla.passes
      (bad → exec .seracCheck s = .next ((t.raise aTlaEv (bit1 5)).detect 0x12 uTla 0 0)) ∧
      (¬ bad → exec .seracCheck s = .next t)))

/-- An accepted write of CM_DATA makes its entry that value, free of errors, outside the law phase, and holds it in it; the entry number
moves on. The sweep reads outside the law phase, on to the entry that is named, with nothing wrong in any other entry: an entry
without a wrong bit stays as it is, one wrong bit is mended, counted and told, two or more count, are told and stop the slot; each
time it passes the last entry a sweep ends. While the HPLL's domains run from the XO nothing is read. A feedback link in ALIGN with
its LEMC started goes to DATA when it is aligned. In DATA a multiblock waits in the receive buffer for the first LEMC boundary from
now on; its release gives each converter its latest sample, which is fresh; a bad one counts and changes no sample; loss of lock
takes the link to ALIGN, empties its buffer, sets its event and is told. In any other state they change nothing. -/
def Obligations.CoefficientsAndFeedbackLinks : Prop :=
  (∀ (s : State) (n : Fin 32) (w : Wr) (r : RegRow), let a := aSlot n + 0x24
    Written s w a r w.value → s.reg a = 0 →
    let u := wrote s w.rq a r w.value
    let sel := s.reg (aSlot n + 0x20)
    let key := coefKey n (bits sel 8 3) (bits sel 0 8)
    let e : BitVec 37 := BitVec.ofNat 5 (bits sel 24 5) ++ w.value
    let on (x : State) : State := x.putReg (aSlot n + 0x20) (putBits sel 0 8 (bits sel 0 8 + 1))
    (s.inLaw = false → exec (.coefficientWrite n w) s = .next (on { u with cle := { u.cle with
      coef := Tab.set (fun _ => 0) s.cle.coef key e
      coefErr := Tab.set (fun _ => 0) s.cle.coefErr key 0 } })) ∧
    (s.inLaw = true → exec (.coefficientWrite n w) s =
      .next (on { u with cle := { u.cle with held := s.cle.held ++ [(key, e)] } }))) ∧
  (∀ (s : State) (n : Fin 32) (set : Fin 8) (entry : Fin 224) (flips : BitVec 44), s.runs cCle = true →
    let key := coefKey n set entry
    let wrong := s.coefErrAt key ^^^ flips
    let last := n.val = 31 ∧ set.val = 7 ∧ entry.val = 223
    (s.inLaw = true → exec (.coefficientSweep n set entry flips) s =
      .next (((s.coefFlip key flips).advance (s.time.c2 - s.time.cycle)).coefSweep key)) ∧
    (s.inLaw = false → s.clk.hpllXo = true → exec (.coefficientSweep n set entry flips) s = .next (s.coefFlip key flips)) ∧
    (s.inLaw = false → s.clk.hpllXo = false → (s.cle.coefErr = [] ∨ ∃ e, s.cle.coefErr = [(key, e)]) →
      ∃ t, exec (.coefficientSweep n set entry flips) s = .next t ∧ t.cle.coef = s.cle.coef ∧ t.time = s.time ∧
        t.cle.sweepAt = (if last then 0 else key + 1) ∧
        (let past := if s.cle.sweepAt ≤ key then s.cle.sweeps else satInc s.cle.sweeps
         t.cle.sweeps = if last then satInc past else past) ∧
        (∀ k, k ≠ key → t.coefErrAt k = s.coefErrAt k) ∧ (∀ m, m ≠ n.val → t.slot m = s.slot m) ∧
        (popcount wrong = 0 → t.coefErrAt key = 0 ∧ t.slot n = s.slot n ∧ t.regs = s.regs ∧ t.flt = s.flt) ∧
        (popcount wrong = 1 → t.coefErrAt key = 0 ∧ t.slot n = s.slot n ∧
          t.regs = ((s.bump (wCle + 0x30)).raise (aSlotEv n) (bit1 3)).regs ∧
          t.flt.inbox = s.flt.inbox ++ [⟨0x15, uSlot, n, 0, false, s.ft64, s.flt.clock⟩]) ∧
        (2 ≤ popcount wrong → t.coefErrAt key = wrong ∧ t.slot n = { s.slot n with stopped := true } ∧
          t.regs = ((s.bump (wCle + 0x34)).raise (aSlotEv n) (bit1 4)).regs ∧
          t.flt.inbox = s.flt.inbox ++ [⟨0x16, uSlot, n, 0, false, s.ft64, s.flt.clock⟩]))) ∧
  (∀ (s : State) (x : Fin 2), s.runs cCle = true → s.hk.bring = none →
    exec (.qlinkAligned x) s = .next (if s.rx x = .align ∧ (s.lemcOf x).isSome = true then s.setRx x .data else s) ∧
    (∀ ok samples, s.rx x ≠ .data → exec (.qlinkMultiblock x ok samples) s = .next s ∧ exec (.qlinkLockLost x) s = .next s) ∧
    (s.rx x = .data →
      exec (.qlinkLockLost x) s = .next ((((s.setRx x .align).rxDrop x).raise (aQstat x) (bit1 8)).detect 0x0E uQlink x 0) ∧
      (∀ b ∈ (s.rxDrop x).cle.blocks, b.link ≠ x.val) ∧
      (∀ samples, exec (.qlinkMultiblock x false samples) s = .next (s.putReg (aQstat x)
        (putBits (s.reg (aQstat x)) 16 16 (min 0xFFFF (bits (s.reg (aQstat x)) 16 16 + 1))))) ∧
      (∀ samples at_, s.lemcOf x = some at_ → at_ ≤ s.now → let d := s.rxBoundary x
        exec (.qlinkMultiblock x true samples) s = .next
          ({ s with cle := { s.cle with blocks := s.cle.blocks ++ [⟨x, d, samples⟩] } } : State).rxRelease ∧
        s.now ≤ d ∧ d < s.now + max 1 (s.lemcPeriod (9 + x)) ∧ (d - at_) % max 1 (s.lemcPeriod (9 + x)) = 0))) ∧
  (∀ (s : State) (b : QBlock), s.cle.blocks = [b] →
    (s.now < b.due → s.rxRelease = s) ∧
    (b.due ≤ s.now → s.rx b.link = .data → let t := s.rxRelease
      t = { s with cle := { s.cle with q := t.cle.q, qNew := t.cle.qNew, blocks := [] } } ∧
      ∀ j, j < 8 → b.link < 2 →
        (∀ v, (b.samples.getD j []).getLast? = some v →
          Tab.get (fun _ => 0) t.cle.q (8 * b.link + j) = v ∧ bitOf t.cle.qNew (8 * b.link + j) = true) ∧
        ((b.samples.getD j []).getLast? = none →
          Tab.get (fun _ => 0) t.cle.q (8 * b.link + j) = Tab.get (fun _ => 0) s.cle.q (8 * b.link + j) ∧
          bitOf t.cle.qNew (8 * b.link + j) = bitOf s.cle.qNew (8 * b.link + j))))

/-- What every value that a control step computes keeps to: in F16 the lifted inputs and set-points and the finished sums fit
16 bits, in X32 sums fit 32. With all coefficients zero the law leaves zero states and the repetitive value. A ramp value moves
toward its reference by no more than its step and arrives there. A selected region is one of the NREG regions. At a due
boundary an OPEN slot with CLOSE set closes at once without a ramp step and ramps from its inputs with one; a slot that is not OPEN
opens where CLOSE is clear. A fault makes the slot FAULT with its cause and sets its event. -/
def Obligations.LawArithmeticAndSlotStates : Prop :=
  (∀ q p acc : Int, (-32768 ≤ liftQ false q ∧ liftQ false q ≤ 32767) ∧ (-32768 ≤ liftP false p ∧ liftP false p ≤ 32767) ∧
    (-32768 ≤ finish false acc ∧ finish false acc ≤ 32767) ∧ (-2147483648 ≤ finish true acc ∧ finish true acc ≤ 2147483647) ∧
    liftQ true q = q * 16384 ∧ liftP true p = p * 4096) ∧
  (∀ (x : Bool) (ns ni no : Nat) (xh y r ua rho : List Int), let (xn, u) := lawStep x ns ni no (fun _ => 0) xh y r ua rho
    xn = List.replicate ns 0 ∧ u.length = no ∧
    ∀ k, k < no → u[k]? = some (finish x (satAcc x (lift x (vecAt rho k)))) ∨
      u[k]? = some (finish x (lift x (vecAt rho k)))) ∧
  (∀ s r step : Int, 0 ≤ step → let m := rampMove s r step
    (s ≤ r → s ≤ m ∧ m ≤ r ∧ m - s ≤ step) ∧ (r ≤ s → r ≤ m ∧ m ≤ s ∧ s - m ≤ step) ∧
    ((r - s).natAbs ≤ step.natAbs → m = r)) ∧
  (∀ (t : Nat → Int) (h v : Int) (nreg cur : Nat), 0 < nreg → cur < nreg →
    regionStep t h v nreg cur < nreg ∧ regionOf t v nreg < nreg) ∧
  (∀ (s : State) (n : Fin 32) (y r : List Int), let x := s.slot n
    let close := bitOf s.cle.closeLat n
    (x.st = .open → close = false → s.slotEdge n y r = s) ∧
    (x.st = .open → close = true → (s.slotEdge n y r).slot n = (if s.rampStep n = 0
      then { x with st := .closed, feTimer := 0, staleRun := 0 } else { x with st := .ramp, s := y, feTimer := 0, staleRun := 0 })) ∧
    (x.st = .ramp ∨ x.st = .closed ∨ x.st = .fault → close = false →
      (s.slotEdge n y r).slot n = { x with st := .open } ∧ (s.slotEdge n y r).cle.events.length = s.cle.events.length + 1) ∧
    (x.st = .closed ∨ x.st = .fault → close = true → s.slotEdge n y r = s) ∧
    (∀ cause m dw1 record, let t := s.loopFault n cause m dw1 record
      (t.slot n).st = .fault ∧ (t.slot n).cause = cause ∧ bitOf (t.reg (aSupEv n)) 4 = true ∧
      t.flt.inbox.length = s.flt.inbox.length + b01 record))

/-! The fabric (chapter 13). -/

/-- Signal takes an enabled link from DOWN to TRAIN, block lock from TRAIN to HELLO. A link that has been in TRAIN for 10 ms, or in HELLO
for 1 ms without one, goes to DOWN; what was unacknowledged waits for the next UP. In HELLO one is sent each 256 CD_NZTX cycles; the
rows of these three pass core cycles until it has happened or can no longer happen. A HELLO is recorded; with CAL_DONE sent and received
the link enters UP with fresh sequence numbers and 64 credits on each channel. A HELLO sent leaves as one flit. In UP an
acknowledgement and an idle flit bring credits, and an acknowledged packet leaves the retry buffer; a replay request counts, is
told and repeats what is left, and the eighth in a row without progress takes the link to TRAIN, as does the loss of block
lock. A lost flit counts, and in UP asks for a replay. A calibration of the stamp paths is recorded. In any other state nothing changes.
The packets that a link has waiting are left out of these clauses: none waits. -/
def Obligations.LinksTrainAndReplay : Prop :=
  (∀ (s : State) (n : Fin 8), s.runs cNzl = true → let x := s.link n
    exec (.linkSignalDetect n) s = .next (if x.st = .down ∧ s.flag (aLink n) 31 = true ∧ s.clk.fpllStopped = false ∧
      s.isRetired uLink n = false then s.setLink n { x with st := .train, since := s.time.elapsed } else s) ∧
    exec (.linkTrained n) s = .next (if x.st = .train then s.setLink n { x with
      st := .hello, since := s.time.elapsed, helloAt := s.time.elapsed, timeAt := none } else s) ∧
    exec (.stampPathCalibration n) s =
      .next (if x.st = .hello ∨ x.st = .up then s.setLink n { x with calibrated := true } else s) ∧
    (∃ t, exec (.trainTimeout n) s = .next t ∧ Passes s waitFuel (fun u => (u.link n).st ≠ .train) t) ∧
    (∃ t, exec (.helloTimeout n) s = .next t ∧
      Passes s waitFuel (fun u => (u.link n).st ≠ .hello ∨ (u.link n).gotHello = true) t) ∧
    (∃ t, exec (.helloSend n) s = .next t ∧
      Passes s waitFuel (fun u => (u.link n).st ≠ .hello ∨ (u.link n).helloAt ≠ x.helloAt) t)) ∧
  (∀ (s : State) (n : Fin 8), let x := s.link n
    let t := s.linkTurn n
    let late := x.since + spanUs 1000 ≤ s.time.elapsed
    (x.st = .train → s.time.elapsed < x.since + spanUs 10000 → t = s) ∧
    (x.st = .train → x.since + spanUs 10000 ≤ s.time.elapsed → NoHeld s n → (t.link n).st = .down ∧
      (t.link n).queue = x.retry ++ x.queue ∧ (t.link n).retry = [] ∧ t.regs = (s.raise (aLinkEv n) (bit1 3)).regs ∧
      (∀ k, k ≠ n.val → t.link k = s.link k) ∧
      t.flt.inbox = s.flt.inbox ++ [⟨0x19, uLink, n, 0, false, s.ft64, s.flt.clock⟩]) ∧
    (x.st = .hello → x.gotHello = false → late → NoHeld s n → (t.link n).st = .down ∧ t.regs = s.regs ∧
      (t.link n).queue = x.retry ++ x.queue ∧ (∀ k, k ≠ n.val → t.link k = s.link k)) ∧
    (x.st = .hello → (x.gotHello = true ∨ ¬ late) →
      (s.time.elapsed < x.helloAt + nztxSpan 256 → t = s) ∧
      (x.helloAt + nztxSpan 256 ≤ s.time.elapsed → x.gotCal = false → t.out.length = s.out.length + 1 ∧
        (t.link n).st = .hello ∧ (t.link n).helloAt = s.time.elapsed ∧ (t.link n).sentCal = (x.sentCal || x.calibrated) ∧
        t.regs = s.regs ∧ (∀ k, k ≠ n.val → t.link k = s.link k)))) ∧
  (∀ (s : State) (n : Fin 8) (die : BitVec 64) (peer : BitVec 3) (cal : Bool) (cr : Credits), s.runs cNzl = true →
    s.hk.bring = none → let x := s.link n
    let got := { x with peerDie := die, peerLink := peer, gotHello := true, gotCal := x.gotCal || cal }
    let entersUp (y : Link) : State := (s.setLink n { y with
      st := .up
      self := y.peerDie == Config.dieId
      lseqTx := 0
      lseqRx := 0
      cred0 := 64
      cred1 := 64
      cred2 := 64
      freed0 := 0
      freed1 := 0
      freed2 := 0
      peerHello := true
      badReplays := 0 }).raise (aLinkEv n) (bit1 0)
    (x.st = .hello → (x.sentCal = false ∨ (x.gotCal = false ∧ cal = false)) →
      exec (.hello n die peer cal cr) s = .next (s.setLink n got)) ∧
    (x.st = .hello → x.sentCal = true → (x.gotCal = true ∨ cal = true) → x.queue = [] →
      (s.nzl.st = .join ∨ (s.nzl.st = .off ∧ s.fabricOn = false) →
        exec (.hello n die peer cal cr) s = .next (entersUp got)) ∧
      (s.nzl.st = .elect → exec (.hello n die peer cal cr) s = .next (entersUp got).electSend)) ∧
    (x.st = .up → x.peerHello = false → x.queue = [] → exec (.hello n die peer cal cr) s =
      .next (s.setLink n { x.credit cr with peerDie := die, peerLink := peer })) ∧
    (x.st = .down ∨ x.st = .train ∨ x.st = .retired → exec (.hello n die peer cal cr) s = .next s)) ∧
  (∀ (s : State) (n : Fin 8) (ack back : BitVec 8) (cr : Credits), s.runs cNzl = true → let x := s.link n
    (x.st ≠ .up → exec (.linkAck n ack cr) s = .next s ∧ exec (.idle n cr) s = .next s ∧
      exec (.replayReq n ack back cr) s = .next s ∧ exec (.blockLockLost n) s = .next s) ∧
    (x.st = .up → x.queue = [] →
      exec (.idle n cr) s = .next (s.setLink n (x.credit cr)) ∧
      exec (.linkAck n ack cr) s = .next (s.setLink n { x.credit cr with
        retry := ackUpTo ack x.retry
        peerHello := false
        badReplays := if x.retry.any (fun p => p.lseq == ack) then 0 else x.badReplays }) ∧
      (∃ t, exec (.replayReq n ack back cr) s = .next t ∧ t.reg (aLink n + 0x10) = satInc (s.reg (aLink n + 0x10)) ∧
        bitOf (t.reg (aLinkEv n)) 2 = true ∧
        (x.retry.any (fun p => p.lseq == ack) = true ∨ x.badReplays < 7 →
          t.flt.inbox = s.flt.inbox ++ [⟨0x18, uLink, n, 0, false, s.ft64, s.flt.clock⟩] ∧ (t.link n).st = .up ∧ (t.link n).retry = ackUpTo ack x.retry ∧ t.out.length = s.out.length + 1) ∧
        (x.retry.any (fun p => p.lseq == ack) = false → 7 ≤ x.badReplays → (t.link n).st = .train ∧ (t.link n).retry = []))) ∧
    (x.st = .up → ∃ t, exec (.blockLockLost n) s = .next t ∧ (t.link n).st = .train ∧ bitOf (t.reg (aLinkEv n)) 1 = true ∧
      (NoHeld s n → (t.link n).queue = x.retry ++ x.queue)) ∧
    (∀ kind, (x.st = .down ∨ x.st = .train ∨ x.st = .retired → exec (.lostFlit n kind) s = .next s) ∧
      (x.st = .hello → exec (.lostFlit n kind) s = .next (s.bump (aLink n + 0x14))) ∧
      (x.st = .up → ∃ t, exec (.lostFlit n kind) s = .next t ∧ t.regs = (s.bump (aLink n + 0x14)).regs ∧
        t.out.length = s.out.length + 1 ∧ (t.link n).lseqRx = x.lseqRx ∧ (t.link n).retry = x.retry)))

/-- The election commands start an election in a member and a root, and an enumeration in a root, which counts its GEN and starts
from no reports; in any other state they store and do nothing. In ELECT a better key in reach is adopted one hop further; the decision,
200 µs after the best key last changed, makes the node with that key enumerate, leaves another in JOIN, and sets an event where no
key can be root. A node outside ELECT adopts nothing. A nearer DISCOVER sets GEN, hop and path; the report of a node whose hop has
stood for 100 µs leaves on its way home or waits there; a root that collects keeps the newest report of each node; its collection ends
500 µs after the last one, alone, with its own place live. The root's BEACON leaves every 100 µs; a member's sets the root's address;
1 ms without one sets its event, is told and starts an election, as do 2 ms in JOIN without DISCOVER. The rows of what time brings
pass core cycles until it has come or can no longer come. A TOPO packet makes a root enumerate again. On a link that is not UP a
packet changes nothing. -/
def Obligations.NodesElectAndEnumerate : Prop :=
  (∀ (s : State) (rq : Requester) (r : RegRow), s.reg (wNzl + 0x18) = 0 →
    (Written s ⟨rq, 0xF, 1⟩ (wNzl + 0x18) r 1 → ∃ t, exec (.nzlCmdElect rq 0xF) s = .next t ∧
      (s.nzl.st = .member ∨ s.nzl.st = .root → t.nzl.st = .elect ∧ t.nzl.best = some (s.ownKey, 0) ∧ t.nzl.enHop = none) ∧
      (s.nzl.st ≠ .member → s.nzl.st ≠ .root → t = wrote s rq (wNzl + 0x18) r 1)) ∧
    (Written s ⟨rq, 0xF, 2⟩ (wNzl + 0x18) r 2 → ∃ t, exec (.nzlCmdReenum rq 0xF) s = .next t ∧
      (s.nzl.st = .root → t.nzl.st = .enum ∧ t.nzl.enGen = s.nzl.enGen + 1 ∧ t.nzl.enHop = some 0 ∧ t.nzl.nodes = []) ∧
      (s.nzl.st ≠ .root → t = wrote s rq (wNzl + 0x18) r 2))) ∧
  (∀ (s : State) (n : Fin 8) (k : ElectKey) (d : BitVec 5), s.runs cNzl = true →
    (s.linkUp n = false → exec (.elect n k d) s = .next s) ∧
    (s.linkUp n = true → ∃ t, exec (.elect n k d) s = .next t ∧ t.nzl.st = s.nzl.st ∧ t.time = s.time ∧
      (∀ b e, s.nzl.st = .elect → s.nzl.best = some (b, e) → t.nzl.best =
        if keyBeats k b = true ∧ d.toNat < 16 then some (k, d.toNat + 1) else some (b, e)) ∧
      (s.nzl.st ≠ .elect → t.nzl.best = s.nzl.best))) ∧
  (∀ (s : State), s.runs cNzl = true →
    let till (p : State → Prop) (t : State) : Prop := Passes s waitFuel p t
    (∃ t, exec .electionDecision s = .next t ∧ till (fun u => u.nzl.st ≠ .elect ∨ u.nzl.bestAt = none) t) ∧
    (∃ t, exec .reportSend s = .next t ∧ till (fun u => u.nzl.hopAt = none) t) ∧
    (∃ t, exec .collectionEnd s = .next t ∧ till (fun u => u.nzl.st ≠ .enum ∨ u.nzl.partPlace.isSome = true) t) ∧
    (∃ t, exec .beaconSend s = .next t ∧ till (fun u => u.nzl.st ≠ .root ∨ u.nzl.beaconAt ≠ s.nzl.beaconAt) t) ∧
    (∃ t, exec .beaconLoss s = .next t ∧ till (fun u => u.nzl.st ≠ .member) t) ∧
    (∃ t, exec .joinTimeout s = .next t ∧ till (fun u => u.nzl.st ≠ .join ∨ u.nzl.enHop.isSome = true) t)) ∧
  (∀ s : State, let t := s.nodeTurn
    let due (at_ us : Nat) : Prop := at_ + spanUs us ≤ s.time.elapsed
    (∀ k d a, s.nzl.st = .elect → s.nzl.best = some (k, d) → s.nzl.bestAt = some a →
      let z := { s.nzl with bestAt := none }
      (¬ due a 200 → t = s) ∧
      (due a 200 → k.cls = 0 → t = ({ s with nzl := z } : State).raise aNzlEv (bit1 10)) ∧
      (due a 200 → k.cls ≠ 0 → d ≠ 0 → t = { s with nzl := { z with st := .join, joinAt := s.time.elapsed } }) ∧
      (due a 200 → k.cls ≠ 0 → d = 0 → t.nzl.st = .enum ∧ t.nzl.enGen = s.nzl.enGen + 1 ∧ t.nzl.enHop = some 0 ∧
        t.nzl.nodes = [])) ∧
    (s.nzl.st = .enum → s.nzl.partPlace = none → (¬ due s.nzl.reportAt 500 → t = s) ∧
      (due s.nzl.reportAt 500 → s.nzl.nodes = [] → s.nzl.everLive = false → t.nzl.st = .root ∧ t.nzl.everLive = true ∧
        t.nzl.gen = s.nzl.enGen ∧ t.nzl.cfg.parent = none)) ∧
    (s.nzl.st = .root → (¬ due s.nzl.beaconAt 100 → t = s) ∧ (∀ n, due s.nzl.beaconAt 100 → s.treeLinks = [n] → s.linkUp n = true →
      s.isRetired uLink n = false → (s.link n).queue = [] → t.nzl.st = .root ∧ t.time = s.time ∧ t.nzl.beaconAt = s.time.elapsed ∧
        (t.link n).queue.length + (t.link n).retry.length = (s.link n).retry.length + 1)) ∧
    (s.nzl.st = .member → (¬ due s.nzl.beaconAt 1000 → t = s) ∧ (due s.nzl.beaconAt 1000 → t.nzl.st = .elect ∧
      t.nzl.best = some (s.ownKey, 0) ∧ bitOf (t.reg aNzlEv) 3 = true ∧
      t.flt.inbox = s.flt.inbox ++ [⟨0x1A, 0, 0, 0, false, s.ft64, s.flt.clock⟩])) ∧
    (s.nzl.st = .join → (s.nzl.enHop.isSome = true ∨ ¬ due s.nzl.joinAt 2000 → t = s) ∧
      (s.nzl.enHop = none → due s.nzl.joinAt 2000 → t.nzl.st = .elect ∧ t.nzl.best = some (s.ownKey, 0))) ∧
    (∀ a, Rests s True False False False False → s.nzl.hopAt = some a → let t := s.fabricTurn
      (¬ due a 100 → t = s) ∧
      (due a 100 → s.nzl.enHop = none ∨ s.nzl.enHop = some 0 → t = { s with nzl := { s.nzl with hopAt := none } }) ∧
      (∀ h n rest, due a 100 → s.nzl.enHop = some (h + 1) → s.homeRoute = n :: rest → s.linkUp n = true →
        s.isRetired uLink n = false → (s.link n).queue = [] → t.nzl.st = s.nzl.st ∧ t.nzl.enHop = s.nzl.enHop ∧
          t.nzl.hopAt = none ∧ (t.link n).queue.length + (t.link n).retry.length = (s.link n).retry.length + 1))) ∧
  (∀ (s : State) (n : Fin 8) (gen : BitVec 16) (hop : BitVec 5) (path : List (BitVec 3)), s.runs cNzl = true →
    (s.linkUp n = false ∨ (s.link n).self = true → exec (.discover n gen hop path) s = .next s) ∧
    (s.linkUp n = true → (s.link n).self = false → s.nzl.st = .elect ∨ s.nzl.st = .join ∨ s.nzl.st = .member →
      let better := hop.toNat < 16 ∧ (gen ≠ s.nzl.enGen ∨ ∀ k, s.nzl.enHop = some k → hop.toNat + 1 < k)
      ∃ t, exec (.discover n gen hop path) s = .next t ∧ t.nzl.st = s.nzl.st ∧ t.nzl.cfg = s.nzl.cfg ∧
        (better → t.nzl.enGen = gen ∧ t.nzl.enHop = some (hop.toNat + 1) ∧
          t.nzl.enPath = path.take hop.toNat ++ [BitVec.ofNat 3 n]) ∧
        (¬ better → t.nzl.enGen = s.nzl.enGen ∧ t.nzl.enHop = s.nzl.enHop ∧ t.nzl.enPath = s.nzl.enPath))) ∧
  (∀ (s : State) (h : Hdr) (pkt : ReportPkt), s.runs cNzl = true →
    (s.linkUp h.link = false → exec (.report h pkt) s = .next s) ∧
    (s.linkUp h.link = true → h.ttl = 1 → ∃ t, exec (.report h pkt) s = .next t ∧ t.nzl.st = s.nzl.st ∧
      t.nzl.nodes = if s.nzl.st = .enum then s.nzl.nodes.filter (fun x => x.rep.dieId != pkt.dieId) ++ [⟨pkt, none, false, 0⟩]
        else s.nzl.nodes) ∧
    (s.linkUp h.link = true → h.ttl = 0 → ∃ t, exec (.report h pkt) s = .next t ∧ t.nzl.nodes = s.nzl.nodes ∧
      (s.reg aTtlDrops ≠ 0xFFFFFFFF → (s.reg aTtlDrops).toNat < (t.reg aTtlDrops).toNat))) ∧
  (∀ (s : State) (n : Fin 8) (gen : BitVec 16) (addr : BitVec 12) (die : BitVec 64), s.runs cNzl = true →
    (s.linkUp n = false → exec (.beacon n gen addr die) s = .next s) ∧
    (s.linkUp n = true → ∃ t, exec (.beacon n gen addr die) s = .next t ∧ t.nzl.st = s.nzl.st ∧ t.nzl.cfg = s.nzl.cfg ∧
      t.nzl.rootAddr = if s.nzl.st = .member ∧ gen = s.nzl.gen then addr else s.nzl.rootAddr)) ∧
  (∀ (s : State) (h : Hdr) (gen : BitVec 16) (l st : BitVec 3), s.runs cNzl = true →
    (s.linkUp h.link = false → exec (.topo h gen l st) s = .next s) ∧
    (s.linkUp h.link = true → s.isFor h.dest.toNat = true → ∃ t, exec (.topo h gen l st) s = .next t ∧
      (s.nzl.st = .root → t.nzl.st = .enum ∧ t.nzl.enGen = s.nzl.enGen + 1) ∧
      (s.nzl.st = .member → t.nzl.st = .member ∧ t.nzl.enGen = s.nzl.enGen ∧ t.regs = s.regs)))

/-- A part of the node's own GEN that reaches its destination is stored: the place, or its 480 entries of the table; one of another
GEN, or at a node that has no hop, changes nothing of what is held. At the root an acknowledgement of its GEN marks the node; parts that
are not acknowledged for 100 µs are sent again, each counted, until a node that left four unanswered is left out. A COMMIT at a node that
holds the whole of its GEN makes it live at once, or at COMMIT_FT where time is locked: then the address, the tree and the table are the
held ones, and a node in JOIN is a member; a node that holds none sets EXCLUDED and keeps what it has. What waits goes live at its
time, and COMMIT_LIVE passes core cycles until then. On a link that is not UP a packet changes nothing. -/
def Obligations.ConfigurationsGoLive : Prop :=
  (∀ (s : State) (h : Hdr) (gen : BitVec 16), s.runs cNzl = true →
    (s.linkUp h.link = false → ∀ part, exec (.config h gen part) s = .next s) ∧
    (s.linkUp h.link = true → h.ttl = 1 →
      let takes := gen = s.nzl.enGen ∧ ∃ k, s.nzl.enHop = some (k + 1)
      (¬ takes → ∀ part, ∃ t, exec (.config h gen part) s = .next t ∧ t.nzl.partPlace = s.nzl.partPlace ∧
        t.nzl.parts = s.nzl.parts ∧ t.nzl.partTable = s.nzl.partTable ∧ t.nzl.cfg = s.nzl.cfg) ∧
      (takes → ∀ addr parent tree hop, ∃ t, exec (.config h gen (.place addr parent tree hop)) s = .next t ∧
        t.nzl.partPlace = some ⟨addr, parent, tree, hop, []⟩ ∧ t.nzl.parts = s.nzl.parts ∧ t.nzl.cfg = s.nzl.cfg) ∧
      (takes → ∀ (p : Fin 9) (e : List (BitVec 4)), e.length = 480 → ∃ t, exec (.config h gen (.table p e)) s = .next t ∧
        Tab.get (fun _ => false) t.nzl.parts p = true ∧ t.nzl.partPlace = s.nzl.partPlace ∧ t.nzl.cfg = s.nzl.cfg ∧
        ∀ i, i < 4096 → Tab.get (fun _ => 0) t.nzl.partTable i =
          if 480 * p.val ≤ i ∧ i < 480 * p.val + 480 then e.getD (i - 480 * p.val) 0
          else Tab.get (fun _ => 0) s.nzl.partTable i))) ∧
  (∀ (s : State) (h : Hdr) (gen : BitVec 16) (node : BitVec 64), s.runs cNzl = true → s.hk.bring = none →
    (s.linkUp h.link = false → exec (.ack h gen node) s = .next s) ∧
    (s.linkUp h.link = true → h.ttl = 1 → ∃ t, exec (.ack h gen node) s = .next t ∧ t.nzl.nodes =
      if s.nzl.st = .enum ∧ gen = s.nzl.enGen
      then modFirst (fun x => x.rep.dieId == node) (fun x => { x with acked := true }) s.nzl.nodes else s.nzl.nodes)) ∧
  (∀ s : State, let waits (x : NodeRec) : Bool := !x.acked && x.cfg.isSome
    let t := s.nodeTurn
    (s.runs cNzl = true → ∃ u, exec .configResend s = .next u ∧ Passes s waitFuel (fun u => u.nzl.st ≠ .enum ∨ u.nzl.partPlace = none ∨
      (∀ x ∈ u.nzl.nodes, waits x = false) ∨ u.nzl.sentAt ≠ s.nzl.sentAt) u) ∧
    (s.nzl.st = .enum → s.nzl.partPlace.isSome = true →
      ((∀ x ∈ s.nzl.nodes, waits x = false) ∨ s.time.elapsed < s.nzl.sentAt + spanUs 100 → t = s) ∧
      (s.nzl.sentAt + spanUs 100 ≤ s.time.elapsed → (∃ x ∈ s.nzl.nodes, waits x = true) →
        ((∀ x ∈ s.nzl.nodes, waits x = true → x.resends < 4) → t.nzl.st = .enum ∧ t.nzl.sentAt = s.time.elapsed ∧
          t.nzl.nodes = s.nzl.nodes.map (fun x => if waits x then { x with resends := x.resends + 1 } else x)) ∧
        (s.nzl.recomputed = true → (∃ x ∈ s.nzl.nodes, waits x = true ∧ 4 ≤ x.resends) →
          t.nzl.nodes = s.nzl.nodes.filter (fun x => !(waits x && decide (4 ≤ x.resends))))))) ∧
  (∀ (s : State) (n : Fin 8) (gen : BitVec 16) (at_ : FT80), s.runs cNzl = true → s.hk.bring = none →
    (s.linkUp n = false → exec (.commit n gen at_) s = .next s) ∧
    (s.linkUp n = true → s.nzl.commitAt = none → s.nzl.st = .elect ∨ s.nzl.st = .join ∨ s.nzl.st = .member →
      (s.nzl.everLive = false ∨ s.nzl.gen ≠ gen) →
      (∀ c, gen = s.nzl.enGen → s.nzl.partPlace = some c → s.nzl.parts.length = 9 → ∃ t, exec (.commit n gen at_) s = .next t ∧
        (at_ = 0 ∨ s.time.locked = false → t.nzl.cfg = { c with table := s.nzl.partTable } ∧ t.nzl.gen = gen ∧
          t.nzl.everLive = true ∧ t.nzl.st = if s.nzl.st = .join then .member else s.nzl.st) ∧
        (at_ ≠ 0 → s.time.locked = true → t.nzl.commitAt = some at_ ∧ t.nzl.cfg = s.nzl.cfg ∧ t.nzl.st = s.nzl.st)) ∧
      (gen ≠ s.nzl.enGen ∨ s.nzl.partPlace = none ∨ s.nzl.parts.length ≠ 9 → ∃ t, exec (.commit n gen at_) s = .next t ∧
        t.nzl.cfg = s.nzl.cfg ∧ t.nzl.st = s.nzl.st ∧ bitOf (t.reg aNzlEv) 11 = true))) ∧
  (∀ s : State,
    (s.runs cNzl = true → ∃ t, exec .commitLive s = .next t ∧ Passes s waitFuel (fun u => u.nzl.commitAt = none) t) ∧
    (∀ a c, Rests s False True False False False → s.nzl.commitAt = some a → s.nzl.partPlace = some c → let t := s.fabricTurn
      (s.ftN < ftScale a → t = s) ∧
      (ftScale a ≤ s.ftN → t.nzl.cfg = { c with table := s.nzl.partTable } ∧ t.nzl.gen = s.nzl.enGen ∧ t.nzl.everLive = true ∧
        t.nzl.commitAt = none ∧ (t.nzl.st = if s.nzl.st = .join then .member else s.nzl.st) ∧ bitOf (t.reg aNzlEv) 2 = true)))

/-- A TIME packet is due where 4,096 CD_NZTX cycles have passed since the one before it; sent, it takes the next index and is kept with
its stamp. One received is kept as the peer's latest; with its predecessor,
and this node's packet that it echoes, it gives the mean delay and the offset; a node that does not follow that link keeps its
time. A PPS edge is noted; at a root that waits for it, it corrects FT at the next boundary by what makes it TIME_FT_SET less the
offset, and locks time. 1.1 s without PPS is noted, and sets an event at a root. A hold ends after its time and clears TIME_LOCKED. The rows
of these, and of a lost fragment, pass core cycles until they have come or can no longer come. A LAUNCH for this node without a usable completion ring
counts its targets and queues none, and with one queues a target whose tests pass. The first fragment of a message is kept, a later
one joined to it, and one that does not come gives it up and is answered. A NAK without a usable notice ring is counted. The
launch-at send that has left completes. On a link that is not UP nothing changes. -/
def Obligations.TimeTransferAndPackets : Prop :=
  (∀ (s : State) (n : Fin 8) (stamp : BitVec 64) (p : TimePkt), s.runs cNzl = true → let x := s.link n
    (x.st ≠ .up → x.st ≠ .hello → exec (.timeSend n stamp) s = .next s ∧ exec (.time n p) s = .next s) ∧
    (∃ u, Passes s waitFuel (fun u => u.timeDue n = true) u ∧ exec (.timeSend n stamp) s = .next (u.timeSend n stamp)) ∧
    (x.st = .up ∨ x.st = .hello →
      let l := x.txStamps ++ [⟨x.txIdx, stamp⟩]
      (s.timeDue n = true ↔ ∀ a, x.timeAt = some a → a + nztxSpan 4096 ≤ s.time.elapsed) ∧
      (s.isRetired uLink n = true → s.timeSend n stamp = s) ∧
      (s.isRetired uLink n = false → ∃ f, s.timeSend n stamp = (s.setLink n { x with
        txIdx := x.txIdx + 1, txStamps := l.drop (l.length - 8), timeAt := some s.time.elapsed }).emit (.flits n [f])) ∧
      (s.servoLink n = false → ∃ t, exec (.time n p) s = .next t ∧ t.time = s.time ∧
        (t.link n).peer = some ⟨p.idx, p.rxLast, p.echoIdx, p.rxStamp⟩ ∧
        (t.link n).unlockedRun = (if p.locked then 0 else x.unlockedRun + 1) ∧
        (∀ j t1, x.peer = some j → x.txStamps.find? (fun y => y.idx == j.echoIdx) = some t1 → p.idx = j.idx + 1 → x.st = .up →
          (t.link n).d = (j.rxStamp - t1.at16).toInt - (p.txPrev - j.rxLast).toInt ∧
          (t.link n).theta = (t1.at16 - j.rxLast).toInt + (j.rxStamp - p.txPrev).toInt +
            2 * ((s.reg (aLink n)).setWidth 16 : BitVec 16).toInt) ∧
        (x.peer = none → (t.link n).d = x.d ∧ (t.link n).theta = x.theta)))) ∧
  (∀ (s : State) (offset : BitVec 16), s.runs cNzl = true →
    (s.flag wNzl 3 = false ∨ (s.nzl.st ≠ .root ∧ s.nzl.st ≠ .enum) →
      exec (.ppsEdge offset) s = .next { s with nzl := { s.nzl with ppsSeen := true, ppsAt := some s.time.elapsed } }) ∧
    (s.flag wNzl 3 = true → s.nzl.st = .root ∨ s.nzl.st = .enum → s.nzl.ppsWait = true →
      let set : BitVec 80 := ((s.reg (wTime + 0x28)).setWidth 16 : BitVec 16) ++ (s.reg (wTime + 0x24) ++ s.reg (wTime + 0x20))
      exec (.ppsEdge offset) s = .next { s with
        nzl := { s.nzl with ppsSeen := true, ppsAt := some s.time.elapsed, ppsWait := false }
        time := { s.time with
          adjust := some (((set.toNat : Int) - offset.toNat) * 2 ^ 32 - s.ftN), root := true, locked := true } }) ∧
    (∃ t, exec .ppsLost s = .next t ∧ Passes s waitFuel (fun u => u.nzl.ppsAt = none) t) ∧
    (∃ t, exec .timeHoldEnd s = .next t ∧ Passes s waitFuel (fun u => u.nzl.holding = false) t)) ∧
  (∀ (t : Time) (set : FTime) (v : Int), t.load = false → t.adjust = some v → (t.pass set).ft = t.ft + t.inc.setWidth 112 + BitVec.ofInt 112 v ∧
    (t.pass set).ftValid = true ∧ (t.pass set).adjust = none) ∧
  (∀ s : State, let t := s.fabricTurn
    (∀ a, Rests s False False False True False → s.nzl.ppsAt = some a →
      let u : State := { s with nzl := { s.nzl with ppsSeen := false, ppsAt := none } }
      (s.time.elapsed < a + spanUs 1100000 → t = s) ∧
      (a + spanUs 1100000 ≤ s.time.elapsed →
        t = if s.flag wNzl 3 = true ∧ (s.nzl.st = .root ∨ s.nzl.st = .enum) then u.raise aNzlEv (bit1 8) else u)) ∧
    (Rests s False False True False False → s.nzl.holding = true →
      let end_ := s.nzl.holdAt + spanUs (s.fld (wNzl + 0xC) 0 16)
      (s.time.elapsed < end_ → t = s) ∧
      (end_ ≤ s.time.elapsed → t.nzl.holding = false ∧ t.time = { s.time with locked := false } ∧
        (s.time.locked = true → t.regs = (s.raise aNzlEv (bit1 5)).regs) ∧ (s.time.locked = false → t.regs = s.regs))) ∧
    (∀ r, Rests s False False False False True → s.nzl.reasm = [r] →
      (s.time.elapsed < r.heard + spanUs 100 → t = s) ∧
      (r.heard + spanUs 100 ≤ s.time.elapsed → t.nzl.reasm = [] ∧ t.reg (wNzl + 0x30) = satInc (s.reg (wNzl + 0x30))))) ∧
  (∀ (s : State) (n : Fin 8) (p : LaunchPkt), s.runs cNzl = true →
    let ring := s.fld (wNzl + 0x14) 0 8
    (s.linkUp n = false → exec (.launch n p) s = .next s) ∧
    (s.linkUp n = true → s.isFor p.dest.toNat = true → p.dest.toNat < 4096 →
      (s.flag (wNzl + 0x14) 8 = false → ∃ t, exec (.launch n p) s = .next t ∧ t.time.queue = s.time.queue ∧
        t.reg (wNzl + 0x38) = (s.bumpBy (wNzl + 0x38) ((List.range 24).filter (fun k => bitOf p.seqMask k)).length).reg
          (wNzl + 0x38)) ∧
      (∀ k : Fin 24, s.flag (wNzl + 0x14) 8 = true → s.ringTakes ring cCpl = true → (s.ring ring).reserved < s.ringFree ring →
        p.seqMask = BitVec.ofNat 24 (2 ^ k.val) →
        let o : Ord := ⟨.fabric, ring, p.src.toNat, p.tag, false, false, p.src, p.orderSeq, p.prio.toNat, k, p.lane.toNat, p.action,
          some p.effect, s.now, true, none⟩
        ∃ t, exec (.launch n p) s = .next t ∧
          (∀ tick, s.ordTests o 0 0 = .ok tick → t.time.queue = s.time.queue ++ [{ o with tick := tick }]) ∧
          (∀ e, s.ordTests o 0 0 = .error e → t.time.queue = s.time.queue)))) ∧
  (∀ (s : State) (n : Fin 8) (p : MailPkt), s.runs cNzl = true →
    (s.linkUp n = false → exec (.mail n p) s = .next s) ∧
    (s.linkUp n = true → s.isFor p.dest.toNat = true → p.dest.toNat < 4096 → s.nzl.dropMail.contains (p.src, p.msgId) = false →
      (p.frag = 0 → s.nzl.reasm.length < 16 → p.payload.length < p.len.toNat → ∃ t, exec (.mail n p) s = .next t ∧
        t.nzl.reasm = s.nzl.reasm ++ [⟨p.src, p.dest, p.msgId, p.mtype, p.len.toNat, p.tag, 1, p.payload, s.time.elapsed⟩] ∧
          t.regs = s.regs) ∧
      (∀ r, p.frag ≠ 0 → s.nzl.reasm.find? (fun r => r.src == p.src && r.msgId == p.msgId) = some r → r.next = p.frag.toNat →
        ∃ t, exec (.mail n p) s = .next t ∧ (t.link n).lseqRx = (s.link n).lseqRx + 1 ∧
          (240 * p.frag.toNat + p.payload.length < p.len.toNat → t.regs = s.regs ∧ t.nzl.reasm = modFirst
            (fun r => r.src == p.src && r.msgId == p.msgId)
            (fun r => { r with next := r.next + 1, data := r.data ++ p.payload, heard := s.time.elapsed }) s.nzl.reasm) ∧
          (p.len.toNat ≤ 240 * p.frag.toNat + p.payload.length → t.nzl.reasm = s.nzl.reasm.erase r)))) ∧
  (∀ (s : State) (src : BitVec 12) (id : BitVec 16), s.runs cNzl = true →
    ∃ t, exec (.mailLost src id) s = .next t ∧ Passes s waitFuel (fun u => ∀ r ∈ u.nzl.reasm, r.src ≠ src ∨ r.msgId ≠ id) t) ∧
  (∀ (s : State) (n : Fin 8) (p : NakPkt), s.runs cNzl = true →
    (s.linkUp n = false → exec (.nak n p) s = .next s) ∧
    (s.linkUp n = true → s.isFor p.dest.toNat = true → s.ringTakes (s.mailRing 0xFF) cMailRx = false →
      ∃ t, exec (.nak n p) s = .next t ∧ t.regs = (s.bump (wNzl + 0x34)).regs ∧ t.hif = s.hif)) ∧
  (∀ (s : State) (n : Fin 256) (slot : BitVec 15), s.runs cHif = true →
    (s.descAt n slot (fun d => d.st == .admitted && d.kind == 3 && d.fabric) = none → exec (.launchSendDone n slot) s = .next s) ∧
    (∀ d, s.descAt n slot (fun d => d.st == .admitted && d.kind == 3 && d.fabric) = some d → d.left = 1 →
      s.sendWaits n d.slot = false →
      let u := { s.modDesc n d.slot (fun d => { d with left := 0 }) with free := s.free + 1 }
      ∃ v : Word, exec (.launchSendDone n slot) s = .next (u.complete n d (u.cplOf n d sDone 0 v.toNat))) ∧
    (∀ d, s.descAt n slot (fun d => d.st == .admitted && d.kind == 3 && d.fabric) = some d → d.left ≠ 1 →
      exec (.launchSendDone n slot) s = .next s))

/-! The fault engine (chapter 14). -/

/-- The detection taken is one that no other waiting one comes before; one that arrived in the present core cycle is taken at the next
boundary. On a unit that is retired it is recorded ON_RETIRED and counts in no window. A permanent one retires its unit with
outcome 2, or, where the class leaves no unit to retire, only records it. A counted one opens or goes on with its unit's window,
with the LIMIT and WINDOW that it opened with; within it a record of outcome 0 goes out unless the unit's record of the class is
limited for this millisecond; past it the window closes and the unit retires, or, where there is none to retire, the outcome is 3. A
tick of the millisecond timer ends the record limits and takes one off each window, which closes with the last; the timer ticks each
1,024,000,000 fu while the XO runs. The row of a window's end passes core cycles until the window is closed. A pad's mismatch that
four core cycles allow, and the loss of a transmit serializer's lock, are detections; the lock comes back after 10 µs at most. -/
def Obligations.FaultsAreClassified : Prop :=
  (∀ (x : Det) (l : List Det), nextDet x l ∈ x :: l ∧ ∀ y, y ∈ x :: l → y.before (nextDet x l) = false) ∧
  (∀ s : State, s.runs cFlt = true → s.flt.inbox = [] → exec .faultDetection s = .next s) ∧
  (∀ (s : State) (x : Det) (l : List Det), s.runs cFlt = true → s.hk.bring = none → s.flt.inbox = x :: l →
    let d := nextDet x l
    let u := ({ s with flt := { s.flt with inbox := s.flt.inbox.erase d } }).countOcc d.cls
    let gone := d.kind ≠ 0 ∧ s.isRetired d.kind d.index = true
    let firn := d.cls = 0x06 ∨ d.cls = 0x07 ∨ d.cls = 0x08
    let forGood := (d.permanent || permanentClass d.cls) = true
    (d.at_ = s.flt.clock → let v := s.coreCycle
      exec .faultDetection s = .next (if v.flt.inbox.contains d = true then v.faultTake.bringCheck else v)) ∧
    (d.at_ ≠ s.flt.clock → exec .faultDetection s = .next s.faultTake) ∧
    (gone → s.faultTake = u.faultRecord d.cls d.kind 4 d.index d.detail 0 0 d.ft) ∧
    (¬gone → ¬firn → forGood → retirable d.cls d.kind = true →
      s.faultTake = u.retire d.kind d.index d.cls 2 d.detail 0 0) ∧
    (¬gone → ¬firn → forGood → retirable d.cls d.kind = false → d.cls ≠ 0x03 →
      s.faultTake = u.faultRecord d.cls d.kind 2 d.index d.detail 0 0 d.ft) ∧
    (∀ limit window, ¬gone → ¬firn → ¬forGood → u.budget d.cls = some (limit, window) →
      let k := unitKey d.cls d.kind d.index
      let old := Tab.get (fun _ => BWin.none) s.flt.windows k
      let w := if old.count = 0 then ⟨0, limit, window⟩ else old
      let n := w.count + 1
      let put (w : BWin) : State := { u with flt := { u.flt with windows := Tab.set (fun _ => BWin.none) u.flt.windows k w } }
      (n ≤ w.limit ∨ w.limit = 0xFFFF → let v := put { w with count := n }
        (Tab.get (fun _ => false) s.flt.limited k = true → s.faultTake = v.raise aFltEvents (bit1 3)) ∧
        (Tab.get (fun _ => false) s.flt.limited k = false →
          s.faultTake = ({ v with flt := { v.flt with limited := Tab.set (fun _ => false) v.flt.limited k true } }).faultRecord
            d.cls d.kind 0 d.index d.detail n w.limit d.ft)) ∧
      (w.limit < n → w.limit ≠ 0xFFFF → retirable d.cls d.kind = true →
        s.faultTake = (put BWin.none).retire d.kind d.index d.cls 1 d.detail n w.limit) ∧
      (w.limit < n → w.limit ≠ 0xFFFF → retirable d.cls d.kind = false → d.cls ≠ 0x03 →
        s.faultTake = ((put BWin.none).faultRecord d.cls d.kind 3 d.index d.detail n w.limit d.ft).raise aFltEvents (bit1 1)) ∧
      (w.limit < n → w.limit ≠ 0xFFFF → d.cls = 0x03 → d.kind = uPll →
        s.faultTake = ((put BWin.none).faultRecord d.cls d.kind 1 d.index d.detail n w.limit d.ft).pllGiveUp (pllOf d.index))) ∧
    (¬gone → d.cls = 0x08 → s.inRime (d.detail.toNat % 2 ^ 21) = false →
      s.faultTake = (u.faultRecord d.cls d.kind 2 d.index d.detail 0 0 d.ft).failWord
        (d.detail.toNat % 2 ^ 21) d.index d.cls 2 d.detail)) ∧
  (∀ (s : State) (cls : BitVec 8) (kind : BitVec 4) (index : Nat), s.runs cFlt = true →
    ∃ t, exec (.budgetWindowClose cls kind index) s = .next t ∧
      Passes s waitFuel (fun u => u.windowOpen cls.toNat kind.toNat index = false ∨ u.clk.xoLost = true) t) ∧
  (∀ (s : State) (k : Nat), Tab.wf (fun _ => BWin.none) s.flt.windows = true → let t := s.msTick
    let w := Tab.get (fun _ => BWin.none) s.flt.windows k
    (∀ k, Tab.get (fun _ => false) t.flt.limited k = false) ∧ t.regs = s.regs ∧ t.firn.mem = s.firn.mem ∧
    (w.left ≤ 1 → Tab.get (fun _ => BWin.none) t.flt.windows k = BWin.none) ∧
    (1 < w.left → Tab.get (fun _ => BWin.none) t.flt.windows k = { w with left := w.left - 1 }) ∧
    (∀ (h : Hist), s.firn.hist.find? (fun h => h.word == k) = some h →
      (h.left ≤ 1 → t.firn.hist.find? (fun h => h.word == k) = some { h with count := 0, limit := 0, left := 0 }) ∧
      (1 < h.left → t.firn.hist.find? (fun h => h.word == k) = some { h with left := h.left - 1 }))) ∧
  (∀ s : State, let t := s.fltCycle
    let n := s.flt.timer + s.incN
    (s.clk.xoLost = true → t.flt.timer = s.flt.timer ∧ t.flt.windows = s.flt.windows ∧ t.flt.limited = s.flt.limited) ∧
    (s.clk.xoLost = false → t.flt.timer = n ∧
      (n / (1024000000 * 2 ^ 32) = s.flt.timer / (1024000000 * 2 ^ 32) → t.flt.windows = s.flt.windows ∧ t.firn = s.firn) ∧
      (n / (1024000000 * 2 ^ 32) ≠ s.flt.timer / (1024000000 * 2 ^ 32) →
        t.flt.windows = s.msTick.flt.windows ∧ t.flt.limited = [] ∧ t.firn = s.msTick.firn))) ∧
  (∀ (s : State) (line : Fin 64), s.runs 0x06 = true →
    let next := match (s.line line).padAt with | some c => c + 5 | none => 4
    (next ≤ s.now → exec (.padMismatch line) s = .next { s.setLine line { s.line line with padAt := some s.now } with
      flt := { s.flt with inbox := s.flt.inbox ++ [⟨0x1C, uLine, line, 0, false, s.ft64, s.flt.clock⟩] } }) ∧
    (s.now < next → ∃ t, exec (.padMismatch line) s = .next t ∧ let u := s.toCycle next
      (u.now < next → t = u) ∧ (next ≤ u.now → t = u.padBad line))) ∧
  (∀ (s : State) (link : Fin 9), s.runs 0x10 = true →
    ((s.txl link).st = .off → exec (.serializerLockLoss link) s = .next s) ∧
    ((s.txl link).st ≠ .off → ∃ t, exec (.serializerLockLoss link) s = .next t ∧ (t.txl link).unlocked = true ∧
      (t.txl link).lostAt = s.time.elapsed ∧ (t.txl link).st = (s.txl link).st ∧ t.flt.inbox = s.flt.inbox ++
        [⟨0x0D, if link = 8 then uPlink else uFast, if link = 8 then 0 else link, 0, false, s.ft64, s.flt.clock⟩]) ∧
    exec (.serializerRelock link) s = .next (s.setTxl link { s.txl link with unlocked := false })) ∧
  (∀ (s : State) (link : Fin 9), (s.relockTurn.txl link).unlocked = true ↔
    (s.txl link).unlocked = true ∧ s.time.elapsed < (s.txl link).lostAt + 10240000 * 2 ^ 32)

/-- A retirement marks its unit and adds a drain window that runs from D, and the event bit says so; every other unit but a companion
stays as it is. A sequencer's output is to be safe twelve core cycles after D; a DRAM channel that trains or is in use goes out of use,
with Moraine fenced; a region counts among the retired ones. FLT_RETIRE of a unit that may retire takes that decision for the next
core cycle. A drain window ends 600 CD_FLT cycles after D and is closed then; its row passes core cycles until it is, and leaves a unit
that has none as it is. -/
def Obligations.RetirementHolds : Prop :=
  (∀ (s : State) (kind index cls outcome : Nat) (detail : Word) (count limit : Nat) (later : Bool), index < 65536 →
    let t := s.retire kind index cls outcome detail count limit later
    t.isRetired kind index = true ∧ bitOf (t.reg aFltEvents) 0 = true ∧
    ⟨kind, index, s.ftOfEdge (16 * (s.now + if later then 1 else 0)), s.flt.clock + if later then s.fltStep else 0⟩ ∈
      t.flt.draining ∧
    (∀ m, m ∈ s.companions kind index → t.isRetired kind m = true) ∧
    (∀ k i, i < 65536 → (k, i) ≠ (kind, index) → (k = kind → i ∉ s.companions kind index) → t.isRetired k i = s.isRetired k i) ∧
    (∀ m, m ∈ s.flt.draining → m ∈ t.flt.draining) ∧
    t.firn.mem = s.firn.mem ∧ t.clk = s.clk ∧ t.hk = s.hk ∧ t.pins = s.pins ∧ t.pending = s.pending ∧ t.now = s.now ∧
    (kind = uFast → index < 8 → (t.seq index).retireAt = some (s.now + (if later then 1 else 0) + 12)) ∧
    (kind = uDram → index < 4 → t.mor.fenced = true ∧ let st := (s.chan index).st
      (st = .train ∨ st = .active ∨ st = .replay → (t.chan index).st = .retired) ∧
      (¬(st = .train ∨ st = .active ∨ st = .replay) → (t.chan index).st = st)) ∧
    (kind = uRegion → t.firn.retiredCount = s.firn.retiredCount + 1)) ∧
  (∀ (s : State) (k m : Nat), k < 32 → s.pairOn k = true → s.isRetired uLine (2 * k) = false → s.isRetired uLine (2 * k + 1) = false →
    ((s.companions uLine (2 * k) = [m] ↔ m = 2 * k + 1) ∧ (s.companions uLine (2 * k + 1) = [m] ↔ m = 2 * k))) ∧
  (∀ (s : State) (w : Wr) (r : RegRow), Written s w wFlt r w.value →
    let kind := bits w.value 28 4
    let index := bits w.value 0 16
    let u := wrote s w.rq wFlt r w.value
    s.mayRetire kind index = true ∧
    exec (.fltRetire w) s = .next ((u.countOcc 0x1D).retire kind index 0x1D 2 (BitVec.ofNat 32 (Requester.code w.rq)) 0 0 true)) ∧
  (∀ (s : State) (kind : BitVec 4) (index : BitVec 16), s.runs cFlt = true →
    (∃ t, exec (.drainWindowEnd kind index) s = .next t ∧ Passes s waitFuel (fun u =>
      u.flt.draining.any (fun d => d.kind == kind.toNat && d.index == index.toNat) = false ∨ u.windowStopped cFlt = true) t) ∧
    (∀ d, s.flt.draining = [d] → (s.flt.clock < d.at_ + 600 * fltUnit → s.drainsDue = s) ∧
      (d.at_ + 600 * fltUnit ≤ s.flt.clock → s.drainsDue = s.drainEnd d.kind d.index)) ∧
    (s.flt.draining.any (fun d => d.kind == kind.toNat && d.index == index.toNat) = true →
      ∃ t, s.drainEnd kind.toNat index.toNat = t ∧ t.isRetired kind.toNat index.toNat = s.isRetired kind.toNat index.toNat ∧
        t.flt.draining.any (fun d => d.kind == kind.toNat && d.index == index.toNat) = false ∧
        (∀ d, d ∈ s.flt.draining → ¬(d.kind = kind.toNat ∧ d.index = index.toNat) → d ∈ t.flt.draining) ∧
        t.firn.mem = s.firn.mem ∧ t.pending = s.pending) ∧
    (∀ d, s.flt.draining.find? (fun d => d.kind == kind.toNat && d.index == index.toNat) = some d →
      (kind = 0xB ∨ kind = 0x3 ∨ kind = 0x4 ∨ kind = 0x5 ∨ ((kind = 0x1 ∨ kind = 0x2) ∧ s.time.running = true)) →
      s.drainEnd kind.toNat index.toNat = { s with flt := { s.flt with
        draining := s.flt.draining.filter (fun d => !(d.kind == kind.toNat && d.index == index.toNat)) } }))

/-! Reset and bring-up (chapter 15), the sensors and the TAP (chapter 16). -/

/-- POR and FULL clear every block's state; a POR also returns the TAP to IDCODE. A CORE reset clears the playing and the fabric
blocks, Moraine, the clocks but the HPLL and the registers of its column, and keeps Firn, the fault engine, housekeeping and the
pins; a retired unit stays retired. A PCIE reset clears the host interface and the arms alone. POR_N low and a supply out of range
trigger POR, the pulses FULL and CORE, a narrower reset during a wider one the wider one again. A CORE or FULL reset is released when
its hold of 2 or 20 µs has passed, a POR with the straps sampled; the release starts the HPLL where its reference is there. The row
of the release passes core cycles until a CORE or FULL reset is released. The model's choice for a CORE release is in log 26. -/
def Obligations.ResetsClearAndRelease : Prop :=
  (∀ (s : State) (k : RstKind), let t := s.fullWipe k
    t.hk = { State.reset.hk with inReset := some k, resetAt := s.time.elapsed } ∧ t.firn = State.reset.firn ∧ t.flt = State.reset.flt ∧ t.seqs = [] ∧
    t.tx = [] ∧ t.nzl = State.reset.nzl ∧ t.hif = State.reset.hif ∧ t.tla = State.reset.tla ∧ t.cle = State.reset.cle ∧
    t.ang = State.reset.ang ∧ t.ctxs = [] ∧ t.shadow = [] ∧ t.time = { State.reset.time with
      core := s.time.core, elapsed := s.time.elapsed } ∧
    (∀ a, a ≠ wHk + 0x100 → t.reg a = State.reset.reg a) ∧ t.reg (wHk + 0x100) = s.reg (wHk + 0x100) ∧
    (∀ n, (t.chan n).st = .off) ∧ t.mor.mem = State.reset.mor.mem ∧ t.top = { State.reset.top with strap := s.top.strap } ∧
    t.pins.tap = (if k = .por then .idcode else s.pins.tap) ∧ t.mkr.lines = State.reset.mkr.lines ∧ t.mkr.pins = s.mkr.pins ∧
    t.out = s.out ∧ t.pending = s.pending ∧ t.clk = { State.reset.clk with ref10m := s.clk.ref10m, xoLost := s.clk.xoLost }) ∧
  (∀ s : State, let t := s.coreWipe
    (∀ a, coreClears a = true → t.reg a = State.reset.reg a) ∧
    (∀ a, coreClears a = false → t.reg a = s.reg a) ∧
    t.firn = s.firn ∧ t.flt = s.flt ∧ t.clk.hpll = s.clk.hpll ∧ t.clk.spll = State.reset.clk.spll ∧ t.clk.table = [] ∧
    t.hk.fw = s.hk.fw ∧ t.hk.fixed = s.hk.fixed ∧ t.hk.done = 0 ∧ t.hk.inReset = some .core ∧ t.hif.rings = [] ∧ t.hif.up = s.hif.up ∧
    t.hif.decoding = s.hif.decoding ∧ t.tla = State.reset.tla ∧ t.cle = State.reset.cle ∧ t.time.queue = [] ∧ t.time.ftValid = false ∧
    (∀ w rq, (t.ctx w rq).arm = false) ∧ t.pins = s.pins ∧ (∀ kind i, t.isRetired kind i = s.isRetired kind i) ∧
    (s.flt.retired = [] → t.seqs = [] ∧ (∀ n, (t.chan n).st = .off) ∧ t.nzl = State.reset.nzl) ∧
    (∀ n, n < 8 → (uFast * 65536 + n, true) ∈ s.flt.retired → (t.seq n).st = .retired ∧ (t.seq n).force = .safe)) ∧
  (∀ s : State,
    exec .por s = .next (({ s with pins := { s.pins with porN := false } }).fullWipe .por)) ∧
  (∀ (s : State) (i : Fin 11),
    exec (.supplyExcursion i) s = .next (({ s with pins := { s.pins with supplyOut := true } }).fullWipe .por)) ∧
  (∀ (s : State) (w : Wr) (r : RegRow),
    (Written s w (wHk + 8) r (fixed w 2 2).value →
      exec (.fullReset w) s = .next ((wrote s w.rq (wHk + 8) r (fixed w 2 2).value).fullWipe .full)) ∧
    (Written s w (wHk + 8) r (fixed w 3 1).value →
      exec (.coreReset w) s = .next ((wrote s w.rq (wHk + 8) r (fixed w 3 1).value).coreWipe))) ∧
  (∀ s : State, s.doReset .core = (match s.hk.inReset with
      | some .por => s.fullWipe .por
      | some .full => s.fullWipe .full
      | _ => s.coreWipe)) ∧
  (∀ s : State, ∃ t, exec .pcieReset s = .next t ∧
    t.hif = { State.reset.hif with decoding := s.hif.decoding } ∧ (∀ a, a / 0x10000 = 1 → t.reg a = State.reset.reg a) ∧
    (∀ a, a / 0x10000 ≠ 1 → t.reg a = s.reg a) ∧ (∀ w rq, (t.ctx w rq).arm = false) ∧ (∀ w, t.ctx w .host = .reset) ∧
    t.top = { s.top with cycles := 0 } ∧ t.seqs = s.seqs ∧ t.tx = s.tx ∧ t.mkr = s.mkr ∧ t.firn = s.firn ∧ t.mor = s.mor ∧
    t.tla = s.tla ∧ t.cle = s.cle ∧ t.flt = s.flt ∧ t.hk = s.hk ∧ t.clk = s.clk ∧ t.time.ft = s.time.ft ∧
    t.time.queue.length = s.time.queue.length ∧ t.time.queue.map (fun o => o.t) = s.time.queue.map (fun o => o.t)) ∧
  (∀ (s : State) (straps : BitVec 16),
    (s.hk.inReset = none → exec (.resetRelease straps) s = .next s) ∧
    (s.hk.inReset = some .por → s.pins.tripped = true → exec (.resetRelease straps) s = .next s) ∧
    (let held (u : State) : Prop := u.hk.inReset = some .core ∨ u.hk.inReset = some .full
     held s → ∃ k, k ≤ waitFuel ∧ exec (.resetRelease straps) s = .next (s.advance k) ∧ (k = waitFuel ∨ ¬held (s.advance k)) ∧
      ∀ j, j < k → held (s.advance j)) ∧
    (∀ k fu, s.hk.inReset = some k → (k = .core ∧ fu = 2048000) ∨ (k = .full ∧ fu = 20480000) →
      (s.time.elapsed < s.hk.resetAt + fu * 2 ^ 32 → s.resetDue k = s) ∧
      (s.hk.resetAt + fu * 2 ^ 32 ≤ s.time.elapsed → s.resetDue k = (s.release s.top.strap).autoBringup)) ∧
    (s.hk.inReset = some .full →
      s.coreCycle = ({ s with time := { s.time with elapsed := s.time.elapsed + s.time.inc.toNat } } : State).resetDue .full) ∧
    (s.hk.inReset = some .full → s.pllOn .hpll = true → (s.pll .hpll).st = .off → (s.pll .hpll).refOk = false →
      (s.release straps).autoBringup = { s with hk := { s.hk with inReset := none, stage := 0 } }) ∧
    (s.hk.inReset = some .por → s.pins.tripped = false → s.pllOn .hpll = true → (s.pll .hpll).st = .off → ∃ t, exec (.resetRelease straps) s = .next t ∧
      t.hk.inReset = none ∧ t.top.strap = straps ∧ t.pins.porN = true ∧ t.pins.supplyOut = false ∧
      t.pins.tap ≠ .extest ∧ t.pins.tap ≠ .clamp ∧ t.pins.tap ≠ .highz ∧
      (if (s.pll .hpll).refOk then (t.pll .hpll).st = .search ∧ t.hk.stage = 1 else (t.pll .hpll).st = .off ∧ t.hk.stage = 0)) ∧
    (s.hk.inReset = some .core → bitOf s.top.strap 12 = false → bitOf s.top.strap 3 = false →
      (s.release straps).autoBringup = { s with hk := { s.hk with
        inReset := none
        stage := if s.hk.fw = true ∧ s.hk.bring = none ∧ 3 < s.hk.stage.toNat then 4 else s.hk.stage } }))

/-- FIRN_INIT writes zeros and makes the BARs decode after 8,192 bank cycles, and its row passes core cycles until then. A flash load of either image starts the firmware; two that fail, and host boot by
strap, wait for the host, whose load starts it or is recorded as failed. BASE_READY follows a load. BRINGUP is out of order before
BASE_READY, for SPLL while ticks run, and for JESD or FABRIC without SPLL; a rate of 3 is a bad argument; stages all completed lead to
READY at once; the SPLL stage of an enabled one starts with the FPLL's and, by AUTO, by itself. A stage has 1 ms for a PLL, 10 ms for
JESD, 20 ms to the first link UP and 200 ms from there; where its time runs out it ends BRINGUP with its code and what has completed,
but FABRIC, where no link came up, completes without fabric. The row of a stage's end passes core cycles until the stage has ended. -/
def Obligations.FirmwareLoadsAndBringUpRuns : Prop :=
  (∀ s : State,
    (s.hk.stage = stFirnInit → ∃ t, exec .firnInit s = .next t ∧ Passes s waitFuel (fun u => u.hk.stage ≠ stFirnInit) t) ∧
    (s.hk.stage = stFirnInit → s.time.elapsed < s.hk.since + s.firnInitTime → s.firnInitTurn = s) ∧
    (s.hk.stage = stFirnInit → s.hk.inReset = none → s.hk.since + s.firnInitTime ≤ s.time.elapsed → let t := s.firnInitTurn
      t.firn.mem = [] ∧ t.firn.poison = [] ∧ t.tla.bank0 = TBank.reset ∧ t.tla.bank1 = TBank.reset ∧ t.cle.coef = [] ∧ t.hif.decoding = true ∧
      t.hk = { s.hk with stage := stFwLoad, hostBoot := bitOf s.top.strap 0 } ∧ t.regs = s.regs ∧ t.clk = s.clk ∧ t.time = s.time) ∧
    (s.hk.stage ≠ stFirnInit → exec .firnInit s = .next s) ∧
    (s.clk.hpllXo = false → s.firnInitTime = 8192 * 1024000000000 * 2 ^ 32 / 1200000000)) ∧
  (∀ s : State, s.runs cHk = true → s.hk.stage = stFwLoad → s.hk.fw = false → s.hk.hostBoot = false →
    exec (.fwLoad .image0) s = .next { s with hk := { s.hk with fw := true } } ∧
    exec (.fwLoad .image1) s = .next { s with hk := { s.hk with fw := true } } ∧
    exec (.fwLoad .bothFailed) s = .next { s with hk := { s.hk with
      hostBoot := true
      failStage := stFwLoad
      failCode := 0x02 } }) ∧
  (∀ (s : State) (w : Wr) (r : RegRow) (good : Bool),
    Written s w (wHk + 0x14) r (fixed w 0x80000000 0x80000000).value →
    let u := wrote s w.rq (wHk + 0x14) r (fixed w 0x80000000 0x80000000).value
    (s.hk.hostBoot = false → exec (.hostBootGo w good) s = .next u) ∧
    (s.hk.hostBoot = true → exec (.hostBootGo w true) s = .next { u with hk := { u.hk with fw := true, hostBoot := false } } ∧
      exec (.hostBootGo w false) s = .next { u with hk := { u.hk with failStage := stFwLoad, failCode := 0x03 } })) ∧
  (∀ (s : State) (version : Word) (dimms : List DimmRead), s.runs cHk = true →
    (s.hk.stage ≠ stFwLoad ∨ s.hk.fw = false → exec (.baseReady version dimms) s = .next s) ∧
    (s.hk.stage = stFwLoad → s.hk.fw = true → bitOf s.top.strap 12 = false → dimms.length ≤ 4 →
      ∃ t, exec (.baseReady version dimms) s = .next t ∧ t.hk = { s.hk with stage := stBase } ∧ t.top.fwVersion = version ∧
      t.top.linkPresent = BitVec.ofNat 8 (bits s.top.strap 4 8) ∧ t.top.firnMib = 128 ∧
      (bitOf s.top.strap 3 = true → ∀ n : Fin 4, t.flag (aCh n) 4 = true) ∧ (bitOf s.top.strap 3 = false → (∀ n : Fin 4, s.flag (aCh n) 0 = false) → t.regs = s.regs) ∧
      (∀ n : Fin 4, dimms[n.val]? = some .unsupported → (t.chan n).dimm.fitted = true ∧ (t.chan n).dimm.capGiB = none ∧
        ⟨0x09, uDram, n, 0, false, s.ft64, s.flt.clock⟩ ∈ t.flt.inbox) ∧
      (∀ n : Fin 4, dimms[n.val]? = some .absent → (t.chan n).dimm.fitted = false ∧ bitOf t.top.morPresent n = false)) ∧
    (s.hk.stage = stFwLoad → s.hk.fw = true → s.hk.busy = false → bitOf s.top.strap 12 = true → bitOf s.top.strap 3 = false →
      (∀ n : Fin 4, s.flag (aCh n) 4 = false) → s.time.running = false → s.hk.done = 0 → s.clk.spllXo = true →
      s.clk.fpll.st ≠ .locked → s.clk.fpll.st ≠ .holdover →
      ∃ t, exec (.baseReady version dimms) s = .next t ∧ t.hk.busy = true ∧ t.hk.stage = 5 ∧
        t.hk.bring = some ⟨0xF, 0xF, 0x7FF⟩)) ∧
  (∀ (s : State) (rq : Requester) (seq : BitVec 8) (r : RegRow), s.runs cHk = true →
    Written s ⟨rq, 0xF, mbWord 1 seq⟩ (wHk + 0x20) r (mbWord 1 seq) →
    let v := wrote s rq (wHk + 0x20) r (mbWord 1 seq)
    let u := { v with hk := { v.hk with busy := true, cmd := some 1, seq := seq } }
    let arg := s.mbArg 0
    let needs := (bitOf arg 2 = true ∨ bitOf arg 3 = true) ∧ bitOf arg 0 = false ∧ bitOf s.hk.done 0 = false
    (s.hk.stage.toNat < 4 ∨ (bitOf arg 0 = true ∧ s.time.running = true) ∨ needs →
      exec (.bringup rq 0xF seq) s = .next (u.mbEnd 4)) ∧
    (4 ≤ s.hk.stage.toNat → ¬(bitOf arg 0 = true ∧ s.time.running = true) → ¬needs →
      (bits arg 8 2 = 3 → exec (.bringup rq 0xF seq) s = .next (u.mbFail 2 0)) ∧
      (bits arg 8 2 ≠ 3 → (∀ n : Fin 4, s.flag (aCh n) 4 = false) →
        (BitVec.ofNat 4 (bits arg 0 4) &&& ~~~ s.hk.done = 0 → exec (.bringup rq 0xF seq) s =
          .next ((({ u with hk := { u.hk with bring := none, stage := 9 } }).setRes 0 s.hk.done.toNat).mbEnd 0)) ∧
        (bitOf arg 0 = true → bitOf s.hk.done 0 = false → s.clk.spllXo = true → s.clk.fpll.st ≠ .locked →
          s.clk.fpll.st ≠ .holdover → ∃ t, exec (.bringup rq 0xF seq) s = .next t ∧ t.hk.busy = true ∧ t.hk.stage = 5 ∧
            t.hk.bring = some ⟨BitVec.ofNat 4 (bits arg 0 4) &&& ~~~ s.hk.done, arg, s.mbArg 1⟩ ∧
            (s.clk.fpll.st = .off → s.reg (aPll .fpll) = State.reset.reg (aPll .fpll) → t.flag (aPll .fpll) 0 = true))))) ∧
  (∀ s : State, s.runs cHk = true → (s.hk.bring = none → exec .bringupStageTimeout s = .next s) ∧
    ∃ t, exec .bringupStageTimeout s = .next t ∧
      Passes s waitFuel (fun u => u.hk.bring.bind Bring.current ≠ s.hk.bring.bind Bring.current ∨ u.stageLimit = none) t) ∧
  (∀ s : State, let u := s.bringCheck
    (u.stageLimit = none → s.bringTurn = u) ∧
    ∀ t, u.stageLimit = some t → (u.time.elapsed < t → s.bringTurn = u) ∧ (t ≤ u.time.elapsed → s.bringTurn = u.stageTimeout)) ∧
  (∀ (s : State) (b : Bring) (i : Nat), s.hk.bring = some b → b.current = some i →
    let ms (n : Nat) : Nat := n * (1024000000 * 2 ^ 32)
    (i = 0 → s.stageLimit = some (s.hk.since + ms 1)) ∧
    (i = 1 → s.stageLimit = if s.clk.mpll.st ≠ .locked then some (s.hk.since + ms 1) else none) ∧
    (i = 2 → s.stageLimit = some (s.hk.since + ms 10)) ∧
    (i = 3 → s.hk.upAt = none → s.stageLimit = some (s.hk.since + ms 20)) ∧
    (∀ t, i = 3 → s.hk.upAt = some t → s.stageLimit = some (t + ms 200)) ∧
    let fails (u : State) (code : Nat) : State := (({ u with hk := { u.hk with
      bring := none
      sysref := none
      failStage := BitVec.ofNat 4 (5 + i)
      failCode := BitVec.ofNat 8 code
      stage := stBase } }).setRes 0 (s.hk.done.toNat + 2 ^ (8 + i) + code * 2 ^ 16)).mbEnd 3
    (i = 0 → s.clk.fpll.st ≠ .locked → s.clk.fpll.st ≠ .holdover → s.stageTimeout = fails s 5) ∧
    (i = 0 → s.clk.fpll.st = .locked ∨ s.clk.fpll.st = .holdover → s.stageTimeout = fails s 4) ∧
    (i = 1 → s.clk.mpll.st ≠ .locked → s.stageTimeout = fails s 6) ∧
    (i = 2 → s.stageTimeout = fails (s.setRes 2 (s.inData (b.arg1.setWidth 11))) 8) ∧
    (i = 3 → s.hk.upAt.isSome = true → s.stageTimeout = fails s 9) ∧
    (i = 3 → s.hk.upAt = none → let t := s.stageTimeout
      t.hk.noFabric = true ∧ t.hk.bring = none ∧ t.hk.stage = 9 ∧ t.hk.result = 0 ∧ t.hk.busy = false ∧ t.hk.done = s.hk.done ||| 8 ∧ t.regs = (s.raise (wHk + 0x34) (bit1 30)).regs))

/-- SYSREF is refused where its FT is not valid or too close and where a masked SY output has no pulses; otherwise it waits for its
boundary, issues there once and completes sixteen core cycles later with the links that realigned and the FT of that boundary. A
fixed table of a wrong length or past the end of Firn is a bad argument, and one of good entries replaces the table that was. An
unlisted opcode is refused. Until firmware runs these wait in the mailbox.
Readings move the extremes, the hottest sensor and THERM_N; supply readings outside their limits set their bits. A trip holds a
power-on reset until it is released. -/
def Obligations.MailboxAndSensors : Prop :=
  (∀ (s : State) (rq : Requester) (op seq : BitVec 8) (r : RegRow), s.runs cHk = true →
    Written s ⟨rq, 0xF, mbWord op seq⟩ (wHk + 0x20) r (mbWord op seq) →
    let v := wrote s rq (wHk + 0x20) r (mbWord op seq)
    let u := { v with hk := { v.hk with busy := true, cmd := none, seq := seq } }
    let row := if op = 2 then exec (.sysref rq 0xF seq) s else if op = 3 then exec (.fixedTable rq 0xF seq) s
      else exec (.badOpcode rq 0xF op seq) s
    (s.hk.fw = false → op ≠ 1 → row = .next { v with hk := { v.hk with busy := true, cmd := some op, seq := seq } }) ∧
    (s.hk.fw = true →
    let named := bitOf (s.mbArg 2) 16 = true
    let ft : FT80 := ((s.mbArg 2).setWidth 16 : BitVec 16) ++ (s.mbArg 1 ++ s.mbArg 0)
    let sy := BitVec.ofNat 12 (bits (s.mbArg 3) 16 12)
    let links : BitVec 11 := (s.mbArg 3).setWidth 11
    (op ≠ 1 → op ≠ 2 → op ≠ 3 → row = .next (u.mbEnd 1)) ∧
    (op = 2 → named → s.time.ftValid = false → row = .next (u.mbFail 6 0)) ∧
    (op = 2 → named → s.time.ftValid = true → ftScale ft < s.ftN + 10240000 * 2 ^ 32 → row = .next (u.mbFail 5 0)) ∧
    (op = 2 → ¬named ∨ (s.time.ftValid = true ∧ s.ftN + 10240000 * 2 ^ 32 ≤ ftScale ft) →
      (s.sysrefBad sy links ≠ 0 → row = .next (u.mbFail 7 (s.sysrefBad sy links))) ∧
      (s.sysrefBad sy links = 0 → (∃ j, j < 12 ∧ bitOf sy j = true ∧ bits (s.syLiveAt j) 24 8 = 0) →
        row = .next (u.mbFail 2 3)) ∧
      (s.sysrefBad sy links = 0 → (∀ j, j < 12 → bitOf sy j = true → bits (s.syLiveAt j) 24 8 ≠ 0) →
        row = .next { u with hk := { u.hk with
          sysref := some ⟨if bitOf (s.mbArg 2) 16 then some ft else none, sy, links, false, none⟩ } })) ∧
    (op = 3 → s.mbArg 1 = 0 ∨ 1024 < (s.mbArg 1).toNat → row = .next (u.mbFail 2 1)) ∧
    (op = 3 → 1 ≤ (s.mbArg 1).toNat → (s.mbArg 1).toNat ≤ 1024 →
      2 ^ 27 < (s.mbArg 0).toNat * 64 + 8 * (s.mbArg 1).toNat → row = .next (u.mbFail 2 0)) ∧
    (op = 3 → 1 ≤ (s.mbArg 1).toNat → (s.mbArg 1).toNat ≤ 1024 →
      (s.mbArg 0).toNat * 64 + 8 * (s.mbArg 1).toNat ≤ 2 ^ 27 →
      let n := (s.mbArg 1).toNat
      let got := u.fixedRead (s.mbArg 0).toNat (cdiv (8 * n) 64)
      let l := (List.range n).map (fun i => BitVec.ofNat 64 (leNat ((got.1.drop (8 * i)).take 8)))
      (l.any fixedBad = false → row =
        .next (({ got.2 with hk := { got.2.hk with fixed := l } }).mbEnd 0)) ∧
      (∀ i, (List.range n).find? (fun i => fixedBad (l.getD i 0)) = some i →
        row = .next (got.2.mbFail 2 i))))) ∧
  (∀ (s : State) (x : Sysref), s.hk.sysref = some x →
    (∀ y, x.issued = some y → s.runs cHk = true → exec .sysrefEvent s = .next s) ∧
    (x.issued = none → x.at80 = none → s.runs cHk = true → exec .sysrefEvent s = .next s.coreCycle) ∧
    (∀ t, x.issued = none → x.at80 = some t → s.runs cHk = true → ftScale t ≤ s.ftN → exec .sysrefEvent s = .next s.coreCycle) ∧
    (∀ t, x.issued = none → x.at80 = some t → s.runs cHk = true → s.ftN < ftScale t →
      exec .sysrefEvent s = .next (s.toFt (ftScale t))) ∧
    (∀ t, x.issued = none → x.at80 = some t → s.ftN < ftScale t → s.sysrefCycle = s) ∧
    (x.issued = none → x.links = 0 → x.sy = 0 → (x.at80 = none ∨ ∃ t, x.at80 = some t ∧ ftScale t ≤ s.ftN) →
      s.sysrefCycle = { s with hk := { s.hk with
        sysref := some { x with issued := some (s.now, 0, s.ft64) }
        since := if x.byBringup then s.time.elapsed else s.hk.since } }) ∧
    (∀ c m ft, x.issued = some (c, m, ft) → s.now < c + 16 → s.sysrefCycle = s) ∧
    (∀ c m ft, x.issued = some (c, m, ft) → c + 16 ≤ s.now → x.byBringup = false →
      let u := { s with hk := { s.hk with sysref := none } }
      s.sysrefCycle = ((((u.setRes 0 m).setRes 1 (ft.toNat % 2 ^ 32)).setRes 2 (ft.toNat / 2 ^ 32)).mbEnd 0))) ∧
  (∀ (s : State) (l : List (BitVec 12)), s.runs cHk = true →
    (s.hk.fw = false ∨ l.length ≠ 8 → exec (.thermalReading l) s = .next s) ∧
    (s.hk.fw = true → l.length = 8 → ∃ t, exec (.thermalReading l) s = .next t ∧ t.regs = s.regs ∧ t.hk = s.hk ∧
      (∀ i : Fin 8, ∀ v, l[i.val]? = some v →
        let m := Tab.get (fun _ => Meas.reset) s.pins.temps i
        let k := Tab.get (fun _ => Meas.reset) t.pins.temps i
        k.now = v.toInt ∧ (m.seen = true → k.min = min m.min v.toInt ∧ k.max = max m.max v.toInt) ∧
        (m.seen = false → k.min = v.toInt ∧ k.max = v.toInt) ∧ v.toInt ≤ t.pins.maxT.toInt) ∧
      (∃ v, l[t.pins.hot.toNat]? = some v ∧ v.toInt = t.pins.maxT.toInt) ∧
      (s.flag (wHk + 0x104) 16 = false → t.pins.thermN = true) ∧
      (s.flag (wHk + 0x104) 16 = true → 8 * (s.fld (wHk + 0x104) 0 8 : Int) ≤ t.pins.maxT.toInt → t.pins.thermN = false))) ∧
  (∀ (s : State) (l : List (BitVec 16)), s.runs cHk = true →
    (s.hk.fw = false ∨ l.length ≠ 11 → exec (.supplyMeasurement l) s = .next s) ∧
    (s.hk.fw = true → l.length = 11 → ∃ t, exec (.supplyMeasurement l) s = .next t ∧ t.hk = s.hk ∧
      (∀ i : Fin 11, ∀ v, l[i.val]? = some v → bitOf t.pins.supplyNow i = supplyOff i v.toNat ∧
        (Tab.get (fun _ => Meas.reset) t.pins.supplies i).now = v.toNat ∧
        (supplyOff i v.toNat = true → bitOf (t.reg (wHk + 0x108)) (16 + i) = true)) ∧
      (∀ i, i < 16 → bitOf (t.reg (wHk + 0x108)) i = bitOf (s.reg (wHk + 0x108)) i))) ∧
  (∀ s : State,
    (∃ t, exec .thermalTrip s = .next t ∧ t.pins.tripped = true ∧ t.pins.thermN = false ∧ t.hk.inReset = some .por ∧
      bitOf (t.reg (wHk + 0x100)) 31 = true ∧ t.seqs = [] ∧ t.firn = State.reset.firn ∧ t.top.strap = s.top.strap) ∧
    exec .tripRelease s = .next { s with pins := { s.pins with
      tripped := false
      thermN := if s.pins.tripped then true else s.pins.thermN } })

/-- IDCODE and the TAP's reset select the identification word; SAMPLE/PRELOAD and EXTEST the boundary register, whose sample is a free
value (log 7); EXTEST, CLAMP and HIGHZ outside a held POR with every supply in range act as BYPASS. No instruction of the TAP touches a
register, a store or the core. -/
def Obligations.TapTakesItsInstructions : Prop :=
  ∀ s : State,
    let tap (u : State) (i : Tap) (v : Word) : State := { u with pins := { u.pins with tap := i, tdo := v } }
    let sampled : Word := (Config.freeBits s.free).setWidth 32
    exec .idcode s = .next (tap s .idcode 0x116805AB) ∧ exec .tapReset s = .next (tap s .idcode 0x116805AB) ∧
    exec .bypass s = .next (tap s .bypass 0) ∧
    exec .samplePreload s = .next (tap { s with free := s.free + 1 } .samplePreload sampled) ∧
    (s.pins.porN = false → s.pins.supplyOut = false →
      exec .extest s = .next (tap { s with free := s.free + 1 } .extest sampled) ∧
      exec .clamp s = .next (tap s .clamp 0) ∧ exec .highz s = .next (tap s .highz 0)) ∧
    (s.pins.porN = true ∨ s.pins.supplyOut = true →
      exec .extest s = .next (tap s .bypass 0) ∧ exec .clamp s = .next (tap s .bypass 0) ∧
      exec .highz s = .next (tap s .bypass 0))

end
end

