-- ==== Sys2Proof/Laws/Tab.lean ====
section
/-!
SUPPORT. Laws of sparse tables: what reading finds after a write, and that every operation keeps the canonical form.
-/

namespace Sys2Proof.Machine

variable {α : Type}

theorem Tab.wfFrom_mono [DecidableEq α] {d : Nat → α} {m : Tab α} {lo lo' : Nat} (hl : lo' ≤ lo)
    (h : Tab.wfFrom d lo m = true) : Tab.wfFrom d lo' m = true := by
  cases m with
  | nil => rfl
  | cons e m =>
    obtain ⟨k, v⟩ := e
    simp only [Tab.wfFrom, Bool.and_eq_true, decide_eq_true_eq] at h ⊢
    exact ⟨⟨by omega, h.1.2⟩, h.2⟩

theorem Tab.erase_wfFrom [DecidableEq α] {d : Nat → α} {m : Tab α} {lo k : Nat} (h : Tab.wfFrom d lo m = true) :
    Tab.wfFrom d lo (Tab.erase m k) = true := by
  induction m generalizing lo with
  | nil => rfl
  | cons e m ih =>
    obtain ⟨k', v⟩ := e
    simp only [Tab.wfFrom, Bool.and_eq_true, decide_eq_true_eq] at h
    simp only [Tab.erase]
    split
    · exact Tab.wfFrom_mono (by omega) (ih h.2)
    · simp only [Tab.wfFrom, Bool.and_eq_true, decide_eq_true_eq]
      exact ⟨h.1, ih h.2⟩

theorem Tab.insert_wfFrom [DecidableEq α] {d : Nat → α} {m : Tab α} {lo k : Nat} {v : α} (h : Tab.wfFrom d lo m = true)
    (hl : lo ≤ k) (hv : v ≠ d k) : Tab.wfFrom d lo (Tab.insert m k v) = true := by
  induction m generalizing lo with
  | nil => simp [Tab.insert, Tab.wfFrom, hl, hv]
  | cons e m ih =>
    obtain ⟨k', v'⟩ := e
    have hw := h
    simp only [Tab.wfFrom, Bool.and_eq_true, decide_eq_true_eq] at h
    simp only [Tab.insert]
    split
    · next hk =>
      subst hk
      simp only [Tab.wfFrom, Bool.and_eq_true, decide_eq_true_eq]
      exact ⟨⟨hl, hv⟩, h.2⟩
    · split
      · next hk =>
        simp only [Tab.wfFrom, Bool.and_eq_true, decide_eq_true_eq]
        exact ⟨⟨hl, hv⟩, ⟨by omega, h.1.2⟩, h.2⟩
      · simp only [Tab.wfFrom, Bool.and_eq_true, decide_eq_true_eq]
        exact ⟨h.1, ih h.2 (by omega)⟩

/-- Writing an entry keeps the canonical form. -/
theorem Tab.set_wf [DecidableEq α] {d : Nat → α} {m : Tab α} {k : Nat} {v : α} (h : Tab.wf d m = true) :
    Tab.wf d (Tab.set d m k v) = true := by
  unfold Tab.set
  split
  · exact Tab.erase_wfFrom h
  · next hv => exact Tab.insert_wfFrom h (Nat.zero_le k) hv

/-- Keeping some of the entries keeps the canonical form. -/
theorem Tab.filter_wfFrom [DecidableEq α] {d : Nat → α} {m : Tab α} {lo : Nat} (f : Nat × α → Bool)
    (h : Tab.wfFrom d lo m = true) : Tab.wfFrom d lo (m.filter f) = true := by
  induction m generalizing lo with
  | nil => rfl
  | cons e m ih =>
    obtain ⟨k, v⟩ := e
    simp only [Tab.wfFrom, Bool.and_eq_true, decide_eq_true_eq] at h
    simp only [List.filter]
    split
    · simp only [Tab.wfFrom, Bool.and_eq_true, decide_eq_true_eq]
      exact ⟨h.1, ih h.2⟩
    · exact Tab.wfFrom_mono (by omega) (ih h.2)

theorem Tab.filter_wf [DecidableEq α] {d : Nat → α} {m : Tab α} (f : Nat × α → Bool) (h : Tab.wf d m = true) :
    Tab.wf d (m.filter f) = true := Tab.filter_wfFrom f h

theorem Tab.get_insert {d : Nat → α} {m : Tab α} {k : Nat} {v : α} : Tab.get d (Tab.insert m k v) k = v := by
  induction m with
  | nil => simp [Tab.insert, Tab.get]
  | cons e m ih =>
    obtain ⟨k', v'⟩ := e
    simp only [Tab.insert]
    split
    · simp [Tab.get]
    · split
      · simp [Tab.get]
      · next h1 h2 => simp [Tab.get, h1, ih]

theorem Tab.get_insert_ne {d : Nat → α} {m : Tab α} {k j : Nat} {v : α} (h : j ≠ k) :
    Tab.get d (Tab.insert m k v) j = Tab.get d m j := by
  induction m with
  | nil => simp only [Tab.insert, Tab.get, if_neg h]
  | cons e m ih =>
    obtain ⟨k', v'⟩ := e
    simp only [Tab.insert]
    split
    · next hk => subst hk; simp [Tab.get, h]
    · split
      · simp only [Tab.get, if_neg h]
      · simp only [Tab.get]
        rw [ih]

theorem Tab.get_erase {d : Nat → α} {m : Tab α} {k : Nat} : Tab.get d (Tab.erase m k) k = d k := by
  induction m with
  | nil => rfl
  | cons e m ih =>
    obtain ⟨k', v'⟩ := e
    simp only [Tab.erase]
    split
    · exact ih
    · next h1 => simp only [Tab.get, if_neg h1]; exact ih

theorem Tab.get_erase_ne {d : Nat → α} {m : Tab α} {k j : Nat} (h : j ≠ k) :
    Tab.get d (Tab.erase m k) j = Tab.get d m j := by
  induction m with
  | nil => rfl
  | cons e m ih =>
    obtain ⟨k', v'⟩ := e
    simp only [Tab.erase]
    split
    · next hk =>
      subst hk
      simp only [Tab.get, if_neg h]
      exact ih
    · simp only [Tab.get]
      rw [ih]

/-- An entry reads as what was written last. -/
@[simp] theorem Tab.get_set [DecidableEq α] {d : Nat → α} {m : Tab α} {k : Nat} {v : α} :
    Tab.get d (Tab.set d m k v) k = v := by
  unfold Tab.set
  split
  · next hv => rw [Tab.get_erase, hv]
  · exact Tab.get_insert

/-- A write leaves every other entry alone. -/
theorem Tab.get_set_ne [DecidableEq α] {d : Nat → α} {m : Tab α} {k j : Nat} {v : α} (hj : j ≠ k) :
    Tab.get d (Tab.set d m k v) j = Tab.get d m j := by
  unfold Tab.set
  split
  · exact Tab.get_erase_ne hj
  · exact Tab.get_insert_ne hj

theorem Tab.insert_insert {m : Tab α} {k : Nat} {v w : α} : Tab.insert (Tab.insert m k v) k w = Tab.insert m k w := by
  induction m with
  | nil => simp [Tab.insert]
  | cons e m ih =>
    obtain ⟨k', v'⟩ := e
    simp only [Tab.insert]
    split
    · simp [Tab.insert]
    · split
      · simp [Tab.insert]
      · next h1 h2 => simp [Tab.insert, h1, h2, ih]

theorem Tab.erase_insert {m : Tab α} {k : Nat} {v : α} : Tab.erase (Tab.insert m k v) k = Tab.erase m k := by
  induction m with
  | nil => simp [Tab.insert, Tab.erase]
  | cons e m ih =>
    obtain ⟨k', v'⟩ := e
    simp only [Tab.insert]
    split
    · next h => simp [Tab.erase, h]
    · split
      · next h1 h2 => simp [Tab.erase, h1]
      · next h1 h2 => simp [Tab.erase, h1, ih]

/-- Of two writes of an entry the last counts, where the first wrote something that is listed. -/
theorem Tab.set_set [DecidableEq α] {d : Nat → α} {m : Tab α} {k : Nat} {v w : α} (h : v ≠ d k) :
    Tab.set d (Tab.set d m k v) k w = Tab.set d m k w := by
  unfold Tab.set
  rw [if_neg h]
  split
  · exact Tab.erase_insert
  · exact Tab.insert_insert

/-- A key that does not read as unlisted is listed. -/
theorem Tab.mem_of_get_ne {d : Nat → α} {m : Tab α} {k : Nat} (h : Tab.get d m k ≠ d k) : ∃ v, (k, v) ∈ m := by
  induction m with
  | nil => exact absurd rfl h
  | cons e m ih =>
    obtain ⟨k', v'⟩ := e
    simp only [Tab.get] at h
    split at h
    · next hk => exact ⟨v', hk ▸ List.mem_cons_self⟩
    · obtain ⟨v, hv⟩ := ih h
      exact ⟨v, List.mem_cons_of_mem _ hv⟩

end Sys2Proof.Machine
end

