-- ==== Sys2Proof/Laws/OnlySeq.lean ====
section
/-!
SUPPORT. Ending and beginning a burst and jumping touch one sequencer and leave the rest of the part as OnlySeq says.
-/

namespace Sys2Proof.Machine

open Sys2Proof.Safety

variable {N : Nat} {s0 : State}

theorem onlySeq_upd.ite_of {c : Prop} [Decidable c] {A B : State} (hB : OnlySeq N s0 B) (hA : OnlySeq N s0 B → OnlySeq N s0 A) :
    OnlySeq N s0 (if c then A else B) := by
  split
  · exact hA hB
  · exact hB

theorem onlySeq_upd.ite_pair {α : Type} {c : Prop} [Decidable c] {A B : α × State} (hA : OnlySeq N s0 A.2)
    (hB : OnlySeq N s0 B.2) : OnlySeq N s0 (if c then A else B).2 := by
  split
  · exact hA
  · exact hB

theorem onlySeq_upd.of_pair {α : Type} {p : α × State} {x : α} {t : State} (hp : p = (x, t)) (h : OnlySeq N s0 p.2) :
    OnlySeq N s0 t := by
  rw [hp] at h
  exact h

theorem onlySeq_upd {s : State} {regs fresh landed hif out free mkr lastm} (h : OnlySeq N s0 s) (hm : lastm.chans = s.mor.chans) :
    OnlySeq N s0 (State.mk regs s.shadow s.ctxs fresh landed s.top s.time s.clk hif s.firn lastm s.seqs s.tx mkr s.ang s.tla s.cle s.nzl s.flt
      s.hk s.pins free out s.readData s.pending) :=
  ⟨h.seqs, h.firn, h.time, h.clk, h.flt, h.ang, h.tla, h.cle, h.nzl, h.hk, h.pins, h.tx, h.top, h.shadow, h.ctxs,
    hm.trans h.chans, h.pending⟩

theorem State.setSeq_onlySeq {s : State} {q : Seq} (hg : OnlySeq N s0 s) : OnlySeq N s0 (State.setSeq s N q) :=
  ⟨fun m hm => (Tab.get_set_ne hm).trans (hg.seqs m hm), hg.firn, hg.time, hg.clk,
    hg.flt, hg.ang, hg.tla, hg.cle, hg.nzl, hg.hk, hg.pins, hg.tx, hg.top, hg.shadow, hg.ctxs, hg.chans, hg.pending⟩

theorem State.putReg_onlySeq {s : State} {a : Nat} {v : Word} (h : OnlySeq N s0 s) : OnlySeq N s0 (s.putReg a v) :=
  onlySeq_upd h rfl

theorem State.each_onlySeq {α : Type} {s : State} {l : List α} {f : State → α → State} (h : OnlySeq N s0 s)
    (hf : ∀ t x, OnlySeq N s0 t → OnlySeq N s0 (f t x)) : OnlySeq N s0 (s.each l f) := by
  unfold State.each
  induction l generalizing s with
  | nil => exact h
  | cons x l ih => exact ih (hf s x h)



theorem State.modSeq_onlySeq {s : State} {f : Seq → Seq} (hg : OnlySeq N s0 s) : OnlySeq N s0 (State.modSeq s N f) := by
  unfold State.modSeq
  repeat' with_reducible first
    | assumption | rfl | refine onlySeq_upd.of_pair (by assumption) ?_ | apply State.setSeq_onlySeq | intro _
    | apply onlySeq_upd.ite_of | apply onlySeq_upd.ite_pair | split | dsimp only | refine onlySeq_upd ?_ rfl

theorem State.setRing_onlySeq {s : State} {n : Nat} {r : Ring} (hg : OnlySeq N s0 s) :
    OnlySeq N s0 (State.setRing s n r) := by
  unfold State.setRing
  repeat' with_reducible first
    | assumption | rfl | refine onlySeq_upd.of_pair (by assumption) ?_ | intro _ | apply onlySeq_upd.ite_of
    | apply onlySeq_upd.ite_pair | split | dsimp only | refine onlySeq_upd ?_ rfl

theorem State.modRing_onlySeq {s : State} {n : Nat} {f : Ring → Ring} (hg : OnlySeq N s0 s) :
    OnlySeq N s0 (State.modRing s n f) := by
  unfold State.modRing
  repeat' with_reducible first
    | assumption | rfl | refine onlySeq_upd.of_pair (by assumption) ?_ | apply State.setRing_onlySeq | intro _
    | apply onlySeq_upd.ite_of | apply onlySeq_upd.ite_pair | split | dsimp only | refine onlySeq_upd ?_ rfl

theorem State.setLine_onlySeq {s : State} {n : Nat} {l : Line} (hg : OnlySeq N s0 s) :
    OnlySeq N s0 (State.setLine s n l) := by
  unfold State.setLine
  repeat' with_reducible first
    | assumption | rfl | refine onlySeq_upd.of_pair (by assumption) ?_ | intro _ | apply onlySeq_upd.ite_of
    | apply onlySeq_upd.ite_pair | split | dsimp only | refine onlySeq_upd ?_ rfl

theorem State.modLine_onlySeq {s : State} {n : Nat} {f : Line → Line} (hg : OnlySeq N s0 s) :
    OnlySeq N s0 (State.modLine s n f) := by
  unfold State.modLine
  repeat' with_reducible first
    | assumption | rfl | refine onlySeq_upd.of_pair (by assumption) ?_ | apply State.setLine_onlySeq | intro _
    | apply onlySeq_upd.ite_of | apply onlySeq_upd.ite_pair | split | dsimp only | refine onlySeq_upd ?_ rfl

theorem State.setStream_onlySeq {s : State} {n : Nat} {c : Stream} (hg : OnlySeq N s0 s) :
    OnlySeq N s0 (State.setStream s n c) := by
  unfold State.setStream
  repeat' with_reducible first
    | assumption | rfl | refine onlySeq_upd.of_pair (by assumption) ?_ | intro _ | apply onlySeq_upd.ite_of
    | apply onlySeq_upd.ite_pair | split | dsimp only | refine onlySeq_upd ?_ rfl

theorem State.emit_onlySeq {s : State} {o : Out} (hg : OnlySeq N s0 s) :
    OnlySeq N s0 (State.emit s o) := by
  unfold State.emit
  repeat' with_reducible first
    | assumption | rfl | refine onlySeq_upd.of_pair (by assumption) ?_ | intro _ | apply onlySeq_upd.ite_of
    | apply onlySeq_upd.ite_pair | split | dsimp only | refine onlySeq_upd ?_ rfl

theorem State.freshen_onlySeq {s : State} {a : Nat} {m : Word} (hg : OnlySeq N s0 s) :
    OnlySeq N s0 (State.freshen s a m) := by
  unfold State.freshen
  repeat' with_reducible first
    | assumption | rfl | refine onlySeq_upd.of_pair (by assumption) ?_ | intro _ | apply onlySeq_upd.ite_of
    | apply onlySeq_upd.ite_pair | split | dsimp only | refine onlySeq_upd ?_ rfl

theorem State.raise_onlySeq {s : State} {a : Nat} {m : Word} (hg : OnlySeq N s0 s) :
    OnlySeq N s0 (State.raise s a m) := by
  unfold State.raise
  repeat' with_reducible first
    | assumption | rfl | refine onlySeq_upd.of_pair (by assumption) ?_ | apply State.freshen_onlySeq
    | apply State.putReg_onlySeq | intro _ | apply onlySeq_upd.ite_of | apply onlySeq_upd.ite_pair | split
    | dsimp only | refine onlySeq_upd ?_ rfl

theorem State.bump_onlySeq {s : State} {a : Nat} (hg : OnlySeq N s0 s) :
    OnlySeq N s0 (State.bump s a) := by
  unfold State.bump
  repeat' with_reducible first
    | assumption | rfl | refine onlySeq_upd.of_pair (by assumption) ?_ | apply State.putReg_onlySeq | intro _
    | apply onlySeq_upd.ite_of | apply onlySeq_upd.ite_pair | split | dsimp only | refine onlySeq_upd ?_ rfl

theorem State.msix_onlySeq {s : State} {v : Nat} (hg : OnlySeq N s0 s) :
    OnlySeq N s0 (State.msix s v) := by
  unfold State.msix
  repeat' with_reducible first
    | assumption | rfl | refine onlySeq_upd.of_pair (by assumption) ?_ | apply State.emit_onlySeq | intro _
    | apply onlySeq_upd.ite_of | apply onlySeq_upd.ite_pair | split | dsimp only | refine onlySeq_upd ?_ rfl

theorem State.signalRing_onlySeq {s : State} {n : Nat} (hg : OnlySeq N s0 s) :
    OnlySeq N s0 (State.signalRing s n) := by
  unfold State.signalRing
  repeat' with_reducible first
    | assumption | rfl | refine onlySeq_upd.of_pair (by assumption) ?_ | apply State.msix_onlySeq
    | apply State.modRing_onlySeq | intro _ | apply onlySeq_upd.ite_of | apply onlySeq_upd.ite_pair | split
    | dsimp only | refine onlySeq_upd ?_ rfl

theorem State.signalIf_onlySeq {s : State} {n : Nat} (hg : OnlySeq N s0 s) :
    OnlySeq N s0 (State.signalIf s n) := by
  unfold State.signalIf
  repeat' with_reducible first
    | assumption | rfl | refine onlySeq_upd.of_pair (by assumption) ?_ | apply State.signalRing_onlySeq | intro _
    | apply onlySeq_upd.ite_of | apply onlySeq_upd.ite_pair | split | dsimp only | refine onlySeq_upd ?_ rfl

theorem State.writeSlot_onlySeq {s : State} {n : Nat} {k : Nat} {word : Nat} {twoStep : Bool} (hg : OnlySeq N s0 s) :
    OnlySeq N s0 (State.writeSlot s n k word twoStep) := by
  unfold State.writeSlot
  repeat' with_reducible first
    | assumption | rfl | refine onlySeq_upd.of_pair (by assumption) ?_ | apply State.emit_onlySeq
    | apply State.modRing_onlySeq | intro _ | apply onlySeq_upd.ite_of | apply onlySeq_upd.ite_pair | split
    | dsimp only | refine onlySeq_upd ?_ rfl

theorem State.dropEntry_onlySeq {s : State} {n : Nat} (hg : OnlySeq N s0 s) :
    OnlySeq N s0 (State.dropEntry s n) := by
  unfold State.dropEntry
  repeat' with_reducible first
    | assumption | rfl | refine onlySeq_upd.of_pair (by assumption) ?_ | apply State.putReg_onlySeq | intro _
    | apply onlySeq_upd.ite_of | apply onlySeq_upd.ite_pair | split | dsimp only | refine onlySeq_upd ?_ rfl

theorem State.writeOverflow_onlySeq {s : State} {n : Nat} (hg : OnlySeq N s0 s) :
    OnlySeq N s0 (State.writeOverflow s n) := by
  unfold State.writeOverflow
  repeat' with_reducible first
    | assumption | rfl | refine onlySeq_upd.of_pair (by assumption) ?_ | apply State.writeSlot_onlySeq
    | apply State.signalIf_onlySeq | apply State.modRing_onlySeq | intro _ | apply onlySeq_upd.ite_of
    | apply onlySeq_upd.ite_pair | split | dsimp only | refine onlySeq_upd ?_ rfl

theorem State.dropRecord_onlySeq {s : State} {n : Nat} (hg : OnlySeq N s0 s) :
    OnlySeq N s0 (State.dropRecord s n) := by
  unfold State.dropRecord
  repeat' with_reducible first
    | assumption | rfl | refine onlySeq_upd.of_pair (by assumption) ?_ | apply State.dropEntry_onlySeq
    | apply State.modRing_onlySeq | intro _ | apply onlySeq_upd.ite_of | apply onlySeq_upd.ite_pair | split
    | dsimp only | refine onlySeq_upd ?_ rfl

theorem State.postEvtAt_onlySeq {s : State} {kind : Nat} {dw : List Word} {ft : BitVec 64} (hg : OnlySeq N s0 s) :
    OnlySeq N s0 (State.postEvtAt s kind dw ft) := by
  unfold State.postEvtAt
  repeat' with_reducible first
    | assumption | rfl | refine onlySeq_upd.of_pair (by assumption) ?_ | apply State.dropRecord_onlySeq
    | apply State.writeOverflow_onlySeq | apply State.writeSlot_onlySeq | apply State.signalIf_onlySeq
    | apply State.bump_onlySeq | apply State.modRing_onlySeq | intro _ | apply onlySeq_upd.ite_of
    | apply onlySeq_upd.ite_pair | split | dsimp only | refine onlySeq_upd ?_ rfl

theorem State.postEvt_onlySeq {s : State} {kind : Nat} {dw : List Word} (hg : OnlySeq N s0 s) :
    OnlySeq N s0 (State.postEvt s kind dw) := by
  unfold State.postEvt
  repeat' with_reducible first
    | assumption | rfl | refine onlySeq_upd.of_pair (by assumption) ?_ | apply State.postEvtAt_onlySeq | intro _
    | apply onlySeq_upd.ite_of | apply onlySeq_upd.ite_pair | split | dsimp only | refine onlySeq_upd ?_ rfl

theorem State.streamStop_onlySeq {s : State} {n : Nat} (hg : OnlySeq N s0 s) :
    OnlySeq N s0 (State.streamStop s n) := by
  unfold State.streamStop
  repeat' with_reducible first
    | assumption | rfl | refine onlySeq_upd.of_pair (by assumption) ?_ | apply State.setStream_onlySeq | intro _
    | apply onlySeq_upd.ite_of | apply onlySeq_upd.ite_pair | split | dsimp only | refine onlySeq_upd ?_ rfl

theorem State.extChange_onlySeq {s : State} {code : Nat} {level : Bool} {e : Nat} (hg : OnlySeq N s0 s) :
    OnlySeq N s0 (State.extChange s code level e) := by
  unfold State.extChange
  repeat' with_reducible first
    | assumption | rfl | refine onlySeq_upd.of_pair (by assumption) ?_ | intro _ | apply onlySeq_upd.ite_of
    | apply onlySeq_upd.ite_pair | split | dsimp only | refine onlySeq_upd ?_ rfl

theorem State.underrunRecord_onlySeq {s : State} {entry : Nat} {policy : Nat} {seq : Nat} {cause : Nat} {count :
    Nat} {first : BitVec 64} {detail : Nat} (hg : OnlySeq N s0 s) :
    OnlySeq N s0 (State.underrunRecord s entry policy seq cause count first detail) := by
  unfold State.underrunRecord
  repeat' with_reducible first
    | assumption | rfl | refine onlySeq_upd.of_pair (by assumption) ?_ | apply State.postEvt_onlySeq | intro _
    | apply onlySeq_upd.ite_of | apply onlySeq_upd.ite_pair | split | dsimp only | refine onlySeq_upd ?_ rfl

theorem State.lineEpisodeEnd_onlySeq {s : State} {l : Nat} (hg : OnlySeq N s0 s) :
    OnlySeq N s0 (State.lineEpisodeEnd s l) := by
  unfold State.lineEpisodeEnd
  repeat' with_reducible first
    | assumption | rfl | refine onlySeq_upd.of_pair (by assumption) ?_ | apply State.underrunRecord_onlySeq
    | apply State.raise_onlySeq | apply State.modLine_onlySeq | intro _ | apply onlySeq_upd.ite_of
    | apply onlySeq_upd.ite_pair | split | dsimp only | refine onlySeq_upd ?_ rfl

theorem State.lineBit_onlySeq {s : State} {l : Nat} {e : Nat} (hg : OnlySeq N s0 s) :
    OnlySeq N s0 (State.lineBit s l e) := by
  unfold State.lineBit
  repeat' with_reducible first
    | assumption | rfl | refine onlySeq_upd.of_pair (by assumption) ?_ | apply State.lineEpisodeEnd_onlySeq
    | apply State.modLine_onlySeq | apply State.setLine_onlySeq | intro _ | apply onlySeq_upd.ite_of
    | apply onlySeq_upd.ite_pair | split | dsimp only | refine onlySeq_upd ?_ rfl

theorem State.lineBits_onlySeq {s : State} {l : Nat} {e : Nat} (hg : OnlySeq N s0 s) :
    OnlySeq N s0 (State.lineBits s l e) := by
  unfold State.lineBits
  repeat' with_reducible first
    | assumption | rfl | refine onlySeq_upd.of_pair (by assumption) ?_ | apply State.lineBit_onlySeq
    | apply State.each_onlySeq | apply State.modLine_onlySeq | apply State.setLine_onlySeq | intro _
    | apply onlySeq_upd.ite_of | apply onlySeq_upd.ite_pair | split | dsimp only | refine onlySeq_upd ?_ rfl

theorem State.lineTail_onlySeq {s : State} {l : Nat} {e : Nat} (hg : OnlySeq N s0 s) :
    OnlySeq N s0 (State.lineTail s l e) := by
  unfold State.lineTail
  repeat' with_reducible first
    | assumption | rfl | refine onlySeq_upd.of_pair (by assumption) ?_ | apply State.lineBits_onlySeq
    | apply State.modLine_onlySeq | intro _ | apply onlySeq_upd.ite_of | apply onlySeq_upd.ite_pair | split
    | dsimp only | refine onlySeq_upd ?_ rfl

theorem State.linesStart_onlySeq {s : State} {n : Nat} {e : Nat} (hg : OnlySeq N s0 s) :
    OnlySeq N s0 (State.linesStart s n e) := by
  unfold State.linesStart
  repeat' with_reducible first
    | assumption | rfl | refine onlySeq_upd.of_pair (by assumption) ?_ | apply State.each_onlySeq
    | apply State.modLine_onlySeq | intro _ | apply onlySeq_upd.ite_of | apply onlySeq_upd.ite_pair | split
    | dsimp only | refine onlySeq_upd ?_ rfl

theorem State.lineStop_onlySeq {s : State} {l : Nat} {e : Nat} (hg : OnlySeq N s0 s) :
    OnlySeq N s0 (State.lineStop s l e) := by
  unfold State.lineStop
  repeat' with_reducible first
    | assumption | rfl | refine onlySeq_upd.of_pair (by assumption) ?_ | apply State.lineTail_onlySeq
    | apply State.lineEpisodeEnd_onlySeq | apply State.streamStop_onlySeq | apply State.modLine_onlySeq | intro _
    | apply onlySeq_upd.ite_of | apply onlySeq_upd.ite_pair | split | dsimp only | refine onlySeq_upd ?_ rfl

theorem State.linesStop_onlySeq {s : State} {n : Nat} {e : Nat} (hg : OnlySeq N s0 s) :
    OnlySeq N s0 (State.linesStop s n e) := by
  unfold State.linesStop
  repeat' with_reducible first
    | assumption | rfl | refine onlySeq_upd.of_pair (by assumption) ?_ | apply State.lineStop_onlySeq
    | apply State.each_onlySeq | intro _ | apply onlySeq_upd.ite_of | apply onlySeq_upd.ite_pair | split | dsimp only
    | refine onlySeq_upd ?_ rfl

theorem State.schedMarkers_onlySeq {s : State} {marks : List (BitVec 64)} {e : Nat} (hg : OnlySeq N s0 s) :
    OnlySeq N s0 (State.schedMarkers s N marks e) := by
  unfold State.schedMarkers
  repeat' with_reducible first
    | assumption | rfl | refine onlySeq_upd.of_pair (by assumption) ?_ | apply State.modSeq_onlySeq | intro _
    | apply onlySeq_upd.ite_of | apply onlySeq_upd.ite_pair | split | dsimp only | refine onlySeq_upd ?_ rfl

theorem State.dropMarkers_onlySeq {s : State} {e : Nat} (hg : OnlySeq N s0 s) :
    OnlySeq N s0 (State.dropMarkers s N e) := by
  unfold State.dropMarkers
  repeat' with_reducible first
    | assumption | rfl | refine onlySeq_upd.of_pair (by assumption) ?_ | apply State.modSeq_onlySeq | intro _
    | apply onlySeq_upd.ite_of | apply onlySeq_upd.ite_pair | split | dsimp only | refine onlySeq_upd ?_ rfl

theorem State.postEpisode_onlySeq {s : State} (hg : OnlySeq N s0 s) :
    OnlySeq N s0 (State.postEpisode s N) := by
  unfold State.postEpisode
  repeat' with_reducible first
    | assumption | rfl | refine onlySeq_upd.of_pair (by assumption) ?_ | apply State.underrunRecord_onlySeq
    | apply State.bump_onlySeq | apply State.raise_onlySeq | apply State.modSeq_onlySeq | intro _
    | apply onlySeq_upd.ite_of | apply onlySeq_upd.ite_pair | split | dsimp only | refine onlySeq_upd ?_ rfl

theorem State.dropPlay_onlySeq {s : State} {e : Nat} (hg : OnlySeq N s0 s) :
    OnlySeq N s0 (State.dropPlay s N e) := by
  unfold State.dropPlay
  repeat' with_reducible first
    | assumption | rfl | refine onlySeq_upd.of_pair (by assumption) ?_ | apply State.dropMarkers_onlySeq
    | apply State.modSeq_onlySeq | intro _ | apply onlySeq_upd.ite_of | apply onlySeq_upd.ite_pair | split
    | dsimp only | refine onlySeq_upd ?_ rfl

theorem State.clearPath_onlySeq {s : State} (hg : OnlySeq N s0 s) :
    OnlySeq N s0 (State.clearPath s N) := by
  unfold State.clearPath
  repeat' with_reducible first
    | assumption | rfl | refine onlySeq_upd.of_pair (by assumption) ?_ | apply State.streamStop_onlySeq
    | apply State.modSeq_onlySeq | intro _ | apply onlySeq_upd.ite_of | apply onlySeq_upd.ite_pair | split
    | dsimp only | refine onlySeq_upd ?_ rfl

theorem State.burstOver_onlySeq {s : State} {e : Nat} {safe : Bool} (hg : OnlySeq N s0 s) :
    OnlySeq N s0 (State.burstOver s N e safe) := by
  unfold State.burstOver
  repeat' with_reducible first
    | assumption | rfl | refine onlySeq_upd.of_pair (by assumption) ?_ | apply State.clearPath_onlySeq
    | apply State.dropPlay_onlySeq | apply State.postEpisode_onlySeq | apply State.linesStop_onlySeq
    | apply State.extChange_onlySeq | apply State.raise_onlySeq | apply State.modSeq_onlySeq | intro _
    | apply onlySeq_upd.ite_of | apply onlySeq_upd.ite_pair | split | dsimp only | refine onlySeq_upd ?_ rfl

theorem State.sampleStep_onlySeq {s : State} (hg : OnlySeq N s0 s) :
    OnlySeq N s0 (State.sampleStep s N) := by
  unfold State.sampleStep
  repeat' with_reducible first
    | assumption | rfl | refine onlySeq_upd.of_pair (by assumption) ?_ | apply State.burstOver_onlySeq
    | apply State.postEpisode_onlySeq | apply State.dropMarkers_onlySeq | apply State.schedMarkers_onlySeq
    | apply State.streamStop_onlySeq | apply State.modSeq_onlySeq | intro _ | apply onlySeq_upd.ite_of
    | apply onlySeq_upd.ite_pair | split | dsimp only | refine onlySeq_upd ?_ rfl

theorem State.samplesUp_onlySeq {s : State} {e : Nat} {y0 : Nat} (hg : OnlySeq N s0 s) :
    OnlySeq N s0 (State.samplesUp s N e y0) := by
  induction y0 generalizing s e with
  | zero =>
    unfold State.samplesUp
    repeat' with_reducible first
      | assumption | rfl | refine onlySeq_upd.of_pair (by assumption) ?_ | apply State.sampleStep_onlySeq | intro _
      | apply onlySeq_upd.ite_of | apply onlySeq_upd.ite_pair | split | dsimp only | refine onlySeq_upd ?_ rfl
  | succ k ih =>
    unfold State.samplesUp
    repeat' with_reducible first
      | assumption | rfl | apply ih | refine onlySeq_upd.of_pair (by assumption) ?_ | apply State.sampleStep_onlySeq
      | intro _ | apply onlySeq_upd.ite_of | apply onlySeq_upd.ite_pair | split | dsimp only
      | refine onlySeq_upd ?_ rfl

theorem State.samplesTo_onlySeq {s : State} {e : Nat} (hg : OnlySeq N s0 s) :
    OnlySeq N s0 (State.samplesTo s N e) := by
  unfold State.samplesTo
  repeat' with_reducible first
    | assumption | rfl | refine onlySeq_upd.of_pair (by assumption) ?_ | apply State.samplesUp_onlySeq | intro _
    | apply onlySeq_upd.ite_of | apply onlySeq_upd.ite_pair | split | dsimp only | refine onlySeq_upd ?_ rfl

theorem State.keepLast_onlySeq {s : State} {e : Nat} (hg : OnlySeq N s0 s) :
    OnlySeq N s0 (State.keepLast s N e) := by
  unfold State.keepLast
  repeat' with_reducible first
    | assumption | rfl | refine onlySeq_upd.of_pair (by assumption) ?_ | apply State.samplesTo_onlySeq
    | apply State.modSeq_onlySeq | intro _ | apply onlySeq_upd.ite_of | apply onlySeq_upd.ite_pair | split
    | dsimp only | refine onlySeq_upd ?_ rfl

theorem State.endBurst_onlySeq {s : State} {e : Nat} {safe : Bool} (hg : OnlySeq N s0 s) :
    OnlySeq N s0 (State.endBurst s N e safe) := by
  unfold State.endBurst
  repeat' with_reducible first
    | assumption | rfl | refine onlySeq_upd.of_pair (by assumption) ?_ | apply State.keepLast_onlySeq
    | apply State.burstOver_onlySeq | intro _ | apply onlySeq_upd.ite_of | apply onlySeq_upd.ite_pair | split
    | dsimp only | refine onlySeq_upd ?_ rfl

theorem State.goTo_onlySeq {s : State} {t : Target} {e : Nat} (hg : OnlySeq N s0 s) :
    OnlySeq N s0 (State.goTo s N t e) := by
  unfold State.goTo
  repeat' with_reducible first
    | assumption | rfl | refine onlySeq_upd.of_pair (by assumption) ?_ | apply State.clearPath_onlySeq
    | apply State.setSeq_onlySeq | intro _ | apply onlySeq_upd.ite_of | apply onlySeq_upd.ite_pair | split
    | dsimp only | refine onlySeq_upd ?_ rfl

theorem State.jumpTo_onlySeq {s : State} {t : Target} {keep : Bool} {e : Nat} (hg : OnlySeq N s0 s) :
    OnlySeq N s0 (State.jumpTo s N t keep e) := by
  unfold State.jumpTo
  repeat' with_reducible first
    | assumption | rfl | refine onlySeq_upd.of_pair (by assumption) ?_ | apply State.goTo_onlySeq
    | apply State.keepLast_onlySeq | apply State.dropPlay_onlySeq | apply State.modSeq_onlySeq | intro _
    | apply onlySeq_upd.ite_of | apply onlySeq_upd.ite_pair | split | dsimp only | refine onlySeq_upd ?_ rfl

theorem State.startBurst_onlySeq {s : State} {t : Target} {e : Nat} (hg : OnlySeq N s0 s) :
    OnlySeq N s0 (State.startBurst s N t e) := by
  unfold State.startBurst
  repeat' with_reducible first
    | assumption | rfl | refine onlySeq_upd.of_pair (by assumption) ?_ | apply State.goTo_onlySeq
    | apply State.endBurst_onlySeq | apply State.keepLast_onlySeq | apply State.linesStart_onlySeq
    | apply State.extChange_onlySeq | apply State.bump_onlySeq | apply State.modSeq_onlySeq | intro _
    | apply onlySeq_upd.ite_of | apply onlySeq_upd.ite_pair | split | dsimp only | refine onlySeq_upd ?_ rfl

end Sys2Proof.Machine
end

