-- ==== Sys2Proof/Laws/State.lean ====
section
/-!
SUPPORT. Laws of the state: what each named write leaves alone, one lemma per component, and what reading finds after it.
-/

namespace Sys2Proof.Machine

@[simp] theorem State.putReg_shadow (s : State) (a : Nat) (v : Word) : (s.putReg a v).shadow = s.shadow := rfl
@[simp] theorem State.putReg_ctxs (s : State) (a : Nat) (v : Word) : (s.putReg a v).ctxs = s.ctxs := rfl
@[simp] theorem State.putReg_top (s : State) (a : Nat) (v : Word) : (s.putReg a v).top = s.top := rfl
@[simp] theorem State.putReg_fresh (s : State) (a : Nat) (v : Word) : (s.putReg a v).fresh = s.fresh := rfl
@[simp] theorem State.putReg_landed (s : State) (a : Nat) (v : Word) : (s.putReg a v).landed = s.landed := rfl
@[simp] theorem State.putReg_time (s : State) (a : Nat) (v : Word) : (s.putReg a v).time = s.time := rfl
@[simp] theorem State.putReg_clk (s : State) (a : Nat) (v : Word) : (s.putReg a v).clk = s.clk := rfl
@[simp] theorem State.putReg_hif (s : State) (a : Nat) (v : Word) : (s.putReg a v).hif = s.hif := rfl
@[simp] theorem State.putReg_firn (s : State) (a : Nat) (v : Word) : (s.putReg a v).firn = s.firn := rfl
@[simp] theorem State.putReg_mor (s : State) (a : Nat) (v : Word) : (s.putReg a v).mor = s.mor := rfl
@[simp] theorem State.putReg_seqs (s : State) (a : Nat) (v : Word) : (s.putReg a v).seqs = s.seqs := rfl
@[simp] theorem State.putReg_tx (s : State) (a : Nat) (v : Word) : (s.putReg a v).tx = s.tx := rfl
@[simp] theorem State.putReg_mkr (s : State) (a : Nat) (v : Word) : (s.putReg a v).mkr = s.mkr := rfl
@[simp] theorem State.putReg_ang (s : State) (a : Nat) (v : Word) : (s.putReg a v).ang = s.ang := rfl
@[simp] theorem State.putReg_tla (s : State) (a : Nat) (v : Word) : (s.putReg a v).tla = s.tla := rfl
@[simp] theorem State.putReg_cle (s : State) (a : Nat) (v : Word) : (s.putReg a v).cle = s.cle := rfl
@[simp] theorem State.putReg_nzl (s : State) (a : Nat) (v : Word) : (s.putReg a v).nzl = s.nzl := rfl
@[simp] theorem State.putReg_flt (s : State) (a : Nat) (v : Word) : (s.putReg a v).flt = s.flt := rfl
@[simp] theorem State.putReg_hk (s : State) (a : Nat) (v : Word) : (s.putReg a v).hk = s.hk := rfl
@[simp] theorem State.putReg_pins (s : State) (a : Nat) (v : Word) : (s.putReg a v).pins = s.pins := rfl
@[simp] theorem State.putReg_free (s : State) (a : Nat) (v : Word) : (s.putReg a v).free = s.free := rfl
@[simp] theorem State.putReg_out (s : State) (a : Nat) (v : Word) : (s.putReg a v).out = s.out := rfl
@[simp] theorem State.putReg_readData (s : State) (a : Nat) (v : Word) : (s.putReg a v).readData = s.readData := rfl
@[simp] theorem State.putReg_pending (s : State) (a : Nat) (v : Word) : (s.putReg a v).pending = s.pending := rfl

@[simp] theorem State.setCtx_regs (s : State) (w : Nat) (rq : Requester) (c : Ctx) : (s.setCtx w rq c).regs = s.regs := rfl
@[simp] theorem State.setCtx_shadow (s : State) (w : Nat) (rq : Requester) (c : Ctx) : (s.setCtx w rq c).shadow = s.shadow := rfl
@[simp] theorem State.setCtx_top (s : State) (w : Nat) (rq : Requester) (c : Ctx) : (s.setCtx w rq c).top = s.top := rfl
@[simp] theorem State.setCtx_fresh (s : State) (w : Nat) (rq : Requester) (c : Ctx) : (s.setCtx w rq c).fresh = s.fresh := rfl
@[simp] theorem State.setCtx_landed (s : State) (w : Nat) (rq : Requester) (c : Ctx) : (s.setCtx w rq c).landed = s.landed := rfl
@[simp] theorem State.setCtx_time (s : State) (w : Nat) (rq : Requester) (c : Ctx) : (s.setCtx w rq c).time = s.time := rfl
@[simp] theorem State.setCtx_clk (s : State) (w : Nat) (rq : Requester) (c : Ctx) : (s.setCtx w rq c).clk = s.clk := rfl
@[simp] theorem State.setCtx_hif (s : State) (w : Nat) (rq : Requester) (c : Ctx) : (s.setCtx w rq c).hif = s.hif := rfl
@[simp] theorem State.setCtx_firn (s : State) (w : Nat) (rq : Requester) (c : Ctx) : (s.setCtx w rq c).firn = s.firn := rfl
@[simp] theorem State.setCtx_mor (s : State) (w : Nat) (rq : Requester) (c : Ctx) : (s.setCtx w rq c).mor = s.mor := rfl
@[simp] theorem State.setCtx_seqs (s : State) (w : Nat) (rq : Requester) (c : Ctx) : (s.setCtx w rq c).seqs = s.seqs := rfl
@[simp] theorem State.setCtx_tx (s : State) (w : Nat) (rq : Requester) (c : Ctx) : (s.setCtx w rq c).tx = s.tx := rfl
@[simp] theorem State.setCtx_mkr (s : State) (w : Nat) (rq : Requester) (c : Ctx) : (s.setCtx w rq c).mkr = s.mkr := rfl
@[simp] theorem State.setCtx_ang (s : State) (w : Nat) (rq : Requester) (c : Ctx) : (s.setCtx w rq c).ang = s.ang := rfl
@[simp] theorem State.setCtx_tla (s : State) (w : Nat) (rq : Requester) (c : Ctx) : (s.setCtx w rq c).tla = s.tla := rfl
@[simp] theorem State.setCtx_cle (s : State) (w : Nat) (rq : Requester) (c : Ctx) : (s.setCtx w rq c).cle = s.cle := rfl
@[simp] theorem State.setCtx_nzl (s : State) (w : Nat) (rq : Requester) (c : Ctx) : (s.setCtx w rq c).nzl = s.nzl := rfl
@[simp] theorem State.setCtx_flt (s : State) (w : Nat) (rq : Requester) (c : Ctx) : (s.setCtx w rq c).flt = s.flt := rfl
@[simp] theorem State.setCtx_hk (s : State) (w : Nat) (rq : Requester) (c : Ctx) : (s.setCtx w rq c).hk = s.hk := rfl
@[simp] theorem State.setCtx_pins (s : State) (w : Nat) (rq : Requester) (c : Ctx) : (s.setCtx w rq c).pins = s.pins := rfl
@[simp] theorem State.setCtx_free (s : State) (w : Nat) (rq : Requester) (c : Ctx) : (s.setCtx w rq c).free = s.free := rfl
@[simp] theorem State.setCtx_out (s : State) (w : Nat) (rq : Requester) (c : Ctx) : (s.setCtx w rq c).out = s.out := rfl
@[simp] theorem State.setCtx_readData (s : State) (w : Nat) (rq : Requester) (c : Ctx) : (s.setCtx w rq c).readData = s.readData := rfl
@[simp] theorem State.setCtx_pending (s : State) (w : Nat) (rq : Requester) (c : Ctx) : (s.setCtx w rq c).pending = s.pending := rfl

@[simp] theorem State.setSeq_regs (s : State) (n : Nat) (x : Seq) : (s.setSeq n x).regs = s.regs := rfl
@[simp] theorem State.setSeq_shadow (s : State) (n : Nat) (x : Seq) : (s.setSeq n x).shadow = s.shadow := rfl
@[simp] theorem State.setSeq_ctxs (s : State) (n : Nat) (x : Seq) : (s.setSeq n x).ctxs = s.ctxs := rfl
@[simp] theorem State.setSeq_top (s : State) (n : Nat) (x : Seq) : (s.setSeq n x).top = s.top := rfl
@[simp] theorem State.setSeq_fresh (s : State) (n : Nat) (x : Seq) : (s.setSeq n x).fresh = s.fresh := rfl
@[simp] theorem State.setSeq_landed (s : State) (n : Nat) (x : Seq) : (s.setSeq n x).landed = s.landed := rfl
@[simp] theorem State.setSeq_time (s : State) (n : Nat) (x : Seq) : (s.setSeq n x).time = s.time := rfl
@[simp] theorem State.setSeq_clk (s : State) (n : Nat) (x : Seq) : (s.setSeq n x).clk = s.clk := rfl
@[simp] theorem State.setSeq_hif (s : State) (n : Nat) (x : Seq) : (s.setSeq n x).hif = s.hif := rfl
@[simp] theorem State.setSeq_firn (s : State) (n : Nat) (x : Seq) : (s.setSeq n x).firn = s.firn := rfl
@[simp] theorem State.setSeq_mor (s : State) (n : Nat) (x : Seq) : (s.setSeq n x).mor = s.mor := rfl
@[simp] theorem State.setSeq_tx (s : State) (n : Nat) (x : Seq) : (s.setSeq n x).tx = s.tx := rfl
@[simp] theorem State.setSeq_mkr (s : State) (n : Nat) (x : Seq) : (s.setSeq n x).mkr = s.mkr := rfl
@[simp] theorem State.setSeq_ang (s : State) (n : Nat) (x : Seq) : (s.setSeq n x).ang = s.ang := rfl
@[simp] theorem State.setSeq_tla (s : State) (n : Nat) (x : Seq) : (s.setSeq n x).tla = s.tla := rfl
@[simp] theorem State.setSeq_cle (s : State) (n : Nat) (x : Seq) : (s.setSeq n x).cle = s.cle := rfl
@[simp] theorem State.setSeq_nzl (s : State) (n : Nat) (x : Seq) : (s.setSeq n x).nzl = s.nzl := rfl
@[simp] theorem State.setSeq_flt (s : State) (n : Nat) (x : Seq) : (s.setSeq n x).flt = s.flt := rfl
@[simp] theorem State.setSeq_hk (s : State) (n : Nat) (x : Seq) : (s.setSeq n x).hk = s.hk := rfl
@[simp] theorem State.setSeq_pins (s : State) (n : Nat) (x : Seq) : (s.setSeq n x).pins = s.pins := rfl
@[simp] theorem State.setSeq_free (s : State) (n : Nat) (x : Seq) : (s.setSeq n x).free = s.free := rfl
@[simp] theorem State.setSeq_out (s : State) (n : Nat) (x : Seq) : (s.setSeq n x).out = s.out := rfl
@[simp] theorem State.setSeq_readData (s : State) (n : Nat) (x : Seq) : (s.setSeq n x).readData = s.readData := rfl
@[simp] theorem State.setSeq_pending (s : State) (n : Nat) (x : Seq) : (s.setSeq n x).pending = s.pending := rfl

@[simp] theorem State.setRing_regs (s : State) (n : Nat) (x : Ring) : (s.setRing n x).regs = s.regs := rfl
@[simp] theorem State.setRing_shadow (s : State) (n : Nat) (x : Ring) : (s.setRing n x).shadow = s.shadow := rfl
@[simp] theorem State.setRing_ctxs (s : State) (n : Nat) (x : Ring) : (s.setRing n x).ctxs = s.ctxs := rfl
@[simp] theorem State.setRing_top (s : State) (n : Nat) (x : Ring) : (s.setRing n x).top = s.top := rfl
@[simp] theorem State.setRing_fresh (s : State) (n : Nat) (x : Ring) : (s.setRing n x).fresh = s.fresh := rfl
@[simp] theorem State.setRing_landed (s : State) (n : Nat) (x : Ring) : (s.setRing n x).landed = s.landed := rfl
@[simp] theorem State.setRing_time (s : State) (n : Nat) (x : Ring) : (s.setRing n x).time = s.time := rfl
@[simp] theorem State.setRing_clk (s : State) (n : Nat) (x : Ring) : (s.setRing n x).clk = s.clk := rfl
@[simp] theorem State.setRing_firn (s : State) (n : Nat) (x : Ring) : (s.setRing n x).firn = s.firn := rfl
@[simp] theorem State.setRing_mor (s : State) (n : Nat) (x : Ring) : (s.setRing n x).mor = s.mor := rfl
@[simp] theorem State.setRing_seqs (s : State) (n : Nat) (x : Ring) : (s.setRing n x).seqs = s.seqs := rfl
@[simp] theorem State.setRing_tx (s : State) (n : Nat) (x : Ring) : (s.setRing n x).tx = s.tx := rfl
@[simp] theorem State.setRing_mkr (s : State) (n : Nat) (x : Ring) : (s.setRing n x).mkr = s.mkr := rfl
@[simp] theorem State.setRing_ang (s : State) (n : Nat) (x : Ring) : (s.setRing n x).ang = s.ang := rfl
@[simp] theorem State.setRing_tla (s : State) (n : Nat) (x : Ring) : (s.setRing n x).tla = s.tla := rfl
@[simp] theorem State.setRing_cle (s : State) (n : Nat) (x : Ring) : (s.setRing n x).cle = s.cle := rfl
@[simp] theorem State.setRing_nzl (s : State) (n : Nat) (x : Ring) : (s.setRing n x).nzl = s.nzl := rfl
@[simp] theorem State.setRing_flt (s : State) (n : Nat) (x : Ring) : (s.setRing n x).flt = s.flt := rfl
@[simp] theorem State.setRing_hk (s : State) (n : Nat) (x : Ring) : (s.setRing n x).hk = s.hk := rfl
@[simp] theorem State.setRing_pins (s : State) (n : Nat) (x : Ring) : (s.setRing n x).pins = s.pins := rfl
@[simp] theorem State.setRing_free (s : State) (n : Nat) (x : Ring) : (s.setRing n x).free = s.free := rfl
@[simp] theorem State.setRing_out (s : State) (n : Nat) (x : Ring) : (s.setRing n x).out = s.out := rfl
@[simp] theorem State.setRing_readData (s : State) (n : Nat) (x : Ring) : (s.setRing n x).readData = s.readData := rfl
@[simp] theorem State.setRing_pending (s : State) (n : Nat) (x : Ring) : (s.setRing n x).pending = s.pending := rfl

@[simp] theorem State.setTxl_regs (s : State) (n : Nat) (x : TxLink) : (s.setTxl n x).regs = s.regs := rfl
@[simp] theorem State.setTxl_shadow (s : State) (n : Nat) (x : TxLink) : (s.setTxl n x).shadow = s.shadow := rfl
@[simp] theorem State.setTxl_ctxs (s : State) (n : Nat) (x : TxLink) : (s.setTxl n x).ctxs = s.ctxs := rfl
@[simp] theorem State.setTxl_top (s : State) (n : Nat) (x : TxLink) : (s.setTxl n x).top = s.top := rfl
@[simp] theorem State.setTxl_fresh (s : State) (n : Nat) (x : TxLink) : (s.setTxl n x).fresh = s.fresh := rfl
@[simp] theorem State.setTxl_landed (s : State) (n : Nat) (x : TxLink) : (s.setTxl n x).landed = s.landed := rfl
@[simp] theorem State.setTxl_time (s : State) (n : Nat) (x : TxLink) : (s.setTxl n x).time = s.time := rfl
@[simp] theorem State.setTxl_clk (s : State) (n : Nat) (x : TxLink) : (s.setTxl n x).clk = s.clk := rfl
@[simp] theorem State.setTxl_hif (s : State) (n : Nat) (x : TxLink) : (s.setTxl n x).hif = s.hif := rfl
@[simp] theorem State.setTxl_firn (s : State) (n : Nat) (x : TxLink) : (s.setTxl n x).firn = s.firn := rfl
@[simp] theorem State.setTxl_mor (s : State) (n : Nat) (x : TxLink) : (s.setTxl n x).mor = s.mor := rfl
@[simp] theorem State.setTxl_seqs (s : State) (n : Nat) (x : TxLink) : (s.setTxl n x).seqs = s.seqs := rfl
@[simp] theorem State.setTxl_mkr (s : State) (n : Nat) (x : TxLink) : (s.setTxl n x).mkr = s.mkr := rfl
@[simp] theorem State.setTxl_ang (s : State) (n : Nat) (x : TxLink) : (s.setTxl n x).ang = s.ang := rfl
@[simp] theorem State.setTxl_tla (s : State) (n : Nat) (x : TxLink) : (s.setTxl n x).tla = s.tla := rfl
@[simp] theorem State.setTxl_cle (s : State) (n : Nat) (x : TxLink) : (s.setTxl n x).cle = s.cle := rfl
@[simp] theorem State.setTxl_nzl (s : State) (n : Nat) (x : TxLink) : (s.setTxl n x).nzl = s.nzl := rfl
@[simp] theorem State.setTxl_flt (s : State) (n : Nat) (x : TxLink) : (s.setTxl n x).flt = s.flt := rfl
@[simp] theorem State.setTxl_hk (s : State) (n : Nat) (x : TxLink) : (s.setTxl n x).hk = s.hk := rfl
@[simp] theorem State.setTxl_pins (s : State) (n : Nat) (x : TxLink) : (s.setTxl n x).pins = s.pins := rfl
@[simp] theorem State.setTxl_free (s : State) (n : Nat) (x : TxLink) : (s.setTxl n x).free = s.free := rfl
@[simp] theorem State.setTxl_out (s : State) (n : Nat) (x : TxLink) : (s.setTxl n x).out = s.out := rfl
@[simp] theorem State.setTxl_readData (s : State) (n : Nat) (x : TxLink) : (s.setTxl n x).readData = s.readData := rfl
@[simp] theorem State.setTxl_pending (s : State) (n : Nat) (x : TxLink) : (s.setTxl n x).pending = s.pending := rfl

@[simp] theorem State.setLine_regs (s : State) (n : Nat) (x : Line) : (s.setLine n x).regs = s.regs := rfl
@[simp] theorem State.setLine_shadow (s : State) (n : Nat) (x : Line) : (s.setLine n x).shadow = s.shadow := rfl
@[simp] theorem State.setLine_ctxs (s : State) (n : Nat) (x : Line) : (s.setLine n x).ctxs = s.ctxs := rfl
@[simp] theorem State.setLine_top (s : State) (n : Nat) (x : Line) : (s.setLine n x).top = s.top := rfl
@[simp] theorem State.setLine_fresh (s : State) (n : Nat) (x : Line) : (s.setLine n x).fresh = s.fresh := rfl
@[simp] theorem State.setLine_landed (s : State) (n : Nat) (x : Line) : (s.setLine n x).landed = s.landed := rfl
@[simp] theorem State.setLine_time (s : State) (n : Nat) (x : Line) : (s.setLine n x).time = s.time := rfl
@[simp] theorem State.setLine_clk (s : State) (n : Nat) (x : Line) : (s.setLine n x).clk = s.clk := rfl
@[simp] theorem State.setLine_hif (s : State) (n : Nat) (x : Line) : (s.setLine n x).hif = s.hif := rfl
@[simp] theorem State.setLine_firn (s : State) (n : Nat) (x : Line) : (s.setLine n x).firn = s.firn := rfl
@[simp] theorem State.setLine_mor (s : State) (n : Nat) (x : Line) : (s.setLine n x).mor = s.mor := rfl
@[simp] theorem State.setLine_seqs (s : State) (n : Nat) (x : Line) : (s.setLine n x).seqs = s.seqs := rfl
@[simp] theorem State.setLine_tx (s : State) (n : Nat) (x : Line) : (s.setLine n x).tx = s.tx := rfl
@[simp] theorem State.setLine_ang (s : State) (n : Nat) (x : Line) : (s.setLine n x).ang = s.ang := rfl
@[simp] theorem State.setLine_tla (s : State) (n : Nat) (x : Line) : (s.setLine n x).tla = s.tla := rfl
@[simp] theorem State.setLine_cle (s : State) (n : Nat) (x : Line) : (s.setLine n x).cle = s.cle := rfl
@[simp] theorem State.setLine_nzl (s : State) (n : Nat) (x : Line) : (s.setLine n x).nzl = s.nzl := rfl
@[simp] theorem State.setLine_flt (s : State) (n : Nat) (x : Line) : (s.setLine n x).flt = s.flt := rfl
@[simp] theorem State.setLine_hk (s : State) (n : Nat) (x : Line) : (s.setLine n x).hk = s.hk := rfl
@[simp] theorem State.setLine_pins (s : State) (n : Nat) (x : Line) : (s.setLine n x).pins = s.pins := rfl
@[simp] theorem State.setLine_free (s : State) (n : Nat) (x : Line) : (s.setLine n x).free = s.free := rfl
@[simp] theorem State.setLine_out (s : State) (n : Nat) (x : Line) : (s.setLine n x).out = s.out := rfl
@[simp] theorem State.setLine_readData (s : State) (n : Nat) (x : Line) : (s.setLine n x).readData = s.readData := rfl
@[simp] theorem State.setLine_pending (s : State) (n : Nat) (x : Line) : (s.setLine n x).pending = s.pending := rfl

@[simp] theorem State.setPair_regs (s : State) (n : Nat) (x : Pair) : (s.setPair n x).regs = s.regs := rfl
@[simp] theorem State.setPair_shadow (s : State) (n : Nat) (x : Pair) : (s.setPair n x).shadow = s.shadow := rfl
@[simp] theorem State.setPair_ctxs (s : State) (n : Nat) (x : Pair) : (s.setPair n x).ctxs = s.ctxs := rfl
@[simp] theorem State.setPair_top (s : State) (n : Nat) (x : Pair) : (s.setPair n x).top = s.top := rfl
@[simp] theorem State.setPair_fresh (s : State) (n : Nat) (x : Pair) : (s.setPair n x).fresh = s.fresh := rfl
@[simp] theorem State.setPair_landed (s : State) (n : Nat) (x : Pair) : (s.setPair n x).landed = s.landed := rfl
@[simp] theorem State.setPair_time (s : State) (n : Nat) (x : Pair) : (s.setPair n x).time = s.time := rfl
@[simp] theorem State.setPair_clk (s : State) (n : Nat) (x : Pair) : (s.setPair n x).clk = s.clk := rfl
@[simp] theorem State.setPair_hif (s : State) (n : Nat) (x : Pair) : (s.setPair n x).hif = s.hif := rfl
@[simp] theorem State.setPair_firn (s : State) (n : Nat) (x : Pair) : (s.setPair n x).firn = s.firn := rfl
@[simp] theorem State.setPair_mor (s : State) (n : Nat) (x : Pair) : (s.setPair n x).mor = s.mor := rfl
@[simp] theorem State.setPair_seqs (s : State) (n : Nat) (x : Pair) : (s.setPair n x).seqs = s.seqs := rfl
@[simp] theorem State.setPair_tx (s : State) (n : Nat) (x : Pair) : (s.setPair n x).tx = s.tx := rfl
@[simp] theorem State.setPair_ang (s : State) (n : Nat) (x : Pair) : (s.setPair n x).ang = s.ang := rfl
@[simp] theorem State.setPair_tla (s : State) (n : Nat) (x : Pair) : (s.setPair n x).tla = s.tla := rfl
@[simp] theorem State.setPair_cle (s : State) (n : Nat) (x : Pair) : (s.setPair n x).cle = s.cle := rfl
@[simp] theorem State.setPair_nzl (s : State) (n : Nat) (x : Pair) : (s.setPair n x).nzl = s.nzl := rfl
@[simp] theorem State.setPair_flt (s : State) (n : Nat) (x : Pair) : (s.setPair n x).flt = s.flt := rfl
@[simp] theorem State.setPair_hk (s : State) (n : Nat) (x : Pair) : (s.setPair n x).hk = s.hk := rfl
@[simp] theorem State.setPair_pins (s : State) (n : Nat) (x : Pair) : (s.setPair n x).pins = s.pins := rfl
@[simp] theorem State.setPair_free (s : State) (n : Nat) (x : Pair) : (s.setPair n x).free = s.free := rfl
@[simp] theorem State.setPair_out (s : State) (n : Nat) (x : Pair) : (s.setPair n x).out = s.out := rfl
@[simp] theorem State.setPair_readData (s : State) (n : Nat) (x : Pair) : (s.setPair n x).readData = s.readData := rfl
@[simp] theorem State.setPair_pending (s : State) (n : Nat) (x : Pair) : (s.setPair n x).pending = s.pending := rfl

@[simp] theorem State.setTrk_regs (s : State) (n : Nat) (x : Trk) : (s.setTrk n x).regs = s.regs := rfl
@[simp] theorem State.setTrk_shadow (s : State) (n : Nat) (x : Trk) : (s.setTrk n x).shadow = s.shadow := rfl
@[simp] theorem State.setTrk_ctxs (s : State) (n : Nat) (x : Trk) : (s.setTrk n x).ctxs = s.ctxs := rfl
@[simp] theorem State.setTrk_top (s : State) (n : Nat) (x : Trk) : (s.setTrk n x).top = s.top := rfl
@[simp] theorem State.setTrk_fresh (s : State) (n : Nat) (x : Trk) : (s.setTrk n x).fresh = s.fresh := rfl
@[simp] theorem State.setTrk_landed (s : State) (n : Nat) (x : Trk) : (s.setTrk n x).landed = s.landed := rfl
@[simp] theorem State.setTrk_time (s : State) (n : Nat) (x : Trk) : (s.setTrk n x).time = s.time := rfl
@[simp] theorem State.setTrk_clk (s : State) (n : Nat) (x : Trk) : (s.setTrk n x).clk = s.clk := rfl
@[simp] theorem State.setTrk_hif (s : State) (n : Nat) (x : Trk) : (s.setTrk n x).hif = s.hif := rfl
@[simp] theorem State.setTrk_firn (s : State) (n : Nat) (x : Trk) : (s.setTrk n x).firn = s.firn := rfl
@[simp] theorem State.setTrk_mor (s : State) (n : Nat) (x : Trk) : (s.setTrk n x).mor = s.mor := rfl
@[simp] theorem State.setTrk_seqs (s : State) (n : Nat) (x : Trk) : (s.setTrk n x).seqs = s.seqs := rfl
@[simp] theorem State.setTrk_tx (s : State) (n : Nat) (x : Trk) : (s.setTrk n x).tx = s.tx := rfl
@[simp] theorem State.setTrk_mkr (s : State) (n : Nat) (x : Trk) : (s.setTrk n x).mkr = s.mkr := rfl
@[simp] theorem State.setTrk_tla (s : State) (n : Nat) (x : Trk) : (s.setTrk n x).tla = s.tla := rfl
@[simp] theorem State.setTrk_cle (s : State) (n : Nat) (x : Trk) : (s.setTrk n x).cle = s.cle := rfl
@[simp] theorem State.setTrk_nzl (s : State) (n : Nat) (x : Trk) : (s.setTrk n x).nzl = s.nzl := rfl
@[simp] theorem State.setTrk_flt (s : State) (n : Nat) (x : Trk) : (s.setTrk n x).flt = s.flt := rfl
@[simp] theorem State.setTrk_hk (s : State) (n : Nat) (x : Trk) : (s.setTrk n x).hk = s.hk := rfl
@[simp] theorem State.setTrk_pins (s : State) (n : Nat) (x : Trk) : (s.setTrk n x).pins = s.pins := rfl
@[simp] theorem State.setTrk_free (s : State) (n : Nat) (x : Trk) : (s.setTrk n x).free = s.free := rfl
@[simp] theorem State.setTrk_out (s : State) (n : Nat) (x : Trk) : (s.setTrk n x).out = s.out := rfl
@[simp] theorem State.setTrk_readData (s : State) (n : Nat) (x : Trk) : (s.setTrk n x).readData = s.readData := rfl
@[simp] theorem State.setTrk_pending (s : State) (n : Nat) (x : Trk) : (s.setTrk n x).pending = s.pending := rfl

@[simp] theorem State.setBank_regs (s : State) (n : Nat) (x : Bank) : (s.setBank n x).regs = s.regs := rfl
@[simp] theorem State.setBank_shadow (s : State) (n : Nat) (x : Bank) : (s.setBank n x).shadow = s.shadow := rfl
@[simp] theorem State.setBank_ctxs (s : State) (n : Nat) (x : Bank) : (s.setBank n x).ctxs = s.ctxs := rfl
@[simp] theorem State.setBank_top (s : State) (n : Nat) (x : Bank) : (s.setBank n x).top = s.top := rfl
@[simp] theorem State.setBank_fresh (s : State) (n : Nat) (x : Bank) : (s.setBank n x).fresh = s.fresh := rfl
@[simp] theorem State.setBank_landed (s : State) (n : Nat) (x : Bank) : (s.setBank n x).landed = s.landed := rfl
@[simp] theorem State.setBank_time (s : State) (n : Nat) (x : Bank) : (s.setBank n x).time = s.time := rfl
@[simp] theorem State.setBank_clk (s : State) (n : Nat) (x : Bank) : (s.setBank n x).clk = s.clk := rfl
@[simp] theorem State.setBank_hif (s : State) (n : Nat) (x : Bank) : (s.setBank n x).hif = s.hif := rfl
@[simp] theorem State.setBank_mor (s : State) (n : Nat) (x : Bank) : (s.setBank n x).mor = s.mor := rfl
@[simp] theorem State.setBank_seqs (s : State) (n : Nat) (x : Bank) : (s.setBank n x).seqs = s.seqs := rfl
@[simp] theorem State.setBank_tx (s : State) (n : Nat) (x : Bank) : (s.setBank n x).tx = s.tx := rfl
@[simp] theorem State.setBank_mkr (s : State) (n : Nat) (x : Bank) : (s.setBank n x).mkr = s.mkr := rfl
@[simp] theorem State.setBank_ang (s : State) (n : Nat) (x : Bank) : (s.setBank n x).ang = s.ang := rfl
@[simp] theorem State.setBank_tla (s : State) (n : Nat) (x : Bank) : (s.setBank n x).tla = s.tla := rfl
@[simp] theorem State.setBank_cle (s : State) (n : Nat) (x : Bank) : (s.setBank n x).cle = s.cle := rfl
@[simp] theorem State.setBank_nzl (s : State) (n : Nat) (x : Bank) : (s.setBank n x).nzl = s.nzl := rfl
@[simp] theorem State.setBank_flt (s : State) (n : Nat) (x : Bank) : (s.setBank n x).flt = s.flt := rfl
@[simp] theorem State.setBank_hk (s : State) (n : Nat) (x : Bank) : (s.setBank n x).hk = s.hk := rfl
@[simp] theorem State.setBank_pins (s : State) (n : Nat) (x : Bank) : (s.setBank n x).pins = s.pins := rfl
@[simp] theorem State.setBank_free (s : State) (n : Nat) (x : Bank) : (s.setBank n x).free = s.free := rfl
@[simp] theorem State.setBank_out (s : State) (n : Nat) (x : Bank) : (s.setBank n x).out = s.out := rfl
@[simp] theorem State.setBank_readData (s : State) (n : Nat) (x : Bank) : (s.setBank n x).readData = s.readData := rfl
@[simp] theorem State.setBank_pending (s : State) (n : Nat) (x : Bank) : (s.setBank n x).pending = s.pending := rfl

@[simp] theorem State.setSpare_regs (s : State) (n : Nat) (x : Spare) : (s.setSpare n x).regs = s.regs := rfl
@[simp] theorem State.setSpare_shadow (s : State) (n : Nat) (x : Spare) : (s.setSpare n x).shadow = s.shadow := rfl
@[simp] theorem State.setSpare_ctxs (s : State) (n : Nat) (x : Spare) : (s.setSpare n x).ctxs = s.ctxs := rfl
@[simp] theorem State.setSpare_top (s : State) (n : Nat) (x : Spare) : (s.setSpare n x).top = s.top := rfl
@[simp] theorem State.setSpare_fresh (s : State) (n : Nat) (x : Spare) : (s.setSpare n x).fresh = s.fresh := rfl
@[simp] theorem State.setSpare_landed (s : State) (n : Nat) (x : Spare) : (s.setSpare n x).landed = s.landed := rfl
@[simp] theorem State.setSpare_time (s : State) (n : Nat) (x : Spare) : (s.setSpare n x).time = s.time := rfl
@[simp] theorem State.setSpare_clk (s : State) (n : Nat) (x : Spare) : (s.setSpare n x).clk = s.clk := rfl
@[simp] theorem State.setSpare_hif (s : State) (n : Nat) (x : Spare) : (s.setSpare n x).hif = s.hif := rfl
@[simp] theorem State.setSpare_mor (s : State) (n : Nat) (x : Spare) : (s.setSpare n x).mor = s.mor := rfl
@[simp] theorem State.setSpare_seqs (s : State) (n : Nat) (x : Spare) : (s.setSpare n x).seqs = s.seqs := rfl
@[simp] theorem State.setSpare_tx (s : State) (n : Nat) (x : Spare) : (s.setSpare n x).tx = s.tx := rfl
@[simp] theorem State.setSpare_mkr (s : State) (n : Nat) (x : Spare) : (s.setSpare n x).mkr = s.mkr := rfl
@[simp] theorem State.setSpare_ang (s : State) (n : Nat) (x : Spare) : (s.setSpare n x).ang = s.ang := rfl
@[simp] theorem State.setSpare_tla (s : State) (n : Nat) (x : Spare) : (s.setSpare n x).tla = s.tla := rfl
@[simp] theorem State.setSpare_cle (s : State) (n : Nat) (x : Spare) : (s.setSpare n x).cle = s.cle := rfl
@[simp] theorem State.setSpare_nzl (s : State) (n : Nat) (x : Spare) : (s.setSpare n x).nzl = s.nzl := rfl
@[simp] theorem State.setSpare_flt (s : State) (n : Nat) (x : Spare) : (s.setSpare n x).flt = s.flt := rfl
@[simp] theorem State.setSpare_hk (s : State) (n : Nat) (x : Spare) : (s.setSpare n x).hk = s.hk := rfl
@[simp] theorem State.setSpare_pins (s : State) (n : Nat) (x : Spare) : (s.setSpare n x).pins = s.pins := rfl
@[simp] theorem State.setSpare_free (s : State) (n : Nat) (x : Spare) : (s.setSpare n x).free = s.free := rfl
@[simp] theorem State.setSpare_out (s : State) (n : Nat) (x : Spare) : (s.setSpare n x).out = s.out := rfl
@[simp] theorem State.setSpare_readData (s : State) (n : Nat) (x : Spare) : (s.setSpare n x).readData = s.readData := rfl
@[simp] theorem State.setSpare_pending (s : State) (n : Nat) (x : Spare) : (s.setSpare n x).pending = s.pending := rfl

@[simp] theorem State.setChan_regs (s : State) (n : Nat) (x : Chan) : (s.setChan n x).regs = s.regs := rfl
@[simp] theorem State.setChan_shadow (s : State) (n : Nat) (x : Chan) : (s.setChan n x).shadow = s.shadow := rfl
@[simp] theorem State.setChan_ctxs (s : State) (n : Nat) (x : Chan) : (s.setChan n x).ctxs = s.ctxs := rfl
@[simp] theorem State.setChan_top (s : State) (n : Nat) (x : Chan) : (s.setChan n x).top = s.top := rfl
@[simp] theorem State.setChan_fresh (s : State) (n : Nat) (x : Chan) : (s.setChan n x).fresh = s.fresh := rfl
@[simp] theorem State.setChan_landed (s : State) (n : Nat) (x : Chan) : (s.setChan n x).landed = s.landed := rfl
@[simp] theorem State.setChan_time (s : State) (n : Nat) (x : Chan) : (s.setChan n x).time = s.time := rfl
@[simp] theorem State.setChan_clk (s : State) (n : Nat) (x : Chan) : (s.setChan n x).clk = s.clk := rfl
@[simp] theorem State.setChan_hif (s : State) (n : Nat) (x : Chan) : (s.setChan n x).hif = s.hif := rfl
@[simp] theorem State.setChan_firn (s : State) (n : Nat) (x : Chan) : (s.setChan n x).firn = s.firn := rfl
@[simp] theorem State.setChan_seqs (s : State) (n : Nat) (x : Chan) : (s.setChan n x).seqs = s.seqs := rfl
@[simp] theorem State.setChan_tx (s : State) (n : Nat) (x : Chan) : (s.setChan n x).tx = s.tx := rfl
@[simp] theorem State.setChan_mkr (s : State) (n : Nat) (x : Chan) : (s.setChan n x).mkr = s.mkr := rfl
@[simp] theorem State.setChan_ang (s : State) (n : Nat) (x : Chan) : (s.setChan n x).ang = s.ang := rfl
@[simp] theorem State.setChan_tla (s : State) (n : Nat) (x : Chan) : (s.setChan n x).tla = s.tla := rfl
@[simp] theorem State.setChan_cle (s : State) (n : Nat) (x : Chan) : (s.setChan n x).cle = s.cle := rfl
@[simp] theorem State.setChan_nzl (s : State) (n : Nat) (x : Chan) : (s.setChan n x).nzl = s.nzl := rfl
@[simp] theorem State.setChan_flt (s : State) (n : Nat) (x : Chan) : (s.setChan n x).flt = s.flt := rfl
@[simp] theorem State.setChan_hk (s : State) (n : Nat) (x : Chan) : (s.setChan n x).hk = s.hk := rfl
@[simp] theorem State.setChan_pins (s : State) (n : Nat) (x : Chan) : (s.setChan n x).pins = s.pins := rfl
@[simp] theorem State.setChan_free (s : State) (n : Nat) (x : Chan) : (s.setChan n x).free = s.free := rfl
@[simp] theorem State.setChan_out (s : State) (n : Nat) (x : Chan) : (s.setChan n x).out = s.out := rfl
@[simp] theorem State.setChan_readData (s : State) (n : Nat) (x : Chan) : (s.setChan n x).readData = s.readData := rfl
@[simp] theorem State.setChan_pending (s : State) (n : Nat) (x : Chan) : (s.setChan n x).pending = s.pending := rfl

@[simp] theorem State.setStream_regs (s : State) (n : Nat) (x : Stream) : (s.setStream n x).regs = s.regs := rfl
@[simp] theorem State.setStream_shadow (s : State) (n : Nat) (x : Stream) : (s.setStream n x).shadow = s.shadow := rfl
@[simp] theorem State.setStream_ctxs (s : State) (n : Nat) (x : Stream) : (s.setStream n x).ctxs = s.ctxs := rfl
@[simp] theorem State.setStream_top (s : State) (n : Nat) (x : Stream) : (s.setStream n x).top = s.top := rfl
@[simp] theorem State.setStream_fresh (s : State) (n : Nat) (x : Stream) : (s.setStream n x).fresh = s.fresh := rfl
@[simp] theorem State.setStream_landed (s : State) (n : Nat) (x : Stream) : (s.setStream n x).landed = s.landed := rfl
@[simp] theorem State.setStream_time (s : State) (n : Nat) (x : Stream) : (s.setStream n x).time = s.time := rfl
@[simp] theorem State.setStream_clk (s : State) (n : Nat) (x : Stream) : (s.setStream n x).clk = s.clk := rfl
@[simp] theorem State.setStream_hif (s : State) (n : Nat) (x : Stream) : (s.setStream n x).hif = s.hif := rfl
@[simp] theorem State.setStream_firn (s : State) (n : Nat) (x : Stream) : (s.setStream n x).firn = s.firn := rfl
@[simp] theorem State.setStream_seqs (s : State) (n : Nat) (x : Stream) : (s.setStream n x).seqs = s.seqs := rfl
@[simp] theorem State.setStream_tx (s : State) (n : Nat) (x : Stream) : (s.setStream n x).tx = s.tx := rfl
@[simp] theorem State.setStream_mkr (s : State) (n : Nat) (x : Stream) : (s.setStream n x).mkr = s.mkr := rfl
@[simp] theorem State.setStream_ang (s : State) (n : Nat) (x : Stream) : (s.setStream n x).ang = s.ang := rfl
@[simp] theorem State.setStream_tla (s : State) (n : Nat) (x : Stream) : (s.setStream n x).tla = s.tla := rfl
@[simp] theorem State.setStream_cle (s : State) (n : Nat) (x : Stream) : (s.setStream n x).cle = s.cle := rfl
@[simp] theorem State.setStream_nzl (s : State) (n : Nat) (x : Stream) : (s.setStream n x).nzl = s.nzl := rfl
@[simp] theorem State.setStream_flt (s : State) (n : Nat) (x : Stream) : (s.setStream n x).flt = s.flt := rfl
@[simp] theorem State.setStream_hk (s : State) (n : Nat) (x : Stream) : (s.setStream n x).hk = s.hk := rfl
@[simp] theorem State.setStream_pins (s : State) (n : Nat) (x : Stream) : (s.setStream n x).pins = s.pins := rfl
@[simp] theorem State.setStream_free (s : State) (n : Nat) (x : Stream) : (s.setStream n x).free = s.free := rfl
@[simp] theorem State.setStream_out (s : State) (n : Nat) (x : Stream) : (s.setStream n x).out = s.out := rfl
@[simp] theorem State.setStream_readData (s : State) (n : Nat) (x : Stream) : (s.setStream n x).readData = s.readData := rfl
@[simp] theorem State.setStream_pending (s : State) (n : Nat) (x : Stream) : (s.setStream n x).pending = s.pending := rfl

@[simp] theorem State.setSlot_regs (s : State) (n : Nat) (x : LSlot) : (s.setSlot n x).regs = s.regs := rfl
@[simp] theorem State.setSlot_shadow (s : State) (n : Nat) (x : LSlot) : (s.setSlot n x).shadow = s.shadow := rfl
@[simp] theorem State.setSlot_ctxs (s : State) (n : Nat) (x : LSlot) : (s.setSlot n x).ctxs = s.ctxs := rfl
@[simp] theorem State.setSlot_top (s : State) (n : Nat) (x : LSlot) : (s.setSlot n x).top = s.top := rfl
@[simp] theorem State.setSlot_fresh (s : State) (n : Nat) (x : LSlot) : (s.setSlot n x).fresh = s.fresh := rfl
@[simp] theorem State.setSlot_landed (s : State) (n : Nat) (x : LSlot) : (s.setSlot n x).landed = s.landed := rfl
@[simp] theorem State.setSlot_time (s : State) (n : Nat) (x : LSlot) : (s.setSlot n x).time = s.time := rfl
@[simp] theorem State.setSlot_clk (s : State) (n : Nat) (x : LSlot) : (s.setSlot n x).clk = s.clk := rfl
@[simp] theorem State.setSlot_hif (s : State) (n : Nat) (x : LSlot) : (s.setSlot n x).hif = s.hif := rfl
@[simp] theorem State.setSlot_firn (s : State) (n : Nat) (x : LSlot) : (s.setSlot n x).firn = s.firn := rfl
@[simp] theorem State.setSlot_mor (s : State) (n : Nat) (x : LSlot) : (s.setSlot n x).mor = s.mor := rfl
@[simp] theorem State.setSlot_seqs (s : State) (n : Nat) (x : LSlot) : (s.setSlot n x).seqs = s.seqs := rfl
@[simp] theorem State.setSlot_tx (s : State) (n : Nat) (x : LSlot) : (s.setSlot n x).tx = s.tx := rfl
@[simp] theorem State.setSlot_mkr (s : State) (n : Nat) (x : LSlot) : (s.setSlot n x).mkr = s.mkr := rfl
@[simp] theorem State.setSlot_ang (s : State) (n : Nat) (x : LSlot) : (s.setSlot n x).ang = s.ang := rfl
@[simp] theorem State.setSlot_tla (s : State) (n : Nat) (x : LSlot) : (s.setSlot n x).tla = s.tla := rfl
@[simp] theorem State.setSlot_nzl (s : State) (n : Nat) (x : LSlot) : (s.setSlot n x).nzl = s.nzl := rfl
@[simp] theorem State.setSlot_flt (s : State) (n : Nat) (x : LSlot) : (s.setSlot n x).flt = s.flt := rfl
@[simp] theorem State.setSlot_hk (s : State) (n : Nat) (x : LSlot) : (s.setSlot n x).hk = s.hk := rfl
@[simp] theorem State.setSlot_pins (s : State) (n : Nat) (x : LSlot) : (s.setSlot n x).pins = s.pins := rfl
@[simp] theorem State.setSlot_free (s : State) (n : Nat) (x : LSlot) : (s.setSlot n x).free = s.free := rfl
@[simp] theorem State.setSlot_out (s : State) (n : Nat) (x : LSlot) : (s.setSlot n x).out = s.out := rfl
@[simp] theorem State.setSlot_readData (s : State) (n : Nat) (x : LSlot) : (s.setSlot n x).readData = s.readData := rfl
@[simp] theorem State.setSlot_pending (s : State) (n : Nat) (x : LSlot) : (s.setSlot n x).pending = s.pending := rfl

@[simp] theorem State.setCpos_regs (s : State) (n : Nat) (x : CPos) : (s.setCpos n x).regs = s.regs := rfl
@[simp] theorem State.setCpos_shadow (s : State) (n : Nat) (x : CPos) : (s.setCpos n x).shadow = s.shadow := rfl
@[simp] theorem State.setCpos_ctxs (s : State) (n : Nat) (x : CPos) : (s.setCpos n x).ctxs = s.ctxs := rfl
@[simp] theorem State.setCpos_top (s : State) (n : Nat) (x : CPos) : (s.setCpos n x).top = s.top := rfl
@[simp] theorem State.setCpos_fresh (s : State) (n : Nat) (x : CPos) : (s.setCpos n x).fresh = s.fresh := rfl
@[simp] theorem State.setCpos_landed (s : State) (n : Nat) (x : CPos) : (s.setCpos n x).landed = s.landed := rfl
@[simp] theorem State.setCpos_time (s : State) (n : Nat) (x : CPos) : (s.setCpos n x).time = s.time := rfl
@[simp] theorem State.setCpos_clk (s : State) (n : Nat) (x : CPos) : (s.setCpos n x).clk = s.clk := rfl
@[simp] theorem State.setCpos_hif (s : State) (n : Nat) (x : CPos) : (s.setCpos n x).hif = s.hif := rfl
@[simp] theorem State.setCpos_firn (s : State) (n : Nat) (x : CPos) : (s.setCpos n x).firn = s.firn := rfl
@[simp] theorem State.setCpos_mor (s : State) (n : Nat) (x : CPos) : (s.setCpos n x).mor = s.mor := rfl
@[simp] theorem State.setCpos_seqs (s : State) (n : Nat) (x : CPos) : (s.setCpos n x).seqs = s.seqs := rfl
@[simp] theorem State.setCpos_tx (s : State) (n : Nat) (x : CPos) : (s.setCpos n x).tx = s.tx := rfl
@[simp] theorem State.setCpos_mkr (s : State) (n : Nat) (x : CPos) : (s.setCpos n x).mkr = s.mkr := rfl
@[simp] theorem State.setCpos_ang (s : State) (n : Nat) (x : CPos) : (s.setCpos n x).ang = s.ang := rfl
@[simp] theorem State.setCpos_tla (s : State) (n : Nat) (x : CPos) : (s.setCpos n x).tla = s.tla := rfl
@[simp] theorem State.setCpos_nzl (s : State) (n : Nat) (x : CPos) : (s.setCpos n x).nzl = s.nzl := rfl
@[simp] theorem State.setCpos_flt (s : State) (n : Nat) (x : CPos) : (s.setCpos n x).flt = s.flt := rfl
@[simp] theorem State.setCpos_hk (s : State) (n : Nat) (x : CPos) : (s.setCpos n x).hk = s.hk := rfl
@[simp] theorem State.setCpos_pins (s : State) (n : Nat) (x : CPos) : (s.setCpos n x).pins = s.pins := rfl
@[simp] theorem State.setCpos_free (s : State) (n : Nat) (x : CPos) : (s.setCpos n x).free = s.free := rfl
@[simp] theorem State.setCpos_out (s : State) (n : Nat) (x : CPos) : (s.setCpos n x).out = s.out := rfl
@[simp] theorem State.setCpos_readData (s : State) (n : Nat) (x : CPos) : (s.setCpos n x).readData = s.readData := rfl
@[simp] theorem State.setCpos_pending (s : State) (n : Nat) (x : CPos) : (s.setCpos n x).pending = s.pending := rfl

@[simp] theorem State.setLink_regs (s : State) (n : Nat) (x : Link) : (s.setLink n x).regs = s.regs := rfl
@[simp] theorem State.setLink_shadow (s : State) (n : Nat) (x : Link) : (s.setLink n x).shadow = s.shadow := rfl
@[simp] theorem State.setLink_ctxs (s : State) (n : Nat) (x : Link) : (s.setLink n x).ctxs = s.ctxs := rfl
@[simp] theorem State.setLink_top (s : State) (n : Nat) (x : Link) : (s.setLink n x).top = s.top := rfl
@[simp] theorem State.setLink_fresh (s : State) (n : Nat) (x : Link) : (s.setLink n x).fresh = s.fresh := rfl
@[simp] theorem State.setLink_landed (s : State) (n : Nat) (x : Link) : (s.setLink n x).landed = s.landed := rfl
@[simp] theorem State.setLink_time (s : State) (n : Nat) (x : Link) : (s.setLink n x).time = s.time := rfl
@[simp] theorem State.setLink_clk (s : State) (n : Nat) (x : Link) : (s.setLink n x).clk = s.clk := rfl
@[simp] theorem State.setLink_hif (s : State) (n : Nat) (x : Link) : (s.setLink n x).hif = s.hif := rfl
@[simp] theorem State.setLink_firn (s : State) (n : Nat) (x : Link) : (s.setLink n x).firn = s.firn := rfl
@[simp] theorem State.setLink_mor (s : State) (n : Nat) (x : Link) : (s.setLink n x).mor = s.mor := rfl
@[simp] theorem State.setLink_seqs (s : State) (n : Nat) (x : Link) : (s.setLink n x).seqs = s.seqs := rfl
@[simp] theorem State.setLink_tx (s : State) (n : Nat) (x : Link) : (s.setLink n x).tx = s.tx := rfl
@[simp] theorem State.setLink_mkr (s : State) (n : Nat) (x : Link) : (s.setLink n x).mkr = s.mkr := rfl
@[simp] theorem State.setLink_ang (s : State) (n : Nat) (x : Link) : (s.setLink n x).ang = s.ang := rfl
@[simp] theorem State.setLink_tla (s : State) (n : Nat) (x : Link) : (s.setLink n x).tla = s.tla := rfl
@[simp] theorem State.setLink_cle (s : State) (n : Nat) (x : Link) : (s.setLink n x).cle = s.cle := rfl
@[simp] theorem State.setLink_flt (s : State) (n : Nat) (x : Link) : (s.setLink n x).flt = s.flt := rfl
@[simp] theorem State.setLink_hk (s : State) (n : Nat) (x : Link) : (s.setLink n x).hk = s.hk := rfl
@[simp] theorem State.setLink_pins (s : State) (n : Nat) (x : Link) : (s.setLink n x).pins = s.pins := rfl
@[simp] theorem State.setLink_free (s : State) (n : Nat) (x : Link) : (s.setLink n x).free = s.free := rfl
@[simp] theorem State.setLink_out (s : State) (n : Nat) (x : Link) : (s.setLink n x).out = s.out := rfl
@[simp] theorem State.setLink_readData (s : State) (n : Nat) (x : Link) : (s.setLink n x).readData = s.readData := rfl
@[simp] theorem State.setLink_pending (s : State) (n : Nat) (x : Link) : (s.setLink n x).pending = s.pending := rfl

@[simp] theorem State.setPll_regs (s : State) (p : Pll) (x : PllS) : (s.setPll p x).regs = s.regs := rfl
@[simp] theorem State.setPll_shadow (s : State) (p : Pll) (x : PllS) : (s.setPll p x).shadow = s.shadow := rfl
@[simp] theorem State.setPll_ctxs (s : State) (p : Pll) (x : PllS) : (s.setPll p x).ctxs = s.ctxs := rfl
@[simp] theorem State.setPll_top (s : State) (p : Pll) (x : PllS) : (s.setPll p x).top = s.top := rfl
@[simp] theorem State.setPll_fresh (s : State) (p : Pll) (x : PllS) : (s.setPll p x).fresh = s.fresh := rfl
@[simp] theorem State.setPll_landed (s : State) (p : Pll) (x : PllS) : (s.setPll p x).landed = s.landed := rfl
@[simp] theorem State.setPll_time (s : State) (p : Pll) (x : PllS) : (s.setPll p x).time = s.time := rfl
@[simp] theorem State.setPll_hif (s : State) (p : Pll) (x : PllS) : (s.setPll p x).hif = s.hif := rfl
@[simp] theorem State.setPll_firn (s : State) (p : Pll) (x : PllS) : (s.setPll p x).firn = s.firn := rfl
@[simp] theorem State.setPll_mor (s : State) (p : Pll) (x : PllS) : (s.setPll p x).mor = s.mor := rfl
@[simp] theorem State.setPll_seqs (s : State) (p : Pll) (x : PllS) : (s.setPll p x).seqs = s.seqs := rfl
@[simp] theorem State.setPll_tx (s : State) (p : Pll) (x : PllS) : (s.setPll p x).tx = s.tx := rfl
@[simp] theorem State.setPll_mkr (s : State) (p : Pll) (x : PllS) : (s.setPll p x).mkr = s.mkr := rfl
@[simp] theorem State.setPll_ang (s : State) (p : Pll) (x : PllS) : (s.setPll p x).ang = s.ang := rfl
@[simp] theorem State.setPll_tla (s : State) (p : Pll) (x : PllS) : (s.setPll p x).tla = s.tla := rfl
@[simp] theorem State.setPll_cle (s : State) (p : Pll) (x : PllS) : (s.setPll p x).cle = s.cle := rfl
@[simp] theorem State.setPll_nzl (s : State) (p : Pll) (x : PllS) : (s.setPll p x).nzl = s.nzl := rfl
@[simp] theorem State.setPll_flt (s : State) (p : Pll) (x : PllS) : (s.setPll p x).flt = s.flt := rfl
@[simp] theorem State.setPll_hk (s : State) (p : Pll) (x : PllS) : (s.setPll p x).hk = s.hk := rfl
@[simp] theorem State.setPll_pins (s : State) (p : Pll) (x : PllS) : (s.setPll p x).pins = s.pins := rfl
@[simp] theorem State.setPll_free (s : State) (p : Pll) (x : PllS) : (s.setPll p x).free = s.free := rfl
@[simp] theorem State.setPll_out (s : State) (p : Pll) (x : PllS) : (s.setPll p x).out = s.out := rfl
@[simp] theorem State.setPll_readData (s : State) (p : Pll) (x : PllS) : (s.setPll p x).readData = s.readData := rfl
@[simp] theorem State.setPll_pending (s : State) (p : Pll) (x : PllS) : (s.setPll p x).pending = s.pending := rfl

@[simp] theorem State.raise_shadow (s : State) (a : Nat) (m : Word) : (s.raise a m).shadow = s.shadow := rfl
@[simp] theorem State.raise_ctxs (s : State) (a : Nat) (m : Word) : (s.raise a m).ctxs = s.ctxs := rfl
@[simp] theorem State.raise_top (s : State) (a : Nat) (m : Word) : (s.raise a m).top = s.top := rfl
@[simp] theorem State.raise_landed (s : State) (a : Nat) (m : Word) : (s.raise a m).landed = s.landed := rfl
@[simp] theorem State.raise_time (s : State) (a : Nat) (m : Word) : (s.raise a m).time = s.time := rfl
@[simp] theorem State.raise_clk (s : State) (a : Nat) (m : Word) : (s.raise a m).clk = s.clk := rfl
@[simp] theorem State.raise_hif (s : State) (a : Nat) (m : Word) : (s.raise a m).hif = s.hif := rfl
@[simp] theorem State.raise_firn (s : State) (a : Nat) (m : Word) : (s.raise a m).firn = s.firn := rfl
@[simp] theorem State.raise_mor (s : State) (a : Nat) (m : Word) : (s.raise a m).mor = s.mor := rfl
@[simp] theorem State.raise_seqs (s : State) (a : Nat) (m : Word) : (s.raise a m).seqs = s.seqs := rfl
@[simp] theorem State.raise_tx (s : State) (a : Nat) (m : Word) : (s.raise a m).tx = s.tx := rfl
@[simp] theorem State.raise_mkr (s : State) (a : Nat) (m : Word) : (s.raise a m).mkr = s.mkr := rfl
@[simp] theorem State.raise_ang (s : State) (a : Nat) (m : Word) : (s.raise a m).ang = s.ang := rfl
@[simp] theorem State.raise_tla (s : State) (a : Nat) (m : Word) : (s.raise a m).tla = s.tla := rfl
@[simp] theorem State.raise_cle (s : State) (a : Nat) (m : Word) : (s.raise a m).cle = s.cle := rfl
@[simp] theorem State.raise_nzl (s : State) (a : Nat) (m : Word) : (s.raise a m).nzl = s.nzl := rfl
@[simp] theorem State.raise_flt (s : State) (a : Nat) (m : Word) : (s.raise a m).flt = s.flt := rfl
@[simp] theorem State.raise_hk (s : State) (a : Nat) (m : Word) : (s.raise a m).hk = s.hk := rfl
@[simp] theorem State.raise_pins (s : State) (a : Nat) (m : Word) : (s.raise a m).pins = s.pins := rfl
@[simp] theorem State.raise_free (s : State) (a : Nat) (m : Word) : (s.raise a m).free = s.free := rfl
@[simp] theorem State.raise_out (s : State) (a : Nat) (m : Word) : (s.raise a m).out = s.out := rfl
@[simp] theorem State.raise_readData (s : State) (a : Nat) (m : Word) : (s.raise a m).readData = s.readData := rfl
@[simp] theorem State.raise_pending (s : State) (a : Nat) (m : Word) : (s.raise a m).pending = s.pending := rfl

@[simp] theorem State.bump_shadow (s : State) (a : Nat) : (s.bump a).shadow = s.shadow := rfl
@[simp] theorem State.bump_ctxs (s : State) (a : Nat) : (s.bump a).ctxs = s.ctxs := rfl
@[simp] theorem State.bump_top (s : State) (a : Nat) : (s.bump a).top = s.top := rfl
@[simp] theorem State.bump_fresh (s : State) (a : Nat) : (s.bump a).fresh = s.fresh := rfl
@[simp] theorem State.bump_landed (s : State) (a : Nat) : (s.bump a).landed = s.landed := rfl
@[simp] theorem State.bump_time (s : State) (a : Nat) : (s.bump a).time = s.time := rfl
@[simp] theorem State.bump_clk (s : State) (a : Nat) : (s.bump a).clk = s.clk := rfl
@[simp] theorem State.bump_hif (s : State) (a : Nat) : (s.bump a).hif = s.hif := rfl
@[simp] theorem State.bump_firn (s : State) (a : Nat) : (s.bump a).firn = s.firn := rfl
@[simp] theorem State.bump_mor (s : State) (a : Nat) : (s.bump a).mor = s.mor := rfl
@[simp] theorem State.bump_seqs (s : State) (a : Nat) : (s.bump a).seqs = s.seqs := rfl
@[simp] theorem State.bump_tx (s : State) (a : Nat) : (s.bump a).tx = s.tx := rfl
@[simp] theorem State.bump_mkr (s : State) (a : Nat) : (s.bump a).mkr = s.mkr := rfl
@[simp] theorem State.bump_ang (s : State) (a : Nat) : (s.bump a).ang = s.ang := rfl
@[simp] theorem State.bump_tla (s : State) (a : Nat) : (s.bump a).tla = s.tla := rfl
@[simp] theorem State.bump_cle (s : State) (a : Nat) : (s.bump a).cle = s.cle := rfl
@[simp] theorem State.bump_nzl (s : State) (a : Nat) : (s.bump a).nzl = s.nzl := rfl
@[simp] theorem State.bump_flt (s : State) (a : Nat) : (s.bump a).flt = s.flt := rfl
@[simp] theorem State.bump_hk (s : State) (a : Nat) : (s.bump a).hk = s.hk := rfl
@[simp] theorem State.bump_pins (s : State) (a : Nat) : (s.bump a).pins = s.pins := rfl
@[simp] theorem State.bump_free (s : State) (a : Nat) : (s.bump a).free = s.free := rfl
@[simp] theorem State.bump_out (s : State) (a : Nat) : (s.bump a).out = s.out := rfl
@[simp] theorem State.bump_readData (s : State) (a : Nat) : (s.bump a).readData = s.readData := rfl
@[simp] theorem State.bump_pending (s : State) (a : Nat) : (s.bump a).pending = s.pending := rfl

@[simp] theorem State.bumpBy_shadow (s : State) (a k : Nat) : (s.bumpBy a k).shadow = s.shadow := rfl
@[simp] theorem State.bumpBy_ctxs (s : State) (a k : Nat) : (s.bumpBy a k).ctxs = s.ctxs := rfl
@[simp] theorem State.bumpBy_top (s : State) (a k : Nat) : (s.bumpBy a k).top = s.top := rfl
@[simp] theorem State.bumpBy_fresh (s : State) (a k : Nat) : (s.bumpBy a k).fresh = s.fresh := rfl
@[simp] theorem State.bumpBy_landed (s : State) (a k : Nat) : (s.bumpBy a k).landed = s.landed := rfl
@[simp] theorem State.bumpBy_time (s : State) (a k : Nat) : (s.bumpBy a k).time = s.time := rfl
@[simp] theorem State.bumpBy_clk (s : State) (a k : Nat) : (s.bumpBy a k).clk = s.clk := rfl
@[simp] theorem State.bumpBy_hif (s : State) (a k : Nat) : (s.bumpBy a k).hif = s.hif := rfl
@[simp] theorem State.bumpBy_firn (s : State) (a k : Nat) : (s.bumpBy a k).firn = s.firn := rfl
@[simp] theorem State.bumpBy_mor (s : State) (a k : Nat) : (s.bumpBy a k).mor = s.mor := rfl
@[simp] theorem State.bumpBy_seqs (s : State) (a k : Nat) : (s.bumpBy a k).seqs = s.seqs := rfl
@[simp] theorem State.bumpBy_tx (s : State) (a k : Nat) : (s.bumpBy a k).tx = s.tx := rfl
@[simp] theorem State.bumpBy_mkr (s : State) (a k : Nat) : (s.bumpBy a k).mkr = s.mkr := rfl
@[simp] theorem State.bumpBy_ang (s : State) (a k : Nat) : (s.bumpBy a k).ang = s.ang := rfl
@[simp] theorem State.bumpBy_tla (s : State) (a k : Nat) : (s.bumpBy a k).tla = s.tla := rfl
@[simp] theorem State.bumpBy_cle (s : State) (a k : Nat) : (s.bumpBy a k).cle = s.cle := rfl
@[simp] theorem State.bumpBy_nzl (s : State) (a k : Nat) : (s.bumpBy a k).nzl = s.nzl := rfl
@[simp] theorem State.bumpBy_flt (s : State) (a k : Nat) : (s.bumpBy a k).flt = s.flt := rfl
@[simp] theorem State.bumpBy_hk (s : State) (a k : Nat) : (s.bumpBy a k).hk = s.hk := rfl
@[simp] theorem State.bumpBy_pins (s : State) (a k : Nat) : (s.bumpBy a k).pins = s.pins := rfl
@[simp] theorem State.bumpBy_free (s : State) (a k : Nat) : (s.bumpBy a k).free = s.free := rfl
@[simp] theorem State.bumpBy_out (s : State) (a k : Nat) : (s.bumpBy a k).out = s.out := rfl
@[simp] theorem State.bumpBy_readData (s : State) (a k : Nat) : (s.bumpBy a k).readData = s.readData := rfl
@[simp] theorem State.bumpBy_pending (s : State) (a k : Nat) : (s.bumpBy a k).pending = s.pending := rfl

@[simp] theorem State.emit_regs (s : State) (o : Out) : (s.emit o).regs = s.regs := rfl
@[simp] theorem State.emit_shadow (s : State) (o : Out) : (s.emit o).shadow = s.shadow := rfl
@[simp] theorem State.emit_ctxs (s : State) (o : Out) : (s.emit o).ctxs = s.ctxs := rfl
@[simp] theorem State.emit_top (s : State) (o : Out) : (s.emit o).top = s.top := rfl
@[simp] theorem State.emit_fresh (s : State) (o : Out) : (s.emit o).fresh = s.fresh := rfl
@[simp] theorem State.emit_landed (s : State) (o : Out) : (s.emit o).landed = s.landed := rfl
@[simp] theorem State.emit_time (s : State) (o : Out) : (s.emit o).time = s.time := rfl
@[simp] theorem State.emit_clk (s : State) (o : Out) : (s.emit o).clk = s.clk := rfl
@[simp] theorem State.emit_hif (s : State) (o : Out) : (s.emit o).hif = s.hif := rfl
@[simp] theorem State.emit_firn (s : State) (o : Out) : (s.emit o).firn = s.firn := rfl
@[simp] theorem State.emit_mor (s : State) (o : Out) : (s.emit o).mor = s.mor := rfl
@[simp] theorem State.emit_seqs (s : State) (o : Out) : (s.emit o).seqs = s.seqs := rfl
@[simp] theorem State.emit_tx (s : State) (o : Out) : (s.emit o).tx = s.tx := rfl
@[simp] theorem State.emit_mkr (s : State) (o : Out) : (s.emit o).mkr = s.mkr := rfl
@[simp] theorem State.emit_ang (s : State) (o : Out) : (s.emit o).ang = s.ang := rfl
@[simp] theorem State.emit_tla (s : State) (o : Out) : (s.emit o).tla = s.tla := rfl
@[simp] theorem State.emit_cle (s : State) (o : Out) : (s.emit o).cle = s.cle := rfl
@[simp] theorem State.emit_nzl (s : State) (o : Out) : (s.emit o).nzl = s.nzl := rfl
@[simp] theorem State.emit_flt (s : State) (o : Out) : (s.emit o).flt = s.flt := rfl
@[simp] theorem State.emit_hk (s : State) (o : Out) : (s.emit o).hk = s.hk := rfl
@[simp] theorem State.emit_pins (s : State) (o : Out) : (s.emit o).pins = s.pins := rfl
@[simp] theorem State.emit_free (s : State) (o : Out) : (s.emit o).free = s.free := rfl
@[simp] theorem State.emit_readData (s : State) (o : Out) : (s.emit o).readData = s.readData := rfl
@[simp] theorem State.emit_pending (s : State) (o : Out) : (s.emit o).pending = s.pending := rfl

@[simp] theorem State.detect_regs (s : State) (c k i : Nat) (d : Word) (b : Bool) : (s.detect c k i d b).regs = s.regs := rfl
@[simp] theorem State.detect_shadow (s : State) (c k i : Nat) (d : Word) (b : Bool) : (s.detect c k i d b).shadow = s.shadow := rfl
@[simp] theorem State.detect_ctxs (s : State) (c k i : Nat) (d : Word) (b : Bool) : (s.detect c k i d b).ctxs = s.ctxs := rfl
@[simp] theorem State.detect_top (s : State) (c k i : Nat) (d : Word) (b : Bool) : (s.detect c k i d b).top = s.top := rfl
@[simp] theorem State.detect_fresh (s : State) (c k i : Nat) (d : Word) (b : Bool) : (s.detect c k i d b).fresh = s.fresh := rfl
@[simp] theorem State.detect_landed (s : State) (c k i : Nat) (d : Word) (b : Bool) : (s.detect c k i d b).landed = s.landed := rfl
@[simp] theorem State.detect_time (s : State) (c k i : Nat) (d : Word) (b : Bool) : (s.detect c k i d b).time = s.time := rfl
@[simp] theorem State.detect_clk (s : State) (c k i : Nat) (d : Word) (b : Bool) : (s.detect c k i d b).clk = s.clk := rfl
@[simp] theorem State.detect_hif (s : State) (c k i : Nat) (d : Word) (b : Bool) : (s.detect c k i d b).hif = s.hif := rfl
@[simp] theorem State.detect_firn (s : State) (c k i : Nat) (d : Word) (b : Bool) : (s.detect c k i d b).firn = s.firn := rfl
@[simp] theorem State.detect_mor (s : State) (c k i : Nat) (d : Word) (b : Bool) : (s.detect c k i d b).mor = s.mor := rfl
@[simp] theorem State.detect_seqs (s : State) (c k i : Nat) (d : Word) (b : Bool) : (s.detect c k i d b).seqs = s.seqs := rfl
@[simp] theorem State.detect_tx (s : State) (c k i : Nat) (d : Word) (b : Bool) : (s.detect c k i d b).tx = s.tx := rfl
@[simp] theorem State.detect_mkr (s : State) (c k i : Nat) (d : Word) (b : Bool) : (s.detect c k i d b).mkr = s.mkr := rfl
@[simp] theorem State.detect_ang (s : State) (c k i : Nat) (d : Word) (b : Bool) : (s.detect c k i d b).ang = s.ang := rfl
@[simp] theorem State.detect_tla (s : State) (c k i : Nat) (d : Word) (b : Bool) : (s.detect c k i d b).tla = s.tla := rfl
@[simp] theorem State.detect_cle (s : State) (c k i : Nat) (d : Word) (b : Bool) : (s.detect c k i d b).cle = s.cle := rfl
@[simp] theorem State.detect_nzl (s : State) (c k i : Nat) (d : Word) (b : Bool) : (s.detect c k i d b).nzl = s.nzl := rfl
@[simp] theorem State.detect_hk (s : State) (c k i : Nat) (d : Word) (b : Bool) : (s.detect c k i d b).hk = s.hk := rfl
@[simp] theorem State.detect_pins (s : State) (c k i : Nat) (d : Word) (b : Bool) : (s.detect c k i d b).pins = s.pins := rfl
@[simp] theorem State.detect_free (s : State) (c k i : Nat) (d : Word) (b : Bool) : (s.detect c k i d b).free = s.free := rfl
@[simp] theorem State.detect_out (s : State) (c k i : Nat) (d : Word) (b : Bool) : (s.detect c k i d b).out = s.out := rfl
@[simp] theorem State.detect_readData (s : State) (c k i : Nat) (d : Word) (b : Bool) : (s.detect c k i d b).readData = s.readData := rfl
@[simp] theorem State.detect_pending (s : State) (c k i : Nat) (d : Word) (b : Bool) : (s.detect c k i d b).pending = s.pending := rfl

/-! Reading after writing. -/

@[simp] theorem State.seq_setSeq (s : State) (n : Nat) (x : Seq) : (s.setSeq n x).seq n = x := Tab.get_set
theorem State.seq_setSeq_ne (s : State) {n k : Nat} (x : Seq) (h : k ≠ n) : (s.setSeq n x).seq k = s.seq k := Tab.get_set_ne h
@[simp] theorem State.ring_setRing (s : State) (n : Nat) (x : Ring) : (s.setRing n x).ring n = x := Tab.get_set
theorem State.ring_setRing_ne (s : State) {n k : Nat} (x : Ring) (h : k ≠ n) : (s.setRing n x).ring k = s.ring k := Tab.get_set_ne h
@[simp] theorem State.txl_setTxl (s : State) (n : Nat) (x : TxLink) : (s.setTxl n x).txl n = x := Tab.get_set
theorem State.txl_setTxl_ne (s : State) {n k : Nat} (x : TxLink) (h : k ≠ n) : (s.setTxl n x).txl k = s.txl k := Tab.get_set_ne h
@[simp] theorem State.line_setLine (s : State) (n : Nat) (x : Line) : (s.setLine n x).line n = x := Tab.get_set
theorem State.line_setLine_ne (s : State) {n k : Nat} (x : Line) (h : k ≠ n) : (s.setLine n x).line k = s.line k := Tab.get_set_ne h
@[simp] theorem State.pair_setPair (s : State) (n : Nat) (x : Pair) : (s.setPair n x).pair n = x := Tab.get_set
theorem State.pair_setPair_ne (s : State) {n k : Nat} (x : Pair) (h : k ≠ n) : (s.setPair n x).pair k = s.pair k := Tab.get_set_ne h
@[simp] theorem State.trk_setTrk (s : State) (n : Nat) (x : Trk) : (s.setTrk n x).trk n = x := Tab.get_set
theorem State.trk_setTrk_ne (s : State) {n k : Nat} (x : Trk) (h : k ≠ n) : (s.setTrk n x).trk k = s.trk k := Tab.get_set_ne h
@[simp] theorem State.bank_setBank (s : State) (n : Nat) (x : Bank) : (s.setBank n x).bank n = x := Tab.get_set
theorem State.bank_setBank_ne (s : State) {n k : Nat} (x : Bank) (h : k ≠ n) : (s.setBank n x).bank k = s.bank k := Tab.get_set_ne h
@[simp] theorem State.spare_setSpare (s : State) (n : Nat) (x : Spare) : (s.setSpare n x).spare n = x := Tab.get_set
theorem State.spare_setSpare_ne (s : State) {n k : Nat} (x : Spare) (h : k ≠ n) : (s.setSpare n x).spare k = s.spare k := Tab.get_set_ne h
@[simp] theorem State.chan_setChan (s : State) (n : Nat) (x : Chan) : (s.setChan n x).chan n = x := Tab.get_set
theorem State.chan_setChan_ne (s : State) {n k : Nat} (x : Chan) (h : k ≠ n) : (s.setChan n x).chan k = s.chan k := Tab.get_set_ne h
@[simp] theorem State.stream_setStream (s : State) (n : Nat) (x : Stream) : (s.setStream n x).stream n = x := Tab.get_set
theorem State.stream_setStream_ne (s : State) {n k : Nat} (x : Stream) (h : k ≠ n) : (s.setStream n x).stream k = s.stream k := Tab.get_set_ne h
@[simp] theorem State.slot_setSlot (s : State) (n : Nat) (x : LSlot) : (s.setSlot n x).slot n = x := Tab.get_set
theorem State.slot_setSlot_ne (s : State) {n k : Nat} (x : LSlot) (h : k ≠ n) : (s.setSlot n x).slot k = s.slot k := Tab.get_set_ne h
@[simp] theorem State.cpos_setCpos (s : State) (n : Nat) (x : CPos) : (s.setCpos n x).cpos n = x := Tab.get_set
theorem State.cpos_setCpos_ne (s : State) {n k : Nat} (x : CPos) (h : k ≠ n) : (s.setCpos n x).cpos k = s.cpos k := Tab.get_set_ne h
@[simp] theorem State.link_setLink (s : State) (n : Nat) (x : Link) : (s.setLink n x).link n = x := Tab.get_set
theorem State.link_setLink_ne (s : State) {n k : Nat} (x : Link) (h : k ≠ n) : (s.setLink n x).link k = s.link k := Tab.get_set_ne h

@[simp] theorem State.reg_putReg (s : State) (a : Nat) (v : Word) : (s.putReg a v).reg a = v := Tab.get_set

theorem State.reg_putReg_ne (s : State) {a b : Nat} (v : Word) (h : b ≠ a) : (s.putReg a v).reg b = s.reg b :=
  Tab.get_set_ne h

@[simp] theorem State.ctx_setCtx (s : State) (w : Nat) (rq : Requester) (c : Ctx) : (s.setCtx w rq c).ctx w rq = c := Tab.get_set

@[simp] theorem State.pll_setPll (s : State) (p : Pll) (x : PllS) : (s.setPll p x).pll p = x := by cases p <;> rfl

/-- What a change by an accepted write or by the part's own rule does: the register, and the shadow of a guarded one. -/
theorem State.setReg_eq (s : State) (a : Nat) (v : Word) : s.setReg a v = { s with
    regs := Tab.set regDefault s.regs a v
    shadow := if guardedAt a then Tab.set regDefault s.shadow a v else s.shadow } := by
  unfold State.setReg
  dsimp only
  split <;> rfl

@[simp] theorem State.reg_setReg (s : State) (a : Nat) (v : Word) : (s.setReg a v).reg a = v := by
  rw [State.setReg_eq]
  exact Tab.get_set

theorem State.reg_setReg_ne (s : State) {a b : Nat} (v : Word) (h : b ≠ a) : (s.setReg a v).reg b = s.reg b := by
  rw [State.setReg_eq]
  exact Tab.get_set_ne h

theorem State.shadowAt_setReg (s : State) {a : Nat} (v : Word) (h : guardedAt a = true) : (s.setReg a v).shadowAt a = v := by
  rw [State.setReg_eq, if_pos h]
  exact Tab.get_set

theorem State.shadowAt_setReg_ne (s : State) {a b : Nat} (v : Word) (h : b ≠ a) :
    (s.setReg a v).shadowAt b = s.shadowAt b := by
  rw [State.setReg_eq]
  unfold State.shadowAt
  dsimp only
  split
  · exact Tab.get_set_ne h
  · rfl

@[simp] theorem State.setReg_ctxs (s : State) (a : Nat) (v : Word) : (s.setReg a v).ctxs = s.ctxs := by rw [State.setReg_eq]
@[simp] theorem State.setReg_top (s : State) (a : Nat) (v : Word) : (s.setReg a v).top = s.top := by rw [State.setReg_eq]
@[simp] theorem State.setReg_fresh (s : State) (a : Nat) (v : Word) : (s.setReg a v).fresh = s.fresh := by rw [State.setReg_eq]
@[simp] theorem State.setReg_landed (s : State) (a : Nat) (v : Word) : (s.setReg a v).landed = s.landed := by rw [State.setReg_eq]
@[simp] theorem State.setReg_time (s : State) (a : Nat) (v : Word) : (s.setReg a v).time = s.time := by rw [State.setReg_eq]
@[simp] theorem State.setReg_clk (s : State) (a : Nat) (v : Word) : (s.setReg a v).clk = s.clk := by rw [State.setReg_eq]
@[simp] theorem State.setReg_hif (s : State) (a : Nat) (v : Word) : (s.setReg a v).hif = s.hif := by rw [State.setReg_eq]
@[simp] theorem State.setReg_firn (s : State) (a : Nat) (v : Word) : (s.setReg a v).firn = s.firn := by rw [State.setReg_eq]
@[simp] theorem State.setReg_mor (s : State) (a : Nat) (v : Word) : (s.setReg a v).mor = s.mor := by rw [State.setReg_eq]
@[simp] theorem State.setReg_seqs (s : State) (a : Nat) (v : Word) : (s.setReg a v).seqs = s.seqs := by rw [State.setReg_eq]
@[simp] theorem State.setReg_tx (s : State) (a : Nat) (v : Word) : (s.setReg a v).tx = s.tx := by rw [State.setReg_eq]
@[simp] theorem State.setReg_mkr (s : State) (a : Nat) (v : Word) : (s.setReg a v).mkr = s.mkr := by rw [State.setReg_eq]
@[simp] theorem State.setReg_ang (s : State) (a : Nat) (v : Word) : (s.setReg a v).ang = s.ang := by rw [State.setReg_eq]
@[simp] theorem State.setReg_tla (s : State) (a : Nat) (v : Word) : (s.setReg a v).tla = s.tla := by rw [State.setReg_eq]
@[simp] theorem State.setReg_cle (s : State) (a : Nat) (v : Word) : (s.setReg a v).cle = s.cle := by rw [State.setReg_eq]
@[simp] theorem State.setReg_nzl (s : State) (a : Nat) (v : Word) : (s.setReg a v).nzl = s.nzl := by rw [State.setReg_eq]
@[simp] theorem State.setReg_flt (s : State) (a : Nat) (v : Word) : (s.setReg a v).flt = s.flt := by rw [State.setReg_eq]
@[simp] theorem State.setReg_hk (s : State) (a : Nat) (v : Word) : (s.setReg a v).hk = s.hk := by rw [State.setReg_eq]
@[simp] theorem State.setReg_pins (s : State) (a : Nat) (v : Word) : (s.setReg a v).pins = s.pins := by rw [State.setReg_eq]
@[simp] theorem State.setReg_free (s : State) (a : Nat) (v : Word) : (s.setReg a v).free = s.free := by rw [State.setReg_eq]
@[simp] theorem State.setReg_out (s : State) (a : Nat) (v : Word) : (s.setReg a v).out = s.out := by rw [State.setReg_eq]
@[simp] theorem State.setReg_readData (s : State) (a : Nat) (v : Word) : (s.setReg a v).readData = s.readData := by rw [State.setReg_eq]
@[simp] theorem State.setReg_pending (s : State) (a : Nat) (v : Word) : (s.setReg a v).pending = s.pending := by rw [State.setReg_eq]

end Sys2Proof.Machine
end

