-- ==== Sys2Proof/Laws/Burst.lean ====
section
/-!
SUPPORT. Bursts, jumps and the rows of orders and triggers: what the sequencer holds after each (08 R224 to R231).
-/

namespace Sys2Proof.Machine

open Sys2Proof.Safety

theorem seq_setSeq_self (s : State) (n q) : (s.setSeq n q).seq n = q := by simp

theorem onlySeq_refl (n s) : OnlySeq n s s := by constructor <;> intros <;> rfl

theorem winner_target {s : State} {n lane a} (h : s.winner n lane = some a) : a.ord.chan = n ∧ a.ord.lane = lane := by
  have := List.find?_some h
  simp at this; exact ⟨this.1.1, this.1.2⟩

theorem State.atEdge_come {s : State} {e f} (h : e / 16 ≤ s.now) : s.atEdge e f = f s := by
  have : s.toEdge e = s := by
    unfold State.toEdge State.toCycle; rw [Nat.sub_eq_zero_of_le h]; rfl
  unfold State.atEdge; simp only [this]; rw [if_neg (by omega)]

theorem winner_waits {s : State} {n lane a} (h : s.winner n lane = some a) : s.time.acting.contains a = true := by
  have := List.mem_of_find?_eq_some h
  simpa using this

theorem orderRow_ready {s : State} {n lane : Nat} {a p} (h : Ready s n lane a) (hp : p a.ord.action = true) :
    s.orderRow n lane p = s.winnerActs a := by
  unfold State.orderRow
  rw [h.winner]; simp only [Option.filter, hp, if_true]
  rw [State.atEdge_come h.come]; rw [if_pos (winner_waits h.winner)]

theorem orderRow_acted {s : State} {n lane : Nat} {a p st t} (h : Ready s n lane a) (hp : p a.ord.action = true)
   (hl : s.laneAct a.ord (s.ordEdge a.ord) = (st, t)) : s.orderRow n lane p = acted s t a st := by
  rw [orderRow_ready h hp]; unfold State.winnerActs; simp only [hl]; rfl

theorem linesStart_seqs (s : State) (n e) : (s.linesStart n e).seqs = s.seqs := by
  unfold State.linesStart
  generalize s.ownedLines n = l
  unfold State.each
  induction l generalizing s with
  | nil => rfl
  | cons x l ih => rw [List.foldl_cons, ih]; rfl

theorem linesStart_regs (s : State) (n e) : (s.linesStart n e).regs = s.regs := by
  unfold State.linesStart
  generalize s.ownedLines n = l
  unfold State.each
  induction l generalizing s with
  | nil => rfl
  | cons x l ih => rw [List.foldl_cons, ih]; rfl

theorem seq_setSeq_other (s : State) {n m q} (h : n ≠ m) : (s.setSeq m q).seq n = s.seq n := by
  unfold State.seq State.setSeq; exact Tab.get_set_ne h

theorem streamStop_seqs (s : State) (n) : (s.streamStop n).seqs = s.seqs := by unfold State.streamStop; dsimp only; split <;> rfl

theorem streamStop_regs (s : State) (n) : (s.streamStop n).regs = s.regs := by unfold State.streamStop; dsimp only; split <;> rfl

theorem seq_of_seqs {s t : State} (h : t.seqs = s.seqs) (n) : t.seq n = s.seq n := by unfold State.seq; rw [h]

/-- An entry taken in leaves the channel's own state as it is. -/
theorem take_fields (q : Seq) (e) : (q.take e).st = q.st ∧ (q.take e).bnd = q.bnd ∧ (q.take e).stack = q.stack ∧
    (q.take e).latch = q.latch ∧ (q.take e).stopAtEnd = q.stopAtEnd ∧ (q.take e).ownEnd = q.ownEnd ∧ (q.take e).ncoAt = q.ncoAt ∧
    (q.take e).phase = q.phase ∧ (q.take e).play = q.play ∧ (q.take e).waiting = q.waiting := by
  unfold Seq.take
  dsimp only
  simp

theorem takes_fields (l : List LEntry) (q : Seq) : let r := l.foldl Seq.take q
    r.st = q.st ∧ r.bnd = q.bnd ∧ r.stack = q.stack ∧ r.latch = q.latch ∧ r.stopAtEnd = q.stopAtEnd ∧ r.ownEnd = q.ownEnd ∧
      r.ncoAt = q.ncoAt ∧ r.phase = q.phase ∧ r.play = q.play ∧ r.waiting = q.waiting := by
  induction l generalizing q with
  | nil => simp
  | cons x l ih =>
    have h1 := ih (q.take x)
    have h2 := take_fields q x
    simp only [List.foldl_cons] at *
    simp only [h1, h2, and_self]

theorem clearPath_seq (s : State) (n) :
    (s.clearPath n).seq n = { s.seq n with look := [], fetchEnded := true, noPlay := (s.seq n).ran } := by
  unfold State.clearPath State.modSeq
  dsimp only
  split
  · exact seq_setSeq_self ..
  · rw [seq_of_seqs (streamStop_seqs _ _), seq_setSeq_self]

theorem clearPath_regs (s : State) (n) : (s.clearPath n).regs = s.regs := by
  unfold State.clearPath State.modSeq
  dsimp only
  split
  · rfl
  · rw [streamStop_regs]
    rfl

theorem sampleUp_of_regs {s t : State} (h : t.regs = s.regs) (n e) : t.sampleUp n e = s.sampleUp n e := by
  unfold State.sampleUp State.spacing State.fld State.reg
  rw [h]

/-- Play that goes to a target: what the channel holds then. -/
theorem goTo_fields (s : State) (n tg e) : let q := (s.goTo n tg e).seq n; let p := s.seq n
    q.st = .run ∧ q.bnd = s.sampleUp n e ∧ q.stack = p.stack ∧ q.latch = p.latch ∧ q.stopAtEnd = p.stopAtEnd ∧
      q.ownEnd = p.ownEnd ∧ q.ncoAt = p.ncoAt ∧ q.phase = p.phase ∧ q.play = p.play ∧ q.waiting = p.waiting ∧
      (∀ i, tg = .entry i → p.pre = [] → q.fetchNext = i.toNat) ∧ (s.goTo n tg e).regs = s.regs := by
  have hs : (s.clearPath n).sampleUp n e = s.sampleUp n e := sampleUp_of_regs (clearPath_regs s n) n e
  unfold State.goTo
  dsimp only
  rw [hs, seq_setSeq_self]
  have h := takes_fields (((((s.clearPath n).seq n).broughtBy tg).getD [])) { (s.clearPath n).seq n with
    st := .run, bnd := s.sampleUp n e, fetchStack := ((s.clearPath n).seq n).stack, fetchEnded := false
    fetchNext := (s.clearPath n).targetEntry n tg, cold := ((s.clearPath n).seq n).isCold tg
    pre := ((s.clearPath n).seq n).pre.filter (fun x => x.target != tg) }
  dsimp only at h
  have hc := clearPath_seq s n
  refine ⟨h.1, h.2.1, ?_, ?_, ?_, ?_, ?_, ?_, ?_, ?_, ?_, ?_⟩
  · rw [h.2.2.1, hc]
  · rw [h.2.2.2.1, hc]
  · rw [h.2.2.2.2.1, hc]
  · rw [h.2.2.2.2.2.1, hc]
  · rw [h.2.2.2.2.2.2.1, hc]
  · rw [h.2.2.2.2.2.2.2.1, hc]
  · rw [h.2.2.2.2.2.2.2.2.1, hc]
  · rw [h.2.2.2.2.2.2.2.2.2, hc]
  · rintro i rfl hp
    have hb : ((s.clearPath n).seq n).broughtBy (.entry i) = none := by
      unfold Seq.broughtBy
      rw [hc]
      simp [hp]
    rw [hb]
    rfl
  · exact clearPath_regs s n

/-- On a channel with no play the samples before an edge are out. -/
theorem keepLast_noPlay {s : State} {n e : Nat} (h : (s.seq n).play = none) :
    ∃ v, s.keepLast n e = s.modSeq n (fun q => { q with last := v }) := by
  refine ⟨s.valueAt n (e - s.spacing n), ?_⟩
  unfold State.keepLast State.samplesTo
  rw [h]

theorem aPlink_ne_starts (n : Nat) : aPlink ≠ wSeq n + 0x98 := by unfold aPlink wSeq; omega

/-- A burst that begins on an idle channel with no play. -/
theorem startBurst_fields (s : State) (n tg e) (hi : (s.seq n).st = .idle) (hp : (s.seq n).play = none) :
    let t := s.startBurst n tg e; let q := t.seq n; let p := s.seq n
    q.st = .run ∧ q.bnd = s.sampleUp n e ∧ q.stack = [] ∧ q.latch = none ∧ q.stopAtEnd = false ∧ q.ownEnd = none ∧
      q.ncoAt = p.ncoAt ∧ q.phase = p.phase ∧ (∀ i, tg = .entry i → p.pre = [] → q.fetchNext = i.toNat) ∧
      t.regs = (s.bump (wSeq n + 0x98)).regs := by
  have he : s.endBurst n e = s := by
    unfold State.endBurst Seq.bursting
    rw [hi]
    rfl
  obtain ⟨v, hv⟩ := keepLast_noPlay (e := e) hp
  unfold State.startBurst
  dsimp only
  rw [he, hv]
  generalize hu : ((s.modSeq n (fun q => { q with last := v })).bump (wSeq n + 0x98)).modSeq n (fun q => { q with
    stack := [], latch := none, stopAtEnd := false, ownEnd := none, errHold := false, ran := 0 }) = u
  have g := goTo_fields u n tg e
  dsimp only at g
  have e1 : (((u.goTo n tg e).extChange (0x30 + n) true e).linesStart n (u.sampleUp n e)).seq n = (u.goTo n tg e).seq n :=
    seq_of_seqs ((linesStart_seqs ..).trans rfl) n
  have eu : u.seq n = { s.seq n with
      last := v, stack := [], latch := none, stopAtEnd := false, ownEnd := none, errHold := false, ran := 0 } := by
    rw [← hu]
    unfold State.modSeq
    rw [seq_setSeq_self]
    show { ((s.setSeq n _).seq n) with stack := [], latch := none, stopAtEnd := false, ownEnd := none, errHold := false, ran := 0 } = _
    rw [seq_setSeq_self]
  have er : u.regs = (s.bump (wSeq n + 0x98)).regs := by rw [← hu]; rfl
  have esu : u.sampleUp n e = s.sampleUp n e := by
    unfold State.sampleUp State.spacing State.fld
    have : u.reg aPlink = s.reg aPlink := by
      unfold State.reg
      rw [er]
      show Tab.get regDefault (Tab.set _ _ _ _) _ = _
      exact Tab.get_set_ne (aPlink_ne_starts n)
    rw [this]
  rw [e1]
  rw [eu, esu] at g
  refine ⟨g.1, g.2.1, g.2.2.1, g.2.2.2.1, g.2.2.2.2.1, g.2.2.2.2.2.1, g.2.2.2.2.2.2.1, g.2.2.2.2.2.2.2.1,
    g.2.2.2.2.2.2.2.2.2.2.1, ?_⟩
  rw [linesStart_regs]
  exact g.2.2.2.2.2.2.2.2.2.2.2.trans er

theorem onlySeq_other {N n : Nat} {s t : State} (h : OnlySeq N s t) (hn : n ≠ N) : t.seq n = s.seq n := h.seqs n hn

theorem raise_seq (s : State) (a m n) : (s.raise a m).seq n = s.seq n := rfl

theorem bump_seq (s : State) (a n) : (s.bump a).seq n = s.seq n := rfl

theorem underrunRecord_seq (s : State) (a b c d e f g n) : (s.underrunRecord a b c d e f g).seq n = s.seq n :=
  onlySeq_other (State.underrunRecord_onlySeq (N := n + 1) (onlySeq_refl _ _)) (by omega)

theorem linesStop_seq (s : State) (m e n) : (s.linesStop m e).seq n = s.seq n :=
  onlySeq_other (State.linesStop_onlySeq (N := n + 1) (onlySeq_refl _ _)) (by omega)

theorem modSeq_seq (s : State) (n f) : (s.modSeq n f).seq n = f (s.seq n) := seq_setSeq_self ..

theorem postEpisode_seq (s : State) (n) : ∃ af, (s.postEpisode n).seq n = { s.seq n with episode := none, affected := af } := by
  unfold State.postEpisode
  split
  · next h => exact ⟨(s.seq n).affected, by rw [← h]⟩
  · dsimp only
    rw [underrunRecord_seq, modSeq_seq, raise_seq, bump_seq]
    exact ⟨_, rfl⟩

theorem dropPlay_seq (s : State) (n e) : ∃ pl ml, (s.dropPlay n e).seq n =
    { s.seq n with play := none, waiting := none, played := pl, markers := ml } := by
  unfold State.dropPlay State.dropMarkers
  rw [modSeq_seq, modSeq_seq]
  exact ⟨_, _, rfl⟩

/-- What a channel holds once its burst is over. -/
structure Over (q : Seq) : Prop where
  st : q.st = .idle
  play : q.play = none
  waiting : q.waiting = none
  look : q.look = []
  stack : q.stack = []
  latch : q.latch = none
  stop : q.stopAtEnd = false
  own : q.ownEnd = none

/-- A burst that an edge finds over. -/
theorem burstOver_over {s : State} {n e b} (hb : (s.seq n).bursting = true) : Over ((s.burstOver n e b).seq n) := by
  unfold State.burstOver
  rw [hb]
  dsimp only
  rw [if_neg (by simp), linesStop_seq]
  have hx : ∀ (X : State) a m c l d, ((X.raise a m).extChange c l d).seq n = X.seq n := fun _ _ _ _ _ _ => rfl
  obtain ⟨pl, ml, h⟩ := dropPlay_seq (s.postEpisode n) n e
  rw [hx, modSeq_seq, clearPath_seq, h]
  exact ⟨rfl, rfl, rfl, rfl, rfl, rfl, rfl, rfl⟩

/-- What the samples of a burst leave as it is while the burst goes on. -/
structure SameBurst (p q : Seq) : Prop where
  st : q.st = p.st
  stack : q.stack = p.stack
  latch : q.latch = p.latch
  stop : q.stopAtEnd = p.stopAtEnd
  own : q.ownEnd = p.ownEnd
  nco : q.ncoAt = p.ncoAt
  phase : q.phase = p.phase
  waiting : q.waiting = p.waiting
  pre : q.pre = p.pre

theorem SameBurst.rfl {p : Seq} : SameBurst p p := ⟨.refl _, .refl _, .refl _, .refl _, .refl _, .refl _, .refl _, .refl _, .refl _⟩

theorem SameBurst.trans {p q r : Seq} (a : SameBurst p q) (b : SameBurst q r) : SameBurst p r :=
  ⟨b.st.trans a.st, b.stack.trans a.stack, b.latch.trans a.latch, b.stop.trans a.stop, b.own.trans a.own, b.nco.trans a.nco,
    b.phase.trans a.phase, b.waiting.trans a.waiting, b.pre.trans a.pre⟩

theorem SameBurst.bursting {p q : Seq} (a : SameBurst p q) : q.bursting = p.bursting := by
  unfold Seq.bursting
  rw [a.st]

/-- One sample: the burst goes on, or an underrun has ended it. -/
theorem sampleStep_or (s : State) (n) (hb : (s.seq n).bursting = true) :
    SameBurst (s.seq n) ((s.sampleStep n).seq n) ∨ Over ((s.sampleStep n).seq n) := by
  unfold State.sampleStep
  extract_lets q
  split
  · exact .inl SameBurst.rfl
  · next p hp =>
    generalize s.playStep n q p q.last = r
    obtain ⟨p', v, c⟩ := r
    dsimp only
    have hon : ∀ u : State, SameBurst (s.seq n) (u.seq n) → SameBurst (s.seq n)
        ((if p'.repeats = p.repeats then u else u.schedMarkers n p.markers p.next).seq n) := by
      intro u hu
      split
      · exact hu
      · unfold State.schedMarkers
        rw [modSeq_seq]
        exact ⟨hu.st, hu.stack, hu.latch, hu.stop, hu.own, hu.nco, hu.phase, hu.waiting, hu.pre⟩
    split
    · refine .inl (hon _ ?_)
      obtain ⟨af, h⟩ := postEpisode_seq s n
      rw [modSeq_seq, h]
      exact ⟨rfl, rfl, rfl, rfl, rfl, rfl, rfl, rfl, rfl⟩
    · generalize hw : (if p'.repeats = p.repeats then _ else State.schedMarkers _ n p.markers p.next) = w
      have hsame : SameBurst (s.seq n) (w.seq n) := by
        rw [← hw]
        refine hon _ ?_
        rw [modSeq_seq, modSeq_seq]
        exact ⟨rfl, rfl, rfl, rfl, rfl, rfl, rfl, rfl, rfl⟩
      split
      · exact .inr (burstOver_over (hsame.bursting.trans hb))
      · have hdrop : SameBurst (s.seq n) ((w.dropMarkers n p.next).seq n) := by
          unfold State.dropMarkers
          rw [modSeq_seq]
          exact ⟨hsame.st, hsame.stack, hsame.latch, hsame.stop, hsame.own, hsame.nco, hsame.phase, hsame.waiting, hsame.pre⟩
        split
        · split
          · exact .inl hdrop
          · rw [seq_of_seqs (streamStop_seqs _ _), modSeq_seq]
            exact .inl ⟨hdrop.st, hdrop.stack, hdrop.latch, hdrop.stop, hdrop.own, hdrop.nco, hdrop.phase, hdrop.waiting, hdrop.pre⟩
        · exact .inl hsame

theorem samplesUp_over {s : State} {n e k} (h : Over (s.seq n)) : s.samplesUp n e k = s := by
  cases k with
  | zero => rfl
  | succ k =>
    unfold State.samplesUp
    rw [h.play]

/-- The samples before an edge: the burst goes on, or an underrun has ended it. -/
theorem keepLast_or (s : State) (n e) (hb : (s.seq n).bursting = true) :
    SameBurst (s.seq n) ((s.keepLast n e).seq n) ∨ Over ((s.keepLast n e).seq n) := by
  have key : ∀ (k : Nat) (u : State), SameBurst (s.seq n) (u.seq n) ∨ Over (u.seq n) →
      SameBurst (s.seq n) ((u.samplesUp n e k).seq n) ∨ Over ((u.samplesUp n e k).seq n) := by
    intro k
    induction k with
    | zero => exact fun u h => h
    | succ k ih =>
      intro u h
      rcases h with h | h
      · unfold State.samplesUp
        split
        · exact .inl h
        · split
          · refine ih _ ?_
            rcases sampleStep_or u n (h.bursting.trans hb) with g | g
            · exact .inl (h.trans g)
            · exact .inr g
          · exact .inl h
      · rw [samplesUp_over h]
        exact .inr h
  unfold State.keepLast State.samplesTo
  dsimp only
  rw [modSeq_seq]
  have h : SameBurst (s.seq n) ((match (s.seq n).play with
      | none => s
      | some p => s.samplesUp n e (cdiv (e - p.next) (s.spacing n))).seq n) ∨ Over ((match (s.seq n).play with
      | none => s
      | some p => s.samplesUp n e (cdiv (e - p.next) (s.spacing n))).seq n) := by
    split
    · exact .inl SameBurst.rfl
    · exact key _ _ (.inl SameBurst.rfl)
  rcases h with h | h
  · exact .inl ⟨h.st, h.stack, h.latch, h.stop, h.own, h.nco, h.phase, h.waiting, h.pre⟩
  · exact .inr ⟨h.st, h.play, h.waiting, h.look, h.stack, h.latch, h.stop, h.own⟩

/-- The running burst ends. -/
theorem endBurst_over {s : State} {n e b} (hb : (s.seq n).bursting = true) : Over ((s.endBurst n e b).seq n) := by
  unfold State.endBurst
  rw [hb, if_neg (by simp)]
  rcases keepLast_or s n e hb with h | h
  · exact burstOver_over (h.bursting.trans hb)
  · unfold State.burstOver Seq.bursting
    rw [h.st]
    exact h

/-- A jump in a burst that goes on to its edge. -/
theorem jumpTo_fields (s : State) (n tg k e) (hb : (s.seq n).bursting = true) (hk : ((s.keepLast n e).seq n).bursting = true) :
    let t := s.jumpTo n tg k e; let q := t.seq n
    q.st = .run ∧ q.play = none ∧ q.waiting = none ∧ q.latch = none ∧ q.bnd = t.sampleUp n e ∧
      q.stack = (if k then (s.seq n).stack else []) ∧ (∀ i, tg = .entry i → (s.seq n).pre = [] → q.fetchNext = i.toNat) := by
  have h : SameBurst (s.seq n) ((s.keepLast n e).seq n) := by
    rcases keepLast_or s n e hb with h | h
    · exact h
    · unfold Seq.bursting at hk
      rw [h.st] at hk
      cases hk
  unfold State.jumpTo
  dsimp only
  rw [hk, if_neg (by simp)]
  obtain ⟨pl, ml, hd⟩ := dropPlay_seq (s.keepLast n e) n e
  generalize hu : ((s.keepLast n e).dropPlay n e).modSeq n (fun q => { q with
    latch := none, stack := if k then q.stack else [] }) = u
  have eu := modSeq_seq ((s.keepLast n e).dropPlay n e) n (fun q => { q with
    latch := none, stack := if k then q.stack else [] })
  rw [hu, hd] at eu
  have g := goTo_fields u n tg e
  dsimp only at g
  rw [eu] at g
  refine ⟨g.1, g.2.2.2.2.2.2.2.2.1, g.2.2.2.2.2.2.2.2.2.1, g.2.2.2.1,
    g.2.1.trans (sampleUp_of_regs g.2.2.2.2.2.2.2.2.2.2.2 n e).symm, ?_, ?_⟩
  · rw [g.2.2.1, h.stack]
  · intro i hi hp
    exact g.2.2.2.2.2.2.2.2.2.2.1 i hi (h.pre.trans hp)

theorem bursting_of {q : Seq} (h : q.st = .run ∨ q.st = .wait) : q.bursting = true := by
  unfold Seq.bursting; rcases h with h | h <;> rw [h] <;> rfl

theorem setFlagAt_idle {s : State} {n f e} (h : (s.seq n).waiting = none) : s.setFlagAt n f e = s.putReg (aFlags n) (putBits (s.reg (aFlags n)) f 1 1) := by
  unfold State.setFlagAt
  dsimp only
  rw [show ((s.putReg (aFlags n) (putBits (s.reg (aFlags n)) f 1 1)).seq n).waiting = none from h]

theorem judged_flt (s : State) (x : Sched) : (judged s x).flt = s.flt := by
  unfold judged State.trigClaim
  dsimp only
  split
  · rfl
  · split
    · rfl
    · unfold State.claim
      rfl

theorem judged_retired (s : State) (x : Sched) (n) : (judged s x).seqRetired n = s.seqRetired n := by
  unfold State.seqRetired State.isRetired
  rw [judged_flt]

theorem trigRow_fires {s : State} {n t action i : Nat} {x u} (h : Fires s n t action i x u) :
    s.trigRow n t action i = (u.trigDo n action x.arg (s.schedEdge x)).unsched x := by
  have hx := List.find?_some h.waits.due
  simp at hx
  have hj : (if x.claimed = true then s else s.trigClaim x) = judged s x := rfl
  have hm := h.first
  unfold muted at hm
  rw [hx.1.2] at hm
  unfold State.trigRow
  rw [h.waits.due]
  dsimp only
  rw [State.atEdge_come h.waits.come, h.waits.found]
  dsimp only
  unfold State.trigActs
  dsimp only
  rw [hj, hx.1.1.1, hx.1.2, judged_retired, h.lives, hm, h.stands]
  rfl

end Sys2Proof.Machine
end

