-- ==== Sys2Proof/Laws/Bus.lean ====
section
/-!
SUPPORT. What an access to BAR0 can do, said once: an accepted write stores and acts, and nothing else.
-/

namespace Sys2Proof.Machine

open Sys2Proof.Safety

theorem rowOf_lt {a : Nat} {r : RegRow} (h : rowOf a = some r) : a % 0x10000 < 0x3FC0 := by
  unfold rowOf at h
  split at h
  · assumption
  · cases h

theorem armSpent_reg (s : State) (rq : Requester) (w : Nat) (g : Bool) (a : Nat) : (armSpent s rq w g).reg a = s.reg a := by
  unfold armSpent
  split <;> rfl

/-- An accepted write stores the bits that R39 gives and has the effects of its register. -/
theorem busWrite_takes {s : State} {rq : Requester} {a q : Nat} {r : RegRow} {v : Word} {h : Hint}
    (t : Takes s rq a q r v) :
    s.busWrite rq (aliasOff a q) 0xF v h = (armSpent s rq (a / 0x10000) r.guarded).accept rq r a q v h := by
  have hlt := rowOf_lt t.row
  have hq := t.quarter
  have hw := t.word
  have h4 : a % 0x4000 = a % 0x10000 := by omega
  have e1 : aliasOff a q / 0x10000 = a / 0x10000 := by unfold aliasOff; omega
  have e2 : aliasOff a q / 4 * 4 = aliasOff a q := by unfold aliasOff; omega
  have e3 : aliasOff a q % 0x4000 = a % 0x10000 := by unfold aliasOff; omega
  have e4 : baseOf (aliasOff a q) = a := by unfold baseOf; rw [e1, e3]; omega
  have e5 : quarterOf (aliasOff a q) = q := by unfold quarterOf aliasOff; omega
  have hout : s.outside (aliasOff a q) = false := by
    have := t.inside
    unfold State.outside at this ⊢
    rwa [e1]
  unfold State.busWrite
  rw [t.reaches, hout]
  simp only [Bool.not_true, Bool.false_eq_true, ite_false]
  unfold State.writeIn
  simp only [e1, e2, e3, e4, e5, if_pos hlt, t.row]
  have hd : (if (s.ctx (a / 0x10000) rq).arm = true then (s.modCtx (a / 0x10000) rq (fun c => { c with
      arm := false })).setStatus (a / 0x10000) rq (if r.guarded = true then 0 else 1) else s) =
      armSpent s rq (a / 0x10000) r.guarded := rfl
  rw [hd]
  have hnl : ¬ (0x3FC0 ≤ a % 0x10000) := by omega
  have hal : (decide (q ≠ 0) && !r.aliases) = false := by
    rcases t.aliases with h | h
    · simp [h]
    · simp [h]
  have hr : (armSpent s rq (a / 0x10000) r.guarded).refusal r a (r.written q (s.reg a) v).2 (s.ctx (a / 0x10000) rq).arm =
      none := by
    unfold State.refusal
    rw [t.listed, t.rule]
    have := t.armed
    revert this
    cases r.guarded <;> cases (s.ctx (a / 0x10000) rq).arm <;> simp
  simp only [ne_eq, not_true_eq_false, ite_false, hnl, hal, Bool.false_eq_true, t.writable, armSpent_reg, hr]

theorem aliasOff_zero {a : Nat} (h : a % 0x10000 < 0x3FC0) : aliasOff a 0 = a := by unfold aliasOff; omega

/-- The same in the base quarter. -/
theorem busWrite_base {s : State} {rq : Requester} {a : Nat} {r : RegRow} {v : Word} {h : Hint} (t : Takes s rq a 0 r v) :
    s.busWrite rq a 0xF v h = (armSpent s rq (a / 0x10000) r.guarded).accept rq r a 0 v h := by
  have := busWrite_takes (h := h) t
  rwa [aliasOff_zero (rowOf_lt t.row)] at this

theorem armSpent_flt (s : State) (rq : Requester) (w : Nat) (g : Bool) : (armSpent s rq w g).flt = s.flt := by
  unfold armSpent
  split <;> rfl

theorem setReg_flt (s : State) (a : Nat) (v : Word) : (s.setReg a v).flt = s.flt := by
  unfold State.setReg
  dsimp only
  split <;> rfl

/-- A stored write changes registers, shadows, contexts and the notes of the core cycle alone. -/
theorem lands_eq (s : State) (rq : Requester) (a q : Nat) (r : RegRow) (v : Word) :
    lands s rq a q r v = { s with
      regs := (lands s rq a q r v).regs, shadow := (lands s rq a q r v).shadow, ctxs := (lands s rq a q r v).ctxs
      fresh := (lands s rq a q r v).fresh, landed := (lands s rq a q r v).landed } := by
  have harm : armSpent s rq (a / 0x10000) r.guarded = { s with
      ctxs := (armSpent s rq (a / 0x10000) r.guarded).ctxs, fresh := (armSpent s rq (a / 0x10000) r.guarded).fresh } := by
    unfold armSpent
    split <;> rfl
  have hset : ∀ (u : State) (v : Word), u.setReg a v = { u with regs := (u.setReg a v).regs, shadow := (u.setReg a v).shadow } := by
    intro u v
    unfold State.setReg
    dsimp only
    split <;> rfl
  unfold lands
  dsimp only
  split
  · rw [harm]
  · unfold State.land
    dsimp only
    rw [hset, harm]

theorem wrote_eq (s : State) (rq : Requester) (a : Nat) (r : RegRow) (v : Word) :
    wrote s rq a r v = { s with
      regs := (wrote s rq a r v).regs, shadow := (wrote s rq a r v).shadow, ctxs := (wrote s rq a r v).ctxs
      fresh := (wrote s rq a r v).fresh, landed := (wrote s rq a r v).landed } := lands_eq ..

theorem wrote_flt (s : State) (rq : Requester) (a : Nat) (r : RegRow) (v : Word) : (wrote s rq a r v).flt = s.flt := by
  rw [wrote_eq]

theorem wrote_live {s : State} {rq : Requester} {a : Nat} {r : RegRow} {v : Word} {b : Nat} (l : Live s b) :
    Live (wrote s rq a r v) b := by
  unfold Live State.scopeGone State.isRetired at *
  rw [wrote_flt]
  exact l

/-- Where no later-ranking write has landed in the core cycle, an accepted write stores the bits that R39 gives. -/
theorem landing_last {s : State} {rq : Requester} {a q : Nat} {r : RegRow} {v : Word} (h : Last s rq a) :
    s.landing r a (landRank rq) q v = (r.written q (s.reg a) v).1 := by
  unfold Last at h
  unfold State.landing
  rw [h]
  have e0 : ∀ x : Word, x &&& 0 = 0 := fun _ => BitVec.and_zero
  have e1 : ~~~ (0 : Word) = BitVec.allOnes 32 := rfl
  have e2 : ∀ x : Word, x ^^^ 0 = x := fun _ => BitVec.xor_zero
  have e3 : ∀ x : Word, 0 ||| x = x := fun _ => BitVec.zero_or
  simp only [e0, e1, e2, e3, BitVec.and_allOnes, BitVec.zero_and]

/-- An accepted write: what it stores, then the register's own effect. -/
theorem accept_lands (s : State) (rq : Requester) (a q : Nat) (r : RegRow) (v : Word) (h : Hint) :
    (armSpent s rq (a / 0x10000) r.guarded).accept rq r a q v h =
      (lands s rq a q r v).afterWrite rq a (s.reg a)
        ((armSpent s rq (a / 0x10000) r.guarded).landing r a (landRank rq) q v)
        (if q = 0 then (armSpent s rq (a / 0x10000) r.guarded).landing r a (landRank rq) q v ||| (v &&& r.requestMask)
          else (armSpent s rq (a / 0x10000) r.guarded).landing r a (landRank rq) q v) false h := by
  unfold State.accept lands
  dsimp only
  rw [armSpent_reg]

/-- An accepted write in the base quarter. -/
theorem busWrite_lands {s : State} {rq : Requester} {a : Nat} {r : RegRow} {v : Word} {h : Hint} (t : Takes s rq a 0 r v) :
    ∃ new full, s.busWrite rq a 0xF v h = (wrote s rq a r v).afterWrite rq a (s.reg a) new full false h :=
  ⟨_, _, (busWrite_base t).trans (accept_lands ..)⟩

end Sys2Proof.Machine
end

