-- ==== Sys2Proof/Laws/Keep.lean ====
section
/-!
SUPPORT. What every operation keeps: the queue, the strap register, the canonical form of the register file, its shadow and
Firn's contents, and, but for the operations that let core cycles pass, the tick's clock. One lemma per operation, in the files
Keep*.lean, says that it keeps them; a proof about a command cites the lemmas of the operations it is made of.
-/

namespace Sys2Proof.Machine

/-- Where the part stands within its tick: core cycles passed, the cycle within the tick, the tick's length and boundaries,
the phases that are done, and the tick itself. -/
structure Beat where
  core : Nat
  cycle : Nat
  period : Nat
  c1 : Nat
  c2 : Nat
  c3 : Nat
  c4 : Nat
  c5 : Nat
  running : Bool
  phasesDone : Nat
  tickFt : FTime
  ticks : BitVec 64

/-- The beat of a time block. -/
abbrev Time.beat (t : Time) : Beat :=
  ⟨t.core, t.cycle, t.period, t.c1, t.c2, t.c3, t.c4, t.c5, t.running, t.phasesDone, t.tickFt, t.ticks⟩

/-- The tables of registers, shadows and Firn bytes are in canonical form. -/
def State.Canon (s : State) : Prop :=
  Tab.wf regDefault s.regs = true ∧ Tab.wf regDefault s.shadow = true ∧ Tab.wf (fun _ => (0 : Byte)) s.firn.mem = true

/-- What is kept: a queue, a strap register, the canonical form where `canon` held, and the beat, where one is asked for. -/
structure Env where
  queue : List Instr
  strap : BitVec 16
  canon : Prop
  beat : Option Beat

/-- A state that has kept it; a beat is kept unless a reset holds the part. -/
structure Good (ev : Env) (s : State) : Prop where
  queue : s.pending = ev.queue
  strap : s.top.strap = ev.strap
  canon : ev.canon → s.Canon
  beat : ∀ b, ev.beat = some b → s.hk.inReset.isSome = true ∨ s.time.beat = b

/-- What a state keeps of itself. -/
def State.env (s : State) : Env := ⟨s.pending, s.top.strap, s.Canon, none⟩

theorem State.env_good (s : State) : Good s.env s := ⟨rfl, rfl, id, fun _ h => nomatch h⟩

@[simp] theorem State.env_beat (s : State) : s.env.beat = none := rfl

/-- The same with its beat. -/
def State.envAt (s : State) : Env := ⟨s.pending, s.top.strap, s.Canon, some s.time.beat⟩

theorem State.envAt_good (s : State) : Good s.envAt s := ⟨rfl, rfl, id, fun _ h => .inr (Option.some.inj h)⟩

variable {ev : Env}

theorem Good.ite_of {c : Prop} [Decidable c] {A B : State} (hB : Good ev B) (hA : Good ev B → Good ev A) :
    Good ev (if c then A else B) := by
  split
  · exact hA hB
  · exact hB

theorem apply_ite_good {α : Type} {c : Prop} [Decidable c] {A B : α × State} (hA : Good ev A.2) (hB : Good ev B.2) :
    Good ev (if c then A else B).2 := by
  split
  · exact hA
  · exact hB

/-- A change of other components keeps it. -/
theorem good_upd {s : State}
    {ctxs fresh landed top time clk hif firn mor seqs tx mkr ang tla cle nzl flt hk pins free out readData}
    (h : Good ev s) (h1 : top.strap = s.top.strap) (h2 : firn.mem = s.firn.mem)
    (h3 : ev.beat = none ∨ time.beat = s.time.beat) (h4 : ev.beat = none ∨ hk.inReset = s.hk.inReset) :
    Good ev (State.mk s.regs s.shadow ctxs fresh landed top time clk hif firn mor seqs tx mkr ang tla cle nzl flt hk pins free
      out readData s.pending) :=
  ⟨h.queue, h1.trans h.strap, fun c => ⟨(h.canon c).1, (h.canon c).2.1, by rw [h2]; exact (h.canon c).2.2⟩, fun b hb =>
    (h.beat b hb).imp (fun x => by rcases h4 with h4 | h4 <;> simp_all) (fun x => by rcases h3 with h3 | h3 <;> simp_all)⟩

/-- The state of a pair that a function answered. -/
theorem Good.of_pair {α : Type} {p : α × State} {x : α} {t : State} (hp : p = (x, t)) (h : Good ev p.2) : Good ev t := by
  rw [hp] at h
  exact h

theorem Good.of_triple {α β : Type} {p : α × β × State} {x : α} {y : β} {t : State} (hp : p = (x, y, t)) (h : Good ev p.2.2) :
    Good ev t := by
  rw [hp] at h
  exact h

theorem good_foldl {α : Type} {l : List α} {s : State} {f : State → α → State} (h : Good ev s)
    (hf : ∀ t x, Good ev t → Good ev (f t x)) : Good ev (l.foldl f s) := by
  induction l generalizing s with
  | nil => exact h
  | cons x l ih => exact ih (hf s x h)

theorem good_foldl_snd {α β : Type} {l : List α} {a : β × State} {f : β × State → α → β × State} (h : Good ev a.2)
    (hf : ∀ b x, Good ev b.2 → Good ev (f b x).2) : Good ev (l.foldl f a).2 := by
  induction l generalizing a with
  | nil => exact h
  | cons x l ih => exact ih (hf a x h)

theorem State.putReg_keeps {s : State} {a : Nat} {v : Word} (h : Good ev s) : Good ev (s.putReg a v) :=
  ⟨h.queue, h.strap, fun c => ⟨Tab.set_wf (h.canon c).1, (h.canon c).2.1, (h.canon c).2.2⟩, h.beat⟩

theorem State.setReg_keeps {s : State} {a : Nat} {v : Word} (h : Good ev s) : Good ev (s.setReg a v) := by
  have g := State.putReg_keeps (a := a) (v := v) h
  simp only [State.setReg]
  split
  · exact ⟨g.queue, g.strap, fun c => ⟨(g.canon c).1, Tab.set_wf (g.canon c).2.1, (g.canon c).2.2⟩, g.beat⟩
  · exact g

theorem State.each_keeps {α : Type} {s : State} {l : List α} {f : State → α → State} (h : Good ev s)
    (hf : ∀ t x, Good ev t → Good ev (f t x)) : Good ev (s.each l f) := good_foldl h hf

theorem storeBytes_wf {m : Tab Byte} {a : Nat} {l : List Byte} (h : Tab.wf (fun _ => (0 : Byte)) m = true) :
    Tab.wf (fun _ => (0 : Byte)) (storeBytes m a l) = true := by
  induction l generalizing m a with
  | nil => exact h
  | cons b l ih => exact ih (Tab.set_wf h)

/-- Bytes stored in Firn keep it. -/
theorem good_firn {s : State} {f : Firn} (h : Good ev s)
    (hf : Tab.wf (fun _ => (0 : Byte)) s.firn.mem = true → Tab.wf (fun _ => (0 : Byte)) f.mem = true) :
    Good ev { s with firn := f } :=
  ⟨h.queue, h.strap, fun c => ⟨(h.canon c).1, (h.canon c).2.1, hf (h.canon c).2.2⟩, h.beat⟩

end Sys2Proof.Machine
end

