-- ==== Sys2Proof/Laws/KeepOps.lean ====
section
/-!
SUPPORT. What every operation of Machine/Ops.lean keeps (Laws/Keep.lean).
-/

namespace Sys2Proof.Machine

variable {ev : Env}

theorem State.setFld_keeps {s : State} {a : Nat} {lo : Nat} {w : Nat} {x : Nat} (hg : Good ev s) :
    Good ev (State.setFld s a lo w x) := by
  unfold State.setFld
  repeat' first
    | with_reducible first
      | assumption | rfl | exact Or.inr rfl | exact Or.inl ‹_› | refine Good.of_pair (by assumption) ?_
      | apply State.setReg_keeps | intro _ | apply Good.ite_of | apply apply_ite_good | split | dsimp only
      | apply good_upd
    | exact Or.inr rfl | exact rfl

theorem State.setCtx_keeps {s : State} {win : Nat} {rq : Requester} {c : Ctx} (hg : Good ev s) :
    Good ev (State.setCtx s win rq c) := by
  unfold State.setCtx
  repeat' first
    | with_reducible first
      | assumption | rfl | exact Or.inr rfl | exact Or.inl ‹_› | refine Good.of_pair (by assumption) ?_ | intro _
      | apply Good.ite_of | apply apply_ite_good | split | dsimp only | apply good_upd
    | exact Or.inr rfl | exact rfl

theorem State.setSeq_keeps {s : State} {n : Nat} {q : Seq} (hg : Good ev s) :
    Good ev (State.setSeq s n q) := by
  unfold State.setSeq
  repeat' first
    | with_reducible first
      | assumption | rfl | exact Or.inr rfl | exact Or.inl ‹_› | refine Good.of_pair (by assumption) ?_ | intro _
      | apply Good.ite_of | apply apply_ite_good | split | dsimp only | apply good_upd
    | exact Or.inr rfl | exact rfl

theorem State.modSeq_keeps {s : State} {n : Nat} {f : Seq → Seq} (hg : Good ev s) :
    Good ev (State.modSeq s n f) := by
  unfold State.modSeq
  repeat' first
    | with_reducible first
      | assumption | rfl | exact Or.inr rfl | exact Or.inl ‹_› | refine Good.of_pair (by assumption) ?_
      | apply State.setSeq_keeps | intro _ | apply Good.ite_of | apply apply_ite_good | split | dsimp only
      | apply good_upd
    | exact Or.inr rfl | exact rfl

theorem State.setRing_keeps {s : State} {n : Nat} {r : Ring} (hg : Good ev s) :
    Good ev (State.setRing s n r) := by
  unfold State.setRing
  repeat' first
    | with_reducible first
      | assumption | rfl | exact Or.inr rfl | exact Or.inl ‹_› | refine Good.of_pair (by assumption) ?_ | intro _
      | apply Good.ite_of | apply apply_ite_good | split | dsimp only | apply good_upd
    | exact Or.inr rfl | exact rfl

theorem State.modRing_keeps {s : State} {n : Nat} {f : Ring → Ring} (hg : Good ev s) :
    Good ev (State.modRing s n f) := by
  unfold State.modRing
  repeat' first
    | with_reducible first
      | assumption | rfl | exact Or.inr rfl | exact Or.inl ‹_› | refine Good.of_pair (by assumption) ?_
      | apply State.setRing_keeps | intro _ | apply Good.ite_of | apply apply_ite_good | split | dsimp only
      | apply good_upd
    | exact Or.inr rfl | exact rfl

theorem State.setTxl_keeps {s : State} {n : Nat} {l : TxLink} (hg : Good ev s) :
    Good ev (State.setTxl s n l) := by
  unfold State.setTxl
  repeat' first
    | with_reducible first
      | assumption | rfl | exact Or.inr rfl | exact Or.inl ‹_› | refine Good.of_pair (by assumption) ?_ | intro _
      | apply Good.ite_of | apply apply_ite_good | split | dsimp only | apply good_upd
    | exact Or.inr rfl | exact rfl

theorem State.setLine_keeps {s : State} {n : Nat} {l : Line} (hg : Good ev s) :
    Good ev (State.setLine s n l) := by
  unfold State.setLine
  repeat' first
    | with_reducible first
      | assumption | rfl | exact Or.inr rfl | exact Or.inl ‹_› | refine Good.of_pair (by assumption) ?_ | intro _
      | apply Good.ite_of | apply apply_ite_good | split | dsimp only | apply good_upd
    | exact Or.inr rfl | exact rfl

theorem State.modLine_keeps {s : State} {n : Nat} {f : Line → Line} (hg : Good ev s) :
    Good ev (State.modLine s n f) := by
  unfold State.modLine
  repeat' first
    | with_reducible first
      | assumption | rfl | exact Or.inr rfl | exact Or.inl ‹_› | refine Good.of_pair (by assumption) ?_
      | apply State.setLine_keeps | intro _ | apply Good.ite_of | apply apply_ite_good | split | dsimp only
      | apply good_upd
    | exact Or.inr rfl | exact rfl

theorem State.setPair_keeps {s : State} {n : Nat} {p : Pair} (hg : Good ev s) :
    Good ev (State.setPair s n p) := by
  unfold State.setPair
  repeat' first
    | with_reducible first
      | assumption | rfl | exact Or.inr rfl | exact Or.inl ‹_› | refine Good.of_pair (by assumption) ?_ | intro _
      | apply Good.ite_of | apply apply_ite_good | split | dsimp only | apply good_upd
    | exact Or.inr rfl | exact rfl

theorem State.setTrk_keeps {s : State} {n : Nat} {t : Trk} (hg : Good ev s) :
    Good ev (State.setTrk s n t) := by
  unfold State.setTrk
  repeat' first
    | with_reducible first
      | assumption | rfl | exact Or.inr rfl | exact Or.inl ‹_› | refine Good.of_pair (by assumption) ?_ | intro _
      | apply Good.ite_of | apply apply_ite_good | split | dsimp only | apply good_upd
    | exact Or.inr rfl | exact rfl

theorem State.setBank_keeps {s : State} {n : Nat} {b : Bank} (hg : Good ev s) :
    Good ev (State.setBank s n b) := by
  unfold State.setBank
  repeat' first
    | with_reducible first
      | assumption | rfl | exact Or.inr rfl | exact Or.inl ‹_› | refine Good.of_pair (by assumption) ?_ | intro _
      | apply Good.ite_of | apply apply_ite_good | split | dsimp only | apply good_upd
    | exact Or.inr rfl | exact rfl

theorem State.setSpare_keeps {s : State} {n : Nat} {b : Spare} (hg : Good ev s) :
    Good ev (State.setSpare s n b) := by
  unfold State.setSpare
  repeat' first
    | with_reducible first
      | assumption | rfl | exact Or.inr rfl | exact Or.inl ‹_› | refine Good.of_pair (by assumption) ?_ | intro _
      | apply Good.ite_of | apply apply_ite_good | split | dsimp only | apply good_upd
    | exact Or.inr rfl | exact rfl

theorem State.setChan_keeps {s : State} {n : Nat} {c : Chan} (hg : Good ev s) :
    Good ev (State.setChan s n c) := by
  unfold State.setChan
  repeat' first
    | with_reducible first
      | assumption | rfl | exact Or.inr rfl | exact Or.inl ‹_› | refine Good.of_pair (by assumption) ?_ | intro _
      | apply Good.ite_of | apply apply_ite_good | split | dsimp only | apply good_upd
    | exact Or.inr rfl | exact rfl

theorem State.modChan_keeps {s : State} {n : Nat} {f : Chan → Chan} (hg : Good ev s) :
    Good ev (State.modChan s n f) := by
  unfold State.modChan
  repeat' first
    | with_reducible first
      | assumption | rfl | exact Or.inr rfl | exact Or.inl ‹_› | refine Good.of_pair (by assumption) ?_
      | apply State.setChan_keeps | intro _ | apply Good.ite_of | apply apply_ite_good | split | dsimp only
      | apply good_upd
    | exact Or.inr rfl | exact rfl

theorem State.setStream_keeps {s : State} {n : Nat} {c : Stream} (hg : Good ev s) :
    Good ev (State.setStream s n c) := by
  unfold State.setStream
  repeat' first
    | with_reducible first
      | assumption | rfl | exact Or.inr rfl | exact Or.inl ‹_› | refine Good.of_pair (by assumption) ?_ | intro _
      | apply Good.ite_of | apply apply_ite_good | split | dsimp only | apply good_upd
    | exact Or.inr rfl | exact rfl

theorem State.setSlot_keeps {s : State} {n : Nat} {l : LSlot} (hg : Good ev s) :
    Good ev (State.setSlot s n l) := by
  unfold State.setSlot
  repeat' first
    | with_reducible first
      | assumption | rfl | exact Or.inr rfl | exact Or.inl ‹_› | refine Good.of_pair (by assumption) ?_ | intro _
      | apply Good.ite_of | apply apply_ite_good | split | dsimp only | apply good_upd
    | exact Or.inr rfl | exact rfl

theorem State.modSlot_keeps {s : State} {n : Nat} {f : LSlot → LSlot} (hg : Good ev s) :
    Good ev (State.modSlot s n f) := by
  unfold State.modSlot
  repeat' first
    | with_reducible first
      | assumption | rfl | exact Or.inr rfl | exact Or.inl ‹_› | refine Good.of_pair (by assumption) ?_
      | apply State.setSlot_keeps | intro _ | apply Good.ite_of | apply apply_ite_good | split | dsimp only
      | apply good_upd
    | exact Or.inr rfl | exact rfl

theorem State.setCpos_keeps {s : State} {j : Nat} {p : CPos} (hg : Good ev s) :
    Good ev (State.setCpos s j p) := by
  unfold State.setCpos
  repeat' first
    | with_reducible first
      | assumption | rfl | exact Or.inr rfl | exact Or.inl ‹_› | refine Good.of_pair (by assumption) ?_ | intro _
      | apply Good.ite_of | apply apply_ite_good | split | dsimp only | apply good_upd
    | exact Or.inr rfl | exact rfl

theorem State.setLink_keeps {s : State} {n : Nat} {l : Link} (hg : Good ev s) :
    Good ev (State.setLink s n l) := by
  unfold State.setLink
  repeat' first
    | with_reducible first
      | assumption | rfl | exact Or.inr rfl | exact Or.inl ‹_› | refine Good.of_pair (by assumption) ?_ | intro _
      | apply Good.ite_of | apply apply_ite_good | split | dsimp only | apply good_upd
    | exact Or.inr rfl | exact rfl

theorem State.modLink_keeps {s : State} {n : Nat} {f : Link → Link} (hg : Good ev s) :
    Good ev (State.modLink s n f) := by
  unfold State.modLink
  repeat' first
    | with_reducible first
      | assumption | rfl | exact Or.inr rfl | exact Or.inl ‹_› | refine Good.of_pair (by assumption) ?_
      | apply State.setLink_keeps | intro _ | apply Good.ite_of | apply apply_ite_good | split | dsimp only
      | apply good_upd
    | exact Or.inr rfl | exact rfl

theorem State.setPll_keeps {s : State} {p : Pll} {x : PllS} (hg : Good ev s) :
    Good ev (State.setPll s p x) := by
  unfold State.setPll
  repeat' first
    | with_reducible first
      | assumption | rfl | exact Or.inr rfl | exact Or.inl ‹_› | refine Good.of_pair (by assumption) ?_ | intro _
      | apply Good.ite_of | apply apply_ite_good | split | dsimp only | apply good_upd
    | exact Or.inr rfl | exact rfl

theorem State.detect_keeps {s : State} {cls : Nat} {kind : Nat} {index : Nat} {detail : Word} {permanent : Bool} (hg
    : Good ev s) :
    Good ev (State.detect s cls kind index detail permanent) := by
  unfold State.detect
  repeat' first
    | with_reducible first
      | assumption | rfl | exact Or.inr rfl | exact Or.inl ‹_› | refine Good.of_pair (by assumption) ?_ | intro _
      | apply Good.ite_of | apply apply_ite_good | split | dsimp only | apply good_upd
    | exact Or.inr rfl | exact rfl

theorem State.emit_keeps {s : State} {o : Out} (hg : Good ev s) :
    Good ev (State.emit s o) := by
  unfold State.emit
  repeat' first
    | with_reducible first
      | assumption | rfl | exact Or.inr rfl | exact Or.inl ‹_› | refine Good.of_pair (by assumption) ?_ | intro _
      | apply Good.ite_of | apply apply_ite_good | split | dsimp only | apply good_upd
    | exact Or.inr rfl | exact rfl

theorem State.freeVal_keeps {s : State} {w : Nat} (hg : Good ev s) :
    Good ev (State.freeVal s w).2 := by
  unfold State.freeVal
  repeat' first
    | with_reducible first
      | assumption | rfl | exact Or.inr rfl | exact Or.inl ‹_› | refine Good.of_pair (by assumption) ?_ | intro _
      | apply Good.ite_of | apply apply_ite_good | split | dsimp only | apply good_upd
    | exact Or.inr rfl | exact rfl

end Sys2Proof.Machine
end

