-- ==== Sys2Proof/Laws/KeepFlags.lean ====
section
/-!
SUPPORT. What every operation of Machine/Flags.lean keeps (Laws/Keep.lean).
-/

namespace Sys2Proof.Machine

variable {ev : Env}

theorem State.freshen_keeps {s : State} {a : Nat} {m : Word} (hg : Good ev s) :
    Good ev (State.freshen s a m) := by
  unfold State.freshen
  repeat' first
    | with_reducible first
      | assumption | rfl | exact Or.inr rfl | exact Or.inl ‹_› | refine Good.of_pair (by assumption) ?_ | intro _
      | apply Good.ite_of | apply apply_ite_good | split | dsimp only | apply good_upd
    | exact Or.inr rfl | exact rfl

theorem State.raise_keeps {s : State} {a : Nat} {m : Word} (hg : Good ev s) :
    Good ev (State.raise s a m) := by
  unfold State.raise
  repeat' first
    | with_reducible first
      | assumption | rfl | exact Or.inr rfl | exact Or.inl ‹_› | refine Good.of_pair (by assumption) ?_
      | apply State.freshen_keeps | apply State.putReg_keeps | intro _ | apply Good.ite_of | apply apply_ite_good
      | split | dsimp only | apply good_upd
    | exact Or.inr rfl | exact rfl

theorem State.raiseIf_keeps {s : State} {b : Bool} {a : Nat} {i : Nat} (hg : Good ev s) :
    Good ev (State.raiseIf s b a i) := by
  unfold State.raiseIf
  repeat' first
    | with_reducible first
      | assumption | rfl | exact Or.inr rfl | exact Or.inl ‹_› | refine Good.of_pair (by assumption) ?_
      | apply State.raise_keeps | intro _ | apply Good.ite_of | apply apply_ite_good | split | dsimp only
      | apply good_upd
    | exact Or.inr rfl | exact rfl

theorem State.bump_keeps {s : State} {a : Nat} (hg : Good ev s) :
    Good ev (State.bump s a) := by
  unfold State.bump
  repeat' first
    | with_reducible first
      | assumption | rfl | exact Or.inr rfl | exact Or.inl ‹_› | refine Good.of_pair (by assumption) ?_
      | apply State.putReg_keeps | intro _ | apply Good.ite_of | apply apply_ite_good | split | dsimp only
      | apply good_upd
    | exact Or.inr rfl | exact rfl

theorem State.bumpIf_keeps {s : State} {b : Bool} {a : Nat} (hg : Good ev s) :
    Good ev (State.bumpIf s b a) := by
  unfold State.bumpIf
  repeat' first
    | with_reducible first
      | assumption | rfl | exact Or.inr rfl | exact Or.inl ‹_› | refine Good.of_pair (by assumption) ?_
      | apply State.bump_keeps | intro _ | apply Good.ite_of | apply apply_ite_good | split | dsimp only
      | apply good_upd
    | exact Or.inr rfl | exact rfl

theorem State.bumpBy_keeps {s : State} {a : Nat} {n : Nat} (hg : Good ev s) :
    Good ev (State.bumpBy s a n) := by
  unfold State.bumpBy
  repeat' first
    | with_reducible first
      | assumption | rfl | exact Or.inr rfl | exact Or.inl ‹_› | refine Good.of_pair (by assumption) ?_
      | apply State.putReg_keeps | intro _ | apply Good.ite_of | apply apply_ite_good | split | dsimp only
      | apply good_upd
    | exact Or.inr rfl | exact rfl

end Sys2Proof.Machine
end

