-- ==== Sys2Proof/Laws/KeepRings.lean ====
section
/-!
SUPPORT. What every operation of Machine/Rings.lean keeps (Laws/Keep.lean).
-/

namespace Sys2Proof.Machine

variable {ev : Env}

theorem State.msix_keeps {s : State} {v : Nat} (hg : Good ev s) :
    Good ev (State.msix s v) := by
  unfold State.msix
  repeat' first
    | with_reducible first
      | assumption | rfl | exact Or.inr rfl | exact Or.inl ‹_› | refine Good.of_pair (by assumption) ?_
      | apply State.emit_keeps | intro _ | apply Good.ite_of | apply apply_ite_good | split | dsimp only
      | apply good_upd
    | exact Or.inr rfl | exact rfl

theorem State.miscIrq_keeps {s : State} (hg : Good ev s) :
    Good ev (State.miscIrq s) := by
  unfold State.miscIrq
  repeat' first
    | with_reducible first
      | assumption | rfl | exact Or.inr rfl | exact Or.inl ‹_› | refine Good.of_pair (by assumption) ?_
      | apply State.msix_keeps | intro _ | apply Good.ite_of | apply apply_ite_good | split | dsimp only
      | apply good_upd
    | exact Or.inr rfl | exact rfl

theorem State.signalRing_keeps {s : State} {n : Nat} (hg : Good ev s) :
    Good ev (State.signalRing s n) := by
  unfold State.signalRing
  repeat' first
    | with_reducible first
      | assumption | rfl | exact Or.inr rfl | exact Or.inl ‹_› | refine Good.of_pair (by assumption) ?_
      | apply State.msix_keeps | apply State.modRing_keeps | intro _ | apply Good.ite_of | apply apply_ite_good
      | split | dsimp only | apply good_upd
    | exact Or.inr rfl | exact rfl

theorem State.signalIf_keeps {s : State} {n : Nat} (hg : Good ev s) :
    Good ev (State.signalIf s n) := by
  unfold State.signalIf
  repeat' first
    | with_reducible first
      | assumption | rfl | exact Or.inr rfl | exact Or.inl ‹_› | refine Good.of_pair (by assumption) ?_
      | apply State.signalRing_keeps | intro _ | apply Good.ite_of | apply apply_ite_good | split | dsimp only
      | apply good_upd
    | exact Or.inr rfl | exact rfl

theorem State.writeSlot_keeps {s : State} {n : Nat} {k : Nat} {word : Nat} {twoStep : Bool} (hg : Good ev s) :
    Good ev (State.writeSlot s n k word twoStep) := by
  unfold State.writeSlot
  repeat' first
    | with_reducible first
      | assumption | rfl | exact Or.inr rfl | exact Or.inl ‹_› | refine Good.of_pair (by assumption) ?_
      | apply State.emit_keeps | apply State.modRing_keeps | intro _ | apply Good.ite_of | apply apply_ite_good
      | split | dsimp only | apply good_upd
    | exact Or.inr rfl | exact rfl

theorem State.dropEntry_keeps {s : State} {n : Nat} (hg : Good ev s) :
    Good ev (State.dropEntry s n) := by
  unfold State.dropEntry
  repeat' first
    | with_reducible first
      | assumption | rfl | exact Or.inr rfl | exact Or.inl ‹_› | refine Good.of_pair (by assumption) ?_
      | apply State.putReg_keeps | intro _ | apply Good.ite_of | apply apply_ite_good | split | dsimp only
      | apply good_upd
    | exact Or.inr rfl | exact rfl

theorem State.postCpl_keeps {s : State} {n : Nat} {c : Cpl} (hg : Good ev s) :
    Good ev (State.postCpl s n c) := by
  unfold State.postCpl
  repeat' first
    | with_reducible first
      | assumption | rfl | exact Or.inr rfl | exact Or.inl ‹_› | refine Good.of_pair (by assumption) ?_
      | apply State.dropEntry_keeps | apply State.writeSlot_keeps | apply State.signalIf_keeps
      | apply State.bump_keeps | apply State.modRing_keeps | intro _ | apply Good.ite_of | apply apply_ite_good
      | split | dsimp only | apply good_upd
    | exact Or.inr rfl | exact rfl

theorem State.writeOverflow_keeps {s : State} {n : Nat} (hg : Good ev s) :
    Good ev (State.writeOverflow s n) := by
  unfold State.writeOverflow
  repeat' first
    | with_reducible first
      | assumption | rfl | exact Or.inr rfl | exact Or.inl ‹_› | refine Good.of_pair (by assumption) ?_
      | apply State.writeSlot_keeps | apply State.signalIf_keeps | apply State.modRing_keeps | intro _
      | apply Good.ite_of | apply apply_ite_good | split | dsimp only | apply good_upd
    | exact Or.inr rfl | exact rfl

theorem State.dropRecord_keeps {s : State} {n : Nat} (hg : Good ev s) :
    Good ev (State.dropRecord s n) := by
  unfold State.dropRecord
  repeat' first
    | with_reducible first
      | assumption | rfl | exact Or.inr rfl | exact Or.inl ‹_› | refine Good.of_pair (by assumption) ?_
      | apply State.dropEntry_keeps | apply State.modRing_keeps | intro _ | apply Good.ite_of | apply apply_ite_good
      | split | dsimp only | apply good_upd
    | exact Or.inr rfl | exact rfl

theorem State.postEvtAt_keeps {s : State} {kind : Nat} {dw : List Word} {ft : BitVec 64} (hg : Good ev s) :
    Good ev (State.postEvtAt s kind dw ft) := by
  unfold State.postEvtAt
  repeat' first
    | with_reducible first
      | assumption | rfl | exact Or.inr rfl | exact Or.inl ‹_› | refine Good.of_pair (by assumption) ?_
      | apply State.dropRecord_keeps | apply State.writeOverflow_keeps | apply State.writeSlot_keeps
      | apply State.signalIf_keeps | apply State.bump_keeps | apply State.modRing_keeps | intro _ | apply Good.ite_of
      | apply apply_ite_good | split | dsimp only | apply good_upd
    | exact Or.inr rfl | exact rfl

theorem State.postEvt_keeps {s : State} {kind : Nat} {dw : List Word} (hg : Good ev s) :
    Good ev (State.postEvt s kind dw) := by
  unfold State.postEvt
  repeat' first
    | with_reducible first
      | assumption | rfl | exact Or.inr rfl | exact Or.inl ‹_› | refine Good.of_pair (by assumption) ?_
      | apply State.postEvtAt_keeps | intro _ | apply Good.ite_of | apply apply_ite_good | split | dsimp only
      | apply good_upd
    | exact Or.inr rfl | exact rfl

theorem State.ringCause_keeps {s : State} {n : Nat} {statBit : Nat} {cause : Nat} (hg : Good ev s) :
    Good ev (State.ringCause s n statBit cause) := by
  unfold State.ringCause
  repeat' first
    | with_reducible first
      | assumption | rfl | exact Or.inr rfl | exact Or.inl ‹_› | refine Good.of_pair (by assumption) ?_
      | apply State.postEvt_keeps | apply State.raise_keeps | intro _ | apply Good.ite_of | apply apply_ite_good
      | split | dsimp only | apply good_upd
    | exact Or.inr rfl | exact rfl

theorem State.postMail_keeps {s : State} {n : Nat} {src : BitVec 12} {y0 : Nat} {y1 : List Byte} (hg : Good ev s) :
    Good ev (State.postMail s n src y0 y1) := by
  induction y0 generalizing s n src y1 with
  | zero =>
    unfold State.postMail
    repeat' first
      | with_reducible first
        | assumption | rfl | exact Or.inr rfl | exact Or.inl ‹_› | refine Good.of_pair (by assumption) ?_
        | apply State.writeSlot_keeps | apply State.signalIf_keeps | intro _ | apply Good.ite_of
        | apply apply_ite_good | split | dsimp only | apply good_upd
      | exact Or.inr rfl | exact rfl
  | succ k ih =>
    unfold State.postMail
    repeat' first
      | with_reducible first
        | assumption | rfl | exact Or.inr rfl | exact Or.inl ‹_› | apply ih | refine Good.of_pair (by assumption) ?_
        | apply State.writeSlot_keeps | apply State.signalIf_keeps | intro _ | apply Good.ite_of
        | apply apply_ite_good | split | dsimp only | apply good_upd
      | exact Or.inr rfl | exact rfl

end Sys2Proof.Machine
end

