-- ==== Sys2Proof/Laws/KeepOrders.lean ====
section
/-!
SUPPORT. What every operation of Machine/Orders.lean keeps (Laws/Keep.lean).
-/

namespace Sys2Proof.Machine

variable {ev : Env}

theorem State.modDesc_keeps {s : State} {ring : Nat} {slot : Nat} {f : Desc → Desc} (hg : Good ev s) :
    Good ev (State.modDesc s ring slot f) := by
  unfold State.modDesc
  repeat' first
    | with_reducible first
      | assumption | rfl | exact Or.inr rfl | exact Or.inl ‹_› | refine Good.of_pair (by assumption) ?_
      | apply State.modRing_keeps | intro _ | apply Good.ite_of | apply apply_ite_good | split | dsimp only
      | apply good_upd
    | exact Or.inr rfl | exact rfl

theorem State.dropDesc_keeps {s : State} {ring : Nat} {slot : Nat} (hg : Good ev s) :
    Good ev (State.dropDesc s ring slot) := by
  unfold State.dropDesc
  repeat' first
    | with_reducible first
      | assumption | rfl | exact Or.inr rfl | exact Or.inl ‹_› | refine Good.of_pair (by assumption) ?_
      | apply State.modRing_keeps | intro _ | apply Good.ite_of | apply apply_ite_good | split | dsimp only
      | apply good_upd
    | exact Or.inr rfl | exact rfl

theorem State.flushRing_keeps {s : State} {ring : Nat} {y0 : Nat} (hg : Good ev s) :
    Good ev (State.flushRing s ring y0) := by
  induction y0 generalizing s ring with
  | zero =>
    unfold State.flushRing
    repeat' first
      | with_reducible first
        | assumption | rfl | exact Or.inr rfl | exact Or.inl ‹_› | refine Good.of_pair (by assumption) ?_
        | apply State.dropDesc_keeps | apply State.modDesc_keeps | apply State.postCpl_keeps | intro _
        | apply Good.ite_of | apply apply_ite_good | split | dsimp only | apply good_upd
      | exact Or.inr rfl | exact rfl
  | succ k ih =>
    unfold State.flushRing
    repeat' first
      | with_reducible first
        | assumption | rfl | exact Or.inr rfl | exact Or.inl ‹_› | apply ih | refine Good.of_pair (by assumption) ?_
        | apply State.dropDesc_keeps | apply State.modDesc_keeps | apply State.postCpl_keeps | intro _
        | apply Good.ite_of | apply apply_ite_good | split | dsimp only | apply good_upd
      | exact Or.inr rfl | exact rfl

theorem State.complete_keeps {s : State} {ring : Nat} {d : Desc} {c : Cpl} (hg : Good ev s) :
    Good ev (State.complete s ring d c) := by
  unfold State.complete
  repeat' first
    | with_reducible first
      | assumption | rfl | exact Or.inr rfl | exact Or.inl ‹_› | refine Good.of_pair (by assumption) ?_
      | apply State.flushRing_keeps | apply State.dropDesc_keeps | apply State.modDesc_keeps
      | apply State.postCpl_keeps | intro _ | apply Good.ite_of | apply apply_ite_good | split | dsimp only
      | apply good_upd
    | exact Or.inr rfl | exact rfl

theorem State.endDesc_keeps {s : State} {ring : Nat} {d : Desc} {status : Nat} {delay : Nat} {aux : Nat} (hg : Good
    ev s) :
    Good ev (State.endDesc s ring d status delay aux) := by
  unfold State.endDesc
  repeat' first
    | with_reducible first
      | assumption | rfl | exact Or.inr rfl | exact Or.inl ‹_› | refine Good.of_pair (by assumption) ?_
      | apply State.complete_keeps | intro _ | apply Good.ite_of | apply apply_ite_good | split | dsimp only
      | apply good_upd
    | exact Or.inr rfl | exact rfl

theorem State.lostCpl_keeps {s : State} {quiet : Bool} {status : Nat} (hg : Good ev s) :
    Good ev (State.lostCpl s quiet status) := by
  unfold State.lostCpl
  repeat' first
    | with_reducible first
      | assumption | rfl | exact Or.inr rfl | exact Or.inl ‹_› | refine Good.of_pair (by assumption) ?_
      | apply State.bump_keeps | intro _ | apply Good.ite_of | apply apply_ite_good | split | dsimp only
      | apply good_upd
    | exact Or.inr rfl | exact rfl

theorem State.finishOrd_keeps {s : State} {o : Ord} {status : Nat} {delay : Nat} {aux : Nat} {winSrc : Nat} {winNode
    : BitVec 12} (hg : Good ev s) :
    Good ev (State.finishOrd s o status delay aux winSrc winNode) := by
  unfold State.finishOrd
  repeat' first
    | with_reducible first
      | assumption | rfl | exact Or.inr rfl | exact Or.inl ‹_› | refine Good.of_pair (by assumption) ?_
      | apply State.lostCpl_keeps | apply State.complete_keeps | apply State.postCpl_keeps | apply State.bump_keeps
      | intro _ | apply Good.ite_of | apply apply_ite_good | split | dsimp only | apply good_upd
    | exact Or.inr rfl | exact rfl

theorem State.refuseRetired_keeps {s : State} {ring : Nat} {d : Desc} (hg : Good ev s) :
    Good ev (State.refuseRetired s ring d) := by
  unfold State.refuseRetired
  repeat' first
    | with_reducible first
      | assumption | rfl | exact Or.inr rfl | exact Or.inl ‹_› | refine Good.of_pair (by assumption) ?_
      | apply State.finishOrd_keeps | apply State.endDesc_keeps | apply State.complete_keeps | apply State.each_keeps
      | intro _ | apply Good.ite_of | apply apply_ite_good | split | dsimp only | apply good_upd
    | exact Or.inr rfl | exact rfl

theorem State.setCpl_keeps {s : State} {x : SSet} {status : Nat} {delay : Nat} {aux : Nat} {split : Bool} {ticks :
    Nat} (hg : Good ev s) :
    Good ev (State.setCpl s x status delay aux split ticks) := by
  unfold State.setCpl
  repeat' first
    | with_reducible first
      | assumption | rfl | exact Or.inr rfl | exact Or.inl ‹_› | refine Good.of_pair (by assumption) ?_
      | apply State.lostCpl_keeps | apply State.complete_keeps | intro _ | apply Good.ite_of | apply apply_ite_good
      | split | dsimp only | apply good_upd
    | exact Or.inr rfl | exact rfl

theorem State.tagPeak_keeps {s : State} {n : Nat} (hg : Good ev s) :
    Good ev (State.tagPeak s n) := by
  unfold State.tagPeak
  repeat' first
    | with_reducible first
      | assumption | rfl | exact Or.inr rfl | exact Or.inl ‹_› | refine Good.of_pair (by assumption) ?_
      | apply State.setFld_keeps | intro _ | apply Good.ite_of | apply apply_ite_good | split | dsimp only
      | apply good_upd
    | exact Or.inr rfl | exact rfl

theorem State.issueReads_keeps {s : State} {y0 : Nat} (hg : Good ev s) :
    Good ev (State.issueReads s y0) := by
  induction y0 generalizing s with
  | zero =>
    unfold State.issueReads
    repeat' first
      | with_reducible first
        | assumption | rfl | exact Or.inr rfl | exact Or.inl ‹_› | refine Good.of_pair (by assumption) ?_
        | apply State.tagPeak_keeps | apply State.modDesc_keeps | apply State.emit_keeps | intro _ | apply Good.ite_of
        | apply apply_ite_good | split | dsimp only | apply good_upd
      | exact Or.inr rfl | exact rfl
  | succ k ih =>
    unfold State.issueReads
    repeat' first
      | with_reducible first
        | assumption | rfl | exact Or.inr rfl | exact Or.inl ‹_› | apply ih | refine Good.of_pair (by assumption) ?_
        | apply State.tagPeak_keeps | apply State.modDesc_keeps | apply State.emit_keeps | intro _ | apply Good.ite_of
        | apply apply_ite_good | split | dsimp only | apply good_upd
      | exact Or.inr rfl | exact rfl

theorem State.readNow_keeps {s : State} {a : Nat} {n : Nat} {bound : Nat} {y0 : Nat} {y1 : Nat} (hg : Good ev s) :
    Good ev (State.readNow s a n bound y0 y1) := by
  have hz : ∀ {s : State} {x : Nat}, Good ev s → Good ev (State.readNow s a n bound 0 x) := by
    intro s x hg
    unfold State.readNow
    exact State.tagPeak_keeps hg
  induction y0 generalizing s y1 with
  | zero => exact hz hg
  | succ k ih =>
    unfold State.readNow
    split
    · exact hz hg
    · exact ih (State.emit_keeps hg)

end Sys2Proof.Machine
end

