-- ==== Sys2Proof/Laws/KeepFaults.lean ====
section
/-!
SUPPORT. What every operation of Machine/Faults.lean keeps (Laws/Keep.lean).
-/

namespace Sys2Proof.Machine

variable {ev : Env}

theorem State.countOcc_keeps {s : State} {cls : Nat} (hg : Good ev s) :
    Good ev (State.countOcc s cls) := by
  unfold State.countOcc
  repeat' first
    | with_reducible first
      | assumption | rfl | exact Or.inr rfl | exact Or.inl ‹_› | refine Good.of_pair (by assumption) ?_ | intro _
      | apply Good.ite_of | apply apply_ite_good | split | dsimp only | apply good_upd
    | exact Or.inr rfl | exact rfl

theorem State.faultRecord_keeps {s : State} {cls : Nat} {kind : Nat} {outcome : Nat} {index : Nat} {detail : Word}
    {count : Nat} {limit : Nat} {ft : BitVec 64} (hg : Good ev s) :
    Good ev (State.faultRecord s cls kind outcome index detail count limit ft) := by
  unfold State.faultRecord
  repeat' first
    | with_reducible first
      | assumption | rfl | exact Or.inr rfl | exact Or.inl ‹_› | refine Good.of_pair (by assumption) ?_
      | apply State.postEvtAt_keeps | intro _ | apply Good.ite_of | apply apply_ite_good | split | dsimp only
      | apply good_upd
    | exact Or.inr rfl | exact rfl

theorem State.skipRecord_keeps {s : State} {agent : Nat} {kind : Nat} {unit : Nat} {dw1 : Word} (hg : Good ev s) :
    Good ev (State.skipRecord s agent kind unit dw1) := by
  unfold State.skipRecord
  repeat' first
    | with_reducible first
      | assumption | rfl | exact Or.inr rfl | exact Or.inl ‹_› | refine Good.of_pair (by assumption) ?_
      | apply State.postEvt_keeps | intro _ | apply Good.ite_of | apply apply_ite_good | split | dsimp only
      | apply good_upd
    | exact Or.inr rfl | exact rfl

theorem State.markRetired_keeps {s : State} {kind : Nat} {index : Nat} {ft : BitVec 64} {clock : Nat} (hg : Good ev
    s) :
    Good ev (State.markRetired s kind index ft clock) := by
  unfold State.markRetired
  repeat' first
    | with_reducible first
      | assumption | rfl | exact Or.inr rfl | exact Or.inl ‹_› | refine Good.of_pair (by assumption) ?_
      | apply State.raise_keeps | intro _ | apply Good.ite_of | apply apply_ite_good | split | dsimp only
      | apply good_upd
    | exact Or.inr rfl | exact rfl

end Sys2Proof.Machine
end

