-- ==== Sys2Proof/Laws/KeepFirn.lean ====
section
/-!
SUPPORT. What every operation of Machine/Firn.lean keeps (Laws/Keep.lean).
-/

namespace Sys2Proof.Machine

variable {ev : Env}

theorem State.regionPut_keeps {s : State} {w : Nat} {v : BitVec 512} {poison : Bool} (hg : Good ev s) :
    Good ev (s.regionPut w v poison) :=
  good_firn hg storeBytes_wf

theorem State.savePut_keeps {s : State} {i : Nat} {v : BitVec 512} {poison : Bool} (hg : Good ev s) :
    Good ev (State.savePut s i v poison) := by
  unfold State.savePut
  repeat' first
    | with_reducible first
      | assumption | rfl | exact Or.inr rfl | exact Or.inl ‹_› | refine Good.of_pair (by assumption) ?_ | intro _
      | apply Good.ite_of | apply apply_ite_good | split | dsimp only | apply good_upd
    | exact Or.inr rfl | exact rfl

theorem State.firnPlace_keeps {s : State} {w : Nat} {v : BitVec 512} {poison : Bool} (hg : Good ev s) :
    Good ev (State.firnPlace s w v poison) := by
  unfold State.firnPlace
  repeat' first
    | with_reducible first
      | assumption | rfl | exact Or.inr rfl | exact Or.inl ‹_› | refine Good.of_pair (by assumption) ?_
      | apply State.savePut_keeps | apply State.regionPut_keeps | intro _ | apply Good.ite_of | apply apply_ite_good
      | split | dsimp only | apply good_upd
    | exact Or.inr rfl | exact rfl

theorem State.firnWrite_keeps {s : State} {w : Nat} {v : BitVec 512} (hg : Good ev s) :
    Good ev (State.firnWrite s w v) := by
  unfold State.firnWrite
  repeat' first
    | with_reducible first
      | assumption | rfl | exact Or.inr rfl | exact Or.inl ‹_› | refine Good.of_pair (by assumption) ?_
      | apply State.firnPlace_keeps | apply State.bump_keeps | intro _ | apply Good.ite_of | apply apply_ite_good
      | split | dsimp only | apply good_upd
    | exact Or.inr rfl | exact rfl

theorem State.firnWrites_keeps {s : State} {w : Nat} {y0 : List (BitVec 512)} (hg : Good ev s) :
    Good ev (State.firnWrites s w y0) := by
  induction y0 generalizing s w with
  | nil =>
    unfold State.firnWrites
    repeat' first
      | with_reducible first
        | assumption | rfl | exact Or.inr rfl | exact Or.inl ‹_› | refine Good.of_pair (by assumption) ?_
        | apply State.firnWrite_keeps | intro _ | apply Good.ite_of | apply apply_ite_good | split | dsimp only
        | apply good_upd
      | exact Or.inr rfl | exact rfl
  | cons x l ih =>
    unfold State.firnWrites
    repeat' first
      | with_reducible first
        | assumption | rfl | exact Or.inr rfl | exact Or.inl ‹_› | apply ih | refine Good.of_pair (by assumption) ?_
        | apply State.firnWrite_keeps | intro _ | apply Good.ite_of | apply apply_ite_good | split | dsimp only
        | apply good_upd
      | exact Or.inr rfl | exact rfl

theorem State.histNote_keeps {s : State} {w : Nat} {ue : Bool} (hg : Good ev s) :
    Good ev (State.histNote s w ue) := by
  unfold State.histNote
  repeat' first
    | with_reducible first
      | assumption | rfl | exact Or.inr rfl | exact Or.inl ‹_› | refine Good.of_pair (by assumption) ?_
      | apply good_foldl | apply good_foldl_snd | intro _ | apply Good.ite_of | apply apply_ite_good | split
      | dsimp only | apply good_upd
    | exact Or.inr rfl | exact rfl

theorem State.firnUe_keeps {s : State} {w : Nat} (hg : Good ev s) :
    Good ev (State.firnUe s w) := by
  unfold State.firnUe
  repeat' first
    | with_reducible first
      | assumption | rfl | exact Or.inr rfl | exact Or.inl ‹_› | refine Good.of_pair (by assumption) ?_
      | apply State.histNote_keeps | apply State.bump_keeps | apply State.detect_keeps | intro _ | apply Good.ite_of
      | apply apply_ite_good | split | dsimp only | apply good_upd
    | exact Or.inr rfl | exact rfl

theorem State.firnRead_keeps {s : State} {w : Nat} (hg : Good ev s) :
    Good ev (State.firnRead s w).2 := by
  unfold State.firnRead
  repeat' first
    | with_reducible first
      | assumption | rfl | exact Or.inr rfl | exact Or.inl ‹_› | refine Good.of_pair (by assumption) ?_
      | apply State.firnUe_keeps | apply State.bump_keeps | intro _ | apply Good.ite_of | apply apply_ite_good | split
      | dsimp only | apply good_upd
    | exact Or.inr rfl | exact rfl

theorem State.countCorrected_keeps {s : State} {b : Nat} {n : Nat} (hg : Good ev s) :
    Good ev (State.countCorrected s b n) := by
  unfold State.countCorrected
  repeat' first
    | with_reducible first
      | assumption | rfl | exact Or.inr rfl | exact Or.inl ‹_› | refine Good.of_pair (by assumption) ?_
      | apply State.setSpare_keeps | apply State.setBank_keeps | intro _ | apply Good.ite_of | apply apply_ite_good
      | split | dsimp only | apply good_upd
    | exact Or.inr rfl | exact rfl

theorem State.firnCe_keeps {s : State} {w : Nat} {x : Nat × Nat} (hg : Good ev s) :
    Good ev (State.firnCe s w x) := by
  unfold State.firnCe
  repeat' first
    | with_reducible first
      | assumption | rfl | exact Or.inr rfl | exact Or.inl ‹_› | refine Good.of_pair (by assumption) ?_
      | apply State.countCorrected_keeps | apply State.histNote_keeps | apply State.bump_keeps
      | apply State.detect_keeps | intro _ | apply Good.ite_of | apply apply_ite_good | split | dsimp only
      | apply good_upd
    | exact Or.inr rfl | exact rfl

theorem State.queueWriteBack_keeps {s : State} {w : Nat} (hg : Good ev s) :
    Good ev (State.queueWriteBack s w) := by
  unfold State.queueWriteBack
  repeat' first
    | with_reducible first
      | assumption | rfl | exact Or.inr rfl | exact Or.inl ‹_› | refine Good.of_pair (by assumption) ?_
      | apply State.bump_keeps | intro _ | apply Good.ite_of | apply apply_ite_good | split | dsimp only
      | apply good_upd
    | exact Or.inr rfl | exact rfl

theorem State.eccRead_keeps {s : State} {w : Nat} {flips : BitVec 576} (hg : Good ev s) :
    Good ev (State.eccRead s w flips).2 := by
  unfold State.eccRead
  repeat' first
    | with_reducible first
      | assumption | rfl | exact Or.inr rfl | exact Or.inl ‹_› | refine Good.of_pair (by assumption) ?_
      | apply State.queueWriteBack_keeps | apply State.firnCe_keeps | apply State.firnUe_keeps
      | apply State.each_keeps | intro _ | apply Good.ite_of | apply apply_ite_good | split | dsimp only
      | apply good_upd
    | exact Or.inr rfl | exact rfl

theorem State.rimeSave_keeps {s : State} {w : Nat} {flips : BitVec 576} (hg : Good ev s) :
    Good ev (State.rimeSave s w flips) := by
  unfold State.rimeSave
  repeat' first
    | with_reducible first
      | assumption | rfl | exact Or.inr rfl | exact Or.inl ‹_› | refine Good.of_pair (by assumption) ?_
      | apply State.eccRead_keeps | apply State.savePut_keeps | intro _ | apply Good.ite_of | apply apply_ite_good
      | split | dsimp only | apply good_upd
    | exact Or.inr rfl | exact rfl

theorem State.rimeRestore_keeps {s : State} {w : Nat} (hg : Good ev s) :
    Good ev (State.rimeRestore s w) := by
  unfold State.rimeRestore
  repeat' first
    | with_reducible first
      | assumption | rfl | exact Or.inr rfl | exact Or.inl ‹_› | refine Good.of_pair (by assumption) ?_
      | apply State.regionPut_keeps | intro _ | apply Good.ite_of | apply apply_ite_good | split | dsimp only
      | apply good_upd
    | exact Or.inr rfl | exact rfl

theorem State.marchMiss_keeps {s : State} {i : Nat} (hg : Good ev s) :
    Good ev (State.marchMiss s i) := by
  unfold State.marchMiss
  repeat' first
    | with_reducible first
      | assumption | rfl | exact Or.inr rfl | exact Or.inl ‹_› | refine Good.of_pair (by assumption) ?_ | intro _
      | apply Good.ite_of | apply apply_ite_good | split | dsimp only | apply good_upd
    | exact Or.inr rfl | exact rfl

theorem State.marchStep_keeps {s : State} {i : Nat} {o : MarchOp} {flips : BitVec 576} (hg : Good ev s) :
    Good ev (State.marchStep s i o flips) := by
  unfold State.marchStep
  repeat' first
    | with_reducible first
      | assumption | rfl | exact Or.inr rfl | exact Or.inl ‹_› | refine Good.of_pair (by assumption) ?_
      | apply State.marchMiss_keeps | intro _ | apply Good.ite_of | apply apply_ite_good | split | dsimp only
      | apply good_upd
    | exact Or.inr rfl | exact rfl

theorem State.copyRow_keeps {s : State} {w : Nat} {flips : BitVec 576} (hg : Good ev s) :
    Good ev (State.copyRow s w flips) := by
  unfold State.copyRow
  repeat' first
    | with_reducible first
      | assumption | rfl | exact Or.inr rfl | exact Or.inl ‹_› | refine Good.of_pair (by assumption) ?_
      | apply State.eccRead_keeps | intro _ | apply Good.ite_of | apply apply_ite_good | split | dsimp only
      | apply good_upd
    | exact Or.inr rfl | exact rfl

theorem State.rimeAccess_keeps {s : State} {w : Nat} {flips : BitVec 576} (hg : Good ev s) :
    Good ev (State.rimeAccess s w flips) := by
  unfold State.rimeAccess
  repeat' first
    | with_reducible first
      | assumption | rfl | exact Or.inr rfl | exact Or.inl ‹_› | refine Good.of_pair (by assumption) ?_
      | apply State.writeBack_keeps | apply State.copyRow_keeps | apply State.marchStep_keeps
      | apply State.rimeRestore_keeps | apply State.rimeSave_keeps | intro _ | apply Good.ite_of
      | apply apply_ite_good | split | dsimp only | apply good_upd
    | exact Or.inr rfl | exact rfl

theorem State.firnServe_keeps {s : State} {r : FirnReq} {b : Nat} {flips : BitVec 576} (hg : Good ev s) :
    Good ev (State.firnServe s r b flips) := by
  unfold State.firnServe
  repeat' first
    | with_reducible first
      | assumption | rfl | exact Or.inr rfl | exact Or.inl ‹_› | refine Good.of_pair (by assumption) ?_
      | apply State.write_keeps | apply State.rimeAccess_keeps | apply State.eccRead_keeps
      | apply State.firnWrite_keeps | apply State.bump_keeps | intro _ | apply Good.ite_of | apply apply_ite_good
      | split | dsimp only | apply good_upd
    | exact Or.inr rfl | exact rfl

theorem State.firnGrant_keeps {s : State} {b : Nat} {now : Nat} {r : FirnReq} {flips : BitVec 576} (hg : Good ev s) :
    Good ev (State.firnGrant s b now r flips) := by
  unfold State.firnGrant
  repeat' first
    | with_reducible first
      | assumption | rfl | exact Or.inr rfl | exact Or.inl ‹_› | refine Good.of_pair (by assumption) ?_
      | apply State.firnServe_keeps | intro _ | apply Good.ite_of | apply apply_ite_good | split | dsimp only
      | apply good_upd
    | exact Or.inr rfl | exact rfl

theorem State.firnCycle_keeps {s : State} {b : Nat} {reqs : List FirnReq} {flips : BitVec 576} (hg : Good ev s) :
    Good ev (State.firnCycle s b reqs flips) := by
  unfold State.firnCycle
  repeat' first
    | with_reducible first
      | assumption | rfl | exact Or.inr rfl | exact Or.inl ‹_› | refine Good.of_pair (by assumption) ?_
      | apply State.firnGrant_keeps | apply State.bump_keeps | apply State.each_keeps | intro _ | apply Good.ite_of
      | apply apply_ite_good | split | dsimp only | apply good_upd
    | exact Or.inr rfl | exact rfl

theorem State.portAccess_keeps {s : State} {port : Nat} {w : Nat} {write : Option (BitVec 512)} (hg : Good ev s) :
    Good ev (State.portAccess s port w write) := by
  unfold State.portAccess
  repeat' first
    | with_reducible first
      | assumption | rfl | exact Or.inr rfl | exact Or.inl ‹_› | refine Good.of_pair (by assumption) ?_
      | apply State.write_keeps | apply State.firnGrant_keeps | intro _ | apply Good.ite_of | apply apply_ite_good
      | split | dsimp only | apply good_upd
    | exact Or.inr rfl | exact rfl

theorem State.portWrite_keeps {s : State} {port : Nat} {w : Nat} {v : BitVec 512} (hg : Good ev s) :
    Good ev (State.portWrite s port w v) := by
  unfold State.portWrite
  repeat' first
    | with_reducible first
      | assumption | rfl | exact Or.inr rfl | exact Or.inl ‹_› | refine Good.of_pair (by assumption) ?_
      | apply State.portAccess_keeps | intro _ | apply Good.ite_of | apply apply_ite_good | split | dsimp only
      | apply good_upd
    | exact Or.inr rfl | exact rfl

theorem State.takeFlag_keeps {s : State} {port w : Nat} {p : FirnData × State} (hg : Good ev s)
    (h : s.takeFlag port w = some p) : Good ev p.2 := by
  obtain ⟨x, -, rfl⟩ := Option.map_eq_some_iff.1 h
  exact ⟨hg.queue, hg.strap, hg.canon, hg.beat⟩

theorem State.portRead_keeps {s : State} {port w : Nat} (hg : Good ev s) : Good ev (s.portRead port w).2 := by
  unfold State.portRead
  split
  · exact State.takeFlag_keeps hg (by assumption)
  · dsimp only
    split
    · exact State.takeFlag_keeps (State.portAccess_keeps hg) (by assumption)
    · exact State.portAccess_keeps hg

theorem State.dropFlags_keeps {s : State} {port : Nat} (hg : Good ev s) :
    Good ev (State.dropFlags s port) := by
  unfold State.dropFlags
  repeat' first
    | with_reducible first
      | assumption | rfl | exact Or.inr rfl | exact Or.inl ‹_› | refine Good.of_pair (by assumption) ?_ | intro _
      | apply Good.ite_of | apply apply_ite_good | split | dsimp only | apply good_upd
    | exact Or.inr rfl | exact rfl

theorem State.bankCycles_keeps {s : State} {dt : Nat} (hg : Good ev s) :
    Good ev (State.bankCycles s dt) := by
  unfold State.bankCycles
  repeat' first
    | with_reducible first
      | assumption | rfl | exact Or.inr rfl | exact Or.inl ‹_› | refine Good.of_pair (by assumption) ?_ | intro _
      | apply Good.ite_of | apply apply_ite_good | split | dsimp only | apply good_upd
    | exact Or.inr rfl | exact rfl

theorem State.modRime_keeps {s : State} {f : Rime → Rime} (hg : Good ev s) :
    Good ev (State.modRime s f) := by
  unfold State.modRime
  repeat' first
    | with_reducible first
      | assumption | rfl | exact Or.inr rfl | exact Or.inl ‹_› | refine Good.of_pair (by assumption) ?_ | intro _
      | apply Good.ite_of | apply apply_ite_good | split | dsimp only | apply good_upd
    | exact Or.inr rfl | exact rfl

theorem State.rimeStart_keeps {s : State} (hg : Good ev s) :
    Good ev (State.rimeStart s) := by
  unfold State.rimeStart
  repeat' first
    | with_reducible first
      | assumption | rfl | exact Or.inr rfl | exact Or.inl ‹_› | refine Good.of_pair (by assumption) ?_ | intro _
      | apply Good.ite_of | apply apply_ite_good | split | dsimp only | apply good_upd
    | exact Or.inr rfl | exact rfl

theorem State.rimeSkip_keeps {s : State} {kind : Nat} (hg : Good ev s) :
    Good ev (State.rimeSkip s kind) := by
  unfold State.rimeSkip
  repeat' first
    | with_reducible first
      | assumption | rfl | exact Or.inr rfl | exact Or.inl ‹_› | refine Good.of_pair (by assumption) ?_
      | apply State.skipRecord_keeps | apply State.bump_keeps | apply State.raise_keeps | intro _ | apply Good.ite_of
      | apply apply_ite_good | split | dsimp only | apply good_upd
    | exact Or.inr rfl | exact rfl

theorem State.rimePhase_keeps {s : State} {st : RimeSt} (hg : Good ev s) :
    Good ev (State.rimePhase s st) := by
  unfold State.rimePhase
  repeat' first
    | with_reducible first
      | assumption | rfl | exact Or.inr rfl | exact Or.inl ‹_› | refine Good.of_pair (by assumption) ?_
      | apply State.modRime_keeps | intro _ | apply Good.ite_of | apply apply_ite_good | split | dsimp only
      | apply good_upd
    | exact Or.inr rfl | exact rfl

theorem State.rimeRest_keeps {s : State} (hg : Good ev s) :
    Good ev (State.rimeRest s) := by
  unfold State.rimeRest
  repeat' first
    | with_reducible first
      | assumption | rfl | exact Or.inr rfl | exact Or.inl ‹_› | refine Good.of_pair (by assumption) ?_
      | apply State.rimeRestore_keeps | apply State.rimeSave_keeps | apply State.each_keeps | intro _
      | apply Good.ite_of | apply apply_ite_good | split | dsimp only | apply good_upd
    | exact Or.inr rfl | exact rfl

theorem State.marchEnd_keeps {s : State} {l : List MarchMiss} (hg : Good ev s) :
    Good ev (State.marchEnd s l) := by
  unfold State.marchEnd
  repeat' first
    | with_reducible first
      | assumption | rfl | exact Or.inr rfl | exact Or.inl ‹_› | refine Good.of_pair (by assumption) ?_
      | apply State.rimePhase_keeps | apply State.marchMiss_keeps | apply State.histNote_keeps
      | apply State.raiseIf_keeps | apply State.each_keeps | apply State.detect_keeps | intro _ | apply Good.ite_of
      | apply apply_ite_good | split | dsimp only | apply good_upd
    | exact Or.inr rfl | exact rfl

theorem State.rimeTimeout_keeps {s : State} {l : List MarchMiss} (hg : Good ev s) :
    Good ev (State.rimeTimeout s l) := by
  unfold State.rimeTimeout
  repeat' first
    | with_reducible first
      | assumption | rfl | exact Or.inr rfl | exact Or.inl ‹_› | refine Good.of_pair (by assumption) ?_
      | apply State.marchEnd_keeps | apply State.rimeSkip_keeps | apply State.modRime_keeps | intro _
      | apply Good.ite_of | apply apply_ite_good | split | dsimp only | apply good_upd
    | exact Or.inr rfl | exact rfl

theorem State.bankWait_keeps {s : State} {b : Nat} (hg : Good ev s) :
    Good ev (State.bankWait s b) := by
  unfold State.bankWait
  repeat' first
    | with_reducible first
      | assumption | rfl | exact Or.inr rfl | exact Or.inl ‹_› | refine Good.of_pair (by assumption) ?_
      | apply State.setBank_keeps | intro _ | apply Good.ite_of | apply apply_ite_good | split | dsimp only
      | apply good_upd
    | exact Or.inr rfl | exact rfl

theorem State.copyStart_keeps {s : State} (hg : Good ev s) :
    Good ev (State.copyStart s) := by
  unfold State.copyStart
  repeat' first
    | with_reducible first
      | assumption | rfl | exact Or.inr rfl | exact Or.inl ‹_› | refine Good.of_pair (by assumption) ?_
      | apply State.setSpare_keeps | apply State.setBank_keeps | intro _ | apply Good.ite_of | apply apply_ite_good
      | split | dsimp only | apply good_upd
    | exact Or.inr rfl | exact rfl

theorem State.copyRest_keeps {s : State} (hg : Good ev s) :
    Good ev (State.copyRest s) := by
  unfold State.copyRest
  repeat' first
    | with_reducible first
      | assumption | rfl | exact Or.inr rfl | exact Or.inl ‹_› | refine Good.of_pair (by assumption) ?_
      | apply State.copyRow_keeps | apply State.each_keeps | intro _ | apply Good.ite_of | apply apply_ite_good
      | split | dsimp only | apply good_upd
    | exact Or.inr rfl | exact rfl

theorem State.copySkip_keeps {s : State} {rows : List (BitVec 13)} (hg : Good ev s) :
    Good ev (State.copySkip s rows) := by
  unfold State.copySkip
  repeat' first
    | with_reducible first
      | assumption | rfl | exact Or.inr rfl | exact Or.inl ‹_› | refine Good.of_pair (by assumption) ?_
      | apply State.copyRest_keeps | apply State.skipRecord_keeps | apply State.bump_keeps | intro _
      | apply Good.ite_of | apply apply_ite_good | split | dsimp only | apply good_upd
    | exact Or.inr rfl | exact rfl

theorem State.copySwitch_keeps {s : State} (hg : Good ev s) :
    Good ev (State.copySwitch s) := by
  unfold State.copySwitch
  repeat' first
    | with_reducible first
      | assumption | rfl | exact Or.inr rfl | exact Or.inl ‹_› | refine Good.of_pair (by assumption) ?_
      | apply State.raise_keeps | apply State.each_keeps | apply State.setSpare_keeps | apply State.setBank_keeps
      | intro _ | apply Good.ite_of | apply apply_ite_good | split | dsimp only | apply good_upd
    | exact Or.inr rfl | exact rfl

theorem State.copyDone_keeps {s : State} (hg : Good ev s) :
    Good ev (State.copyDone s) := by
  unfold State.copyDone
  repeat' first
    | with_reducible first
      | assumption | rfl | exact Or.inr rfl | exact Or.inl ‹_› | refine Good.of_pair (by assumption) ?_
      | apply State.copySwitch_keeps | apply State.copyRest_keeps | intro _ | apply Good.ite_of | apply apply_ite_good
      | split | dsimp only | apply good_upd
    | exact Or.inr rfl | exact rfl

theorem State.copyAbort_keeps {s : State} (hg : Good ev s) :
    Good ev (State.copyAbort s) := by
  unfold State.copyAbort
  repeat' first
    | with_reducible first
      | assumption | rfl | exact Or.inr rfl | exact Or.inl ‹_› | refine Good.of_pair (by assumption) ?_ | intro _
      | apply Good.ite_of | apply apply_ite_good | split | dsimp only | apply good_upd
    | exact Or.inr rfl | exact rfl

end Sys2Proof.Machine
end

