-- ==== Sys2Proof/Laws/KeepMoraine.lean ====
section
/-!
SUPPORT. What every operation of Machine/Moraine.lean keeps (Laws/Keep.lean).
-/

namespace Sys2Proof.Machine

variable {ev : Env}

theorem State.morStore_keeps {s : State} {ch : Nat} {ca : Nat} {v : BitVec 512} (hg : Good ev s) :
    Good ev (State.morStore s ch ca v) := by
  unfold State.morStore
  repeat' first
    | with_reducible first
      | assumption | rfl | exact Or.inr rfl | exact Or.inl ‹_› | refine Good.of_pair (by assumption) ?_ | intro _
      | apply Good.ite_of | apply apply_ite_good | split | dsimp only | apply good_upd
    | exact Or.inr rfl | exact rfl

theorem State.chanActive_keeps {s : State} {ch : Nat} (hg : Good ev s) :
    Good ev (State.chanActive s ch) := by
  unfold State.chanActive
  repeat' first
    | with_reducible first
      | assumption | rfl | exact Or.inr rfl | exact Or.inl ‹_› | refine Good.of_pair (by assumption) ?_
      | apply good_foldl | apply good_foldl_snd | apply State.modChan_keeps | intro _ | apply Good.ite_of
      | apply apply_ite_good | split | dsimp only | apply good_upd
    | exact Or.inr rfl | exact rfl

theorem State.streamPut_keeps {s : State} {n : Nat} {ch : Nat} {pos : Nat} {v : Option (BitVec 512)} (hg : Good ev
    s) :
    Good ev (State.streamPut s n ch pos v) := by
  unfold State.streamPut
  repeat' first
    | with_reducible first
      | assumption | rfl | exact Or.inr rfl | exact Or.inl ‹_› | refine Good.of_pair (by assumption) ?_
      | apply good_foldl | apply good_foldl_snd | apply State.portWrite_keeps | apply State.firnPlace_keeps
      | apply State.setStream_keeps | intro _ | apply Good.ite_of | apply apply_ite_good | split | dsimp only
      | apply good_upd
    | exact Or.inr rfl | exact rfl

theorem State.streamData_keeps {s : State} {n : Nat} {ch : Nat} {ca : Nat} {v : Option (BitVec 512)} (hg : Good ev
    s) :
    Good ev (State.streamData s n ch ca v) := by
  unfold State.streamData
  repeat' first
    | with_reducible first
      | assumption | rfl | exact Or.inr rfl | exact Or.inl ‹_› | refine Good.of_pair (by assumption) ?_
      | apply State.streamPut_keeps | apply State.setStream_keeps | intro _ | apply Good.ite_of | apply apply_ite_good
      | split | dsimp only | apply good_upd
    | exact Or.inr rfl | exact rfl

theorem State.hostWord_keeps {s : State} {ring : Nat} {d : Desc} {v : BitVec 512} (hg : Good ev s) :
    Good ev (State.hostWord s ring d v) := by
  unfold State.hostWord
  repeat' first
    | with_reducible first
      | assumption | rfl | exact Or.inr rfl | exact Or.inl ‹_› | refine Good.of_pair (by assumption) ?_
      | apply State.modDesc_keeps | apply State.emit_keeps | intro _ | apply Good.ite_of | apply apply_ite_good
      | split | dsimp only | apply good_upd
    | exact Or.inr rfl | exact rfl

theorem State.hostFlush_keeps {s : State} {ring : Nat} {slot : Nat} {y0 : Nat} (hg : Good ev s) :
    Good ev (State.hostFlush s ring slot y0) := by
  induction y0 generalizing s ring slot with
  | zero =>
    unfold State.hostFlush
    repeat' first
      | with_reducible first
        | assumption | rfl | exact Or.inr rfl | exact Or.inl ‹_› | refine Good.of_pair (by assumption) ?_
        | apply State.hostWord_keeps | apply State.endDesc_keeps | apply State.modDesc_keeps | intro _
        | apply Good.ite_of | apply apply_ite_good | split | dsimp only | apply good_upd
      | exact Or.inr rfl | exact rfl
  | succ k ih =>
    unfold State.hostFlush
    repeat' first
      | with_reducible first
        | assumption | rfl | exact Or.inr rfl | exact Or.inl ‹_› | apply ih | refine Good.of_pair (by assumption) ?_
        | apply State.hostWord_keeps | apply State.endDesc_keeps | apply State.modDesc_keeps | intro _
        | apply Good.ite_of | apply apply_ite_good | split | dsimp only | apply good_upd
      | exact Or.inr rfl | exact rfl

theorem State.hostReadData_keeps {s : State} {ch : Nat} {ca : Nat} {v : Option (BitVec 512)} (hg : Good ev s) :
    Good ev (State.hostReadData s ch ca v) := by
  unfold State.hostReadData
  repeat' first
    | with_reducible first
      | assumption | rfl | exact Or.inr rfl | exact Or.inl ‹_› | refine Good.of_pair (by assumption) ?_
      | apply State.hostFlush_keeps | apply State.modDesc_keeps | intro _ | apply Good.ite_of | apply apply_ite_good
      | split | dsimp only | apply good_upd
    | exact Or.inr rfl | exact rfl

theorem State.morPlace_keeps {s t : State} {ch : Nat} {r : MorReq} (hg : Good ev s) (h : s.morPlace ch r = some t) :
    Good ev t := by
  unfold State.morPlace at h
  dsimp only at h
  split at h
  · split at h
    · cases h
      exact State.setChan_keeps hg
    · split at h
      · cases h
        exact State.setChan_keeps hg
      · cases h
  · split at h
    · cases h
      split
      · exact State.streamData_keeps (State.bump_keeps hg)
      · exact State.hostReadData_keeps (State.bump_keeps hg)
      · exact State.bump_keeps hg
    · repeat' split at h
      all_goals first
        | cases h; exact State.setChan_keeps hg
        | cases h

theorem State.morAdmit_keeps {s : State} {ch : Nat} {r : MorReq} (hg : Good ev s) :
    Good ev (State.morAdmit s ch r) := by
  unfold State.morAdmit
  repeat' first
    | with_reducible first
      | assumption | rfl | exact Or.inr rfl | exact Or.inl ‹_› | refine Good.of_pair (by assumption) ?_
      | apply State.write_keeps | refine State.morPlace_keeps ?_ (by assumption) | apply State.bumpIf_keeps
      | apply State.modChan_keeps | intro _ | apply Good.ite_of | apply apply_ite_good | split | dsimp only
      | apply good_upd
    | exact Or.inr rfl | exact rfl

theorem State.morArrive_keeps {s : State} {ch : Nat} {r : MorReq} (hg : Good ev s) :
    Good ev (State.morArrive s ch r) := by
  unfold State.morArrive
  repeat' first
    | with_reducible first
      | assumption | rfl | exact Or.inr rfl | exact Or.inl ‹_› | refine Good.of_pair (by assumption) ?_
      | apply State.morAdmit_keeps | apply State.chanActive_keeps | apply State.bumpIf_keeps | apply State.bump_keeps
      | apply State.modChan_keeps | intro _ | apply Good.ite_of | apply apply_ite_good | split | dsimp only
      | apply good_upd
    | exact Or.inr rfl | exact rfl

theorem State.morRetry_keeps {s : State} {ch : Nat} (hg : Good ev s) :
    Good ev (State.morRetry s ch) := by
  unfold State.morRetry
  repeat' first
    | with_reducible first
      | assumption | rfl | exact Or.inr rfl | exact Or.inl ‹_› | refine Good.of_pair (by assumption) ?_
      | refine State.morPlace_keeps ?_ (by assumption) | apply State.each_keeps | apply State.modChan_keeps | intro _
      | apply Good.ite_of | apply apply_ite_good | split | dsimp only | apply good_upd
    | exact Or.inr rfl | exact rfl

theorem State.morReturn_keeps {s : State} {ch : Nat} {flips : BitVec 640} (hg : Good ev s) :
    Good ev (State.morReturn s ch flips) := by
  unfold State.morReturn
  repeat' first
    | with_reducible first
      | assumption | rfl | exact Or.inr rfl | exact Or.inl ‹_› | refine Good.of_pair (by assumption) ?_
      | apply State.morRetry_keeps | apply State.hostReadData_keeps | apply State.streamData_keeps
      | apply State.bump_keeps | apply State.raise_keeps | apply State.detect_keeps | apply State.modChan_keeps
      | intro _ | apply Good.ite_of | apply apply_ite_good | split | dsimp only | apply good_upd
    | exact Or.inr rfl | exact rfl

theorem State.thStore_keeps {s : State} {ch : Nat} {ca : Nat} {v : BitVec 640} (hg : Good ev s) :
    Good ev (State.thStore s ch ca v) := by
  unfold State.thStore
  repeat' first
    | with_reducible first
      | assumption | rfl | exact Or.inr rfl | exact Or.inl ‹_› | refine Good.of_pair (by assumption) ?_
      | apply State.morStore_keeps | intro _ | apply Good.ite_of | apply apply_ite_good | split | dsimp only
      | apply good_upd
    | exact Or.inr rfl | exact rfl

theorem State.thCmd_keeps {s : State} {ch : Nat} {c : DCmd} {data : Option (BitVec 512)} (hg : Good ev s) :
    Good ev (State.thCmd s ch c data) := by
  unfold State.thCmd
  repeat' first
    | with_reducible first
      | assumption | rfl | exact Or.inr rfl | exact Or.inl ‹_› | refine Good.of_pair (by assumption) ?_
      | apply State.dram_keeps | apply State.emit_keeps | intro _ | apply Good.ite_of | apply apply_ite_good | split
      | dsimp only | apply good_upd
    | exact Or.inr rfl | exact rfl

theorem State.thColumn_keeps {s : State} {ch : Nat} {ca : Nat} {data : Option (BitVec 512)} (hg : Good ev s) :
    Good ev (State.thColumn s ch ca data) := by
  unfold State.thColumn
  repeat' first
    | with_reducible first
      | assumption | rfl | exact Or.inr rfl | exact Or.inl ‹_› | refine Good.of_pair (by assumption) ?_
      | apply State.thCmd_keeps | intro _ | apply Good.ite_of | apply apply_ite_good | split | dsimp only
      | apply good_upd
    | exact Or.inr rfl | exact rfl

theorem State.thStart_keeps {s : State} {ch : Nat} (hg : Good ev s) :
    Good ev (State.thStart s ch) := by
  unfold State.thStart
  repeat' first
    | with_reducible first
      | assumption | rfl | exact Or.inr rfl | exact Or.inl ‹_› | refine Good.of_pair (by assumption) ?_
      | apply State.thCmd_keeps | apply State.modChan_keeps | intro _ | apply Good.ite_of | apply apply_ite_good
      | split | dsimp only | apply good_upd
    | exact Or.inr rfl | exact rfl

theorem State.thCompare_keeps {s : State} {ch : Nat} {o : ThOp} {k : Nat} {flips : BitVec 640} (hg : Good ev s) :
    Good ev (State.thCompare s ch o k flips) := by
  unfold State.thCompare
  repeat' first
    | with_reducible first
      | assumption | rfl | exact Or.inr rfl | exact Or.inl ‹_› | refine Good.of_pair (by assumption) ?_
      | apply good_foldl | apply good_foldl_snd | apply State.thColumn_keeps | apply State.modChan_keeps | intro _
      | apply Good.ite_of | apply apply_ite_good | split | dsimp only | apply good_upd
    | exact Or.inr rfl | exact rfl

theorem State.thEnd_keeps {s : State} {ch : Nat} {flips : List (Nat × BitVec 512)} {checkFlips : List (Nat × BitVec
    128)} {feedback : Word} {mrr : BitVec 8} (hg : Good ev s) :
    Good ev (State.thEnd s ch flips checkFlips feedback mrr) := by
  unfold State.thEnd
  repeat' first
    | with_reducible first
      | assumption | rfl | exact Or.inr rfl | exact Or.inl ‹_› | refine Good.of_pair (by assumption) ?_
      | apply State.thCompare_keeps | apply State.thColumn_keeps | apply State.thStore_keeps | apply State.raise_keeps
      | apply State.each_keeps | apply State.modChan_keeps | intro _ | apply Good.ite_of | apply apply_ite_good
      | split | dsimp only | apply good_upd
    | exact Or.inr rfl | exact rfl

theorem State.trainLoad_keeps {s : State} {ch : Nat} (hg : Good ev s) :
    Good ev (State.trainLoad s ch) := by
  unfold State.trainLoad
  repeat' first
    | with_reducible first
      | assumption | rfl | exact Or.inr rfl | exact Or.inl ‹_› | refine Good.of_pair (by assumption) ?_
      | apply good_foldl | apply good_foldl_snd | apply State.modChan_keeps | intro _ | apply Good.ite_of
      | apply apply_ite_good | split | dsimp only | apply good_upd
    | exact Or.inr rfl | exact rfl

theorem State.trainBegin_keeps {s : State} {ch : Nat} (hg : Good ev s) :
    Good ev (State.trainBegin s ch) := by
  unfold State.trainBegin
  repeat' first
    | with_reducible first
      | assumption | rfl | exact Or.inr rfl | exact Or.inl ‹_› | refine Good.of_pair (by assumption) ?_
      | apply State.trainLoad_keeps | apply State.modChan_keeps | intro _ | apply Good.ite_of | apply apply_ite_good
      | split | dsimp only | apply good_upd
    | exact Or.inr rfl | exact rfl

theorem State.trainStart_keeps {s : State} {ch : Nat} (hg : Good ev s) :
    Good ev (State.trainStart s ch) := by
  unfold State.trainStart
  repeat' first
    | with_reducible first
      | assumption | rfl | exact Or.inr rfl | exact Or.inl ‹_› | refine Good.of_pair (by assumption) ?_
      | apply State.trainBegin_keeps | intro _ | apply Good.ite_of | apply apply_ite_good | split | dsimp only
      | apply good_upd
    | exact Or.inr rfl | exact rfl

theorem State.trainTick_keeps {s : State} {ch : Nat} (hg : Good ev s) :
    Good ev (State.trainTick s ch) := by
  unfold State.trainTick
  repeat' first
    | with_reducible first
      | assumption | rfl | exact Or.inr rfl | exact Or.inl ‹_› | refine Good.of_pair (by assumption) ?_
      | apply State.trainBegin_keeps | apply State.freeVal_keeps | apply State.modChan_keeps | intro _
      | apply Good.ite_of | apply apply_ite_good | split | dsimp only | apply good_upd
    | exact Or.inr rfl | exact rfl

theorem State.newMap_keeps {s : State} (hg : Good ev s) :
    Good ev (State.newMap s) := by
  unfold State.newMap
  repeat' first
    | with_reducible first
      | assumption | rfl | exact Or.inr rfl | exact Or.inl ‹_› | refine Good.of_pair (by assumption) ?_
      | apply good_foldl | apply good_foldl_snd | apply State.raise_keeps | apply State.each_keeps
      | apply State.modChan_keeps | intro _ | apply Good.ite_of | apply apply_ite_good | split | dsimp only
      | apply good_upd
    | exact Or.inr rfl | exact rfl

theorem State.recoverCheck_keeps {s : State} (hg : Good ev s) :
    Good ev (State.recoverCheck s) := by
  unfold State.recoverCheck
  repeat' first
    | with_reducible first
      | assumption | rfl | exact Or.inr rfl | exact Or.inl ‹_› | refine Good.of_pair (by assumption) ?_
      | apply State.newMap_keeps | intro _ | apply Good.ite_of | apply apply_ite_good | split | dsimp only
      | apply good_upd
    | exact Or.inr rfl | exact rfl

theorem State.trainDone_keeps {s : State} {ch : Nat} {r : TrainResult} (hg : Good ev s) :
    Good ev (State.trainDone s ch r) := by
  unfold State.trainDone
  repeat' first
    | with_reducible first
      | assumption | rfl | exact Or.inr rfl | exact Or.inl ‹_› | refine Good.of_pair (by assumption) ?_
      | apply State.recoverCheck_keeps | apply State.newMap_keeps | apply State.chanActive_keeps
      | apply State.raise_keeps | apply State.detect_keeps | apply State.setChan_keeps | intro _ | apply Good.ite_of
      | apply apply_ite_good | split | dsimp only | apply good_upd
    | exact Or.inr rfl | exact rfl

theorem State.streamStart_keeps {s : State} {n : Nat} {src : Nat} {len : Nat} {base : Nat} {regions : Nat} (hg :
    Good ev s) :
    Good ev (State.streamStart s n src len base regions) := by
  unfold State.streamStart
  repeat' first
    | with_reducible first
      | assumption | rfl | exact Or.inr rfl | exact Or.inl ‹_› | refine Good.of_pair (by assumption) ?_
      | apply State.chanActive_keeps | apply State.bump_keeps | apply State.each_keeps | apply State.setStream_keeps
      | intro _ | apply Good.ite_of | apply apply_ite_good | split | dsimp only | apply good_upd
    | exact Or.inr rfl | exact rfl

theorem State.streamIssue_keeps {s : State} {n : Nat} (hg : Good ev s) :
    Good ev (State.streamIssue s n) := by
  unfold State.streamIssue
  repeat' first
    | with_reducible first
      | assumption | rfl | exact Or.inr rfl | exact Or.inl ‹_› | refine Good.of_pair (by assumption) ?_
      | apply State.morArrive_keeps | apply State.setStream_keeps | intro _ | apply Good.ite_of | apply apply_ite_good
      | split | dsimp only | apply good_upd
    | exact Or.inr rfl | exact rfl

theorem State.streamStop_keeps {s : State} {n : Nat} (hg : Good ev s) :
    Good ev (State.streamStop s n) := by
  unfold State.streamStop
  repeat' first
    | with_reducible first
      | assumption | rfl | exact Or.inr rfl | exact Or.inl ‹_› | refine Good.of_pair (by assumption) ?_
      | apply State.setStream_keeps | intro _ | apply Good.ite_of | apply apply_ite_good | split | dsimp only
      | apply good_upd
    | exact Or.inr rfl | exact rfl

theorem State.streamAbort_keeps {s : State} {n : Nat} (hg : Good ev s) :
    Good ev (State.streamAbort s n) := by
  unfold State.streamAbort
  repeat' first
    | with_reducible first
      | assumption | rfl | exact Or.inr rfl | exact Or.inl ‹_› | refine Good.of_pair (by assumption) ?_
      | apply State.setStream_keeps | intro _ | apply Good.ite_of | apply apply_ite_good | split | dsimp only
      | apply good_upd
    | exact Or.inr rfl | exact rfl

theorem State.morAbort_keeps {s : State} {since : Nat} (hg : Good ev s) :
    Good ev (State.morAbort s since) := by
  unfold State.morAbort
  repeat' first
    | with_reducible first
      | assumption | rfl | exact Or.inr rfl | exact Or.inl ‹_› | refine Good.of_pair (by assumption) ?_
      | apply State.streamAbort_keeps | apply State.endDesc_keeps | apply State.each_keeps | intro _
      | apply Good.ite_of | apply apply_ite_good | split | dsimp only | apply good_upd
    | exact Or.inr rfl | exact rfl

theorem State.mapSwitch_keeps {s : State} {since : Nat} (hg : Good ev s) :
    Good ev (State.mapSwitch s since) := by
  unfold State.mapSwitch
  repeat' first
    | with_reducible first
      | assumption | rfl | exact Or.inr rfl | exact Or.inl ‹_› | refine Good.of_pair (by assumption) ?_
      | apply State.morAbort_keeps | apply State.recoverCheck_keeps | apply State.newMap_keeps | intro _
      | apply Good.ite_of | apply apply_ite_good | split | dsimp only | apply good_upd
    | exact Or.inr rfl | exact rfl

end Sys2Proof.Machine
end

