-- ==== Sys2Proof/Laws/KeepDram.lean ====
section
/-!
SUPPORT. What every operation of Machine/Dram.lean keeps (Laws/Keep.lean).
-/

namespace Sys2Proof.Machine

variable {ev : Env}

theorem State.dram_keeps {s : State} {ch : Nat} {c : DCmd} {data : Option (BitVec 512)} {again : Bool} (hg : Good ev
    s) :
    Good ev (State.dram s ch c data again) := by
  unfold State.dram
  repeat' first
    | with_reducible first
      | assumption | rfl | exact Or.inr rfl | exact Or.inl ‹_› | refine Good.of_pair (by assumption) ?_
      | apply State.emit_keeps | apply State.modChan_keeps | intro _ | apply Good.ite_of | apply apply_ite_good
      | split | dsimp only | apply good_upd
    | exact Or.inr rfl | exact rfl

theorem State.issueWant_keeps {s : State} {ch : Nat} {w : Want} {aged : Bool} (hg : Good ev s) :
    Good ev (State.issueWant s ch w aged) := by
  unfold State.issueWant
  repeat' first
    | with_reducible first
      | assumption | rfl | exact Or.inr rfl | exact Or.inl ‹_› | refine Good.of_pair (by assumption) ?_
      | apply State.dram_keeps | apply State.morStore_keeps | apply State.bumpIf_keeps | apply State.modChan_keeps
      | intro _ | apply Good.ite_of | apply apply_ite_good | split | dsimp only | apply good_upd
    | exact Or.inr rfl | exact rfl

theorem State.issueMaint_keeps {s : State} {ch : Nat} {c : DCmd} {forced : Bool} (hg : Good ev s) :
    Good ev (State.issueMaint s ch c forced) := by
  unfold State.issueMaint
  repeat' first
    | with_reducible first
      | assumption | rfl | exact Or.inr rfl | exact Or.inl ‹_› | refine Good.of_pair (by assumption) ?_
      | apply State.dram_keeps | apply State.bumpIf_keeps | apply State.modChan_keeps | intro _ | apply Good.ite_of
      | apply apply_ite_good | split | dsimp only | apply good_upd
    | exact Or.inr rfl | exact rfl

theorem State.refreshTick_keeps {s : State} {ch : Nat} (hg : Good ev s) :
    Good ev (State.refreshTick s ch) := by
  unfold State.refreshTick
  repeat' first
    | with_reducible first
      | assumption | rfl | exact Or.inr rfl | exact Or.inl ‹_› | refine Good.of_pair (by assumption) ?_
      | apply State.each_keeps | apply State.modChan_keeps | intro _ | apply Good.ite_of | apply apply_ite_good
      | split | dsimp only | apply good_upd
    | exact Or.inr rfl | exact rfl

theorem State.srEnter_keeps {s : State} {ch : Nat} (hg : Good ev s) :
    Good ev (State.srEnter s ch) := by
  unfold State.srEnter
  repeat' first
    | with_reducible first
      | assumption | rfl | exact Or.inr rfl | exact Or.inl ‹_› | refine Good.of_pair (by assumption) ?_
      | apply State.modChan_keeps | intro _ | apply Good.ite_of | apply apply_ite_good | split | dsimp only
      | apply good_upd
    | exact Or.inr rfl | exact rfl

theorem State.dramBoth_keeps {s : State} {ch : Nat} {o : DOp} (hg : Good ev s) :
    Good ev (State.dramBoth s ch o) := by
  unfold State.dramBoth
  repeat' first
    | with_reducible first
      | assumption | rfl | exact Or.inr rfl | exact Or.inl ‹_› | refine Good.of_pair (by assumption) ?_
      | apply State.dram_keeps | intro _ | apply Good.ite_of | apply apply_ite_good | split | dsimp only
      | apply good_upd
    | exact Or.inr rfl | exact rfl

theorem State.sreIssue_keeps {s : State} {ch : Nat} (hg : Good ev s) :
    Good ev (State.sreIssue s ch) := by
  unfold State.sreIssue
  repeat' first
    | with_reducible first
      | assumption | rfl | exact Or.inr rfl | exact Or.inl ‹_› | refine Good.of_pair (by assumption) ?_
      | apply State.dramBoth_keeps | apply State.chanActive_keeps | apply State.bump_keeps | apply State.modChan_keeps
      | intro _ | apply Good.ite_of | apply apply_ite_good | split | dsimp only | apply good_upd
    | exact Or.inr rfl | exact rfl

theorem State.srxIssue_keeps {s : State} {ch : Nat} (hg : Good ev s) :
    Good ev (State.srxIssue s ch) := by
  unfold State.srxIssue
  repeat' first
    | with_reducible first
      | assumption | rfl | exact Or.inr rfl | exact Or.inl ‹_› | refine Good.of_pair (by assumption) ?_
      | apply State.dramBoth_keeps | apply State.chanActive_keeps | apply State.modChan_keeps | intro _
      | apply Good.ite_of | apply apply_ite_good | split | dsimp only | apply good_upd
    | exact Or.inr rfl | exact rfl

theorem State.calStart_keeps {s : State} {ch : Nat} (hg : Good ev s) :
    Good ev (State.calStart s ch) := by
  unfold State.calStart
  repeat' first
    | with_reducible first
      | assumption | rfl | exact Or.inr rfl | exact Or.inl ‹_› | refine Good.of_pair (by assumption) ?_
      | apply State.modChan_keeps | intro _ | apply Good.ite_of | apply apply_ite_good | split | dsimp only
      | apply good_upd
    | exact Or.inr rfl | exact rfl

theorem State.dqsAdjust_keeps {s : State} {ch : Nat} {sub : Nat} {rank : Nat} (hg : Good ev s) :
    Good ev (State.dqsAdjust s ch sub rank) := by
  unfold State.dqsAdjust
  repeat' first
    | with_reducible first
      | assumption | rfl | exact Or.inr rfl | exact Or.inl ‹_› | refine Good.of_pair (by assumption) ?_
      | apply good_foldl | apply good_foldl_snd | apply State.modChan_keeps | intro _ | apply Good.ite_of
      | apply apply_ite_good | split | dsimp only | apply good_upd
    | exact Or.inr rfl | exact rfl

theorem State.issueCal_keeps {s : State} {ch : Nat} {c : DCmd} (hg : Good ev s) :
    Good ev (State.issueCal s ch c) := by
  unfold State.issueCal
  repeat' first
    | with_reducible first
      | assumption | rfl | exact Or.inr rfl | exact Or.inl ‹_› | refine Good.of_pair (by assumption) ?_
      | apply State.dqsAdjust_keeps | apply State.dram_keeps | apply State.modChan_keeps | intro _ | apply Good.ite_of
      | apply apply_ite_good | split | dsimp only | apply good_upd
    | exact Or.inr rfl | exact rfl

theorem State.alert_keeps {s : State} {ch : Nat} (hg : Good ev s) :
    Good ev (State.alert s ch) := by
  unfold State.alert
  repeat' first
    | with_reducible first
      | assumption | rfl | exact Or.inr rfl | exact Or.inl ‹_› | refine Good.of_pair (by assumption) ?_
      | apply State.bump_keeps | apply State.raise_keeps | apply State.detect_keeps | apply State.setChan_keeps
      | intro _ | apply Good.ite_of | apply apply_ite_good | split | dsimp only | apply good_upd
    | exact Or.inr rfl | exact rfl

theorem State.issueAgain_keeps {s : State} {ch : Nat} {e : Issued} (hg : Good ev s) :
    Good ev (State.issueAgain s ch e) := by
  unfold State.issueAgain
  repeat' first
    | with_reducible first
      | assumption | rfl | exact Or.inr rfl | exact Or.inl ‹_› | refine Good.of_pair (by assumption) ?_
      | apply State.dram_keeps | apply State.morStore_keeps | apply State.modChan_keeps | intro _ | apply Good.ite_of
      | apply apply_ite_good | split | dsimp only | apply good_upd
    | exact Or.inr rfl | exact rfl

theorem State.replayDone_keeps {s : State} {ch : Nat} (hg : Good ev s) :
    Good ev (State.replayDone s ch) := by
  unfold State.replayDone
  repeat' first
    | with_reducible first
      | assumption | rfl | exact Or.inr rfl | exact Or.inl ‹_› | refine Good.of_pair (by assumption) ?_
      | apply State.chanActive_keeps | apply State.setChan_keeps | intro _ | apply Good.ite_of | apply apply_ite_good
      | split | dsimp only | apply good_upd
    | exact Or.inr rfl | exact rfl

theorem State.subCycle_keeps {s : State} {ch : Nat} {sub : Nat} (hg : Good ev s) :
    Good ev (State.subCycle s ch sub) := by
  unfold State.subCycle
  repeat' first
    | with_reducible first
      | assumption | rfl | exact Or.inr rfl | exact Or.inl ‹_› | refine Good.of_pair (by assumption) ?_
      | apply State.issueAgain_keeps | apply State.issueCal_keeps | apply State.issueMaint_keeps
      | apply State.issueWant_keeps | intro _ | apply Good.ite_of | apply apply_ite_good | split | dsimp only
      | apply good_upd
    | exact Or.inr rfl | exact rfl

theorem State.drainTurn_keeps {s : State} {ch : Nat} (hg : Good ev s) :
    Good ev (State.drainTurn s ch) := by
  unfold State.drainTurn
  repeat' first
    | with_reducible first
      | assumption | rfl | exact Or.inr rfl | exact Or.inl ‹_› | refine Good.of_pair (by assumption) ?_
      | apply State.modChan_keeps | intro _ | apply Good.ite_of | apply apply_ite_good | split | dsimp only
      | apply good_upd
    | exact Or.inr rfl | exact rfl

theorem State.chanCycle_keeps {s : State} {ch : Nat} (hg : Good ev s) :
    Good ev (State.chanCycle s ch) := by
  unfold State.chanCycle
  repeat' first
    | with_reducible first
      | assumption | rfl | exact Or.inr rfl | exact Or.inl ‹_› | refine Good.of_pair (by assumption) ?_
      | apply State.drainTurn_keeps | apply State.subCycle_keeps | apply State.replayDone_keeps
      | apply State.calStart_keeps | apply State.srxIssue_keeps | apply State.sreIssue_keeps
      | apply State.srEnter_keeps | apply State.refreshTick_keeps | apply State.morRetry_keeps
      | apply State.modChan_keeps | intro _ | apply Good.ite_of | apply apply_ite_good | split | dsimp only
      | apply good_upd
    | exact Or.inr rfl | exact rfl

theorem State.chanCycles_keeps {s : State} {ch : Nat} {y0 : Nat} (hg : Good ev s) :
    Good ev (State.chanCycles s ch y0) := by
  induction y0 generalizing s ch with
  | zero =>
    unfold State.chanCycles
    repeat' first
      | with_reducible first
        | assumption | rfl | exact Or.inr rfl | exact Or.inl ‹_› | refine Good.of_pair (by assumption) ?_
        | apply State.chanCycle_keeps | intro _ | apply Good.ite_of | apply apply_ite_good | split | dsimp only
        | apply good_upd
      | exact Or.inr rfl | exact rfl
  | succ k ih =>
    unfold State.chanCycles
    repeat' first
      | with_reducible first
        | assumption | rfl | exact Or.inr rfl | exact Or.inl ‹_› | apply ih | refine Good.of_pair (by assumption) ?_
        | apply State.chanCycle_keeps | intro _ | apply Good.ite_of | apply apply_ite_good | split | dsimp only
        | apply good_upd
      | exact Or.inr rfl | exact rfl

theorem State.chanPass_keeps {s : State} {ch : Nat} {num : Nat} {den : Nat} (hg : Good ev s) :
    Good ev (State.chanPass s ch num den) := by
  unfold State.chanPass
  repeat' first
    | with_reducible first
      | assumption | rfl | exact Or.inr rfl | exact Or.inl ‹_› | refine Good.of_pair (by assumption) ?_
      | apply State.chanCycles_keeps | apply State.modChan_keeps | intro _ | apply Good.ite_of | apply apply_ite_good
      | split | dsimp only | apply good_upd
    | exact Or.inr rfl | exact rfl

theorem State.morHostIssue_keeps {s : State} {y0 : Nat} (hg : Good ev s) :
    Good ev (State.morHostIssue s y0) := by
  induction y0 generalizing s with
  | zero =>
    unfold State.morHostIssue
    repeat' first
      | with_reducible first
        | assumption | rfl | exact Or.inr rfl | exact Or.inl ‹_› | refine Good.of_pair (by assumption) ?_
        | apply State.morArrive_keeps | apply State.modDesc_keeps | intro _ | apply Good.ite_of | apply apply_ite_good
        | split | dsimp only | apply good_upd
      | exact Or.inr rfl | exact rfl
  | succ k ih =>
    unfold State.morHostIssue
    repeat' first
      | with_reducible first
        | assumption | rfl | exact Or.inr rfl | exact Or.inl ‹_› | apply ih | refine Good.of_pair (by assumption) ?_
        | apply State.morArrive_keeps | apply State.modDesc_keeps | intro _ | apply Good.ite_of | apply apply_ite_good
        | split | dsimp only | apply good_upd
      | exact Or.inr rfl | exact rfl

end Sys2Proof.Machine
end

