-- ==== Sys2Proof/Laws/KeepRates.lean ====
section
/-!
SUPPORT. What every operation of Machine/Rates.lean keeps (Laws/Keep.lean).
-/

namespace Sys2Proof.Machine

variable {ev : Env}

theorem State.republish_keeps {s : State} (hg : Good ev s) :
    Good ev (State.republish s) := by
  unfold State.republish
  repeat' first
    | with_reducible first
      | assumption | rfl | exact Or.inr rfl | exact Or.inl ‹_› | refine Good.of_pair (by assumption) ?_ | intro _
      | apply Good.ite_of | apply apply_ite_good | split | dsimp only | apply good_upd
    | exact Or.inr rfl | exact rfl

end Sys2Proof.Machine
end

