-- ==== Sys2Proof/Laws/KeepInc.lean ====
section
/-!
SUPPORT. What every operation of Machine/Inc.lean keeps (Laws/Keep.lean).
-/

namespace Sys2Proof.Machine

variable {ev : Env}

theorem State.modPll_keeps {s : State} {p : Pll} {f : PllS → PllS} (hg : Good ev s) :
    Good ev (State.modPll s p f) := by
  unfold State.modPll
  repeat' first
    | with_reducible first
      | assumption | rfl | exact Or.inr rfl | exact Or.inl ‹_› | refine Good.of_pair (by assumption) ?_
      | apply State.setPll_keeps | intro _ | apply Good.ite_of | apply apply_ite_good | split | dsimp only
      | apply good_upd
    | exact Or.inr rfl | exact rfl

theorem State.modClk_keeps {s : State} {f : Clk → Clk} (hg : Good ev s) :
    Good ev (State.modClk s f) := by
  unfold State.modClk
  repeat' first
    | with_reducible first
      | assumption | rfl | exact Or.inr rfl | exact Or.inl ‹_› | refine Good.of_pair (by assumption) ?_ | intro _
      | apply Good.ite_of | apply apply_ite_good | split | dsimp only | apply good_upd
    | exact Or.inr rfl | exact rfl

theorem State.pendAdd_keeps {s : State} {n : Int} (hg : Good ev s) :
    Good ev (State.pendAdd s n) := by
  unfold State.pendAdd
  repeat' first
    | with_reducible first
      | assumption | rfl | exact Or.inr rfl | exact Or.inl ‹_› | refine Good.of_pair (by assumption) ?_
      | apply State.modClk_keeps | intro _ | apply Good.ite_of | apply apply_ite_good | split | dsimp only
      | apply good_upd
    | exact Or.inr rfl | exact rfl

theorem State.pendDrain_keeps {s : State} (hg : Good ev s) :
    Good ev (State.pendDrain s) := by
  unfold State.pendDrain
  repeat' first
    | with_reducible first
      | assumption | rfl | exact Or.inr rfl | exact Or.inl ‹_› | refine Good.of_pair (by assumption) ?_
      | apply State.modClk_keeps | intro _ | apply Good.ite_of | apply apply_ite_good | split | dsimp only
      | apply good_upd
    | exact Or.inr rfl | exact rfl

theorem State.rampEdge_keeps {s : State} (hg : Good ev s) :
    Good ev (State.rampEdge s) := by
  unfold State.rampEdge
  repeat' first
    | with_reducible first
      | assumption | rfl | exact Or.inr rfl | exact Or.inl ‹_› | refine Good.of_pair (by assumption) ?_
      | apply State.modClk_keeps | intro _ | apply Good.ite_of | apply apply_ite_good | split | dsimp only
      | apply good_upd
    | exact Or.inr rfl | exact rfl

theorem State.refEdges_keeps {s : State} (hg : Good ev s) :
    Good ev (State.refEdges s).2 := by
  unfold State.refEdges
  repeat' first
    | with_reducible first
      | assumption | rfl | exact Or.inr rfl | exact Or.inl ‹_› | refine Good.of_pair (by assumption) ?_
      | apply State.modClk_keeps | intro _ | apply Good.ite_of | apply apply_ite_good | split | dsimp only
      | apply good_upd
    | exact Or.inr rfl | exact rfl

theorem State.measureAll_keeps {s : State} {n : Nat} (hg : Good ev s) :
    Good ev (State.measureAll s n) := by
  unfold State.measureAll
  repeat' first
    | with_reducible first
      | assumption | rfl | exact Or.inr rfl | exact Or.inl ‹_› | refine Good.of_pair (by assumption) ?_
      | apply good_foldl | apply good_foldl_snd | apply State.modPll_keeps | intro _ | apply Good.ite_of
      | apply apply_ite_good | split | dsimp only | apply good_upd
    | exact Or.inr rfl | exact rfl

theorem State.clkCycle_keeps {s : State} (hg : Good ev s) :
    Good ev (State.clkCycle s) := by
  unfold State.clkCycle
  repeat' first
    | with_reducible first
      | assumption | rfl | exact Or.inr rfl | exact Or.inl ‹_› | refine Good.of_pair (by assumption) ?_
      | apply State.measureAll_keeps | apply State.refEdges_keeps | apply State.rampEdge_keeps
      | apply State.pendDrain_keeps | apply State.each_keeps | intro _ | apply Good.ite_of | apply apply_ite_good
      | split | dsimp only | apply good_upd
    | exact Or.inr rfl | exact rfl

theorem State.loadInc_keeps {s : State} (hg : Good ev s) :
    Good ev (State.loadInc s) := by
  unfold State.loadInc
  repeat' first
    | with_reducible first
      | assumption | rfl | exact Or.inr rfl | exact Or.inl ‹_› | refine Good.of_pair (by assumption) ?_ | intro _
      | apply Good.ite_of | apply apply_ite_good | split | dsimp only | apply good_upd
    | exact Or.inr rfl | exact rfl

theorem State.hopAhead_keeps {s : State} (hg : Good ev s) :
    Good ev (State.hopAhead s) := by
  unfold State.hopAhead
  repeat' first
    | with_reducible first
      | assumption | rfl | exact Or.inr rfl | exact Or.inl ‹_› | refine Good.of_pair (by assumption) ?_
      | apply State.modClk_keeps | intro _ | apply Good.ite_of | apply apply_ite_good | split | dsimp only
      | apply good_upd
    | exact Or.inr rfl | exact rfl

theorem State.clkPass_keeps {s : State} (hg : Good ev s) :
    Good ev (State.clkPass s) := by
  unfold State.clkPass
  repeat' first
    | with_reducible first
      | assumption | rfl | exact Or.inr rfl | exact Or.inl ‹_› | refine Good.of_pair (by assumption) ?_
      | apply State.hopAhead_keeps | apply State.loadInc_keeps | apply State.clkCycle_keeps | intro _
      | apply Good.ite_of | apply apply_ite_good | split | dsimp only | apply good_upd
    | exact Or.inr rfl | exact rfl

theorem State.clksAhead_keeps {s : State} {y0 : Nat} (hg : Good ev s) :
    Good ev (State.clksAhead s y0) := by
  induction y0 generalizing s with
  | zero =>
    unfold State.clksAhead
    repeat' first
      | with_reducible first
        | assumption | rfl | exact Or.inr rfl | exact Or.inl ‹_› | refine Good.of_pair (by assumption) ?_
        | apply State.clkPass_keeps | intro _ | apply Good.ite_of | apply apply_ite_good | split | dsimp only
        | apply good_upd
      | exact Or.inr rfl | exact rfl
  | succ k ih =>
    unfold State.clksAhead
    repeat' first
      | with_reducible first
        | assumption | rfl | exact Or.inr rfl | exact Or.inl ‹_› | apply ih | refine Good.of_pair (by assumption) ?_
        | apply State.clkPass_keeps | intro _ | apply Good.ite_of | apply apply_ite_good | split | dsimp only
        | apply good_upd
      | exact Or.inr rfl | exact rfl

theorem State.cycleOf_keeps {s : State} {t : Nat} {y0 : Nat} (hg : Good ev s) :
    Good ev (State.cycleOf s t y0).2 := by
  induction y0 generalizing s t with
  | zero =>
    unfold State.cycleOf
    repeat' first
      | with_reducible first
        | assumption | rfl | exact Or.inr rfl | exact Or.inl ‹_› | refine Good.of_pair (by assumption) ?_
        | apply State.clksAhead_keeps | apply State.clkPass_keeps | intro _ | apply Good.ite_of | apply apply_ite_good
        | split | dsimp only | apply good_upd
      | exact Or.inr rfl | exact rfl
  | succ k ih =>
    unfold State.cycleOf
    repeat' first
      | with_reducible first
        | assumption | rfl | exact Or.inr rfl | exact Or.inl ‹_› | apply ih | refine Good.of_pair (by assumption) ?_
        | apply State.clksAhead_keeps | apply State.clkPass_keeps | intro _ | apply Good.ite_of | apply apply_ite_good
        | split | dsimp only | apply good_upd
      | exact Or.inr rfl | exact rfl

end Sys2Proof.Machine
end

