-- ==== Sys2Proof/Laws/KeepPlace.lean ====
section
/-!
SUPPORT. What every operation of Machine/Place.lean keeps (Laws/Keep.lean).
-/

namespace Sys2Proof.Machine

variable {ev : Env}

theorem State.resolveTarget_keeps {s : State} {o : Ord} {l : List Ord} (hg : Good ev s) :
    Good ev (State.resolveTarget s o l) := by
  unfold State.resolveTarget
  repeat' first
    | with_reducible first
      | assumption | rfl | exact Or.inr rfl | exact Or.inl ‹_› | refine Good.of_pair (by assumption) ?_
      | apply State.finishOrd_keeps | apply State.each_keeps | intro _ | apply Good.ite_of | apply apply_ite_good
      | split | dsimp only | apply good_upd
    | exact Or.inr rfl | exact rfl

theorem State.resolveAll_keeps {s : State} {y0 : Nat} {y1 : List Ord} (h : Good ev s) : Good ev (State.resolveAll s y0 y1) := by
  induction y0 generalizing s y1 with
  | zero => exact h
  | succ k ih =>
    cases y1 with
    | nil => exact h
    | cons o l => exact ih (State.resolveTarget_keeps h)

theorem State.orderPhase_keeps {s : State} (hg : Good ev s) :
    Good ev (State.orderPhase s) := by
  unfold State.orderPhase
  repeat' first
    | with_reducible first
      | assumption | rfl | exact Or.inr rfl | exact Or.inl ‹_› | refine Good.of_pair (by assumption) ?_
      | apply State.resolveAll_keeps | apply State.finishOrd_keeps | apply State.each_keeps | intro _
      | apply Good.ite_of | apply apply_ite_good | split | dsimp only | apply good_upd
    | exact Or.inr rfl | exact rfl

theorem State.claim_keeps {s : State} {src : ImmSrc} {chan : Nat} {lane : Nat} {e : Nat} {trig : Nat} (hg : Good ev
    s) :
    Good ev (State.claim s src chan lane e trig) := by
  unfold State.claim
  repeat' first
    | with_reducible first
      | assumption | rfl | exact Or.inr rfl | exact Or.inl ‹_› | refine Good.of_pair (by assumption) ?_
      | apply State.bumpBy_keeps | intro _ | apply Good.ite_of | apply apply_ite_good | split | dsimp only
      | apply good_upd
    | exact Or.inr rfl | exact rfl

theorem State.override_keeps {s : State} {src : ImmSrc} {chan : Nat} {lane : Nat} {e : Nat} (hg : Good ev s) :
    Good ev (State.override s src chan lane e) := by
  unfold State.override
  repeat' first
    | with_reducible first
      | assumption | rfl | exact Or.inr rfl | exact Or.inl ‹_› | refine Good.of_pair (by assumption) ?_ | intro _
      | apply Good.ite_of | apply apply_ite_good | split | dsimp only | apply good_upd
    | exact Or.inr rfl | exact rfl

theorem State.flushTicks_keeps {s : State} (hg : Good ev s) :
    Good ev (State.flushTicks s) := by
  unfold State.flushTicks
  repeat' first
    | with_reducible first
      | assumption | rfl | exact Or.inr rfl | exact Or.inl ‹_› | refine Good.of_pair (by assumption) ?_
      | apply State.setCpl_keeps | apply State.finishOrd_keeps | apply State.each_keeps | intro _ | apply Good.ite_of
      | apply apply_ite_good | split | dsimp only | apply good_upd
    | exact Or.inr rfl | exact rfl

end Sys2Proof.Machine
end

