-- ==== Sys2Proof/Laws/KeepLines.lean ====
section
/-!
SUPPORT. What every operation of Machine/Lines.lean keeps (Laws/Keep.lean).
-/

namespace Sys2Proof.Machine

variable {ev : Env}

theorem State.extChange_keeps {s : State} {code : Nat} {level : Bool} {e : Nat} (hg : Good ev s) :
    Good ev (State.extChange s code level e) := by
  unfold State.extChange
  repeat' first
    | with_reducible first
      | assumption | rfl | exact Or.inr rfl | exact Or.inl ‹_› | refine Good.of_pair (by assumption) ?_ | intro _
      | apply Good.ite_of | apply apply_ite_good | split | dsimp only | apply good_upd
    | exact Or.inr rfl | exact rfl

theorem State.trigEdges_keeps {s : State} {kind : Nat} {index : Nat} {rise : Bool} {due : Nat} {idx : Nat} (hg :
    Good ev s) :
    Good ev (State.trigEdges s kind index rise due idx) := by
  unfold State.trigEdges
  repeat' first
    | with_reducible first
      | assumption | rfl | exact Or.inr rfl | exact Or.inl ‹_› | refine Good.of_pair (by assumption) ?_ | intro _
      | apply Good.ite_of | apply apply_ite_good | split | dsimp only | apply good_upd
    | exact Or.inr rfl | exact rfl

theorem State.decodeEdges_keeps {s : State} (hg : Good ev s) :
    Good ev (State.decodeEdges s) := by
  unfold State.decodeEdges
  repeat' first
    | with_reducible first
      | assumption | rfl | exact Or.inr rfl | exact Or.inl ‹_› | refine Good.of_pair (by assumption) ?_ | intro _
      | apply Good.ite_of | apply apply_ite_good | split | dsimp only | apply good_upd
    | exact Or.inr rfl | exact rfl

theorem State.trigRedo_keeps {s : State} {n : Nat} {t : Nat} (hg : Good ev s) :
    Good ev (State.trigRedo s n t) := by
  unfold State.trigRedo
  repeat' first
    | with_reducible first
      | assumption | rfl | exact Or.inr rfl | exact Or.inl ‹_› | refine Good.of_pair (by assumption) ?_ | intro _
      | apply Good.ite_of | apply apply_ite_good | split | dsimp only | apply good_upd
    | exact Or.inr rfl | exact rfl

theorem State.recordAt_keeps {s : State} {due : Nat} {l : List Word} (hg : Good ev s) :
    Good ev (State.recordAt s due l) := by
  unfold State.recordAt
  repeat' first
    | with_reducible first
      | assumption | rfl | exact Or.inr rfl | exact Or.inl ‹_› | refine Good.of_pair (by assumption) ?_ | intro _
      | apply Good.ite_of | apply apply_ite_good | split | dsimp only | apply good_upd
    | exact Or.inr rfl | exact rfl

theorem State.recordsPost_keeps {s : State} (hg : Good ev s) :
    Good ev (State.recordsPost s) := by
  unfold State.recordsPost
  repeat' first
    | with_reducible first
      | assumption | rfl | exact Or.inr rfl | exact Or.inl ‹_› | refine Good.of_pair (by assumption) ?_
      | apply State.postEvt_keeps | apply State.each_keeps | intro _ | apply Good.ite_of | apply apply_ite_good
      | split | dsimp only | apply good_upd
    | exact Or.inr rfl | exact rfl

theorem State.einRecord_keeps {s : State} {i : Nat} {edges : List (Nat × Bool)} (hg : Good ev s) :
    Good ev (State.einRecord s i edges) := by
  unfold State.einRecord
  repeat' first
    | with_reducible first
      | assumption | rfl | exact Or.inr rfl | exact Or.inl ‹_› | refine Good.of_pair (by assumption) ?_
      | apply State.recordAt_keeps | intro _ | apply Good.ite_of | apply apply_ite_good | split | dsimp only
      | apply good_upd
    | exact Or.inr rfl | exact rfl

theorem State.inputLevels_keeps {s : State} {i : Nat} {pin : BitVec 16} (hg : Good ev s) :
    Good ev (State.inputLevels s i pin) := by
  unfold State.inputLevels
  repeat' first
    | with_reducible first
      | assumption | rfl | exact Or.inr rfl | exact Or.inl ‹_› | refine Good.of_pair (by assumption) ?_
      | apply good_foldl | apply good_foldl_snd | apply State.einRecord_keeps | apply State.trigEdges_keeps
      | apply State.extChange_keeps | apply State.each_keeps | intro _ | apply Good.ite_of | apply apply_ite_good
      | split | dsimp only | apply good_upd
    | exact Or.inr rfl | exact rfl

theorem State.heldWord_keeps {s : State} {port : Nat} {w : Nat} (hg : Good ev s) :
    Good ev (State.heldWord s port w).2 := by
  unfold State.heldWord
  repeat' first
    | with_reducible first
      | assumption | rfl | exact Or.inr rfl | exact Or.inl ‹_› | refine Good.of_pair (by assumption) ?_
      | apply State.portRead_keeps | intro _ | apply Good.ite_of | apply apply_ite_good | split | dsimp only
      | apply good_upd
    | exact Or.inr rfl | exact rfl

theorem State.stagedWord_keeps {s : State} {port : Nat} {str : Nat} {whole : Bool} {w : Nat} {i : Nat} (hg : Good ev
    s) :
    Good ev (State.stagedWord s port str whole w i).2 := by
  unfold State.stagedWord
  repeat' first
    | with_reducible first
      | assumption | rfl | exact Or.inr rfl | exact Or.inl ‹_› | refine Good.of_pair (by assumption) ?_
      | apply State.heldWord_keeps | apply State.setStream_keeps | intro _ | apply Good.ite_of | apply apply_ite_good
      | split | dsimp only | apply good_upd
    | exact Or.inr rfl | exact rfl

theorem State.underrunRecord_keeps {s : State} {entry : Nat} {policy : Nat} {seq : Nat} {cause : Nat} {count : Nat}
    {first : BitVec 64} {detail : Nat} (hg : Good ev s) :
    Good ev (State.underrunRecord s entry policy seq cause count first detail) := by
  unfold State.underrunRecord
  repeat' first
    | with_reducible first
      | assumption | rfl | exact Or.inr rfl | exact Or.inl ‹_› | refine Good.of_pair (by assumption) ?_
      | apply State.postEvt_keeps | intro _ | apply Good.ite_of | apply apply_ite_good | split | dsimp only
      | apply good_upd
    | exact Or.inr rfl | exact rfl

theorem State.lineEpisodeEnd_keeps {s : State} {l : Nat} (hg : Good ev s) :
    Good ev (State.lineEpisodeEnd s l) := by
  unfold State.lineEpisodeEnd
  repeat' first
    | with_reducible first
      | assumption | rfl | exact Or.inr rfl | exact Or.inl ‹_› | refine Good.of_pair (by assumption) ?_
      | apply State.underrunRecord_keeps | apply State.raise_keeps | apply State.modLine_keeps | intro _
      | apply Good.ite_of | apply apply_ite_good | split | dsimp only | apply good_upd
    | exact Or.inr rfl | exact rfl

theorem State.lineBit_keeps {s : State} {l : Nat} {e : Nat} (hg : Good ev s) :
    Good ev (State.lineBit s l e) := by
  unfold State.lineBit
  repeat' first
    | with_reducible first
      | assumption | rfl | exact Or.inr rfl | exact Or.inl ‹_› | refine Good.of_pair (by assumption) ?_
      | apply State.lineEpisodeEnd_keeps | apply State.modLine_keeps | apply State.setLine_keeps | intro _
      | apply Good.ite_of | apply apply_ite_good | split | dsimp only | apply good_upd
    | exact Or.inr rfl | exact rfl

theorem State.lineBits_keeps {s : State} {l : Nat} {e : Nat} (hg : Good ev s) :
    Good ev (State.lineBits s l e) := by
  unfold State.lineBits
  repeat' first
    | with_reducible first
      | assumption | rfl | exact Or.inr rfl | exact Or.inl ‹_› | refine Good.of_pair (by assumption) ?_
      | apply State.lineBit_keeps | apply State.each_keeps | apply State.modLine_keeps | apply State.setLine_keeps
      | intro _ | apply Good.ite_of | apply apply_ite_good | split | dsimp only | apply good_upd
    | exact Or.inr rfl | exact rfl

theorem State.lineTail_keeps {s : State} {l : Nat} {e : Nat} (hg : Good ev s) :
    Good ev (State.lineTail s l e) := by
  unfold State.lineTail
  repeat' first
    | with_reducible first
      | assumption | rfl | exact Or.inr rfl | exact Or.inl ‹_› | refine Good.of_pair (by assumption) ?_
      | apply good_foldl | apply good_foldl_snd | apply State.lineBits_keeps | apply State.modLine_keeps | intro _
      | apply Good.ite_of | apply apply_ite_good | split | dsimp only | apply good_upd
    | exact Or.inr rfl | exact rfl

theorem State.lineFeed_keeps {s : State} {l : Nat} (hg : Good ev s) :
    Good ev (State.lineFeed s l) := by
  unfold State.lineFeed
  repeat' first
    | with_reducible first
      | assumption | rfl | exact Or.inr rfl | exact Or.inl ‹_› | refine Good.of_pair (by assumption) ?_
      | apply State.streamStart_keeps | apply State.setLine_keeps | intro _ | apply Good.ite_of | apply apply_ite_good
      | split | dsimp only | apply good_upd
    | exact Or.inr rfl | exact rfl

theorem State.lineReads_keeps {s : State} {l : Nat} {y0 : Nat} (hg : Good ev s) :
    Good ev (State.lineReads s l y0) := by
  induction y0 generalizing s l with
  | zero =>
    unfold State.lineReads
    repeat' first
      | with_reducible first
        | assumption | rfl | exact Or.inr rfl | exact Or.inl ‹_› | refine Good.of_pair (by assumption) ?_
        | apply State.stagedWord_keeps | apply State.heldWord_keeps | apply State.modLine_keeps | intro _
        | apply Good.ite_of | apply apply_ite_good | split | dsimp only | apply good_upd
      | exact Or.inr rfl | exact rfl
  | succ k ih =>
    unfold State.lineReads
    repeat' first
      | with_reducible first
        | assumption | rfl | exact Or.inr rfl | exact Or.inl ‹_› | apply ih | refine Good.of_pair (by assumption) ?_
        | apply State.stagedWord_keeps | apply State.heldWord_keeps | apply State.modLine_keeps | intro _
        | apply Good.ite_of | apply apply_ite_good | split | dsimp only | apply good_upd
      | exact Or.inr rfl | exact rfl

theorem State.patternStart_keeps {s : State} {l : Nat} (hg : Good ev s) :
    Good ev (State.patternStart s l) := by
  unfold State.patternStart
  repeat' first
    | with_reducible first
      | assumption | rfl | exact Or.inr rfl | exact Or.inl ‹_› | refine Good.of_pair (by assumption) ?_
      | apply State.lineTail_keeps | apply State.streamStop_keeps | apply State.bump_keeps | apply State.modLine_keeps
      | apply State.setLine_keeps | intro _ | apply Good.ite_of | apply apply_ite_good | split | dsimp only
      | apply good_upd
    | exact Or.inr rfl | exact rfl

theorem State.patternWrap_keeps {s : State} {l : Nat} (hg : Good ev s) :
    Good ev (State.patternWrap s l) := by
  unfold State.patternWrap
  repeat' first
    | with_reducible first
      | assumption | rfl | exact Or.inr rfl | exact Or.inl ‹_› | refine Good.of_pair (by assumption) ?_
      | apply State.lineTail_keeps | apply State.modLine_keeps | intro _ | apply Good.ite_of | apply apply_ite_good
      | split | dsimp only | apply good_upd
    | exact Or.inr rfl | exact rfl

theorem State.lineCycle_keeps {s : State} {l : Nat} (hg : Good ev s) :
    Good ev (State.lineCycle s l) := by
  unfold State.lineCycle
  repeat' first
    | with_reducible first
      | assumption | rfl | exact Or.inr rfl | exact Or.inl ‹_› | refine Good.of_pair (by assumption) ?_
      | apply State.patternWrap_keeps | apply State.patternStart_keeps | apply State.lineReads_keeps
      | apply State.lineFeed_keeps | apply State.lineBits_keeps | apply State.modLine_keeps | intro _
      | apply Good.ite_of | apply apply_ite_good | split | dsimp only | apply good_upd
    | exact Or.inr rfl | exact rfl

theorem State.chipWords_keeps {s : State} {l : Nat} {p : Pat} {y0 : List Nat} (hg : Good ev s) :
    Good ev (State.chipWords s l p y0).2 := by
  induction y0 generalizing s l p with
  | nil =>
    unfold State.chipWords
    repeat' first
      | with_reducible first
        | assumption | rfl | exact Or.inr rfl | exact Or.inl ‹_› | refine Good.of_pair (by assumption) ?_
        | apply State.heldWord_keeps | intro _ | apply Good.ite_of | apply apply_ite_good | split | dsimp only
        | apply good_upd
      | exact Or.inr rfl | exact rfl
  | cons x l ih =>
    unfold State.chipWords
    repeat' first
      | with_reducible first
        | assumption | rfl | exact Or.inr rfl | exact Or.inl ‹_› | apply ih | refine Good.of_pair (by assumption) ?_
        | apply State.heldWord_keeps | intro _ | apply Good.ite_of | apply apply_ite_good | split | dsimp only
        | apply good_upd
      | exact Or.inr rfl | exact rfl

theorem State.patternLoaded_keeps {s : State} {l : Nat} (hg : Good ev s) :
    Good ev (State.patternLoaded s l) := by
  unfold State.patternLoaded
  repeat' first
    | with_reducible first
      | assumption | rfl | exact Or.inr rfl | exact Or.inl ‹_› | refine Good.of_pair (by assumption) ?_
      | apply State.chipWords_keeps | apply State.streamStop_keeps | apply State.modLine_keeps | intro _
      | apply Good.ite_of | apply apply_ite_good | split | dsimp only | apply good_upd
    | exact Or.inr rfl | exact rfl

theorem State.patternPreload_keeps {s : State} {l : Nat} (hg : Good ev s) :
    Good ev (State.patternPreload s l) := by
  unfold State.patternPreload
  repeat' first
    | with_reducible first
      | assumption | rfl | exact Or.inr rfl | exact Or.inl ‹_› | refine Good.of_pair (by assumption) ?_
      | apply State.streamStop_keeps | apply State.modLine_keeps | intro _ | apply Good.ite_of | apply apply_ite_good
      | split | dsimp only | apply good_upd
    | exact Or.inr rfl | exact rfl

theorem State.linesStart_keeps {s : State} {n : Nat} {e : Nat} (hg : Good ev s) :
    Good ev (State.linesStart s n e) := by
  unfold State.linesStart
  repeat' first
    | with_reducible first
      | assumption | rfl | exact Or.inr rfl | exact Or.inl ‹_› | refine Good.of_pair (by assumption) ?_
      | apply State.each_keeps | apply State.modLine_keeps | intro _ | apply Good.ite_of | apply apply_ite_good
      | split | dsimp only | apply good_upd
    | exact Or.inr rfl | exact rfl

theorem State.linesSync_keeps {s : State} {n : Nat} {entry : Nat} {e : Nat} (hg : Good ev s) :
    Good ev (State.linesSync s n entry e) := by
  unfold State.linesSync
  repeat' first
    | with_reducible first
      | assumption | rfl | exact Or.inr rfl | exact Or.inl ‹_› | refine Good.of_pair (by assumption) ?_
      | apply State.each_keeps | apply State.setLine_keeps | intro _ | apply Good.ite_of | apply apply_ite_good
      | split | dsimp only | apply good_upd
    | exact Or.inr rfl | exact rfl

theorem State.lineStop_keeps {s : State} {l : Nat} {e : Nat} (hg : Good ev s) :
    Good ev (State.lineStop s l e) := by
  unfold State.lineStop
  repeat' first
    | with_reducible first
      | assumption | rfl | exact Or.inr rfl | exact Or.inl ‹_› | refine Good.of_pair (by assumption) ?_
      | apply State.lineTail_keeps | apply State.lineEpisodeEnd_keeps | apply State.streamStop_keeps
      | apply State.modLine_keeps | intro _ | apply Good.ite_of | apply apply_ite_good | split | dsimp only
      | apply good_upd
    | exact Or.inr rfl | exact rfl

theorem State.linesStop_keeps {s : State} {n : Nat} {e : Nat} (hg : Good ev s) :
    Good ev (State.linesStop s n e) := by
  unfold State.linesStop
  repeat' first
    | with_reducible first
      | assumption | rfl | exact Or.inr rfl | exact Or.inl ‹_› | refine Good.of_pair (by assumption) ?_
      | apply State.lineStop_keeps | apply State.each_keeps | intro _ | apply Good.ite_of | apply apply_ite_good
      | split | dsimp only | apply good_upd
    | exact Or.inr rfl | exact rfl

theorem State.pairCount_keeps {s : State} {k : Nat} {stretched : Bool} (hg : Good ev s) :
    Good ev (State.pairCount s k stretched) := by
  unfold State.pairCount
  repeat' first
    | with_reducible first
      | assumption | rfl | exact Or.inr rfl | exact Or.inl ‹_› | refine Good.of_pair (by assumption) ?_
      | apply State.raise_keeps | apply State.putReg_keeps | intro _ | apply Good.ite_of | apply apply_ite_good
      | split | dsimp only | apply good_upd
    | exact Or.inr rfl | exact rfl

theorem State.pairSample_keeps {s : State} {k : Nat} {d : Bool} {n : Int} (hg : Good ev s) :
    Good ev (State.pairSample s k d n) := by
  unfold State.pairSample
  repeat' first
    | with_reducible first
      | assumption | rfl | exact Or.inr rfl | exact Or.inl ‹_› | refine Good.of_pair (by assumption) ?_
      | apply State.pairCount_keeps | apply State.setPair_keeps | intro _ | apply Good.ite_of | apply apply_ite_good
      | split | dsimp only | apply good_upd
    | exact Or.inr rfl | exact rfl

theorem State.pairRestart_keeps {s : State} {k : Nat} (hg : Good ev s) :
    Good ev (State.pairRestart s k) := by
  unfold State.pairRestart
  repeat' first
    | with_reducible first
      | assumption | rfl | exact Or.inr rfl | exact Or.inl ‹_› | refine Good.of_pair (by assumption) ?_
      | apply State.setPair_keeps | intro _ | apply Good.ite_of | apply apply_ite_good | split | dsimp only
      | apply good_upd
    | exact Or.inr rfl | exact rfl

theorem State.pairCycle_keeps {s : State} {k : Nat} (hg : Good ev s) :
    Good ev (State.pairCycle s k) := by
  unfold State.pairCycle
  repeat' first
    | with_reducible first
      | assumption | rfl | exact Or.inr rfl | exact Or.inl ‹_› | refine Good.of_pair (by assumption) ?_
      | apply State.pairSample_keeps | apply State.each_keeps | intro _ | apply Good.ite_of | apply apply_ite_good
      | split | dsimp only | apply good_upd
    | exact Or.inr rfl | exact rfl

theorem State.lineMark_keeps {s : State} {l : Nat} {act : Nat} {width : Nat} {e : Nat} (hg : Good ev s) :
    Good ev (State.lineMark s l act width e) := by
  unfold State.lineMark
  repeat' first
    | with_reducible first
      | assumption | rfl | exact Or.inr rfl | exact Or.inl ‹_› | refine Good.of_pair (by assumption) ?_
      | apply State.bump_keeps | apply State.setLine_keeps | intro _ | apply Good.ite_of | apply apply_ite_good
      | split | dsimp only | apply good_upd
    | exact Or.inr rfl | exact rfl

theorem State.pulseDone_keeps {s : State} {l : Nat} (hg : Good ev s) :
    Good ev (State.pulseDone s l) := by
  unfold State.pulseDone
  repeat' first
    | with_reducible first
      | assumption | rfl | exact Or.inr rfl | exact Or.inl ‹_› | refine Good.of_pair (by assumption) ?_
      | apply State.modLine_keeps | intro _ | apply Good.ite_of | apply apply_ite_good | split | dsimp only
      | apply good_upd
    | exact Or.inr rfl | exact rfl

theorem State.lineSettle_keeps {s : State} {l : Nat} (hg : Good ev s) :
    Good ev (State.lineSettle s l) := by
  unfold State.lineSettle
  repeat' first
    | with_reducible first
      | assumption | rfl | exact Or.inr rfl | exact Or.inl ‹_› | refine Good.of_pair (by assumption) ?_
      | apply State.pulseDone_keeps | apply State.modLine_keeps | intro _ | apply Good.ite_of | apply apply_ite_good
      | split | dsimp only | apply good_upd
    | exact Or.inr rfl | exact rfl

theorem State.lineLive_keeps {s : State} {l : Nat} (hg : Good ev s) :
    Good ev (State.lineLive s l) := by
  unfold State.lineLive
  repeat' first
    | with_reducible first
      | assumption | rfl | exact Or.inr rfl | exact Or.inl ‹_› | refine Good.of_pair (by assumption) ?_
      | apply State.lineStop_keeps | apply State.modLine_keeps | intro _ | apply Good.ite_of | apply apply_ite_good
      | split | dsimp only | apply good_upd
    | exact Or.inr rfl | exact rfl

theorem State.einLive_keeps {s : State} {i : Nat} (hg : Good ev s) :
    Good ev (State.einLive s i) := by
  unfold State.einLive
  repeat' first
    | with_reducible first
      | assumption | rfl | exact Or.inr rfl | exact Or.inl ‹_› | refine Good.of_pair (by assumption) ?_ | intro _
      | apply Good.ite_of | apply apply_ite_good | split | dsimp only | apply good_upd
    | exact Or.inr rfl | exact rfl

end Sys2Proof.Machine
end

