-- ==== Sys2Proof/Laws/KeepAngle.lean ====
section
/-!
SUPPORT. What every operation of Machine/Angle.lean keeps (Laws/Keep.lean).
-/

namespace Sys2Proof.Machine

variable {ev : Env}

theorem State.arm_keeps {s : State} {k : Nat} {e : Nat} (hg : Good ev s) :
    Good ev (State.arm s k e) := by
  unfold State.arm
  repeat' first
    | with_reducible first
      | assumption | rfl | exact Or.inr rfl | exact Or.inl ‹_› | refine Good.of_pair (by assumption) ?_ | intro _
      | apply Good.ite_of | apply apply_ite_good | split | dsimp only | apply good_upd
    | exact Or.inr rfl | exact rfl

theorem State.disarm_keeps {s : State} {k : Nat} (hg : Good ev s) :
    Good ev (State.disarm s k) := by
  unfold State.disarm
  repeat' first
    | with_reducible first
      | assumption | rfl | exact Or.inr rfl | exact Or.inl ‹_› | refine Good.of_pair (by assumption) ?_ | intro _
      | apply Good.ite_of | apply apply_ite_good | split | dsimp only | apply good_upd
    | exact Or.inr rfl | exact rfl

theorem State.angRecord_keeps {s : State} {flags : Nat} {src : Nat} {num : Nat} {t : Nat} {e : Nat} {theta : Nat}
    (hg : Good ev s) :
    Good ev (State.angRecord s flags src num t e theta) := by
  unfold State.angRecord
  repeat' first
    | with_reducible first
      | assumption | rfl | exact Or.inr rfl | exact Or.inl ‹_› | refine Good.of_pair (by assumption) ?_
      | apply State.postEvt_keeps | intro _ | apply Good.ite_of | apply apply_ite_good | split | dsimp only
      | apply good_upd
    | exact Or.inr rfl | exact rfl

theorem State.angFire_keeps {s : State} {k : Nat} {e : Nat} {extrapolated : Bool} {catchup : Bool} (hg : Good ev s) :
    Good ev (State.angFire s k e extrapolated catchup) := by
  unfold State.angFire
  repeat' first
    | with_reducible first
      | assumption | rfl | exact Or.inr rfl | exact Or.inl ‹_› | refine Good.of_pair (by assumption) ?_
      | apply State.disarm_keeps | apply State.recordAt_keeps | apply State.trigEdges_keeps
      | apply State.extChange_keeps | apply State.raiseIf_keeps | apply State.putReg_keeps | intro _
      | apply Good.ite_of | apply apply_ite_good | split | dsimp only | apply good_upd
    | exact Or.inr rfl | exact rfl

theorem State.angWithhold_keeps {s : State} {k : Nat} {e : Nat} (hg : Good ev s) :
    Good ev (State.angWithhold s k e) := by
  unfold State.angWithhold
  repeat' first
    | with_reducible first
      | assumption | rfl | exact Or.inr rfl | exact Or.inl ‹_› | refine Good.of_pair (by assumption) ?_
      | apply State.angRecord_keeps | apply State.disarm_keeps | apply State.bump_keeps | apply State.raise_keeps
      | intro _ | apply Good.ite_of | apply apply_ite_good | split | dsimp only | apply good_upd
    | exact Or.inr rfl | exact rfl

theorem State.angReach_keeps {s : State} {k : Nat} (hg : Good ev s) :
    Good ev (State.angReach s k) := by
  unfold State.angReach
  repeat' first
    | with_reducible first
      | assumption | rfl | exact Or.inr rfl | exact Or.inl ‹_› | refine Good.of_pair (by assumption) ?_
      | apply State.angWithhold_keeps | apply State.angFire_keeps | intro _ | apply Good.ite_of | apply apply_ite_good
      | split | dsimp only | apply good_upd
    | exact Or.inr rfl | exact rfl

theorem State.angCatchUp_keeps {s : State} {t : Nat} {e : Nat} (hg : Good ev s) :
    Good ev (State.angCatchUp s t e) := by
  unfold State.angCatchUp
  repeat' first
    | with_reducible first
      | assumption | rfl | exact Or.inr rfl | exact Or.inl ‹_› | refine Good.of_pair (by assumption) ?_
      | apply State.angReach_keeps | apply State.arm_keeps | apply State.each_keeps | intro _ | apply Good.ite_of
      | apply apply_ite_good | split | dsimp only | apply good_upd
    | exact Or.inr rfl | exact rfl

theorem State.angJump_keeps {s : State} {t : Nat} {e : Nat} {angle : Nat} (hg : Good ev s) :
    Good ev (State.angJump s t e angle) := by
  unfold State.angJump
  repeat' first
    | with_reducible first
      | assumption | rfl | exact Or.inr rfl | exact Or.inl ‹_› | refine Good.of_pair (by assumption) ?_
      | apply State.angFire_keeps | apply State.each_keeps | intro _ | apply Good.ite_of | apply apply_ite_good
      | split | dsimp only | apply good_upd
    | exact Or.inr rfl | exact rfl

theorem State.trkLoss_keeps {s : State} {t : Nat} {cause : Nat} {e : Nat} {x : Trk} (hg : Good ev s) :
    Good ev (State.trkLoss s t cause e x) := by
  unfold State.trkLoss
  repeat' first
    | with_reducible first
      | assumption | rfl | exact Or.inr rfl | exact Or.inl ‹_› | refine Good.of_pair (by assumption) ?_
      | apply State.angRecord_keeps | apply State.arm_keeps | apply State.raise_keeps | apply State.each_keeps
      | apply State.setTrk_keeps | intro _ | apply Good.ite_of | apply apply_ite_good | split | dsimp only
      | apply good_upd
    | exact Or.inr rfl | exact rfl

theorem State.trkSeek_keeps {s : State} {t : Nat} {i : Nat} {e : Nat} (hg : Good ev s) :
    Good ev (State.trkSeek s t i e) := by
  unfold State.trkSeek
  repeat' first
    | with_reducible first
      | assumption | rfl | exact Or.inr rfl | exact Or.inl ‹_› | refine Good.of_pair (by assumption) ?_
      | apply State.angRecord_keeps | apply State.arm_keeps | apply State.raise_keeps | apply State.each_keeps
      | apply State.setTrk_keeps | intro _ | apply Good.ite_of | apply apply_ite_good | split | dsimp only
      | apply good_upd
    | exact Or.inr rfl | exact rfl

theorem State.trkTooth_keeps {s : State} {t : Nat} {e : Nat} (hg : Good ev s) :
    Good ev (State.trkTooth s t e) := by
  unfold State.trkTooth
  repeat' first
    | with_reducible first
      | assumption | rfl | exact Or.inr rfl | exact Or.inl ‹_› | refine Good.of_pair (by assumption) ?_
      | apply State.trkLoss_keeps | apply State.angJump_keeps | apply State.bump_keeps | apply State.raise_keeps
      | apply State.setTrk_keeps | intro _ | apply Good.ite_of | apply apply_ite_good | split | dsimp only
      | apply good_upd
    | exact Or.inr rfl | exact rfl

theorem State.toothEdge_keeps {s : State} {t : Nat} {i : Nat} {e : Nat} (hg : Good ev s) :
    Good ev (State.toothEdge s t i e) := by
  unfold State.toothEdge
  repeat' first
    | with_reducible first
      | assumption | rfl | exact Or.inr rfl | exact Or.inl ‹_› | refine Good.of_pair (by assumption) ?_
      | apply State.trkTooth_keeps | apply State.trkSeek_keeps | apply State.angCatchUp_keeps | intro _
      | apply Good.ite_of | apply apply_ite_good | split | dsimp only | apply good_upd
    | exact Or.inr rfl | exact rfl

theorem State.toothMiss_keeps {s : State} {t : Nat} (hg : Good ev s) :
    Good ev (State.toothMiss s t) := by
  unfold State.toothMiss
  repeat' first
    | with_reducible first
      | assumption | rfl | exact Or.inr rfl | exact Or.inl ‹_› | refine Good.of_pair (by assumption) ?_
      | apply State.trkLoss_keeps | apply State.angCatchUp_keeps | apply State.bump_keeps | apply State.raise_keeps
      | apply State.setTrk_keeps | intro _ | apply Good.ite_of | apply apply_ite_good | split | dsimp only
      | apply good_upd
    | exact Or.inr rfl | exact rfl

theorem State.intervalOverflow_keeps {s : State} {t : Nat} (hg : Good ev s) :
    Good ev (State.intervalOverflow s t) := by
  unfold State.intervalOverflow
  repeat' first
    | with_reducible first
      | assumption | rfl | exact Or.inr rfl | exact Or.inl ‹_› | refine Good.of_pair (by assumption) ?_
      | apply State.trkLoss_keeps | apply State.angCatchUp_keeps | apply State.setTrk_keeps | intro _
      | apply Good.ite_of | apply apply_ite_good | split | dsimp only | apply good_upd
    | exact Or.inr rfl | exact rfl

theorem State.freeRunDone_keeps {s : State} {t : Nat} (hg : Good ev s) :
    Good ev (State.freeRunDone s t) := by
  unfold State.freeRunDone
  repeat' first
    | with_reducible first
      | assumption | rfl | exact Or.inr rfl | exact Or.inl ‹_› | refine Good.of_pair (by assumption) ?_
      | apply State.angCatchUp_keeps | apply State.setTrk_keeps | intro _ | apply Good.ite_of | apply apply_ite_good
      | split | dsimp only | apply good_upd
    | exact Or.inr rfl | exact rfl

theorem State.angTurn_keeps {s : State} {t : Nat} (hg : Good ev s) :
    Good ev (State.angTurn s t) := by
  unfold State.angTurn
  repeat' first
    | with_reducible first
      | assumption | rfl | exact Or.inr rfl | exact Or.inl ‹_› | refine Good.of_pair (by assumption) ?_
      | apply State.freeRunDone_keeps | apply State.intervalOverflow_keeps | apply State.toothMiss_keeps
      | apply State.angCatchUp_keeps | intro _ | apply Good.ite_of | apply apply_ite_good | split | dsimp only
      | apply good_upd
    | exact Or.inr rfl | exact rfl

theorem State.trkWritten_keeps {s : State} {t : Nat} (hg : Good ev s) :
    Good ev (State.trkWritten s t) := by
  unfold State.trkWritten
  repeat' first
    | with_reducible first
      | assumption | rfl | exact Or.inr rfl | exact Or.inl ‹_› | refine Good.of_pair (by assumption) ?_
      | apply State.setTrk_keeps | intro _ | apply Good.ite_of | apply apply_ite_good | split | dsimp only
      | apply good_upd
    | exact Or.inr rfl | exact rfl

end Sys2Proof.Machine
end

