-- ==== Sys2Proof/Laws/KeepPlay.lean ====
section
/-!
SUPPORT. What every operation of Machine/Play.lean keeps (Laws/Keep.lean).
-/

namespace Sys2Proof.Machine

variable {ev : Env}

theorem State.tableWords_keeps {s : State} {w : Nat} {y0 : Nat} (hg : Good ev s) :
    Good ev (State.tableWords s w y0).2 := by
  induction y0 generalizing s w with
  | zero =>
    unfold State.tableWords
    repeat' first
      | with_reducible first
        | assumption | rfl | exact Or.inr rfl | exact Or.inl ‹_› | refine Good.of_pair (by assumption) ?_
        | apply State.portRead_keeps | intro _ | apply Good.ite_of | apply apply_ite_good | split | dsimp only
        | apply good_upd
      | exact Or.inr rfl | exact rfl
  | succ k ih =>
    unfold State.tableWords
    repeat' first
      | with_reducible first
        | assumption | rfl | exact Or.inr rfl | exact Or.inl ‹_› | apply ih | refine Good.of_pair (by assumption) ?_
        | apply State.portRead_keeps | intro _ | apply Good.ite_of | apply apply_ite_good | split | dsimp only
        | apply good_upd
      | exact Or.inr rfl | exact rfl

theorem State.readEntry_keeps {s : State} {n : Nat} {i : Nat} (hg : Good ev s) :
    Good ev (State.readEntry s n i).2 := by
  unfold State.readEntry
  repeat' first
    | with_reducible first
      | assumption | rfl | exact Or.inr rfl | exact Or.inl ‹_› | refine Good.of_pair (by assumption) ?_
      | apply State.tableWords_keeps | intro _ | apply Good.ite_of | apply apply_ite_good | split | dsimp only
      | apply good_upd
    | exact Or.inr rfl | exact rfl

theorem State.seqStream_keeps {s : State} {n : Nat} (hg : Good ev s) :
    Good ev (State.seqStream s n) := by
  unfold State.seqStream
  repeat' first
    | with_reducible first
      | assumption | rfl | exact Or.inr rfl | exact Or.inl ‹_› | refine Good.of_pair (by assumption) ?_
      | apply State.streamStart_keeps | apply State.setSeq_keeps | intro _ | apply Good.ite_of | apply apply_ite_good
      | split | dsimp only | apply good_upd
    | exact Or.inr rfl | exact rfl

theorem State.readWordAhead_keeps {s : State} {n : Nat} {w : BitVec 256} {feed : Feed} {i : Nat} (hg : Good ev s) :
    Good ev (State.readWordAhead s n w feed i).2 := by
  unfold State.readWordAhead
  repeat' first
    | with_reducible first
      | assumption | rfl | exact Or.inr rfl | exact Or.inl ‹_› | refine Good.of_pair (by assumption) ?_
      | apply State.stagedWord_keeps | apply State.heldWord_keeps | intro _ | apply Good.ite_of | apply apply_ite_good
      | split | dsimp only | apply good_upd
    | exact Or.inr rfl | exact rfl

theorem State.readAhead_keeps {s : State} {n : Nat} {y0 : Nat} (hg : Good ev s) :
    Good ev (State.readAhead s n y0) := by
  induction y0 generalizing s n with
  | zero =>
    unfold State.readAhead
    repeat' first
      | with_reducible first
        | assumption | rfl | exact Or.inr rfl | exact Or.inl ‹_› | refine Good.of_pair (by assumption) ?_
        | apply good_foldl | apply good_foldl_snd | apply State.readWordAhead_keeps | apply State.modSeq_keeps
        | intro _ | apply Good.ite_of | apply apply_ite_good | split | dsimp only | apply good_upd
      | exact Or.inr rfl | exact rfl
  | succ k ih =>
    unfold State.readAhead
    repeat' first
      | with_reducible first
        | assumption | rfl | exact Or.inr rfl | exact Or.inl ‹_› | apply ih | refine Good.of_pair (by assumption) ?_
        | apply good_foldl | apply good_foldl_snd | apply State.readWordAhead_keeps | apply State.modSeq_keeps
        | intro _ | apply Good.ite_of | apply apply_ite_good | split | dsimp only | apply good_upd
      | exact Or.inr rfl | exact rfl

theorem State.readPre_keeps {s : State} {n : Nat} {y0 : Nat} (hg : Good ev s) :
    Good ev (State.readPre s n y0) := by
  induction y0 generalizing s n with
  | zero =>
    unfold State.readPre
    repeat' first
      | with_reducible first
        | assumption | rfl | exact Or.inr rfl | exact Or.inl ‹_› | refine Good.of_pair (by assumption) ?_
        | apply State.readWordAhead_keeps | apply State.modSeq_keeps | intro _ | apply Good.ite_of
        | apply apply_ite_good | split | dsimp only | apply good_upd
      | exact Or.inr rfl | exact rfl
  | succ k ih =>
    unfold State.readPre
    repeat' first
      | with_reducible first
        | assumption | rfl | exact Or.inr rfl | exact Or.inl ‹_› | apply ih | refine Good.of_pair (by assumption) ?_
        | apply State.readWordAhead_keeps | apply State.modSeq_keeps | intro _ | apply Good.ite_of
        | apply apply_ite_good | split | dsimp only | apply good_upd
      | exact Or.inr rfl | exact rfl

theorem State.readTick_keeps {s : State} {n : Nat} (hg : Good ev s) :
    Good ev (State.readTick s n) := by
  unfold State.readTick
  repeat' first
    | with_reducible first
      | assumption | rfl | exact Or.inr rfl | exact Or.inl ‹_› | refine Good.of_pair (by assumption) ?_
      | apply State.readPre_keeps | apply State.readAhead_keeps | apply State.seqStream_keeps
      | apply State.modSeq_keeps | intro _ | apply Good.ite_of | apply apply_ite_good | split | dsimp only
      | apply good_upd
    | exact Or.inr rfl | exact rfl

theorem State.schedMarkers_keeps {s : State} {n : Nat} {marks : List (BitVec 64)} {e : Nat} (hg : Good ev s) :
    Good ev (State.schedMarkers s n marks e) := by
  unfold State.schedMarkers
  repeat' first
    | with_reducible first
      | assumption | rfl | exact Or.inr rfl | exact Or.inl ‹_› | refine Good.of_pair (by assumption) ?_
      | apply State.modSeq_keeps | intro _ | apply Good.ite_of | apply apply_ite_good | split | dsimp only
      | apply good_upd
    | exact Or.inr rfl | exact rfl

theorem State.dropMarkers_keeps {s : State} {n : Nat} {e : Nat} (hg : Good ev s) :
    Good ev (State.dropMarkers s n e) := by
  unfold State.dropMarkers
  repeat' first
    | with_reducible first
      | assumption | rfl | exact Or.inr rfl | exact Or.inl ‹_› | refine Good.of_pair (by assumption) ?_
      | apply State.modSeq_keeps | intro _ | apply Good.ite_of | apply apply_ite_good | split | dsimp only
      | apply good_upd
    | exact Or.inr rfl | exact rfl

theorem State.lowerMarks_keeps {s : State} {n : Nat} {l : Nat} {e : Nat} (hg : Good ev s) :
    Good ev (State.lowerMarks s n l e) := by
  unfold State.lowerMarks
  repeat' first
    | with_reducible first
      | assumption | rfl | exact Or.inr rfl | exact Or.inl ‹_› | refine Good.of_pair (by assumption) ?_
      | apply State.lineMark_keeps | apply State.each_keeps | apply State.modSeq_keeps | intro _ | apply Good.ite_of
      | apply apply_ite_good | split | dsimp only | apply good_upd
    | exact Or.inr rfl | exact rfl

theorem State.issueMarker_keeps {s : State} {n : Nat} {m : MAct} (hg : Good ev s) :
    Good ev (State.issueMarker s n m) := by
  unfold State.issueMarker
  repeat' first
    | with_reducible first
      | assumption | rfl | exact Or.inr rfl | exact Or.inl ‹_› | refine Good.of_pair (by assumption) ?_
      | apply State.lowerMarks_keeps | apply State.lineMark_keeps | apply State.bump_keeps | apply State.raise_keeps
      | apply State.setSeq_keeps | intro _ | apply Good.ite_of | apply apply_ite_good | split | dsimp only
      | apply good_upd
    | exact Or.inr rfl | exact rfl

theorem State.postEpisode_keeps {s : State} {n : Nat} (hg : Good ev s) :
    Good ev (State.postEpisode s n) := by
  unfold State.postEpisode
  repeat' first
    | with_reducible first
      | assumption | rfl | exact Or.inr rfl | exact Or.inl ‹_› | refine Good.of_pair (by assumption) ?_
      | apply State.underrunRecord_keeps | apply State.bump_keeps | apply State.raise_keeps | apply State.modSeq_keeps
      | intro _ | apply Good.ite_of | apply apply_ite_good | split | dsimp only | apply good_upd
    | exact Or.inr rfl | exact rfl

theorem State.dropPlay_keeps {s : State} {n : Nat} {e : Nat} (hg : Good ev s) :
    Good ev (State.dropPlay s n e) := by
  unfold State.dropPlay
  repeat' first
    | with_reducible first
      | assumption | rfl | exact Or.inr rfl | exact Or.inl ‹_› | refine Good.of_pair (by assumption) ?_
      | apply State.dropMarkers_keeps | apply State.modSeq_keeps | intro _ | apply Good.ite_of | apply apply_ite_good
      | split | dsimp only | apply good_upd
    | exact Or.inr rfl | exact rfl

theorem State.clearPath_keeps {s : State} {n : Nat} (hg : Good ev s) :
    Good ev (State.clearPath s n) := by
  unfold State.clearPath
  repeat' first
    | with_reducible first
      | assumption | rfl | exact Or.inr rfl | exact Or.inl ‹_› | refine Good.of_pair (by assumption) ?_
      | apply State.streamStop_keeps | apply State.modSeq_keeps | intro _ | apply Good.ite_of | apply apply_ite_good
      | split | dsimp only | apply good_upd
    | exact Or.inr rfl | exact rfl

theorem State.burstOver_keeps {s : State} {n : Nat} {e : Nat} {safe : Bool} (hg : Good ev s) :
    Good ev (State.burstOver s n e safe) := by
  unfold State.burstOver
  repeat' first
    | with_reducible first
      | assumption | rfl | exact Or.inr rfl | exact Or.inl ‹_› | refine Good.of_pair (by assumption) ?_
      | apply State.clearPath_keeps | apply State.dropPlay_keeps | apply State.postEpisode_keeps
      | apply State.linesStop_keeps | apply State.extChange_keeps | apply State.raise_keeps | apply State.modSeq_keeps
      | intro _ | apply Good.ite_of | apply apply_ite_good | split | dsimp only | apply good_upd
    | exact Or.inr rfl | exact rfl

theorem State.sampleStep_keeps {s : State} {n : Nat} (hg : Good ev s) :
    Good ev (State.sampleStep s n) := by
  unfold State.sampleStep
  repeat' first
    | with_reducible first
      | assumption | rfl | exact Or.inr rfl | exact Or.inl ‹_› | refine Good.of_pair (by assumption) ?_
      | apply State.burstOver_keeps | apply State.postEpisode_keeps | apply State.dropMarkers_keeps
      | apply State.schedMarkers_keeps | apply State.streamStop_keeps | apply State.modSeq_keeps | intro _
      | apply Good.ite_of | apply apply_ite_good | split | dsimp only | apply good_upd
    | exact Or.inr rfl | exact rfl

theorem State.samplesUp_keeps {s : State} {n : Nat} {e : Nat} {y0 : Nat} (hg : Good ev s) :
    Good ev (State.samplesUp s n e y0) := by
  induction y0 generalizing s n e with
  | zero =>
    unfold State.samplesUp
    repeat' first
      | with_reducible first
        | assumption | rfl | exact Or.inr rfl | exact Or.inl ‹_› | refine Good.of_pair (by assumption) ?_
        | apply State.sampleStep_keeps | intro _ | apply Good.ite_of | apply apply_ite_good | split | dsimp only
        | apply good_upd
      | exact Or.inr rfl | exact rfl
  | succ k ih =>
    unfold State.samplesUp
    repeat' first
      | with_reducible first
        | assumption | rfl | exact Or.inr rfl | exact Or.inl ‹_› | apply ih | refine Good.of_pair (by assumption) ?_
        | apply State.sampleStep_keeps | intro _ | apply Good.ite_of | apply apply_ite_good | split | dsimp only
        | apply good_upd
      | exact Or.inr rfl | exact rfl

theorem State.samplesTo_keeps {s : State} {n : Nat} {e : Nat} (hg : Good ev s) :
    Good ev (State.samplesTo s n e) := by
  unfold State.samplesTo
  repeat' first
    | with_reducible first
      | assumption | rfl | exact Or.inr rfl | exact Or.inl ‹_› | refine Good.of_pair (by assumption) ?_
      | apply State.samplesUp_keeps | intro _ | apply Good.ite_of | apply apply_ite_good | split | dsimp only
      | apply good_upd
    | exact Or.inr rfl | exact rfl

theorem State.keepLast_keeps {s : State} {n : Nat} {e : Nat} (hg : Good ev s) :
    Good ev (State.keepLast s n e) := by
  unfold State.keepLast
  repeat' first
    | with_reducible first
      | assumption | rfl | exact Or.inr rfl | exact Or.inl ‹_› | refine Good.of_pair (by assumption) ?_
      | apply State.samplesTo_keeps | apply State.modSeq_keeps | intro _ | apply Good.ite_of | apply apply_ite_good
      | split | dsimp only | apply good_upd
    | exact Or.inr rfl | exact rfl

theorem State.abandonPlay_keeps {s : State} {n : Nat} {e : Nat} (hg : Good ev s) :
    Good ev (State.abandonPlay s n e) := by
  unfold State.abandonPlay
  repeat' first
    | with_reducible first
      | assumption | rfl | exact Or.inr rfl | exact Or.inl ‹_› | refine Good.of_pair (by assumption) ?_
      | apply State.keepLast_keeps | apply State.dropPlay_keeps | intro _ | apply Good.ite_of | apply apply_ite_good
      | split | dsimp only | apply good_upd
    | exact Or.inr rfl | exact rfl

theorem State.endBurst_keeps {s : State} {n : Nat} {e : Nat} {safe : Bool} (hg : Good ev s) :
    Good ev (State.endBurst s n e safe) := by
  unfold State.endBurst
  repeat' first
    | with_reducible first
      | assumption | rfl | exact Or.inr rfl | exact Or.inl ‹_› | refine Good.of_pair (by assumption) ?_
      | apply State.keepLast_keeps | apply State.burstOver_keeps | intro _ | apply Good.ite_of | apply apply_ite_good
      | split | dsimp only | apply good_upd
    | exact Or.inr rfl | exact rfl

theorem State.tableError_keeps {s : State} {n : Nat} {index : Nat} {detail : Nat} {e : Nat} (hg : Good ev s) :
    Good ev (State.tableError s n index detail e) := by
  unfold State.tableError
  repeat' first
    | with_reducible first
      | assumption | rfl | exact Or.inr rfl | exact Or.inl ‹_› | refine Good.of_pair (by assumption) ?_
      | apply State.endBurst_keeps | apply State.underrunRecord_keeps | apply State.bump_keeps
      | apply State.raise_keeps | intro _ | apply Good.ite_of | apply apply_ite_good | split | dsimp only
      | apply good_upd
    | exact Or.inr rfl | exact rfl

theorem State.goTo_keeps {s : State} {n : Nat} {t : Target} {e : Nat} (hg : Good ev s) :
    Good ev (State.goTo s n t e) := by
  unfold State.goTo
  repeat' first
    | with_reducible first
      | assumption | rfl | exact Or.inr rfl | exact Or.inl ‹_› | refine Good.of_pair (by assumption) ?_
      | apply good_foldl | apply good_foldl_snd | apply State.clearPath_keeps | apply State.setSeq_keeps | intro _
      | apply Good.ite_of | apply apply_ite_good | split | dsimp only | apply good_upd
    | exact Or.inr rfl | exact rfl

theorem State.jumpTo_keeps {s : State} {n : Nat} {t : Target} {keep : Bool} {e : Nat} (hg : Good ev s) :
    Good ev (State.jumpTo s n t keep e) := by
  unfold State.jumpTo
  repeat' first
    | with_reducible first
      | assumption | rfl | exact Or.inr rfl | exact Or.inl ‹_› | refine Good.of_pair (by assumption) ?_
      | apply State.goTo_keeps | apply State.keepLast_keeps | apply State.dropPlay_keeps | apply State.modSeq_keeps
      | intro _ | apply Good.ite_of | apply apply_ite_good | split | dsimp only | apply good_upd
    | exact Or.inr rfl | exact rfl

theorem State.startBurst_keeps {s : State} {n : Nat} {t : Target} {e : Nat} (hg : Good ev s) :
    Good ev (State.startBurst s n t e) := by
  unfold State.startBurst
  repeat' first
    | with_reducible first
      | assumption | rfl | exact Or.inr rfl | exact Or.inl ‹_› | refine Good.of_pair (by assumption) ?_
      | apply State.goTo_keeps | apply State.endBurst_keeps | apply State.keepLast_keeps
      | apply State.linesStart_keeps | apply State.extChange_keeps | apply State.bump_keeps | apply State.modSeq_keeps
      | intro _ | apply Good.ite_of | apply apply_ite_good | split | dsimp only | apply good_upd
    | exact Or.inr rfl | exact rfl

theorem State.stopAct_keeps {s : State} {n : Nat} {segEnd : Bool} {e : Nat} (hg : Good ev s) :
    Good ev (State.stopAct s n segEnd e).2 := by
  unfold State.stopAct
  repeat' first
    | with_reducible first
      | assumption | rfl | exact Or.inr rfl | exact Or.inl ‹_› | refine Good.of_pair (by assumption) ?_
      | apply State.endBurst_keeps | apply State.modSeq_keeps | intro _ | apply Good.ite_of | apply apply_ite_good
      | split | dsimp only | apply good_upd
    | exact Or.inr rfl | exact rfl

theorem State.jumpAct_keeps {s : State} {n : Nat} {t : Target} {keep : Bool} {segEnd : Bool} {e : Nat} (hg : Good ev
    s) :
    Good ev (State.jumpAct s n t keep segEnd e).2 := by
  unfold State.jumpAct
  repeat' first
    | with_reducible first
      | assumption | rfl | exact Or.inr rfl | exact Or.inl ‹_› | refine Good.of_pair (by assumption) ?_
      | apply State.jumpTo_keeps | apply State.modSeq_keeps | intro _ | apply Good.ite_of | apply apply_ite_good
      | split | dsimp only | apply good_upd
    | exact Or.inr rfl | exact rfl

theorem State.wakeSeq_keeps {s : State} {n : Nat} {e : Nat} (hg : Good ev s) :
    Good ev (State.wakeSeq s n e) := by
  unfold State.wakeSeq
  repeat' first
    | with_reducible first
      | assumption | rfl | exact Or.inr rfl | exact Or.inl ‹_› | refine Good.of_pair (by assumption) ?_
      | apply State.keepLast_keeps | apply State.modSeq_keeps | apply State.putReg_keeps | intro _ | apply Good.ite_of
      | apply apply_ite_good | split | dsimp only | apply good_upd
    | exact Or.inr rfl | exact rfl

theorem State.setFlagAt_keeps {s : State} {n : Nat} {f : Nat} {e : Nat} (hg : Good ev s) :
    Good ev (State.setFlagAt s n f e) := by
  unfold State.setFlagAt
  repeat' first
    | with_reducible first
      | assumption | rfl | exact Or.inr rfl | exact Or.inl ‹_› | refine Good.of_pair (by assumption) ?_
      | apply State.wakeSeq_keeps | apply State.putReg_keeps | intro _ | apply Good.ite_of | apply apply_ite_good
      | split | dsimp only | apply good_upd
    | exact Or.inr rfl | exact rfl

theorem State.clearFlag_keeps {s : State} {n : Nat} {f : Nat} (hg : Good ev s) :
    Good ev (State.clearFlag s n f) := by
  unfold State.clearFlag
  repeat' first
    | with_reducible first
      | assumption | rfl | exact Or.inr rfl | exact Or.inl ‹_› | refine Good.of_pair (by assumption) ?_
      | apply State.putReg_keeps | intro _ | apply Good.ite_of | apply apply_ite_good | split | dsimp only
      | apply good_upd
    | exact Or.inr rfl | exact rfl

theorem State.flagsWritten_keeps {s : State} {n : Nat} {e : Nat} (hg : Good ev s) :
    Good ev (State.flagsWritten s n e) := by
  unfold State.flagsWritten
  repeat' first
    | with_reducible first
      | assumption | rfl | exact Or.inr rfl | exact Or.inl ‹_› | refine Good.of_pair (by assumption) ?_
      | apply State.wakeSeq_keeps | intro _ | apply Good.ite_of | apply apply_ite_good | split | dsimp only
      | apply good_upd
    | exact Or.inr rfl | exact rfl

theorem State.forceAct_keeps {s : State} {n : Nat} {kind : Nat} {e : Nat} (hg : Good ev s) :
    Good ev (State.forceAct s n kind e) := by
  unfold State.forceAct
  repeat' first
    | with_reducible first
      | assumption | rfl | exact Or.inr rfl | exact Or.inl ‹_› | refine Good.of_pair (by assumption) ?_
      | apply State.modSeq_keeps | intro _ | apply Good.ite_of | apply apply_ite_good | split | dsimp only
      | apply good_upd
    | exact Or.inr rfl | exact rfl

theorem State.playStart_keeps {s : State} {n : Nat} {x : LEntry} {late : Option (BitVec 8 × Nat × Nat)} (hg : Good
    ev s) :
    Good ev (State.playStart s n x late) := by
  unfold State.playStart
  repeat' first
    | with_reducible first
      | assumption | rfl | exact Or.inr rfl | exact Or.inl ‹_› | refine Good.of_pair (by assumption) ?_
      | apply State.schedMarkers_keeps | apply State.linesSync_keeps | apply State.setSeq_keeps | intro _
      | apply Good.ite_of | apply apply_ite_good | split | dsimp only | apply good_upd
    | exact Or.inr rfl | exact rfl

theorem State.loopStep_keeps {s : State} {n : Nat} {x : LEntry} (hg : Good ev s) :
    Good ev (State.loopStep s n x) := by
  unfold State.loopStep
  repeat' first
    | with_reducible first
      | assumption | rfl | exact Or.inr rfl | exact Or.inl ‹_› | refine Good.of_pair (by assumption) ?_
      | apply State.modSeq_keeps | intro _ | apply Good.ite_of | apply apply_ite_good | split | dsimp only
      | apply good_upd
    | exact Or.inr rfl | exact rfl

theorem State.jumpStep_keeps {s : State} {n : Nat} {x : LEntry} (hg : Good ev s) :
    Good ev (State.jumpStep s n x) := by
  unfold State.jumpStep
  repeat' first
    | with_reducible first
      | assumption | rfl | exact Or.inr rfl | exact Or.inl ‹_› | refine Good.of_pair (by assumption) ?_
      | apply State.clearFlag_keeps | apply State.jumpTo_keeps | apply State.modSeq_keeps | intro _
      | apply Good.ite_of | apply apply_ite_good | split | dsimp only | apply good_upd
    | exact Or.inr rfl | exact rfl

theorem State.waitStep_keeps {s : State} {n : Nat} {x : LEntry} (hg : Good ev s) :
    Good ev (State.waitStep s n x) := by
  unfold State.waitStep
  repeat' first
    | with_reducible first
      | assumption | rfl | exact Or.inr rfl | exact Or.inl ‹_› | refine Good.of_pair (by assumption) ?_
      | apply State.clearFlag_keeps | apply State.modSeq_keeps | intro _ | apply Good.ite_of | apply apply_ite_good
      | split | dsimp only | apply good_upd
    | exact Or.inr rfl | exact rfl

theorem State.ncoStep_keeps {s : State} {n : Nat} {x : LEntry} (hg : Good ev s) :
    Good ev (State.ncoStep s n x) := by
  unfold State.ncoStep
  repeat' first
    | with_reducible first
      | assumption | rfl | exact Or.inr rfl | exact Or.inl ‹_› | refine Good.of_pair (by assumption) ?_
      | apply State.modSeq_keeps | intro _ | apply Good.ite_of | apply apply_ite_good | split | dsimp only
      | apply good_upd
    | exact Or.inr rfl | exact rfl

theorem State.entryStep_keeps {s : State} {n : Nat} {op : Nat} {act : State → LEntry → State} (hg : Good ev s)
    (hgact : ∀ t x1, Good ev t → Good ev (act t x1)) :
    Good ev (State.entryStep s n op act) := by
  unfold State.entryStep
  repeat' first
    | with_reducible first
      | assumption | rfl | exact Or.inr rfl | exact Or.inl ‹_› | refine Good.of_pair (by assumption) ?_
      | apply State.tableError_keeps | apply hgact | intro _ | apply Good.ite_of | apply apply_ite_good | split
      | dsimp only | apply good_upd
    | exact Or.inr rfl | exact rfl

theorem State.playDone_keeps {s : State} {n : Nat} (hg : Good ev s) :
    Good ev (State.playDone s n) := by
  unfold State.playDone
  repeat' first
    | with_reducible first
      | assumption | rfl | exact Or.inr rfl | exact Or.inl ‹_› | refine Good.of_pair (by assumption) ?_
      | apply State.jumpTo_keeps | apply State.endBurst_keeps | apply State.samplesTo_keeps | apply State.modSeq_keeps
      | intro _ | apply Good.ite_of | apply apply_ite_good | split | dsimp only | apply good_upd
    | exact Or.inr rfl | exact rfl

theorem State.fetchPre_keeps {s : State} {n : Nat} {x : Pre} (hg : Good ev s) :
    Good ev (State.fetchPre s n x) := by
  unfold State.fetchPre
  repeat' first
    | with_reducible first
      | assumption | rfl | exact Or.inr rfl | exact Or.inl ‹_› | refine Good.of_pair (by assumption) ?_
      | apply State.readEntry_keeps | apply State.modSeq_keeps | intro _ | apply Good.ite_of | apply apply_ite_good
      | split | dsimp only | apply good_upd
    | exact Or.inr rfl | exact rfl

theorem State.fetchEntry_keeps {s : State} {n : Nat} (hg : Good ev s) :
    Good ev (State.fetchEntry s n) := by
  unfold State.fetchEntry
  repeat' first
    | with_reducible first
      | assumption | rfl | exact Or.inr rfl | exact Or.inl ‹_› | refine Good.of_pair (by assumption) ?_
      | apply State.fetchPre_keeps | apply State.tableError_keeps | apply State.readEntry_keeps
      | apply State.modSeq_keeps | intro _ | apply Good.ite_of | apply apply_ite_good | split | dsimp only
      | apply good_upd
    | exact Or.inr rfl | exact rfl

theorem State.preloadTargets_keeps {s : State} {n : Nat} {l : List Target} (hg : Good ev s) :
    Good ev (State.preloadTargets s n l) := by
  unfold State.preloadTargets
  repeat' first
    | with_reducible first
      | assumption | rfl | exact Or.inr rfl | exact Or.inl ‹_› | refine Good.of_pair (by assumption) ?_
      | apply State.streamStop_keeps | apply State.setSeq_keeps | intro _ | apply Good.ite_of | apply apply_ite_good
      | split | dsimp only | apply good_upd
    | exact Or.inr rfl | exact rfl

theorem State.slotLoad_keeps {s : State} {n : Nat} {k : Nat} (hg : Good ev s) :
    Good ev (State.slotLoad s n k) := by
  unfold State.slotLoad
  repeat' first
    | with_reducible first
      | assumption | rfl | exact Or.inr rfl | exact Or.inl ‹_› | refine Good.of_pair (by assumption) ?_
      | apply State.setSlot_keeps | apply State.modSeq_keeps | intro _ | apply Good.ite_of | apply apply_ite_good
      | split | dsimp only | apply good_upd
    | exact Or.inr rfl | exact rfl

theorem State.slotEntries_keeps {s : State} {n : Nat} {i : Nat} {y0 : Nat} (hg : Good ev s) :
    Good ev (State.slotEntries s n i y0).2 := by
  induction y0 generalizing s n i with
  | zero =>
    unfold State.slotEntries
    repeat' first
      | with_reducible first
        | assumption | rfl | exact Or.inr rfl | exact Or.inl ‹_› | refine Good.of_pair (by assumption) ?_
        | apply State.readEntry_keeps | intro _ | apply Good.ite_of | apply apply_ite_good | split | dsimp only
        | apply good_upd
      | exact Or.inr rfl | exact rfl
  | succ k ih =>
    unfold State.slotEntries
    repeat' first
      | with_reducible first
        | assumption | rfl | exact Or.inr rfl | exact Or.inl ‹_› | apply ih | refine Good.of_pair (by assumption) ?_
        | apply State.readEntry_keeps | intro _ | apply Good.ite_of | apply apply_ite_good | split | dsimp only
        | apply good_upd
      | exact Or.inr rfl | exact rfl

theorem State.slotData_keeps {s : State} {n : Nat} {w : Nat} {y0 : Nat} (hg : Good ev s) :
    Good ev (State.slotData s n w y0).2 := by
  induction y0 generalizing s n w with
  | zero =>
    unfold State.slotData
    repeat' first
      | with_reducible first
        | assumption | rfl | exact Or.inr rfl | exact Or.inl ‹_› | refine Good.of_pair (by assumption) ?_
        | apply State.heldWord_keeps | intro _ | apply Good.ite_of | apply apply_ite_good | split | dsimp only
        | apply good_upd
      | exact Or.inr rfl | exact rfl
  | succ k ih =>
    unfold State.slotData
    repeat' first
      | with_reducible first
        | assumption | rfl | exact Or.inr rfl | exact Or.inl ‹_› | apply ih | refine Good.of_pair (by assumption) ?_
        | apply State.heldWord_keeps | intro _ | apply Good.ite_of | apply apply_ite_good | split | dsimp only
        | apply good_upd
      | exact Or.inr rfl | exact rfl

theorem State.slotDone_keeps {s : State} {n : Nat} {k : Nat} (hg : Good ev s) :
    Good ev (State.slotDone s n k) := by
  unfold State.slotDone
  repeat' first
    | with_reducible first
      | assumption | rfl | exact Or.inr rfl | exact Or.inl ‹_› | refine Good.of_pair (by assumption) ?_
      | apply State.reject_keeps | apply State.slotData_keeps | apply State.slotEntries_keeps
      | apply State.raise_keeps | apply State.setSlot_keeps | apply State.modSeq_keeps | intro _ | apply Good.ite_of
      | apply apply_ite_good | split | dsimp only | apply good_upd
    | exact Or.inr rfl | exact rfl

theorem State.seqLive_keeps {s : State} {n : Nat} (hg : Good ev s) :
    Good ev (State.seqLive s n) := by
  unfold State.seqLive
  repeat' first
    | with_reducible first
      | assumption | rfl | exact Or.inr rfl | exact Or.inl ‹_› | refine Good.of_pair (by assumption) ?_
      | apply State.endBurst_keeps | apply State.modSeq_keeps | apply State.setSeq_keeps | intro _ | apply Good.ite_of
      | apply apply_ite_good | split | dsimp only | apply good_upd
    | exact Or.inr rfl | exact rfl

theorem State.seqCycle_keeps {s : State} {n : Nat} (hg : Good ev s) :
    Good ev (State.seqCycle s n) := by
  unfold State.seqCycle
  repeat' first
    | with_reducible first
      | assumption | rfl | exact Or.inr rfl | exact Or.inl ‹_› | refine Good.of_pair (by assumption) ?_
      | apply State.tableError_keeps | apply State.samplesTo_keeps | apply State.readTick_keeps
      | apply State.modSeq_keeps | intro _ | apply Good.ite_of | apply apply_ite_good | split | dsimp only
      | apply good_upd
    | exact Or.inr rfl | exact rfl

theorem State.reanchor_keeps {s : State} {sp : Nat} {e : Nat} (hg : Good ev s) :
    Good ev (State.reanchor s sp e) := by
  unfold State.reanchor
  repeat' first
    | with_reducible first
      | assumption | rfl | exact Or.inr rfl | exact Or.inl ‹_› | refine Good.of_pair (by assumption) ?_
      | apply State.samplesTo_keeps | apply State.each_keeps | apply State.modSeq_keeps | intro _ | apply Good.ite_of
      | apply apply_ite_good | split | dsimp only | apply good_upd
    | exact Or.inr rfl | exact rfl

theorem State.txWritten_keeps {s : State} {k : Nat} (hg : Good ev s) :
    Good ev (State.txWritten s k) := by
  unfold State.txWritten
  repeat' first
    | with_reducible first
      | assumption | rfl | exact Or.inr rfl | exact Or.inl ‹_› | refine Good.of_pair (by assumption) ?_
      | apply State.setTxl_keeps | intro _ | apply Good.ite_of | apply apply_ite_good | split | dsimp only
      | apply good_upd
    | exact Or.inr rfl | exact rfl

theorem State.linkDrop_keeps {s : State} {n : Nat} (hg : Good ev s) :
    Good ev (State.linkDrop s n) := by
  unfold State.linkDrop
  repeat' first
    | with_reducible first
      | assumption | rfl | exact Or.inr rfl | exact Or.inl ‹_› | refine Good.of_pair (by assumption) ?_
      | apply State.raise_keeps | intro _ | apply Good.ite_of | apply apply_ite_good | split | dsimp only
      | apply good_upd
    | exact Or.inr rfl | exact rfl

end Sys2Proof.Machine
end

