-- ==== Sys2Proof/Laws/KeepTla.lean ====
section
/-!
SUPPORT. What every operation of Machine/Tla.lean keeps (Laws/Keep.lean).
-/

namespace Sys2Proof.Machine

variable {ev : Env}

theorem State.modTla_keeps {s : State} {f : Tla → Tla} (hg : Good ev s) :
    Good ev (State.modTla s f) := by
  unfold State.modTla
  repeat' first
    | with_reducible first
      | assumption | rfl | exact Or.inr rfl | exact Or.inl ‹_› | refine Good.of_pair (by assumption) ?_ | intro _
      | apply Good.ite_of | apply apply_ite_good | split | dsimp only | apply good_upd
    | exact Or.inr rfl | exact rfl

theorem State.tlaDefault_keeps {s : State} {from_ : Nat} (hg : Good ev s) :
    Good ev (State.tlaDefault s from_) := by
  unfold State.tlaDefault
  repeat' first
    | with_reducible first
      | assumption | rfl | exact Or.inr rfl | exact Or.inl ‹_› | refine Good.of_pair (by assumption) ?_
      | apply State.modTla_keeps | intro _ | apply Good.ite_of | apply apply_ite_good | split | dsimp only
      | apply good_upd
    | exact Or.inr rfl | exact rfl

theorem State.tlaWindow_keeps {s : State} {x : ExtIn} (hg : Good ev s) :
    Good ev (State.tlaWindow s x) := by
  unfold State.tlaWindow
  repeat' first
    | with_reducible first
      | assumption | rfl | exact Or.inr rfl | exact Or.inl ‹_› | refine Good.of_pair (by assumption) ?_
      | apply good_foldl | apply good_foldl_snd | apply State.trigEdges_keeps | apply State.each_keeps | intro _
      | apply Good.ite_of | apply apply_ite_good | split | dsimp only | apply good_upd
    | exact Or.inr rfl | exact rfl

theorem State.tlaShow_keeps {s : State} (hg : Good ev s) :
    Good ev (State.tlaShow s) := by
  unfold State.tlaShow
  repeat' first
    | with_reducible first
      | assumption | rfl | exact Or.inr rfl | exact Or.inl ‹_› | refine Good.of_pair (by assumption) ?_
      | apply good_foldl | apply good_foldl_snd | intro _ | apply Good.ite_of | apply apply_ite_good | split
      | dsimp only | apply good_upd
    | exact Or.inr rfl | exact rfl

theorem State.tlaCycle_keeps {s : State} {x : ExtIn} (hg : Good ev s) :
    Good ev (State.tlaCycle s x) := by
  unfold State.tlaCycle
  repeat' first
    | with_reducible first
      | assumption | rfl | exact Or.inr rfl | exact Or.inl ‹_› | refine Good.of_pair (by assumption) ?_
      | apply State.tlaWindow_keeps | apply State.modTla_keeps | intro _ | apply Good.ite_of | apply apply_ite_good
      | split | dsimp only | apply good_upd
    | exact Or.inr rfl | exact rfl

theorem State.tlaLive_keeps {s : State} (hg : Good ev s) :
    Good ev (State.tlaLive s) := by
  unfold State.tlaLive
  repeat' first
    | with_reducible first
      | assumption | rfl | exact Or.inr rfl | exact Or.inl ‹_› | refine Good.of_pair (by assumption) ?_
      | apply State.tlaDefault_keeps | apply State.modTla_keeps | intro _ | apply Good.ite_of | apply apply_ite_good
      | split | dsimp only | apply good_upd
    | exact Or.inr rfl | exact rfl

theorem State.tlaChecked_keeps {s : State} (hg : Good ev s) :
    Good ev (State.tlaChecked s) := by
  unfold State.tlaChecked
  repeat' first
    | with_reducible first
      | assumption | rfl | exact Or.inr rfl | exact Or.inl ‹_› | refine Good.of_pair (by assumption) ?_
      | apply State.modTla_keeps | apply State.raise_keeps | intro _ | apply Good.ite_of | apply apply_ite_good
      | split | dsimp only | apply good_upd
    | exact Or.inr rfl | exact rfl

theorem State.tlaAbort_keeps {s : State} (hg : Good ev s) :
    Good ev (State.tlaAbort s) := by
  unfold State.tlaAbort
  repeat' first
    | with_reducible first
      | assumption | rfl | exact Or.inr rfl | exact Or.inl ‹_› | refine Good.of_pair (by assumption) ?_
      | apply State.modTla_keeps | apply State.raise_keeps | intro _ | apply Good.ite_of | apply apply_ite_good
      | split | dsimp only | apply good_upd
    | exact Or.inr rfl | exact rfl

theorem State.tlaStore_keeps {s : State} {hi : Word} (hg : Good ev s) :
    Good ev (State.tlaStore s hi) := by
  unfold State.tlaStore
  repeat' first
    | with_reducible first
      | assumption | rfl | exact Or.inr rfl | exact Or.inl ‹_› | refine Good.of_pair (by assumption) ?_
      | apply State.tlaAbort_keeps | apply State.modTla_keeps | apply State.putReg_keeps | intro _ | apply Good.ite_of
      | apply apply_ite_good | split | dsimp only | apply good_upd
    | exact Or.inr rfl | exact rfl

theorem State.tlaSwap_keeps {s : State} (hg : Good ev s) :
    Good ev (State.tlaSwap s) := by
  unfold State.tlaSwap
  repeat' first
    | with_reducible first
      | assumption | rfl | exact Or.inr rfl | exact Or.inl ‹_› | refine Good.of_pair (by assumption) ?_
      | apply State.modTla_keeps | apply State.raise_keeps | intro _ | apply Good.ite_of | apply apply_ite_good
      | split | dsimp only | apply good_upd
    | exact Or.inr rfl | exact rfl

theorem State.seracWord_keeps {s : State} {p : Nat} {wrong : BitVec 72} (hg : Good ev s) :
    Good ev (State.seracWord s p wrong) := by
  unfold State.seracWord
  repeat' first
    | with_reducible first
      | assumption | rfl | exact Or.inr rfl | exact Or.inl ‹_› | refine Good.of_pair (by assumption) ?_
      | apply State.modTla_keeps | apply State.bump_keeps | apply State.raise_keeps | apply State.detect_keeps
      | intro _ | apply Good.ite_of | apply apply_ite_good | split | dsimp only | apply good_upd
    | exact Or.inr rfl | exact rfl

theorem State.seracNext_keeps {s : State} (hg : Good ev s) :
    Good ev (State.seracNext s) := by
  unfold State.seracNext
  repeat' first
    | with_reducible first
      | assumption | rfl | exact Or.inr rfl | exact Or.inl ‹_› | refine Good.of_pair (by assumption) ?_
      | apply State.modTla_keeps | intro _ | apply Good.ite_of | apply apply_ite_good | split | dsimp only
      | apply good_upd
    | exact Or.inr rfl | exact rfl

theorem State.seracScrub_keeps {s : State} (hg : Good ev s) :
    Good ev (State.seracScrub s) := by
  unfold State.seracScrub
  repeat' first
    | with_reducible first
      | assumption | rfl | exact Or.inr rfl | exact Or.inl ‹_› | refine Good.of_pair (by assumption) ?_
      | apply State.seracNext_keeps | apply State.seracWord_keeps | intro _ | apply Good.ite_of | apply apply_ite_good
      | split | dsimp only | apply good_upd
    | exact Or.inr rfl | exact rfl

theorem State.seracSkip_keeps {s : State} (hg : Good ev s) :
    Good ev (State.seracSkip s) := by
  unfold State.seracSkip
  repeat' first
    | with_reducible first
      | assumption | rfl | exact Or.inr rfl | exact Or.inl ‹_› | refine Good.of_pair (by assumption) ?_
      | apply State.seracNext_keeps | apply State.skipRecord_keeps | apply State.bump_keeps | apply State.raise_keeps
      | intro _ | apply Good.ite_of | apply apply_ite_good | split | dsimp only | apply good_upd
    | exact Or.inr rfl | exact rfl

theorem State.seracTick_keeps {s : State} (hg : Good ev s) :
    Good ev (State.seracTick s) := by
  unfold State.seracTick
  repeat' first
    | with_reducible first
      | assumption | rfl | exact Or.inr rfl | exact Or.inl ‹_› | refine Good.of_pair (by assumption) ?_
      | apply State.seracSkip_keeps | apply State.seracScrub_keeps | apply State.tlaChecked_keeps
      | apply State.modTla_keeps | intro _ | apply Good.ite_of | apply apply_ite_good | split | dsimp only
      | apply good_upd
    | exact Or.inr rfl | exact rfl

theorem State.seracTicks_keeps {s : State} {y0 : Nat} (hg : Good ev s) :
    Good ev (State.seracTicks s y0) := by
  induction y0 generalizing s with
  | zero =>
    unfold State.seracTicks
    repeat' first
      | with_reducible first
        | assumption | rfl | exact Or.inr rfl | exact Or.inl ‹_› | refine Good.of_pair (by assumption) ?_
        | apply State.seracTick_keeps | intro _ | apply Good.ite_of | apply apply_ite_good | split | dsimp only
        | apply good_upd
      | exact Or.inr rfl | exact rfl
  | succ k ih =>
    unfold State.seracTicks
    repeat' first
      | with_reducible first
        | assumption | rfl | exact Or.inr rfl | exact Or.inl ‹_› | apply ih | refine Good.of_pair (by assumption) ?_
        | apply State.seracTick_keeps | intro _ | apply Good.ite_of | apply apply_ite_good | split | dsimp only
        | apply good_upd
      | exact Or.inr rfl | exact rfl

theorem State.seracCycles_keeps {s : State} (hg : Good ev s) :
    Good ev (State.seracCycles s) := by
  unfold State.seracCycles
  repeat' first
    | with_reducible first
      | assumption | rfl | exact Or.inr rfl | exact Or.inl ‹_› | refine Good.of_pair (by assumption) ?_
      | apply State.seracTicks_keeps | intro _ | apply Good.ite_of | apply apply_ite_good | split | dsimp only
      | apply good_upd
    | exact Or.inr rfl | exact rfl

theorem State.seracFlip_keeps {s : State} {flips : BitVec 72} (hg : Good ev s) :
    Good ev (State.seracFlip s flips) := by
  unfold State.seracFlip
  repeat' first
    | with_reducible first
      | assumption | rfl | exact Or.inr rfl | exact Or.inl ‹_› | refine Good.of_pair (by assumption) ?_
      | apply State.modTla_keeps | intro _ | apply Good.ite_of | apply apply_ite_good | split | dsimp only
      | apply good_upd
    | exact Or.inr rfl | exact rfl

theorem State.seracVote_keeps {s : State} {copy : Nat} {bit : Nat} (hg : Good ev s) :
    Good ev (State.seracVote s copy bit) := by
  unfold State.seracVote
  repeat' first
    | with_reducible first
      | assumption | rfl | exact Or.inr rfl | exact Or.inl ‹_› | refine Good.of_pair (by assumption) ?_
      | apply State.counted_keeps | apply State.modTla_keeps | apply State.bump_keeps | apply State.raise_keeps
      | apply State.detect_keeps | intro _ | apply Good.ite_of | apply apply_ite_good | split | dsimp only
      | apply good_upd
    | exact Or.inr rfl | exact rfl

theorem State.seracCheck_keeps {s : State} (hg : Good ev s) :
    Good ev (State.seracCheck s) := by
  unfold State.seracCheck
  repeat' first
    | with_reducible first
      | assumption | rfl | exact Or.inr rfl | exact Or.inl ‹_› | refine Good.of_pair (by assumption) ?_
      | apply State.modTla_keeps | apply State.raise_keeps | apply State.detect_keeps | intro _ | apply Good.ite_of
      | apply apply_ite_good | split | dsimp only | apply good_upd
    | exact Or.inr rfl | exact rfl

end Sys2Proof.Machine
end

