-- ==== Sys2Proof/Laws/KeepCle.lean ====
section
/-!
SUPPORT. What every operation of Machine/Cle.lean keeps (Laws/Keep.lean).
-/

namespace Sys2Proof.Machine

variable {ev : Env}

theorem State.coefStore_keeps {s : State} {k : Nat} {v : BitVec 37} (hg : Good ev s) :
    Good ev (State.coefStore s k v) := by
  unfold State.coefStore
  repeat' first
    | with_reducible first
      | assumption | rfl | exact Or.inr rfl | exact Or.inl ‹_› | refine Good.of_pair (by assumption) ?_ | intro _
      | apply Good.ite_of | apply apply_ite_good | split | dsimp only | apply good_upd
    | exact Or.inr rfl | exact rfl

theorem State.coefCheck_keeps {s : State} {n : Nat} {k : Nat} {wrong : BitVec 44} (hg : Good ev s) :
    Good ev (State.coefCheck s n k wrong).2 := by
  unfold State.coefCheck
  repeat' first
    | with_reducible first
      | assumption | rfl | exact Or.inr rfl | exact Or.inl ‹_› | refine Good.of_pair (by assumption) ?_
      | apply State.bump_keeps | apply State.raise_keeps | apply State.detect_keeps | intro _ | apply Good.ite_of
      | apply apply_ite_good | split | dsimp only | apply good_upd
    | exact Or.inr rfl | exact rfl

theorem State.coefChecks_keeps {s : State} {n : Nat} {set : Nat} {y0 : List Nat} (hg : Good ev s) :
    Good ev (State.coefChecks s n set y0).2 := by
  induction y0 generalizing s n set with
  | nil =>
    unfold State.coefChecks
    repeat' first
      | with_reducible first
        | assumption | rfl | exact Or.inr rfl | exact Or.inl ‹_› | refine Good.of_pair (by assumption) ?_
        | apply State.coefCheck_keeps | intro _ | apply Good.ite_of | apply apply_ite_good | split | dsimp only
        | apply good_upd
      | exact Or.inr rfl | exact rfl
  | cons x l ih =>
    unfold State.coefChecks
    repeat' first
      | with_reducible first
        | assumption | rfl | exact Or.inr rfl | exact Or.inl ‹_› | apply ih | refine Good.of_pair (by assumption) ?_
        | apply State.coefCheck_keeps | intro _ | apply Good.ite_of | apply apply_ite_good | split | dsimp only
        | apply good_upd
      | exact Or.inr rfl | exact rfl

theorem State.coefFlip_keeps {s : State} {k : Nat} {flips : BitVec 44} (hg : Good ev s) :
    Good ev (State.coefFlip s k flips) := by
  unfold State.coefFlip
  repeat' first
    | with_reducible first
      | assumption | rfl | exact Or.inr rfl | exact Or.inl ‹_› | refine Good.of_pair (by assumption) ?_ | intro _
      | apply Good.ite_of | apply apply_ite_good | split | dsimp only | apply good_upd
    | exact Or.inr rfl | exact rfl

theorem State.coefSweepRange_keeps {s : State} {lo : Nat} {hi : Nat} (hg : Good ev s) :
    Good ev (State.coefSweepRange s lo hi) := by
  unfold State.coefSweepRange
  repeat' first
    | with_reducible first
      | assumption | rfl | exact Or.inr rfl | exact Or.inl ‹_› | refine Good.of_pair (by assumption) ?_
      | apply State.coefCheck_keeps | apply State.each_keeps | apply State.modSlot_keeps | intro _ | apply Good.ite_of
      | apply apply_ite_good | split | dsimp only | apply good_upd
    | exact Or.inr rfl | exact rfl

theorem State.coefSweep_keeps {s : State} {k : Nat} (hg : Good ev s) :
    Good ev (State.coefSweep s k) := by
  unfold State.coefSweep
  repeat' first
    | with_reducible first
      | assumption | rfl | exact Or.inr rfl | exact Or.inl ‹_› | refine Good.of_pair (by assumption) ?_
      | apply State.coefSweepRange_keeps | intro _ | apply Good.ite_of | apply apply_ite_good | split | dsimp only
      | apply good_upd
    | exact Or.inr rfl | exact rfl

theorem State.coefWrite_keeps {s : State} {n : Nat} {v : Word} (hg : Good ev s) :
    Good ev (State.coefWrite s n v) := by
  unfold State.coefWrite
  repeat' first
    | with_reducible first
      | assumption | rfl | exact Or.inr rfl | exact Or.inl ‹_› | refine Good.of_pair (by assumption) ?_
      | apply State.coefStore_keeps | apply State.putReg_keeps | intro _ | apply Good.ite_of | apply apply_ite_good
      | split | dsimp only | apply good_upd
    | exact Or.inr rfl | exact rfl

theorem State.cleLatch_keeps {s : State} (hg : Good ev s) :
    Good ev (State.cleLatch s) := by
  unfold State.cleLatch
  repeat' first
    | with_reducible first
      | assumption | rfl | exact Or.inr rfl | exact Or.inl ‹_› | refine Good.of_pair (by assumption) ?_
      | apply good_foldl | apply good_foldl_snd | intro _ | apply Good.ite_of | apply apply_ite_good | split
      | dsimp only | apply good_upd
    | exact Or.inr rfl | exact rfl

theorem State.cleSample_keeps {s : State} (hg : Good ev s) :
    Good ev (State.cleSample s) := by
  unfold State.cleSample
  repeat' first
    | with_reducible first
      | assumption | rfl | exact Or.inr rfl | exact Or.inl ‹_› | refine Good.of_pair (by assumption) ?_
      | apply good_foldl | apply good_foldl_snd | intro _ | apply Good.ite_of | apply apply_ite_good | split
      | dsimp only | apply good_upd
    | exact Or.inr rfl | exact rfl

theorem State.repRead_keeps {s : State} {n : Nat} {j : Nat} (hg : Good ev s) :
    Good ev (State.repRead s n j).2 := by
  unfold State.repRead
  repeat' first
    | with_reducible first
      | assumption | rfl | exact Or.inr rfl | exact Or.inl ‹_› | refine Good.of_pair (by assumption) ?_
      | apply State.portRead_keeps | apply State.raise_keeps | intro _ | apply Good.ite_of | apply apply_ite_good
      | split | dsimp only | apply good_upd
    | exact Or.inr rfl | exact rfl

theorem State.loopEvent_keeps {s : State} {n : Nat} {kind : Nat} {cause : Nat} {pos : Nat} {m : Nat} {safe : Bool}
    {old : Nat} {new : Nat} {dw1 : Word} {dw2 : Word} (hg : Good ev s) :
    Good ev (State.loopEvent s n kind cause pos m safe old new dw1 dw2) := by
  unfold State.loopEvent
  repeat' first
    | with_reducible first
      | assumption | rfl | exact Or.inr rfl | exact Or.inl ‹_› | refine Good.of_pair (by assumption) ?_ | intro _
      | apply Good.ite_of | apply apply_ite_good | split | dsimp only | apply good_upd
    | exact Or.inr rfl | exact rfl

theorem State.slotEdge_keeps {s : State} {n : Nat} {y : List Int} {r : List Int} (hg : Good ev s) :
    Good ev (State.slotEdge s n y r) := by
  unfold State.slotEdge
  repeat' first
    | with_reducible first
      | assumption | rfl | exact Or.inr rfl | exact Or.inl ‹_› | refine Good.of_pair (by assumption) ?_
      | apply State.loopEvent_keeps | apply State.setSlot_keeps | intro _ | apply Good.ite_of | apply apply_ite_good
      | split | dsimp only | apply good_upd
    | exact Or.inr rfl | exact rfl

theorem State.slotCompute_keeps {s : State} {n : Nat} (hg : Good ev s) :
    Good ev (State.slotCompute s n) := by
  unfold State.slotCompute
  repeat' first
    | with_reducible first
      | assumption | rfl | exact Or.inr rfl | exact Or.inl ‹_› | refine Good.of_pair (by assumption) ?_
      | apply good_foldl | apply good_foldl_snd | apply State.slotEdge_keeps | apply State.repRead_keeps
      | apply State.coefChecks_keeps | apply State.raiseIf_keeps | apply State.setSlot_keeps | intro _
      | apply Good.ite_of | apply apply_ite_good | split | dsimp only | apply good_upd
    | exact Or.inr rfl | exact rfl

theorem State.setUa_keeps {s : State} {o : OutRef} {v : Int} (hg : Good ev s) :
    Good ev (State.setUa s o v) := by
  unfold State.setUa
  repeat' first
    | with_reducible first
      | assumption | rfl | exact Or.inr rfl | exact Or.inl ‹_› | refine Good.of_pair (by assumption) ?_
      | apply State.modSlot_keeps | intro _ | apply Good.ite_of | apply apply_ite_good | split | dsimp only
      | apply good_upd
    | exact Or.inr rfl | exact rfl

theorem State.selectPos_keeps {s : State} {slots : List Nat} {j : Nat} (hg : Good ev s) :
    Good ev (State.selectPos s slots j) := by
  unfold State.selectPos
  repeat' first
    | with_reducible first
      | assumption | rfl | exact Or.inr rfl | exact Or.inl ‹_› | refine Good.of_pair (by assumption) ?_
      | apply State.setUa_keeps | apply State.loopEvent_keeps | apply State.raise_keeps | apply State.each_keeps
      | apply State.setCpos_keeps | apply State.modSlot_keeps | intro _ | apply Good.ite_of | apply apply_ite_good
      | split | dsimp only | apply good_upd
    | exact Or.inr rfl | exact rfl

theorem State.repUpdate_keeps {s : State} {n : Nat} (hg : Good ev s) :
    Good ev (State.repUpdate s n) := by
  unfold State.repUpdate
  repeat' first
    | with_reducible first
      | assumption | rfl | exact Or.inr rfl | exact Or.inl ‹_› | refine Good.of_pair (by assumption) ?_
      | apply good_foldl | apply good_foldl_snd | apply State.repRead_keeps | apply State.portRead_keeps
      | apply State.portWrite_keeps | apply State.modSlot_keeps | intro _ | apply Good.ite_of | apply apply_ite_good
      | split | dsimp only | apply good_upd
    | exact Or.inr rfl | exact rfl

theorem State.rampDone_keeps {s : State} {n : Nat} (hg : Good ev s) :
    Good ev (State.rampDone s n) := by
  unfold State.rampDone
  repeat' first
    | with_reducible first
      | assumption | rfl | exact Or.inr rfl | exact Or.inl ‹_› | refine Good.of_pair (by assumption) ?_
      | apply State.loopEvent_keeps | apply State.raise_keeps | apply State.setSlot_keeps | intro _
      | apply Good.ite_of | apply apply_ite_good | split | dsimp only | apply good_upd
    | exact Or.inr rfl | exact rfl

theorem State.cleRelease_keeps {s : State} (hg : Good ev s) :
    Good ev (State.cleRelease s) := by
  unfold State.cleRelease
  repeat' first
    | with_reducible first
      | assumption | rfl | exact Or.inr rfl | exact Or.inl ‹_› | refine Good.of_pair (by assumption) ?_
      | apply State.coefStore_keeps | apply State.each_keeps | intro _ | apply Good.ite_of | apply apply_ite_good
      | split | dsimp only | apply good_upd
    | exact Or.inr rfl | exact rfl

theorem State.positionsTurn_keeps {s : State} (hg : Good ev s) :
    Good ev (State.positionsTurn s) := by
  unfold State.positionsTurn
  repeat' first
    | with_reducible first
      | assumption | rfl | exact Or.inr rfl | exact Or.inl ‹_› | refine Good.of_pair (by assumption) ?_
      | apply State.each_keeps | apply State.setCpos_keeps | intro _ | apply Good.ite_of | apply apply_ite_good
      | split | dsimp only | apply good_upd
    | exact Or.inr rfl | exact rfl

theorem State.lawPhase_keeps {s : State} (hg : Good ev s) :
    Good ev (State.lawPhase s) := by
  unfold State.lawPhase
  repeat' first
    | with_reducible first
      | assumption | rfl | exact Or.inr rfl | exact Or.inl ‹_› | refine Good.of_pair (by assumption) ?_
      | apply State.positionsTurn_keeps | apply State.cleRelease_keeps | apply State.rampDone_keeps
      | apply State.repUpdate_keeps | apply State.selectPos_keeps | apply State.slotCompute_keeps
      | apply State.each_keeps | apply State.modSlot_keeps | intro _ | apply Good.ite_of | apply apply_ite_good
      | split | dsimp only | apply good_upd
    | exact Or.inr rfl | exact rfl

theorem State.loopFault_keeps {s : State} {n : Nat} {cause : Nat} {m : Nat} {dw1 : Word} {record : Bool} (hg : Good
    ev s) :
    Good ev (State.loopFault s n cause m dw1 record) := by
  unfold State.loopFault
  repeat' first
    | with_reducible first
      | assumption | rfl | exact Or.inr rfl | exact Or.inl ‹_› | refine Good.of_pair (by assumption) ?_
      | apply State.setUa_keeps | apply State.loopEvent_keeps | apply State.raise_keeps | apply State.each_keeps
      | apply State.detect_keeps | apply State.setCpos_keeps | apply State.modSlot_keeps | intro _ | apply Good.ite_of
      | apply apply_ite_good | split | dsimp only | apply good_upd
    | exact Or.inr rfl | exact rfl

theorem State.loopBypass_keeps {s : State} (hg : Good ev s) :
    Good ev (State.loopBypass s) := by
  unfold State.loopBypass
  repeat' first
    | with_reducible first
      | assumption | rfl | exact Or.inr rfl | exact Or.inl ‹_› | refine Good.of_pair (by assumption) ?_
      | apply State.loopFault_keeps | apply State.each_keeps | intro _ | apply Good.ite_of | apply apply_ite_good
      | split | dsimp only | apply good_upd
    | exact Or.inr rfl | exact rfl

theorem State.superviseSlot_keeps {s : State} {n : Nat} (hg : Good ev s) :
    Good ev (State.superviseSlot s n) := by
  unfold State.superviseSlot
  repeat' first
    | with_reducible first
      | assumption | rfl | exact Or.inr rfl | exact Or.inl ‹_› | refine Good.of_pair (by assumption) ?_
      | apply State.loopFault_keeps | apply State.loopEvent_keeps | apply State.raise_keeps
      | apply State.modSlot_keeps | apply State.setSlot_keeps | intro _ | apply Good.ite_of | apply apply_ite_good
      | split | dsimp only | apply good_upd
    | exact Or.inr rfl | exact rfl

theorem State.loopRecords_keeps {s : State} (hg : Good ev s) :
    Good ev (State.loopRecords s) := by
  unfold State.loopRecords
  repeat' first
    | with_reducible first
      | assumption | rfl | exact Or.inr rfl | exact Or.inl ‹_› | refine Good.of_pair (by assumption) ?_
      | apply State.postEvt_keeps | apply State.each_keeps | intro _ | apply Good.ite_of | apply apply_ite_good
      | split | dsimp only | apply good_upd
    | exact Or.inr rfl | exact rfl

theorem State.supPhase_keeps {s : State} (hg : Good ev s) :
    Good ev (State.supPhase s) := by
  unfold State.supPhase
  repeat' first
    | with_reducible first
      | assumption | rfl | exact Or.inr rfl | exact Or.inl ‹_› | refine Good.of_pair (by assumption) ?_
      | apply State.loopRecords_keeps | apply State.superviseSlot_keeps | apply State.each_keeps | intro _
      | apply Good.ite_of | apply apply_ite_good | split | dsimp only | apply good_upd
    | exact Or.inr rfl | exact rfl

theorem State.snapPhase_keeps {s : State} (hg : Good ev s) :
    Good ev (State.snapPhase s) := by
  unfold State.snapPhase
  repeat' first
    | with_reducible first
      | assumption | rfl | exact Or.inr rfl | exact Or.inl ‹_› | refine Good.of_pair (by assumption) ?_
      | apply good_foldl | apply good_foldl_snd | apply State.postEvt_keeps | apply State.each_keeps
      | apply State.modSlot_keeps | intro _ | apply Good.ite_of | apply apply_ite_good | split | dsimp only
      | apply good_upd
    | exact Or.inr rfl | exact rfl

theorem State.slotWritten_keeps {s : State} {n : Nat} (hg : Good ev s) :
    Good ev (State.slotWritten s n) := by
  unfold State.slotWritten
  repeat' first
    | with_reducible first
      | assumption | rfl | exact Or.inr rfl | exact Or.inl ‹_› | refine Good.of_pair (by assumption) ?_
      | apply State.each_keeps | apply State.setCpos_keeps | apply State.setSlot_keeps | intro _ | apply Good.ite_of
      | apply apply_ite_good | split | dsimp only | apply good_upd
    | exact Or.inr rfl | exact rfl

theorem State.repStart_keeps {s : State} {n : Nat} (hg : Good ev s) :
    Good ev (State.repStart s n) := by
  unfold State.repStart
  repeat' first
    | with_reducible first
      | assumption | rfl | exact Or.inr rfl | exact Or.inl ‹_› | refine Good.of_pair (by assumption) ?_
      | apply State.modSlot_keeps | intro _ | apply Good.ite_of | apply apply_ite_good | split | dsimp only
      | apply good_upd
    | exact Or.inr rfl | exact rfl

theorem State.setRx_keeps {s : State} {x : Nat} {v : RxSt} (hg : Good ev s) :
    Good ev (State.setRx s x v) := by
  unfold State.setRx
  repeat' first
    | with_reducible first
      | assumption | rfl | exact Or.inr rfl | exact Or.inl ‹_› | refine Good.of_pair (by assumption) ?_ | intro _
      | apply Good.ite_of | apply apply_ite_good | split | dsimp only | apply good_upd
    | exact Or.inr rfl | exact rfl

theorem State.setLemc_keeps {s : State} {x : Nat} {v : Option Nat} (hg : Good ev s) :
    Good ev (State.setLemc s x v) := by
  unfold State.setLemc
  repeat' first
    | with_reducible first
      | assumption | rfl | exact Or.inr rfl | exact Or.inl ‹_› | refine Good.of_pair (by assumption) ?_ | intro _
      | apply Good.ite_of | apply apply_ite_good | split | dsimp only | apply good_upd
    | exact Or.inr rfl | exact rfl

theorem State.rxDrop_keeps {s : State} {x : Nat} (hg : Good ev s) :
    Good ev (State.rxDrop s x) := by
  unfold State.rxDrop
  repeat' first
    | with_reducible first
      | assumption | rfl | exact Or.inr rfl | exact Or.inl ‹_› | refine Good.of_pair (by assumption) ?_ | intro _
      | apply Good.ite_of | apply apply_ite_good | split | dsimp only | apply good_upd
    | exact Or.inr rfl | exact rfl

theorem State.rxWritten_keeps {s : State} {x : Nat} (hg : Good ev s) :
    Good ev (State.rxWritten s x) := by
  unfold State.rxWritten
  repeat' first
    | with_reducible first
      | assumption | rfl | exact Or.inr rfl | exact Or.inl ‹_› | refine Good.of_pair (by assumption) ?_
      | apply State.rxDrop_keeps | apply State.setLemc_keeps | apply State.setRx_keeps | intro _ | apply Good.ite_of
      | apply apply_ite_good | split | dsimp only | apply good_upd
    | exact Or.inr rfl | exact rfl

theorem State.rxAligned_keeps {s : State} {x : Nat} (hg : Good ev s) :
    Good ev (State.rxAligned s x) := by
  unfold State.rxAligned
  repeat' first
    | with_reducible first
      | assumption | rfl | exact Or.inr rfl | exact Or.inl ‹_› | refine Good.of_pair (by assumption) ?_
      | apply State.setRx_keeps | intro _ | apply Good.ite_of | apply apply_ite_good | split | dsimp only
      | apply good_upd
    | exact Or.inr rfl | exact rfl

theorem State.rxRelease_keeps {s : State} (hg : Good ev s) :
    Good ev (State.rxRelease s) := by
  unfold State.rxRelease
  repeat' first
    | with_reducible first
      | assumption | rfl | exact Or.inr rfl | exact Or.inl ‹_› | refine Good.of_pair (by assumption) ?_
      | apply State.each_keeps | intro _ | apply Good.ite_of | apply apply_ite_good | split | dsimp only
      | apply good_upd
    | exact Or.inr rfl | exact rfl

theorem State.rxBlock_keeps {s : State} {x : Nat} {crcOk : Bool} {samples : List (List (BitVec 18))} (hg : Good ev
    s) :
    Good ev (State.rxBlock s x crcOk samples) := by
  unfold State.rxBlock
  repeat' first
    | with_reducible first
      | assumption | rfl | exact Or.inr rfl | exact Or.inl ‹_› | refine Good.of_pair (by assumption) ?_
      | apply State.rxRelease_keeps | apply State.putReg_keeps | intro _ | apply Good.ite_of | apply apply_ite_good
      | split | dsimp only | apply good_upd
    | exact Or.inr rfl | exact rfl

theorem State.rxLost_keeps {s : State} {x : Nat} (hg : Good ev s) :
    Good ev (State.rxLost s x) := by
  unfold State.rxLost
  repeat' first
    | with_reducible first
      | assumption | rfl | exact Or.inr rfl | exact Or.inl ‹_› | refine Good.of_pair (by assumption) ?_
      | apply State.rxDrop_keeps | apply State.setRx_keeps | apply State.raise_keeps | apply State.detect_keeps
      | intro _ | apply Good.ite_of | apply apply_ite_good | split | dsimp only | apply good_upd
    | exact Or.inr rfl | exact rfl

end Sys2Proof.Machine
end

