-- ==== Sys2Proof/Laws/KeepDomains.lean ====
section
/-!
SUPPORT. What every operation of Machine/Domains.lean keeps (Laws/Keep.lean).
-/

namespace Sys2Proof.Machine

variable {ev : Env}

theorem State.ilasTurn_keeps {s : State} (hg : Good ev s) :
    Good ev (State.ilasTurn s) := by
  unfold State.ilasTurn
  repeat' first
    | with_reducible first
      | assumption | rfl | exact Or.inr rfl | exact Or.inl ‹_› | refine Good.of_pair (by assumption) ?_
      | apply State.setTxl_keeps | intro _ | apply Good.ite_of | apply apply_ite_good | split | dsimp only
      | apply good_upd
    | exact Or.inr rfl | exact rfl

theorem State.relockTurn_keeps {s : State} (hg : Good ev s) :
    Good ev (State.relockTurn s) := by
  unfold State.relockTurn
  repeat' first
    | with_reducible first
      | assumption | rfl | exact Or.inr rfl | exact Or.inl ‹_› | refine Good.of_pair (by assumption) ?_
      | apply State.each_keeps | apply State.setTxl_keeps | intro _ | apply Good.ite_of | apply apply_ite_good | split
      | dsimp only | apply good_upd
    | exact Or.inr rfl | exact rfl

theorem State.outputsRestart_keeps {s : State} (hg : Good ev s) :
    Good ev (State.outputsRestart s) := by
  unfold State.outputsRestart
  repeat' first
    | with_reducible first
      | assumption | rfl | exact Or.inr rfl | exact Or.inl ‹_› | refine Good.of_pair (by assumption) ?_
      | apply good_foldl | apply good_foldl_snd | intro _ | apply Good.ite_of | apply apply_ite_good | split
      | dsimp only | apply good_upd
    | exact Or.inr rfl | exact rfl

end Sys2Proof.Machine
end

