-- ==== Sys2Proof/Laws/KeepClk.lean ====
section
/-!
SUPPORT. What every operation of Machine/Clk.lean keeps (Laws/Keep.lean).
-/

namespace Sys2Proof.Machine

variable {ev : Env}

theorem State.pllEvent_keeps {s : State} {p : Pll} {i : Nat} (hg : Good ev s) :
    Good ev (State.pllEvent s p i) := by
  unfold State.pllEvent
  repeat' first
    | with_reducible first
      | assumption | rfl | exact Or.inr rfl | exact Or.inl ‹_› | refine Good.of_pair (by assumption) ?_
      | apply State.raise_keeps | intro _ | apply Good.ite_of | apply apply_ite_good | split | dsimp only
      | apply good_upd
    | exact Or.inr rfl | exact rfl

theorem State.hopRecord_keeps {s : State} {h : Hop} {failed : Bool} (hg : Good ev s) :
    Good ev (State.hopRecord s h failed) := by
  unfold State.hopRecord
  repeat' first
    | with_reducible first
      | assumption | rfl | exact Or.inr rfl | exact Or.inl ‹_› | refine Good.of_pair (by assumption) ?_
      | apply State.postEvt_keeps | intro _ | apply Good.ite_of | apply apply_ite_good | split | dsimp only
      | apply good_upd
    | exact Or.inr rfl | exact rfl

theorem State.hopFail_keeps {s : State} (hg : Good ev s) :
    Good ev (State.hopFail s) := by
  unfold State.hopFail
  repeat' first
    | with_reducible first
      | assumption | rfl | exact Or.inr rfl | exact Or.inl ‹_› | refine Good.of_pair (by assumption) ?_
      | apply State.hopRecord_keeps | apply State.pllEvent_keeps | apply State.modClk_keeps | intro _
      | apply Good.ite_of | apply apply_ite_good | split | dsimp only | apply good_upd
    | exact Or.inr rfl | exact rfl

theorem State.searchAbort_keeps {s : State} (hg : Good ev s) :
    Good ev (State.searchAbort s) := by
  unfold State.searchAbort
  repeat' first
    | with_reducible first
      | assumption | rfl | exact Or.inr rfl | exact Or.inl ‹_› | refine Good.of_pair (by assumption) ?_
      | apply State.pllEvent_keeps | apply State.modClk_keeps | intro _ | apply Good.ite_of | apply apply_ite_good
      | split | dsimp only | apply good_upd
    | exact Or.inr rfl | exact rfl

theorem State.spllLeft_keeps {s : State} (hg : Good ev s) :
    Good ev (State.spllLeft s) := by
  unfold State.spllLeft
  repeat' first
    | with_reducible first
      | assumption | rfl | exact Or.inr rfl | exact Or.inl ‹_› | refine Good.of_pair (by assumption) ?_
      | apply State.searchAbort_keeps | apply State.hopFail_keeps | apply State.modClk_keeps | intro _
      | apply Good.ite_of | apply apply_ite_good | split | dsimp only | apply good_upd
    | exact Or.inr rfl | exact rfl

theorem State.pllTo_keeps {s : State} {p : Pll} {st : PSt} (hg : Good ev s) :
    Good ev (State.pllTo s p st) := by
  unfold State.pllTo
  repeat' first
    | with_reducible first
      | assumption | rfl | exact Or.inr rfl | exact Or.inl ‹_› | refine Good.of_pair (by assumption) ?_
      | apply State.spllLeft_keeps | apply State.modPll_keeps | intro _ | apply Good.ite_of | apply apply_ite_good
      | split | dsimp only | apply good_upd
    | exact Or.inr rfl | exact rfl

theorem State.pllSearch_keeps {s : State} {p : Pll} {origin : PSt} (hg : Good ev s) :
    Good ev (State.pllSearch s p origin) := by
  unfold State.pllSearch
  repeat' first
    | with_reducible first
      | assumption | rfl | exact Or.inr rfl | exact Or.inl ‹_› | refine Good.of_pair (by assumption) ?_
      | apply State.modClk_keeps | apply State.modPll_keeps | intro _ | apply Good.ite_of | apply apply_ite_good
      | split | dsimp only | apply good_upd
    | exact Or.inr rfl | exact rfl

theorem State.pllWake_keeps {s : State} {p : Pll} (hg : Good ev s) :
    Good ev (State.pllWake s p) := by
  unfold State.pllWake
  repeat' first
    | with_reducible first
      | assumption | rfl | exact Or.inr rfl | exact Or.inl ‹_› | refine Good.of_pair (by assumption) ?_
      | apply State.pllSearch_keeps | intro _ | apply Good.ite_of | apply apply_ite_good | split | dsimp only
      | apply good_upd
    | exact Or.inr rfl | exact rfl

theorem State.pllHold_keeps {s : State} {p : Pll} (hg : Good ev s) :
    Good ev (State.pllHold s p) := by
  unfold State.pllHold
  repeat' first
    | with_reducible first
      | assumption | rfl | exact Or.inr rfl | exact Or.inl ‹_› | refine Good.of_pair (by assumption) ?_
      | apply State.pllTo_keeps | apply State.pllEvent_keeps | intro _ | apply Good.ite_of | apply apply_ite_good
      | split | dsimp only | apply good_upd
    | exact Or.inr rfl | exact rfl

theorem State.refLost_keeps {s : State} {p : Pll} (hg : Good ev s) :
    Good ev (State.refLost s p) := by
  unfold State.refLost
  repeat' first
    | with_reducible first
      | assumption | rfl | exact Or.inr rfl | exact Or.inl ‹_› | refine Good.of_pair (by assumption) ?_
      | apply State.pllHold_keeps | apply State.pllEvent_keeps | apply State.modClk_keeps | apply State.modPll_keeps
      | apply State.detect_keeps | intro _ | apply Good.ite_of | apply apply_ite_good | split | dsimp only
      | apply good_upd
    | exact Or.inr rfl | exact rfl

theorem State.refBack_keeps {s : State} {p : Pll} (hg : Good ev s) :
    Good ev (State.refBack s p) := by
  unfold State.refBack
  repeat' first
    | with_reducible first
      | assumption | rfl | exact Or.inr rfl | exact Or.inl ‹_› | refine Good.of_pair (by assumption) ?_
      | apply State.pllWake_keeps | apply State.modClk_keeps | apply State.modPll_keeps | intro _ | apply Good.ite_of
      | apply apply_ite_good | split | dsimp only | apply good_upd
    | exact Or.inr rfl | exact rfl

theorem State.refChanged_keeps {s : State} {p : Pll} {present : Bool} (hg : Good ev s) :
    Good ev (State.refChanged s p present) := by
  unfold State.refChanged
  repeat' first
    | with_reducible first
      | assumption | rfl | exact Or.inr rfl | exact Or.inl ‹_› | refine Good.of_pair (by assumption) ?_
      | apply State.refBack_keeps | apply State.refLost_keeps | apply State.pllHold_keeps | intro _
      | apply Good.ite_of | apply apply_ite_good | split | dsimp only | apply good_upd
    | exact Or.inr rfl | exact rfl

theorem State.fpllFollow_keeps {s : State} {sel : Nat} {link : Nat} {present : Bool} (hg : Good ev s) :
    Good ev (State.fpllFollow s sel link present) := by
  unfold State.fpllFollow
  repeat' first
    | with_reducible first
      | assumption | rfl | exact Or.inr rfl | exact Or.inl ‹_› | refine Good.of_pair (by assumption) ?_
      | apply State.refChanged_keeps | apply State.setReg_keeps | intro _ | apply Good.ite_of | apply apply_ite_good
      | split | dsimp only | apply good_upd
    | exact Or.inr rfl | exact rfl

end Sys2Proof.Machine
end

