-- ==== Sys2Proof/Laws/KeepNzl.lean ====
section
/-!
SUPPORT. What every operation of Machine/Nzl.lean keeps (Laws/Keep.lean).
-/

namespace Sys2Proof.Machine

variable {ev : Env}

theorem State.modNzl_keeps {s : State} {f : Nzl → Nzl} (hg : Good ev s) :
    Good ev (State.modNzl s f) := by
  unfold State.modNzl
  repeat' first
    | with_reducible first
      | assumption | rfl | exact Or.inr rfl | exact Or.inl ‹_› | refine Good.of_pair (by assumption) ?_ | intro _
      | apply Good.ite_of | apply apply_ite_good | split | dsimp only | apply good_upd
    | exact Or.inr rfl | exact rfl

theorem State.ctlFlit_keeps {s : State} {n : Nat} {ctype : Nat} {ack : Nat} {replay : Nat} {die : Nat} {link : Nat}
    {cal : Nat} (hg : Good ev s) :
    Good ev (State.ctlFlit s n ctype ack replay die link cal) := by
  unfold State.ctlFlit
  repeat' first
    | with_reducible first
      | assumption | rfl | exact Or.inr rfl | exact Or.inl ‹_› | refine Good.of_pair (by assumption) ?_
      | apply State.emit_keeps | apply State.setLink_keeps | intro _ | apply Good.ite_of | apply apply_ite_good
      | split | dsimp only | apply good_upd
    | exact Or.inr rfl | exact rfl

theorem State.freeInput_keeps {s : State} {p : Pkt} (hg : Good ev s) :
    Good ev (State.freeInput s p) := by
  unfold State.freeInput
  repeat' first
    | with_reducible first
      | assumption | rfl | exact Or.inr rfl | exact Or.inl ‹_› | refine Good.of_pair (by assumption) ?_
      | apply State.modLink_keeps | intro _ | apply Good.ite_of | apply apply_ite_good | split | dsimp only
      | apply good_upd
    | exact Or.inr rfl | exact rfl

theorem State.linkPump_keeps {s : State} {n : Nat} {y0 : Nat} (hg : Good ev s) :
    Good ev (State.linkPump s n y0) := by
  induction y0 generalizing s n with
  | zero =>
    unfold State.linkPump
    repeat' first
      | with_reducible first
        | assumption | rfl | exact Or.inr rfl | exact Or.inl ‹_› | refine Good.of_pair (by assumption) ?_
        | apply State.freeInput_keeps | apply State.modDesc_keeps | apply State.emit_keeps | apply State.setLink_keeps
        | intro _ | apply Good.ite_of | apply apply_ite_good | split | dsimp only | apply good_upd
      | exact Or.inr rfl | exact rfl
  | succ k ih =>
    unfold State.linkPump
    repeat' first
      | with_reducible first
        | assumption | rfl | exact Or.inr rfl | exact Or.inl ‹_› | apply ih | refine Good.of_pair (by assumption) ?_
        | apply State.freeInput_keeps | apply State.modDesc_keeps | apply State.emit_keeps | apply State.setLink_keeps
        | intro _ | apply Good.ite_of | apply apply_ite_good | split | dsimp only | apply good_upd
      | exact Or.inr rfl | exact rfl

theorem State.linkPut_keeps {s : State} {n : Nat} {p : Pkt} (hg : Good ev s) :
    Good ev (State.linkPut s n p) := by
  unfold State.linkPut
  repeat' first
    | with_reducible first
      | assumption | rfl | exact Or.inr rfl | exact Or.inl ‹_› | refine Good.of_pair (by assumption) ?_
      | apply State.linkPump_keeps | apply State.modLink_keeps | intro _ | apply Good.ite_of | apply apply_ite_good
      | split | dsimp only | apply good_upd
    | exact Or.inr rfl | exact rfl

theorem State.sendsGone_keeps {s : State} (hg : Good ev s) :
    Good ev (State.sendsGone s) := by
  unfold State.sendsGone
  repeat' first
    | with_reducible first
      | assumption | rfl | exact Or.inr rfl | exact Or.inl ‹_› | refine Good.of_pair (by assumption) ?_
      | apply State.each_keeps | apply State.modLink_keeps | intro _ | apply Good.ite_of | apply apply_ite_good
      | split | dsimp only | apply good_upd
    | exact Or.inr rfl | exact rfl

theorem State.notice_keeps {s : State} {from_ : BitVec 12} {b : NakBody} (hg : Good ev s) :
    Good ev (State.notice s from_ b) := by
  unfold State.notice
  repeat' first
    | with_reducible first
      | assumption | rfl | exact Or.inr rfl | exact Or.inl ‹_› | refine Good.of_pair (by assumption) ?_
      | apply State.postMail_keeps | apply State.bump_keeps | intro _ | apply Good.ite_of | apply apply_ite_good
      | split | dsimp only | apply good_upd
    | exact Or.inr rfl | exact rfl

theorem State.sendNak_keeps {s : State} {to_ : BitVec 12} {b : NakBody} (hg : Good ev s) :
    Good ev (State.sendNak s to_ b) := by
  unfold State.sendNak
  repeat' first
    | with_reducible first
      | assumption | rfl | exact Or.inr rfl | exact Or.inl ‹_› | refine Good.of_pair (by assumption) ?_
      | apply State.notice_keeps | apply State.linkPut_keeps | apply State.bump_keeps | intro _ | apply Good.ite_of
      | apply apply_ite_good | split | dsimp only | apply good_upd
    | exact Or.inr rfl | exact rfl

theorem State.refusePkt_keeps {s : State} {p : Pkt} {cause : Nat} (hg : Good ev s) :
    Good ev (State.refusePkt s p cause) := by
  unfold State.refusePkt
  repeat' first
    | with_reducible first
      | assumption | rfl | exact Or.inr rfl | exact Or.inl ‹_› | refine Good.of_pair (by assumption) ?_
      | apply State.sendNak_keeps | apply State.bump_keeps | intro _ | apply Good.ite_of | apply apply_ite_good
      | split | dsimp only | apply good_upd
    | exact Or.inr rfl | exact rfl

theorem State.putOrRefuse_keeps {s : State} {n : Nat} {p : Pkt} (hg : Good ev s) :
    Good ev (State.putOrRefuse s n p) := by
  unfold State.putOrRefuse
  repeat' first
    | with_reducible first
      | assumption | rfl | exact Or.inr rfl | exact Or.inl ‹_› | refine Good.of_pair (by assumption) ?_
      | apply State.refusePkt_keeps | apply State.linkPut_keeps | apply State.bump_keeps | intro _ | apply Good.ite_of
      | apply apply_ite_good | split | dsimp only | apply good_upd
    | exact Or.inr rfl | exact rfl

theorem State.expire_keeps {s : State} {p : Pkt} (hg : Good ev s) :
    Good ev (State.expire s p) := by
  unfold State.expire
  repeat' first
    | with_reducible first
      | assumption | rfl | exact Or.inr rfl | exact Or.inl ‹_› | refine Good.of_pair (by assumption) ?_
      | apply State.sendNak_keeps | apply State.bump_keeps | intro _ | apply Good.ite_of | apply apply_ite_good
      | split | dsimp only | apply good_upd
    | exact Or.inr rfl | exact rfl

theorem State.forward_keeps {s : State} {p : Pkt} (hg : Good ev s) :
    Good ev (State.forward s p) := by
  unfold State.forward
  repeat' first
    | with_reducible first
      | assumption | rfl | exact Or.inr rfl | exact Or.inl ‹_› | refine Good.of_pair (by assumption) ?_
      | apply State.expire_keeps | apply State.putOrRefuse_keeps | apply State.refusePkt_keeps | intro _
      | apply Good.ite_of | apply apply_ite_good | split | dsimp only | apply good_upd
    | exact Or.inr rfl | exact rfl

theorem State.srcRoute_keeps {s t : State} {p : Pkt} (hg : Good ev s) (h : s.srcRoute p = some t) : Good ev t := by
  unfold State.srcRoute at h
  split at h
  · cases h
    exact State.expire_keeps hg
  · split at h
    · cases h
    · cases h
      exact State.putOrRefuse_keeps hg

theorem State.sendOn_keeps {s : State} {p : Pkt} {links : List Nat} (hg : Good ev s) :
    Good ev (State.sendOn s p links) := by
  unfold State.sendOn
  repeat' first
    | with_reducible first
      | assumption | rfl | exact Or.inr rfl | exact Or.inl ‹_› | refine Good.of_pair (by assumption) ?_
      | apply State.refusePkt_keeps | apply State.linkPut_keeps | apply State.bump_keeps | apply State.each_keeps
      | intro _ | apply Good.ite_of | apply apply_ite_good | split | dsimp only | apply good_upd
    | exact Or.inr rfl | exact rfl

theorem State.treeSend_keeps {s : State} {p : Pkt} {but : Option Nat} (hg : Good ev s) :
    Good ev (State.treeSend s p but) := by
  unfold State.treeSend
  repeat' first
    | with_reducible first
      | assumption | rfl | exact Or.inr rfl | exact Or.inl ‹_› | refine Good.of_pair (by assumption) ?_
      | apply State.sendOn_keeps | intro _ | apply Good.ite_of | apply apply_ite_good | split | dsimp only
      | apply good_upd
    | exact Or.inr rfl | exact rfl

theorem State.passOn_keeps {s : State} {link : Nat} {p : Pkt} (hg : Good ev s) :
    Good ev (State.passOn s link p) := by
  unfold State.passOn
  repeat' first
    | with_reducible first
      | assumption | rfl | exact Or.inr rfl | exact Or.inl ‹_› | refine Good.of_pair (by assumption) ?_
      | apply State.treeSend_keeps | apply State.forward_keeps | intro _ | apply Good.ite_of | apply apply_ite_good
      | split | dsimp only | apply good_upd
    | exact Or.inr rfl | exact rfl

theorem State.rxHold_keeps {s : State} {n : Nat} (hg : Good ev s) :
    Good ev (State.rxHold s n) := by
  unfold State.rxHold
  repeat' first
    | with_reducible first
      | assumption | rfl | exact Or.inr rfl | exact Or.inl ‹_› | refine Good.of_pair (by assumption) ?_
      | apply State.ctlFlit_keeps | apply State.modLink_keeps | intro _ | apply Good.ite_of | apply apply_ite_good
      | split | dsimp only | apply good_upd
    | exact Or.inr rfl | exact rfl

theorem State.rxPacket_keeps {s : State} {n : Nat} {vc : Nat} {flits : Nat} (hg : Good ev s) :
    Good ev (State.rxPacket s n vc flits) := by
  unfold State.rxPacket
  repeat' first
    | with_reducible first
      | assumption | rfl | exact Or.inr rfl | exact Or.inl ‹_› | refine Good.of_pair (by assumption) ?_
      | apply State.rxHold_keeps | apply State.modLink_keeps | intro _ | apply Good.ite_of | apply apply_ite_good
      | split | dsimp only | apply good_upd
    | exact Or.inr rfl | exact rfl

theorem State.rxRoute_keeps {s : State} {n : Nat} {p : Pkt} {f : State → Pkt → State} (hg : Good ev s) (hgf : ∀ t
    x1, Good ev t → Good ev (f t x1)) :
    Good ev (State.rxRoute s n p f) := by
  unfold State.rxRoute
  repeat' first
    | with_reducible first
      | assumption | rfl | exact Or.inr rfl | exact Or.inl ‹_› | refine Good.of_pair (by assumption) ?_
      | apply State.rxHold_keeps | apply State.freeInput_keeps | apply hgf | intro _ | apply Good.ite_of
      | apply apply_ite_good | split | dsimp only | apply good_upd
    | exact Or.inr rfl | exact rfl

theorem State.linkAck_keeps {s : State} {n : Nat} {ack : BitVec 8} {c : Credits} (hg : Good ev s) :
    Good ev (State.linkAck s n ack c) := by
  unfold State.linkAck
  repeat' first
    | with_reducible first
      | assumption | rfl | exact Or.inr rfl | exact Or.inl ‹_› | refine Good.of_pair (by assumption) ?_
      | apply State.linkPump_keeps | apply State.modLink_keeps | intro _ | apply Good.ite_of | apply apply_ite_good
      | split | dsimp only | apply good_upd
    | exact Or.inr rfl | exact rfl

theorem State.linkIdle_keeps {s : State} {n : Nat} {c : Credits} (hg : Good ev s) :
    Good ev (State.linkIdle s n c) := by
  unfold State.linkIdle
  repeat' first
    | with_reducible first
      | assumption | rfl | exact Or.inr rfl | exact Or.inl ‹_› | refine Good.of_pair (by assumption) ?_
      | apply State.linkPump_keeps | apply State.modLink_keeps | intro _ | apply Good.ite_of | apply apply_ite_good
      | split | dsimp only | apply good_upd
    | exact Or.inr rfl | exact rfl

theorem State.flitLost_keeps {s : State} {n : Nat} (hg : Good ev s) :
    Good ev (State.flitLost s n) := by
  unfold State.flitLost
  repeat' first
    | with_reducible first
      | assumption | rfl | exact Or.inr rfl | exact Or.inl ‹_› | refine Good.of_pair (by assumption) ?_
      | apply State.ctlFlit_keeps | apply State.bump_keeps | intro _ | apply Good.ite_of | apply apply_ite_good
      | split | dsimp only | apply good_upd
    | exact Or.inr rfl | exact rfl

theorem State.topoSend_keeps {s : State} {n : Nat} {code : Nat} (hg : Good ev s) :
    Good ev (State.topoSend s n code) := by
  unfold State.topoSend
  repeat' first
    | with_reducible first
      | assumption | rfl | exact Or.inr rfl | exact Or.inl ‹_› | refine Good.of_pair (by assumption) ?_
      | apply State.refusePkt_keeps | apply State.linkPut_keeps | intro _ | apply Good.ite_of | apply apply_ite_good
      | split | dsimp only | apply good_upd
    | exact Or.inr rfl | exact rfl

theorem State.timeUnlock_keeps {s : State} (hg : Good ev s) :
    Good ev (State.timeUnlock s) := by
  unfold State.timeUnlock
  repeat' first
    | with_reducible first
      | assumption | rfl | exact Or.inr rfl | exact Or.inl ‹_› | refine Good.of_pair (by assumption) ?_
      | apply State.modNzl_keeps | apply State.raise_keeps | apply State.detect_keeps | intro _ | apply Good.ite_of
      | apply apply_ite_good | split | dsimp only | apply good_upd
    | exact Or.inr rfl | exact rfl

theorem State.parentLost_keeps {s : State} (hg : Good ev s) :
    Good ev (State.parentLost s) := by
  unfold State.parentLost
  repeat' first
    | with_reducible first
      | assumption | rfl | exact Or.inr rfl | exact Or.inl ‹_› | refine Good.of_pair (by assumption) ?_
      | apply State.timeUnlock_keeps | apply State.modNzl_keeps | intro _ | apply Good.ite_of | apply apply_ite_good
      | split | dsimp only | apply good_upd
    | exact Or.inr rfl | exact rfl

theorem State.inputGone_keeps {s : State} {n : Nat} (hg : Good ev s) :
    Good ev (State.inputGone s n) := by
  unfold State.inputGone
  repeat' first
    | with_reducible first
      | assumption | rfl | exact Or.inr rfl | exact Or.inl ‹_› | refine Good.of_pair (by assumption) ?_
      | apply State.each_keeps | apply State.modLink_keeps | intro _ | apply Good.ite_of | apply apply_ite_good
      | split | dsimp only | apply good_upd
    | exact Or.inr rfl | exact rfl

theorem State.linkDropTo_keeps {s : State} {n : Nat} {st : LkSt} (hg : Good ev s) :
    Good ev (State.linkDropTo s n st) := by
  unfold State.linkDropTo
  repeat' first
    | with_reducible first
      | assumption | rfl | exact Or.inr rfl | exact Or.inl ‹_› | refine Good.of_pair (by assumption) ?_
      | apply State.inputGone_keeps | apply State.parentLost_keeps | apply State.topoSend_keeps
      | apply State.raise_keeps | apply State.setLink_keeps | intro _ | apply Good.ite_of | apply apply_ite_good
      | split | dsimp only | apply good_upd
    | exact Or.inr rfl | exact rfl

theorem State.linksDrop_keeps {s : State} (hg : Good ev s) :
    Good ev (State.linksDrop s) := by
  unfold State.linksDrop
  repeat' first
    | with_reducible first
      | assumption | rfl | exact Or.inr rfl | exact Or.inl ‹_› | refine Good.of_pair (by assumption) ?_
      | apply State.linkDropTo_keeps | apply State.each_keeps | intro _ | apply Good.ite_of | apply apply_ite_good
      | split | dsimp only | apply good_upd
    | exact Or.inr rfl | exact rfl

theorem State.replayReq_keeps {s : State} {n : Nat} {ack : BitVec 8} {from_ : BitVec 8} {c : Credits} (hg : Good ev
    s) :
    Good ev (State.replayReq s n ack from_ c) := by
  unfold State.replayReq
  repeat' first
    | with_reducible first
      | assumption | rfl | exact Or.inr rfl | exact Or.inl ‹_› | refine Good.of_pair (by assumption) ?_
      | apply State.linkDropTo_keeps | apply State.linkPump_keeps | apply State.bump_keeps | apply State.raise_keeps
      | apply State.emit_keeps | apply State.detect_keeps | apply State.setLink_keeps | intro _ | apply Good.ite_of
      | apply apply_ite_good | split | dsimp only | apply good_upd
    | exact Or.inr rfl | exact rfl

theorem State.helloOut_keeps {s : State} {n : Nat} (hg : Good ev s) :
    Good ev (State.helloOut s n) := by
  unfold State.helloOut
  repeat' first
    | with_reducible first
      | assumption | rfl | exact Or.inr rfl | exact Or.inl ‹_› | refine Good.of_pair (by assumption) ?_
      | apply State.ctlFlit_keeps | apply State.modLink_keeps | intro _ | apply Good.ite_of | apply apply_ite_good
      | split | dsimp only | apply good_upd
    | exact Or.inr rfl | exact rfl

theorem State.mailDeliver_keeps {s : State} {src : BitVec 12} {dest : Nat} {msgId : Nat} {mtype : Nat} {tag : Nat}
    {msg : List Byte} (hg : Good ev s) :
    Good ev (State.mailDeliver s src dest msgId mtype tag msg) := by
  unfold State.mailDeliver
  repeat' first
    | with_reducible first
      | assumption | rfl | exact Or.inr rfl | exact Or.inl ‹_› | refine Good.of_pair (by assumption) ?_
      | apply State.sendNak_keeps | apply State.postMail_keeps | intro _ | apply Good.ite_of | apply apply_ite_good
      | split | dsimp only | apply good_upd
    | exact Or.inr rfl | exact rfl

theorem State.mailFrag_keeps {s : State} {p : MailPkt} (hg : Good ev s) :
    Good ev (State.mailFrag s p) := by
  unfold State.mailFrag
  repeat' first
    | with_reducible first
      | assumption | rfl | exact Or.inr rfl | exact Or.inl ‹_› | refine Good.of_pair (by assumption) ?_
      | apply State.mailDeliver_keeps | apply State.sendNak_keeps | apply State.modNzl_keeps | intro _
      | apply Good.ite_of | apply apply_ite_good | split | dsimp only | apply good_upd
    | exact Or.inr rfl | exact rfl

theorem State.mailRx_keeps {s : State} {n : Nat} {p : MailPkt} (hg : Good ev s) :
    Good ev (State.mailRx s n p) := by
  unfold State.mailRx
  repeat' first
    | with_reducible first
      | assumption | rfl | exact Or.inr rfl | exact Or.inl ‹_› | refine Good.of_pair (by assumption) ?_
      | apply State.mailFrag_keeps | apply State.rxRoute_keeps | apply State.passOn_keeps | intro _
      | apply Good.ite_of | apply apply_ite_good | split | dsimp only | apply good_upd
    | exact Or.inr rfl | exact rfl

theorem State.mailLost_keeps {s : State} {src : BitVec 12} {msgId : BitVec 16} (hg : Good ev s) :
    Good ev (State.mailLost s src msgId) := by
  unfold State.mailLost
  repeat' first
    | with_reducible first
      | assumption | rfl | exact Or.inr rfl | exact Or.inl ‹_› | refine Good.of_pair (by assumption) ?_
      | apply State.sendNak_keeps | apply State.modNzl_keeps | intro _ | apply Good.ite_of | apply apply_ite_good
      | split | dsimp only | apply good_upd
    | exact Or.inr rfl | exact rfl

theorem State.originate_keeps {s : State} {p : Pkt} (hg : Good ev s) :
    Good ev (State.originate s p) := by
  unfold State.originate
  repeat' first
    | with_reducible first
      | assumption | rfl | exact Or.inr rfl | exact Or.inl ‹_› | refine Good.of_pair (by assumption) ?_
      | apply State.sendOn_keeps | intro _ | apply Good.ite_of | apply apply_ite_good | split | dsimp only
      | apply good_upd
    | exact Or.inr rfl | exact rfl

theorem State.mailSend_keeps {s : State} {dest : Nat} {mtype : Nat} {tag : Nat} {msg : List Byte} {send : Nat × Nat}
    (hg : Good ev s) :
    Good ev (State.mailSend s dest mtype tag msg send) := by
  unfold State.mailSend
  repeat' first
    | with_reducible first
      | assumption | rfl | exact Or.inr rfl | exact Or.inl ‹_› | refine Good.of_pair (by assumption) ?_
      | apply State.originate_keeps | apply State.mailDeliver_keeps | apply State.modNzl_keeps
      | apply State.each_keeps | intro _ | apply Good.ite_of | apply apply_ite_good | split | dsimp only
      | apply good_upd
    | exact Or.inr rfl | exact rfl

theorem State.launchTarget_keeps {s : State} {p : LaunchPkt} {ring : Nat} {k : Nat} {chan : Nat} (hg : Good ev s) :
    Good ev (State.launchTarget s p ring k chan).2 := by
  unfold State.launchTarget
  repeat' first
    | with_reducible first
      | assumption | rfl | exact Or.inr rfl | exact Or.inl ‹_› | refine Good.of_pair (by assumption) ?_
      | apply State.finishOrd_keeps | apply State.modRing_keeps | intro _ | apply Good.ite_of | apply apply_ite_good
      | split | dsimp only | apply good_upd
    | exact Or.inr rfl | exact rfl

theorem State.launchHere_keeps {s : State} {p : LaunchPkt} (hg : Good ev s) : Good ev (s.launchHere p) := by
  unfold State.launchHere
  extract_lets ring chans mask nak
  have hn : ∀ t c l, Good ev t → Good ev (nak t c l) := by
    intro t c l ht
    dsimp only [nak]
    split
    · exact ht
    · exact State.sendNak_keeps ht
  split
  · exact hn _ _ _ (State.bumpBy_keeps hg)
  · have hf : ∀ (l : List Nat) (a : State × List Nat × List Nat), Good ev a.1 →
        Good ev (l.foldl (fun (a : State × List Nat × List Nat) n =>
          let (s, gone, busy) := a
          if s.ringFree ring ≤ (s.ring ring).reserved then (s.bump (wNzl + 0x38), gone, busy ++ [n])
          else
            let (r, s) := s.launchTarget p ring 0 n
            (s, if r then gone ++ [n] else gone, busy)) a).1 := by
      intro l
      induction l with
      | nil => exact fun a h => h
      | cons n l ih =>
        intro a h
        refine ih _ ?_
        obtain ⟨t, gone, busy⟩ := a
        dsimp only
        split
        · exact State.bump_keeps h
        · exact State.launchTarget_keeps h
    exact hn _ _ _ (hn _ _ _ (hf chans (s, [], []) hg))

theorem State.launchRx_keeps {s : State} {n : Nat} {p : LaunchPkt} (hg : Good ev s) :
    Good ev (State.launchRx s n p) := by
  unfold State.launchRx
  repeat' first
    | with_reducible first
      | assumption | rfl | exact Or.inr rfl | exact Or.inl ‹_› | refine Good.of_pair (by assumption) ?_
      | apply State.launchHere_keeps | apply State.rxRoute_keeps | apply State.passOn_keeps | intro _
      | apply Good.ite_of | apply apply_ite_good | split | dsimp only | apply good_upd
    | exact Or.inr rfl | exact rfl

theorem State.launchSend_keeps {s : State} {p : LaunchPkt} {send : Nat × Nat} (hg : Good ev s) :
    Good ev (State.launchSend s p send) := by
  unfold State.launchSend
  repeat' first
    | with_reducible first
      | assumption | rfl | exact Or.inr rfl | exact Or.inl ‹_› | refine Good.of_pair (by assumption) ?_
      | apply State.originate_keeps | apply State.modNzl_keeps | intro _ | apply Good.ite_of | apply apply_ite_good
      | split | dsimp only | apply good_upd
    | exact Or.inr rfl | exact rfl

theorem State.nakRx_keeps {s : State} {n : Nat} {p : NakPkt} (hg : Good ev s) :
    Good ev (State.nakRx s n p) := by
  unfold State.nakRx
  repeat' first
    | with_reducible first
      | assumption | rfl | exact Or.inr rfl | exact Or.inl ‹_› | refine Good.of_pair (by assumption) ?_
      | apply State.rxRoute_keeps | apply State.forward_keeps | apply State.notice_keeps | intro _ | apply Good.ite_of
      | apply apply_ite_good | split | dsimp only | apply good_upd
    | exact Or.inr rfl | exact rfl

theorem State.sendGone_keeps {s : State} {send : Nat × Nat} (hg : Good ev s) :
    Good ev (State.sendGone s send) := by
  unfold State.sendGone
  repeat' first
    | with_reducible first
      | assumption | rfl | exact Or.inr rfl | exact Or.inl ‹_› | refine Good.of_pair (by assumption) ?_
      | apply State.each_keeps | apply State.modLink_keeps | intro _ | apply Good.ite_of | apply apply_ite_good
      | split | dsimp only | apply good_upd
    | exact Or.inr rfl | exact rfl

theorem State.linkRetireEnd_keeps {s : State} {n : Nat} {since : Nat} (hg : Good ev s) :
    Good ev (State.linkRetireEnd s n since) := by
  unfold State.linkRetireEnd
  repeat' first
    | with_reducible first
      | assumption | rfl | exact Or.inr rfl | exact Or.inl ‹_› | refine Good.of_pair (by assumption) ?_
      | apply State.sendGone_keeps | apply State.refusePkt_keeps | apply State.freeInput_keeps
      | apply State.complete_keeps | apply State.modDesc_keeps | apply State.each_keeps | apply State.setLink_keeps
      | intro _ | apply Good.ite_of | apply apply_ite_good | split | dsimp only | apply good_upd
    | exact Or.inr rfl | exact rfl

end Sys2Proof.Machine
end

