-- ==== Sys2Proof/Laws/KeepNode.lean ====
section
/-!
SUPPORT. What every operation of Machine/Node.lean keeps (Laws/Keep.lean).
-/

namespace Sys2Proof.Machine

variable {ev : Env}

theorem State.electSend_keeps {s : State} (hg : Good ev s) :
    Good ev (State.electSend s) := by
  unfold State.electSend
  repeat' first
    | with_reducible first
      | assumption | rfl | exact Or.inr rfl | exact Or.inl ‹_› | refine Good.of_pair (by assumption) ?_
      | apply State.linkPut_keeps | apply State.each_keeps | intro _ | apply Good.ite_of | apply apply_ite_good
      | split | dsimp only | apply good_upd
    | exact Or.inr rfl | exact rfl

theorem State.electEnter_keeps {s : State} (hg : Good ev s) :
    Good ev (State.electEnter s) := by
  unfold State.electEnter
  repeat' first
    | with_reducible first
      | assumption | rfl | exact Or.inr rfl | exact Or.inl ‹_› | refine Good.of_pair (by assumption) ?_
      | apply State.electSend_keeps | apply State.modNzl_keeps | intro _ | apply Good.ite_of | apply apply_ite_good
      | split | dsimp only | apply good_upd
    | exact Or.inr rfl | exact rfl

theorem State.nodeWake_keeps {s : State} (hg : Good ev s) :
    Good ev (State.nodeWake s) := by
  unfold State.nodeWake
  repeat' first
    | with_reducible first
      | assumption | rfl | exact Or.inr rfl | exact Or.inl ‹_› | refine Good.of_pair (by assumption) ?_
      | apply State.electEnter_keeps | intro _ | apply Good.ite_of | apply apply_ite_good | split | dsimp only
      | apply good_upd
    | exact Or.inr rfl | exact rfl

theorem State.nodeWritten_keeps {s : State} (hg : Good ev s) :
    Good ev (State.nodeWritten s) := by
  unfold State.nodeWritten
  repeat' first
    | with_reducible first
      | assumption | rfl | exact Or.inr rfl | exact Or.inl ‹_› | refine Good.of_pair (by assumption) ?_
      | apply State.nodeWake_keeps | apply State.modNzl_keeps | intro _ | apply Good.ite_of | apply apply_ite_good
      | split | dsimp only | apply good_upd
    | exact Or.inr rfl | exact rfl

theorem State.electRx_keeps {s : State} {n : Nat} {k : ElectKey} {dist : Nat} (hg : Good ev s) :
    Good ev (State.electRx s n k dist) := by
  unfold State.electRx
  repeat' first
    | with_reducible first
      | assumption | rfl | exact Or.inr rfl | exact Or.inl ‹_› | refine Good.of_pair (by assumption) ?_
      | apply State.electSend_keeps | apply State.rxPacket_keeps | apply State.modNzl_keeps | intro _
      | apply Good.ite_of | apply apply_ite_good | split | dsimp only | apply good_upd
    | exact Or.inr rfl | exact rfl

theorem State.discoverSend_keeps {s : State} {hop : Nat} {path : List (BitVec 3)} {links : List Nat} (hg : Good ev
    s) :
    Good ev (State.discoverSend s hop path links) := by
  unfold State.discoverSend
  repeat' first
    | with_reducible first
      | assumption | rfl | exact Or.inr rfl | exact Or.inl ‹_› | refine Good.of_pair (by assumption) ?_
      | apply good_foldl | apply good_foldl_snd | apply State.linkPut_keeps | apply State.each_keeps | intro _
      | apply Good.ite_of | apply apply_ite_good | split | dsimp only | apply good_upd
    | exact Or.inr rfl | exact rfl

theorem State.ftAdjust_keeps {s : State} {v : Int} (hg : Good ev s) :
    Good ev (State.ftAdjust s v) := by
  unfold State.ftAdjust
  repeat' first
    | with_reducible first
      | assumption | rfl | exact Or.inr rfl | exact Or.inl ‹_› | refine Good.of_pair (by assumption) ?_ | intro _
      | apply Good.ite_of | apply apply_ite_good | split | dsimp only | apply good_upd
    | exact Or.inr rfl | exact rfl

theorem State.rootRef_keeps {s : State} (hg : Good ev s) :
    Good ev (State.rootRef s) := by
  unfold State.rootRef
  repeat' first
    | with_reducible first
      | assumption | rfl | exact Or.inr rfl | exact Or.inl ‹_› | refine Good.of_pair (by assumption) ?_
      | apply State.fpllFollow_keeps | intro _ | apply Good.ite_of | apply apply_ite_good | split | dsimp only
      | apply good_upd
    | exact Or.inr rfl | exact rfl

theorem State.rootFollows_keeps {s : State} (hg : Good ev s) :
    Good ev (State.rootFollows s) := by
  unfold State.rootFollows
  repeat' first
    | with_reducible first
      | assumption | rfl | exact Or.inr rfl | exact Or.inl ‹_› | refine Good.of_pair (by assumption) ?_
      | apply State.rootRef_keeps | intro _ | apply Good.ite_of | apply apply_ite_good | split | dsimp only
      | apply good_upd
    | exact Or.inr rfl | exact rfl

theorem State.rootTime_keeps {s : State} (hg : Good ev s) :
    Good ev (State.rootTime s) := by
  unfold State.rootTime
  repeat' first
    | with_reducible first
      | assumption | rfl | exact Or.inr rfl | exact Or.inl ‹_› | refine Good.of_pair (by assumption) ?_
      | apply State.rootRef_keeps | apply State.ftAdjust_keeps | apply State.modNzl_keeps | intro _
      | apply Good.ite_of | apply apply_ite_good | split | dsimp only | apply good_upd
    | exact Or.inr rfl | exact rfl

theorem State.enumEnter_keeps {s : State} (hg : Good ev s) :
    Good ev (State.enumEnter s) := by
  unfold State.enumEnter
  repeat' first
    | with_reducible first
      | assumption | rfl | exact Or.inr rfl | exact Or.inl ‹_› | refine Good.of_pair (by assumption) ?_
      | apply State.rootTime_keeps | apply State.discoverSend_keeps | apply State.modNzl_keeps | intro _
      | apply Good.ite_of | apply apply_ite_good | split | dsimp only | apply good_upd
    | exact Or.inr rfl | exact rfl

theorem State.electDecide_keeps {s : State} (hg : Good ev s) :
    Good ev (State.electDecide s) := by
  unfold State.electDecide
  repeat' first
    | with_reducible first
      | assumption | rfl | exact Or.inr rfl | exact Or.inl ‹_› | refine Good.of_pair (by assumption) ?_
      | apply State.enumEnter_keeps | apply State.modNzl_keeps | apply State.raise_keeps | intro _ | apply Good.ite_of
      | apply apply_ite_good | split | dsimp only | apply good_upd
    | exact Or.inr rfl | exact rfl

theorem State.discoverRx_keeps {s : State} {n : Nat} {gen : BitVec 16} {hop : Nat} {path : List (BitVec 3)} (hg :
    Good ev s) :
    Good ev (State.discoverRx s n gen hop path) := by
  unfold State.discoverRx
  repeat' first
    | with_reducible first
      | assumption | rfl | exact Or.inr rfl | exact Or.inl ‹_› | refine Good.of_pair (by assumption) ?_
      | apply State.discoverSend_keeps | apply State.rxPacket_keeps | apply State.modNzl_keeps | intro _
      | apply Good.ite_of | apply apply_ite_good | split | dsimp only | apply good_upd
    | exact Or.inr rfl | exact rfl

theorem State.routeSend_keeps {s : State} {p : Pkt} {route : List Nat} (hg : Good ev s) :
    Good ev (State.routeSend s p route) := by
  unfold State.routeSend
  repeat' first
    | with_reducible first
      | assumption | rfl | exact Or.inr rfl | exact Or.inl ‹_› | refine Good.of_pair (by assumption) ?_
      | apply State.putOrRefuse_keeps | intro _ | apply Good.ite_of | apply apply_ite_good | split | dsimp only
      | apply good_upd
    | exact Or.inr rfl | exact rfl

theorem State.reportSend_keeps {s : State} (hg : Good ev s) :
    Good ev (State.reportSend s) := by
  unfold State.reportSend
  repeat' first
    | with_reducible first
      | assumption | rfl | exact Or.inr rfl | exact Or.inl ‹_› | refine Good.of_pair (by assumption) ?_
      | apply State.routeSend_keeps | apply State.modNzl_keeps | intro _ | apply Good.ite_of | apply apply_ite_good
      | split | dsimp only | apply good_upd
    | exact Or.inr rfl | exact rfl

theorem State.routedRx_keeps {s : State} {h : Hdr} {p : Pkt} {here : State → State} (hg : Good ev s) (hghere : ∀ t,
    Good ev t → Good ev (here t)) :
    Good ev (State.routedRx s h p here) := by
  unfold State.routedRx
  repeat' first
    | with_reducible first
      | assumption | rfl | exact Or.inr rfl | exact Or.inl ‹_› | refine Good.of_pair (by assumption) ?_
      | apply State.rxRoute_keeps | refine State.srcRoute_keeps ?_ (by assumption) | apply hghere | intro _
      | apply Good.ite_of | apply apply_ite_good | split | dsimp only | apply good_upd
    | exact Or.inr rfl | exact rfl

theorem State.reportRx_keeps {s : State} {h : Hdr} {r : ReportPkt} (hg : Good ev s) :
    Good ev (State.reportRx s h r) := by
  unfold State.reportRx
  repeat' first
    | with_reducible first
      | assumption | rfl | exact Or.inr rfl | exact Or.inl ‹_› | refine Good.of_pair (by assumption) ?_
      | apply State.routedRx_keeps | apply State.modNzl_keeps | intro _ | apply Good.ite_of | apply apply_ite_good
      | split | dsimp only | apply good_upd
    | exact Or.inr rfl | exact rfl

theorem State.configSend_keeps {s : State} {x : NodeRec} (hg : Good ev s) :
    Good ev (State.configSend s x) := by
  unfold State.configSend
  repeat' first
    | with_reducible first
      | assumption | rfl | exact Or.inr rfl | exact Or.inl ‹_› | refine Good.of_pair (by assumption) ?_
      | apply State.routeSend_keeps | apply State.each_keeps | intro _ | apply Good.ite_of | apply apply_ite_good
      | split | dsimp only | apply good_upd
    | exact Or.inr rfl | exact rfl

theorem State.goLive_keeps {s : State} (hg : Good ev s) :
    Good ev (State.goLive s) := by
  unfold State.goLive
  repeat' first
    | with_reducible first
      | assumption | rfl | exact Or.inr rfl | exact Or.inl ‹_› | refine Good.of_pair (by assumption) ?_
      | apply State.modNzl_keeps | apply State.fpllFollow_keeps | apply State.raiseIf_keeps | apply State.raise_keeps
      | apply State.each_keeps | apply State.modLink_keeps | intro _ | apply Good.ite_of | apply apply_ite_good
      | split | dsimp only | apply good_upd
    | exact Or.inr rfl | exact rfl

theorem State.commitSend_keeps {s : State} (hg : Good ev s) :
    Good ev (State.commitSend s) := by
  unfold State.commitSend
  repeat' first
    | with_reducible first
      | assumption | rfl | exact Or.inr rfl | exact Or.inl ‹_› | refine Good.of_pair (by assumption) ?_
      | apply State.goLive_keeps | apply State.linkPut_keeps | apply State.modNzl_keeps | apply State.each_keeps
      | intro _ | apply Good.ite_of | apply apply_ite_good | split | dsimp only | apply good_upd
    | exact Or.inr rfl | exact rfl

theorem State.commitIfReady_keeps {s : State} (hg : Good ev s) :
    Good ev (State.commitIfReady s) := by
  unfold State.commitIfReady
  repeat' first
    | with_reducible first
      | assumption | rfl | exact Or.inr rfl | exact Or.inl ‹_› | refine Good.of_pair (by assumption) ?_
      | apply State.commitSend_keeps | intro _ | apply Good.ite_of | apply apply_ite_good | split | dsimp only
      | apply good_upd
    | exact Or.inr rfl | exact rfl

theorem State.configure_keeps {s : State} (hg : Good ev s) :
    Good ev (State.configure s) := by
  unfold State.configure
  repeat' first
    | with_reducible first
      | assumption | rfl | exact Or.inr rfl | exact Or.inl ‹_› | refine Good.of_pair (by assumption) ?_
      | apply State.commitIfReady_keeps | apply State.configSend_keeps | apply State.modNzl_keeps
      | apply State.each_keeps | intro _ | apply Good.ite_of | apply apply_ite_good | split | dsimp only
      | apply good_upd
    | exact Or.inr rfl | exact rfl

theorem State.collectEnd_keeps {s : State} (hg : Good ev s) :
    Good ev (State.collectEnd s) := by
  unfold State.collectEnd
  repeat' first
    | with_reducible first
      | assumption | rfl | exact Or.inr rfl | exact Or.inl ‹_› | refine Good.of_pair (by assumption) ?_
      | apply State.configure_keeps | intro _ | apply Good.ite_of | apply apply_ite_good | split | dsimp only
      | apply good_upd
    | exact Or.inr rfl | exact rfl

theorem State.ackRx_keeps {s : State} {h : Hdr} {gen : BitVec 16} {node : BitVec 64} (hg : Good ev s) :
    Good ev (State.ackRx s h gen node) := by
  unfold State.ackRx
  repeat' first
    | with_reducible first
      | assumption | rfl | exact Or.inr rfl | exact Or.inl ‹_› | refine Good.of_pair (by assumption) ?_
      | apply State.commitIfReady_keeps | apply State.routedRx_keeps | apply State.modNzl_keeps | intro _
      | apply Good.ite_of | apply apply_ite_good | split | dsimp only | apply good_upd
    | exact Or.inr rfl | exact rfl

theorem State.configResend_keeps {s : State} (hg : Good ev s) :
    Good ev (State.configResend s) := by
  unfold State.configResend
  repeat' first
    | with_reducible first
      | assumption | rfl | exact Or.inr rfl | exact Or.inl ‹_› | refine Good.of_pair (by assumption) ?_
      | apply State.configure_keeps | apply State.commitIfReady_keeps | apply State.configSend_keeps
      | apply State.modNzl_keeps | apply State.each_keeps | intro _ | apply Good.ite_of | apply apply_ite_good | split
      | dsimp only | apply good_upd
    | exact Or.inr rfl | exact rfl

theorem State.configRx_keeps {s : State} {h : Hdr} {gen : BitVec 16} {part : ConfigPart} (hg : Good ev s) :
    Good ev (State.configRx s h gen part) := by
  unfold State.configRx
  repeat' first
    | with_reducible first
      | assumption | rfl | exact Or.inr rfl | exact Or.inl ‹_› | refine Good.of_pair (by assumption) ?_
      | apply good_foldl | apply good_foldl_snd | apply State.routedRx_keeps | apply State.routeSend_keeps
      | apply State.modNzl_keeps | intro _ | apply Good.ite_of | apply apply_ite_good | split | dsimp only
      | apply good_upd
    | exact Or.inr rfl | exact rfl

theorem State.commitRx_keeps {s : State} {n : Nat} {gen : BitVec 16} {at_ : FT80} (hg : Good ev s) :
    Good ev (State.commitRx s n gen at_) := by
  unfold State.commitRx
  repeat' first
    | with_reducible first
      | assumption | rfl | exact Or.inr rfl | exact Or.inl ‹_› | refine Good.of_pair (by assumption) ?_
      | apply State.goLive_keeps | apply State.rxPacket_keeps | apply State.linkPut_keeps | apply State.modNzl_keeps
      | apply State.raise_keeps | apply State.each_keeps | intro _ | apply Good.ite_of | apply apply_ite_good | split
      | dsimp only | apply good_upd
    | exact Or.inr rfl | exact rfl

theorem State.commitReached_keeps {s : State} (hg : Good ev s) :
    Good ev (State.commitReached s) := by
  unfold State.commitReached
  repeat' first
    | with_reducible first
      | assumption | rfl | exact Or.inr rfl | exact Or.inl ‹_› | refine Good.of_pair (by assumption) ?_
      | apply State.goLive_keeps | intro _ | apply Good.ite_of | apply apply_ite_good | split | dsimp only
      | apply good_upd
    | exact Or.inr rfl | exact rfl

theorem State.beaconSend_keeps {s : State} (hg : Good ev s) :
    Good ev (State.beaconSend s) := by
  unfold State.beaconSend
  repeat' first
    | with_reducible first
      | assumption | rfl | exact Or.inr rfl | exact Or.inl ‹_› | refine Good.of_pair (by assumption) ?_
      | apply State.treeSend_keeps | apply State.modNzl_keeps | intro _ | apply Good.ite_of | apply apply_ite_good
      | split | dsimp only | apply good_upd
    | exact Or.inr rfl | exact rfl

theorem State.beaconRx_keeps {s : State} {n : Nat} {gen : BitVec 16} {rootAddr : BitVec 12} {die : BitVec 64} (hg :
    Good ev s) :
    Good ev (State.beaconRx s n gen rootAddr die) := by
  unfold State.beaconRx
  repeat' first
    | with_reducible first
      | assumption | rfl | exact Or.inr rfl | exact Or.inl ‹_› | refine Good.of_pair (by assumption) ?_
      | apply State.rxPacket_keeps | apply State.treeSend_keeps | apply State.modNzl_keeps | intro _
      | apply Good.ite_of | apply apply_ite_good | split | dsimp only | apply good_upd
    | exact Or.inr rfl | exact rfl

theorem State.beaconLost_keeps {s : State} (hg : Good ev s) :
    Good ev (State.beaconLost s) := by
  unfold State.beaconLost
  repeat' first
    | with_reducible first
      | assumption | rfl | exact Or.inr rfl | exact Or.inl ‹_› | refine Good.of_pair (by assumption) ?_
      | apply State.electEnter_keeps | apply State.raise_keeps | apply State.detect_keeps | intro _
      | apply Good.ite_of | apply apply_ite_good | split | dsimp only | apply good_upd
    | exact Or.inr rfl | exact rfl

theorem State.joinLost_keeps {s : State} (hg : Good ev s) :
    Good ev (State.joinLost s) := by
  unfold State.joinLost
  repeat' first
    | with_reducible first
      | assumption | rfl | exact Or.inr rfl | exact Or.inl ‹_› | refine Good.of_pair (by assumption) ?_
      | apply State.electEnter_keeps | intro _ | apply Good.ite_of | apply apply_ite_good | split | dsimp only
      | apply good_upd
    | exact Or.inr rfl | exact rfl

theorem State.topoChanged_keeps {s : State} (hg : Good ev s) :
    Good ev (State.topoChanged s) := by
  unfold State.topoChanged
  repeat' first
    | with_reducible first
      | assumption | rfl | exact Or.inr rfl | exact Or.inl ‹_› | refine Good.of_pair (by assumption) ?_
      | apply State.enumEnter_keeps | intro _ | apply Good.ite_of | apply apply_ite_good | split | dsimp only
      | apply good_upd
    | exact Or.inr rfl | exact rfl

theorem State.topoRx_keeps {s : State} {h : Hdr} {gen : BitVec 16} {link : Nat} {state : Nat} (hg : Good ev s) :
    Good ev (State.topoRx s h gen link state) := by
  unfold State.topoRx
  repeat' first
    | with_reducible first
      | assumption | rfl | exact Or.inr rfl | exact Or.inl ‹_› | refine Good.of_pair (by assumption) ?_
      | apply State.topoChanged_keeps | apply State.rxRoute_keeps | apply State.forward_keeps | intro _
      | apply Good.ite_of | apply apply_ite_good | split | dsimp only | apply good_upd
    | exact Or.inr rfl | exact rfl

theorem State.linkEnterUp_keeps {s : State} {n : Nat} (hg : Good ev s) :
    Good ev (State.linkEnterUp s n) := by
  unfold State.linkEnterUp
  repeat' first
    | with_reducible first
      | assumption | rfl | exact Or.inr rfl | exact Or.inl ‹_› | refine Good.of_pair (by assumption) ?_
      | apply State.topoChanged_keeps | apply State.nodeWake_keeps | apply State.electSend_keeps
      | apply State.topoSend_keeps | apply State.linkPump_keeps | apply State.raise_keeps | apply State.modLink_keeps
      | intro _ | apply Good.ite_of | apply apply_ite_good | split | dsimp only | apply good_upd
    | exact Or.inr rfl | exact rfl

theorem State.helloCheck_keeps {s : State} {n : Nat} (hg : Good ev s) :
    Good ev (State.helloCheck s n) := by
  unfold State.helloCheck
  repeat' first
    | with_reducible first
      | assumption | rfl | exact Or.inr rfl | exact Or.inl ‹_› | refine Good.of_pair (by assumption) ?_
      | apply State.linkEnterUp_keeps | intro _ | apply Good.ite_of | apply apply_ite_good | split | dsimp only
      | apply good_upd
    | exact Or.inr rfl | exact rfl

theorem State.helloRx_keeps {s : State} {n : Nat} {die : BitVec 64} {peerLink : BitVec 3} {cal : Bool} {c : Credits}
    (hg : Good ev s) :
    Good ev (State.helloRx s n die peerLink cal c) := by
  unfold State.helloRx
  repeat' first
    | with_reducible first
      | assumption | rfl | exact Or.inr rfl | exact Or.inl ‹_› | refine Good.of_pair (by assumption) ?_
      | apply State.helloCheck_keeps | apply State.helloOut_keeps | apply State.linkPump_keeps
      | apply State.setLink_keeps | intro _ | apply Good.ite_of | apply apply_ite_good | split | dsimp only
      | apply good_upd
    | exact Or.inr rfl | exact rfl

theorem State.helloSend_keeps {s : State} {n : Nat} (hg : Good ev s) :
    Good ev (State.helloSend s n) := by
  unfold State.helloSend
  repeat' first
    | with_reducible first
      | assumption | rfl | exact Or.inr rfl | exact Or.inl ‹_› | refine Good.of_pair (by assumption) ?_
      | apply State.helloCheck_keeps | apply State.helloOut_keeps | apply State.modLink_keeps | intro _
      | apply Good.ite_of | apply apply_ite_good | split | dsimp only | apply good_upd
    | exact Or.inr rfl | exact rfl

theorem State.linkWritten_keeps {s : State} {n : Nat} (hg : Good ev s) :
    Good ev (State.linkWritten s n) := by
  unfold State.linkWritten
  repeat' first
    | with_reducible first
      | assumption | rfl | exact Or.inr rfl | exact Or.inl ‹_› | refine Good.of_pair (by assumption) ?_
      | apply State.topoChanged_keeps | apply State.linkDropTo_keeps | intro _ | apply Good.ite_of
      | apply apply_ite_good | split | dsimp only | apply good_upd
    | exact Or.inr rfl | exact rfl

theorem State.blockLost_keeps {s : State} {n : Nat} (hg : Good ev s) :
    Good ev (State.blockLost s n) := by
  unfold State.blockLost
  repeat' first
    | with_reducible first
      | assumption | rfl | exact Or.inr rfl | exact Or.inl ‹_› | refine Good.of_pair (by assumption) ?_
      | apply State.topoChanged_keeps | apply State.linkDropTo_keeps | intro _ | apply Good.ite_of
      | apply apply_ite_good | split | dsimp only | apply good_upd
    | exact Or.inr rfl | exact rfl

theorem State.timeSend_keeps {s : State} {n : Nat} {stamp : BitVec 64} (hg : Good ev s) :
    Good ev (State.timeSend s n stamp) := by
  unfold State.timeSend
  repeat' first
    | with_reducible first
      | assumption | rfl | exact Or.inr rfl | exact Or.inl ‹_› | refine Good.of_pair (by assumption) ?_
      | apply State.emit_keeps | apply State.setLink_keeps | intro _ | apply Good.ite_of | apply apply_ite_good
      | split | dsimp only | apply good_upd
    | exact Or.inr rfl | exact rfl

theorem State.servo_keeps {s : State} {theta : Int} {first : Bool} (hg : Good ev s) :
    Good ev (State.servo s theta first) := by
  unfold State.servo
  repeat' first
    | with_reducible first
      | assumption | rfl | exact Or.inr rfl | exact Or.inl ‹_› | refine Good.of_pair (by assumption) ?_
      | apply State.modNzl_keeps | apply State.pendAdd_keeps | intro _ | apply Good.ite_of | apply apply_ite_good
      | split | dsimp only | apply good_upd
    | exact Or.inr rfl | exact rfl

theorem State.lockStep_keeps {s : State} {parentLocked : Bool} (hg : Good ev s) :
    Good ev (State.lockStep s parentLocked) := by
  unfold State.lockStep
  repeat' first
    | with_reducible first
      | assumption | rfl | exact Or.inr rfl | exact Or.inl ‹_› | refine Good.of_pair (by assumption) ?_
      | apply State.timeUnlock_keeps | apply State.modNzl_keeps | apply State.raise_keeps | intro _
      | apply Good.ite_of | apply apply_ite_good | split | dsimp only | apply good_upd
    | exact Or.inr rfl | exact rfl

theorem State.ftCorrect_keeps {s : State} {theta : Int} (hg : Good ev s) :
    Good ev (State.ftCorrect s theta) := by
  unfold State.ftCorrect
  repeat' first
    | with_reducible first
      | assumption | rfl | exact Or.inr rfl | exact Or.inl ‹_› | refine Good.of_pair (by assumption) ?_
      | apply State.ftAdjust_keeps | apply State.modNzl_keeps | intro _ | apply Good.ite_of | apply apply_ite_good
      | split | dsimp only | apply good_upd
    | exact Or.inr rfl | exact rfl

theorem State.parentMeasure_keeps {s : State} {theta : Int} {parentLocked : Bool} (hg : Good ev s) :
    Good ev (State.parentMeasure s theta parentLocked) := by
  unfold State.parentMeasure
  repeat' first
    | with_reducible first
      | assumption | rfl | exact Or.inr rfl | exact Or.inl ‹_› | refine Good.of_pair (by assumption) ?_
      | apply State.ftCorrect_keeps | apply State.lockStep_keeps | apply State.servo_keeps | apply State.modNzl_keeps
      | apply State.raise_keeps | apply State.detect_keeps | intro _ | apply Good.ite_of | apply apply_ite_good
      | split | dsimp only | apply good_upd
    | exact Or.inr rfl | exact rfl

theorem State.timeRx_keeps {s : State} {n : Nat} {p : TimePkt} (hg : Good ev s) :
    Good ev (State.timeRx s n p) := by
  unfold State.timeRx
  repeat' first
    | with_reducible first
      | assumption | rfl | exact Or.inr rfl | exact Or.inl ‹_› | refine Good.of_pair (by assumption) ?_
      | apply State.parentMeasure_keeps | apply State.servo_keeps | apply State.timeUnlock_keeps
      | apply State.modLink_keeps | apply State.setLink_keeps | intro _ | apply Good.ite_of | apply apply_ite_good
      | split | dsimp only | apply good_upd
    | exact Or.inr rfl | exact rfl

theorem State.ppsEdge_keeps {s : State} {offset : Nat} (hg : Good ev s) :
    Good ev (State.ppsEdge s offset) := by
  unfold State.ppsEdge
  repeat' first
    | with_reducible first
      | assumption | rfl | exact Or.inr rfl | exact Or.inl ‹_› | refine Good.of_pair (by assumption) ?_
      | apply State.servo_keeps | apply State.ftAdjust_keeps | apply State.modNzl_keeps | apply State.raise_keeps
      | intro _ | apply Good.ite_of | apply apply_ite_good | split | dsimp only | apply good_upd
    | exact Or.inr rfl | exact rfl

theorem State.ppsLost_keeps {s : State} (hg : Good ev s) :
    Good ev (State.ppsLost s) := by
  unfold State.ppsLost
  repeat' first
    | with_reducible first
      | assumption | rfl | exact Or.inr rfl | exact Or.inl ‹_› | refine Good.of_pair (by assumption) ?_
      | apply State.modNzl_keeps | apply State.raise_keeps | intro _ | apply Good.ite_of | apply apply_ite_good
      | split | dsimp only | apply good_upd
    | exact Or.inr rfl | exact rfl

theorem State.holdEnd_keeps {s : State} (hg : Good ev s) :
    Good ev (State.holdEnd s) := by
  unfold State.holdEnd
  repeat' first
    | with_reducible first
      | assumption | rfl | exact Or.inr rfl | exact Or.inl ‹_› | refine Good.of_pair (by assumption) ?_
      | apply State.timeUnlock_keeps | apply State.modNzl_keeps | intro _ | apply Good.ite_of | apply apply_ite_good
      | split | dsimp only | apply good_upd
    | exact Or.inr rfl | exact rfl

theorem State.linkSignal_keeps {s : State} {n : Nat} (hg : Good ev s) :
    Good ev (State.linkSignal s n) := by
  unfold State.linkSignal
  repeat' first
    | with_reducible first
      | assumption | rfl | exact Or.inr rfl | exact Or.inl ‹_› | refine Good.of_pair (by assumption) ?_
      | apply State.modLink_keeps | intro _ | apply Good.ite_of | apply apply_ite_good | split | dsimp only
      | apply good_upd
    | exact Or.inr rfl | exact rfl

theorem State.linkTrained_keeps {s : State} {n : Nat} (hg : Good ev s) :
    Good ev (State.linkTrained s n) := by
  unfold State.linkTrained
  repeat' first
    | with_reducible first
      | assumption | rfl | exact Or.inr rfl | exact Or.inl ‹_› | refine Good.of_pair (by assumption) ?_
      | apply State.modLink_keeps | intro _ | apply Good.ite_of | apply apply_ite_good | split | dsimp only
      | apply good_upd
    | exact Or.inr rfl | exact rfl

theorem State.trainLate_keeps {s : State} {n : Nat} (hg : Good ev s) :
    Good ev (State.trainLate s n) := by
  unfold State.trainLate
  repeat' first
    | with_reducible first
      | assumption | rfl | exact Or.inr rfl | exact Or.inl ‹_› | refine Good.of_pair (by assumption) ?_
      | apply State.linkDropTo_keeps | apply State.raise_keeps | apply State.detect_keeps | intro _
      | apply Good.ite_of | apply apply_ite_good | split | dsimp only | apply good_upd
    | exact Or.inr rfl | exact rfl

theorem State.helloLate_keeps {s : State} {n : Nat} (hg : Good ev s) :
    Good ev (State.helloLate s n) := by
  unfold State.helloLate
  repeat' first
    | with_reducible first
      | assumption | rfl | exact Or.inr rfl | exact Or.inl ‹_› | refine Good.of_pair (by assumption) ?_
      | apply State.linkDropTo_keeps | intro _ | apply Good.ite_of | apply apply_ite_good | split | dsimp only
      | apply good_upd
    | exact Or.inr rfl | exact rfl

theorem State.linkTurn_keeps {s : State} {n : Nat} (hg : Good ev s) :
    Good ev (State.linkTurn s n) := by
  unfold State.linkTurn
  repeat' first
    | with_reducible first
      | assumption | rfl | exact Or.inr rfl | exact Or.inl ‹_› | refine Good.of_pair (by assumption) ?_
      | apply State.helloLate_keeps | apply State.trainLate_keeps | apply State.helloSend_keeps | intro _
      | apply Good.ite_of | apply apply_ite_good | split | dsimp only | apply good_upd
    | exact Or.inr rfl | exact rfl

theorem State.nodeTurn_keeps {s : State} (hg : Good ev s) :
    Good ev (State.nodeTurn s) := by
  unfold State.nodeTurn
  repeat' first
    | with_reducible first
      | assumption | rfl | exact Or.inr rfl | exact Or.inl ‹_› | refine Good.of_pair (by assumption) ?_
      | apply State.joinLost_keeps | apply State.beaconLost_keeps | apply State.beaconSend_keeps
      | apply State.configResend_keeps | apply State.collectEnd_keeps | apply State.electDecide_keeps | intro _
      | apply Good.ite_of | apply apply_ite_good | split | dsimp only | apply good_upd
    | exact Or.inr rfl | exact rfl

theorem State.fabricTurn_keeps {s : State} (hg : Good ev s) :
    Good ev (State.fabricTurn s) := by
  unfold State.fabricTurn
  repeat' first
    | with_reducible first
      | assumption | rfl | exact Or.inr rfl | exact Or.inl ‹_› | refine Good.of_pair (by assumption) ?_
      | apply State.nodeTurn_keeps | apply State.linkTurn_keeps | apply State.holdEnd_keeps
      | apply State.ppsLost_keeps | apply State.commitReached_keeps | apply State.reportSend_keeps
      | apply State.mailLost_keeps | apply State.each_keeps | intro _ | apply Good.ite_of | apply apply_ite_good
      | split | dsimp only | apply good_upd
    | exact Or.inr rfl | exact rfl

end Sys2Proof.Machine
end

