-- ==== Sys2Proof/Laws/KeepPll.lean ====
section
/-!
SUPPORT. What every operation of Machine/Pll.lean keeps (Laws/Keep.lean).
-/

namespace Sys2Proof.Machine

variable {ev : Env}

theorem State.tickRunFell_keeps {s : State} (hg : Good ev s) :
    Good ev (State.tickRunFell s) := by
  unfold State.tickRunFell
  repeat' first
    | with_reducible first
      | assumption | rfl | exact Or.inr rfl | exact Or.inl ‹_› | refine Good.of_pair (by assumption) ?_ | intro _
      | apply Good.ite_of | apply apply_ite_good | split | dsimp only | apply good_upd
    | exact Or.inr rfl | exact rfl

theorem State.clearTickRun_keeps {s : State} (hg : Good ev s) :
    Good ev (State.clearTickRun s) := by
  unfold State.clearTickRun
  repeat' first
    | with_reducible first
      | assumption | rfl | exact Or.inr rfl | exact Or.inl ‹_› | refine Good.of_pair (by assumption) ?_
      | apply State.tickRunFell_keeps | apply State.setFld_keeps | intro _ | apply Good.ite_of | apply apply_ite_good
      | split | dsimp only | apply good_upd
    | exact Or.inr rfl | exact rfl

theorem State.spllConsumers_keeps {s : State} (hg : Good ev s) :
    Good ev (State.spllConsumers s) := by
  unfold State.spllConsumers
  repeat' first
    | with_reducible first
      | assumption | rfl | exact Or.inr rfl | exact Or.inl ‹_› | refine Good.of_pair (by assumption) ?_
      | apply State.clearTickRun_keeps | apply State.endBurst_keeps | apply State.modClk_keeps
      | apply State.republish_keeps | apply State.each_keeps | intro _ | apply Good.ite_of | apply apply_ite_good
      | split | dsimp only | apply good_upd
    | exact Or.inr rfl | exact rfl

theorem State.mpllConsumers_keeps {s : State} (hg : Good ev s) :
    Good ev (State.mpllConsumers s) := by
  unfold State.mpllConsumers
  repeat' first
    | with_reducible first
      | assumption | rfl | exact Or.inr rfl | exact Or.inl ‹_› | refine Good.of_pair (by assumption) ?_
      | apply State.modClk_keeps | apply State.morAbort_keeps | apply State.each_keeps | apply State.modChan_keeps
      | intro _ | apply Good.ite_of | apply apply_ite_good | split | dsimp only | apply good_upd
    | exact Or.inr rfl | exact rfl

theorem State.fpllConsumers_keeps {s : State} (hg : Good ev s) :
    Good ev (State.fpllConsumers s) := by
  unfold State.fpllConsumers
  repeat' first
    | with_reducible first
      | assumption | rfl | exact Or.inr rfl | exact Or.inl ‹_› | refine Good.of_pair (by assumption) ?_
      | apply State.linksDrop_keeps | apply State.refLost_keeps | apply State.modClk_keeps | intro _
      | apply Good.ite_of | apply apply_ite_good | split | dsimp only | apply good_upd
    | exact Or.inr rfl | exact rfl

theorem State.hpllConsumers_keeps {s : State} (hg : Good ev s) :
    Good ev (State.hpllConsumers s) := by
  unfold State.hpllConsumers
  repeat' first
    | with_reducible first
      | assumption | rfl | exact Or.inr rfl | exact Or.inl ‹_› | refine Good.of_pair (by assumption) ?_
      | apply State.loopBypass_keeps | apply State.modClk_keeps | intro _ | apply Good.ite_of | apply apply_ite_good
      | split | dsimp only | apply good_upd
    | exact Or.inr rfl | exact rfl

theorem State.pllConsumers_keeps {s : State} {p : Pll} (hg : Good ev s) :
    Good ev (State.pllConsumers s p) := by
  unfold State.pllConsumers
  repeat' first
    | with_reducible first
      | assumption | rfl | exact Or.inr rfl | exact Or.inl ‹_› | refine Good.of_pair (by assumption) ?_
      | apply State.hpllConsumers_keeps | apply State.fpllConsumers_keeps | apply State.mpllConsumers_keeps
      | apply State.spllConsumers_keeps | apply State.modClk_keeps | intro _ | apply Good.ite_of
      | apply apply_ite_good | split | dsimp only | apply good_upd
    | exact Or.inr rfl | exact rfl

theorem State.pllBypass_keeps {s : State} {p : Pll} (hg : Good ev s) :
    Good ev (State.pllBypass s p) := by
  unfold State.pllBypass
  repeat' first
    | with_reducible first
      | assumption | rfl | exact Or.inr rfl | exact Or.inl ‹_› | refine Good.of_pair (by assumption) ?_
      | apply State.pllConsumers_keeps | apply State.pllTo_keeps | apply State.pllEvent_keeps
      | apply State.detect_keeps | intro _ | apply Good.ite_of | apply apply_ite_good | split | dsimp only
      | apply good_upd
    | exact Or.inr rfl | exact rfl

theorem State.pllOff_keeps {s : State} {p : Pll} (hg : Good ev s) :
    Good ev (State.pllOff s p) := by
  unfold State.pllOff
  repeat' first
    | with_reducible first
      | assumption | rfl | exact Or.inr rfl | exact Or.inl ‹_› | refine Good.of_pair (by assumption) ?_
      | apply State.pllConsumers_keeps | apply State.pllTo_keeps | apply State.modClk_keeps | apply State.modPll_keeps
      | intro _ | apply Good.ite_of | apply apply_ite_good | split | dsimp only | apply good_upd
    | exact Or.inr rfl | exact rfl

theorem State.pllGiveUp_keeps {s : State} {p : Pll} (hg : Good ev s) :
    Good ev (State.pllGiveUp s p) := by
  unfold State.pllGiveUp
  repeat' first
    | with_reducible first
      | assumption | rfl | exact Or.inr rfl | exact Or.inl ‹_› | refine Good.of_pair (by assumption) ?_
      | apply State.pllOff_keeps | apply State.setFld_keeps | intro _ | apply Good.ite_of | apply apply_ite_good
      | split | dsimp only | apply good_upd
    | exact Or.inr rfl | exact rfl

theorem State.searchFail_keeps {s : State} {p : Pll} (hg : Good ev s) :
    Good ev (State.searchFail s p) := by
  unfold State.searchFail
  repeat' first
    | with_reducible first
      | assumption | rfl | exact Or.inr rfl | exact Or.inl ‹_› | refine Good.of_pair (by assumption) ?_
      | apply State.pllGiveUp_keeps | apply State.pllEvent_keeps | intro _ | apply Good.ite_of | apply apply_ite_good
      | split | dsimp only | apply good_upd
    | exact Or.inr rfl | exact rfl

theorem State.setEntry_keeps {s : State} {i : Nat} {e : BitVec 128} (hg : Good ev s) :
    Good ev (State.setEntry s i e) := by
  unfold State.setEntry
  repeat' first
    | with_reducible first
      | assumption | rfl | exact Or.inr rfl | exact Or.inl ‹_› | refine Good.of_pair (by assumption) ?_
      | apply State.modClk_keeps | intro _ | apply Good.ite_of | apply apply_ite_good | split | dsimp only
      | apply good_upd
    | exact Or.inr rfl | exact rfl

theorem State.idleSearchDone_keeps {s : State} {found : Option SearchResult} (hg : Good ev s) :
    Good ev (State.idleSearchDone s found) := by
  unfold State.idleSearchDone
  repeat' first
    | with_reducible first
      | assumption | rfl | exact Or.inr rfl | exact Or.inl ‹_› | refine Good.of_pair (by assumption) ?_
      | apply State.setEntry_keeps | apply State.pllEvent_keeps | apply State.modClk_keeps | intro _
      | apply Good.ite_of | apply apply_ite_good | split | dsimp only | apply good_upd
    | exact Or.inr rfl | exact rfl

theorem State.searchDone_keeps {s : State} {p : Pll} {found : Option SearchResult} (hg : Good ev s) :
    Good ev (State.searchDone s p found) := by
  unfold State.searchDone
  repeat' first
    | with_reducible first
      | assumption | rfl | exact Or.inr rfl | exact Or.inl ‹_› | refine Good.of_pair (by assumption) ?_
      | apply State.setEntry_keeps | apply State.searchFail_keeps | apply State.pllEvent_keeps
      | apply State.modClk_keeps | apply State.modPll_keeps | intro _ | apply Good.ite_of | apply apply_ite_good
      | split | dsimp only | apply good_upd
    | exact Or.inr rfl | exact rfl

theorem State.spllTake_keeps {s : State} (hg : Good ev s) :
    Good ev (State.spllTake s) := by
  unfold State.spllTake
  repeat' first
    | with_reducible first
      | assumption | rfl | exact Or.inr rfl | exact Or.inl ‹_› | refine Good.of_pair (by assumption) ?_
      | apply State.outputsRestart_keeps | apply State.modClk_keeps | apply State.republish_keeps | intro _
      | apply Good.ite_of | apply apply_ite_good | split | dsimp only | apply good_upd
    | exact Or.inr rfl | exact rfl

theorem State.pllReturn_keeps {s : State} {p : Pll} (hg : Good ev s) :
    Good ev (State.pllReturn s p) := by
  unfold State.pllReturn
  repeat' first
    | with_reducible first
      | assumption | rfl | exact Or.inr rfl | exact Or.inl ‹_› | refine Good.of_pair (by assumption) ?_
      | apply State.spllTake_keeps | apply State.loadInc_keeps | apply State.modClk_keeps
      | apply State.recoverCheck_keeps | apply State.trainBegin_keeps | apply State.each_keeps | intro _
      | apply Good.ite_of | apply apply_ite_good | split | dsimp only | apply good_upd
    | exact Or.inr rfl | exact rfl

theorem State.pllLocked_keeps {s : State} {p : Pll} {err : Word} (hg : Good ev s) :
    Good ev (State.pllLocked s p err) := by
  unfold State.pllLocked
  repeat' first
    | with_reducible first
      | assumption | rfl | exact Or.inr rfl | exact Or.inl ‹_› | refine Good.of_pair (by assumption) ?_
      | apply State.pllReturn_keeps | apply State.modPll_keeps | intro _ | apply Good.ite_of | apply apply_ite_good
      | split | dsimp only | apply good_upd
    | exact Or.inr rfl | exact rfl

theorem State.acquireLate_keeps {s : State} {p : Pll} (hg : Good ev s) :
    Good ev (State.acquireLate s p) := by
  unfold State.acquireLate
  repeat' first
    | with_reducible first
      | assumption | rfl | exact Or.inr rfl | exact Or.inl ‹_› | refine Good.of_pair (by assumption) ?_
      | apply State.searchFail_keeps | apply State.modClk_keeps | apply State.setPll_keeps | intro _
      | apply Good.ite_of | apply apply_ite_good | split | dsimp only | apply good_upd
    | exact Or.inr rfl | exact rfl

theorem State.lockLost_keeps {s : State} {p : Pll} {err : Word} (hg : Good ev s) :
    Good ev (State.lockLost s p err) := by
  unfold State.lockLost
  repeat' first
    | with_reducible first
      | assumption | rfl | exact Or.inr rfl | exact Or.inl ‹_› | refine Good.of_pair (by assumption) ?_
      | apply State.pllBypass_keeps | apply State.pllEvent_keeps | apply State.setPll_keeps | intro _
      | apply Good.ite_of | apply apply_ite_good | split | dsimp only | apply good_upd
    | exact Or.inr rfl | exact rfl

theorem State.bypassRetry_keeps {s : State} {p : Pll} (hg : Good ev s) :
    Good ev (State.bypassRetry s p) := by
  unfold State.bypassRetry
  repeat' first
    | with_reducible first
      | assumption | rfl | exact Or.inr rfl | exact Or.inl ‹_› | refine Good.of_pair (by assumption) ?_
      | apply State.pllSearch_keeps | intro _ | apply Good.ite_of | apply apply_ite_good | split | dsimp only
      | apply good_upd
    | exact Or.inr rfl | exact rfl

theorem State.holdExit_keeps {s : State} {p : Pll} {diff : Int} (hg : Good ev s) :
    Good ev (State.holdExit s p diff) := by
  unfold State.holdExit
  repeat' first
    | with_reducible first
      | assumption | rfl | exact Or.inr rfl | exact Or.inl ‹_› | refine Good.of_pair (by assumption) ?_
      | apply State.pendAdd_keeps | apply State.modPll_keeps | intro _ | apply Good.ite_of | apply apply_ite_good
      | split | dsimp only | apply good_upd
    | exact Or.inr rfl | exact rfl

theorem State.holdExpired_keeps {s : State} {p : Pll} (hg : Good ev s) :
    Good ev (State.holdExpired s p) := by
  unfold State.holdExpired
  repeat' first
    | with_reducible first
      | assumption | rfl | exact Or.inr rfl | exact Or.inl ‹_› | refine Good.of_pair (by assumption) ?_
      | apply State.pllBypass_keeps | intro _ | apply Good.ite_of | apply apply_ite_good | split | dsimp only
      | apply good_upd
    | exact Or.inr rfl | exact rfl

theorem State.hopStart_keeps {s : State} {i : Nat} (hg : Good ev s) :
    Good ev (State.hopStart s i) := by
  unfold State.hopStart
  repeat' first
    | with_reducible first
      | assumption | rfl | exact Or.inr rfl | exact Or.inl ‹_› | refine Good.of_pair (by assumption) ?_
      | apply State.searchAbort_keeps | apply State.modClk_keeps | intro _ | apply Good.ite_of | apply apply_ite_good
      | split | dsimp only | apply good_upd
    | exact Or.inr rfl | exact rfl

theorem State.hopDecide_keeps {s : State} {qualified : Bool} (hg : Good ev s) :
    Good ev (State.hopDecide s qualified) := by
  unfold State.hopDecide
  repeat' first
    | with_reducible first
      | assumption | rfl | exact Or.inr rfl | exact Or.inl ‹_› | refine Good.of_pair (by assumption) ?_
      | apply State.hopFail_keeps | apply State.modClk_keeps | intro _ | apply Good.ite_of | apply apply_ite_good
      | split | dsimp only | apply good_upd
    | exact Or.inr rfl | exact rfl

theorem State.ncoRescale_keeps {s : State} {n : Nat} {old : Nat} {new : Nat} (hg : Good ev s) :
    Good ev (State.ncoRescale s n old new) := by
  unfold State.ncoRescale
  repeat' first
    | with_reducible first
      | assumption | rfl | exact Or.inr rfl | exact Or.inl ‹_› | refine Good.of_pair (by assumption) ?_
      | apply State.setSeq_keeps | intro _ | apply Good.ite_of | apply apply_ite_good | split | dsimp only
      | apply good_upd
    | exact Or.inr rfl | exact rfl

theorem State.linksAtPoint_keeps {s : State} {x : Point} (hg : Good ev s) :
    Good ev (State.linksAtPoint s x) := by
  unfold State.linksAtPoint
  repeat' first
    | with_reducible first
      | assumption | rfl | exact Or.inr rfl | exact Or.inl ‹_› | refine Good.of_pair (by assumption) ?_
      | apply State.setRx_keeps | apply State.raise_keeps | apply State.each_keeps | apply State.setTxl_keeps
      | apply State.setFld_keeps | intro _ | apply Good.ite_of | apply apply_ite_good | split | dsimp only
      | apply good_upd
    | exact Or.inr rfl | exact rfl

theorem State.moveBounds_keeps {s : State} {law : Nat} {sup : Nat} (hg : Good ev s) (hb : ev.beat = none) :
    Good ev (State.moveBounds s law sup) := by
  unfold State.moveBounds
  repeat' first
    | with_reducible first
      | assumption | rfl | exact Or.inr rfl | exact Or.inl ‹_› | refine Good.of_pair (by assumption) ?_ | intro _
      | apply Good.ite_of | apply apply_ite_good | split | dsimp only | apply good_upd
    | exact Or.inr rfl | exact rfl

theorem State.hopDecideDue_keeps {s : State} (hg : Good ev s) :
    Good ev (State.hopDecideDue s) := by
  unfold State.hopDecideDue
  repeat' first
    | with_reducible first
      | assumption | rfl | exact Or.inr rfl | exact Or.inl ‹_› | refine Good.of_pair (by assumption) ?_
      | apply State.hopDecide_keeps | apply State.freeVal_keeps | intro _ | apply Good.ite_of | apply apply_ite_good
      | split | dsimp only | apply good_upd
    | exact Or.inr rfl | exact rfl

theorem State.hopSwitch_keeps {s : State} (hg : Good ev s) (hb : ev.beat = none) :
    Good ev (State.hopSwitch s) := by
  unfold State.hopSwitch
  repeat' first
    | with_reducible first
      | assumption | rfl | exact Or.inr rfl | exact Or.inl ‹_› | refine Good.of_pair (by assumption) ?_
      | apply State.moveBounds_keeps | apply State.linksAtPoint_keeps | apply State.ncoRescale_keeps
      | apply State.hopRecord_keeps | apply State.pllEvent_keeps | apply State.loadInc_keeps
      | apply State.modClk_keeps | apply State.republish_keeps | apply State.each_keeps | intro _ | apply Good.ite_of
      | apply apply_ite_good | split | dsimp only | apply good_upd
    | exact Or.inr rfl | exact rfl

theorem State.hopTurn_keeps {s : State} (hg : Good ev s) (hb : ev.beat = none) :
    Good ev (State.hopTurn s) := by
  unfold State.hopTurn
  repeat' first
    | with_reducible first
      | assumption | rfl | exact Or.inr rfl | exact Or.inl ‹_› | refine Good.of_pair (by assumption) ?_
      | apply State.hopSwitch_keeps | apply State.hopDecideDue_keeps | intro _ | apply Good.ite_of
      | apply apply_ite_good | split | dsimp only | apply good_upd
    | exact Or.inr rfl | exact rfl

theorem State.outputsLive_keeps {s : State} (hg : Good ev s) :
    Good ev (State.outputsLive s) := by
  unfold State.outputsLive
  repeat' first
    | with_reducible first
      | assumption | rfl | exact Or.inr rfl | exact Or.inl ‹_› | refine Good.of_pair (by assumption) ?_
      | apply State.modClk_keeps | apply State.each_keeps | intro _ | apply Good.ite_of | apply apply_ite_good | split
      | dsimp only | apply good_upd
    | exact Or.inr rfl | exact rfl

end Sys2Proof.Machine
end

