-- ==== Sys2Proof/Laws/KeepRetire.lean ====
section
/-!
SUPPORT. What every operation of Machine/Retire.lean keeps (Laws/Keep.lean).
-/

namespace Sys2Proof.Machine

variable {ev : Env}

theorem State.discardScope_keeps {s : State} {k : Nat} {ft : BitVec 64} (hg : Good ev s) :
    Good ev (State.discardScope s k ft) := by
  unfold State.discardScope
  repeat' first
    | with_reducible first
      | assumption | rfl | exact Or.inr rfl | exact Or.inl ‹_› | refine Good.of_pair (by assumption) ?_ | intro _
      | apply Good.ite_of | apply apply_ite_good | split | dsimp only | apply good_upd
    | exact Or.inr rfl | exact rfl

theorem State.refuseFetched_keeps {s : State} {n : Nat} (hg : Good ev s) :
    Good ev (State.refuseFetched s n) := by
  unfold State.refuseFetched
  repeat' first
    | with_reducible first
      | assumption | rfl | exact Or.inr rfl | exact Or.inl ‹_› | refine Good.of_pair (by assumption) ?_
      | apply State.refuseRetired_keeps | apply State.each_keeps | intro _ | apply Good.ite_of | apply apply_ite_good
      | split | dsimp only | apply good_upd
    | exact Or.inr rfl | exact rfl

theorem State.retireEffect_keeps {s : State} {kind : Nat} {index : Nat} {d : Nat} (hg : Good ev s) :
    Good ev (State.retireEffect s kind index d) := by
  unfold State.retireEffect
  repeat' first
    | with_reducible first
      | assumption | rfl | exact Or.inr rfl | exact Or.inl ‹_› | refine Good.of_pair (by assumption) ?_
      | apply State.refuseFetched_keeps | apply State.setRx_keeps | apply State.tlaAbort_keeps
      | apply State.tlaDefault_keeps | apply State.modTla_keeps | apply State.lineStop_keeps
      | apply State.streamAbort_keeps | apply State.streamStop_keeps | apply State.raise_keeps
      | apply State.each_keeps | apply State.modChan_keeps | apply State.setTxl_keeps | apply State.modSeq_keeps
      | intro _ | apply Good.ite_of | apply apply_ite_good | split | dsimp only | apply good_upd
    | exact Or.inr rfl | exact rfl

theorem State.retireOne_keeps {s : State} {kind : Nat} {index : Nat} {cls : Nat} {outcome : Nat} {detail : Word}
    {count : Nat} {limit : Nat} {later : Bool} (hg : Good ev s) :
    Good ev (State.retireOne s kind index cls outcome detail count limit later) := by
  unfold State.retireOne
  repeat' first
    | with_reducible first
      | assumption | rfl | exact Or.inr rfl | exact Or.inl ‹_› | refine Good.of_pair (by assumption) ?_
      | apply State.retireEffect_keeps | apply State.discardScope_keeps | apply State.markRetired_keeps
      | apply State.faultRecord_keeps | intro _ | apply Good.ite_of | apply apply_ite_good | split | dsimp only
      | apply good_upd
    | exact Or.inr rfl | exact rfl

theorem State.retire_keeps {s : State} {kind : Nat} {index : Nat} {cls : Nat} {outcome : Nat} {detail : Word} {count
    : Nat} {limit : Nat} {later : Bool} (hg : Good ev s) :
    Good ev (State.retire s kind index cls outcome detail count limit later) := by
  unfold State.retire
  repeat' first
    | with_reducible first
      | assumption | rfl | exact Or.inr rfl | exact Or.inl ‹_› | refine Good.of_pair (by assumption) ?_
      | apply State.retireOne_keeps | apply State.each_keeps | intro _ | apply Good.ite_of | apply apply_ite_good
      | split | dsimp only | apply good_upd
    | exact Or.inr rfl | exact rfl

theorem State.seqRetire_keeps {s : State} {n : Nat} (hg : Good ev s) :
    Good ev (State.seqRetire s n) := by
  unfold State.seqRetire
  repeat' first
    | with_reducible first
      | assumption | rfl | exact Or.inr rfl | exact Or.inl ‹_› | refine Good.of_pair (by assumption) ?_
      | apply State.endBurst_keeps | apply State.keepLast_keeps | apply State.dropMarkers_keeps
      | apply State.override_keeps | apply State.claim_keeps | apply State.modSeq_keeps | intro _ | apply Good.ite_of
      | apply apply_ite_good | split | dsimp only | apply good_upd
    | exact Or.inr rfl | exact rfl

theorem State.abortRetired_keeps {s : State} (hg : Good ev s) :
    Good ev (State.abortRetired s) := by
  unfold State.abortRetired
  repeat' first
    | with_reducible first
      | assumption | rfl | exact Or.inr rfl | exact Or.inl ‹_› | refine Good.of_pair (by assumption) ?_
      | apply State.finishOrd_keeps | apply State.each_keeps | intro _ | apply Good.ite_of | apply apply_ite_good
      | split | dsimp only | apply good_upd
    | exact Or.inr rfl | exact rfl

theorem State.takeSends_keeps {s : State} {n : Nat} (hg : Good ev s) :
    Good ev (State.takeSends s n).2 := by
  unfold State.takeSends
  repeat' first
    | with_reducible first
      | assumption | rfl | exact Or.inr rfl | exact Or.inl ‹_› | refine Good.of_pair (by assumption) ?_
      | apply State.each_keeps | apply State.modLink_keeps | intro _ | apply Good.ite_of | apply apply_ite_good
      | split | dsimp only | apply good_upd
    | exact Or.inr rfl | exact rfl

theorem State.ringDrainEnd_keeps {s : State} {n : Nat} {since : Nat} (hg : Good ev s) :
    Good ev (State.ringDrainEnd s n since) := by
  unfold State.ringDrainEnd
  repeat' first
    | with_reducible first
      | assumption | rfl | exact Or.inr rfl | exact Or.inl ‹_› | refine Good.of_pair (by assumption) ?_
      | apply State.takeSends_keeps | apply State.setCpl_keeps | apply State.finishOrd_keeps
      | apply State.endDesc_keeps | apply State.complete_keeps | apply State.modDesc_keeps | apply State.each_keeps
      | intro _ | apply Good.ite_of | apply apply_ite_good | split | dsimp only | apply good_upd
    | exact Or.inr rfl | exact rfl

theorem State.drainEnd_keeps {s : State} {kind : Nat} {index : Nat} (hg : Good ev s) :
    Good ev (State.drainEnd s kind index) := by
  unfold State.drainEnd
  repeat' first
    | with_reducible first
      | assumption | rfl | exact Or.inr rfl | exact Or.inl ‹_› | refine Good.of_pair (by assumption) ?_
      | apply State.ringDrainEnd_keeps | apply State.abortRetired_keeps | apply State.topoChanged_keeps
      | apply State.linkRetireEnd_keeps | apply State.linkDropTo_keeps | apply State.mapSwitch_keeps
      | apply State.endDesc_keeps | apply State.each_keeps | apply State.modLink_keeps | intro _ | apply Good.ite_of
      | apply apply_ite_good | split | dsimp only | apply good_upd
    | exact Or.inr rfl | exact rfl

theorem State.retireRegions_keeps {s : State} {cls : Nat} {outcome : Nat} {detail : Word} {l : List Nat} (hg : Good
    ev s) :
    Good ev (State.retireRegions s cls outcome detail l) := by
  unfold State.retireRegions
  repeat' first
    | with_reducible first
      | assumption | rfl | exact Or.inr rfl | exact Or.inl ‹_› | refine Good.of_pair (by assumption) ?_
      | apply State.retire_keeps | apply State.each_keeps | intro _ | apply Good.ite_of | apply apply_ite_good | split
      | dsimp only | apply good_upd
    | exact Or.inr rfl | exact rfl

theorem State.degrade_keeps {s : State} {b : Nat} {cls : Nat} {outcome : Nat} {detail : Word} (hg : Good ev s) :
    Good ev (State.degrade s b cls outcome detail) := by
  unfold State.degrade
  repeat' first
    | with_reducible first
      | assumption | rfl | exact Or.inr rfl | exact Or.inl ‹_› | refine Good.of_pair (by assumption) ?_
      | apply State.retireRegions_keeps | apply State.setBank_keeps | intro _ | apply Good.ite_of
      | apply apply_ite_good | split | dsimp only | apply good_upd
    | exact Or.inr rfl | exact rfl

theorem State.bankRepair_keeps {s : State} {b : Nat} {cls : Nat} {outcome : Nat} {detail : Word} (hg : Good ev s) :
    Good ev (State.bankRepair s b cls outcome detail) := by
  unfold State.bankRepair
  repeat' first
    | with_reducible first
      | assumption | rfl | exact Or.inr rfl | exact Or.inl ‹_› | refine Good.of_pair (by assumption) ?_
      | apply State.degrade_keeps | apply State.copyStart_keeps | apply State.bankWait_keeps | intro _
      | apply Good.ite_of | apply apply_ite_good | split | dsimp only | apply good_upd
    | exact Or.inr rfl | exact rfl

theorem State.bankDead_keeps {s : State} {b : Nat} {cls : Nat} {outcome : Nat} {detail : Word} (hg : Good ev s) :
    Good ev (State.bankDead s b cls outcome detail) := by
  unfold State.bankDead
  repeat' first
    | with_reducible first
      | assumption | rfl | exact Or.inr rfl | exact Or.inl ‹_› | refine Good.of_pair (by assumption) ?_
      | apply State.retireRegions_keeps | apply State.raise_keeps | apply State.setBank_keeps | intro _
      | apply Good.ite_of | apply apply_ite_good | split | dsimp only | apply good_upd
    | exact Or.inr rfl | exact rfl

theorem State.copySpareFails_keeps {s : State} {k : Nat} {b : Nat} {cls : Nat} {outcome : Nat} {detail : Word} (hg :
    Good ev s) :
    Good ev (State.copySpareFails s k b cls outcome detail) := by
  unfold State.copySpareFails
  repeat' first
    | with_reducible first
      | assumption | rfl | exact Or.inr rfl | exact Or.inl ‹_› | refine Good.of_pair (by assumption) ?_
      | apply State.bankDead_keeps | apply State.bankRepair_keeps | apply State.copyAbort_keeps
      | apply State.raise_keeps | apply State.setSpare_keeps | intro _ | apply Good.ite_of | apply apply_ite_good
      | split | dsimp only | apply good_upd
    | exact Or.inr rfl | exact rfl

theorem State.failWord_keeps {s : State} {w : Nat} {phys : Nat} {cls : Nat} {outcome : Nat} {detail : Word} (hg :
    Good ev s) :
    Good ev (State.failWord s w phys cls outcome detail) := by
  unfold State.failWord
  repeat' first
    | with_reducible first
      | assumption | rfl | exact Or.inr rfl | exact Or.inl ‹_› | refine Good.of_pair (by assumption) ?_
      | apply State.copySpareFails_keeps | apply State.bankDead_keeps | apply State.bankRepair_keeps
      | apply State.retireRegions_keeps | apply State.raise_keeps | apply State.setSpare_keeps
      | apply State.setBank_keeps | intro _ | apply Good.ite_of | apply apply_ite_good | split | dsimp only
      | apply good_upd
    | exact Or.inr rfl | exact rfl

theorem State.counted_keeps {s : State} {d : Det} {count : Nat} {limit : Nat} (hg : Good ev s) :
    Good ev (State.counted s d count limit) := by
  unfold State.counted
  repeat' first
    | with_reducible first
      | assumption | rfl | exact Or.inr rfl | exact Or.inl ‹_› | refine Good.of_pair (by assumption) ?_
      | apply State.faultRecord_keeps | apply State.raise_keeps | intro _ | apply Good.ite_of | apply apply_ite_good
      | split | dsimp only | apply good_upd
    | exact Or.inr rfl | exact rfl

theorem State.fateOf_keeps {s : State} {d : Det} {outcome : Nat} {count : Nat} {limit : Nat} (hg : Good ev s) :
    Good ev (State.fateOf s d outcome count limit) := by
  unfold State.fateOf
  repeat' first
    | with_reducible first
      | assumption | rfl | exact Or.inr rfl | exact Or.inl ‹_› | refine Good.of_pair (by assumption) ?_
      | apply State.retire_keeps | apply State.pllGiveUp_keeps | apply State.faultRecord_keeps
      | apply State.raise_keeps | intro _ | apply Good.ite_of | apply apply_ite_good | split | dsimp only
      | apply good_upd
    | exact Or.inr rfl | exact rfl

theorem State.takeFirn_keeps {s : State} {d : Det} (hg : Good ev s) :
    Good ev (State.takeFirn s d) := by
  unfold State.takeFirn
  repeat' first
    | with_reducible first
      | assumption | rfl | exact Or.inr rfl | exact Or.inl ‹_› | refine Good.of_pair (by assumption) ?_
      | apply State.counted_keeps | apply State.failWord_keeps | apply State.modRime_keeps
      | apply State.faultRecord_keeps | intro _ | apply Good.ite_of | apply apply_ite_good | split | dsimp only
      | apply good_upd
    | exact Or.inr rfl | exact rfl

theorem State.takeDet_keeps {s : State} {d : Det} (hg : Good ev s) :
    Good ev (State.takeDet s d) := by
  unfold State.takeDet
  repeat' first
    | with_reducible first
      | assumption | rfl | exact Or.inr rfl | exact Or.inl ‹_› | refine Good.of_pair (by assumption) ?_
      | apply State.takeFirn_keeps | apply State.fateOf_keeps | apply State.counted_keeps
      | apply State.faultRecord_keeps | apply State.countOcc_keeps | intro _ | apply Good.ite_of
      | apply apply_ite_good | split | dsimp only | apply good_upd
    | exact Or.inr rfl | exact rfl

theorem State.faultTake_keeps {s : State} (hg : Good ev s) :
    Good ev (State.faultTake s) := by
  unfold State.faultTake
  repeat' first
    | with_reducible first
      | assumption | rfl | exact Or.inr rfl | exact Or.inl ‹_› | refine Good.of_pair (by assumption) ?_
      | apply State.takeDet_keeps | intro _ | apply Good.ite_of | apply apply_ite_good | split | dsimp only
      | apply good_upd
    | exact Or.inr rfl | exact rfl

theorem State.faultsDue_keeps {s : State} {y0 : Nat} (hg : Good ev s) :
    Good ev (State.faultsDue s y0) := by
  induction y0 generalizing s with
  | zero =>
    unfold State.faultsDue
    repeat' first
      | with_reducible first
        | assumption | rfl | exact Or.inr rfl | exact Or.inl ‹_› | refine Good.of_pair (by assumption) ?_
        | apply State.faultTake_keeps | intro _ | apply Good.ite_of | apply apply_ite_good | split | dsimp only
        | apply good_upd
      | exact Or.inr rfl | exact rfl
  | succ k ih =>
    unfold State.faultsDue
    repeat' first
      | with_reducible first
        | assumption | rfl | exact Or.inr rfl | exact Or.inl ‹_› | apply ih | refine Good.of_pair (by assumption) ?_
        | apply State.faultTake_keeps | intro _ | apply Good.ite_of | apply apply_ite_good | split | dsimp only
        | apply good_upd
      | exact Or.inr rfl | exact rfl

theorem State.drainsDue_keeps {s : State} (hg : Good ev s) :
    Good ev (State.drainsDue s) := by
  unfold State.drainsDue
  repeat' first
    | with_reducible first
      | assumption | rfl | exact Or.inr rfl | exact Or.inl ‹_› | refine Good.of_pair (by assumption) ?_
      | apply State.drainEnd_keeps | apply State.each_keeps | intro _ | apply Good.ite_of | apply apply_ite_good
      | split | dsimp only | apply good_upd
    | exact Or.inr rfl | exact rfl

theorem State.msTick_keeps {s : State} (hg : Good ev s) :
    Good ev (State.msTick s) := by
  unfold State.msTick
  repeat' first
    | with_reducible first
      | assumption | rfl | exact Or.inr rfl | exact Or.inl ‹_› | refine Good.of_pair (by assumption) ?_ | intro _
      | apply Good.ite_of | apply apply_ite_good | split | dsimp only | apply good_upd
    | exact Or.inr rfl | exact rfl

theorem State.fltCycle_keeps {s : State} (hg : Good ev s) :
    Good ev (State.fltCycle s) := by
  unfold State.fltCycle
  repeat' first
    | with_reducible first
      | assumption | rfl | exact Or.inr rfl | exact Or.inl ‹_› | refine Good.of_pair (by assumption) ?_
      | apply State.msTick_keeps | intro _ | apply Good.ite_of | apply apply_ite_good | split | dsimp only
      | apply good_upd
    | exact Or.inr rfl | exact rfl

theorem State.fltTurn_keeps {s : State} (hg : Good ev s) :
    Good ev (State.fltTurn s) := by
  unfold State.fltTurn
  repeat' first
    | with_reducible first
      | assumption | rfl | exact Or.inr rfl | exact Or.inl ‹_› | refine Good.of_pair (by assumption) ?_
      | apply State.drainsDue_keeps | apply State.faultsDue_keeps | intro _ | apply Good.ite_of | apply apply_ite_good
      | split | dsimp only | apply good_upd
    | exact Or.inr rfl | exact rfl

theorem State.commanded_keeps {s : State} {kind : Nat} {index : Nat} {rq : Requester} (hg : Good ev s) :
    Good ev (State.commanded s kind index rq) := by
  unfold State.commanded
  repeat' first
    | with_reducible first
      | assumption | rfl | exact Or.inr rfl | exact Or.inl ‹_› | refine Good.of_pair (by assumption) ?_
      | apply State.retire_keeps | apply State.countOcc_keeps | intro _ | apply Good.ite_of | apply apply_ite_good
      | split | dsimp only | apply good_upd
    | exact Or.inr rfl | exact rfl

end Sys2Proof.Machine
end

