-- ==== Sys2Proof/Laws/KeepReset.lean ====
section
/-!
SUPPORT. What every operation of Machine/Reset.lean keeps (Laws/Keep.lean).
-/

namespace Sys2Proof.Machine

variable {ev : Env}

theorem State.tombstone_keeps {s : State} {k : Nat} (hg : Good ev s) :
    Good ev (State.tombstone s k) := by
  unfold State.tombstone
  repeat' first
    | with_reducible first
      | assumption | rfl | exact Or.inr rfl | exact Or.inl ‹_› | refine Good.of_pair (by assumption) ?_
      | apply State.modLink_keeps | apply State.modChan_keeps | apply State.modSeq_keeps | intro _ | apply Good.ite_of
      | apply apply_ite_good | split | dsimp only | apply good_upd
    | exact Or.inr rfl | exact rfl

theorem State.fullWipe_keeps {s : State} {k : RstKind} (hg : Good ev s) : Good ev (s.fullWipe k) :=
  ⟨hg.queue, hg.strap, fun c => ⟨Tab.filter_wf _ (hg.canon c).1, rfl, rfl⟩, fun _ _ => .inl rfl⟩

theorem State.coreWipe_keeps {s : State} (hg : Good ev s) : Good ev s.coreWipe := by
  unfold State.coreWipe
  dsimp only
  refine State.each_keeps ⟨hg.queue, hg.strap, fun c =>
    ⟨Tab.filter_wf _ (hg.canon c).1, Tab.filter_wf _ (hg.canon c).2.1, (hg.canon c).2.2⟩, fun _ _ => .inl rfl⟩ ?_
  intro t x ht
  exact State.tombstone_keeps ht

theorem State.doReset_keeps {s : State} {k : RstKind} (hg : Good ev s) :
    Good ev (State.doReset s k) := by
  unfold State.doReset
  repeat' first
    | with_reducible first
      | assumption | rfl | exact Or.inr rfl | exact Or.inl ‹_› | refine Good.of_pair (by assumption) ?_
      | apply State.coreWipe_keeps | apply State.fullWipe_keeps | intro _ | apply Good.ite_of | apply apply_ite_good
      | split | dsimp only | apply good_upd
    | exact Or.inr rfl | exact rfl

theorem State.pcieWipe_keeps {s : State} (hg : Good ev s) : Good ev s.pcieWipe := by
  have h := State.sendsGone_keeps hg
  unfold State.pcieWipe
  generalize s.sendsGone = t at h
  exact ⟨h.queue, h.strap, fun c => ⟨Tab.filter_wf _ (h.canon c).1, Tab.filter_wf _ (h.canon c).2.1, (h.canon c).2.2⟩, h.beat⟩

theorem State.modHk_keeps {s : State} {f : Hk → Hk} (hg : Good ev s) (hf : ∀ h, ev.beat = none ∨ (f h).inReset =
    h.inReset) :
    Good ev (State.modHk s f) := by
  unfold State.modHk
  repeat' first
    | with_reducible first
      | assumption | rfl | exact Or.inr rfl | exact Or.inl ‹_› | refine Good.of_pair (by assumption) ?_ | apply hf
      | intro _ | apply Good.ite_of | apply apply_ite_good | split | dsimp only | apply good_upd
    | exact Or.inr rfl | exact rfl

theorem State.bootStep_keeps {s : State} (hg : Good ev s) :
    Good ev (State.bootStep s) := by
  unfold State.bootStep
  repeat' first
    | with_reducible first
      | assumption | rfl | exact Or.inr rfl | exact Or.inl ‹_› | refine Good.of_pair (by assumption) ?_
      | apply State.modHk_keeps | intro _ | apply Good.ite_of | apply apply_ite_good | split | dsimp only
      | apply good_upd
    | exact Or.inr rfl | exact rfl

theorem State.trainFixed_keeps {s : State} (hg : Good ev s) :
    Good ev (State.trainFixed s) := by
  unfold State.trainFixed
  repeat' first
    | with_reducible first
      | assumption | rfl | exact Or.inr rfl | exact Or.inl ‹_› | refine Good.of_pair (by assumption) ?_
      | apply State.each_keeps | apply State.setFld_keeps | intro _ | apply Good.ite_of | apply apply_ite_good | split
      | dsimp only | apply good_upd
    | exact Or.inr rfl | exact rfl

theorem State.release_strap {s : State} {straps x : BitVec 16} (hg : Good ev s) (hb : ev.beat = none)
    (h1 : s.hk.inReset = some .por → s.pins.tripped = false → x = straps)
    (h2 : (s.hk.inReset = some .por → s.pins.tripped = true) → x = ev.strap) :
    Good { ev with strap := x } (s.release straps) := by
  have hx : x = ev.strap → Good { ev with strap := x } s := fun e => e ▸ hg
  have hn : ∀ {f : Hk → Hk} (h : Hk), ({ ev with strap := x } : Env).beat = none ∨ (f h).inReset = h.inReset := fun _ => .inl hb
  unfold State.release
  split
  · next h => exact hx (h2 (by simp [h]))
  · next h =>
    have g := hx (h2 (by simp [h]))
    dsimp only
    split
    · exact State.modHk_keeps (State.trainFixed_keeps (State.modHk_keeps g hn)) hn
    · exact State.modHk_keeps g hn
  · next h =>
    have g := hx (h2 (by simp [h]))
    exact State.bootStep_keeps (State.pllWake_keeps (State.modHk_keeps g hn))
  · next h =>
    split
    · next ht => exact hx (h2 (fun _ => ht))
    · next ht =>
      have g : Good { ev with strap := x } { s with
          top := { s.top with strap := straps }, pins := { s.pins with porN := true, supplyOut := false } } :=
        ⟨hg.queue, (h1 h (by simpa using ht)).symm, hg.canon, hg.beat⟩
      dsimp only
      apply State.bootStep_keeps
      apply State.pllWake_keeps
      refine State.modHk_keeps ?_ hn
      split
      all_goals first | exact g | exact ⟨g.queue, g.strap, g.canon, g.beat⟩

/-- The release of a reset keeps all but the strap register, which only that of a POR samples. -/
theorem State.release_keeps {s : State} {straps : BitVec 16} (hg : Good ev s) (hb : ev.beat = none) :
    Good { ev with strap := if s.hk.inReset = some .por ∧ s.pins.tripped = false then straps else ev.strap }
      (s.release straps) := by
  apply State.release_strap hg hb
  · intro a b
    rw [if_pos ⟨a, b⟩]
  · intro h
    rw [if_neg]
    rintro ⟨a, b⟩
    rw [h a] at b
    cases b

/-- The release of any other reset keeps it too. -/
theorem State.release_same {s : State} {straps : BitVec 16} (hg : Good ev s) (hb : ev.beat = none)
    (h : s.hk.inReset = some .por → straps = ev.strap) : Good ev (s.release straps) :=
  State.release_strap (x := ev.strap) hg hb (fun a _ => (h a).symm) (fun _ => rfl)

theorem State.firnZero_keeps {s : State} (hg : Good ev s) : Good ev s.firnZero := by
  unfold State.firnZero
  split
  · exact hg
  · exact State.modHk_keeps ⟨hg.queue, hg.strap, fun c => ⟨(hg.canon c).1, (hg.canon c).2.1, rfl⟩, hg.beat⟩
      (fun _ => Or.inr rfl)

theorem State.firnInitTurn_keeps {s : State} (hg : Good ev s) :
    Good ev (State.firnInitTurn s) := by
  unfold State.firnInitTurn
  repeat' first
    | with_reducible first
      | assumption | rfl | exact Or.inr rfl | exact Or.inl ‹_› | refine Good.of_pair (by assumption) ?_
      | apply State.firnZero_keeps | intro _ | apply Good.ite_of | apply apply_ite_good | split | dsimp only
      | apply good_upd
    | exact Or.inr rfl | exact rfl

theorem State.flashLoad_keeps {s : State} {r : FlashResult} (hg : Good ev s) :
    Good ev (State.flashLoad s r) := by
  unfold State.flashLoad
  repeat' first
    | with_reducible first
      | assumption | rfl | exact Or.inr rfl | exact Or.inl ‹_› | refine Good.of_pair (by assumption) ?_
      | apply State.modHk_keeps | intro _ | apply Good.ite_of | apply apply_ite_good | split | dsimp only
      | apply good_upd
    | exact Or.inr rfl | exact rfl

theorem State.hostLoad_keeps {s : State} {crcOk : Bool} (hg : Good ev s) :
    Good ev (State.hostLoad s crcOk) := by
  unfold State.hostLoad
  repeat' first
    | with_reducible first
      | assumption | rfl | exact Or.inr rfl | exact Or.inl ‹_› | refine Good.of_pair (by assumption) ?_
      | apply State.modHk_keeps | intro _ | apply Good.ite_of | apply apply_ite_good | split | dsimp only
      | apply good_upd
    | exact Or.inr rfl | exact rfl

theorem State.dimmSeen_keeps {s : State} {ch : Nat} {r : DimmRead} (hg : Good ev s) :
    Good ev (State.dimmSeen s ch r) := by
  unfold State.dimmSeen
  repeat' first
    | with_reducible first
      | assumption | rfl | exact Or.inr rfl | exact Or.inl ‹_› | refine Good.of_pair (by assumption) ?_
      | apply State.detect_keeps | apply State.modChan_keeps | intro _ | apply Good.ite_of | apply apply_ite_good
      | split | dsimp only | apply good_upd
    | exact Or.inr rfl | exact rfl

theorem State.baseStart_keeps {s : State} {version : Word} {dimms : List DimmRead} (hg : Good ev s) :
    Good ev (State.baseStart s version dimms) := by
  unfold State.baseStart
  repeat' first
    | with_reducible first
      | assumption | rfl | exact Or.inr rfl | exact Or.inl ‹_› | refine Good.of_pair (by assumption) ?_
      | apply State.dimmSeen_keeps | apply State.trainFixed_keeps | apply State.modHk_keeps
      | apply State.trainStart_keeps | apply State.each_keeps | intro _ | apply Good.ite_of | apply apply_ite_good
      | split | dsimp only | apply good_upd
    | exact Or.inr rfl | exact rfl

end Sys2Proof.Machine
end

