-- ==== Sys2Proof/Laws/KeepAfter.lean ====
section
/-!
SUPPORT. What every operation of Machine/After.lean keeps (Laws/Keep.lean).
-/

namespace Sys2Proof.Machine

variable {ev : Env}

theorem State.afterHif_keeps {s : State} {o : Nat} {old : Word} {new : Word} (hg : Good ev s) :
    Good ev (State.afterHif s o old new) := by
  unfold State.afterHif
  repeat' first
    | with_reducible first
      | assumption | rfl | exact Or.inr rfl | exact Or.inl ‹_› | refine Good.of_pair (by assumption) ?_
      | apply State.signalIf_keeps | apply State.msix_keeps | apply State.modRing_keeps | intro _ | apply Good.ite_of
      | apply apply_ite_good | split | dsimp only | apply good_upd
    | exact Or.inr rfl | exact rfl

theorem State.ftLoad_keeps {s : State} (hg : Good ev s) :
    Good ev (State.ftLoad s) := by
  unfold State.ftLoad
  repeat' first
    | with_reducible first
      | assumption | rfl | exact Or.inr rfl | exact Or.inl ‹_› | refine Good.of_pair (by assumption) ?_ | intro _
      | apply Good.ite_of | apply apply_ite_good | split | dsimp only | apply good_upd
    | exact Or.inr rfl | exact rfl

theorem State.afterTime_keeps {s : State} {o : Nat} {old : Word} {new : Word} {v : Word} (hg : Good ev s) :
    Good ev (State.afterTime s o old new v) := by
  unfold State.afterTime
  repeat' first
    | with_reducible first
      | assumption | rfl | exact Or.inr rfl | exact Or.inl ‹_› | refine Good.of_pair (by assumption) ?_
      | apply State.ftLoad_keeps | apply State.tickRunFell_keeps | intro _ | apply Good.ite_of | apply apply_ite_good
      | split | dsimp only | apply good_upd
    | exact Or.inr rfl | exact rfl

theorem State.afterPllCtrl_keeps {s : State} {p : Pll} {old : Word} {new : Word} {present : Option Bool} (hg : Good
    ev s) :
    Good ev (State.afterPllCtrl s p old new present) := by
  unfold State.afterPllCtrl
  repeat' first
    | with_reducible first
      | assumption | rfl | exact Or.inr rfl | exact Or.inl ‹_› | refine Good.of_pair (by assumption) ?_
      | apply State.pllOff_keeps | apply State.refChanged_keeps | apply State.pllWake_keeps | intro _
      | apply Good.ite_of | apply apply_ite_good | split | dsimp only | apply good_upd
    | exact Or.inr rfl | exact rfl

theorem State.fcwApply_keeps {s : State} {p : Pll} (hg : Good ev s) :
    Good ev (State.fcwApply s p) := by
  unfold State.fcwApply
  repeat' first
    | with_reducible first
      | assumption | rfl | exact Or.inr rfl | exact Or.inl ‹_› | refine Good.of_pair (by assumption) ?_
      | apply State.modClk_keeps | intro _ | apply Good.ite_of | apply apply_ite_good | split | dsimp only
      | apply good_upd
    | exact Or.inr rfl | exact rfl

theorem State.afterClk_keeps {s : State} {o : Nat} {old : Word} {new : Word} {v : Word} {present : Option Bool} (hg
    : Good ev s) :
    Good ev (State.afterClk s o old new v present) := by
  unfold State.afterClk
  repeat' first
    | with_reducible first
      | assumption | rfl | exact Or.inr rfl | exact Or.inl ‹_› | refine Good.of_pair (by assumption) ?_
      | apply State.fcwApply_keeps | apply State.afterPllCtrl_keeps | apply State.hopStart_keeps
      | apply State.setEntry_keeps | apply State.pendAdd_keeps | apply State.modClk_keeps
      | apply State.republish_keeps | intro _ | apply Good.ite_of | apply apply_ite_good | split | dsimp only
      | apply good_upd
    | exact Or.inr rfl | exact rfl

theorem State.firnCmd_keeps {s : State} {v : Word} {rq : Requester} (hg : Good ev s) :
    Good ev (State.firnCmd s v rq) := by
  unfold State.firnCmd
  repeat' first
    | with_reducible first
      | assumption | rfl | exact Or.inr rfl | exact Or.inl ‹_› | refine Good.of_pair (by assumption) ?_
      | apply State.commanded_keeps | apply State.copyStart_keeps | apply State.bankWait_keeps | intro _
      | apply Good.ite_of | apply apply_ite_good | split | dsimp only | apply good_upd
    | exact Or.inr rfl | exact rfl

theorem State.afterMor_keeps {s : State} {o : Nat} {old : Word} {new : Word} {v : Word} (hg : Good ev s) :
    Good ev (State.afterMor s o old new v) := by
  unfold State.afterMor
  repeat' first
    | with_reducible first
      | assumption | rfl | exact Or.inr rfl | exact Or.inl ‹_› | refine Good.of_pair (by assumption) ?_
      | apply State.trainStart_keeps | apply State.thStart_keeps | apply State.modChan_keeps | intro _
      | apply Good.ite_of | apply apply_ite_good | split | dsimp only | apply good_upd
    | exact Or.inr rfl | exact rfl

theorem State.afterSeq_keeps {s : State} {n : Nat} {o : Nat} {old : Word} {new : Word} {staged : Bool} (hg : Good ev
    s) :
    Good ev (State.afterSeq s n o old new staged) := by
  unfold State.afterSeq
  repeat' first
    | with_reducible first
      | assumption | rfl | exact Or.inr rfl | exact Or.inl ‹_› | refine Good.of_pair (by assumption) ?_
      | apply State.txWritten_keeps | apply State.reanchor_keeps | apply State.slotLoad_keeps
      | apply State.flagsWritten_keeps | apply State.trigRedo_keeps | intro _ | apply Good.ite_of
      | apply apply_ite_good | split | dsimp only | apply good_upd
    | exact Or.inr rfl | exact rfl

theorem State.afterMkr_keeps {s : State} {o : Nat} (hg : Good ev s) :
    Good ev (State.afterMkr s o) := by
  unfold State.afterMkr
  repeat' first
    | with_reducible first
      | assumption | rfl | exact Or.inr rfl | exact Or.inl ‹_› | refine Good.of_pair (by assumption) ?_
      | apply State.patternPreload_keeps | apply State.setPair_keeps | intro _ | apply Good.ite_of
      | apply apply_ite_good | split | dsimp only | apply good_upd
    | exact Or.inr rfl | exact rfl

theorem State.afterAng_keeps {s : State} {o : Nat} {staged : Bool} (hg : Good ev s) :
    Good ev (State.afterAng s o staged) := by
  unfold State.afterAng
  repeat' first
    | with_reducible first
      | assumption | rfl | exact Or.inr rfl | exact Or.inl ‹_› | refine Good.of_pair (by assumption) ?_
      | apply State.trkWritten_keeps | apply State.arm_keeps | intro _ | apply Good.ite_of | apply apply_ite_good
      | split | dsimp only | apply good_upd
    | exact Or.inr rfl | exact rfl

theorem State.afterTla_keeps {s : State} {o : Nat} {v : Word} {staged : Bool} (hg : Good ev s) :
    Good ev (State.afterTla s o v staged) := by
  unfold State.afterTla
  repeat' first
    | with_reducible first
      | assumption | rfl | exact Or.inr rfl | exact Or.inl ‹_› | refine Good.of_pair (by assumption) ?_
      | apply State.tlaSwap_keeps | apply State.tlaStore_keeps | apply State.modTla_keeps | intro _
      | apply Good.ite_of | apply apply_ite_good | split | dsimp only | apply good_upd
    | exact Or.inr rfl | exact rfl

theorem State.afterCle_keeps {s : State} {o : Nat} {old : Word} {new : Word} {v : Word} (hg : Good ev s) :
    Good ev (State.afterCle s o old new v) := by
  unfold State.afterCle
  repeat' first
    | with_reducible first
      | assumption | rfl | exact Or.inr rfl | exact Or.inl ‹_› | refine Good.of_pair (by assumption) ?_
      | apply State.rxWritten_keeps | apply State.repStart_keeps | apply State.slotWritten_keeps
      | apply State.coefWrite_keeps | apply State.republish_keeps | intro _ | apply Good.ite_of | apply apply_ite_good
      | split | dsimp only | apply good_upd
    | exact Or.inr rfl | exact rfl

theorem State.nzlCmd_keeps {s : State} {op : Nat} (hg : Good ev s) :
    Good ev (State.nzlCmd s op) := by
  unfold State.nzlCmd
  repeat' first
    | with_reducible first
      | assumption | rfl | exact Or.inr rfl | exact Or.inl ‹_› | refine Good.of_pair (by assumption) ?_
      | apply State.enumEnter_keeps | apply State.electEnter_keeps | intro _ | apply Good.ite_of
      | apply apply_ite_good | split | dsimp only | apply good_upd
    | exact Or.inr rfl | exact rfl

theorem State.afterNzl_keeps {s : State} {o : Nat} {v : Word} (hg : Good ev s) :
    Good ev (State.afterNzl s o v) := by
  unfold State.afterNzl
  repeat' first
    | with_reducible first
      | assumption | rfl | exact Or.inr rfl | exact Or.inl ‹_› | refine Good.of_pair (by assumption) ?_
      | apply State.nzlCmd_keeps | apply State.linkWritten_keeps | apply State.nodeWritten_keeps | intro _
      | apply Good.ite_of | apply apply_ite_good | split | dsimp only | apply good_upd
    | exact Or.inr rfl | exact rfl

theorem State.afterHk_keeps {s : State} {o : Nat} {v : Word} {crcOk : Option Bool} (hg : Good ev s) :
    Good ev (State.afterHk s o v crcOk) := by
  unfold State.afterHk
  repeat' first
    | with_reducible first
      | assumption | rfl | exact Or.inr rfl | exact Or.inl ‹_› | refine Good.of_pair (by assumption) ?_
      | apply State.hostLoad_keeps | apply State.modHk_keeps | apply State.doReset_keeps | apply State.freeVal_keeps
      | intro _ | apply Good.ite_of | apply apply_ite_good | split | dsimp only | apply good_upd
    | exact Or.inr rfl | exact rfl

theorem State.afterWrite_keeps {s : State} {rq : Requester} {a : Nat} {old : Word} {new : Word} {v : Word} {staged :
    Bool} {h : Hint} (hg : Good ev s) :
    Good ev (State.afterWrite s rq a old new v staged h) := by
  unfold State.afterWrite
  repeat' first
    | with_reducible first
      | assumption | rfl | exact Or.inr rfl | exact Or.inl ‹_› | refine Good.of_pair (by assumption) ?_
      | apply State.afterHk_keeps | apply State.afterNzl_keeps | apply State.afterCle_keeps
      | apply State.afterTla_keeps | apply State.afterAng_keeps | apply State.afterMkr_keeps
      | apply State.afterSeq_keeps | apply State.afterMor_keeps | apply State.firnCmd_keeps
      | apply State.afterClk_keeps | apply State.afterTime_keeps | apply State.afterHif_keeps
      | apply State.commanded_keeps | intro _ | apply Good.ite_of | apply apply_ite_good | split | dsimp only
      | apply good_upd
    | exact Or.inr rfl | exact rfl

end Sys2Proof.Machine
end

