-- ==== Sys2Proof/Laws/KeepBus.lean ====
section
/-!
SUPPORT. What every operation of Machine/Bus.lean keeps (Laws/Keep.lean).
-/

namespace Sys2Proof.Machine

variable {ev : Env}

theorem State.modCtx_keeps {s : State} {w : Nat} {rq : Requester} {f : Ctx → Ctx} (hg : Good ev s) :
    Good ev (State.modCtx s w rq f) := by
  unfold State.modCtx
  repeat' first
    | with_reducible first
      | assumption | rfl | exact Or.inr rfl | exact Or.inl ‹_› | refine Good.of_pair (by assumption) ?_
      | apply State.setCtx_keeps | intro _ | apply Good.ite_of | apply apply_ite_good | split | dsimp only
      | apply good_upd
    | exact Or.inr rfl | exact rfl

theorem State.setStatus_keeps {s : State} {w : Nat} {rq : Requester} {m : BitVec 5} (hg : Good ev s) :
    Good ev (State.setStatus s w rq m) := by
  unfold State.setStatus
  repeat' first
    | with_reducible first
      | assumption | rfl | exact Or.inr rfl | exact Or.inl ‹_› | refine Good.of_pair (by assumption) ?_
      | apply State.modCtx_keeps | apply State.freshen_keeps | intro _ | apply Good.ite_of | apply apply_ite_good
      | split | dsimp only | apply good_upd
    | exact Or.inr rfl | exact rfl

theorem State.reject_keeps {s : State} {rq : Requester} {off : Nat} {cause : Nat} (hg : Good ev s) :
    Good ev (State.reject s rq off cause) := by
  unfold State.reject
  repeat' first
    | with_reducible first
      | assumption | rfl | exact Or.inr rfl | exact Or.inl ‹_› | refine Good.of_pair (by assumption) ?_
      | apply State.setStatus_keeps | apply State.modCtx_keeps | intro _ | apply Good.ite_of | apply apply_ite_good
      | split | dsimp only | apply good_upd
    | exact Or.inr rfl | exact rfl

theorem State.rejEffects_keeps {s : State} {x : Rej} (hg : Good ev s) :
    Good ev (State.rejEffects s x) := by
  unfold State.rejEffects
  repeat' first
    | with_reducible first
      | assumption | rfl | exact Or.inr rfl | exact Or.inl ‹_› | refine Good.of_pair (by assumption) ?_
      | apply State.bump_keeps | apply State.raise_keeps | intro _ | apply Good.ite_of | apply apply_ite_good | split
      | dsimp only | apply good_upd
    | exact Or.inr rfl | exact rfl

theorem State.writeTail_keeps {s : State} {rq : Requester} {w : Nat} {o : Nat} {v : Word} {wasArmed : Bool} (hg :
    Good ev s) :
    Good ev (State.writeTail s rq w o v wasArmed) := by
  unfold State.writeTail
  repeat' first
    | with_reducible first
      | assumption | rfl | exact Or.inr rfl | exact Or.inl ‹_› | refine Good.of_pair (by assumption) ?_
      | apply State.setStatus_keeps | apply State.modCtx_keeps | apply State.arm_keeps | intro _ | apply Good.ite_of
      | apply apply_ite_good | split | dsimp only | apply good_upd
    | exact Or.inr rfl | exact rfl

theorem State.land_keeps {s : State} {a : Nat} {k : Nat} {q : Nat} {m : Word} {v : Word} (hg : Good ev s) :
    Good ev (State.land s a k q m v) := by
  unfold State.land
  repeat' first
    | with_reducible first
      | assumption | rfl | exact Or.inr rfl | exact Or.inl ‹_› | refine Good.of_pair (by assumption) ?_ | intro _
      | apply Good.ite_of | apply apply_ite_good | split | dsimp only | apply good_upd
    | exact Or.inr rfl | exact rfl

theorem State.accept_keeps {s : State} {rq : Requester} {r : RegRow} {a : Nat} {q : Nat} {v : Word} {h : Hint} (hg :
    Good ev s) :
    Good ev (State.accept s rq r a q v h) := by
  unfold State.accept
  repeat' first
    | with_reducible first
      | assumption | rfl | exact Or.inr rfl | exact Or.inl ‹_› | refine Good.of_pair (by assumption) ?_
      | apply State.land_keeps | apply State.afterWrite_keeps | apply State.setReg_keeps | intro _ | apply Good.ite_of
      | apply apply_ite_good | split | dsimp only | apply good_upd
    | exact Or.inr rfl | exact rfl

theorem State.writeIn_keeps {s : State} {rq : Requester} {off : Nat} {be : BitVec 4} {v : Word} {h : Hint} (hg :
    Good ev s) :
    Good ev (State.writeIn s rq off be v h) := by
  unfold State.writeIn
  repeat' first
    | with_reducible first
      | assumption | rfl | exact Or.inr rfl | exact Or.inl ‹_› | refine Good.of_pair (by assumption) ?_
      | apply State.accept_keeps | apply State.writeTail_keeps | apply State.rejEffects_keeps
      | apply State.reject_keeps | apply State.setStatus_keeps | apply State.modCtx_keeps | apply State.arm_keeps
      | intro _ | apply Good.ite_of | apply apply_ite_good | split | dsimp only | apply good_upd
    | exact Or.inr rfl | exact rfl

theorem State.busWrite_keeps {s : State} {rq : Requester} {off : Nat} {be : BitVec 4} {v : Word} {h : Hint} (hg :
    Good ev s) :
    Good ev (State.busWrite s rq off be v h) := by
  unfold State.busWrite
  repeat' first
    | with_reducible first
      | assumption | rfl | exact Or.inr rfl | exact Or.inl ‹_› | refine Good.of_pair (by assumption) ?_
      | apply State.writeIn_keeps | apply State.raise_keeps | intro _ | apply Good.ite_of | apply apply_ite_good
      | split | dsimp only | apply good_upd
    | exact Or.inr rfl | exact rfl

theorem State.busWrites_keeps {s : State} {rq : Requester} {off : Nat} {l : List (BitVec 4 × Word)} (hg : Good ev s) :
    Good ev (State.busWrites s rq off l) := by
  unfold State.busWrites
  repeat' first
    | with_reducible first
      | assumption | rfl | exact Or.inr rfl | exact Or.inl ‹_› | refine Good.of_pair (by assumption) ?_
      | apply State.busWrite_keeps | apply State.each_keeps | intro _ | apply Good.ite_of | apply apply_ite_good
      | split | dsimp only | apply good_upd
    | exact Or.inr rfl | exact rfl

theorem State.readData32_keeps {s : State} {rq : Requester} {w : Nat} {d : Nat} {m : Word} (hg : Good ev s) :
    Good ev (State.readData32 s rq w d m).2 := by
  unfold State.readData32
  repeat' first
    | with_reducible first
      | assumption | rfl | exact Or.inr rfl | exact Or.inl ‹_› | refine Good.of_pair (by assumption) ?_
      | apply State.capture_keeps | apply State.modCtx_keeps | apply State.freshen_keeps | intro _ | apply Good.ite_of
      | apply apply_ite_good | split | dsimp only | apply good_upd
    | exact Or.inr rfl | exact rfl

theorem State.readTail_keeps {s : State} {rq : Requester} {w : Nat} {o : Nat} {m : Word} (hg : Good ev s) :
    Good ev (State.readTail s rq w o m).2 := by
  unfold State.readTail
  repeat' first
    | with_reducible first
      | assumption | rfl | exact Or.inr rfl | exact Or.inl ‹_› | refine Good.of_pair (by assumption) ?_
      | apply State.readData32_keeps | apply State.modCtx_keeps | apply State.arm_keeps | intro _ | apply Good.ite_of
      | apply apply_ite_good | split | dsimp only | apply good_upd
    | exact Or.inr rfl | exact rfl

theorem State.busRead_keeps {s : State} {rq : Requester} {off : Nat} {be : BitVec 4} (hg : Good ev s) :
    Good ev (State.busRead s rq off be).2 := by
  unfold State.busRead
  repeat' first
    | with_reducible first
      | assumption | rfl | exact Or.inr rfl | exact Or.inl ‹_› | refine Good.of_pair (by assumption) ?_
      | apply State.readTail_keeps | apply State.putReg_keeps | intro _ | apply Good.ite_of | apply apply_ite_good
      | split | dsimp only | apply good_upd
    | exact Or.inr rfl | exact rfl

theorem State.busReads_keeps {s : State} {rq : Requester} {off : Nat} {y0 : List (BitVec 4)} {y1 : List Word} (hg :
    Good ev s) :
    Good ev (State.busReads s rq off y0 y1).2 := by
  induction y0 generalizing s rq off y1 with
  | nil =>
    unfold State.busReads
    repeat' first
      | with_reducible first
        | assumption | rfl | exact Or.inr rfl | exact Or.inl ‹_› | refine Good.of_pair (by assumption) ?_
        | apply State.busRead_keeps | intro _ | apply Good.ite_of | apply apply_ite_good | split | dsimp only
        | apply good_upd
      | exact Or.inr rfl | exact rfl
  | cons x l ih =>
    unfold State.busReads
    repeat' first
      | with_reducible first
        | assumption | rfl | exact Or.inr rfl | exact Or.inl ‹_› | apply ih | refine Good.of_pair (by assumption) ?_
        | apply State.busRead_keeps | intro _ | apply Good.ite_of | apply apply_ite_good | split | dsimp only
        | apply good_upd
      | exact Or.inr rfl | exact rfl

theorem State.readBack_keeps {s : State} {rq : Requester} {off : Nat} {be : BitVec 4} {rest : List (BitVec 4)} (hg :
    Good ev s) :
    Good ev (State.readBack s rq off be rest) := by
  unfold State.readBack
  repeat' first
    | with_reducible first
      | assumption | rfl | exact Or.inr rfl | exact Or.inl ‹_› | refine Good.of_pair (by assumption) ?_
      | apply State.busReads_keeps | intro _ | apply Good.ite_of | apply apply_ite_good | split | dsimp only
      | apply good_upd
    | exact Or.inr rfl | exact rfl

theorem State.capture_keeps {s : State} {w : Nat} {rq : Requester} (hg : Good ev s) :
    Good ev (State.capture s w rq) := by
  unfold State.capture
  repeat' first
    | with_reducible first
      | assumption | rfl | exact Or.inr rfl | exact Or.inl ‹_› | refine Good.of_pair (by assumption) ?_
      | apply State.modCtx_keeps | intro _ | apply Good.ite_of | apply apply_ite_good | split | dsimp only
      | apply good_upd
    | exact Or.inr rfl | exact rfl

theorem State.captures_keeps {s : State} (hg : Good ev s) :
    Good ev (State.captures s) := by
  unfold State.captures
  repeat' first
    | with_reducible first
      | assumption | rfl | exact Or.inr rfl | exact Or.inl ‹_› | refine Good.of_pair (by assumption) ?_
      | apply State.capture_keeps | apply State.each_keeps | intro _ | apply Good.ite_of | apply apply_ite_good
      | split | dsimp only | apply good_upd
    | exact Or.inr rfl | exact rfl

theorem State.changeLive_keeps {s : State} {a : Nat} {v : Word} (hg : Good ev s) :
    Good ev (State.changeLive s a v) := by
  unfold State.changeLive
  repeat' first
    | with_reducible first
      | assumption | rfl | exact Or.inr rfl | exact Or.inl ‹_› | refine Good.of_pair (by assumption) ?_
      | apply State.afterWrite_keeps | apply State.putReg_keeps | intro _ | apply Good.ite_of | apply apply_ite_good
      | split | dsimp only | apply good_upd
    | exact Or.inr rfl | exact rfl

theorem State.compareOne_keeps {s : State} {a : Nat} (hg : Good ev s) :
    Good ev (State.compareOne s a) := by
  unfold State.compareOne
  repeat' first
    | with_reducible first
      | assumption | rfl | exact Or.inr rfl | exact Or.inl ‹_› | refine Good.of_pair (by assumption) ?_
      | apply State.changeLive_keeps | apply State.bump_keeps | apply State.detect_keeps | intro _ | apply Good.ite_of
      | apply apply_ite_good | split | dsimp only | apply good_upd
    | exact Or.inr rfl | exact rfl

theorem State.compareShadows_keeps {s : State} (hg : Good ev s) :
    Good ev (State.compareShadows s) := by
  unfold State.compareShadows
  repeat' first
    | with_reducible first
      | assumption | rfl | exact Or.inr rfl | exact Or.inl ‹_› | refine Good.of_pair (by assumption) ?_
      | apply good_foldl | apply good_foldl_snd | apply State.compareOne_keeps | apply State.each_keeps | intro _
      | apply Good.ite_of | apply apply_ite_good | split | dsimp only | apply good_upd
    | exact Or.inr rfl | exact rfl

theorem State.upsetHeldA_keeps {s : State} {w : Nat} {o : Nat} {i : Nat} (hg : Good ev s) :
    Good ev (State.upsetHeldA s w o i) := by
  unfold State.upsetHeldA
  repeat' first
    | with_reducible first
      | assumption | rfl | exact Or.inr rfl | exact Or.inl ‹_› | refine Good.of_pair (by assumption) ?_
      | apply State.modPll_keeps | intro _ | apply Good.ite_of | apply apply_ite_good | split | dsimp only
      | apply good_upd
    | exact Or.inr rfl | exact rfl

theorem State.upsetHeldB_keeps {s : State} {w : Nat} {o : Nat} {i : Nat} (hg : Good ev s) :
    Good ev (State.upsetHeldB s w o i) := by
  unfold State.upsetHeldB
  repeat' first
    | with_reducible first
      | assumption | rfl | exact Or.inr rfl | exact Or.inl ‹_› | refine Good.of_pair (by assumption) ?_
      | apply State.modHk_keeps | apply State.modTla_keeps | apply State.modChan_keeps | intro _ | apply Good.ite_of
      | apply apply_ite_good | split | dsimp only | apply good_upd
    | exact Or.inr rfl | exact rfl

theorem State.upsetHeld_keeps {s : State} {a : Nat} {i : Nat} (hg : Good ev s) :
    Good ev (State.upsetHeld s a i) := by
  unfold State.upsetHeld
  repeat' first
    | with_reducible first
      | assumption | rfl | exact Or.inr rfl | exact Or.inl ‹_› | refine Good.of_pair (by assumption) ?_
      | apply State.upsetHeldB_keeps | apply State.upsetHeldA_keeps | intro _ | apply Good.ite_of
      | apply apply_ite_good | split | dsimp only | apply good_upd
    | exact Or.inr rfl | exact rfl

theorem State.upsetCtx_keeps {s : State} {w : BitVec 8} {rq : Requester} {f : Ctx → Ctx} (hg : Good ev s) :
    Good ev (State.upsetCtx s w rq f) := by
  unfold State.upsetCtx
  repeat' first
    | with_reducible first
      | assumption | rfl | exact Or.inr rfl | exact Or.inl ‹_› | refine Good.of_pair (by assumption) ?_
      | apply State.modCtx_keeps | intro _ | apply Good.ite_of | apply apply_ite_good | split | dsimp only
      | apply good_upd
    | exact Or.inr rfl | exact rfl

theorem State.upset_keeps {s : State} {u : Upset} (hg : Good ev s) :
    Good ev (State.upset s u) := by
  unfold State.upset
  repeat' first
    | with_reducible first
      | assumption | rfl | exact Or.inr rfl | exact Or.inl ‹_› | refine Good.of_pair (by assumption) ?_
      | apply State.upsetCtx_keeps | apply State.upsetHeld_keeps | apply State.changeLive_keeps
      | apply State.capture_keeps | apply State.arm_keeps | intro _ | apply Good.ite_of | apply apply_ite_good | split
      | dsimp only | apply good_upd
    | exact Or.inr rfl | exact rfl

end Sys2Proof.Machine
end

