-- ==== Sys2Proof/Laws/KeepCommit.lean ====
section
/-!
SUPPORT. What every operation of Machine/Commit.lean keeps (Laws/Keep.lean).
-/

namespace Sys2Proof.Machine

variable {ev : Env}

theorem State.setArrive_keeps {s : State} {x : SSet} {fault : Option Nat} (hg : Good ev s) :
    Good ev (State.setArrive s x fault) := by
  unfold State.setArrive
  repeat' first
    | with_reducible first
      | assumption | rfl | exact Or.inr rfl | exact Or.inl ‹_› | refine Good.of_pair (by assumption) ?_
      | apply State.setCpl_keeps | intro _ | apply Good.ite_of | apply apply_ite_good | split | dsimp only
      | apply good_upd
    | exact Or.inr rfl | exact rfl

theorem State.commitStart_keeps {s : State} {x : SSet} (hg : Good ev s) :
    Good ev (State.commitStart s x) := by
  unfold State.commitStart
  repeat' first
    | with_reducible first
      | assumption | rfl | exact Or.inr rfl | exact Or.inl ‹_› | refine Good.of_pair (by assumption) ?_ | intro _
      | apply Good.ite_of | apply apply_ite_good | split | dsimp only | apply good_upd
    | exact Or.inr rfl | exact rfl

theorem State.commitFeed_keeps {s : State} {y0 : Nat} (hg : Good ev s) :
    Good ev (State.commitFeed s y0) := by
  induction y0 generalizing s with
  | zero =>
    unfold State.commitFeed
    repeat' first
      | with_reducible first
        | assumption | rfl | exact Or.inr rfl | exact Or.inl ‹_› | refine Good.of_pair (by assumption) ?_
        | apply State.commitStart_keeps | intro _ | apply Good.ite_of | apply apply_ite_good | split | dsimp only
        | apply good_upd
      | exact Or.inr rfl | exact rfl
  | succ k ih =>
    unfold State.commitFeed
    repeat' first
      | with_reducible first
        | assumption | rfl | exact Or.inr rfl | exact Or.inl ‹_› | apply ih | refine Good.of_pair (by assumption) ?_
        | apply State.commitStart_keeps | intro _ | apply Good.ite_of | apply apply_ite_good | split | dsimp only
        | apply good_upd
      | exact Or.inr rfl | exact rfl

theorem State.commitCycle_keeps {s : State} (hg : Good ev s) :
    Good ev (State.commitCycle s) := by
  unfold State.commitCycle
  repeat' first
    | with_reducible first
      | assumption | rfl | exact Or.inr rfl | exact Or.inl ‹_› | refine Good.of_pair (by assumption) ?_
      | apply State.commitFeed_keeps | intro _ | apply Good.ite_of | apply apply_ite_good | split | dsimp only
      | apply good_upd
    | exact Or.inr rfl | exact rfl

theorem State.commitBegin_keeps {s : State} (hg : Good ev s) :
    Good ev (State.commitBegin s) := by
  unfold State.commitBegin
  repeat' first
    | with_reducible first
      | assumption | rfl | exact Or.inr rfl | exact Or.inl ‹_› | refine Good.of_pair (by assumption) ?_ | intro _
      | apply Good.ite_of | apply apply_ite_good | split | dsimp only | apply good_upd
    | exact Or.inr rfl | exact rfl

theorem State.entryLive_keeps {s : State} {rq : Requester} {p : PEntry} (hg : Good ev s) :
    Good ev (State.entryLive s rq p).2 := by
  unfold State.entryLive
  repeat' first
    | with_reducible first
      | assumption | rfl | exact Or.inr rfl | exact Or.inl ‹_› | refine Good.of_pair (by assumption) ?_
      | apply State.land_keeps | apply State.rejEffects_keeps | apply State.reject_keeps
      | apply State.afterWrite_keeps | apply State.setReg_keeps | intro _ | apply Good.ite_of | apply apply_ite_good
      | split | dsimp only | apply good_upd
    | exact Or.inr rfl | exact rfl

theorem State.makeLive_keeps {s : State} {rq : Requester} {y0 : List PEntry} {y1 : Nat} (hg : Good ev s) :
    Good ev (State.makeLive s rq y0 y1).2 := by
  induction y0 generalizing s rq y1 with
  | nil =>
    unfold State.makeLive
    repeat' first
      | with_reducible first
        | assumption | rfl | exact Or.inr rfl | exact Or.inl ‹_› | refine Good.of_pair (by assumption) ?_
        | apply State.entryLive_keeps | intro _ | apply Good.ite_of | apply apply_ite_good | split | dsimp only
        | apply good_upd
      | exact Or.inr rfl | exact rfl
  | cons x l ih =>
    unfold State.makeLive
    repeat' first
      | with_reducible first
        | assumption | rfl | exact Or.inr rfl | exact Or.inl ‹_› | apply ih | refine Good.of_pair (by assumption) ?_
        | apply State.entryLive_keeps | intro _ | apply Good.ite_of | apply apply_ite_good | split | dsimp only
        | apply good_upd
      | exact Or.inr rfl | exact rfl

theorem State.commitDone_keeps {s : State} {c : Commit} (hg : Good ev s) :
    Good ev (State.commitDone s c) := by
  unfold State.commitDone
  repeat' first
    | with_reducible first
      | assumption | rfl | exact Or.inr rfl | exact Or.inl ‹_› | refine Good.of_pair (by assumption) ?_
      | apply State.setCpl_keeps | intro _ | apply Good.ite_of | apply apply_ite_good | split | dsimp only
      | apply good_upd
    | exact Or.inr rfl | exact rfl

theorem State.commitOne_keeps {s : State} {c : Commit} (hg : Good ev s) :
    Good ev (State.commitOne s c) := by
  unfold State.commitOne
  repeat' first
    | with_reducible first
      | assumption | rfl | exact Or.inr rfl | exact Or.inl ‹_› | refine Good.of_pair (by assumption) ?_
      | apply State.commitDone_keeps | apply State.makeLive_keeps | apply State.setCpl_keeps
      | apply State.raiseIf_keeps | intro _ | apply Good.ite_of | apply apply_ite_good | split | dsimp only
      | apply good_upd
    | exact Or.inr rfl | exact rfl

theorem State.commitEnd_keeps {s : State} (hg : Good ev s) :
    Good ev (State.commitEnd s) := by
  unfold State.commitEnd
  repeat' first
    | with_reducible first
      | assumption | rfl | exact Or.inr rfl | exact Or.inl ‹_› | refine Good.of_pair (by assumption) ?_
      | apply State.commitOne_keeps | apply State.each_keeps | intro _ | apply Good.ite_of | apply apply_ite_good
      | split | dsimp only | apply good_upd
    | exact Or.inr rfl | exact rfl

end Sys2Proof.Machine
end

