-- ==== Sys2Proof/Laws/KeepMailbox.lean ====
section
/-!
SUPPORT. What every operation of Machine/Mailbox.lean keeps (Laws/Keep.lean).
-/

namespace Sys2Proof.Machine

variable {ev : Env}

theorem State.setRes_keeps {s : State} {i : Nat} {n : Nat} (hg : Good ev s) :
    Good ev (State.setRes s i n) := by
  unfold State.setRes
  repeat' first
    | with_reducible first
      | assumption | rfl | exact Or.inr rfl | exact Or.inl ‹_› | refine Good.of_pair (by assumption) ?_
      | apply State.modHk_keeps | intro _ | apply Good.ite_of | apply apply_ite_good | split | dsimp only
      | apply good_upd
    | exact Or.inr rfl | exact rfl

theorem State.mbEnd_keeps {s : State} {result : Nat} (hg : Good ev s) :
    Good ev (State.mbEnd s result) := by
  unfold State.mbEnd
  repeat' first
    | with_reducible first
      | assumption | rfl | exact Or.inr rfl | exact Or.inl ‹_› | refine Good.of_pair (by assumption) ?_
      | apply State.modHk_keeps | apply State.raise_keeps | intro _ | apply Good.ite_of | apply apply_ite_good | split
      | dsimp only | apply good_upd
    | exact Or.inr rfl | exact rfl

theorem State.mbFail_keeps {s : State} {result : Nat} {res0 : Nat} (hg : Good ev s) :
    Good ev (State.mbFail s result res0) := by
  unfold State.mbFail
  repeat' first
    | with_reducible first
      | assumption | rfl | exact Or.inr rfl | exact Or.inl ‹_› | refine Good.of_pair (by assumption) ?_
      | apply State.mbEnd_keeps | apply State.setRes_keeps | intro _ | apply Good.ite_of | apply apply_ite_good
      | split | dsimp only | apply good_upd
    | exact Or.inr rfl | exact rfl

theorem State.sysrefTake_keeps {s : State} {at80 : Option FT80} {sy : BitVec 12} {links : BitVec 11} {byBringup :
    Bool} (hg : Good ev s) :
    Good ev (State.sysrefTake s at80 sy links byBringup).2 := by
  unfold State.sysrefTake
  repeat' first
    | with_reducible first
      | assumption | rfl | exact Or.inr rfl | exact Or.inl ‹_› | refine Good.of_pair (by assumption) ?_
      | apply State.modHk_keeps | intro _ | apply Good.ite_of | apply apply_ite_good | split | dsimp only
      | apply good_upd
    | exact Or.inr rfl | exact rfl

theorem State.dropOnLink_keeps {s : State} {k : Nat} (hg : Good ev s) :
    Good ev (State.dropOnLink s k) := by
  unfold State.dropOnLink
  repeat' first
    | with_reducible first
      | assumption | rfl | exact Or.inr rfl | exact Or.inl ‹_› | refine Good.of_pair (by assumption) ?_
      | apply State.raise_keeps | apply State.each_keeps | intro _ | apply Good.ite_of | apply apply_ite_good | split
      | dsimp only | apply good_upd
    | exact Or.inr rfl | exact rfl

theorem State.sysrefTx_keeps {s : State} {k : Nat} (hg : Good ev s) :
    Good ev (State.sysrefTx s k).2 := by
  unfold State.sysrefTx
  repeat' first
    | with_reducible first
      | assumption | rfl | exact Or.inr rfl | exact Or.inl ‹_› | refine Good.of_pair (by assumption) ?_
      | apply State.dropOnLink_keeps | apply State.setTxl_keeps | intro _ | apply Good.ite_of | apply apply_ite_good
      | split | dsimp only | apply good_upd
    | exact Or.inr rfl | exact rfl

theorem State.sysrefRx_keeps {s : State} {x : Nat} (hg : Good ev s) :
    Good ev (State.sysrefRx s x).2 := by
  unfold State.sysrefRx
  repeat' first
    | with_reducible first
      | assumption | rfl | exact Or.inr rfl | exact Or.inl ‹_› | refine Good.of_pair (by assumption) ?_
      | apply State.rxLost_keeps | apply State.setLemc_keeps | intro _ | apply Good.ite_of | apply apply_ite_good
      | split | dsimp only | apply good_upd
    | exact Or.inr rfl | exact rfl

theorem State.sysrefIssue_keeps {s : State} {x : Sysref} (hg : Good ev s) : Good ev (s.sysrefIssue x) := by
  unfold State.sysrefIssue
  dsimp only
  refine State.modHk_keeps ?_ (fun _ => Or.inr rfl)
  refine good_foldl_snd ?_ ?_
  · have h1 : Good ev (s.each (List.range 12) (fun s j =>
        if bitOf x.sy j then s.modClk (fun c => { c with coAt := Tab.set (fun _ => 0) c.coAt (12 + j) (s.fastNow 0) })
        else s)) := State.each_keeps hg (fun t j h => Good.ite_of h State.modClk_keeps)
    split
    · exact h1
    · exact State.emit_keeps h1
  · intro a n h
    split
    · exact h
    · split
      · exact State.sysrefTx_keeps h
      · exact State.sysrefRx_keeps h

theorem State.sysrefCycle_keeps {s : State} (hg : Good ev s) :
    Good ev (State.sysrefCycle s) := by
  unfold State.sysrefCycle
  repeat' first
    | with_reducible first
      | assumption | rfl | exact Or.inr rfl | exact Or.inl ‹_› | refine Good.of_pair (by assumption) ?_
      | apply State.sysrefIssue_keeps | apply State.mbEnd_keeps | apply State.setRes_keeps | apply State.modHk_keeps
      | intro _ | apply Good.ite_of | apply apply_ite_good | split | dsimp only | apply good_upd
    | exact Or.inr rfl | exact rfl

theorem State.fixedRead_keeps {s : State} {w : Nat} {y0 : Nat} (hg : Good ev s) :
    Good ev (State.fixedRead s w y0).2 := by
  induction y0 generalizing s w with
  | zero =>
    unfold State.fixedRead
    repeat' first
      | with_reducible first
        | assumption | rfl | exact Or.inr rfl | exact Or.inl ‹_› | refine Good.of_pair (by assumption) ?_
        | apply State.firnRead_keeps | intro _ | apply Good.ite_of | apply apply_ite_good | split | dsimp only
        | apply good_upd
      | exact Or.inr rfl | exact rfl
  | succ k ih =>
    unfold State.fixedRead
    repeat' first
      | with_reducible first
        | assumption | rfl | exact Or.inr rfl | exact Or.inl ‹_› | apply ih | refine Good.of_pair (by assumption) ?_
        | apply State.firnRead_keeps | intro _ | apply Good.ite_of | apply apply_ite_good | split | dsimp only
        | apply good_upd
      | exact Or.inr rfl | exact rfl

theorem State.fixedTable_keeps {s : State} {w : Nat} {n : Nat} (hg : Good ev s) :
    Good ev (State.fixedTable s w n) := by
  unfold State.fixedTable
  repeat' first
    | with_reducible first
      | assumption | rfl | exact Or.inr rfl | exact Or.inl ‹_› | refine Good.of_pair (by assumption) ?_
      | apply State.fixedRead_keeps | apply State.mbFail_keeps | apply State.mbEnd_keeps | apply State.modHk_keeps
      | intro _ | apply Good.ite_of | apply apply_ite_good | split | dsimp only | apply good_upd
    | exact Or.inr rfl | exact rfl

theorem State.fwWrite_keeps {s : State} {a : Nat} {v : Word} (hg : Good ev s) :
    Good ev (State.fwWrite s a v).2 := by
  unfold State.fwWrite
  repeat' first
    | with_reducible first
      | assumption | rfl | exact Or.inr rfl | exact Or.inl ‹_› | refine Good.of_pair (by assumption) ?_
      | apply State.rejEffects_keeps | apply State.reject_keeps | apply State.afterWrite_keeps
      | apply State.setReg_keeps | intro _ | apply Good.ite_of | apply apply_ite_good | split | dsimp only
      | apply good_upd
    | exact Or.inr rfl | exact rfl

theorem State.fwSet_keeps {s : State} {a : Nat} {i : Nat} (hg : Good ev s) :
    Good ev (State.fwSet s a i) := by
  unfold State.fwSet
  repeat' first
    | with_reducible first
      | assumption | rfl | exact Or.inr rfl | exact Or.inl ‹_› | refine Good.of_pair (by assumption) ?_
      | apply State.fwWrite_keeps | intro _ | apply Good.ite_of | apply apply_ite_good | split | dsimp only
      | apply good_upd
    | exact Or.inr rfl | exact rfl

theorem State.stageFail_keeps {s : State} {i : Nat} {code : Nat} (hg : Good ev s) :
    Good ev (State.stageFail s i code) := by
  unfold State.stageFail
  repeat' first
    | with_reducible first
      | assumption | rfl | exact Or.inr rfl | exact Or.inl ‹_› | refine Good.of_pair (by assumption) ?_
      | apply State.mbFail_keeps | apply State.modHk_keeps | intro _ | apply Good.ite_of | apply apply_ite_good
      | split | dsimp only | apply good_upd
    | exact Or.inr rfl | exact rfl

theorem State.fpllStart_keeps {s : State} (hg : Good ev s) :
    Good ev (State.fpllStart s) := by
  unfold State.fpllStart
  repeat' first
    | with_reducible first
      | assumption | rfl | exact Or.inr rfl | exact Or.inl ‹_› | refine Good.of_pair (by assumption) ?_
      | apply State.fwWrite_keeps | intro _ | apply Good.ite_of | apply apply_ite_good | split | dsimp only
      | apply good_upd
    | exact Or.inr rfl | exact rfl

theorem State.mpllStart_keeps {s : State} {x : Point} (hg : Good ev s) :
    Good ev (State.mpllStart s x) := by
  unfold State.mpllStart
  repeat' first
    | with_reducible first
      | assumption | rfl | exact Or.inr rfl | exact Or.inl ‹_› | refine Good.of_pair (by assumption) ?_
      | apply State.fwWrite_keeps | intro _ | apply Good.ite_of | apply apply_ite_good | split | dsimp only
      | apply good_upd
    | exact Or.inr rfl | exact rfl

theorem State.jesdEnable_keeps {s : State} {links : BitVec 11} (hg : Good ev s) : Good ev (s.jesdEnable links).2 := by
  refine good_foldl_snd hg (fun a n h => ?_)
  dsimp only
  split
  · exact h
  · exact State.fwWrite_keeps h

theorem State.stageStart_keeps {s : State} {b : Bring} {i : Nat} (hg : Good ev s) :
    Good ev (State.stageStart s b i) := by
  unfold State.stageStart
  repeat' first
    | with_reducible first
      | assumption | rfl | exact Or.inr rfl | exact Or.inl ‹_› | refine Good.of_pair (by assumption) ?_
      | apply State.jesdEnable_keeps | apply State.mpllStart_keeps | apply State.fpllStart_keeps
      | apply State.stageFail_keeps | apply State.fwSet_keeps | apply State.sysrefTake_keeps
      | apply State.mbFail_keeps | apply State.modHk_keeps | apply State.each_keeps | intro _ | apply Good.ite_of
      | apply apply_ite_good | split | dsimp only | apply good_upd
    | exact Or.inr rfl | exact rfl

theorem State.stageDone_keeps {s : State} {b : Bring} {i : Nat} (hg : Good ev s) :
    Good ev (State.stageDone s b i) := by
  unfold State.stageDone
  repeat' first
    | with_reducible first
      | assumption | rfl | exact Or.inr rfl | exact Or.inl ‹_› | refine Good.of_pair (by assumption) ?_
      | apply State.modHk_keeps | intro _ | apply Good.ite_of | apply apply_ite_good | split | dsimp only
      | apply good_upd
    | exact Or.inr rfl | exact rfl

theorem State.stageCheck_keeps {s : State} {b : Bring} {i : Nat} (hg : Good ev s) :
    Good ev (State.stageCheck s b i).2 := by
  unfold State.stageCheck
  repeat' first
    | with_reducible first
      | assumption | rfl | exact Or.inr rfl | exact Or.inl ‹_› | refine Good.of_pair (by assumption) ?_
      | apply State.fwSet_keeps | apply State.setRes_keeps | apply State.modHk_keeps | apply State.each_keeps
      | intro _ | apply Good.ite_of | apply apply_ite_good | split | dsimp only | apply good_upd
    | exact Or.inr rfl | exact rfl

theorem State.bringRun_keeps {s : State} {y0 : Nat} (hg : Good ev s) :
    Good ev (State.bringRun s y0) := by
  induction y0 generalizing s with
  | zero =>
    unfold State.bringRun
    repeat' first
      | with_reducible first
        | assumption | rfl | exact Or.inr rfl | exact Or.inl ‹_› | refine Good.of_pair (by assumption) ?_
        | apply State.stageCheck_keeps | apply State.stageDone_keeps | apply State.stageStart_keeps
        | apply State.mbEnd_keeps | apply State.setRes_keeps | apply State.modHk_keeps | intro _ | apply Good.ite_of
        | apply apply_ite_good | split | dsimp only | apply good_upd
      | exact Or.inr rfl | exact rfl
  | succ k ih =>
    unfold State.bringRun
    repeat' first
      | with_reducible first
        | assumption | rfl | exact Or.inr rfl | exact Or.inl ‹_› | apply ih | refine Good.of_pair (by assumption) ?_
        | apply State.stageCheck_keeps | apply State.stageDone_keeps | apply State.stageStart_keeps
        | apply State.mbEnd_keeps | apply State.setRes_keeps | apply State.modHk_keeps | intro _ | apply Good.ite_of
        | apply apply_ite_good | split | dsimp only | apply good_upd
      | exact Or.inr rfl | exact rfl

theorem State.bringCheck_keeps {s : State} (hg : Good ev s) :
    Good ev (State.bringCheck s) := by
  unfold State.bringCheck
  repeat' first
    | with_reducible first
      | assumption | rfl | exact Or.inr rfl | exact Or.inl ‹_› | refine Good.of_pair (by assumption) ?_
      | apply State.bringRun_keeps | intro _ | apply Good.ite_of | apply apply_ite_good | split | dsimp only
      | apply good_upd
    | exact Or.inr rfl | exact rfl

theorem State.stageTimeout_keeps {s : State} (hg : Good ev s) :
    Good ev (State.stageTimeout s) := by
  unfold State.stageTimeout
  repeat' first
    | with_reducible first
      | assumption | rfl | exact Or.inr rfl | exact Or.inl ‹_› | refine Good.of_pair (by assumption) ?_
      | apply State.bringCheck_keeps | apply State.stageDone_keeps | apply State.stageFail_keeps
      | apply State.setRes_keeps | apply State.modHk_keeps | intro _ | apply Good.ite_of | apply apply_ite_good
      | split | dsimp only | apply good_upd
    | exact Or.inr rfl | exact rfl

theorem State.bringTurn_keeps {s : State} (hg : Good ev s) :
    Good ev (State.bringTurn s) := by
  unfold State.bringTurn
  repeat' first
    | with_reducible first
      | assumption | rfl | exact Or.inr rfl | exact Or.inl ‹_› | refine Good.of_pair (by assumption) ?_
      | apply State.stageTimeout_keeps | apply State.bringCheck_keeps | intro _ | apply Good.ite_of
      | apply apply_ite_good | split | dsimp only | apply good_upd
    | exact Or.inr rfl | exact rfl

theorem State.bringTake_keeps {s : State} {arg0 : Word} {arg1 : Word} (hg : Good ev s) :
    Good ev (State.bringTake s arg0 arg1) := by
  unfold State.bringTake
  repeat' first
    | with_reducible first
      | assumption | rfl | exact Or.inr rfl | exact Or.inl ‹_› | refine Good.of_pair (by assumption) ?_
      | apply State.bringCheck_keeps | apply State.mbFail_keeps | apply State.mbEnd_keeps | apply State.modHk_keeps
      | intro _ | apply Good.ite_of | apply apply_ite_good | split | dsimp only | apply good_upd
    | exact Or.inr rfl | exact rfl

theorem State.autoBringup_keeps {s : State} (hg : Good ev s) :
    Good ev (State.autoBringup s) := by
  unfold State.autoBringup
  repeat' first
    | with_reducible first
      | assumption | rfl | exact Or.inr rfl | exact Or.inl ‹_› | refine Good.of_pair (by assumption) ?_
      | apply State.bringTake_keeps | apply State.modHk_keeps | intro _ | apply Good.ite_of | apply apply_ite_good
      | split | dsimp only | apply good_upd
    | exact Or.inr rfl | exact rfl

theorem State.mbTake_keeps {s : State} (hg : Good ev s) :
    Good ev (State.mbTake s) := by
  unfold State.mbTake
  repeat' first
    | with_reducible first
      | assumption | rfl | exact Or.inr rfl | exact Or.inl ‹_› | refine Good.of_pair (by assumption) ?_
      | apply State.bringTake_keeps | apply State.fixedTable_keeps | apply State.sysrefTake_keeps
      | apply State.mbFail_keeps | apply State.mbEnd_keeps | apply State.modHk_keeps | intro _ | apply Good.ite_of
      | apply apply_ite_good | split | dsimp only | apply good_upd
    | exact Or.inr rfl | exact rfl

end Sys2Proof.Machine
end

