-- ==== Sys2Proof/Laws/KeepActs.lean ====
section
/-!
SUPPORT. What every operation of Machine/Acts.lean keeps (Laws/Keep.lean).
-/

namespace Sys2Proof.Machine

variable {ev : Env}

theorem State.startAct_keeps {s : State} {n : Nat} {a : BitVec 128} {t : FT80} {e : Nat} (hg : Good ev s) :
    Good ev (State.startAct s n a t e).2 := by
  unfold State.startAct
  repeat' first
    | with_reducible first
      | assumption | rfl | exact Or.inr rfl | exact Or.inl ‹_› | refine Good.of_pair (by assumption) ?_
      | apply State.startBurst_keeps | apply State.modSeq_keeps | intro _ | apply Good.ite_of | apply apply_ite_good
      | split | dsimp only | apply good_upd
    | exact Or.inr rfl | exact rfl

theorem State.stopMeet_keeps {s : State} {n : Nat} {segEnd : Bool} {e : Nat} (hg : Good ev s) :
    Good ev (State.stopMeet s n segEnd e).2 := by
  unfold State.stopMeet
  repeat' first
    | with_reducible first
      | assumption | rfl | exact Or.inr rfl | exact Or.inl ‹_› | refine Good.of_pair (by assumption) ?_
      | apply State.stopAct_keeps | apply State.endBurst_keeps | intro _ | apply Good.ite_of | apply apply_ite_good
      | split | dsimp only | apply good_upd
    | exact Or.inr rfl | exact rfl

theorem State.jumpOrder_keeps {s : State} {n : Nat} {a : BitVec 128} {e : Nat} (hg : Good ev s) :
    Good ev (State.jumpOrder s n a e).2 := by
  unfold State.jumpOrder
  repeat' first
    | with_reducible first
      | assumption | rfl | exact Or.inr rfl | exact Or.inl ‹_› | refine Good.of_pair (by assumption) ?_
      | apply State.clearFlag_keeps | apply State.setFlagAt_keeps | apply State.jumpAct_keeps | intro _
      | apply Good.ite_of | apply apply_ite_good | split | dsimp only | apply good_upd
    | exact Or.inr rfl | exact rfl

theorem State.ncoOrder_keeps {s : State} {n : Nat} {a : BitVec 128} {e : Nat} (hg : Good ev s) :
    Good ev (State.ncoOrder s n a e) := by
  unfold State.ncoOrder
  repeat' first
    | with_reducible first
      | assumption | rfl | exact Or.inr rfl | exact Or.inl ‹_› | refine Good.of_pair (by assumption) ?_
      | apply State.modSeq_keeps | intro _ | apply Good.ite_of | apply apply_ite_good | split | dsimp only
      | apply good_upd
    | exact Or.inr rfl | exact rfl

theorem State.forceOrder_keeps {s : State} {n : Nat} {kind : Nat} {e : Nat} (hg : Good ev s) :
    Good ev (State.forceOrder s n kind e) := by
  unfold State.forceOrder
  repeat' first
    | with_reducible first
      | assumption | rfl | exact Or.inr rfl | exact Or.inl ‹_› | refine Good.of_pair (by assumption) ?_
      | apply State.forceAct_keeps | intro _ | apply Good.ite_of | apply apply_ite_good | split | dsimp only
      | apply good_upd
    | exact Or.inr rfl | exact rfl

theorem State.laneAct_keeps {s : State} {o : Ord} {e : Nat} (hg : Good ev s) :
    Good ev (State.laneAct s o e).2 := by
  unfold State.laneAct
  repeat' first
    | with_reducible first
      | assumption | rfl | exact Or.inr rfl | exact Or.inl ‹_› | refine Good.of_pair (by assumption) ?_
      | apply State.forceOrder_keeps | apply State.ncoOrder_keeps | apply State.jumpOrder_keeps
      | apply State.stopMeet_keeps | apply State.startAct_keeps | intro _ | apply Good.ite_of | apply apply_ite_good
      | split | dsimp only | apply good_upd
    | exact Or.inr rfl | exact rfl

theorem State.winnerActs_keeps {s : State} {a : Acting} (hg : Good ev s) :
    Good ev (State.winnerActs s a) := by
  unfold State.winnerActs
  repeat' first
    | with_reducible first
      | assumption | rfl | exact Or.inr rfl | exact Or.inl ‹_› | refine Good.of_pair (by assumption) ?_
      | apply State.laneAct_keeps | intro _ | apply Good.ite_of | apply apply_ite_good | split | dsimp only
      | apply good_upd
    | exact Or.inr rfl | exact rfl

theorem State.winnersAct_keeps {s : State} {y0 : Nat} (hg : Good ev s) :
    Good ev (State.winnersAct s y0) := by
  induction y0 generalizing s with
  | zero =>
    unfold State.winnersAct
    repeat' first
      | with_reducible first
        | assumption | rfl | exact Or.inr rfl | exact Or.inl ‹_› | refine Good.of_pair (by assumption) ?_
        | apply State.winnerActs_keeps | intro _ | apply Good.ite_of | apply apply_ite_good | split | dsimp only
        | apply good_upd
      | exact Or.inr rfl | exact rfl
  | succ k ih =>
    unfold State.winnersAct
    repeat' first
      | with_reducible first
        | assumption | rfl | exact Or.inr rfl | exact Or.inl ‹_› | apply ih | refine Good.of_pair (by assumption) ?_
        | apply State.winnerActs_keeps | intro _ | apply Good.ite_of | apply apply_ite_good | split | dsimp only
        | apply good_upd
      | exact Or.inr rfl | exact rfl

theorem State.trigDo_keeps {s : State} {n : Nat} {action : Nat} {arg : Nat} {e : Nat} (hg : Good ev s) :
    Good ev (State.trigDo s n action arg e) := by
  unfold State.trigDo
  repeat' first
    | with_reducible first
      | assumption | rfl | exact Or.inr rfl | exact Or.inl ‹_› | refine Good.of_pair (by assumption) ?_
      | apply State.forceOrder_keeps | apply State.stopMeet_keeps | apply State.setFlagAt_keeps
      | apply State.jumpAct_keeps | apply State.startBurst_keeps | intro _ | apply Good.ite_of | apply apply_ite_good
      | split | dsimp only | apply good_upd
    | exact Or.inr rfl | exact rfl

theorem State.trigClaim_keeps {s : State} {x : Sched} (hg : Good ev s) :
    Good ev (State.trigClaim s x) := by
  unfold State.trigClaim
  repeat' first
    | with_reducible first
      | assumption | rfl | exact Or.inr rfl | exact Or.inl ‹_› | refine Good.of_pair (by assumption) ?_
      | apply State.claim_keeps | intro _ | apply Good.ite_of | apply apply_ite_good | split | dsimp only
      | apply good_upd
    | exact Or.inr rfl | exact rfl

theorem State.trigCycle_keeps {s : State} (hg : Good ev s) :
    Good ev (State.trigCycle s) := by
  unfold State.trigCycle
  repeat' first
    | with_reducible first
      | assumption | rfl | exact Or.inr rfl | exact Or.inl ‹_› | refine Good.of_pair (by assumption) ?_
      | apply State.trigClaim_keeps | apply State.recordsPost_keeps | apply State.decodeEdges_keeps
      | apply State.each_keeps | intro _ | apply Good.ite_of | apply apply_ite_good | split | dsimp only
      | apply good_upd
    | exact Or.inr rfl | exact rfl

theorem State.unsched_keeps {s : State} {x : Sched} (hg : Good ev s) :
    Good ev (State.unsched s x) := by
  unfold State.unsched
  repeat' first
    | with_reducible first
      | assumption | rfl | exact Or.inr rfl | exact Or.inl ‹_› | refine Good.of_pair (by assumption) ?_ | intro _
      | apply Good.ite_of | apply apply_ite_good | split | dsimp only | apply good_upd
    | exact Or.inr rfl | exact rfl

theorem State.trigActs_keeps {s : State} {x : Sched} (hg : Good ev s) :
    Good ev (State.trigActs s x) := by
  unfold State.trigActs
  repeat' first
    | with_reducible first
      | assumption | rfl | exact Or.inr rfl | exact Or.inl ‹_› | refine Good.of_pair (by assumption) ?_
      | apply State.unsched_keeps | apply State.trigClaim_keeps | apply State.trigDo_keeps
      | apply State.override_keeps | intro _ | apply Good.ite_of | apply apply_ite_good | split | dsimp only
      | apply good_upd
    | exact Or.inr rfl | exact rfl

theorem State.actsDue_keeps {s : State} {e : Nat} {y0 : Nat} (hg : Good ev s) :
    Good ev (State.actsDue s e y0) := by
  induction y0 generalizing s e with
  | zero =>
    unfold State.actsDue
    repeat' first
      | with_reducible first
        | assumption | rfl | exact Or.inr rfl | exact Or.inl ‹_› | refine Good.of_pair (by assumption) ?_
        | apply State.trigActs_keeps | apply State.winnerActs_keeps | intro _ | apply Good.ite_of
        | apply apply_ite_good | split | dsimp only | apply good_upd
      | exact Or.inr rfl | exact rfl
  | succ k ih =>
    unfold State.actsDue
    repeat' first
      | with_reducible first
        | assumption | rfl | exact Or.inr rfl | exact Or.inl ‹_› | apply ih | refine Good.of_pair (by assumption) ?_
        | apply State.trigActs_keeps | apply State.winnerActs_keeps | intro _ | apply Good.ite_of
        | apply apply_ite_good | split | dsimp only | apply good_upd
      | exact Or.inr rfl | exact rfl

theorem State.flagsDue_keeps {s : State} {n : Nat} {e : Nat} (hg : Good ev s) :
    Good ev (State.flagsDue s n e) := by
  unfold State.flagsDue
  repeat' first
    | with_reducible first
      | assumption | rfl | exact Or.inr rfl | exact Or.inl ‹_› | refine Good.of_pair (by assumption) ?_
      | apply State.trigActs_keeps | apply State.winnerActs_keeps | apply State.each_keeps | intro _
      | apply Good.ite_of | apply apply_ite_good | split | dsimp only | apply good_upd
    | exact Or.inr rfl | exact rfl

theorem State.preloads_keeps {s : State} (hg : Good ev s) :
    Good ev (State.preloads s) := by
  unfold State.preloads
  repeat' first
    | with_reducible first
      | assumption | rfl | exact Or.inr rfl | exact Or.inl ‹_› | refine Good.of_pair (by assumption) ?_
      | apply State.preloadTargets_keeps | apply State.each_keeps | intro _ | apply Good.ite_of | apply apply_ite_good
      | split | dsimp only | apply good_upd
    | exact Or.inr rfl | exact rfl

end Sys2Proof.Machine
end

