-- ==== Sys2Proof/Laws/KeepCycle.lean ====
section
/-!
SUPPORT. What every operation of Machine/Cycle.lean keeps (Laws/Keep.lean).
-/

namespace Sys2Proof.Machine

variable {ev : Env}

theorem State.tickBegin_keeps {s : State} (hg : Good ev s) (hb : ev.beat = none) :
    Good ev (State.tickBegin s) := by
  unfold State.tickBegin
  repeat' first
    | with_reducible first
      | assumption | rfl | exact Or.inr rfl | exact Or.inl ‹_› | refine Good.of_pair (by assumption) ?_
      | apply State.commitBegin_keeps | intro _ | apply Good.ite_of | apply apply_ite_good | split | dsimp only
      | apply good_upd
    | exact Or.inr rfl | exact rfl

theorem State.tickStop_keeps {s : State} (hg : Good ev s) (hb : ev.beat = none) :
    Good ev (State.tickStop s) := by
  unfold State.tickStop
  repeat' first
    | with_reducible first
      | assumption | rfl | exact Or.inr rfl | exact Or.inl ‹_› | refine Good.of_pair (by assumption) ?_ | intro _
      | apply Good.ite_of | apply apply_ite_good | split | dsimp only | apply good_upd
    | exact Or.inr rfl | exact rfl

theorem State.stampPhase_keeps {s : State} (hg : Good ev s) :
    Good ev (State.stampPhase s) := by
  unfold State.stampPhase
  repeat' first
    | with_reducible first
      | assumption | rfl | exact Or.inr rfl | exact Or.inl ‹_› | refine Good.of_pair (by assumption) ?_ | intro _
      | apply Good.ite_of | apply apply_ite_good | split | dsimp only | apply good_upd
    | exact Or.inr rfl | exact rfl

theorem State.liveCopies_keeps {s : State} (hg : Good ev s) :
    Good ev (State.liveCopies s) := by
  unfold State.liveCopies
  repeat' first
    | with_reducible first
      | assumption | rfl | exact Or.inr rfl | exact Or.inl ‹_› | refine Good.of_pair (by assumption) ?_
      | apply State.tlaLive_keeps | apply State.modTla_keeps | apply State.seqLive_keeps | apply State.einLive_keeps
      | apply State.lineLive_keeps | apply State.each_keeps | intro _ | apply Good.ite_of | apply apply_ite_good
      | split | dsimp only | apply good_upd
    | exact Or.inr rfl | exact rfl

theorem State.phaseEnd_keeps {s : State} {i : Nat} (hg : Good ev s) :
    Good ev (State.phaseEnd s i) := by
  unfold State.phaseEnd
  repeat' first
    | with_reducible first
      | assumption | rfl | exact Or.inr rfl | exact Or.inl ‹_› | refine Good.of_pair (by assumption) ?_
      | apply State.liveCopies_keeps | apply State.stampPhase_keeps | apply State.preloads_keeps
      | apply State.commitEnd_keeps | apply State.abortRetired_keeps | apply State.snapPhase_keeps
      | apply State.supPhase_keeps | apply State.lawPhase_keeps | apply State.cleSample_keeps
      | apply State.pairRestart_keeps | apply State.orderPhase_keeps | apply State.each_keeps | intro _
      | apply Good.ite_of | apply apply_ite_good | split | dsimp only | apply good_upd
    | exact Or.inr rfl | exact rfl

theorem State.phases_keeps {s : State} {y0 : Nat} (hg : Good ev s) (hb : ev.beat = none) :
    Good ev (State.phases s y0) := by
  induction y0 generalizing s with
  | zero =>
    unfold State.phases
    repeat' first
      | with_reducible first
        | assumption | rfl | exact Or.inr rfl | exact Or.inl ‹_› | refine Good.of_pair (by assumption) ?_
        | apply State.phaseEnd_keeps | intro _ | apply Good.ite_of | apply apply_ite_good | split | dsimp only
        | apply good_upd
      | exact Or.inr rfl | exact rfl
  | succ k ih =>
    unfold State.phases
    repeat' first
      | with_reducible first
        | assumption | rfl | exact Or.inr rfl | exact Or.inl ‹_› | apply ih | refine Good.of_pair (by assumption) ?_
        | apply State.phaseEnd_keeps | intro _ | apply Good.ite_of | apply apply_ite_good | split | dsimp only
        | apply good_upd
      | exact Or.inr rfl | exact rfl

theorem State.tickFirst_keeps {s : State} (hg : Good ev s) (hb : ev.beat = none) :
    Good ev (State.tickFirst s) := by
  unfold State.tickFirst
  repeat' first
    | with_reducible first
      | assumption | rfl | exact Or.inr rfl | exact Or.inl ‹_› | refine Good.of_pair (by assumption) ?_
      | apply State.tickBegin_keeps | apply State.flushTicks_keeps | intro _ | apply Good.ite_of
      | apply apply_ite_good | split | dsimp only | apply good_upd
    | exact Or.inr rfl | exact rfl

theorem State.tickTurn_keeps {s : State} (hg : Good ev s) (hb : ev.beat = none) :
    Good ev (State.tickTurn s) := by
  unfold State.tickTurn
  repeat' first
    | with_reducible first
      | assumption | rfl | exact Or.inr rfl | exact Or.inl ‹_› | refine Good.of_pair (by assumption) ?_
      | apply State.tickFirst_keeps | apply State.tickStop_keeps | apply State.tickBegin_keeps
      | apply State.flushTicks_keeps | intro _ | apply Good.ite_of | apply apply_ite_good | split | dsimp only
      | apply good_upd
    | exact Or.inr rfl | exact rfl

theorem State.ordersArrive_keeps {s : State} (hg : Good ev s) :
    Good ev (State.ordersArrive s) := by
  unfold State.ordersArrive
  repeat' first
    | with_reducible first
      | assumption | rfl | exact Or.inr rfl | exact Or.inl ‹_› | refine Good.of_pair (by assumption) ?_ | intro _
      | apply Good.ite_of | apply apply_ite_good | split | dsimp only | apply good_upd
    | exact Or.inr rfl | exact rfl

theorem State.setsArrive_keeps {s : State} (hg : Good ev s) :
    Good ev (State.setsArrive s) := by
  unfold State.setsArrive
  repeat' first
    | with_reducible first
      | assumption | rfl | exact Or.inr rfl | exact Or.inl ‹_› | refine Good.of_pair (by assumption) ?_
      | apply State.setArrive_keeps | apply State.each_keeps | intro _ | apply Good.ite_of | apply apply_ite_good
      | split | dsimp only | apply good_upd
    | exact Or.inr rfl | exact rfl

theorem State.morCycle_keeps {s : State} {ch : Nat} (hg : Good ev s) :
    Good ev (State.morCycle s ch) := by
  unfold State.morCycle
  repeat' first
    | with_reducible first
      | assumption | rfl | exact Or.inr rfl | exact Or.inl ‹_› | refine Good.of_pair (by assumption) ?_
      | apply State.chanPass_keeps | apply State.trainTick_keeps | intro _ | apply Good.ite_of | apply apply_ite_good
      | split | dsimp only | apply good_upd
    | exact Or.inr rfl | exact rfl

theorem State.cycleWork_keeps {s : State} (hg : Good ev s) :
    Good ev (State.cycleWork s) := by
  unfold State.cycleWork
  repeat' first
    | with_reducible first
      | assumption | rfl | exact Or.inr rfl | exact Or.inl ‹_› | refine Good.of_pair (by assumption) ?_
      | apply State.morCycle_keeps | apply State.actsDue_keeps | apply State.trigCycle_keeps
      | apply State.winnersAct_keeps | apply State.commitCycle_keeps | apply State.cleLatch_keeps
      | apply State.linkDrop_keeps | apply State.seqCycle_keeps | apply State.angTurn_keeps
      | apply State.lineSettle_keeps | apply State.pairCycle_keeps | apply State.lineCycle_keeps
      | apply State.morHostIssue_keeps | apply State.each_keeps | intro _ | apply Good.ite_of | apply apply_ite_good
      | split | dsimp only | apply good_upd
    | exact Or.inr rfl | exact rfl

theorem State.cyclePass_keeps {s : State} (hg : Good ev s) (hb : ev.beat = none) :
    Good ev (State.cyclePass s) := by
  unfold State.cyclePass
  repeat' first
    | with_reducible first
      | assumption | rfl | exact Or.inr rfl | exact Or.inl ‹_› | refine Good.of_pair (by assumption) ?_
      | apply State.fltCycle_keeps | apply State.hopTurn_keeps | apply State.spllTake_keeps
      | apply State.seracCycles_keeps | apply State.loadInc_keeps | apply State.clkCycle_keeps
      | apply State.bankCycles_keeps | intro _ | apply Good.ite_of | apply apply_ite_good | split | dsimp only
      | apply good_upd
    | exact Or.inr rfl | exact rfl

theorem State.outputsTurn_keeps {s : State} (hg : Good ev s) :
    Good ev (State.outputsTurn s) := by
  unfold State.outputsTurn
  repeat' first
    | with_reducible first
      | assumption | rfl | exact Or.inr rfl | exact Or.inl ‹_› | refine Good.of_pair (by assumption) ?_
      | apply State.outputsLive_keeps | intro _ | apply Good.ite_of | apply apply_ite_good | split | dsimp only
      | apply good_upd
    | exact Or.inr rfl | exact rfl

theorem State.cycleOpen_keeps {s : State} (hg : Good ev s) (hb : ev.beat = none) :
    Good ev (State.cycleOpen s) := by
  unfold State.cycleOpen
  repeat' first
    | with_reducible first
      | assumption | rfl | exact Or.inr rfl | exact Or.inl ‹_› | refine Good.of_pair (by assumption) ?_
      | apply State.outputsTurn_keeps | apply State.setsArrive_keeps | apply State.ordersArrive_keeps
      | apply State.tickTurn_keeps | apply State.phases_keeps | apply State.liveCopies_keeps
      | apply State.mbTake_keeps | apply State.bringTurn_keeps | apply State.sysrefCycle_keeps
      | apply State.captures_keeps | apply State.firnInitTurn_keeps | apply State.fltTurn_keeps
      | apply State.seqRetire_keeps | apply State.fabricTurn_keeps | apply State.relockTurn_keeps
      | apply State.ilasTurn_keeps | apply State.rxRelease_keeps | apply State.tlaSwap_keeps
      | apply State.pairRestart_keeps | apply State.each_keeps | intro _ | apply Good.ite_of | apply apply_ite_good
      | split | dsimp only | apply good_upd
    | exact Or.inr rfl | exact rfl

theorem State.resetDue_keeps {s : State} {k : RstKind} (hg : Good ev s) (hb : ev.beat = none) : Good ev (State.resetDue s k) := by
  unfold State.resetDue
  split
  · split
    · exact State.autoBringup_keeps (State.release_same hg hb (fun _ => hg.strap))
    · exact hg
  · exact hg

theorem State.resetCycle_keeps {s : State} (hg : Good ev s) (hb : ev.beat = none) :
    Good ev (State.resetCycle s) := by
  unfold State.resetCycle
  repeat' first
    | with_reducible first
      | assumption | rfl | exact Or.inr rfl | exact Or.inl ‹_› | refine Good.of_pair (by assumption) ?_
      | apply State.resetDue_keeps | apply State.fltTurn_keeps | apply State.fltCycle_keeps
      | apply State.bankCycles_keeps | intro _ | apply Good.ite_of | apply apply_ite_good | split | dsimp only
      | apply good_upd
    | exact Or.inr rfl | exact rfl

theorem State.coreCycle_keeps {s : State} (hg : Good ev s) (hb : ev.beat = none) :
    Good ev (State.coreCycle s) := by
  unfold State.coreCycle
  repeat' first
    | with_reducible first
      | assumption | rfl | exact Or.inr rfl | exact Or.inl ‹_› | refine Good.of_pair (by assumption) ?_
      | apply State.resetCycle_keeps | apply State.cycleOpen_keeps | apply State.cyclePass_keeps
      | apply State.cycleWork_keeps | apply State.tlaCycle_keeps | apply State.tlaShow_keeps
      | apply State.modTla_keeps | intro _ | apply Good.ite_of | apply apply_ite_good | split | dsimp only
      | apply good_upd
    | exact Or.inr rfl | exact rfl

theorem State.advance_keeps {s : State} {y0 : Nat} (hg : Good ev s) (hb : ev.beat = none) :
    Good ev (State.advance s y0) := by
  induction y0 generalizing s with
  | zero =>
    unfold State.advance
    repeat' first
      | with_reducible first
        | assumption | rfl | exact Or.inr rfl | exact Or.inl ‹_› | refine Good.of_pair (by assumption) ?_
        | apply State.coreCycle_keeps | intro _ | apply Good.ite_of | apply apply_ite_good | split | dsimp only
        | apply good_upd
      | exact Or.inr rfl | exact rfl
  | succ k ih =>
    unfold State.advance
    repeat' first
      | with_reducible first
        | assumption | rfl | exact Or.inr rfl | exact Or.inl ‹_› | apply ih | refine Good.of_pair (by assumption) ?_
        | apply State.coreCycle_keeps | intro _ | apply Good.ite_of | apply apply_ite_good | split | dsimp only
        | apply good_upd
      | exact Or.inr rfl | exact rfl

theorem State.toCycle_keeps {s : State} {c : Nat} (hg : Good ev s) (hb : ev.beat = none) :
    Good ev (State.toCycle s c) := by
  unfold State.toCycle
  repeat' first
    | with_reducible first
      | assumption | rfl | exact Or.inr rfl | exact Or.inl ‹_› | refine Good.of_pair (by assumption) ?_
      | apply State.advance_keeps | intro _ | apply Good.ite_of | apply apply_ite_good | split | dsimp only
      | apply good_upd
    | exact Or.inr rfl | exact rfl

theorem State.toEdge_keeps {s : State} {e : Nat} (hg : Good ev s) (hb : ev.beat = none) :
    Good ev (State.toEdge s e) := by
  unfold State.toEdge
  repeat' first
    | with_reducible first
      | assumption | rfl | exact Or.inr rfl | exact Or.inl ‹_› | refine Good.of_pair (by assumption) ?_
      | apply State.toCycle_keeps | intro _ | apply Good.ite_of | apply apply_ite_good | split | dsimp only
      | apply good_upd
    | exact Or.inr rfl | exact rfl

theorem State.untilFt_keeps {s : State} {t : Nat} {y0 : Nat} (hg : Good ev s) (hb : ev.beat = none) :
    Good ev (State.untilFt s t y0) := by
  induction y0 generalizing s t with
  | zero =>
    unfold State.untilFt
    repeat' first
      | with_reducible first
        | assumption | rfl | exact Or.inr rfl | exact Or.inl ‹_› | refine Good.of_pair (by assumption) ?_
        | apply State.coreCycle_keeps | intro _ | apply Good.ite_of | apply apply_ite_good | split | dsimp only
        | apply good_upd
      | exact Or.inr rfl | exact rfl
  | succ k ih =>
    unfold State.untilFt
    repeat' first
      | with_reducible first
        | assumption | rfl | exact Or.inr rfl | exact Or.inl ‹_› | apply ih | refine Good.of_pair (by assumption) ?_
        | apply State.coreCycle_keeps | intro _ | apply Good.ite_of | apply apply_ite_good | split | dsimp only
        | apply good_upd
      | exact Or.inr rfl | exact rfl

theorem State.toFt_keeps {s : State} {t : Nat} (hg : Good ev s) (hb : ev.beat = none) :
    Good ev (State.toFt s t) := by
  unfold State.toFt
  repeat' first
    | with_reducible first
      | assumption | rfl | exact Or.inr rfl | exact Or.inl ‹_› | refine Good.of_pair (by assumption) ?_
      | apply State.untilFt_keeps | intro _ | apply Good.ite_of | apply apply_ite_good | split | dsimp only
      | apply good_upd
    | exact Or.inr rfl | exact rfl

theorem State.morUntil_keeps {s : State} {ch : Nat} {p : State → Bool} {y0 : Nat} (hg : Good ev s) (hb : ev.beat =
    none) :
    Good ev (State.morUntil s ch p y0) := by
  induction y0 generalizing s ch with
  | zero =>
    unfold State.morUntil
    repeat' first
      | with_reducible first
        | assumption | rfl | exact Or.inr rfl | exact Or.inl ‹_› | refine Good.of_pair (by assumption) ?_
        | apply State.coreCycle_keeps | intro _ | apply Good.ite_of | apply apply_ite_good | split | dsimp only
        | apply good_upd
      | exact Or.inr rfl | exact rfl
  | succ k ih =>
    unfold State.morUntil
    repeat' first
      | with_reducible first
        | assumption | rfl | exact Or.inr rfl | exact Or.inl ‹_› | apply ih | refine Good.of_pair (by assumption) ?_
        | apply State.coreCycle_keeps | intro _ | apply Good.ite_of | apply apply_ite_good | split | dsimp only
        | apply good_upd
      | exact Or.inr rfl | exact rfl

theorem State.passUntil_keeps {s : State} {p : State → Bool} {y0 : Nat} (hg : Good ev s) (hb : ev.beat = none) :
    Good ev (State.passUntil s p y0) := by
  induction y0 generalizing s with
  | zero =>
    unfold State.passUntil
    repeat' first
      | with_reducible first
        | assumption | rfl | exact Or.inr rfl | exact Or.inl ‹_› | refine Good.of_pair (by assumption) ?_
        | apply State.coreCycle_keeps | intro _ | apply Good.ite_of | apply apply_ite_good | split | dsimp only
        | apply good_upd
      | exact Or.inr rfl | exact rfl
  | succ k ih =>
    unfold State.passUntil
    repeat' first
      | with_reducible first
        | assumption | rfl | exact Or.inr rfl | exact Or.inl ‹_› | apply ih | refine Good.of_pair (by assumption) ?_
        | apply State.coreCycle_keeps | intro _ | apply Good.ite_of | apply apply_ite_good | split | dsimp only
        | apply good_upd
      | exact Or.inr rfl | exact rfl

theorem State.resetPass_keeps {s : State} {y0 : Nat} (hg : Good ev s) (hb : ev.beat = none) :
    Good ev (State.resetPass s y0) := by
  induction y0 generalizing s with
  | zero =>
    unfold State.resetPass
    repeat' first
      | with_reducible first
        | assumption | rfl | exact Or.inr rfl | exact Or.inl ‹_› | refine Good.of_pair (by assumption) ?_
        | apply State.coreCycle_keeps | intro _ | apply Good.ite_of | apply apply_ite_good | split | dsimp only
        | apply good_upd
      | exact Or.inr rfl | exact rfl
  | succ k ih =>
    unfold State.resetPass
    repeat' first
      | with_reducible first
        | assumption | rfl | exact Or.inr rfl | exact Or.inl ‹_› | apply ih | refine Good.of_pair (by assumption) ?_
        | apply State.coreCycle_keeps | intro _ | apply Good.ite_of | apply apply_ite_good | split | dsimp only
        | apply good_upd
      | exact Or.inr rfl | exact rfl

theorem State.atEdge_keeps {s : State} {e : Nat} {f : State → State} (hg : Good ev s) (hgf : ∀ t, Good ev t → Good
    ev (f t)) (hb : ev.beat = none) :
    Good ev (State.atEdge s e f) := by
  unfold State.atEdge
  repeat' first
    | with_reducible first
      | assumption | rfl | exact Or.inr rfl | exact Or.inl ‹_› | refine Good.of_pair (by assumption) ?_
      | apply State.toEdge_keeps | apply hgf | intro _ | apply Good.ite_of | apply apply_ite_good | split | dsimp only
      | apply good_upd
    | exact Or.inr rfl | exact rfl

end Sys2Proof.Machine
end

