-- ==== Sys2Proof/Laws/KeepExecReg.lean ====
section
/-!
SUPPORT. What every operation of Machine/ExecReg.lean keeps (Laws/Keep.lean).
-/

namespace Sys2Proof.Machine

variable {ev : Env}

theorem State.write_keeps {s : State} {off : Nat} {w : Wr} {h : Hint} (hg : Good ev s) :
    Good ev (State.write s off w h) := by
  unfold State.write
  repeat' first
    | with_reducible first
      | assumption | rfl | exact Or.inr rfl | exact Or.inl ‹_› | refine Good.of_pair (by assumption) ?_
      | apply State.busWrite_keeps | intro _ | apply Good.ite_of | apply apply_ite_good | split | dsimp only
      | apply good_upd
    | exact Or.inr rfl | exact rfl

theorem State.during_keeps {s : State} {window : Nat} {f : State → State} (hg : Good ev s) (hgf : ∀ t, Good ev t →
    Good ev (f t)) :
    Good ev (State.during s window f) := by
  unfold State.during
  repeat' first
    | with_reducible first
      | assumption | rfl | exact Or.inr rfl | exact Or.inl ‹_› | refine Good.of_pair (by assumption) ?_ | apply hgf
      | intro _ | apply Good.ite_of | apply apply_ite_good | split | dsimp only | apply good_upd
    | exact Or.inr rfl | exact rfl

end Sys2Proof.Machine
end

