-- ==== Sys2Proof/Laws/KeepDescs.lean ====
section
/-!
SUPPORT. What every operation of Machine/Descs.lean keeps (Laws/Keep.lean).
-/

namespace Sys2Proof.Machine

variable {ev : Env}

theorem State.doorbell_keeps {s : State} {n : Nat} {v : Word} (hg : Good ev s) :
    Good ev (State.doorbell s n v) := by
  unfold State.doorbell
  repeat' first
    | with_reducible first
      | assumption | rfl | exact Or.inr rfl | exact Or.inl ‹_› | refine Good.of_pair (by assumption) ?_
      | apply State.ringCause_keeps | apply State.modRing_keeps | intro _ | apply Good.ite_of | apply apply_ite_good
      | split | dsimp only | apply good_upd
    | exact Or.inr rfl | exact rfl

theorem State.newRound_keeps {s : State} {prio : Nat} (hg : Good ev s) :
    Good ev (State.newRound s prio) := by
  unfold State.newRound
  repeat' first
    | with_reducible first
      | assumption | rfl | exact Or.inr rfl | exact Or.inl ‹_› | refine Good.of_pair (by assumption) ?_
      | apply State.each_keeps | apply State.modRing_keeps | intro _ | apply Good.ite_of | apply apply_ite_good
      | split | dsimp only | apply good_upd
    | exact Or.inr rfl | exact rfl

theorem State.stopRing_keeps {s : State} {n : Nat} (hg : Good ev s) :
    Good ev (State.stopRing s n) := by
  unfold State.stopRing
  repeat' first
    | with_reducible first
      | assumption | rfl | exact Or.inr rfl | exact Or.inl ‹_› | refine Good.of_pair (by assumption) ?_
      | apply State.ringCause_keeps | apply State.modRing_keeps | intro _ | apply Good.ite_of | apply apply_ite_good
      | split | dsimp only | apply good_upd
    | exact Or.inr rfl | exact rfl

theorem State.takeSlots_keeps {s : State} {n : Nat} {y0 : List (BitVec 512)} (hg : Good ev s) :
    Good ev (State.takeSlots s n y0) := by
  induction y0 generalizing s n with
  | nil =>
    unfold State.takeSlots
    repeat' first
      | with_reducible first
        | assumption | rfl | exact Or.inr rfl | exact Or.inl ‹_› | refine Good.of_pair (by assumption) ?_
        | apply State.stopRing_keeps | apply State.endDesc_keeps | apply State.modRing_keeps | intro _
        | apply Good.ite_of | apply apply_ite_good | split | dsimp only | apply good_upd
      | exact Or.inr rfl | exact rfl
  | cons x l ih =>
    unfold State.takeSlots
    repeat' first
      | with_reducible first
        | assumption | rfl | exact Or.inr rfl | exact Or.inl ‹_› | apply ih | refine Good.of_pair (by assumption) ?_
        | apply State.stopRing_keeps | apply State.endDesc_keeps | apply State.modRing_keeps | intro _
        | apply Good.ite_of | apply apply_ite_good | split | dsimp only | apply good_upd
      | exact Or.inr rfl | exact rfl

theorem State.reportAer_keeps {s : State} {c : HostCause} (hg : Good ev s) :
    Good ev (State.reportAer s c) := by
  unfold State.reportAer
  repeat' first
    | with_reducible first
      | assumption | rfl | exact Or.inr rfl | exact Or.inl ‹_› | refine Good.of_pair (by assumption) ?_
      | apply State.miscIrq_keeps | apply State.emit_keeps | intro _ | apply Good.ite_of | apply apply_ite_good
      | split | dsimp only | apply good_upd
    | exact Or.inr rfl | exact rfl

theorem State.fetchReads_keeps {s : State} {n : Nat} {i : Nat} {k : Nat} (hg : Good ev s) :
    Good ev (State.fetchReads s n i k) := by
  unfold State.fetchReads
  repeat' first
    | with_reducible first
      | assumption | rfl | exact Or.inr rfl | exact Or.inl ‹_› | refine Good.of_pair (by assumption) ?_
      | apply State.readNow_keeps | intro _ | apply Good.ite_of | apply apply_ite_good | split | dsimp only
      | apply good_upd
    | exact Or.inr rfl | exact rfl

theorem State.fetch_keeps {s : State} {mem : FetchData} (hg : Good ev s) :
    Good ev (State.fetch s mem) := by
  unfold State.fetch
  repeat' first
    | with_reducible first
      | assumption | rfl | exact Or.inr rfl | exact Or.inl ‹_› | refine Good.of_pair (by assumption) ?_
      | apply State.fetchReads_keeps | apply State.reportAer_keeps | apply State.takeSlots_keeps
      | apply State.stopRing_keeps | apply State.newRound_keeps | apply State.detect_keeps | intro _
      | apply Good.ite_of | apply apply_ite_good | split | dsimp only | apply good_upd
    | exact Or.inr rfl | exact rfl

theorem State.takeIn_keeps {s : State} {n : Nat} {kind : Nat} {act : State → Desc → State} (hg : Good ev s) (hgact :
    ∀ t x1, Good ev t → Good ev (act t x1)) :
    Good ev (State.takeIn s n kind act) := by
  unfold State.takeIn
  repeat' first
    | with_reducible first
      | assumption | rfl | exact Or.inr rfl | exact Or.inl ‹_› | refine Good.of_pair (by assumption) ?_
      | apply State.endDesc_keeps | apply State.modDesc_keeps | apply hgact | intro _ | apply Good.ite_of
      | apply apply_ite_good | split | dsimp only | apply good_upd
    | exact Or.inr rfl | exact rfl

theorem State.finishDesc_keeps {s : State} {n : Nat} {d : Desc} (hg : Good ev s) :
    Good ev (State.finishDesc s n d) := by
  unfold State.finishDesc
  repeat' first
    | with_reducible first
      | assumption | rfl | exact Or.inr rfl | exact Or.inl ‹_› | refine Good.of_pair (by assumption) ?_
      | apply State.endDesc_keeps | intro _ | apply Good.ite_of | apply apply_ite_good | split | dsimp only
      | apply good_upd
    | exact Or.inr rfl | exact rfl

theorem State.abortAtWord_keeps {s : State} {n : Nat} {d : Desc} {w : Nat} (hg : Good ev s) :
    Good ev (State.abortAtWord s n d w) := by
  unfold State.abortAtWord
  repeat' first
    | with_reducible first
      | assumption | rfl | exact Or.inr rfl | exact Or.inl ‹_› | refine Good.of_pair (by assumption) ?_
      | apply State.endDesc_keeps | intro _ | apply Good.ite_of | apply apply_ite_good | split | dsimp only
      | apply good_upd
    | exact Or.inr rfl | exact rfl

theorem State.ingested_keeps {s : State} {k : Nat} {mor : Bool} (hg : Good ev s) :
    Good ev (State.ingested s k mor) := by
  unfold State.ingested
  repeat' first
    | with_reducible first
      | assumption | rfl | exact Or.inr rfl | exact Or.inl ‹_› | refine Good.of_pair (by assumption) ?_ | intro _
      | apply Good.ite_of | apply apply_ite_good | split | dsimp only | apply good_upd
    | exact Or.inr rfl | exact rfl

theorem State.writeWord_keeps {s : State} {n : Nat} {d : Desc} {v : BitVec 512} (hg : Good ev s) :
    Good ev (State.writeWord s n d v).2 := by
  unfold State.writeWord
  repeat' first
    | with_reducible first
      | assumption | rfl | exact Or.inr rfl | exact Or.inl ‹_› | refine Good.of_pair (by assumption) ?_
      | apply State.abortAtWord_keeps | apply State.morArrive_keeps | apply State.firnWrite_keeps
      | apply State.modDesc_keeps | intro _ | apply Good.ite_of | apply apply_ite_good | split | dsimp only
      | apply good_upd
    | exact Or.inr rfl | exact rfl

theorem State.writeWords_keeps {s : State} {n : Nat} {slot : Nat} {y0 : Nat} {y1 : List Byte} (hg : Good ev s) :
    Good ev (State.writeWords s n slot y0 y1) := by
  induction y0 generalizing s n slot y1 with
  | zero =>
    unfold State.writeWords
    repeat' first
      | with_reducible first
        | assumption | rfl | exact Or.inr rfl | exact Or.inl ‹_› | refine Good.of_pair (by assumption) ?_
        | apply State.writeWord_keeps | apply State.issueReads_keeps | intro _ | apply Good.ite_of
        | apply apply_ite_good | split | dsimp only | apply good_upd
      | exact Or.inr rfl | exact rfl
  | succ k ih =>
    unfold State.writeWords
    repeat' first
      | with_reducible first
        | assumption | rfl | exact Or.inr rfl | exact Or.inl ‹_› | apply ih | refine Good.of_pair (by assumption) ?_
        | apply State.writeWord_keeps | apply State.issueReads_keeps | intro _ | apply Good.ite_of
        | apply apply_ite_good | split | dsimp only | apply good_upd
      | exact Or.inr rfl | exact rfl

theorem State.writeData_keeps {s : State} {n : Nat} {d : Desc} {p : List Byte} (hg : Good ev s) :
    Good ev (State.writeData s n d p) := by
  unfold State.writeData
  repeat' first
    | with_reducible first
      | assumption | rfl | exact Or.inr rfl | exact Or.inl ‹_› | refine Good.of_pair (by assumption) ?_
      | apply State.writeWords_keeps | apply State.ingested_keeps | apply State.issueReads_keeps | intro _
      | apply Good.ite_of | apply apply_ite_good | split | dsimp only | apply good_upd
    | exact Or.inr rfl | exact rfl

theorem State.readWord_keeps {s : State} {n : Nat} {d : Desc} (hg : Good ev s) :
    Good ev (State.readWord s n d).2 := by
  unfold State.readWord
  repeat' first
    | with_reducible first
      | assumption | rfl | exact Or.inr rfl | exact Or.inl ‹_› | refine Good.of_pair (by assumption) ?_
      | apply State.abortAtWord_keeps | apply State.hostWord_keeps | apply State.portRead_keeps
      | apply State.endDesc_keeps | intro _ | apply Good.ite_of | apply apply_ite_good | split | dsimp only
      | apply good_upd
    | exact Or.inr rfl | exact rfl

theorem State.readWords_keeps {s : State} {n : Nat} {slot : Nat} {y0 : Nat} (hg : Good ev s) :
    Good ev (State.readWords s n slot y0) := by
  induction y0 generalizing s n slot with
  | zero =>
    unfold State.readWords
    repeat' first
      | with_reducible first
        | assumption | rfl | exact Or.inr rfl | exact Or.inl ‹_› | refine Good.of_pair (by assumption) ?_
        | apply State.readWord_keeps | intro _ | apply Good.ite_of | apply apply_ite_good | split | dsimp only
        | apply good_upd
      | exact Or.inr rfl | exact rfl
  | succ k ih =>
    unfold State.readWords
    repeat' first
      | with_reducible first
        | assumption | rfl | exact Or.inr rfl | exact Or.inl ‹_› | apply ih | refine Good.of_pair (by assumption) ?_
        | apply State.readWord_keeps | intro _ | apply Good.ite_of | apply apply_ite_good | split | dsimp only
        | apply good_upd
      | exact Or.inr rfl | exact rfl

theorem State.readTurn_keeps {s : State} {n : Nat} {slot : Nat} {y0 : Nat} (hg : Good ev s) :
    Good ev (State.readTurn s n slot y0) := by
  induction y0 generalizing s n slot with
  | zero =>
    unfold State.readTurn
    repeat' first
      | with_reducible first
        | assumption | rfl | exact Or.inr rfl | exact Or.inl ‹_› | refine Good.of_pair (by assumption) ?_
        | apply State.readWords_keeps | intro _ | apply Good.ite_of | apply apply_ite_good | split | dsimp only
        | apply good_upd
      | exact Or.inr rfl | exact rfl
  | succ k ih =>
    unfold State.readTurn
    repeat' first
      | with_reducible first
        | assumption | rfl | exact Or.inr rfl | exact Or.inl ‹_› | apply ih | refine Good.of_pair (by assumption) ?_
        | apply State.readWords_keeps | intro _ | apply Good.ite_of | apply apply_ite_good | split | dsimp only
        | apply good_upd
      | exact Or.inr rfl | exact rfl

theorem State.dataEnds_keeps {s : State} {n : Nat} {d : Desc} {rest : List Byte} (hg : Good ev s) :
    Good ev (State.dataEnds s n d rest) := by
  unfold State.dataEnds
  repeat' first
    | with_reducible first
      | assumption | rfl | exact Or.inr rfl | exact Or.inl ‹_› | refine Good.of_pair (by assumption) ?_
      | apply State.readTurn_keeps | apply State.writeData_keeps | apply State.finishDesc_keeps
      | apply State.modDesc_keeps | intro _ | apply Good.ite_of | apply apply_ite_good | split | dsimp only
      | apply good_upd
    | exact Or.inr rfl | exact rfl

theorem State.orderTargets_keeps {s : State} {n : Nat} {d : Desc} {src : OrdSrc} {oseq : BitVec 32} (hg : Good ev s) :
    Good ev (s.orderTargets n d src oseq) := by
  unfold State.orderTargets
  extract_lets due target step
  have hf : ∀ (l : List Nat) (x : State × List (Nat × Option Nat)), Good ev x.1 → Good ev (l.foldl step x).1 := by
    intro l
    induction l with
    | nil => exact fun x h => h
    | cons k l ih =>
      intro x h
      refine ih _ ?_
      dsimp only [step]
      split
      · exact h
      · exact State.finishOrd_keeps h
  have h := hf d.chans (s, []) hg
  generalize d.chans.foldl step (s, []) = p at h
  obtain ⟨t, taken⟩ := p
  dsimp only
  split
  · exact h
  · exact good_upd h rfl rfl (.inr rfl) (.inr rfl)

theorem State.sendEnds_keeps {s : State} {n : Nat} {d : Desc} {status : Nat} {aux : Nat} (hg : Good ev s) :
    Good ev (State.sendEnds s n d status aux) := by
  unfold State.sendEnds
  repeat' first
    | with_reducible first
      | assumption | rfl | exact Or.inr rfl | exact Or.inl ‹_› | refine Good.of_pair (by assumption) ?_
      | apply State.complete_keeps | apply State.modDesc_keeps | apply State.freeVal_keeps | intro _
      | apply Good.ite_of | apply apply_ite_good | split | dsimp only | apply good_upd
    | exact Or.inr rfl | exact rfl

theorem State.orderSend_keeps {s : State} {n : Nat} {d : Desc} (hg : Good ev s) :
    Good ev (State.orderSend s n d) := by
  unfold State.orderSend
  repeat' first
    | with_reducible first
      | assumption | rfl | exact Or.inr rfl | exact Or.inl ‹_› | refine Good.of_pair (by assumption) ?_
      | apply State.sendEnds_keeps | apply State.orderTargets_keeps | apply State.launchSend_keeps
      | apply State.modDesc_keeps | intro _ | apply Good.ite_of | apply apply_ite_good | split | dsimp only
      | apply good_upd
    | exact Or.inr rfl | exact rfl

theorem State.orderDesc_keeps {s : State} {n : Nat} (hg : Good ev s) :
    Good ev (State.orderDesc s n) := by
  unfold State.orderDesc
  repeat' first
    | with_reducible first
      | assumption | rfl | exact Or.inr rfl | exact Or.inl ‹_› | refine Good.of_pair (by assumption) ?_
      | apply State.orderSend_keeps | apply State.orderTargets_keeps | apply State.refuseRetired_keeps
      | apply State.endDesc_keeps | apply State.modDesc_keeps | intro _ | apply Good.ite_of | apply apply_ite_good
      | split | dsimp only | apply good_upd
    | exact Or.inr rfl | exact rfl

theorem State.launchSent_keeps {s : State} {n : Nat} {d : Desc} (hg : Good ev s) :
    Good ev (State.launchSent s n d) := by
  unfold State.launchSent
  repeat' first
    | with_reducible first
      | assumption | rfl | exact Or.inr rfl | exact Or.inl ‹_› | refine Good.of_pair (by assumption) ?_
      | apply State.sendEnds_keeps | intro _ | apply Good.ite_of | apply apply_ite_good | split | dsimp only
      | apply good_upd
    | exact Or.inr rfl | exact rfl

theorem State.payloadNow_keeps {s : State} {d : Desc} (hg : Good ev s) :
    Good ev (State.payloadNow s d) := by
  unfold State.payloadNow
  repeat' first
    | with_reducible first
      | assumption | rfl | exact Or.inr rfl | exact Or.inl ‹_› | refine Good.of_pair (by assumption) ?_
      | apply State.readNow_keeps | intro _ | apply Good.ite_of | apply apply_ite_good | split | dsimp only
      | apply good_upd
    | exact Or.inr rfl | exact rfl

theorem State.stageImage_keeps {s : State} {n : Nat} {d : Desc} {image : List (BitVec 64)} (hg : Good ev s) :
    Good ev (State.stageImage s n d image) := by
  unfold State.stageImage
  repeat' first
    | with_reducible first
      | assumption | rfl | exact Or.inr rfl | exact Or.inl ‹_› | refine Good.of_pair (by assumption) ?_ | intro _
      | apply Good.ite_of | apply apply_ite_good | split | dsimp only | apply good_upd
    | exact Or.inr rfl | exact rfl

theorem State.sendMessage_keeps {s : State} {n : Nat} {d : Desc} {p : List Byte} (hg : Good ev s) :
    Good ev (State.sendMessage s n d p) := by
  unfold State.sendMessage
  repeat' first
    | with_reducible first
      | assumption | rfl | exact Or.inr rfl | exact Or.inl ‹_› | refine Good.of_pair (by assumption) ?_
      | apply State.mailSend_keeps | apply State.endDesc_keeps | intro _ | apply Good.ite_of | apply apply_ite_good
      | split | dsimp only | apply good_upd
    | exact Or.inr rfl | exact rfl

theorem State.fenceEnds_keeps {s : State} {n : Nat} (hg : Good ev s) :
    Good ev (State.fenceEnds s n) := by
  unfold State.fenceEnds
  repeat' first
    | with_reducible first
      | assumption | rfl | exact Or.inr rfl | exact Or.inl ‹_› | refine Good.of_pair (by assumption) ?_
      | apply State.endDesc_keeps | intro _ | apply Good.ite_of | apply apply_ite_good | split | dsimp only
      | apply good_upd
    | exact Or.inr rfl | exact rfl

theorem State.hostFails_keeps {s : State} {n : Nat} {slot : BitVec 15} {c : HostCause} (hg : Good ev s) :
    Good ev (State.hostFails s n slot c) := by
  unfold State.hostFails
  repeat' first
    | with_reducible first
      | assumption | rfl | exact Or.inr rfl | exact Or.inl ‹_› | refine Good.of_pair (by assumption) ?_
      | apply State.reportAer_keeps | apply State.issueReads_keeps | apply State.endDesc_keeps
      | apply State.detect_keeps | intro _ | apply Good.ite_of | apply apply_ite_good | split | dsimp only
      | apply good_upd
    | exact Or.inr rfl | exact rfl

theorem State.bar4Abort_keeps {s : State} (hg : Good ev s) :
    Good ev (State.bar4Abort s) := by
  unfold State.bar4Abort
  repeat' first
    | with_reducible first
      | assumption | rfl | exact Or.inr rfl | exact Or.inl ‹_› | refine Good.of_pair (by assumption) ?_
      | apply State.miscIrq_keeps | apply State.bump_keeps | apply State.raise_keeps | intro _ | apply Good.ite_of
      | apply apply_ite_good | split | dsimp only | apply good_upd
    | exact Or.inr rfl | exact rfl

theorem State.bar4Bytes_keeps {s : State} {a k : Nat} (hg : Good ev s) : Good ev (s.bar4Bytes a k).2.2 := by
  induction k with
  | zero =>
    unfold State.bar4Bytes
    exact hg
  | succ k ih =>
    unfold State.bar4Bytes
    dsimp only
    generalize s.bar4Bytes a k = p at ih
    obtain ⟨l, bad, t⟩ := p
    dsimp only at ih ⊢
    split
    · next h => exact Good.of_pair h (apply_ite_good (State.portRead_keeps ih) ih)
    · next h => exact Good.of_pair h (apply_ite_good (State.portRead_keeps ih) ih)

theorem State.bar4Read_keeps {s : State} {a k : Nat} (hg : Good ev s) : Good ev (s.bar4Read a k) := by
  have h1 : Good ev (s.bar4Bytes a k).2.2 := State.bar4Bytes_keeps hg
  unfold State.bar4Read
  exact good_upd h1 rfl rfl (.inr rfl) (.inr rfl)

theorem State.bar4Word_keeps {s : State} {a : Nat} {l : List Byte} (hg : Good ev s) :
    Good ev (State.bar4Word s a l).2 := by
  unfold State.bar4Word
  repeat' first
    | with_reducible first
      | assumption | rfl | exact Or.inr rfl | exact Or.inl ‹_› | refine Good.of_pair (by assumption) ?_
      | apply State.firnUe_keeps | apply State.firnWrite_keeps | apply State.firnPlace_keeps | apply State.bump_keeps
      | intro _ | apply Good.ite_of | apply apply_ite_good | split | dsimp only | apply good_upd
    | exact Or.inr rfl | exact rfl

theorem State.bar4Write_keeps {s : State} {a : Nat} {l : List Byte} (hg : Good ev s) :
    Good ev (State.bar4Write s a l) := by
  unfold State.bar4Write
  repeat' first
    | with_reducible first
      | assumption | rfl | exact Or.inr rfl | exact Or.inl ‹_› | refine Good.of_pair (by assumption) ?_
      | apply good_foldl | apply good_foldl_snd | apply State.bar4Word_keeps | apply State.bar4Abort_keeps | intro _
      | apply Good.ite_of | apply apply_ite_good | split | dsimp only | apply good_upd
    | exact Or.inr rfl | exact rfl

theorem State.ringsOff_keeps {s : State} (hg : Good ev s) :
    Good ev (State.ringsOff s) := by
  unfold State.ringsOff
  repeat' first
    | with_reducible first
      | assumption | rfl | exact Or.inr rfl | exact Or.inl ‹_› | refine Good.of_pair (by assumption) ?_
      | apply State.each_keeps | apply State.setFld_keeps | intro _ | apply Good.ite_of | apply apply_ite_good | split
      | dsimp only | apply good_upd
    | exact Or.inr rfl | exact rfl

theorem State.linkDown_keeps {s : State} (hg : Good ev s) : Good ev s.linkDown := by
  have h1 : Good ev (s.ringsOff.each (List.range 256) (fun s n =>
      if (s.ring n).descs.isEmpty then s
      else
        let s := s.each (s.ring n).descs (fun s d => s.modRing d.cpl (fun r => { r with reserved := r.reserved - d.reserved }))
        s.modRing n (fun r => { r with descs := [] }))) := by
    refine State.each_keeps (State.ringsOff_keeps hg) (fun t n h => ?_)
    dsimp only
    split
    · exact h
    · exact State.modRing_keeps (State.each_keeps h (fun u d hu => State.modRing_keeps hu))
  unfold State.linkDown
  split
  · exact hg
  · dsimp only at h1 ⊢
    generalize State.each s.ringsOff _ _ = t at h1 ⊢
    have h2 : Good ev { t with time := t.time.orphan } := good_upd h1 rfl rfl (.inr rfl) (.inr rfl)
    have h3 := State.detect_keeps (cls := 0x05) (kind := 0) (index := 0) (detail := 0) (permanent := false)
      (State.miscIrq_keeps (State.raise_keeps (a := aMiscStat) (m := bit1 2) (State.sendsGone_keeps h2)))
    exact good_upd h3 rfl rfl (.inr rfl) (.inr rfl)

theorem State.linkComesUp_keeps {s : State} {gen : BitVec 3} {width : BitVec 5} (hg : Good ev s) :
    Good ev (State.linkComesUp s gen width) := by
  unfold State.linkComesUp
  repeat' first
    | with_reducible first
      | assumption | rfl | exact Or.inr rfl | exact Or.inl ‹_› | refine Good.of_pair (by assumption) ?_
      | apply State.miscIrq_keeps | apply State.raiseIf_keeps | intro _ | apply Good.ite_of | apply apply_ite_good
      | split | dsimp only | apply good_upd
    | exact Or.inr rfl | exact rfl

theorem State.overflowDue_keeps {s : State} {n : Nat} (hg : Good ev s) :
    Good ev (State.overflowDue s n) := by
  unfold State.overflowDue
  repeat' first
    | with_reducible first
      | assumption | rfl | exact Or.inr rfl | exact Or.inl ‹_› | refine Good.of_pair (by assumption) ?_
      | apply State.writeOverflow_keeps | intro _ | apply Good.ite_of | apply apply_ite_good | split | dsimp only
      | apply good_upd
    | exact Or.inr rfl | exact rfl

theorem State.ageSignal_keeps {s : State} {n : Nat} (hg : Good ev s) (hb : ev.beat = none) :
    Good ev (State.ageSignal s n) := by
  unfold State.ageSignal
  repeat' first
    | with_reducible first
      | assumption | rfl | exact Or.inr rfl | exact Or.inl ‹_› | refine Good.of_pair (by assumption) ?_
      | apply State.toFt_keeps | apply State.signalRing_keeps | intro _ | apply Good.ite_of | apply apply_ite_good
      | split | dsimp only | apply good_upd
    | exact Or.inr rfl | exact rfl

end Sys2Proof.Machine
end

