-- ==== Sys2Proof/Laws/KeepExecCle.lean ====
section
/-!
SUPPORT. What every operation of Machine/ExecCle.lean keeps (Laws/Keep.lean).
-/

namespace Sys2Proof.Machine

variable {ev : Env}

theorem State.lawOver_keeps {s : State} (hg : Good ev s) (hb : ev.beat = none) :
    Good ev (State.lawOver s) := by
  unfold State.lawOver
  repeat' first
    | with_reducible first
      | assumption | rfl | exact Or.inr rfl | exact Or.inl ‹_› | refine Good.of_pair (by assumption) ?_
      | apply State.advance_keeps | intro _ | apply Good.ite_of | apply apply_ite_good | split | dsimp only
      | apply good_upd
    | exact Or.inr rfl | exact rfl

end Sys2Proof.Machine
end

