-- ==== Sys2Proof/Laws/KeepExecClk.lean ====
section
/-!
SUPPORT. What every operation of Machine/ExecClk.lean keeps (Laws/Keep.lean).
-/

namespace Sys2Proof.Machine

variable {ev : Env}

theorem State.pllChanged_keeps {s : State} {p : Pll} (hg : Good ev s) :
    Good ev (State.pllChanged s p) := by
  unfold State.pllChanged
  repeat' first
    | with_reducible first
      | assumption | rfl | exact Or.inr rfl | exact Or.inl ‹_› | refine Good.of_pair (by assumption) ?_
      | apply State.bringCheck_keeps | apply State.bootStep_keeps | intro _ | apply Good.ite_of | apply apply_ite_good
      | split | dsimp only | apply good_upd
    | exact Or.inr rfl | exact rfl

theorem State.refJudged_keeps {s : State} {p : Pll} {pin : RefPin} {present : Bool} (hg : Good ev s) :
    Good ev (State.refJudged s p pin present) := by
  unfold State.refJudged
  repeat' first
    | with_reducible first
      | assumption | rfl | exact Or.inr rfl | exact Or.inl ‹_› | refine Good.of_pair (by assumption) ?_
      | apply State.rootFollows_keeps | apply State.refBack_keeps | apply State.refLost_keeps
      | apply State.modClk_keeps | intro _ | apply Good.ite_of | apply apply_ite_good | split | dsimp only
      | apply good_upd
    | exact Or.inr rfl | exact rfl

end Sys2Proof.Machine
end

