-- ==== Sys2Proof/Laws/KeepExecFirn.lean ====
section
/-!
SUPPORT. What every operation of Machine/ExecFirn.lean keeps (Laws/Keep.lean).
-/

namespace Sys2Proof.Machine

variable {ev : Env}

theorem State.rimeEnds_keeps {s : State} (hg : Good ev s) :
    Good ev (State.rimeEnds s) := by
  unfold State.rimeEnds
  repeat' first
    | with_reducible first
      | assumption | rfl | exact Or.inr rfl | exact Or.inl ‹_› | refine Good.of_pair (by assumption) ?_
      | apply State.failWord_keeps | apply State.modRime_keeps | apply State.each_keeps | intro _ | apply Good.ite_of
      | apply apply_ite_good | split | dsimp only | apply good_upd
    | exact Or.inr rfl | exact rfl

theorem State.rimeTurn_keeps {s : State} (hg : Good ev s) :
    Good ev (State.rimeTurn s) := by
  unfold State.rimeTurn
  repeat' first
    | with_reducible first
      | assumption | rfl | exact Or.inr rfl | exact Or.inl ‹_› | refine Good.of_pair (by assumption) ?_
      | apply State.rimeEnds_keeps | apply State.copySwitch_keeps | apply State.marchEnd_keeps
      | apply State.rimePhase_keeps | intro _ | apply Good.ite_of | apply apply_ite_good | split | dsimp only
      | apply good_upd
    | exact Or.inr rfl | exact rfl

theorem State.writeBack_keeps {s : State} (hg : Good ev s) :
    Good ev (State.writeBack s) := by
  unfold State.writeBack
  repeat' first
    | with_reducible first
      | assumption | rfl | exact Or.inr rfl | exact Or.inl ‹_› | refine Good.of_pair (by assumption) ?_
      | apply State.firnCycle_keeps | intro _ | apply Good.ite_of | apply apply_ite_good | split | dsimp only
      | apply good_upd
    | exact Or.inr rfl | exact rfl

theorem State.rimeRun_keeps {s : State} {st : RimeSt} {n : Nat} {l : List MarchMiss} {f : State → State} (hg : Good
    ev s) (hgf : ∀ t, Good ev t → Good ev (f t)) (hb : ev.beat = none) :
    Good ev (State.rimeRun s st n l f) := by
  unfold State.rimeRun
  repeat' first
    | with_reducible first
      | assumption | rfl | exact Or.inr rfl | exact Or.inl ‹_› | refine Good.of_pair (by assumption) ?_
      | apply State.toCycle_keeps | apply State.rimeTimeout_keeps | apply hgf | intro _ | apply Good.ite_of
      | apply apply_ite_good | split | dsimp only | apply good_upd
    | exact Or.inr rfl | exact rfl

end Sys2Proof.Machine
end

