-- ==== Sys2Proof/Laws/KeepExecHk.lean ====
section
/-!
SUPPORT. What every operation of Machine/ExecHk.lean keeps (Laws/Keep.lean).
-/

namespace Sys2Proof.Machine

variable {ev : Env}

theorem State.mailbox_keeps {s : State} {rq : Requester} {be : BitVec 4} {opcode : BitVec 8} {seq : BitVec 8} (hg :
    Good ev s) :
    Good ev (State.mailbox s rq be opcode seq) := by
  unfold State.mailbox
  repeat' first
    | with_reducible first
      | assumption | rfl | exact Or.inr rfl | exact Or.inl ‹_› | refine Good.of_pair (by assumption) ?_
      | apply State.during_keeps | apply State.mbTake_keeps | apply State.busWrite_keeps | intro _ | apply Good.ite_of
      | apply apply_ite_good | split | dsimp only | apply good_upd
    | exact Or.inr rfl | exact rfl

theorem State.sysrefRow_keeps {s : State} (hg : Good ev s) (hb : ev.beat = none) :
    Good ev (State.sysrefRow s) := by
  unfold State.sysrefRow
  repeat' first
    | with_reducible first
      | assumption | rfl | exact Or.inr rfl | exact Or.inl ‹_› | refine Good.of_pair (by assumption) ?_
      | apply State.toFt_keeps | apply State.coreCycle_keeps | intro _ | apply Good.ite_of | apply apply_ite_good
      | split | dsimp only | apply good_upd
    | exact Or.inr rfl | exact rfl

theorem State.sensorsRead_keeps {s : State} {l : List Int} (hg : Good ev s) :
    Good ev (State.sensorsRead s l) := by
  unfold State.sensorsRead
  repeat' first
    | with_reducible first
      | assumption | rfl | exact Or.inr rfl | exact Or.inl ‹_› | refine Good.of_pair (by assumption) ?_ | intro _
      | apply Good.ite_of | apply apply_ite_good | split | dsimp only | apply good_upd
    | exact Or.inr rfl | exact rfl

theorem State.suppliesRead_keeps {s : State} {l : List Nat} (hg : Good ev s) :
    Good ev (State.suppliesRead s l) := by
  unfold State.suppliesRead
  repeat' first
    | with_reducible first
      | assumption | rfl | exact Or.inr rfl | exact Or.inl ‹_› | refine Good.of_pair (by assumption) ?_
      | apply State.raise_keeps | intro _ | apply Good.ite_of | apply apply_ite_good | split | dsimp only
      | apply good_upd
    | exact Or.inr rfl | exact rfl

end Sys2Proof.Machine
end

