-- ==== Sys2Proof/Laws/KeepExecMkr.lean ====
section
/-!
SUPPORT. What every operation of Machine/ExecMkr.lean keeps (Laws/Keep.lean).
-/

namespace Sys2Proof.Machine

variable {ev : Env}

theorem State.edgeRow_keeps {s : State} {f : State → Option Nat} {act : State → State} (hg : Good ev s) (hgact : ∀
    t, Good ev t → Good ev (act t)) (hb : ev.beat = none) :
    Good ev (State.edgeRow s f act) := by
  unfold State.edgeRow
  repeat' first
    | with_reducible first
      | assumption | rfl | exact Or.inr rfl | exact Or.inl ‹_› | refine Good.of_pair (by assumption) ?_
      | apply State.atEdge_keeps | apply hgact | intro _ | apply Good.ite_of | apply apply_ite_good | split
      | dsimp only | apply good_upd
    | exact Or.inr rfl | exact rfl

theorem State.pairUntil_keeps {s : State} {p : State → Bool} {y0 : Nat} (hg : Good ev s) (hb : ev.beat = none) :
    Good ev (State.pairUntil s p y0) := by
  induction y0 generalizing s with
  | zero =>
    unfold State.pairUntil
    repeat' first
      | with_reducible first
        | assumption | rfl | exact Or.inr rfl | exact Or.inl ‹_› | refine Good.of_pair (by assumption) ?_
        | apply State.coreCycle_keeps | intro _ | apply Good.ite_of | apply apply_ite_good | split | dsimp only
        | apply good_upd
      | exact Or.inr rfl | exact rfl
  | succ k ih =>
    unfold State.pairUntil
    repeat' first
      | with_reducible first
        | assumption | rfl | exact Or.inr rfl | exact Or.inl ‹_› | apply ih | refine Good.of_pair (by assumption) ?_
        | apply State.coreCycle_keeps | intro _ | apply Good.ite_of | apply apply_ite_good | split | dsimp only
        | apply good_upd
      | exact Or.inr rfl | exact rfl

theorem State.pairRow_keeps {s : State} {k : Nat} {p : State → Bool} (hg : Good ev s) (hb : ev.beat = none) :
    Good ev (State.pairRow s k p) := by
  unfold State.pairRow
  repeat' first
    | with_reducible first
      | assumption | rfl | exact Or.inr rfl | exact Or.inl ‹_› | refine Good.of_pair (by assumption) ?_
      | apply State.pairUntil_keeps | apply State.coreCycle_keeps | intro _ | apply Good.ite_of | apply apply_ite_good
      | split | dsimp only | apply good_upd
    | exact Or.inr rfl | exact rfl

theorem State.padBad_keeps {s : State} {l : Nat} (hg : Good ev s) :
    Good ev (State.padBad s l) := by
  unfold State.padBad
  repeat' first
    | with_reducible first
      | assumption | rfl | exact Or.inr rfl | exact Or.inl ‹_› | refine Good.of_pair (by assumption) ?_
      | apply State.detect_keeps | apply State.modLine_keeps | intro _ | apply Good.ite_of | apply apply_ite_good
      | split | dsimp only | apply good_upd
    | exact Or.inr rfl | exact rfl

theorem State.serialLost_keeps {s : State} {k : Nat} (hg : Good ev s) :
    Good ev (State.serialLost s k) := by
  unfold State.serialLost
  repeat' first
    | with_reducible first
      | assumption | rfl | exact Or.inr rfl | exact Or.inl ‹_› | refine Good.of_pair (by assumption) ?_
      | apply State.detect_keeps | apply State.setTxl_keeps | intro _ | apply Good.ite_of | apply apply_ite_good
      | split | dsimp only | apply good_upd
    | exact Or.inr rfl | exact rfl

end Sys2Proof.Machine
end

