-- ==== Sys2Proof/Laws/KeepExecMor.lean ====
section
/-!
SUPPORT. What every operation of Machine/ExecMor.lean keeps (Laws/Keep.lean).
-/

namespace Sys2Proof.Machine

variable {ev : Env}

theorem State.calDue_keeps {s : State} {ch : Nat} {k : CalKind} (hg : Good ev s) (hb : ev.beat = none) :
    Good ev (State.calDue s ch k) := by
  unfold State.calDue
  repeat' first
    | with_reducible first
      | assumption | rfl | exact Or.inr rfl | exact Or.inl ‹_› | refine Good.of_pair (by assumption) ?_
      | apply State.morUntil_keeps | apply State.modChan_keeps | intro _ | apply Good.ite_of | apply apply_ite_good
      | split | dsimp only | apply good_upd
    | exact Or.inr rfl | exact rfl

theorem State.calSkip_keeps {s : State} {ch : Nat} {k : CalKind} (hg : Good ev s) (hb : ev.beat = none) :
    Good ev (State.calSkip s ch k) := by
  unfold State.calSkip
  repeat' first
    | with_reducible first
      | assumption | rfl | exact Or.inr rfl | exact Or.inl ‹_› | refine Good.of_pair (by assumption) ?_
      | apply State.calDue_keeps | apply State.morUntil_keeps | apply State.skipRecord_keeps | apply State.bump_keeps
      | apply State.modChan_keeps | intro _ | apply Good.ite_of | apply apply_ite_good | split | dsimp only
      | apply good_upd
    | exact Or.inr rfl | exact rfl

theorem State.refreshDue_keeps {s : State} {ch : Nat} {sub : Nat} {rank : Nat} (hg : Good ev s) (hb : ev.beat =
    none) :
    Good ev (State.refreshDue s ch sub rank) := by
  unfold State.refreshDue
  repeat' first
    | with_reducible first
      | assumption | rfl | exact Or.inr rfl | exact Or.inl ‹_› | refine Good.of_pair (by assumption) ?_
      | apply State.morUntil_keeps | intro _ | apply Good.ite_of | apply apply_ite_good | split | dsimp only
      | apply good_upd
    | exact Or.inr rfl | exact rfl

theorem State.rfmDue_keeps {s : State} {ch : Nat} {bank : Nat} (hg : Good ev s) (hb : ev.beat = none) :
    Good ev (State.rfmDue s ch bank) := by
  unfold State.rfmDue
  repeat' first
    | with_reducible first
      | assumption | rfl | exact Or.inr rfl | exact Or.inl ‹_› | refine Good.of_pair (by assumption) ?_
      | apply State.morUntil_keeps | intro _ | apply Good.ite_of | apply apply_ite_good | split | dsimp only
      | apply good_upd
    | exact Or.inr rfl | exact rfl

theorem State.srWait_keeps {s : State} {ch : Nat} (hg : Good ev s) (hb : ev.beat = none) :
    Good ev (State.srWait s ch) := by
  unfold State.srWait
  repeat' first
    | with_reducible first
      | assumption | rfl | exact Or.inr rfl | exact Or.inl ‹_› | refine Good.of_pair (by assumption) ?_
      | apply State.morUntil_keeps | intro _ | apply Good.ite_of | apply apply_ite_good | split | dsimp only
      | apply good_upd
    | exact Or.inr rfl | exact rfl

theorem State.morBack_keeps {s : State} {ch : Nat} {flips : BitVec 640} (hg : Good ev s) (hb : ev.beat = none) :
    Good ev (State.morBack s ch flips) := by
  unfold State.morBack
  repeat' first
    | with_reducible first
      | assumption | rfl | exact Or.inr rfl | exact Or.inl ‹_› | refine Good.of_pair (by assumption) ?_
      | apply State.morUntil_keeps | apply State.morHostIssue_keeps | apply State.morReturn_keeps | intro _
      | apply Good.ite_of | apply apply_ite_good | split | dsimp only | apply good_upd
    | exact Or.inr rfl | exact rfl

theorem State.thGo_keeps {s : State} {ch : Nat} {op : Nat} {w : Wr} (hg : Good ev s) :
    Good ev (State.thGo s ch op w) := by
  unfold State.thGo
  repeat' first
    | with_reducible first
      | assumption | rfl | exact Or.inr rfl | exact Or.inl ‹_› | refine Good.of_pair (by assumption) ?_
      | apply State.write_keeps | intro _ | apply Good.ite_of | apply apply_ite_good | split | dsimp only
      | apply good_upd
    | exact Or.inr rfl | exact rfl

end Sys2Proof.Machine
end

