-- ==== Sys2Proof/Laws/KeepExecNzl.lean ====
section
/-!
SUPPORT. What every operation of Machine/ExecNzl.lean keeps (Laws/Keep.lean).
-/

namespace Sys2Proof.Machine

variable {ev : Env}

theorem State.stampsCalibrated_keeps {s : State} {n : Nat} (hg : Good ev s) :
    Good ev (State.stampsCalibrated s n) := by
  unfold State.stampsCalibrated
  repeat' first
    | with_reducible first
      | assumption | rfl | exact Or.inr rfl | exact Or.inl ‹_› | refine Good.of_pair (by assumption) ?_
      | apply State.modLink_keeps | intro _ | apply Good.ite_of | apply apply_ite_good | split | dsimp only
      | apply good_upd
    | exact Or.inr rfl | exact rfl

theorem State.fabricWait_keeps {s : State} {waits : State → Bool} (hg : Good ev s) (hb : ev.beat = none) :
    Good ev (State.fabricWait s waits) := by
  unfold State.fabricWait
  repeat' first
    | with_reducible first
      | assumption | rfl | exact Or.inr rfl | exact Or.inl ‹_› | refine Good.of_pair (by assumption) ?_
      | apply State.passUntil_keeps | intro _ | apply Good.ite_of | apply apply_ite_good | split | dsimp only
      | apply good_upd
    | exact Or.inr rfl | exact rfl

end Sys2Proof.Machine
end

