-- ==== Sys2Proof/Laws/KeepExecOrders.lean ====
section
/-!
SUPPORT. What every operation of Machine/ExecOrders.lean keeps (Laws/Keep.lean).
-/

namespace Sys2Proof.Machine

variable {ev : Env}

theorem State.orderRow_keeps {s : State} {n : Nat} {lane : Nat} {p : BitVec 128 → Bool} (hg : Good ev s) (hb :
    ev.beat = none) :
    Good ev (State.orderRow s n lane p) := by
  unfold State.orderRow
  repeat' first
    | with_reducible first
      | assumption | rfl | exact Or.inr rfl | exact Or.inl ‹_› | refine Good.of_pair (by assumption) ?_
      | apply State.atEdge_keeps | apply State.winnerActs_keeps | intro _ | apply Good.ite_of | apply apply_ite_good
      | split | dsimp only | apply good_upd
    | exact Or.inr rfl | exact rfl

theorem State.trigRow_keeps {s : State} {n : Nat} {t : Nat} {action : Nat} {sample : Nat} (hg : Good ev s) (hb :
    ev.beat = none) :
    Good ev (State.trigRow s n t action sample) := by
  unfold State.trigRow
  repeat' first
    | with_reducible first
      | assumption | rfl | exact Or.inr rfl | exact Or.inl ‹_› | refine Good.of_pair (by assumption) ?_
      | apply State.atEdge_keeps | apply State.trigActs_keeps | intro _ | apply Good.ite_of | apply apply_ite_good
      | split | dsimp only | apply good_upd
    | exact Or.inr rfl | exact rfl

end Sys2Proof.Machine
end

