-- ==== Sys2Proof/Laws/KeepExecPlay.lean ====
section
/-!
SUPPORT. What every operation of Machine/ExecPlay.lean keeps (Laws/Keep.lean).
-/

namespace Sys2Proof.Machine

variable {ev : Env}

theorem State.entryRow_keeps {s : State} {n : Nat} {op : Nat} {act : State → LEntry → State} (hg : Good ev s) (hgact
    : ∀ t x1, Good ev t → Good ev (act t x1)) (hb : ev.beat = none) :
    Good ev (State.entryRow s n op act) := by
  unfold State.entryRow
  repeat' first
    | with_reducible first
      | assumption | rfl | exact Or.inr rfl | exact Or.inl ‹_› | refine Good.of_pair (by assumption) ?_
      | apply State.atEdge_keeps | apply State.flagsDue_keeps | apply State.entryStep_keeps | apply hgact | intro _
      | apply Good.ite_of | apply apply_ite_good | split | dsimp only | apply good_upd
    | exact Or.inr rfl | exact rfl

theorem State.playEndRow_keeps {s : State} {n : Nat} (hg : Good ev s) (hb : ev.beat = none) :
    Good ev (State.playEndRow s n) := by
  unfold State.playEndRow
  repeat' first
    | with_reducible first
      | assumption | rfl | exact Or.inr rfl | exact Or.inl ‹_› | refine Good.of_pair (by assumption) ?_
      | apply State.atEdge_keeps | apply State.playDone_keeps | intro _ | apply Good.ite_of | apply apply_ite_good
      | split | dsimp only | apply good_upd
    | exact Or.inr rfl | exact rfl

theorem State.ownEndRow_keeps {s : State} {n : Nat} (hg : Good ev s) (hb : ev.beat = none) :
    Good ev (State.ownEndRow s n) := by
  unfold State.ownEndRow
  repeat' first
    | with_reducible first
      | assumption | rfl | exact Or.inr rfl | exact Or.inl ‹_› | refine Good.of_pair (by assumption) ?_
      | apply State.atEdge_keeps | apply State.toEdge_keeps | apply State.endBurst_keeps | intro _ | apply Good.ite_of
      | apply apply_ite_good | split | dsimp only | apply good_upd
    | exact Or.inr rfl | exact rfl

theorem State.episodeRow_keeps {s : State} {n : Nat} {y0 : Nat} (hg : Good ev s) (hb : ev.beat = none) :
    Good ev (State.episodeRow s n y0) := by
  induction y0 generalizing s n with
  | zero =>
    unfold State.episodeRow
    repeat' first
      | with_reducible first
        | assumption | rfl | exact Or.inr rfl | exact Or.inl ‹_› | refine Good.of_pair (by assumption) ?_
        | apply State.coreCycle_keeps | intro _ | apply Good.ite_of | apply apply_ite_good | split | dsimp only
        | apply good_upd
      | exact Or.inr rfl | exact rfl
  | succ k ih =>
    unfold State.episodeRow
    repeat' first
      | with_reducible first
        | assumption | rfl | exact Or.inr rfl | exact Or.inl ‹_› | apply ih | refine Good.of_pair (by assumption) ?_
        | apply State.coreCycle_keeps | intro _ | apply Good.ite_of | apply apply_ite_good | split | dsimp only
        | apply good_upd
      | exact Or.inr rfl | exact rfl

theorem State.fetchRow_keeps {s : State} {n : Nat} (hg : Good ev s) (hb : ev.beat = none) :
    Good ev (State.fetchRow s n) := by
  unfold State.fetchRow
  repeat' first
    | with_reducible first
      | assumption | rfl | exact Or.inr rfl | exact Or.inl ‹_› | refine Good.of_pair (by assumption) ?_
      | apply State.coreCycle_keeps | apply State.fetchEntry_keeps | intro _ | apply Good.ite_of
      | apply apply_ite_good | split | dsimp only | apply good_upd
    | exact Or.inr rfl | exact rfl

theorem State.markerRow_keeps {s : State} {n : Nat} {act : Nat} {line : Nat} {sample : Nat} {width : Option Nat} (hg
    : Good ev s) (hb : ev.beat = none) :
    Good ev (State.markerRow s n act line sample width) := by
  unfold State.markerRow
  repeat' first
    | with_reducible first
      | assumption | rfl | exact Or.inr rfl | exact Or.inl ‹_› | refine Good.of_pair (by assumption) ?_
      | apply State.atEdge_keeps | apply State.issueMarker_keeps | intro _ | apply Good.ite_of | apply apply_ite_good
      | split | dsimp only | apply good_upd
    | exact Or.inr rfl | exact rfl

theorem State.jesdReinit_keeps {s : State} (hg : Good ev s) :
    Good ev (State.jesdReinit s) := by
  unfold State.jesdReinit
  repeat' first
    | with_reducible first
      | assumption | rfl | exact Or.inr rfl | exact Or.inl ‹_› | refine Good.of_pair (by assumption) ?_
      | apply State.raise_keeps | apply State.detect_keeps | apply State.setTxl_keeps | apply State.setFld_keeps
      | intro _ | apply Good.ite_of | apply apply_ite_good | split | dsimp only | apply good_upd
    | exact Or.inr rfl | exact rfl

theorem State.syncHigh_keeps {s : State} (hg : Good ev s) :
    Good ev (State.syncHigh s) := by
  unfold State.syncHigh
  repeat' first
    | with_reducible first
      | assumption | rfl | exact Or.inr rfl | exact Or.inl ‹_› | refine Good.of_pair (by assumption) ?_
      | apply State.setTxl_keeps | intro _ | apply Good.ite_of | apply apply_ite_good | split | dsimp only
      | apply good_upd
    | exact Or.inr rfl | exact rfl

theorem State.ilasRow_keeps {s : State} (hg : Good ev s) (hb : ev.beat = none) :
    Good ev (State.ilasRow s) := by
  unfold State.ilasRow
  repeat' first
    | with_reducible first
      | assumption | rfl | exact Or.inr rfl | exact Or.inl ‹_› | refine Good.of_pair (by assumption) ?_
      | apply State.toCycle_keeps | apply State.ilasTurn_keeps | intro _ | apply Good.ite_of | apply apply_ite_good
      | split | dsimp only | apply good_upd
    | exact Or.inr rfl | exact rfl

end Sys2Proof.Machine
end

