-- ==== Sys2Proof/Laws/KeepExecTap.lean ====
section
/-!
SUPPORT. What every operation of Machine/ExecTap.lean keeps (Laws/Keep.lean).
-/

namespace Sys2Proof.Machine

variable {ev : Env}

theorem State.tapTake_keeps {s : State} {i : Tap} {tdo : Word} (hg : Good ev s) :
    Good ev (State.tapTake s i tdo) := by
  unfold State.tapTake
  repeat' first
    | with_reducible first
      | assumption | rfl | exact Or.inr rfl | exact Or.inl ‹_› | refine Good.of_pair (by assumption) ?_ | intro _
      | apply Good.ite_of | apply apply_ite_good | split | dsimp only | apply good_upd
    | exact Or.inr rfl | exact rfl

theorem State.tapBoundary_keeps {s : State} {i : Tap} (hg : Good ev s) :
    Good ev (State.tapBoundary s i) := by
  unfold State.tapBoundary
  repeat' first
    | with_reducible first
      | assumption | rfl | exact Or.inr rfl | exact Or.inl ‹_› | refine Good.of_pair (by assumption) ?_
      | apply State.tapTake_keeps | apply State.freeVal_keeps | intro _ | apply Good.ite_of | apply apply_ite_good
      | split | dsimp only | apply good_upd
    | exact Or.inr rfl | exact rfl

end Sys2Proof.Machine
end

