-- ==== Sys2Proof/Laws/KeepExecTime.lean ====
section
/-!
SUPPORT. What every operation of Machine/ExecTime.lean keeps (Laws/Keep.lean).
-/

namespace Sys2Proof.Machine

variable {ev : Env}

theorem State.toPhaseEnd_keeps {s : State} {i : Nat} (hg : Good ev s) (hb : ev.beat = none) :
    Good ev (State.toPhaseEnd s i) := by
  unfold State.toPhaseEnd
  repeat' first
    | with_reducible first
      | assumption | rfl | exact Or.inr rfl | exact Or.inl ‹_› | refine Good.of_pair (by assumption) ?_
      | apply State.advance_keeps | intro _ | apply Good.ite_of | apply apply_ite_good | split | dsimp only
      | apply good_upd
    | exact Or.inr rfl | exact rfl

theorem State.nextArrival_keeps {s : State} (hg : Good ev s) (hb : ev.beat = none) :
    Good ev (State.nextArrival s) := by
  unfold State.nextArrival
  repeat' first
    | with_reducible first
      | assumption | rfl | exact Or.inr rfl | exact Or.inl ‹_› | refine Good.of_pair (by assumption) ?_
      | apply State.toCycle_keeps | apply State.ordersArrive_keeps | intro _ | apply Good.ite_of
      | apply apply_ite_good | split | dsimp only | apply good_upd
    | exact Or.inr rfl | exact rfl

theorem State.nextSet_keeps {s : State} (hg : Good ev s) (hb : ev.beat = none) :
    Good ev (State.nextSet s) := by
  unfold State.nextSet
  repeat' first
    | with_reducible first
      | assumption | rfl | exact Or.inr rfl | exact Or.inl ‹_› | refine Good.of_pair (by assumption) ?_
      | apply State.toCycle_keeps | apply State.setsArrive_keeps | intro _ | apply Good.ite_of | apply apply_ite_good
      | split | dsimp only | apply good_upd
    | exact Or.inr rfl | exact rfl

theorem State.hkOrders_keeps {s : State} {h : HkOrder} (hg : Good ev s) :
    Good ev (State.hkOrders s h) := by
  unfold State.hkOrders
  repeat' first
    | with_reducible first
      | assumption | rfl | exact Or.inr rfl | exact Or.inl ‹_› | refine Good.of_pair (by assumption) ?_
      | apply State.finishOrd_keeps | apply State.each_keeps | intro _ | apply Good.ite_of | apply apply_ite_good
      | split | dsimp only | apply good_upd
    | exact Or.inr rfl | exact rfl

end Sys2Proof.Machine
end

