-- ==== Sys2Proof/Laws/KeepExecTla.lean ====
section
/-!
SUPPORT. What every operation of Machine/ExecTla.lean keeps (Laws/Keep.lean).
-/

namespace Sys2Proof.Machine

variable {ev : Env}

theorem State.seracUntil_keeps {s : State} {p : Tla → Bool} {y0 : Nat} (hg : Good ev s) (hb : ev.beat = none) :
    Good ev (State.seracUntil s p y0) := by
  induction y0 generalizing s with
  | zero =>
    unfold State.seracUntil
    repeat' first
      | with_reducible first
        | assumption | rfl | exact Or.inr rfl | exact Or.inl ‹_› | refine Good.of_pair (by assumption) ?_
        | apply State.coreCycle_keeps | intro _ | apply Good.ite_of | apply apply_ite_good | split | dsimp only
        | apply good_upd
      | exact Or.inr rfl | exact rfl
  | succ k ih =>
    unfold State.seracUntil
    repeat' first
      | with_reducible first
        | assumption | rfl | exact Or.inr rfl | exact Or.inl ‹_› | apply ih | refine Good.of_pair (by assumption) ?_
        | apply State.coreCycle_keeps | intro _ | apply Good.ite_of | apply apply_ite_good | split | dsimp only
        | apply good_upd
      | exact Or.inr rfl | exact rfl

end Sys2Proof.Machine
end

