-- ==== Sys2Proof/Laws/Commands.lean ====
section
/-!
SUPPORT. Every command keeps the queue, the strap register (but for the release of a POR) and the canonical form; one that
lets no core cycle pass keeps the tick's clock too.
-/

namespace Sys2Proof.Machine

variable {ev : Env}

theorem ok_good {s t : State} (h : ok s = .next t) (g : Good ev s) : Good ev t := by cases h; exact g

/-- RESET_RELEASE keeps all but the strap register, which only the release of a POR samples. -/
theorem execResetRelease_keeps {straps : BitVec 16} {s t : State} (hg : Good ev s) (hb : ev.beat = none)
    (h : execResetRelease straps s = .next t) :
    Good { ev with strap := if s.hk.inReset = some .por ∧ s.pins.tripped = false then straps else ev.strap } t := by
  unfold execResetRelease at h
  refine ok_good h ?_
  by_cases hp : s.hk.inReset = some .por
  · rw [if_pos hp]
    exact State.autoBringup_keeps (State.release_keeps hg hb)
  · rw [if_neg hp, if_neg (fun x => hp x.1)]
    exact State.resetPass_keeps hg hb

theorem execRegisterWrite_keeps {offset : BitVec 25} {w : Wrs} {s : State} {t : State} (hg : Good ev s)
    (h : execRegisterWrite offset w s = .next t) : Good ev t := by
  unfold execRegisterWrite at h
  refine ok_good h ?_
  repeat' first
    | with_reducible first
      | assumption | rfl | exact Or.inr rfl | exact Or.inl ‹_› | refine Good.of_pair (by assumption) ?_
      | apply State.busWrites_keeps | intro _ | apply Good.ite_of | apply apply_ite_good | split | dsimp only
      | apply good_upd
    | exact Or.inr rfl | exact rfl

theorem execOutsideWrite_keeps {offset : BitVec 25} {w : Wr} {s : State} {t : State} (hg : Good ev s)
    (h : execOutsideWrite offset w s = .next t) : Good ev t := by
  unfold execOutsideWrite at h
  refine ok_good h ?_
  repeat' first
    | with_reducible first
      | assumption | rfl | exact Or.inr rfl | exact Or.inl ‹_› | refine Good.of_pair (by assumption) ?_
      | apply State.write_keeps | intro _ | apply Good.ite_of | apply apply_ite_good | split | dsimp only
      | apply good_upd
    | exact Or.inr rfl | exact rfl

theorem execSetAliasWrite_keeps {offset : BitVec 25} {w : Wr} {s : State} {t : State} (hg : Good ev s)
    (h : execSetAliasWrite offset w s = .next t) : Good ev t := by
  unfold execSetAliasWrite at h
  refine ok_good h ?_
  repeat' first
    | with_reducible first
      | assumption | rfl | exact Or.inr rfl | exact Or.inl ‹_› | refine Good.of_pair (by assumption) ?_
      | apply State.write_keeps | intro _ | apply Good.ite_of | apply apply_ite_good | split | dsimp only
      | apply good_upd
    | exact Or.inr rfl | exact rfl

theorem execClearAliasWrite_keeps {offset : BitVec 25} {w : Wr} {s : State} {t : State} (hg : Good ev s)
    (h : execClearAliasWrite offset w s = .next t) : Good ev t := by
  unfold execClearAliasWrite at h
  refine ok_good h ?_
  repeat' first
    | with_reducible first
      | assumption | rfl | exact Or.inr rfl | exact Or.inl ‹_› | refine Good.of_pair (by assumption) ?_
      | apply State.write_keeps | intro _ | apply Good.ite_of | apply apply_ite_good | split | dsimp only
      | apply good_upd
    | exact Or.inr rfl | exact rfl

theorem execToggleAliasWrite_keeps {offset : BitVec 25} {w : Wr} {s : State} {t : State} (hg : Good ev s)
    (h : execToggleAliasWrite offset w s = .next t) : Good ev t := by
  unfold execToggleAliasWrite at h
  refine ok_good h ?_
  repeat' first
    | with_reducible first
      | assumption | rfl | exact Or.inr rfl | exact Or.inl ‹_› | refine Good.of_pair (by assumption) ?_
      | apply State.write_keeps | intro _ | apply Good.ite_of | apply apply_ite_good | split | dsimp only
      | apply good_upd
    | exact Or.inr rfl | exact rfl

theorem execUnlockKeyWrite_keeps {window : BitVec 8} {rq : Requester} {be : BitVec 4} {s : State} {t : State} (hg :
    Good ev s)
    (h : execUnlockKeyWrite window rq be s = .next t) : Good ev t := by
  unfold execUnlockKeyWrite at h
  refine ok_good h ?_
  repeat' first
    | with_reducible first
      | assumption | rfl | exact Or.inr rfl | exact Or.inl ‹_› | refine Good.of_pair (by assumption) ?_
      | apply State.busWrite_keeps | intro _ | apply Good.ite_of | apply apply_ite_good | split | dsimp only
      | apply good_upd
    | exact Or.inr rfl | exact rfl

theorem execUnlockDisarmWrite_keeps {window : BitVec 8} {w : Wr} {s : State} {t : State} (hg : Good ev s)
    (h : execUnlockDisarmWrite window w s = .next t) : Good ev t := by
  unfold execUnlockDisarmWrite at h
  refine ok_good h ?_
  repeat' first
    | with_reducible first
      | assumption | rfl | exact Or.inr rfl | exact Or.inl ‹_› | refine Good.of_pair (by assumption) ?_
      | apply State.write_keeps | intro _ | apply Good.ite_of | apply apply_ite_good | split | dsimp only
      | apply good_upd
    | exact Or.inr rfl | exact rfl

theorem execWvSelect_keeps {window : BitVec 8} {rq : Requester} {space : BitVec 8} {index : BitVec 16} {s : State}
    {t : State} (hg : Good ev s)
    (h : execWvSelect window rq space index s = .next t) : Good ev t := by
  unfold execWvSelect at h
  refine ok_good h ?_
  repeat' first
    | with_reducible first
      | assumption | rfl | exact Or.inr rfl | exact Or.inl ‹_› | refine Good.of_pair (by assumption) ?_
      | apply State.busWrite_keeps | intro _ | apply Good.ite_of | apply apply_ite_good | split | dsimp only
      | apply good_upd
    | exact Or.inr rfl | exact rfl

theorem execWvCapture_keeps {window : BitVec 8} {rq : Requester} {s : State} {t : State} (hg : Good ev s)
    (h : execWvCapture window rq s = .next t) : Good ev t := by
  unfold execWvCapture at h
  refine ok_good h ?_
  repeat' first
    | with_reducible first
      | assumption | rfl | exact Or.inr rfl | exact Or.inl ‹_› | refine Good.of_pair (by assumption) ?_
      | apply State.capture_keeps | intro _ | apply Good.ite_of | apply apply_ite_good | split | dsimp only
      | apply good_upd
    | exact Or.inr rfl | exact rfl

theorem execWvDataRead_keeps {window : BitVec 8} {rq : Requester} {d : Fin 3} {be : BitVec 4} {s : State} {t :
    State} (hg : Good ev s)
    (h : execWvDataRead window rq d be s = .next t) : Good ev t := by
  unfold execWvDataRead at h
  refine ok_good h ?_
  repeat' first
    | with_reducible first
      | assumption | rfl | exact Or.inr rfl | exact Or.inl ‹_› | refine Good.of_pair (by assumption) ?_
      | apply State.readBack_keeps | intro _ | apply Good.ite_of | apply apply_ite_good | split | dsimp only
      | apply good_upd
    | exact Or.inr rfl | exact rfl

theorem execWvD3Read_keeps {window : BitVec 8} {rq : Requester} {be : BitVec 4} {s : State} {t : State} (hg : Good ev s)
    (h : execWvD3Read window rq be s = .next t) : Good ev t := by
  unfold execWvD3Read at h
  refine ok_good h ?_
  repeat' first
    | with_reducible first
      | assumption | rfl | exact Or.inr rfl | exact Or.inl ‹_› | refine Good.of_pair (by assumption) ?_
      | apply State.readBack_keeps | intro _ | apply Good.ite_of | apply apply_ite_good | split | dsimp only
      | apply good_upd
    | exact Or.inr rfl | exact rfl

theorem execShadowCompare_keeps {s : State} {t : State} (hg : Good ev s)
    (h : execShadowCompare s = .next t) : Good ev t := by
  unfold execShadowCompare at h
  refine ok_good h ?_
  repeat' first
    | with_reducible first
      | assumption | rfl | exact Or.inr rfl | exact Or.inl ‹_› | refine Good.of_pair (by assumption) ?_
      | apply State.compareShadows_keeps | intro _ | apply Good.ite_of | apply apply_ite_good | split | dsimp only
      | apply good_upd
    | exact Or.inr rfl | exact rfl

theorem execRegisterUpset_keeps {u : Upset} {s : State} {t : State} (hg : Good ev s)
    (h : execRegisterUpset u s = .next t) : Good ev t := by
  unfold execRegisterUpset at h
  refine ok_good h ?_
  repeat' first
    | with_reducible first
      | assumption | rfl | exact Or.inr rfl | exact Or.inl ‹_› | refine Good.of_pair (by assumption) ?_
      | apply State.upset_keeps | intro _ | apply Good.ite_of | apply apply_ite_good | split | dsimp only
      | apply good_upd
    | exact Or.inr rfl | exact rfl

theorem execGlobalEnWrite_keeps {w : Wr} {s : State} {t : State} (hg : Good ev s)
    (h : execGlobalEnWrite w s = .next t) : Good ev t := by
  unfold execGlobalEnWrite at h
  refine ok_good h ?_
  repeat' first
    | with_reducible first
      | assumption | rfl | exact Or.inr rfl | exact Or.inl ‹_› | refine Good.of_pair (by assumption) ?_
      | apply State.write_keeps | intro _ | apply Good.ite_of | apply apply_ite_good | split | dsimp only
      | apply good_upd
    | exact Or.inr rfl | exact rfl

theorem execClearOnRead_keeps {offset : BitVec 25} {rq : Requester} {be : Rds} {s : State} {t : State} (hg : Good ev s)
    (h : execClearOnRead offset rq be s = .next t) : Good ev t := by
  unfold execClearOnRead at h
  refine ok_good h ?_
  repeat' first
    | with_reducible first
      | assumption | rfl | exact Or.inr rfl | exact Or.inl ‹_› | refine Good.of_pair (by assumption) ?_
      | apply State.readBack_keeps | intro _ | apply Good.ite_of | apply apply_ite_good | split | dsimp only
      | apply good_upd
    | exact Or.inr rfl | exact rfl

theorem execCoefficientWrite_keeps {slot : Fin 32} {w : Wr} {s : State} {t : State} (hg : Good ev s)
    (h : execCoefficientWrite slot w s = .next t) : Good ev t := by
  unfold execCoefficientWrite at h
  refine ok_good h ?_
  repeat' first
    | with_reducible first
      | assumption | rfl | exact Or.inr rfl | exact Or.inl ‹_› | refine Good.of_pair (by assumption) ?_
      | apply State.write_keeps | intro _ | apply Good.ite_of | apply apply_ite_good | split | dsimp only
      | apply good_upd
    | exact Or.inr rfl | exact rfl

theorem execCoefficientSweep_keeps {slot : Fin 32} {set : Fin 8} {entry : Fin 224} {flips : BitVec 44} {s : State}
    {t : State} (hg : Good ev s) (hb : ev.beat = none)
    (h : execCoefficientSweep slot set entry flips s = .next t) : Good ev t := by
  unfold execCoefficientSweep at h
  refine ok_good h ?_
  repeat' first
    | with_reducible first
      | assumption | rfl | exact Or.inr rfl | exact Or.inl ‹_› | refine Good.of_pair (by assumption) ?_
      | apply State.lawOver_keeps | apply State.during_keeps | apply State.coefSweep_keeps
      | apply State.coefFlip_keeps | intro _ | apply Good.ite_of | apply apply_ite_good | split | dsimp only
      | apply good_upd
    | exact Or.inr rfl | exact rfl

theorem execQlinkAligned_keeps {link : Fin 2} {s : State} {t : State} (hg : Good ev s)
    (h : execQlinkAligned link s = .next t) : Good ev t := by
  unfold execQlinkAligned at h
  refine ok_good h ?_
  repeat' first
    | with_reducible first
      | assumption | rfl | exact Or.inr rfl | exact Or.inl ‹_› | refine Good.of_pair (by assumption) ?_
      | apply State.during_keeps | apply State.bringCheck_keeps | apply State.rxAligned_keeps | intro _
      | apply Good.ite_of | apply apply_ite_good | split | dsimp only | apply good_upd
    | exact Or.inr rfl | exact rfl

theorem execQlinkMultiblock_keeps {link : Fin 2} {crcOk : Bool} {samples : List (List (BitVec 18))} {s : State} {t :
    State} (hg : Good ev s)
    (h : execQlinkMultiblock link crcOk samples s = .next t) : Good ev t := by
  unfold execQlinkMultiblock at h
  refine ok_good h ?_
  repeat' first
    | with_reducible first
      | assumption | rfl | exact Or.inr rfl | exact Or.inl ‹_› | refine Good.of_pair (by assumption) ?_
      | apply State.during_keeps | apply State.rxBlock_keeps | intro _ | apply Good.ite_of | apply apply_ite_good
      | split | dsimp only | apply good_upd
    | exact Or.inr rfl | exact rfl

theorem execQlinkLockLost_keeps {link : Fin 2} {s : State} {t : State} (hg : Good ev s)
    (h : execQlinkLockLost link s = .next t) : Good ev t := by
  unfold execQlinkLockLost at h
  refine ok_good h ?_
  repeat' first
    | with_reducible first
      | assumption | rfl | exact Or.inr rfl | exact Or.inl ‹_› | refine Good.of_pair (by assumption) ?_
      | apply State.during_keeps | apply State.rxLost_keeps | intro _ | apply Good.ite_of | apply apply_ite_good
      | split | dsimp only | apply good_upd
    | exact Or.inr rfl | exact rfl

theorem execPllEnable_keeps {pll : Pll} {w : Wr} {s : State} {t : State} (hg : Good ev s)
    (h : execPllEnable pll w s = .next t) : Good ev t := by
  unfold execPllEnable at h
  refine ok_good h ?_
  repeat' first
    | with_reducible first
      | assumption | rfl | exact Or.inr rfl | exact Or.inl ‹_› | refine Good.of_pair (by assumption) ?_
      | apply State.pllChanged_keeps | apply State.write_keeps | intro _ | apply Good.ite_of | apply apply_ite_good
      | split | dsimp only | apply good_upd
    | exact Or.inr rfl | exact rfl

theorem execPllDisable_keeps {pll : Pll} {w : Wr} {s : State} {t : State} (hg : Good ev s)
    (h : execPllDisable pll w s = .next t) : Good ev t := by
  unfold execPllDisable at h
  refine ok_good h ?_
  repeat' first
    | with_reducible first
      | assumption | rfl | exact Or.inr rfl | exact Or.inl ‹_› | refine Good.of_pair (by assumption) ?_
      | apply State.pllChanged_keeps | apply State.write_keeps | intro _ | apply Good.ite_of | apply apply_ite_good
      | split | dsimp only | apply good_upd
    | exact Or.inr rfl | exact rfl

theorem execBandSearchDone_keeps {pll : Pll} {idle : Bool} {found : Option SearchResult} {s : State} {t : State} (hg
    : Good ev s)
    (h : execBandSearchDone pll idle found s = .next t) : Good ev t := by
  unfold execBandSearchDone at h
  refine ok_good h ?_
  repeat' first
    | with_reducible first
      | assumption | rfl | exact Or.inr rfl | exact Or.inl ‹_› | refine Good.of_pair (by assumption) ?_
      | apply State.pllChanged_keeps | apply State.searchDone_keeps | apply State.idleSearchDone_keeps | intro _
      | apply Good.ite_of | apply apply_ite_good | split | dsimp only | apply good_upd
    | exact Or.inr rfl | exact rfl

theorem execPllLock_keeps {pll : Pll} {phaseErr : Word} {s : State} {t : State} (hg : Good ev s)
    (h : execPllLock pll phaseErr s = .next t) : Good ev t := by
  unfold execPllLock at h
  refine ok_good h ?_
  repeat' first
    | with_reducible first
      | assumption | rfl | exact Or.inr rfl | exact Or.inl ‹_› | refine Good.of_pair (by assumption) ?_
      | apply State.pllChanged_keeps | apply State.pllLocked_keeps | intro _ | apply Good.ite_of
      | apply apply_ite_good | split | dsimp only | apply good_upd
    | exact Or.inr rfl | exact rfl

theorem execAcquireTimeout_keeps {pll : Pll} {s : State} {t : State} (hg : Good ev s)
    (h : execAcquireTimeout pll s = .next t) : Good ev t := by
  unfold execAcquireTimeout at h
  refine ok_good h ?_
  repeat' first
    | with_reducible first
      | assumption | rfl | exact Or.inr rfl | exact Or.inl ‹_› | refine Good.of_pair (by assumption) ?_
      | apply State.pllChanged_keeps | apply State.acquireLate_keeps | intro _ | apply Good.ite_of
      | apply apply_ite_good | split | dsimp only | apply good_upd
    | exact Or.inr rfl | exact rfl

theorem execLockLoss_keeps {pll : Pll} {phaseErr : Word} {s : State} {t : State} (hg : Good ev s)
    (h : execLockLoss pll phaseErr s = .next t) : Good ev t := by
  unfold execLockLoss at h
  refine ok_good h ?_
  repeat' first
    | with_reducible first
      | assumption | rfl | exact Or.inr rfl | exact Or.inl ‹_› | refine Good.of_pair (by assumption) ?_
      | apply State.lockLost_keeps | intro _ | apply Good.ite_of | apply apply_ite_good | split | dsimp only
      | apply good_upd
    | exact Or.inr rfl | exact rfl

theorem execBypassRetry_keeps {pll : Pll} {s : State} {t : State} (hg : Good ev s)
    (h : execBypassRetry pll s = .next t) : Good ev t := by
  unfold execBypassRetry at h
  refine ok_good h ?_
  repeat' first
    | with_reducible first
      | assumption | rfl | exact Or.inr rfl | exact Or.inl ‹_› | refine Good.of_pair (by assumption) ?_
      | apply State.bypassRetry_keeps | intro _ | apply Good.ite_of | apply apply_ite_good | split | dsimp only
      | apply good_upd
    | exact Or.inr rfl | exact rfl

theorem execReferenceLoss_keeps {pll : Pll} {pin : RefPin} {s : State} {t : State} (hg : Good ev s)
    (h : execReferenceLoss pll pin s = .next t) : Good ev t := by
  unfold execReferenceLoss at h
  refine ok_good h ?_
  repeat' first
    | with_reducible first
      | assumption | rfl | exact Or.inr rfl | exact Or.inl ‹_› | refine Good.of_pair (by assumption) ?_
      | apply State.refJudged_keeps | apply State.pllChanged_keeps | intro _ | apply Good.ite_of
      | apply apply_ite_good | split | dsimp only | apply good_upd
    | exact Or.inr rfl | exact rfl

theorem execReferenceReturn_keeps {pll : Pll} {pin : RefPin} {s : State} {t : State} (hg : Good ev s)
    (h : execReferenceReturn pll pin s = .next t) : Good ev t := by
  unfold execReferenceReturn at h
  refine ok_good h ?_
  repeat' first
    | with_reducible first
      | assumption | rfl | exact Or.inr rfl | exact Or.inl ‹_› | refine Good.of_pair (by assumption) ?_
      | apply State.refJudged_keeps | apply State.pllChanged_keeps | intro _ | apply Good.ite_of
      | apply apply_ite_good | split | dsimp only | apply good_upd
    | exact Or.inr rfl | exact rfl

theorem execHoldoverExit_keeps {pll : Pll} {phaseDiff : BitVec 32} {s : State} {t : State} (hg : Good ev s)
    (h : execHoldoverExit pll phaseDiff s = .next t) : Good ev t := by
  unfold execHoldoverExit at h
  refine ok_good h ?_
  repeat' first
    | with_reducible first
      | assumption | rfl | exact Or.inr rfl | exact Or.inl ‹_› | refine Good.of_pair (by assumption) ?_
      | apply State.holdExit_keeps | intro _ | apply Good.ite_of | apply apply_ite_good | split | dsimp only
      | apply good_upd
    | exact Or.inr rfl | exact rfl

theorem execHoldMaxExpiry_keeps {pll : Pll} {s : State} {t : State} (hg : Good ev s)
    (h : execHoldMaxExpiry pll s = .next t) : Good ev t := by
  unfold execHoldMaxExpiry at h
  refine ok_good h ?_
  repeat' first
    | with_reducible first
      | assumption | rfl | exact Or.inr rfl | exact Or.inl ‹_› | refine Good.of_pair (by assumption) ?_
      | apply State.holdExpired_keeps | intro _ | apply Good.ite_of | apply apply_ite_good | split | dsimp only
      | apply good_upd
    | exact Or.inr rfl | exact rfl

theorem execRefselChange_keeps {pll : Pll} {w : Wr} {present : Bool} {s : State} {t : State} (hg : Good ev s)
    (h : execRefselChange pll w present s = .next t) : Good ev t := by
  unfold execRefselChange at h
  refine ok_good h ?_
  repeat' first
    | with_reducible first
      | assumption | rfl | exact Or.inr rfl | exact Or.inl ‹_› | refine Good.of_pair (by assumption) ?_
      | apply State.write_keeps | intro _ | apply Good.ite_of | apply apply_ite_good | split | dsimp only
      | apply good_upd
    | exact Or.inr rfl | exact rfl

theorem execSpllSearch_keeps {w : Wr} {s : State} {t : State} (hg : Good ev s)
    (h : execSpllSearch w s = .next t) : Good ev t := by
  unfold execSpllSearch at h
  refine ok_good h ?_
  repeat' first
    | with_reducible first
      | assumption | rfl | exact Or.inr rfl | exact Or.inl ‹_› | refine Good.of_pair (by assumption) ?_
      | apply State.write_keeps | intro _ | apply Good.ite_of | apply apply_ite_good | split | dsimp only
      | apply good_upd
    | exact Or.inr rfl | exact rfl

theorem execBandTableLoad_keeps {w : Wr} {s : State} {t : State} (hg : Good ev s)
    (h : execBandTableLoad w s = .next t) : Good ev t := by
  unfold execBandTableLoad at h
  refine ok_good h ?_
  repeat' first
    | with_reducible first
      | assumption | rfl | exact Or.inr rfl | exact Or.inl ‹_› | refine Good.of_pair (by assumption) ?_
      | apply State.write_keeps | intro _ | apply Good.ite_of | apply apply_ite_good | split | dsimp only
      | apply good_upd
    | exact Or.inr rfl | exact rfl

theorem execFcwApply_keeps {pll : Pll} {rq : Requester} {be : BitVec 4} {s : State} {t : State} (hg : Good ev s)
    (h : execFcwApply pll rq be s = .next t) : Good ev t := by
  unfold execFcwApply at h
  refine ok_good h ?_
  repeat' first
    | with_reducible first
      | assumption | rfl | exact Or.inr rfl | exact Or.inl ‹_› | refine Good.of_pair (by assumption) ?_
      | apply State.busWrite_keeps | intro _ | apply Good.ite_of | apply apply_ite_good | split | dsimp only
      | apply good_upd
    | exact Or.inr rfl | exact rfl

theorem execHopRequest_keeps {w : Wr} {s : State} {t : State} (hg : Good ev s)
    (h : execHopRequest w s = .next t) : Good ev t := by
  unfold execHopRequest at h
  refine ok_good h ?_
  repeat' first
    | with_reducible first
      | assumption | rfl | exact Or.inr rfl | exact Or.inl ‹_› | refine Good.of_pair (by assumption) ?_
      | apply State.write_keeps | intro _ | apply Good.ite_of | apply apply_ite_good | split | dsimp only
      | apply good_upd
    | exact Or.inr rfl | exact rfl

theorem execHopDecision_keeps {qualified : Bool} {s : State} {t : State} (hg : Good ev s) (hb : ev.beat = none)
    (h : execHopDecision qualified s = .next t) : Good ev t := by
  unfold execHopDecision at h
  refine ok_good h ?_
  repeat' first
    | with_reducible first
      | assumption | rfl | exact Or.inr rfl | exact Or.inl ‹_› | refine Good.of_pair (by assumption) ?_
      | apply State.toFt_keeps | apply State.hopDecide_keeps | intro _ | apply Good.ite_of | apply apply_ite_good
      | split | dsimp only | apply good_upd
    | exact Or.inr rfl | exact rfl

theorem execHopSwitchover_keeps {s : State} {t : State} (hg : Good ev s) (hb : ev.beat = none)
    (h : execHopSwitchover s = .next t) : Good ev t := by
  unfold execHopSwitchover at h
  refine ok_good h ?_
  repeat' first
    | with_reducible first
      | assumption | rfl | exact Or.inr rfl | exact Or.inl ‹_› | refine Good.of_pair (by assumption) ?_
      | apply State.toFt_keeps | apply State.hopSwitch_keeps | intro _ | apply Good.ite_of | apply apply_ite_good
      | split | dsimp only | apply good_upd
    | exact Or.inr rfl | exact rfl

theorem execPhaseStepWrite_keeps {w : Wr} {s : State} {t : State} (hg : Good ev s)
    (h : execPhaseStepWrite w s = .next t) : Good ev t := by
  unfold execPhaseStepWrite at h
  refine ok_good h ?_
  repeat' first
    | with_reducible first
      | assumption | rfl | exact Or.inr rfl | exact Or.inl ‹_› | refine Good.of_pair (by assumption) ?_
      | apply State.write_keeps | intro _ | apply Good.ite_of | apply apply_ite_good | split | dsimp only
      | apply good_upd
    | exact Or.inr rfl | exact rfl

theorem execClockOutputApply_keeps {w : Wr} {s : State} {t : State} (hg : Good ev s)
    (h : execClockOutputApply w s = .next t) : Good ev t := by
  unfold execClockOutputApply at h
  refine ok_good h ?_
  repeat' first
    | with_reducible first
      | assumption | rfl | exact Or.inr rfl | exact Or.inl ‹_› | refine Good.of_pair (by assumption) ?_
      | apply State.write_keeps | intro _ | apply Good.ite_of | apply apply_ite_good | split | dsimp only
      | apply good_upd
    | exact Or.inr rfl | exact rfl

theorem execClockOutputLive_keeps {s : State} {t : State} (hg : Good ev s) (hb : ev.beat = none)
    (h : execClockOutputLive s = .next t) : Good ev t := by
  unfold execClockOutputLive at h
  refine ok_good h ?_
  repeat' first
    | with_reducible first
      | assumption | rfl | exact Or.inr rfl | exact Or.inl ‹_› | refine Good.of_pair (by assumption) ?_
      | apply State.advance_keeps | apply State.coreCycle_keeps | intro _ | apply Good.ite_of | apply apply_ite_good
      | split | dsimp only | apply good_upd
    | exact Or.inr rfl | exact rfl

theorem execFirnAccessServed_keeps {bank : Fin 256} {reqs : List FirnReq} {flips : BitVec 576} {s : State} {t :
    State} (hg : Good ev s)
    (h : execFirnAccessServed bank reqs flips s = .next t) : Good ev t := by
  unfold execFirnAccessServed at h
  refine ok_good h ?_
  repeat' first
    | with_reducible first
      | assumption | rfl | exact Or.inr rfl | exact Or.inl ‹_› | refine Good.of_pair (by assumption) ?_
      | apply State.rimeTurn_keeps | apply State.during_keeps | apply State.firnCycle_keeps | intro _
      | apply Good.ite_of | apply apply_ite_good | split | dsimp only | apply good_upd
    | exact Or.inr rfl | exact rfl

theorem execEccWriteBack_keeps {s : State} {t : State} (hg : Good ev s)
    (h : execEccWriteBack s = .next t) : Good ev t := by
  unfold execEccWriteBack at h
  refine ok_good h ?_
  repeat' first
    | with_reducible first
      | assumption | rfl | exact Or.inr rfl | exact Or.inl ‹_› | refine Good.of_pair (by assumption) ?_
      | apply State.writeBack_keeps | apply State.during_keeps | intro _ | apply Good.ite_of | apply apply_ite_good
      | split | dsimp only | apply good_upd
    | exact Or.inr rfl | exact rfl

theorem execRimeRegionStart_keeps {s : State} {t : State} (hg : Good ev s) (hb : ev.beat = none)
    (h : execRimeRegionStart s = .next t) : Good ev t := by
  unfold execRimeRegionStart at h
  refine ok_good h ?_
  repeat' first
    | with_reducible first
      | assumption | rfl | exact Or.inr rfl | exact Or.inl ‹_› | refine Good.of_pair (by assumption) ?_
      | apply State.during_keeps | apply State.toCycle_keeps | apply State.rimeStart_keeps | intro _
      | apply Good.ite_of | apply apply_ite_good | split | dsimp only | apply good_upd
    | exact Or.inr rfl | exact rfl

theorem execRimeCopyDone_keeps {s : State} {t : State} (hg : Good ev s) (hb : ev.beat = none)
    (h : execRimeCopyDone s = .next t) : Good ev t := by
  unfold execRimeCopyDone at h
  refine ok_good h ?_
  repeat' first
    | with_reducible first
      | assumption | rfl | exact Or.inr rfl | exact Or.inl ‹_› | refine Good.of_pair (by assumption) ?_
      | apply State.rimeRun_keeps | apply State.during_keeps | apply State.rimeRest_keeps
      | apply State.rimePhase_keeps | intro _ | apply Good.ite_of | apply apply_ite_good | split | dsimp only
      | apply good_upd
    | exact Or.inr rfl | exact rfl

theorem execRimeTestDone_keeps {mismatched : List MarchMiss} {s : State} {t : State} (hg : Good ev s) (hb : ev.beat
    = none)
    (h : execRimeTestDone mismatched s = .next t) : Good ev t := by
  unfold execRimeTestDone at h
  refine ok_good h ?_
  repeat' first
    | with_reducible first
      | assumption | rfl | exact Or.inr rfl | exact Or.inl ‹_› | refine Good.of_pair (by assumption) ?_
      | apply State.rimeRun_keeps | apply State.during_keeps | apply State.marchEnd_keeps | intro _
      | apply Good.ite_of | apply apply_ite_good | split | dsimp only | apply good_upd
    | exact Or.inr rfl | exact rfl

theorem execRimeRestoreDone_keeps {s : State} {t : State} (hg : Good ev s) (hb : ev.beat = none)
    (h : execRimeRestoreDone s = .next t) : Good ev t := by
  unfold execRimeRestoreDone at h
  refine ok_good h ?_
  repeat' first
    | with_reducible first
      | assumption | rfl | exact Or.inr rfl | exact Or.inl ‹_› | refine Good.of_pair (by assumption) ?_
      | apply State.rimeRun_keeps | apply State.rimeEnds_keeps | apply State.during_keeps | apply State.rimeRest_keeps
      | intro _ | apply Good.ite_of | apply apply_ite_good | split | dsimp only | apply good_upd
    | exact Or.inr rfl | exact rfl

theorem execRimeTimeout_keeps {s : State} {t : State} (hg : Good ev s) (hb : ev.beat = none)
    (h : execRimeTimeout s = .next t) : Good ev t := by
  unfold execRimeTimeout at h
  refine ok_good h ?_
  repeat' first
    | with_reducible first
      | assumption | rfl | exact Or.inr rfl | exact Or.inl ‹_› | refine Good.of_pair (by assumption) ?_
      | apply State.during_keeps | apply State.toCycle_keeps | apply State.rimeTimeout_keeps | intro _
      | apply Good.ite_of | apply apply_ite_good | split | dsimp only | apply good_upd
    | exact Or.inr rfl | exact rfl

theorem execBankCopyStart_keeps {s : State} {t : State} (hg : Good ev s)
    (h : execBankCopyStart s = .next t) : Good ev t := by
  unfold execBankCopyStart at h
  refine ok_good h ?_
  repeat' first
    | with_reducible first
      | assumption | rfl | exact Or.inr rfl | exact Or.inl ‹_› | refine Good.of_pair (by assumption) ?_
      | apply State.during_keeps | apply State.copyStart_keeps | intro _ | apply Good.ite_of | apply apply_ite_good
      | split | dsimp only | apply good_upd
    | exact Or.inr rfl | exact rfl

theorem execBankCopySkip_keeps {rows : List (BitVec 13)} {s : State} {t : State} (hg : Good ev s) (hb : ev.beat = none)
    (h : execBankCopySkip rows s = .next t) : Good ev t := by
  unfold execBankCopySkip at h
  refine ok_good h ?_
  repeat' first
    | with_reducible first
      | assumption | rfl | exact Or.inr rfl | exact Or.inl ‹_› | refine Good.of_pair (by assumption) ?_
      | apply State.during_keeps | apply State.toCycle_keeps | apply State.copySkip_keeps | intro _
      | apply Good.ite_of | apply apply_ite_good | split | dsimp only | apply good_upd
    | exact Or.inr rfl | exact rfl

theorem execBankCopyDone_keeps {s : State} {t : State} (hg : Good ev s)
    (h : execBankCopyDone s = .next t) : Good ev t := by
  unfold execBankCopyDone at h
  refine ok_good h ?_
  repeat' first
    | with_reducible first
      | assumption | rfl | exact Or.inr rfl | exact Or.inl ‹_› | refine Good.of_pair (by assumption) ?_
      | apply State.during_keeps | apply State.copyDone_keeps | intro _ | apply Good.ite_of | apply apply_ite_good
      | split | dsimp only | apply good_upd
    | exact Or.inr rfl | exact rfl

theorem execFirnCmdRepair_keeps {rq : Requester} {be : BitVec 4} {bank : BitVec 15} {s : State} {t : State} (hg :
    Good ev s)
    (h : execFirnCmdRepair rq be bank s = .next t) : Good ev t := by
  unfold execFirnCmdRepair at h
  refine ok_good h ?_
  repeat' first
    | with_reducible first
      | assumption | rfl | exact Or.inr rfl | exact Or.inl ‹_› | refine Good.of_pair (by assumption) ?_
      | apply State.busWrite_keeps | intro _ | apply Good.ite_of | apply apply_ite_good | split | dsimp only
      | apply good_upd
    | exact Or.inr rfl | exact rfl

theorem execFirnCmdRetire_keeps {rq : Requester} {be : BitVec 4} {region : BitVec 15} {s : State} {t : State} (hg :
    Good ev s)
    (h : execFirnCmdRetire rq be region s = .next t) : Good ev t := by
  unfold execFirnCmdRetire at h
  refine ok_good h ?_
  repeat' first
    | with_reducible first
      | assumption | rfl | exact Or.inr rfl | exact Or.inl ‹_› | refine Good.of_pair (by assumption) ?_
      | apply State.busWrite_keeps | intro _ | apply Good.ite_of | apply apply_ite_good | split | dsimp only
      | apply good_upd
    | exact Or.inr rfl | exact rfl

theorem execFaultDetection_keeps {s : State} {t : State} (hg : Good ev s) (hb : ev.beat = none)
    (h : execFaultDetection s = .next t) : Good ev t := by
  unfold execFaultDetection at h
  refine ok_good h ?_
  repeat' first
    | with_reducible first
      | assumption | rfl | exact Or.inr rfl | exact Or.inl ‹_› | refine Good.of_pair (by assumption) ?_
      | apply State.during_keeps | apply State.coreCycle_keeps | apply State.bringCheck_keeps
      | apply State.faultTake_keeps | intro _ | apply Good.ite_of | apply apply_ite_good | split | dsimp only
      | apply good_upd
    | exact Or.inr rfl | exact rfl

theorem execBudgetWindowClose_keeps {cls : BitVec 8} {kind : BitVec 4} {index : Nat} {s : State} {t : State} (hg :
    Good ev s) (hb : ev.beat = none)
    (h : execBudgetWindowClose cls kind index s = .next t) : Good ev t := by
  unfold execBudgetWindowClose at h
  refine ok_good h ?_
  repeat' first
    | with_reducible first
      | assumption | rfl | exact Or.inr rfl | exact Or.inl ‹_› | refine Good.of_pair (by assumption) ?_
      | apply State.during_keeps | apply State.passUntil_keeps | intro _ | apply Good.ite_of | apply apply_ite_good
      | split | dsimp only | apply good_upd
    | exact Or.inr rfl | exact rfl

theorem execDrainWindowEnd_keeps {kind : BitVec 4} {index : BitVec 16} {s : State} {t : State} (hg : Good ev s) (hb
    : ev.beat = none)
    (h : execDrainWindowEnd kind index s = .next t) : Good ev t := by
  unfold execDrainWindowEnd at h
  refine ok_good h ?_
  repeat' first
    | with_reducible first
      | assumption | rfl | exact Or.inr rfl | exact Or.inl ‹_› | refine Good.of_pair (by assumption) ?_
      | apply State.during_keeps | apply State.passUntil_keeps | intro _ | apply Good.ite_of | apply apply_ite_good
      | split | dsimp only | apply good_upd
    | exact Or.inr rfl | exact rfl

theorem execFltRetire_keeps {w : Wr} {s : State} {t : State} (hg : Good ev s)
    (h : execFltRetire w s = .next t) : Good ev t := by
  unfold execFltRetire at h
  refine ok_good h ?_
  repeat' first
    | with_reducible first
      | assumption | rfl | exact Or.inr rfl | exact Or.inl ‹_› | refine Good.of_pair (by assumption) ?_
      | apply State.write_keeps | intro _ | apply Good.ite_of | apply apply_ite_good | split | dsimp only
      | apply good_upd
    | exact Or.inr rfl | exact rfl

theorem execDoorbell_keeps {ring : Fin 256} {be : BitVec 4} {value : Word} {s : State} {t : State} (hg : Good ev s)
    (h : execDoorbell ring be value s = .next t) : Good ev t := by
  unfold execDoorbell at h
  refine ok_good h ?_
  repeat' first
    | with_reducible first
      | assumption | rfl | exact Or.inr rfl | exact Or.inl ‹_› | refine Good.of_pair (by assumption) ?_
      | apply State.doorbell_keeps | apply State.during_keeps | intro _ | apply Good.ite_of | apply apply_ite_good
      | split | dsimp only | apply good_upd
    | exact Or.inr rfl | exact rfl

theorem execDoorbellOutside_keeps {ring : Fin 256} {offset : BitVec 12} {_value : Word} {s : State} {t : State} (hg
    : Good ev s)
    (h : execDoorbellOutside ring offset _value s = .next t) : Good ev t := by
  unfold execDoorbellOutside at h
  refine ok_good h ?_
  repeat' first
    | with_reducible first
      | assumption | rfl | exact Or.inr rfl | exact Or.inl ‹_› | refine Good.of_pair (by assumption) ?_
      | apply State.during_keeps | apply State.miscIrq_keeps | apply State.raise_keeps | intro _ | apply Good.ite_of
      | apply apply_ite_good | split | dsimp only | apply good_upd
    | exact Or.inr rfl | exact rfl

theorem execRingEnable_keeps {ring : Fin 256} {w : Wr} {s : State} {t : State} (hg : Good ev s)
    (h : execRingEnable ring w s = .next t) : Good ev t := by
  unfold execRingEnable at h
  refine ok_good h ?_
  repeat' first
    | with_reducible first
      | assumption | rfl | exact Or.inr rfl | exact Or.inl ‹_› | refine Good.of_pair (by assumption) ?_
      | apply State.write_keeps | intro _ | apply Good.ite_of | apply apply_ite_good | split | dsimp only
      | apply good_upd
    | exact Or.inr rfl | exact rfl

theorem execRingDisable_keeps {ring : Fin 256} {w : Wr} {s : State} {t : State} (hg : Good ev s)
    (h : execRingDisable ring w s = .next t) : Good ev t := by
  unfold execRingDisable at h
  refine ok_good h ?_
  repeat' first
    | with_reducible first
      | assumption | rfl | exact Or.inr rfl | exact Or.inl ‹_› | refine Good.of_pair (by assumption) ?_
      | apply State.write_keeps | intro _ | apply Good.ite_of | apply apply_ite_good | split | dsimp only
      | apply good_upd
    | exact Or.inr rfl | exact rfl

theorem execDescriptorFetch_keeps {mem : FetchData} {s : State} {t : State} (hg : Good ev s)
    (h : execDescriptorFetch mem s = .next t) : Good ev t := by
  unfold execDescriptorFetch at h
  refine ok_good h ?_
  repeat' first
    | with_reducible first
      | assumption | rfl | exact Or.inr rfl | exact Or.inl ‹_› | refine Good.of_pair (by assumption) ?_
      | apply State.fetch_keeps | apply State.during_keeps | intro _ | apply Good.ite_of | apply apply_ite_good
      | split | dsimp only | apply good_upd
    | exact Or.inr rfl | exact rfl

theorem execNop_keeps {ring : Fin 256} {s : State} {t : State} (hg : Good ev s)
    (h : execNop ring s = .next t) : Good ev t := by
  unfold execNop at h
  refine ok_good h ?_
  repeat' first
    | with_reducible first
      | assumption | rfl | exact Or.inr rfl | exact Or.inl ‹_› | refine Good.of_pair (by assumption) ?_
      | apply State.takeIn_keeps | apply State.during_keeps | apply State.endDesc_keeps | intro _ | apply Good.ite_of
      | apply apply_ite_good | split | dsimp only | apply good_upd
    | exact Or.inr rfl | exact rfl

theorem execWrite_keeps {ring : Fin 256} {payload : List Byte} {s : State} {t : State} (hg : Good ev s)
    (h : execWrite ring payload s = .next t) : Good ev t := by
  unfold execWrite at h
  refine ok_good h ?_
  repeat' first
    | with_reducible first
      | assumption | rfl | exact Or.inr rfl | exact Or.inl ‹_› | refine Good.of_pair (by assumption) ?_
      | apply State.writeData_keeps | apply State.takeIn_keeps | apply State.during_keeps | intro _
      | apply Good.ite_of | apply apply_ite_good | split | dsimp only | apply good_upd
    | exact Or.inr rfl | exact rfl

theorem execRead_keeps {ring : Fin 256} {s : State} {t : State} (hg : Good ev s)
    (h : execRead ring s = .next t) : Good ev t := by
  unfold execRead at h
  refine ok_good h ?_
  repeat' first
    | with_reducible first
      | assumption | rfl | exact Or.inr rfl | exact Or.inl ‹_› | refine Good.of_pair (by assumption) ?_
      | apply State.readWords_keeps | apply State.takeIn_keeps | apply State.during_keeps | intro _
      | apply Good.ite_of | apply apply_ite_good | split | dsimp only | apply good_upd
    | exact Or.inr rfl | exact rfl

theorem execOrder_keeps {ring : Fin 256} {s : State} {t : State} (hg : Good ev s)
    (h : execOrder ring s = .next t) : Good ev t := by
  unfold execOrder at h
  refine ok_good h ?_
  repeat' first
    | with_reducible first
      | assumption | rfl | exact Or.inr rfl | exact Or.inl ‹_› | refine Good.of_pair (by assumption) ?_
      | apply State.orderDesc_keeps | apply State.during_keeps | intro _ | apply Good.ite_of | apply apply_ite_good
      | split | dsimp only | apply good_upd
    | exact Or.inr rfl | exact rfl

theorem execStage_keeps {ring : Fin 256} {image : List (BitVec 64)} {s : State} {t : State} (hg : Good ev s)
    (h : execStage ring image s = .next t) : Good ev t := by
  unfold execStage at h
  refine ok_good h ?_
  repeat' first
    | with_reducible first
      | assumption | rfl | exact Or.inr rfl | exact Or.inl ‹_› | refine Good.of_pair (by assumption) ?_
      | apply State.stageImage_keeps | apply State.payloadNow_keeps | apply State.takeIn_keeps
      | apply State.during_keeps | intro _ | apply Good.ite_of | apply apply_ite_good | split | dsimp only
      | apply good_upd
    | exact Or.inr rfl | exact rfl

theorem execFence_keeps {ring : Fin 256} {s : State} {t : State} (hg : Good ev s)
    (h : execFence ring s = .next t) : Good ev t := by
  unfold execFence at h
  refine ok_good h ?_
  repeat' first
    | with_reducible first
      | assumption | rfl | exact Or.inr rfl | exact Or.inl ‹_› | refine Good.of_pair (by assumption) ?_
      | apply State.takeIn_keeps | apply State.during_keeps | intro _ | apply Good.ite_of | apply apply_ite_good
      | split | dsimp only | apply good_upd
    | exact Or.inr rfl | exact rfl

theorem execSend_keeps {ring : Fin 256} {payload : List Byte} {s : State} {t : State} (hg : Good ev s)
    (h : execSend ring payload s = .next t) : Good ev t := by
  unfold execSend at h
  refine ok_good h ?_
  repeat' first
    | with_reducible first
      | assumption | rfl | exact Or.inr rfl | exact Or.inl ‹_› | refine Good.of_pair (by assumption) ?_
      | apply State.sendMessage_keeps | apply State.payloadNow_keeps | apply State.takeIn_keeps
      | apply State.during_keeps | intro _ | apply Good.ite_of | apply apply_ite_good | split | dsimp only
      | apply good_upd
    | exact Or.inr rfl | exact rfl

theorem execFenceCompletion_keeps {ring : Fin 256} {s : State} {t : State} (hg : Good ev s)
    (h : execFenceCompletion ring s = .next t) : Good ev t := by
  unfold execFenceCompletion at h
  refine ok_good h ?_
  repeat' first
    | with_reducible first
      | assumption | rfl | exact Or.inr rfl | exact Or.inl ‹_› | refine Good.of_pair (by assumption) ?_
      | apply State.fenceEnds_keeps | apply State.during_keeps | intro _ | apply Good.ite_of | apply apply_ite_good
      | split | dsimp only | apply good_upd
    | exact Or.inr rfl | exact rfl

theorem execDmaCompletion_keeps {ring : Fin 256} {slot : BitVec 15} {rest : List Byte} {s : State} {t : State} (hg :
    Good ev s)
    (h : execDmaCompletion ring slot rest s = .next t) : Good ev t := by
  unfold execDmaCompletion at h
  refine ok_good h ?_
  repeat' first
    | with_reducible first
      | assumption | rfl | exact Or.inr rfl | exact Or.inl ‹_› | refine Good.of_pair (by assumption) ?_
      | apply State.dataEnds_keeps | apply State.during_keeps | intro _ | apply Good.ite_of | apply apply_ite_good
      | split | dsimp only | apply good_upd
    | exact Or.inr rfl | exact rfl

theorem execHostFault_keeps {ring : Fin 256} {slot : BitVec 15} {cause : HostCause} {s : State} {t : State} (hg :
    Good ev s)
    (h : execHostFault ring slot cause s = .next t) : Good ev t := by
  unfold execHostFault at h
  refine ok_good h ?_
  repeat' first
    | with_reducible first
      | assumption | rfl | exact Or.inr rfl | exact Or.inl ‹_› | refine Good.of_pair (by assumption) ?_
      | apply State.hostFails_keeps | apply State.during_keeps | intro _ | apply Good.ite_of | apply apply_ite_good
      | split | dsimp only | apply good_upd
    | exact Or.inr rfl | exact rfl

theorem execOverflowRecord_keeps {ring : Fin 256} {s : State} {t : State} (hg : Good ev s)
    (h : execOverflowRecord ring s = .next t) : Good ev t := by
  unfold execOverflowRecord at h
  refine ok_good h ?_
  repeat' first
    | with_reducible first
      | assumption | rfl | exact Or.inr rfl | exact Or.inl ‹_› | refine Good.of_pair (by assumption) ?_
      | apply State.overflowDue_keeps | apply State.during_keeps | intro _ | apply Good.ite_of | apply apply_ite_good
      | split | dsimp only | apply good_upd
    | exact Or.inr rfl | exact rfl

theorem execMsixAgeTimeout_keeps {ring : Fin 256} {s : State} {t : State} (hg : Good ev s) (hb : ev.beat = none)
    (h : execMsixAgeTimeout ring s = .next t) : Good ev t := by
  unfold execMsixAgeTimeout at h
  refine ok_good h ?_
  repeat' first
    | with_reducible first
      | assumption | rfl | exact Or.inr rfl | exact Or.inl ‹_› | refine Good.of_pair (by assumption) ?_
      | apply State.ageSignal_keeps | apply State.during_keeps | intro _ | apply Good.ite_of | apply apply_ite_good
      | split | dsimp only | apply good_upd
    | exact Or.inr rfl | exact rfl

theorem execMsixVectorUnmask_keeps {vector : Fin 512} {rq : Requester} {be : BitVec 4} {s : State} {t : State} (hg :
    Good ev s)
    (h : execMsixVectorUnmask vector rq be s = .next t) : Good ev t := by
  unfold execMsixVectorUnmask at h
  refine ok_good h ?_
  repeat' first
    | with_reducible first
      | assumption | rfl | exact Or.inr rfl | exact Or.inl ‹_› | refine Good.of_pair (by assumption) ?_
      | apply State.busWrite_keeps | intro _ | apply Good.ite_of | apply apply_ite_good | split | dsimp only
      | apply good_upd
    | exact Or.inr rfl | exact rfl

theorem execBar4Read_keeps {addr : BitVec 27} {length : Nat} {s : State} {t : State} (hg : Good ev s)
    (h : execBar4Read addr length s = .next t) : Good ev t := by
  unfold execBar4Read at h
  refine ok_good h ?_
  repeat' first
    | with_reducible first
      | assumption | rfl | exact Or.inr rfl | exact Or.inl ‹_› | refine Good.of_pair (by assumption) ?_
      | apply State.bar4Read_keeps | apply State.during_keeps | intro _ | apply Good.ite_of | apply apply_ite_good
      | split | dsimp only | apply good_upd
    | exact Or.inr rfl | exact rfl

theorem execBar4Write_keeps {addr : BitVec 27} {data : List Byte} {s : State} {t : State} (hg : Good ev s)
    (h : execBar4Write addr data s = .next t) : Good ev t := by
  unfold execBar4Write at h
  refine ok_good h ?_
  repeat' first
    | with_reducible first
      | assumption | rfl | exact Or.inr rfl | exact Or.inl ‹_› | refine Good.of_pair (by assumption) ?_
      | apply State.bar4Write_keeps | apply State.during_keeps | intro _ | apply Good.ite_of | apply apply_ite_good
      | split | dsimp only | apply good_upd
    | exact Or.inr rfl | exact rfl

theorem execBar4Timeout_keeps {read : Bool} {s : State} {t : State} (hg : Good ev s)
    (h : execBar4Timeout read s = .next t) : Good ev t := by
  unfold execBar4Timeout at h
  refine ok_good h ?_
  repeat' first
    | with_reducible first
      | assumption | rfl | exact Or.inr rfl | exact Or.inl ‹_› | refine Good.of_pair (by assumption) ?_
      | apply State.bar4Abort_keeps | apply State.during_keeps | apply State.emit_keeps | intro _ | apply Good.ite_of
      | apply apply_ite_good | split | dsimp only | apply good_upd
    | exact Or.inr rfl | exact rfl

theorem execD3hotEntry_keeps {s : State} {t : State} (hg : Good ev s)
    (h : execD3hotEntry s = .next t) : Good ev t := by
  unfold execD3hotEntry at h
  refine ok_good h ?_
  repeat' first
    | with_reducible first
      | assumption | rfl | exact Or.inr rfl | exact Or.inl ‹_› | refine Good.of_pair (by assumption) ?_ | intro _
      | apply Good.ite_of | apply apply_ite_good | split | dsimp only | apply good_upd
    | exact Or.inr rfl | exact rfl

theorem execD0Return_keeps {s : State} {t : State} (hg : Good ev s)
    (h : execD0Return s = .next t) : Good ev t := by
  unfold execD0Return at h
  refine ok_good h ?_
  repeat' first
    | with_reducible first
      | assumption | rfl | exact Or.inr rfl | exact Or.inl ‹_› | refine Good.of_pair (by assumption) ?_
      | apply State.ringsOff_keeps | intro _ | apply Good.ite_of | apply apply_ite_good | split | dsimp only
      | apply good_upd
    | exact Or.inr rfl | exact rfl

theorem execDlDown_keeps {s : State} {t : State} (hg : Good ev s)
    (h : execDlDown s = .next t) : Good ev t := by
  unfold execDlDown at h
  refine ok_good h ?_
  repeat' first
    | with_reducible first
      | assumption | rfl | exact Or.inr rfl | exact Or.inl ‹_› | refine Good.of_pair (by assumption) ?_
      | apply State.linkDown_keeps | intro _ | apply Good.ite_of | apply apply_ite_good | split | dsimp only
      | apply good_upd
    | exact Or.inr rfl | exact rfl

theorem execDlUp_keeps {gen : BitVec 3} {width : BitVec 5} {s : State} {t : State} (hg : Good ev s)
    (h : execDlUp gen width s = .next t) : Good ev t := by
  unfold execDlUp at h
  refine ok_good h ?_
  repeat' first
    | with_reducible first
      | assumption | rfl | exact Or.inr rfl | exact Or.inl ‹_› | refine Good.of_pair (by assumption) ?_
      | apply State.linkComesUp_keeps | intro _ | apply Good.ite_of | apply apply_ite_good | split | dsimp only
      | apply good_upd
    | exact Or.inr rfl | exact rfl

theorem execLaunchSendDone_keeps {ring : Fin 256} {slot : BitVec 15} {s : State} {t : State} (hg : Good ev s)
    (h : execLaunchSendDone ring slot s = .next t) : Good ev t := by
  unfold execLaunchSendDone at h
  refine ok_good h ?_
  repeat' first
    | with_reducible first
      | assumption | rfl | exact Or.inr rfl | exact Or.inl ‹_› | refine Good.of_pair (by assumption) ?_
      | apply State.launchSent_keeps | apply State.during_keeps | intro _ | apply Good.ite_of | apply apply_ite_good
      | split | dsimp only | apply good_upd
    | exact Or.inr rfl | exact rfl

theorem execPor_keeps {s : State} {t : State} (hg : Good ev s)
    (h : execPor s = .next t) : Good ev t := by
  unfold execPor at h
  refine ok_good h ?_
  repeat' first
    | with_reducible first
      | assumption | rfl | exact Or.inr rfl | exact Or.inl ‹_› | refine Good.of_pair (by assumption) ?_
      | apply State.doReset_keeps | intro _ | apply Good.ite_of | apply apply_ite_good | split | dsimp only
      | apply good_upd
    | exact Or.inr rfl | exact rfl

theorem execSupplyExcursion_keeps {supply : Fin 11} {s : State} {t : State} (hg : Good ev s)
    (h : execSupplyExcursion supply s = .next t) : Good ev t := by
  unfold execSupplyExcursion at h
  refine ok_good h ?_
  repeat' first
    | with_reducible first
      | assumption | rfl | exact Or.inr rfl | exact Or.inl ‹_› | refine Good.of_pair (by assumption) ?_
      | apply State.doReset_keeps | intro _ | apply Good.ite_of | apply apply_ite_good | split | dsimp only
      | apply good_upd
    | exact Or.inr rfl | exact rfl

theorem execFullReset_keeps {w : Wr} {s : State} {t : State} (hg : Good ev s)
    (h : execFullReset w s = .next t) : Good ev t := by
  unfold execFullReset at h
  refine ok_good h ?_
  repeat' first
    | with_reducible first
      | assumption | rfl | exact Or.inr rfl | exact Or.inl ‹_› | refine Good.of_pair (by assumption) ?_
      | apply State.write_keeps | intro _ | apply Good.ite_of | apply apply_ite_good | split | dsimp only
      | apply good_upd
    | exact Or.inr rfl | exact rfl

theorem execCoreReset_keeps {w : Wr} {s : State} {t : State} (hg : Good ev s)
    (h : execCoreReset w s = .next t) : Good ev t := by
  unfold execCoreReset at h
  refine ok_good h ?_
  repeat' first
    | with_reducible first
      | assumption | rfl | exact Or.inr rfl | exact Or.inl ‹_› | refine Good.of_pair (by assumption) ?_
      | apply State.write_keeps | intro _ | apply Good.ite_of | apply apply_ite_good | split | dsimp only
      | apply good_upd
    | exact Or.inr rfl | exact rfl

theorem execPcieReset_keeps {s : State} {t : State} (hg : Good ev s)
    (h : execPcieReset s = .next t) : Good ev t := by
  unfold execPcieReset at h
  refine ok_good h ?_
  repeat' first
    | with_reducible first
      | assumption | rfl | exact Or.inr rfl | exact Or.inl ‹_› | refine Good.of_pair (by assumption) ?_
      | apply State.pcieWipe_keeps | intro _ | apply Good.ite_of | apply apply_ite_good | split | dsimp only
      | apply good_upd
    | exact Or.inr rfl | exact rfl

theorem execFirnInit_keeps {s : State} {t : State} (hg : Good ev s) (hb : ev.beat = none)
    (h : execFirnInit s = .next t) : Good ev t := by
  unfold execFirnInit at h
  refine ok_good h ?_
  repeat' first
    | with_reducible first
      | assumption | rfl | exact Or.inr rfl | exact Or.inl ‹_› | refine Good.of_pair (by assumption) ?_
      | apply State.passUntil_keeps | intro _ | apply Good.ite_of | apply apply_ite_good | split | dsimp only
      | apply good_upd
    | exact Or.inr rfl | exact rfl

theorem execFwLoad_keeps {result : FlashResult} {s : State} {t : State} (hg : Good ev s)
    (h : execFwLoad result s = .next t) : Good ev t := by
  unfold execFwLoad at h
  refine ok_good h ?_
  repeat' first
    | with_reducible first
      | assumption | rfl | exact Or.inr rfl | exact Or.inl ‹_› | refine Good.of_pair (by assumption) ?_
      | apply State.during_keeps | apply State.flashLoad_keeps | intro _ | apply Good.ite_of | apply apply_ite_good
      | split | dsimp only | apply good_upd
    | exact Or.inr rfl | exact rfl

theorem execHostBootGo_keeps {w : Wr} {crcOk : Bool} {s : State} {t : State} (hg : Good ev s)
    (h : execHostBootGo w crcOk s = .next t) : Good ev t := by
  unfold execHostBootGo at h
  refine ok_good h ?_
  repeat' first
    | with_reducible first
      | assumption | rfl | exact Or.inr rfl | exact Or.inl ‹_› | refine Good.of_pair (by assumption) ?_
      | apply State.write_keeps | intro _ | apply Good.ite_of | apply apply_ite_good | split | dsimp only
      | apply good_upd
    | exact Or.inr rfl | exact rfl

theorem execBaseReady_keeps {version : Word} {dimms : List DimmRead} {s : State} {t : State} (hg : Good ev s)
    (h : execBaseReady version dimms s = .next t) : Good ev t := by
  unfold execBaseReady at h
  refine ok_good h ?_
  repeat' first
    | with_reducible first
      | assumption | rfl | exact Or.inr rfl | exact Or.inl ‹_› | refine Good.of_pair (by assumption) ?_
      | apply State.during_keeps | apply State.autoBringup_keeps | apply State.baseStart_keeps | intro _
      | apply Good.ite_of | apply apply_ite_good | split | dsimp only | apply good_upd
    | exact Or.inr rfl | exact rfl

theorem execBringup_keeps {rq : Requester} {be : BitVec 4} {seq : BitVec 8} {s : State} {t : State} (hg : Good ev s)
    (h : execBringup rq be seq s = .next t) : Good ev t := by
  unfold execBringup at h
  refine ok_good h ?_
  repeat' first
    | with_reducible first
      | assumption | rfl | exact Or.inr rfl | exact Or.inl ‹_› | refine Good.of_pair (by assumption) ?_
      | apply State.mailbox_keeps | intro _ | apply Good.ite_of | apply apply_ite_good | split | dsimp only
      | apply good_upd
    | exact Or.inr rfl | exact rfl

theorem execBringupStageTimeout_keeps {s : State} {t : State} (hg : Good ev s) (hb : ev.beat = none)
    (h : execBringupStageTimeout s = .next t) : Good ev t := by
  unfold execBringupStageTimeout at h
  refine ok_good h ?_
  repeat' first
    | with_reducible first
      | assumption | rfl | exact Or.inr rfl | exact Or.inl ‹_› | refine Good.of_pair (by assumption) ?_
      | apply State.during_keeps | apply State.passUntil_keeps | intro _ | apply Good.ite_of | apply apply_ite_good
      | split | dsimp only | apply good_upd
    | exact Or.inr rfl | exact rfl

theorem execSysref_keeps {rq : Requester} {be : BitVec 4} {seq : BitVec 8} {s : State} {t : State} (hg : Good ev s)
    (h : execSysref rq be seq s = .next t) : Good ev t := by
  unfold execSysref at h
  refine ok_good h ?_
  repeat' first
    | with_reducible first
      | assumption | rfl | exact Or.inr rfl | exact Or.inl ‹_› | refine Good.of_pair (by assumption) ?_
      | apply State.mailbox_keeps | intro _ | apply Good.ite_of | apply apply_ite_good | split | dsimp only
      | apply good_upd
    | exact Or.inr rfl | exact rfl

theorem execSysrefEvent_keeps {s : State} {t : State} (hg : Good ev s) (hb : ev.beat = none)
    (h : execSysrefEvent s = .next t) : Good ev t := by
  unfold execSysrefEvent at h
  refine ok_good h ?_
  repeat' first
    | with_reducible first
      | assumption | rfl | exact Or.inr rfl | exact Or.inl ‹_› | refine Good.of_pair (by assumption) ?_
      | apply State.sysrefRow_keeps | apply State.during_keeps | intro _ | apply Good.ite_of | apply apply_ite_good
      | split | dsimp only | apply good_upd
    | exact Or.inr rfl | exact rfl

theorem execFixedTable_keeps {rq : Requester} {be : BitVec 4} {seq : BitVec 8} {s : State} {t : State} (hg : Good ev s)
    (h : execFixedTable rq be seq s = .next t) : Good ev t := by
  unfold execFixedTable at h
  refine ok_good h ?_
  repeat' first
    | with_reducible first
      | assumption | rfl | exact Or.inr rfl | exact Or.inl ‹_› | refine Good.of_pair (by assumption) ?_
      | apply State.mailbox_keeps | intro _ | apply Good.ite_of | apply apply_ite_good | split | dsimp only
      | apply good_upd
    | exact Or.inr rfl | exact rfl

theorem execBadOpcode_keeps {rq : Requester} {be : BitVec 4} {opcode : BitVec 8} {seq : BitVec 8} {s : State} {t :
    State} (hg : Good ev s)
    (h : execBadOpcode rq be opcode seq s = .next t) : Good ev t := by
  unfold execBadOpcode at h
  refine ok_good h ?_
  repeat' first
    | with_reducible first
      | assumption | rfl | exact Or.inr rfl | exact Or.inl ‹_› | refine Good.of_pair (by assumption) ?_
      | apply State.mailbox_keeps | intro _ | apply Good.ite_of | apply apply_ite_good | split | dsimp only
      | apply good_upd
    | exact Or.inr rfl | exact rfl

theorem execThermalReading_keeps {temps : List (BitVec 12)} {s : State} {t : State} (hg : Good ev s)
    (h : execThermalReading temps s = .next t) : Good ev t := by
  unfold execThermalReading at h
  refine ok_good h ?_
  repeat' first
    | with_reducible first
      | assumption | rfl | exact Or.inr rfl | exact Or.inl ‹_› | refine Good.of_pair (by assumption) ?_
      | apply State.sensorsRead_keeps | apply State.during_keeps | intro _ | apply Good.ite_of | apply apply_ite_good
      | split | dsimp only | apply good_upd
    | exact Or.inr rfl | exact rfl

theorem execThermalTrip_keeps {s : State} {t : State} (hg : Good ev s)
    (h : execThermalTrip s = .next t) : Good ev t := by
  unfold execThermalTrip at h
  refine ok_good h ?_
  repeat' first
    | with_reducible first
      | assumption | rfl | exact Or.inr rfl | exact Or.inl ‹_› | refine Good.of_pair (by assumption) ?_
      | apply State.doReset_keeps | apply State.raise_keeps | intro _ | apply Good.ite_of | apply apply_ite_good
      | split | dsimp only | apply good_upd
    | exact Or.inr rfl | exact rfl

theorem execTripRelease_keeps {s : State} {t : State} (hg : Good ev s)
    (h : execTripRelease s = .next t) : Good ev t := by
  unfold execTripRelease at h
  refine ok_good h ?_
  repeat' first
    | with_reducible first
      | assumption | rfl | exact Or.inr rfl | exact Or.inl ‹_› | refine Good.of_pair (by assumption) ?_ | intro _
      | apply Good.ite_of | apply apply_ite_good | split | dsimp only | apply good_upd
    | exact Or.inr rfl | exact rfl

theorem execSupplyMeasurement_keeps {millivolts : List (BitVec 16)} {s : State} {t : State} (hg : Good ev s)
    (h : execSupplyMeasurement millivolts s = .next t) : Good ev t := by
  unfold execSupplyMeasurement at h
  refine ok_good h ?_
  repeat' first
    | with_reducible first
      | assumption | rfl | exact Or.inr rfl | exact Or.inl ‹_› | refine Good.of_pair (by assumption) ?_
      | apply State.suppliesRead_keeps | apply State.during_keeps | intro _ | apply Good.ite_of | apply apply_ite_good
      | split | dsimp only | apply good_upd
    | exact Or.inr rfl | exact rfl

theorem execPulseEnd_keeps {line : Fin 64} {s : State} {t : State} (hg : Good ev s) (hb : ev.beat = none)
    (h : execPulseEnd line s = .next t) : Good ev t := by
  unfold execPulseEnd at h
  refine ok_good h ?_
  repeat' first
    | with_reducible first
      | assumption | rfl | exact Or.inr rfl | exact Or.inl ‹_› | refine Good.of_pair (by assumption) ?_
      | apply State.edgeRow_keeps | apply State.pulseDone_keeps | intro _ | apply Good.ite_of | apply apply_ite_good
      | split | dsimp only | apply good_upd
    | exact Or.inr rfl | exact rfl

theorem execPatternRegisterWrite_keeps {line : Fin 64} {reg : PatReg} {w : Wr} {s : State} {t : State} (hg : Good ev s)
    (h : execPatternRegisterWrite line reg w s = .next t) : Good ev t := by
  unfold execPatternRegisterWrite at h
  refine ok_good h ?_
  repeat' first
    | with_reducible first
      | assumption | rfl | exact Or.inr rfl | exact Or.inl ‹_› | refine Good.of_pair (by assumption) ?_
      | apply State.write_keeps | intro _ | apply Good.ite_of | apply apply_ite_good | split | dsimp only
      | apply good_upd
    | exact Or.inr rfl | exact rfl

theorem execPatternPreloadDone_keeps {line : Fin 64} {s : State} {t : State} (hg : Good ev s)
    (h : execPatternPreloadDone line s = .next t) : Good ev t := by
  unfold execPatternPreloadDone at h
  refine ok_good h ?_
  repeat' first
    | with_reducible first
      | assumption | rfl | exact Or.inr rfl | exact Or.inl ‹_› | refine Good.of_pair (by assumption) ?_
      | apply State.during_keeps | apply State.patternLoaded_keeps | intro _ | apply Good.ite_of
      | apply apply_ite_good | split | dsimp only | apply good_upd
    | exact Or.inr rfl | exact rfl

theorem execPatternStart_keeps {line : Fin 64} {sample : Fin 16} {s : State} {t : State} (hg : Good ev s) (hb :
    ev.beat = none)
    (h : execPatternStart line sample s = .next t) : Good ev t := by
  unfold execPatternStart at h
  refine ok_good h ?_
  repeat' first
    | with_reducible first
      | assumption | rfl | exact Or.inr rfl | exact Or.inl ‹_› | refine Good.of_pair (by assumption) ?_
      | apply State.edgeRow_keeps | apply State.patternStart_keeps | intro _ | apply Good.ite_of
      | apply apply_ite_good | split | dsimp only | apply good_upd
    | exact Or.inr rfl | exact rfl

theorem execPatternWrap_keeps {line : Fin 64} {s : State} {t : State} (hg : Good ev s) (hb : ev.beat = none)
    (h : execPatternWrap line s = .next t) : Good ev t := by
  unfold execPatternWrap at h
  refine ok_good h ?_
  repeat' first
    | with_reducible first
      | assumption | rfl | exact Or.inr rfl | exact Or.inl ‹_› | refine Good.of_pair (by assumption) ?_
      | apply State.edgeRow_keeps | apply State.patternWrap_keeps | intro _ | apply Good.ite_of | apply apply_ite_good
      | split | dsimp only | apply good_upd
    | exact Or.inr rfl | exact rfl

theorem execToothEdge_keeps {tracker : Fin 2} {since : BitVec 32} {s : State} {t : State} (hg : Good ev s) (hb :
    ev.beat = none)
    (h : execToothEdge tracker since s = .next t) : Good ev t := by
  unfold execToothEdge at h
  refine ok_good h ?_
  repeat' first
    | with_reducible first
      | assumption | rfl | exact Or.inr rfl | exact Or.inl ‹_› | refine Good.of_pair (by assumption) ?_
      | apply State.atEdge_keeps | apply State.toothEdge_keeps | intro _ | apply Good.ite_of | apply apply_ite_good
      | split | dsimp only | apply good_upd
    | exact Or.inr rfl | exact rfl

theorem execToothMiss_keeps {tracker : Fin 2} {s : State} {t : State} (hg : Good ev s) (hb : ev.beat = none)
    (h : execToothMiss tracker s = .next t) : Good ev t := by
  unfold execToothMiss at h
  refine ok_good h ?_
  repeat' first
    | with_reducible first
      | assumption | rfl | exact Or.inr rfl | exact Or.inl ‹_› | refine Good.of_pair (by assumption) ?_
      | apply State.edgeRow_keeps | apply State.toothMiss_keeps | intro _ | apply Good.ite_of | apply apply_ite_good
      | split | dsimp only | apply good_upd
    | exact Or.inr rfl | exact rfl

theorem execIntervalOverflow_keeps {tracker : Fin 2} {s : State} {t : State} (hg : Good ev s) (hb : ev.beat = none)
    (h : execIntervalOverflow tracker s = .next t) : Good ev t := by
  unfold execIntervalOverflow at h
  refine ok_good h ?_
  repeat' first
    | with_reducible first
      | assumption | rfl | exact Or.inr rfl | exact Or.inl ‹_› | refine Good.of_pair (by assumption) ?_
      | apply State.edgeRow_keeps | apply State.intervalOverflow_keeps | intro _ | apply Good.ite_of
      | apply apply_ite_good | split | dsimp only | apply good_upd
    | exact Or.inr rfl | exact rfl

theorem execAngleEventFire_keeps {event : Fin 32} {sample : Fin 16} {s : State} {t : State} (hg : Good ev s) (hb :
    ev.beat = none)
    (h : execAngleEventFire event sample s = .next t) : Good ev t := by
  unfold execAngleEventFire at h
  refine ok_good h ?_
  repeat' first
    | with_reducible first
      | assumption | rfl | exact Or.inr rfl | exact Or.inl ‹_› | refine Good.of_pair (by assumption) ?_
      | apply State.edgeRow_keeps | apply State.angReach_keeps | intro _ | apply Good.ite_of | apply apply_ite_good
      | split | dsimp only | apply good_upd
    | exact Or.inr rfl | exact rfl

theorem execAngleEventRearm_keeps {event : Fin 32} {s : State} {t : State} (hg : Good ev s) (hb : ev.beat = none)
    (h : execAngleEventRearm event s = .next t) : Good ev t := by
  unfold execAngleEventRearm at h
  refine ok_good h ?_
  repeat' first
    | with_reducible first
      | assumption | rfl | exact Or.inr rfl | exact Or.inl ‹_› | refine Good.of_pair (by assumption) ?_
      | apply State.edgeRow_keeps | apply State.arm_keeps | intro _ | apply Good.ite_of | apply apply_ite_good | split
      | dsimp only | apply good_upd
    | exact Or.inr rfl | exact rfl

theorem execFreeRunEnd_keeps {tracker : Fin 2} {s : State} {t : State} (hg : Good ev s) (hb : ev.beat = none)
    (h : execFreeRunEnd tracker s = .next t) : Good ev t := by
  unfold execFreeRunEnd at h
  refine ok_good h ?_
  repeat' first
    | with_reducible first
      | assumption | rfl | exact Or.inr rfl | exact Or.inl ‹_› | refine Good.of_pair (by assumption) ?_
      | apply State.edgeRow_keeps | apply State.freeRunDone_keeps | intro _ | apply Good.ite_of | apply apply_ite_good
      | split | dsimp only | apply good_upd
    | exact Or.inr rfl | exact rfl

theorem execPadMismatch_keeps {line : Fin 64} {s : State} {t : State} (hg : Good ev s) (hb : ev.beat = none)
    (h : execPadMismatch line s = .next t) : Good ev t := by
  unfold execPadMismatch at h
  refine ok_good h ?_
  repeat' first
    | with_reducible first
      | assumption | rfl | exact Or.inr rfl | exact Or.inl ‹_› | refine Good.of_pair (by assumption) ?_
      | apply State.padBad_keeps | apply State.during_keeps | apply State.toCycle_keeps | intro _ | apply Good.ite_of
      | apply apply_ite_good | split | dsimp only | apply good_upd
    | exact Or.inr rfl | exact rfl

theorem execSerializerLockLoss_keeps {link : Fin 9} {s : State} {t : State} (hg : Good ev s)
    (h : execSerializerLockLoss link s = .next t) : Good ev t := by
  unfold execSerializerLockLoss at h
  refine ok_good h ?_
  repeat' first
    | with_reducible first
      | assumption | rfl | exact Or.inr rfl | exact Or.inl ‹_› | refine Good.of_pair (by assumption) ?_
      | apply State.serialLost_keeps | apply State.during_keeps | intro _ | apply Good.ite_of | apply apply_ite_good
      | split | dsimp only | apply good_upd
    | exact Or.inr rfl | exact rfl

theorem execSerializerRelock_keeps {link : Fin 9} {s : State} {t : State} (hg : Good ev s)
    (h : execSerializerRelock link s = .next t) : Good ev t := by
  unfold execSerializerRelock at h
  refine ok_good h ?_
  repeat' first
    | with_reducible first
      | assumption | rfl | exact Or.inr rfl | exact Or.inl ‹_› | refine Good.of_pair (by assumption) ?_
      | apply State.during_keeps | apply State.setTxl_keeps | intro _ | apply Good.ite_of | apply apply_ite_good
      | split | dsimp only | apply good_upd
    | exact Or.inr rfl | exact rfl

theorem execDeadTimeEnd_keeps {pair : Fin 32} {high : Bool} {pending : Bool} {s : State} {t : State} (hg : Good ev
    s) (hb : ev.beat = none)
    (h : execDeadTimeEnd pair high pending s = .next t) : Good ev t := by
  unfold execDeadTimeEnd at h
  refine ok_good h ?_
  repeat' first
    | with_reducible first
      | assumption | rfl | exact Or.inr rfl | exact Or.inl ‹_› | refine Good.of_pair (by assumption) ?_
      | apply State.pairRow_keeps | intro _ | apply Good.ite_of | apply apply_ite_good | split | dsimp only
      | apply good_upd
    | exact Or.inr rfl | exact rfl

theorem execMinPulseEnd_keeps {pair : Fin 32} {high : Bool} {s : State} {t : State} (hg : Good ev s) (hb : ev.beat =
    none)
    (h : execMinPulseEnd pair high s = .next t) : Good ev t := by
  unfold execMinPulseEnd at h
  refine ok_good h ?_
  repeat' first
    | with_reducible first
      | assumption | rfl | exact Or.inr rfl | exact Or.inl ‹_› | refine Good.of_pair (by assumption) ?_
      | apply State.pairRow_keeps | intro _ | apply Good.ite_of | apply apply_ite_good | split | dsimp only
      | apply good_upd
    | exact Or.inr rfl | exact rfl

theorem execMorMapWrite_keeps {w : Wr} {s : State} {t : State} (hg : Good ev s)
    (h : execMorMapWrite w s = .next t) : Good ev t := by
  unfold execMorMapWrite at h
  refine ok_good h ?_
  repeat' first
    | with_reducible first
      | assumption | rfl | exact Or.inr rfl | exact Or.inl ‹_› | refine Good.of_pair (by assumption) ?_
      | apply State.write_keeps | intro _ | apply Good.ite_of | apply apply_ite_good | split | dsimp only
      | apply good_upd
    | exact Or.inr rfl | exact rfl

theorem execMorChannelEnable_keeps {ch : Fin 4} {w : Wr} {s : State} {t : State} (hg : Good ev s)
    (h : execMorChannelEnable ch w s = .next t) : Good ev t := by
  unfold execMorChannelEnable at h
  refine ok_good h ?_
  repeat' first
    | with_reducible first
      | assumption | rfl | exact Or.inr rfl | exact Or.inl ‹_› | refine Good.of_pair (by assumption) ?_
      | apply State.write_keeps | intro _ | apply Good.ite_of | apply apply_ite_good | split | dsimp only
      | apply good_upd
    | exact Or.inr rfl | exact rfl

theorem execMorTrainingDone_keeps {ch : Fin 4} {result : TrainResult} {s : State} {t : State} (hg : Good ev s)
    (h : execMorTrainingDone ch result s = .next t) : Good ev t := by
  unfold execMorTrainingDone at h
  refine ok_good h ?_
  repeat' first
    | with_reducible first
      | assumption | rfl | exact Or.inr rfl | exact Or.inl ‹_› | refine Good.of_pair (by assumption) ?_
      | apply State.during_keeps | apply State.bringCheck_keeps | apply State.trainDone_keeps | intro _
      | apply Good.ite_of | apply apply_ite_good | split | dsimp only | apply good_upd
    | exact Or.inr rfl | exact rfl

theorem execMorRequest_keeps {ch : Fin 4} {req : MorReq} {s : State} {t : State} (hg : Good ev s)
    (h : execMorRequest ch req s = .next t) : Good ev t := by
  unfold execMorRequest at h
  refine ok_good h ?_
  repeat' first
    | with_reducible first
      | assumption | rfl | exact Or.inr rfl | exact Or.inl ‹_› | refine Good.of_pair (by assumption) ?_
      | apply State.during_keeps | apply State.morArrive_keeps | intro _ | apply Good.ite_of | apply apply_ite_good
      | split | dsimp only | apply good_upd
    | exact Or.inr rfl | exact rfl

theorem execMorReadReturn_keeps {ch : Fin 4} {flips : BitVec 640} {s : State} {t : State} (hg : Good ev s) (hb :
    ev.beat = none)
    (h : execMorReadReturn ch flips s = .next t) : Good ev t := by
  unfold execMorReadReturn at h
  refine ok_good h ?_
  repeat' first
    | with_reducible first
      | assumption | rfl | exact Or.inr rfl | exact Or.inl ‹_› | refine Good.of_pair (by assumption) ?_
      | apply State.morBack_keeps | apply State.during_keeps | intro _ | apply Good.ite_of | apply apply_ite_good
      | split | dsimp only | apply good_upd
    | exact Or.inr rfl | exact rfl

theorem execRefreshDue_keeps {ch : Fin 4} {sub : Bool} {rank : Bool} {s : State} {t : State} (hg : Good ev s) (hb :
    ev.beat = none)
    (h : execRefreshDue ch sub rank s = .next t) : Good ev t := by
  unfold execRefreshDue at h
  refine ok_good h ?_
  repeat' first
    | with_reducible first
      | assumption | rfl | exact Or.inr rfl | exact Or.inl ‹_› | refine Good.of_pair (by assumption) ?_
      | apply State.refreshDue_keeps | apply State.during_keeps | intro _ | apply Good.ite_of | apply apply_ite_good
      | split | dsimp only | apply good_upd
    | exact Or.inr rfl | exact rfl

theorem execRfm_keeps {ch : Fin 4} {bank : BitVec 7} {s : State} {t : State} (hg : Good ev s) (hb : ev.beat = none)
    (h : execRfm ch bank s = .next t) : Good ev t := by
  unfold execRfm at h
  refine ok_good h ?_
  repeat' first
    | with_reducible first
      | assumption | rfl | exact Or.inr rfl | exact Or.inl ‹_› | refine Good.of_pair (by assumption) ?_
      | apply State.rfmDue_keeps | apply State.during_keeps | intro _ | apply Good.ite_of | apply apply_ite_good
      | split | dsimp only | apply good_upd
    | exact Or.inr rfl | exact rfl

theorem execSelfRefreshEntry_keeps {ch : Fin 4} {s : State} {t : State} (hg : Good ev s) (hb : ev.beat = none)
    (h : execSelfRefreshEntry ch s = .next t) : Good ev t := by
  unfold execSelfRefreshEntry at h
  refine ok_good h ?_
  repeat' first
    | with_reducible first
      | assumption | rfl | exact Or.inr rfl | exact Or.inl ‹_› | refine Good.of_pair (by assumption) ?_
      | apply State.srWait_keeps | apply State.during_keeps | intro _ | apply Good.ite_of | apply apply_ite_good
      | split | dsimp only | apply good_upd
    | exact Or.inr rfl | exact rfl

theorem execSre_keeps {ch : Fin 4} {s : State} {t : State} (hg : Good ev s) (hb : ev.beat = none)
    (h : execSre ch s = .next t) : Good ev t := by
  unfold execSre at h
  refine ok_good h ?_
  repeat' first
    | with_reducible first
      | assumption | rfl | exact Or.inr rfl | exact Or.inl ‹_› | refine Good.of_pair (by assumption) ?_
      | apply State.during_keeps | apply State.morUntil_keeps | intro _ | apply Good.ite_of | apply apply_ite_good
      | split | dsimp only | apply good_upd
    | exact Or.inr rfl | exact rfl

theorem execSrx_keeps {ch : Fin 4} {s : State} {t : State} (hg : Good ev s) (hb : ev.beat = none)
    (h : execSrx ch s = .next t) : Good ev t := by
  unfold execSrx at h
  refine ok_good h ?_
  repeat' first
    | with_reducible first
      | assumption | rfl | exact Or.inr rfl | exact Or.inl ‹_› | refine Good.of_pair (by assumption) ?_
      | apply State.during_keeps | apply State.morUntil_keeps | intro _ | apply Good.ite_of | apply apply_ite_good
      | split | dsimp only | apply good_upd
    | exact Or.inr rfl | exact rfl

theorem execCalibrationDue_keeps {ch : Fin 4} {kind : CalKind} {s : State} {t : State} (hg : Good ev s) (hb :
    ev.beat = none)
    (h : execCalibrationDue ch kind s = .next t) : Good ev t := by
  unfold execCalibrationDue at h
  refine ok_good h ?_
  repeat' first
    | with_reducible first
      | assumption | rfl | exact Or.inr rfl | exact Or.inl ‹_› | refine Good.of_pair (by assumption) ?_
      | apply State.calDue_keeps | apply State.during_keeps | intro _ | apply Good.ite_of | apply apply_ite_good
      | split | dsimp only | apply good_upd
    | exact Or.inr rfl | exact rfl

theorem execCalibrationSkip_keeps {ch : Fin 4} {kind : CalKind} {s : State} {t : State} (hg : Good ev s) (hb :
    ev.beat = none)
    (h : execCalibrationSkip ch kind s = .next t) : Good ev t := by
  unfold execCalibrationSkip at h
  refine ok_good h ?_
  repeat' first
    | with_reducible first
      | assumption | rfl | exact Or.inr rfl | exact Or.inl ‹_› | refine Good.of_pair (by assumption) ?_
      | apply State.calSkip_keeps | apply State.during_keeps | intro _ | apply Good.ite_of | apply apply_ite_good
      | split | dsimp only | apply good_upd
    | exact Or.inr rfl | exact rfl

theorem execAlertN_keeps {ch : Fin 4} {s : State} {t : State} (hg : Good ev s)
    (h : execAlertN ch s = .next t) : Good ev t := by
  unfold execAlertN at h
  refine ok_good h ?_
  repeat' first
    | with_reducible first
      | assumption | rfl | exact Or.inr rfl | exact Or.inl ‹_› | refine Good.of_pair (by assumption) ?_
      | apply State.during_keeps | apply State.alert_keeps | intro _ | apply Good.ite_of | apply apply_ite_good
      | split | dsimp only | apply good_upd
    | exact Or.inr rfl | exact rfl

theorem execReplayEnd_keeps {ch : Fin 4} {s : State} {t : State} (hg : Good ev s) (hb : ev.beat = none)
    (h : execReplayEnd ch s = .next t) : Good ev t := by
  unfold execReplayEnd at h
  refine ok_good h ?_
  repeat' first
    | with_reducible first
      | assumption | rfl | exact Or.inr rfl | exact Or.inl ‹_› | refine Good.of_pair (by assumption) ?_
      | apply State.during_keeps | apply State.morUntil_keeps | intro _ | apply Good.ite_of | apply apply_ite_good
      | split | dsimp only | apply good_upd
    | exact Or.inr rfl | exact rfl

theorem execThNone_keeps {ch : Fin 4} {w : Wr} {s : State} {t : State} (hg : Good ev s)
    (h : execThNone ch w s = .next t) : Good ev t := by
  unfold execThNone at h
  refine ok_good h ?_
  repeat' first
    | with_reducible first
      | assumption | rfl | exact Or.inr rfl | exact Or.inl ‹_› | refine Good.of_pair (by assumption) ?_
      | apply State.thGo_keeps | intro _ | apply Good.ite_of | apply apply_ite_good | split | dsimp only
      | apply good_upd
    | exact Or.inr rfl | exact rfl

theorem execThWriteRead_keeps {ch : Fin 4} {w : Wr} {s : State} {t : State} (hg : Good ev s)
    (h : execThWriteRead ch w s = .next t) : Good ev t := by
  unfold execThWriteRead at h
  refine ok_good h ?_
  repeat' first
    | with_reducible first
      | assumption | rfl | exact Or.inr rfl | exact Or.inl ‹_› | refine Good.of_pair (by assumption) ?_
      | apply State.thGo_keeps | intro _ | apply Good.ite_of | apply apply_ite_good | split | dsimp only
      | apply good_upd
    | exact Or.inr rfl | exact rfl

theorem execThReadCmp_keeps {ch : Fin 4} {w : Wr} {s : State} {t : State} (hg : Good ev s)
    (h : execThReadCmp ch w s = .next t) : Good ev t := by
  unfold execThReadCmp at h
  refine ok_good h ?_
  repeat' first
    | with_reducible first
      | assumption | rfl | exact Or.inr rfl | exact Or.inl ‹_› | refine Good.of_pair (by assumption) ?_
      | apply State.thGo_keeps | intro _ | apply Good.ite_of | apply apply_ite_good | split | dsimp only
      | apply good_upd
    | exact Or.inr rfl | exact rfl

theorem execThWrite_keeps {ch : Fin 4} {w : Wr} {s : State} {t : State} (hg : Good ev s)
    (h : execThWrite ch w s = .next t) : Good ev t := by
  unfold execThWrite at h
  refine ok_good h ?_
  repeat' first
    | with_reducible first
      | assumption | rfl | exact Or.inr rfl | exact Or.inl ‹_› | refine Good.of_pair (by assumption) ?_
      | apply State.thGo_keeps | intro _ | apply Good.ite_of | apply apply_ite_good | split | dsimp only
      | apply good_upd
    | exact Or.inr rfl | exact rfl

theorem execThMrw_keeps {ch : Fin 4} {w : Wr} {s : State} {t : State} (hg : Good ev s)
    (h : execThMrw ch w s = .next t) : Good ev t := by
  unfold execThMrw at h
  refine ok_good h ?_
  repeat' first
    | with_reducible first
      | assumption | rfl | exact Or.inr rfl | exact Or.inl ‹_› | refine Good.of_pair (by assumption) ?_
      | apply State.thGo_keeps | intro _ | apply Good.ite_of | apply apply_ite_good | split | dsimp only
      | apply good_upd
    | exact Or.inr rfl | exact rfl

theorem execThMrr_keeps {ch : Fin 4} {w : Wr} {s : State} {t : State} (hg : Good ev s)
    (h : execThMrr ch w s = .next t) : Good ev t := by
  unfold execThMrr at h
  refine ok_good h ?_
  repeat' first
    | with_reducible first
      | assumption | rfl | exact Or.inr rfl | exact Or.inl ‹_› | refine Good.of_pair (by assumption) ?_
      | apply State.thGo_keeps | intro _ | apply Good.ite_of | apply apply_ite_good | split | dsimp only
      | apply good_upd
    | exact Or.inr rfl | exact rfl

theorem execThMpc_keeps {ch : Fin 4} {w : Wr} {s : State} {t : State} (hg : Good ev s)
    (h : execThMpc ch w s = .next t) : Good ev t := by
  unfold execThMpc at h
  refine ok_good h ?_
  repeat' first
    | with_reducible first
      | assumption | rfl | exact Or.inr rfl | exact Or.inl ‹_› | refine Good.of_pair (by assumption) ?_
      | apply State.thGo_keeps | intro _ | apply Good.ite_of | apply apply_ite_good | split | dsimp only
      | apply good_upd
    | exact Or.inr rfl | exact rfl

theorem execThCaSample_keeps {ch : Fin 4} {w : Wr} {s : State} {t : State} (hg : Good ev s)
    (h : execThCaSample ch w s = .next t) : Good ev t := by
  unfold execThCaSample at h
  refine ok_good h ?_
  repeat' first
    | with_reducible first
      | assumption | rfl | exact Or.inr rfl | exact Or.inl ‹_› | refine Good.of_pair (by assumption) ?_
      | apply State.thGo_keeps | intro _ | apply Good.ite_of | apply apply_ite_good | split | dsimp only
      | apply good_upd
    | exact Or.inr rfl | exact rfl

theorem execThWlSample_keeps {ch : Fin 4} {w : Wr} {s : State} {t : State} (hg : Good ev s)
    (h : execThWlSample ch w s = .next t) : Good ev t := by
  unfold execThWlSample at h
  refine ok_good h ?_
  repeat' first
    | with_reducible first
      | assumption | rfl | exact Or.inr rfl | exact Or.inl ‹_› | refine Good.of_pair (by assumption) ?_
      | apply State.thGo_keeps | intro _ | apply Good.ite_of | apply apply_ite_good | split | dsimp only
      | apply good_upd
    | exact Or.inr rfl | exact rfl

theorem execThDone_keeps {ch : Fin 4} {flips : List (Nat × BitVec 512)} {checkFlips : List (Nat × BitVec 128)}
    {feedback : Word} {mrr : BitVec 8} {s : State} {t : State} (hg : Good ev s)
    (h : execThDone ch flips checkFlips feedback mrr s = .next t) : Good ev t := by
  unfold execThDone at h
  refine ok_good h ?_
  repeat' first
    | with_reducible first
      | assumption | rfl | exact Or.inr rfl | exact Or.inl ‹_› | refine Good.of_pair (by assumption) ?_
      | apply State.during_keeps | apply State.thEnd_keeps | intro _ | apply Good.ite_of | apply apply_ite_good
      | split | dsimp only | apply good_upd
    | exact Or.inr rfl | exact rfl

theorem execStreamOpen_keeps {str : Fin 32} {srcMa : BitVec 38} {length : Nat} {base : BitVec 15} {regions : BitVec
    15} {s : State} {t : State} (hg : Good ev s)
    (h : execStreamOpen str srcMa length base regions s = .next t) : Good ev t := by
  unfold execStreamOpen at h
  refine ok_good h ?_
  repeat' first
    | with_reducible first
      | assumption | rfl | exact Or.inr rfl | exact Or.inl ‹_› | refine Good.of_pair (by assumption) ?_
      | apply State.during_keeps | apply State.streamStart_keeps | intro _ | apply Good.ite_of | apply apply_ite_good
      | split | dsimp only | apply good_upd
    | exact Or.inr rfl | exact rfl

theorem execStreamReadIssue_keeps {str : Fin 32} {s : State} {t : State} (hg : Good ev s)
    (h : execStreamReadIssue str s = .next t) : Good ev t := by
  unfold execStreamReadIssue at h
  refine ok_good h ?_
  repeat' first
    | with_reducible first
      | assumption | rfl | exact Or.inr rfl | exact Or.inl ‹_› | refine Good.of_pair (by assumption) ?_
      | apply State.during_keeps | apply State.streamIssue_keeps | intro _ | apply Good.ite_of | apply apply_ite_good
      | split | dsimp only | apply good_upd
    | exact Or.inr rfl | exact rfl

theorem execStreamClose_keeps {str : Fin 32} {s : State} {t : State} (hg : Good ev s)
    (h : execStreamClose str s = .next t) : Good ev t := by
  unfold execStreamClose at h
  refine ok_good h ?_
  repeat' first
    | with_reducible first
      | assumption | rfl | exact Or.inr rfl | exact Or.inl ‹_› | refine Good.of_pair (by assumption) ?_
      | apply State.during_keeps | apply State.streamStop_keeps | intro _ | apply Good.ite_of | apply apply_ite_good
      | split | dsimp only | apply good_upd
    | exact Or.inr rfl | exact rfl

theorem execMorMapSwitch_keeps {s : State} {t : State} (hg : Good ev s) (hb : ev.beat = none)
    (h : execMorMapSwitch s = .next t) : Good ev t := by
  unfold execMorMapSwitch at h
  refine ok_good h ?_
  repeat' first
    | with_reducible first
      | assumption | rfl | exact Or.inr rfl | exact Or.inl ‹_› | refine Good.of_pair (by assumption) ?_
      | apply State.during_keeps | apply State.passUntil_keeps | apply State.drainEnd_keeps | apply State.each_keeps
      | intro _ | apply Good.ite_of | apply apply_ite_good | split | dsimp only | apply good_upd
    | exact Or.inr rfl | exact rfl

theorem execLinkSignalDetect_keeps {link : Fin 8} {s : State} {t : State} (hg : Good ev s)
    (h : execLinkSignalDetect link s = .next t) : Good ev t := by
  unfold execLinkSignalDetect at h
  refine ok_good h ?_
  repeat' first
    | with_reducible first
      | assumption | rfl | exact Or.inr rfl | exact Or.inl ‹_› | refine Good.of_pair (by assumption) ?_
      | apply State.during_keeps | apply State.linkSignal_keeps | intro _ | apply Good.ite_of | apply apply_ite_good
      | split | dsimp only | apply good_upd
    | exact Or.inr rfl | exact rfl

theorem execLinkTrained_keeps {link : Fin 8} {s : State} {t : State} (hg : Good ev s)
    (h : execLinkTrained link s = .next t) : Good ev t := by
  unfold execLinkTrained at h
  refine ok_good h ?_
  repeat' first
    | with_reducible first
      | assumption | rfl | exact Or.inr rfl | exact Or.inl ‹_› | refine Good.of_pair (by assumption) ?_
      | apply State.during_keeps | apply State.linkTrained_keeps | intro _ | apply Good.ite_of | apply apply_ite_good
      | split | dsimp only | apply good_upd
    | exact Or.inr rfl | exact rfl

theorem execTrainTimeout_keeps {link : Fin 8} {s : State} {t : State} (hg : Good ev s) (hb : ev.beat = none)
    (h : execTrainTimeout link s = .next t) : Good ev t := by
  unfold execTrainTimeout at h
  refine ok_good h ?_
  repeat' first
    | with_reducible first
      | assumption | rfl | exact Or.inr rfl | exact Or.inl ‹_› | refine Good.of_pair (by assumption) ?_
      | apply State.fabricWait_keeps | apply State.during_keeps | intro _ | apply Good.ite_of | apply apply_ite_good
      | split | dsimp only | apply good_upd
    | exact Or.inr rfl | exact rfl

theorem execHello_keeps {link : Fin 8} {dieId : BitVec 64} {peerLink : BitVec 3} {calDone : Bool} {cr : Credits} {s
    : State} {t : State} (hg : Good ev s)
    (h : execHello link dieId peerLink calDone cr s = .next t) : Good ev t := by
  unfold execHello at h
  refine ok_good h ?_
  repeat' first
    | with_reducible first
      | assumption | rfl | exact Or.inr rfl | exact Or.inl ‹_› | refine Good.of_pair (by assumption) ?_
      | apply State.during_keeps | apply State.bringCheck_keeps | apply State.helloRx_keeps | intro _
      | apply Good.ite_of | apply apply_ite_good | split | dsimp only | apply good_upd
    | exact Or.inr rfl | exact rfl

theorem execHelloSend_keeps {link : Fin 8} {s : State} {t : State} (hg : Good ev s) (hb : ev.beat = none)
    (h : execHelloSend link s = .next t) : Good ev t := by
  unfold execHelloSend at h
  refine ok_good h ?_
  repeat' first
    | with_reducible first
      | assumption | rfl | exact Or.inr rfl | exact Or.inl ‹_› | refine Good.of_pair (by assumption) ?_
      | apply State.fabricWait_keeps | apply State.during_keeps | intro _ | apply Good.ite_of | apply apply_ite_good
      | split | dsimp only | apply good_upd
    | exact Or.inr rfl | exact rfl

theorem execHelloTimeout_keeps {link : Fin 8} {s : State} {t : State} (hg : Good ev s) (hb : ev.beat = none)
    (h : execHelloTimeout link s = .next t) : Good ev t := by
  unfold execHelloTimeout at h
  refine ok_good h ?_
  repeat' first
    | with_reducible first
      | assumption | rfl | exact Or.inr rfl | exact Or.inl ‹_› | refine Good.of_pair (by assumption) ?_
      | apply State.fabricWait_keeps | apply State.during_keeps | intro _ | apply Good.ite_of | apply apply_ite_good
      | split | dsimp only | apply good_upd
    | exact Or.inr rfl | exact rfl

theorem execLinkAck_keeps {link : Fin 8} {ackLseq : BitVec 8} {cr : Credits} {s : State} {t : State} (hg : Good ev s)
    (h : execLinkAck link ackLseq cr s = .next t) : Good ev t := by
  unfold execLinkAck at h
  refine ok_good h ?_
  repeat' first
    | with_reducible first
      | assumption | rfl | exact Or.inr rfl | exact Or.inl ‹_› | refine Good.of_pair (by assumption) ?_
      | apply State.during_keeps | apply State.linkAck_keeps | intro _ | apply Good.ite_of | apply apply_ite_good
      | split | dsimp only | apply good_upd
    | exact Or.inr rfl | exact rfl

theorem execReplayReq_keeps {link : Fin 8} {ackLseq : BitVec 8} {replayLseq : BitVec 8} {cr : Credits} {s : State}
    {t : State} (hg : Good ev s)
    (h : execReplayReq link ackLseq replayLseq cr s = .next t) : Good ev t := by
  unfold execReplayReq at h
  refine ok_good h ?_
  repeat' first
    | with_reducible first
      | assumption | rfl | exact Or.inr rfl | exact Or.inl ‹_› | refine Good.of_pair (by assumption) ?_
      | apply State.during_keeps | apply State.replayReq_keeps | intro _ | apply Good.ite_of | apply apply_ite_good
      | split | dsimp only | apply good_upd
    | exact Or.inr rfl | exact rfl

theorem execIdle_keeps {link : Fin 8} {cr : Credits} {s : State} {t : State} (hg : Good ev s)
    (h : execIdle link cr s = .next t) : Good ev t := by
  unfold execIdle at h
  refine ok_good h ?_
  repeat' first
    | with_reducible first
      | assumption | rfl | exact Or.inr rfl | exact Or.inl ‹_› | refine Good.of_pair (by assumption) ?_
      | apply State.during_keeps | apply State.linkIdle_keeps | intro _ | apply Good.ite_of | apply apply_ite_good
      | split | dsimp only | apply good_upd
    | exact Or.inr rfl | exact rfl

theorem execBlockLockLost_keeps {link : Fin 8} {s : State} {t : State} (hg : Good ev s)
    (h : execBlockLockLost link s = .next t) : Good ev t := by
  unfold execBlockLockLost at h
  refine ok_good h ?_
  repeat' first
    | with_reducible first
      | assumption | rfl | exact Or.inr rfl | exact Or.inl ‹_› | refine Good.of_pair (by assumption) ?_
      | apply State.during_keeps | apply State.blockLost_keeps | intro _ | apply Good.ite_of | apply apply_ite_good
      | split | dsimp only | apply good_upd
    | exact Or.inr rfl | exact rfl

theorem execTimeSend_keeps {link : Fin 8} {txStamp : BitVec 64} {s : State} {t : State} (hg : Good ev s) (hb :
    ev.beat = none)
    (h : execTimeSend link txStamp s = .next t) : Good ev t := by
  unfold execTimeSend at h
  refine ok_good h ?_
  repeat' first
    | with_reducible first
      | assumption | rfl | exact Or.inr rfl | exact Or.inl ‹_› | refine Good.of_pair (by assumption) ?_
      | apply State.fabricWait_keeps | apply State.during_keeps | apply State.timeSend_keeps | intro _
      | apply Good.ite_of | apply apply_ite_good | split | dsimp only | apply good_upd
    | exact Or.inr rfl | exact rfl

theorem execTime_keeps {link : Fin 8} {pkt : TimePkt} {s : State} {t : State} (hg : Good ev s)
    (h : execTime link pkt s = .next t) : Good ev t := by
  unfold execTime at h
  refine ok_good h ?_
  repeat' first
    | with_reducible first
      | assumption | rfl | exact Or.inr rfl | exact Or.inl ‹_› | refine Good.of_pair (by assumption) ?_
      | apply State.during_keeps | apply State.timeRx_keeps | intro _ | apply Good.ite_of | apply apply_ite_good
      | split | dsimp only | apply good_upd
    | exact Or.inr rfl | exact rfl

theorem execElect_keeps {link : Fin 8} {key : ElectKey} {dist : BitVec 5} {s : State} {t : State} (hg : Good ev s)
    (h : execElect link key dist s = .next t) : Good ev t := by
  unfold execElect at h
  refine ok_good h ?_
  repeat' first
    | with_reducible first
      | assumption | rfl | exact Or.inr rfl | exact Or.inl ‹_› | refine Good.of_pair (by assumption) ?_
      | apply State.during_keeps | apply State.electRx_keeps | intro _ | apply Good.ite_of | apply apply_ite_good
      | split | dsimp only | apply good_upd
    | exact Or.inr rfl | exact rfl

theorem execElectionDecision_keeps {s : State} {t : State} (hg : Good ev s) (hb : ev.beat = none)
    (h : execElectionDecision s = .next t) : Good ev t := by
  unfold execElectionDecision at h
  refine ok_good h ?_
  repeat' first
    | with_reducible first
      | assumption | rfl | exact Or.inr rfl | exact Or.inl ‹_› | refine Good.of_pair (by assumption) ?_
      | apply State.fabricWait_keeps | apply State.during_keeps | intro _ | apply Good.ite_of | apply apply_ite_good
      | split | dsimp only | apply good_upd
    | exact Or.inr rfl | exact rfl

theorem execDiscover_keeps {link : Fin 8} {gen : BitVec 16} {hop : BitVec 5} {path : List (BitVec 3)} {s : State} {t
    : State} (hg : Good ev s)
    (h : execDiscover link gen hop path s = .next t) : Good ev t := by
  unfold execDiscover at h
  refine ok_good h ?_
  repeat' first
    | with_reducible first
      | assumption | rfl | exact Or.inr rfl | exact Or.inl ‹_› | refine Good.of_pair (by assumption) ?_
      | apply State.during_keeps | apply State.discoverRx_keeps | intro _ | apply Good.ite_of | apply apply_ite_good
      | split | dsimp only | apply good_upd
    | exact Or.inr rfl | exact rfl

theorem execReportSend_keeps {s : State} {t : State} (hg : Good ev s) (hb : ev.beat = none)
    (h : execReportSend s = .next t) : Good ev t := by
  unfold execReportSend at h
  refine ok_good h ?_
  repeat' first
    | with_reducible first
      | assumption | rfl | exact Or.inr rfl | exact Or.inl ‹_› | refine Good.of_pair (by assumption) ?_
      | apply State.fabricWait_keeps | apply State.during_keeps | intro _ | apply Good.ite_of | apply apply_ite_good
      | split | dsimp only | apply good_upd
    | exact Or.inr rfl | exact rfl

theorem execReport_keeps {h : Hdr} {pkt : ReportPkt} {s : State} {t : State} (hg : Good ev s)
    (h : execReport h pkt s = .next t) : Good ev t := by
  unfold execReport at h
  refine ok_good h ?_
  repeat' first
    | with_reducible first
      | assumption | rfl | exact Or.inr rfl | exact Or.inl ‹_› | refine Good.of_pair (by assumption) ?_
      | apply State.during_keeps | apply State.reportRx_keeps | intro _ | apply Good.ite_of | apply apply_ite_good
      | split | dsimp only | apply good_upd
    | exact Or.inr rfl | exact rfl

theorem execCollectionEnd_keeps {s : State} {t : State} (hg : Good ev s) (hb : ev.beat = none)
    (h : execCollectionEnd s = .next t) : Good ev t := by
  unfold execCollectionEnd at h
  refine ok_good h ?_
  repeat' first
    | with_reducible first
      | assumption | rfl | exact Or.inr rfl | exact Or.inl ‹_› | refine Good.of_pair (by assumption) ?_
      | apply State.fabricWait_keeps | apply State.during_keeps | intro _ | apply Good.ite_of | apply apply_ite_good
      | split | dsimp only | apply good_upd
    | exact Or.inr rfl | exact rfl

theorem execConfig_keeps {h : Hdr} {gen : BitVec 16} {part : ConfigPart} {s : State} {t : State} (hg : Good ev s)
    (h : execConfig h gen part s = .next t) : Good ev t := by
  unfold execConfig at h
  refine ok_good h ?_
  repeat' first
    | with_reducible first
      | assumption | rfl | exact Or.inr rfl | exact Or.inl ‹_› | refine Good.of_pair (by assumption) ?_
      | apply State.during_keeps | apply State.configRx_keeps | intro _ | apply Good.ite_of | apply apply_ite_good
      | split | dsimp only | apply good_upd
    | exact Or.inr rfl | exact rfl

theorem execConfigResend_keeps {s : State} {t : State} (hg : Good ev s) (hb : ev.beat = none)
    (h : execConfigResend s = .next t) : Good ev t := by
  unfold execConfigResend at h
  refine ok_good h ?_
  repeat' first
    | with_reducible first
      | assumption | rfl | exact Or.inr rfl | exact Or.inl ‹_› | refine Good.of_pair (by assumption) ?_
      | apply State.fabricWait_keeps | apply State.during_keeps | intro _ | apply Good.ite_of | apply apply_ite_good
      | split | dsimp only | apply good_upd
    | exact Or.inr rfl | exact rfl

theorem execAck_keeps {h : Hdr} {gen : BitVec 16} {node : BitVec 64} {s : State} {t : State} (hg : Good ev s)
    (h : execAck h gen node s = .next t) : Good ev t := by
  unfold execAck at h
  refine ok_good h ?_
  repeat' first
    | with_reducible first
      | assumption | rfl | exact Or.inr rfl | exact Or.inl ‹_› | refine Good.of_pair (by assumption) ?_
      | apply State.during_keeps | apply State.bringCheck_keeps | apply State.ackRx_keeps | intro _
      | apply Good.ite_of | apply apply_ite_good | split | dsimp only | apply good_upd
    | exact Or.inr rfl | exact rfl

theorem execCommit_keeps {link : Fin 8} {gen : BitVec 16} {commitFt : FT80} {s : State} {t : State} (hg : Good ev s)
    (h : execCommit link gen commitFt s = .next t) : Good ev t := by
  unfold execCommit at h
  refine ok_good h ?_
  repeat' first
    | with_reducible first
      | assumption | rfl | exact Or.inr rfl | exact Or.inl ‹_› | refine Good.of_pair (by assumption) ?_
      | apply State.during_keeps | apply State.bringCheck_keeps | apply State.commitRx_keeps | intro _
      | apply Good.ite_of | apply apply_ite_good | split | dsimp only | apply good_upd
    | exact Or.inr rfl | exact rfl

theorem execCommitLive_keeps {s : State} {t : State} (hg : Good ev s) (hb : ev.beat = none)
    (h : execCommitLive s = .next t) : Good ev t := by
  unfold execCommitLive at h
  refine ok_good h ?_
  repeat' first
    | with_reducible first
      | assumption | rfl | exact Or.inr rfl | exact Or.inl ‹_› | refine Good.of_pair (by assumption) ?_
      | apply State.fabricWait_keeps | apply State.during_keeps | intro _ | apply Good.ite_of | apply apply_ite_good
      | split | dsimp only | apply good_upd
    | exact Or.inr rfl | exact rfl

theorem execBeaconSend_keeps {s : State} {t : State} (hg : Good ev s) (hb : ev.beat = none)
    (h : execBeaconSend s = .next t) : Good ev t := by
  unfold execBeaconSend at h
  refine ok_good h ?_
  repeat' first
    | with_reducible first
      | assumption | rfl | exact Or.inr rfl | exact Or.inl ‹_› | refine Good.of_pair (by assumption) ?_
      | apply State.fabricWait_keeps | apply State.during_keeps | intro _ | apply Good.ite_of | apply apply_ite_good
      | split | dsimp only | apply good_upd
    | exact Or.inr rfl | exact rfl

theorem execBeacon_keeps {link : Fin 8} {gen : BitVec 16} {rootAddr : BitVec 12} {rootDie : BitVec 64} {s : State}
    {t : State} (hg : Good ev s)
    (h : execBeacon link gen rootAddr rootDie s = .next t) : Good ev t := by
  unfold execBeacon at h
  refine ok_good h ?_
  repeat' first
    | with_reducible first
      | assumption | rfl | exact Or.inr rfl | exact Or.inl ‹_› | refine Good.of_pair (by assumption) ?_
      | apply State.during_keeps | apply State.beaconRx_keeps | intro _ | apply Good.ite_of | apply apply_ite_good
      | split | dsimp only | apply good_upd
    | exact Or.inr rfl | exact rfl

theorem execBeaconLoss_keeps {s : State} {t : State} (hg : Good ev s) (hb : ev.beat = none)
    (h : execBeaconLoss s = .next t) : Good ev t := by
  unfold execBeaconLoss at h
  refine ok_good h ?_
  repeat' first
    | with_reducible first
      | assumption | rfl | exact Or.inr rfl | exact Or.inl ‹_› | refine Good.of_pair (by assumption) ?_
      | apply State.fabricWait_keeps | apply State.during_keeps | intro _ | apply Good.ite_of | apply apply_ite_good
      | split | dsimp only | apply good_upd
    | exact Or.inr rfl | exact rfl

theorem execJoinTimeout_keeps {s : State} {t : State} (hg : Good ev s) (hb : ev.beat = none)
    (h : execJoinTimeout s = .next t) : Good ev t := by
  unfold execJoinTimeout at h
  refine ok_good h ?_
  repeat' first
    | with_reducible first
      | assumption | rfl | exact Or.inr rfl | exact Or.inl ‹_› | refine Good.of_pair (by assumption) ?_
      | apply State.fabricWait_keeps | apply State.during_keeps | intro _ | apply Good.ite_of | apply apply_ite_good
      | split | dsimp only | apply good_upd
    | exact Or.inr rfl | exact rfl

theorem execTopo_keeps {h : Hdr} {gen : BitVec 16} {link : BitVec 3} {state : BitVec 3} {s : State} {t : State} (hg
    : Good ev s)
    (h : execTopo h gen link state s = .next t) : Good ev t := by
  unfold execTopo at h
  refine ok_good h ?_
  repeat' first
    | with_reducible first
      | assumption | rfl | exact Or.inr rfl | exact Or.inl ‹_› | refine Good.of_pair (by assumption) ?_
      | apply State.during_keeps | apply State.topoRx_keeps | intro _ | apply Good.ite_of | apply apply_ite_good
      | split | dsimp only | apply good_upd
    | exact Or.inr rfl | exact rfl

theorem execLaunch_keeps {link : Fin 8} {pkt : LaunchPkt} {s : State} {t : State} (hg : Good ev s)
    (h : execLaunch link pkt s = .next t) : Good ev t := by
  unfold execLaunch at h
  refine ok_good h ?_
  repeat' first
    | with_reducible first
      | assumption | rfl | exact Or.inr rfl | exact Or.inl ‹_› | refine Good.of_pair (by assumption) ?_
      | apply State.during_keeps | apply State.launchRx_keeps | intro _ | apply Good.ite_of | apply apply_ite_good
      | split | dsimp only | apply good_upd
    | exact Or.inr rfl | exact rfl

theorem execMail_keeps {link : Fin 8} {pkt : MailPkt} {s : State} {t : State} (hg : Good ev s)
    (h : execMail link pkt s = .next t) : Good ev t := by
  unfold execMail at h
  refine ok_good h ?_
  repeat' first
    | with_reducible first
      | assumption | rfl | exact Or.inr rfl | exact Or.inl ‹_› | refine Good.of_pair (by assumption) ?_
      | apply State.during_keeps | apply State.mailRx_keeps | intro _ | apply Good.ite_of | apply apply_ite_good
      | split | dsimp only | apply good_upd
    | exact Or.inr rfl | exact rfl

theorem execMailLost_keeps {src : BitVec 12} {msgId : BitVec 16} {s : State} {t : State} (hg : Good ev s) (hb :
    ev.beat = none)
    (h : execMailLost src msgId s = .next t) : Good ev t := by
  unfold execMailLost at h
  refine ok_good h ?_
  repeat' first
    | with_reducible first
      | assumption | rfl | exact Or.inr rfl | exact Or.inl ‹_› | refine Good.of_pair (by assumption) ?_
      | apply State.fabricWait_keeps | apply State.during_keeps | intro _ | apply Good.ite_of | apply apply_ite_good
      | split | dsimp only | apply good_upd
    | exact Or.inr rfl | exact rfl

theorem execNak_keeps {link : Fin 8} {pkt : NakPkt} {s : State} {t : State} (hg : Good ev s)
    (h : execNak link pkt s = .next t) : Good ev t := by
  unfold execNak at h
  refine ok_good h ?_
  repeat' first
    | with_reducible first
      | assumption | rfl | exact Or.inr rfl | exact Or.inl ‹_› | refine Good.of_pair (by assumption) ?_
      | apply State.during_keeps | apply State.nakRx_keeps | intro _ | apply Good.ite_of | apply apply_ite_good
      | split | dsimp only | apply good_upd
    | exact Or.inr rfl | exact rfl

theorem execPpsEdge_keeps {offset : BitVec 16} {s : State} {t : State} (hg : Good ev s)
    (h : execPpsEdge offset s = .next t) : Good ev t := by
  unfold execPpsEdge at h
  refine ok_good h ?_
  repeat' first
    | with_reducible first
      | assumption | rfl | exact Or.inr rfl | exact Or.inl ‹_› | refine Good.of_pair (by assumption) ?_
      | apply State.during_keeps | apply State.ppsEdge_keeps | intro _ | apply Good.ite_of | apply apply_ite_good
      | split | dsimp only | apply good_upd
    | exact Or.inr rfl | exact rfl

theorem execPpsLost_keeps {s : State} {t : State} (hg : Good ev s) (hb : ev.beat = none)
    (h : execPpsLost s = .next t) : Good ev t := by
  unfold execPpsLost at h
  refine ok_good h ?_
  repeat' first
    | with_reducible first
      | assumption | rfl | exact Or.inr rfl | exact Or.inl ‹_› | refine Good.of_pair (by assumption) ?_
      | apply State.fabricWait_keeps | apply State.during_keeps | intro _ | apply Good.ite_of | apply apply_ite_good
      | split | dsimp only | apply good_upd
    | exact Or.inr rfl | exact rfl

theorem execTimeHoldEnd_keeps {s : State} {t : State} (hg : Good ev s) (hb : ev.beat = none)
    (h : execTimeHoldEnd s = .next t) : Good ev t := by
  unfold execTimeHoldEnd at h
  refine ok_good h ?_
  repeat' first
    | with_reducible first
      | assumption | rfl | exact Or.inr rfl | exact Or.inl ‹_› | refine Good.of_pair (by assumption) ?_
      | apply State.fabricWait_keeps | apply State.during_keeps | intro _ | apply Good.ite_of | apply apply_ite_good
      | split | dsimp only | apply good_upd
    | exact Or.inr rfl | exact rfl

theorem execNzlCmdElect_keeps {rq : Requester} {be : BitVec 4} {s : State} {t : State} (hg : Good ev s)
    (h : execNzlCmdElect rq be s = .next t) : Good ev t := by
  unfold execNzlCmdElect at h
  refine ok_good h ?_
  repeat' first
    | with_reducible first
      | assumption | rfl | exact Or.inr rfl | exact Or.inl ‹_› | refine Good.of_pair (by assumption) ?_
      | apply State.busWrite_keeps | intro _ | apply Good.ite_of | apply apply_ite_good | split | dsimp only
      | apply good_upd
    | exact Or.inr rfl | exact rfl

theorem execNzlCmdReenum_keeps {rq : Requester} {be : BitVec 4} {s : State} {t : State} (hg : Good ev s)
    (h : execNzlCmdReenum rq be s = .next t) : Good ev t := by
  unfold execNzlCmdReenum at h
  refine ok_good h ?_
  repeat' first
    | with_reducible first
      | assumption | rfl | exact Or.inr rfl | exact Or.inl ‹_› | refine Good.of_pair (by assumption) ?_
      | apply State.busWrite_keeps | intro _ | apply Good.ite_of | apply apply_ite_good | split | dsimp only
      | apply good_upd
    | exact Or.inr rfl | exact rfl

theorem execStampPathCalibration_keeps {link : Fin 8} {s : State} {t : State} (hg : Good ev s)
    (h : execStampPathCalibration link s = .next t) : Good ev t := by
  unfold execStampPathCalibration at h
  refine ok_good h ?_
  repeat' first
    | with_reducible first
      | assumption | rfl | exact Or.inr rfl | exact Or.inl ‹_› | refine Good.of_pair (by assumption) ?_
      | apply State.stampsCalibrated_keeps | apply State.during_keeps | intro _ | apply Good.ite_of
      | apply apply_ite_good | split | dsimp only | apply good_upd
    | exact Or.inr rfl | exact rfl

theorem execLostFlit_keeps {link : Fin 8} {kind : LostKind} {s : State} {t : State} (hg : Good ev s)
    (h : execLostFlit link kind s = .next t) : Good ev t := by
  unfold execLostFlit at h
  cases kind <;> exact ok_good h (State.during_keeps hg (fun _ hu => State.flitLost_keeps hu))

theorem execOrderStart_keeps {seq : Fin 24} {s : State} {t : State} (hg : Good ev s) (hb : ev.beat = none)
    (h : execOrderStart seq s = .next t) : Good ev t := by
  unfold execOrderStart at h
  refine ok_good h ?_
  repeat' first
    | with_reducible first
      | assumption | rfl | exact Or.inr rfl | exact Or.inl ‹_› | refine Good.of_pair (by assumption) ?_
      | apply State.orderRow_keeps | intro _ | apply Good.ite_of | apply apply_ite_good | split | dsimp only
      | apply good_upd
    | exact Or.inr rfl | exact rfl

theorem execOrderStopNow_keeps {seq : Fin 24} {s : State} {t : State} (hg : Good ev s) (hb : ev.beat = none)
    (h : execOrderStopNow seq s = .next t) : Good ev t := by
  unfold execOrderStopNow at h
  refine ok_good h ?_
  repeat' first
    | with_reducible first
      | assumption | rfl | exact Or.inr rfl | exact Or.inl ‹_› | refine Good.of_pair (by assumption) ?_
      | apply State.orderRow_keeps | intro _ | apply Good.ite_of | apply apply_ite_good | split | dsimp only
      | apply good_upd
    | exact Or.inr rfl | exact rfl

theorem execOrderStopSegmentEnd_keeps {seq : Fin 24} {s : State} {t : State} (hg : Good ev s) (hb : ev.beat = none)
    (h : execOrderStopSegmentEnd seq s = .next t) : Good ev t := by
  unfold execOrderStopSegmentEnd at h
  refine ok_good h ?_
  repeat' first
    | with_reducible first
      | assumption | rfl | exact Or.inr rfl | exact Or.inl ‹_› | refine Good.of_pair (by assumption) ?_
      | apply State.orderRow_keeps | intro _ | apply Good.ite_of | apply apply_ite_good | split | dsimp only
      | apply good_upd
    | exact Or.inr rfl | exact rfl

theorem execOrderJumpNow_keeps {seq : Fin 24} {s : State} {t : State} (hg : Good ev s) (hb : ev.beat = none)
    (h : execOrderJumpNow seq s = .next t) : Good ev t := by
  unfold execOrderJumpNow at h
  refine ok_good h ?_
  repeat' first
    | with_reducible first
      | assumption | rfl | exact Or.inr rfl | exact Or.inl ‹_› | refine Good.of_pair (by assumption) ?_
      | apply State.orderRow_keeps | intro _ | apply Good.ite_of | apply apply_ite_good | split | dsimp only
      | apply good_upd
    | exact Or.inr rfl | exact rfl

theorem execOrderJumpSegmentEnd_keeps {seq : Fin 24} {s : State} {t : State} (hg : Good ev s) (hb : ev.beat = none)
    (h : execOrderJumpSegmentEnd seq s = .next t) : Good ev t := by
  unfold execOrderJumpSegmentEnd at h
  refine ok_good h ?_
  repeat' first
    | with_reducible first
      | assumption | rfl | exact Or.inr rfl | exact Or.inl ‹_› | refine Good.of_pair (by assumption) ?_
      | apply State.orderRow_keeps | intro _ | apply Good.ite_of | apply apply_ite_good | split | dsimp only
      | apply good_upd
    | exact Or.inr rfl | exact rfl

theorem execOrderSetFlag_keeps {seq : Fin 24} {s : State} {t : State} (hg : Good ev s) (hb : ev.beat = none)
    (h : execOrderSetFlag seq s = .next t) : Good ev t := by
  unfold execOrderSetFlag at h
  refine ok_good h ?_
  repeat' first
    | with_reducible first
      | assumption | rfl | exact Or.inr rfl | exact Or.inl ‹_› | refine Good.of_pair (by assumption) ?_
      | apply State.orderRow_keeps | intro _ | apply Good.ite_of | apply apply_ite_good | split | dsimp only
      | apply good_upd
    | exact Or.inr rfl | exact rfl

theorem execOrderClearFlag_keeps {seq : Fin 24} {s : State} {t : State} (hg : Good ev s) (hb : ev.beat = none)
    (h : execOrderClearFlag seq s = .next t) : Good ev t := by
  unfold execOrderClearFlag at h
  refine ok_good h ?_
  repeat' first
    | with_reducible first
      | assumption | rfl | exact Or.inr rfl | exact Or.inl ‹_› | refine Good.of_pair (by assumption) ?_
      | apply State.orderRow_keeps | intro _ | apply Good.ite_of | apply apply_ite_good | split | dsimp only
      | apply good_upd
    | exact Or.inr rfl | exact rfl

theorem execOrderNco_keeps {seq : Fin 24} {s : State} {t : State} (hg : Good ev s) (hb : ev.beat = none)
    (h : execOrderNco seq s = .next t) : Good ev t := by
  unfold execOrderNco at h
  refine ok_good h ?_
  repeat' first
    | with_reducible first
      | assumption | rfl | exact Or.inr rfl | exact Or.inl ‹_› | refine Good.of_pair (by assumption) ?_
      | apply State.orderRow_keeps | intro _ | apply Good.ite_of | apply apply_ite_good | split | dsimp only
      | apply good_upd
    | exact Or.inr rfl | exact rfl

theorem execOrderForceRelease_keeps {seq : Fin 24} {s : State} {t : State} (hg : Good ev s) (hb : ev.beat = none)
    (h : execOrderForceRelease seq s = .next t) : Good ev t := by
  unfold execOrderForceRelease at h
  refine ok_good h ?_
  repeat' first
    | with_reducible first
      | assumption | rfl | exact Or.inr rfl | exact Or.inl ‹_› | refine Good.of_pair (by assumption) ?_
      | apply State.orderRow_keeps | intro _ | apply Good.ite_of | apply apply_ite_good | split | dsimp only
      | apply good_upd
    | exact Or.inr rfl | exact rfl

theorem execOrderForceSafe_keeps {seq : Fin 24} {s : State} {t : State} (hg : Good ev s) (hb : ev.beat = none)
    (h : execOrderForceSafe seq s = .next t) : Good ev t := by
  unfold execOrderForceSafe at h
  refine ok_good h ?_
  repeat' first
    | with_reducible first
      | assumption | rfl | exact Or.inr rfl | exact Or.inl ‹_› | refine Good.of_pair (by assumption) ?_
      | apply State.orderRow_keeps | intro _ | apply Good.ite_of | apply apply_ite_good | split | dsimp only
      | apply good_upd
    | exact Or.inr rfl | exact rfl

theorem execOrderForceHold_keeps {seq : Fin 24} {s : State} {t : State} (hg : Good ev s) (hb : ev.beat = none)
    (h : execOrderForceHold seq s = .next t) : Good ev t := by
  unfold execOrderForceHold at h
  refine ok_good h ?_
  repeat' first
    | with_reducible first
      | assumption | rfl | exact Or.inr rfl | exact Or.inl ‹_› | refine Good.of_pair (by assumption) ?_
      | apply State.orderRow_keeps | intro _ | apply Good.ite_of | apply apply_ite_good | split | dsimp only
      | apply good_upd
    | exact Or.inr rfl | exact rfl

theorem execEventInputEdge_keeps {input : Fin 16} {levels : BitVec 16} {s : State} {t : State} (hg : Good ev s)
    (h : execEventInputEdge input levels s = .next t) : Good ev t := by
  unfold execEventInputEdge at h
  refine ok_good h ?_
  repeat' first
    | with_reducible first
      | assumption | rfl | exact Or.inr rfl | exact Or.inl ‹_› | refine Good.of_pair (by assumption) ?_
      | apply State.inputLevels_keeps | intro _ | apply Good.ite_of | apply apply_ite_good | split | dsimp only
      | apply good_upd
    | exact Or.inr rfl | exact rfl

theorem execJumpNow_keeps {seq : Fin 24} {trig : Fin 8} {sample : Fin 16} {s : State} {t : State} (hg : Good ev s)
    (hb : ev.beat = none)
    (h : execJumpNow seq trig sample s = .next t) : Good ev t := by
  unfold execJumpNow at h
  refine ok_good h ?_
  repeat' first
    | with_reducible first
      | assumption | rfl | exact Or.inr rfl | exact Or.inl ‹_› | refine Good.of_pair (by assumption) ?_
      | apply State.trigRow_keeps | intro _ | apply Good.ite_of | apply apply_ite_good | split | dsimp only
      | apply good_upd
    | exact Or.inr rfl | exact rfl

theorem execJumpSegEnd_keeps {seq : Fin 24} {trig : Fin 8} {sample : Fin 16} {s : State} {t : State} (hg : Good ev
    s) (hb : ev.beat = none)
    (h : execJumpSegEnd seq trig sample s = .next t) : Good ev t := by
  unfold execJumpSegEnd at h
  refine ok_good h ?_
  repeat' first
    | with_reducible first
      | assumption | rfl | exact Or.inr rfl | exact Or.inl ‹_› | refine Good.of_pair (by assumption) ?_
      | apply State.trigRow_keeps | intro _ | apply Good.ite_of | apply apply_ite_good | split | dsimp only
      | apply good_upd
    | exact Or.inr rfl | exact rfl

theorem execSetFlag_keeps {seq : Fin 24} {trig : Fin 8} {sample : Fin 16} {s : State} {t : State} (hg : Good ev s)
    (hb : ev.beat = none)
    (h : execSetFlag seq trig sample s = .next t) : Good ev t := by
  unfold execSetFlag at h
  refine ok_good h ?_
  repeat' first
    | with_reducible first
      | assumption | rfl | exact Or.inr rfl | exact Or.inl ‹_› | refine Good.of_pair (by assumption) ?_
      | apply State.trigRow_keeps | intro _ | apply Good.ite_of | apply apply_ite_good | split | dsimp only
      | apply good_upd
    | exact Or.inr rfl | exact rfl

theorem execStart_keeps {seq : Fin 24} {trig : Fin 8} {sample : Fin 16} {s : State} {t : State} (hg : Good ev s) (hb
    : ev.beat = none)
    (h : execStart seq trig sample s = .next t) : Good ev t := by
  unfold execStart at h
  refine ok_good h ?_
  repeat' first
    | with_reducible first
      | assumption | rfl | exact Or.inr rfl | exact Or.inl ‹_› | refine Good.of_pair (by assumption) ?_
      | apply State.trigRow_keeps | intro _ | apply Good.ite_of | apply apply_ite_good | split | dsimp only
      | apply good_upd
    | exact Or.inr rfl | exact rfl

theorem execStopNow_keeps {seq : Fin 24} {trig : Fin 8} {sample : Fin 16} {s : State} {t : State} (hg : Good ev s)
    (hb : ev.beat = none)
    (h : execStopNow seq trig sample s = .next t) : Good ev t := by
  unfold execStopNow at h
  refine ok_good h ?_
  repeat' first
    | with_reducible first
      | assumption | rfl | exact Or.inr rfl | exact Or.inl ‹_› | refine Good.of_pair (by assumption) ?_
      | apply State.trigRow_keeps | intro _ | apply Good.ite_of | apply apply_ite_good | split | dsimp only
      | apply good_upd
    | exact Or.inr rfl | exact rfl

theorem execForceSafe_keeps {seq : Fin 24} {trig : Fin 8} {sample : Fin 16} {s : State} {t : State} (hg : Good ev s)
    (hb : ev.beat = none)
    (h : execForceSafe seq trig sample s = .next t) : Good ev t := by
  unfold execForceSafe at h
  refine ok_good h ?_
  repeat' first
    | with_reducible first
      | assumption | rfl | exact Or.inr rfl | exact Or.inl ‹_› | refine Good.of_pair (by assumption) ?_
      | apply State.trigRow_keeps | intro _ | apply Good.ite_of | apply apply_ite_good | split | dsimp only
      | apply good_upd
    | exact Or.inr rfl | exact rfl

theorem execForceRelease_keeps {seq : Fin 24} {trig : Fin 8} {sample : Fin 16} {s : State} {t : State} (hg : Good ev
    s) (hb : ev.beat = none)
    (h : execForceRelease seq trig sample s = .next t) : Good ev t := by
  unfold execForceRelease at h
  refine ok_good h ?_
  repeat' first
    | with_reducible first
      | assumption | rfl | exact Or.inr rfl | exact Or.inl ‹_› | refine Good.of_pair (by assumption) ?_
      | apply State.trigRow_keeps | intro _ | apply Good.ite_of | apply apply_ite_good | split | dsimp only
      | apply good_upd
    | exact Or.inr rfl | exact rfl

theorem execSeqCtrlWrite_keeps {seq : Fin 24} {w : Wr} {s : State} {t : State} (hg : Good ev s)
    (h : execSeqCtrlWrite seq w s = .next t) : Good ev t := by
  unfold execSeqCtrlWrite at h
  refine ok_good h ?_
  repeat' first
    | with_reducible first
      | assumption | rfl | exact Or.inr rfl | exact Or.inl ‹_› | refine Good.of_pair (by assumption) ?_
      | apply State.write_keeps | intro _ | apply Good.ite_of | apply apply_ite_good | split | dsimp only
      | apply good_upd
    | exact Or.inr rfl | exact rfl

theorem execPlayEntry_keeps {seq : Fin 24} {late : Option Late} {s : State} {t : State} (hg : Good ev s) (hb :
    ev.beat = none)
    (h : execPlayEntry seq late s = .next t) : Good ev t := by
  unfold execPlayEntry at h
  refine ok_good h ?_
  repeat' first
    | with_reducible first
      | assumption | rfl | exact Or.inr rfl | exact Or.inl ‹_› | refine Good.of_pair (by assumption) ?_
      | apply State.entryRow_keeps | apply State.playStart_keeps | intro _ | apply Good.ite_of | apply apply_ite_good
      | split | dsimp only | apply good_upd
    | exact Or.inr rfl | exact rfl

theorem execLoopEntry_keeps {seq : Fin 24} {s : State} {t : State} (hg : Good ev s) (hb : ev.beat = none)
    (h : execLoopEntry seq s = .next t) : Good ev t := by
  unfold execLoopEntry at h
  refine ok_good h ?_
  repeat' first
    | with_reducible first
      | assumption | rfl | exact Or.inr rfl | exact Or.inl ‹_› | refine Good.of_pair (by assumption) ?_
      | apply State.entryRow_keeps | apply State.loopStep_keeps | intro _ | apply Good.ite_of | apply apply_ite_good
      | split | dsimp only | apply good_upd
    | exact Or.inr rfl | exact rfl

theorem execEndloopEntry_keeps {seq : Fin 24} {s : State} {t : State} (hg : Good ev s) (hb : ev.beat = none)
    (h : execEndloopEntry seq s = .next t) : Good ev t := by
  unfold execEndloopEntry at h
  refine ok_good h ?_
  repeat' first
    | with_reducible first
      | assumption | rfl | exact Or.inr rfl | exact Or.inl ‹_› | refine Good.of_pair (by assumption) ?_
      | apply State.entryRow_keeps | apply State.loopStep_keeps | intro _ | apply Good.ite_of | apply apply_ite_good
      | split | dsimp only | apply good_upd
    | exact Or.inr rfl | exact rfl

theorem execJumpEntry_keeps {seq : Fin 24} {s : State} {t : State} (hg : Good ev s) (hb : ev.beat = none)
    (h : execJumpEntry seq s = .next t) : Good ev t := by
  unfold execJumpEntry at h
  refine ok_good h ?_
  repeat' first
    | with_reducible first
      | assumption | rfl | exact Or.inr rfl | exact Or.inl ‹_› | refine Good.of_pair (by assumption) ?_
      | apply State.entryRow_keeps | apply State.jumpStep_keeps | intro _ | apply Good.ite_of | apply apply_ite_good
      | split | dsimp only | apply good_upd
    | exact Or.inr rfl | exact rfl

theorem execWaitEntry_keeps {seq : Fin 24} {s : State} {t : State} (hg : Good ev s) (hb : ev.beat = none)
    (h : execWaitEntry seq s = .next t) : Good ev t := by
  unfold execWaitEntry at h
  refine ok_good h ?_
  repeat' first
    | with_reducible first
      | assumption | rfl | exact Or.inr rfl | exact Or.inl ‹_› | refine Good.of_pair (by assumption) ?_
      | apply State.entryRow_keeps | apply State.waitStep_keeps | intro _ | apply Good.ite_of | apply apply_ite_good
      | split | dsimp only | apply good_upd
    | exact Or.inr rfl | exact rfl

theorem execNcoEntry_keeps {seq : Fin 24} {s : State} {t : State} (hg : Good ev s) (hb : ev.beat = none)
    (h : execNcoEntry seq s = .next t) : Good ev t := by
  unfold execNcoEntry at h
  refine ok_good h ?_
  repeat' first
    | with_reducible first
      | assumption | rfl | exact Or.inr rfl | exact Or.inl ‹_› | refine Good.of_pair (by assumption) ?_
      | apply State.entryRow_keeps | apply State.ncoStep_keeps | intro _ | apply Good.ite_of | apply apply_ite_good
      | split | dsimp only | apply good_upd
    | exact Or.inr rfl | exact rfl

theorem execEndEntry_keeps {seq : Fin 24} {s : State} {t : State} (hg : Good ev s) (hb : ev.beat = none)
    (h : execEndEntry seq s = .next t) : Good ev t := by
  unfold execEndEntry at h
  refine ok_good h ?_
  repeat' first
    | with_reducible first
      | assumption | rfl | exact Or.inr rfl | exact Or.inl ‹_› | refine Good.of_pair (by assumption) ?_
      | apply State.entryRow_keeps | apply State.endBurst_keeps | apply State.modSeq_keeps | intro _
      | apply Good.ite_of | apply apply_ite_good | split | dsimp only | apply good_upd
    | exact Or.inr rfl | exact rfl

theorem execPlayEnd_keeps {seq : Fin 24} {s : State} {t : State} (hg : Good ev s) (hb : ev.beat = none)
    (h : execPlayEnd seq s = .next t) : Good ev t := by
  unfold execPlayEnd at h
  refine ok_good h ?_
  repeat' first
    | with_reducible first
      | assumption | rfl | exact Or.inr rfl | exact Or.inl ‹_› | refine Good.of_pair (by assumption) ?_
      | apply State.playEndRow_keeps | intro _ | apply Good.ite_of | apply apply_ite_good | split | dsimp only
      | apply good_upd
    | exact Or.inr rfl | exact rfl

theorem execBurstOwnEnd_keeps {seq : Fin 24} {s : State} {t : State} (hg : Good ev s) (hb : ev.beat = none)
    (h : execBurstOwnEnd seq s = .next t) : Good ev t := by
  unfold execBurstOwnEnd at h
  refine ok_good h ?_
  repeat' first
    | with_reducible first
      | assumption | rfl | exact Or.inr rfl | exact Or.inl ‹_› | refine Good.of_pair (by assumption) ?_
      | apply State.ownEndRow_keeps | intro _ | apply Good.ite_of | apply apply_ite_good | split | dsimp only
      | apply good_upd
    | exact Or.inr rfl | exact rfl

theorem execTableFetch_keeps {seq : Fin 24} {s : State} {t : State} (hg : Good ev s) (hb : ev.beat = none)
    (h : execTableFetch seq s = .next t) : Good ev t := by
  unfold execTableFetch at h
  refine ok_good h ?_
  repeat' first
    | with_reducible first
      | assumption | rfl | exact Or.inr rfl | exact Or.inl ‹_› | refine Good.of_pair (by assumption) ?_
      | apply State.fetchRow_keeps | apply State.during_keeps | intro _ | apply Good.ite_of | apply apply_ite_good
      | split | dsimp only | apply good_upd
    | exact Or.inr rfl | exact rfl

theorem execSlotWrite_keeps {seq : Fin 24} {slot : Fin 8} {w : Wr} {s : State} {t : State} (hg : Good ev s)
    (h : execSlotWrite seq slot w s = .next t) : Good ev t := by
  unfold execSlotWrite at h
  refine ok_good h ?_
  repeat' first
    | with_reducible first
      | assumption | rfl | exact Or.inr rfl | exact Or.inl ‹_› | refine Good.of_pair (by assumption) ?_
      | apply State.write_keeps | intro _ | apply Good.ite_of | apply apply_ite_good | split | dsimp only
      | apply good_upd
    | exact Or.inr rfl | exact rfl

theorem execSlotPreloadDone_keeps {seq : Fin 24} {slot : Fin 8} {s : State} {t : State} (hg : Good ev s)
    (h : execSlotPreloadDone seq slot s = .next t) : Good ev t := by
  unfold execSlotPreloadDone at h
  refine ok_good h ?_
  repeat' first
    | with_reducible first
      | assumption | rfl | exact Or.inr rfl | exact Or.inl ‹_› | refine Good.of_pair (by assumption) ?_
      | apply State.during_keeps | apply State.slotDone_keeps | intro _ | apply Good.ite_of | apply apply_ite_good
      | split | dsimp only | apply good_upd
    | exact Or.inr rfl | exact rfl

theorem execUnderrunEpisodeEnd_keeps {seq : Fin 24} {s : State} {t : State} (hg : Good ev s) (hb : ev.beat = none)
    (h : execUnderrunEpisodeEnd seq s = .next t) : Good ev t := by
  unfold execUnderrunEpisodeEnd at h
  refine ok_good h ?_
  repeat' first
    | with_reducible first
      | assumption | rfl | exact Or.inr rfl | exact Or.inl ‹_› | refine Good.of_pair (by assumption) ?_
      | apply State.episodeRow_keeps | intro _ | apply Good.ite_of | apply apply_ite_good | split | dsimp only
      | apply good_upd
    | exact Or.inr rfl | exact rfl

theorem execMarkerSet_keeps {seq : Fin 24} {line : Fin 64} {sample : Fin 16} {s : State} {t : State} (hg : Good ev
    s) (hb : ev.beat = none)
    (h : execMarkerSet seq line sample s = .next t) : Good ev t := by
  unfold execMarkerSet at h
  refine ok_good h ?_
  repeat' first
    | with_reducible first
      | assumption | rfl | exact Or.inr rfl | exact Or.inl ‹_› | refine Good.of_pair (by assumption) ?_
      | apply State.markerRow_keeps | intro _ | apply Good.ite_of | apply apply_ite_good | split | dsimp only
      | apply good_upd
    | exact Or.inr rfl | exact rfl

theorem execMarkerClear_keeps {seq : Fin 24} {line : Fin 64} {sample : Fin 16} {s : State} {t : State} (hg : Good ev
    s) (hb : ev.beat = none)
    (h : execMarkerClear seq line sample s = .next t) : Good ev t := by
  unfold execMarkerClear at h
  refine ok_good h ?_
  repeat' first
    | with_reducible first
      | assumption | rfl | exact Or.inr rfl | exact Or.inl ‹_› | refine Good.of_pair (by assumption) ?_
      | apply State.markerRow_keeps | intro _ | apply Good.ite_of | apply apply_ite_good | split | dsimp only
      | apply good_upd
    | exact Or.inr rfl | exact rfl

theorem execMarkerToggle_keeps {seq : Fin 24} {line : Fin 64} {sample : Fin 16} {s : State} {t : State} (hg : Good
    ev s) (hb : ev.beat = none)
    (h : execMarkerToggle seq line sample s = .next t) : Good ev t := by
  unfold execMarkerToggle at h
  refine ok_good h ?_
  repeat' first
    | with_reducible first
      | assumption | rfl | exact Or.inr rfl | exact Or.inl ‹_› | refine Good.of_pair (by assumption) ?_
      | apply State.markerRow_keeps | intro _ | apply Good.ite_of | apply apply_ite_good | split | dsimp only
      | apply good_upd
    | exact Or.inr rfl | exact rfl

theorem execMarkerPulse_keeps {seq : Fin 24} {line : Fin 64} {sample : Fin 16} {width : BitVec 16} {s : State} {t :
    State} (hg : Good ev s) (hb : ev.beat = none)
    (h : execMarkerPulse seq line sample width s = .next t) : Good ev t := by
  unfold execMarkerPulse at h
  refine ok_good h ?_
  repeat' first
    | with_reducible first
      | assumption | rfl | exact Or.inr rfl | exact Or.inl ‹_› | refine Good.of_pair (by assumption) ?_
      | apply State.markerRow_keeps | intro _ | apply Good.ite_of | apply apply_ite_good | split | dsimp only
      | apply good_upd
    | exact Or.inr rfl | exact rfl

theorem execJesdSyncHigh_keeps {s : State} {t : State} (hg : Good ev s)
    (h : execJesdSyncHigh s = .next t) : Good ev t := by
  unfold execJesdSyncHigh at h
  refine ok_good h ?_
  repeat' first
    | with_reducible first
      | assumption | rfl | exact Or.inr rfl | exact Or.inl ‹_› | refine Good.of_pair (by assumption) ?_
      | apply State.syncHigh_keeps | apply State.during_keeps | intro _ | apply Good.ite_of | apply apply_ite_good
      | split | dsimp only | apply good_upd
    | exact Or.inr rfl | exact rfl

theorem execIlasEnd_keeps {s : State} {t : State} (hg : Good ev s) (hb : ev.beat = none)
    (h : execIlasEnd s = .next t) : Good ev t := by
  unfold execIlasEnd at h
  refine ok_good h ?_
  repeat' first
    | with_reducible first
      | assumption | rfl | exact Or.inr rfl | exact Or.inl ‹_› | refine Good.of_pair (by assumption) ?_
      | apply State.ilasRow_keeps | apply State.during_keeps | intro _ | apply Good.ite_of | apply apply_ite_good
      | split | dsimp only | apply good_upd
    | exact Or.inr rfl | exact rfl

theorem execJesdReinitRequest_keeps {s : State} {t : State} (hg : Good ev s)
    (h : execJesdReinitRequest s = .next t) : Good ev t := by
  unfold execJesdReinitRequest at h
  refine ok_good h ?_
  repeat' first
    | with_reducible first
      | assumption | rfl | exact Or.inr rfl | exact Or.inl ‹_› | refine Good.of_pair (by assumption) ?_
      | apply State.jesdReinit_keeps | apply State.during_keeps | intro _ | apply Good.ite_of | apply apply_ite_good
      | split | dsimp only | apply good_upd
    | exact Or.inr rfl | exact rfl

theorem execExtest_keeps {s : State} {t : State} (hg : Good ev s)
    (h : execExtest s = .next t) : Good ev t := by
  unfold execExtest at h
  refine ok_good h ?_
  repeat' first
    | with_reducible first
      | assumption | rfl | exact Or.inr rfl | exact Or.inl ‹_› | refine Good.of_pair (by assumption) ?_
      | apply State.tapBoundary_keeps | apply State.tapTake_keeps | intro _ | apply Good.ite_of | apply apply_ite_good
      | split | dsimp only | apply good_upd
    | exact Or.inr rfl | exact rfl

theorem execSamplePreload_keeps {s : State} {t : State} (hg : Good ev s)
    (h : execSamplePreload s = .next t) : Good ev t := by
  unfold execSamplePreload at h
  refine ok_good h ?_
  repeat' first
    | with_reducible first
      | assumption | rfl | exact Or.inr rfl | exact Or.inl ‹_› | refine Good.of_pair (by assumption) ?_
      | apply State.tapBoundary_keeps | intro _ | apply Good.ite_of | apply apply_ite_good | split | dsimp only
      | apply good_upd
    | exact Or.inr rfl | exact rfl

theorem execIdcode_keeps {s : State} {t : State} (hg : Good ev s)
    (h : execIdcode s = .next t) : Good ev t := by
  unfold execIdcode at h
  refine ok_good h ?_
  repeat' first
    | with_reducible first
      | assumption | rfl | exact Or.inr rfl | exact Or.inl ‹_› | refine Good.of_pair (by assumption) ?_
      | apply State.tapTake_keeps | intro _ | apply Good.ite_of | apply apply_ite_good | split | dsimp only
      | apply good_upd
    | exact Or.inr rfl | exact rfl

theorem execClamp_keeps {s : State} {t : State} (hg : Good ev s)
    (h : execClamp s = .next t) : Good ev t := by
  unfold execClamp at h
  refine ok_good h ?_
  repeat' first
    | with_reducible first
      | assumption | rfl | exact Or.inr rfl | exact Or.inl ‹_› | refine Good.of_pair (by assumption) ?_
      | apply State.tapTake_keeps | intro _ | apply Good.ite_of | apply apply_ite_good | split | dsimp only
      | apply good_upd
    | exact Or.inr rfl | exact rfl

theorem execHighz_keeps {s : State} {t : State} (hg : Good ev s)
    (h : execHighz s = .next t) : Good ev t := by
  unfold execHighz at h
  refine ok_good h ?_
  repeat' first
    | with_reducible first
      | assumption | rfl | exact Or.inr rfl | exact Or.inl ‹_› | refine Good.of_pair (by assumption) ?_
      | apply State.tapTake_keeps | intro _ | apply Good.ite_of | apply apply_ite_good | split | dsimp only
      | apply good_upd
    | exact Or.inr rfl | exact rfl

theorem execBypass_keeps {s : State} {t : State} (hg : Good ev s)
    (h : execBypass s = .next t) : Good ev t := by
  unfold execBypass at h
  refine ok_good h ?_
  repeat' first
    | with_reducible first
      | assumption | rfl | exact Or.inr rfl | exact Or.inl ‹_› | refine Good.of_pair (by assumption) ?_
      | apply State.tapTake_keeps | intro _ | apply Good.ite_of | apply apply_ite_good | split | dsimp only
      | apply good_upd
    | exact Or.inr rfl | exact rfl

theorem execTapReset_keeps {s : State} {t : State} (hg : Good ev s)
    (h : execTapReset s = .next t) : Good ev t := by
  unfold execTapReset at h
  refine ok_good h ?_
  repeat' first
    | with_reducible first
      | assumption | rfl | exact Or.inr rfl | exact Or.inl ‹_› | refine Good.of_pair (by assumption) ?_
      | apply State.tapTake_keeps | intro _ | apply Good.ite_of | apply apply_ite_good | split | dsimp only
      | apply good_upd
    | exact Or.inr rfl | exact rfl

theorem execTickRunSet_keeps {rq : Requester} {be : BitVec 4} {s : State} {t : State} (hg : Good ev s)
    (h : execTickRunSet rq be s = .next t) : Good ev t := by
  unfold execTickRunSet at h
  refine ok_good h ?_
  repeat' first
    | with_reducible first
      | assumption | rfl | exact Or.inr rfl | exact Or.inl ‹_› | refine Good.of_pair (by assumption) ?_
      | apply State.busWrite_keeps | intro _ | apply Good.ite_of | apply apply_ite_good | split | dsimp only
      | apply good_upd
    | exact Or.inr rfl | exact rfl

theorem execFirstTickStart_keeps {s : State} {t : State} (hg : Good ev s) (hb : ev.beat = none)
    (h : execFirstTickStart s = .next t) : Good ev t := by
  unfold execFirstTickStart at h
  refine ok_good h ?_
  repeat' first
    | with_reducible first
      | assumption | rfl | exact Or.inr rfl | exact Or.inl ‹_› | refine Good.of_pair (by assumption) ?_
      | apply State.advance_keeps | intro _ | apply Good.ite_of | apply apply_ite_good | split | dsimp only
      | apply good_upd
    | exact Or.inr rfl | exact rfl

theorem execTickRunClear_keeps {rq : Requester} {be : BitVec 4} {s : State} {t : State} (hg : Good ev s)
    (h : execTickRunClear rq be s = .next t) : Good ev t := by
  unfold execTickRunClear at h
  refine ok_good h ?_
  repeat' first
    | with_reducible first
      | assumption | rfl | exact Or.inr rfl | exact Or.inl ‹_› | refine Good.of_pair (by assumption) ?_
      | apply State.busWrite_keeps | intro _ | apply Good.ite_of | apply apply_ite_good | split | dsimp only
      | apply good_upd
    | exact Or.inr rfl | exact rfl

theorem execTickStopFlush_keeps {s : State} {t : State} (hg : Good ev s)
    (h : execTickStopFlush s = .next t) : Good ev t := by
  unfold execTickStopFlush at h
  refine ok_good h ?_
  repeat' first
    | with_reducible first
      | assumption | rfl | exact Or.inr rfl | exact Or.inl ‹_› | refine Good.of_pair (by assumption) ?_
      | apply State.flushTicks_keeps | intro _ | apply Good.ite_of | apply apply_ite_good | split | dsimp only
      | apply good_upd
    | exact Or.inr rfl | exact rfl

theorem execTickBoundary_keeps {s : State} {t : State} (hg : Good ev s) (hb : ev.beat = none)
    (h : execTickBoundary s = .next t) : Good ev t := by
  unfold execTickBoundary at h
  refine ok_good h ?_
  repeat' first
    | with_reducible first
      | assumption | rfl | exact Or.inr rfl | exact Or.inl ‹_› | refine Good.of_pair (by assumption) ?_
      | apply State.advance_keeps | intro _ | apply Good.ite_of | apply apply_ite_good | split | dsimp only
      | apply good_upd
    | exact Or.inr rfl | exact rfl

theorem execStagedConfigurationCommit_keeps {s : State} {t : State} (hg : Good ev s) (hb : ev.beat = none)
    (h : execStagedConfigurationCommit s = .next t) : Good ev t := by
  unfold execStagedConfigurationCommit at h
  refine ok_good h ?_
  repeat' first
    | with_reducible first
      | assumption | rfl | exact Or.inr rfl | exact Or.inl ‹_› | refine Good.of_pair (by assumption) ?_
      | apply State.toPhaseEnd_keeps | intro _ | apply Good.ite_of | apply apply_ite_good | split | dsimp only
      | apply good_upd
    | exact Or.inr rfl | exact rfl

theorem execControlLawEvaluation_keeps {s : State} {t : State} (hg : Good ev s) (hb : ev.beat = none)
    (h : execControlLawEvaluation s = .next t) : Good ev t := by
  unfold execControlLawEvaluation at h
  refine ok_good h ?_
  repeat' first
    | with_reducible first
      | assumption | rfl | exact Or.inr rfl | exact Or.inl ‹_› | refine Good.of_pair (by assumption) ?_
      | apply State.toPhaseEnd_keeps | intro _ | apply Good.ite_of | apply apply_ite_good | split | dsimp only
      | apply good_upd
    | exact Or.inr rfl | exact rfl

theorem execSequencerCommitOfOrders_keeps {s : State} {t : State} (hg : Good ev s) (hb : ev.beat = none)
    (h : execSequencerCommitOfOrders s = .next t) : Good ev t := by
  unfold execSequencerCommitOfOrders at h
  refine ok_good h ?_
  repeat' first
    | with_reducible first
      | assumption | rfl | exact Or.inr rfl | exact Or.inl ‹_› | refine Good.of_pair (by assumption) ?_
      | apply State.toPhaseEnd_keeps | intro _ | apply Good.ite_of | apply apply_ite_good | split | dsimp only
      | apply good_upd
    | exact Or.inr rfl | exact rfl

theorem execLoopSupervision_keeps {s : State} {t : State} (hg : Good ev s) (hb : ev.beat = none)
    (h : execLoopSupervision s = .next t) : Good ev t := by
  unfold execLoopSupervision at h
  refine ok_good h ?_
  repeat' first
    | with_reducible first
      | assumption | rfl | exact Or.inr rfl | exact Or.inl ‹_› | refine Good.of_pair (by assumption) ?_
      | apply State.toPhaseEnd_keeps | intro _ | apply Good.ite_of | apply apply_ite_good | split | dsimp only
      | apply good_upd
    | exact Or.inr rfl | exact rfl

theorem execTelemetrySnapshot_keeps {s : State} {t : State} (hg : Good ev s) (hb : ev.beat = none)
    (h : execTelemetrySnapshot s = .next t) : Good ev t := by
  unfold execTelemetrySnapshot at h
  refine ok_good h ?_
  repeat' first
    | with_reducible first
      | assumption | rfl | exact Or.inr rfl | exact Or.inl ‹_› | refine Good.of_pair (by assumption) ?_
      | apply State.toPhaseEnd_keeps | intro _ | apply Good.ite_of | apply apply_ite_good | split | dsimp only
      | apply good_upd
    | exact Or.inr rfl | exact rfl

theorem execFtLoad_keeps {rq : Requester} {be : BitVec 4} {s : State} {t : State} (hg : Good ev s)
    (h : execFtLoad rq be s = .next t) : Good ev t := by
  unfold execFtLoad at h
  refine ok_good h ?_
  repeat' first
    | with_reducible first
      | assumption | rfl | exact Or.inr rfl | exact Or.inl ‹_› | refine Good.of_pair (by assumption) ?_
      | apply State.busWrite_keeps | intro _ | apply Good.ite_of | apply apply_ite_good | split | dsimp only
      | apply good_upd
    | exact Or.inr rfl | exact rfl

theorem execOrderQueueArrival_keeps {hk : Option HkOrder} {s : State} {t : State} (hg : Good ev s) (hb : ev.beat = none)
    (h : execOrderQueueArrival hk s = .next t) : Good ev t := by
  unfold execOrderQueueArrival at h
  refine ok_good h ?_
  repeat' first
    | with_reducible first
      | assumption | rfl | exact Or.inr rfl | exact Or.inl ‹_› | refine Good.of_pair (by assumption) ?_
      | apply State.hkOrders_keeps | apply State.nextArrival_keeps | intro _ | apply Good.ite_of
      | apply apply_ite_good | split | dsimp only | apply good_upd
    | exact Or.inr rfl | exact rfl

theorem execStageSetArrival_keeps {s : State} {t : State} (hg : Good ev s) (hb : ev.beat = none)
    (h : execStageSetArrival s = .next t) : Good ev t := by
  unfold execStageSetArrival at h
  refine ok_good h ?_
  repeat' first
    | with_reducible first
      | assumption | rfl | exact Or.inr rfl | exact Or.inl ‹_› | refine Good.of_pair (by assumption) ?_
      | apply State.nextSet_keeps | intro _ | apply Good.ite_of | apply apply_ite_good | split | dsimp only
      | apply good_upd
    | exact Or.inr rfl | exact rfl

theorem execTlaShadowStore_keeps {w : Wr} {s : State} {t : State} (hg : Good ev s)
    (h : execTlaShadowStore w s = .next t) : Good ev t := by
  unfold execTlaShadowStore at h
  refine ok_good h ?_
  repeat' first
    | with_reducible first
      | assumption | rfl | exact Or.inr rfl | exact Or.inl ‹_› | refine Good.of_pair (by assumption) ?_
      | apply State.write_keeps | intro _ | apply Good.ite_of | apply apply_ite_good | split | dsimp only
      | apply good_upd
    | exact Or.inr rfl | exact rfl

theorem execTlaCheck_keeps {rq : Requester} {be : BitVec 4} {s : State} {t : State} (hg : Good ev s)
    (h : execTlaCheck rq be s = .next t) : Good ev t := by
  unfold execTlaCheck at h
  refine ok_good h ?_
  repeat' first
    | with_reducible first
      | assumption | rfl | exact Or.inr rfl | exact Or.inl ‹_› | refine Good.of_pair (by assumption) ?_
      | apply State.busWrite_keeps | intro _ | apply Good.ite_of | apply apply_ite_good | split | dsimp only
      | apply good_upd
    | exact Or.inr rfl | exact rfl

theorem execCheckDone_keeps {s : State} {t : State} (hg : Good ev s)
    (h : execCheckDone s = .next t) : Good ev t := by
  unfold execCheckDone at h
  refine ok_good h ?_
  repeat' first
    | with_reducible first
      | assumption | rfl | exact Or.inr rfl | exact Or.inl ‹_› | refine Good.of_pair (by assumption) ?_
      | apply State.during_keeps | apply State.tlaChecked_keeps | intro _ | apply Good.ite_of | apply apply_ite_good
      | split | dsimp only | apply good_upd
    | exact Or.inr rfl | exact rfl

theorem execTlaSwap_keeps {rq : Requester} {be : BitVec 4} {s : State} {t : State} (hg : Good ev s)
    (h : execTlaSwap rq be s = .next t) : Good ev t := by
  unfold execTlaSwap at h
  refine ok_good h ?_
  repeat' first
    | with_reducible first
      | assumption | rfl | exact Or.inr rfl | exact Or.inl ‹_› | refine Good.of_pair (by assumption) ?_
      | apply State.busWrite_keeps | intro _ | apply Good.ite_of | apply apply_ite_good | split | dsimp only
      | apply good_upd
    | exact Or.inr rfl | exact rfl

theorem execTlaEnWrite_keeps {w : Wr} {s : State} {t : State} (hg : Good ev s)
    (h : execTlaEnWrite w s = .next t) : Good ev t := by
  unfold execTlaEnWrite at h
  refine ok_good h ?_
  repeat' first
    | with_reducible first
      | assumption | rfl | exact Or.inr rfl | exact Or.inl ‹_› | refine Good.of_pair (by assumption) ?_
      | apply State.write_keeps | intro _ | apply Good.ite_of | apply apply_ite_good | split | dsimp only
      | apply good_upd
    | exact Or.inr rfl | exact rfl

theorem execSeracWordScrub_keeps {flips : BitVec 72} {s : State} {t : State} (hg : Good ev s) (hb : ev.beat = none)
    (h : execSeracWordScrub flips s = .next t) : Good ev t := by
  unfold execSeracWordScrub at h
  refine ok_good h ?_
  repeat' first
    | with_reducible first
      | assumption | rfl | exact Or.inr rfl | exact Or.inl ‹_› | refine Good.of_pair (by assumption) ?_
      | apply State.seracUntil_keeps | apply State.during_keeps | apply State.seracFlip_keeps | intro _
      | apply Good.ite_of | apply apply_ite_good | split | dsimp only | apply good_upd
    | exact Or.inr rfl | exact rfl

theorem execSeracPassEnd_keeps {s : State} {t : State} (hg : Good ev s) (hb : ev.beat = none)
    (h : execSeracPassEnd s = .next t) : Good ev t := by
  unfold execSeracPassEnd at h
  refine ok_good h ?_
  repeat' first
    | with_reducible first
      | assumption | rfl | exact Or.inr rfl | exact Or.inl ‹_› | refine Good.of_pair (by assumption) ?_
      | apply State.seracUntil_keeps | apply State.during_keeps | intro _ | apply Good.ite_of | apply apply_ite_good
      | split | dsimp only | apply good_upd
    | exact Or.inr rfl | exact rfl

theorem execSeracSkip_keeps {s : State} {t : State} (hg : Good ev s) (hb : ev.beat = none)
    (h : execSeracSkip s = .next t) : Good ev t := by
  unfold execSeracSkip at h
  refine ok_good h ?_
  repeat' first
    | with_reducible first
      | assumption | rfl | exact Or.inr rfl | exact Or.inl ‹_› | refine Good.of_pair (by assumption) ?_
      | apply State.seracUntil_keeps | apply State.during_keeps | intro _ | apply Good.ite_of | apply apply_ite_good
      | split | dsimp only | apply good_upd
    | exact Or.inr rfl | exact rfl

theorem execSeracVote_keeps {copy : Fin 3} {bit : Fin 64} {s : State} {t : State} (hg : Good ev s) (hb : ev.beat = none)
    (h : execSeracVote copy bit s = .next t) : Good ev t := by
  unfold execSeracVote at h
  refine ok_good h ?_
  repeat' first
    | with_reducible first
      | assumption | rfl | exact Or.inr rfl | exact Or.inl ‹_› | refine Good.of_pair (by assumption) ?_
      | apply State.seracUntil_keeps | apply State.during_keeps | apply State.seracVote_keeps | intro _
      | apply Good.ite_of | apply apply_ite_good | split | dsimp only | apply good_upd
    | exact Or.inr rfl | exact rfl

theorem execSeracCheck_keeps {s : State} {t : State} (hg : Good ev s)
    (h : execSeracCheck s = .next t) : Good ev t := by
  unfold execSeracCheck at h
  refine ok_good h ?_
  repeat' first
    | with_reducible first
      | assumption | rfl | exact Or.inr rfl | exact Or.inl ‹_› | refine Good.of_pair (by assumption) ?_
      | apply State.during_keeps | apply State.seracCheck_keeps | intro _ | apply Good.ite_of | apply apply_ite_good
      | split | dsimp only | apply good_upd
    | exact Or.inr rfl | exact rfl

end Sys2Proof.Machine
end

