-- ==== Sys2Proof/Laws/Cycle.lean ====
section
/-!
SUPPORT. What the passing of one core cycle does to the tick: it moves on by one cycle, or ends and begins at a boundary, and
the phases whose end has come are done, unless a reset triggers in it.
-/

namespace Sys2Proof.Machine

/-- A state stands at a beat, unless a reset holds it. -/
def Timed (bt : Beat) (s : State) : Prop := s.hk.inReset.isSome = true ∨ s.time.beat = bt

variable {bt : Beat}

/-- What keeps the beat of Good keeps a state at its beat. -/
theorem Timed.keep {s t : State} (f : ∀ ev : Env, Good ev s → Good ev t) (h : Timed bt s) : Timed bt t :=
  (f ⟨s.pending, s.top.strap, False, some bt⟩ ⟨rfl, rfl, False.elim, fun _ hb => h.imp id (fun e => e.trans (Option.some.inj hb))⟩).beat
    bt rfl

theorem State.beat_timed (s : State) : Timed s.time.beat s := .inr rfl

/-- What does not hold a reset stands at its beat. -/
theorem Timed.free {s : State} (h : Timed bt s) (hn : s.hk.inReset = none) : s.time.beat = bt := by
  rcases h with hh | hh
  · rw [hn] at hh
    cases hh
  · exact hh

/-- What stands at every beat holds a reset. -/
theorem held_of_all {s : State} (h : ∀ bt, Timed bt s) : s.hk.inReset.isSome = true := by
  rcases h { s.time.beat with core := s.time.core + 1 } with hh | hh
  · exact hh
  · have : s.time.core = s.time.core + 1 := congrArg Beat.core hh
    omega

/-- An operation that leaves the tick as it is ends no reset. -/
theorem held_keeps {s t : State} (f : ∀ ev : Env, Good ev s → Good ev t) (hs : s.hk.inReset.isSome = true) :
    t.hk.inReset.isSome = true := held_of_all (fun _ => Timed.keep f (.inl hs))

theorem not_held_of {s t : State} (f : ∀ ev : Env, Good ev s → Good ev t) (hn : t.hk.inReset = none) : s.hk.inReset = none := by
  cases hs : s.hk.inReset with
  | none => rfl
  | some k =>
    have := held_keeps f (by rw [hs]; rfl)
    rw [hn] at this
    cases this

theorem State.phases_held {s : State} {k : Nat} (hs : s.hk.inReset.isSome = true) :
    (s.phases k).hk.inReset.isSome = true := by
  induction k generalizing s with
  | zero => exact hs
  | succ k ih =>
    unfold State.phases
    dsimp only
    split
    · exact ih (held_keeps (t := s.phaseEnd s.time.phasesDone) (fun ev => State.phaseEnd_keeps) hs)
    · exact hs

/-- The phases that are done at a boundary: at least the one whose end has come; nothing else of the tick changes. -/
theorem State.phases_free {s : State} {k : Nat} (hn : (s.phases k).hk.inReset = none) :
    ∃ n, s.time.phasesDone ≤ n ∧ (s.phases k).time.beat = { s.time.beat with phasesDone := n } ∧
      (0 < k → s.time.phasesDone < 5 → s.time.running = true → s.time.bound s.time.phasesDone ≤ s.time.cycle →
        s.time.phasesDone < n) := by
  induction k generalizing s with
  | zero => exact ⟨s.time.phasesDone, Nat.le_refl _, rfl, fun h => absurd h (by omega)⟩
  | succ k ih =>
    unfold State.phases at hn ⊢
    dsimp only at hn ⊢
    split at hn
    · next hc =>
      rw [if_pos hc]
      obtain ⟨n, h1, h2, _⟩ := ih hn
      have hp : (s.phaseEnd s.time.phasesDone).time.beat = s.time.beat := by
        refine Timed.free (Timed.keep (fun ev => State.phaseEnd_keeps) s.beat_timed) ?_
        cases hh : (s.phaseEnd s.time.phasesDone).hk.inReset with
        | none => rfl
        | some x =>
          have := State.phases_held (k := k) (s := { s.phaseEnd s.time.phasesDone with
            time := { (s.phaseEnd s.time.phasesDone).time with phasesDone := s.time.phasesDone + 1 } }) (by
              show (s.phaseEnd s.time.phasesDone).hk.inReset.isSome = true
              rw [hh]
              rfl)
          rw [hn] at this
          cases this
      simp only at h1
      refine ⟨n, by omega, ?_, fun _ _ _ _ => by omega⟩
      rw [h2]
      have e : ({ (s.phaseEnd s.time.phasesDone).time with phasesDone := s.time.phasesDone + 1 } : Time).beat =
          { (s.phaseEnd s.time.phasesDone).time.beat with phasesDone := s.time.phasesDone + 1 } := rfl
      rw [e, hp]
    · next hc =>
      rw [if_neg hc]
      refine ⟨s.time.phasesDone, Nat.le_refl _, rfl, fun _ h5 hr hb => absurd ?_ hc⟩
      simp [h5, hr, hb]

theorem Time.pass_beat (t : Time) (x : FTime) :
    (t.pass x).beat = { t.beat with core := t.core + 1, cycle := t.cycle + 1 } := by
  unfold Time.pass
  split
  · rfl
  · split <;> rfl

/-- A hop may have moved the tick's boundaries: one that has come stays, one to come is no earlier, the rest of the beat holds. -/
structure Moved (t u : Time) : Prop where
  beat : u.beat = { t.beat with c2 := u.c2, c3 := u.c3, c4 := u.c4, c5 := u.c5 }
  later : ∀ i, t.bound i ≤ u.bound i
  stays : ∀ i, t.bound i ≤ t.cycle → u.bound i = t.bound i

theorem bound_of_beat {t u : Time} (h : u.beat = t.beat) (i) : u.bound i = t.bound i := by
  unfold Time.bound
  split
  · exact congrArg Beat.c1 h
  · exact congrArg Beat.c2 h
  · exact congrArg Beat.c3 h
  · exact congrArg Beat.c4 h
  · exact congrArg Beat.c5 h

theorem Moved.of_beat {t u : Time} (h : u.beat = t.beat) : Moved t u := by
  refine ⟨?_, fun i => Nat.le_of_eq (bound_of_beat h i).symm, fun i _ => bound_of_beat h i⟩
  have h2 : u.c2 = t.c2 := congrArg Beat.c2 h
  have h3 : u.c3 = t.c3 := congrArg Beat.c3 h
  have h4 : u.c4 = t.c4 := congrArg Beat.c4 h
  have h5 : u.c5 = t.c5 := congrArg Beat.c5 h
  rw [h, h2, h3, h4, h5]

theorem Moved.trans_beat {t u v : Time} (h : Moved t u) (e : v.beat = u.beat) : Moved t v := by
  have h2 : v.c2 = u.c2 := congrArg Beat.c2 e
  have h3 : v.c3 = u.c3 := congrArg Beat.c3 e
  have h4 : v.c4 = u.c4 := congrArg Beat.c4 e
  have h5 : v.c5 = u.c5 := congrArg Beat.c5 e
  refine ⟨?_, fun i => ?_, fun i hi => ?_⟩
  · rw [e, h.beat, h2, h3, h4, h5]
  · rw [bound_of_beat e]
    exact h.later i
  · rw [bound_of_beat e]
    exact h.stays i hi

theorem State.moveBounds_moved (s : State) (law sup : Nat) : Moved s.time (s.moveBounds law sup).time := by
  have hm : ∀ c d : Nat, c ≤ (if s.time.cycle < c then c + d else c) := by
    intro c d
    split <;> omega
  have hs : ∀ c d : Nat, c ≤ s.time.cycle → (if s.time.cycle < c then c + d else c) = c := by
    intro c d h
    rw [if_neg (by omega)]
  unfold State.moveBounds
  split
  · exact Moved.of_beat rfl
  · refine ⟨rfl, fun i => ?_, fun i hi => ?_⟩
    · match i with
      | 0 => exact Nat.le_refl _
      | 1 => exact hm _ _
      | 2 => exact hm _ _
      | 3 => exact hm _ _
      | _ + 4 => exact hm _ _
    · match i with
      | 0 => rfl
      | 1 => exact hs _ _ hi
      | 2 => exact hs _ _ hi
      | 3 => exact hs _ _ hi
      | _ + 4 => exact hs _ _ hi

theorem State.moveBounds_hk (s : State) (law sup : Nat) : (s.moveBounds law sup).hk = s.hk := by
  unfold State.moveBounds
  split <;> rfl

/-- A state that stands at the beat of a time block, or has had its boundaries moved by a hop, unless a reset holds it. -/
def Hopped (t : Time) (s : State) : Prop := s.hk.inReset.isSome = true ∨ Moved t s.time

theorem Hopped.keep {t : Time} {s u : State} (f : ∀ ev : Env, Good ev s → Good ev u) (h : Hopped t s) : Hopped t u := by
  rcases h with h | h
  · exact .inl (held_keeps f h)
  · rcases Timed.keep f s.beat_timed with g | g
    · exact .inl g
    · exact .inr (h.trans_beat g)

theorem State.hopSwitch_hopped {t : Time} {s : State} (h : Timed t.beat s) : Hopped t s.hopSwitch := by
  have h0 : ∀ {u : State}, Timed t.beat u → Hopped t u := fun g => g.imp id Moved.of_beat
  unfold State.hopSwitch
  split
  · exact h0 h
  · split
    · exact h0 h
    · dsimp only
      refine Hopped.keep (fun ev => State.hopRecord_keeps) ?_
      refine Hopped.keep (fun ev => State.pllEvent_keeps) ?_
      refine Hopped.keep (fun ev => State.republish_keeps) ?_
      generalize hw : State.linksAtPoint _ _ = w
      have hb : Timed t.beat w := by
        rw [← hw]
        refine Timed.keep (fun ev => State.linksAtPoint_keeps) ?_
        refine Timed.keep (fun ev hg => State.each_keeps hg (fun _ _ g => State.ncoRescale_keeps g)) ?_
        exact Timed.keep (fun ev => State.loadInc_keeps) (Timed.keep (fun ev => State.modClk_keeps) h)
      rcases hb with hb | hb
      · exact .inl (by rw [State.moveBounds_hk]; exact hb)
      · have m := fun a b => w.moveBounds_moved a b
        refine .inr ⟨?_, fun i => ?_, fun i hi => ?_⟩
        · rw [(m _ _).beat, hb]
        · rw [← bound_of_beat hb i]
          exact (m _ _).later i
        · rw [← bound_of_beat hb i] at hi ⊢
          exact (m _ _).stays i (by rw [show w.time.cycle = t.cycle from congrArg Beat.cycle hb]; exact hi)

theorem State.hopTurn_hopped {t : Time} {s : State} (h : Timed t.beat s) : Hopped t s.hopTurn := by
  have h1 : Timed t.beat s.hopDecideDue := Timed.keep (fun ev => State.hopDecideDue_keeps) h
  unfold State.hopTurn
  dsimp only
  split
  · split
    · exact State.hopSwitch_hopped h1
    · exact h1.imp id Moved.of_beat
  · exact h1.imp id Moved.of_beat

/-- A time block one core cycle further. -/
abbrev Time.further (t : Time) : Time := { t with core := t.core + 1, cycle := t.cycle + 1 }

/-- The next core-cycle boundary: one core cycle further, the boundaries moved where a hop has switched over. -/
theorem State.cyclePass_hopped {t : Time} {s : State} (h : Timed t.beat s) : Hopped t.further s.cyclePass := by
  unfold State.cyclePass
  dsimp only
  refine Hopped.keep (fun ev => State.loadInc_keeps) (State.hopTurn_hopped ?_)
  generalize hu : State.fltCycle _ = u
  have h1 : Timed t.beat u := by
    rw [← hu]
    refine Timed.keep (fun ev hg => State.fltCycle_keeps ?_) h
    repeat' first
      | exact hg | apply State.seracCycles_keeps | apply State.bankCycles_keeps | apply State.clkCycle_keeps
      | split
  have h2 : Timed t.further.beat { u with
      time := u.time.pass u.ftSet, top := { u.top with cycles := u.top.cycles + 1 }, fresh := [], landed := [] } := by
    refine h1.imp id (fun e => ?_)
    show (u.time.pass u.ftSet).beat = _
    rw [Time.pass_beat, e]
    show ({ t.beat with core := u.time.core + 1, cycle := u.time.cycle + 1 } : Beat) = _
    rw [show u.time.core = t.core from congrArg Beat.core e, show u.time.cycle = t.cycle from congrArg Beat.cycle e]
  split
  · exact Timed.keep (fun ev => State.spllTake_keeps) h2
  · exact h2

/-- What follows the phases at a boundary. -/
abbrev State.cycleTail (s : State) (x : ExtIn) : State := (((s.sysrefCycle.mbTake).firnInitTurn).bringTurn).tlaCycle x

theorem State.cycleTail_keeps {ev : Env} {s : State} {x : ExtIn} (h : Good ev s) : Good ev (s.cycleTail x) :=
  State.tlaCycle_keeps (State.bringTurn_keeps (State.firnInitTurn_keeps (State.mbTake_keeps (State.sysrefCycle_keeps h))))

/-- What precedes the tick's turn at a boundary. -/
def State.cycleHead (s : State) : State :=
  let s := s.fltTurn.liveCopies.captures
  let s := if s.tla.swapPending then s.tlaSwap else s
  let s := s.each (List.range 32) State.pairRestart
  let s := s.each (List.range 24) State.seqRetire
  let s := s.relockTurn.ilasTurn.rxRelease
  let s := if s.windowStopped 0x0A then s else s.fabricTurn
  s.setsArrive.ordersArrive

theorem State.cycleHead_keeps {ev : Env} {s : State} (h : Good ev s) : Good ev s.cycleHead := by
  have h1 : Good ev s.fltTurn.liveCopies.captures := State.captures_keeps (State.liveCopies_keeps (State.fltTurn_keeps h))
  have h2 := Good.ite_of (c := s.fltTurn.liveCopies.captures.tla.swapPending = true) h1 State.tlaSwap_keeps
  have h3 := State.rxRelease_keeps (State.ilasTurn_keeps (State.relockTurn_keeps (State.each_keeps (l := List.range 24)
    (f := State.seqRetire) (State.each_keeps (l := List.range 32) (f := State.pairRestart) h2
      (fun t x ht => State.pairRestart_keeps ht)) (fun t x ht => State.seqRetire_keeps ht))))
  unfold State.cycleHead
  dsimp only
  exact State.ordersArrive_keeps (State.setsArrive_keeps (Good.ite_of (State.fabricTurn_keeps h3) (fun _ => h3)))

theorem State.cycleOpen_eq (s : State) :
    s.cycleOpen = (((s.cycleHead.tickTurn.outputsTurn.phases 5).sysrefCycle.mbTake).firnInitTurn).bringTurn := by
  unfold State.cycleOpen State.cycleHead
  rfl

theorem State.passTail {bt : Time} {v : State} {x : ExtIn} (hv : Timed bt.beat v) :
    ∃ u : State, v.cyclePass.tlaShow.cycleOpen.tlaCycle x = (u.tickTurn.outputsTurn.phases 5).cycleTail x ∧
      Hopped bt.further u := by
  refine ⟨v.cyclePass.tlaShow.cycleHead, ?_, ?_⟩
  · rw [State.cycleOpen_eq]
  · refine Hopped.keep (fun ev hg => ?_) (State.cyclePass_hopped hv)
    exact State.cycleHead_keeps (State.tlaShow_keeps hg)

theorem State.extTaken_keeps {ev : Env} {s : State} {f : Tla → Tla} (h : Good ev s) :
    Good ev { s.modTla f with mkr := { (s.modTla f).mkr with ext := [] } } :=
  good_upd (State.modTla_keeps h) rfl rfl (.inr rfl) (.inr rfl)

/-- A core cycle that passes comes to a boundary with everything but the tick's turn, the phases and the firmware's own
steps done, one core cycle on. -/
theorem State.coreCycle_at {s : State} (hh : s.coreHeld = false) :
    ∃ (u : State) (x : ExtIn), s.coreCycle = (u.tickTurn.outputsTurn.phases 5).cycleTail x ∧ Hopped s.time.further u := by
  unfold State.coreCycle
  rw [hh, if_neg (by decide)]
  have hw : Timed s.time.beat s.cycleWork := Timed.keep (fun ev => State.cycleWork_keeps) s.beat_timed
  generalize s.cycleWork = w at hw ⊢
  dsimp only
  generalize w.extIn = p
  obtain ⟨x, caught⟩ := p
  dsimp only
  obtain ⟨u, h1, h2⟩ := State.passTail (x := x) (Timed.keep (fun ev => State.extTaken_keeps) hw)
  exact ⟨u, x, h1, h2⟩

/-- What a tick that begins does to the tick. -/
theorem State.tickBegin_beat {s : State} (hn : s.tickBegin.hk.inReset = none) : s.tickBegin.time.beat =
    { core := s.time.core, cycle := 0, period := s.tickPeriod, c1 := s.commitCycles, c2 := s.commitCycles + s.time.costLaw
      c3 := s.commitCycles + s.time.costLaw + s.orderCycles
      c4 := s.commitCycles + s.time.costLaw + s.orderCycles + s.time.costSup
      c5 := s.commitCycles + s.time.costLaw + s.orderCycles + s.time.costSup + 32
      running := true, phasesDone := 0, tickFt := s.time.ft, ticks := s.time.ticks + 1 } := by
  unfold State.tickBegin at hn ⊢
  exact Timed.free (Timed.keep (fun ev => State.commitBegin_keeps) (.inr rfl)) hn

theorem State.tickBegin_held {s : State} (hs : s.hk.inReset.isSome = true) : s.tickBegin.hk.inReset.isSome = true := by
  unfold State.tickBegin
  exact held_keeps (fun ev => State.commitBegin_keeps) hs

theorem State.tickFirst_held {s : State} (hs : s.hk.inReset.isSome = true) : s.tickFirst.hk.inReset.isSome = true := by
  unfold State.tickFirst
  split
  · apply State.tickBegin_held
    split
    · exact held_keeps (fun ev => State.flushTicks_keeps) hs
    · exact hs
  · exact hs

theorem State.tickTurn_held {s : State} (hs : s.hk.inReset.isSome = true) : s.tickTurn.hk.inReset.isSome = true := by
  unfold State.tickTurn
  split
  · split
    · split
      · exact State.tickBegin_held hs
      · exact State.tickFirst_held (s := s.tickStop) hs
    · exact hs
  · apply State.tickFirst_held
    split
    · split
      · exact held_keeps (fun ev => State.flushTicks_keeps) hs
      · exact hs
    · exact hs

/-- A first tick begins, or the tick stands as it did. -/
theorem State.tickFirst_free {s : State} (hn : s.tickFirst.hk.inReset = none) :
    s.tickFirst.time.core = s.time.core ∧ ((s.tickFirst = s) ∨
      (s.tickFirst.time.cycle = 0 ∧ s.tickFirst.time.running = true ∧ s.tickFirst.time.ticks = s.time.ticks + 1)) := by
  unfold State.tickFirst at hn ⊢
  split at hn
  · next hd =>
    rw [if_pos hd]
    generalize hv : (if s.time.flush.isSome = true then s.flushTicks else s) = v at hn ⊢
    have hv0 : v.hk.inReset = none := by
      cases hx : v.hk.inReset with
      | none => rfl
      | some x =>
        have := State.tickBegin_held (s := v) (by rw [hx]; rfl)
        rw [hn] at this
        cases this
    have hb : v.time.beat = s.time.beat := by
      refine Timed.free ?_ hv0
      rw [← hv]
      split
      · exact Timed.keep (fun ev => State.flushTicks_keeps) s.beat_timed
      · exact s.beat_timed
    have hB := State.tickBegin_beat hn
    have hc : v.time.core = s.time.core := congrArg Beat.core hb
    have ht : v.time.ticks = s.time.ticks := congrArg Beat.ticks hb
    exact ⟨(congrArg Beat.core hB).trans hc, .inr ⟨congrArg Beat.cycle hB, congrArg Beat.running hB,
      (congrArg Beat.ticks hB).trans (by rw [ht])⟩⟩
  · next hd =>
    rw [if_neg hd]
    exact ⟨rfl, .inl rfl⟩

/-- What follows the tick's turn at a boundary ends no reset and leaves the tick but for the phases done. -/
theorem State.afterTurn_free {s : State} {x : ExtIn} (hn : ((s.outputsTurn.phases 5).cycleTail x).hk.inReset = none) :
    s.hk.inReset = none ∧ ∃ n, s.time.phasesDone ≤ n ∧
      ((s.outputsTurn.phases 5).cycleTail x).time.beat = { s.time.beat with phasesDone := n } ∧
      (s.time.phasesDone < 5 → s.time.running = true → s.time.bound s.time.phasesDone ≤ s.time.cycle → s.time.phasesDone < n) := by
  have hp : (s.outputsTurn.phases 5).hk.inReset = none := not_held_of (fun ev => State.cycleTail_keeps) hn
  have ho : s.outputsTurn.hk.inReset = none := by
    cases hh : s.outputsTurn.hk.inReset with
    | none => rfl
    | some x =>
      have := State.phases_held (k := 5) (s := s.outputsTurn) (by rw [hh]; rfl)
      rw [hp] at this
      cases this
  have hs : s.hk.inReset = none := not_held_of (fun ev => State.outputsTurn_keeps) ho
  have e : s.outputsTurn.time.beat = s.time.beat := Timed.free (Timed.keep (fun ev => State.outputsTurn_keeps) s.beat_timed) ho
  have e1 : s.outputsTurn.time.phasesDone = s.time.phasesDone := congrArg Beat.phasesDone e
  obtain ⟨n, h1, h2, h3⟩ := State.phases_free hp
  refine ⟨hs, n, by omega, ?_, fun a b c => ?_⟩
  · rw [Timed.free (Timed.keep (fun ev => State.cycleTail_keeps) (State.beat_timed _)) hn, h2, e]
  · rw [← e1]
    refine h3 (by omega) (by omega) ((congrArg Beat.running e).trans b) ?_
    rw [e1, bound_of_beat e]
    have ec : s.outputsTurn.time.cycle = s.time.cycle := congrArg Beat.cycle e
    omega

theorem Hopped.free {t : Time} {s : State} (h : Hopped t s) (hn : s.hk.inReset = none) : Moved t s.time := by
  rcases h with hh | hh
  · rw [hn] at hh
    cases hh
  · exact hh

theorem turn_free {u : State} (h : u.tickTurn.hk.inReset = none) : u.hk.inReset = none := by
  cases hx : u.hk.inReset with
  | none => rfl
  | some x =>
    have := State.tickTurn_held (s := u) (by rw [hx]; rfl)
    rw [h] at this
    cases this

/-- A core cycle inside a tick: it moves on by one cycle, its boundaries moved where a hop has switched over, and the phase whose
end has come is done. -/
theorem State.coreCycle_inside {s : State} (hh : s.coreHeld = false) (hr : s.time.running = true)
    (hp : s.time.cycle + 1 < s.time.period) (hn : s.coreCycle.hk.inReset = none) :
    ∃ n, s.time.phasesDone ≤ n ∧ Moved { s.time.further with phasesDone := n } s.coreCycle.time ∧
      (s.time.phasesDone < 5 → s.time.bound s.time.phasesDone ≤ s.time.cycle + 1 → s.time.phasesDone < n) := by
  obtain ⟨u, x, e, hu⟩ := State.coreCycle_at hh
  rw [e] at hn ⊢
  obtain ⟨ht, n, h1, h2, h3⟩ := State.afterTurn_free hn
  have hb := hu.free (turn_free ht)
  have hur : u.time.running = true := (congrArg Beat.running hb.beat).trans hr
  have huc : u.time.cycle = s.time.cycle + 1 := congrArg Beat.cycle hb.beat
  have hup : u.time.period = s.time.period := congrArg Beat.period hb.beat
  have hud : u.time.phasesDone = s.time.phasesDone := congrArg Beat.phasesDone hb.beat
  have et : u.tickTurn = u := by
    unfold State.tickTurn
    rw [if_pos hur, if_neg (by omega)]
  rw [et] at h1 h2 h3 ⊢
  generalize (u.outputsTurn.phases 5).cycleTail x = t at h2 ⊢
  refine ⟨n, by omega, ⟨?_, fun i => ?_, fun i hi => ?_⟩, fun a c => ?_⟩
  · rw [show t.time.c2 = u.time.c2 from congrArg Beat.c2 h2, show t.time.c3 = u.time.c3 from congrArg Beat.c3 h2,
      show t.time.c4 = u.time.c4 from congrArg Beat.c4 h2, show t.time.c5 = u.time.c5 from congrArg Beat.c5 h2, h2, hb.beat]
  · have et : t.time.bound i = u.time.bound i := bound_of_beat (t := { u.time with phasesDone := n }) h2 i
    rw [et]
    exact hb.later i
  · have et : t.time.bound i = u.time.bound i := bound_of_beat (t := { u.time with phasesDone := n }) h2 i
    rw [et]
    exact hb.stays i hi
  · rw [← hud]
    refine h3 (by omega) hur ?_
    rw [hud, hb.stays _ c]
    exact Nat.le_trans c (Nat.le_of_eq huc.symm)

/-- The last core cycle of a tick: the tick ends; a new one begins there, or none runs. -/
theorem State.coreCycle_last {s : State} (hh : s.coreHeld = false) (hr : s.time.running = true)
    (hp : s.time.period ≤ s.time.cycle + 1) (hn : s.coreCycle.hk.inReset = none) :
    s.coreCycle.time.core = s.time.core + 1 ∧ s.coreCycle.time.cycle = 0 ∧
      ((s.coreCycle.time.running = true ∧ s.coreCycle.time.ticks = s.time.ticks + 1) ∨
        (s.coreCycle.time.running = false ∧ s.coreCycle.time.ticks = s.time.ticks)) := by
  obtain ⟨u, x, e, hu⟩ := State.coreCycle_at hh
  rw [e] at hn ⊢
  obtain ⟨ht, n, h1, h2, h3⟩ := State.afterTurn_free hn
  have hb := hu.free (turn_free ht)
  have hur : u.time.running = true := (congrArg Beat.running hb.beat).trans hr
  have huc : u.time.cycle = s.time.cycle + 1 := congrArg Beat.cycle hb.beat
  have hup : u.time.period = s.time.period := congrArg Beat.period hb.beat
  have huk : u.time.core = s.time.core + 1 := congrArg Beat.core hb.beat
  have hut : u.time.ticks = s.time.ticks := congrArg Beat.ticks hb.beat
  have hT : u.tickTurn.time.core = s.time.core + 1 ∧ u.tickTurn.time.cycle = 0 ∧
      ((u.tickTurn.time.running = true ∧ u.tickTurn.time.ticks = s.time.ticks + 1) ∨
        (u.tickTurn.time.running = false ∧ u.tickTurn.time.ticks = s.time.ticks)) := by
    unfold State.tickTurn at ht ⊢
    rw [if_pos hur, if_pos (by omega)] at ht ⊢
    split at ht
    · next hf =>
      rw [if_pos hf]
      have hB := State.tickBegin_beat ht
      exact ⟨(congrArg Beat.core hB).trans huk, congrArg Beat.cycle hB,
        .inl ⟨congrArg Beat.running hB, (congrArg Beat.ticks hB).trans (by rw [hut])⟩⟩
    · next hf =>
      rw [if_neg hf]
      obtain ⟨hc, hs | ⟨a, b, c⟩⟩ := State.tickFirst_free ht
      · rw [hs]
        exact ⟨huk, rfl, .inr ⟨rfl, hut⟩⟩
      · exact ⟨hc.trans huk, a, .inl ⟨b, c.trans (by rw [← hut]; rfl)⟩⟩
  generalize (u.tickTurn.outputsTurn.phases 5).cycleTail x = t at h2 ⊢
  have a1 : t.time.core = u.tickTurn.time.core := congrArg Beat.core h2
  have a2 : t.time.cycle = u.tickTurn.time.cycle := congrArg Beat.cycle h2
  have a3 : t.time.running = u.tickTurn.time.running := congrArg Beat.running h2
  have a4 : t.time.ticks = u.tickTurn.time.ticks := congrArg Beat.ticks h2
  rw [a1, a2, a3, a4]
  exact hT

end Sys2Proof.Machine
end

