-- ==== Sys2Proof/WellFormed.lean ====
section
/-!
DEFINITION. Which commands are well formed: the bounds of their operands that the operand types do not carry. Each
check cites its rule. A meaning does not rest on these checks; they say which commands the outside world can send.
-/

namespace Sys2Proof

/-- The unlock key (02 R43). -/
def unlockKey : Word := 0x00007A3C

/-- A descriptor fetch brings at most eight slots (05 R133). -/
def FetchData.wf : FetchData → Bool
  | .slots words => decide (words.length ≤ 8)
  | .failed _ => true

/-- A CONFIG part carries its 480 entries (13 R335). -/
def ConfigPart.wf : ConfigPart → Bool
  | .place .. => true
  | .table _ entries => decide (entries.length = 480)

/-- A MAIL fragment carries what R361 says of its place in the message: 240 bytes, or the rest. -/
def MailPkt.wf (p : MailPkt) : Bool :=
  decide (p.payload.length = min 240 (p.len.toNat - 240 * p.frag.toNat))

/-- A generation and a width that the link trains to (05 R112). -/
def linkWf (gen : BitVec 3) (width : BitVec 5) : Bool :=
  decide (1 ≤ gen.toNat ∧ gen.toNat ≤ 5) && [1, 2, 4, 8, 16].contains width.toNat

/-- The well-formed commands. -/
def Instr.wf : Instr → Bool
  | .registerWrite offset w => decide (offset.toNat / 4 + w.rest.length < 2 ^ 23)
  | .clearOnRead offset _ be => decide (offset.toNat / 4 + be.rest.length < 2 ^ 23)
  | .outsideWrite .. | .setAliasWrite .. | .clearAliasWrite .. | .toggleAliasWrite ..
  | .unlockKeyWrite .. => true
  | .unlockDisarmWrite _ w => decide (w.value ≠ unlockKey)
  | .wvSelect .. | .wvCapture .. | .wvDataRead .. | .wvD3Read .. | .shadowCompare .. | .registerUpset ..
  | .globalEnWrite .. | .tickRunSet .. | .firstTickStart .. | .tickRunClear .. | .tickStopFlush ..
  | .tickBoundary .. | .stagedConfigurationCommit .. | .controlLawEvaluation .. | .sequencerCommitOfOrders ..
  | .loopSupervision .. | .telemetrySnapshot .. | .ftLoad .. | .orderQueueArrival .. | .stageSetArrival ..
  | .orderStart .. | .orderStopNow .. | .orderStopSegmentEnd .. | .orderJumpNow .. | .orderJumpSegmentEnd ..
  | .orderSetFlag .. | .orderClearFlag .. | .orderNco .. | .orderForceRelease .. | .orderForceSafe ..
  | .orderForceHold .. | .eventInputEdge .. | .jumpNow .. | .jumpSegEnd .. | .setFlag .. | .start ..
  | .stopNow .. | .forceSafe .. | .forceRelease .. | .pllEnable .. | .pllDisable .. | .bandSearchDone ..
  | .pllLock .. | .acquireTimeout .. | .lockLoss .. | .bypassRetry .. | .referenceLoss .. | .referenceReturn ..
  | .holdoverExit .. | .holdMaxExpiry .. | .refselChange .. | .spllSearch .. | .bandTableLoad .. | .fcwApply ..
  | .hopRequest .. | .hopDecision .. | .hopSwitchover .. | .phaseStepWrite .. | .clockOutputApply ..
  | .clockOutputLive .. | .doorbell .. | .doorbellOutside .. | .ringEnable .. | .ringDisable .. => true
  | .descriptorFetch mem => mem.wf
  | .nop .. => true
  | .write _ payload => decide (payload.length ≤ 2 ^ 30)
  | .read .. | .order .. => true
  | .stage _ image => decide (image.length ≤ 512)
  | .fence .. => true
  | .send _ payload => decide (payload.length ≤ 1920)
  | .fenceCompletion .. => true
  | .dmaCompletion _ _ rest => decide (rest.length ≤ 2 ^ 30)
  | .hostFault .. | .overflowRecord .. | .msixAgeTimeout .. | .msixVectorUnmask .. => true
  | .bar4Read _ length => decide (1 ≤ length ∧ length ≤ 64)
  | .bar4Write _ data => decide (1 ≤ data.length ∧ data.length ≤ 64)
  | .bar4Timeout .. | .d3hotEntry .. | .d0Return .. | .dlDown .. => true
  | .dlUp gen width => linkWf gen width
  | .firnAccessServed _ reqs _ => decide ((reqs.map (·.port)).Nodup)
  | .eccWriteBack .. | .rimeRegionStart .. | .rimeCopyDone .. => true
  | .rimeTestDone mismatched => decide mismatched.Nodup
  | .rimeTimeout => true
  | .rimeRestoreDone .. | .bankCopyStart .. => true
  | .bankCopySkip rows => decide rows.Nodup
  | .bankCopyDone .. | .firnCmdRepair .. | .firnCmdRetire .. | .morMapWrite .. | .morChannelEnable ..
  | .morTrainingDone .. | .morRequest .. | .morReadReturn .. | .refreshDue .. | .rfm .. | .selfRefreshEntry ..
  | .sre .. | .srx .. | .calibrationDue .. | .calibrationSkip .. | .alertN .. | .replayEnd .. | .thNone ..
  | .thWriteRead .. | .thReadCmp .. | .thWrite .. | .thMrw .. | .thMrr .. | .thMpc .. | .thCaSample ..
  | .thWlSample .. | .thDone .. | .streamOpen .. | .streamReadIssue .. | .streamClose .. | .morMapSwitch ..
  | .seqCtrlWrite .. | .playEntry .. | .loopEntry .. | .endloopEntry .. | .jumpEntry .. | .waitEntry ..
  | .ncoEntry .. | .endEntry .. | .playEnd .. | .burstOwnEnd .. | .tableFetch .. | .slotWrite ..
  | .slotPreloadDone .. | .underrunEpisodeEnd .. | .markerSet .. | .markerClear .. | .markerToggle ..
  | .markerPulse .. | .pulseEnd .. | .jesdSyncHigh .. | .ilasEnd .. | .jesdReinitRequest ..
  | .patternRegisterWrite .. | .patternPreloadDone .. | .patternStart .. | .patternWrap .. | .toothEdge ..
  | .toothMiss .. | .intervalOverflow .. | .angleEventFire .. | .freeRunEnd .. | .tlaShadowStore ..
  | .tlaCheck .. | .checkDone .. | .tlaSwap .. | .tlaEnWrite .. | .seracWordScrub .. | .seracPassEnd ..
  | .seracSkip .. | .seracVote .. | .seracCheck .. | .coefficientWrite .. | .coefficientSweep ..
  | .qlinkAligned .. => true
  | .qlinkMultiblock _ _ samples => decide (samples.length = 8) && samples.all (fun c => decide (c.length ≤ 4096))
  | .qlinkLockLost .. | .linkSignalDetect .. | .linkTrained .. | .trainTimeout .. | .hello .. | .helloSend ..
  | .helloTimeout .. | .linkAck .. | .replayReq .. | .idle .. | .blockLockLost .. | .timeSend .. | .time ..
  | .elect .. | .electionDecision .. => true
  | .discover _ _ _ path => decide (path.length ≤ 16)
  | .reportSend .. => true
  | .report _ pkt => decide (pkt.links.length ≤ 8)
  | .collectionEnd .. => true
  | .config _ _ part => part.wf
  | .configResend .. | .ack .. | .commit .. | .commitLive .. | .beaconSend .. | .beacon .. | .beaconLoss ..
  | .joinTimeout .. | .topo .. | .launch .. | .launchSendDone .. => true
  | .mail _ pkt => pkt.wf
  | .mailLost .. | .nak .. | .ppsEdge .. | .ppsLost .. | .timeHoldEnd .. | .nzlCmdElect .. | .nzlCmdReenum ..
  | .faultDetection .. | .budgetWindowClose .. | .drainWindowEnd .. | .fltRetire .. | .padMismatch ..
  | .serializerLockLoss .. | .lostFlit .. | .deadTimeEnd .. | .minPulseEnd ..
  | .angleEventRearm .. | .serializerRelock .. | .stampPathCalibration .. | .supplyExcursion .. | .fullReset ..
  | .coreReset .. | .resetRelease .. | .fwLoad .. | .hostBootGo .. => true
  | .baseReady _ dimms => decide (dimms.length = 4)
  | .bringup .. | .sysref .. | .fixedTable .. => true
  | .badOpcode _ _ opcode _ => decide (opcode ≠ 1 ∧ opcode ≠ 2 ∧ opcode ≠ 3)
  | .thermalReading temps => decide (temps.length = 8)
  | .supplyMeasurement millivolts => decide (millivolts.length = 11)
  | .por .. | .pcieReset .. | .firnInit .. | .bringupStageTimeout .. | .sysrefEvent .. | .thermalTrip ..
  | .tripRelease .. | .extest .. | .samplePreload .. | .idcode .. | .clamp .. | .highz .. | .bypass ..
  | .tapReset .. => true

end Sys2Proof
end

