-- ==== Sys2Proof/Laws/PerInstr.lean ====
section
/-!
SUPPORT. Per command: the register that a named write command writes is a register of the map, at a word address (02 R34, R39).
-/

namespace Sys2Proof.Laws.Target

open Sys2Proof.Machine

/-- The BAR0 base address that a command writes, for the commands that are the write of one named register. -/
def target : Instr → Option Nat
  | .globalEnWrite _ => some (wTop + 0x20)
  | .tickRunSet _ _ => some (wTime)
  | .tickRunClear _ _ => some (wTime)
  | .ftLoad _ _ => some (wTime + 0x2C)
  | .pllEnable pll _ => some (aPll pll)
  | .pllDisable pll _ => some (aPll pll)
  | .refselChange pll _ _ => some (aPll pll)
  | .spllSearch _ => some (wClk + 0x104)
  | .bandTableLoad _ => some (wClk + 0x130)
  | .fcwApply pll _ _ => some (aPll pll + 0x10)
  | .hopRequest _ => some (wClk + 0x100)
  | .phaseStepWrite _ => some (wClk + 0x10C)
  | .clockOutputApply _ => some (wClk + 0x280)
  | .ringEnable ring _ => some (aRingCfg ring.val)
  | .ringDisable ring _ => some (aRingCfg ring.val)
  | .msixVectorUnmask vector _ _ => some (wHif + 0x180C + 16 * vector.val)
  | .firnCmdRepair _ _ _ => some (wFirn + 0x14)
  | .firnCmdRetire _ _ _ => some (wFirn + 0x14)
  | .morMapWrite _ => some (wMor)
  | .morChannelEnable ch _ => some (aCh ch.val)
  | .thNone ch _ => some (aCh ch.val + 0x100)
  | .thWriteRead ch _ => some (aCh ch.val + 0x100)
  | .thReadCmp ch _ => some (aCh ch.val + 0x100)
  | .thWrite ch _ => some (aCh ch.val + 0x100)
  | .thMrw ch _ => some (aCh ch.val + 0x100)
  | .thMrr ch _ => some (aCh ch.val + 0x100)
  | .thMpc ch _ => some (aCh ch.val + 0x100)
  | .thCaSample ch _ => some (aCh ch.val + 0x100)
  | .thWlSample ch _ => some (aCh ch.val + 0x100)
  | .seqCtrlWrite seq _ => some (wSeq seq.val)
  | .slotWrite seq slot _ => some (aSeqSlot seq.val slot.val)
  | .patternRegisterWrite line reg _ => some (aPat line.val reg)
  | .tlaShadowStore _ => some (wTla + 0x28)
  | .tlaCheck _ _ => some (wTla + 0x08)
  | .tlaSwap _ _ => some (wTla + 0x04)
  | .tlaEnWrite _ => some (wTla)
  | .coefficientWrite slot _ => some (wCle + 0x1000 + 0x80 * slot.val + 0x24)
  | .nzlCmdElect _ _ => some (wNzl + 0x18)
  | .nzlCmdReenum _ _ => some (wNzl + 0x18)
  | .fltRetire _ => some (wFlt)
  | .fullReset _ => some (wHk + 0x08)
  | .coreReset _ => some (wHk + 0x08)
  | .hostBootGo _ _ => some (wHk + 0x14)
  | .bringup _ _ _ => some (wHk + 0x20)
  | .sysref _ _ _ => some (wHk + 0x20)
  | .fixedTable _ _ _ => some (wHk + 0x20)
  | .badOpcode _ _ _ _ => some (wHk + 0x20)
  | .registerWrite .. | .outsideWrite .. | .setAliasWrite .. | .clearAliasWrite .. | .toggleAliasWrite ..
  | .unlockKeyWrite .. | .unlockDisarmWrite .. | .wvSelect .. | .wvCapture .. | .wvDataRead .. | .wvD3Read ..
  | .shadowCompare | .registerUpset .. | .firstTickStart | .tickStopFlush | .tickBoundary
  | .stagedConfigurationCommit | .controlLawEvaluation | .sequencerCommitOfOrders | .loopSupervision
  | .telemetrySnapshot | .orderQueueArrival .. | .stageSetArrival | .orderStart .. | .orderStopNow ..
  | .orderStopSegmentEnd .. | .orderJumpNow .. | .orderJumpSegmentEnd .. | .orderSetFlag .. | .orderClearFlag ..
  | .orderNco .. | .orderForceRelease .. | .orderForceSafe .. | .orderForceHold .. | .eventInputEdge ..
  | .jumpNow .. | .jumpSegEnd .. | .setFlag .. | .start .. | .stopNow .. | .forceSafe .. | .forceRelease ..
  | .bandSearchDone .. | .pllLock .. | .acquireTimeout .. | .lockLoss .. | .bypassRetry .. | .referenceLoss ..
  | .referenceReturn .. | .holdoverExit .. | .holdMaxExpiry .. | .hopDecision .. | .hopSwitchover | .clockOutputLive
  | .doorbell .. | .doorbellOutside .. | .descriptorFetch .. | .nop .. | .write .. | .read .. | .order ..
  | .stage .. | .fence .. | .send .. | .fenceCompletion .. | .dmaCompletion .. | .hostFault .. | .overflowRecord ..
  | .msixAgeTimeout .. | .bar4Read .. | .bar4Write .. | .bar4Timeout .. | .d3hotEntry | .d0Return | .dlDown
  | .dlUp .. | .firnAccessServed .. | .eccWriteBack | .rimeRegionStart | .rimeCopyDone | .rimeTestDone ..
  | .rimeRestoreDone | .rimeTimeout | .bankCopyStart | .bankCopySkip .. | .bankCopyDone | .morTrainingDone ..
  | .morRequest .. | .morReadReturn .. | .refreshDue .. | .rfm .. | .selfRefreshEntry .. | .sre .. | .srx ..
  | .calibrationDue .. | .calibrationSkip .. | .alertN .. | .replayEnd .. | .thDone .. | .streamOpen ..
  | .streamReadIssue .. | .streamClose .. | .morMapSwitch | .playEntry .. | .loopEntry .. | .endloopEntry ..
  | .jumpEntry .. | .waitEntry .. | .ncoEntry .. | .endEntry .. | .playEnd .. | .burstOwnEnd .. | .tableFetch ..
  | .slotPreloadDone .. | .underrunEpisodeEnd .. | .markerSet .. | .markerClear .. | .markerToggle ..
  | .markerPulse .. | .pulseEnd .. | .jesdSyncHigh | .ilasEnd | .jesdReinitRequest | .patternPreloadDone ..
  | .patternStart .. | .patternWrap .. | .toothEdge .. | .toothMiss .. | .intervalOverflow .. | .angleEventFire ..
  | .freeRunEnd .. | .checkDone | .seracWordScrub .. | .seracPassEnd | .seracSkip | .seracVote .. | .seracCheck
  | .coefficientSweep .. | .qlinkAligned .. | .qlinkMultiblock .. | .qlinkLockLost .. | .linkSignalDetect ..
  | .linkTrained .. | .trainTimeout .. | .hello .. | .helloSend .. | .helloTimeout .. | .linkAck .. | .replayReq ..
  | .idle .. | .blockLockLost .. | .timeSend .. | .time .. | .elect .. | .electionDecision | .discover ..
  | .reportSend | .report .. | .collectionEnd | .config .. | .configResend | .ack .. | .commit .. | .commitLive
  | .beaconSend | .beacon .. | .beaconLoss | .joinTimeout | .topo .. | .launch .. | .launchSendDone .. | .mail ..
  | .mailLost .. | .nak .. | .ppsEdge .. | .ppsLost | .timeHoldEnd | .faultDetection | .budgetWindowClose ..
  | .drainWindowEnd .. | .padMismatch .. | .serializerLockLoss .. | .clearOnRead .. | .lostFlit .. | .deadTimeEnd ..
  | .minPulseEnd .. | .angleEventRearm .. | .serializerRelock .. | .stampPathCalibration .. | .supplyExcursion ..
  | .resetRelease .. | .fwLoad .. | .baseReady .. | .thermalReading .. | .supplyMeasurement .. | .por | .pcieReset
  | .firnInit | .bringupStageTimeout | .sysrefEvent | .thermalTrip | .tripRelease | .extest | .samplePreload
  | .idcode | .clamp | .highz | .bypass | .tapReset => none

/-- A named register is one of the map, at a word address. -/
def Statement (i : Instr) : Prop := ∀ a, target i = some a → a % 4 = 0 ∧ (rowOf a).isSome = true

/-- A command that writes no one named register. -/
theorem of_none {i : Instr} (h : target i = none) : Statement i := fun a e => by rw [h] at e; cases e

/-- A command that writes a register found in the map. -/
theorem of_some {i : Instr} {b : Nat} (h : target i = some b) (hb : b % 4 = 0 ∧ (rowOf b).isSome = true) : Statement i :=
  fun a e => by rw [h] at e; cases e; exact hb

theorem th_row (ch : Fin 4) : (aCh ch.val + 0x100) % 4 = 0 ∧ (rowOf (aCh ch.val + 0x100)).isSome = true := by
  revert ch
  decide +kernel

theorem pll_row (pll : Pll) : aPll pll % 4 = 0 ∧ (rowOf (aPll pll)).isSome = true := by cases pll <;> decide +kernel

theorem ring_row (ring : Fin 256) : aRingCfg ring.val % 4 = 0 ∧ (rowOf (aRingCfg ring.val)).isSome = true := by
  revert ring
  decide +kernel

theorem registerWrite (offset : BitVec 25) (w : Wrs) : Statement (.registerWrite offset w) :=
  of_none rfl

theorem outsideWrite (offset : BitVec 25) (w : Wr) : Statement (.outsideWrite offset w) :=
  of_none rfl

theorem setAliasWrite (offset : BitVec 25) (w : Wr) : Statement (.setAliasWrite offset w) :=
  of_none rfl

theorem clearAliasWrite (offset : BitVec 25) (w : Wr) : Statement (.clearAliasWrite offset w) :=
  of_none rfl

theorem toggleAliasWrite (offset : BitVec 25) (w : Wr) : Statement (.toggleAliasWrite offset w) :=
  of_none rfl

theorem unlockKeyWrite (window : BitVec 8) (rq : Requester) (be : BitVec 4) : Statement (.unlockKeyWrite window rq be) :=
  of_none rfl

theorem unlockDisarmWrite (window : BitVec 8) (w : Wr) : Statement (.unlockDisarmWrite window w) :=
  of_none rfl

theorem wvSelect (window : BitVec 8) (rq : Requester) (space : BitVec 8) (index : BitVec 16) : Statement (.wvSelect window rq space index) :=
  of_none rfl

theorem wvCapture (window : BitVec 8) (rq : Requester) : Statement (.wvCapture window rq) :=
  of_none rfl

theorem wvDataRead (window : BitVec 8) (rq : Requester) (d : Fin 3) (be : BitVec 4) : Statement (.wvDataRead window rq d be) :=
  of_none rfl

theorem wvD3Read (window : BitVec 8) (rq : Requester) (be : BitVec 4) : Statement (.wvD3Read window rq be) :=
  of_none rfl

theorem shadowCompare : Statement .shadowCompare :=
  of_none rfl

theorem registerUpset (u : Upset) : Statement (.registerUpset u) :=
  of_none rfl

theorem globalEnWrite (w : Wr) : Statement (.globalEnWrite w) :=
  of_some rfl (by decide)

theorem tickRunSet (rq : Requester) (be : BitVec 4) : Statement (.tickRunSet rq be) :=
  of_some rfl (by decide)

theorem firstTickStart : Statement .firstTickStart :=
  of_none rfl

theorem tickRunClear (rq : Requester) (be : BitVec 4) : Statement (.tickRunClear rq be) :=
  of_some rfl (by decide)

theorem tickStopFlush : Statement .tickStopFlush :=
  of_none rfl

theorem tickBoundary : Statement .tickBoundary :=
  of_none rfl

theorem stagedConfigurationCommit : Statement .stagedConfigurationCommit :=
  of_none rfl

theorem controlLawEvaluation : Statement .controlLawEvaluation :=
  of_none rfl

theorem sequencerCommitOfOrders : Statement .sequencerCommitOfOrders :=
  of_none rfl

theorem loopSupervision : Statement .loopSupervision :=
  of_none rfl

theorem telemetrySnapshot : Statement .telemetrySnapshot :=
  of_none rfl

theorem ftLoad (rq : Requester) (be : BitVec 4) : Statement (.ftLoad rq be) :=
  of_some rfl (by decide)

theorem orderQueueArrival (hk : Option HkOrder) : Statement (.orderQueueArrival hk) :=
  of_none rfl

theorem stageSetArrival : Statement .stageSetArrival :=
  of_none rfl

theorem orderStart (seq : Fin 24) : Statement (.orderStart seq) :=
  of_none rfl

theorem orderStopNow (seq : Fin 24) : Statement (.orderStopNow seq) :=
  of_none rfl

theorem orderStopSegmentEnd (seq : Fin 24) : Statement (.orderStopSegmentEnd seq) :=
  of_none rfl

theorem orderJumpNow (seq : Fin 24) : Statement (.orderJumpNow seq) :=
  of_none rfl

theorem orderJumpSegmentEnd (seq : Fin 24) : Statement (.orderJumpSegmentEnd seq) :=
  of_none rfl

theorem orderSetFlag (seq : Fin 24) : Statement (.orderSetFlag seq) :=
  of_none rfl

theorem orderClearFlag (seq : Fin 24) : Statement (.orderClearFlag seq) :=
  of_none rfl

theorem orderNco (seq : Fin 24) : Statement (.orderNco seq) :=
  of_none rfl

theorem orderForceRelease (seq : Fin 24) : Statement (.orderForceRelease seq) :=
  of_none rfl

theorem orderForceSafe (seq : Fin 24) : Statement (.orderForceSafe seq) :=
  of_none rfl

theorem orderForceHold (seq : Fin 24) : Statement (.orderForceHold seq) :=
  of_none rfl

theorem eventInputEdge (input : Fin 16) (levels : BitVec 16) : Statement (.eventInputEdge input levels) :=
  of_none rfl

theorem jumpNow (seq : Fin 24) (trig : Fin 8) (sample : Fin 16) : Statement (.jumpNow seq trig sample) :=
  of_none rfl

theorem jumpSegEnd (seq : Fin 24) (trig : Fin 8) (sample : Fin 16) : Statement (.jumpSegEnd seq trig sample) :=
  of_none rfl

theorem setFlag (seq : Fin 24) (trig : Fin 8) (sample : Fin 16) : Statement (.setFlag seq trig sample) :=
  of_none rfl

theorem start (seq : Fin 24) (trig : Fin 8) (sample : Fin 16) : Statement (.start seq trig sample) :=
  of_none rfl

theorem stopNow (seq : Fin 24) (trig : Fin 8) (sample : Fin 16) : Statement (.stopNow seq trig sample) :=
  of_none rfl

theorem forceSafe (seq : Fin 24) (trig : Fin 8) (sample : Fin 16) : Statement (.forceSafe seq trig sample) :=
  of_none rfl

theorem forceRelease (seq : Fin 24) (trig : Fin 8) (sample : Fin 16) : Statement (.forceRelease seq trig sample) :=
  of_none rfl

theorem pllEnable (pll : Pll) (w : Wr) : Statement (.pllEnable pll w) :=
  of_some rfl (pll_row pll)

theorem pllDisable (pll : Pll) (w : Wr) : Statement (.pllDisable pll w) :=
  of_some rfl (pll_row pll)

theorem bandSearchDone (pll : Pll) (idle : Bool) (found : Option SearchResult) : Statement (.bandSearchDone pll idle found) :=
  of_none rfl

theorem pllLock (pll : Pll) (phaseErr : Word) : Statement (.pllLock pll phaseErr) :=
  of_none rfl

theorem acquireTimeout (pll : Pll) : Statement (.acquireTimeout pll) :=
  of_none rfl

theorem lockLoss (pll : Pll) (phaseErr : Word) : Statement (.lockLoss pll phaseErr) :=
  of_none rfl

theorem bypassRetry (pll : Pll) : Statement (.bypassRetry pll) :=
  of_none rfl

theorem referenceLoss (pll : Pll) (pin : RefPin) : Statement (.referenceLoss pll pin) :=
  of_none rfl

theorem referenceReturn (pll : Pll) (pin : RefPin) : Statement (.referenceReturn pll pin) :=
  of_none rfl

theorem holdoverExit (pll : Pll) (phaseDiff : BitVec 32) : Statement (.holdoverExit pll phaseDiff) :=
  of_none rfl

theorem holdMaxExpiry (pll : Pll) : Statement (.holdMaxExpiry pll) :=
  of_none rfl

theorem refselChange (pll : Pll) (w : Wr) (present : Bool) : Statement (.refselChange pll w present) :=
  of_some rfl (pll_row pll)

theorem spllSearch (w : Wr) : Statement (.spllSearch w) :=
  of_some rfl (by decide)

theorem bandTableLoad (w : Wr) : Statement (.bandTableLoad w) :=
  of_some rfl (by decide)

theorem fcwApply (pll : Pll) (rq : Requester) (be : BitVec 4) : Statement (.fcwApply pll rq be) :=
  of_some rfl (by cases pll <;> decide +kernel)

theorem hopRequest (w : Wr) : Statement (.hopRequest w) :=
  of_some rfl (by decide)

theorem hopDecision (qualified : Bool) : Statement (.hopDecision qualified) :=
  of_none rfl

theorem hopSwitchover : Statement .hopSwitchover :=
  of_none rfl

theorem phaseStepWrite (w : Wr) : Statement (.phaseStepWrite w) :=
  of_some rfl (by decide)

theorem clockOutputApply (w : Wr) : Statement (.clockOutputApply w) :=
  of_some rfl (by decide)

theorem clockOutputLive : Statement .clockOutputLive :=
  of_none rfl

theorem doorbell (ring : Fin 256) (be : BitVec 4) (value : Word) : Statement (.doorbell ring be value) :=
  of_none rfl

theorem doorbellOutside (ring : Fin 256) (offset : BitVec 12) (value : Word) : Statement (.doorbellOutside ring offset value) :=
  of_none rfl

theorem ringEnable (ring : Fin 256) (w : Wr) : Statement (.ringEnable ring w) :=
  of_some rfl (ring_row ring)

theorem ringDisable (ring : Fin 256) (w : Wr) : Statement (.ringDisable ring w) :=
  of_some rfl (ring_row ring)

theorem descriptorFetch (mem : FetchData) : Statement (.descriptorFetch mem) :=
  of_none rfl

theorem nop (ring : Fin 256) : Statement (.nop ring) :=
  of_none rfl

theorem write (ring : Fin 256) (payload : List Byte) : Statement (.write ring payload) :=
  of_none rfl

theorem read (ring : Fin 256) : Statement (.read ring) :=
  of_none rfl

theorem order (ring : Fin 256) : Statement (.order ring) :=
  of_none rfl

theorem stage (ring : Fin 256) (image : List (BitVec 64)) : Statement (.stage ring image) :=
  of_none rfl

theorem fence (ring : Fin 256) : Statement (.fence ring) :=
  of_none rfl

theorem send (ring : Fin 256) (payload : List Byte) : Statement (.send ring payload) :=
  of_none rfl

theorem fenceCompletion (ring : Fin 256) : Statement (.fenceCompletion ring) :=
  of_none rfl

theorem dmaCompletion (ring : Fin 256) (slot : BitVec 15) (rest : List Byte) : Statement (.dmaCompletion ring slot rest) :=
  of_none rfl

theorem hostFault (ring : Fin 256) (slot : BitVec 15) (cause : HostCause) : Statement (.hostFault ring slot cause) :=
  of_none rfl

theorem overflowRecord (ring : Fin 256) : Statement (.overflowRecord ring) :=
  of_none rfl

theorem msixAgeTimeout (ring : Fin 256) : Statement (.msixAgeTimeout ring) :=
  of_none rfl

theorem msixVectorUnmask (vector : Fin 512) (rq : Requester) (be : BitVec 4) : Statement (.msixVectorUnmask vector rq be) :=
  of_some rfl (by (revert vector; decide +kernel))

theorem bar4Read (addr : BitVec 27) (length : Nat) : Statement (.bar4Read addr length) :=
  of_none rfl

theorem bar4Write (addr : BitVec 27) (data : List Byte) : Statement (.bar4Write addr data) :=
  of_none rfl

theorem bar4Timeout (read : Bool) : Statement (.bar4Timeout read) :=
  of_none rfl

theorem d3hotEntry : Statement .d3hotEntry :=
  of_none rfl

theorem d0Return : Statement .d0Return :=
  of_none rfl

theorem dlDown : Statement .dlDown :=
  of_none rfl

theorem dlUp (gen : BitVec 3) (width : BitVec 5) : Statement (.dlUp gen width) :=
  of_none rfl

theorem firnAccessServed (bank : Fin 256) (reqs : List FirnReq) (flips : BitVec 576) : Statement (.firnAccessServed bank reqs flips) :=
  of_none rfl

theorem eccWriteBack : Statement .eccWriteBack :=
  of_none rfl

theorem rimeRegionStart : Statement .rimeRegionStart :=
  of_none rfl

theorem rimeCopyDone : Statement .rimeCopyDone :=
  of_none rfl

theorem rimeTestDone (mismatched : List MarchMiss) : Statement (.rimeTestDone mismatched) :=
  of_none rfl

theorem rimeRestoreDone : Statement .rimeRestoreDone :=
  of_none rfl

theorem rimeTimeout : Statement .rimeTimeout :=
  of_none rfl

theorem bankCopyStart : Statement .bankCopyStart :=
  of_none rfl

theorem bankCopySkip (rows : List (BitVec 13)) : Statement (.bankCopySkip rows) :=
  of_none rfl

theorem bankCopyDone : Statement .bankCopyDone :=
  of_none rfl

theorem firnCmdRepair (rq : Requester) (be : BitVec 4) (bank : BitVec 15) : Statement (.firnCmdRepair rq be bank) :=
  of_some rfl (by decide)

theorem firnCmdRetire (rq : Requester) (be : BitVec 4) (region : BitVec 15) : Statement (.firnCmdRetire rq be region) :=
  of_some rfl (by decide)

theorem morMapWrite (w : Wr) : Statement (.morMapWrite w) :=
  of_some rfl (by decide)

theorem morChannelEnable (ch : Fin 4) (w : Wr) : Statement (.morChannelEnable ch w) :=
  of_some rfl (by (revert ch; decide +kernel))

theorem morTrainingDone (ch : Fin 4) (result : TrainResult) : Statement (.morTrainingDone ch result) :=
  of_none rfl

theorem morRequest (ch : Fin 4) (req : MorReq) : Statement (.morRequest ch req) :=
  of_none rfl

theorem morReadReturn (ch : Fin 4) (flips : BitVec 640) : Statement (.morReadReturn ch flips) :=
  of_none rfl

theorem refreshDue (ch : Fin 4) (sub : Bool) (rank : Bool) : Statement (.refreshDue ch sub rank) :=
  of_none rfl

theorem rfm (ch : Fin 4) (bank : BitVec 7) : Statement (.rfm ch bank) :=
  of_none rfl

theorem selfRefreshEntry (ch : Fin 4) : Statement (.selfRefreshEntry ch) :=
  of_none rfl

theorem sre (ch : Fin 4) : Statement (.sre ch) :=
  of_none rfl

theorem srx (ch : Fin 4) : Statement (.srx ch) :=
  of_none rfl

theorem calibrationDue (ch : Fin 4) (kind : CalKind) : Statement (.calibrationDue ch kind) :=
  of_none rfl

theorem calibrationSkip (ch : Fin 4) (kind : CalKind) : Statement (.calibrationSkip ch kind) :=
  of_none rfl

theorem alertN (ch : Fin 4) : Statement (.alertN ch) :=
  of_none rfl

theorem replayEnd (ch : Fin 4) : Statement (.replayEnd ch) :=
  of_none rfl

theorem thNone (ch : Fin 4) (w : Wr) : Statement (.thNone ch w) :=
  of_some rfl (th_row ch)

theorem thWriteRead (ch : Fin 4) (w : Wr) : Statement (.thWriteRead ch w) :=
  of_some rfl (th_row ch)

theorem thReadCmp (ch : Fin 4) (w : Wr) : Statement (.thReadCmp ch w) :=
  of_some rfl (th_row ch)

theorem thWrite (ch : Fin 4) (w : Wr) : Statement (.thWrite ch w) :=
  of_some rfl (th_row ch)

theorem thMrw (ch : Fin 4) (w : Wr) : Statement (.thMrw ch w) :=
  of_some rfl (th_row ch)

theorem thMrr (ch : Fin 4) (w : Wr) : Statement (.thMrr ch w) :=
  of_some rfl (th_row ch)

theorem thMpc (ch : Fin 4) (w : Wr) : Statement (.thMpc ch w) :=
  of_some rfl (th_row ch)

theorem thCaSample (ch : Fin 4) (w : Wr) : Statement (.thCaSample ch w) :=
  of_some rfl (th_row ch)

theorem thWlSample (ch : Fin 4) (w : Wr) : Statement (.thWlSample ch w) :=
  of_some rfl (th_row ch)

theorem thDone (ch : Fin 4) (flips : List (Nat × BitVec 512)) (checkFlips : List (Nat × BitVec 128)) (feedback : Word) (mrr : BitVec 8) : Statement (.thDone ch flips checkFlips feedback mrr) :=
  of_none rfl

theorem streamOpen (str : Fin 32) (srcMa : BitVec 38) (length : Nat) (base : BitVec 15) (regions : BitVec 15) : Statement (.streamOpen str srcMa length base regions) :=
  of_none rfl

theorem streamReadIssue (str : Fin 32) : Statement (.streamReadIssue str) :=
  of_none rfl

theorem streamClose (str : Fin 32) : Statement (.streamClose str) :=
  of_none rfl

theorem morMapSwitch : Statement .morMapSwitch :=
  of_none rfl

theorem seqCtrlWrite (seq : Fin 24) (w : Wr) : Statement (.seqCtrlWrite seq w) :=
  of_some rfl (by (revert seq; decide +kernel))

theorem playEntry (seq : Fin 24) (late : Option Late) : Statement (.playEntry seq late) :=
  of_none rfl

theorem loopEntry (seq : Fin 24) : Statement (.loopEntry seq) :=
  of_none rfl

theorem endloopEntry (seq : Fin 24) : Statement (.endloopEntry seq) :=
  of_none rfl

theorem jumpEntry (seq : Fin 24) : Statement (.jumpEntry seq) :=
  of_none rfl

theorem waitEntry (seq : Fin 24) : Statement (.waitEntry seq) :=
  of_none rfl

theorem ncoEntry (seq : Fin 24) : Statement (.ncoEntry seq) :=
  of_none rfl

theorem endEntry (seq : Fin 24) : Statement (.endEntry seq) :=
  of_none rfl

theorem playEnd (seq : Fin 24) : Statement (.playEnd seq) :=
  of_none rfl

theorem burstOwnEnd (seq : Fin 24) : Statement (.burstOwnEnd seq) :=
  of_none rfl

theorem tableFetch (seq : Fin 24) : Statement (.tableFetch seq) :=
  of_none rfl

theorem slotWrite (seq : Fin 24) (slot : Fin 8) (w : Wr) : Statement (.slotWrite seq slot w) :=
  of_some rfl (by (revert seq slot; decide +kernel))

theorem slotPreloadDone (seq : Fin 24) (slot : Fin 8) : Statement (.slotPreloadDone seq slot) :=
  of_none rfl

theorem underrunEpisodeEnd (seq : Fin 24) : Statement (.underrunEpisodeEnd seq) :=
  of_none rfl

theorem markerSet (seq : Fin 24) (line : Fin 64) (sample : Fin 16) : Statement (.markerSet seq line sample) :=
  of_none rfl

theorem markerClear (seq : Fin 24) (line : Fin 64) (sample : Fin 16) : Statement (.markerClear seq line sample) :=
  of_none rfl

theorem markerToggle (seq : Fin 24) (line : Fin 64) (sample : Fin 16) : Statement (.markerToggle seq line sample) :=
  of_none rfl

theorem markerPulse (seq : Fin 24) (line : Fin 64) (sample : Fin 16) (width : BitVec 16) : Statement (.markerPulse seq line sample width) :=
  of_none rfl

theorem pulseEnd (line : Fin 64) : Statement (.pulseEnd line) :=
  of_none rfl

theorem jesdSyncHigh : Statement .jesdSyncHigh :=
  of_none rfl

theorem ilasEnd : Statement .ilasEnd :=
  of_none rfl

theorem jesdReinitRequest : Statement .jesdReinitRequest :=
  of_none rfl

theorem patternRegisterWrite (line : Fin 64) (reg : PatReg) (w : Wr) : Statement (.patternRegisterWrite line reg w) :=
  of_some rfl (by cases reg <;> (revert line; decide +kernel))

theorem patternPreloadDone (line : Fin 64) : Statement (.patternPreloadDone line) :=
  of_none rfl

theorem patternStart (line : Fin 64) (sample : Fin 16) : Statement (.patternStart line sample) :=
  of_none rfl

theorem patternWrap (line : Fin 64) : Statement (.patternWrap line) :=
  of_none rfl

theorem toothEdge (tracker : Fin 2) (since : BitVec 32) : Statement (.toothEdge tracker since) :=
  of_none rfl

theorem toothMiss (tracker : Fin 2) : Statement (.toothMiss tracker) :=
  of_none rfl

theorem intervalOverflow (tracker : Fin 2) : Statement (.intervalOverflow tracker) :=
  of_none rfl

theorem angleEventFire (event : Fin 32) (sample : Fin 16) : Statement (.angleEventFire event sample) :=
  of_none rfl

theorem freeRunEnd (tracker : Fin 2) : Statement (.freeRunEnd tracker) :=
  of_none rfl

theorem tlaShadowStore (w : Wr) : Statement (.tlaShadowStore w) :=
  of_some rfl (by decide)

theorem tlaCheck (rq : Requester) (be : BitVec 4) : Statement (.tlaCheck rq be) :=
  of_some rfl (by decide)

theorem checkDone : Statement .checkDone :=
  of_none rfl

theorem tlaSwap (rq : Requester) (be : BitVec 4) : Statement (.tlaSwap rq be) :=
  of_some rfl (by decide)

theorem tlaEnWrite (w : Wr) : Statement (.tlaEnWrite w) :=
  of_some rfl (by decide)

theorem seracWordScrub (flips : BitVec 72) : Statement (.seracWordScrub flips) :=
  of_none rfl

theorem seracPassEnd : Statement .seracPassEnd :=
  of_none rfl

theorem seracSkip : Statement .seracSkip :=
  of_none rfl

theorem seracVote (copy : Fin 3) (bit : Fin 64) : Statement (.seracVote copy bit) :=
  of_none rfl

theorem seracCheck : Statement .seracCheck :=
  of_none rfl

theorem coefficientWrite (slot : Fin 32) (w : Wr) : Statement (.coefficientWrite slot w) :=
  of_some rfl (by (revert slot; decide +kernel))

theorem coefficientSweep (slot : Fin 32) (set : Fin 8) (entry : Fin 224) (flips : BitVec 44) : Statement (.coefficientSweep slot set entry flips) :=
  of_none rfl

theorem qlinkAligned (link : Fin 2) : Statement (.qlinkAligned link) :=
  of_none rfl

theorem qlinkMultiblock (link : Fin 2) (crcOk : Bool) (samples : List (List (BitVec 18))) : Statement (.qlinkMultiblock link crcOk samples) :=
  of_none rfl

theorem qlinkLockLost (link : Fin 2) : Statement (.qlinkLockLost link) :=
  of_none rfl

theorem linkSignalDetect (link : Fin 8) : Statement (.linkSignalDetect link) :=
  of_none rfl

theorem linkTrained (link : Fin 8) : Statement (.linkTrained link) :=
  of_none rfl

theorem trainTimeout (link : Fin 8) : Statement (.trainTimeout link) :=
  of_none rfl

theorem hello (link : Fin 8) (dieId : BitVec 64) (peerLink : BitVec 3) (calDone : Bool) (cr : Credits) : Statement (.hello link dieId peerLink calDone cr) :=
  of_none rfl

theorem helloSend (link : Fin 8) : Statement (.helloSend link) :=
  of_none rfl

theorem helloTimeout (link : Fin 8) : Statement (.helloTimeout link) :=
  of_none rfl

theorem linkAck (link : Fin 8) (ackLseq : BitVec 8) (cr : Credits) : Statement (.linkAck link ackLseq cr) :=
  of_none rfl

theorem replayReq (link : Fin 8) (ackLseq : BitVec 8) (replayLseq : BitVec 8) (cr : Credits) : Statement (.replayReq link ackLseq replayLseq cr) :=
  of_none rfl

theorem idle (link : Fin 8) (cr : Credits) : Statement (.idle link cr) :=
  of_none rfl

theorem blockLockLost (link : Fin 8) : Statement (.blockLockLost link) :=
  of_none rfl

theorem timeSend (link : Fin 8) (txStamp : BitVec 64) : Statement (.timeSend link txStamp) :=
  of_none rfl

theorem time (link : Fin 8) (pkt : TimePkt) : Statement (.time link pkt) :=
  of_none rfl

theorem elect (link : Fin 8) (key : ElectKey) (dist : BitVec 5) : Statement (.elect link key dist) :=
  of_none rfl

theorem electionDecision : Statement .electionDecision :=
  of_none rfl

theorem discover (link : Fin 8) (gen : BitVec 16) (hop : BitVec 5) (path : List (BitVec 3)) : Statement (.discover link gen hop path) :=
  of_none rfl

theorem reportSend : Statement .reportSend :=
  of_none rfl

theorem report (h : Hdr) (pkt : ReportPkt) : Statement (.report h pkt) :=
  of_none rfl

theorem collectionEnd : Statement .collectionEnd :=
  of_none rfl

theorem config (h : Hdr) (gen : BitVec 16) (part : ConfigPart) : Statement (.config h gen part) :=
  of_none rfl

theorem configResend : Statement .configResend :=
  of_none rfl

theorem ack (h : Hdr) (gen : BitVec 16) (node : BitVec 64) : Statement (.ack h gen node) :=
  of_none rfl

theorem commit (link : Fin 8) (gen : BitVec 16) (commitFt : FT80) : Statement (.commit link gen commitFt) :=
  of_none rfl

theorem commitLive : Statement .commitLive :=
  of_none rfl

theorem beaconSend : Statement .beaconSend :=
  of_none rfl

theorem beacon (link : Fin 8) (gen : BitVec 16) (rootAddr : BitVec 12) (rootDie : BitVec 64) : Statement (.beacon link gen rootAddr rootDie) :=
  of_none rfl

theorem beaconLoss : Statement .beaconLoss :=
  of_none rfl

theorem joinTimeout : Statement .joinTimeout :=
  of_none rfl

theorem topo (h : Hdr) (gen : BitVec 16) (link : BitVec 3) (state : BitVec 3) : Statement (.topo h gen link state) :=
  of_none rfl

theorem launch (link : Fin 8) (pkt : LaunchPkt) : Statement (.launch link pkt) :=
  of_none rfl

theorem launchSendDone (ring : Fin 256) (slot : BitVec 15) : Statement (.launchSendDone ring slot) :=
  of_none rfl

theorem mail (link : Fin 8) (pkt : MailPkt) : Statement (.mail link pkt) :=
  of_none rfl

theorem mailLost (src : BitVec 12) (msgId : BitVec 16) : Statement (.mailLost src msgId) :=
  of_none rfl

theorem nak (link : Fin 8) (pkt : NakPkt) : Statement (.nak link pkt) :=
  of_none rfl

theorem ppsEdge (offset : BitVec 16) : Statement (.ppsEdge offset) :=
  of_none rfl

theorem ppsLost : Statement .ppsLost :=
  of_none rfl

theorem timeHoldEnd : Statement .timeHoldEnd :=
  of_none rfl

theorem nzlCmdElect (rq : Requester) (be : BitVec 4) : Statement (.nzlCmdElect rq be) :=
  of_some rfl (by decide)

theorem nzlCmdReenum (rq : Requester) (be : BitVec 4) : Statement (.nzlCmdReenum rq be) :=
  of_some rfl (by decide)

theorem faultDetection : Statement .faultDetection :=
  of_none rfl

theorem budgetWindowClose (cls : BitVec 8) (kind : BitVec 4) (index : Nat) : Statement (.budgetWindowClose cls kind index) :=
  of_none rfl

theorem drainWindowEnd (kind : BitVec 4) (index : BitVec 16) : Statement (.drainWindowEnd kind index) :=
  of_none rfl

theorem fltRetire (w : Wr) : Statement (.fltRetire w) :=
  of_some rfl (by decide)

theorem padMismatch (line : Fin 64) : Statement (.padMismatch line) :=
  of_none rfl

theorem serializerLockLoss (link : Fin 9) : Statement (.serializerLockLoss link) :=
  of_none rfl

theorem clearOnRead (offset : BitVec 25) (rq : Requester) (be : Rds) : Statement (.clearOnRead offset rq be) :=
  of_none rfl

theorem lostFlit (link : Fin 8) (kind : LostKind) : Statement (.lostFlit link kind) :=
  of_none rfl

theorem deadTimeEnd (pair : Fin 32) (high : Bool) (pending : Bool) : Statement (.deadTimeEnd pair high pending) :=
  of_none rfl

theorem minPulseEnd (pair : Fin 32) (high : Bool) : Statement (.minPulseEnd pair high) :=
  of_none rfl

theorem angleEventRearm (event : Fin 32) : Statement (.angleEventRearm event) :=
  of_none rfl

theorem serializerRelock (link : Fin 9) : Statement (.serializerRelock link) :=
  of_none rfl

theorem stampPathCalibration (link : Fin 8) : Statement (.stampPathCalibration link) :=
  of_none rfl

theorem supplyExcursion (supply : Fin 11) : Statement (.supplyExcursion supply) :=
  of_none rfl

theorem fullReset (w : Wr) : Statement (.fullReset w) :=
  of_some rfl (by decide)

theorem coreReset (w : Wr) : Statement (.coreReset w) :=
  of_some rfl (by decide)

theorem resetRelease (straps : BitVec 16) : Statement (.resetRelease straps) :=
  of_none rfl

theorem fwLoad (result : FlashResult) : Statement (.fwLoad result) :=
  of_none rfl

theorem hostBootGo (w : Wr) (crcOk : Bool) : Statement (.hostBootGo w crcOk) :=
  of_some rfl (by decide)

theorem baseReady (version : Word) (dimms : List DimmRead) : Statement (.baseReady version dimms) :=
  of_none rfl

theorem bringup (rq : Requester) (be : BitVec 4) (seq : BitVec 8) : Statement (.bringup rq be seq) :=
  of_some rfl (by decide)

theorem sysref (rq : Requester) (be : BitVec 4) (seq : BitVec 8) : Statement (.sysref rq be seq) :=
  of_some rfl (by decide)

theorem fixedTable (rq : Requester) (be : BitVec 4) (seq : BitVec 8) : Statement (.fixedTable rq be seq) :=
  of_some rfl (by decide)

theorem badOpcode (rq : Requester) (be : BitVec 4) (opcode : BitVec 8) (seq : BitVec 8) : Statement (.badOpcode rq be opcode seq) :=
  of_some rfl (by decide)

theorem thermalReading (temps : List (BitVec 12)) : Statement (.thermalReading temps) :=
  of_none rfl

theorem supplyMeasurement (millivolts : List (BitVec 16)) : Statement (.supplyMeasurement millivolts) :=
  of_none rfl

theorem por : Statement .por :=
  of_none rfl

theorem pcieReset : Statement .pcieReset :=
  of_none rfl

theorem firnInit : Statement .firnInit :=
  of_none rfl

theorem bringupStageTimeout : Statement .bringupStageTimeout :=
  of_none rfl

theorem sysrefEvent : Statement .sysrefEvent :=
  of_none rfl

theorem thermalTrip : Statement .thermalTrip :=
  of_none rfl

theorem tripRelease : Statement .tripRelease :=
  of_none rfl

theorem extest : Statement .extest :=
  of_none rfl

theorem samplePreload : Statement .samplePreload :=
  of_none rfl

theorem idcode : Statement .idcode :=
  of_none rfl

theorem clamp : Statement .clamp :=
  of_none rfl

theorem highz : Statement .highz :=
  of_none rfl

theorem bypass : Statement .bypass :=
  of_none rfl

theorem tapReset : Statement .tapReset :=
  of_none rfl

end Sys2Proof.Laws.Target
end

