-- ==== Sys2Proof/Laws/Still.lean ====
section
/-!
SUPPORT. Completing an order or a set leaves the time block as it is.
-/

namespace Sys2Proof.Machine

variable {tb : Time}

/-- The time block is as given. -/
structure Still (tb : Time) (s : State) : Prop where
  eq : s.time = tb

theorem still_upd {s : State} {regs shadow ctxs fresh landed top clk hif firn mor seqs tx mkr ang tla cle nzl flt hk pins free out readData}
    (h : Still tb s) : Still tb (State.mk regs shadow ctxs fresh landed top s.time clk hif firn mor seqs tx mkr ang tla cle nzl flt hk pins
      free out readData s.pending) := ⟨h.eq⟩

theorem still_upd.ite_of {c : Prop} [Decidable c] {A B : State} (hB : Still tb B) (hA : Still tb B → Still tb A) :
    Still tb (if c then A else B) := by
  split
  · exact hA hB
  · exact hB

theorem still_upd.ite_pair {α : Type} {c : Prop} [Decidable c] {A B : α × State} (hA : Still tb A.2) (hB : Still tb B.2) :
    Still tb (if c then A else B).2 := by
  split
  · exact hA
  · exact hB

theorem still_upd.of_pair {α : Type} {p : α × State} {x : α} {t : State} (hp : p = (x, t)) (h : Still tb p.2) : Still tb t := by
  rw [hp] at h
  exact h

theorem State.putReg_still {s : State} {a : Nat} {v : Word} (h : Still tb s) : Still tb (s.putReg a v) := ⟨h.eq⟩

theorem State.each_still {α : Type} {s : State} {l : List α} {f : State → α → State} (h : Still tb s)
    (hf : ∀ t x, Still tb t → Still tb (f t x)) : Still tb (s.each l f) := by
  unfold State.each
  induction l generalizing s with
  | nil => exact h
  | cons x l ih => exact ih (hf s x h)

theorem State.setRing_still {s : State} {n : Nat} {r : Ring} (hg : Still tb s) :
    Still tb (State.setRing s n r) := by
  unfold State.setRing
  repeat' with_reducible first
    | assumption | rfl | refine still_upd.of_pair (by assumption) ?_ | intro _ | apply still_upd.ite_of
    | apply still_upd.ite_pair | split | dsimp only | apply still_upd

theorem State.modRing_still {s : State} {n : Nat} {f : Ring → Ring} (hg : Still tb s) :
    Still tb (State.modRing s n f) := by
  unfold State.modRing
  repeat' with_reducible first
    | assumption | rfl | refine still_upd.of_pair (by assumption) ?_ | apply State.setRing_still | intro _
    | apply still_upd.ite_of | apply still_upd.ite_pair | split | dsimp only | apply still_upd

theorem State.emit_still {s : State} {o : Out} (hg : Still tb s) :
    Still tb (State.emit s o) := by
  unfold State.emit
  repeat' with_reducible first
    | assumption | rfl | refine still_upd.of_pair (by assumption) ?_ | intro _ | apply still_upd.ite_of
    | apply still_upd.ite_pair | split | dsimp only | apply still_upd

theorem State.bump_still {s : State} {a : Nat} (hg : Still tb s) :
    Still tb (State.bump s a) := by
  unfold State.bump
  repeat' with_reducible first
    | assumption | rfl | refine still_upd.of_pair (by assumption) ?_ | apply State.putReg_still | intro _
    | apply still_upd.ite_of | apply still_upd.ite_pair | split | dsimp only | apply still_upd

theorem State.msix_still {s : State} {v : Nat} (hg : Still tb s) :
    Still tb (State.msix s v) := by
  unfold State.msix
  repeat' with_reducible first
    | assumption | rfl | refine still_upd.of_pair (by assumption) ?_ | apply State.emit_still | intro _
    | apply still_upd.ite_of | apply still_upd.ite_pair | split | dsimp only | apply still_upd

theorem State.signalRing_still {s : State} {n : Nat} (hg : Still tb s) :
    Still tb (State.signalRing s n) := by
  unfold State.signalRing
  repeat' with_reducible first
    | assumption | rfl | refine still_upd.of_pair (by assumption) ?_ | apply State.msix_still
    | apply State.modRing_still | intro _ | apply still_upd.ite_of | apply still_upd.ite_pair | split | dsimp only
    | apply still_upd

theorem State.signalIf_still {s : State} {n : Nat} (hg : Still tb s) :
    Still tb (State.signalIf s n) := by
  unfold State.signalIf
  repeat' with_reducible first
    | assumption | rfl | refine still_upd.of_pair (by assumption) ?_ | apply State.signalRing_still | intro _
    | apply still_upd.ite_of | apply still_upd.ite_pair | split | dsimp only | apply still_upd

theorem State.writeSlot_still {s : State} {n : Nat} {k : Nat} {word : Nat} {twoStep : Bool} (hg : Still tb s) :
    Still tb (State.writeSlot s n k word twoStep) := by
  unfold State.writeSlot
  repeat' with_reducible first
    | assumption | rfl | refine still_upd.of_pair (by assumption) ?_ | apply State.emit_still
    | apply State.modRing_still | intro _ | apply still_upd.ite_of | apply still_upd.ite_pair | split | dsimp only
    | apply still_upd

theorem State.dropEntry_still {s : State} {n : Nat} (hg : Still tb s) :
    Still tb (State.dropEntry s n) := by
  unfold State.dropEntry
  repeat' with_reducible first
    | assumption | rfl | refine still_upd.of_pair (by assumption) ?_ | apply State.putReg_still | intro _
    | apply still_upd.ite_of | apply still_upd.ite_pair | split | dsimp only | apply still_upd

theorem State.postCpl_still {s : State} {n : Nat} {c : Cpl} (hg : Still tb s) :
    Still tb (State.postCpl s n c) := by
  unfold State.postCpl
  repeat' with_reducible first
    | assumption | rfl | refine still_upd.of_pair (by assumption) ?_ | apply State.dropEntry_still
    | apply State.writeSlot_still | apply State.signalIf_still | apply State.bump_still | apply State.modRing_still
    | intro _ | apply still_upd.ite_of | apply still_upd.ite_pair | split | dsimp only | apply still_upd

theorem State.modDesc_still {s : State} {ring : Nat} {slot : Nat} {f : Desc → Desc} (hg : Still tb s) :
    Still tb (State.modDesc s ring slot f) := by
  unfold State.modDesc
  repeat' with_reducible first
    | assumption | rfl | refine still_upd.of_pair (by assumption) ?_ | apply State.modRing_still | intro _
    | apply still_upd.ite_of | apply still_upd.ite_pair | split | dsimp only | apply still_upd

theorem State.dropDesc_still {s : State} {ring : Nat} {slot : Nat} (hg : Still tb s) :
    Still tb (State.dropDesc s ring slot) := by
  unfold State.dropDesc
  repeat' with_reducible first
    | assumption | rfl | refine still_upd.of_pair (by assumption) ?_ | apply State.modRing_still | intro _
    | apply still_upd.ite_of | apply still_upd.ite_pair | split | dsimp only | apply still_upd

theorem State.flushRing_still {s : State} {ring : Nat} {y0 : Nat} (hg : Still tb s) :
    Still tb (State.flushRing s ring y0) := by
  induction y0 generalizing s ring with
  | zero =>
    unfold State.flushRing
    repeat' with_reducible first
      | assumption | rfl | refine still_upd.of_pair (by assumption) ?_ | apply State.dropDesc_still
      | apply State.modDesc_still | apply State.postCpl_still | intro _ | apply still_upd.ite_of
      | apply still_upd.ite_pair | split | dsimp only | apply still_upd
  | succ k ih =>
    unfold State.flushRing
    repeat' with_reducible first
      | assumption | rfl | apply ih | refine still_upd.of_pair (by assumption) ?_ | apply State.dropDesc_still
      | apply State.modDesc_still | apply State.postCpl_still | intro _ | apply still_upd.ite_of
      | apply still_upd.ite_pair | split | dsimp only | apply still_upd

theorem State.complete_still {s : State} {ring : Nat} {d : Desc} {c : Cpl} (hg : Still tb s) :
    Still tb (State.complete s ring d c) := by
  unfold State.complete
  repeat' with_reducible first
    | assumption | rfl | refine still_upd.of_pair (by assumption) ?_ | apply State.flushRing_still
    | apply State.dropDesc_still | apply State.modDesc_still | apply State.postCpl_still | intro _
    | apply still_upd.ite_of | apply still_upd.ite_pair | split | dsimp only | apply still_upd

theorem State.lostCpl_still {s : State} {quiet : Bool} {status : Nat} (hg : Still tb s) :
    Still tb (State.lostCpl s quiet status) := by
  unfold State.lostCpl
  repeat' with_reducible first
    | assumption | rfl | refine still_upd.of_pair (by assumption) ?_ | apply State.bump_still | intro _
    | apply still_upd.ite_of | apply still_upd.ite_pair | split | dsimp only | apply still_upd

theorem State.finishOrd_still {s : State} {o : Ord} {status : Nat} {delay : Nat} {aux : Nat} {winSrc : Nat} {winNode
    : BitVec 12} (hg : Still tb s) :
    Still tb (State.finishOrd s o status delay aux winSrc winNode) := by
  unfold State.finishOrd
  repeat' with_reducible first
    | assumption | rfl | refine still_upd.of_pair (by assumption) ?_ | apply State.lostCpl_still
    | apply State.complete_still | apply State.postCpl_still | apply State.bump_still | intro _
    | apply still_upd.ite_of | apply still_upd.ite_pair | split | dsimp only | apply still_upd

theorem State.setCpl_still {s : State} {x : SSet} {status : Nat} {delay : Nat} {aux : Nat} {split : Bool} {ticks :
    Nat} (hg : Still tb s) :
    Still tb (State.setCpl s x status delay aux split ticks) := by
  unfold State.setCpl
  repeat' with_reducible first
    | assumption | rfl | refine still_upd.of_pair (by assumption) ?_ | apply State.lostCpl_still
    | apply State.complete_still | intro _ | apply still_upd.ite_of | apply still_upd.ite_pair | split | dsimp only
    | apply still_upd

end Sys2Proof.Machine
end

