-- ==== Sys2Proof/Tests/Slice0.lean ====
section
/-!
SUPPORT. Own tests: one ill-formed command for each check of WellFormed, a state and operands for the hypotheses of each
statement of Certificates/Slice0/Obligations.lean, and figures of the spec.
-/

namespace Sys2Proof.Tests

set_option Elab.async false

open Sys2Proof Sys2Proof.Machine Sys2Proof.Safety

/-! States. -/

/-- A part that runs: no reset is held, the firmware runs, the BARs decode, and every clock comes from its PLL. -/
def up : State :=
  { State.reset with
    hk := { State.reset.hk with inReset := none, stage := 4, fw := true }
    pins := { State.reset.pins with porN := true }
    hif := { State.reset.hif with decoding := true, up := true }
    clk := { State.reset.clk with
      spll := { PllS.reset with st := .locked, refOk := true }
      mpll := { PllS.reset with st := .locked, refOk := true }
      fpll := { PllS.reset with st := .locked, refOk := true }
      hpll := { PllS.reset with st := .locked, refOk := true }
      everLocked := true, spllXo := false, spllStopped := false, hpllXo := false, mpllXo := false, fpllXo := false
      fpllStopped := false, point := ⟨64, 0, 1, 0⟩, fcw := (⟨64, 0, 1, 0⟩ : Point).fcw48 }
    time := { State.reset.time with inc := (⟨64, 0, 1, 0⟩ : Point).inc } }

/-- A part in which a requester's unlock is armed in a window. -/
def armed (s : State) (win : Nat) (rq : Requester) : State := s.modCtx win rq (fun c => { c with arm := true })

/-- A part in which a tick runs, in its core cycle `c`. -/
def ticking (s : State) (c : Nat) : State :=
  { s.putReg wTime 1 with time := { s.time with ftValid := true, running := true, core := 1000 + c, cycle := c, ft := 2 ^ 64 } }

/-- The row of a register. -/
def row (a : Nat) : RegRow := (rowOf a).getD ⟨0, 0, 0, false, false, []⟩

/-- The checks of Takes, as a Bool. -/
def takesB (s : State) (rq : Requester) (a q : Nat) (v : Word) : Bool :=
  let r := row a
  (rowOf a).isSome && decide (a % 4 = 0) && decide (q < 4) && s.reaches rq && !s.outside a && (decide (q = 0) || r.aliases) &&
    decide (r.mask .rw ||| r.requestMask ≠ 0) && (!r.guarded || (s.ctx (a / 0x10000) rq).arm) &&
    r.encOk (r.written q (s.reg a) v).2 &&
    decide ((armSpent s rq (a / 0x10000) r.guarded).blockRule a (r.written q (s.reg a) v).2 .direct = none)

/-- What takesB answers. -/
theorem takes_of {s : State} {rq : Requester} {a q : Nat} {v : Word} (h : takesB s rq a q v = true) :
    Takes s rq a q (row a) v := by
  simp only [takesB, Bool.and_eq_true, decide_eq_true_eq, Bool.not_eq_true', Bool.or_eq_true] at h
  obtain ⟨⟨⟨⟨⟨⟨⟨⟨⟨h1, h2⟩, h3⟩, h4⟩, h5⟩, h6⟩, h7⟩, h8⟩, h9⟩, h10⟩ := h
  refine ⟨?_, h2, h3, h4, h5, h6, h7, ?_, h9, h10⟩
  · obtain ⟨r, hr⟩ := Option.isSome_iff_exists.mp h1
    simp [row, hr]
  · intro hg
    rcases h8 with h8 | h8
    · rw [hg] at h8; cases h8
    · exact h8

/-- The checks of Written, as a Bool. -/
def writtenB (s : State) (w : Wr) (a : Nat) (v : Word) : Bool :=
  decide (w.be = 0xF) && takesB s w.rq a 0 v && !(scopesOf a).any s.scopeGone && decide (s.landedOver a (landRank w.rq) = (0, 0))

/-- What writtenB answers. -/
theorem written_of {s : State} {w : Wr} {a : Nat} {v : Word} (h : writtenB s w a v = true) : Written s w a (row a) v := by
  simp only [writtenB, Bool.and_eq_true, decide_eq_true_eq, Bool.not_eq_true'] at h
  exact ⟨h.1.1.1, takes_of h.1.1.2, h.1.2, h.2⟩

/-- A full host write. -/
def wr (v : Word) : Wr := ⟨.host, 0xF, v⟩

/-! The block as a whole, and register access (chapter 02). -/

theorem witness_StepOnEmptyQueue : State.reset.pending = [] ∧ State.reset.hk.inReset = some .por ∧
    (let s := { up with clk := { up.clk with spllXo := true, xoLost := true } }
     s.pending = [] ∧ s.hk.inReset = none ∧ s.clk.spllXo = true ∧ s.clk.xoLost = true) := by decide

theorem witness_EveryStepKeepsTables : ∃ t, Tab.wf regDefault up.regs = true ∧ Tab.wf regDefault up.shadow = true ∧
    Tab.wf (fun _ => (0 : Byte)) up.firn.mem = true ∧ step { up with pending := [.outsideWrite 0x280000 (wr 0)] } = .next t :=
  ⟨_, by decide, by decide, by decide, rfl⟩

theorem witness_StrapChanges : ∃ t, exec (.resetRelease 0x1234) State.reset = .next t ∧ t.top.strap ≠ State.reset.top.strap :=
  ⟨_, rfl, by decide⟩

/-- TOP_SCRATCH through its toggle alias, the last quarter, with the arm set, which the write wastes. -/
theorem witness_AcceptedWrite : Takes (armed up 0 .host) .host (wTop + 0x14) 3 (row (wTop + 0x14)) 0xFFFFFFFF ∧
    Last (armed up 0 .host) .host (wTop + 0x14) := ⟨takes_of (by decide), by unfold Last; decide⟩

/-- TOP_GLOBAL_EN is guarded; CLK_SPLL_STEP_RAMP has a range; TOP_ID has no writable field. -/
theorem witness_DiscardedWrite : up.reaches .host = true ∧ up.outside 0x4020 = false ∧
    rowOf (baseOf (0x4020 / 4 * 4)) = some (row (wTop + 0x20)) ∧ (row (wTop + 0x20)).guarded = true ∧
    (row (wTop + 0x20)).mask .rw ||| (row (wTop + 0x20)).requestMask ≠ 0 ∧ (up.ctx 0 .host).arm = false ∧
    (let r := row (wTime + 4)
     let s := armed up 2 .host
     s.outside (wTime + 4) = false ∧ rowOf (baseOf ((wTime + 4) / 4 * 4)) = some r ∧ (s.ctx 2 .host).arm = true ∧
       r.aliases = false ∧ r.mask .rw ||| r.requestMask ≠ 0 ∧ r.encOk (r.written 0 (s.reg (wTime + 4)) 99).2 = false ∧
       r.encOk (r.written 0 (s.reg (wTime + 4)) 100).2 = true) ∧
    (row wTop).mask .rw ||| (row wTop).requestMask = 0 ∧ rowOf (baseOf (wTop / 4 * 4)) = some (row wTop) := by decide

/-- The offset after the last window. -/
theorem witness_OutsideAccess : up.reaches (wr 0).rq = true ∧ isWindow ((0x280000 : BitVec 25).toNat / 0x10000) = false ∧
    isWindow 0x27 = true ∧ isWindow 0x0D = false ∧ isWindow 0x0F = false := by decide

theorem witness_UnlockKey : up.reaches .housekeeping = true ∧ up.outside ((0x27 : BitVec 8).toNat * 0x10000) = false ∧
    (armed up 0x27 .housekeeping).outside ((0x27 : BitVec 8).toNat * 0x10000) = false := by decide

theorem witness_WideValue : up.reaches .host = true ∧ up.outside ((0 : BitVec 8).toNat * 0x10000) = false ∧
    (let s := up.modCtx 0 .host (fun c => { c with pendingCapture := true })
     (s.ctx ((0 : BitVec 8).toNat) .host).pendingCapture = true ∧ s.windowStopped 0 = false) ∧
    (let s := up.modCtx 0 .host (fun c => { c with valid := true })
     s.reaches .host = true ∧ (s.ctx ((0 : BitVec 8).toNat) .host).valid = true) ∧
    (up.ctx ((0 : BitVec 8).toNat) .host).valid = false := by decide

/-- FIRN_EVENTS in its last byte lane, with a bit set in this core cycle. -/
theorem witness_ReadClears : let s := (up.putReg aFirnEvents 0xFF).freshen aFirnEvents 1
    s.reaches .host = true ∧ s.outside aFirnEvents = false ∧ quarterOf aFirnEvents = 0 ∧
      rowOf (aFirnEvents / 4 * 4) = some (row aFirnEvents) ∧ s.freshAt aFirnEvents = 1 := by decide

/-- A part whose TOP_GLOBAL_EN has lost a bit that its shadow holds. -/
def upsetGlobal : State := (up.setReg (wTop + 0x20) 3).putReg (wTop + 0x20) 1

theorem shadow_agrees (b : Nat) : up.reg b = up.shadowAt b := rfl

theorem upsetGlobal_others (b : Nat) (h : b ≠ wTop + 0x20) : upsetGlobal.reg b = upsetGlobal.shadowAt b := by
  have h1 : upsetGlobal.reg b = (up.setReg (wTop + 0x20) 3).reg b := State.reg_putReg_ne _ _ h
  have h2 : upsetGlobal.shadowAt b = (up.setReg (wTop + 0x20) 3).shadowAt b := rfl
  rw [h1, h2, State.reg_setReg_ne _ _ h, State.shadowAt_setReg_ne _ _ h, shadow_agrees]

theorem witness_Upset : rowOf (baseOf (wTop + 0x14) / 4 * 4) = some (row (wTop + 0x14)) ∧
    isWindow (baseOf (wTop + 0x14) / 4 * 4 / 0x10000) = true ∧
    bitOf ((row (wTop + 0x14)).mask .rw ||| (row (wTop + 0x14)).mask .rc) 31 = true ∧
    levelDriven (baseOf (wTop + 0x14) / 4 * 4) = false ∧ isWindow ((0x27 : BitVec 8).toNat) = true := by decide

theorem witness_ShadowRepair : upsetGlobal.hk.fw = true ∧ rowOf (wTop + 0x20) = some (row (wTop + 0x20)) ∧
    (row (wTop + 0x20)).guarded = true ∧ upsetGlobal.windowStopped ((wTop + 0x20) / 0x10000) = false ∧
    levelDriven (wTop + 0x20) = false ∧
    (upsetGlobal.reg (wTop + 0x20) ^^^ upsetGlobal.shadowAt (wTop + 0x20)) &&& (row (wTop + 0x20)).mask .rw ≠ 0 := by decide

theorem witness_GlobalEnable : Takes (armed up 0 .host) .host (wTop + 0x20) 0 (row (wTop + 0x20)) 3 ∧
    Last (armed up 0 .host) .host (wTop + 0x20) := ⟨takes_of (by decide), by unfold Last; decide⟩

/-! The tick and fabric time (chapter 03). -/

theorem witness_TickRunSet : Takes (armed { up with time := { up.time with ftValid := true } } 2 .host) .host wTime 0 (row wTime) 1 ∧
    Last (armed up 2 .host) .host wTime := ⟨takes_of (by decide), by unfold Last; decide⟩

theorem witness_TickRunClear : Takes (armed (ticking up 5) 2 .host) .host wTime 0 (row wTime) 0 ∧
    Last (armed (ticking up 5) 2 .host) .host wTime ∧ Live (armed (ticking up 5) 2 .host) wTime :=
  ⟨takes_of (by decide), by unfold Last; decide, by unfold Live; decide⟩

theorem witness_FtLoad : Takes (armed up 2 .host) .host (wTime + 0x2C) 0 (row (wTime + 0x2C)) 1 ∧
    Live (armed up 2 .host) (wTime + 0x2C) := ⟨takes_of (by decide), by unfold Live; decide⟩

theorem witness_FtLoadIgnored : let s := armed { up with time := { up.time with locked := true } } 2 .host
    s.reaches .host = true ∧ s.outside (wTime + 0x2C) = false ∧ rowOf (wTime + 0x2C) = some (row (wTime + 0x2C)) ∧
      (s.ctx 2 .host).arm = true ∧ s.mayLoad = false := by decide

theorem witness_Pass : up.time.adjust = none ∧ ({ up.time with adjust := some 5 }).load = false := by decide

/-- A core cycle inside a tick, and its last one. -/
theorem witness_CoreCycle : (ticking up 63).coreHeld = false ∧ (ticking up 63).time.running = true ∧
    (ticking up 63).time.cycle + 1 < (ticking up 63).time.period ∧
    (ticking up 399).time.period ≤ (ticking up 399).time.cycle + 1 := by decide

theorem witness_CoreCycleNoReset : (ticking up 63).coreCycle.hk.inReset = none ∧ (ticking up 399).coreCycle.hk.inReset = none := by
  set_option maxRecDepth 100000 in decide +kernel

/-- The last core cycle before the end of the first phase, and before the end of the fifth in a longer tick. -/
theorem witness_TickRows : (ticking up 63).time.phasesDone = 0 ∧ (ticking up 63).time.bound 0 = (ticking up 63).time.cycle + 1 ∧
    (ticking up 399).time.period = (ticking up 399).time.cycle + 1 ∧
    (let s := { ticking up 111 with time := { (ticking up 111).time with phasesDone := 4 } }
     s.coreHeld = false ∧ s.time.running = true ∧ s.time.bound 4 = s.time.cycle + 1 ∧ s.time.cycle + 1 < s.time.period) ∧
    (let s := { up.putReg wTime 1 with time := { up.time with ftValid := true } }
     s.time.running = false ∧ s.flag wTime 0 = true ∧ s.coreHeld = false ∧ s.tickDue = true ∧ s.time.flush = none) ∧
    ({ up with time := { up.time with flush := some 7 } }).time.flush = some 7 := by decide

/-- A part whose sequencers are on and idle, in a tick. -/
def onAir : State := (List.range 24).foldl (fun s n => s.modSeq n (fun q => { q with st := .idle })) (ticking up 63)

/-- An order of housekeeping on the highest channel, at once. -/
def hkOrder : HkOrder := ⟨true, 0, 4, 0x800000, 1⟩

/-- One target of an order of the host. -/
def order (n lane : Nat) (action : BitVec 128) : Ord :=
  { src := .host, ring := 0, slot := 0, tag := 0, intr := false, quiet := false, node := 0, oseq := 0, prio := 0, chan := n
    lane := lane, action := action, t := none, arrival := 0, remote := false, tick := none }

/-- A part in whose tick an order waits to act. -/
def won (s : State) (o : Ord) : State := { s with time := { s.time with acting := [Acting.ofOrd o] } }

theorem witness_OrderArrives : onAir.coreHeld = false ∧ hkOrder.lane.toNat < 5 ∧ actionBad hkOrder.lane.toNat hkOrder.action = false ∧
    hkOrder.seqMask = BitVec.ofNat 24 (2 ^ 23) ∧
    (∃ tick, onAir.ordTests { order 23 4 1 with src := .housekeeping, node := onAir.node, arrival := onAir.now } 0 0 = .ok tick) := by
  refine ⟨by decide, by decide, by decide, by decide, _, rfl⟩

/-- A set of one entry, at once. -/
def oneSet : Machine.SSet := ⟨.host, 0, 0, 0, false, false, true, 0, [0x0000000500020004], none, 0⟩

theorem witness_InboundArrives : let i : Inbound := ⟨order 0 4 1, 0x800001, 5⟩
    let s := { onAir with time := { onAir.time with inbound := [i] } }
    s.time.inbound = [i] ∧ i.due ≤ s.now := by decide

theorem witness_SetArrives : let i : InSet := ⟨oneSet, 1, 5⟩
    let s := { onAir with time := { onAir.time with inSets := [i] } }
    s.time.inSets = [i] ∧ i.due ≤ s.now ∧ setFault i.count i.set.entries = none ∧ i.set.asap = true ∧ s.time.sets.length < 16 := by
  decide

theorem witness_Precedence : let a : Ord := { order 0 4 1 with src := .fabric, prio := 1, oseq := 0 }
    let b : Ord := { order 0 4 2 with src := .fabric, prio := 1, oseq := 0xFFFFFFFF }
    (order 0 4 1).src ≠ a.src ∧ a.src = .fabric ∧ b.src = .fabric ∧ a.prio = b.prio ∧ a.node = b.node ∧
      1 ≤ (a.oseq - b.oseq).toNat ∧ (a.oseq - b.oseq).toNat < 2 ^ 31 ∧ a.node.toNat < ({ b with node := 1 } : Ord).node.toNat ∧
      b.prio < ({ a with prio := 2 } : Ord).prio ∧ (order 0 4 1).src ≠ .fabric ∧
      (order 0 4 1).arrival < ({ order 0 4 1 with arrival := 1 } : Ord).arrival ∧
      (order 0 4 1).ring < ({ order 0 4 1 with ring := 1 } : Ord).ring ∧ (onAir.seq (order 23 4 1).chan).st ≠ .off := by decide

/-! Orders and triggers at their effect samples (chapters 03, 08 and 09). -/

/-- Ready, as a Bool. -/
def readyB (s : State) (n lane : Nat) (a : Acting) : Bool :=
  decide (s.winner n lane = some a) && decide (s.ordEdge a.ord / 16 ≤ s.now)

/-- What readyB answers. -/
theorem ready_of {s : State} {n lane : Nat} {a : Acting} (h : readyB s n lane a = true) : Ready s n lane a := by
  simp only [readyB, Bool.and_eq_true, decide_eq_true_eq] at h
  exact ⟨h.1, h.2⟩

/-- A start at entry 7 that loads the phase and names an end of its own. -/
def startOrder : Ord := order 23 lStart (7 + 2 ^ 20 + 2 ^ 21 + 0x1000 * 2 ^ 24)

theorem witness_StartOrder : Ready (won onAir startOrder) 23 lStart (Acting.ofOrd startOrder) ∧
    ((won onAir startOrder).seq 23).st = .idle ∧
    (won onAir startOrder).stopAt 23 ((won onAir startOrder).ordEdge startOrder) = false :=
  ⟨ready_of (by decide), by decide, by decide⟩

theorem witness_StartOwnEnd : let s := won onAir startOrder
    let e := s.ordEdge startOrder
    (ownEndOf startOrder.action (startOrder.t.getD (s.ft80OfEdge e))).all
      (fun f => decide (e < s.sampleUp 23 (s.edgeOfFt f))) = true := by
  set_option maxRecDepth 100000 in decide +kernel

/-- A start whose own end is its sample; and one on an OFF channel. -/
theorem witness_EmptyBurst : let o := order 0 lStart (7 + 2 ^ 21)
    let s := won onAir o
    s.seqLives 0 = true ∧ (ownEndOf o.action (o.t.getD (s.ft80OfEdge (s.ordEdge o)))).any
      (fun f => decide (s.sampleUp 0 (s.edgeOfFt f) ≤ s.ordEdge o)) = true ∧ (won (ticking up 63) o).seqLives 0 = false := by
  set_option maxRecDepth 100000 in decide +kernel

/-- The part with channel n in a burst. -/
def running (s : State) (n : Nat) : State := s.modSeq n (fun q => { q with st := .run, bnd := s.fastNow 0 })

theorem witness_StopJump : Ready (won (running onAir 23) (order 23 lStop 0)) 23 lStop (Acting.ofOrd (order 23 lStop 0)) ∧
    Ready (won (running onAir 23) (order 23 lStop 1)) 23 lStop (Acting.ofOrd (order 23 lStop 1)) ∧
    Ready (won (running onAir 23) (order 23 lJump 7)) 23 lJump (Acting.ofOrd (order 23 lJump 7)) ∧
    Ready (won (running onAir 23) (order 23 lJump (2 ^ 21))) 23 lJump (Acting.ofOrd (order 23 lJump (2 ^ 21))) ∧
    Ready (won onAir (order 0 lStop 1)) 0 lStop (Acting.ofOrd (order 0 lStop 1)) ∧
    Ready (won onAir (order 0 lJump (2 ^ 21))) 0 lJump (Acting.ofOrd (order 0 lJump (2 ^ 21))) :=
  ⟨ready_of (by decide), ready_of (by decide), ready_of (by decide), ready_of (by decide), ready_of (by decide), ready_of (by decide)⟩

theorem witness_StopJumpStates : let s := won (running onAir 23) (order 23 lJump 7)
    let e := s.ordEdge (order 23 lJump 7)
    (s.seq 23).st = .run ∧ ((s.keepLast 23 e).seq 23).bursting = true ∧ s.startAt 23 e = false ∧
      bits ((2 : BitVec 128) ^ 21) 21 2 = 1 := by
  set_option maxRecDepth 100000 in decide +kernel

theorem witness_FlagNcoForce : Ready (won onAir (order 23 lJump (2 * 2 ^ 21 + 7 * 2 ^ 16))) 23 lJump
      (Acting.ofOrd (order 23 lJump (2 * 2 ^ 21 + 7 * 2 ^ 16))) ∧
    Ready (won onAir (order 23 lNco (BitVec.ofNat 128 (2 ^ 122)))) 23 lNco (Acting.ofOrd (order 23 lNco (BitVec.ofNat 128 (2 ^ 122)))) ∧
    Ready (won onAir (order 23 lForce 2)) 23 lForce (Acting.ofOrd (order 23 lForce 2)) ∧
    Ready (won (ticking up 63) (order 23 lForce 1)) 23 lForce (Acting.ofOrd (order 23 lForce 1)) :=
  ⟨ready_of (by decide), ready_of (by decide), ready_of (by decide), ready_of (by decide)⟩

theorem witness_FlagStates : onAir.seqLives 23 = true ∧ (ticking up 63).seqLives 23 = false ∧ (onAir.seq 23).waiting = none ∧
    bits (2 * 2 ^ 21 + 7 * 2 ^ 16 : BitVec 128) 21 2 = 2 ∧ bits (3 * 2 ^ 21 : BitVec 128) 21 2 = 3 ∧
    (let s := onAir.modSeq 23 (fun q => { q with st := .wait, waiting := some ⟨7, true, false⟩ })
     (s.seq 23).st = .wait ∧ (s.seq 23).waiting = some ⟨7, true, false⟩ ∧
       bits (2 * 2 ^ 21 + 7 * 2 ^ 16 : BitVec 128) 16 3 = 7) := by decide

/-- A trigger action on its way to sequencer 23, decoded and judged. -/
def action (a arg : Nat) : Sched := ⟨0, 1000, 15, 23, 7, a, arg, true⟩

/-- A part with trigger actions on their way. -/
def pulled (s : State) (x : Sched) : State := { s with mkr := { s.mkr with sched := [x] } }

/-- The checks of Due, as a Bool. -/
def dueB (s : State) (n t a i : Nat) (x : Sched) : Bool :=
  decide (s.trigDue n t a i = some x) && decide (s.mkr.sched.find? (fun y => y.same x) = some x) &&
    decide (s.schedEdge x / 16 ≤ s.now)

/-- What dueB answers. -/
theorem due_of {s : State} {n t a i : Nat} {x : Sched} (h : dueB s n t a i x = true) : Due s n t a i x := by
  simp only [dueB, Bool.and_eq_true, decide_eq_true_eq] at h
  exact ⟨h.1.1, h.1.2, h.2⟩

/-- What the checks of Fires give. -/
theorem fires_of {s : State} {n t a i : Nat} {x : Sched} (h : dueB s n t a i x = true) (hl : s.seqRetired n = false)
    (hm : muted s n x = false) : Fires s n t a i x ((judged s x).override .event n (trigLane a) (s.schedEdge x)) :=
  ⟨due_of h, hl, hm, rfl⟩

theorem witness_Triggers : ∀ a, a < 7 → ∃ u, Fires (pulled (running onAir 23) (action a 3)) 23 7 a 15 (action a 3) u := by
  intro a ha
  have h : ∀ a, a < 7 → dueB (pulled (running onAir 23) (action a 3)) 23 7 a 15 (action a 3) = true ∧
      (pulled (running onAir 23) (action a 3)).seqRetired 23 = false ∧
      muted (pulled (running onAir 23) (action a 3)) 23 (action a 3) = false := by
    set_option maxRecDepth 100000 in decide +kernel
  obtain ⟨h1, h2, h3⟩ := h a ha
  exact ⟨_, fires_of h1 h2 h3⟩

/-- On a retired channel, and behind a fault's action on the same target. -/
theorem witness_TriggersKept : let x := action 3 0
    let s := (pulled onAir x)
    let r : State := { s with flt := { s.flt with retired := Tab.set (fun _ => false) s.flt.retired (uPrec * 65536 + 15) true } }
    let m : State := { s with time := { s.time with imm := [⟨.fault, 23, lStart, s.schedEdge x, 0, false⟩] } }
    dueB r 23 7 3 15 x = true ∧ r.seqRetired 23 = true ∧ dueB m 23 7 3 15 x = true ∧ m.seqRetired 23 = false ∧
      muted m 23 x = true := by decide

/-- An enabled event input's pin that rises at sample 3, and an edge of it that is to be decoded for a trigger that takes it. -/
theorem witness_EventInput : let s := (up.putReg (aTrig 23 7) (0x80000000 + 2 ^ 21 + 15 * 2 ^ 23 + 3 * 2 ^ 18))
    let x : TEdge := ⟨0, 15, true, s.now + 6, 3, false⟩
    let t := { s with mkr := { s.mkr with edges := [x] } }
    s.coreHeld = false ∧ bitOf (s.einCfg 15) 31 = false ∧ x ∈ t.mkr.edges ∧ x.decoded = false ∧ x.due = t.now + 6 ∧
      trigTakes (t.reg (aTrig 23 7)) x.kind x.index x.rise = true ∧
      (∀ j, j < 16 → bitOf (0xFFF8 : BitVec 16) j = einSeen 0x80000000 (bitOf (0xFFF8 : BitVec 16) j)) := by decide
/-! Clocks (chapter 04). -/

/-- A part whose unlock is armed in CLK and whose PLL p stands in a state. -/
def pllIn (p : Pll) (st : PSt) : State := (armed up 3 .host).setPll p { PllS.reset with st := st, refOk := true }

/-- What Quiet asks, of a part whose housekeeping stands as that of `up`. -/
theorem quiet_of {s : State} (h : s.hk = up.hk) : Quiet s := ⟨by rw [h]; rfl, by rw [h]; decide⟩

theorem witness_PllEnable : Quiet (pllIn .spll .off) ∧
    Written (pllIn .spll .off) (wr 0) (aPll .spll) (row (aPll .spll)) (fixed (wr 0) 1 1).value :=
  ⟨quiet_of rfl, written_of (by decide)⟩

theorem witness_PllEnableState : let s := pllIn .spll .off
    bitOf (s.reg (aPll .spll)) 0 = false ∧ (s.pll .spll).st = .off ∧ (s.pll .spll).refOk = true ∧
      bits ((wrote s .host (aPll .spll) (row (aPll .spll)) (fixed (wr 0) 1 1).value).reg (aPll .spll)) 14 6 =
        bits (s.reg (aPll .spll)) 14 6 := by decide

/-- A PLL that acquires, with its ENABLE set and its consumers on the XO. -/
def acquiring : State :=
  let s := (pllIn .spll .acquire).setReg (aPll .spll) 1
  { s with clk := { s.clk with spllXo := true, spllStopped := true } }

theorem witness_PllDisable : Written acquiring (wr 0) (aPll .spll) (row (aPll .spll)) (fixed (wr 0) 1 0).value :=
  written_of (by decide)

theorem witness_PllDisableState : let s := acquiring
    s.hk = up.hk ∧ bitOf (s.reg (aPll .spll)) 0 = true ∧ (s.pll .spll).st ≠ .locked ∧ s.clk.spllXo = true ∧
      bits ((wrote s .host (aPll .spll) (row (aPll .spll)) (fixed (wr 0) 1 0).value).reg (aPll .spll)) 14 6 =
        bits (s.reg (aPll .spll)) 14 6 ∧
      (s.pll .spll).st = .acquire ∧ (s.pll .spll).timeouts = 0 ∧
      1 ≤ ((s.setPll .spll { PllS.reset with st := .acquire, timeouts := 1 }).pll .spll).timeouts := by decide

/-- An error at the lock window, and one beyond it. -/
theorem witness_PllLock : (64 : Word).toInt.natAbs ≤ acquiring.lockWin .spll ∧ acquiring.lockWin .spll < (65 : Word).toInt.natAbs ∧
    ((pllIn .mpll .search).pll .mpll).st = .search ∧
    (let s := { up with clk := { up.clk with spllDue := true } }
     s.clk.spllDue = true ∧ s.clk.ramp = none ∧ s.clk.hop = none) := by decide

/-- An error at the unlock window, and one beyond it; HOLD_MAX; a retry. -/
theorem witness_LossOfLock : ((pllIn .spll .locked).pll .spll).st = .locked ∧ ((pllIn .spll .locked).pll .spll).refOk = true ∧
    (256 : Word).toInt.natAbs ≤ (pllIn .spll .locked).unlockWin .spll ∧
    (pllIn .spll .locked).unlockWin .spll < (-257 : Word).toInt.natAbs ∧
    (let s := (pllIn .fpll .holdover).setReg (aPll .fpll) 0x00100001
     (s.pll .fpll).st = .holdover ∧ s.fld (aPll .fpll) 20 4 ≠ 0) ∧ (pllIn .fpll .holdover).fld (aPll .fpll) 20 4 = 0 ∧
    ((pllIn .hpll .bypass).pll .hpll).st = .bypass ∧ ((pllIn .hpll .bypass).pll .hpll).refOk = true := by decide

theorem witness_References : (pllIn .fpll .locked).hk = up.hk ∧ (pllIn .fpll .locked).refsel .fpll ≠ 1 ∧
    (pllIn .fpll .locked).nzl.st ≠ .root ∧ (pllIn .fpll .locked).nzl.st ≠ .enum ∧ ((pllIn .fpll .locked).pll .fpll).refOk = true ∧
    (let s := (pllIn .fpll .off).setReg (aPll .fpll) 1
     (s.pll .fpll).st = .off ∧ s.pllOn .fpll = true ∧ s.refsel .fpll ≠ 1) ∧
    ((pllIn .spll .holdover).pll .spll).st = .holdover := by decide

theorem witness_RefselChange : Written (pllIn .fpll .locked) (wr 0x4000) (aPll .fpll) (row (aPll .fpll)) 0x4000 ∧
    Written (pllIn .spll .locked) (wr 0x4000) (aPll .spll) (row (aPll .spll)) 0x4000 :=
  ⟨written_of (by decide), written_of (by decide)⟩

theorem witness_RefselBits : let s := pllIn .fpll .locked
    let u := wrote s .host (aPll .fpll) (row (aPll .fpll)) 0x4000
    bits (u.reg (aPll .fpll)) 14 2 ≠ bits (s.reg (aPll .fpll)) 14 2 ∧
      bitOf (u.reg (aPll .fpll)) 0 = bitOf (s.reg (aPll .fpll)) 0 := by decide

/-- A locked SPLL with a point of the band table's last entry and load words. -/
def tuned : State :=
  let s := armed up 3 .host
  let e : BitVec 128 := foundEntry ⟨81, 23, 25, 0⟩ ⟨1, 2, 3, 4⟩
  let s := { s with clk := { s.clk with table := Tab.set (fun _ => 0) s.clk.table 63 e } }
  ((s.setReg (wClk + 0x120) (e.setWidth 32)).setReg (wClk + 0x124) ((e >>> 32).setWidth 32)).setReg (wClk + 0x128)
    ((e >>> 64).setWidth 32)

theorem witness_SpllControls :
    Written tuned (wr 63) (wClk + 0x104) (row (wClk + 0x104)) (fixed (wr 63) 0x80000000 0x80000000).value ∧
    Written tuned (wr 62) (wClk + 0x130) (row (wClk + 0x130)) (fixed (wr 62) 0x80000000 0x80000000).value ∧
    Written tuned (wr 1) (aPll .spll + 0x10) (row (aPll .spll + 0x10)) 1 ∧
    Written tuned (wr 1) (aPll .mpll + 0x10) (row (aPll .mpll + 0x10)) 1 ∧
    Written tuned (wr 63) (wClk + 0x100) (row (wClk + 0x100)) (fixed (wr 63) 0x80000000 0x80000000).value ∧
    Written tuned (wr 0x8000) (wClk + 0x10C) (row (wClk + 0x10C)) 0x8000 ∧
    Written tuned (wr 0xFFF) (wClk + 0x280) (row (wClk + 0x280)) 0xFFF :=
  ⟨written_of (by decide), written_of (by decide), written_of (by decide), written_of (by decide), written_of (by decide),
    written_of (by decide), written_of (by decide)⟩

theorem witness_PhaseStepIgnored : let s := { tuned with time := { tuned.time with locked := true } }
    s.reaches .host = true ∧ s.outside wClk = false ∧ (s.ctx 3 .host).arm = true ∧ tuned.time.locked = false ∧
      tuned.clk.idle = .free := by decide

/-- A hop at its decision and at its W, and outputs that wait. -/
def hopping (q : Bool) : State := { tuned with
  time := { tuned.time with ft := 40960 * 2 ^ 32 }, clk := { tuned.clk with hop := some ⟨0, 63, 40960 * 2 ^ 32, q⟩, idle := .hop } }

theorem witness_Hops : (hopping false).clk.hop = some ⟨0, 63, 40960 * 2 ^ 32, false⟩ ∧
    (40960 * 2 ^ 32 : FTime).toNat - 40960 * 2 ^ 32 ≤ (hopping false).ftN ∧
    (hopping true).clk.hop = some ⟨0, 63, 40960 * 2 ^ 32, true⟩ ∧ (40960 * 2 ^ 32 : FTime).toNat ≤ (hopping true).ftN ∧
    (hopping true).clk.spllXo = false ∧
    (let s := { ticking up 0 with clk := { up.clk with applyMask := 0x801 } }
     s.clk.applyMask ≠ 0 ∧ s.time.running = true ∧ s.time.cycle = 0) := by decide
/-! Host interface (chapter 05). -/

/-- HIF_RING_CFG of a ring of 16 entries of a class, with a CPL ring. -/
def ringCfg (cls cpl : Nat) : Word := BitVec.ofNat 32 (cpl * 2 ^ 24 + 2 ^ 16 + 16 * 2 ^ 10 + 4 * 2 ^ 4 + cls * 2 + 1)

/-- A part with an INGEST ring 0, its CPL ring 1, an EVT ring 2, a CMD ring 3 and a MAIL_TX ring 4, all enabled. -/
def hosted : State :=
  [(0, cIngest), (1, cCpl), (2, cEvt), (3, cCmd), (4, cMailTx)].foldl
    (fun s x => s.setReg (aRingCfg x.1) (ringCfg x.2 1)) (armed up 1 .host)

/-- A descriptor's 64 bytes: its kind, the phase of its slot, and what else it says. -/
def descWord (kind : Nat) (rest : Nat) : BitVec 512 := BitVec.ofNat 512 (kind * 2 ^ 56 + 2 ^ 63 + rest)

/-- A WRITE or READ of 64 bytes between host address 4,032 and Firn's word 5. -/
def moveRest : Nat := 4032 * 2 ^ 128 + 320 * 2 ^ 192 + 64 * 2 ^ 256

/-- A part that has fetched one descriptor from ring n. -/
def fetched (n : Nat) (w : BitVec 512) (f : Desc → Desc) : State := hosted.modRing n (fun r => { r with
  descs := [f (hosted.newDesc n w)], prod := 1, cons := 1 })

theorem witness_Doorbells : hosted.reaches .host = true ∧ hosted.runs cHif = true ∧ hosted.isRetired uRing 0 = false ∧
    hosted.ringOn 0 = true ∧ bits (0x8000 : Word) 0 15 < hosted.ringSize 0 ∧ hosted.ringHost 0 = true ∧
    ringDist 16 (hosted.ring 0).cons (hosted.ring 0).prod ≤ ringDist 16 (hosted.ring 0).cons 16 ∧
    ringDist 16 (hosted.ring 0).cons 16 ≤ 16 ∧ bits (0 : Word) 0 15 + (if bitOf (0 : Word) 15 then 0 else 16) = 16 ∧
    hosted.ringOn 1 = true ∧ hosted.ringHost 1 = false ∧ hosted.ringOn 255 = false ∧ hosted.isRetired uRing 255 = false ∧
    hosted.flag (aRingStat 255) 4 = false ∧ (hosted.putReg (aRingStat 255) 16).flag (aRingStat 255) 4 = true ∧
    hosted.flag (wHif + 0x60) 8 = false ∧ hosted.flag (wHif + 0x40) 31 = false ∧ (4 : BitVec 12).toNat / 4 ≠ 0 := by
  set_option maxRecDepth 100000 in decide +kernel

theorem witness_RingEnable :
    Written hosted (wr (ringCfg cCpl 7)) (aRingCfg 255) (row (aRingCfg 255)) (fixed (wr (ringCfg cCpl 7)) 1 1).value ∧
    bitOf (hosted.reg (aRingCfg 255)) 0 = false ∧
    Written hosted (wr (ringCfg cIngest 1)) (aRingCfg 0) (row (aRingCfg 0)) (fixed (wr (ringCfg cIngest 1)) 1 0).value :=
  ⟨written_of (by set_option maxRecDepth 100000 in decide +kernel), by set_option maxRecDepth 100000 in decide +kernel, written_of (by set_option maxRecDepth 100000 in decide +kernel)⟩

theorem witness_Fetch : let s := hosted.modRing 0 (fun r => { r with prod := 1 })
    s.runs cHif = true ∧ s.hif.up = true ∧ s.hif.d3hot = false ∧ s.fetchPick = some (0, false) ∧
      1 ≤ ringDist (s.ringSize 0) (s.ring 0).cons (s.ring 0).prod ∧
      bitOf (descWord 1 moveRest) 63 = phaseAt (s.ringSize 0) (s.ring 0).cons ∧ bits (descWord 1 moveRest) 56 4 < 7 ∧
      (s.newDesc 0 (descWord 1 moveRest)).need ≤ s.cplRoom (s.cplRing 0) ∧
      bitOf (0 : BitVec 512) 63 ≠ phaseAt (s.ringSize 0) (s.ring 0).cons ∧ State.reset.hif.up = false := by
  set_option maxRecDepth 100000 in decide +kernel

/-- A descriptor past its deadline, one with a faulty word, and one of each kind that is admitted. -/
theorem witness_Admission : let nop := fetched 0 (descWord 0 0) id
    let late := { fetched 0 (descWord 1 (moveRest + 2 ^ 64)) id with
      time := { up.time with ftValid := true, ft := 1000000000 * 2 ^ 32 } }
    let fence := fetched 3 (descWord 5 0) id
    let stage := fetched 3 (descWord 4 (24 * 2 ^ 192)) id
    nop.runs cHif = true ∧ nop.oldest 0 0 = some (hosted.newDesc 0 (descWord 0 0)) ∧
      nop.refuses 0 (hosted.newDesc 0 (descWord 0 0)) = none ∧ nop.hasCredit 0 = true ∧
      (late.refuses 0 (hosted.newDesc 0 (descWord 1 (moveRest + 2 ^ 64)))).isSome = true ∧
      (late.oldest 0 1).isSome = true ∧
      fence.refuses 3 (hosted.newDesc 3 (descWord 5 0)) = none ∧ (fence.oldest 3 5).isSome = true ∧
      stage.refuses 3 (hosted.newDesc 3 (descWord 4 (24 * 2 ^ 192))) = none ∧ (stage.oldest 3 4).isSome = true := by
  set_option maxRecDepth 100000 in decide +kernel

/-- An ORDER at once to sequencer 23, one with a faulty lane, a FENCE that waits, and an admitted WRITE. -/
def orderRest : Nat := 2 ^ 49 + 4 * 2 ^ 217 + 2 ^ (224 + 23) + 2 ^ 288

theorem witness_Orders : let s := fetched 3 (descWord 3 orderRest) id
    let d := hosted.newDesc 3 (descWord 3 orderRest)
    s.oldest 3 3 = some d ∧ d.fault (s.ringClass 3) = none ∧ s.isRetired uRing 3 = false ∧ s.hasCredit 3 = true ∧
      d.fabric = false ∧ d.chans = [23] ∧
      ((s.modDesc 3 d.slot (fun d => { d with st := .admitted })).ordTests
        { s.descOrd 3 { d with st := .admitted } 23 with arrival := max (d.arrived + 24) s.now }
          (max (d.arrived + 24) s.now - s.now) 0).toBool = true ∧
      ((hosted.newDesc 3 (descWord 3 (orderRest + 2 ^ 217))).fault cCmd) = some 6 := by
  set_option maxRecDepth 100000 in decide +kernel

theorem witness_FenceAndFault : let s := fetched 3 (descWord 5 0) (fun d => { d with st := .admitted })
    let t := fetched 0 (descWord 1 moveRest) (fun d => { d with st := .admitted })
    ((s.ring 3).descs.map (fun d => (d.kind, decide (d.st = .admitted)))) = [(5, true)] ∧
      (t.descAt 0 0 (fun d => d.st == .admitted && d.kind == 1)).isSome = true := by
  set_option maxRecDepth 100000 in decide +kernel

theorem witness_WriteMoves : let s := fetched 0 (descWord 1 moveRest) id
    let d := hosted.newDesc 0 (descWord 1 moveRest)
    s.runs cHif = true ∧ s.refuses 0 d = none ∧ s.oldest 0 1 = some d ∧ s.hasCredit 0 = true ∧ s.desc? 0 d.slot = some d ∧
      d.mor = false ∧ d.length = 64 ∧ d.moved = 0 ∧
      (((s.modDesc 0 d.slot (fun _ => { d with st := .admitted, left := 64 })).issueReads 240).desc? 0 d.slot).any
        (fun e => decide (64 ≤ e.asked)) = true ∧
      s.firnGone (d.fld 192 38 / 64) = false := by
  set_option maxRecDepth 100000 in decide +kernel

theorem witness_ReadMoves : let s := fetched 0 (descWord 2 moveRest) id
    let d := hosted.newDesc 0 (descWord 2 moveRest)
    s.runs cHif = true ∧ s.refuses 0 d = none ∧ s.oldest 0 2 = some d ∧ s.hasCredit 0 = true ∧ s.desc? 0 d.slot = some d ∧
      d.mor = false ∧ d.length = 64 ∧ d.moved = 0 ∧ d.fld 128 64 % 4096 ≤ 4032 ∧ s.takeFlag 39 (d.fld 192 38 / 64) = none ∧
      s.firnGone (d.fld 192 38 / 64) = false ∧ s.firnPoison (d.fld 192 38 / 64) = false :=
  ⟨by set_option maxRecDepth 100000 in decide +kernel, by set_option maxRecDepth 100000 in decide +kernel, by set_option maxRecDepth 100000 in decide +kernel, by set_option maxRecDepth 100000 in decide +kernel, by set_option maxRecDepth 100000 in decide +kernel, by set_option maxRecDepth 100000 in decide +kernel, by set_option maxRecDepth 100000 in decide +kernel, by set_option maxRecDepth 100000 in decide +kernel, by set_option maxRecDepth 100000 in decide +kernel, rfl, by set_option maxRecDepth 100000 in decide +kernel, by set_option maxRecDepth 100000 in decide +kernel⟩

theorem witness_DataEnds : let s := fetched 0 (descWord 2 moveRest) (fun d => { d with st := .admitted, moved := 64, left := 0 })
    (s.descAt 0 0 (fun d => d.st == .admitted && (d.moves || d.kind == 6))).any (fun d => decide (d.kind = 2) && decide (d.left = 0) &&
      decide ((s.readTurn 0 d.slot 512).desc? 0 d.slot = some d) && decide (d.deadline = 0)) = true := by
  set_option maxRecDepth 100000 in decide +kernel

/-- A SEND to node 5 from a part that is outside any fabric, and from a member to itself. -/
theorem witness_Send : let w := descWord 6 (4032 * 2 ^ 128 + 8 * 2 ^ 192 + 5 * 2 ^ 224)
    let s := fetched 4 w id
    let d := hosted.newDesc 4 w
    let m : State := { s with nzl := { s.nzl with st := .member, cfg := { s.nzl.cfg with addr := 5 } } }
    s.refuses 4 d = none ∧ s.oldest 4 6 = some d ∧ s.hasCredit 4 = true ∧ d.length = 8 ∧ d.fld 224 16 = 5 ∧
      s.sendTest 5 = some (sNoRoute, 0xFFFFFFFF) ∧ m.refuses 4 d = none ∧ m.oldest 4 6 = some d ∧ m.sendTest 5 = none := by
  set_option maxRecDepth 100000 in decide +kernel

/-- A completion. -/
def cpl (quiet : Bool) : Cpl := ⟨1, 2, 0, 0, 0, 0, false, false, 0, 0, 3, 0, 0, 5, false, quiet⟩

theorem witness_Completions : (cpl true).status = 0 ∧ (cpl true).quiet = true ∧ (cpl false).quiet = false ∧ hosted.hif.up = true ∧
    hosted.isRetired uRing 1 = false ∧ hosted.ringTakes 1 cCpl = true ∧ hosted.ringFree 1 ≠ 0 ∧ hosted.flag wHif 0 = false ∧
    hosted.flag (aRingIrq 1) 31 = false ∧ hosted.ringTakes 0 cCpl = false ∧
    (let s := hosted.modRing 2 (fun r => { r with dropped := 7, prod := 14 })
     (s.ring 2).dropped ≠ 0 ∧ s.ringTakes 2 cEvt = true ∧ 2 ≤ s.ringFree 2 ∧ s.ringFree 2 = 2) ∧
    (hosted.ring 2).dropped = 0 := by
  set_option maxRecDepth 100000 in decide +kernel

theorem witness_AgeAndUnmask : (let s := (hosted.putReg (aRingIrq 1) 0x80000001).modRing 1 (fun r => { r with oldest := some 0 })
     { s with time := { s.time with ft := 1024001 * 2 ^ 32 } }.ageDue 1 = true) ∧
    Written hosted ⟨.host, 0xF, 0⟩ (wHif + 0x180C + 16 * 511) (row (wHif + 0x180C + 16 * 511)) 0 ∧
    bitOf (hosted.reg (wHif + 0x180C + 16 * 511)) 0 = true ∧
    Tab.get (fun _ => false) ({ hosted.hif with pba := Tab.set (fun _ => false) hosted.hif.pba 511 true }).pba 511 = true :=
  ⟨by set_option maxRecDepth 100000 in decide +kernel, written_of (by set_option maxRecDepth 100000 in decide +kernel), by set_option maxRecDepth 100000 in decide +kernel, by set_option maxRecDepth 100000 in decide +kernel⟩

/-- The last bytes of Firn, over whose end an access wraps; a link of the widest kind, and one of none. -/
theorem witness_Bar4 : hosted.reaches .host = true ∧ hosted.runs cHif = true ∧
    (∀ i, i < 64 → hosted.firnGone (((0x7FFFFE0 : BitVec 27).toNat + i) / 64 % 2 ^ 21) = false ∧
      hosted.firnPoison (((0x7FFFFE0 : BitVec 27).toNat + i) / 64 % 2 ^ 21) = false) ∧ (∀ x ∈ hosted.firn.flags, x.1 ≠ 39) ∧
    ([1] : List Byte) ≠ [] ∧ ([1] : List Byte).length < 64 ∧ (0x7FFFFFF : BitVec 27).toNat % 64 + ([1] : List Byte).length ≤ 64 ∧
    (let s : State := { hosted with flt := { hosted.flt with
      retired := Tab.set (fun _ => false) hosted.flt.retired (uRegion * 65536 + 32767) true } }
     s.firnGone ((0x7FFFFFF : BitVec 27).toNat / 64) = true) ∧
    hosted.flag (wHif + 0x40) 31 = false ∧ hosted.hk.inReset = none ∧ linkTrains 5 16 = true ∧ linkTrains 6 16 = false ∧
    linkTrains 5 3 = false ∧ ({ hosted.hif with d3hot := true }).d3hot = true := by
  set_option maxRecDepth 100000 in decide +kernel
/-! Firn and Moraine (chapters 06 and 07). -/

/-- An access of a port to row 8,191 of its bank. -/
def access (port : Fin 40) (write : Option (BitVec 512)) : FirnReq := ⟨port, 0x1FFF, write, 3⟩

/-- A part some core cycles after reset. -/
def later : State := { up with time := { up.time with core := 100000 } }

/-- A part whose word 2,097,151 is stored poisoned, or whose write-back queue holds it. -/
def poisoned : State := { up with firn := { up.firn with poison := Tab.set (fun _ => false) up.firn.poison 2097151 true } }

theorem witness_FirnBankCycle : up.firnPick 255 [access 39 none, access 0 none] = some (access 0 none) ∧
    up.runs cFirn = true ∧ up.firn.rime.st = .idle ∧ up.firn.copy = none ∧ portRank 0 = 1 ∧ portRank 39 = 6 ∧ portRank 38 = 5 ∧
    Tab.get (fun _ => 0) up.firn.hold (255 * 64 + 0) ≤ up.bankNow 255 ∧ up.firnGone 2097151 = false ∧
    up.firnPoison 2097151 = false ∧ poisoned.firnPoison 2097151 = true ∧ eccCheck 0 = some [] ∧
    (eccCheck 1).any (fun l => l.length = 1) = true ∧ eccCheck 3 = none ∧
    ({ up with firn := { up.firn with wbQueue := [2097151] } }).firn.wbQueue = [2097151] := by
  set_option maxRecDepth 100000 in decide +kernel

/-- A part whose Rime stands in a phase in the last region, since core cycle 0. -/
def riming (st : RimeSt) (done : BitVec 64) : State := { later.putReg wFirn 1 with firn := { later.firn with
  rime := { Rime.reset with st := st, region := 32767, regionAt := some 0, saved := done, restored := done } } }

theorem witness_Rime : let s := riming .idle 0
    s.runs cFirn = true ∧ s.flag wFirn 0 = true ∧ s.copyWants = false ∧ s.isRetired uRegion s.firn.next = false ∧ s.rimeDue ≤ s.now ∧
    up.flag wFirn 0 = false ∧
    (∀ st ∈ [RimeSt.copy, .test, .restore], (riming st 0).runs cFirn = true ∧ (riming st 0).firn.rime.bad = [] ∧
      (riming st 0).firn.rime.late = [] ∧
      (riming st 0).coreOfBank 64 ≤ (riming st 0).rimeLimit ∧ (riming st 0).coreOfBank 64 ≤ (riming st 0).now ∧
      (riming st 0).coreOfBank (riming st 0).marchOps.length ≤ (riming st 0).rimeLimit ∧
      (riming st 0).coreOfBank (riming st 0).marchOps.length ≤ (riming st 0).now ∧
      (riming st 0).rimeLimit ≤ (riming st 0).now ∧ (riming st (BitVec.allOnes 64)).firn.rime.saved = BitVec.allOnes 64) ∧
    (riming .test 0).marchReads ⟨1, 63⟩ = true := by
  set_option maxRecDepth 100000 in decide +kernel

/-- A part that waits to repair bank 255, and one that copies it to spare 7. -/
def repairing (c : Option Copy) : State := { later with firn := { later.firn with copyWait := [255], copy := c } }

theorem witness_BankRepair : let s := armed later 4 .host
    Written s ⟨.host, 0xF, 0x40000000 ||| (255 : BitVec 15).setWidth 32⟩ (wFirn + 0x14) (row (wFirn + 0x14))
      (0x40000000 ||| (255 : BitVec 15).setWidth 32) ∧
    Written s ⟨.host, 0xF, 0x80000000 ||| (0x7FFF : BitVec 15).setWidth 32⟩ (wFirn + 0x14) (row (wFirn + 0x14))
      (0x80000000 ||| (0x7FFF : BitVec 15).setWidth 32) ∧
    s.freeSpare = some 0 ∧ s.firn.copy = none ∧ s.firn.copyWait = [] ∧ s.isRetired uRegion 0x7FFF = false ∧
    (repairing none).freeSpare = some 0 ∧ (repairing none).firn.copyWait = [255] ∧
    (let c : Copy := ⟨255, 7, [8191], [], [], 0⟩
     (repairing (some c)).firn.copy = some c ∧ c.at_ + (repairing (some c)).rimeLimit ≤ (repairing (some c)).now ∧
       ∀ x, x ∈ c.todo ↔ x ∈ [(0x1FFF : BitVec 13)].map (fun r => r.toNat)) :=
  ⟨written_of (by set_option maxRecDepth 100000 in decide +kernel), written_of (by set_option maxRecDepth 100000 in decide +kernel), by set_option maxRecDepth 100000 in decide +kernel, by set_option maxRecDepth 100000 in decide +kernel, by set_option maxRecDepth 100000 in decide +kernel, by set_option maxRecDepth 100000 in decide +kernel, by set_option maxRecDepth 100000 in decide +kernel, by set_option maxRecDepth 100000 in decide +kernel, by set_option maxRecDepth 100000 in decide +kernel,
    by set_option maxRecDepth 100000 in decide +kernel, by simp⟩

/-- A DIMM of 16 GiB at 4,800 MT/s. -/
def dimm : Dimm := ⟨true, false, false, false, false, 48, false⟩

/-- A part whose four channels are in one state, with that DIMM and a map over the active ones. -/
def fitted (st : ChSt) (f : Chan → Chan) : State :=
  { armed later 5 .host with mor := { later.mor with
      chans := [0, 1, 2, 3].map (fun k => (k, f { Chan.reset with
        st := st, dimm := dimm, timing := (List.range 26).map (fun i => (i, 4)) }))
      active := if st = .active then [0, 1, 2, 3] else [], capacity := 2 ^ 34, fenced := false } }

/-- The value of a GO of the training helper. -/
def goOf (op : Nat) : Wr := fixed (wr 0) 0x8F000000 (BitVec.ofNat 32 (2 ^ 31 + op * 2 ^ 24))

theorem witness_MoraineTrains : let s := fitted .train id
    Written (fitted .off id) (wr 5) wMor (row wMor) 5 ∧
    Written (fitted .off id) (fixed (wr 0) 1 1) (aCh 3) (row (aCh 3)) (fixed (wr 0) 1 1).value ∧
    bitOf ((fitted .off id).reg (aCh 3)) 0 = false ∧ ((fitted .off id).chan 3).st = .off ∧
    ((fitted .off id).chan 3).dimm.capGiB.isSome = true ∧ (fitted .off id).isRetired uDram 3 = false ∧
    s.runs cMor = true ∧ s.hk.bring = none ∧ (s.chan 3).st = .train ∧ (∀ i, i < 26 → (s.chan 3).tim i ≠ 0) ∧
    s.clk.mpll.st ≠ .bypass ∧ s.mor.fenced = false ∧ s.mor.recovering = false :=
  ⟨written_of (by set_option maxRecDepth 100000 in decide +kernel), written_of (by set_option maxRecDepth 100000 in decide +kernel), by set_option maxRecDepth 100000 in decide +kernel, by set_option maxRecDepth 100000 in decide +kernel, by set_option maxRecDepth 100000 in decide +kernel, by set_option maxRecDepth 100000 in decide +kernel, by set_option maxRecDepth 100000 in decide +kernel, by set_option maxRecDepth 100000 in decide +kernel, by set_option maxRecDepth 100000 in decide +kernel,
    by set_option maxRecDepth 100000 in decide +kernel, by set_option maxRecDepth 100000 in decide +kernel, by set_option maxRecDepth 100000 in decide +kernel, by set_option maxRecDepth 100000 in decide +kernel⟩

theorem witness_TrainingHelper : ∀ op, op < 9 → op ≠ 0 →
    Written (fitted .train id) (goOf op) (aCh 3 + 0x100) (row (aCh 3 + 0x100)) (goOf op).value := by
  intro op h h0
  have a : ∀ op, op < 9 → op ≠ 0 → writtenB (fitted .train id) (goOf op) (aCh 3 + 0x100) (goOf op).value = true := by
    set_option maxRecDepth 100000 in decide +kernel
  exact written_of (a op h h0)

theorem witness_TrainingHelperRest : let s := fitted .train id
    let r := row (aCh 3 + 0x100)
    s.reaches .host = true ∧ s.outside (aCh 3 + 0x100) = false ∧ (s.ctx 5 .host).arm = true ∧ rowOf (aCh 3 + 0x100) = some r ∧
    r.encOk (r.written 0 (s.reg (aCh 3 + 0x100)) (goOf 0).value).2 = true ∧
    (∀ op, op < 9 → ((fitted .train (fun c => { c with th := some ⟨op, true, false, 0, 1, 0, []⟩ })).chan 3).th =
      some ⟨op, true, false, 0, 1, 0, []⟩) ∧ s.morDrains = false ∧
    (let d : Drain := ⟨uDram, 3, 0, 0⟩
     let t : State := { fitted .active id with
       mor := { (fitted .active id).mor with fenced := true }, flt := { s.flt with draining := [d] } }
     t.runs cMor = true ∧ t.flt.draining.filter (fun d => d.kind == uDram) = [d] ∧ t.mor.fenced = true ∧
       t.mor.recovering = false ∧ t.morBusy = false) := by
  set_option maxRecDepth 100000 in decide +kernel

/-- A write-queue entry, and a read in flight whose burst has come, of the last burst of a channel. -/
def mwr (sent : Option Nat) : MorWr := ⟨2 ^ 38 - 64, 7, 0, 0, sent⟩
def mrd (src : MorSource) : MorRd := ⟨⟨src, 0x3FFFFFFFC0, none⟩, 0, 0, some 7, 0⟩

theorem witness_MoraineServes : let s := fitted .active id
    let full := fitted .active (fun c => { c with writes := (List.range 48).map (fun i => ⟨64 * i, 0, 0, 0, none⟩) })
    let q := fitted .active (fun c => { c with writes := [mwr none] })
    let rd := fitted .active (fun c => { c with reads := [mrd (.stream 31)] })
    s.runs cMor = true ∧ s.mor.fenced = false ∧ (s.chan 3).waiting = [] ∧ (s.chan 3).writes.length < 48 ∧
      (∃ e ∈ (q.chan 3).writes, e.ca = (0x3FFFFFFFFF : BitVec 38).toNat / 64 * 64 ∧ e.sent = none) ∧
      48 ≤ (full.chan 3).writes.length ∧ (s.chan 3).reads.length < 64 ∧
      (∀ st ∈ [ChSt.replay, .selfRefresh, .srEntry], (fitted st id).runs cMor = true ∧ ((fitted st id).chan 3).st = st) ∧
      s.isRetired uDram 3 = false ∧ s.clk.mpll.st ≠ .bypass ∧ s.mor.recovering = false ∧
      (rd.chan 3).nextReturn = some (mrd (.stream 31)) ∧ (rd.chan 3).tck = 0 ∧ rd.chanRuns 3 = true ∧ (rd.chan 3).waiting = [] ∧
      rd.admitted (fun d => d.st == .admitted && d.kind == 2 && bitOf d.word 255 && decide (d.asked < d.fld 256 32)) = [] ∧
      (let off := fitted .off (fun c => { c with reads := [mrd (.stream 31)] })
       (off.chan 3).nextReturn = some (mrd (.stream 31)) ∧ off.chanRuns 3 = false) := by
  refine ⟨by set_option maxRecDepth 100000 in decide +kernel, by set_option maxRecDepth 100000 in decide +kernel, by set_option maxRecDepth 100000 in decide +kernel, by set_option maxRecDepth 100000 in decide +kernel, ⟨mwr none, by set_option maxRecDepth 100000 in decide +kernel, by set_option maxRecDepth 100000 in decide +kernel, by set_option maxRecDepth 100000 in decide +kernel⟩, ?_⟩
  set_option maxRecDepth 100000 in decide +kernel

theorem witness_MoraineFlips : (rsDecode 0).any (fun x => !x.2) = true ∧ (rsDecode 1).any (fun x => x.2) = true ∧
    rsDecode (BitVec.ofNat 640 (2 ^ 8 + 1)) = none := by
  set_option maxRecDepth 100000 in decide +kernel

theorem witness_Streams : let s := fitted .active id
    let x : Stream := ⟨.open, 0, 64, 0, 1, 0, [], [], 0, 0⟩
    let t := s.setStream 31 x
    (s.stream 31).st ≠ .open ∧ (0 : BitVec 38).toNat + 64 ≤ s.morCap ∧ (∀ k, k < 4 → (s.chan k).st ≠ .srEntry) ∧
      t.stream 31 = x ∧ t.morMap 0 = some (0, 0) ∧ t.mor.fenced = false ∧ (t.chan 0).st = .active ∧ (t.chan 0).writes = [] ∧
      (t.chan 0).waiting = [] ∧ (t.chan 0).reads.length < 64 := by
  set_option maxRecDepth 100000 in decide +kernel

theorem witness_MoraineRefresh : let s := fitted .active id
    let old := fitted .active (fun c => { c with cc := 2 ^ 20 })
    let owes := fitted .active (fun c => { c with owed := [(0, 4)] })
    s.runs cMor = true ∧ (s.chan 3).sameBank = s.flag (aCh 3) 2 ∧ (s.chan 3).dimm.ranks.contains (0 % 2) = true ∧
      4 ≤ (owes.chan 3).owedTo 0 0 ∧ (s.chan 3).pending = false ∧ s.streamOpenAny = false ∧ s.mor.recovering = false ∧
      s.chanRuns 3 = true ∧ (fitted .off id).chanRuns 3 = false ∧ (s.chan 3).calAt = [] ∧ (s.chan 3).calWait = [] ∧
      (let t := { (fitted .active (fun c => { c with lastReq := 0 })).putReg (aCh 3) 8 with
          time := { later.time with core := 100000, ft := 2 ^ 64 } }
       let u := t.putReg (aCh 3 + 0x10) 1
       u.flag (aCh 3) 3 = true ∧ u.fld (aCh 3 + 0x10) 0 16 * 1024000 ≤ (u.ft64 - (u.chan 3).lastReq).toNat) ∧
      (old.chan 3).cc = 2 ^ 20 := by
  set_option maxRecDepth 100000 in decide +kernel
/-! Sequencers, lines, links, pairs and trackers (chapters 08 and 09). -/

/-- A sound entry of an operation at the end of the table. -/
def entry (op rest : Nat) (err : Option (BitVec 8)) : LEntry := ⟨65535, BitVec.ofNat 256 (op + rest), [], err, 0, .none, []⟩

/-- A part whose sequencer 23 stands at a boundary with an entry next. -/
def standing (x : LEntry) (f : Seq → Seq) : State := (running onAir 23).modSeq 23 (fun q => f { q with look := [x] })

/-- The checks of AtEntry, as a Bool. -/
def atEntryB (s : State) (n op : Nat) (x : LEntry) : Bool :=
  decide (s.atBoundary n = some x) && decide (entOp x.word = op) && decide ((s.seq n).bnd / 16 ≤ s.now) &&
    decide (s.flagsDue n (s.seq n).bnd = s)

/-- What atEntryB answers. -/
theorem atEntry_of {s : State} {n op : Nat} {x : LEntry} (h : atEntryB s n op x = true) : AtEntry s n op x := by
  simp only [atEntryB, Bool.and_eq_true, decide_eq_true_eq] at h
  exact ⟨h.1.1.1, h.1.1.2, h.1.2, h.2⟩

theorem witness_Entries : ∀ op, op < 8 → ∀ err ∈ [none, some (3 : BitVec 8)],
    AtEntry (standing (entry op (2 ^ 23) err) id) 23 op (entry op (2 ^ 23) err) := by
  have h : ∀ op, op < 8 → ∀ err ∈ [none, some (3 : BitVec 8)],
      atEntryB (standing (entry op (2 ^ 23) err) id) 23 op (entry op (2 ^ 23) err) = true := by
    set_option maxRecDepth 100000 in decide +kernel
  exact fun op hop err he => atEntry_of (h op hop err he)

/-- With a loop open, at a JUMP to a slot on a set flag, and at a WAIT for it. -/
theorem witness_EntryBranches :
    (let s := standing (entry 3 0 none) (fun q => { q with stack := [⟨1, 5, false⟩] })
     atEntryB s 23 3 (entry 3 0 none) = true ∧ (s.seq 23).stack = [⟨1, 5, false⟩]) ∧
    (let w := 2 ^ 8 + 2 ^ 10 + 2 ^ 11 + 2 ^ 12 + 7 * 2 ^ 16
     let s := (standing (entry 4 w none) id).putReg (aFlags 23) 0x80
     atEntryB s 23 4 (entry 4 w none) = true ∧ s.flag (aFlags 23) 7 = true ∧ bitOf (entry 4 w none).word 11 = true ∧
       bits (entry 4 w none).word 8 2 = 1) ∧
    (let w := 2 ^ 8 + 2 ^ 10 + 7 * 2 ^ 16
     let s := (standing (entry 5 w none) id).putReg (aFlags 23) 0x80
     atEntryB s 23 5 (entry 5 w none) = true ∧ s.flag (aFlags 23) 7 = true) := by
  set_option maxRecDepth 100000 in decide +kernel

/-- An occurrence of a PLAY of one sample, which is next out at an edge. -/
def play1 (next : Nat) : Play := ⟨65535, BitVec.ofNat 256 (1 + 2 ^ 24), 0, next, none, 0, none, [], [(7, 0)], 0, .none⟩

/-- A part whose sequencer 23 plays its last sample. -/
def playing (f : Seq → Seq) : State := (running onAir 23).modSeq 23 (fun q => f { q with play := some (play1 q.bnd) })

theorem witness_PlayEnds : let s := { playing id with time := { (playing id).time with core := 1080 } }
    let stop := { playing (fun q => { q with stopAtEnd := true }) with time := s.time }
    let jump := { playing (fun q => { q with latch := some (.slot 7, true) }) with time := s.time }
    (∀ t ∈ [s, stop, jump], (t.playEndEdge 23).any (fun e => e / 16 ≤ t.now &&
      decide (((t.samplesTo 23 e).seq 23).st = .run) && ((t.samplesTo 23 e).seq 23).play.any (fun p => !p.more)) = true) ∧
    (let u := (running onAir 23).modSeq 23 (fun q => { q with ownEnd := some 0 })
     (u.seq 23).ownEnd = some 0 ∧ u.sampleUp 23 (u.edgeOfFt 0) / 16 ≤ u.now ∧ (u.seq 23).st = .run) := by
  set_option maxRecDepth 100000 in decide +kernel

/-- A sample that is there, one that is missing, and a stall beyond the limit of repeats. -/
theorem witness_Samples : let s := playing id
    let dry := playing (fun q => { q with play := q.play.map (fun p => { p with late := some (7, 0, 1) }) })
    let stall := playing (fun q => { q with ctrl := 0x0000000C, play := q.play.map (fun p => { p with late := some (7, 0, 1) }) })
    (s.seq 23).bursting = true ∧ (s.seq 23).play.any (fun p => (s.playStep 23 (s.seq 23) p 0).2.2 == none) = true ∧
    (dry.seq 23).play.any (fun p => (dry.playStep 23 (dry.seq 23) p 0).2.2 == some 7) = true ∧
    (stall.seq 23).play.any (fun p => let x := stall.playStep 23 (stall.seq 23) p 0
      x.2.2 == some 7 && x.1.stalled.isSome && p.stalled.isNone && decide ((stall.seq 23).repeatMax ≤ x.1.repeats)) = true := by
  set_option maxRecDepth 100000 in decide +kernel

theorem witness_TableIsReadAhead : let s := running onAir 23
    let go := s.modSeq 23 (fun q => { q with fetchEnded := false, fetchNext := 65535 })
    let bad := { go with flt := { go.flt with retired := (List.range 32).map (fun k => (uRegion * 65536 + 480 + k, true)) } }
    let load : State := (go.modSeq 23 (fun q => q.setSlot 7 ⟨true, false, false, []⟩))
    s.runs cFirn = true ∧ (go.seq 23).fetchAt ≠ some go.now ∧ (go.seq 23).pre = [] ∧ (go.seq 23).bursting = true ∧
      (go.seq 23).look.length < 32 ∧ (match go.readEntry 23 (go.seq 23).fetchNext with | (.ok _, _) => true | _ => false) = true ∧
      (match bad.readEntry 23 (bad.seq 23).fetchNext with | (.error _, _) => true | _ => false) = true ∧
      ((load.seq 23).slotOf 7).loading = true := by
  set_option maxRecDepth 100000 in decide +kernel
theorem witness_Slots : let s := armed onAir 0x27 .host
    Written s (wr 0x55) (aSeqSlot 23 7) (row (aSeqSlot 23 7)) 0x55 ∧ Written s (wr 0x08000004) (wSeq 23) (row (wSeq 23)) 0x08000004 :=
  ⟨written_of (by decide), written_of (by decide)⟩

/-- A slot whose entry is a PLAY of one sample, in TONE mode, and one of 2,000 samples that are read. -/
theorem witness_Preloads : let s (len : Nat) (ctrl : Word) : State :=
      ({ running onAir 23 with firn := { onAir.firn with
        mem := [(512, 1), (515, BitVec.ofNat 8 len), (516, BitVec.ofNat 8 (len / 256))] } }.modSeq 23 (fun q =>
          { q.setSlot 7 ⟨true, false, false, []⟩ with ctrl := ctrl })).putReg (wSeq 23 + 0x14) 8
    (let x := (s 1 0x08000044).slotEntries 23 ((s 1 0x08000044).slotEntry 23 7) 4
     (slotPath x.1).any (fun l => l.getLast?.any (fun p => !playMor p.word) && !(x.2.seq 23).reads) = true) ∧
    (let x := (s 2000 0x08000004).slotEntries 23 ((s 2000 0x08000004).slotEntry 23 7) 4
     (slotPath x.1).any (fun l => l.getLast?.any (fun p => !playMor p.word && decide (preWords 23 * 64 ≤ playLen p.word * sampleBytes 23)) &&
       (x.2.seq 23).reads) = true) := by
  set_option maxRecDepth 100000 in decide +kernel

/-- A part whose sequencer 23 has a marker action on line 63 that is due. -/
def marking (act cfg : Nat) (n : Nat) : State :=
  { running onAir 23 with mkr := { onAir.mkr with lines := [(63, { Line.reset with cfg := BitVec.ofNat 32 (cfg * 2 ^ 30) })] } }.modSeq 23
    (fun q => { q with markers := [⟨BitVec.ofNat 64 (63 * 2 ^ 40 + act * 2 ^ 46 + 5 * 2 ^ 48), 1000, 1000⟩], mkrCycle := 62, mkrCount := n })

theorem witness_Markers : (∀ act, act < 4 → (marking act 1 3).markerDue 23 act 63 8 (if act = 3 then some 5 else none) =
      ((marking act 1 3).seq 23).markers.head? ∧ ((marking act 1 3).seq 23).markers ≠ [] ∧ 1000 / 16 ≤ (marking act 1 3).now) ∧
    (marking 0 1 3).isRetired uLine 63 = false ∧ bits ((marking 0 1 3).line 63).cfg 30 2 = 1 ∧
    bits ((marking 0 2 3).line 63).cfg 30 2 ≠ 1 ∧ ((marking 0 1 4).seq 23).mkrCycle = 1000 / 16 ∧
    (∀ k, k < 23 → ((marking 0 1 3).seq k).markers = []) := by decide

/-- A part whose line 63 has its pattern due at its last sample, has been playing one, or pulses. -/
def lined (f : Line → Line) : State := { armed later 6 .host with mkr := { later.mkr with lines := [(63, f Line.reset)] } }

theorem witness_Patterns : (let p := lined (fun l => { l with pulseEnd := some 16 })
      (p.line 63).pulseEnd = some 16 ∧ 16 / 16 ≤ p.now ∧ (up.line 63).pulseEnd = none) ∧
    Written (lined id) (wr 5) (aPat 63 .addr) (row (aPat 63 .addr)) 5 ∧ ((lined id).line 63).preFeed ≠ .live ∧
    (lined id).runs 0x06 = true ∧ ((lined id).patPending 63).mor = false ∧ ((lined id).patPending 63).addr.toNat + 8 ≤ 2 ^ 21 ∧
    (∀ i, i < 8 → (lined id).firnGone (((lined id).patPending 63).addr.toNat + i) = false ∧
      (lined id).firnPoison (((lined id).patPending 63).addr.toNat + i) = false) ∧
    (∀ i, i < 8 → (lined id).takeFlag (linePort 63) (((lined id).patPending 63).addr.toNat + i) = none) ∧
    (let d := lined (fun l => { l with due := some 31 })
     (d.line 63).due = some 31 ∧ 31 % 16 = 15 ∧ 31 / 16 ≤ d.now ∧ d.isRetired uLine 63 = false ∧ (d.line 63).playing = false ∧
       (d.line 63).feed = .none ∧ (d.patPending 63).mor = false) ∧
    (let w := lined (fun l => { l with playing := true, use := ⟨0, 1, 0, 1⟩ })
     (w.line 63).playing = true ∧ ((w.line 63).start + (w.line 63).use.len.toNat * (w.line 63).use.bitdiv) / 16 ≤ w.now) :=
  ⟨by decide, written_of (by decide), by decide, by decide, by decide, by decide, by decide, fun i hi => by
    have h : ∀ i, i < 8 → ((lined id).takeFlag (linePort 63) (((lined id).patPending 63).addr.toNat + i)).isNone = true := by decide
    simpa using h i hi, by decide, by decide⟩

/-- A part whose precision link is in a state, under 8b/10b. -/
def linked (st : LnkSt) : State := (later.setTxl 8 { TxLink.reset with st := st }).putReg (aLinkCfg 8) 0x01000000

theorem witness_Link : (linked .cgs).runs 0x10 = true ∧ ((linked .ilas).txl 8).st = .ilas ∧
    ((linked .ilas).txl 8).ilasAt + 4 * (linked .ilas).lemcPeriod 8 ≤ (linked .ilas).now ∧ ((linked .data).txl 8).st = .data ∧
    (linked .data).flag (aLinkCfg 8) 24 = true := by
  set_option maxRecDepth 100000 in decide +kernel

/-- A pair that is on, in DROP or STRETCH, with a dead time of 4 and a least pulse. -/
def paired (stretch : Bool) (least : Nat) (f : Pair → Pair) : State :=
  { later with mkr := { later.mkr with pairs := [(31, f Pair.reset)] } }.putReg (aPair 31)
    (BitVec.ofNat 32 (2 ^ 31 + (if stretch then 2 ^ 30 else 0) + 4 * 2 ^ 16 + least))

theorem witness_Pairs : later.flag (aPair 31) 31 = false ∧ (paired false 8 id).flag (aPair 31) 31 = true ∧
    (paired false 8 id).flag (aPair 31) 30 = false ∧ (paired true 8 id).flag (aPair 31) 30 = true ∧
    ((paired false 8 id).pair 31).h.on = false ∧ ((paired false 8 id).pair 31).h.cand = none ∧
    ((paired false 8 id).pair 31).l.on = true ∧ ((paired false 8 id).pair 31).l.pend = false ∧
    (let s := paired false 8 (fun p => { p with h := { p.h with cand := some 3 }, l := { p.l with on := false } })
     (s.pair 31).h.cand = some 3 ∧ (s.pair 31).l.on = false ∧ (s.pair 31).l.off ≤ 0) := by decide

/-- A part with a tracker of 60 positions, 2 of them missing, in a state. -/
def tracking (f : Trk → Trk) : State := { later with ang := { later.ang with trk := [(1, f Trk.reset)] } }.putReg (aTrk 1)
  (BitVec.ofNat 32 (60 + 2 * 2 ^ 16))

theorem witness_Trackers : NoEvents (tracking id) 1 ∧
    (let s := tracking (fun t => { t with st := .seek, seen := true, hist := [3000, 1000] })
     let x := s.trk 1
     NoEvents s 1 ∧ s.fld (aTrk 1) 0 13 = 60 ∧ s.fld (aTrk 1) 16 3 = 2 ∧ (x.treal + 1000) / 16 ≤ s.now ∧ 3000 ≤ 1000 * (2 * (2 + 1)) ∧
       (2 * 2 + 1) * 1000 ≤ 2 * 3000 ∧ 2 * 3000 ≤ (2 * 2 + 3) * 1000 ∧ 2 * (2 + 1) * 1000 ≤ 3 * 3000) ∧
    (let s := tracking (fun t => { t with st := .sync, position := 57, p := 10000, runs := true })
     let x := s.trk 1
     NoEvents s 1 ∧ x.position + 2 + 1 = s.fld (aTrk 1) 0 13 ∧ (x.treal + 30000) / 16 ≤ s.now ∧ 3 * x.p ≤ 2 * (30000 - x.tref) ∧
       2 * (30000 - x.tref) ≤ 3 * (3 * x.p) ∧ (2 * 2 + 1) * x.p ≤ 2 * (30000 - x.tprev) ∧
       3200 * (x.spanned + 3) ≤ 30000 - x.treal ∧ (x.tref + 3 * (3 * x.p) / 2 + 1) / 16 ≤ s.now) := by
  unfold NoEvents
  set_option maxRecDepth 100000 in decide +kernel

/-- Event 31 of tracker 1, in SYNC, at an angle. -/
def angled (position : Nat) (armed : Bool) : State :=
  let s := (tracking (fun t => { t with st := .sync, position := 4, thetaRef := 4 * 65536, p := 10000, runs := true })).putReg
    (aAngEv 31) (BitVec.ofNat 32 (2 ^ 31 + 2 ^ 30 + position * 65536))
  { s with ang := { s.ang with armed := [(31, armed)] } }

/-- Armed at an angle ahead, and fired at its re-arming angle. -/
theorem witness_AngleEvents : (angled 5 true).evTrk 31 = 1 ∧
    ((angled 5 true).angReachEdge 31).any (fun e => decide (e / 16 ≤ (angled 5 true).now)) = true ∧
    ((angled 35 false).angRearmEdge 31).any (fun e => decide (e / 16 ≤ (angled 35 false).now)) = true ∧
    (angled 5 true).angRearmEdge 31 = none ∧ (angled 35 false).angReachEdge 31 = none := by
  set_option maxRecDepth 100000 in decide +kernel
/-! The trigger-logic array and the control engine (chapters 10 to 12). -/

/-- A part whose array stands at a position of Serac, with bits wrong in the word there. -/
def scrubbing (pos phase : Nat) (wrong : BitVec 72) (f : Tla → Tla) : State :=
  let b : TBank := { TBank.reset with errs := [(pos % 2176, wrong)] }
  { armed later 8 .host with tla := f { Tla.reset with
    pos := pos, phase := phase, bank0 := if pos < 2176 then b else .reset, bank1 := if pos < 2176 then .reset else b } }.putReg wTla 2

theorem witness_ShadowBank : let s := scrubbing 0 0 0 id
    Written s (wr 0x80000001) (wTla + 0x28) (row (wTla + 0x28)) 0x80000001 ∧ s.reg (wTla + 0x28) = 0 ∧ s.tla.checkBusy = false ∧
    (scrubbing 0 0 0 (fun t => { t with checkBusy := true })).tla.checkBusy = true ∧
    Written (scrubbing 0 0 0 (fun t => { t with checkBusy := true })) (wr 0x80000001) (wTla + 0x28) (row (wTla + 0x28)) 0x80000001 ∧
    Written s ⟨.host, 0xF, 1⟩ (wTla + 0x08) (row (wTla + 0x08)) 1 ∧ s.runs cSerac = true ∧
    Written s (wr 2) wTla (row wTla) 2 :=
  ⟨written_of (by set_option maxRecDepth 100000 in decide +kernel), by set_option maxRecDepth 100000 in decide +kernel, by set_option maxRecDepth 100000 in decide +kernel, by set_option maxRecDepth 100000 in decide +kernel, written_of (by set_option maxRecDepth 100000 in decide +kernel), written_of (by set_option maxRecDepth 100000 in decide +kernel), by set_option maxRecDepth 100000 in decide +kernel,
    written_of (by set_option maxRecDepth 100000 in decide +kernel)⟩

theorem witness_Swap : let s := scrubbing 0 0 0 (fun t => { t with bank1 := { t.bank1 with checked := true, sig := 5 }, sigRef := 5 })
    Written s ⟨.host, 0xF, 1⟩ (wTla + 0x04) (row (wTla + 0x04)) 1 := written_of (by set_option maxRecDepth 100000 in decide +kernel)

/-- The last word of each half, with no, one and two wrong bits, and a word that waits for the port. -/
theorem witness_Serac : ([2175, 4351].all fun pos => ([0, 1, 3] : List (BitVec 72)).all fun w => let s := scrubbing pos 3 w id
      s.seracRuns && !s.tla.checkBusy && s.tla.stores == 0 && s.tla.seracBank.err (pos % 2176) == w) = true ∧
    (scrubbing 0 0 0 id).tla.phase < 3 ∧ (scrubbing 0 0 0 id).runs cSerac = true ∧
    ((scrubbing 0 0 0 id).putReg wTla 0).seracRuns = false := by
  set_option maxRecDepth 100000 in decide +kernel

theorem witness_SeracWaits : let s (n : Word) : State := (scrubbing 4351 0 0 (fun t => { t with stores := 5 })).putReg (wTla + 0x70) n
    0 < (s 1).tla.stores ∧ (s 1).tla.seracWants = true ∧ (s 1).fld (wTla + 0x70) 0 16 ≤ (s 1).tla.waited + 1 ∧
    (s 2).tla.waited + 1 < (s 2).fld (wTla + 0x70) 0 16 := by
  set_option maxRecDepth 100000 in decide +kernel

/-- A bit outvoted in three cycles running, and in this one. -/
theorem witness_Votes : (let t := (scrubbing 0 0 0 (fun t => { t with clock := 9, votes := [(64 * 2 + 63, (8, 3))] })).tla
      Tab.get (fun _ => (0, 0)) t.votes (64 * 2 + 63) = (t.clock - 1, 3) ∧ 0 < t.clock ∧
        Tab.get (fun _ => (0, 0)) t.votes (192 + 2) ≠ (t.clock, 1)) ∧
    (let t := (scrubbing 0 0 0 (fun t => { t with clock := 9, votes := [(64 * 2 + 63, (9, 3))] })).tla
     (Tab.get (fun _ => (0, 0)) t.votes (64 * 2 + 63)).2 ≠ 0 ∧ (Tab.get (fun _ => (0, 0)) t.votes (64 * 2 + 63)).1 = t.clock) ∧
    (scrubbing 0 0 0 id).tlaRetired = false ∧
    (let s := scrubbing 0 0 0 (fun t => { t with sigValid := true, sigLast := 7 })
     s.hk.fw = true ∧ s.tla.sigLast ≠ s.tla.sigRef ∧ s.hk.swapped = false ∧
       ({ s with hk := { s.hk with swapped := true } } : State).hk.swapped = true) := by
  set_option maxRecDepth 100000 in decide +kernel

/-- A part in or out of a law phase, with a wrong bit in the last coefficient. -/
def coefs (law : Bool) (wrong : BitVec 44) : State := { armed later 9 .host with
  time := { later.time with running := law, c1 := 0, cycle := 10, c2 := 20 }
  cle := { later.cle with coefErr := if wrong = 0 then [] else [(coefKey 31 7 223, wrong)] } }

theorem witness_Coefficients : Written (coefs false 0) (wr 5) (aSlot 31 + 0x24) (row (aSlot 31 + 0x24)) 5 ∧
    Written (coefs true 0) (wr 5) (aSlot 31 + 0x24) (row (aSlot 31 + 0x24)) 5 ∧ (coefs false 0).reg (aSlot 31 + 0x24) = 0 ∧
    (coefs false 0).inLaw = false ∧ (coefs true 0).inLaw = true ∧ (coefs false 3).runs cCle = true ∧
    (coefs false 3).cle.coefErr = [(coefKey 31 7 223, 3)] ∧ (coefs false 0).cle.coefErr = [] ∧
    (coefs false 3).clk.hpllXo = false :=
  ⟨written_of (by set_option maxRecDepth 100000 in decide +kernel), written_of (by set_option maxRecDepth 100000 in decide +kernel), by set_option maxRecDepth 100000 in decide +kernel, by set_option maxRecDepth 100000 in decide +kernel, by set_option maxRecDepth 100000 in decide +kernel, by set_option maxRecDepth 100000 in decide +kernel, by set_option maxRecDepth 100000 in decide +kernel, by set_option maxRecDepth 100000 in decide +kernel, by set_option maxRecDepth 100000 in decide +kernel⟩

/-- A part whose feedback link 1 is in a state, with its LEMC started at core cycle 3 and a multiblock in its buffer. -/
def fed (st : RxSt) (due : Nat) : State := { later with cle := { later.cle with
  link1 := st, lemc1 := some 3, blocks := [⟨1, due, [[1, 2], [], [3]]⟩] } }

theorem witness_Feedback : (fed .align 5).runs cCle = true ∧ (fed .align 5).hk.bring = none ∧ (fed .align 5).rx 1 = .align ∧
    ((fed .align 5).lemcOf 1).isSome = true ∧ (fed .data 5).rx 1 = .data ∧ (fed .data 5).lemcOf 1 = some 3 ∧ 3 ≤ (fed .data 5).now ∧
    (fed .data 5).cle.blocks = [⟨1, 5, [[1, 2], [], [3]]⟩] ∧ 5 ≤ (fed .data 5).now ∧ (fed .data 200000).now < 200000 := by
  set_option maxRecDepth 100000 in decide +kernel

theorem witness_SlotStates : let s (st : LoopSt) (close : BitVec 32) : State :=
      { later with cle := { later.cle with slots := [(31, { LSlot.reset with st := st })], closeLat := close } }
    (∀ st ∈ [LoopSt.open, .ramp, .closed, .fault], ((s st 0).slot 31).st = st ∧ bitOf (s st 0).cle.closeLat 31 = false ∧
      bitOf (s st 0x80000000).cle.closeLat 31 = true) ∧ (0 : Int) ≤ 5 ∧ (3 : Nat) < 4 := by
  set_option maxRecDepth 100000 in decide +kernel
/-! The fabric (chapter 13). -/

/-- A part long after power-up, with link 7 in a state and enabled. -/
def linkAt (st : LkSt) (f : Link → Link) : State :=
  ({ later with
    time := { later.time with elapsed := 2 ^ 80 }
    nzl := { later.nzl with links := [(7, f { Link.reset with st := st, since := 2 ^ 80 })] } } : State).putReg (aLink 7) 0x80000000

/-- A packet that waits for its acknowledgement. -/
def held (lseq : BitVec 8) : Pkt := ⟨1, 0, 1, false, 0, 0, 0, 0, [], lseq, none, none⟩

/-- NoHeld of a link, for a part in which only link 7 holds packets, none of which came from a link. -/
theorem noHeld_of (s : State) (h : ∀ m, m < 8 → ∀ p ∈ (s.link m).queue ++ (s.link m).retry, p.input = none) : NoHeld s 7 :=
  fun m hm p hp k hk => by rw [h m hm p hp] at hk; cases hk

theorem witness_Links : (linkAt .down id).runs cNzl = true ∧ ((linkAt .down id).link 7).st = .down ∧
    (linkAt .train id).time.elapsed < ((linkAt .train id).link 7).since + spanUs 10000 ∧
    (let s := linkAt .train (fun x => { x with since := 0, retry := [held 1] })
     (s.link 7).since + spanUs 10000 ≤ s.time.elapsed ∧ NoHeld s 7) ∧
    (let s := linkAt .hello (fun x => { x with since := 0 })
     (s.link 7).gotHello = false ∧ (s.link 7).since + spanUs 1000 ≤ s.time.elapsed ∧ NoHeld s 7) ∧
    (let s := linkAt .hello (fun x => { x with helloAt := 2 ^ 80 })
     ¬ (s.link 7).since + spanUs 1000 ≤ s.time.elapsed ∧ s.time.elapsed < (s.link 7).helloAt + nztxSpan 256) ∧
    (let s := linkAt .hello (fun x => { x with gotHello := true })
     (s.link 7).gotCal = false ∧ (s.link 7).helloAt + nztxSpan 256 ≤ s.time.elapsed) :=
  ⟨by set_option maxRecDepth 100000 in decide +kernel, by set_option maxRecDepth 100000 in decide +kernel, by set_option maxRecDepth 100000 in decide +kernel, ⟨by set_option maxRecDepth 100000 in decide +kernel, noHeld_of _ (by set_option maxRecDepth 100000 in decide +kernel)⟩, ⟨by set_option maxRecDepth 100000 in decide +kernel, by set_option maxRecDepth 100000 in decide +kernel, noHeld_of _ (by set_option maxRecDepth 100000 in decide +kernel)⟩,
    ⟨by set_option maxRecDepth 100000 in decide +kernel, by set_option maxRecDepth 100000 in decide +kernel⟩, ⟨by set_option maxRecDepth 100000 in decide +kernel, by set_option maxRecDepth 100000 in decide +kernel⟩⟩

theorem witness_Hellos : (linkAt .hello id).hk.bring = none ∧ ((linkAt .hello id).link 7).sentCal = false ∧
    (let s := linkAt .hello (fun x => { x with sentCal := true })
     (s.link 7).sentCal = true ∧ (s.link 7).queue = [] ∧ s.nzl.st = .off ∧ s.fabricOn = false ∧
       ({ s with nzl := { s.nzl with st := .elect } } : State).nzl.st = .elect) ∧
    ((linkAt .up id).link 7).peerHello = false ∧ ((linkAt .up id).link 7).queue = [] := by
  set_option maxRecDepth 100000 in decide +kernel

theorem witness_Replays : let s := linkAt .up (fun x => { x with retry := [held 5], badReplays := 7 })
    (s.link 7).st = .up ∧ (s.link 7).queue = [] ∧ (s.link 7).retry.any (fun p => p.lseq == 5) = true ∧
    (s.link 7).retry.any (fun p => p.lseq == 6) = false ∧ 7 ≤ (s.link 7).badReplays ∧ NoHeld s 7 :=
  ⟨by set_option maxRecDepth 100000 in decide +kernel, by set_option maxRecDepth 100000 in decide +kernel, by set_option maxRecDepth 100000 in decide +kernel, by set_option maxRecDepth 100000 in decide +kernel, by set_option maxRecDepth 100000 in decide +kernel, noHeld_of _ (by set_option maxRecDepth 100000 in decide +kernel)⟩

/-- A part whose node is in a state, with link 7 UP and its tree link. -/
def node (st : NodeSt) (f : Nzl → Nzl) : State :=
  let s := linkAt .up id
  { armed s 10 .host with nzl := f { s.nzl with st := st, cfg := ⟨5, none, 0x80, 0, []⟩ } }

theorem witness_NodeCommands : Written (node .root id) ⟨.host, 0xF, 1⟩ (wNzl + 0x18) (row (wNzl + 0x18)) 1 ∧
    Written (node .root id) ⟨.host, 0xF, 2⟩ (wNzl + 0x18) (row (wNzl + 0x18)) 2 ∧ (node .root id).reg (wNzl + 0x18) = 0 :=
  ⟨written_of (by set_option maxRecDepth 100000 in decide +kernel), written_of (by set_option maxRecDepth 100000 in decide +kernel), by set_option maxRecDepth 100000 in decide +kernel⟩

/-- A key. -/
def key (cls : BitVec 2) (prio : BitVec 8) : ElectKey := ⟨cls, prio, 7⟩

theorem witness_Elections : let s := node .elect (fun z => { z with best := some (key 1 5, 0), bestAt := some 0 })
    s.runs cNzl = true ∧ s.linkUp 7 = true ∧ (linkAt .train id).linkUp 7 = false ∧ s.nzl.best = some (key 1 5, 0) ∧
    keyBeats (key 2 6) (key 1 5) = true ∧ (15 : BitVec 5).toNat < 16 ∧ 0 + spanUs 200 ≤ s.time.elapsed ∧ (key 1 5).cls ≠ 0 ∧
    (key 0 5).cls = 0 := by
  set_option maxRecDepth 100000 in decide +kernel

theorem witness_NodeTurns : let on := fun st f => node st f
    (let s := on .enum id
     s.nzl.partPlace = none ∧ s.nzl.reportAt + spanUs 500 ≤ s.time.elapsed ∧ s.nzl.nodes = [] ∧ s.nzl.everLive = false) ∧
    (let s := on .root id
     s.nzl.beaconAt + spanUs 100 ≤ s.time.elapsed ∧ s.treeLinks = [7] ∧ s.linkUp 7 = true ∧ s.isRetired uLink 7 = false ∧
       (s.link 7).queue = []) ∧
    (on .member id).nzl.beaconAt + spanUs 1000 ≤ (on .member id).time.elapsed ∧
    ((on .join id).nzl.enHop = none ∧ (on .join id).nzl.joinAt + spanUs 2000 ≤ (on .join id).time.elapsed) := by
  set_option maxRecDepth 100000 in decide +kernel

/-- The checks of Rests, as a Bool, for a part that waits for one thing. -/
def restsB (s : State) (report commit hold pps mail : Bool) : Bool :=
  (List.range 8).all (fun n => (s.link n).st != .train && (s.link n).st != .hello) && decide (s.nodeTurn = s) &&
    (report || s.nzl.hopAt == none) && (commit || s.nzl.commitAt == none) && (hold || !s.nzl.holding) &&
    (pps || s.nzl.ppsAt == none) && (mail || s.nzl.reasm == [])

/-- What restsB answers. -/
theorem rests_of {s : State} {report commit hold pps mail : Bool} (h : restsB s report commit hold pps mail = true) :
    Rests s (report = true) (commit = true) (hold = true) (pps = true) (mail = true) := by
  simp only [restsB, Bool.and_eq_true, Bool.or_eq_true, decide_eq_true_eq, beq_iff_eq, bne_iff_ne, ne_eq, Bool.not_eq_true',
    List.all_eq_true, List.mem_range] at h
  obtain ⟨⟨⟨⟨⟨⟨h1, h2⟩, h3⟩, h4⟩, h5⟩, h6⟩, h7⟩ := h
  exact ⟨h1, h2, h3, h4, h5, h6, h7⟩

/-- A node whose hop has settled, and whose report goes out over link 7. -/
def reporting : State := node .join (fun z => { z with ppsAt := none, hopAt := some 0, enHop := some 1, enPath := [7] })

theorem witness_Reports : Rests reporting True False False False False ∧ reporting.nzl.hopAt = some 0 ∧
    0 + spanUs 100 ≤ reporting.time.elapsed ∧ reporting.homeRoute = 7 :: [] ∧ (reporting.link 7).self = false ∧
    (let p : ReportPkt := ⟨9, false, false, 0, 1, []⟩
     let s := node .enum (fun z => { z with nodes := [⟨p, none, false, 0⟩] })
     s.nzl.st = .enum ∧ (⟨7, 0, 0, 1, 0⟩ : Hdr).ttl = 1 ∧ s.reg aTtlDrops ≠ 0xFFFFFFFF) := by
  have h := rests_of (s := reporting) (report := true) (commit := false) (hold := false) (pps := false) (mail := false)
    (by set_option maxRecDepth 100000 in decide +kernel)
  simp only [Bool.false_eq_true] at h
  exact ⟨h, by set_option maxRecDepth 100000 in decide +kernel, by set_option maxRecDepth 100000 in decide +kernel, by set_option maxRecDepth 100000 in decide +kernel, by set_option maxRecDepth 100000 in decide +kernel, by set_option maxRecDepth 100000 in decide +kernel⟩

/-- A node that holds the whole of its configuration, with its hop. -/
def placed (st : NodeSt) (f : Nzl → Nzl) : State := node st (fun z => f { z with
  ppsAt := none, enGen := 3, enHop := some 1, partPlace := some ⟨6, none, 0, 1, []⟩, parts := (List.range 9).map (fun k => (k, true)) })

theorem witness_Configurations : let s := placed .join id
    s.nzl.enGen = 3 ∧ s.nzl.enHop = some (0 + 1) ∧ (List.replicate 480 (5 : BitVec 4)).length = 480 ∧ s.hk.bring = none ∧
    s.nzl.commitAt = none ∧ s.nzl.everLive = false ∧ s.nzl.parts.length = 9 ∧ s.time.locked = false ∧
    ({ s with time := { s.time with locked := true } } : State).time.locked = true ∧
    (let p : ReportPkt := ⟨9, false, false, 0, 1, []⟩
     let t := placed .enum (fun z => { z with recomputed := true, nodes := [⟨p, some z.cfg, false, 4⟩] })
     t.nzl.partPlace.isSome = true ∧ t.nzl.sentAt + spanUs 100 ≤ t.time.elapsed ∧
       t.nzl.nodes.any (fun x => !x.acked && x.cfg.isSome && decide (4 ≤ x.resends)) = true) := by
  set_option maxRecDepth 100000 in decide +kernel

theorem witness_CommitLive : let s := placed .join (fun z => { z with commitAt := some 0 })
    Rests s False True False False False ∧ ftScale 0 ≤ s.ftN ∧
      (placed .join (fun z => { z with commitAt := some (BitVec.allOnes 80) })).ftN < ftScale (BitVec.allOnes 80) := by
  have h := rests_of (s := placed .join (fun z => { z with commitAt := some 0 })) (report := false) (commit := true)
    (hold := false) (pps := false) (mail := false) (by set_option maxRecDepth 100000 in decide +kernel)
  simp only [Bool.false_eq_true] at h
  exact ⟨h, by set_option maxRecDepth 100000 in decide +kernel, by set_option maxRecDepth 100000 in decide +kernel⟩

/-- A part that waits for one thing of the fabric block alone. -/
def waiting (f : Nzl → Nzl) : State := node .off (fun z => f { z with ppsAt := none })

theorem witness_FabricWaits : Rests (waiting (fun z => { z with ppsAt := some 0 })) False False False True False ∧
    Rests (waiting (fun z => { z with holding := true })) False False True False False ∧
    Rests (waiting (fun z => { z with reasm := [⟨1, 5, 2, 0, 500, 0, 1, [], 0⟩] })) False False False False True ∧
    0 + spanUs 1100000 ≤ (waiting id).time.elapsed := by
  have a := rests_of (s := waiting (fun z => { z with ppsAt := some 0 })) (report := false) (commit := false)
    (hold := false) (pps := true) (mail := false) (by set_option maxRecDepth 100000 in decide +kernel)
  have b := rests_of (s := waiting (fun z => { z with holding := true })) (report := false) (commit := false)
    (hold := true) (pps := false) (mail := false) (by set_option maxRecDepth 100000 in decide +kernel)
  have c := rests_of (s := waiting (fun z => { z with reasm := [⟨1, 5, 2, 0, 500, 0, 1, [], 0⟩] })) (report := false)
    (commit := false) (hold := false) (pps := false) (mail := true) (by set_option maxRecDepth 100000 in decide +kernel)
  simp only [Bool.false_eq_true] at a b c
  exact ⟨a, b, c, by set_option maxRecDepth 100000 in decide +kernel⟩

theorem witness_Time : let s := linkAt .up (fun x => { x with
      peer := some ⟨4, 0, 3, 0⟩, txStamps := [⟨3, 100⟩], timeAt := some 0 })
    s.timeDue 7 = true ∧ s.isRetired uLink 7 = false ∧ s.servoLink 7 = false ∧ (s.link 7).peer = some ⟨4, 0, 3, 0⟩ ∧
    (s.link 7).txStamps.find? (fun y => y.idx == 3) = some ⟨3, 100⟩ ∧ (5 : BitVec 4) = 4 + 1 ∧ ((linkAt .up id).link 7).peer = none ∧
    s.flag wNzl 3 = false ∧
    (let t := (node .root (fun z => { z with ppsWait := true })).putReg wNzl 8
     t.runs cNzl = true ∧ t.flag wNzl 3 = true ∧ t.nzl.ppsWait = true ∧ t.nzl.st = .root) ∧
    (let x : Time := { s.time with adjust := some (-5) }
     x.load = false ∧ x.adjust = some (-5)) := by
  set_option maxRecDepth 100000 in decide +kernel

/-- A part whose node 5 takes packets, with a completion ring for LAUNCH. -/
def taking : State :=
  let s := node .member id
  ((({ s with hif := hosted.hif } : State).putReg (aRingCfg 1) (ringCfg cCpl 0)).setReg (aRingCfg 1) (ringCfg cCpl 0)).putReg
    (wNzl + 0x14) 0x101

theorem witness_Packets : (node .member id).isFor 5 = true ∧ (node .member id).flag (wNzl + 0x14) 8 = false ∧
    taking.flag (wNzl + 0x14) 8 = true ∧ taking.ringTakes (taking.fld (wNzl + 0x14) 0 8) cCpl = true ∧
    (taking.ring 1).reserved < taking.ringFree 1 ∧ (0x800000 : BitVec 24) = BitVec.ofNat 24 (2 ^ 23) ∧
    (node .member id).nzl.dropMail.contains (1, 2) = false ∧ (node .member id).nzl.reasm.length < 16 ∧
    (let s := node .member (fun z => { z with reasm := [⟨1, 5, 2, 0, 500, 0, 1, [], 0⟩] })
     s.nzl.reasm.find? (fun r => r.src == 1 && r.msgId == 2) = some ⟨1, 5, 2, 0, 500, 0, 1, [], 0⟩) ∧
    (node .member id).ringTakes ((node .member id).mailRing 0xFF) cMailRx = false ∧ (linkAt .down id).linkUp 7 = false := by
  set_option maxRecDepth 100000 in decide +kernel

theorem witness_LaunchSent : let s := fetched 3 (descWord 3 (2 ^ 50)) (fun d => { d with st := .admitted, left := 1 })
    s.runs cHif = true ∧ (s.descAt 3 0 (fun d => d.st == .admitted && d.kind == 3 && d.fabric)).any (fun d => decide (d.left = 1) &&
      !s.sendWaits 3 d.slot) = true := by
  set_option maxRecDepth 100000 in decide +kernel
/-! The fault engine, reset, bring-up, sensors and pins (chapters 14 to 16). -/

/-- A detection of a class on a unit, which came at time 0. -/
def det (cls kind index : Nat) (permanent : Bool) : Det := ⟨cls, kind, index, 0, permanent, 0, 0⟩

/-- A part whose fault engine, at a later time, has a detection waiting. -/
def faulty (d : Det) (f : Flt → Flt) : State := { later with flt := f { later.flt with inbox := [d], clock := 77 } }

theorem witness_Faults : let s := faulty (det 0x19 uLink 7 false) id
    s.runs cFlt = true ∧ up.flt.inbox = [] ∧ s.hk.bring = none ∧ s.flt.inbox = [det 0x19 uLink 7 false] ∧
    nextDet (det 0x19 uLink 7 false) [] = det 0x19 uLink 7 false ∧ (det 0x19 uLink 7 false).at_ ≠ s.flt.clock ∧
    ({ det 0x19 uLink 7 false with at_ := 77 } : Det).at_ = s.flt.clock ∧ s.isRetired uLink 7 = false ∧
    ((det 0x19 uLink 7 true).permanent || permanentClass 0x19) = true ∧ retirable 0x19 uLink = true ∧ retirable 0x19 0 = false ∧
    (s.budget 0x19).any (fun b => decide (1 ≤ b.1) && decide (b.1 ≠ 0xFFFF)) = true ∧ (s.budget 0x03).isSome = true ∧
    (faulty (det 0x19 uLink 7 false) (fun x => { x with retired := [(uLink * 65536 + 7, true)] })).isRetired uLink 7 = true ∧
    (let w : BWin := ⟨1, 1, 5⟩
     w.limit < w.count + 1 ∧ w.limit ≠ 0xFFFF) ∧ s.inRime 5 = false := by
  set_option maxRecDepth 100000 in decide +kernel

theorem witness_MsTick : Tab.wf (fun _ => BWin.none) ([(7, ⟨1, 4, 1⟩), (9, ⟨1, 4, 2⟩)] : Tab BWin) = true ∧
    (let h : Hist := ⟨7, 0, 1, 2, 2, false, false⟩
     ([h].find? (fun h => h.word == 7)) = some h) ∧
    (1023999999 * 2 ^ 32 + 2 ^ 32) / (1024000000 * 2 ^ 32) ≠ 1023999999 * 2 ^ 32 / (1024000000 * 2 ^ 32) ∧
    later.clk.xoLost = false := by
  set_option maxRecDepth 100000 in decide +kernel

theorem witness_PadsAndSerializers : later.runs 0x06 = true ∧ 4 ≤ later.now ∧ up.now < 4 ∧ later.runs 0x10 = true ∧
    (later.txl 8).st = .off ∧ ((linked .cgs).txl 8).st ≠ .off := by
  set_option maxRecDepth 100000 in decide +kernel

theorem witness_Retirement : let s := armed later 0xB .host
    let v : Word := 0x70007FFF
    (let p := (paired false 8 id)
     p.pairOn 31 = true ∧ p.isRetired uLine (2 * 31) = false ∧ p.isRetired uLine (2 * 31 + 1) = false) ∧
    Written s (wr v) wFlt (row wFlt) (wr v).value ∧
    (let d : Drain := ⟨3, 5, 0, 0⟩
     let t : State := { later with flt := { later.flt with draining := [d], clock := 600 * fltUnit } }
     t.runs cFlt = true ∧ t.flt.draining = [d] ∧ d.at_ + 600 * fltUnit ≤ t.flt.clock ∧
       t.flt.draining.any (fun d => d.kind == (3 : BitVec 4).toNat && d.index == (5 : BitVec 16).toNat) = true ∧
       t.flt.draining.find? (fun d => d.kind == (3 : BitVec 4).toNat && d.index == (5 : BitVec 16).toNat) = some d ∧
       (0 : Nat) < d.at_ + 600 * fltUnit) :=
  ⟨by set_option maxRecDepth 100000 in decide +kernel, written_of (by set_option maxRecDepth 100000 in decide +kernel), by set_option maxRecDepth 100000 in decide +kernel⟩

/-- A part held in a reset since power-up. -/
def holding (k : RstKind) : State := { later with
  hk := { later.hk with inReset := some k }, clk := { later.clk with hpll := { later.clk.hpll with st := .off, refOk := false } } }

theorem witness_Resets : let s := armed later 0xC .host
    Written s (wr 0) (wHk + 8) (row (wHk + 8)) 0 ∧ Written s (fixed (wr 0) 2 2) (wHk + 8) (row (wHk + 8)) (fixed (wr 0) 2 2).value ∧
    Written s (fixed (wr 0) 3 1) (wHk + 8) (row (wHk + 8)) (fixed (wr 0) 3 1).value ∧ s.flt.retired = [] ∧
    (let t : State := { s with flt := { s.flt with retired := [(uFast * 65536 + 7, true)] } }
     (uFast * 65536 + 7, true) ∈ t.flt.retired) ∧ coreClears (wSeq 0) = true ∧ coreClears (wFirn + 8) = false := by
  refine ⟨written_of (by set_option maxRecDepth 100000 in decide +kernel), written_of (by set_option maxRecDepth 100000 in decide +kernel), written_of (by set_option maxRecDepth 100000 in decide +kernel), by set_option maxRecDepth 100000 in decide +kernel, by set_option maxRecDepth 100000 in decide +kernel, by set_option maxRecDepth 100000 in decide +kernel, by set_option maxRecDepth 100000 in decide +kernel⟩

theorem witness_Releases : up.hk.inReset = none ∧ (holding .por).hk.inReset = some .por ∧ (holding .por).pins.tripped = false ∧
    (holding .por).pllOn .hpll = true ∧ ((holding .por).pll .hpll).st = .off ∧
    ({ (holding .por).pins with tripped := true }).tripped = true ∧ (holding .core).hk.inReset = some .core ∧
    (holding .full).time.elapsed < (holding .full).hk.resetAt + 20480000 * 2 ^ 32 ∧
    ({ (holding .core).hk with resetAt := 0 }).resetAt + 2048000 * 2 ^ 32 ≤ 2 ^ 80 ∧ (holding .full).hk.inReset = some .full ∧
    ((holding .full).pll .hpll).refOk = false ∧ bitOf (holding .core).top.strap 12 = false ∧
    bitOf (holding .core).top.strap 3 = false := by
  set_option maxRecDepth 100000 in decide +kernel

/-- A part whose housekeeping is at a stage. -/
def staged (stage : BitVec 4) (f : Hk → Hk) : State := { armed later 0xC .host with
  hk := f { later.hk with stage := stage, fw := false }, clk := { later.clk with fpll := PllS.reset, spll := PllS.reset, spllXo := true }
  time := { later.time with inc := incXo, elapsed := 2 ^ 80 } }

theorem witness_Firmware : (staged stFirnInit id).hk.stage = stFirnInit ∧
    (staged stFirnInit id).hk.since + (staged stFirnInit id).firnInitTime ≤ (staged stFirnInit id).time.elapsed ∧
    (staged stFirnInit (fun h => { h with since := 2 ^ 80 })).time.elapsed <
      (staged stFirnInit (fun h => { h with since := 2 ^ 80 })).hk.since +
        (staged stFirnInit (fun h => { h with since := 2 ^ 80 })).firnInitTime ∧ later.clk.hpllXo = false ∧
    (staged stFwLoad id).runs cHk = true ∧ (staged stFwLoad id).hk.fw = false ∧ (staged stFwLoad id).hk.hostBoot = false ∧
    Written (staged stFwLoad (fun h => { h with hostBoot := true })) (fixed (wr 1) 0x80000000 0x80000000) (wHk + 0x14) (row (wHk + 0x14))
      (fixed (wr 1) 0x80000000 0x80000000).value ∧
    (let s := staged stFwLoad (fun h => { h with fw := true })
     s.hk.fw = true ∧ bitOf s.top.strap 12 = false ∧ ([.unsupported, .absent] : List DimmRead).length ≤ 4 ∧ s.hk.busy = false ∧
       (∀ n : Fin 4, s.flag (aCh n) 4 = false) ∧ s.time.running = false ∧ s.hk.done = 0 ∧ s.clk.spllXo = true ∧
       s.clk.fpll.st ≠ .locked ∧ s.clk.fpll.st ≠ .holdover) := by
  refine ⟨by set_option maxRecDepth 100000 in decide +kernel, by set_option maxRecDepth 100000 in decide +kernel, by set_option maxRecDepth 100000 in decide +kernel, by set_option maxRecDepth 100000 in decide +kernel, by set_option maxRecDepth 100000 in decide +kernel, by set_option maxRecDepth 100000 in decide +kernel, by set_option maxRecDepth 100000 in decide +kernel, written_of (by set_option maxRecDepth 100000 in decide +kernel), by set_option maxRecDepth 100000 in decide +kernel⟩

/-- A part with BASE_READY behind it, and arguments in the mailbox. -/
def mailed (arg0 arg1 arg2 arg3 : Word) : State :=
  ((((staged 4 (fun h => { h with fw := true })).putReg (wHk + 0x24) arg0).putReg (wHk + 0x28) arg1).putReg (wHk + 0x2C) arg2).putReg
    (wHk + 0x30) arg3

theorem witness_Bringup : Written (mailed 0 0 0 0) ⟨.host, 0xF, mbWord 1 9⟩ (wHk + 0x20) (row (wHk + 0x20)) (mbWord 1 9) ∧
    (mailed 0 0 0 0).runs cHk = true ∧ 4 ≤ (mailed 1 0 0 0).hk.stage.toNat ∧ bitOf ((mailed 1 0 0 0).mbArg 0) 0 = true ∧
    (mailed 1 0 0 0).time.running = false ∧ bits ((mailed 0x300 0 0 0).mbArg 0) 8 2 = 3 ∧
    BitVec.ofNat 4 (bits ((mailed 0 0 0 0).mbArg 0) 0 4) &&& ~~~ (mailed 0 0 0 0).hk.done = 0 ∧
    bitOf (mailed 1 0 0 0).hk.done 0 = false ∧ (mailed 1 0 0 0).clk.spllXo = true ∧ (mailed 1 0 0 0).clk.fpll.st = .off ∧
    (mailed 1 0 0 0).reg (aPll .fpll) = State.reset.reg (aPll .fpll) ∧ (bitOf ((mailed 4 0 0 0).mbArg 0) 2 = true ∧
      bitOf ((mailed 4 0 0 0).mbArg 0) 0 = false ∧ bitOf (mailed 4 0 0 0).hk.done 0 = false) :=
  ⟨written_of (by set_option maxRecDepth 100000 in decide +kernel), by set_option maxRecDepth 100000 in decide +kernel, by set_option maxRecDepth 100000 in decide +kernel, by set_option maxRecDepth 100000 in decide +kernel, by set_option maxRecDepth 100000 in decide +kernel, by set_option maxRecDepth 100000 in decide +kernel, by set_option maxRecDepth 100000 in decide +kernel, by set_option maxRecDepth 100000 in decide +kernel, by set_option maxRecDepth 100000 in decide +kernel, by set_option maxRecDepth 100000 in decide +kernel, by set_option maxRecDepth 100000 in decide +kernel,
    by set_option maxRecDepth 100000 in decide +kernel⟩

/-- A part whose BRINGUP is at a stage. -/
def bringing (stages : BitVec 4) (f : Hk → Hk) : State :=
  staged 5 (fun h => f { h with fw := true, bring := some ⟨stages, 0, 0⟩, busy := true })

theorem witness_Stages : (∀ i, i < 4 → (bringing (BitVec.ofNat 4 (2 ^ i)) id).hk.bring.bind Bring.current = some i) ∧
    (bringing 1 id).runs cHk = true ∧ (bringing 1 id).clk.fpll.st ≠ .locked ∧ (bringing 1 id).clk.fpll.st ≠ .holdover ∧
    (bringing 2 id).clk.mpll.st = .locked ∧ (bringing 8 id).hk.upAt = none ∧
    (bringing 8 (fun h => { h with upAt := some 3 })).hk.upAt = some 3 := by
  set_option maxRecDepth 100000 in decide +kernel

theorem witness_Mailbox : (∀ op ∈ [(2 : BitVec 8), 3, 4], Written (mailed 0 0 0 0) ⟨.host, 0xF, mbWord op 9⟩ (wHk + 0x20) (row (wHk + 0x20))
      (mbWord op 9)) ∧ (mailed 0 0 0 0).hk.fw = true ∧ (staged 3 id).hk.fw = false ∧
    (let s := mailed 0 0 0x10000 0x10000
     bitOf (s.mbArg 2) 16 = true ∧ s.time.ftValid = false ∧ s.sysrefBad 1 0 = 0 ∧ bits (s.syLiveAt 0) 24 8 = 0 ∧
       ftScale 0 < s.ftN + 10240000 * 2 ^ 32) ∧
    ¬ bitOf ((mailed 0 0 0 0).mbArg 2) 16 = true ∧ (mailed 0 0 0 0).sysrefBad 0 0 = 0 ∧ (mailed 0 0 0 0).mbArg 1 = 0 ∧
    (let s := mailed 5 2 0 0
     1 ≤ (s.mbArg 1).toNat ∧ (s.mbArg 1).toNat ≤ 1024 ∧ (s.mbArg 0).toNat * 64 + 8 * (s.mbArg 1).toNat ≤ 2 ^ 27) ∧
    2 ^ 27 < ((mailed 0x200000 1 0 0).mbArg 0).toNat * 64 + 8 * ((mailed 0x200000 1 0 0).mbArg 1).toNat := by
  have h : ∀ op ∈ [(2 : BitVec 8), 3, 4], writtenB (mailed 0 0 0 0) ⟨.host, 0xF, mbWord op 9⟩ (wHk + 0x20) (mbWord op 9) = true := by
    set_option maxRecDepth 100000 in decide +kernel
  exact ⟨fun op ho => written_of (h op ho), by set_option maxRecDepth 100000 in decide +kernel, by set_option maxRecDepth 100000 in decide +kernel, by set_option maxRecDepth 100000 in decide +kernel, by set_option maxRecDepth 100000 in decide +kernel, by set_option maxRecDepth 100000 in decide +kernel, by set_option maxRecDepth 100000 in decide +kernel, by set_option maxRecDepth 100000 in decide +kernel, by set_option maxRecDepth 100000 in decide +kernel⟩

theorem witness_Sysref : let s (x : Sysref) : State := { mailed 0 0 0 0 with hk := { (mailed 0 0 0 0).hk with sysref := some x } }
    (s ⟨none, 0, 0, false, none⟩).hk.sysref = some ⟨none, 0, 0, false, none⟩ ∧
    (s ⟨some (BitVec.allOnes 80), 0, 0, false, none⟩).ftN < ftScale (BitVec.allOnes 80) ∧ ftScale 0 ≤ (s ⟨some 0, 0, 0, false, none⟩).ftN ∧
    99984 + 16 ≤ (s ⟨none, 0, 0, false, some (99984, 0, 5)⟩).now ∧ (s ⟨none, 0, 0, false, some (99985, 0, 5)⟩).now < 99985 + 16 := by
  set_option maxRecDepth 100000 in decide +kernel

theorem witness_Readings : (mailed 0 0 0 0).hk.fw = true ∧ (List.replicate 8 (0x800 : BitVec 12)).length = 8 ∧
    (List.replicate 11 (0xFFFF : BitVec 16)).length = 11 ∧ supplyOff 10 0xFFFF = true ∧
    ((mailed 0 0 0 0).putReg (wHk + 0x104) 0x10000).flag (wHk + 0x104) 16 = true ∧
    8 * (((mailed 0 0 0 0).putReg (wHk + 0x104) 0x10000).fld (wHk + 0x104) 0 8 : Int) ≤ 0 := by
  set_option maxRecDepth 100000 in decide +kernel

theorem witness_Tap : State.reset.pins.porN = false ∧ State.reset.pins.supplyOut = false ∧ up.pins.porN = true := by
  set_option maxRecDepth 100000 in decide +kernel
/-! Ill-formed commands, one for each check of WellFormed. -/

theorem wf_registers : (Instr.registerWrite 0x1FFFFFC ⟨wr 0, [(0xF, 0)]⟩).wf = false ∧ (Instr.registerWrite 0x1FFFFFC ⟨wr 0, []⟩).wf = true ∧
    (Instr.clearOnRead 0x1FFFFF8 .host ⟨0xF, [0xF, 0xF]⟩).wf = false ∧ (Instr.unlockDisarmWrite 3 (wr 0x7A3C)).wf = false ∧
    (Instr.unlockDisarmWrite 3 (wr 0x7A3D)).wf = true := by
  set_option maxRecDepth 100000 in decide +kernel

theorem wf_host : (Instr.descriptorFetch (.slots (List.replicate 9 0))).wf = false ∧ (Instr.stage 0 (List.replicate 513 0)).wf = false ∧
    (Instr.send 0 (List.replicate 1921 0)).wf = false ∧ (Instr.send 0 (List.replicate 1920 0)).wf = true ∧ (Instr.bar4Read 0 0).wf = false ∧
    (Instr.bar4Read 0 65).wf = false ∧ (Instr.bar4Write 0 []).wf = false ∧ (Instr.dlUp 6 4).wf = false ∧ (Instr.dlUp 5 3).wf = false ∧
    (Instr.dlUp 5 16).wf = true := by
  set_option maxRecDepth 100000 in decide +kernel

/-- A payload of more than 2^30 bytes is no command (nothing of that length is built here). -/
theorem wf_payload (l : List Byte) (h : 2 ^ 30 < l.length) : (Instr.write 0 l).wf = false ∧ (Instr.dmaCompletion 0 0 l).wf = false := by
  have h' : decide (l.length ≤ 2 ^ 30) = false := decide_eq_false (Nat.not_le.mpr h)
  exact ⟨h', h'⟩

theorem wf_firn : (Instr.firnAccessServed 0 [⟨3, 0, none, 0⟩, ⟨3, 1, none, 0⟩] 0).wf = false ∧ (Instr.rimeTestDone [⟨0, 5⟩, ⟨0, 5⟩]).wf = false ∧
    (Instr.bankCopySkip [4, 4]).wf = false ∧ (Instr.qlinkMultiblock 0 true (List.replicate 7 [])).wf = false ∧
    (Instr.qlinkMultiblock 0 true (List.replicate 8 [])).wf = true := by
  set_option maxRecDepth 100000 in decide +kernel

theorem wf_fabric : (Instr.discover 0 0 0 (List.replicate 17 0)).wf = false ∧
    (Instr.report ⟨0, 0, 0, 0, 0⟩ ⟨0, false, false, 0, 0, List.replicate 9 ⟨0, 0, 0, 0⟩⟩).wf = false ∧
    (Instr.config ⟨0, 0, 0, 0, 0⟩ 0 (.table 0 [])).wf = false ∧ (Instr.mail 0 ⟨0, 0, 0, 0, 1, 0, 0, 0, []⟩).wf = false ∧
    (Instr.mail 0 ⟨0, 0, 0, 1, 241, 0, 0, 0, [7]⟩).wf = true := by
  set_option maxRecDepth 100000 in decide +kernel

theorem wf_housekeeping : (Instr.baseReady 0 []).wf = false ∧ (Instr.badOpcode .host 0xF 2 0).wf = false ∧
    (Instr.thermalReading (List.replicate 7 0)).wf = false ∧ (Instr.supplyMeasurement (List.replicate 12 0)).wf = false := by
  set_option maxRecDepth 100000 in decide +kernel

/-! Figures of the spec. -/

/-- The table gives no command any bits (spec/opcode_table.json; log 6). -/
theorem test_no_words (n w : Nat) : decodeTableWord n w = none := rfl

/-- 00 R8: 6,553.6 fu on the crystal oscillator, in units of 2^-32, rounded up at a tie. -/
theorem test_inc_xo : incXo.toNat = (65536 * 2 ^ 32 + 5) / 10 := by decide

/-- 04 R87: 2,560 fu a core cycle at 6.4 GS/s, which is FCW 81.92 with a post-divider of 2. -/
theorem test_inc_64 : (⟨81, 23, 25, 0⟩ : Point).inc.toNat = 2560 * 2 ^ 32 := by decide

/-- 02, the access walk-through, step 1: TOP_ID and the identification of window 0. -/
theorem test_top_id : (up.busRead .host 0 0xF).1 = 0x0F168000 ∧ (up.busRead .host 0x3FFC 0xF).1 = 0 := by
  set_option maxRecDepth 100000 in decide +kernel

/-- 02, steps 2 to 4: the armed write to the set alias is taken, the next one is discarded with cause 1 and recorded. -/
theorem test_guarded_alias :
    (match exec (.setAliasWrite 0x4020 (wr 1)) (armed up 0 .host) with
     | .next t => t.reg 0x20 == 1 && !(t.ctx 0 .host).arm && (match exec (.setAliasWrite 0x4020 (wr 2)) t with
        | .next u => u.reg 0x20 == 1 && (u.ctx 0 .host).rejInfo == 0x10004020
        | _ => false)
     | _ => false) = true := by
  set_option maxRecDepth 100000 in decide +kernel

/-- 06, the march at region 11,543: word 0x02D1_7940 is row 0xB45 of bank 229. -/
theorem test_firn_word : firnBank (0x02D17940 / 64) = 229 ∧ 0x02D17940 / 64 / 256 = 0xB45 := by decide

/-- 14, the retirement of F5: 800 core cycles at 2,560 fu are the 600 CD_FLT cycles of its drain window. -/
theorem test_drain_window :
    800 * ({ up with time := { up.time with inc := BitVec.ofNat _ (2560 * 2 ^ 32) } } : State).fltStep = 600 * fltUnit := by
  set_option maxRecDepth 100000 in decide +kernel

/-- 10: the CRC-32 of the nine ASCII digits, the check value of the IEEE 802.3 polynomial that R284 names. -/
theorem test_crc : crc32 [0x31, 0x32, 0x33, 0x34, 0x35, 0x36, 0x37, 0x38, 0x39] = 0xCBF43926 := by
  set_option maxRecDepth 100000 in decide +kernel

end Sys2Proof.Tests
end

section
/-!
A single-register read through BAR0 (00 R15, 02 R36): what a requester receives, and what the read clears.
-/

namespace Sys2Proof.Machine

/-- In the base quarter the register that a read reaches lies at the offset itself. -/
theorem baseOf_of_quarterOf_eq_zero {off : Nat} (h : quarterOf off = 0) : baseOf off = off := by
  unfold quarterOf at h
  unfold baseOf
  omega

/-- A listed register lies below the common tail of its window. -/
theorem tailOffset_lt_of_rowOf {off : Nat} {r : RegRow} (hq : quarterOf off = 0) (hr : rowOf (off / 4 * 4) = some r) :
    off % 0x4000 / 4 * 4 < 0x3FC0 := by
  have hlt := rowOf_lt hr
  unfold quarterOf at hq
  omega

/-- A read by either requester of a listed register in a running window answers the enabled bytes; of the stored bits it clears
the RC bits in them that were not set in this core cycle (R15). -/
theorem busRead_row {s : State} {rq : Requester} {off : Nat} {r : RegRow} (be : BitVec 4) (hrq : s.reaches rq = true)
    (hout : s.outside off = false) (hq : quarterOf off = 0) (hr : rowOf (off / 4 * 4) = some r) :
    s.busRead rq off be = (s.readReg (off / 4 * 4) &&& laneMask be,
      s.putReg (off / 4 * 4) (s.reg (off / 4 * 4) &&&
        ~~~ (r.mask .rc &&& laneMask be &&& ~~~ s.freshAt (off / 4 * 4)))) := by
  have htail := Nat.not_le.mpr (tailOffset_lt_of_rowOf hq hr)
  simp [State.busRead, hrq, hout, hq, htail, baseOf_of_quarterOf_eq_zero hq, hr]

/-- The host receives the one word of a single-register read (R36). -/
theorem readBack_host_single {s : State} {off : Nat} (be : BitVec 4) (hrq : s.reaches .host = true) :
    s.readBack .host off be = { (s.busRead .host off be).2 with
      readData := { (s.busRead .host off be).2.readData with host := [(s.busRead .host off be).1] } } := by
  simp [State.readBack, State.busReads, hrq]

/-- Settles O12: the read is one `putReg` of the register with the enabled RC bits cleared, and the data beside it. -/
theorem readClearsEnabledRcBits : Obligations.ReadClearsEnabledRcBits := by
  unfold Obligations.ReadClearsEnabledRcBits
  intro s off be r hrq hout hq hr a
  have hread := busRead_row be hrq hout hq hr
  refine ⟨s.readBack .host off.toNat be, rfl, ?_⟩
  rw [readBack_host_single be hrq, hread]
  exact ⟨rfl, State.reg_putReg s a _, fun b hb => State.reg_putReg_ne s _ hb, rfl⟩

end Sys2Proof.Machine
end

section
/-!
The running tick (03 R28, R57, R58, R84): what a core cycle does to it, and what the rows of the tick reach.
-/

namespace Sys2Proof.Machine

/-- Inside a tick a core cycle moves both counts of core cycles on by one and keeps the tick and its length. -/
theorem State.coreCycle_inside_clock {s : State} (hh : s.coreHeld = false) (hr : s.time.running = true)
    (hp : s.time.cycle + 1 < s.time.period) (hn : s.coreCycle.hk.inReset = none) :
    s.coreCycle.time.core = s.time.core + 1 ∧ s.coreCycle.time.running = true ∧
      s.coreCycle.time.cycle = s.time.cycle + 1 ∧ s.coreCycle.time.period = s.time.period ∧
      s.coreCycle.time.tickFt = s.time.tickFt ∧ s.coreCycle.time.ticks = s.time.ticks := by
  obtain ⟨n, -, hm, -⟩ := State.coreCycle_inside hh hr hp hn
  exact ⟨congrArg Beat.core hm.beat, (congrArg Beat.running hm.beat).trans hr, congrArg Beat.cycle hm.beat,
    congrArg Beat.period hm.beat, congrArg Beat.tickFt hm.beat, congrArg Beat.ticks hm.beat⟩

/-- The boundary of a phase does not depend on how many phases are done or how far the tick is. -/
theorem Time.bound_further (t : Time) (n i : Nat) : Time.bound { t.further with phasesDone := n } i = t.bound i := by
  unfold Time.bound
  split <;> rfl

/-- Inside a tick a boundary that has come stays, one still to come is no earlier, and the phase whose end has come is done. -/
theorem State.coreCycle_inside_phases {s : State} (hh : s.coreHeld = false) (hr : s.time.running = true)
    (hp : s.time.cycle + 1 < s.time.period) (hn : s.coreCycle.hk.inReset = none) :
    (∀ i, s.time.bound i ≤ s.coreCycle.time.bound i ∧
      (s.time.bound i ≤ s.time.cycle + 1 → s.coreCycle.time.bound i = s.time.bound i)) ∧
    s.time.phasesDone ≤ s.coreCycle.time.phasesDone ∧
    (s.time.phasesDone < 5 → s.time.bound s.time.phasesDone ≤ s.time.cycle + 1 →
      s.time.phasesDone < s.coreCycle.time.phasesDone) := by
  obtain ⟨n, hle, hm, hdo⟩ := State.coreCycle_inside hh hr hp hn
  have hd : s.coreCycle.time.phasesDone = n := congrArg Beat.phasesDone hm.beat
  rw [hd]
  refine ⟨fun i => ?_, hle, hdo⟩
  rw [← Time.bound_further s.time n i]
  exact ⟨hm.later i, hm.stays i⟩

/-- Settles O16: the cycle lies inside the tick, or it is the tick's last one. -/
theorem coreCycleMovesTheTick : Obligations.CoreCycleMovesTheTick := by
  unfold Obligations.CoreCycleMovesTheTick
  intro s hh hr t hn
  rcases Nat.lt_or_ge (s.time.cycle + 1) s.time.period with hp | hp
  · obtain ⟨hcore, hclock⟩ := State.coreCycle_inside_clock hh hr hp hn
    obtain ⟨hrun, hcyc, hper, hft, hticks⟩ := hclock
    exact ⟨hcore, fun _ => ⟨hrun, hcyc, hper, hft, hticks, State.coreCycle_inside_phases hh hr hp hn⟩,
      fun h => absurd hp (Nat.not_lt.mpr h)⟩
  · obtain ⟨hcore, hlast⟩ := State.coreCycle_last hh hr hp hn
    exact ⟨hcore, fun h => absurd h (Nat.not_lt.mpr hp), fun _ => hlast⟩

/-- The row of phase i (R58): commit, law, orders, supervision, snapshot. -/
def phaseRow (i : Nat) : Instr :=
  match i with
  | 0 => .stagedConfigurationCommit
  | 1 => .controlLawEvaluation
  | 2 => .sequencerCommitOfOrders
  | 3 => .loopSupervision
  | _ => .telemetrySnapshot

/-- The row of a phase lets core cycles pass until the end of that phase. -/
theorem exec_phaseRow (s : State) {i : Nat} (hi : i < 5) : exec (phaseRow i) s = .next (s.toPhaseEnd i) := by
  match i, hi with
  | 0, _ | 1, _ | 2, _ | 3, _ | 4, _ => rfl

/-- In the core cycle before the end of a phase that is not done, its row lets one core cycle pass. -/
theorem State.toPhaseEnd_of_next {s : State} {i : Nat} (hr : s.time.running = true) (hd : s.time.phasesDone ≤ i)
    (hb : s.time.bound i = s.time.cycle + 1) : s.toPhaseEnd i = s.coreCycle := by
  simp [State.toPhaseEnd, hr, hd, hb, State.advance]

/-- In the last core cycle of a tick TICK_BOUNDARY lets one core cycle pass. -/
theorem execTickBoundary_last {s : State} (hr : s.time.running = true) (hp : s.time.period = s.time.cycle + 1) :
    execTickBoundary s = .next s.coreCycle := by
  simp [execTickBoundary, hr, hp, State.advance, ok]

/-- Where a first tick is due and nothing waits for a flush, the tick's turn begins it. -/
theorem State.tickTurn_first {s : State} (hr : s.time.running = false) (hd : s.tickDue = true) (hf : s.time.flush = none) :
    s.tickTurn = s.tickBegin := by
  simp [State.tickTurn, State.tickFirst, hr, hd, hf]

/-- The flush empties every queue of orders and sets and leaves the rest of the time block: completing what waited touches none
of it. -/
theorem State.flushTicks_time (s : State) : s.flushTicks.time = { s.time with
    queue := [], closing := [], acting := [], resolved := [], sets := [], commits := [], flush := none } := by
  refine Still.eq ?_
  unfold State.flushTicks
  refine State.each_still ?_ (fun _ _ h => State.setCpl_still h)
  refine State.each_still ?_ (fun _ _ h => State.setCpl_still h)
  refine State.each_still ?_ (fun _ _ h => State.finishOrd_still h)
  refine State.each_still ?_ (fun _ _ h => State.finishOrd_still h)
  exact State.each_still ⟨rfl⟩ (fun _ _ h => State.finishOrd_still h)

/-- Settles O17: at its instant each row lets one core cycle pass, of which O16's lemmas tell what it does to the tick; a first
tick is waited for, and the flush is one step. -/
theorem tickRowsReachTheirInstant : Obligations.TickRowsReachTheirInstant := by
  unfold Obligations.TickRowsReachTheirInstant
  refine ⟨fun s hh hr hp => ?_, fun s i hi hh hr hd hb hp => ?_, fun s hr hf hv => ⟨?_, fun _ => State.tickTurn_first hr⟩,
    fun s c hc => ?_⟩
  · exact ⟨s.coreCycle, execTickBoundary_last hr hp, rfl, State.coreCycle_last hh hr (Nat.le_of_eq hp)⟩
  · refine ⟨s.coreCycle, (exec_phaseRow s hi).trans ?_, rfl, fun hn => ?_⟩
    · rw [State.toPhaseEnd_of_next hr (Nat.le_of_eq hd) hb]
    · obtain ⟨-, hrun, hcyc, -, -, hticks⟩ := State.coreCycle_inside_clock hh hr hp hn
      obtain ⟨-, -, hdo⟩ := State.coreCycle_inside_phases hh hr hp hn
      subst hd
      exact ⟨hdo hi (Nat.le_of_eq hb), hcyc, hrun, hticks⟩
  · show execFirstTickStart s = _
    simp [execFirstTickStart, hr, hf, hv, ok]
  · refine ⟨s.flushTicks, ?_, ?_⟩
    · show execTickStopFlush s = _
      simp [execTickStopFlush, hc, ok]
    · rw [State.flushTicks_time]
      exact ⟨rfl, rfl, rfl, rfl, rfl, rfl, rfl⟩

end Sys2Proof.Machine
end

section
/-!
Writes through BAR0 (02 R35, R39 to R45): what stands after an accepted one, and what a discarded one records.
-/

namespace Sys2Proof.Machine

open Sys2Proof.Safety

/-! An arm that is spent. -/

theorem armSpent_shadowAt (s : State) (rq : Requester) (w : Nat) (g : Bool) (a : Nat) :
    (armSpent s rq w g).shadowAt a = s.shadowAt a := by
  unfold armSpent
  split <;> rfl

theorem armSpent_landedOver (s : State) (rq : Requester) (w : Nat) (g : Bool) (a k : Nat) :
    (armSpent s rq w g).landedOver a k = s.landedOver a k := by
  unfold armSpent
  split <;> rfl

/-- After a write the arm of its requester in that window is not set. -/
theorem armSpent_arm (s : State) (rq : Requester) (w : Nat) (g : Bool) : ((armSpent s rq w g).ctx w rq).arm = false := by
  unfold armSpent
  split
  case isTrue => simp [State.setStatus, State.modCtx, State.ctx, State.setCtx, State.freshen]
  case isFalse harm => exact Bool.eq_false_iff.mpr harm

/-! What a stored write leaves. -/

theorem guardedAt_of_rowOf {a : Nat} {r : RegRow} (hr : rowOf a = some r) : guardedAt a = r.guarded := by
  simp [guardedAt, hr]

theorem lands_ctx (s : State) (rq : Requester) (a q : Nat) (r : RegRow) (v : Word) (w : Nat) (p : Requester) :
    (lands s rq a q r v).ctx w p = (armSpent s rq (a / 0x10000) r.guarded).ctx w p := by
  unfold lands
  dsimp only
  split
  · rfl
  · simp [State.land, State.ctx]

/-- A register with RW fields holds what the write lands. -/
theorem lands_reg {s : State} {rq : Requester} {a q : Nat} {r : RegRow} {v : Word} (hm : r.mask .rw ≠ 0) :
    (lands s rq a q r v).reg a = (armSpent s rq (a / 0x10000) r.guarded).landing r a (landRank rq) q v := by
  unfold lands
  dsimp only
  rw [if_neg hm]
  exact State.reg_setReg _ _ _

/-- The shadow of a guarded register follows the write (R53). -/
theorem lands_shadowAt {s : State} {rq : Requester} {a q : Nat} {r : RegRow} {v : Word} (hm : r.mask .rw ≠ 0)
    (hg : guardedAt a = true) :
    (lands s rq a q r v).shadowAt a = (armSpent s rq (a / 0x10000) r.guarded).landing r a (landRank rq) q v := by
  unfold lands
  dsimp only
  rw [if_neg hm]
  exact State.shadowAt_setReg _ _ hg

theorem lands_reg_ne (s : State) (rq : Requester) {a b : Nat} (q : Nat) (r : RegRow) (v : Word) (hb : b ≠ a) :
    (lands s rq a q r v).reg b = s.reg b := by
  unfold lands
  dsimp only
  split
  · exact armSpent_reg ..
  · exact (State.reg_setReg_ne _ _ hb).trans (armSpent_reg ..)

theorem lands_shadowAt_ne (s : State) (rq : Requester) {a b : Nat} (q : Nat) (r : RegRow) (v : Word) (hb : b ≠ a) :
    (lands s rq a q r v).shadowAt b = s.shadowAt b := by
  unfold lands
  dsimp only
  split
  · exact armSpent_shadowAt ..
  · exact (State.shadowAt_setReg_ne _ _ hb).trans (armSpent_shadowAt ..)

/-- With no later-ranking write on the register in the core cycle, the RW bits take what R39 gives for the quarter. -/
theorem armSpent_landing_last {s : State} {rq : Requester} {a q : Nat} (w : Nat) (g : Bool) (r : RegRow) (v : Word)
    (hl : Last s rq a) :
    (armSpent s rq w g).landing r a (landRank rq) q v =
      (s.reg a &&& ~~~ r.mask .rw) ||| (aliasOp q (s.reg a) v &&& r.mask .rw) := by
  have hl' : Last (armSpent s rq w g) rq a := (armSpent_landedOver ..).trans hl
  rw [landing_last hl', armSpent_reg]
  rfl

/-- No register of TOP acts when it is written (02 Registers). -/
theorem afterWrite_top (s : State) (rq : Requester) {a : Nat} (old new v : Word) (staged : Bool) (h : Hint)
    (ha : a / 0x10000 = 0) : s.afterWrite rq a old new v staged h = s := by
  unfold State.afterWrite
  simp [ha]

/-! The four quarters (R39). -/

/-- The command that writes a register through a quarter. -/
def quarterWrite (q : Nat) (off : BitVec 25) (w : Wr) : Instr :=
  match q with
  | 0 => .registerWrite off ⟨w, []⟩
  | 1 => .setAliasWrite off w
  | 2 => .clearAliasWrite off w
  | _ => .toggleAliasWrite off w

theorem exec_quarterWrite (s : State) {q : Nat} {off : BitVec 25} (w : Wr) (hq : q < 4) (ho : off.toNat % 0x10000 < 0x3FC0) :
    exec (quarterWrite q off w) s = .next (s.busWrite w.rq (aliasOff off.toNat q) w.be w.value) := by
  match q, hq with
  | 0, _ => rw [aliasOff_zero ho]; rfl
  | 1, _ | 2, _ | 3, _ => rfl

/-- An accepted full write through any quarter: its bits land, then the register's own effect acts. -/
theorem exec_quarterWrite_taken {s : State} {q : Nat} {off : BitVec 25} {w : Wr} {r : RegRow} (hbe : w.be = 0xF)
    (ht : Takes s w.rq off.toNat q r w.value) :
    let new := (armSpent s w.rq (off.toNat / 0x10000) r.guarded).landing r off.toNat (landRank w.rq) q w.value
    exec (quarterWrite q off w) s = .next ((lands s w.rq off.toNat q r w.value).afterWrite w.rq off.toNat (s.reg off.toNat) new
      (if q = 0 then new ||| (w.value &&& r.requestMask) else new) false {}) := by
  intro new
  rw [exec_quarterWrite s w ht.quarter (rowOf_lt ht.row), hbe, busWrite_takes ht, accept_lands]

/-- Settles O7: the write lands as the laws of `lands` say, and its register's own effect, of which TOP has none, acts on that. -/
theorem acceptedWriteStoresAndActs : Obligations.AcceptedWriteStoresAndActs := by
  unfold Obligations.AcceptedWriteStoresAndActs
  intro s off q r w hbe ht a u old m c x new v t
  have hexec : exec c s = .next (t.afterWrite w.rq a old new v false {}) := exec_quarterWrite_taken hbe ht
  have hx : x = aliasOp q old w.value := rfl
  refine ⟨fun hl => ?_, hexec, fun ha => ?_, fun hm => ⟨lands_reg hm, fun hg => ?_⟩, fun b hb => ?_, lands_eq .., ?_⟩
  · rw [hx]
    exact armSpent_landing_last _ _ r w.value hl
  · rw [hexec, afterWrite_top _ _ _ _ _ _ _ ha]
  · exact lands_shadowAt hm ((guardedAt_of_rowOf ht.row).trans hg)
  · exact ⟨lands_reg_ne s w.rq q r w.value hb, lands_shadowAt_ne s w.rq q r w.value hb⟩
  · exact (congrArg Ctx.arm (lands_ctx ..)).trans (armSpent_arm ..)

/-! Discarded writes (R45). -/

section

variable {s : State} {rq : Requester} {off : Nat} {r : RegRow} {be : BitVec 4} {v : Word} {h : Hint}

/-- A write that reaches a running window is judged there. -/
theorem busWrite_inside (hrq : s.reaches rq = true) (hout : s.outside off = false) :
    s.busWrite rq off be v h = s.writeIn rq (off / 4 * 4) be v h := by
  simp [State.busWrite, hrq, hout]

/-- In the base window a register with a row lies below the common tail. -/
theorem tail_lt_of_rowOf_baseOf (hr : rowOf (baseOf off) = some r) : off % 0x4000 < 0x3FC0 := by
  have hlt := rowOf_lt hr
  unfold baseOf at hlt
  omega

/-- A write that does not carry all four bytes is discarded as cause 4, whatever it names (R41). -/
theorem writeIn_partial (hr : rowOf (baseOf off) = some r) (hbe : be ≠ 0xF) :
    s.writeIn rq off be v h = (armSpent s rq (off / 0x10000) r.guarded).reject rq off 4 := by
  simp only [State.writeIn, if_pos (tail_lt_of_rowOf_baseOf hr), hr, if_pos hbe]
  rfl

/-- The byte enables of a full write pass the width test. -/
theorem full_width : ¬ (0xF : BitVec 4) ≠ 0xF := fun h => h rfl

/-- A write through a quarter other than the base one of a register without aliases is discarded as cause 3 (R40). -/
theorem writeIn_noAlias (hr : rowOf (baseOf off) = some r) (hq : quarterOf off ≠ 0) (hal : r.aliases = false) :
    s.writeIn rq off 0xF v h = (armSpent s rq (off / 0x10000) r.guarded).reject rq off 3 := by
  have htail := tail_lt_of_rowOf_baseOf hr
  have hno : (decide (quarterOf off ≠ 0) && !r.aliases) = true := by simp [hq, hal]
  simp only [State.writeIn, if_pos htail, hr, if_neg full_width, if_neg (Nat.not_le.mpr htail), if_pos hno]
  rfl

section

variable (hr : rowOf (baseOf off) = some r) (hq : quarterOf off = 0 ∨ r.aliases = true)

include hq in
/-- The base quarter passes the second test of R45, and so does every quarter of a register with aliases. -/
theorem quarter_passes : ¬ (decide (quarterOf off ≠ 0) && !r.aliases) = true := by
  rcases hq with hq | hq <;> simp [hq]

include hr hq

/-- A write to a register with no writable field spends the arm and does nothing else. -/
theorem writeIn_readOnly (hm : r.mask .rw ||| r.requestMask = 0) :
    s.writeIn rq off 0xF v h = armSpent s rq (off / 0x10000) r.guarded := by
  have htail := tail_lt_of_rowOf_baseOf hr
  simp only [State.writeIn, if_pos htail, hr, if_neg full_width, if_neg (Nat.not_le.mpr htail), if_neg (quarter_passes hq),
    if_pos hm]
  rfl

/-- A write that the guard, the encoding or the block's rule refuses is recorded with its cause, and the rule's own effects
act. -/
theorem writeIn_refused {cause : Nat} {x : Rej} (hm : r.mask .rw ||| r.requestMask ≠ 0)
    (href : (armSpent s rq (off / 0x10000) r.guarded).refusal r (baseOf off)
      (r.written (quarterOf off) (s.reg (baseOf off)) v).2 (s.ctx (off / 0x10000) rq).arm = some (cause, x)) :
    s.writeIn rq off 0xF v h = ((armSpent s rq (off / 0x10000) r.guarded).reject rq off cause).rejEffects x := by
  have htail := tail_lt_of_rowOf_baseOf hr
  rw [← armSpent_reg s rq (off / 0x10000) r.guarded] at href
  unfold armSpent at href ⊢
  simp only [State.writeIn, if_pos htail, hr, if_neg full_width, if_neg (Nat.not_le.mpr htail), if_neg (quarter_passes hq),
    if_neg hm, href]

end

end

/-- The guard comes first. -/
theorem State.refusal_unarmed (s : State) {r : RegRow} (a : Nat) (v : Word) (hg : r.guarded = true) :
    s.refusal r a v false = some (1, {}) := by
  simp [State.refusal, hg]

/-- Past the guard an unlisted encoding comes next. -/
theorem State.refusal_unlisted (s : State) {r : RegRow} (a : Nat) {v : Word} {armed : Bool} (hg : r.guarded = true → armed = true)
    (he : r.encOk v = false) : s.refusal r a v armed = some (2, {}) := by
  cases hgr : r.guarded
  · simp [State.refusal, hgr, he]
  · simp [State.refusal, hg hgr, he]

/-- Settles O8: the four tests of R45 in their order; the guard and the encoding have no effect but the record. -/
theorem discardedWriteRecordsFirstCause : Obligations.DiscardedWriteRecordsFirstCause := by
  unfold Obligations.DiscardedWriteRecordsFirstCause
  intro s off w r hrq hout hr o q a u v win refused
  have hexec : exec (.registerWrite off ⟨w, []⟩) s = .next (s.writeIn w.rq o w.be w.value {}) :=
    congrArg Host.Outcome.next (busWrite_inside hrq hout)
  rw [hexec]
  refine ⟨fun hbe => ?_, fun hbe hq hal => ?_, fun hbe hq hm => ⟨fun hg harm => ?_, fun hg he => ?_⟩, fun hbe hq hm => ?_⟩
  · rw [writeIn_partial hr hbe]; rfl
  · rw [hbe, writeIn_noAlias hr hq hal]; rfl
  · rw [hbe, writeIn_refused hr hq hm (by rw [harm]; exact State.refusal_unarmed _ _ _ hg)]; rfl
  · rw [hbe, writeIn_refused hr hq hm (State.refusal_unlisted _ _ hg he)]; rfl
  · rw [hbe, writeIn_readOnly hr hq hm]

/-! Offsets outside all windows (R35). -/

/-- Settles O9: both accesses stop at the window test. -/
theorem outsideAccess : Obligations.OutsideAccess := by
  unfold Obligations.OutsideAccess
  intro s off w hrq hwin
  have hout : s.outside off.toNat = true := by simp [State.outside, hwin]
  constructor
  · show ok (if s.outside off.toNat then s.write off.toNat w else s) = _
    rw [if_pos hout]
    simp [State.write, State.busWrite, hrq, hout, State.raise, State.reg]
  · show ok (s.readBack .host off.toNat w.be) = _
    cases hhost : s.reaches .host
    · simp [State.readBack, hhost]
    · rw [readBack_host_single w.be hhost]
      simp [State.busRead, hout]

end Sys2Proof.Machine
end

section
/-!
The common tail of a window (02 R43, R48 to R51): a write and a read there, and the wide-value mailbox.
-/

namespace Sys2Proof.Machine

open Sys2Proof.Safety

/-- The data of a read request reaches its requester. -/
def State.receive (s : State) (rq : Requester) (l : List Word) : State :=
  { s with readData := match rq with
    | .host => { s.readData with host := l }
    | .housekeeping => { s.readData with housekeeping := l } }

/-- A requester receives the one word of a single-register read (R36). -/
theorem readBack_single {s : State} {rq : Requester} {off : Nat} (be : BitVec 4) (hrq : s.reaches rq = true) :
    s.readBack rq off be = (s.busRead rq off be).2.receive rq [(s.busRead rq off be).1] := by
  cases rq
  · exact readBack_host_single be hrq
  · simp [State.readBack, State.busReads, hrq, State.receive]

section

variable {s : State} {rq : Requester} {w o : Nat}

/-- Every offset of a window lies outside where its base does. -/
theorem outside_in_window (ho : o < 0x10000) (hout : s.outside (w * 0x10000) = false) : s.outside (w * 0x10000 + o) = false := by
  have hw : (w * 0x10000 + o) / 0x10000 = w * 0x10000 / 0x10000 := by omega
  unfold State.outside at hout ⊢
  rwa [hw]

/-- A full write in the base quarter's common tail spends the arm as a write of an unguarded register does. -/
theorem busWrite_tail (v : Word) (h : Hint) (hlo : 0x3FC0 ≤ o) (hhi : o < 0x4000) (h4 : o % 4 = 0) (hrq : s.reaches rq = true)
    (hout : s.outside (w * 0x10000) = false) :
    s.busWrite rq (w * 0x10000 + o) 0xF v h = (armSpent s rq w false).writeTail rq w o v (s.ctx w rq).arm := by
  have hword : (w * 0x10000 + o) / 4 * 4 = w * 0x10000 + o := by omega
  have hwin : (w * 0x10000 + o) / 0x10000 = w := by omega
  have hoff : (w * 0x10000 + o) % 0x4000 = o := by omega
  have hquarter : quarterOf (w * 0x10000 + o) = 0 := by unfold quarterOf; omega
  rw [busWrite_inside hrq (outside_in_window (by omega) hout), hword]
  simp only [State.writeIn, hwin, hoff, hquarter, if_pos hlo, if_neg (Nat.not_lt.mpr hlo)]
  rfl

/-- A read in the base quarter's common tail. -/
theorem busRead_tail (be : BitVec 4) (hlo : 0x3FC0 ≤ o) (hhi : o < 0x4000) (h4 : o % 4 = 0) (hrq : s.reaches rq = true)
    (hout : s.outside (w * 0x10000) = false) :
    s.busRead rq (w * 0x10000 + o) be = s.readTail rq w o (laneMask be) := by
  have hword : (w * 0x10000 + o) % 0x4000 / 4 * 4 = o := by omega
  have hwin : (w * 0x10000 + o) / 0x10000 = w := by omega
  have hquarter : quarterOf (w * 0x10000 + o) = 0 := by unfold quarterOf; omega
  simp [State.busRead, hrq, outside_in_window (by omega : o < 0x10000) hout, hword, hwin, hquarter, hlo]

/-- The data word of the mailbox at place `d` (R51). -/
theorem readTail_data (m : Word) {d : Nat} (hd : d < 4) : s.readTail rq w (0x3FD0 + 4 * d) m = s.readData32 rq w d m := by
  match d, hd with
  | 0, _ | 1, _ | 2, _ | 3, _ => rfl

/-- A read of a data word while VALID is 1: the captured word, and D3 clears VALID (R48). -/
theorem readData32_valid (d : Nat) (m : Word) (hv : (s.ctx w rq).valid = true) :
    s.readData32 rq w d m = (((s.ctx w rq).capture >>> (32 * d)).setWidth 32 &&& m,
      if d = 3 then s.modCtx w rq (fun c => { c with valid := false }) else s) := by
  simp [State.readData32, hv]

/-- A read of a data word while VALID is 0: zero, and EARLY_READ is set (R51). -/
theorem readData32_early (d : Nat) (m : Word) (hv : (s.ctx w rq).valid = false) :
    s.readData32 rq w d m =
      (0, (s.modCtx w rq (fun c => { c with earlyRead := true })).freshen (ctxKey w rq 0x3FC4) (bit1 2)) := by
  simp [State.readData32, hv]

/-- What a requester receives of the mailbox's data word at place `d`. -/
theorem readBack_data (be : BitVec 4) {d : Nat} (hd : d < 4) (hrq : s.reaches rq = true) (hout : s.outside (w * 0x10000) = false) :
    s.readBack rq (w * 0x10000 + 0x3FD0 + 4 * d) be =
      (s.readData32 rq w d (laneMask be)).2.receive rq [(s.readData32 rq w d (laneMask be)).1] := by
  rw [Nat.add_assoc, readBack_single be hrq, busRead_tail be (by omega) (by omega) (by omega) hrq hout, readTail_data _ hd]

end

/-- A selector word holds SPACE above INDEX (R50). -/
theorem selector_toNat (space : BitVec 8) (index : BitVec 16) :
    ((space ++ index).setWidth 32 : Word).toNat = space.toNat * 65536 + index.toNat := by
  rw [BitVec.toNat_setWidth, BitVec.toNat_append, ← Nat.shiftLeft_add_eq_or_of_lt index.isLt, Nat.shiftLeft_eq]
  omega

theorem selector_space (space : BitVec 8) (index : BitVec 16) :
    BitVec.ofNat 8 (bits ((space ++ index).setWidth 32 : Word) 16 8) = space := by
  apply BitVec.eq_of_toNat_eq
  unfold bits
  rw [BitVec.toNat_ofNat, selector_toNat]
  omega

theorem selector_index (space : BitVec 8) (index : BitVec 16) :
    ((space ++ index).setWidth 32 : Word).setWidth 16 = index := by
  apply BitVec.eq_of_toNat_eq
  rw [BitVec.toNat_setWidth, selector_toNat]
  omega

/-- Settles O11: the selector is a write of the common tail, the data words are reads of it. -/
theorem wideValueMailbox : Obligations.WideValueMailbox := by
  unfold Obligations.WideValueMailbox
  refine ⟨fun s win rq space index hrq hout => ?_, fun s win rq hpend hrun => ?_, fun s rq win d be hrq hout => ?_⟩
  · show ok (s.busWrite rq (win.toNat * 0x10000 + 0x3FC0) 0xF ((space ++ index).setWidth 32)) = _
    rw [busWrite_tail _ _ (by decide) (by decide) (by decide) hrq hout]
    simp only [State.writeTail, if_true, selector_space, selector_index]
  · intro c
    show ok (s.capture win.toNat rq) = _
    unfold State.capture
    simp only [hpend, hrun]
    cases s.wideValue win.toNat (s.ctx win.toNat rq).space.toNat (s.ctx win.toNat rq).index.toNat <;> rfl
  · intro c data early
    have hdata : ∀ x t, data x t = t.receive rq [x] := fun x t => by cases rq <;> rfl
    have hword : exec (.wvDataRead win rq d be) s = ok ((s.readData32 rq win.toNat d.val (laneMask be)).2.receive rq
        [(s.readData32 rq win.toNat d.val (laneMask be)).1]) :=
      congrArg ok (readBack_data be (by omega : d.val < 4) hrq hout)
    have hoff : win.toNat * 0x10000 + 0x3FDC = win.toNat * 0x10000 + 0x3FD0 + 4 * 3 := by omega
    have hlast : exec (.wvD3Read win rq be) s = ok ((s.readData32 rq win.toNat 3 (laneMask be)).2.receive rq
        [(s.readData32 rq win.toNat 3 (laneMask be)).1]) :=
      congrArg ok ((congrArg (s.readBack rq · be) hoff).trans (readBack_data be (by decide : 3 < 4) hrq hout))
    rw [hword, hlast, hdata, hdata, hdata]
    constructor
    · intro hv
      rw [readData32_valid _ _ hv, readData32_valid _ _ hv, if_neg (by omega), if_pos rfl]
      exact ⟨rfl, rfl⟩
    · intro hv
      rw [readData32_early _ _ hv, readData32_early _ _ hv]
      exact ⟨rfl, rfl⟩

end Sys2Proof.Machine
end

section
/-!
Upsets and the shadow comparison (02 R16, R53, R54).
-/

namespace Sys2Proof.Machine

/-- A change of a register that no unit follows by its level is the change of its bits alone. -/
theorem changeLive_plain {s : State} {a : Nat} (v : Word) (hl : levelDriven a = false) : s.changeLive a v = s.putReg a v := by
  simp [State.changeLive, hl]

theorem upsetCtx_window {s : State} {win : BitVec 8} (rq : Requester) (f : Ctx → Ctx) (hw : isWindow win.toNat = true) :
    s.upsetCtx win rq f = s.setCtx win.toNat rq (f (s.ctx win.toNat rq)) := by
  simp [State.upsetCtx, hw, State.modCtx]

/-- An upset of a stored bit is a change of the register's live bits. -/
theorem upset_register {s : State} {off : BitVec 25} {i : Fin 32} {r : RegRow} (hr : rowOf (baseOf off.toNat / 4 * 4) = some r)
    (hw : isWindow (baseOf off.toNat / 4 * 4 / 0x10000) = true) (hbit : bitOf r.storedMask i.val = true) :
    s.upset (.register off i) =
      s.changeLive (baseOf off.toNat / 4 * 4) (s.reg (baseOf off.toNat / 4 * 4) ^^^ bit1 i.val) := by
  simp [State.upset, hw, hr, hbit]

/-! The shadow comparison (R53). -/

/-- Applying what leaves a state as it is, for each element of a list, leaves it. -/
theorem State.each_fixed {α : Type} {s : State} {f : State → α → State} (hf : ∀ x, f s x = s) (l : List α) :
    s.each l f = s := by
  unfold State.each
  induction l with
  | nil => rfl
  | cons x l ih => rw [List.foldl_cons, hf, ih]

/-- Whether every guarded register but the one at `a` agrees with its shadow. -/
def AgreeBut (s : State) (a : Nat) : Prop := ∀ b, b ≠ a → guardedAt b = true → s.reg b = s.shadowAt b

/-- The state once the register at `a` has its RW bits back from the shadow: the fix is counted, named and reported. -/
def repaired (s : State) (a : Nat) (r : RegRow) : State :=
  let last := BitVec.ofNat 32 (a / 0x10000 * 2 ^ 24 + a % 0x10000)
  let u := (s.putReg a ((s.reg a &&& ~~~ r.mask .rw) ||| (s.shadowAt a &&& r.mask .rw))).bump 0x40
  ({ u with top := { u.top with shadowLast := last } }).detect 0x01 0 0 last

/-- The comparison leaves a register that is not guarded, or agrees with its shadow in the RW bits. -/
theorem compareOne_of_agrees {s : State} {a : Nat}
    (h : ∀ r, rowOf a = some r → r.guarded = true → (s.reg a ^^^ s.shadowAt a) &&& r.mask .rw = 0) : s.compareOne a = s := by
  unfold State.compareOne
  split
  · rfl
  case _ r hr =>
    cases hg : r.guarded
    · simp
    · simp [h r hr hg]

/-- The comparison leaves a register whose stored word is its shadow's. -/
theorem compareOne_of_eq {s : State} {a : Nat} (h : guardedAt a = true → s.reg a = s.shadowAt a) : s.compareOne a = s := by
  refine compareOne_of_agrees (fun r hr hg => ?_)
  rw [h ((guardedAt_of_rowOf hr).trans hg), BitVec.xor_self]
  exact BitVec.zero_and

/-- The comparison of a guarded register of a running window that differs from its shadow. -/
theorem compareOne_of_differs {s : State} {a : Nat} {r : RegRow} (hr : rowOf a = some r) (hg : r.guarded = true)
    (hrun : s.windowStopped (a / 0x10000) = false) (hl : levelDriven a = false)
    (hd : (s.reg a ^^^ s.shadowAt a) &&& r.mask .rw ≠ 0) : s.compareOne a = repaired s a r := by
  have hgo : (!r.guarded || s.windowStopped (a / 0x10000) || decide ((s.reg a ^^^ s.shadowAt a) &&& r.mask .rw = 0)) = false := by
    rw [hg, hrun, decide_eq_false hd]
    rfl
  simp only [State.compareOne, hr, hgo, changeLive_plain _ hl]
  rfl

/-- TOP_SHADOW_FIXES is not guarded. -/
theorem fixes_unguarded : guardedAt 0x40 = false := by decide

section

variable {s : State} {a : Nat} {r : RegRow}

theorem repaired_shadowAt (b : Nat) : (repaired s a r).shadowAt b = s.shadowAt b := by
  simp [repaired, State.shadowAt]

/-- Of the guarded registers the repair changes that at `a` alone: the counter of fixes is not guarded. -/
theorem repaired_reg_of_guarded {b : Nat} (hg : guardedAt b = true) : (repaired s a r).reg b =
    (s.putReg a ((s.reg a &&& ~~~ r.mask .rw) ||| (s.shadowAt a &&& r.mask .rw))).reg b := by
  have h40 : b ≠ 0x40 := fun e => Bool.false_ne_true (fixes_unguarded.symm.trans (e ▸ hg))
  simp only [repaired, State.reg, State.detect, State.bump, State.putReg]
  exact Tab.get_set_ne h40

/-- Bits taken back from the shadow agree with it. -/
theorem merged_agrees (x y m : Word) : (((x &&& ~~~ m) ||| (y &&& m)) ^^^ y) &&& m = 0 := by
  ext i hi
  simp only [BitVec.getElem_and, BitVec.getElem_xor, BitVec.getElem_or, BitVec.getElem_not]
  cases x[i] <;> cases y[i] <;> cases m[i] <;> simp

/-- A second comparison finds nothing more to repair. -/
theorem compareOne_repaired (hr : rowOf a = some r) (hg : r.guarded = true) (hag : AgreeBut s a) (b : Nat) :
    (repaired s a r).compareOne b = repaired s a r := by
  have hga : guardedAt a = true := (guardedAt_of_rowOf hr).trans hg
  by_cases hb : b = a
  · refine compareOne_of_agrees (fun x hx _ => ?_)
    subst hb
    obtain rfl : r = x := Option.some.inj (hr.symm.trans hx)
    rw [repaired_reg_of_guarded hga, State.reg_putReg, repaired_shadowAt, merged_agrees]
  · exact compareOne_of_eq (fun hgb => ((repaired_reg_of_guarded hgb).trans (State.reg_putReg_ne _ _ hb)).trans (hag b hb hgb))

/-- Comparing a list of registers that names the one that differs repairs it, once. -/
theorem each_compareOne_repairs (hr : rowOf a = some r) (hg : r.guarded = true) (hag : AgreeBut s a)
    (ha : s.compareOne a = repaired s a r) (l : List Nat) (hl : a ∈ l) : s.each l State.compareOne = repaired s a r := by
  induction l with
  | nil => cases hl
  | cons b l ih =>
    by_cases hb : b = a
    · subst hb
      exact (congrArg (State.each · l State.compareOne) ha).trans
        (State.each_fixed (compareOne_repaired hr hg hag) l)
    · have hl' : a ∈ l := (List.mem_cons.mp hl).resolve_left (Ne.symm hb)
      exact (congrArg (State.each · l State.compareOne) (compareOne_of_eq (hag b hb))).trans (ih hl')

end

/-! The registers that the comparison visits. -/

/-- A key that is inserted, and every key that was there, is there afterwards. -/
theorem Tab.mem_keys_insert {α : Type} {k j : Nat} {v : α} {m : Tab α} (h : j = k ∨ j ∈ m.map Prod.fst) :
    j ∈ (Tab.insert m k v).map Prod.fst := by
  induction m with
  | nil => exact List.mem_cons.mpr h
  | cons e m ih =>
    obtain ⟨k', v'⟩ := e
    have hkeys : j = k ∨ j = k' ∨ j ∈ m.map Prod.fst := h.imp_right List.mem_cons.mp
    by_cases hk : k = k'
    · rw [Tab.insert, if_pos hk]
      refine List.mem_cons.mpr ?_
      rcases hkeys with hj | hj | hj
      · exact .inl hj
      · exact .inl (hj.trans hk.symm)
      · exact .inr hj
    · by_cases hlt : k < k'
      · rw [Tab.insert, if_neg hk, if_pos hlt]
        exact List.mem_cons.mpr h
      · rw [Tab.insert, if_neg hk, if_neg hlt]
        refine List.mem_cons.mpr ?_
        rcases hkeys with hj | hj | hj
        · exact .inr (ih (.inl hj))
        · exact .inl hj
        · exact .inr (ih (.inr hj))

/-- The registers that the comparison visits: every guarded one that is listed, and every one whose shadow is. -/
def State.shadowKeys (s : State) : List Nat :=
  (s.shadow.foldl (fun t e => Tab.insert t e.1 ())
    ((s.regs.filter (fun e => guardedAt e.1)).map (fun e => (e.1, ())))).map Prod.fst

theorem compareShadows_eq {s : State} (hfw : s.hk.fw = true) : s.compareShadows = s.each s.shadowKeys State.compareOne := by
  simp [State.compareShadows, hfw, State.shadowKeys]

theorem mem_foldl_insert {j : Nat} {m : Tab Word} {t : Tab Unit} (h : j ∈ t.map Prod.fst ∨ j ∈ m.map Prod.fst) :
    j ∈ (m.foldl (fun t e => Tab.insert t e.1 ()) t).map Prod.fst := by
  induction m generalizing t with
  | nil => simpa using h
  | cons e m ih =>
    refine ih ?_
    rcases h with h | h
    · exact .inl (Tab.mem_keys_insert (.inr h))
    · rcases List.mem_cons.mp h with h | h
      · exact .inl (Tab.mem_keys_insert (.inl h))
      · exact .inr h

/-- A guarded register that differs from its shadow is visited: one of the two is listed. -/
theorem mem_shadowKeys {s : State} {a : Nat} (hg : guardedAt a = true) (hd : s.reg a ≠ s.shadowAt a) : a ∈ s.shadowKeys := by
  refine mem_foldl_insert ?_
  by_cases hreg : s.reg a = regDefault a
  · obtain ⟨v, hv⟩ := Tab.mem_of_get_ne (d := regDefault) (m := s.shadow) (k := a) (fun e => hd (hreg.trans e.symm))
    exact .inr (List.mem_map_of_mem hv)
  · obtain ⟨v, hv⟩ := Tab.mem_of_get_ne (d := regDefault) (m := s.regs) (k := a) hreg
    refine .inl ?_
    simp only [List.map_map, List.mem_map, List.mem_filter]
    exact ⟨(a, v), ⟨hv, hg⟩, rfl⟩

/-- Where every guarded register agrees, the comparison changes nothing. -/
theorem compareShadows_of_agree {s : State} (h : ∀ b, guardedAt b = true → s.reg b = s.shadowAt b) : s.compareShadows = s := by
  cases hfw : s.hk.fw
  · simp [State.compareShadows, hfw]
  · rw [compareShadows_eq hfw]
    exact State.each_fixed (fun b => compareOne_of_eq (h b)) _

/-- Settles O13: an upset is one `putReg` or `setCtx`; the comparison visits the register that differs and repairs it once. -/
theorem upsetAndShadowRepair : Obligations.UpsetAndShadowRepair := by
  unfold Obligations.UpsetAndShadowRepair
  refine ⟨fun s off i r => ?_, fun s rq win hw => ?_,
    fun s a r hfw hr hg hrun hl hd hag => ?_, fun s h => ?_⟩
  · intro a hr hw hbit hl
    exact congrArg ok ((upset_register hr hw hbit).trans (changeLive_plain _ hl))
  · exact ⟨congrArg ok (upsetCtx_window rq _ hw), congrArg ok (upsetCtx_window rq _ hw),
      fun i => congrArg ok (upsetCtx_window rq _ hw), fun i => congrArg ok (upsetCtx_window rq _ hw),
      fun i => congrArg ok (upsetCtx_window rq _ hw)⟩
  · have hne : s.reg a ≠ s.shadowAt a := fun e => hd (by rw [e, BitVec.xor_self]; exact BitVec.zero_and)
    have hvisit := mem_shadowKeys ((guardedAt_of_rowOf hr).trans hg) hne
    have hone := compareOne_of_differs hr hg hrun hl hd
    exact congrArg ok ((compareShadows_eq hfw).trans (each_compareOne_repairs hr hg hag hone _ hvisit))
  · exact congrArg ok (compareShadows_of_agree h)

end Sys2Proof.Machine
end

section
/-!
The gates of TOP_GLOBAL_EN (02 R55): what becomes live at a core-cycle boundary, and what that leaves of TOP.
-/

namespace Sys2Proof.Machine

open Sys2Proof.Safety

/-- The row of TOP_GLOBAL_EN (02 Registers). -/
theorem rowOf_globalEn : rowOf (wTop + 0x20) = some (regGA 0x20 [fRW 1 1 0, fRW 0 1 0]) := rfl

theorem State.each_top {α : Type} {f : State → α → State} (hf : ∀ t x, (f t x).top = t.top) (s : State) (l : List α) :
    (s.each l f).top = s.top := by
  unfold State.each
  induction l generalizing s with
  | nil => rfl
  | cons x l ih => exact (ih (f s x)).trans (hf s x)

theorem State.seqLive_top (s : State) (n : Nat) : (s.seqLive n).top = s.top := by
  unfold State.seqLive
  dsimp only
  split
  · rfl
  · split
    · rfl
    · split
      · exact (State.endBurst_onlySeq (onlySeq_refl n s)).top
      · rfl

theorem State.lineLive_top (s : State) (l : Nat) : (s.lineLive l).top = s.top := by
  unfold State.lineLive
  dsimp only
  split
  · rfl
  · split
    · exact (State.lineStop_onlySeq (onlySeq_refl 0 s)).top
    · rfl

theorem State.einLive_top (s : State) (i : Nat) : (s.einLive i).top = s.top := by
  unfold State.einLive
  dsimp only
  split <;> rfl

theorem State.modTla_top (s : State) (f : Tla → Tla) : (s.modTla f).top = s.top := rfl

theorem State.tlaLive_top (s : State) : s.tlaLive.top = s.top := by
  unfold State.tlaLive
  dsimp only
  repeat' split
  all_goals rfl

/-- At a core-cycle boundary the gates take the bits of TOP_GLOBAL_EN; no other copy that becomes live touches TOP. -/
theorem State.liveCopies_top (s : State) : s.liveCopies.top =
    { s.top with convLive := s.flag (wTop + 0x20) 0, lineLive := s.flag (wTop + 0x20) 1 } := by
  simp only [State.liveCopies, State.tlaLive_top, State.modTla_top, State.each_top State.einLive_top,
    State.each_top State.lineLive_top, State.each_top State.seqLive_top]

/-- Settles O14: TOP has no effects of its own, so the write stores the two bits and the boundary copies them to the gates. -/
theorem globalEnableIsStored : Obligations.GlobalEnableIsStored := by
  unfold Obligations.GlobalEnableIsStored
  intro s w r hbe ht hl t
  obtain rfl : r = regGA 0x20 [fRW 1 1 0, fRW 0 1 0] := Option.some.inj (ht.row.symm.trans rowOf_globalEn)
  have hreg : t.reg (wTop + 0x20) = (s.reg (wTop + 0x20) &&& ~~~ 3) ||| (w.value &&& 3) :=
    (lands_reg (by decide)).trans (armSpent_landing_last _ _ _ _ hl)
  have hbit : ∀ i, i < 2 → t.flag (wTop + 0x20) i = bitOf w.value i := fun i hi => by
    unfold State.flag
    rw [hreg]
    match i, hi with
    | 0, _ | 1, _ => simp [bitOf]
  refine ⟨?_, hreg, ?_, fun b hb => ?_, wrote_eq .., ?_⟩
  · show ok (s.busWrite w.rq (wTop + 0x20) w.be w.value) = _
    obtain ⟨new, full, hbus⟩ := busWrite_lands (h := {}) ht
    rw [hbe, hbus, afterWrite_top _ _ _ _ _ _ _ rfl]
  · rw [hreg]
    exact (lands_shadowAt (by decide) rfl).trans (armSpent_landing_last _ _ _ _ hl)
  · exact ⟨lands_reg_ne s w.rq 0 _ w.value hb, lands_shadowAt_ne s w.rq 0 _ w.value hb⟩
  · rw [State.liveCopies_top]
    exact ⟨hbit 0 (by decide), hbit 1 (by decide)⟩

end Sys2Proof.Machine
end

section
/-!
CLK_SPLL_PSTEP (04 R100): what an accepted write of it adds to the accumulator.
-/

namespace Sys2Proof.Machine

open Sys2Proof.Safety

/-- The row of CLK_SPLL_PSTEP (04 Registers): one write-only field, nothing stored. -/
def rowPhaseStep : RegRow := regG 0x10C [fWO 0 16]

theorem rowOf_phaseStep : rowOf (wClk + 0x10C) = some rowPhaseStep := rfl

/-- The effect of CLK_SPLL_PSTEP takes the low half of the value as written. -/
theorem afterWrite_phaseStep {t : State} (rq : Requester) (old new v : Word) (h : Hint) (hlive : Live t (wClk + 0x10C)) :
    t.afterWrite rq (wClk + 0x10C) old new v false h = t.pendAdd (v.setWidth 16 : BitVec 16).toInt := by
  unfold Live at hlive
  unfold State.afterWrite
  simp only [hlive, Bool.false_and, Bool.false_eq_true, if_false]
  rfl

/-- Where no bit is RW, R39 leaves the stored word as it is. -/
theorem stored_of_no_rw (x y : Word) : (x &&& ~~~ (0 : Word)) ||| (y &&& 0) = x := by
  rw [show ~~~ (0 : Word) = BitVec.allOnes 32 from rfl, BitVec.and_allOnes]
  exact (congrArg (x ||| ·) BitVec.and_zero).trans BitVec.or_zero

/-- An accepted phase step adds the written field over whatever word the register holds: R39 keeps the stored bits that are no
RW field, and a write-only register has no other. -/
theorem exec_phaseStepWrite {s : State} {w : Wr} (hw : Written s w (wClk + 0x10C) rowPhaseStep w.value) :
    exec (.phaseStepWrite w) s = .next ((wrote s w.rq (wClk + 0x10C) rowPhaseStep w.value).pendAdd
      ((s.reg (wClk + 0x10C) ||| (w.value &&& 0xFFFF)).setWidth 16 : BitVec 16).toInt) := by
  have hmask : rowPhaseStep.mask .rw = 0 := by decide
  have hreq : rowPhaseStep.requestMask = 0xFFFF := by decide
  have hnew : (armSpent s w.rq ((wClk + 0x10C) / 0x10000) rowPhaseStep.guarded).landing rowPhaseStep (wClk + 0x10C)
      (landRank w.rq) 0 w.value = s.reg (wClk + 0x10C) := by
    rw [armSpent_landing_last _ _ _ _ hw.last, hmask]
    exact stored_of_no_rw _ _
  show ok (s.busWrite w.rq (wClk + 0x10C) w.be w.value) = _
  rw [hw.full, busWrite_base hw.takes, accept_lands, hnew, if_pos rfl, hreq]
  exact congrArg ok (afterWrite_phaseStep _ _ _ _ _ (wrote_live hw.live))

/-- A part with the CLK window armed for housekeeping, in which a bit stands in the word of CLK_SPLL_PSTEP. The register stores
nothing, so no run is meant to come here; but a statement about every state speaks of this one too. -/
def strayStep : State :=
  { State.reset with
    hk := { Hk.reset with inReset := none }
    regs := [(wClk + 0x10C, 1)]
    ctxs := [(7, { Ctx.reset with arm := true })] }

/-- A full write by housekeeping of a phase step of zero. -/
def zeroStep : Wr := ⟨.housekeeping, 0xF, 0⟩

theorem written_strayStep : Written strayStep zeroStep (wClk + 0x10C) rowPhaseStep zeroStep.value where
  full := rfl
  takes := {
    row := rowOf_phaseStep
    word := rfl
    quarter := by decide
    reaches := by decide
    inside := by decide
    aliases := .inl rfl
    writable := by decide
    armed := fun _ => by decide
    listed := by decide
    rule := by decide }
  live := by unfold Live; decide
  last := by unfold Last; decide

/-- Refutes O28: the clause of the phase step has the written value alone added, for every state; where a bit stands in the word of
the write-only register, the step of zero adds that bit's 16 sixteenths. -/
theorem not_spllControlsAct : ¬ Obligations.SpllControlsAct := by
  unfold Obligations.SpllControlsAct
  rintro ⟨-, -, -, -, -, hstep, -⟩
  have hsaid := hstep strayStep zeroStep rowPhaseStep written_strayStep rfl
  rw [exec_phaseStepWrite written_strayStep] at hsaid
  have hpend := congrArg (fun t : State => t.clk.pend) (Host.Outcome.next.inj hsaid)
  exact absurd hpend (by decide)

end Sys2Proof.Machine
end

section
/-!
Orders and sets on their way in (03 R67 to R69, R77; 05 R136): what reaches the queue and the staging store.
-/

namespace Sys2Proof.Machine

/-- A core cycle whose number has come is waited for without time passing. -/
theorem State.toCycle_come {s : State} {c : Nat} (h : c ≤ s.now) : s.toCycle c = s := by
  rw [State.toCycle, Nat.sub_eq_zero_of_le h, State.advance]

@[simp] theorem State.each_singleton {α : Type} (s : State) (x : α) (f : State → α → State) : s.each [x] f = f s x := rfl

/-- A mask with the bit of one sequencer names that sequencer alone. -/
theorem chans_of_oneBit (n : Fin 24) :
    (List.range 24).filter (fun i => bitOf (BitVec.ofNat 24 (2 ^ n.val)) i) = [n.val] := by
  decide +revert

/-- The target of an order of housekeeping on one sequencer, before its tests (R70). -/
def hkTarget (s : State) (h : HkOrder) (n : Nat) : Ord :=
  { src := .housekeeping, ring := 0, slot := 0, tag := 0, intr := false, quiet := false, node := s.node, oseq := 0,
    prio := 0, chan := n, lane := h.lane.toNat, action := h.action, t := if h.asap then none else some h.effect,
    arrival := s.now, remote := false, tick := none }

/-- While the core is not held the row of an order of housekeeping takes it in. -/
theorem exec_orderQueueArrival_hk {s : State} (h : HkOrder) (hheld : s.coreHeld = false) :
    exec (.orderQueueArrival (some h)) s = ok (s.hkOrders h) := by
  show ok (if s.coreHeld then s else s.hkOrders h) = _
  rw [if_neg (Bool.eq_false_iff.mp hheld)]

/-- A listed order of housekeeping on one sequencer whose target passes the tests is queued with its tick. -/
theorem State.hkOrders_admitted {s : State} {h : HkOrder} {n : Fin 24} {tick : Option Nat} (hlane : h.lane.toNat < 5)
    (hact : actionBad h.lane.toNat h.action = false) (hmask : h.seqMask = BitVec.ofNat 24 (2 ^ n.val))
    (htests : s.ordTests (hkTarget s h n) 0 0 = .ok tick) :
    s.hkOrders h =
      { s with time := { s.time with queue := s.time.queue ++ [{ hkTarget s h n with tick := tick }] } } := by
  have hlisted : ¬ (decide (5 ≤ h.lane.toNat) || actionBad h.lane.toNat h.action) = true := by
    simpa [hact] using hlane
  rw [State.hkOrders, if_neg hlisted, hmask, chans_of_oneBit, State.each_singleton]
  unfold hkTarget at htests
  simp only [htests, hkTarget]

/-- The targets of orders that come in together, in ascending order of the sequencers. -/
def Inbound.targets (i : Inbound) : List Ord :=
  ((List.range 24).filter (fun n => bitOf i.mask n)).map (fun n => { i.ord with chan := n })

/-- Where one arrival is on its way and its core cycle has come, its targets go behind what waits (R136). -/
theorem State.nextArrival_single {s : State} {i : Inbound} (hin : s.time.inbound = [i]) (hdue : i.due ≤ s.now) :
    s.nextArrival = { s with time := { s.time with inbound := [], queue := s.time.queue ++ i.targets } } := by
  simp [State.nextArrival, hin, State.toCycle_come hdue, State.ordersArrive, hdue, Inbound.targets]

/-- A set that its time does not refuse: it is due at once, or FT is valid and no tick at or after its time has begun (R68). -/
def State.setInTime (s : State) (x : SSet) : Prop :=
  x.asap = true ∨ (s.time.ftValid = true ∧ dueBegun (ftScale x.commitFt) s.time.begun = none)

/-- A faultless set in time is staged where a slot is free (R68, R77). -/
theorem State.setArrive_staged {s : State} {x : SSet} (ht : s.setInTime x) (hroom : s.time.sets.length < 16) :
    s.setArrive x none = { s with time := { s.time with sets := s.time.sets ++ [x] } } := by
  have hfree := Nat.not_le.mpr hroom
  rcases ht with hasap | ⟨hft, hbegun⟩
  · simp [State.setArrive, hasap, hfree]
  · simp [State.setArrive, hft, hbegun, hfree]

/-- Where one set is on its way and its core cycle has come, it arrives alone, with the fault of R77 that its entries have. -/
theorem State.nextSet_single {s : State} {i : InSet} (hin : s.time.inSets = [i]) (hdue : i.due ≤ s.now) :
    s.nextSet = State.setArrive { s with time := { s.time with inSets := [] } } i.set (setFault i.count i.set.entries) := by
  simp [State.nextSet, hin, State.toCycle_come hdue, State.setsArrive, hdue]

/-- Settles O18: one target of housekeeping, one arrival of orders, one arrival of a set. -/
theorem ordersAndSetsArrive : Obligations.OrdersAndSetsArrive := by
  unfold Obligations.OrdersAndSetsArrive
  refine ⟨?housekeeping, ?inbound, ?staged⟩
  case housekeeping =>
    intro s h n tick hheld hlane hact hmask o htests
    rw [exec_orderQueueArrival_hk h hheld, State.hkOrders_admitted hlane hact hmask htests]
    rfl
  case inbound =>
    intro s i hin hdue
    exact congrArg ok (State.nextArrival_single hin hdue)
  case staged =>
    intro s i hin hdue hfault ht hroom
    refine congrArg ok ((State.nextSet_single hin hdue).trans ?_)
    rw [hfault]
    exact State.setArrive_staged ht hroom

end Sys2Proof.Machine
end

section
/-!
The precedence of committed orders (03 R70 to R72): of two source classes, within the fabric class, and within the others.
-/

namespace Sys2Proof.Machine

section
variable {a b : Ord}

/-- R70: of two source classes the lower SRC code wins. -/
theorem ordBeats_of_src_ne (h : a.src ≠ b.src) : ordBeats a b = decide (OrdSrc.code a.src < OrdSrc.code b.src) := by
  rw [ordBeats, if_pos h]

/-- R71 within the fabric class: PRIO, then the node address, then the sequence distance. -/
theorem ordBeats_fabric (ha : a.src = .fabric) (hb : b.src = .fabric) :
    ordBeats a b = if a.prio ≠ b.prio then decide (b.prio < a.prio)
      else if a.node ≠ b.node then decide (a.node.toNat < b.node.toNat)
      else decide (1 ≤ (a.oseq - b.oseq).toNat ∧ (a.oseq - b.oseq).toNat < 2 ^ 31) := by
  rw [ordBeats, if_neg (not_not_intro (ha.trans hb.symm)), if_pos ha]

/-- R71 within the classes of the host and of housekeeping: the arrival, then the ring. -/
theorem ordBeats_local (hsrc : a.src = b.src) (ha : a.src ≠ .fabric) :
    ordBeats a b = if a.arrival ≠ b.arrival then decide (b.arrival < a.arrival) else decide (b.ring ≤ a.ring) := by
  rw [ordBeats, if_neg (not_not_intro hsrc), if_neg ha]

/-- Of two fabric orders the one of the higher PRIO wins, whichever came later. -/
theorem ordBeats_fabric_prio (ha : a.src = .fabric) (hb : b.src = .fabric) (h : b.prio < a.prio) :
    ordBeats a b = true ∧ ordBeats b a = false := by
  have hne : a.prio ≠ b.prio := Nat.ne_of_gt h
  rw [ordBeats_fabric ha hb, ordBeats_fabric hb ha, if_pos hne, if_pos hne.symm]
  exact ⟨decide_eq_true h, decide_eq_false (Nat.lt_asymm h)⟩

/-- Of two fabric orders of one PRIO the one of the lower node address wins, whichever came later. -/
theorem ordBeats_fabric_node (ha : a.src = .fabric) (hb : b.src = .fabric) (hp : a.prio = b.prio)
    (h : a.node.toNat < b.node.toNat) : ordBeats a b = true ∧ ordBeats b a = false := by
  have hne : a.node ≠ b.node := fun e => Nat.ne_of_lt h (congrArg BitVec.toNat e)
  rw [ordBeats_fabric ha hb, ordBeats_fabric hb ha, if_neg (not_not_intro hp), if_neg (not_not_intro hp.symm), if_pos hne,
    if_pos hne.symm]
  exact ⟨decide_eq_true h, decide_eq_false (Nat.lt_asymm h)⟩

/-- Of two orders of one node and PRIO the one ahead by less than half the sequence space wins. -/
theorem ordBeats_fabric_oseq (ha : a.src = .fabric) (hb : b.src = .fabric) (hp : a.prio = b.prio) (hn : a.node = b.node)
    (hlo : 1 ≤ (a.oseq - b.oseq).toNat) (hhi : (a.oseq - b.oseq).toNat < 2 ^ 31) : ordBeats a b = true := by
  rw [ordBeats_fabric ha hb, if_neg (not_not_intro hp), if_neg (not_not_intro hn)]
  exact decide_eq_true ⟨hlo, hhi⟩

/-- Of two orders of the host, or of housekeeping, the later arrival wins, whichever is compared with which. -/
theorem ordBeats_local_arrival (hsrc : a.src = b.src) (ha : a.src ≠ .fabric) (h : b.arrival < a.arrival) :
    ordBeats a b = true ∧ ordBeats b a = false := by
  have hne : a.arrival ≠ b.arrival := Nat.ne_of_gt h
  rw [ordBeats_local hsrc ha, ordBeats_local hsrc.symm (hsrc ▸ ha), if_pos hne, if_pos hne.symm]
  exact ⟨decide_eq_true h, decide_eq_false (Nat.lt_asymm h)⟩

/-- Of two orders that arrive in one core cycle the one from the higher ring wins. -/
theorem ordBeats_local_ring (hsrc : a.src = b.src) (ha : a.src ≠ .fabric) (harr : a.arrival = b.arrival)
    (h : b.ring < a.ring) : ordBeats a b = true ∧ ordBeats b a = false := by
  rw [ordBeats_local hsrc ha, ordBeats_local hsrc.symm (hsrc ▸ ha), if_neg (not_not_intro harr),
    if_neg (not_not_intro harr.symm)]
  exact ⟨decide_eq_true (Nat.le_of_lt h), decide_eq_false (Nat.not_le_of_lt h)⟩

end

/-- A target with one contender on a channel that is on: the contender wins it, and no order ends (R72). -/
theorem State.resolveTarget_single {s : State} {o : Ord} (hon : (s.seq o.chan).st ≠ .off) :
    s.resolveTarget o [] = { s with time := { s.time with resolved := s.time.resolved ++ [Acting.ofOrd o] } } := by
  have hwin : ordWinner o [] = o := rfl
  simp only [State.resolveTarget, hwin, if_neg hon, State.each_singleton, if_true]

/-- A list of one contender is resolved as its one target. -/
theorem State.resolveAll_single (s : State) (o : Ord) : s.resolveAll 1 [o] = s.resolveTarget o [] := rfl

/-- Settles O19: the rank of the classes, the tests within each class, and the single contender. -/
theorem orderPrecedence : Obligations.OrderPrecedence := by
  unfold Obligations.OrderPrecedence
  refine ⟨fun a b => ordBeats_of_src_ne, by decide, by decide, ?fabric, ?sameClass, ?single⟩
  case fabric =>
    intro a b ha hb
    exact ⟨ordBeats_fabric_prio ha hb, ordBeats_fabric_node ha hb, ordBeats_fabric_oseq ha hb⟩
  case sameClass =>
    intro a b hsrc ha
    exact ⟨ordBeats_local_arrival hsrc ha, ordBeats_local_ring hsrc ha⟩
  case single =>
    intro s o hon
    rw [State.resolveAll_single, State.resolveTarget_single hon]

end Sys2Proof.Machine
end

section
/-!
What a change of a PLL's consumers leaves alone: posting to the host, dropping links, faulting loops and passing a core cycle keep
the clock block.
-/

namespace Sys2Proof.Machine

open Sys2Proof.Safety

section

variable {β : Type}

/-- What every change of a list of changes keeps, the whole list keeps. -/
theorem State.each_keep {α : Type} (g : State → β) {f : State → α → State} (hf : ∀ t x, g (f t x) = g t) (s : State)
    (l : List α) : g (s.each l f) = g s := by
  unfold State.each
  induction l generalizing s with
  | nil => rfl
  | cons x l ih => exact (ih (f s x)).trans (hf s x)

/-- Where each change touches its own unit alone, every unit of the list is changed once. -/
theorem State.each_unit (g : State → Nat → β) (F : Nat → β → β) {f : State → Nat → State}
    (hne : ∀ t n m, m ≠ n → g (f t n) m = g t m) (heq : ∀ t n, g (f t n) n = F n (g t n)) {l : List Nat} (hl : l.Nodup)
    {n : Nat} (hn : n ∈ l) (s : State) : g (s.each l f) n = F n (g s n) := by
  have hout : ∀ (l : List Nat) (s : State), n ∉ l → g (s.each l f) n = g s n := by
    intro l
    induction l with
    | nil => exact fun _ _ => rfl
    | cons x l ih =>
      intro s hx
      rw [List.mem_cons, not_or] at hx
      exact (ih (f s x) hx.2).trans (hne s x n hx.1)
  induction l generalizing s with
  | nil => cases hn
  | cons x l ih =>
    obtain ⟨hx, hl'⟩ := List.nodup_cons.mp hl
    rcases List.mem_cons.mp hn with rfl | hn'
    · exact (hout l (f s n) hx).trans (heq s n)
    · have hxn : n ≠ x := fun h => hx (h ▸ hn')
      exact (ih hl' hn' (f s x)).trans (congrArg (F n) (hne s x n hxn))

end

/-! Posting to the host (05 R126 to R132). -/

/-- A state but for what posting to the host works on: registers, host interface and output port. -/
def State.butPost (s : State) : State := { s with regs := [], hif := Hif.reset, out := [] }

theorem State.clk_of_butPost {s t : State} (h : t.butPost = s.butPost) : t.clk = s.clk :=
  show t.butPost.clk = s.butPost.clk by rw [h]

@[simp] theorem State.butPost_hif (s : State) (h : Hif) : { s with hif := h }.butPost = s.butPost := rfl
@[simp] theorem State.bump_butPost (s : State) (a : Nat) : (s.bump a).butPost = s.butPost := rfl
@[simp] theorem State.emit_butPost (s : State) (o : Out) : (s.emit o).butPost = s.butPost := rfl
@[simp] theorem State.modRing_butPost (s : State) (n : Nat) (f : Ring → Ring) : (s.modRing n f).butPost = s.butPost := rfl
@[simp] theorem State.dropEntry_butPost (s : State) (n : Nat) : (s.dropEntry n).butPost = s.butPost := rfl

@[simp] theorem State.signalIf_butPost (s : State) (n : Nat) : (s.signalIf n).butPost = s.butPost := by
  unfold State.signalIf State.signalRing State.msix
  dsimp only
  repeat' split
  all_goals simp

@[simp] theorem State.writeSlot_butPost (s : State) (n k w : Nat) (twoStep : Bool) :
    (s.writeSlot n k w twoStep).butPost = s.butPost := by
  cases twoStep <;> rfl

@[simp] theorem State.postCpl_butPost (s : State) (n : Nat) (c : Cpl) : (s.postCpl n c).butPost = s.butPost := by
  unfold State.postCpl
  dsimp only
  repeat' split
  all_goals simp

@[simp] theorem State.postEvt_butPost (s : State) (kind : Nat) (dw : List Word) : (s.postEvt kind dw).butPost = s.butPost := by
  unfold State.postEvt State.postEvtAt State.dropRecord State.writeOverflow
  dsimp only
  repeat' split
  all_goals simp

@[simp] theorem State.postMail_butPost (s : State) (n : Nat) (src : BitVec 12) (k : Nat) (p : List Byte) :
    (s.postMail n src k p).butPost = s.butPost := by
  induction k generalizing s p with
  | zero => rfl
  | succ k ih =>
    rw [State.postMail, apply_ite State.butPost, ih, ite_self, State.signalIf_butPost, State.writeSlot_butPost]

@[simp] theorem State.modDesc_butPost (s : State) (ring slot : Nat) (f : Desc → Desc) :
    (s.modDesc ring slot f).butPost = s.butPost := rfl

@[simp] theorem State.dropDesc_butPost (s : State) (ring slot : Nat) : (s.dropDesc ring slot).butPost = s.butPost := by
  unfold State.dropDesc
  split <;> rfl

@[simp] theorem State.flushRing_butPost (s : State) (ring k : Nat) : (s.flushRing ring k).butPost = s.butPost := by
  induction k generalizing s with
  | zero => rfl
  | succ k ih =>
    unfold State.flushRing
    repeat' split
    all_goals simp [ih]

@[simp] theorem State.endDesc_butPost (s : State) (ring : Nat) (d : Desc) (status delay aux : Nat) :
    (s.endDesc ring d status delay aux).butPost = s.butPost := by
  unfold State.endDesc State.complete
  dsimp only
  repeat' split
  all_goals simp

/-! Streams and descriptors that are aborted (07 R205). -/

/-- A state but for the streams and for what posting to the host works on. -/
def State.butStreams (s : State) : State := { s with mor := { s.mor with streams := [] } }.butPost

theorem State.clk_mem_of_butStreams {s t : State} (h : t.butStreams = s.butStreams) :
    t.clk = s.clk ∧ t.mor.mem = s.mor.mem :=
  ⟨show t.butStreams.clk = s.butStreams.clk by rw [h], show t.butStreams.mor.mem = s.butStreams.mor.mem by rw [h]⟩

theorem State.streamAbort_butStreams (s : State) (n : Nat) : (s.streamAbort n).butStreams = s.butStreams := by
  unfold State.streamAbort
  dsimp only
  split <;> rfl

theorem State.endDesc_butStreams (s : State) (ring : Nat) (d : Desc) (status delay aux : Nat) :
    (s.endDesc ring d status delay aux).butStreams = s.butStreams :=
  congrArg (fun t : State => { t with mor := { t.mor with streams := [] } }) (State.endDesc_butPost s ring d status delay aux)

/-- An abort ends descriptors and streams and leaves the clocks and the contents of Moraine as they are. -/
theorem State.morAbort_butStreams (s : State) (since : Nat) : (s.morAbort since).butStreams = s.butStreams := by
  unfold State.morAbort
  dsimp only
  rw [State.each_keep State.butStreams State.streamAbort_butStreams,
    State.each_keep State.butStreams (fun t (x : Nat × Desc) => State.endDesc_butStreams t x.1 x.2 sAborted since x.2.moved)]

@[simp] theorem State.morAbort_clk (s : State) (since : Nat) : (s.morAbort since).clk = s.clk :=
  (State.clk_mem_of_butStreams (s.morAbort_butStreams since)).1

@[simp] theorem State.morAbort_mem (s : State) (since : Nat) : (s.morAbort since).mor.mem = s.mor.mem :=
  (State.clk_mem_of_butStreams (s.morAbort_butStreams since)).2

/-! Links that drop (13 R331, R344). -/

@[simp] theorem State.modLink_clk (s : State) (n : Nat) (f : Link → Link) : (s.modLink n f).clk = s.clk := rfl
@[simp] theorem State.modDesc_clk (s : State) (ring slot : Nat) (f : Desc → Desc) : (s.modDesc ring slot f).clk = s.clk := rfl

@[simp] theorem State.postMail_clk (s : State) (n : Nat) (src : BitVec 12) (k : Nat) (p : List Byte) :
    (s.postMail n src k p).clk = s.clk :=
  State.clk_of_butPost (s.postMail_butPost n src k p)

@[simp] theorem State.modNzl_clk (s : State) (f : Nzl → Nzl) : (s.modNzl f).clk = s.clk := rfl

@[simp] theorem State.freeInput_clk (s : State) (p : Pkt) : (s.freeInput p).clk = s.clk := by
  unfold State.freeInput
  repeat' split
  all_goals rfl

@[simp] theorem State.linkPump_clk (s : State) (n k : Nat) : (s.linkPump n k).clk = s.clk := by
  induction k generalizing s with
  | zero => rfl
  | succ k ih =>
    unfold State.linkPump
    dsimp only
    repeat' split
    all_goals simp [ih]

@[simp] theorem State.linkPut_clk (s : State) (n : Nat) (p : Pkt) : (s.linkPut n p).clk = s.clk := by
  simp [State.linkPut]

@[simp] theorem State.sendNak_clk (s : State) (to_ : BitVec 12) (b : NakBody) : (s.sendNak to_ b).clk = s.clk := by
  unfold State.sendNak State.notice
  dsimp only
  repeat' split
  all_goals simp

@[simp] theorem State.topoSend_clk (s : State) (n code : Nat) : (s.topoSend n code).clk = s.clk := by
  unfold State.topoSend State.refusePkt
  dsimp only
  repeat' split
  all_goals simp

@[simp] theorem State.parentLost_clk (s : State) : s.parentLost.clk = s.clk := by
  unfold State.parentLost State.timeUnlock
  repeat' split
  all_goals simp

@[simp] theorem State.inputGone_clk (s : State) (n : Nat) : (s.inputGone n).clk = s.clk := by
  unfold State.inputGone
  exact State.each_keep State.clk (fun t m => by simp) s _

@[simp] theorem State.linkDropTo_clk (s : State) (n : Nat) (st : LkSt) : (s.linkDropTo n st).clk = s.clk := by
  unfold State.linkDropTo
  dsimp only
  repeat' split
  all_goals simp

/-- Dropping the links leaves the clocks as they are. -/
@[simp] theorem State.linksDrop_clk (s : State) : s.linksDrop.clk = s.clk := by
  refine State.each_keep State.clk (fun t n => ?_) s _
  split <;> simp

/-! Loops that fault (12 R320). -/


@[simp] theorem State.loopFault_clk (s : State) (n cause m : Nat) (dw1 : Word) (record : Bool) :
    (s.loopFault n cause m dw1 record).clk = s.clk := by
  unfold State.loopFault State.loopEvent
  dsimp only
  refine (State.each_keep State.clk (fun t x => ?_) _ _).trans ?_ <;> split <;> rfl

/-- The safe action of every closed loop leaves the clocks as they are. -/
@[simp] theorem State.loopBypass_clk (s : State) : s.loopBypass.clk = s.clk := by
  refine State.each_keep State.clk (fun t n => ?_) s _
  split <;> simp

end Sys2Proof.Machine
end

section
/-!
What the passing of a core cycle does to the clocks apart from their own share (04 R87, R92, R100): the engines beside them leave them
as they are, and reference edges change neither what the consumers run from nor what a search aims at.
-/

namespace Sys2Proof.Machine

open Sys2Proof.Safety

/-! Engines beside the clocks. -/

@[simp] theorem State.modTla_clk (s : State) (f : Tla → Tla) : (s.modTla f).clk = s.clk := rfl


@[simp] theorem State.fltCycle_clk (s : State) : s.fltCycle.clk = s.clk := by
  unfold State.fltCycle
  dsimp only
  repeat' split
  all_goals rfl

@[simp] theorem State.tlaChecked_clk (s : State) : s.tlaChecked.clk = s.clk := by
  unfold State.tlaChecked
  dsimp only
  repeat' split
  all_goals simp

@[simp] theorem State.seracWord_clk (s : State) (p : Nat) (wrong : BitVec 72) : (s.seracWord p wrong).clk = s.clk := by
  unfold State.seracWord
  dsimp only
  repeat' split
  all_goals simp

@[simp] theorem State.seracNext_clk (s : State) : s.seracNext.clk = s.clk := by
  unfold State.seracNext
  extract_lets u
  have hu : u.clk = s.clk := rfl
  clear_value u
  split
  · exact hu
  · split <;> exact hu

@[simp] theorem State.postEvt_clk (s : State) (kind : Nat) (dw : List Word) : (s.postEvt kind dw).clk = s.clk :=
  State.clk_of_butPost (s.postEvt_butPost kind dw)

@[simp] theorem State.seracSkip_clk (s : State) : s.seracSkip.clk = s.clk := by
  simp [State.seracSkip, State.skipRecord]

@[simp] theorem State.seracTick_clk (s : State) : s.seracTick.clk = s.clk := by
  unfold State.seracTick State.seracScrub
  dsimp only
  repeat' split
  all_goals simp

@[simp] theorem State.seracCycles_clk (s : State) : s.seracCycles.clk = s.clk := by
  have hticks : ∀ (k : Nat) (t : State), (t.seracTicks k).clk = t.clk := by
    intro k
    induction k with
    | zero => exact fun _ => rfl
    | succ k ih => exact fun t => (ih t.seracTick).trans t.seracTick_clk
  exact hticks _ s

/-! The clocks' own share. -/

/-- What a core cycle leaves of the clocks where no ramp runs and no hop is in progress. -/
structure Settled (a b : Clk) : Prop where
  ramp : b.ramp = none
  hop : b.hop = none
  goal : b.goal = a.goal
  due : b.spllDue = a.spllDue

/-- A reference edge on settled clocks drains the accumulator and moves no ramp. -/
theorem State.refEdge_settled {c : Clk} {s : State} (h : Settled c s.clk) : Settled c s.pendDrain.rampEdge.clk := by
  have hd : Settled c s.pendDrain.clk := by
    unfold State.pendDrain
    split
    · exact h
    · exact ⟨h.ramp, h.hop, h.goal, h.due⟩
  unfold State.rampEdge
  rw [hd.ramp]
  exact hd

theorem State.setPll_settled {c : Clk} {s : State} (p : Pll) (x : PllS) (h : Settled c s.clk) :
    Settled c (s.setPll p x).clk := by
  cases p <;> exact ⟨h.ramp, h.hop, h.goal, h.due⟩

/-- What keeps settled clocks at each change of a list keeps them over the list. -/
theorem State.each_settled {α : Type} {c : Clk} {f : State → α → State} (hf : ∀ t x, Settled c t.clk → Settled c (f t x).clk)
    (l : List α) {s : State} (h : Settled c s.clk) : Settled c (s.each l f).clk := by
  unfold State.each
  induction l generalizing s with
  | nil => exact h
  | cons x l ih => exact ih (hf s x h)

theorem State.clkCycle_settled {s : State} (hr : s.clk.ramp = none) (hh : s.clk.hop = none) :
    Settled s.clk s.clkCycle.clk := by
  have hstart : Settled s.clk (s.refEdges.2).clk := ⟨hr, hh, rfl, rfl⟩
  unfold State.clkCycle State.measureAll
  refine State.each_settled (fun t _ => State.refEdge_settled) _ ?_
  exact State.each_settled (f := fun t p => t.modPll p _) (fun t p => State.setPll_settled p _) _ hstart

/-! The SPLL takes CD_CORE (04 R88). -/

/-- INC follows the live point once the SPLL drives CD_CORE at it (R87). -/
theorem State.loadInc_inc {s : State} (hx : s.clk.spllXo = false) (hf : s.clk.fcw = s.clk.point.fcw48) :
    s.loadInc.time.inc = s.clk.point.inc := by
  show s.incGoal = _
  simp [State.incGoal, hx, hf]

/-- Without a hop nothing switches over. -/
theorem State.hopTurn_none {s : State} (h : s.clk.hop = none) : s.hopTurn = s := by
  have hd : s.hopDecideDue = s := by simp [State.hopDecideDue, h]
  simp [State.hopTurn, hd, h]

/-- At the boundary at which CD_CORE is due to it, the SPLL takes it at the point that it has locked, with that point's INC. -/
theorem State.cyclePass_take {s : State} (hdue : s.clk.spllDue = true) (hr : s.clk.ramp = none) (hh : s.clk.hop = none) :
    s.cyclePass.clk.spllXo = false ∧ s.cyclePass.clk.spllStopped = false ∧ s.cyclePass.clk.spllDue = false ∧
      s.cyclePass.clk.point = s.clk.goal ∧ s.cyclePass.time.inc = s.clk.goal.inc := by
  have hset := State.clkCycle_settled hr hh
  have hpass : ∃ u : State, u.clk = s.clkCycle.clk ∧ s.cyclePass = (if u.clk.spllDue then u.spllTake else u).hopTurn.loadInc := by
    refine ⟨_, ?_, rfl⟩
    show (State.fltCycle _).clk = _
    rw [State.fltCycle_clk, apply_ite State.clk, State.seracCycles_clk, ite_self]
    split <;> rfl
  obtain ⟨u, hu, hs⟩ := hpass
  rw [← hu] at hset
  rw [hs, if_pos (hset.due.trans hdue), State.hopTurn_none (s := u.spllTake) hset.hop]
  exact ⟨rfl, rfl, rfl, hset.goal, (State.loadInc_inc rfl rfl).trans (congrArg Point.inc hset.goal)⟩

end Sys2Proof.Machine
end

section
/-!
The states of the PLLs (04 R88 to R108): what entering a state and leaving one do to the clock block, and what they leave beside it.
-/

namespace Sys2Proof.Machine

open Sys2Proof.Safety

/-! One PLL of four. -/

theorem State.pll_setPll_ne (s : State) {p q : Pll} (x : PllS) (h : q ≠ p) : (s.setPll p x).pll q = s.pll q := by
  cases p <;> cases q <;> simp [State.setPll, State.pll] at h ⊢

/-- Whether a PLL's consumers run from the XO (R105). -/
def State.onXo (s : State) (p : Pll) : Bool :=
  match p with
  | .spll => s.clk.spllXo
  | .mpll => s.clk.mpllXo
  | .fpll => s.clk.fpllXo
  | .hpll => s.clk.hpllXo

theorem State.onXo_setPll (s : State) (p q : Pll) (x : PllS) : (s.setPll p x).onXo q = s.onXo q := by
  cases p <;> cases q <;> rfl

theorem State.onXo_of_clk {s t : State} (h : t.clk = s.clk) (p : Pll) : t.onXo p = s.onXo p := by
  unfold State.onXo
  rw [h]

theorem State.pll_of_clk {s t : State} (h : t.clk = s.clk) (p : Pll) : t.pll p = s.pll p := by
  unfold State.pll
  rw [h]

/-! What the PLLs work on. -/

/-- A state but for the clocks, for event bits, and for what posting to the host works on. -/
def State.butClk (s : State) : State := { s with clk := Clk.reset, fresh := [] }.butPost

/-- What the SPLL's leaving LOCKED does not reach. -/
theorem State.beside_of_butClk {s t : State} (h : t.butClk = s.butClk) :
    t.seqs = s.seqs ∧ t.firn = s.firn ∧ t.time = s.time ∧ t.hk = s.hk :=
  ⟨show t.butClk.seqs = s.butClk.seqs by rw [h], show t.butClk.firn = s.butClk.firn by rw [h],
    show t.butClk.time = s.butClk.time by rw [h], show t.butClk.hk = s.butClk.hk by rw [h]⟩

@[simp] theorem State.modClk_butClk (s : State) (f : Clk → Clk) : (s.modClk f).butClk = s.butClk := rfl
@[simp] theorem State.setPll_butClk (s : State) (p : Pll) (x : PllS) : (s.setPll p x).butClk = s.butClk := rfl
@[simp] theorem State.pllEvent_butClk (s : State) (p : Pll) (i : Nat) : (s.pllEvent p i).butClk = s.butClk := rfl

@[simp] theorem State.hopRecord_butClk (s : State) (h : Hop) (failed : Bool) : (s.hopRecord h failed).butClk = s.butClk :=
  congrArg (fun t : State => { t with clk := Clk.reset, fresh := [] }) (State.postEvt_butPost s _ _)

/-! The SPLL leaves LOCKED (R90, R95). -/

@[simp] theorem State.hopFail_butClk (s : State) : s.hopFail.butClk = s.butClk := by
  unfold State.hopFail
  split <;> simp

@[simp] theorem State.searchAbort_butClk (s : State) : s.searchAbort.butClk = s.butClk := by
  unfold State.searchAbort
  split <;> simp

@[simp] theorem State.spllLeft_butClk (s : State) : s.spllLeft.butClk = s.butClk := by simp [State.spllLeft]

theorem State.hopRecord_clk (s : State) (h : Hop) (failed : Bool) : (s.hopRecord h failed).clk = s.clk := by
  simp [State.hopRecord]

theorem State.hopFail_clk (s : State) : ∃ i, s.hopFail.clk = { s.clk with idle := i, hop := none } := by
  unfold State.hopFail
  split
  · next h => exact ⟨s.clk.idle, by rw [← h]⟩
  · exact ⟨.free, State.hopRecord_clk ..⟩

theorem State.searchAbort_clk (s : State) : ∃ i, s.searchAbort.clk = { s.clk with idle := i } := by
  unfold State.searchAbort
  split
  · exact ⟨.free, rfl⟩
  · exact ⟨s.clk.idle, rfl⟩

/-- Of the clocks, the hop, the ramp and what the idle oscillator did end with the SPLL's lock. -/
theorem State.spllLeft_clk (s : State) : ∃ i, s.spllLeft.clk = { s.clk with idle := i, hop := none, ramp := none } := by
  obtain ⟨i, hi⟩ := s.hopFail_clk
  obtain ⟨j, hj⟩ := s.hopFail.searchAbort_clk
  exact ⟨j, by show { s.hopFail.searchAbort.clk with ramp := none } = _; rw [hj, hi]⟩

/-! Entering a state. -/

/-- But for an SPLL that leaves LOCKED, entering a state changes nothing else. -/
theorem State.pllTo_eq {s : State} {p : Pll} (h : p ≠ .spll ∨ (s.pll p).st ≠ .locked) (st : PSt) :
    s.pllTo p st = s.setPll p { s.pll p with st := st } := by
  unfold State.pllTo
  rcases h with h | h <;> simp [h, State.modPll]

/-- An SPLL that leaves LOCKED ends what runs on it. -/
theorem State.pllTo_spll_left {s : State} (h : (s.pll .spll).st = .locked) {st : PSt} (hst : st ≠ .locked) :
    s.pllTo .spll st = (s.setPll .spll { s.pll .spll with st := st }).spllLeft := by
  simp [State.pllTo, State.modPll, h, hst]

@[simp] theorem State.pllTo_butClk (s : State) (p : Pll) (st : PSt) : (s.pllTo p st).butClk = s.butClk := by
  unfold State.pllTo State.modPll
  dsimp only
  split <;> simp

/-- Of the clocks, entering a state changes that PLL, and what runs on the SPLL. -/
theorem State.pllTo_clk (s : State) (p : Pll) (st : PSt) :
    ∃ i h r, (s.pllTo p st).clk = { (s.setPll p { s.pll p with st := st }).clk with idle := i, hop := h, ramp := r } := by
  unfold State.pllTo State.modPll
  dsimp only
  split
  · obtain ⟨i, hi⟩ := (s.setPll p { s.pll p with st := st }).spllLeft_clk
    exact ⟨i, none, none, hi⟩
  · exact ⟨_, _, _, rfl⟩

theorem State.pllTo_pll (s : State) (p : Pll) (st : PSt) : (s.pllTo p st).pll p = { s.pll p with st := st } := by
  obtain ⟨i, h, r, hclk⟩ := s.pllTo_clk p st
  unfold State.pll at hclk ⊢
  rw [hclk]
  cases p <;> rfl

theorem State.pllTo_onXo (s : State) (p q : Pll) (st : PSt) : (s.pllTo p st).onXo q = s.onXo q := by
  obtain ⟨i, h, r, hclk⟩ := s.pllTo_clk p st
  unfold State.onXo
  rw [hclk]
  cases p <;> cases q <;> rfl

/-! A reference that is lost (R103). -/

/-- A PLL whose reference is gone, still in the state it was in (R103). -/
def State.refGone (s : State) (p : Pll) : State :=
  let s := (s.modPll p (fun x => { x with refOk := false })).pllEvent p 1
  if p = .hpll then s.modClk (fun c => { c with xoLost := true }) else s

theorem State.refGone_pll (s : State) (p : Pll) : (s.refGone p).pll p = { s.pll p with refOk := false } := by
  cases p <;> rfl

section

variable {s : State} {p : Pll}

/-- Entry to HOLDOVER ends nothing but on an SPLL that was LOCKED (R104). -/
theorem State.pllHold_eq (h : p ≠ .spll ∨ (s.pll p).st ≠ .locked) :
    s.pllHold p = (s.setPll p { s.pll p with st := .holdover }).raise (aPllEv p) (bit1 2) := by
  unfold State.pllHold State.pllEvent
  rw [State.pllTo_eq h]

/-- A reference that was there is lost: what the PLL does depends on where it stood. -/
theorem State.refLost_present (href : (s.pll p).refOk = true) : s.refLost p =
    (match (s.pll p).st with
    | .locked => ((s.refGone p).pllHold p).detect 0x02 uPll (pllIndex p) 0
    | .search | .acquire =>
      let back := (s.refGone p).modPll p (fun x => { x with st := x.origin, timeouts := 0 })
      if p = .spll && (s.pll p).origin == .off then back.modClk (fun c => { c with pend := 0 }) else back
    | .bypass => (s.refGone p).detect 0x02 uPll (pllIndex p) 0
    | _ => s.refGone p) := by
  have hst : (s.pll p).st = ((s.refGone p).pll p).st := by rw [State.refGone_pll]
  have ho : (s.pll p).origin = ((s.refGone p).pll p).origin := by rw [State.refGone_pll]
  unfold State.refLost
  rw [hst, ho, if_neg (by simp [href])]
  rfl

theorem State.refLost_absent (href : (s.pll p).refOk = false) : s.refLost p = s := by
  simp [State.refLost, href]

end

/-! SEARCH (R88, R106, R108). -/

/-- Entering SEARCH changes the clocks alone. -/
theorem State.pllSearch_eq (s : State) (p : Pll) (origin : PSt) :
    s.pllSearch p origin = { s with clk := (s.pllSearch p origin).clk } := by
  cases p <;> rfl

theorem State.pllSearch_pll (s : State) (p : Pll) (origin : PSt) :
    (s.pllSearch p origin).pll p = { s.pll p with st := .search, origin := origin, timeouts := 0 } := by
  cases p <;> rfl

theorem State.pllSearch_pll_ne (s : State) {p q : Pll} (origin : PSt) (h : q ≠ p) :
    (s.pllSearch p origin).pll q = s.pll q := by
  cases p <;> cases q <;> simp [State.pllSearch, State.modPll, State.setPll, State.pll, State.modClk] at h ⊢

/-- An OFF PLL with ENABLE set and its reference there searches for the held point. -/
theorem State.pllWake_off {s : State} {p : Pll} (hst : (s.pll p).st = .off) (hon : s.pllOn p = true)
    (href : (s.pll p).refOk = true) : s.pllWake p = s.pllSearch p .off := by
  simp [State.pllWake, hst, hon, href]

/-- Any other PLL stays as it is. -/
theorem State.pllWake_stays {s : State} {p : Pll} (h : (s.pll p).st ≠ .off ∨ s.pllOn p = false) : s.pllWake p = s := by
  rcases h with h | h <;> simp [State.pllWake, h]

/-! OFF (R106, R108). -/

/-- A PLL that is off; of the SPLL the accumulator is clear and no boundary is waited for (R100). -/
def State.pllIdle (s : State) (p : Pll) : State :=
  let off := s.setPll p { s.pll p with st := .off, origin := .off, timeouts := 0 }
  if p = .spll then { off with clk := { off.clk with pend := 0, spllDue := false } } else off

theorem State.pllIdle_eq (s : State) (p : Pll) : s.pllIdle p = { s with clk := (s.pllIdle p).clk } := by
  cases p <;> rfl

theorem State.pllIdle_pll (s : State) (p : Pll) :
    (s.pllIdle p).pll p = { s.pll p with st := .off, origin := .off, timeouts := 0 } := by
  cases p <;> rfl

theorem State.pllIdle_pll_ne (s : State) {p q : Pll} (h : q ≠ p) : (s.pllIdle p).pll q = s.pll q := by
  cases p <;> cases q <;> simp [State.pllIdle, State.setPll, State.pll] at h ⊢

/-- A PLL that was not locked and whose consumers run from the XO goes OFF without touching anything else. -/
theorem State.pllOff_onXo {s : State} {p : Pll} (hst : (s.pll p).st ≠ .locked) (hx : s.onXo p = true) :
    s.pllOff p = s.pllIdle p := by
  unfold State.pllOff
  rw [State.pllTo_eq (.inr hst)]
  cases p <;>
  · have hxo := hx
    unfold State.onXo at hxo
    dsimp only at hxo
    simp [State.modPll, State.pllConsumers, State.setPll, State.pll, hxo, State.modClk, State.pllIdle]

/-- A search that failed, or a lock that never came, on a PLL whose consumers run from the XO (R89, R108). -/
theorem State.searchFail_onXo {s : State} {p : Pll} (hst : (s.pll p).st ≠ .locked) (hx : s.onXo p = true) :
    s.searchFail p = ((s.setFld (aPll p) 0 1 0).pllIdle p).raise (aPllEv p) (bit1 7) := by
  have hclk : (s.setFld (aPll p) 0 1 0).clk = s.clk := State.setReg_clk ..
  unfold State.searchFail State.pllGiveUp
  rw [State.pllOff_onXo (by rwa [State.pll_of_clk hclk]) (by rwa [State.onXo_of_clk hclk])]
  rfl

end Sys2Proof.Machine
end

section
/-!
Writes of a PLL's control register (04 R88, R104, R108): what stands after one, and what its ENABLE and REFSEL do.
-/

namespace Sys2Proof.Machine

open Sys2Proof.Safety

/-! What housekeeping adds. -/

/-- Where no BRINGUP runs and the HPLL's part of bring-up is over, a change of a PLL asks nothing of housekeeping (15 R388, R394). -/
theorem State.pllChanged_quiet {s t : State} (hq : Quiet s) (hk : t.hk = s.hk) (p : Pll) : t.pllChanged p = t := by
  have hboot : t.bootStep = t := by simp [State.bootStep, hk, hq.stage]
  have hbring : t.bringCheck = t := by
    unfold State.bringCheck State.bringRun
    rw [hk, hq.bring]
  unfold State.pllChanged
  rw [hboot, ite_self, hbring]

theorem ok_pllChanged {s t u : State} {p : Pll} (hq : Quiet s) (h : t = u) (hk : u.hk = s.hk) :
    ok (t.pllChanged p) = .next u := by
  rw [h, State.pllChanged_quiet hq hk, ok]

/-! An accepted write of a register with RW fields. -/

section

variable {s : State} {w : Wr} {a : Nat} {r : RegRow} {v : Word}

/-- Where no bit is RW, an accepted write stores nothing, and its effect takes the stored bits with the request's. -/
theorem busWrite_written_request {h : Hint} (hw : Written s w a r v) (hm : r.mask .rw = 0) :
    s.busWrite w.rq a w.be v h =
      (wrote s w.rq a r v).afterWrite w.rq a (s.reg a) (s.reg a) (s.reg a ||| (v &&& r.requestMask)) false h := by
  have hnew : (armSpent s w.rq (a / 0x10000) r.guarded).landing r a (landRank w.rq) 0 v = s.reg a := by
    rw [armSpent_landing_last _ _ _ _ hw.last, hm]
    exact stored_of_no_rw _ _
  rw [hw.full, busWrite_base hw.takes, accept_lands, if_pos rfl, hnew, wrote]

/-- The effect of an accepted write of a register with RW fields takes the bits before it and those that it stores. -/
theorem busWrite_written {h : Hint} (hw : Written s w a r v) (hm : r.mask .rw ≠ 0) :
    s.busWrite w.rq a w.be v h =
      (wrote s w.rq a r v).afterWrite w.rq a (s.reg a) ((wrote s w.rq a r v).reg a)
        ((wrote s w.rq a r v).reg a ||| (v &&& r.requestMask)) false h := by
  rw [hw.full, busWrite_base hw.takes, accept_lands, if_pos rfl, wrote, lands_reg hm]

theorem wrote_clk : (wrote s w.rq a r v).clk = s.clk := by rw [wrote_eq]
theorem wrote_seqs : (wrote s w.rq a r v).seqs = s.seqs := by rw [wrote_eq]
theorem wrote_firn : (wrote s w.rq a r v).firn = s.firn := by rw [wrote_eq]
theorem wrote_hk : (wrote s w.rq a r v).hk = s.hk := by rw [wrote_eq]
theorem wrote_pll (q : Pll) : (wrote s w.rq a r v).pll q = s.pll q := by rw [wrote_eq]; rfl

end

/-! CLK_x_CTRL. -/

/-- The published costs follow the SPLL's held words before its first lock (R98). -/
def State.heldPublished (s : State) (p : Pll) : State := if p = .spll && s.heldRules then s.republish else s

theorem State.heldPublished_eq (s : State) (p : Pll) :
    ∃ law sup, s.heldPublished p = { s with time := { s.time with costLaw := law, costSup := sup } } := by
  unfold State.heldPublished
  split
  · exact ⟨_, _, rfl⟩
  · exact ⟨s.time.costLaw, s.time.costSup, rfl⟩

/-- After a change of the clocks the publication touches the two costs alone. -/
theorem State.heldPublished_frame {u v : State} (h : v = { u with clk := v.clk }) (p : Pll) :
    v.heldPublished p = { u with clk := (v.heldPublished p).clk, time := { u.time with
      costLaw := (v.heldPublished p).time.costLaw, costSup := (v.heldPublished p).time.costSup } } := by
  generalize v.clk = c at h
  subst h
  obtain ⟨law, sup, hp⟩ := State.heldPublished_eq { u with clk := c } p
  rw [hp]

theorem State.heldPublished_of_ne {p : Pll} (hp : p ≠ .spll) (s : State) : s.heldPublished p = s := by
  simp [State.heldPublished, hp]

theorem State.heldPublished_clk (s : State) (p : Pll) : (s.heldPublished p).clk = s.clk := by
  obtain ⟨law, sup, hp⟩ := s.heldPublished_eq p
  rw [hp]

theorem State.heldPublished_hk (s : State) (p : Pll) : (s.heldPublished p).hk = s.hk := by
  obtain ⟨law, sup, hp⟩ := s.heldPublished_eq p
  rw [hp]

theorem State.heldPublished_pll (s : State) (p q : Pll) : (s.heldPublished p).pll q = s.pll q :=
  State.pll_of_clk (s.heldPublished_clk p) q

/-- ENABLE of every PLL is an RW bit of its control register (04 Registers). -/
theorem pllCtrl_row {p : Pll} {r : RegRow} (hr : rowOf (aPll p) = some r) :
    r.mask .rw ≠ 0 ∧ (r.mask .rw).getLsbD 0 = true := by
  cases p <;> obtain rfl := Option.some.inj hr <;> decide

/-- The effect of a write of a control register that does not come with a commit. -/
theorem afterWrite_pllCtrl {t : State} {p : Pll} (rq : Requester) (old new v : Word) (h : Hint) (hlive : Live t (aPll p)) :
    t.afterWrite rq (aPll p) old new v false h = (t.afterPllCtrl p old new h.present).heldPublished p := by
  unfold Live at hlive
  unfold State.afterWrite
  simp only [hlive, Bool.false_and, Bool.false_eq_true, if_false]
  cases p <;> rfl

section

variable {s : State} {w : Wr} {p : Pll} {r : RegRow} {v : Word}

/-- An accepted write of a control register: its bits stand, then REFSEL and ENABLE act. -/
theorem busWrite_pllCtrl {h : Hint} (hw : Written s w (aPll p) r v) :
    s.busWrite w.rq (aPll p) w.be v h =
      ((wrote s w.rq (aPll p) r v).afterPllCtrl p (s.reg (aPll p)) ((wrote s w.rq (aPll p) r v).reg (aPll p))
        h.present).heldPublished p := by
  rw [busWrite_written hw (pllCtrl_row hw.takes.row).1]
  exact afterWrite_pllCtrl _ _ _ _ _ (wrote_live hw.live)

/-- ENABLE holds what was written. -/
theorem wrote_enable (hw : Written s w (aPll p) r v) :
    bitOf ((wrote s w.rq (aPll p) r v).reg (aPll p)) 0 = bitOf v 0 := by
  obtain ⟨hm, h0⟩ := pllCtrl_row hw.takes.row
  have hreg : (wrote s w.rq (aPll p) r v).reg (aPll p) =
      (s.reg (aPll p) &&& ~~~ r.mask .rw) ||| (v &&& r.mask .rw) :=
    (lands_reg hm).trans (armSpent_landing_last _ _ _ _ hw.last)
  rw [hreg]
  unfold bitOf
  rw [BitVec.getLsbD_or, BitVec.getLsbD_and, BitVec.getLsbD_and, BitVec.getLsbD_not, h0]
  simp

theorem fixed_enable (w : Wr) (b : Bool) : bitOf (fixed w 1 (if b then 1 else 0)).value 0 = b := by
  cases b <;> simp [fixed, bitOf]

end

/-- Where REFSEL and LINK stay, a write of the control register acts by ENABLE alone. -/
theorem State.afterPllCtrl_same (t : State) (p : Pll) {old new : Word} (present : Option Bool)
    (hsel : bits new 14 6 = bits old 14 6) :
    t.afterPllCtrl p old new present =
      if bitRises old new 0 then t.pllWake p else if bitRises new old 0 then t.pllOff p else t := by
  have href : fieldChanges old new 14 2 = false := by
    unfold bits at hsel
    simp only [fieldChanges, bits, bne_eq_false_iff_eq]
    omega
  have hlink : fieldChanges old new 16 4 = false := by
    unfold bits at hsel
    simp only [fieldChanges, bits, bne_eq_false_iff_eq]
    omega
  simp [State.afterPllCtrl, href, hlink]

/-- Where REFSEL moves to a reference that is present and ENABLE stays, a LOCKED PLL holds over (R104). -/
theorem State.afterPllCtrl_moved {t : State} {p : Pll} {old new : Word} (hsel : bits new 14 2 ≠ bits old 14 2)
    (hen : bitOf new 0 = bitOf old 0) (hst : (t.pll p).st = .locked) :
    t.afterPllCtrl p old new (some true) = t.pllHold p := by
  have href : fieldChanges old new 14 2 = true := by simpa [fieldChanges] using Ne.symm hsel
  simp [State.afterPllCtrl, href, bitRises, hen, State.refChanged, hst]

/-- ENABLE rises: an OFF PLL with its reference searches (R88, R108). -/
theorem State.afterPllCtrl_enable {t : State} {p : Pll} {old new : Word} {present : Option Bool}
    (hsel : bits new 14 6 = bits old 14 6) (hold : bitOf old 0 = false) (hnew : bitOf new 0 = true)
    (hon : t.pllOn p = true) (hst : (t.pll p).st = .off) (href : (t.pll p).refOk = true) :
    t.afterPllCtrl p old new present = t.pllSearch p .off := by
  have hrise : bitRises old new 0 = true := by simp [bitRises, hold, hnew]
  rw [State.afterPllCtrl_same t p present hsel, if_pos hrise, State.pllWake_off hst hon href]

/-- ENABLE falls: a PLL that is not locked and whose consumers run from the XO is off (R108). -/
theorem State.afterPllCtrl_disable {t : State} {p : Pll} {old new : Word} {present : Option Bool}
    (hsel : bits new 14 6 = bits old 14 6) (hold : bitOf old 0 = true) (hnew : bitOf new 0 = false)
    (hst : (t.pll p).st ≠ .locked) (hx : t.onXo p = true) : t.afterPllCtrl p old new present = t.pllIdle p := by
  have hno : ¬ bitRises old new 0 = true := by simp [bitRises, hold]
  have hfall : bitRises new old 0 = true := by simp [bitRises, hold, hnew]
  rw [State.afterPllCtrl_same t p present hsel, if_neg hno, if_pos hfall, State.pllOff_onXo hst hx]

end Sys2Proof.Machine
end

section
/-!
PLLs that search, lock and give up (04 R88, R89, R108; 07 R206): what the consumers that come back to a PLL find.
-/

namespace Sys2Proof.Machine

open Sys2Proof.Safety

/-! Channels that train once the MPLL is back (07 R204, R206). -/

/-- A state but for the channels of Moraine. -/
def State.butChans (s : State) : State := { s with mor := { s.mor with chans := [] } }

theorem State.eq_of_butChans {s t : State} (h : t.butChans = s.butChans) :
    t = { s with mor := { s.mor with chans := t.mor.chans } } := by
  calc t = { t.butChans with mor := { t.butChans.mor with chans := t.mor.chans } } := rfl
    _ = _ := by rw [h]; rfl

theorem State.beside_of_butChans {s t : State} (h : t.butChans = s.butChans) :
    t.clk = s.clk ∧ t.hk = s.hk ∧ t.flt = s.flt :=
  ⟨show t.butChans.clk = s.butChans.clk by rw [h], show t.butChans.hk = s.butChans.hk by rw [h],
    show t.butChans.flt = s.butChans.flt by rw [h]⟩

@[simp] theorem State.modChan_butChans (s : State) (n : Nat) (f : Chan → Chan) : (s.modChan n f).butChans = s.butChans := rfl

theorem State.chan_modChan (s : State) (n : Nat) (f : Chan → Chan) : (s.modChan n f).chan n = f (s.chan n) :=
  State.chan_setChan ..

theorem State.chan_modChan_ne (s : State) {n m : Nat} (f : Chan → Chan) (h : m ≠ n) : (s.modChan n f).chan m = s.chan m :=
  State.chan_setChan_ne s _ h

/-- A channel that waits in RECOVER begins to train, where it has not retired. -/
def State.recoverOne (s : State) (n : Nat) : State := if (s.chan n).st = .recover then s.trainBegin n else s

/-- What a channel's state becomes as the MPLL comes back. -/
def recovered (retired : Bool) (st : ChSt) : ChSt :=
  if st = .recover then if retired then .retired else .train else st

/-- Beginning to train is one change of the channel, to TRAIN or RETIRED. -/
theorem State.trainBegin_modChan (s : State) (n : Nat) : ∃ f, s.trainBegin n = s.modChan n f ∧
    ∀ x, (f x).st = if s.isRetired uDram n then .retired else .train := by
  unfold State.trainBegin State.trainLoad
  split
  · exact ⟨_, rfl, fun _ => rfl⟩
  · exact ⟨_, rfl, fun _ => rfl⟩

theorem State.recoverOne_modChan (s : State) (n : Nat) : ∃ f, s.recoverOne n = s.modChan n f ∨ s.recoverOne n = s := by
  unfold State.recoverOne
  split
  · obtain ⟨f, hf, -⟩ := s.trainBegin_modChan n
    exact ⟨f, .inl hf⟩
  · exact ⟨id, .inr rfl⟩

theorem State.recoverOne_butChans (s : State) (n : Nat) : (s.recoverOne n).butChans = s.butChans := by
  obtain ⟨f, h | h⟩ := s.recoverOne_modChan n <;> simp [h]

theorem State.recoverOne_chan_ne (s : State) {n m : Nat} (h : m ≠ n) : (s.recoverOne n).chan m = s.chan m := by
  obtain ⟨f, hf | hf⟩ := s.recoverOne_modChan n
  · rw [hf, State.chan_modChan_ne s f h]
  · rw [hf]

theorem State.recoverOne_st (s : State) (n : Nat) :
    ((s.recoverOne n).chan n).st = recovered (s.isRetired uDram n) (s.chan n).st := by
  unfold State.recoverOne recovered
  split
  · obtain ⟨f, hf, hst⟩ := s.trainBegin_modChan n
    rw [hf, State.chan_modChan, hst]
  · rfl

theorem State.recoverOne_isRetired (s : State) (n kind index : Nat) :
    (s.recoverOne n).isRetired kind index = s.isRetired kind index := by
  unfold State.isRetired
  rw [(State.beside_of_butChans (s.recoverOne_butChans n)).2.2]

/-- Each of the four channels is recovered by itself. -/
theorem State.recoverAll_st (s : State) {n : Nat} (hn : n < 4) :
    ((s.each (List.range 4) State.recoverOne).chan n).st = recovered (s.isRetired uDram n) (s.chan n).st := by
  have h := State.each_unit (f := State.recoverOne) (fun t m => (t.isRetired uDram m, (t.chan m).st))
    (fun _ x => (x.1, recovered x.1 x.2))
    (fun t k m hm => by simp only [State.recoverOne_isRetired, State.recoverOne_chan_ne t hm])
    (fun t k => by simp only [State.recoverOne_isRetired, State.recoverOne_st]) List.nodup_range (List.mem_range.mpr hn) s
  exact (Prod.mk.inj h).2

theorem State.recoverAll_butChans (s : State) : (s.each (List.range 4) State.recoverOne).butChans = s.butChans :=
  State.each_keep State.butChans State.recoverOne_butChans s _

/-- A trim notes a DIMM's capacity and leaves the channel's state. -/
theorem State.trim_st (s : State) (n m : Nat) (f : Chan → Chan) (hf : ∀ x, (f x).st = x.st) :
    ((s.modChan n f).chan m).st = (s.chan m).st := by
  by_cases h : m = n
  · rw [h, State.chan_modChan, hf]
  · rw [State.chan_modChan_ne s f h]

/-- The new map touches neither the clocks nor housekeeping nor a channel's state. -/
theorem State.newMap_beside (s : State) :
    s.newMap.clk = s.clk ∧ s.newMap.hk = s.hk ∧ ∀ n, (s.newMap.chan n).st = (s.chan n).st := by
  unfold State.newMap
  dsimp only
  refine ⟨?_, ?_, fun n => ?_⟩
  · exact State.each_keep State.clk (f := fun t m => t.modChan m _) (fun _ _ => rfl) s _
  · exact State.each_keep State.hk (f := fun t m => t.modChan m _) (fun _ _ => rfl) s _
  · refine State.each_keep (fun t => (t.chan n).st) (fun t m => ?_) s _
    exact t.trim_st m n _ fun _ => rfl

theorem State.recoverCheck_beside (s : State) :
    s.recoverCheck.clk = s.clk ∧ s.recoverCheck.hk = s.hk ∧ ∀ n, (s.recoverCheck.chan n).st = (s.chan n).st := by
  unfold State.recoverCheck
  split
  · exact s.newMap_beside
  · exact ⟨rfl, rfl, fun _ => rfl⟩

theorem State.recoverCheck_of_not {s : State} (h : s.mor.recovering = false) : s.recoverCheck = s := by
  simp [State.recoverCheck, h]

/-! Consumers that come back to a PLL (04 R88, R106). -/

/-- The MPLL's consumers come back: every channel in RECOVER trains, and a map forms where all are done. -/
theorem State.pllReturn_mpll (s : State) : s.pllReturn .mpll =
    ((s.modClk (fun c => { c with mpllXo := false })).each (List.range 4) State.recoverOne).recoverCheck := rfl

theorem State.pllReturn_mpll_beside (s : State) :
    (s.pllReturn .mpll).clk = { s.clk with mpllXo := false } ∧ (s.pllReturn .mpll).hk = s.hk ∧
      ∀ n, n < 4 → ((s.pllReturn .mpll).chan n).st = recovered (s.isRetired uDram n) (s.chan n).st := by
  rw [State.pllReturn_mpll]
  obtain ⟨hclk, hhk, hst⟩ :=
    ((s.modClk (fun c => { c with mpllXo := false })).each (List.range 4) State.recoverOne).recoverCheck_beside
  obtain ⟨hclk', hhk', -⟩ :=
    State.beside_of_butChans (s.modClk (fun c => { c with mpllXo := false })).recoverAll_butChans
  exact ⟨hclk.trans hclk', hhk.trans hhk', fun n hn => (hst n).trans (State.recoverAll_st _ hn)⟩

/-- CD_CORE stays where it is until the boundary after the lock (R88). -/
theorem State.pllReturn_spll_due {s : State} (hx : s.clk.spllXo = true) (hl : s.clk.xoLost = false) :
    s.pllReturn .spll = s.modClk (fun c => { c with everLocked := true, spllDue := true }) := by
  simp [State.pllReturn, State.modClk, hx, hl]

/-- With the XO lost no boundary comes, and CD_CORE moves at once. -/
theorem State.pllReturn_spll_lost {s : State} (hx : s.clk.spllXo = true) (hl : s.clk.xoLost = true) :
    s.pllReturn .spll = (s.modClk (fun c => { c with everLocked := true })).spllTake.loadInc := by
  simp [State.pllReturn, State.modClk, hx, hl]

theorem State.pllReturn_spll_stays {s : State} (hx : s.clk.spllXo = false) :
    s.pllReturn .spll = s.modClk (fun c => { c with everLocked := true }) := by
  simp [State.pllReturn, State.modClk, hx]

/-- Taking CD_CORE works on the clocks and the time block. -/
theorem State.spllTake_loadInc_eq (s : State) : ∃ c tb, s.spllTake.loadInc = { s with clk := c, time := tb } := by
  have hload : ∀ u : State, ∃ tb, u.loadInc = { u with time := tb } := fun _ => ⟨_, rfl⟩
  have hpub : ∀ u : State, ∃ tb, u.republish = { u with time := tb } := fun _ => ⟨_, rfl⟩
  obtain ⟨tb, hl⟩ := hload s.spllTake
  rw [hl, State.spllTake]
  obtain ⟨tb', hp⟩ := hpub (State.outputsRestart _)
  rw [hp]
  exact ⟨_, _, rfl⟩

theorem State.spllTake_clk (s : State) : ∃ k, s.spllTake.clk = { s.clk with
    point := s.clk.goal, fcw := s.clk.goal.fcw48, spllXo := false, spllStopped := false, spllDue := false, coAt := k } :=
  ⟨_, rfl⟩

theorem State.loadInc_clk (s : State) : s.loadInc.clk = s.clk := rfl

/-- The SPLL drives CD_CORE at the point that it has locked, with that point's INC (R87, R88). -/
theorem State.spllTake_loadInc_live (s : State) : s.spllTake.loadInc.clk.spllXo = false ∧
    s.spllTake.loadInc.clk.spllStopped = false ∧ s.spllTake.loadInc.clk.point = s.clk.goal ∧
      s.spllTake.loadInc.clk.fcw = s.clk.goal.fcw48 ∧ s.spllTake.loadInc.time.inc = s.clk.goal.inc := by
  obtain ⟨k, hclk⟩ := s.spllTake_clk
  have hinc := State.loadInc_inc (s := s.spllTake) (by rw [hclk]) (by rw [hclk])
  rw [State.loadInc_clk, hinc, hclk]
  exact ⟨rfl, rfl, rfl, rfl, rfl⟩

theorem State.spllTake_loadInc_pll (s : State) (q : Pll) : s.spllTake.loadInc.pll q = s.pll q := by
  obtain ⟨k, hclk⟩ := s.spllTake_clk
  unfold State.pll
  rw [State.loadInc_clk, hclk]

/-- The SPLL's return is one of these three. -/
theorem State.pllReturn_spll_cases (s : State) :
    s.pllReturn .spll = s.modClk (fun c => { c with everLocked := true }) ∨
      s.pllReturn .spll = s.modClk (fun c => { c with everLocked := true, spllDue := true }) ∨
      s.pllReturn .spll = (s.modClk (fun c => { c with everLocked := true })).spllTake.loadInc := by
  cases hx : s.clk.spllXo with
  | false => exact .inl (State.pllReturn_spll_stays hx)
  | true =>
    cases hl : s.clk.xoLost with
    | false => exact .inr (.inl (State.pllReturn_spll_due hx hl))
    | true => exact .inr (.inr (State.pllReturn_spll_lost hx hl))

/-- The consumers' return works on the clocks, on the time block and, for the MPLL alone, on the channels of Moraine. -/
theorem State.pllReturn_eq {s : State} {p : Pll} (h : p ≠ .mpll ∨ s.mor.recovering = false) : s.pllReturn p =
    { s with clk := (s.pllReturn p).clk, time := (s.pllReturn p).time, mor := (s.pllReturn p).mor } := by
  cases p with
  | spll =>
    rcases s.pllReturn_spll_cases with h | h | h
    · rw [h]
      rfl
    · rw [h]
      rfl
    · obtain ⟨c, tb, htake⟩ := State.spllTake_loadInc_eq (s.modClk (fun c => { c with everLocked := true }))
      rw [h, htake]
      rfl
  | mpll =>
    have hrec : s.mor.recovering = false := h.resolve_left (fun hne => hne rfl)
    have hu := (s.modClk (fun c => { c with mpllXo := false })).recoverAll_butChans
    rw [State.pllReturn_mpll]
    generalize (s.modClk (fun c => { c with mpllXo := false })).each (List.range 4) State.recoverOne = u at hu ⊢
    have heq := State.eq_of_butChans hu
    rw [State.recoverCheck_of_not (by rw [heq]; exact hrec), heq]
    rfl
  | fpll | hpll => rfl

theorem State.pllReturn_hk (s : State) (p : Pll) : (s.pllReturn p).hk = s.hk := by
  by_cases hp : p = .mpll
  · rw [hp]
    exact s.pllReturn_mpll_beside.2.1
  · rw [State.pllReturn_eq (.inl hp)]

theorem State.pllReturn_pll (s : State) (p q : Pll) : (s.pllReturn p).pll q = s.pll q := by
  cases p with
  | spll =>
    rcases s.pllReturn_spll_cases with h | h | h
    · rw [h]
      cases q <;> rfl
    · rw [h]
      cases q <;> rfl
    · rw [h, State.spllTake_loadInc_pll]
      cases q <;> rfl
  | mpll =>
    unfold State.pll
    rw [s.pllReturn_mpll_beside.1]
  | fpll | hpll => cases q <;> rfl

/-! Lock (R101). -/

/-- A PLL that has met the lock window, its consumers still where they were. -/
def State.pllMet (s : State) (p : Pll) (err : Word) : State :=
  s.setPll p { s.pll p with st := .locked, timeouts := 0, phaseErr := err }

theorem State.pllLocked_outside {s : State} {p : Pll} {err : Word} (h : s.lockWin p < err.toInt.natAbs) :
    s.pllLocked p err = s := by
  simp [State.pllLocked, h]

theorem State.pllLocked_inside {s : State} {p : Pll} {err : Word} (hst : (s.pll p).st = .acquire)
    (h : err.toInt.natAbs ≤ s.lockWin p) : s.pllLocked p err = (s.pllMet p err).pllReturn p := by
  simp [State.pllLocked, State.pllMet, State.modPll, hst, Nat.not_lt.mpr h]

end Sys2Proof.Machine
end

section
/-!
The rows of searching, locking and giving up (04 R88, R89, R101, R108).
-/

namespace Sys2Proof.Machine

open Sys2Proof.Safety

section

variable {s : State} {p : Pll}

/-! ENABLE. -/

theorem exec_pllEnable {w : Wr} {r : RegRow} (hq : Quiet s) (hw : Written s w (aPll p) r (fixed w 1 1).value)
    (hen : bitOf (s.reg (aPll p)) 0 = false)
    (hsel : bits ((wrote s w.rq (aPll p) r (fixed w 1 1).value).reg (aPll p)) 14 6 = bits (s.reg (aPll p)) 14 6)
    (hst : (s.pll p).st = .off) (href : (s.pll p).refOk = true) :
    exec (.pllEnable p w) s =
      .next (((wrote s w.rq (aPll p) r (fixed w 1 1).value).pllSearch p .off).heldPublished p) := by
  have hnew := (wrote_enable hw).trans (fixed_enable w true)
  have hbus : s.busWrite w.rq (aPll p) w.be (fixed w 1 1).value {} =
      ((wrote s w.rq (aPll p) r (fixed w 1 1).value).pllSearch p .off).heldPublished p := by
    rw [busWrite_pllCtrl hw, State.afterPllCtrl_enable hsel hen hnew hnew (by rwa [wrote_pll]) (by rwa [wrote_pll])]
  have hhk : (((wrote s w.rq (aPll p) r (fixed w 1 1).value).pllSearch p .off).heldPublished p).hk = s.hk := by
    rw [State.heldPublished_hk, State.pllSearch_eq, wrote_hk]
  exact ok_pllChanged (p := p) hq hbus hhk

theorem exec_pllDisable {w : Wr} {r : RegRow} (hq : Quiet s) (hw : Written s w (aPll p) r (fixed w 1 0).value)
    (hen : bitOf (s.reg (aPll p)) 0 = true)
    (hsel : bits ((wrote s w.rq (aPll p) r (fixed w 1 0).value).reg (aPll p)) 14 6 = bits (s.reg (aPll p)) 14 6)
    (hst : (s.pll p).st ≠ .locked) (hx : s.onXo p = true) :
    exec (.pllDisable p w) s = .next (((wrote s w.rq (aPll p) r (fixed w 1 0).value).pllIdle p).heldPublished p) := by
  have hnew := (wrote_enable hw).trans (fixed_enable w false)
  have hbus : s.busWrite w.rq (aPll p) w.be (fixed w 1 0).value {} =
      ((wrote s w.rq (aPll p) r (fixed w 1 0).value).pllIdle p).heldPublished p := by
    rw [busWrite_pllCtrl hw, State.afterPllCtrl_disable hsel hen hnew (by rwa [wrote_pll])
      (by rwa [State.onXo_of_clk wrote_clk])]
  have hhk : (((wrote s w.rq (aPll p) r (fixed w 1 0).value).pllIdle p).heldPublished p).hk = s.hk := by
    rw [State.heldPublished_hk, State.pllIdle_eq, wrote_hk]
  exact ok_pllChanged (p := p) hq hbus hhk

/-! Searches and their deadlines. -/

/-- What a PLL other than the SPLL does with a band that its search has found. -/
theorem State.searchDone_found {f : SearchResult} (hp : p ≠ .spll) (hst : (s.pll p).st = .search) :
    s.searchDone p (some f) = (s.setPll p { s.pll p with st := .acquire }).raise (aPllEv p) (bit1 6) := by
  simp [State.searchDone, hst, hp, State.modPll, State.pllEvent]

/-- The SPLL stores its entry and, where its consumers have stayed on it, drives them from the band it has found. -/
theorem State.searchDone_spll {f : SearchResult} (hst : (s.pll .spll).st = .search) :
    let c := if s.clk.spll.origin = .off then { s.clk with entry := 0, osc := false } else s.clk
    let g := s.clk.goal
    s.searchDone .spll (some f) = ({ s with clk := { c with
      table := Tab.set (fun _ => 0) c.table c.entry (foundEntry g f)
      point := if s.clk.spllXo then c.point else g
      fcw := if s.clk.spllXo then c.fcw else g.fcw48
      ramp := if s.clk.spllXo then c.ramp else none
      spll := { c.spll with st := .acquire } } }).raise (aPllEv .spll) (bit1 6) := by
  have hst' : s.clk.spll.st = .search := hst
  by_cases ho : s.clk.spll.origin = .off <;> cases hx : s.clk.spllXo <;>
    simp [State.searchDone, State.pll, hst', ho, hx, State.modClk, State.setEntry, State.modPll, State.setPll, State.pllEvent]

theorem State.acquireLate_first (hst : (s.pll p).st = .acquire) (h0 : (s.pll p).timeouts = 0) :
    s.acquireLate p =
      let again := s.setPll p { s.pll p with st := .search, timeouts := 1 }
      if p = .spll ∧ (s.pll p).origin ≠ .off then
        { again with clk := { again.clk with goal := entryPoint (s.bandEntry s.clk.entry) } } else again := by
  cases p with
  | spll =>
    simp [State.acquireLate, hst, h0]
    rfl
  | mpll | fpll | hpll => simp [State.acquireLate, hst, h0]

theorem State.acquireLate_again (hst : (s.pll p).st = .acquire) (h1 : 1 ≤ (s.pll p).timeouts) :
    s.acquireLate p = s.searchFail p := by
  simp [State.acquireLate, hst, h1]

theorem State.searchDone_none (hst : (s.pll p).st = .search) : s.searchDone p none = s.searchFail p := by
  simp [State.searchDone, hst]

end

/-! O25. -/

/-- Settles O25: ENABLE wakes or ends a PLL, a found band and the lock window move it on, the SPLL's consumers come back at the next
boundary, and a PLL without band or lock is off in the end. -/
theorem pllsSearchLockAndGiveUp : Obligations.PllsSearchLockAndGiveUp := by
  unfold Obligations.PllsSearchLockAndGiveUp
  refine ⟨?enable, ?disable, ?band, ?lock, fun s hdue hr hh => State.cyclePass_take hdue hr hh, ?giveUp⟩
  case enable =>
    intro s p w r hq hw u hen hsel hst href
    refine ⟨_, exec_pllEnable hq hw hen hsel hst href, ?_, fun q hpq => ?_, ?_, ?_⟩
    · rw [State.heldPublished_pll, State.pllSearch_pll, wrote_pll]
    · rw [State.heldPublished_pll, State.pllSearch_pll_ne _ _ hpq, wrote_pll]
    · rintro rfl
      rw [State.heldPublished_clk]
      rfl
    · exact State.heldPublished_frame (State.pllSearch_eq _ _ _) p
  case disable =>
    intro s p w r hq hw u hen hsel hst hx
    have hxo : s.onXo p = true := by cases p <;> exact hx
    refine ⟨_, exec_pllDisable hq hw hen hsel hst hxo, ?_, fun q hpq => ?_, ?_, ?_⟩
    · rw [State.heldPublished_pll, State.pllIdle_pll, wrote_pll]
    · rw [State.heldPublished_pll, State.pllIdle_pll_ne _ hpq, wrote_pll]
    · rintro rfl
      rw [State.heldPublished_clk]
      rfl
    · exact State.heldPublished_frame (State.pllIdle_eq _ _) p
  case band =>
    intro s p f hq hst
    refine ⟨fun hp => ?_, ?_⟩
    · exact ok_pllChanged (p := p) hq (State.searchDone_found hp hst) rfl
    · rintro rfl c g
      exact ok_pllChanged (p := .spll) hq (State.searchDone_spll hst) rfl
  case lock =>
    intro s p err hq hst
    refine ⟨fun hout => ok_pllChanged (p := p) hq (State.pllLocked_outside hout) rfl, fun hin => ?_⟩
    refine ⟨_, ok_pllChanged (p := p) hq (State.pllLocked_inside hst hin) (State.pllReturn_hk _ p), ?_, fun q hpq => ?_,
      fun hm => State.pllReturn_eq hm, ?_, ?_, ?_, ?_, ?_⟩
    · exact (State.pllReturn_pll ..).trans (State.pll_setPll ..)
    · exact (State.pllReturn_pll ..).trans (State.pll_setPll_ne s _ hpq)
    · rintro rfl hx hl
      rw [State.pllReturn_spll_due (s := s.pllMet .spll err) hx hl]
      exact ⟨rfl, rfl⟩
    · rintro rfl hx hl
      rw [State.pllReturn_spll_lost (s := s.pllMet .spll err) hx hl]
      exact State.spllTake_loadInc_live _
    · rintro rfl
      obtain ⟨hclk, -, hch⟩ := (s.pllMet .mpll err).pllReturn_mpll_beside
      exact ⟨by rw [hclk], hch⟩
    · rintro rfl
      exact ⟨rfl, rfl⟩
    · rintro rfl
      rfl
  case giveUp =>
    intro s p hq hx gone off given again
    have hxo : s.onXo p = true := by cases p <;> exact hx
    have hgiven : (gone.pllIdle p).raise (aPllEv p) (bit1 7) = given := by
      have hgone : gone.pll p = s.pll p := State.pll_of_clk (State.setReg_clk ..) p
      unfold State.pllIdle
      rw [hgone]
    have hhk : given.hk = s.hk := by
      rw [← hgiven]
      show (gone.pllIdle p).hk = s.hk
      rw [State.pllIdle_eq]
      exact State.setReg_hk ..
    refine ⟨fun hst h0 => ?_, fun hst h1 => ?_, fun hst => ?_⟩
    · exact ok_pllChanged (p := p) hq (State.acquireLate_first hst h0) (by split <;> rfl)
    · have hnot : (s.pll p).st ≠ .locked := by simp [hst]
      exact ok_pllChanged (p := p) hq
        ((State.acquireLate_again hst h1).trans ((State.searchFail_onXo hnot hxo).trans hgiven)) hhk
    · have hnot : (s.pll p).st ≠ .locked := by simp [hst]
      exact ok_pllChanged (p := p) hq
        ((State.searchDone_none hst).trans ((State.searchFail_onXo hnot hxo).trans hgiven)) hhk

end Sys2Proof.Machine
end

section
/-!
BYPASS (04 R101, R104 to R106): what the consumers of a PLL that has lost its lock do.
-/

namespace Sys2Proof.Machine

open Sys2Proof.Safety

/-! The SPLL's consumers (R105). -/

/-- After its end no burst runs. -/
theorem State.endBurst_quiet (s : State) (n e : Nat) : ((s.endBurst n e).seq n).bursting = false := by
  cases hb : (s.seq n).bursting with
  | false => simp [State.endBurst, hb]
  | true =>
    unfold Seq.bursting
    rw [(endBurst_over hb).st]
    rfl

/-- Every burst ends. -/
theorem State.endBursts_quiet (s : State) {n : Nat} (hn : n < 24) :
    ((s.each (List.range 24) (fun s n => s.endBurst n (s.fastNow 0))).seq n).bursting = false :=
  State.each_unit (fun t m => (t.seq m).bursting) (fun _ _ => false)
    (fun t k m hm => congrArg Seq.bursting ((State.endBurst_onlySeq (onlySeq_refl k t)).seqs m hm))
    (fun t k => t.endBurst_quiet k _) List.nodup_range (List.mem_range.mpr hn) s

theorem State.endBursts_clk (s : State) : (s.each (List.range 24) (fun s n => s.endBurst n (s.fastNow 0))).clk = s.clk :=
  State.each_keep State.clk (fun t n => (State.endBurst_onlySeq (onlySeq_refl n t)).clk) s _

theorem State.clearTickRun_clk (s : State) : s.clearTickRun.clk = s.clk := by
  unfold State.clearTickRun
  split
  · exact State.setReg_clk ..
  · rfl

theorem State.clearTickRun_seqs (s : State) : s.clearTickRun.seqs = s.seqs := by
  unfold State.clearTickRun
  split
  · exact State.setReg_seqs ..
  · rfl

theorem State.clearTickRun_flag (s : State) : s.clearTickRun.flag wTime 0 = false := by
  unfold State.clearTickRun
  split
  · show bitOf ((s.setReg wTime _).reg wTime) 0 = false
    rw [State.reg_setReg]
    simp [bitOf, putBits]
  · next h => exact Bool.eq_false_iff.mpr h

/-- CD_CORE goes to the XO, the rest stops, no burst runs and no tick begins. -/
theorem State.spllConsumers_off (s : State) :
    s.spllConsumers.clk = { s.clk with spllXo := true, spllStopped := true, spllDue := false } ∧
      s.spllConsumers.flag wTime 0 = false ∧ ∀ n, n < 24 → (s.spllConsumers.seq n).bursting = false := by
  unfold State.spllConsumers
  refine ⟨?_, State.clearTickRun_flag _, fun n hn => ?_⟩
  · exact (State.clearTickRun_clk _).trans (State.endBursts_clk _)
  · exact (congrArg Seq.bursting (seq_of_seqs (State.clearTickRun_seqs _) n)).trans (State.endBursts_quiet _ hn)

/-! The other PLLs' consumers (R105). -/

theorem State.mpllConsumers_off (s : State) :
    s.mpllConsumers.clk = { s.clk with mpllXo := true } ∧ s.mpllConsumers.mor.mem = [] := by
  unfold State.mpllConsumers
  dsimp only
  simp only [State.morAbort_clk, State.morAbort_mem, and_true]
  exact State.each_keep State.clk (f := fun t n => t.modChan n _) (fun _ _ => rfl) _ _

/-- The clocks but for the SPLL and what runs on it. -/
def Clk.butSpll (c : Clk) : Clk := { c with spll := .reset, idle := .free, hop := none, ramp := none, pend := 0 }

theorem Clk.of_butSpll {a b : Clk} (h : a.butSpll = b.butSpll) :
    a.fpll = b.fpll ∧ a.fpllXo = b.fpllXo ∧ a.fpllStopped = b.fpllStopped :=
  ⟨show a.butSpll.fpll = b.butSpll.fpll by rw [h], show a.butSpll.fpllXo = b.butSpll.fpllXo by rw [h],
    show a.butSpll.fpllStopped = b.butSpll.fpllStopped by rw [h]⟩

theorem State.pllHold_butSpll (s : State) : (s.pllHold .spll).clk.butSpll = s.clk.butSpll := by
  obtain ⟨i, h, r, hclk⟩ := s.pllTo_clk .spll .holdover
  show (s.pllTo .spll .holdover).clk.butSpll = _
  rw [hclk]
  rfl

/-- An SPLL whose reference is lost touches no other PLL and nothing of its consumers. -/
theorem State.refLost_butSpll (s : State) : (s.refLost .spll).clk.butSpll = s.clk.butSpll := by
  cases href : (s.pll .spll).refOk with
  | false => rw [State.refLost_absent href]
  | true =>
    rw [State.refLost_present href]
    cases (s.pll .spll).st with
    | locked => exact State.pllHold_butSpll _
    | search | acquire =>
      dsimp only
      split <;> rfl
    | bypass | off | holdover => rfl

/-- The FPLL's consumers run from the XO or stop; the links drop, and an SPLL on FREF loses its reference. -/
theorem State.fpllConsumers_off (s : State) : s.fpllConsumers.clk.fpll = s.clk.fpll ∧
    s.fpllConsumers.clk.fpllXo = true ∧ s.fpllConsumers.clk.fpllStopped = true := by
  have hbut : s.fpllConsumers.clk.butSpll = ({ s.clk with fpllXo := true, fpllStopped := true } : Clk).butSpll := by
    unfold State.fpllConsumers
    dsimp only
    split
    · rw [State.refLost_butSpll, State.linksDrop_clk]
      rfl
    · rw [State.linksDrop_clk]
      rfl
  exact Clk.of_butSpll hbut

theorem State.hpllConsumers_clk (s : State) : s.hpllConsumers.clk = { s.clk with hpllXo := true } :=
  State.loopBypass_clk _

/-! BYPASS. -/

/-- A PLL in BYPASS, with its consumers on the XO or stopped where they were on the PLL (O26). -/
def Bypassed (s : State) (p : Pll) (t : State) : Prop :=
  (t.pll p).st = .bypass ∧
  (p = .spll → s.clk.spllXo = false →
    t.clk.spllXo = true ∧ t.clk.spllStopped = true ∧ t.flag wTime 0 = false ∧ ∀ n, n < 24 → (t.seq n).bursting = false) ∧
  (p = .mpll → s.clk.mpllXo = false → t.clk.mpllXo = true ∧ t.mor.mem = []) ∧
  (p = .fpll → s.clk.fpllXo = false → t.clk.fpllXo = true ∧ t.clk.fpllStopped = true) ∧
  (p = .hpll → s.clk.hpllXo = false → t.clk.hpllXo = true)

/-- The consumers of a PLL that is in BYPASS already have left it as it is. -/
theorem State.pllConsumers_bypassed {s : State} {p : Pll} (hst : (s.pll p).st = .bypass) :
    Bypassed s p (s.pllConsumers p) := by
  cases p with
  | spll =>
    cases hx : s.clk.spllXo with
    | true => simpa [Bypassed, State.pllConsumers, hx, State.pll, State.modClk] using hst
    | false =>
      obtain ⟨hclk, hflag, hseq⟩ := s.spllConsumers_off
      have hcons : s.pllConsumers .spll = s.spllConsumers := by simp [State.pllConsumers, hx]
      rw [hcons]
      refine ⟨?_, fun _ _ => ⟨by rw [hclk], by rw [hclk], hflag, hseq⟩, nofun, nofun, nofun⟩
      unfold State.pll
      rw [hclk]
      exact hst
  | mpll =>
    cases hx : s.clk.mpllXo with
    | true => simpa [Bypassed, State.pllConsumers, hx, State.pll] using hst
    | false =>
      obtain ⟨hclk, hmem⟩ := s.mpllConsumers_off
      have hcons : s.pllConsumers .mpll = s.mpllConsumers := by simp [State.pllConsumers, hx]
      rw [hcons]
      refine ⟨?_, nofun, fun _ _ => ⟨by rw [hclk], hmem⟩, nofun, nofun⟩
      unfold State.pll
      rw [hclk]
      exact hst
  | fpll =>
    cases hx : s.clk.fpllXo with
    | true => simpa [Bypassed, State.pllConsumers, hx, State.pll] using hst
    | false =>
      obtain ⟨hpll, hxo, hstop⟩ := s.fpllConsumers_off
      have hcons : s.pllConsumers .fpll = s.fpllConsumers := by simp [State.pllConsumers, hx]
      rw [hcons]
      exact ⟨(congrArg PllS.st hpll).trans hst, nofun, nofun, fun _ _ => ⟨hxo, hstop⟩, nofun⟩
  | hpll =>
    cases hx : s.clk.hpllXo with
    | true => simpa [Bypassed, State.pllConsumers, hx, State.pll] using hst
    | false =>
      have hclk := s.hpllConsumers_clk
      have hcons : s.pllConsumers .hpll = s.hpllConsumers := by simp [State.pllConsumers, hx]
      rw [hcons]
      refine ⟨?_, nofun, nofun, nofun, fun _ _ => by rw [hclk]⟩
      unfold State.pll
      rw [hclk]
      exact hst

/-- What a PLL's consumers run from before it enters BYPASS is all that the statement asks of the state before. -/
theorem Bypassed.of_onXo {s u t : State} {p : Pll} (h : Bypassed u p t) (hx : u.onXo p = s.onXo p) : Bypassed s p t := by
  obtain ⟨hst, hs, hm, hf, hh⟩ := h
  refine ⟨hst, ?_, ?_, ?_, ?_⟩
  · rintro rfl h
    exact hs rfl (hx.trans h)
  · rintro rfl h
    exact hm rfl (hx.trans h)
  · rintro rfl h
    exact hf rfl (hx.trans h)
  · rintro rfl h
    exact hh rfl (hx.trans h)

theorem State.pllBypass_bypassed (s : State) (p : Pll) : Bypassed s p (s.pllBypass p) := by
  refine Bypassed.of_onXo (State.pllConsumers_bypassed ?_) ?_
  · show ((s.pllTo p .bypass).pll p).st = .bypass
    rw [State.pllTo_pll]
  · exact s.pllTo_onXo p p .bypass

/-! The rows. -/

theorem State.lockLost_inside {s : State} {p : Pll} {err : Word} (h : err.toInt.natAbs ≤ s.unlockWin p) :
    s.lockLost p err = s := by
  simp [State.lockLost, h]

theorem State.lockLost_outside {s : State} {p : Pll} {err : Word} (hst : (s.pll p).st = .locked)
    (href : (s.pll p).refOk = true) (h : s.unlockWin p < err.toInt.natAbs) :
    s.lockLost p err = ((s.setPll p { s.pll p with phaseErr := err }).pllEvent p 0).pllBypass p := by
  simp [State.lockLost, hst, href, Nat.not_le.mpr h]

/-- A retry searches the active entry of the SPLL, which aims at what it held (R106). -/
theorem State.pllSearch_bypass (s : State) (p : Pll) :
    let x := s.setPll p { s.pll p with st := .search, origin := .bypass, timeouts := 0 }
    s.pllSearch p .bypass = if p = .spll then
      { x with clk := { x.clk with goal := entryPoint (s.bandEntry s.clk.entry) } } else x := by
  cases p <;> rfl

/-- Settles O26: outside the unlock window, or at the end of HOLD_MAX, a PLL enters BYPASS, where its consumers leave it. -/
theorem lossOfLockBypasses : Obligations.LossOfLockBypasses := by
  unfold Obligations.LossOfLockBypasses
  refine ⟨fun s p err hst href => ⟨fun hin => ?_, fun hout => ?_⟩, fun s p hst => ⟨fun h0 => ?_, fun hmax => ?_⟩,
    fun s p hst => ⟨fun href => ?_, fun href => ?_⟩⟩
  · exact congrArg ok (State.lockLost_inside hin)
  · refine ⟨_, congrArg ok (State.lockLost_outside hst href hout), ?_⟩
    exact Bypassed.of_onXo (State.pllBypass_bypassed _ p) (s.onXo_setPll p p _)
  · show ok (s.holdExpired p) = _
    simp [State.holdExpired, h0, ok]
  · refine ⟨s.pllBypass p, ?_, s.pllBypass_bypassed p⟩
    show ok (s.holdExpired p) = _
    simp [State.holdExpired, hst, hmax, ok]
  · show ok (s.bypassRetry p) = _
    simp [State.bypassRetry, href, ok]
  · show ok (s.bypassRetry p) = _
    have hretry : s.bypassRetry p = s.pllSearch p .bypass := by simp [State.bypassRetry, hst, href]
    rw [hretry, State.pllSearch_bypass, ok]

end Sys2Proof.Machine
end

section
/-!
References (04 R103, R104, R108): what their monitors' judgements and a new choice of reference do to a PLL.
-/

namespace Sys2Proof.Machine

open Sys2Proof.Safety

theorem State.setPll_setPll (s : State) (p : Pll) (x y : PllS) : (s.setPll p x).setPll p y = s.setPll p y := by
  cases p <;> rfl

/-! The monitors' judgement (R103). -/

/-- A root's FPLL follows REF10M, which is this PLL's own reference (13 R355). -/
def State.follows (s : State) (p : Pll) : Prop := p = .fpll ∧ s.refsel p = 1 ∧ (s.nzl.st = .root ∨ s.nzl.st = .enum)

/-- The monitor of REF10M has judged its pin, where that is PLL p's own reference. -/
def State.ref10mJudged (s : State) (p : Pll) (present : Bool) : State := { s with clk := { s.clk with
  ref10m := if p = .fpll ∧ s.refsel p = 1 then present else s.clk.ref10m } }

theorem State.rootFollows_of_not {s : State} (hr : s.nzl.st ≠ .root) (he : s.nzl.st ≠ .enum) : s.rootFollows = s := by
  simp [State.rootFollows, hr, he]

section

variable {s : State} {p : Pll}

/-- A judgement of PLL p's own reference, at a node whose FPLL does not follow REF10M. -/
theorem State.refJudged_own (hf : ¬ s.follows p) (present : Bool) : s.refJudged p .own present =
    if present then (s.ref10mJudged p present).refBack p else (s.ref10mJudged p present).refLost p := by
  by_cases hp : p = .fpll ∧ s.refsel p = 1
  · obtain ⟨rfl, hsel⟩ := hp
    have hroot : s.nzl.st ≠ .root := fun h => hf ⟨rfl, hsel, .inl h⟩
    have henum : s.nzl.st ≠ .enum := fun h => hf ⟨rfl, hsel, .inr h⟩
    have hj : (s.modClk (fun c => { c with ref10m := present })).rootFollows = s.ref10mJudged .fpll present := by
      rw [State.rootFollows_of_not (s := s.modClk _) hroot henum]
      simp [State.ref10mJudged, State.modClk, hsel]
    simp [State.refJudged, hsel, hj]
  · have hj : s.ref10mJudged p present = s := by simp [State.ref10mJudged, hp]
    simp [State.refJudged, hj, hp]

/-- A judgement of REF10M where the FPLL takes another reference concerns that pin alone. -/
theorem State.refJudged_ref10m (hsel : s.refsel .fpll ≠ 1) (hr : s.nzl.st ≠ .root) (he : s.nzl.st ≠ .enum)
    (present : Bool) : s.refJudged .fpll .ref10m present = { s with clk := { s.clk with ref10m := present } } := by
  have hj : (s.modClk (fun c => { c with ref10m := present })).rootFollows = s.modClk (fun c => { c with ref10m := present }) :=
    State.rootFollows_of_not hr he
  simp [State.refJudged, hsel, hj]
  rfl

/-- A PLL that searched or acquired is where it came from, an SPLL that is off again with its accumulator clear (R100, R108). -/
theorem State.refLost_seeking (href : (s.pll p).refOk = true) (hst : (s.pll p).st = .search ∨ (s.pll p).st = .acquire) :
    s.refLost p =
      let back := (s.refGone p).setPll p { s.pll p with refOk := false, st := (s.pll p).origin, timeouts := 0 }
      if p = .spll ∧ (s.pll p).origin = .off then { back with clk := { back.clk with pend := 0 } } else back := by
  rw [State.refLost_present href]
  rcases hst with hst | hst <;> simp [hst, State.modPll, State.refGone_pll, State.modClk]

/-- A LOCKED PLL other than the SPLL holds over (R104). -/
theorem State.refLost_locked (href : (s.pll p).refOk = true) (hst : (s.pll p).st = .locked) (hp : p ≠ .spll) :
    s.refLost p = (((s.refGone p).setPll p { s.pll p with refOk := false, st := .holdover }).raise (aPllEv p) (bit1 2)).detect
      0x02 uPll (pllIndex p) 0 := by
  rw [State.refLost_present href, hst]
  dsimp only
  rw [State.pllHold_eq (.inl hp), State.refGone_pll]

theorem State.refLost_off (href : (s.pll p).refOk = true) (hst : (s.pll p).st = .off) : s.refLost p = s.refGone p := by
  rw [State.refLost_present href, hst]

/-- The SPLL's HOLDOVER ends a hop and a ramp, and leaves Firn, the sequencers, time and housekeeping as they are. -/
theorem State.pllHold_spll (hst : (s.pll .spll).st = .locked) :
    (s.pllHold .spll).pll .spll = { s.pll .spll with st := .holdover } ∧ (s.pllHold .spll).clk.hop = none ∧
      (s.pllHold .spll).clk.ramp = none ∧ (s.pllHold .spll).butClk = s.butClk := by
  have hleft := State.pllTo_spll_left hst (st := .holdover) (by simp)
  obtain ⟨i, hclk⟩ := (s.setPll .spll { s.pll .spll with st := .holdover }).spllLeft_clk
  refine ⟨s.pllTo_pll .spll .holdover, ?_, ?_, s.pllTo_butClk .spll .holdover⟩
  · show (s.pllTo .spll .holdover).clk.hop = none
    rw [hleft, hclk]
  · show (s.pllTo .spll .holdover).clk.ramp = none
    rw [hleft, hclk]

/-- Entry to HOLDOVER sets its event. -/
theorem State.pllHold_event (s : State) (p : Pll) : bitOf ((s.pllHold p).reg (aPllEv p)) 2 = true := by
  have hreg : (s.pllHold p).reg (aPllEv p) = (s.pllTo p .holdover).reg (aPllEv p) ||| bit1 2 := State.reg_putReg ..
  rw [hreg]
  simp [bitOf, bit1]

/-- The state of a lost reference, written out. -/
theorem State.refGone_judged (s : State) (p : Pll) :
    let c : Clk := { s.clk with
      ref10m := if p = .fpll ∧ s.refsel p = 1 then false else s.clk.ref10m
      xoLost := if p = .hpll then true else s.clk.xoLost }
    (s.ref10mJudged p false).refGone p =
      (({ s with clk := c }).raise (aPllEv p) (bit1 1)).setPll p { s.pll p with refOk := false } := by
  cases p <;> rfl

/-- A reference that is back, and what an OFF PLL does on it. -/
theorem State.refBack_judged (s : State) (p : Pll) :
    let c : Clk := { s.clk with
      ref10m := if p = .fpll ∧ s.refsel p = 1 then true else s.clk.ref10m
      xoLost := if p = .hpll then false else s.clk.xoLost }
    (s.ref10mJudged p true).refBack p =
      (({ s with clk := c }).setPll p { s.pll p with refOk := true }).pllWake p := by
  cases p <;> rfl

end

theorem State.ref10mJudged_pll (s : State) (p q : Pll) (present : Bool) : (s.ref10mJudged p present).pll q = s.pll q := by
  cases q <;> rfl

/-! The rows. -/

/-- The difference between the reference and the oscillator joins the SPLL's accumulator within its range (R104). -/
theorem State.holdExit_present {s : State} {p : Pll} {d : Int} (hst : (s.pll p).st = .holdover) (href : (s.pll p).refOk = true) :
    s.holdExit p d =
      let x := s.setPll p { s.pll p with st := .acquire, origin := .holdover, timeouts := 0 }
      if p = .spll then
        { x with clk := { x.clk with pend := max (-pendMax) (min pendMax (s.clk.pend + 16 * d)) } } else x := by
  have hgo : s.holdExit p d = let x := s.setPll p { s.pll p with st := .acquire, origin := .holdover, timeouts := 0 }
      if p = .spll then x.pendAdd d else x := by
    simp [State.holdExit, State.modPll, hst, href]
  rw [hgo]
  cases p <;> rfl

/-- A new choice of reference that is present takes a LOCKED PLL to HOLDOVER (R104). -/
theorem exec_refselChange {s : State} {p : Pll} {w : Wr} {r : RegRow} (hw : Written s w (aPll p) r w.value)
    (hst : (s.pll p).st = .locked)
    (hsel : bits ((wrote s w.rq (aPll p) r w.value).reg (aPll p)) 14 2 ≠ bits (s.reg (aPll p)) 14 2)
    (hen : bitOf ((wrote s w.rq (aPll p) r w.value).reg (aPll p)) 0 = bitOf (s.reg (aPll p)) 0) :
    exec (.refselChange p w true) s = .next (((wrote s w.rq (aPll p) r w.value).pllHold p).heldPublished p) := by
  show ok (s.busWrite w.rq (aPll p) w.be w.value { present := some true }) = _
  rw [busWrite_pllCtrl hw, State.afterPllCtrl_moved hsel hen (by rwa [wrote_pll]), ok]

/-- Settles O27: the judged reference is noted, then the PLL falls back, holds over, searches or stays; a choice of a reference that
is present ends in HOLDOVER. -/
theorem referencesLostAndBack : Obligations.ReferencesLostAndBack := by
  unfold Obligations.ReferencesLostAndBack
  intro follows
  refine ⟨?lost, ?back, ?ref10m, ?exit, ?choice, ?choiceSpll⟩
  case lost =>
    intro s p hq href hf c ev
    have hgone : (s.ref10mJudged p false).refGone p = ev.setPll p { s.pll p with refOk := false } := s.refGone_judged p
    have hpll := s.ref10mJudged_pll p p false
    have href' : ((s.ref10mJudged p false).pll p).refOk = true := by rwa [hpll]
    have hjudged : s.refJudged p .own false = (s.ref10mJudged p false).refLost p := State.refJudged_own hf false
    refine ⟨fun hst => ?_, fun hst => ?_, fun hst hp => ?_, ?_⟩
    · refine ok_pllChanged (p := p) hq (hjudged.trans ?_) rfl
      rw [State.refLost_off href' (by rwa [hpll]), hgone]
    · intro back
      refine ok_pllChanged (p := p) hq (hjudged.trans ?_) (by split <;> rfl)
      rw [State.refLost_seeking href' (by rwa [hpll]), hpll, hgone, State.setPll_setPll]
    · refine ok_pllChanged (p := p) hq (hjudged.trans ?_) rfl
      rw [State.refLost_locked href' (by rwa [hpll]) hp, hpll, hgone, State.setPll_setPll]
    · rintro hst rfl
      have hlost : (s.ref10mJudged .spll false).refLost .spll =
          ((ev.setPll .spll { s.pll .spll with refOk := false }).pllHold .spll).detect 0x02 uPll 0 0 := by
        rw [State.refLost_present href', hpll, hst, hgone]
        rfl
      obtain ⟨hp, hhop, hramp, hbut⟩ := State.pllHold_spll (s := ev.setPll .spll { s.pll .spll with refOk := false }) hst
      obtain ⟨hseqs, hfirn, htime, hhk⟩ := State.beside_of_butClk hbut
      exact ⟨_, ok_pllChanged (p := .spll) hq (hjudged.trans hlost) hhk, hp, hhop, hramp, hfirn, hseqs, htime⟩
  case back =>
    intro s p hq hf c x
    have hjudged : s.refJudged p .own true = x.pllWake p := (State.refJudged_own hf true).trans (s.refBack_judged p)
    have hpll : x.pll p = { s.pll p with refOk := true } := State.pll_setPll ..
    refine ⟨fun h => ?_, fun hst hon => ?_⟩
    · refine ok_pllChanged (p := p) hq (hjudged.trans (State.pllWake_stays ?_)) rfl
      rw [hpll]
      exact h
    · have hwake : x.pllWake p = x.pllSearch p .off := State.pllWake_off (by rw [hpll]; exact hst) hon (by rw [hpll])
      have hframe := x.pllSearch_eq p .off
      refine ⟨_, ok_pllChanged (p := p) hq (hjudged.trans hwake) ?_, ?_, hframe, fun q hpq => ?_⟩
      · rw [hframe]
        rfl
      · rw [State.pllSearch_pll, hpll]
      · rw [State.pllSearch_pll_ne x _ hpq]
        exact (State.pll_setPll_ne _ _ hpq).trans (by cases q <;> rfl)
  case ref10m =>
    intro s hq hsel hr he
    exact ⟨ok_pllChanged (p := .fpll) hq (State.refJudged_ref10m hsel hr he false) rfl,
      ok_pllChanged (p := .fpll) hq (State.refJudged_ref10m hsel hr he true) rfl⟩
  case exit =>
    intro s p d hst href
    exact congrArg ok (State.holdExit_present hst href)
  case choice =>
    intro s p w r hp hw hst u hsel hen
    rw [exec_refselChange hw hst hsel hen, State.heldPublished_of_ne hp, State.pllHold_eq (.inl hp), wrote_pll]
  case choiceSpll =>
    intro s w r hw hst u hsel hen
    obtain ⟨hp, hhop, hramp, hbut⟩ := State.pllHold_spll (s := u) (by rwa [wrote_pll])
    obtain ⟨hseqs, hfirn, -, -⟩ := State.beside_of_butClk hbut
    obtain ⟨law, sup, hpub⟩ := State.heldPublished_eq (u.pllHold .spll) .spll
    have hexec := exec_refselChange hw hst hsel hen
    rw [hpub] at hexec
    have hpll : u.pll .spll = s.pll .spll := wrote_pll .spll
    exact ⟨_, hexec, hp.trans (by rw [hpll]), hhop, hramp, State.pllHold_event u .spll, hseqs.trans wrote_seqs,
      hfirn.trans wrote_firn⟩

end Sys2Proof.Machine
end

section
/-!
CLK_CO_APPLY (04 R110): what an accepted write of it adds to the outputs that wait.
-/

namespace Sys2Proof.Machine

open Sys2Proof.Safety

/-- The row of CLK_CO_APPLY (04 Registers): one pulse bit per output, nothing stored. -/
def rowApply : RegRow := regG 0x280 [fWP 0 12]

theorem rowOf_apply : rowOf (wClk + 0x280) = some rowApply := rfl

/-- The effect of CLK_CO_APPLY adds the outputs of the value as written to those that wait. -/
theorem afterWrite_apply {t : State} (rq : Requester) (old new v : Word) (h : Hint) (hlive : Live t (wClk + 0x280)) :
    t.afterWrite rq (wClk + 0x280) old new v false h =
      t.modClk (fun c => { c with applyMask := c.applyMask ||| v.setWidth 12 }) := by
  unfold Live at hlive
  unfold State.afterWrite
  simp only [hlive, Bool.false_and, Bool.false_eq_true, if_false]
  rfl

/-- An accepted apply adds the written outputs over those of whatever word the register holds: R39 keeps the stored bits that are
no RW field, and a pulse register has no other. -/
theorem exec_clockOutputApply {s : State} {w : Wr} (hw : Written s w (wClk + 0x280) rowApply w.value) :
    exec (.clockOutputApply w) s = .next ((wrote s w.rq (wClk + 0x280) rowApply w.value).modClk (fun c =>
      { c with applyMask := c.applyMask ||| (s.reg (wClk + 0x280) ||| (w.value &&& rowApply.requestMask)).setWidth 12 })) := by
  show ok (s.busWrite w.rq (wClk + 0x280) w.be w.value) = _
  rw [busWrite_written_request hw (by decide)]
  exact congrArg ok (afterWrite_apply _ _ _ _ _ (wrote_live hw.live))

/-- A part with the CLK window armed for housekeeping, in which a bit stands in the word of CLK_CO_APPLY. The register stores
nothing, so no run is meant to come here; but a statement about every state speaks of this one too. -/
def strayApply : State := { strayStep with regs := [(wClk + 0x280, 1)] }

/-- A full write of zero by housekeeping, which applies no output, is accepted there. -/
theorem written_strayApply : Written strayApply zeroStep (wClk + 0x280) rowApply zeroStep.value where
  full := rfl
  takes := {
    row := rowOf_apply
    word := rfl
    quarter := by decide
    reaches := by decide
    inside := by decide
    aliases := .inl rfl
    writable := by decide
    armed := fun _ => by decide
    listed := by decide
    rule := by decide }
  live := by unfold Live; decide
  last := by unfold Last; decide

/-- Refutes O29: the clause of CLK_CO_APPLY has the written outputs alone added, for every state; where a bit stands in the word of
the pulse register, a write of zero makes output 0 wait. -/
theorem not_hopsAndClockOutputs : ¬ Obligations.HopsAndClockOutputs := by
  unfold Obligations.HopsAndClockOutputs
  rintro ⟨-, -, happly, -⟩
  have hsaid := happly strayApply zeroStep rowApply written_strayApply
  rw [exec_clockOutputApply written_strayApply] at hsaid
  have hmask := congrArg (fun t : State => t.clk.applyMask) (Host.Outcome.next.inj hsaid)
  exact absurd hmask (by decide)

end Sys2Proof.Machine
end

section
/-!
Words of Firn (06 R147, R158, R161): what a word reads as once it is stored in its region, or placed where Rime's phase sends it.
-/

namespace Sys2Proof.Machine

/-! Bytes of a word. -/

/-- The first bytes of a number, little-endian, spell what they hold of it. -/
theorem leNat_bytes (k n : Nat) :
    leNat ((List.range k).map (fun i => BitVec.ofNat 8 (n / 256 ^ i))) = n % 256 ^ k := by
  induction k generalizing n with
  | zero => simp [leNat, Nat.mod_one]
  | succ k ih =>
    have hstep : (fun i => BitVec.ofNat 8 (n / 256 ^ i)) ∘ Nat.succ = fun i => BitVec.ofNat 8 (n / 256 / 256 ^ i) := by
      funext i
      rw [Function.comp_apply, Nat.succ_eq_add_one, Nat.pow_succ', Nat.div_div_eq_div_mul]
    rw [List.range_succ_eq_map, List.map_cons, List.map_map, hstep, leNat, ih, Nat.pow_succ' (n := k), Nat.mod_mul,
      Nat.pow_zero, Nat.div_one, BitVec.toNat_ofNat]

/-- A word of `k` bytes is what its bytes spell. -/
theorem leNat_leBytes {k : Nat} (v : BitVec (8 * k)) : leNat (leBytes v k) = v.toNat := by
  have hv : v.toNat < 256 ^ k := by simpa only [Nat.pow_mul] using v.isLt
  rw [leBytes, leNat_bytes, Nat.mod_eq_of_lt hv]

theorem ofNat_leNat_leBytes (v : BitVec 512) : BitVec.ofNat 512 (leNat (leBytes v 64)) = v :=
  (congrArg (BitVec.ofNat 512) (leNat_leBytes (k := 64) v)).trans ((BitVec.ofNat_toNat 512 v).trans (BitVec.setWidth_eq v))

theorem length_leBytes {n : Nat} (v : BitVec n) (k : Nat) : (leBytes v k).length = k := by simp [leBytes]

/-- Bytes stored from an address on leave every byte before and behind them. -/
theorem get_storeBytes_outside {l : List Byte} {m : Tab Byte} {a k : Nat} (hk : k < a ∨ a + l.length ≤ k) :
    Tab.get (fun _ => (0 : Byte)) (storeBytes m a l) k = Tab.get (fun _ => (0 : Byte)) m k := by
  induction l generalizing m a with
  | nil => rfl
  | cons b l ih =>
    rw [List.length_cons] at hk
    exact (ih (by omega)).trans (Tab.get_set_ne (by omega))

/-- Bytes stored from an address on are read there. -/
theorem map_get_storeBytes (l : List Byte) (m : Tab Byte) (a : Nat) :
    (List.range l.length).map (fun i => Tab.get (fun _ => (0 : Byte)) (storeBytes m a l) (a + i)) = l := by
  induction l generalizing m a with
  | nil => rfl
  | cons b l ih =>
    have hfirst : Tab.get (fun _ => (0 : Byte)) (storeBytes m a (b :: l)) (a + 0) = b :=
      (get_storeBytes_outside (.inl (Nat.lt_succ_self a))).trans Tab.get_set
    have hrest := ih (Tab.set (fun _ => (0 : Byte)) m a b) (a + 1)
    rw [List.length_cons, List.range_succ_eq_map, List.map_cons, List.map_map, hfirst]
    simpa only [storeBytes, Function.comp_def, Nat.succ_eq_add_one, Nat.add_assoc, Nat.add_comm 1, List.cons.injEq,
      true_and] using hrest

/-! A word in its region. -/

section

variable (s : State) (w : Nat) (v : BitVec 512) (poison : Bool)

theorem State.regionWord_regionPut : (s.regionPut w v poison).regionWord w = v := by
  have hbytes := map_get_storeBytes (leBytes v 64) s.firn.mem (64 * w)
  rw [length_leBytes] at hbytes
  exact (congrArg (fun l => BitVec.ofNat 512 (leNat l)) hbytes).trans (ofNat_leNat_leBytes v)

theorem State.regionWord_regionPut_ne {x : Nat} (h : x ≠ w) : (s.regionPut w v poison).regionWord x = s.regionWord x := by
  unfold State.regionWord State.regionPut
  refine congrArg (fun l => BitVec.ofNat 512 (leNat l)) (List.map_congr_left (fun i hi => ?_))
  have hi64 := List.mem_range.mp hi
  exact get_storeBytes_outside (by rw [length_leBytes]; omega)

end

/-! A word that is placed (R161). -/

@[simp] theorem State.regionPut_rime (s : State) (w : Nat) (v : BitVec 512) (poison : Bool) :
    (s.regionPut w v poison).firn.rime = s.firn.rime := rfl

@[simp] theorem State.savePut_rime (s : State) (i : Nat) (v : BitVec 512) (poison : Bool) :
    (s.savePut i v poison).firn.rime = { s.firn.rime with
      save := Tab.set (fun _ => (0 : BitVec 512)) s.firn.rime.save i v
      savePoison := Tab.set (fun _ => false) s.firn.rime.savePoison i poison } := rfl

/-- The running copy notes a written word that the spare takes too (R165). -/
def State.copyNotes (s : State) (w : Nat) (poison : Bool) : State :=
  { s with firn := { s.firn with copy := s.firn.copy.map (fun c => c.mark w poison) } }

@[simp] theorem State.copyNotes_rime (s : State) (w : Nat) (poison : Bool) : (s.copyNotes w poison).firn.rime = s.firn.rime := rfl
@[simp] theorem State.copyNotes_inRime (s : State) (w x : Nat) (poison : Bool) :
    (s.copyNotes w poison).inRime x = s.inRime x := rfl

/-- Whether the region takes a written word: outside Rime's region, in COPY, and in RESTORE for a word already restored. -/
def State.toRegion (s : State) (w : Nat) : Bool :=
  !s.inRime w || s.firn.rime.st == .copy || (s.firn.rime.st == .restore && bitOf s.firn.rime.restored (w % 64))

/-- Whether Rime's save buffer takes a written word: in Rime's region, but not in COPY for a word still to copy. -/
def State.toSave (s : State) (w : Nat) : Bool :=
  s.inRime w && (s.firn.rime.st != .copy || bitOf s.firn.rime.saved (w % 64))

/-- The state once a region takes a written word, or does not. -/
def State.regionTakes (s : State) (take : Bool) (w : Nat) (v : BitVec 512) (poison : Bool) : State :=
  if take then s.regionPut w v poison else s

/-- The state once the save buffer takes a written word, or does not. -/
def State.saveTakes (s : State) (take : Bool) (w : Nat) (v : BitVec 512) (poison : Bool) : State :=
  if take then s.savePut (w % 64) v poison else s

theorem State.savePut_regionPut (s : State) (i w : Nat) (v : BitVec 512) (poison : Bool) :
    (s.savePut i v poison).regionPut w v poison = (s.regionPut w v poison).savePut i v poison := rfl

/-- Where a written word goes: the running copy notes it, and the region and the save buffer take it by Rime's phase. -/
theorem State.firnPlace_eq (s : State) (w : Nat) (v : BitVec 512) (poison : Bool) :
    s.firnPlace w v poison =
      ((s.copyNotes w poison).regionTakes (s.toRegion w) w v poison).saveTakes (s.toSave w) w v poison := by
  have hplace : s.firnPlace w v poison = (
      if !(s.copyNotes w poison).inRime w then (s.copyNotes w poison).regionPut w v poison
      else match (s.copyNotes w poison).firn.rime.st with
        | .copy =>
          let t := (s.copyNotes w poison).regionPut w v poison
          if bitOf t.firn.rime.saved (w % 64) then t.savePut (w % 64) v poison else t
        | .restore =>
          let t := (s.copyNotes w poison).savePut (w % 64) v poison
          if bitOf t.firn.rime.restored (w % 64) then t.regionPut w v poison else t
        | _ => (s.copyNotes w poison).savePut (w % 64) v poison) := rfl
  rw [hplace]
  unfold State.toRegion State.toSave State.regionTakes State.saveTakes
  cases hin : s.inRime w
  case false => simp [hin]
  case true =>
    cases hst : s.firn.rime.st
    case idle | test => simp [hin, hst]
    case copy => cases hb : bitOf s.firn.rime.saved (w % 64) <;> simp [hin, hst, hb]
    case restore => cases hb : bitOf s.firn.rime.restored (w % 64) <;> simp [hin, hst, hb, State.savePut_regionPut]

section

variable (s : State) {w x : Nat} (v : BitVec 512) (poison : Bool)

theorem State.inRime_of_redirected {s : State} (h : s.redirected w = true) : s.inRime w = true := (Bool.and_eq_true_iff.mp h).1
theorem State.inRime_of_toSave {s : State} (h : s.toSave w = true) : s.inRime w = true := (Bool.and_eq_true_iff.mp h).1

/-- A word that the save buffer answers for is written there. -/
theorem State.toSave_of_redirected {s : State} (h : s.redirected w = true) : s.toSave w = true := by
  unfold State.redirected at h
  simp only [Bool.and_eq_true] at h
  simp [State.toSave, h.1, h.2]

/-- A word that the region answers for is written there. -/
theorem State.toRegion_of_not_redirected {s : State} (h : s.redirected w = false) : s.toRegion w = true := by
  unfold State.redirected at h
  unfold State.toRegion
  cases hin : s.inRime w
  case false => rfl
  case true =>
    have hst : s.firn.rime.st = .copy := by simpa [hin] using h
    simp [hst]

/-- Of the words below 2^21 one alone has its region and its place in it (R147). -/
theorem eq_of_firnRegion_eq (hw : w < 2 ^ 21) (hx : x < 2 ^ 21) (hr : firnRegion w = firnRegion x) (hi : w % 64 = x % 64) :
    w = x := by
  unfold firnRegion at hr
  omega

theorem State.inRime_region {s : State} (h : s.inRime w = true) : firnRegion w = s.firn.rime.region := by
  unfold State.inRime at h
  simp only [Bool.and_eq_true, beq_iff_eq] at h
  exact h.2

/-- The entry of the save buffer for another word of Rime's region is another one. -/
theorem State.save_index_ne {s : State} (hw : w < 2 ^ 21) (hx : x < 2 ^ 21) (hwin : s.inRime w = true) (hxin : s.inRime x = true)
    (hne : x ≠ w) : x % 64 ≠ w % 64 := fun hi =>
  hne (eq_of_firnRegion_eq hx hw ((State.inRime_region hxin).trans (State.inRime_region hwin).symm) hi)

theorem State.regionTakes_rime (s : State) (take : Bool) : (s.regionTakes take w v poison).firn.rime = s.firn.rime := by
  cases take <;> rfl

theorem State.saveTakes_regionWord (s : State) (take : Bool) :
    (s.saveTakes take w v poison).regionWord x = s.regionWord x := by cases take <;> rfl

theorem State.saveTakes_poison (s : State) (take : Bool) :
    (s.saveTakes take w v poison).firn.poison = s.firn.poison := by cases take <;> rfl

/-- A written word that is placed changes of Rime the save buffer alone. -/
theorem State.firnPlace_rime : (s.firnPlace w v poison).firn.rime = { s.firn.rime with
    save := if s.toSave w then Tab.set (fun _ => (0 : BitVec 512)) s.firn.rime.save (w % 64) v else s.firn.rime.save
    savePoison := if s.toSave w then Tab.set (fun _ => false) s.firn.rime.savePoison (w % 64) poison
      else s.firn.rime.savePoison } := by
  rw [State.firnPlace_eq, State.saveTakes]
  split
  · rw [State.savePut_rime, State.regionTakes_rime, State.copyNotes_rime]
  · rw [State.regionTakes_rime, State.copyNotes_rime]

@[simp] theorem State.firnPlace_redirected : (s.firnPlace w v poison).redirected x = s.redirected x := by
  simp only [State.redirected, State.inRime, State.firnPlace_rime]

/-- The region's word where the region answers, after a word is placed. -/
theorem State.firnPlace_regionWord (h : s.redirected x = false) :
    (s.firnPlace w v poison).regionWord x = if x = w then v else s.regionWord x := by
  rw [State.firnPlace_eq, State.saveTakes_regionWord]
  split
  case isTrue hx =>
    subst hx
    rw [State.toRegion_of_not_redirected h]
    exact State.regionWord_regionPut ..
  case isFalse hx =>
    cases s.toRegion w
    · rfl
    · exact State.regionWord_regionPut_ne _ _ _ _ hx

/-- The region's poison where the region answers, after a word is placed. -/
theorem State.firnPlace_poison (h : s.redirected x = false) :
    Tab.get (fun _ => false) (s.firnPlace w v poison).firn.poison x =
      if x = w then poison else Tab.get (fun _ => false) s.firn.poison x := by
  rw [State.firnPlace_eq, State.saveTakes_poison]
  split
  case isTrue hx =>
    subst hx
    rw [State.toRegion_of_not_redirected h]
    exact Tab.get_set
  case isFalse hx =>
    cases s.toRegion w
    · rfl
    · exact Tab.get_set_ne hx

/-- The save buffer's entry of a word that it answers for, after a word is placed. -/
theorem State.get_savePlaced {α : Type} [DecidableEq α] {s : State} {d : Nat → α} {m : Tab α} {y : α} (hw : w < 2 ^ 21)
    (hx : x < 2 ^ 21) (hr : s.redirected x = true) :
    Tab.get d (if s.toSave w then Tab.set d m (w % 64) y else m) (x % 64) = if x = w then y else Tab.get d m (x % 64) := by
  by_cases hxw : x = w
  · subst hxw
    rw [State.toSave_of_redirected hr, if_pos rfl, if_pos rfl, Tab.get_set]
  · rw [if_neg hxw]
    cases hsave : s.toSave w
    · rfl
    · exact Tab.get_set_ne (State.save_index_ne hw hx (State.inRime_of_toSave hsave) (State.inRime_of_redirected hr) hxw)

/-- A word reads as it was placed, and every other word as before (R147, R161). -/
theorem State.firnWord_firnPlace (hw : w < 2 ^ 21) (hx : x < 2 ^ 21) :
    (s.firnPlace w v poison).firnWord x = if x = w then v else s.firnWord x := by
  unfold State.firnWord
  rw [State.firnPlace_redirected]
  cases hr : s.redirected x
  case false => exact s.firnPlace_regionWord v poison hr
  case true =>
    simp only [if_true, State.firnPlace_rime]
    exact State.get_savePlaced hw hx hr

/-- A word is as poisoned as it was placed, and every other word as before (R158, R161). -/
theorem State.firnPoison_firnPlace (hw : w < 2 ^ 21) (hx : x < 2 ^ 21) :
    (s.firnPlace w v poison).firnPoison x = if x = w then poison else s.firnPoison x := by
  unfold State.firnPoison
  rw [State.firnPlace_redirected]
  cases hr : s.redirected x
  case false => exact s.firnPlace_poison v poison hr
  case true =>
    simp only [if_true, State.firnPlace_rime]
    exact State.get_savePlaced hw hx hr

end

end Sys2Proof.Machine
end

section
/-!
Reads of Firn through ECC (06 R155 to R157): what a clean, a corrected and an uncorrectable word show, and what each leaves alone.
-/

namespace Sys2Proof.Machine

/-- What ECC finds in a word that is read: the corrected codewords with their bits, `none` where it is uncorrectable. The save
buffer's words show no flip. -/
def State.eccFinds (s : State) (w : Nat) (flips : BitVec 576) : Option (List (Nat × Nat)) :=
  if s.firnPoison w then none else if s.redirected w then some [] else eccCheck flips

/-- Where no bit is flipped no codeword is corrected. -/
theorem eccCheck_noFlip : eccCheck 0 = some [] := by
  have hflips : ∀ c, codewordFlips 0#576 c = 0#72 := fun c => by simp [codewordFlips]
  have hcount : popcount 0#72 = 0 := by decide
  simp [eccCheck, hflips, hcount]

/-- A word whose bits show no flip is good unless it is poisoned. -/
theorem State.eccFinds_noFlip (s : State) (w : Nat) : s.eccFinds w 0 = if s.firnPoison w then none else some [] := by
  unfold State.eccFinds
  rw [eccCheck_noFlip, ite_self]

section

variable {s : State} {w : Nat} {flips : BitVec 576}

/-- In a word that is not poisoned ECC finds its flips. -/
theorem State.eccFinds_good (h : s.firnPoison w = false) :
    s.eccFinds w flips = if s.redirected w then some [] else eccCheck flips := by
  rw [State.eccFinds, h]
  rfl

/-- A poisoned word is uncorrectable, and so is one with two flips in a codeword. -/
theorem State.eccFinds_bad (h : s.firnPoison w = true ∨ (if s.redirected w then some [] else eccCheck flips) = none) :
    s.eccFinds w flips = none := by
  unfold State.eccFinds
  rcases h with h | h
  · exact if_pos h
  · rw [h, ite_self]

theorem State.eccRead_clean (h : s.eccFinds w flips = some []) : s.eccRead w flips = (true, s) := by
  unfold State.eccFinds at h
  unfold State.eccRead
  rw [h]

theorem State.eccRead_one {c : Nat × Nat} (h : s.eccFinds w flips = some [c]) :
    s.eccRead w flips = (true, (s.firnCe w c).queueWriteBack w) := by
  unfold State.eccFinds at h
  unfold State.eccRead
  rw [h]
  rfl

theorem State.eccRead_bad (h : s.eccFinds w flips = none) : s.eccRead w flips = (false, s.firnUe w) := by
  unfold State.eccFinds at h
  unfold State.eccRead
  rw [h]

end

/-! What a read through ECC leaves alone. -/

/-- A state but for what a read through ECC works on: the counters, the banks' counts, the histories, the queue of write-backs, what
the port takes with the word, and the detections. -/
def State.butEcc (s : State) : State := { s with
  regs := []
  flt := { s.flt with inbox := [] }
  firn := { s.firn with banks := [], spares := [], hist := [], lastErr := 0, wbQueue := [], flags := [] } }

/-- Counting a corrected codeword changes no bank's spare. -/
theorem State.countCorrected_eq (s : State) (b n : Nat) : ∃ banks spares,
    s.countCorrected b n = { s with firn := { s.firn with banks := banks, spares := spares } } ∧
      ∀ m, (Tab.get (fun _ => Bank.reset) banks m).spare = (s.bank m).spare := by
  unfold State.countCorrected
  split
  · refine ⟨_, s.firn.spares, rfl, fun m => ?_⟩
    by_cases hm : m = b
    · rw [hm, Tab.get_set]
    · rw [Tab.get_set_ne hm]
      rfl
  · exact ⟨s.firn.banks, _, rfl, fun m => rfl⟩

theorem State.firnUe_butEcc (s : State) (w : Nat) : (s.firnUe w).butEcc = s.butEcc := rfl

theorem State.firnCe_butEcc (s : State) (w : Nat) (c : Nat × Nat) : (s.firnCe w c).butEcc = s.butEcc := by
  obtain ⟨banks, spares, h, -⟩ := (s.bump (wFirn + 0x40)).countCorrected_eq (firnBank w) 1
  unfold State.firnCe
  rw [h]
  rfl

theorem State.queueWriteBack_butEcc (s : State) (w : Nat) : (s.queueWriteBack w).butEcc = s.butEcc := by
  unfold State.queueWriteBack
  split <;> rfl

theorem State.eccRead_butEcc (s : State) (w : Nat) (flips : BitVec 576) : (s.eccRead w flips).2.butEcc = s.butEcc := by
  unfold State.eccRead
  split
  · exact s.firnUe_butEcc w
  · rfl
  · exact (State.queueWriteBack_butEcc _ w).trans (State.each_keep State.butEcc (fun t c => t.firnCe_butEcc w c) s _)

/-- Where two states agree but for some parts, what does not speak of those parts is the same in both. -/
theorem State.kept_of_mask {β : Type} {mask : State → State} {s t : State} (h : mask t = mask s) (g : State → β)
    (hg : ∀ u : State, g (mask u) = g u) : g t = g s := by
  rw [← hg t, h, hg]

/-! Corrected and uncorrectable words. -/

section

variable {s : State} {w : Nat}

theorem State.bankUnit_of_spare {t : State} (h : ∀ m, (t.bank m).spare = (s.bank m).spare) : t.bankUnit w = s.bankUnit w := by
  simp only [State.bankUnit, h]

/-- A corrected codeword is counted, and a detection of class 0x06 on the bank (R155). -/
theorem State.firnCe_shows (c : Nat × Nat) :
    (s.firnCe w c).regs = (s.bump (wFirn + 0x40)).regs ∧ (s.firnCe w c).firn.wbQueue = s.firn.wbQueue ∧
      (s.firnCe w c).flt.inbox =
        s.flt.inbox ++ [⟨0x06, uBank, s.bankUnit w, BitVec.ofNat 32 w, false, s.ft64, s.flt.clock⟩] := by
  obtain ⟨banks, spares, h, hspare⟩ := (s.bump (wFirn + 0x40)).countCorrected_eq (firnBank w) 1
  unfold State.firnCe
  rw [h]
  have hunit : ∀ t : State, t.firn.banks = banks → t.bankUnit w = s.bankUnit w := fun t ht =>
    State.bankUnit_of_spare (fun m => by rw [State.bank, ht, hspare, State.bank, State.bank, State.bump_firn])
  exact ⟨rfl, rfl, congrArg (fun u => s.flt.inbox ++
    [⟨0x06, uBank, u, BitVec.ofNat 32 w, false, s.ft64, s.flt.clock⟩]) (hunit _ rfl)⟩

/-- A corrected word is queued for write-back where the queue has room (R156). -/
theorem State.queueWriteBack_room (h : s.firn.wbQueue.length < 16) :
    s.queueWriteBack w = { s with firn := { s.firn with wbQueue := s.firn.wbQueue ++ [w] } } := if_pos h

/-- An uncorrectable word is counted, and a detection of class 0x07 on the bank (R157). -/
theorem State.firnUe_shows :
    (s.firnUe w).regs = (s.bump (wFirn + 0x44)).regs ∧ (s.firnUe w).flt.inbox = s.flt.inbox ++
      [⟨0x07, uBank, s.bankUnit w, BitVec.ofNat 32 w, s.ueAgain w, s.ft64, s.flt.clock⟩] := ⟨rfl, rfl⟩

/-- A read through ECC counts in its three counters alone. -/
theorem State.eccRead_reg (s : State) (w : Nat) (flips : BitVec 576) {a : Nat} (hce : a ≠ wFirn + 0x40)
    (hue : a ≠ wFirn + 0x44) (hwb : a ≠ wFirn + 0x48) : (s.eccRead w flips).2.reg a = s.reg a := by
  have hbump : ∀ (t : State) {b : Nat}, a ≠ b → (t.bump b).reg a = t.reg a := fun t b h => State.reg_putReg_ne t _ h
  have hqueue : ∀ t : State, (t.queueWriteBack w).reg a = t.reg a := by
    intro t
    unfold State.queueWriteBack
    split
    · rfl
    · exact hbump t hwb
  have hone : ∀ (t : State) (c : Nat × Nat), (t.firnCe w c).reg a = t.reg a := by
    intro t c
    obtain ⟨hregs, -⟩ := t.firnCe_shows (w := w) c
    exact (congrArg (Tab.get regDefault · a) hregs).trans (hbump t hce)
  unfold State.eccRead
  split
  · exact hbump s hue
  · rfl
  · exact (hqueue _).trans (State.each_keep (fun t => t.reg a) hone s _)

end

end Sys2Proof.Machine
end

section
/-!
One cycle of a bank of Firn (06 R150 to R152): which access it serves, and what a write, a read and a write-back do in it.
-/

namespace Sys2Proof.Machine

/-! Which access is served. -/

/-- A left fold that keeps the lesser of two elements answers a least one. -/
theorem foldl_least {α : Type} (key : α → Nat) (l : List α) (r : α) :
    l.foldl (fun m x => if key x < key m then x else m) r ∈ r :: l ∧
      ∀ x ∈ r :: l, key (l.foldl (fun m x => if key x < key m then x else m) r) ≤ key x := by
  induction l generalizing r with
  | nil => simp
  | cons y l ih =>
    obtain ⟨hmem, hle⟩ := ih (if key y < key r then y else r)
    rw [List.foldl_cons]
    have hfirst := hle _ List.mem_cons_self
    refine ⟨?_, fun x hx => ?_⟩
    · rcases List.mem_cons.mp hmem with h | h
      · rw [h]
        split <;> simp
      · exact List.mem_cons_of_mem _ (List.mem_cons_of_mem _ h)
    · rcases List.mem_cons.mp hx with rfl | hx
      · refine Nat.le_trans hfirst ?_
        split <;> omega
      · rcases List.mem_cons.mp hx with rfl | hx
        · refine Nat.le_trans hfirst ?_
          split <;> omega
        · exact hle x (List.mem_cons_of_mem _ hx)

/-- The precedence of an access at a bank: its rank, then the round robin of ranks 1 and 4 (R151). -/
def State.pickKey (s : State) (b : Nat) (r : FirnReq) : Nat :=
  portRank r.port.val * 64 + (if portRank r.port.val = 1 then rrDist (Tab.get (fun _ => 31) s.firn.last1 b) r.port.val 32
    else if portRank r.port.val = 4 then rrDist (Tab.get (fun _ => 3) s.firn.last4 b) (r.port.val - 34) 4 else 0)

/-- The round robin never outweighs the rank. -/
theorem State.pickKey_div (s : State) (b : Nat) (r : FirnReq) : s.pickKey b r / 64 = portRank r.port.val := by
  unfold State.pickKey rrDist
  split
  · omega
  · split <;> omega

/-- Of the accesses that a bank can serve it serves one of the least key. -/
theorem State.firnPick_least {s : State} {b : Nat} {reqs : List FirnReq} {r : FirnReq} (h : s.firnPick b reqs = some r) :
    r ∈ reqs ∧ s.firnReady b r = true ∧ ∀ x ∈ reqs, s.firnReady b x = true → s.pickKey b r ≤ s.pickKey b x := by
  unfold State.firnPick at h
  cases hready : reqs.filter (s.firnReady b) with
  | nil => simp [hready] at h
  | cons y l =>
    rw [hready] at h
    obtain ⟨hmem, hle⟩ := foldl_least (s.pickKey b) l y
    have hr : l.foldl (fun m x => if s.pickKey b x < s.pickKey b m then x else m) y = r := Option.some.inj h
    rw [hr, ← hready] at hmem
    rw [hr, ← hready] at hle
    obtain ⟨hr, hopen⟩ := List.mem_filter.mp hmem
    exact ⟨hr, hopen, fun x hx hxo => hle x (List.mem_filter.mpr ⟨hx, hxo⟩)⟩

/-- A bank can serve an access of Rime's port where Rime wants the word, one of ranks 1 to 3 once its holdoff is over, and any other
one (R152). -/
theorem State.firnReady_iff (s : State) (b : Nat) (r : FirnReq) : s.firnReady b r = true ↔
    if portRank r.port = 5 then (s.rimeWork (reqWord r b)).isSome = true
    else 4 ≤ portRank r.port ∨ Tab.get (fun _ => 0) s.firn.hold (b * 64 + r.port) ≤ s.bankNow b := by
  unfold State.firnReady
  split <;> simp

/-- An access that a bank can serve and that no other one contends with is served. -/
theorem State.firnPick_single {s : State} {b : Nat} {r : FirnReq} (h : s.firnReady b r = true) :
    s.firnPick b [r] = some r := by
  have hfilter : [r].filter (s.firnReady b) = [r] := by simp [h]
  unfold State.firnPick
  rw [hfilter]
  rfl

/-! The access is counted. -/

/-- The state once a bank has taken an access in its cycle of a number: the counts of the access's rank, the round robin and the
holdoff (R151, R152). -/
def State.granted (s : State) (b now : Nat) (r : FirnReq) : State :=
  let p := r.port.val
  let k := portRank p
  let cnt (t : Tab (BitVec 64)) (n : Nat) := Tab.set (fun _ => 0) t (k - 1) (Tab.get (fun _ => 0) t (k - 1) + BitVec.ofNat 64 n)
  { s with firn := { s.firn with
    cycle := Tab.set (fun _ => 0) s.firn.cycle b (now + 1)
    served := cnt s.firn.served 1
    waited := cnt s.firn.waited r.waited
    last1 := if k = 1 then Tab.set (fun _ => 31) s.firn.last1 b p else s.firn.last1
    last4 := if k = 4 then Tab.set (fun _ => 3) s.firn.last4 b (p - 34) else s.firn.last4
    hold := if k ≤ 3 then Tab.set (fun _ => 0) s.firn.hold (b * 64 + p) (now + 64) else s.firn.hold } }

/-- A cycle with one access that the bank can serve: nothing is left waiting, and it is served. -/
theorem State.firnCycle_single {s : State} {b : Nat} {r : FirnReq} {flips : BitVec 576} (h : s.firnReady b r = true) :
    s.firnCycle b [r] flips = (s.granted b (s.bankNow b) r).firnServe r b flips := by
  have hwaiting : [r].filter (fun x => some x != some r) = [] := by simp
  unfold State.firnCycle
  simp only [State.firnPick_single h, hwaiting, List.filter_nil]
  rfl

/-! Rime and the copy engine after an access that is not theirs. -/

/-- No phase of Rime and no bank copy has had its last access. -/
def RimeWaits (s : State) : Prop :=
  (s.firn.rime.st = .copy → s.firn.rime.saved ≠ BitVec.allOnes 64) ∧
  (s.firn.rime.st = .test → s.firn.rime.march < s.marchOps.length) ∧
  (s.firn.rime.st = .restore → s.firn.rime.restored ≠ BitVec.allOnes 64) ∧ (∀ c, s.firn.copy = some c → c.todo ≠ [])

/-- A phase of Rime whose last access has been served ends with it (R161, R162). -/
def State.phaseTurn (s : State) : State :=
  match s.firn.rime.st with
  | .copy => if s.firn.rime.saved = BitVec.allOnes 64 then s.rimePhase .test else s
  | .test => if s.marchOps.length ≤ s.firn.rime.march then s.marchEnd [] else s
  | .restore => if s.firn.rime.restored = BitVec.allOnes 64 then s.rimeEnds else s
  | .idle => s

/-- A bank copy whose last access has been served ends with it (R165). -/
def State.copyTurn (s : State) : State :=
  match s.firn.copy with
  | some c => if c.todo.isEmpty then s.copySwitch else s
  | none => s

theorem State.rimeTurn_eq (s : State) : s.rimeTurn = s.phaseTurn.copyTurn := rfl

/-- Where both have accesses to come neither ends. -/
theorem State.rimeTurn_of_waits {s : State} (h : RimeWaits s) : s.rimeTurn = s := by
  obtain ⟨hcopy, htest, hrestore, htodo⟩ := h
  have hphase : s.phaseTurn = s := by
    unfold State.phaseTurn
    split
    · exact if_neg (hcopy ‹_›)
    · exact if_neg (Nat.not_le.mpr (htest ‹_›))
    · exact if_neg (hrestore ‹_›)
    · rfl
  rw [State.rimeTurn_eq, hphase, State.copyTurn]
  split
  · exact if_neg (fun he => htodo _ ‹_› (List.isEmpty_iff.mp he))
  · rfl

/-- How far Rime and the copy engine are. -/
def State.rimeProgress (s : State) : RimeSt × BitVec 64 × BitVec 64 × Nat × Option (List Nat) × Word :=
  (s.firn.rime.st, s.firn.rime.saved, s.firn.rime.restored, s.firn.rime.march, s.firn.copy.map Copy.todo, s.reg (wFirn + 0x4))

theorem RimeWaits.of_progress {s t : State} (h : RimeWaits s) (hp : t.rimeProgress = s.rimeProgress) : RimeWaits t := by
  simp only [State.rimeProgress, Prod.mk.injEq] at hp
  obtain ⟨hst, hsaved, hrestored, hmarch, htodo, hcfg⟩ := hp
  have hops : t.marchOps = s.marchOps := by
    unfold State.marchOps State.marchElements State.fld
    rw [hcfg]
  obtain ⟨hcopy, htest, hrestore, hrest⟩ := h
  unfold RimeWaits
  rw [hst, hsaved, hrestored, hmarch, hops]
  refine ⟨hcopy, htest, hrestore, fun c hc => ?_⟩
  rw [hc, Option.map_some, eq_comm, Option.map_eq_some_iff] at htodo
  obtain ⟨c', hc', htodo'⟩ := htodo
  exact htodo' ▸ hrest c' hc'

/-! What the served access does. -/

theorem reqWord_lt (r : FirnReq) (b : Fin 256) : reqWord r b.val < 2 ^ 21 := by
  have hrow := r.row.isLt
  have hb := b.isLt
  unfold reqWord
  omega

/-- A state but for what a placed word works on: contents and poison, in the region and in the save buffer, what the running copy
notes of them, and what hangs on the word's last read. -/
def State.butWords (s : State) : State := { s with firn := { s.firn with
  mem := [], poison := [], copy := none, rime := Rime.reset, wbQueue := [], flags := [], hist := [] } }

theorem State.firnPlace_butWords (s : State) (w : Nat) (v : BitVec 512) (poison : Bool) :
    (s.firnPlace w v poison).butWords = s.butWords := by
  rw [State.firnPlace_eq]
  cases s.toRegion w <;> cases s.toSave w <;> rfl

theorem State.firnPlace_copy (s : State) (w : Nat) (v : BitVec 512) (poison : Bool) :
    (s.firnPlace w v poison).firn.copy = s.firn.copy.map (fun c => c.mark w poison) := by
  rw [State.firnPlace_eq]
  cases s.toRegion w <;> cases s.toSave w <;> rfl

/-- What the copy notes of a word leaves the rows that it has still to copy. -/
theorem Copy.mark_todo (c : Copy) (w : Nat) (poison : Bool) : (c.mark w poison).todo = c.todo := by
  unfold Copy.mark
  split <;> rfl

/-- A placed word brings Rime and the copy engine no further. -/
theorem State.firnPlace_progress (s : State) (w : Nat) (v : BitVec 512) (poison : Bool) :
    (s.firnPlace w v poison).rimeProgress = s.rimeProgress := by
  have hregs := State.kept_of_mask (s.firnPlace_butWords w v poison) (fun u => u.regs) (fun _ => rfl)
  unfold State.rimeProgress State.reg
  rw [hregs, State.firnPlace_rime, State.firnPlace_copy, Option.map_map]
  congr 5
  exact congrArg (Option.map · s.firn.copy) (funext fun c => c.mark_todo w poison)

/-- What hung on the last read of a word is over with a whole-word write (R156, R157, R159). -/
def State.rewritten (s : State) (w : Nat) : State := { s with firn := { s.firn with
  wbQueue := s.firn.wbQueue.filter (fun x => x != w)
  flags := s.firn.flags.filter (fun x => x.2.1 != w)
  hist := histMod (fun h => { h with rewritten := h.ue }) w s.firn.hist } }

theorem State.firnWrite_live {s : State} {w : Nat} (v : BitVec 512) (h : s.firnGone w = false) :
    s.firnWrite w v = (s.firnPlace w v false).rewritten w := by
  rw [State.firnWrite, h]
  rfl

section

variable {s : State} {r : FirnReq} {b : Nat} {flips : BitVec 576} (hport : portRank r.port.val ≠ 5)
  (hlive : s.firnGone (reqWord r b) = false)

include hport hlive

/-- A served write of a live region places its word. -/
theorem State.firnServe_write {v : BitVec 512} (hw : r.write = some v) :
    s.firnServe r b flips = (s.firnPlace (reqWord r b) v false).rewritten (reqWord r b) := by
  rw [← State.firnWrite_live v hlive]
  unfold State.firnServe
  simp only [if_neg hport, hw]

/-- A served read of a live region goes through ECC; its port takes an uncorrectable error with it (R157). -/
theorem State.firnServe_read (hw : r.write = none) : ∃ f,
    s.firnServe r b flips = { (s.eccRead (reqWord r b) flips).2 with
      firn := { (s.eccRead (reqWord r b) flips).2.firn with flags := f } } := by
  unfold State.firnServe
  simp only [if_neg hport, hw, hlive, Bool.false_eq_true, if_false]
  split
  · exact ⟨_, rfl⟩
  · exact ⟨_, rfl⟩

/-- A served access of a port other than Rime's brings Rime and the copy engine no further. -/
theorem State.firnServe_progress : (s.firnServe r b flips).rimeProgress = s.rimeProgress := by
  cases hw : r.write with
  | some v =>
    rw [State.firnServe_write hport hlive hw]
    exact s.firnPlace_progress (reqWord r b) v false
  | none =>
    obtain ⟨f, hserve⟩ := State.firnServe_read (flips := flips) hport hlive hw
    have hecc := s.eccRead_butEcc (reqWord r b) flips
    have hrime := State.kept_of_mask hecc (fun u => u.firn.rime) (fun _ => rfl)
    have hcopy := State.kept_of_mask hecc (fun u => u.firn.copy) (fun _ => rfl)
    have hcfg := s.eccRead_reg (reqWord r b) flips (a := wFirn + 0x4) (by decide) (by decide) (by decide)
    rw [hserve]
    show (s.eccRead (reqWord r b) flips).2.rimeProgress = s.rimeProgress
    unfold State.rimeProgress
    rw [hrime, hcopy, hcfg]

end

/-- What happens in a block that runs happens (15 R383, 04 R107). -/
theorem State.during_runs {s : State} {window : Nat} {f : State → State} (h : s.runs window = true) :
    s.during window f = f s := if_pos h

/-- A cycle with one access of a port other than Rime's, of a live region, while no phase and no copy has had its last access. -/
theorem exec_firnAccessServed_single {s : State} {b : Fin 256} {r : FirnReq} {flips : BitVec 576} (hrun : s.runs cFirn = true)
    (hwaits : RimeWaits s) (hport : portRank r.port.val ≠ 5) (hready : s.firnReady b r = true)
    (hlive : s.firnGone (reqWord r b) = false) :
    exec (.firnAccessServed b [r] flips) s = .next ((s.granted b (s.bankNow b) r).firnServe r b flips) := by
  have hprogress : ((s.granted b (s.bankNow b) r).firnServe r b flips).rimeProgress = s.rimeProgress :=
    State.firnServe_progress (s := s.granted b (s.bankNow b) r) hport hlive
  have hcycle : (s.firnCycle b.val [r] flips).rimeTurn = (s.granted b (s.bankNow b) r).firnServe r b flips := by
    rw [State.firnCycle_single hready, State.rimeTurn_of_waits (hwaits.of_progress hprogress)]
  exact congrArg ok ((State.during_runs hrun).trans hcycle)

/-! What a served access shows. -/

section

variable (s : State) (b now : Nat) (r : FirnReq)

/-- The bank's next access falls in a later cycle, and the rank counts the access and the cycles it waited (R151). -/
theorem State.granted_counts :
    Tab.get (fun _ => 0) (s.granted b now r).firn.cycle b = now + 1 ∧
    Tab.get (fun _ => 0) (s.granted b now r).firn.served (portRank r.port - 1) =
      Tab.get (fun _ => 0) s.firn.served (portRank r.port - 1) + 1 ∧
    Tab.get (fun _ => 0) (s.granted b now r).firn.waited (portRank r.port - 1) =
      Tab.get (fun _ => 0) s.firn.waited (portRank r.port - 1) + BitVec.ofNat 64 r.waited := by
  simp [State.granted]

end

/-- A state but for what a served access works on besides counting itself. -/
def State.butServed (s : State) : State := s.butWords.butEcc

section

variable {s : State} {r : FirnReq} {b : Nat} {flips : BitVec 576} (hport : portRank r.port.val ≠ 5)
  (hlive : s.firnGone (reqWord r b) = false)

include hport hlive

/-- Serving an access of a port other than Rime's works on words, on what ECC counts and reports, and on nothing else. -/
theorem State.firnServe_frame : (s.firnServe r b flips).butServed = s.butServed := by
  cases hw : r.write with
  | some v =>
    rw [State.firnServe_write hport hlive hw]
    exact congrArg State.butEcc (s.firnPlace_butWords (reqWord r b) v false)
  | none =>
    obtain ⟨f, hserve⟩ := State.firnServe_read (flips := flips) hport hlive hw
    rw [hserve]
    exact congrArg State.butWords (s.eccRead_butEcc (reqWord r b) flips)

/-- A served write gives its word the 64 bytes and no other word, and clears its poison (R158). -/
theorem State.firnServe_writes {v : BitVec 512} (hw : r.write = some v) (hword : reqWord r b < 2 ^ 21) :
    let t := s.firnServe r b flips
    t.firnPoison (reqWord r b) = false ∧ t.regs = s.regs ∧ t.flt = s.flt ∧
      ∀ x, x < 2 ^ 21 → t.firnWord x = if x = reqWord r b then v else s.firnWord x := by
  rw [State.firnServe_write hport hlive hw]
  have hplace := s.firnPlace_butWords (reqWord r b) v false
  refine ⟨?_, State.kept_of_mask hplace (fun u => u.regs) (fun _ => rfl),
    State.kept_of_mask hplace (fun u => u.flt) (fun _ => rfl), fun x hx => s.firnWord_firnPlace v false hword hx⟩
  exact (s.firnPoison_firnPlace v false hword hword).trans (if_pos rfl)

/-- A served read shows what ECC finds (R155 to R157). -/
theorem State.firnServe_reads (hw : r.write = none) : let t := s.firnServe r b flips
    t.firn.mem = s.firn.mem ∧ t.firn.rime = s.firn.rime ∧
    (s.eccFinds (reqWord r b) flips = some [] → t.regs = s.regs ∧ t.flt = s.flt ∧ t.firn.wbQueue = s.firn.wbQueue) ∧
    (∀ c, s.eccFinds (reqWord r b) flips = some [c] → s.firn.wbQueue.length < 16 →
      t.regs = (s.bump (wFirn + 0x40)).regs ∧ t.firn.wbQueue = s.firn.wbQueue ++ [reqWord r b] ∧
      t.flt.inbox = s.flt.inbox ++
        [⟨0x06, uBank, s.bankUnit (reqWord r b), BitVec.ofNat 32 (reqWord r b), false, s.ft64, s.flt.clock⟩]) ∧
    (s.eccFinds (reqWord r b) flips = none → t.regs = (s.bump (wFirn + 0x44)).regs ∧
      ∃ again, t.flt.inbox = s.flt.inbox ++
        [⟨0x07, uBank, s.bankUnit (reqWord r b), BitVec.ofNat 32 (reqWord r b), again, s.ft64, s.flt.clock⟩]) := by
  obtain ⟨f, hserve⟩ := State.firnServe_read (flips := flips) hport hlive hw
  rw [hserve]
  have hecc := s.eccRead_butEcc (reqWord r b) flips
  refine ⟨State.kept_of_mask hecc (fun u => u.firn.mem) (fun _ => rfl),
    State.kept_of_mask hecc (fun u => u.firn.rime) (fun _ => rfl), fun h => ?clean, fun c h hroom => ?corrected, fun h => ?bad⟩
  case clean =>
    rw [State.eccRead_clean h]
    exact ⟨rfl, rfl, rfl⟩
  case corrected =>
    obtain ⟨hregs, hqueue, hinbox⟩ := s.firnCe_shows (w := reqWord r b) c
    rw [State.eccRead_one h, State.queueWriteBack_room (hqueue.symm ▸ hroom)]
    exact ⟨hregs, congrArg (· ++ [reqWord r b]) hqueue, hinbox⟩
  case bad =>
    obtain ⟨hregs, hinbox⟩ := s.firnUe_shows (w := reqWord r b)
    rw [State.eccRead_bad h]
    exact ⟨hregs, _, hinbox⟩

end

/-! Write-backs (R156). -/

/-- The access of Rime's port that writes a word back. -/
def writeBackReq (w : Nat) : FirnReq := ⟨38, BitVec.ofNat 13 (w / 256), none, 0⟩

theorem reqWord_writeBackReq {w : Nat} (hw : w < 2 ^ 21) : reqWord (writeBackReq w) (firnBank w) = w := by
  have hrow : (BitVec.ofNat 13 (w / 256)).toNat = w / 256 := by rw [BitVec.toNat_ofNat]; omega
  unfold reqWord writeBackReq firnBank
  rw [hrow]
  omega

/-- Rime's port wants the oldest word to write back before anything else. -/
theorem State.rimeWork_writeBack {s : State} {w : Nat} {l : List Nat} (hq : s.firn.wbQueue = w :: l) :
    s.rimeWork w = some .writeBack := by
  unfold State.rimeWork
  rw [hq]
  exact if_pos rfl

/-- The oldest word is written back in a cycle of rank 5, and the queue goes on behind it. -/
theorem State.writeBack_oldest {s : State} {w : Nat} {l : List Nat} (hq : s.firn.wbQueue = w :: l) (hw : w < 2 ^ 21) :
    s.writeBack = { s.granted (firnBank w) (s.bankNow (firnBank w)) (writeBackReq w) with
      firn := { (s.granted (firnBank w) (s.bankNow (firnBank w)) (writeBackReq w)).firn with wbQueue := l } } := by
  have hword := reqWord_writeBackReq hw
  have hrank : portRank (writeBackReq w).port = 5 := rfl
  have hready : s.firnReady (firnBank w) (writeBackReq w) = true := by
    rw [State.firnReady_iff, if_pos hrank, hword, State.rimeWork_writeBack hq]
    rfl
  have hwork : (s.granted (firnBank w) (s.bankNow (firnBank w)) (writeBackReq w)).rimeWork w = some .writeBack :=
    State.rimeWork_writeBack (l := l) hq
  have hstart : s.writeBack = s.firnCycle (firnBank w) [writeBackReq w] 0 := by
    unfold State.writeBack
    rw [hq]
    rfl
  rw [hstart, State.firnCycle_single hready, State.firnServe, if_pos hrank, hword, State.rimeAccess, hwork]
  exact congrArg (fun q : List Nat => ({ s.granted (firnBank w) (s.bankNow (firnBank w)) (writeBackReq w) with
    firn := { (s.granted (firnBank w) (s.bankNow (firnBank w)) (writeBackReq w)).firn with wbQueue := q } } : State))
    (congrArg List.tail hq)

theorem exec_eccWriteBack {s : State} (hrun : s.runs cFirn = true) : exec .eccWriteBack s = .next s.writeBack :=
  congrArg ok (State.during_runs hrun)

theorem State.writeBack_none {s : State} (hq : s.firn.wbQueue = []) : s.writeBack = s := by
  unfold State.writeBack
  rw [hq]

/-- Settles O36: the pick is a least one of what the bank can serve; the single access is served; the oldest
word is written back. -/
theorem firnBankCycle : Obligations.FirnBankCycle := by
  unfold Obligations.FirnBankCycle
  refine ⟨?pick, ?single, ?writeBack⟩
  case pick =>
    intro s b reqs r hpick
    obtain ⟨hmem, hopen, hleast⟩ := State.firnPick_least hpick
    refine ⟨hmem, (s.firnReady_iff b r).mp hopen, fun x hx hxopen => ?_⟩
    rw [← s.pickKey_div b r, ← s.pickKey_div b x]
    exact Nat.div_le_div_right (hleast x hx ((s.firnReady_iff b x).mpr hxopen))
  case single =>
    intro s b r flips hrun hwaits hport hopen k w cnt ecc hlive
    have hready := (s.firnReady_iff b r).mpr hopen
    obtain ⟨hcycle, hserved, hwaited⟩ := s.granted_counts b (s.bankNow b) r
    have hframe := State.firnServe_frame (s := s.granted b (s.bankNow b) r) (flips := flips) hport hlive
    refine ⟨(s.granted b (s.bankNow b) r).firnServe r b flips, exec_firnAccessServed_single hrun hwaits hport hready hlive,
      ?_, ?_, ?_, State.kept_of_mask hframe (fun u => u.time) (fun _ => rfl),
      State.kept_of_mask hframe (fun u => u.seqs) (fun _ => rfl), State.kept_of_mask hframe (fun u => u.hif) (fun _ => rfl),
      fun v hw => ?_, fun hw => ?_⟩
    · exact (State.kept_of_mask hframe (fun u => Tab.get (fun _ => 0) u.firn.cycle b) (fun _ => rfl)).trans hcycle
    · exact (State.kept_of_mask hframe (fun u => cnt u.firn.served) (fun _ => rfl)).trans hserved
    · exact (State.kept_of_mask hframe (fun u => cnt u.firn.waited) (fun _ => rfl)).trans hwaited
    · exact State.firnServe_writes (s := s.granted b (s.bankNow b) r) hport hlive hw (reqWord_lt r b)
    · obtain ⟨hmem, hrime, hclean, hone, hbad⟩ :=
        State.firnServe_reads (s := s.granted b (s.bankNow b) r) (flips := flips) hport hlive hw
      exact ⟨hmem, hrime, fun hgood hecc => hclean ((State.eccFinds_good hgood).trans hecc),
        fun c hgood hecc => hone c ((State.eccFinds_good hgood).trans hecc), fun h => hbad (State.eccFinds_bad h)⟩
  case writeBack =>
    intro s hrun
    rw [exec_eccWriteBack hrun]
    refine ⟨fun hq => by rw [State.writeBack_none hq], fun w l hq hw => ⟨s.writeBack, rfl, ?_⟩⟩
    obtain ⟨hcycle, hserved, -⟩ := s.granted_counts (firnBank w) (s.bankNow (firnBank w)) (writeBackReq w)
    rw [State.writeBack_oldest hq hw]
    exact ⟨rfl, hcycle, hserved⟩

end Sys2Proof.Machine
end

section
/-!
Rime (06 R160 to R163): how a region begins, and how each of its phases ends or reaches its limit.
-/

namespace Sys2Proof.Machine

/-! A region begins. -/

/-- A region that is live is the next one (R160). -/
theorem State.rimeNext_live {s : State} {n : Nat} (k : Nat) (wrapped : Bool) (h : s.isRetired uRegion n = false) :
    s.rimeNext (k + 1) n wrapped = some (n, wrapped) := by
  rw [State.rimeNext, h]
  rfl

/-- With Rime enabled and idle and its port free the next region begins where it is live. -/
theorem State.rimeStart_live {s : State} (hen : s.flag wFirn 0 = true) (hidle : s.firn.rime.st = .idle)
    (hport : s.copyWants = false) (hlive : s.isRetired uRegion s.firn.next = false) :
    s.rimeStart = { s with firn := { s.firn with
      rime := { Rime.reset with st := .copy, region := s.firn.next, regionAt := some s.now, phaseAt := s.now }
      next := (s.firn.next + 1) % 32768
      passes := min 0xFFFF (s.firn.passes + if s.firn.next = 32767 then 1 else 0) } } := by
  have hpass : b01 false + b01 (s.firn.next == 32767) = if s.firn.next = 32767 then 1 else 0 := by
    by_cases h : s.firn.next = 32767 <;> simp [b01, h]
  rw [← hpass]
  unfold State.rimeStart
  simp only [hen, hidle, hport, State.rimeNext_live 32767 false hlive]
  rfl

theorem exec_rimeRegionStart {s : State} (hrun : s.runs cFirn = true) : exec .rimeRegionStart s =
    .next (if s.firn.rime.st = .idle && s.flag wFirn 0 then (s.toCycle s.rimeDue).rimeStart else s) :=
  congrArg ok (State.during_runs hrun)

/-- Once the pace is over an enabled and idle Rime starts without time passing. -/
theorem exec_rimeRegionStart_due {s : State} (hrun : s.runs cFirn = true) (hen : s.flag wFirn 0 = true)
    (hidle : s.firn.rime.st = .idle) (hdue : s.rimeDue ≤ s.now) : exec .rimeRegionStart s = .next s.rimeStart := by
  rw [exec_rimeRegionStart hrun, if_pos (by simp [hen, hidle]), State.toCycle_come hdue]

/-- A Rime that is not enabled, or in a region, begins none. -/
theorem exec_rimeRegionStart_off {s : State} (hrun : s.runs cFirn = true)
    (h : s.flag wFirn 0 = false ∨ s.firn.rime.st ≠ .idle) : exec .rimeRegionStart s = .next s := by
  have hoff : ¬ (s.firn.rime.st = .idle && s.flag wFirn 0) = true := by rcases h with h | h <;> simp [h]
  rw [exec_rimeRegionStart hrun, if_neg hoff]

/-! A phase runs to its end. -/

section

variable {s : State} {st : RimeSt} {n : Nat} {l : List MarchMiss} {f : State → State}

/-- The end of a phase changes nothing in any other one. -/
theorem State.rimeRun_other (h : s.firn.rime.st ≠ st) : s.rimeRun st n l f = s := by
  simp [State.rimeRun, h]

/-- A phase that has had the cycles of its accesses, within its limit where it has one, ends (R161 to R163). -/
theorem State.rimeRun_done (h : s.firn.rime.st = st) (hlimit : st = .restore ∨ s.coreOfBank n ≤ s.rimeLimit)
    (hcome : s.firn.rime.phaseAt + s.coreOfBank n ≤ s.now) : s.rimeRun st n l f = f s := by
  have hin : ¬ (st != .restore && decide (s.rimeLimit < s.coreOfBank n)) = true := by
    rcases hlimit with h | h
    · simp [h]
    · simp [Nat.not_lt.mpr h]
  have hst : ¬ (s.firn.rime.st != st) = true := by simp [h]
  simp only [State.rimeRun, if_neg hst, if_neg hin, State.toCycle_come hcome, if_pos h]

end

/-! The accesses that a phase has left. -/

/-- Where each index of a range settles its own entry and leaves the others, every entry of the range is settled once; `P` is what
all of them leave alone. -/
theorem State.each_range_settles {β : Type} {P : State → Prop} {entry : State → Nat → β} {Q : Nat → β → β → Prop}
    {f : State → Nat → State} {n : Nat} (hkeep : ∀ t i, i < n → P t → P (f t i))
    (hother : ∀ t i j, i < n → j < n → j ≠ i → P t → entry (f t i) j = entry t j)
    (hown : ∀ t i, i < n → P t → Q i (entry t i) (entry (f t i) i)) {s : State} (hs : P s) :
    P (s.each (List.range n) f) ∧ ∀ i, i < n → Q i (entry s i) (entry (s.each (List.range n) f) i) := by
  have hprefix : ∀ k, k ≤ n → P (s.each (List.range k) f) ∧
      (∀ i, i < k → Q i (entry s i) (entry (s.each (List.range k) f) i)) ∧
      ∀ i, k ≤ i → i < n → entry (s.each (List.range k) f) i = entry s i := by
    intro k hk
    induction k with
    | zero => exact ⟨hs, fun i hi => absurd hi (Nat.not_lt_zero i), fun _ _ _ => rfl⟩
    | succ k ih =>
      obtain ⟨hp, hdone, htodo⟩ := ih (Nat.le_of_succ_le hk)
      have hstep : s.each (List.range (k + 1)) f = f (s.each (List.range k) f) k := by
        rw [List.range_succ, State.each, List.foldl_append]
        rfl
      rw [hstep]
      refine ⟨hkeep _ k hk hp, fun i hi => ?_, fun i hi hin => ?_⟩
      · rcases Nat.lt_succ_iff_lt_or_eq.mp hi with hik | rfl
        · rw [hother _ k i hk (Nat.lt_trans hik hk) (Nat.ne_of_lt hik) hp]
          exact hdone i hik
        · rw [← htodo i (Nat.le_refl i) hk]
          exact hown _ i hk hp
      · rw [hother _ k i hk hin (by omega) hp]
        exact htodo i (by omega) hin
  obtain ⟨hp, hdone, -⟩ := hprefix n (Nat.le_refl n)
  exact ⟨hp, hdone⟩

/-- A word of Rime's region is served in a phase that has not had it yet (R161). -/
def State.rimeRestOne (s : State) (i : Nat) : State :=
  let w := 64 * s.firn.rime.region + i
  match s.firn.rime.st with
  | .copy => if bitOf s.firn.rime.saved i then s else s.rimeSave w 0
  | .restore => if bitOf s.firn.rime.restored i then s else s.rimeRestore w
  | _ => s

theorem State.rimeRest_eq (s : State) : s.rimeRest = s.each (List.range 64) State.rimeRestOne := rfl

/-- A phase that has had all its words has none left. -/
theorem State.rimeRest_of_all {s : State} (h : ∀ i, i < 64 → s.rimeRestOne i = s) : s.rimeRest = s :=
  (State.each_range_settles (P := fun t => t = s) (entry := fun _ _ => ()) (Q := fun _ _ _ => True) (n := 64)
    (fun _ i hi ht => ht.symm ▸ h i hi) (fun _ _ _ _ _ _ _ => rfl) (fun _ _ _ _ => trivial) rfl).1

theorem bitOf_allOnes {i : Nat} (hi : i < 64) : bitOf (BitVec.allOnes 64) i = true := by
  unfold bitOf
  rw [BitVec.getLsbD_allOnes]
  exact decide_eq_true hi

theorem State.rimeRest_saved {s : State} (hst : s.firn.rime.st = .copy) (hall : s.firn.rime.saved = BitVec.allOnes 64) :
    s.rimeRest = s := by
  refine State.rimeRest_of_all (fun i hi => ?_)
  unfold State.rimeRestOne
  rw [hst, hall, bitOf_allOnes hi]
  rfl

theorem State.rimeRest_restored {s : State} (hst : s.firn.rime.st = .restore) (hall : s.firn.rime.restored = BitVec.allOnes 64) :
    s.rimeRest = s := by
  refine State.rimeRest_of_all (fun i hi => ?_)
  unfold State.rimeRestOne
  rw [hst, hall, bitOf_allOnes hi]
  rfl

/-- Noting one word leaves the note of every other one. -/
theorem bitOf_note_ne (x : BitVec 64) {i j : Nat} (h : j ≠ i) : bitOf (x ||| BitVec.ofNat 64 (2 ^ i)) j = bitOf x j := by
  unfold bitOf
  rw [BitVec.getLsbD_or, BitVec.getLsbD_ofNat, Nat.testBit_two_pow_of_ne (Ne.symm h), Bool.and_false, Bool.or_false]

/-! Who answers for a word (R161). -/

section

variable {s : State} {w : Nat}

theorem State.redirected_idle (h : s.firn.rime.st = .idle) : s.redirected w = false := by
  simp [State.redirected, State.inRime, h]

theorem State.redirected_copy (h : s.firn.rime.st = .copy) : s.redirected w = false := by
  simp [State.redirected, h]

/-- In TEST and RESTORE the save buffer answers for the words of Rime's region. -/
theorem State.redirected_region (hst : s.firn.rime.st = .test ∨ s.firn.rime.st = .restore) (hr : s.firn.rime.region < 32768)
    {i : Nat} (hi : i < 64) : s.redirected (64 * s.firn.rime.region + i) = true := by
  have hregion : firnRegion (64 * s.firn.rime.region + i) = s.firn.rime.region := by unfold firnRegion; omega
  unfold State.redirected State.inRime
  rw [hregion]
  rcases hst with h | h <;> simp [h]

theorem State.answers_region (h : s.redirected w = false) :
    s.firnWord w = s.regionWord w ∧ s.firnPoison w = Tab.get (fun _ => false) s.firn.poison w := by
  unfold State.firnWord State.firnPoison
  rw [h]
  exact ⟨rfl, rfl⟩

theorem State.answers_save (h : s.redirected w = true) :
    s.firnWord w = Tab.get (fun _ => (0 : BitVec 512)) s.firn.rime.save (w % 64) ∧
      s.firnPoison w = Tab.get (fun _ => false) s.firn.rime.savePoison (w % 64) := by
  unfold State.firnWord State.firnPoison
  rw [h]
  exact ⟨rfl, rfl⟩

end

theorem word_mod {r i : Nat} (hi : i < 64) : (64 * r + i) % 64 = i := by omega

/-! COPY: the words still to save (R161). -/

/-- The save buffer notes a word as saved. -/
def State.noteSaved (s : State) (w : Nat) : State := { s with firn := { s.firn with rime := { s.firn.rime with
  saved := s.firn.rime.saved ||| BitVec.ofNat 64 (2 ^ (w % 64)) } } }

theorem State.noteSaved_rime (s : State) (w : Nat) : (s.noteSaved w).firn.rime = { s.firn.rime with
    saved := s.firn.rime.saved ||| BitVec.ofNat 64 (2 ^ (w % 64)) } := rfl

/-- Saving a word leaves the region's contents and poison. -/
theorem State.noteSaved_savePut_contents (s : State) (i w : Nat) (v : BitVec 512) (poison : Bool) :
    ((s.savePut i v poison).noteSaved w).firn.mem = s.firn.mem ∧
      ((s.savePut i v poison).noteSaved w).firn.poison = s.firn.poison := by
  unfold State.noteSaved State.savePut
  exact ⟨rfl, rfl⟩

theorem State.rimeSave_eq (s : State) (w : Nat) (flips : BitVec 576) : s.rimeSave w flips =
    ((s.eccRead w flips).2.savePut (w % 64) (s.regionWord w) (!(s.eccRead w flips).1)).noteSaved w := rfl

/-- A word of which no bit flips is saved as it reads, and the save buffer notes it. -/
theorem State.rimeSave_noFlip (s : State) (w : Nat) :
    (s.rimeSave w 0).firn.mem = s.firn.mem ∧ (s.rimeSave w 0).firn.poison = s.firn.poison ∧
    (s.rimeSave w 0).firn.rime = { s.firn.rime with
      save := Tab.set (fun _ => (0 : BitVec 512)) s.firn.rime.save (w % 64) (s.regionWord w)
      savePoison := Tab.set (fun _ => false) s.firn.rime.savePoison (w % 64) (s.firnPoison w)
      saved := s.firn.rime.saved ||| BitVec.ofNat 64 (2 ^ (w % 64)) } := by
  have hgood : (!(s.eccRead w 0).1) = s.firnPoison w := by
    have hfinds := s.eccFinds_noFlip w
    cases hp : s.firnPoison w <;> rw [hp] at hfinds
    · rw [State.eccRead_clean hfinds]
      rfl
    · rw [State.eccRead_bad hfinds]
      rfl
  have hecc := s.eccRead_butEcc w 0
  have hrime := State.kept_of_mask hecc (fun u => u.firn.rime) (fun _ => rfl)
  have hmem := State.kept_of_mask hecc (fun u => u.firn.mem) (fun _ => rfl)
  have hpoison := State.kept_of_mask hecc (fun u => u.firn.poison) (fun _ => rfl)
  rw [State.rimeSave_eq, hgood]
  obtain ⟨htmem, htpoison⟩ := (s.eccRead w 0).2.noteSaved_savePut_contents (w % 64) w (s.regionWord w) (s.firnPoison w)
  refine ⟨htmem.trans hmem, htpoison.trans hpoison, ?_⟩
  rw [State.noteSaved_rime, State.savePut_rime, hrime]

/-- In `t` COPY is under way on the region and the contents of `s`. -/
structure Copies (s t : State) : Prop where
  mem : t.firn.mem = s.firn.mem
  poison : t.firn.poison = s.firn.poison
  st : t.firn.rime.st = .copy
  region : t.firn.rime.region = s.firn.rime.region

/-- Of a word the save buffer holds what it is, whether it is poisoned, and whether it is saved. -/
def State.saveEntry (s : State) (i : Nat) : BitVec 512 × Bool × Bool :=
  (Tab.get (fun _ => (0 : BitVec 512)) s.firn.rime.save i, Tab.get (fun _ => false) s.firn.rime.savePoison i,
    bitOf s.firn.rime.saved i)

section

variable {s t : State} {i : Nat}

theorem Copies.one (h : Copies s t) (i : Nat) : t.rimeRestOne i =
    if bitOf t.firn.rime.saved i then t else t.rimeSave (64 * s.firn.rime.region + i) 0 := by
  unfold State.rimeRestOne
  rw [h.st, h.region]

/-- A word that COPY has left leaves the region and its contents. -/
theorem Copies.keeps (h : Copies s t) (i : Nat) : Copies s (t.rimeRestOne i) := by
  rw [h.one i]
  split
  · exact h
  · obtain ⟨hmem, hpoison, hrime⟩ := t.rimeSave_noFlip (64 * s.firn.rime.region + i)
    exact ⟨hmem.trans h.mem, hpoison.trans h.poison, (congrArg Rime.st hrime).trans h.st,
      (congrArg Rime.region hrime).trans h.region⟩

/-- It leaves the entries of the other words. -/
theorem Copies.entry_ne (h : Copies s t) {j : Nat} (hi : i < 64) (hj : j ≠ i) :
    (t.rimeRestOne i).saveEntry j = t.saveEntry j := by
  rw [h.one i]
  split
  · rfl
  · obtain ⟨-, -, hrime⟩ := t.rimeSave_noFlip (64 * s.firn.rime.region + i)
    unfold State.saveEntry
    rw [hrime, word_mod hi]
    simp only [Tab.get_set_ne hj, bitOf_note_ne _ hj]

/-- Its own entry holds the word as it reads in `s`, where it was still to save. -/
theorem Copies.entry_own (h : Copies s t) (hs : s.firn.rime.st = .copy) (hi : i < 64) (hsaved : (t.saveEntry i).2.2 = false) :
    ((t.rimeRestOne i).saveEntry i).1 = s.firnWord (64 * s.firn.rime.region + i) ∧
      ((t.rimeRestOne i).saveEntry i).2.1 = s.firnPoison (64 * s.firn.rime.region + i) := by
  obtain ⟨hword, hpoison⟩ := State.answers_region (State.redirected_copy (w := 64 * s.firn.rime.region + i) hs)
  obtain ⟨-, htpoison⟩ := State.answers_region (State.redirected_copy (w := 64 * s.firn.rime.region + i) h.st)
  have hregion : t.regionWord (64 * s.firn.rime.region + i) = s.regionWord (64 * s.firn.rime.region + i) := by
    unfold State.regionWord
    rw [h.mem]
  obtain ⟨-, -, hrime⟩ := t.rimeSave_noFlip (64 * s.firn.rime.region + i)
  have htodo : ¬ bitOf t.firn.rime.saved i = true := Bool.eq_false_iff.mp hsaved
  rw [h.one i, if_neg htodo, State.saveEntry, hrime, word_mod hi, hword, hpoison, ← hregion, ← h.poison,
    ← htpoison]
  simp only [Tab.get_set, and_self]

/-- Once the words that COPY has left are saved, the region's contents are what they were, and the save buffer has each of them. -/
theorem State.rimeRest_copies (hs : s.firn.rime.st = .copy) : Copies s s.rimeRest ∧
    ∀ i, i < 64 → bitOf s.firn.rime.saved i = false →
    (s.rimeRest.saveEntry i).1 = s.firnWord (64 * s.firn.rime.region + i) ∧
      (s.rimeRest.saveEntry i).2.1 = s.firnPoison (64 * s.firn.rime.region + i) := by
  rw [State.rimeRest_eq]
  exact State.each_range_settles (P := Copies s) (entry := State.saveEntry)
    (Q := fun i old new => old.2.2 = false → new.1 = s.firnWord (64 * s.firn.rime.region + i) ∧
      new.2.1 = s.firnPoison (64 * s.firn.rime.region + i))
    (fun _ i _ h => h.keeps i) (fun _ _ _ hi _ hj h => h.entry_ne hi hj) (fun _ _ hi h => h.entry_own hs hi) ⟨rfl, rfl, hs, rfl⟩

end

/-! RESTORE: the words still to restore (R161). -/

/-- A restored word changes of Rime the note alone. -/
theorem State.rimeRestore_rime (s : State) (w : Nat) : (s.rimeRestore w).firn.rime = { s.firn.rime with
    restored := s.firn.rime.restored ||| BitVec.ofNat 64 (2 ^ (w % 64)) } := rfl

/-- In `t` RESTORE is under way on the region of `s` with its save buffer. -/
structure Restores (s t : State) : Prop where
  st : t.firn.rime.st = .restore
  region : t.firn.rime.region = s.firn.rime.region
  save : t.firn.rime.save = s.firn.rime.save
  savePoison : t.firn.rime.savePoison = s.firn.rime.savePoison
  late : t.firn.rime.late = s.firn.rime.late

/-- Of a word the region holds what it is and whether it is poisoned; and whether it is restored. -/
def State.regionEntry (s : State) (r i : Nat) : BitVec 512 × Bool × Bool :=
  (s.regionWord (64 * r + i), Tab.get (fun _ => false) s.firn.poison (64 * r + i), bitOf s.firn.rime.restored i)

section

variable {s t : State} {i : Nat}

theorem Restores.one (h : Restores s t) (i : Nat) : t.rimeRestOne i =
    if bitOf t.firn.rime.restored i then t else t.rimeRestore (64 * s.firn.rime.region + i) := by
  unfold State.rimeRestOne
  rw [h.st, h.region]

/-- A word that RESTORE has left leaves the save buffer. -/
theorem Restores.keeps (h : Restores s t) (i : Nat) : Restores s (t.rimeRestOne i) := by
  rw [h.one i]
  split
  · exact h
  · exact ⟨h.st, h.region, h.save, h.savePoison, h.late⟩

/-- It leaves the other words of the region. -/
theorem Restores.entry_ne (h : Restores s t) {j : Nat} (hi : i < 64) (hj : j ≠ i) :
    (t.rimeRestOne i).regionEntry s.firn.rime.region j = t.regionEntry s.firn.rime.region j := by
  rw [h.one i]
  split
  · rfl
  · have hword : 64 * s.firn.rime.region + j ≠ 64 * s.firn.rime.region + i := by omega
    have hregion := t.regionWord_regionPut_ne _ (t.firnWord (64 * s.firn.rime.region + i))
      (t.firnPoison (64 * s.firn.rime.region + i)) hword
    refine Prod.ext hregion (Prod.ext (Tab.get_set_ne hword) ?_)
    show bitOf (t.rimeRestore (64 * s.firn.rime.region + i)).firn.rime.restored j = bitOf t.firn.rime.restored j
    rw [State.rimeRestore_rime, word_mod hi]
    exact bitOf_note_ne _ hj

/-- The word itself is in the region as it reads in `s`, where it was still to restore. -/
theorem Restores.entry_own (h : Restores s t) (hs : s.firn.rime.st = .restore) (hr : s.firn.rime.region < 32768) (hi : i < 64)
    (hrestored : (t.regionEntry s.firn.rime.region i).2.2 = false) :
    ((t.rimeRestOne i).regionEntry s.firn.rime.region i).1 = s.firnWord (64 * s.firn.rime.region + i) ∧
      ((t.rimeRestOne i).regionEntry s.firn.rime.region i).2.1 = s.firnPoison (64 * s.firn.rime.region + i) := by
  obtain ⟨hword, hpoison⟩ := State.answers_save (State.redirected_region (.inr hs) hr hi)
  obtain ⟨htword, htpoison⟩ := State.answers_save (State.redirected_region (.inr h.st) (h.region.symm ▸ hr) hi)
  rw [h.region] at htword htpoison
  have htodo : ¬ bitOf t.firn.rime.restored i = true := Bool.eq_false_iff.mp hrestored
  rw [h.one i, if_neg htodo, hword, hpoison, ← h.save, ← h.savePoison, ← htword, ← htpoison]
  exact ⟨t.regionWord_regionPut _ _ (t.firnPoison (64 * s.firn.rime.region + i)), Tab.get_set⟩

/-- Once the words that RESTORE has left are restored, the region holds each of them. -/
theorem State.rimeRest_restores (hs : s.firn.rime.st = .restore) (hr : s.firn.rime.region < 32768) : Restores s s.rimeRest ∧
    ∀ i, i < 64 → bitOf s.firn.rime.restored i = false →
      (s.rimeRest.regionEntry s.firn.rime.region i).1 = s.firnWord (64 * s.firn.rime.region + i) ∧
        (s.rimeRest.regionEntry s.firn.rime.region i).2.1 = s.firnPoison (64 * s.firn.rime.region + i) := by
  rw [State.rimeRest_eq]
  exact State.each_range_settles (P := Restores s) (entry := fun u => u.regionEntry s.firn.rime.region)
    (Q := fun i old new => old.2.2 = false → new.1 = s.firnWord (64 * s.firn.rime.region + i) ∧
      new.2.1 = s.firnPoison (64 * s.firn.rime.region + i))
    (fun _ i _ h => h.keeps i) (fun _ _ _ hi _ hj h => h.entry_ne hi hj) (fun _ _ hi h => h.entry_own hs hr hi)
    ⟨hs, rfl, rfl, rfl, rfl⟩

end

end Sys2Proof.Machine
end

section
/-!
The ends and the limits of Rime's phases (06 R161 to R163).
-/

namespace Sys2Proof.Machine

/-! The end of COPY. -/

/-- COPY ends with every word of the region in the save buffer, which answers for the region from then on (R161). -/
theorem State.rimeRest_test {s : State} (hs : s.firn.rime.st = .copy) (hr : s.firn.rime.region < 32768) :
    let t := s.rimeRest.rimePhase .test
    t.firn.mem = s.firn.mem ∧ ∀ i, i < 64 → bitOf s.firn.rime.saved i = false →
      t.firnWord (64 * s.firn.rime.region + i) = s.firnWord (64 * s.firn.rime.region + i) ∧
        t.firnPoison (64 * s.firn.rime.region + i) = s.firnPoison (64 * s.firn.rime.region + i) := by
  obtain ⟨hcopies, hentries⟩ := State.rimeRest_copies hs
  generalize s.rimeRest = t at hcopies hentries
  refine ⟨hcopies.mem, fun i hi hsaved => ?_⟩
  have hregion : (t.rimePhase .test).firn.rime.region = s.firn.rime.region := hcopies.region
  have hred := State.redirected_region (s := t.rimePhase .test) (.inl rfl) (hregion.symm ▸ hr) hi
  rw [hregion] at hred
  obtain ⟨hword, hpoison⟩ := State.answers_save hred
  rw [hword, hpoison, word_mod hi]
  exact hentries i hi hsaved

theorem exec_rimeCopyDone {s : State} (hrun : s.runs cFirn = true) :
    exec .rimeCopyDone s = .next (s.rimeRun .copy 64 [] (fun s => s.rimeRest.rimePhase .test)) :=
  congrArg ok (State.during_runs hrun)

/-! The end of TEST. -/

theorem exec_rimeTestDone {s : State} (l : List MarchMiss) (hrun : s.runs cFirn = true) :
    exec (.rimeTestDone l) s = .next (s.rimeRun .test s.marchOps.length l (fun s => s.marchEnd l)) :=
  congrArg ok (State.during_runs hrun)

/-- A march without a mismatch hands over to RESTORE (R162). -/
theorem State.marchEnd_clean {s : State} (hbad : s.firn.rime.bad = []) : s.marchEnd [] = s.rimePhase .restore := by
  simp [State.marchEnd, State.each, State.raiseIf, hbad]

/-- The state once a march has ended in which one word of the region, at `i`, has mismatched (R162). -/
def State.marchFailed (s : State) (i : Nat) : State :=
  let w := 64 * s.firn.rime.region + i
  ((((s.modRime (fun r => { r with bad := [i] })).raise aFirnEvents (bit1 0)).histNote w false).detect 0x08 uBank (s.bankUnit w)
    (BitVec.ofNat 32 w) true).rimePhase .restore

/-- A march with one mismatch of a read records it on its word (R162). -/
theorem State.marchEnd_one {s : State} {m : MarchMiss} (hbad : s.firn.rime.bad = []) (hm : s.marchReads m = true) :
    s.marchEnd [m] = s.marchFailed m.word.val := by
  have hfilter : [m].filter s.marchReads = [m] := by simp [hm]
  have hmiss : s.marchMiss m.word.val = s.modRime (fun r => { r with bad := [m.word.val] }) := by
    simp [State.marchMiss, State.modRime, hbad]
  unfold State.marchEnd
  simp only [hfilter, State.each_singleton, hmiss]
  rfl

/-! The end of RESTORE. -/

theorem exec_rimeRestoreDone {s : State} (hrun : s.runs cFirn = true) :
    exec .rimeRestoreDone s = .next (s.rimeRun .restore 64 [] (fun s => s.rimeRest.rimeEnds)) :=
  congrArg ok (State.during_runs hrun)

/-- Where no word failed the march, Rime is at rest and remembers its region (R161). -/
theorem State.rimeEnds_clean {s : State} (hlate : s.firn.rime.late = []) : s.rimeEnds = s.modRime (fun r =>
    { Rime.reset with region := r.region, regionAt := r.regionAt }) := by
  unfold State.rimeEnds
  rw [hlate]
  rfl

/-- RESTORE ends with every word back in the region, which answers for itself from then on (R161). -/
theorem State.rimeRest_ends {s : State} (hs : s.firn.rime.st = .restore) (hlate : s.firn.rime.late = [])
    (hr : s.firn.rime.region < 32768) : let t := s.rimeRest.rimeEnds
    t.firn.rime.st = .idle ∧ ∀ i, i < 64 → bitOf s.firn.rime.restored i = false →
      t.firnWord (64 * s.firn.rime.region + i) = s.firnWord (64 * s.firn.rime.region + i) ∧
        t.firnPoison (64 * s.firn.rime.region + i) = s.firnPoison (64 * s.firn.rime.region + i) := by
  obtain ⟨hrestores, hentries⟩ := State.rimeRest_restores hs hr
  generalize s.rimeRest = t at hrestores hentries
  rw [State.rimeEnds_clean (hrestores.late.trans hlate)]
  refine ⟨rfl, fun i hi hrestored => ?_⟩
  obtain ⟨hword, hpoison⟩ := State.answers_region (w := 64 * s.firn.rime.region + i)
    (State.redirected_idle (s := t.modRime (fun r => { Rime.reset with region := r.region, regionAt := r.regionAt })) rfl)
  rw [hword, hpoison]
  exact hentries i hi hrestored

/-! The limit of a phase. -/

/-- A skip or a stall is counted for Rime and posted, and touches neither Firn nor time nor the sequencers (R163). -/
theorem State.rimeSkip_shows (s : State) (kind : Nat) : (s.rimeSkip kind).firn = s.firn ∧
    Tab.get (fun _ => 0) (s.rimeSkip kind).flt.skips 1 = satInc (Tab.get (fun _ => 0) s.flt.skips 1) ∧
    (s.rimeSkip kind).time = s.time ∧ (s.rimeSkip kind).seqs = s.seqs := by
  unfold State.rimeSkip State.skipRecord
  refine ⟨State.kept_of_mask (State.postEvt_butPost ..) (fun u => u.firn) (fun _ => rfl), ?_,
    State.kept_of_mask (State.postEvt_butPost ..) (fun u => u.time) (fun _ => rfl),
    State.kept_of_mask (State.postEvt_butPost ..) (fun u => u.seqs) (fun _ => rfl)⟩
  exact (State.kept_of_mask (State.postEvt_butPost ..) (fun u => Tab.get (fun _ => 0) u.flt.skips 1) (fun _ => rfl)).trans
    Tab.get_set

theorem exec_rimeTimeout {s : State} (hrun : s.runs cFirn = true) : exec .rimeTimeout s =
    .next (if s.firn.rime.st = .idle then s else (s.toCycle (s.firn.rime.phaseAt + s.rimeLimit)).rimeTimeout []) :=
  congrArg ok (State.during_runs hrun)

/-- What a phase that reaches its limit leaves of Rime: COPY gives the region up, TEST goes on to RESTORE, RESTORE stalls (R163). -/
def Rime.limited (r : Rime) (now : Nat) : Rime :=
  if r.st = .copy then { Rime.reset with region := r.region, regionAt := r.regionAt }
  else if r.st = .test then { r with st := .restore, phaseAt := now }
  else { r with stalled := true }

theorem State.modRime_congr {s : State} {f g : Rime → Rime} (h : f s.firn.rime = g s.firn.rime) : s.modRime f = s.modRime g := by
  unfold State.modRime
  rw [h]

/-- A phase with a limit to reach that has reached it: the march has found no mismatch, RESTORE has not stalled before. -/
theorem State.rimeTimeout_limited {s : State} (hbad : s.firn.rime.bad = [])
    (hst : s.firn.rime.st = .copy ∨ s.firn.rime.st = .test ∨ (s.firn.rime.st = .restore ∧ s.firn.rime.stalled = false)) :
    ∃ kind, s.rimeTimeout [] = (s.modRime (fun r => r.limited s.now)).rimeSkip kind := by
  rcases hst with hst | hst | ⟨hst, hstalled⟩
  · have hcopy : s.modRime (fun r => r.limited s.now) =
        s.modRime (fun r => { Rime.reset with region := r.region, regionAt := r.regionAt }) :=
      State.modRime_congr (by simp [Rime.limited, hst])
    exact ⟨1, by simp only [State.rimeTimeout, hst, hcopy]⟩
  · have htest : s.modRime (fun r => r.limited s.now) = s.rimePhase .restore :=
      State.modRime_congr (by simp [Rime.limited, hst])
    exact ⟨2, by simp only [State.rimeTimeout, hst, htest, State.marchEnd_clean hbad]⟩
  · have hrestore : s.modRime (fun r => r.limited s.now) = s.modRime (fun r => { r with stalled := true }) :=
      State.modRime_congr (by simp [Rime.limited, hst])
    refine ⟨3, ?_⟩
    simp only [State.rimeTimeout, hst, hstalled, hrestore, Bool.false_eq_true, if_false]

/-- Settles O37: each row finds its own phase and brings it to its end or to its limit, and leaves every other one. -/
theorem rimeGoesThroughItsPhases : Obligations.RimeGoesThroughItsPhases := by
  unfold Obligations.RimeGoesThroughItsPhases
  intro s hrun r ready phase
  refine ⟨?start, ?noStart, ?copy, ?noCopy, ?test, ?restore, ?idle, ?limit⟩
  case start =>
    intro hen hidle hport hlive hdue
    rw [exec_rimeRegionStart_due hrun hen hidle hdue]
    exact congrArg Host.Outcome.next (State.rimeStart_live hen hidle hport hlive)
  case noStart => exact exec_rimeRegionStart_off hrun
  case copy =>
    intro hst hready
    obtain ⟨hlimit, hcome⟩ := hready
    rw [exec_rimeCopyDone hrun, State.rimeRun_done hst (.inr hlimit) hcome]
    refine ⟨fun hall => ?_, fun hr => ⟨_, rfl, rfl, State.rimeRest_test hst hr⟩⟩
    rw [State.rimeRest_saved hst hall]
    rfl
  case noCopy =>
    intro hst
    rw [exec_rimeCopyDone hrun, State.rimeRun_other hst]
  case test =>
    intro hst hbad hready
    obtain ⟨hlimit, hcome⟩ := hready
    refine ⟨?_, fun m hm => ?_⟩
    · rw [exec_rimeTestDone [] hrun, State.rimeRun_done hst (.inr hlimit) hcome, State.marchEnd_clean hbad]
      rfl
    · rw [exec_rimeTestDone [m] hrun, State.rimeRun_done hst (.inr hlimit) hcome, State.marchEnd_one hbad hm]
      exact ⟨_, rfl, rfl, rfl, rfl, rfl⟩
  case restore =>
    intro hst hlate hcome
    rw [exec_rimeRestoreDone hrun, State.rimeRun_done hst (.inl rfl) hcome]
    refine ⟨fun hall => ?_, fun hr => ⟨_, rfl, State.rimeRest_ends hst hlate hr⟩⟩
    rw [State.rimeRest_restored hst hall, State.rimeEnds_clean hlate]
    rfl
  case idle =>
    intro hst
    rw [exec_rimeTimeout hrun, if_pos hst]
  case limit =>
    intro hcome hbad hst
    have hbusy : s.firn.rime.st ≠ .idle := by rcases hst with h | h | ⟨h, -⟩ <;> rw [h] <;> decide
    obtain ⟨kind, htimeout⟩ := State.rimeTimeout_limited hbad hst
    rw [exec_rimeTimeout hrun, if_neg hbusy, State.toCycle_come hcome, htimeout]
    exact ⟨_, rfl, (s.modRime (fun r => r.limited s.now)).rimeSkip_shows kind⟩

end Sys2Proof.Machine
end

section
/-!
FIRN_CMD (06 R164, R171): which bank an accepted repair makes wait.
-/

namespace Sys2Proof.Machine

open Sys2Proof.Safety

/-- The row of FIRN_CMD (06 Registers): two write-only fields, nothing stored. -/
def rowFirnCmd : RegRow := regG 0x14 [fWO 30 2, fWO 0 15]

theorem rowOf_firnCmd : rowOf (wFirn + 0x14) = some rowFirnCmd := rfl

/-- The effect of FIRN_CMD takes OP and INDEX of the value as written. -/
theorem afterWrite_firnCmd {t : State} (rq : Requester) (old new v : Word) (h : Hint) (hlive : Live t (wFirn + 0x14)) :
    t.afterWrite rq (wFirn + 0x14) old new v false h = t.firnCmd v rq := by
  unfold Live at hlive
  unfold State.afterWrite
  simp only [hlive, Bool.false_and, Bool.false_eq_true, if_false]
  rfl

/-- An accepted FIRN_CMD takes OP and INDEX of the written fields over those of whatever word the register holds: R39 keeps the
stored bits that are no RW field, and a write-only register has no other. -/
theorem busWrite_firnCmd {s : State} {w : Wr} {v : Word} (hw : Written s w (wFirn + 0x14) rowFirnCmd v) :
    s.busWrite w.rq (wFirn + 0x14) w.be v =
      (wrote s w.rq (wFirn + 0x14) rowFirnCmd v).firnCmd (s.reg (wFirn + 0x14) ||| (v &&& rowFirnCmd.requestMask)) w.rq := by
  rw [busWrite_written_request hw (by decide)]
  exact afterWrite_firnCmd _ _ _ _ _ (wrote_live hw.live)

/-- While Rime is in a region no copy starts (R165). -/
theorem State.copyStart_of_rime {s : State} (h : s.firn.rime.st ≠ .idle) : s.copyStart = s := by
  simp [State.copyStart, h]

/-- A part with the FIRN window armed for housekeeping and Rime in a region, in which a bit stands in the word of FIRN_CMD. The
register stores nothing, so no run is meant to come here; but a statement about every state speaks of this one too. -/
def strayRepair : State :=
  { State.reset with
    hk := { Hk.reset with inReset := none }
    regs := [(wFirn + 0x14, 1)]
    firn := { Firn.reset with rime := { Rime.reset with st := .copy } }
    ctxs := [(9, { Ctx.reset with arm := true })] }

/-- The value that housekeeping writes to repair bank 0. -/
def repairZero : Word := 0x40000000 ||| (0 : BitVec 15).setWidth 32

theorem written_strayRepair :
    Written strayRepair ⟨.housekeeping, 0xF, repairZero⟩ (wFirn + 0x14) rowFirnCmd repairZero where
  full := rfl
  takes := {
    row := rowOf_firnCmd
    word := rfl
    quarter := by decide
    reaches := by decide
    inside := by decide
    aliases := .inl rfl
    writable := by decide
    armed := fun _ => by decide
    listed := by decide
    rule := by decide }
  live := by unfold Live; decide
  last := by unfold Last; decide

/-- There the repair of bank 0 makes bank 1 wait. -/
theorem exec_strayRepair : exec (.firnCmdRepair .housekeeping 0xF 0) strayRepair =
    .next ((wrote strayRepair .housekeeping (wFirn + 0x14) rowFirnCmd repairZero).bankWait 1) := by
  show ok (strayRepair.busWrite .housekeeping (wFirn + 0x14) 0xF repairZero) = _
  rw [busWrite_firnCmd written_strayRepair]
  refine congrArg Host.Outcome.next ?_
  show ((wrote strayRepair .housekeeping (wFirn + 0x14) rowFirnCmd repairZero).bankWait 1).copyStart = _
  exact State.copyStart_of_rime (by decide)

/-- Refutes O38: the clause of a repair has the bank of the written INDEX wait, for every state; where a bit stands in the word of
FIRN_CMD, the repair of bank 0 makes bank 1 wait. -/
theorem not_bankRepairAndRegionRetirement : ¬ Obligations.BankRepairAndRegionRetirement := by
  unfold Obligations.BankRepairAndRegionRetirement
  rintro ⟨hrepair, -⟩
  obtain ⟨hbusy, -⟩ := hrepair strayRepair .housekeeping 0 rowFirnCmd (by decide) written_strayRepair
  have hsaid := hbusy (.inr (by decide))
  rw [exec_strayRepair] at hsaid
  have hwait := congrArg (fun t : State => t.firn.copyWait) (Host.Outcome.next.inj hsaid)
  exact absurd hwait (by decide)

end Sys2Proof.Machine
end

section
/-!
One sample of a pair's shaper (09 R254 to R256): what stands in the counter of a pair beyond the part's 32.
-/

namespace Sys2Proof.Machine

/-- A state in which the shaper that a number beyond the part's 32 pairs names leaves side H, which is off: a dropped run. -/
def strayPair : State :=
  { State.reset with mkr := { Mkr.reset with pairs := [(36, { Pair.reset with d := true })] } }

/-- There the drop counts one, and SHAPED, bit 1 of MKR_EVENTS, is set in the word that has just counted. -/
theorem pairSample_strayPair : bits ((strayPair.pairSample 36 false 0).reg (aPairCnt 36)) 0 16 = 3 := by decide

/-- Refutes O45: its clauses on one sample speak of every number of a pair, and the one of a dropped run fails at 36. There the counter
has the address of MKR_EVENTS, so that the event of the drop is set in the count: it goes from 0 to 3. -/
theorem not_pairSidesTurnOnAndOff : ¬ Obligations.PairSidesTurnOnAndOff := by
  unfold Obligations.PairSidesTurnOnAndOff
  rintro ⟨-, hsample⟩
  obtain ⟨-, -, -, hdrop, -⟩ := hsample strayPair 36 false 0
  obtain ⟨-, -, -, -, -, hdropped, -⟩ := hdrop (by decide)
  have hcount := hdropped (by decide) (by decide)
  exact absurd (pairSample_strayPair.symm.trans hcount) (by decide)

end Sys2Proof.Machine
end

section
/-!
What the small writes of the angle block leave behind: an event bit, a count, an EVENT record (09 R244; 05 R130), and a row whose edge
has come.
-/

namespace Sys2Proof.Machine

/-! Event bits and counters. -/

@[simp] theorem State.reg_raise (s : State) (a : Nat) (m : Word) : (s.raise a m).reg a = s.reg a ||| m := State.reg_putReg ..

theorem State.reg_raise_ne (s : State) {a b : Nat} (m : Word) (h : b ≠ a) : (s.raise a m).reg b = s.reg b :=
  State.reg_putReg_ne s _ h

/-- An event that is raised reads as set. -/
theorem State.bitOf_raise (s : State) (a : Nat) {i : Nat} (hi : i < 32) : bitOf ((s.raise a (bit1 i)).reg a) i = true := by
  rw [State.reg_raise, bitOf, bit1, BitVec.getLsbD_or, BitVec.getLsbD_ofNat, Nat.testBit_two_pow_self]
  simp [hi]

/-- An event that is set stays set where another one is raised. -/
theorem State.bitOf_raise_of_set {s : State} {a i : Nat} (m : Word) (h : bitOf (s.reg a) i = true) :
    bitOf ((s.raise a m).reg a) i = true := by
  rw [State.reg_raise, bitOf, BitVec.getLsbD_or]
  exact Bool.or_eq_true_iff.mpr (.inl h)

@[simp] theorem State.reg_bump (s : State) (a : Nat) : (s.bump a).reg a = satInc (s.reg a) := by
  refine (State.reg_putReg ..).trans ?_
  unfold satInc
  split
  · next h => exact h.symm
  · rfl

theorem State.reg_bump_ne (s : State) {a b : Nat} (h : b ≠ a) : (s.bump a).reg b = s.reg b := State.reg_putReg_ne s _ h

theorem State.reg_raiseIf_ne (s : State) (c : Bool) {a b : Nat} (i : Nat) (h : b ≠ a) : (s.raiseIf c a i).reg b = s.reg b := by
  unfold State.raiseIf
  split
  · exact s.reg_raise_ne _ h
  · rfl

theorem State.raiseIf_ang (s : State) (c : Bool) (a i : Nat) : (s.raiseIf c a i).ang = s.ang := by
  unfold State.raiseIf
  split <;> rfl

/-! Records. -/

@[simp] theorem State.modRing_regs (s : State) (n : Nat) (f : Ring → Ring) : (s.modRing n f).regs = s.regs := rfl

@[simp] theorem State.writeSlot_regs (s : State) (n k word : Nat) (twoStep : Bool) :
    (s.writeSlot n k word twoStep).regs = s.regs := by
  cases twoStep <;> rfl

@[simp] theorem State.signalIf_regs (s : State) (n : Nat) : (s.signalIf n).regs = s.regs := by
  unfold State.signalIf State.signalRing State.msix
  dsimp only
  repeat' split
  all_goals rfl

@[simp] theorem State.writeOverflow_regs (s : State) (n : Nat) : (s.writeOverflow n).regs = s.regs := by simp [State.writeOverflow]

/-- A record that is dropped counts in its ring's DROPS alone, which lies in the window of the host interface. -/
theorem State.dropRecord_reg (s : State) {n a : Nat} (hn : n < 256) (ha : 0x20000 ≤ a) : (s.dropRecord n).reg a = s.reg a :=
  State.reg_putReg_ne s _ (by unfold aRingStat wHif; omega)

/-- Posting a record touches no register beyond the window of the host interface: it is lost, dropped, or written, after an
OVERFLOW record where others were dropped before. -/
theorem State.postEvt_reg (s : State) (kind : Nat) (dw : List Word) {a : Nat} (ha : 0x20000 ≤ a) :
    (s.postEvt kind dw).reg a = s.reg a := by
  have hn : s.fld (wHif + 0x50 + 4 * (kind / 4)) (8 * (kind % 4)) 8 < 256 := Nat.mod_lt _ (by decide)
  unfold State.postEvt State.postEvtAt
  dsimp only
  split
  · rfl
  · split
    · exact State.reg_bump_ne _ (by unfold aHifLost wHif; omega)
    · split
      · exact State.dropRecord_reg _ hn ha
      · split
        · unfold State.reg
          simp
        · split
          · exact State.dropRecord_reg _ hn ha
          · unfold State.reg
            simp

theorem State.angRecord_reg (s : State) (flags src num t e theta : Nat) {a : Nat} (ha : 0x20000 ≤ a) :
    (s.angRecord flags src num t e theta).reg a = s.reg a := s.postEvt_reg _ _ ha

theorem State.angRecord_ang (s : State) (flags src num t e theta : Nat) : (s.angRecord flags src num t e theta).ang = s.ang :=
  State.kept_of_mask (State.postEvt_butPost ..) (fun u => u.ang) (fun _ => rfl)

theorem State.angRecord_trk (s : State) (flags src num t e theta k : Nat) : (s.angRecord flags src num t e theta).trk k = s.trk k :=
  congrArg (fun a : Ang => Tab.get (fun _ => Trk.reset) a.trk k) (State.angRecord_ang ..)

theorem State.angRecord_mkr (s : State) (flags src num t e theta : Nat) : (s.angRecord flags src num t e theta).mkr = s.mkr :=
  State.kept_of_mask (State.postEvt_butPost ..) (fun u => u.mkr) (fun _ => rfl)

/-! Rows of edges. -/

/-- A row whose edge has come acts in the present state. -/
theorem State.edgeRow_come {s : State} {f : State → Option Nat} {e : Nat} (act : State → State) (hf : f s = some e)
    (he : e / 16 ≤ s.now) : s.edgeRow f act = act s := by
  simp [State.edgeRow, hf, State.atEdge_come he]

theorem State.edgeRow_none {s : State} {f : State → Option Nat} (act : State → State) (hf : f s = none) : s.edgeRow f act = s := by
  simp [State.edgeRow, hf]

/-- Changes that each leave the state as it is leave it together. -/
theorem State.each_fixed_of_mem {α : Type} {s : State} {f : State → α → State} {l : List α} (hf : ∀ x ∈ l, f s x = s) :
    s.each l f = s := by
  unfold State.each
  induction l with
  | nil => rfl
  | cons x l ih => rw [List.foldl_cons, hf x List.mem_cons_self, ih fun y hy => hf y (List.mem_cons_of_mem x hy)]

end Sys2Proof.Machine
end

section
/-!
A tracker without angle events to act (09 R259, R260): what a tooth, a miss and an overflow do to it.
-/

namespace Sys2Proof.Machine

open Sys2Proof.Safety

variable {s : State} {t : Nat}

/-! No event acts. -/

/-- What leaves the registers of the angle events and their arming alone gives the tracker no event. -/
theorem noEvents_congr {u : State} (hno : NoEvents s t) (hreg : ∀ k, k < 32 → u.reg (aAngEv k) = s.reg (aAngEv k))
    (harmed : u.ang.armed = s.ang.armed) : NoEvents u t := by
  intro k hk htrk
  have hsame := hreg k hk
  simp only [State.evTrk, State.evOn, State.evArmed, State.fld, State.flag, hsame, harmed] at htrk ⊢
  exact hno k hk htrk

/-- The registers of the angle events lie above those of both trackers. -/
theorem aAngEv_ne_aTrk {k i : Nat} (ht : t < 2) (hi : i < 0x100) : aAngEv k ≠ aTrk t + i := by
  unfold aAngEv aTrk
  omega

theorem mem_trkEvents {k : Nat} : k ∈ s.trkEvents t ↔ k < 32 ∧ s.evTrk k = t := by
  simp [State.trkEvents]

/-- No event of the tracker fires or is armed again before an edge. -/
theorem State.angCatchUp_noEvents (hno : NoEvents s t) (e : Nat) : s.angCatchUp t e = s := by
  refine State.each_fixed_of_mem fun k hk => ?_
  obtain ⟨hlt, htrk⟩ := mem_trkEvents.mp hk
  obtain ⟨hoff, harmed⟩ := hno k hlt htrk
  have hrearm : s.angRearmEdge k = none := by simp [State.angRearmEdge, harmed]
  have hreach : s.angReachEdge k = none := by simp [State.angReachEdge, hoff]
  simp only [hrearm, hreach]

/-- No event of the tracker fires as θ jumps to a tooth. -/
theorem State.angJump_noEvents (hno : NoEvents s t) (e angle : Nat) : s.angJump t e angle = s := by
  refine State.each_fixed_of_mem fun k hk => ?_
  obtain ⟨hlt, htrk⟩ := mem_trkEvents.mp hk
  obtain ⟨hoff, -⟩ := hno k hlt htrk
  simp [hoff]

/-- No event of the tracker is armed as sync comes or goes. -/
theorem State.armEvents_noEvents (hno : NoEvents s t) (e : Nat) :
    s.each (s.trkEvents t) (fun s k => if s.evOn k then s.arm k e else s) = s := by
  refine State.each_fixed_of_mem fun k hk => ?_
  obtain ⟨hlt, htrk⟩ := mem_trkEvents.mp hk
  obtain ⟨hoff, -⟩ := hno k hlt htrk
  simp [hoff]

/-! Loss of sync (R258, R264). -/

/-- The state in which a loss of sync has been told, its record still to come. -/
def State.lossTold (s : State) (t cause : Nat) (x : Trk) : State :=
  (s.setTrk t { x with st := .seek, lastLoss := BitVec.ofNat 3 cause, hist := [] }).raise (aTrkEv t) (bit1 3)

theorem State.trkLoss_eq (hno : NoEvents s t) (ht : t < 2) (cause e : Nat) (x : Trk) : s.trkLoss t cause e x =
    (s.lossTold t cause x).angRecord 8 3 cause t e ((s.lossTold t cause x).theta t e) := by
  have htold : NoEvents (s.lossTold t cause x) t := noEvents_congr hno
    (fun _ _ => State.reg_raise_ne _ _ (aAngEv_ne_aTrk ht (by decide : 8 < 0x100))) rfl
  exact congrArg (fun u : State => u.angRecord 8 3 cause t e (u.theta t e)) (State.armEvents_noEvents htold e)

/-- A loss of sync leaves the tracker in SEEK with its cause, sets the event, and touches no other register of it. -/
theorem State.trkLoss_shows (hno : NoEvents s t) (ht : t < 2) (cause e : Nat) (x : Trk) :
    (s.trkLoss t cause e x).trk t = { x with st := .seek, lastLoss := BitVec.ofNat 3 cause, hist := [] } ∧
    bitOf ((s.trkLoss t cause e x).reg (aTrkEv t)) 3 = true ∧
    (∀ i, bitOf (s.reg (aTrkEv t)) i = true → bitOf ((s.trkLoss t cause e x).reg (aTrkEv t)) i = true) ∧
    ∀ a, 0x20000 ≤ a → a ≠ aTrkEv t → (s.trkLoss t cause e x).reg a = s.reg a := by
  have hreg : ∀ a, 0x20000 ≤ a → (s.trkLoss t cause e x).reg a = (s.lossTold t cause x).reg a := fun a ha => by
    rw [State.trkLoss_eq hno ht, State.angRecord_reg _ _ _ _ _ _ _ ha]
  have hev := hreg (aTrkEv t) (by unfold aTrkEv aTrk wAng; omega)
  refine ⟨?_, ?_, fun i hset => ?_, fun a ha hne => (hreg a ha).trans (State.reg_raise_ne _ _ hne)⟩
  · rw [State.trkLoss_eq hno ht, State.angRecord_trk]
    exact State.trk_setTrk ..
  · rw [hev]
    exact State.bitOf_raise _ _ (by decide)
  · rw [hev]
    exact State.bitOf_raise_of_set _ hset

/-! SEEK (R259). -/

theorem State.toothEdge_seek (hno : NoEvents s t) (hst : (s.trk t).st = .seek) (i e : Nat) :
    s.toothEdge t i e = s.trkSeek t i e := by
  simp [State.toothEdge, hst, State.angCatchUp_noEvents hno]

theorem State.trkSeek_first (hseen : (s.trk t).seen = false) (i e : Nat) :
    s.trkSeek t i e = s.setTrk t { s.trk t with seen := true, treal := e, hist := [] } := by
  simp [State.trkSeek, hseen]

theorem State.trkSeek_noise {i last : Nat} {rest : List Nat} (hseen : (s.trk t).seen = true) (hhist : (s.trk t).hist = last :: rest)
    (hi : i * (2 * (s.trkMiss t + 1)) < last) (e : Nat) : s.trkSeek t i e = s := by
  simp [State.trkSeek, hseen, hhist, hi]

theorem State.trkSeek_second (hseen : (s.trk t).seen = true) (hhist : (s.trk t).hist = []) (i e : Nat) :
    s.trkSeek t i e = s.setTrk t { s.trk t with treal := e, hist := [i] } := by
  simp [State.trkSeek, hseen, hhist]

/-- A tracker that has confirmed a gap at an edge, with the last interval. -/
def Trk.synced (x : Trk) (i e : Nat) : Trk :=
  { x with
    st := .sync, position := 1, p := i, tref := e, treal := e, spanned := 0, missed := false, tprev := e, thetaRef := 65536
    runs := true, hist := [] }

/-- The gap that the two intervals before the last one show, confirmed by the last one. -/
structure GapConfirmed (m a b i : Nat) : Prop where
  loud : b ≤ i * (2 * (m + 1))
  low : (2 * m + 1) * a ≤ 2 * b
  high : 2 * b ≤ (2 * m + 3) * a
  close : 2 * (m + 1) * i ≤ 3 * b

theorem State.trkSeek_confirms {a b i : Nat} {more : List Nat} (hno : NoEvents s t) (hseen : (s.trk t).seen = true)
    (hhist : (s.trk t).hist = b :: a :: more) (hgap : GapConfirmed (s.trkMiss t) a b i) (e : Nat) :
    s.trkSeek t i e =
      ((s.setTrk t ((s.trk t).synced i e)).raise (aTrkEv t) (bit1 2)).angRecord 16 3 0 t e 65536 := by
  have harm : NoEvents (s.setTrk t ((s.trk t).synced i e)) t := noEvents_congr hno (fun _ _ => rfl) rfl
  have hold : ¬ (!(s.trk t).seen) = true := by simp [hseen]
  have hquiet : ¬ decide (i * (2 * (s.trkMiss t + 1)) < b) = true := by simpa using hgap.loud
  have hfar : b ≤ 2 * (s.trkMiss t + 1) * i := Nat.mul_comm i _ ▸ hgap.loud
  have hconfirmed : (decide ((2 * s.trkMiss t + 1) * a ≤ 2 * b) && decide (2 * b ≤ (2 * s.trkMiss t + 3) * a) &&
      decide (b ≤ 2 * (s.trkMiss t + 1) * i) && decide (2 * (s.trkMiss t + 1) * i ≤ 3 * b)) = true := by
    simp [hgap.low, hgap.high, hgap.close, hfar]
  unfold State.trkSeek
  dsimp only
  rw [if_neg hold, hhist]
  refine (if_neg hquiet).trans ((if_pos hconfirmed).trans ?_)
  exact congrArg (fun u : State => (u.raise (aTrkEv t) (bit1 2)).angRecord 16 3 0 t e 65536) (State.armEvents_noEvents harm e)

/-! SYNC (R260). -/

theorem State.toothEdge_sync (hno : NoEvents s t) (hst : (s.trk t).st = .sync) (i e : Nat) :
    s.toothEdge t i e = s.trkTooth t e := by
  simp [State.toothEdge, hst, State.angCatchUp_noEvents hno]

theorem State.trkTooth_early {e : Nat} (h : 2 * (e - (s.trk t).tref) < s.trkExp t) :
    s.trkTooth t e = (s.bump (aTrk t + 0x10)).raise (aTrkEv t) (bit1 0) := by
  simp [State.trkTooth, h]

theorem State.trkTooth_late {e : Nat} (hin : s.trkExp t ≤ 2 * (e - (s.trk t).tref))
    (h : 3 * s.trkExp t < 2 * (e - (s.trk t).tref)) : s.trkTooth t e = s := by
  simp [State.trkTooth, Nat.not_lt.mpr hin, h]

/-- An edge in its window that passes the gap check and is not too fast is the next tooth. -/
theorem State.trkTooth_accepted {e : Nat} (hno : NoEvents s t) (hlo : s.trkExp t ≤ 2 * (e - (s.trk t).tref))
    (hhi : 2 * (e - (s.trk t).tref) ≤ 3 * s.trkExp t)
    (hgap : s.trkSpan t = 1 ∨ (2 * s.trkMiss t + 1) * (s.trk t).p ≤ 2 * (e - (s.trk t).tprev))
    (hslow : 3200 * ((s.trk t).spanned + s.trkSpan t) ≤ e - (s.trk t).treal) :
    s.trkTooth t e = s.setTrk t { s.trkAt t e (s.trk t) with
      treal := e, p := (e - (s.trk t).treal) / ((s.trk t).spanned + s.trkSpan t), spanned := 0, missed := false } := by
  have hpass : ¬ (decide (1 < s.trkSpan t) &&
      decide (2 * (e - (s.trk t).tprev) < (2 * s.trkMiss t + 1) * (s.trk t).p)) = true := by
    rcases hgap with hone | hpass
    · simp [hone]
    · simp [Nat.not_lt.mpr hpass]
  unfold State.trkTooth
  simp only [Nat.not_lt.mpr hlo, Nat.not_lt.mpr hhi, Nat.not_lt.mpr hslow, hpass, Bool.false_eq_true, if_false, State.angJump_noEvents hno]

/-- The state in which a miss has been counted and told. -/
def State.missTold (s : State) (t : Nat) : State := (s.bump (aTrk t + 0x14)).raise (aTrkEv t) (bit1 1)

/-- The tracker at the virtual tooth of a miss. -/
def State.virtualTooth (s : State) (t : Nat) : Trk :=
  { s.trkAt t ((s.trk t).tref + s.trkExp t) (s.trk t) with spanned := (s.trk t).spanned + s.trkSpan t, missed := true }

/-- The counter and the event of a miss leave the expected interval as it is. -/
theorem State.missTold_trkExp (s : State) (t : Nat) : (s.missTold t).trkExp t = s.trkExp t := by
  have hcfg : (s.missTold t).reg (aTrk t) = s.reg (aTrk t) :=
    (State.reg_raise_ne _ _ (by unfold aTrkEv; omega)).trans (State.reg_bump_ne _ (by omega))
  unfold State.trkExp State.trkSpan State.trkMiss State.trkPos State.fld
  rw [hcfg]
  rfl

theorem State.missTold_noEvents (hno : NoEvents s t) (ht : t < 2) : NoEvents (s.missTold t) t :=
  noEvents_congr hno (fun _ _ => (State.reg_raise_ne _ _ (aAngEv_ne_aTrk ht (by decide : 8 < 0x100))).trans
    (State.reg_bump_ne _ (aAngEv_ne_aTrk ht (by decide : 0x14 < 0x100)))) rfl

theorem State.toothMiss_sync (hno : NoEvents s t) (hst : (s.trk t).st = .sync) :
    s.toothMiss t = if (s.trk t).missed then (s.missTold t).trkLoss t 1 (s.missEdge t) ((s.missTold t).virtualTooth t)
      else (s.missTold t).setTrk t ((s.missTold t).virtualTooth t) := by
  unfold State.toothMiss
  simp only [hst, State.angCatchUp_noEvents hno]
  rfl

/-- A miss counts and is told; the first one places a virtual tooth, a second one in a row loses sync with cause 1 (R258, R260). -/
theorem State.toothMiss_shows (hno : NoEvents s t) (ht : t < 2) (hst : (s.trk t).st = .sync) :
    (s.toothMiss t).reg (aTrk t + 0x14) = satInc (s.reg (aTrk t + 0x14)) ∧ bitOf ((s.toothMiss t).reg (aTrkEv t)) 1 = true ∧
    ((s.trk t).missed = false → ((s.toothMiss t).trk t).st = .sync ∧
      ((s.toothMiss t).trk t).tref = (s.trk t).tref + s.trkExp t ∧ ((s.toothMiss t).trk t).missed = true ∧
      ((s.toothMiss t).trk t).treal = (s.trk t).treal ∧ ((s.toothMiss t).trk t).p = (s.trk t).p) ∧
    ((s.trk t).missed = true → ((s.toothMiss t).trk t).st = .seek ∧ ((s.toothMiss t).trk t).lastLoss = 1 ∧
      bitOf ((s.toothMiss t).reg (aTrkEv t)) 3 = true) := by
  have hne : aTrk t + 0x14 ≠ aTrkEv t := by unfold aTrkEv; omega
  have hcount : (s.missTold t).reg (aTrk t + 0x14) = satInc (s.reg (aTrk t + 0x14)) :=
    (State.reg_raise_ne _ _ hne).trans (State.reg_bump ..)
  have htold : bitOf ((s.missTold t).reg (aTrkEv t)) 1 = true := State.bitOf_raise _ _ (by decide)
  rw [State.toothMiss_sync hno hst]
  cases hmissed : (s.trk t).missed with
  | false =>
    refine ⟨hcount, htold, fun _ => ?_, fun h => Bool.noConfusion h⟩
    rw [if_neg Bool.false_ne_true, State.trk_setTrk]
    exact ⟨hst, congrArg ((s.trk t).tref + ·) (State.missTold_trkExp s t), rfl, rfl, rfl⟩
  | true =>
    rw [if_pos rfl]
    obtain ⟨htrk, hlost, hset, hreg⟩ := State.trkLoss_shows (State.missTold_noEvents hno ht) ht 1 (s.missEdge t)
      ((s.missTold t).virtualTooth t)
    refine ⟨(hreg _ (by unfold aTrk wAng; omega) hne).trans hcount, hset 1 htold, fun h => Bool.noConfusion h, fun _ => ?_⟩
    rw [htrk]
    exact ⟨rfl, rfl, hlost⟩

/-! Overflow of the interval counter and the end of the free run (R258, R263). -/

theorem State.intervalOverflow_seek (hst : (s.trk t).st = .seek) :
    s.intervalOverflow t = s.setTrk t { s.trk t with seen := false, hist := [] } := by
  simp [State.intervalOverflow, hst]

theorem State.intervalOverflow_sync (hno : NoEvents s t) (hst : (s.trk t).st = .sync) :
    s.intervalOverflow t = s.trkLoss t 4 (s.overflowEdge t) { s.trk t with seen := false } := by
  simp [State.intervalOverflow, hst, State.angCatchUp_noEvents hno]

theorem State.freeRunDone_noEvents (hno : NoEvents s t) (hst : (s.trk t).st ≠ .sync) (hruns : (s.trk t).runs = true) :
    s.freeRunDone t = s.setTrk t { s.trk t with runs := false } := by
  simp [State.freeRunDone, hst, hruns, State.angCatchUp_noEvents hno]

end Sys2Proof.Machine
end

section
/-!
The rows of a tracker (09 R258 to R260, R263): each acts at its edge, once it has come.
-/

namespace Sys2Proof.Machine

open Sys2Proof.Safety

variable {s : State} {t : Fin 2}

theorem exec_toothEdge_off (since : BitVec 32) (hst : (s.trk t).st = .off) : exec (.toothEdge t since) s = .next s :=
  congrArg Host.Outcome.next (if_pos hst)

theorem exec_toothEdge {since : BitVec 32} (hst : (s.trk t).st ≠ .off) (hcome : s.toothAt t since.toNat / 16 ≤ s.now) :
    exec (.toothEdge t since) s = .next (s.toothEdge t since.toNat (s.toothAt t since.toNat)) :=
  congrArg Host.Outcome.next ((if_neg hst).trans (State.atEdge_come hcome))

/-- The first edge that a tracker in SEEK sees stands in the current core cycle. -/
theorem State.toothAt_first (hst : (s.trk t).st = .seek) (hseen : (s.trk t).seen = false) (i : Nat) :
    s.toothAt t i = 16 * s.now := by
  simp [State.toothAt, hst, hseen, State.fastNow, State.now, Nat.mul_comm]

/-- Every other edge stands so many samples after the last accepted one. -/
theorem State.toothAt_later (hlater : (s.trk t).st = .seek → (s.trk t).seen = true) (i : Nat) :
    s.toothAt t i = (s.trk t).treal + i := by
  unfold State.toothAt
  exact if_neg (by simpa using hlater)

theorem exec_toothEdge_first (hno : NoEvents s t) (since : BitVec 32) (hst : (s.trk t).st = .seek) (hseen : (s.trk t).seen = false) :
    exec (.toothEdge t since) s = .next (s.setTrk t { s.trk t with seen := true, treal := 16 * s.now, hist := [] }) := by
  have hat := State.toothAt_first hst hseen since.toNat
  rw [exec_toothEdge (by simp [hst]) (by omega), hat, State.toothEdge_seek hno hst, State.trkSeek_first hseen]

theorem exec_toothEdge_seek {since : BitVec 32} (hno : NoEvents s t) (hst : (s.trk t).st = .seek) (hseen : (s.trk t).seen = true)
    (hcome : ((s.trk t).treal + since.toNat) / 16 ≤ s.now) :
    exec (.toothEdge t since) s = .next (s.trkSeek t since.toNat ((s.trk t).treal + since.toNat)) := by
  have hat := State.toothAt_later (fun _ => hseen) since.toNat
  rw [exec_toothEdge (by simp [hst]) (hat ▸ hcome), hat, State.toothEdge_seek hno hst]

theorem exec_toothEdge_sync {since : BitVec 32} (hno : NoEvents s t) (hst : (s.trk t).st = .sync)
    (hcome : ((s.trk t).treal + since.toNat) / 16 ≤ s.now) :
    exec (.toothEdge t since) s = .next (s.trkTooth t ((s.trk t).treal + since.toNat)) := by
  have hat := State.toothAt_later (s := s) (t := t) (by simp [hst]) since.toNat
  rw [exec_toothEdge (by simp [hst]) (hat ▸ hcome), hat, State.toothEdge_sync hno hst]

theorem exec_toothMiss (hst : (s.trk t).st = .sync) (hcome : s.missEdge t / 16 ≤ s.now) :
    exec (.toothMiss t) s = .next (s.toothMiss t) :=
  congrArg Host.Outcome.next (State.edgeRow_come _ (if_pos hst) hcome)

theorem exec_intervalOverflow (hst : (s.trk t).st = .sync ∨ (s.trk t).st = .seek ∧ (s.trk t).seen = true)
    (hcome : s.overflowEdge t / 16 ≤ s.now) : exec (.intervalOverflow t) s = .next (s.intervalOverflow t) := by
  refine congrArg Host.Outcome.next (State.edgeRow_come _ (if_neg ?_) hcome)
  rcases hst with h | ⟨h, hseen⟩
  · simp [h]
  · simp [h, hseen]

theorem exec_freeRunEnd (hst : (s.trk t).st ≠ .sync) (hruns : (s.trk t).runs = true) (hcome : s.freeRunEdge t / 16 ≤ s.now) :
    exec (.freeRunEnd t) s = .next (s.freeRunDone t) :=
  congrArg Host.Outcome.next (State.edgeRow_come _ (if_pos (by simp [hst, hruns])) hcome)

end Sys2Proof.Machine
end

section
/-!
Angle events at their angle (09 R262, R263): firing, withholding, arming again.
-/

namespace Sys2Proof.Machine

open Sys2Proof.Safety

variable {s : State} {k : Nat}

@[simp] theorem State.evArmed_disarm : (s.disarm k).evArmed k = false := by
  simp [State.disarm, State.evArmed]

theorem State.evArmed_disarm_ne {j : Nat} (h : j ≠ k) : (s.disarm k).evArmed j = s.evArmed j := by
  simp [State.disarm, State.evArmed, Tab.get_set_ne h]

@[simp] theorem State.disarm_mkr (s : State) (k : Nat) : (s.disarm k).mkr = s.mkr := rfl
@[simp] theorem State.disarm_reg (s : State) (k a : Nat) : (s.disarm k).reg a = s.reg a := rfl

theorem State.evTrk_lt (s : State) (k : Nat) : s.evTrk k < 2 := Nat.mod_lt _ (by decide)

/-- The registers of an event are none of its tracker's. -/
theorem aTrk_ne_aAngEv (s : State) (k : Nat) {i : Nat} (hi : i < 0x100) : aTrk (s.evTrk k) + i ≠ aAngEv k :=
  (aAngEv_ne_aTrk (s.evTrk_lt k) hi).symm

/-- The state in which triggers, the TLA and the host are told of event k. -/
def State.angTold (s : State) (k e : Nat) (extrapolated catchup : Bool) : State :=
  let u := ((((s.trigEdges 2 k true (e / 16 + 12) (e % 16)).extChange (16 + k) true e).raiseIf extrapolated
    (aTrkEv (s.evTrk k)) 5).raiseIf catchup (aTrkEv (s.evTrk k)) 6)
  if u.flag (aAngEv k) 28 then
    u.recordAt (e / 16 + 12) (u.angWords (b01 extrapolated + 2 * b01 catchup) 2 k (s.evTrk k) e (u.evAngle k))
  else u

theorem State.angTold_ang (s : State) (k e : Nat) (extrapolated catchup : Bool) : (s.angTold k e extrapolated catchup).ang = s.ang := by
  unfold State.angTold
  dsimp only
  rw [apply_ite State.ang]
  exact (ite_self _).trans ((State.raiseIf_ang ..).trans (State.raiseIf_ang ..))

theorem State.angTold_reg (s : State) (e : Nat) (extrapolated catchup : Bool) {a : Nat} (ha : a ≠ aTrkEv (s.evTrk k)) :
    (s.angTold k e extrapolated catchup).reg a = s.reg a := by
  unfold State.angTold
  dsimp only
  rw [apply_ite (State.reg · a)]
  exact (ite_self _).trans ((State.reg_raiseIf_ne _ _ _ ha).trans (State.reg_raiseIf_ne _ _ _ ha))

theorem State.angFire_eq (s : State) (k e : Nat) (extrapolated catchup : Bool) : s.angFire k e extrapolated catchup =
    let u := (s.angTold k e extrapolated catchup).disarm k
    if u.flag (aAngEv k) 29 then u.putReg (aAngEv k) (u.reg (aAngEv k) &&& 0x7FFFFFFF) else u := rfl

/-- What an event at its angle leaves behind in either case: it is disarmed, the others and the trackers are as they were. -/
structure Disarms (s : State) (k : Nat) (u : State) : Prop where
  own : u.evArmed k = false
  others : ∀ j, j ≠ k → u.evArmed j = s.evArmed j
  trk : u.ang.trk = s.ang.trk

theorem disarms_of_ang {u v : State} (hu : u.ang = s.ang) (hv : v.ang = (u.disarm k).ang) : Disarms s k v where
  own := by
    unfold State.evArmed
    rw [hv]
    exact State.evArmed_disarm
  others j hj := by
    unfold State.evArmed
    rw [hv, ← hu]
    exact State.evArmed_disarm_ne hj
  trk := by
    rw [hv, ← hu]
    rfl

theorem State.angFire_disarms (s : State) (k e : Nat) (extrapolated catchup : Bool) :
    Disarms s k (s.angFire k e extrapolated catchup) := by
  refine disarms_of_ang (s.angTold_ang k e extrapolated catchup) ?_
  rw [State.angFire_eq]
  dsimp only
  split <;> rfl

/-- ONCE clears EN of an event that fires (R262). -/
theorem State.angFire_reg_own (s : State) (k e : Nat) (extrapolated catchup : Bool) :
    (s.angFire k e extrapolated catchup).reg (aAngEv k) =
      s.reg (aAngEv k) &&& (if s.flag (aAngEv k) 29 then 0x7FFFFFFF else 0xFFFFFFFF) := by
  have hreg : ((s.angTold k e extrapolated catchup).disarm k).reg (aAngEv k) = s.reg (aAngEv k) :=
    s.angTold_reg e extrapolated catchup (aTrk_ne_aAngEv s k (by decide : 8 < 0x100)).symm
  rw [State.angFire_eq]
  dsimp only
  unfold State.flag
  rw [hreg]
  split
  · exact State.reg_putReg ..
  · rw [hreg]
    exact (BitVec.and_allOnes (x := s.reg (aAngEv k))).symm

/-- An event that fires touches no register but its own and its tracker's events. -/
theorem State.angFire_reg_ne (s : State) (e : Nat) (extrapolated catchup : Bool) {a : Nat} (hown : a ≠ aAngEv k)
    (hev : a ≠ aTrkEv (s.evTrk k)) : (s.angFire k e extrapolated catchup).reg a = s.reg a := by
  have hreg : ((s.angTold k e extrapolated catchup).disarm k).reg a = s.reg a := s.angTold_reg e extrapolated catchup hev
  rw [State.angFire_eq]
  dsimp only
  split
  · exact (State.reg_putReg_ne _ _ hown).trans hreg
  · exact hreg

/-- The state in which event k is counted and told as withheld, its record still to come. -/
def State.withheldTold (s : State) (k : Nat) : State :=
  (s.raise (aTrkEv (s.evTrk k)) (bit1 4)).bump (aTrk (s.evTrk k) + 0x18)

theorem State.withheldTold_ang (s : State) (k : Nat) : (s.withheldTold k).ang = s.ang :=
  (State.bump_ang ..).trans (State.raise_ang ..)

theorem State.angWithhold_eq (s : State) (k e : Nat) : s.angWithhold k e =
    ((s.withheldTold k).angRecord 4 2 k (s.evTrk k) e (s.evAngle k)).disarm k := rfl

theorem State.angWithhold_disarms (s : State) (k e : Nat) : Disarms s k (s.angWithhold k e) := by
  rw [State.angWithhold_eq]
  exact disarms_of_ang ((State.angRecord_ang ..).trans (s.withheldTold_ang k)) rfl

theorem State.angWithhold_mkr (s : State) (k e : Nat) : (s.angWithhold k e).mkr = s.mkr := by
  rw [State.angWithhold_eq, State.disarm_mkr, State.angRecord_mkr]
  exact (State.bump_mkr ..).trans (State.raise_mkr ..)

theorem State.angWithhold_reg (s : State) (k e : Nat) {a : Nat} (ha : 0x20000 ≤ a) :
    (s.angWithhold k e).reg a = (s.withheldTold k).reg a := by
  rw [State.angWithhold_eq, State.disarm_reg, State.angRecord_reg _ _ _ _ _ _ _ ha]

theorem State.withheldTold_count (s : State) (k : Nat) :
    (s.withheldTold k).reg (aTrk (s.evTrk k) + 0x18) = satInc (s.reg (aTrk (s.evTrk k) + 0x18)) :=
  (State.reg_bump ..).trans (congrArg satInc (State.reg_raise_ne _ _ (by unfold aTrkEv; omega)))

theorem State.withheldTold_event (s : State) (k : Nat) : bitOf ((s.withheldTold k).reg (aTrkEv (s.evTrk k))) 4 = true := by
  rw [State.withheldTold, State.reg_bump_ne _ (by unfold aTrkEv; omega)]
  exact State.bitOf_raise _ _ (by decide)

/-- In SYNC an event whose angle is reached fires. -/
theorem State.angReach_sync {e : Nat} (hreach : s.angReachEdge k = some e) (hst : (s.trk (s.evTrk k)).st = .sync) :
    s.angReach k = s.angFire k e
      (decide (s.trkSpan (s.evTrk k) * 65536 ≤ s.angleAhead (s.evTrk k) (s.evAngle k))) false := by
  simp [State.angReach, hreach, hst]

/-- In free run it is withheld. -/
theorem State.angReach_free {e : Nat} (hreach : s.angReachEdge k = some e) (hst : (s.trk (s.evTrk k)).st ≠ .sync) :
    s.angReach k = s.angWithhold k e := by
  simp [State.angReach, hreach, hst]

theorem State.angReach_disarms {e : Nat} (hreach : s.angReachEdge k = some e) : Disarms s k (s.angReach k) := by
  by_cases hst : (s.trk (s.evTrk k)).st = .sync
  · rw [State.angReach_sync hreach hst]
    exact State.angFire_disarms ..
  · rw [State.angReach_free hreach hst]
    exact State.angWithhold_disarms ..

/-! The rows. -/

section

variable {k : Fin 32} {i : Fin 16} {e : Nat}

theorem exec_angleEventFire (hreach : s.angReachEdge k = some e) (hi : e % 16 = i.val) (hcome : e / 16 ≤ s.now) :
    exec (.angleEventFire k i) s = .next (s.angReach k) :=
  congrArg Host.Outcome.next (State.edgeRow_come _ (by simp [hreach, hi]) hcome)

theorem exec_angleEventFire_none (i : Fin 16) (hreach : s.angReachEdge k = none) : exec (.angleEventFire k i) s = .next s :=
  congrArg Host.Outcome.next (State.edgeRow_none _ (by simp [hreach]))

theorem exec_angleEventRearm (hrearm : s.angRearmEdge k = some e) (hcome : e / 16 ≤ s.now) :
    exec (.angleEventRearm k) s = .next (s.arm k e) :=
  congrArg Host.Outcome.next ((State.edgeRow_come _ hrearm hcome).trans (by rw [hrearm]))

theorem exec_angleEventRearm_none (hrearm : s.angRearmEdge k = none) : exec (.angleEventRearm k) s = .next s :=
  congrArg Host.Outcome.next (State.edgeRow_none _ hrearm)

end

/-- Settles O46: a row whose edge has come acts there, so each clause is the lemma of one branch of the tracker's rules, in which no
event takes part; the rows of an event fire it, withhold it or arm it. -/
theorem trackersFollowTheTeeth : Obligations.TrackersFollowTheTeeth := by
  unfold Obligations.TrackersFollowTheTeeth
  refine ⟨fun s t since hno => ⟨?off, ?first, ?noise, ?second, ?confirm, ?early, ?late, ?accepted, ?miss, ?overflow, ?free⟩,
    fun s k i e => ⟨fun hreach hi hcome => ?fire, exec_angleEventFire_none i, exec_angleEventRearm, exec_angleEventRearm_none⟩⟩
  case off => exact exec_toothEdge_off since
  case first => exact exec_toothEdge_first hno since
  case noise =>
    intro last rest hst hseen hcome hhist hi
    rw [exec_toothEdge_seek hno hst hseen hcome]
    exact congrArg Host.Outcome.next (State.trkSeek_noise hseen hhist hi _)
  case second =>
    intro hst hseen hcome hhist
    rw [exec_toothEdge_seek hno hst hseen hcome]
    exact congrArg Host.Outcome.next (State.trkSeek_second hseen hhist _ _)
  case confirm =>
    intro b a more hst hseen hcome hhist hloud hlow hhigh hclose
    refine ⟨_, (exec_toothEdge_seek hno hst hseen hcome).trans (congrArg Host.Outcome.next
      (State.trkSeek_confirms hno hseen hhist ⟨hloud, hlow, hhigh, hclose⟩ _)), ?_, ?_⟩
    · exact (State.angRecord_trk ..).trans (State.trk_setTrk ..)
    · rw [State.angRecord_reg _ _ _ _ _ _ _ (by unfold aTrkEv aTrk wAng; omega)]
      exact State.bitOf_raise _ _ (by decide)
  case early =>
    intro hst hcome hearly
    rw [exec_toothEdge_sync hno hst hcome]
    exact congrArg Host.Outcome.next (State.trkTooth_early hearly)
  case late =>
    intro hst hcome hin hlate
    rw [exec_toothEdge_sync hno hst hcome]
    exact congrArg Host.Outcome.next (State.trkTooth_late hin hlate)
  case accepted =>
    intro hst hcome hlo hhi hgap hslow
    rw [exec_toothEdge_sync hno hst hcome]
    exact congrArg Host.Outcome.next (State.trkTooth_accepted hno hlo hhi hgap hslow)
  case miss =>
    intro hst hcome
    exact ⟨_, exec_toothMiss hst hcome, State.toothMiss_shows hno t.isLt hst⟩
  case overflow =>
    intro hcome
    refine ⟨fun hst hseen => ?_, fun hst => ?_⟩
    · rw [exec_intervalOverflow (.inr ⟨hst, hseen⟩) hcome, State.intervalOverflow_seek hst]
    · refine ⟨_, exec_intervalOverflow (.inl hst) hcome, ?_⟩
      rw [State.intervalOverflow_sync hno hst]
      obtain ⟨htrk, hlost, -⟩ := State.trkLoss_shows hno t.isLt 4 (s.overflowEdge t) { s.trk t with seen := false }
      rw [htrk]
      exact ⟨rfl, rfl, rfl, hlost⟩
  case free =>
    intro hst hruns hcome
    rw [exec_freeRunEnd hst hruns hcome, State.freeRunDone_noEvents hno hst hruns]
  case fire =>
    obtain ⟨hown, hothers, htrk⟩ := State.angReach_disarms hreach
    refine ⟨_, exec_angleEventFire hreach hi hcome, hown, hothers, htrk, fun hst => ?_, fun hst => ?_⟩
    · rw [State.angReach_sync hreach hst]
      exact ⟨State.angFire_reg_own .., State.angFire_reg_ne _ _ _ _ (aTrk_ne_aAngEv s k (by decide)) (by unfold aTrkEv; omega)⟩
    · rw [State.angReach_free hreach hst, State.angWithhold_reg _ _ _ (by unfold aTrk wAng; omega),
        State.angWithhold_reg _ _ _ (by unfold aTrkEv aTrk wAng; omega)]
      exact ⟨State.angWithhold_mkr .., s.withheldTold_count k, s.withheldTold_event k⟩

end Sys2Proof.Machine
end

section
/-!
What a change of the trigger-logic array leaves alone, and what an accepted write in the TLA window does (10 R276 to R280).
-/

namespace Sys2Proof.Machine
open Sys2Proof.Safety

/-! Changes of the array. -/

@[simp] theorem State.modTla_tla (s : State) (f : Tla → Tla) : (s.modTla f).tla = f s.tla := rfl

@[simp] theorem Tla.sh_setSh (t : Tla) (b : TBank) : (t.setSh b).sh = b := by
  cases h : t.active <;> simp [Tla.setSh, Tla.sh, h]

@[simp] theorem Tla.act_setSh (t : Tla) (b : TBank) : (t.setSh b).act = t.act := by
  cases h : t.active <;> simp [Tla.setSh, Tla.act, h]

@[simp] theorem Tla.act_setAct (t : Tla) (b : TBank) : (t.setAct b).act = b := by
  cases h : t.active <;> simp [Tla.setAct, Tla.act, h]

@[simp] theorem Tla.sh_setAct (t : Tla) (b : TBank) : (t.setAct b).sh = t.sh := by
  cases h : t.active <;> simp [Tla.setAct, Tla.sh, h]

/-- Writing the shadow bank leaves all but the banks alone. -/
theorem Tla.setSh_kept {β : Type} (g : Tla → β) (hg : ∀ (u : Tla) (x y : TBank), g { u with bank0 := x, bank1 := y } = g u)
    (t : Tla) (b : TBank) : g (t.setSh b) = g t := by
  unfold Tla.setSh
  split
  · exact hg t b t.bank1
  · exact hg t t.bank0 b

/-- Writing the active bank leaves all but the banks alone. -/
theorem Tla.setAct_kept {β : Type} (g : Tla → β) (hg : ∀ (u : Tla) (x y : TBank), g { u with bank0 := x, bank1 := y } = g u)
    (t : Tla) (b : TBank) : g (t.setAct b) = g t := by
  unfold Tla.setAct
  split
  · exact hg t t.bank0 b
  · exact hg t b t.bank1

/-! Accepted writes in the TLA window. -/

theorem wrote_tla (s : State) (rq : Requester) (a : Nat) (r : RegRow) (v : Word) : (wrote s rq a r v).tla = s.tla := by
  rw [wrote_eq]

/-- The effect of a register of the TLA takes the value with the request's bits (R276 to R280). -/
theorem afterWrite_tla {t : State} {o : Nat} (ho : o < 0x10000) (rq : Requester) (old new v : Word) (h : Hint)
    (hlive : Live t (wTla + o)) : t.afterWrite rq (wTla + o) old new v false h = t.afterTla o v false := by
  have hwindow : (wTla + o) / 0x10000 = 0x08 := by unfold wTla; omega
  have hoffset : (wTla + o) % 0x10000 = o := by unfold wTla; omega
  unfold Live at hlive
  unfold State.afterWrite
  simp only [hlive, hwindow, hoffset, Bool.false_and, Bool.false_eq_true, if_false]

section

variable {s : State} {w : Wr} {o : Nat} {r : RegRow} {v : Word}

/-- Where no bit is RW, an accepted write has the effect of the stored bits with the request's. -/
theorem busWrite_tla_request (ho : o < 0x10000) (hw : Written s w (wTla + o) r v) (hm : r.mask .rw = 0) :
    s.busWrite w.rq (wTla + o) w.be v =
      (wrote s w.rq (wTla + o) r v).afterTla o (s.reg (wTla + o) ||| (v &&& r.requestMask)) false := by
  rw [busWrite_written_request hw hm]
  exact afterWrite_tla ho _ _ _ _ _ (wrote_live hw.live)

/-- TLA_CTRL is stored, and its write has no effect of its own. -/
theorem busWrite_tlaCtrl (hw : Written s w wTla r v) : s.busWrite w.rq wTla w.be v = wrote s w.rq wTla r v := by
  have hm : r.mask .rw ≠ 0 := by
    rw [← Option.some.inj ((show rowOf wTla = some (regGA 0x0000 [fRW 1 1 1, fRW 0 1 0]) from rfl).symm.trans hw.takes.row)]
    decide
  rw [busWrite_written hw hm]
  exact (afterWrite_tla (o := 0) (by decide) _ _ _ _ _ (wrote_live hw.live)).trans (by simp [State.afterTla])

end

/-- GO, bit 0 of a pulse register, stands in the value that its effect takes when it is written 1. -/
theorem bitOf_go (x : Word) : bitOf (x ||| 1#32) 0 = true := by
  rw [bitOf, BitVec.getLsbD_or]
  exact Bool.or_eq_true_iff.mpr (.inr rfl)

/-- Where the word of a write-only register is zero, its effect takes the value as written. -/
theorem request_of_zero (v : Word) : (0 : Word) ||| (v &&& 0xFFFFFFFF) = v :=
  BitVec.zero_or.trans (BitVec.and_allOnes (x := v))

end Sys2Proof.Machine
end

section
/-!
The shadow bank of the array (10 R276 to R279): its words, its check and the swap.
-/

namespace Sys2Proof.Machine

open Sys2Proof.Safety

/-! Shadow words (R276). -/

/-- The row of TLA_SH_HI (10 Registers): one write-only field, nothing stored. -/
def rowShadowHigh : RegRow := reg 0x0028 [fWO 0 32]

/-- A word is stored in the shadow bank, which is unchecked by it, and the address moves on past it. -/
def State.shadowStored (s : State) (a : Nat) (word : BitVec 64) : State :=
  (s.modTla (fun t => { t.setSh { t.sh.store a word with checked := false } with stores := t.stores + 1 })).putReg (wTla + 0x20)
    (BitVec.ofNat 32 ((a + 1) % 4096))

theorem State.tlaStore_eq (s : State) (hi : Word) : s.tlaStore hi =
    s.tlaAbort.shadowStored (s.fld (wTla + 0x20) 0 12) (hi ++ s.reg (wTla + 0x24)) := rfl

theorem State.tlaAbort_idle {s : State} (h : s.tla.checkBusy = false) : s.tlaAbort = s := by simp [State.tlaAbort, h]

theorem State.tlaAbort_busy {s : State} (h : s.tla.checkBusy = true) :
    s.tlaAbort = (s.modTla (fun t => { t with checkBusy := false })).raise aTlaEv (bit1 2) := by simp [State.tlaAbort, h]

/-- An accepted write of TLA_SH_HI stores the word of both halves at the address as it stood, after the abort of a check. -/
theorem exec_tlaShadowStore {s : State} {w : Wr} {r : RegRow} (hw : Written s w (wTla + 0x28) r w.value)
    (hzero : s.reg (wTla + 0x28) = 0) : exec (.tlaShadowStore w) s =
      .next ((wrote s w.rq (wTla + 0x28) r w.value).tlaAbort.shadowStored (s.fld (wTla + 0x20) 0 12)
        (w.value ++ s.reg (wTla + 0x24))) := by
  have hrow : r = rowShadowHigh := Option.some.inj (hw.takes.row.symm.trans rfl)
  subst hrow
  have hkept {b : Nat} (hb : b ≠ wTla + 0x28) : (wrote s w.rq (wTla + 0x28) rowShadowHigh w.value).reg b = s.reg b :=
    lands_reg_ne _ _ _ _ _ hb
  show ok (s.busWrite w.rq (wTla + 0x28) w.be w.value) = _
  rw [busWrite_tla_request (by decide) hw (by decide), hzero, show rowShadowHigh.requestMask = 0xFFFFFFFF by decide,
    request_of_zero]
  refine congrArg Host.Outcome.next ((State.tlaStore_eq _ _).trans ?_)
  rw [State.fld, hkept (by decide), hkept (by decide)]
  rfl

/-! The check (R277). -/

/-- The array as the result of a check is written, the check being over. -/
def Tla.withResult (t : Tla) (result : Nat × Nat × Nat) : Tla :=
  { t with
    checkBusy := false
    resErr := BitVec.ofNat 4 result.1
    resCell := BitVec.ofNat 10 result.2.1
    resDepth := BitVec.ofNat 8 (min 255 result.2.2) }

/-- The array as the end of a check with a result and a signature leaves it: a bank without errors is checked, and its signature
is the reference. -/
def Tla.checkedAs (t : Tla) (result : Nat × Nat × Nat) (sig : Word) : Tla :=
  if result.1 = 0 then { (t.withResult result).setSh { t.sh with checked := true, sig := sig } with sigRef := sig }
  else (t.withResult result).setSh { t.sh with checked := false }

theorem State.tlaChecked_idle {s : State} (h : s.tla.checkBusy = false) : s.tlaChecked = s := by simp [State.tlaChecked, h]

theorem State.tlaChecked_busy {s : State} (h : s.tla.checkBusy = true) : s.tlaChecked =
    (s.modTla (fun t => t.checkedAs t.sh.check t.sh.signature)).raise (wTla + 0x3C) (bit1 0) := by
  unfold State.tlaChecked State.modTla Tla.checkedAs
  dsimp only
  generalize s.tla.sh.check = result
  generalize s.tla.sh.signature = sig
  rw [h]
  rfl

/-- The result is shown whatever is written to the shadow bank with it. -/
theorem Tla.withResult_setSh_shows (t : Tla) (result : Nat × Nat × Nat) (b : TBank) :
    let u := (t.withResult result).setSh b
    u.checkBusy = false ∧ u.act = t.act ∧ u.sh = b ∧ u.resErr = BitVec.ofNat 4 result.1 ∧ u.resCell = BitVec.ofNat 10 result.2.1 ∧
      u.resDepth = BitVec.ofNat 8 (min 255 result.2.2) :=
  ⟨Tla.setSh_kept (·.checkBusy) (fun _ _ _ => rfl) .., Tla.act_setSh .., Tla.sh_setSh ..,
    Tla.setSh_kept (·.resErr) (fun _ _ _ => rfl) .., Tla.setSh_kept (·.resCell) (fun _ _ _ => rfl) ..,
    Tla.setSh_kept (·.resDepth) (fun _ _ _ => rfl) ..⟩

/-- What the end of a check with a result and a signature shows. -/
structure CheckShown (t : Tla) (result : Nat × Nat × Nat) (sig : Word) (u : Tla) : Prop where
  idle : u.checkBusy = false
  act : u.act = t.act
  words : u.sh.words = t.sh.words
  error : u.resErr = BitVec.ofNat 4 result.1
  cell : u.resCell = BitVec.ofNat 10 result.2.1
  depth : u.resDepth = BitVec.ofNat 8 (min 255 result.2.2)
  checked : u.sh.checked = decide (result.1 = 0)
  signed : result.1 = 0 → u.sh.sig = sig ∧ u.sigRef = sig

theorem Tla.checkedAs_shows (t : Tla) (result : Nat × Nat × Nat) (sig : Word) :
    CheckShown t result sig (t.checkedAs result sig) := by
  by_cases h : result.1 = 0
  · obtain ⟨hidle, hact, hsh, herr, hcell, hdepth⟩ :=
      t.withResult_setSh_shows result { t.sh with checked := true, sig := sig }
    rw [Tla.checkedAs, if_pos h]
    exact ⟨hidle, hact, (congrArg TBank.words hsh).trans rfl, herr, hcell, hdepth,
      (congrArg TBank.checked hsh).trans (decide_eq_true h).symm, fun _ => ⟨congrArg TBank.sig hsh, rfl⟩⟩
  · obtain ⟨hidle, hact, hsh, herr, hcell, hdepth⟩ := t.withResult_setSh_shows result { t.sh with checked := false }
    rw [Tla.checkedAs, if_neg h]
    exact ⟨hidle, hact, (congrArg TBank.words hsh).trans rfl, herr, hcell, hdepth,
      (congrArg TBank.checked hsh).trans (decide_eq_false h).symm, fun hclean => absurd hclean h⟩

/-- The row of TLA_CHECK (10 Registers): one pulse bit. -/
def rowCheckGo : RegRow := reg 0x0008 [fWP 0 1]

/-- The row of TLA_SWAP (10 Registers): one pulse bit, guarded. -/
def rowSwapGo : RegRow := regG 0x0004 [fWP 0 1]

/-- An accepted GO of TLA_CHECK begins a check, or falls on one that runs. -/
theorem exec_tlaCheck {s : State} {rq : Requester} {r : RegRow} (hw : Written s ⟨rq, 0xF, 1⟩ (wTla + 0x08) r 1) :
    exec (.tlaCheck rq 0xF) s = .next (if s.tla.checkBusy then wrote s rq (wTla + 0x08) r 1 else
      (wrote s rq (wTla + 0x08) r 1).modTla (fun t => { t with checkBusy := true, checkAt := t.clock })) := by
  have hrow : r = rowCheckGo := Option.some.inj (hw.takes.row.symm.trans rfl)
  subst hrow
  refine congrArg Host.Outcome.next ((busWrite_tla_request (by decide) hw (by decide)).trans ?_)
  rw [show rowCheckGo.requestMask = 1 by decide]
  cases h : s.tla.checkBusy <;> simp [State.afterTla, bitOf_go, wrote_tla, h]

/-- An accepted GO of TLA_SWAP makes the swap wait (R278). -/
theorem exec_tlaSwap {s : State} {rq : Requester} {r : RegRow} (hw : Written s ⟨rq, 0xF, 1⟩ (wTla + 0x04) r 1) :
    exec (.tlaSwap rq 0xF) s = .next ((wrote s rq (wTla + 0x04) r 1).modTla (fun t => { t with swapPending := true })) := by
  have hrow : r = rowSwapGo := Option.some.inj (hw.takes.row.symm.trans rfl)
  subst hrow
  refine congrArg Host.Outcome.next ((busWrite_tla_request (by decide) hw (by decide)).trans ?_)
  rw [show rowSwapGo.requestMask = 1 by decide]
  simp [State.afterTla, bitOf_go]

/-- The end of a check comes where CD_SERAC runs. -/
theorem exec_checkDone {s : State} (hrun : s.runs cSerac = true) : exec .checkDone s = .next s.tlaChecked :=
  congrArg Host.Outcome.next (State.during_runs hrun)

/-! The swap (R279). -/

/-- At a swap the banks exchange. -/
theorem State.tlaSwap_banks (s : State) : s.tlaSwap.tla.act = s.tla.sh ∧ s.tlaSwap.tla.sh = s.tla.act := by
  cases h : s.tla.active <;> simp [State.tlaSwap, State.modTla, Tla.act, Tla.sh, h]

/-- Settles O47: an accepted write has the effect of its register, and the end of a check is that of its result. -/
theorem shadowBankIsCheckedAndSwapped : Obligations.ShadowBankIsCheckedAndSwapped := by
  unfold Obligations.ShadowBankIsCheckedAndSwapped
  refine ⟨fun s w r hw hzero => ?store, fun s rq r hw => ?check, fun s hrun => ?done, fun s rq r hw => exec_tlaSwap hw,
    fun s => ?swap, fun s w r hw => congrArg Host.Outcome.next (busWrite_tlaCtrl hw)⟩
  case store =>
    have hbusy := congrArg Tla.checkBusy (wrote_tla s w.rq (wTla + 0x28) r w.value)
    rw [exec_tlaShadowStore hw hzero]
    refine ⟨fun h => ?_, fun h => ?_⟩
    · rw [State.tlaAbort_idle (hbusy.trans h)]
      rfl
    · rw [State.tlaAbort_busy (hbusy.trans h)]
      rfl
  case check =>
    rw [exec_tlaCheck hw]
    exact ⟨fun h => by simp [h], fun h => by simp [h]⟩
  case done =>
    rw [exec_checkDone hrun]
    refine ⟨fun h => by rw [State.tlaChecked_idle h], fun h => ⟨_, congrArg _ (State.tlaChecked_busy h), ?_⟩⟩
    obtain ⟨hidle, hact, hwords, herr, hcell, hdepth, hchecked, hsigned⟩ := s.tla.checkedAs_shows s.tla.sh.check s.tla.sh.signature
    exact ⟨rfl, hidle, hact, hwords, herr, hcell, hdepth, hchecked, hsigned, rfl⟩
  case swap =>
    obtain ⟨hact, hsh⟩ := s.tlaSwap_banks
    exact ⟨hact, hsh, rfl, rfl, rfl, rfl, rfl⟩

end Sys2Proof.Machine
end

section
/-!
Serac's word and its place in the pass (10 R281 to R284): what finishing, skipping and waiting for a word leave behind.
-/

namespace Sys2Proof.Machine

/-! The bank of Serac's word. -/

/-- A bank with the wrong bits of one word written. -/
def TBank.withErr (b : TBank) (i : Nat) (e : BitVec 72) : TBank := { b with errs := Tab.set (fun _ => 0) b.errs i e }

@[simp] theorem TBank.err_withErr (b : TBank) (i : Nat) (e : BitVec 72) : (b.withErr i e).err i = e := Tab.get_set

/-- The bank of Serac's word is written. -/
def Tla.setSeracBank (t : Tla) (b : TBank) : Tla := if 2176 ≤ t.pos then t.setSh b else t.setAct b

/-- Writing the bank of Serac's word leaves all but the banks alone. -/
theorem Tla.setSeracBank_kept {β : Type} (g : Tla → β)
    (hg : ∀ (u : Tla) (x y : TBank), g { u with bank0 := x, bank1 := y } = g u) (t : Tla) (b : TBank) :
    g (t.setSeracBank b) = g t := by
  unfold Tla.setSeracBank
  split
  · exact Tla.setSh_kept g hg t b
  · exact Tla.setAct_kept g hg t b

/-- In the active half Serac writes the active bank. -/
theorem Tla.setSeracBank_active {t : Tla} (h : t.pos < 2176) (b : TBank) :
    (t.setSeracBank b).act = b ∧ (t.setSeracBank b).sh = t.sh := by
  rw [Tla.setSeracBank, if_neg (by omega)]
  exact ⟨t.act_setAct b, t.sh_setAct b⟩

/-- In the shadow half it writes the shadow bank. -/
theorem Tla.setSeracBank_shadow {t : Tla} (h : 2176 ≤ t.pos) (b : TBank) :
    (t.setSeracBank b).sh = b ∧ (t.setSeracBank b).act = t.act := by
  rw [Tla.setSeracBank, if_pos h]
  exact ⟨t.sh_setSh b, t.act_setSh b⟩

theorem Tla.seracBank_active {t : Tla} (h : t.pos < 2176) : t.seracBank = t.act := if_neg (by omega)

theorem Tla.seracBank_shadow {t : Tla} (h : 2176 ≤ t.pos) : t.seracBank = t.sh := if_pos h

@[simp] theorem Tla.seracBank_setSeracBank (t : Tla) (b : TBank) : (t.setSeracBank b).seracBank = b := by
  have hpos : (t.setSeracBank b).pos = t.pos := Tla.setSeracBank_kept (·.pos) (fun _ _ _ => rfl) t b
  rcases Nat.lt_or_ge t.pos 2176 with h | h
  · rw [Tla.seracBank_active (hpos ▸ h), (Tla.setSeracBank_active h b).1]
  · rw [Tla.seracBank_shadow (hpos ▸ h), (Tla.setSeracBank_shadow h b).1]

/-- What no cycle of Serac changes of the array but by its own count: its clock, the writes that wait, the words of both banks. -/
def Tla.beside (t : Tla) : Nat × Nat × Tab (BitVec 64) × Tab (BitVec 64) := (t.clock, t.stores, t.act.words, t.sh.words)

/-- The words stay where the bank that is written has those of the one before. -/
theorem Tla.setSeracBank_beside {t : Tla} {b : TBank} (hb : b.words = t.seracBank.words) :
    (t.setSeracBank b).beside = t.beside := by
  have hclock := Tla.setSeracBank_kept (·.clock) (fun _ _ _ => rfl) t b
  have hstores := Tla.setSeracBank_kept (·.stores) (fun _ _ _ => rfl) t b
  rcases Nat.lt_or_ge t.pos 2176 with h | h
  · obtain ⟨hact, hsh⟩ := Tla.setSeracBank_active h b
    rw [Tla.seracBank_active h] at hb
    simp only [Tla.beside, hclock, hstores, hact, hsh, hb]
  · obtain ⟨hsh, hact⟩ := Tla.setSeracBank_shadow h b
    rw [Tla.seracBank_shadow h] at hb
    simp only [Tla.beside, hclock, hstores, hact, hsh, hb]

/-! On to the next word (R281, R284). -/

/-- The array as Serac goes on: at the end of the active half with its signature, at the end of the shadow half with a pass more. -/
def Tla.nextWord (t : Tla) : Tla :=
  if t.pos + 1 = 2176 then
    { t with pos := t.pos + 1, phase := 0, waited := 0, sigLast := t.act.signature, sigValid := true }
  else if 4352 ≤ t.pos + 1 then { t with pos := 0, phase := 0, waited := 0, passes := t.passes + 1 }
  else { t with pos := t.pos + 1, phase := 0, waited := 0 }

theorem State.seracNext_eq (s : State) : s.seracNext = s.modTla Tla.nextWord := by
  unfold State.seracNext Tla.nextWord State.modTla
  dsimp only
  split
  · rfl
  · split <;> rfl

/-- Going on leaves alone what is neither Serac's place nor its results. -/
theorem Tla.nextWord_kept {β : Type} (g : Tla → β)
    (hg : ∀ (u : Tla) (pos phase waited passes : Nat) (sig : Word) (valid : Bool),
      g { u with pos := pos, phase := phase, waited := waited, passes := passes, sigLast := sig, sigValid := valid } = g u)
    (t : Tla) : g t.nextWord = g t := by
  unfold Tla.nextWord
  split
  · exact hg t _ _ _ t.passes _ _
  · split
    · exact hg t _ _ _ _ t.sigLast t.sigValid
    · exact hg t _ _ _ t.passes t.sigLast t.sigValid

theorem Tla.nextWord_act (t : Tla) : t.nextWord.act = t.act := Tla.nextWord_kept Tla.act (fun _ _ _ _ _ _ _ => rfl) t

theorem Tla.nextWord_sh (t : Tla) : t.nextWord.sh = t.sh := Tla.nextWord_kept Tla.sh (fun _ _ _ _ _ _ _ => rfl) t

theorem Tla.nextWord_beside (t : Tla) : t.nextWord.beside = t.beside :=
  Tla.nextWord_kept Tla.beside (fun _ _ _ _ _ _ _ => rfl) t

/-- Serac's place and the results of its passes. -/
def Tla.progress (t : Tla) : Nat × Nat × Word × Bool := (t.pos, t.passes, t.sigLast, t.sigValid)

/-- Serac goes on from the place of `x`. -/
def SeracMoves (x t : Tla) : Prop :=
  (x.pos + 1 = 2176 → t.pos = 2176 ∧ t.sigLast = t.act.signature ∧ t.sigValid = true) ∧
  (x.pos + 1 = 4352 → t.pos = 0 ∧ t.passes = x.passes + 1) ∧
  (x.pos + 1 ≠ 2176 → t.sigLast = x.sigLast ∧ t.sigValid = x.sigValid) ∧
  (x.pos + 1 ≠ 4352 → t.pos = x.pos + 1 ∧ t.passes = x.passes) ∧ t.phase = 0 ∧ t.waited = 0

theorem Tla.nextWord_moves {x t : Tla} (hp : x.pos < 4352) (ht : t.progress = x.progress) : SeracMoves x t.nextWord := by
  simp only [Tla.progress, Prod.mk.injEq] at ht
  obtain ⟨hpos, hpasses, hlast, hvalid⟩ := ht
  unfold SeracMoves
  rw [← hpos] at hp ⊢
  rw [← hpasses, ← hlast, ← hvalid, Tla.nextWord_act]
  unfold Tla.nextWord
  split
  · next h => exact ⟨fun _ => ⟨h, rfl, rfl⟩, fun h' => by omega, fun h' => absurd h h', fun _ => ⟨rfl, rfl⟩, rfl, rfl⟩
  · next h =>
    split
    · exact ⟨fun h' => absurd h' h, fun _ => ⟨rfl, rfl⟩, fun _ => ⟨rfl, rfl⟩, fun h' => by omega, rfl, rfl⟩
    · exact ⟨fun h' => absurd h' h, fun h' => by omega, fun _ => ⟨rfl, rfl⟩, fun _ => ⟨rfl, rfl⟩, rfl, rfl⟩

/-! The finished word (R282). -/

/-- Writing the bank of Serac's word. -/
def State.putSeracBank (s : State) (b : TBank) : State := s.modTla (fun t => t.setSeracBank b)

theorem State.seracFlip_eq (s : State) (flips : BitVec 72) : s.seracFlip flips =
    s.putSeracBank (s.tla.seracBank.withErr (s.tla.pos % 2176) (s.tla.seracBank.err (s.tla.pos % 2176) ^^^ flips)) := rfl

/-- A word with one wrong bit is mended, counted and told. -/
def State.seracMended (s : State) : State :=
  (((s.putSeracBank (s.tla.seracBank.withErr (s.tla.pos % 2176) 0)).bump (wTla + 0x50)).raise aTlaEv (bit1 3)).detect
    0x0F uTla 0 (BitVec.ofNat 32 (s.tla.pos % 2176))

/-- A word of the active bank with more of them is told as permanent. -/
def State.seracLostActive (s : State) (wrong : BitVec 72) : State :=
  ((s.putSeracBank (s.tla.act.withErr (s.tla.pos % 2176) wrong)).bump (wTla + 0x54)).detect
    0x10 uTla 0 (BitVec.ofNat 32 (s.tla.pos % 2176)) true

/-- The shadow bank is unchecked by one of its own. -/
def State.seracLostShadow (s : State) (wrong : BitVec 72) : State :=
  (((s.putSeracBank { s.tla.sh.withErr (s.tla.pos % 2176) wrong with checked := false }).bump (wTla + 0x54)).raise
    aTlaEv (bit1 6)).detect 0x11 0 0 (BitVec.ofNat 32 (s.tla.pos % 2176))

/-- What Serac does with a word follows the number of bits wrong in it, and for more than one its bank. -/
theorem State.seracWord_eq (s : State) (wrong : BitVec 72) : s.seracWord s.tla.pos wrong =
    if popcount wrong = 0 then s
    else if popcount wrong = 1 then s.seracMended
    else if s.tla.pos < 2176 then s.seracLostActive wrong
    else s.seracLostShadow wrong := by
  rcases Nat.lt_or_ge s.tla.pos 2176 with hp | hp
  · simp [State.seracWord, Nat.not_le.mpr hp, hp, State.seracMended, State.seracLostActive, State.putSeracBank, State.modTla,
      Tla.setSeracBank, Tla.seracBank, TBank.withErr]
  · simp [State.seracWord, hp, Nat.not_lt.mpr hp, State.seracMended, State.seracLostShadow, State.putSeracBank, State.modTla,
      Tla.setSeracBank, Tla.seracBank, TBank.withErr]

section

variable {s : State} {wrong : BitVec 72}

theorem State.seracWord_clean (h : popcount wrong = 0) : s.seracWord s.tla.pos wrong = s := by
  rw [State.seracWord_eq, if_pos h]

theorem State.seracWord_one (h : popcount wrong = 1) : s.seracWord s.tla.pos wrong = s.seracMended := by
  rw [State.seracWord_eq, if_neg (by omega), if_pos h]

theorem State.seracWord_lostActive (h : 2 ≤ popcount wrong) (hp : s.tla.pos < 2176) :
    s.seracWord s.tla.pos wrong = s.seracLostActive wrong := by
  rw [State.seracWord_eq, if_neg (by omega), if_neg (by omega), if_pos hp]

theorem State.seracWord_lostShadow (h : 2 ≤ popcount wrong) (hp : 2176 ≤ s.tla.pos) :
    s.seracWord s.tla.pos wrong = s.seracLostShadow wrong := by
  rw [State.seracWord_eq, if_neg (by omega), if_neg (by omega), if_neg (Nat.not_lt.mpr hp)]

end

theorem State.seracScrub_eq (s : State) : s.seracScrub =
    (s.seracWord s.tla.pos (s.tla.seracBank.err (s.tla.pos % 2176))).modTla Tla.nextWord := State.seracNext_eq _

end Sys2Proof.Machine
end

section
/-!
A CD_SERAC cycle (10 R281 to R283): which of its five courses it takes, and what each leaves behind.
-/

namespace Sys2Proof.Machine

open Sys2Proof.Safety

/-! The courses of a cycle. -/

/-- A CD_SERAC cycle passes: its clock moves on, and one of the shadow writes that wait takes the memory port. -/
def State.seracClock (s : State) : State := s.modTla (fun t => { t with clock := t.clock + 1, stores := t.stores - 1 })

/-- Serac's word waits for the port. -/
def State.seracWaits (s : State) : State := s.modTla (fun t => { t with waited := t.waited + 1 })

/-- Serac takes the next cycle of its word. -/
def State.seracPhase (s : State) : State := s.modTla (fun t => { t with phase := t.phase + 1 })

/-- With no check running a cycle takes one of five courses: Serac is off, its word waits, or is skipped, or takes its next
cycle, or is finished. -/
theorem State.seracTick_eq {s : State} (hcheck : s.tla.checkBusy = false) : s.seracTick =
    if s.seracRuns = false then s.seracClock
    else if 0 < s.tla.stores ∧ s.tla.seracWants = true then
      if s.fld (wTla + 0x70) 0 16 ≤ s.tla.waited + 1 then s.seracClock.seracWaits.seracSkip else s.seracClock.seracWaits
    else if s.tla.phase < 3 then s.seracClock.seracPhase
    else s.seracClock.seracScrub := by
  have hend : ¬ (s.seracClock.tla.checkBusy && decide (s.seracClock.tla.checkAt + 20000 ≤ s.seracClock.tla.clock)) = true := by
    simp [State.seracClock, hcheck]
  unfold State.seracTick
  extract_lets busy u v w
  have hv : v = s.seracClock := if_neg hend
  have hw : w = s.seracClock.seracWaits := congrArg State.seracWaits hv
  rw [hw, hv]
  change (if (!s.seracRuns || (decide (2176 ≤ s.tla.pos) && s.tla.checkBusy)) = true then s.seracClock
    else if (decide (0 < s.tla.stores) && s.tla.seracWants) = true then
      if s.fld (wTla + 0x70) 0 16 ≤ s.tla.waited + 1 then s.seracClock.seracWaits.seracSkip else s.seracClock.seracWaits
    else if s.tla.phase < 3 then s.seracClock.seracPhase else s.seracClock.seracScrub) = _
  simp [hcheck]

section

variable {s : State}

theorem State.seracTick_off (hcheck : s.tla.checkBusy = false) (hoff : s.seracRuns = false) : s.seracTick = s.seracClock := by
  rw [State.seracTick_eq hcheck, if_pos hoff]

theorem State.seracTick_waits (hcheck : s.tla.checkBusy = false) (hruns : s.seracRuns = true)
    (hport : 0 < s.tla.stores ∧ s.tla.seracWants = true) (hlt : s.tla.waited + 1 < s.fld (wTla + 0x70) 0 16) :
    s.seracTick = s.seracClock.seracWaits := by
  rw [State.seracTick_eq hcheck, if_neg (by simp [hruns]), if_pos hport, if_neg (Nat.not_le.mpr hlt)]

theorem State.seracTick_skips (hcheck : s.tla.checkBusy = false) (hruns : s.seracRuns = true)
    (hport : 0 < s.tla.stores ∧ s.tla.seracWants = true) (hle : s.fld (wTla + 0x70) 0 16 ≤ s.tla.waited + 1) :
    s.seracTick = s.seracClock.seracWaits.seracSkip := by
  rw [State.seracTick_eq hcheck, if_neg (by simp [hruns]), if_pos hport, if_pos hle]

/-- Where no shadow write waits, or Serac does not want the port, it is free. -/
theorem port_free (hfree : s.tla.stores = 0 ∨ s.tla.seracWants = false) : ¬ (0 < s.tla.stores ∧ s.tla.seracWants = true) := by
  rcases hfree with h | h <;> simp [h]

theorem State.seracTick_phase (hcheck : s.tla.checkBusy = false) (hruns : s.seracRuns = true)
    (hfree : s.tla.stores = 0 ∨ s.tla.seracWants = false) (hphase : s.tla.phase < 3) :
    s.seracTick = s.seracClock.seracPhase := by
  rw [State.seracTick_eq hcheck, if_neg (by simp [hruns]), if_neg (port_free hfree), if_pos hphase]

theorem State.seracTick_scrubs (hcheck : s.tla.checkBusy = false) (hruns : s.seracRuns = true)
    (hfree : s.tla.stores = 0 ∨ s.tla.seracWants = false) (hphase : 3 ≤ s.tla.phase) :
    s.seracTick = (s.seracClock.seracWord s.seracClock.tla.pos (s.tla.seracBank.err (s.tla.pos % 2176))).modTla Tla.nextWord := by
  rw [State.seracTick_eq hcheck, if_neg (by simp [hruns]), if_neg (port_free hfree), if_neg (Nat.not_lt.mpr hphase)]
  exact State.seracScrub_eq _

end

/-! What every course leaves alone. -/

/-- What a cycle changes by its own count alone, or not at all: the clock and the writes that wait, the words of both banks, the
sequencers, time. -/
def State.besideSerac (s : State) : (Nat × Nat × Tab (BitVec 64) × Tab (BitVec 64)) × Tab Seq × Time :=
  (s.tla.beside, s.seqs, s.time)

theorem State.nextWord_besideSerac (s : State) : (s.modTla Tla.nextWord).besideSerac = s.besideSerac :=
  congrArg (fun b => (b, s.seqs, s.time)) s.tla.nextWord_beside

theorem State.putSeracBank_besideSerac {s : State} {b : TBank} (hb : b.words = s.tla.seracBank.words) :
    (s.putSeracBank b).besideSerac = s.besideSerac :=
  congrArg (fun b => (b, s.seqs, s.time)) (Tla.setSeracBank_beside hb)

theorem State.putSeracBank_progress (s : State) (b : TBank) : (s.putSeracBank b).tla.progress = s.tla.progress :=
  Tla.setSeracBank_kept Tla.progress (fun _ _ _ => rfl) s.tla b

/-- A word that is read stays in its place. -/
theorem State.seracWord_keeps_place (s : State) (wrong : BitVec 72) :
    (s.seracWord s.tla.pos wrong).besideSerac = s.besideSerac ∧
      (s.seracWord s.tla.pos wrong).tla.progress = s.tla.progress := by
  rw [State.seracWord_eq]
  split
  · exact ⟨rfl, rfl⟩
  · split
    · exact ⟨State.putSeracBank_besideSerac (s := s) rfl, s.putSeracBank_progress _⟩
    · split
      · next hp =>
        have hwords := congrArg TBank.words (Tla.seracBank_active hp)
        exact ⟨State.putSeracBank_besideSerac (s := s) hwords.symm, s.putSeracBank_progress _⟩
      · next hp =>
        have hwords := congrArg TBank.words (Tla.seracBank_shadow (Nat.not_lt.mp hp))
        exact ⟨State.putSeracBank_besideSerac (s := s) hwords.symm, s.putSeracBank_progress _⟩

theorem State.seracScrub_besideSerac (s : State) : s.seracScrub.besideSerac = s.besideSerac := by
  rw [State.seracScrub_eq, State.nextWord_besideSerac]
  exact (s.seracWord_keeps_place _).1

/-! A skipped word (R283). -/

/-- The agent's count of a SKIP record advances; of what the cycle is about, posting it touches nothing. -/
theorem State.skipRecord_shows (s : State) (agent kind unit : Nat) (dw1 : Word) :
    let t := s.skipRecord agent kind unit dw1
    t.tla = s.tla ∧ t.seqs = s.seqs ∧ t.time = s.time ∧ (∀ a, 0x20000 ≤ a → t.reg a = s.reg a) ∧
      Tab.get (fun _ => 0) t.flt.skips agent = satInc (Tab.get (fun _ => 0) s.flt.skips agent) := by
  have hkept {β : Type} (g : State → β) (hg : ∀ u : State, g u.butPost = g u) := State.kept_of_mask
    (State.postEvt_butPost { s with flt := { s.flt with
      skips := Tab.set (fun _ => 0) s.flt.skips agent (satInc (Tab.get (fun _ => 0) s.flt.skips agent)) } } 0x07
      [BitVec.ofNat 32 (agent * 2 ^ 24 + kind * 2 ^ 16 + unit), dw1, satInc (Tab.get (fun _ => 0) s.flt.skips agent), 0, 0]) g hg
  refine ⟨hkept (fun u => u.tla) fun _ => rfl, hkept (fun u => u.seqs) fun _ => rfl, hkept (fun u => u.time) fun _ => rfl,
    fun a ha => State.postEvt_reg _ _ _ ha, ?_⟩
  exact (congrArg (fun f => Tab.get (fun _ => 0) f.skips agent) (hkept (fun u => u.flt) fun _ => rfl)).trans Tab.get_set

/-- The state in which a skipped word is counted and told. -/
def State.seracSkipped (s : State) : State :=
  ((s.bump (wTla + 0x5C)).raise aTlaEv (bit1 7)).skipRecord 3 0 0 (BitVec.ofNat 32 (s.tla.pos % 2176))

theorem State.seracSkip_eq (s : State) : s.seracSkip = s.seracSkipped.modTla Tla.nextWord := State.seracNext_eq _

theorem State.seracSkipped_shows (s : State) :
    s.seracSkipped.tla = s.tla ∧ s.seracSkipped.seqs = s.seqs ∧ s.seracSkipped.time = s.time ∧
    s.seracSkipped.reg (wTla + 0x5C) = satInc (s.reg (wTla + 0x5C)) ∧ bitOf (s.seracSkipped.reg aTlaEv) 7 = true ∧
    Tab.get (fun _ => 0) s.seracSkipped.flt.skips 3 = satInc (Tab.get (fun _ => 0) s.flt.skips 3) := by
  obtain ⟨htla, hseqs, htime, hreg, hskips⟩ := ((s.bump (wTla + 0x5C)).raise aTlaEv (bit1 7)).skipRecord_shows 3 0 0
    (BitVec.ofNat 32 (s.tla.pos % 2176))
  refine ⟨htla, hseqs, htime, (hreg _ (by decide)).trans ?_, (congrArg (bitOf · 7) (hreg _ (by decide))).trans ?_, hskips⟩
  · rw [State.reg_raise_ne _ _ (by decide), State.reg_bump]
  · exact State.bitOf_raise _ _ (by decide)

theorem State.seracSkip_besideSerac (s : State) : s.seracSkip.besideSerac = s.besideSerac := by
  obtain ⟨htla, hseqs, htime, -⟩ := s.seracSkipped_shows
  rw [State.seracSkip_eq, State.nextWord_besideSerac, State.besideSerac, htla, hseqs, htime]
  rfl

/-- Whatever course it takes, a cycle counts itself and one write, and leaves words, sequencers and time alone. -/
theorem State.seracTick_besideSerac {s : State} (hcheck : s.tla.checkBusy = false) :
    s.seracTick.besideSerac = s.seracClock.besideSerac := by
  rw [State.seracTick_eq hcheck]
  split
  · rfl
  · split
    · split
      · exact State.seracSkip_besideSerac _
      · rfl
    · split
      · rfl
      · exact State.seracScrub_besideSerac _

/-! What is left of a word (R282). -/

/-- A mended word has no wrong bit, and the other bank is as it was. -/
theorem State.seracMended_banks (s : State) :
    (s.tla.pos < 2176 → s.seracMended.tla.act.err s.tla.pos = 0 ∧ s.seracMended.tla.sh = s.tla.sh) ∧
    (2176 ≤ s.tla.pos → s.tla.pos < 4352 →
      s.seracMended.tla.sh.err (s.tla.pos - 2176) = 0 ∧ s.seracMended.tla.act = s.tla.act) := by
  refine ⟨fun hp => ?_, fun hp hlt => ?_⟩
  · obtain ⟨hact, hsh⟩ := Tla.setSeracBank_active hp (s.tla.seracBank.withErr (s.tla.pos % 2176) 0)
    refine ⟨?_, hsh⟩
    rw [show s.seracMended.tla.act = _ from hact, Nat.mod_eq_of_lt hp, TBank.err_withErr]
  · obtain ⟨hsh, hact⟩ := Tla.setSeracBank_shadow hp (s.tla.seracBank.withErr (s.tla.pos % 2176) 0)
    refine ⟨?_, hact⟩
    rw [show s.seracMended.tla.sh = _ from hsh, show s.tla.pos % 2176 = s.tla.pos - 2176 by omega, TBank.err_withErr]

/-- A lost word of the active bank stays wrong, and the shadow bank is as it was. -/
theorem State.seracLostActive_banks {s : State} (hp : s.tla.pos < 2176) (wrong : BitVec 72) :
    (s.seracLostActive wrong).tla.act.err s.tla.pos = wrong ∧ (s.seracLostActive wrong).tla.sh = s.tla.sh := by
  obtain ⟨hact, hsh⟩ := Tla.setSeracBank_active hp (s.tla.act.withErr (s.tla.pos % 2176) wrong)
  refine ⟨?_, hsh⟩
  rw [show (s.seracLostActive wrong).tla.act = _ from hact, Nat.mod_eq_of_lt hp, TBank.err_withErr]

/-- A lost word of the shadow bank stays wrong, which is unchecked by it, and the active bank is as it was. -/
theorem State.seracLostShadow_banks {s : State} (hp : 2176 ≤ s.tla.pos) (hlt : s.tla.pos < 4352) (wrong : BitVec 72) :
    (s.seracLostShadow wrong).tla.sh.err (s.tla.pos - 2176) = wrong ∧ (s.seracLostShadow wrong).tla.sh.checked = false ∧
      (s.seracLostShadow wrong).tla.act = s.tla.act := by
  obtain ⟨hsh, hact⟩ := Tla.setSeracBank_shadow hp { s.tla.sh.withErr (s.tla.pos % 2176) wrong with checked := false }
  refine ⟨?_, congrArg TBank.checked hsh, hact⟩
  rw [show (s.seracLostShadow wrong).tla.sh = _ from hsh, show s.tla.pos % 2176 = s.tla.pos - 2176 by omega]
  exact TBank.err_withErr s.tla.sh _ _

end Sys2Proof.Machine
end

section
/-!
The rows of Serac (10 R281 to R286): those that pass core cycles, the votes of its copies, and housekeeping's check.
-/

namespace Sys2Proof.Machine

open Sys2Proof.Safety

/-! Core cycles pass. -/

/-- Core cycles pass until the array shows what is waited for, or Serac has stopped. -/
theorem State.seracUntil_passes {p : Tla → Bool} {q : State → Prop}
    (hq : ∀ u : State, q u ↔ p u.tla = true ∨ u.seracRuns = false ∨ u.runs cSerac = false) (s : State) (f : Nat) :
    Passes s f q (s.seracUntil p f) := by
  induction f generalizing s with
  | zero => exact ⟨0, Nat.le_refl 0, rfl, .inl rfl, fun j hj => absurd hj (Nat.not_lt_zero j)⟩
  | succ f ih =>
    have hstops : (p s.tla || !s.seracRuns || !s.runs cSerac || s.coreHeld) = true ↔ q s ∨ s.coreHeld = true := by
      rw [hq]
      simp [or_assoc]
    unfold State.seracUntil
    split
    · next hstop => exact ⟨0, Nat.zero_le _, rfl, .inr (hstops.mp hstop), fun j hj => absurd hj (Nat.not_lt_zero j)⟩
    · next hgoes =>
      obtain ⟨k, hk, ht, hend, hbefore⟩ := ih s.coreCycle
      refine ⟨k + 1, Nat.succ_le_succ hk, ht, hend.imp_left (congrArg (· + 1)), fun j hj => ?_⟩
      cases j with
      | zero => exact fun h => hgoes (hstops.mpr (.inl h))
      | succ j => exact hbefore j (Nat.lt_of_succ_lt_succ hj)

section

variable {s : State}

theorem exec_seracWordScrub (flips : BitVec 72) (hrun : s.runs cSerac = true) : exec (.seracWordScrub flips) s =
    .next ((s.seracFlip flips).seracUntil (fun t => t.pos != s.tla.pos) seracFuel) :=
  congrArg Host.Outcome.next (State.during_runs hrun)

theorem exec_seracPassEnd (hrun : s.runs cSerac = true) : exec .seracPassEnd s =
    .next (s.seracUntil (fun t => decide (t.pos < 2176) != decide (s.tla.pos < 2176)) seracFuel) :=
  congrArg Host.Outcome.next (State.during_runs hrun)

theorem exec_seracSkip (hrun : s.runs cSerac = true) : exec .seracSkip s =
    .next (s.seracUntil (fun t => t.pos != s.tla.pos || t.stores == 0) seracFuel) :=
  congrArg Host.Outcome.next (State.during_runs hrun)

end

/-- The bits that flip in Serac's word are wrong where they were right, and right where they were wrong. -/
theorem State.seracFlip_err (s : State) (flips : BitVec 72) :
    (s.seracFlip flips).tla.seracBank.err (s.tla.pos % 2176) = s.tla.seracBank.err (s.tla.pos % 2176) ^^^ flips := by
  rw [State.seracFlip_eq]
  exact (congrArg (·.err (s.tla.pos % 2176)) (Tla.seracBank_setSeracBank ..)).trans (TBank.err_withErr ..)

/-! Votes (R286). -/

/-- What the table of votes holds at a key: a CD_SERAC cycle, and a count. -/
def Tla.voteAt (t : Tla) (k : Nat) : Nat × Nat := Tab.get (fun _ => (0, 0)) t.votes k

/-- The cycles running in which the copy and bit of a key have been outvoted, with the present one. -/
def Tla.voteRun (t : Tla) (k : Nat) : Nat :=
  if (t.voteAt k).2 = 0 then 1
  else if (t.voteAt k).1 = t.clock then (t.voteAt k).2
  else if (t.voteAt k).1 + 1 = t.clock then (t.voteAt k).2 + 1 else 1

/-- Whether this is the fourth of them, and the first vote that makes it so. -/
def Tla.fourthVote (t : Tla) (k : Nat) : Bool := decide (t.voteRun k = 4) && decide ((t.voteAt k).2 ≠ 4)

/-- The vote is noted: the run at its bit's key, and that its copy has counted in this cycle. -/
def State.voteNoted (s : State) (copy bit : Nat) : State := s.modTla (fun t => { t with
  votes := Tab.set (fun _ => (0, 0)) (Tab.set (fun _ => (0, 0)) t.votes (64 * copy + bit)
    (s.tla.clock, s.tla.voteRun (64 * copy + bit))) (192 + copy) (s.tla.clock, 1) })

/-- A copy counts once in a cycle, and is told. -/
def State.voteCounted (s : State) (already : Bool) : State :=
  if already then s else ((s.bump (wTla + 0x58)).raise aTlaEv (bit1 4)).detect 0x13 0 0 0

/-- A bit that is outvoted in a fourth cycle running is told as permanent. -/
def State.voteStuck (s : State) (stuck : Bool) : State := if stuck then s.detect 0x14 uTla 0 0 true else s

theorem State.seracVote_eq {s : State} (hlive : s.tlaRetired = false) (copy bit : Nat) : s.seracVote copy bit =
    ((s.voteNoted copy bit).voteCounted (s.tla.voteAt (192 + copy) == (s.tla.clock, 1))).voteStuck
      (s.tla.fourthVote (64 * copy + bit)) := by
  unfold State.seracVote
  rw [if_neg (by simp [hlive])]
  rfl

section

variable (s : State) (already stuck : Bool)

theorem State.voteStuck_tla : (s.voteStuck stuck).tla = s.tla := by cases stuck <;> rfl
theorem State.voteStuck_regs : (s.voteStuck stuck).regs = s.regs := by cases stuck <;> rfl
theorem State.voteStuck_inbox : (s.voteStuck stuck).flt.inbox =
    s.flt.inbox ++ if stuck then [⟨0x14, uTla, 0, 0, true, s.ft64, s.flt.clock⟩] else [] := by
  cases stuck
  · exact (List.append_nil _).symm
  · rfl

theorem State.voteCounted_tla : (s.voteCounted already).tla = s.tla := by cases already <;> rfl
theorem State.voteCounted_ft64 : (s.voteCounted already).ft64 = s.ft64 := by cases already <;> rfl
theorem State.voteCounted_clock : (s.voteCounted already).flt.clock = s.flt.clock := by cases already <;> rfl
theorem State.voteCounted_inbox : (s.voteCounted already).flt.inbox =
    s.flt.inbox ++ if already then [] else [⟨0x13, 0, 0, 0, false, s.ft64, s.flt.clock⟩] := by
  cases already
  · rfl
  · exact (List.append_nil _).symm

end

section

variable {s : State} {copy : Fin 3} {bit : Fin 64}

/-- A copy that has not been outvoted on the bit in this cycle is so now. -/
theorem exec_seracVote_now (hrun : s.runs cSerac = true)
    (hnew : (s.tla.voteAt (64 * copy.val + bit.val)).2 = 0 ∨ (s.tla.voteAt (64 * copy.val + bit.val)).1 ≠ s.tla.clock) :
    exec (.seracVote copy bit) s = .next (s.seracVote copy.val bit.val) := by
  have hvoted : s.tla.voted copy.val bit.val = false := by
    show ((s.tla.voteAt (64 * copy.val + bit.val)).2 != 0 && (s.tla.voteAt (64 * copy.val + bit.val)).1 == s.tla.clock) = false
    rcases hnew with h | h <;> simp [h]
  refine congrArg Host.Outcome.next ((State.during_runs hrun).trans ?_)
  rw [hvoted]
  rfl

/-- One that has is outvoted in the next cycle. -/
theorem exec_seracVote_next (hrun : s.runs cSerac = true) (hsome : (s.tla.voteAt (64 * copy.val + bit.val)).2 ≠ 0)
    (hnow : (s.tla.voteAt (64 * copy.val + bit.val)).1 = s.tla.clock) : exec (.seracVote copy bit) s =
      .next ((s.seracUntil (fun t => t.clock != s.tla.clock) seracFuel).seracVote copy.val bit.val) := by
  have hvoted : s.tla.voted copy.val bit.val = true := by
    show ((s.tla.voteAt (64 * copy.val + bit.val)).2 != 0 && (s.tla.voteAt (64 * copy.val + bit.val)).1 == s.tla.clock) = true
    simp [hsome, hnow]
  refine congrArg Host.Outcome.next ((State.during_runs hrun).trans ?_)
  rw [hvoted, if_pos rfl]

/-- In a cycle after one in which the bit was outvoted the run is longer by one. -/
theorem Tla.voteRun_goes_on {t : Tla} {k n : Nat} (h : t.voteAt k = (t.clock - 1, n)) (hn : 0 < n) (hc : 0 < t.clock) :
    t.voteRun k = n + 1 := by
  have hrun : n ≠ 0 := Nat.ne_of_gt hn
  have hlast : t.clock - 1 ≠ t.clock := by omega
  have hnext : t.clock - 1 + 1 = t.clock := by omega
  simp [Tla.voteRun, h, hrun, hlast, hnext]

theorem Tla.fourthVote_goes_on {t : Tla} {k n : Nat} (h : t.voteAt k = (t.clock - 1, n)) (hn : 0 < n) (hc : 0 < t.clock) :
    t.fourthVote k = decide (n = 3) := by
  rw [Tla.fourthVote, Tla.voteRun_goes_on h hn hc, h]
  by_cases h3 : n = 3 <;> simp [h3]

/-- The key of a bit is not that of a copy. -/
theorem voteKey_ne (copy : Fin 3) (bit : Fin 64) : 64 * copy.val + bit.val ≠ 192 + copy.val := by omega

theorem State.voteNoted_own (s : State) (copy : Fin 3) (bit : Fin 64) :
    (s.voteNoted copy.val bit.val).tla.voteAt (64 * copy.val + bit.val) =
      (s.tla.clock, s.tla.voteRun (64 * copy.val + bit.val)) :=
  (Tab.get_set_ne (voteKey_ne copy bit)).trans Tab.get_set

end

/-- A vote changes the table of votes alone of the array; its copy counts and is told where it has not counted in this cycle; a run
goes on by one cycle, and its fourth is told as permanent. -/
theorem State.seracVote_shows {s : State} (hlive : s.tlaRetired = false) (copy : Fin 3) (bit : Fin 64) :
    let t := s.seracVote copy.val bit.val
    t.tla = { s.tla with votes := t.tla.votes } ∧
    (s.tla.voteAt (192 + copy.val) ≠ (s.tla.clock, 1) → t.regs = ((s.bump (wTla + 0x58)).raise aTlaEv (bit1 4)).regs) ∧
    (s.tla.voteAt (192 + copy.val) = (s.tla.clock, 1) → t.regs = s.regs) ∧
    (∀ n, s.tla.voteAt (64 * copy.val + bit.val) = (s.tla.clock - 1, n) → 0 < n → 0 < s.tla.clock →
      t.tla.voteAt (64 * copy.val + bit.val) = (s.tla.clock, n + 1) ∧
      t.flt.inbox = s.flt.inbox ++
        (if s.tla.voteAt (192 + copy.val) = (s.tla.clock, 1) then [] else [⟨0x13, 0, 0, 0, false, s.ft64, s.flt.clock⟩]) ++
        (if n = 3 then [⟨0x14, uTla, 0, 0, true, s.ft64, s.flt.clock⟩] else [])) := by
  intro t
  have ht : t = _ := State.seracVote_eq hlive copy.val bit.val
  have htla : t.tla = (s.voteNoted copy.val bit.val).tla := by rw [ht, State.voteStuck_tla, State.voteCounted_tla]
  refine ⟨by rw [htla]; rfl, fun hnew => ?_, fun hcounted => ?_, fun n hmine hn hc => ⟨?_, ?_⟩⟩
  · rw [ht, State.voteStuck_regs, beq_false_of_ne hnew]
    rfl
  · rw [ht, State.voteStuck_regs, beq_iff_eq.mpr hcounted]
    rfl
  · rw [htla, State.voteNoted_own, Tla.voteRun_goes_on hmine hn hc]
  · rw [ht, State.voteStuck_inbox, State.voteCounted_inbox, State.voteCounted_ft64, State.voteCounted_clock,
      Tla.fourthVote_goes_on hmine hn hc]
    simp only [beq_iff_eq, decide_eq_true_eq]
    rfl

/-! The check by housekeeping (R285). -/

/-- What the check finds wrong: a signature other than the reference, or a pass count that stands. -/
def Tla.seracBad (t : Tla) : Prop := (t.sigValid = true ∧ t.sigLast ≠ t.sigRef) ∨ t.lastPasses = some t.passes

theorem Tla.seracBad_iff (t : Tla) : t.seracBad ↔
    ((t.sigValid && t.sigLast != t.sigRef) || (t.lastPasses.map (fun p => p == t.passes)).getD false) = true := by
  cases h : t.lastPasses <;> simp [Tla.seracBad, h]

/-- The pass count is remembered for the next check. -/
def State.passesNoted (s : State) : State := s.modTla (fun t => { t with lastPasses := some t.passes })

section

variable {s : State}

theorem State.seracCheck_rests (h : s.tlaRetired = true ∨ s.hk.fw = false ∨ s.hk.swapped = false) : s.seracCheck = s := by
  unfold State.seracCheck
  rcases h with h | h | h <;> simp [h]

theorem State.seracCheck_eq (hlive : s.tlaRetired = false) (hfw : s.hk.fw = true) (hswapped : s.hk.swapped = true) :
    (s.tla.seracBad → s.seracCheck = (s.passesNoted.raise aTlaEv (bit1 5)).detect 0x12 uTla 0 0) ∧
    (¬ s.tla.seracBad → s.seracCheck = s.passesNoted) := by
  have hchecks : ¬ (s.tlaRetired || !s.hk.fw || !s.hk.swapped) = true := by simp [hlive, hfw, hswapped]
  unfold State.seracCheck
  rw [if_neg hchecks, Tla.seracBad_iff]
  exact ⟨fun hbad => if_pos hbad, fun hgood => if_neg hgood⟩

theorem exec_seracCheck (hrun : s.runs cSerac = true) : exec .seracCheck s = .next s.seracCheck :=
  congrArg Host.Outcome.next (State.during_runs hrun)

end

/-- Settles O48: a cycle takes one of five courses, each clause about it being the lemma of one of them; the rows pass core cycles
until Serac comes to what they name; a vote and the check are each one equation. -/
theorem seracScrubsTheArray : Obligations.SeracScrubsTheArray := by
  unfold Obligations.SeracScrubsTheArray
  refine ⟨fun s hcheck hpos => ?tick, fun s flips hrun => ⟨?scrub, ?pass, ?skip, s.seracFlip_err flips⟩,
    fun s copy bit hrun => ⟨fun hlive hnew => ⟨_, exec_seracVote_now hrun hnew, State.seracVote_shows hlive copy bit⟩,
      fun hsome hnow => ⟨_, ?passes, exec_seracVote_next hrun hsome hnow⟩⟩,
    fun s hrun => ⟨fun h => ?rests, fun hlive hfw hswapped => ?checks⟩⟩
  case tick =>
    have hbeside := State.seracTick_besideSerac hcheck
    simp only [State.besideSerac, Tla.beside, Prod.mk.injEq] at hbeside
    obtain ⟨⟨hclock, hstores, hact, hsh⟩, hseqs, htime⟩ := hbeside
    refine ⟨hclock, hstores, hact, hsh, hseqs, htime, fun hoff => ?off,
      fun hruns hsome hwants => ⟨fun hlt => ?waits, fun hle => ?skips⟩,
      fun hruns hfree => ⟨fun hphase => ?phase, fun hphase => ?finished⟩⟩
    case off =>
      rw [State.seracTick_off hcheck hoff]
      exact ⟨rfl, rfl, rfl⟩
    case waits =>
      rw [State.seracTick_waits hcheck hruns ⟨hsome, hwants⟩ hlt]
      exact ⟨rfl, rfl, rfl, rfl⟩
    case skips =>
      rw [State.seracTick_skips hcheck hruns ⟨hsome, hwants⟩ hle, State.seracSkip_eq]
      obtain ⟨htla, -, -, hcount, hevent, hskips⟩ := s.seracClock.seracWaits.seracSkipped_shows
      exact ⟨Tla.nextWord_moves hpos ((congrArg Tla.progress htla).trans rfl), hcount, hevent, hskips⟩
    case phase =>
      rw [State.seracTick_phase hcheck hruns hfree hphase]
      exact ⟨rfl, rfl, rfl, rfl⟩
    case finished =>
      rw [State.seracTick_scrubs hcheck hruns hfree hphase]
      refine ⟨Tla.nextWord_moves hpos (s.seracClock.seracWord_keeps_place _).2, ?_⟩
      dsimp only
      rw [State.modTla_tla, Tla.nextWord_act, Tla.nextWord_sh]
      refine ⟨fun h => ?_, fun h => ?_, fun h hp => ?_, fun h hp => ?_⟩
      · rw [State.seracWord_clean h]
        exact ⟨rfl, rfl, rfl, rfl⟩
      · rw [State.seracWord_one h]
        obtain ⟨hactive, hshadow⟩ := s.seracClock.seracMended_banks
        exact ⟨rfl, rfl, hactive, fun hp => hshadow hp hpos⟩
      · rw [State.seracWord_lostActive (s := s.seracClock) h hp]
        obtain ⟨herr, hkept⟩ := State.seracLostActive_banks (s := s.seracClock) hp (s.tla.seracBank.err (s.tla.pos % 2176))
        exact ⟨rfl, herr, hkept, rfl⟩
      · rw [State.seracWord_lostShadow (s := s.seracClock) h hp]
        obtain ⟨herr, hchecked, hkept⟩ :=
          State.seracLostShadow_banks (s := s.seracClock) hp hpos (s.tla.seracBank.err (s.tla.pos % 2176))
        exact ⟨rfl, herr, hchecked, hkept, rfl⟩
  case scrub =>
    exact ⟨_, exec_seracWordScrub flips hrun, State.seracUntil_passes (fun u => by simp) _ _⟩
  case pass =>
    exact ⟨_, exec_seracPassEnd hrun, State.seracUntil_passes (fun u => by simp) _ _⟩
  case skip =>
    exact ⟨_, exec_seracSkip hrun, State.seracUntil_passes (fun u => by simp [or_assoc]) _ _⟩
  case passes =>
    exact State.seracUntil_passes (fun u => by simp) _ _
  case rests => rw [exec_seracCheck hrun, State.seracCheck_rests h]
  case checks =>
    rw [exec_seracCheck hrun]
    obtain ⟨hbad, hgood⟩ := State.seracCheck_eq hlive hfw hswapped
    exact ⟨fun h => congrArg Host.Outcome.next (hbad h), fun h => congrArg Host.Outcome.next (hgood h)⟩

end Sys2Proof.Machine
end
